-- ==== Sys2Proof/Word.lean ====
section
/-!
DEFINITION. Word types of the module: 64-bit registers, register names, bytes.
-/
namespace Sys2Proof

/-- A 64-bit register, command word or device register (R122, R101, R7). -/
abbrev Word := BitVec 64
/-- A byte of any memory (R5). -/
abbrev Byte := BitVec 8
/-- A register number g0 to g31, or a hardware semaphore h0 to h31 (R92). -/
abbrev Reg := BitVec 5
/-- A predicate number p0 to p7 (R92). -/
abbrev PReg := BitVec 3

end Sys2Proof
end

