-- ==== Sys2Proof/Config.lean ====
section
/-!
DEFINITION. The values the manual leaves open, as constants without a body: nothing can be proved of what they are, so a
statement holds for every choice. Each is named in the assumption log.
-/
namespace Sys2Proof.Config

/-- A fresh open value for each draw of the model's counter (log entry 3). -/
opaque free : Nat → Nat

/-- The bound of a product whose bounded operand has bound +∞ and whose exact operand is all zeros (R81 states none), for
the two operands' bytes (log entry 10). -/
opaque openBound : Nat → Nat → BitVec 31

/-- The element bits of an immediate that its format cannot hold, where the bits are asked for (R164, R174; log entry 10). -/
opaque immBits : Nat → BitVec 16 → Nat

/-- Element `i` of a scan operand that has fewer elements than the scan (R187; log entry 10). -/
opaque scanTail : Nat → Nat → BitVec 32

/-- A byte that decryption gives with another key than the one the codeword was written with (R270, R386): for the blobs of the two
keys, the address and the 16 bytes that were written there (log entry 83). -/
opaque wrongKey : Nat → Nat → Nat → Nat → BitVec 8

/-- Whether a wrapped key blob passes the integrity check of RFC 3394 under the device wrap key, which no rule gives (R396; log
entry 9). -/
opaque keyGood : Nat → Bool

end Sys2Proof.Config
end

