-- ==== Sys2Proof/Syntax.lean ====
section
/-!
DEFINITION. The instructions of the module as syntax: one constructor of `Instr` for every row of the opcode
table (spec 07 R105 to R110, 23 R325, and the events of the table). Fields keep the bits of the encoding; what a
field's value may be is said in `Sys2Proof/WellFormed.lean`, what it means in `Sys2Proof/Machine/`.
-/
namespace Sys2Proof

/-- The sixteen format codes of R62 and R98, in code order. -/
inductive Fmt where
  | f32 | bf16 | f16 | e4m3 | e5m2 | i32 | i16 | i8 | ui8 | mxf8e4 | mxf8e5 | mxf4 | mxi8 | cb4 | bi16 | bf32
deriving DecidableEq, Repr

/-- An operand field of a bank or station entry (R97). -/
inductive Opnd where
  /-- LEVEL 0: the station's last-result latch. -/
  | ll
  /-- LEVEL 1: an operand-file row. -/
  | ofr (i : BitVec 4)
  /-- LEVEL 2: a lane, 0 to 7 cw0 to cw7 and 8 to 15 aw0 to aw7. -/
  | lane (l : BitVec 4)
  /-- LEVEL 3 INDEX 0: no operand. -/
  | none
  /-- LEVEL 3 INDEX 1: the immediate MOD[15:0]. -/
  | imm
  /-- LEVEL 3 INDEX 2: a row of zeros. -/
  | zero
deriving DecidableEq, Repr

/-- The common fields of a bank or station entry (R96). `imm` is MOD[15:0] where SA or SB is IMM. -/
structure Ent where
  idle : BitVec 6
  dst : Opnd
  sa : Opnd
  sb : Opnd
  ty : Fmt
  imm : BitVec 16
deriving DecidableEq, Repr

/-- The common fields of a matrix command (R99). -/
structure MxHdr where
  start : BitVec 40
  wval : BitVec 16
  wsem : BitVec 5
  wop : BitVec 2
  wen : BitVec 1
  ssem : BitVec 5
  sen : BitVec 1
  sinc : BitVec 8
deriving DecidableEq, Repr

/-- The common fields of a ferry command (R242, R243). -/
structure FHdr where
  sk : BitVec 3
  dk : BitVec 3
  h : BitVec 5
  hen : BitVec 1
  ben : BitVec 1
  scope : BitVec 3
  soft : BitVec 1
  cache : BitVec 1
deriving DecidableEq, Repr

/-- The common fields of a storage or key-value command (19 R281, 21 R309). -/
structure SHdr where
  h : BitVec 5
  hen : BitVec 1
  ben : BitVec 1
  scope : BitVec 3
  obj : BitVec 24
  bph : BitVec 2
  inp : BitVec 28
  bar : BitVec 24
  out : BitVec 28
  stat : BitVec 28
deriving DecidableEq, Repr

/-- The header of a queue-manager record (R23, R325). -/
structure RHdr where
  acq : BitVec 3
  rel : BitVec 3
  cls : BitVec 2
  queue : BitVec 10
  wen : BitVec 1
  wop : BitVec 3
  sen : BitVec 1
  sop : BitVec 2
  chain : BitVec 1
  wval : BitVec 32
  sval : BitVec 32
  wsem : BitVec 16
  ssem : BitVec 16
deriving DecidableEq, Repr

/-- The fields of a `copy` command beyond the header (R246). -/
structure CopyF where
  count : BitVec 32
  csl : BitVec 6
  src : BitVec 64
  dst : BitVec 64
  bar : BitVec 24
  bph : BitVec 2
  sdev : BitVec 10
  ddev : BitVec 10
  tag : BitVec 4
deriving DecidableEq, Repr

/-- The fields of a `copyp` command beyond the header (R248). -/
structure CopypF where
  count : BitVec 32
  csl : BitVec 6
  src : BitVec 64
  dst : BitVec 64
  bar : BitVec 24
  bph : BitVec 2
  sdev : BitVec 10
  pub : BitVec 24
deriving DecidableEq, Repr

/-- The fields of a `pref` command beyond the header (R249). -/
structure PrefF where
  count : BitVec 32
  csl : BitVec 6
  src : BitVec 64
  dst : BitVec 64
  bar : BitVec 24
  bph : BitVec 2
  sdev : BitVec 10
  ddev : BitVec 10
  tag : BitVec 4
deriving DecidableEq, Repr

/-- The fields of a `ferry_gath` command beyond the header (R250). -/
structure FerryGathF where
  count : BitVec 32
  csl : BitVec 6
  src : BitVec 64
  dst : BitVec 64
  bar : BitVec 24
  bph : BitVec 2
  idx : BitVec 28
  rowlen : BitVec 10
deriving DecidableEq, Repr

/-- The fields of a `scat` command beyond the header (R250). -/
structure ScatF where
  count : BitVec 32
  csl : BitVec 6
  src : BitVec 64
  dst : BitVec 64
  bar : BitVec 24
  bph : BitVec 2
  idx : BitVec 28
  rowlen : BitVec 10
deriving DecidableEq, Repr

/-- The fields of a `scadd` command beyond the header (R250). -/
structure ScaddF where
  count : BitVec 32
  csl : BitVec 6
  src : BitVec 64
  dst : BitVec 64
  bar : BitVec 24
  bph : BitVec 2
  idx : BitVec 28
  rowlen : BitVec 10
deriving DecidableEq, Repr

/-- The fields of a `lred` command beyond the header (R251). -/
structure LredF where
  count : BitVec 32
  csl : BitVec 6
  src : BitVec 64
  dst : BitVec 64
  bar : BitVec 24
  bph : BitVec 2
  nc : BitVec 6
  fm : BitVec 2
  rop : BitVec 2
deriving DecidableEq, Repr

/-- The fields of a `ltopk` command beyond the header (R252). -/
structure LtopkF where
  count : BitVec 32
  csl : BitVec 6
  src : BitVec 64
  dst : BitVec 64
  bar : BitVec 24
  bph : BitVec 2
  nc : BitVec 6
  len : BitVec 11
  ord : BitVec 1
deriving DecidableEq, Repr

/-- The fields of a `lcmp` command beyond the header (R253). -/
structure LcmpF where
  count : BitVec 32
  csl : BitVec 6
  src : BitVec 64
  dst : BitVec 64
  mask : BitVec 28
  cnt : BitVec 28
  rb : BitVec 8
deriving DecidableEq, Repr

/-- The fields of a `ferry_fill` command beyond the header (R254). -/
structure FerryFillF where
  count : BitVec 32
  csl : BitVec 6
  value : BitVec 64
  dst : BitVec 64
  bar : BitVec 24
  bph : BitVec 2
  sdev : BitVec 10
  ddev : BitVec 10
deriving DecidableEq, Repr

/-- The fields of a `atom` command beyond the header (R255). -/
structure AtomF where
  ret : BitVec 28
  reten : BitVec 1
  aop : BitVec 4
  w64 : BitVec 1
  value : BitVec 64
  dst : BitVec 64
  cmpv : BitVec 64
deriving DecidableEq, Repr

/-- The fields of a `barinit` command beyond the header (R256). -/
structure BarinitF where
  target : BitVec 16
  bar : BitVec 24
deriving DecidableEq, Repr

/-- The fields of a `inval` command beyond the header (R257). -/
structure InvalF where
  obj : BitVec 24
  allt : BitVec 1
  allobj : BitVec 1
  first : BitVec 32
  ntiles : BitVec 32
  bar : BitVec 24
  bph : BitVec 2
deriving DecidableEq, Repr

/-- The fields of a `ferry_msig` command beyond the header (R258). -/
structure FerryMsigF where
  sop : BitVec 2
  value : BitVec 32
  dst : BitVec 64
  bar : BitVec 24
  bph : BitVec 2
deriving DecidableEq, Repr

/-- The fields of a `srchg` command beyond the header (R289). -/
structure SrchgF where
  k : BitVec 10
  beam : BitVec 8
  hops : BitVec 12
  snap : BitVec 64
deriving DecidableEq, Repr

/-- The fields of a `srchv` command beyond the header (R290). -/
structure SrchvF where
  k : BitVec 10
  nprobe : BitVec 10
  plist : BitVec 1
  snap : BitVec 64
deriving DecidableEq, Repr

/-- The fields of a `dscan` command beyond the header (R292). -/
structure DscanF where
  k : BitVec 11
  ord : BitVec 1
  first : BitVec 24
  npages : BitVec 24
deriving DecidableEq, Repr

/-- The fields of a `append` command beyond the header (R294). -/
structure AppendF where
  n : BitVec 16
  kind : BitVec 2
deriving DecidableEq, Repr

/-- The fields of a `remove` command beyond the header (R294). -/
structure RemoveF where
  n : BitVec 16
deriving DecidableEq, Repr

/-- The fields of a `merge` command beyond the header (R295). -/
structure MergeF where
  m : BitVec 64
deriving DecidableEq, Repr

/-- The fields of a `pgrd` command beyond the header (R293). -/
structure PgrdF where
  first : BitVec 24
  npages : BitVec 8
deriving DecidableEq, Repr

/-- The fields of a `kvalloc` command beyond the header (R310). -/
structure KvallocF where
  n : BitVec 12
  span : BitVec 3
deriving DecidableEq, Repr

/-- The fields of a `kvfree` command beyond the header (R311). -/
structure KvfreeF where
  n : BitVec 12
deriving DecidableEq, Repr

/-- The fields of a `kvapp` command beyond the header (R312). -/
structure KvappF where
  seq : BitVec 16
  layer : BitVec 7
  n : BitVec 6
  commit : BitVec 1
deriving DecidableEq, Repr

/-- The fields of a `kvmap` command beyond the header (R313). -/
structure KvmapF where
  nb : BitVec 12
  toklast : BitVec 7
  dev : BitVec 10
  seq : BitVec 16
  g0 : BitVec 32
deriving DecidableEq, Repr

/-- The fields of a `kvret` command beyond the header (R314). -/
structure KvretF where
  seq : BitVec 16
  tg : BitVec 3
  mode : BitVec 1
deriving DecidableEq, Repr

/-- The fields of a `kvld` command beyond the header (R315). -/
structure KvldF where
  rows : BitVec 20
  seq : BitVec 16
  layer : BitVec 7
  head : BitVec 7
  fromr : BitVec 32
deriving DecidableEq, Repr

/-- The fields of a `kvq` command beyond the header (R318). -/
structure KvqF where
  maxn : BitVec 12
  seq : BitVec 16
  layer : BitVec 7
  head : BitVec 7
  first : BitVec 16
deriving DecidableEq, Repr

/-- The fields of a `launch_record` record beyond the header (R331). -/
structure LaunchRecordF where
  codeObj : BitVec 24
  entry : BitVec 25
  band : BitVec 3
  rs0 : BitVec 4
  bankMask : BitVec 8
  coreMask : BitVec 40
  accMask : BitVec 4
  qbuf : BitVec 5
  parLines : BitVec 6
  rs1 : BitVec 9
  bankFmt : BitVec 32
  slotMask : BitVec 32
  kilnMask : BitVec 16
  hsemMask : BitVec 32
  rs2 : BitVec 16
  landSlice : BitVec 6
  landBase : BitVec 10
  landLen : BitVec 11
  rs3 : BitVec 5
  parObj : BitVec 24
  rs4 : BitVec 8
  ltag : BitVec 32
  rs5 : BitVec 32
deriving DecidableEq, Repr

/-- The fields of a `ferry_record` record beyond the header (R331). -/
structure FerryRecordF where
  c0 : BitVec 64
  c1 : BitVec 64
  c2 : BitVec 64
  c3 : BitVec 64
  ferry : BitVec 6
deriving DecidableEq, Repr

/-- The fields of a `store_record` record beyond the header (R331). -/
structure StoreRecordF where
  c0 : BitVec 64
  c1 : BitVec 64
  c2 : BitVec 64
  c3 : BitVec 64
deriving DecidableEq, Repr

/-- The fields of a `kv_record` record beyond the header (R331). -/
structure KvRecordF where
  c0 : BitVec 64
  c1 : BitVec 64
  c2 : BitVec 64
  c3 : BitVec 64
deriving DecidableEq, Repr

/-- The fields of a `branch` record beyond the header (R335). -/
structure BranchF where
  bsem : BitVec 16
  bop : BitVec 3
  bval : BitVec 32
  target : BitVec 24
deriving DecidableEq, Repr

/-- The fields of a `select` record beyond the header (R337). -/
structure SelectF where
  cnt : BitVec 28
  skip0 : BitVec 1
  tagl : BitVec 1
  tline : BitVec 25
deriving DecidableEq, Repr

/-- The fields of a `phase` record beyond the header (R334). -/
structure PhaseF where
  ptag : BitVec 32
deriving DecidableEq, Repr

/-- The fields of a `graph` record beyond the header (R333). -/
structure GraphF where
  gobj : BitVec 24
  nrec : BitVec 24
  gtag : BitVec 32
deriving DecidableEq, Repr

/-- The fields of a `cancel` record beyond the header (R338). -/
structure CancelF where
  level : BitVec 2
  ctag : BitVec 32
deriving DecidableEq, Repr

/-- The fields of a `irq` record beyond the header (R339). -/
structure IrqF where
  vector : BitVec 11
deriving DecidableEq, Repr

/-- The fields of a `stamp_record` record beyond the header (R339). -/
structure StampRecordF where
  dst : BitVec 28
deriving DecidableEq, Repr

/-- The fields of a `map` record beyond the header (R340). -/
structure MapF where
  obj : BitVec 24
  first : BitVec 24
  ntiles : BitVec 24
  report : BitVec 28
  cap : BitVec 16
deriving DecidableEq, Repr

/-- An object as an access from the network names it: the port through which it comes, and the object (R392). -/
structure NetObj where
  port : Nat
  obj : Nat
deriving DecidableEq, Repr

/-- Every row of the opcode table, in its order of families. -/
inductive Instr where
  /-- R126: Writes gA + gB, wrapping modulo 2^64, to gD. -/
  | add (e : Bool) (d : Reg) (a : Reg) (b : Reg)
  /-- R126: Writes gA − gB, wrapping modulo 2^64, to gD. -/
  | sub (e : Bool) (d : Reg) (a : Reg) (b : Reg)
  /-- R126: Writes the low 64 bits of gA · gB to gD, with latency 3. -/
  | mul (e : Bool) (d : Reg) (a : Reg) (b : Reg)
  /-- R126: Writes the high 64 bits of the signed product to gD. -/
  | mulh (e : Bool) (d : Reg) (a : Reg) (b : Reg)
  /-- R126: Writes the high 64 bits of the unsigned product to gD. -/
  | mulhu (e : Bool) (d : Reg) (a : Reg) (b : Reg)
  /-- R126: Signed division that never faults, with latency 18. -/
  | div (e : Bool) (d : Reg) (a : Reg) (b : Reg)
  /-- R126: Unsigned division that never faults. -/
  | divu (e : Bool) (d : Reg) (a : Reg) (b : Reg)
  /-- R126: Signed remainder that never faults. -/
  | rem (e : Bool) (d : Reg) (a : Reg) (b : Reg)
  /-- R126: Unsigned remainder that never faults. -/
  | remu (e : Bool) (d : Reg) (a : Reg) (b : Reg)
  /-- R126: Writes the bitwise AND of gA and gB to gD. -/
  | and (e : Bool) (d : Reg) (a : Reg) (b : Reg)
  /-- R126: Writes the bitwise OR of gA and gB to gD. -/
  | or (e : Bool) (d : Reg) (a : Reg) (b : Reg)
  /-- R126: Writes the bitwise XOR of gA and gB to gD. -/
  | xor (e : Bool) (d : Reg) (a : Reg) (b : Reg)
  /-- R126: Writes gA AND NOT gB to gD. -/
  | andn (e : Bool) (d : Reg) (a : Reg) (b : Reg)
  /-- R126: Shifts gA left by gB[5:0]. -/
  | shl (e : Bool) (d : Reg) (a : Reg) (b : Reg)
  /-- R126: Shifts gA right logically by gB[5:0]. -/
  | shr (e : Bool) (d : Reg) (a : Reg) (b : Reg)
  /-- R126: Shifts gA right arithmetically by gB[5:0]. -/
  | sar (e : Bool) (d : Reg) (a : Reg) (b : Reg)
  /-- R126: Rotates gA left by gB[5:0]. -/
  | rol (e : Bool) (d : Reg) (a : Reg) (b : Reg)
  /-- R126: Writes the signed minimum of gA and gB. -/
  | min (e : Bool) (d : Reg) (a : Reg) (b : Reg)
  /-- R126: Writes the signed maximum of gA and gB. -/
  | max (e : Bool) (d : Reg) (a : Reg) (b : Reg)
  /-- R126: Writes the unsigned minimum of gA and gB. -/
  | minu (e : Bool) (d : Reg) (a : Reg) (b : Reg)
  /-- R126: Writes the unsigned maximum of gA and gB. -/
  | maxu (e : Bool) (d : Reg) (a : Reg) (b : Reg)
  /-- R126: Writes 1 if gA < gB as signed values, and 0 otherwise. -/
  | slt (e : Bool) (d : Reg) (a : Reg) (b : Reg)
  /-- R126: Writes 1 if gA < gB as unsigned values, and 0 otherwise. -/
  | sltu (e : Bool) (d : Reg) (a : Reg) (b : Reg)
  /-- R127: Adds the sign-extended immediate to gA. -/
  | addi (e : Bool) (d : Reg) (a : Reg) (imm : BitVec 11) (x : Option (BitVec 29))
  /-- R127: ANDs gA with the sign-extended immediate. -/
  | andi (e : Bool) (d : Reg) (a : Reg) (imm : BitVec 11) (x : Option (BitVec 29))
  /-- R127: ORs gA with the sign-extended immediate. -/
  | ori (e : Bool) (d : Reg) (a : Reg) (imm : BitVec 11) (x : Option (BitVec 29))
  /-- R127: XORs gA with the sign-extended immediate. -/
  | xori (e : Bool) (d : Reg) (a : Reg) (imm : BitVec 11) (x : Option (BitVec 29))
  /-- R127: Shifts gA left by an immediate count from 0 to 63. -/
  | shli (e : Bool) (d : Reg) (a : Reg) (n : BitVec 6)
  /-- R127: Shifts gA right logically by an immediate count. -/
  | shri (e : Bool) (d : Reg) (a : Reg) (n : BitVec 6)
  /-- R127: Shifts gA right arithmetically by an immediate count. -/
  | sari (e : Bool) (d : Reg) (a : Reg) (n : BitVec 6)
  /-- R127: Writes the sign-extended immediate shifted left by 19 to gD. -/
  | lui (e : Bool) (d : Reg) (imm : BitVec 16) (x : Option (BitVec 29))
  /-- R128: Counts the leading zero bits of gA. -/
  | clz (e : Bool) (d : Reg) (a : Reg)
  /-- R128: Counts the trailing zero bits of gA. -/
  | ctz (e : Bool) (d : Reg) (a : Reg)
  /-- R128: Counts the one bits of gA. -/
  | popc (e : Bool) (d : Reg) (a : Reg)
  /-- R128: Sign-extends gA[7:0]. -/
  | sext_b (e : Bool) (d : Reg) (a : Reg)
  /-- R128: Sign-extends gA[15:0]. -/
  | sext_h (e : Bool) (d : Reg) (a : Reg)
  /-- R128: Sign-extends gA[31:0]. -/
  | sext_w (e : Bool) (d : Reg) (a : Reg)
  /-- R128: Zero-extends gA[7:0]. -/
  | zext_b (e : Bool) (d : Reg) (a : Reg)
  /-- R128: Zero-extends gA[15:0]. -/
  | zext_h (e : Bool) (d : Reg) (a : Reg)
  /-- R128: Zero-extends gA[31:0]. -/
  | zext_w (e : Bool) (d : Reg) (a : Reg)
  /-- R129: Sets predicate PD to the comparison of gA with gB under CC. -/
  | cmp (e : Bool) (pd : PReg) (cc : BitVec 4) (a : Reg) (b : Reg)
  /-- R129: Sets predicate PD to the comparison of gA with the immediate. -/
  | cmpi (e : Bool) (pd : PReg) (cc : BitVec 4) (a : Reg) (imm : BitVec 9) (x : Option (BitVec 29))
  /-- R129: Writes PA AND PB to predicate PD. -/
  | pand (e : Bool) (pd : PReg) (pa : PReg) (pb : PReg)
  /-- R129: Writes PA OR PB to predicate PD. -/
  | por (e : Bool) (pd : PReg) (pa : PReg) (pb : PReg)
  /-- R129: Writes PA XOR PB to predicate PD. -/
  | pxor (e : Bool) (pd : PReg) (pa : PReg) (pb : PReg)
  /-- R129: Writes NOT PA to predicate PD. -/
  | pnot (e : Bool) (pd : PReg) (pa : PReg)
  /-- R129: Selects gA or gB by a predicate, which may be inverted. -/
  | sel (e : Bool) (d : Reg) (a : Reg) (b : Reg) (neg : BitVec 1) (p : PReg)
  /-- R131: Loads one byte, sign-extended. -/
  | ld_b (e : Bool) (d : Reg) (a : Reg) (imm : BitVec 11) (x : Option (BitVec 29))
  /-- R131: Loads two bytes, sign-extended. -/
  | ld_h (e : Bool) (d : Reg) (a : Reg) (imm : BitVec 11) (x : Option (BitVec 29))
  /-- R131: Loads four bytes, sign-extended. -/
  | ld_w (e : Bool) (d : Reg) (a : Reg) (imm : BitVec 11) (x : Option (BitVec 29))
  /-- R131: Loads eight bytes. -/
  | ld_d (e : Bool) (d : Reg) (a : Reg) (imm : BitVec 11) (x : Option (BitVec 29))
  /-- R131: Loads one byte, zero-extended. -/
  | ldu_b (e : Bool) (d : Reg) (a : Reg) (imm : BitVec 11) (x : Option (BitVec 29))
  /-- R131: Loads two bytes, zero-extended. -/
  | ldu_h (e : Bool) (d : Reg) (a : Reg) (imm : BitVec 11) (x : Option (BitVec 29))
  /-- R131: Loads four bytes, zero-extended. -/
  | ldu_w (e : Bool) (d : Reg) (a : Reg) (imm : BitVec 11) (x : Option (BitVec 29))
  /-- R131: Stores the low byte of gS at the end of the bundle. -/
  | st_b (e : Bool) (d : Reg) (a : Reg) (imm : BitVec 11) (x : Option (BitVec 29))
  /-- R131: Stores the low two bytes of gS. -/
  | st_h (e : Bool) (d : Reg) (a : Reg) (imm : BitVec 11) (x : Option (BitVec 29))
  /-- R131: Stores the low four bytes of gS. -/
  | st_w (e : Bool) (d : Reg) (a : Reg) (imm : BitVec 11) (x : Option (BitVec 29))
  /-- R131: Stores the eight bytes of gS. -/
  | st_d (e : Bool) (d : Reg) (a : Reg) (imm : BitVec 11) (x : Option (BitVec 29))
  /-- R133: Branches to the target when the predicate, inverted if so marked, is 1. -/
  | br (e : Bool) (neg : BitVec 1) (p : PReg) (loff : BitVec 11) (word : BitVec 4) (x : Option (BitVec 29))
  /-- R133: Branches on the ANY, ALL or NONE bit of a flag. -/
  | bf (e : Bool) (test : BitVec 2) (f : BitVec 4) (loff : BitVec 11) (word : BitVec 4) (x : Option (BitVec 29))
  /-- R133: Jumps to the target always. -/
  | jmp (e : Bool) (loff : BitVec 11) (word : BitVec 4) (x : Option (BitVec 29))
  /-- R133: Jumps to the link held in gA. -/
  | jr (e : Bool) (a : Reg)
  /-- R133: Writes the return link to g31 and jumps to the target. -/
  | call (e : Bool) (loff : BitVec 11) (word : BitVec 4) (x : Option (BitVec 29))
  /-- R133: Jumps to the link held in g31. -/
  | ret (e : Bool)
  /-- R134: Decrements gA and branches while the new value is not zero. -/
  | loop (e : Bool) (a : Reg) (loff : BitVec 12) (word : BitVec 4) (x : Option (BitVec 29))
  /-- R135: Ends the program context's part of the task. -/
  | exit (e : Bool)
  /-- R151: Records the trap code and raises a TRAP service request, and the crew holds with cause FW. -/
  | trap (e : Bool) (imm : BitVec 11) (x : Option (BitVec 29))
  /-- R371: Ends the firmware service in progress and acts on the last write to FW_ACT. -/
  | rfe (e : Bool)
  /-- R135: Sequencer no-operation. -/
  | nop (e : Bool)
  /-- R136: Arms a stream with a chain to start at the crew cycle held in gA. -/
  | arm (e : Bool) (stream : BitVec 4) (a : Reg) (loff : BitVec 12) (x : Option (BitVec 29))
  /-- R136: Stops the named stream. -/
  | disarm (e : Bool) (stream : BitVec 4) (x : Option (BitVec 29))
  /-- R137: Withholds the next bundle until the crew clock reaches gA, and writes how late the sync issued. -/
  | sync (e : Bool) (d : Reg) (a : Reg)
  /-- R137: Writes the crew cycle of issue to gD. -/
  | cyc (e : Bool) (d : Reg)
  /-- R139: Broadcasts a value formed from gA into an operand-file entry of a station, applied at c + 3. -/
  | setof (e : Bool) (stn : BitVec 3) (ofi : BitVec 4) (a : Reg) (ty : BitVec 4)
  /-- R140: Reads a flag register into gD. -/
  | fget (e : Bool) (d : Reg) (f : BitVec 4)
  /-- R141: Writes gS into a CMD register of a port in the issuing context's set. -/
  | cport (e : Bool) (src : Reg) (port : BitVec 4) (cmd : BitVec 2)
  /-- R103: Checks and submits the port's command, and writes a ticket, or 0 when the buffer is full. -/
  | go (e : Bool) (d : Reg) (port : BitVec 4)
  /-- R203: Checks a 128-bit matrix command formed from gA and gB and pushes it onto the matrix queue. -/
  | mxq (e : Bool) (a : Reg) (b : Reg)
  /-- R144: Adds an immediate to a hardware semaphore of a crew member, counted at c + 2 or c + 10. -/
  | hsig (e : Bool) (h : Reg) (a : Reg) (imm : BitVec 9)
  /-- R145: Holds the crew with cause SEM until a semaphore comparison is true. -/
  | hwait (e : Bool) (h : Reg) (op : BitVec 2) (a : Reg) (imm : BitVec 9)
  /-- R146: Reads a hardware semaphore into gD. -/
  | hrd (e : Bool) (d : Reg) (h : Reg)
  /-- R147: Reads a control or device register into gD. -/
  | getc (e : Bool) (d : Reg) (index : BitVec 12)
  /-- R147: Writes gS to a control or device register under the access codes. -/
  | setc (e : Bool) (d : Reg) (index : BitVec 12)
  /-- R148: Withholds the next bundle of its context until the conditions of its scope hold. -/
  | fence (e : Bool) (scope : BitVec 3)
  /-- R149: Writes the global time stamp to gD. -/
  | tstamp (e : Bool) (d : Reg)
  /-- R150: Sets FW_SHARE.N to the larger of IMM and MIN. -/
  | fwshare (e : Bool) (imm : BitVec 11) (x : Option (BitVec 29))
  /-- R138: Withholds the next bundle until a time limit passes or a semaphore changes. -/
  | idle (e : Bool) (d : Reg) (a : Reg) (imm : BitVec 11) (x : Option (BitVec 29))
  /-- R168: Bank read: puts one row onto a lane at c + 1. -/
  | rd (h : Ent) (row : BitVec 11)
  /-- R169: Reads a ring row, optionally advancing RP. -/
  | rdx (h : Ent) (base : BitVec 11) (len : BitVec 11) (off : BitVec 5) (adv : BitVec 1)
  /-- R168: Puts two rows onto two lanes in one cycle. -/
  | rdb (h : Ent) (rowA : BitVec 11) (rowB : BitVec 11)
  /-- R74: Taps a lane and writes the row, converted, into the bank at the end of c + 1. -/
  | wr (h : Ent) (row : BitVec 11) (part : BitVec 3)
  /-- R169: Writes a tapped row into a ring row. -/
  | wrx (h : Ent) (base : BitVec 11) (len : BitVec 11) (off : BitVec 5) (adv : BitVec 1)
  /-- R170: Writes the tapped row into the bank under a byte-group mask. -/
  | wrb (h : Ent) (row : BitVec 11) (gmask : BitVec 16)
  /-- R171: Writes COUNT rows with zeros or with one converted tapped row, one row per cycle. -/
  | bank_fill (h : Ent) (row : BitVec 11) (count : BitVec 11)
  /-- R173: Sets the bank stream's rounding mode, SAT8 and generator seed. -/
  | bank_mode (h : Ent) (seedv : BitVec 16) (rnd : BitVec 3) (sat : BitVec 1) (seed : BitVec 2)
  /-- R172: Changes the bank's format, clearing every row, and may load a codebook. -/
  | fmt (h : Ent) (f : BitVec 4) (cb : BitVec 2) (load : BitVec 1)
  /-- R155: Delays the bank stream's next entry by W cycles. -/
  | bank_wait (h : Ent) (w : BitVec 24)
  /-- R173: Station no-operation that occupies an issue. -/
  | stn_nop (h : Ent)
  /-- R155: Delays the station stream's next entry by W cycles. -/
  | stn_wait (h : Ent) (w : BitVec 24)
  /-- R173: Sets the station stream's ROUND, SAT8 and seed. -/
  | stn_mode (h : Ent) (seedv : BitVec 16) (rnd : BitVec 3) (sat : BitVec 1) (seed : BitVec 2)
  /-- R167: Raises POISON CHK if either operand is poisoned. -/
  | chk (h : Ent)
  /-- R174: Element-wise addition. -/
  | vadd (h : Ent)
  /-- R174: Element-wise subtraction. -/
  | vsub (h : Ent)
  /-- R174: Element-wise multiplication. -/
  | vmul (h : Ent)
  /-- R177: Fused d + a·b, rounded once. -/
  | vfma (h : Ent) (init : BitVec 1)
  /-- R177: Fused d − a·b, rounded once. -/
  | vfms (h : Ent) (init : BitVec 1)
  /-- R174: Element-wise minimum. -/
  | vmin (h : Ent)
  /-- R174: Element-wise maximum. -/
  | vmax (h : Ent)
  /-- R174: Element-wise absolute value. -/
  | vabs (h : Ent)
  /-- R174: Element-wise negation. -/
  | vneg (h : Ent)
  /-- R174: Bitwise AND of elements. -/
  | vand (h : Ent)
  /-- R174: Bitwise OR of elements. -/
  | vor (h : Ent)
  /-- R174: Bitwise XOR of elements. -/
  | vxor (h : Ent)
  /-- R174: Bitwise complement of elements. -/
  | vnot (h : Ent)
  /-- R174: Element-wise left shift. -/
  | vshl (h : Ent)
  /-- R174: Element-wise logical right shift. -/
  | vshr (h : Ent)
  /-- R174: Element-wise arithmetic right shift. -/
  | vsar (h : Ent)
  /-- R174: Element-wise rounding right shift. -/
  | vrshr (h : Ent)
  /-- R174: Saturating integer addition. -/
  | vaddsat (h : Ent)
  /-- R174: Saturating integer subtraction. -/
  | vsubsat (h : Ent)
  /-- R174: Clamps elements between lo and b. -/
  | vclamp (h : Ent) (sym : BitVec 1)
  /-- R175: Writes a UINT8 comparison mask. -/
  | vcmp (h : Ent) (rel : BitVec 3)
  /-- R82: Writes a three-valued mask from a comparison with margin over bounded intervals. -/
  | vcmpb (h : Ent) (rel : BitVec 3) (margin : BitVec 8)
  /-- R176: Selects elements of a or b by an operand-file mask. -/
  | vsel (h : Ent) (mof : BitVec 4) (amb : BitVec 1)
  /-- R179: Passes a row unchanged, with its TAG, SIDE and POISON. -/
  | vmov (h : Ent)
  /-- R177: Integer multiply-accumulate of one quarter into INT32. -/
  | vmac (h : Ent) (q : BitVec 2) (init : BitVec 1)
  /-- R179: Scales a bounded row into a BF32 row. -/
  | vscale (h : Ent)
  /-- R178: Converts a row, or part of one, to TYPE. -/
  | vcvt (h : Ent) (part : BitVec 3) (init : BitVec 1)
  /-- R178: Packs two rows into one narrower row. -/
  | vpack (h : Ent)
  /-- R178: Widens one half of a row. -/
  | vunpack (h : Ent) (half : BitVec 1)
  /-- R174: Writes base + i into each element. -/
  | viota (h : Ent)
  /-- R84: Turns a bounded row into an exact row with the same values. -/
  | vaccept (h : Ent)
  /-- R180: Reciprocal, rounded RNE to FP32. -/
  | rcp (h : Ent)
  /-- R180: Reciprocal square root. -/
  | rsq (h : Ent)
  /-- R180: Square root. -/
  | sqrt (h : Ent)
  /-- R180: Power of two. -/
  | ex2 (h : Ent)
  /-- R180: Base-2 logarithm. -/
  | lg2 (h : Ent)
  /-- R180: Sine. -/
  | sin (h : Ent)
  /-- R180: Cosine. -/
  | cos (h : Ent)
  /-- R182: Transposes one or two rows viewed as a matrix. -/
  | xpose (h : Ent) (lr : BitVec 4) (h2 : BitVec 1)
  /-- R181: Permutes elements by an index row. -/
  | perm (h : Ent)
  /-- R181: Zips, splits or reverses elements. -/
  | shuf (h : Ent) (pat : BitVec 3)
  /-- R181: Broadcasts element K. -/
  | bcast (h : Ent) (k : BitVec 8)
  /-- R183: Speculative gather from operand-file entries. -/
  | gath (h : Ent) (t : BitVec 4) (len : BitVec 2)
  /-- R181: Takes n elements of a ++ b starting at K. -/
  | slide (h : Ent) (k : BitVec 9)
  /-- R184: Rotates element pairs by angles. -/
  | rope (h : Ent) (pair : BitVec 1)
  /-- R185: Keeps 2 elements of every 4, or writes their metadata. -/
  | spc24 (h : Ent) (md : BitVec 1)
  /-- R185: Keeps 4 elements of every 8, or writes their metadata. -/
  | spc48 (h : Ent) (md : BitVec 1)
  /-- R187: Tree sum of a row. -/
  | rsum (h : Ent) (bc : BitVec 1) (sat : BitVec 1)
  /-- R187: Row maximum. -/
  | rmax (h : Ent) (bc : BitVec 1)
  /-- R187: Row minimum. -/
  | rmin (h : Ent) (bc : BitVec 1)
  /-- R187: Prefix sum of a row. -/
  | scan (h : Ent) (excl : BitVec 1)
  /-- R188: Top-k selection with bounds and ambiguity flags. -/
  | topk (h : Ent) (k : BitVec 3) (start : BitVec 1)
  /-- R187: Index of the largest element. -/
  | argmax (h : Ent)
  /-- R189: Packs the elements selected by a mask. -/
  | cmpct (h : Ent) (amb : BitVec 1)
  /-- R190: Applies one block to an online softmax, giving weights or the new state. -/
  | osm (h : Ent) (out : BitVec 1) (start : BitVec 1)
  /-- R191: Divides an accumulator row by the softmax state. -/
  | osf (h : Ent)
  /-- R192: Counts mask bytes into a flag register at c + 6. -/
  | vflag (h : Ent) (flag : BitVec 4) (count : BitVec 8) (amb : BitVec 1)
  /-- R230: Analog matrix-vector multiply on a kiln array, with bounded BI16 outputs. -/
  | xmv (h : Ent) (arr : BitVec 4) (sh : BitVec 4)
  /-- R231: Converts the reference columns with the built-in input and delivers the REF row. -/
  | xref (h : Ent) (arr : BitVec 4) (sh : BitVec 4)
  /-- R232: Deposits a quarter row of weights into the firing image. -/
  | xprog_deposit (h : Ent) (arr : BitVec 4) (row : BitVec 9) (q : BitVec 3)
  /-- R232: Starts firing an array from its image. -/
  | xprog_fire (h : Ent) (arr : BitVec 4) (hs : BitVec 5)
  /-- R233: Reads fired weights back from the cells. -/
  | xrdw (h : Ent) (arr : BitVec 4) (row : BitVec 9) (q : BitVec 3)
  /-- R234: Computes the bounds that an xmv with these inputs would carry. -/
  | xbound (h : Ent) (arr : BitVec 4) (sh : BitVec 4)
  /-- R235: Snapshots the array's calibration state. -/
  | xstat (h : Ent) (arr : BitVec 4) (sel : BitVec 3) (ix : BitVec 5)
  /-- R201: Loads a row into a claimed operand slot. -/
  | mld (h : Ent) (row : BitVec 7) (slot : BitVec 5)
  /-- R201: Delivers an A row to the matrix engine at c + 1. -/
  | mfd (h : Ent)
  /-- R202: Drains a converted accumulator row. -/
  | mdr (h : Ent) (row : BitVec 7) (q : BitVec 2) (acc : BitVec 2)
  /-- R202: Puts the raw saved form of a slot row or accumulator quarter. -/
  | msv (h : Ent) (row : BitVec 7) (slot : BitVec 5) (acc : BitVec 2) (q : BitVec 2) (kind : BitVec 1)
  /-- R202: Restores a raw row into a slot or accumulator. -/
  | mrs (h : Ent) (row : BitVec 7) (slot : BitVec 5) (acc : BitVec 2) (q : BitVec 2) (kind : BitVec 1)
  /-- R196: Appends a row to an outbound queue. -/
  | fsnd (h : Ent) (q : BitVec 3)
  /-- R196: Takes the oldest inbound row, or holds the crew with cause LATE. -/
  | frcv (h : Ent) (q : BitVec 3)
  /-- R197: Records an arrival expectation with a deadline. -/
  | fexp (h : Ent) (q : BitVec 3) (count : BitVec 7) (w : BitVec 16)
  /-- R198: Places a drain marker in an outbound queue. -/
  | fqd (h : Ent) (q : BitVec 3) (hs : BitVec 5)
  /-- R208: Dense multiply into an accumulator, starting at START. -/
  | mmul (h : MxHdr) (acc : BitVec 2) (slot : BitVec 5) (m : BitVec 7) (n : BitVec 7) (k : BitVec 9) (ty : BitVec 4)
  /-- R208: Dense multiply-accumulate. -/
  | mmac (h : MxHdr) (acc : BitVec 2) (slot : BitVec 5) (m : BitVec 7) (n : BitVec 7) (k : BitVec 9) (ty : BitVec 4)
  /-- R209: Sparse multiply with metadata. -/
  | mmuls (h : MxHdr) (acc : BitVec 2) (slot : BitVec 5) (m : BitVec 7) (n : BitVec 7) (k : BitVec 9) (ty : BitVec 4) (sp : BitVec 1) (pc : BitVec 1) (mof : BitVec 4)
  /-- R209: Sparse multiply-accumulate. -/
  | mmacs (h : MxHdr) (acc : BitVec 2) (slot : BitVec 5) (m : BitVec 7) (n : BitVec 7) (k : BitVec 9) (ty : BitVec 4) (sp : BitVec 1) (pc : BitVec 1) (mof : BitVec 4)
  /-- R212: Clears an accumulator and sets its type. -/
  | mclr (h : MxHdr) (acc : BitVec 2) (ty : BitVec 1)
  /-- R213: Claims operand slots with zero rows. -/
  | mclaim (h : MxHdr) (mask : BitVec 32)
  /-- R213: Frees operand slots. -/
  | mrel (h : MxHdr) (mask : BitVec 32)
  /-- R215: Loads MX scales into slot rows. -/
  | mscl (h : MxHdr) (slot : BitVec 5) (row0 : BitVec 7) (mof : BitVec 4) (w : BitVec 1)
  /-- R214: Transposes a slot into another slot. -/
  | mtr (h : MxHdr) (dst : BitVec 5) (src : BitVec 5)
  /-- R216: Completes once every earlier pending update has landed. -/
  | mfence (h : MxHdr)
  /-- R216: Signals a hardware semaphore of a crew member from the matrix queue. -/
  | mx_msig (h : MxHdr) (tgt : BitVec 6)
  /-- R216: Matrix no-operation of one cycle. -/
  | mnop (h : MxHdr)
  /-- R246: Ferry copy between endpoints. -/
  | copy (h : FHdr) (c : CopyF)
  /-- R248: Copies into a shadow object and then publishes it by swapping tile tables. -/
  | copyp (h : FHdr) (c : CopypF)
  /-- R249: Prefetches an object range into a landing or a cache part. -/
  | pref (h : FHdr) (c : PrefF)
  /-- R250: Gathers table rows by an index list. -/
  | ferry_gath (h : FHdr) (c : FerryGathF)
  /-- R250: Scatters rows into a table by an index list. -/
  | scat (h : FHdr) (c : ScatF)
  /-- R250: Scatter-adds rows into a table atomically. -/
  | scadd (h : FHdr) (c : ScaddF)
  /-- R251: Landing reduction of NC contributions. -/
  | lred (h : FHdr) (c : LredF)
  /-- R252: Merges pair lists into the K best pairs. -/
  | ltopk (h : FHdr) (c : LtopkF)
  /-- R253: Compacts masked rows and writes a count sector. -/
  | lcmp (h : FHdr) (c : LcmpF)
  /-- R254: Fills an object or landing range with a value. -/
  | ferry_fill (h : FHdr) (c : FerryFillF)
  /-- R255: Atomic read-modify-write. -/
  | atom (h : FHdr) (c : AtomF)
  /-- R256: Initialises a barrier. -/
  | barinit (h : FHdr) (c : BarinitF)
  /-- R257: Places invalidation markers in every ferry queue and drops covered entries. -/
  | inval (h : FHdr) (c : InvalF)
  /-- R258: Changes a memory semaphore after earlier commands complete. -/
  | ferry_msig (h : FHdr) (c : FerryMsigF)
  /-- R289: Graph beam search. -/
  | srchg (h : SHdr) (c : SrchgF)
  /-- R290: Inverted-list search. -/
  | srchv (h : SHdr) (c : SrchvF)
  /-- R292: Runs the distance sequencer over pages. -/
  | dscan (h : SHdr) (c : DscanF)
  /-- R294: Appends INSERT or REPLACE entries to the log. -/
  | append (h : SHdr) (c : AppendF)
  /-- R294: Appends REMOVE entries to the log. -/
  | remove (h : SHdr) (c : RemoveF)
  /-- R295: Merges the log into the index pages and publishes them. -/
  | merge (h : SHdr) (c : MergeF)
  /-- R298: Writes the global time stamp and LT to a status record. -/
  | stamp (h : SHdr)
  /-- R293: Copies decrypted pages to a landing. -/
  | pgrd (h : SHdr) (c : PgrdF)
  /-- R310: Starts a new block in every table of the listed sequences. -/
  | kvalloc (h : SHdr) (c : KvallocF)
  /-- R311: Clears the listed sequences. -/
  | kvfree (h : SHdr) (c : KvfreeF)
  /-- R312: Writes tokens and optionally commits them. -/
  | kvapp (h : SHdr) (c : KvappF)
  /-- R313: Maps shared passage blocks into a sequence. -/
  | kvmap (h : SHdr) (c : KvmapF)
  /-- R314: Retires every entry of a span. -/
  | kvret (h : SHdr) (c : KvretF)
  /-- R315: Streams a table into a landing with keys rotated. -/
  | kvld (h : SHdr) (c : KvldF)
  /-- R318: Returns a sequence state and table entries. -/
  | kvq (h : SHdr) (c : KvqF)
  /-- R331: A NOP record starts and retires. -/
  | nop_record (h : RHdr)
  /-- R331: A LAUNCH record starts and expands into its band's shadow bank. -/
  | launch_record (h : RHdr) (c : LaunchRecordF)
  /-- R331: A FERRY record starts and expands to its ferry. -/
  | ferry_record (h : RHdr) (c : FerryRecordF)
  /-- R331: A STORE record starts at its home controller. -/
  | store_record (h : RHdr) (c : StoreRecordF)
  /-- R331: A KV record starts at the key-value engine. -/
  | kv_record (h : RHdr) (c : KvRecordF)
  /-- R331: A WAIT record starts and retires. -/
  | wait_record (h : RHdr)
  /-- R329: A SIGNAL record retires and signals. -/
  | signal_record (h : RHdr)
  /-- R335: Compares a semaphore and sets the walk's next index. -/
  | branch (h : RHdr) (c : BranchF)
  /-- R337: Reads a count and chooses a bucket for the next LAUNCH. -/
  | select (h : RHdr) (c : SelectF)
  /-- R334: Starts a phase instance. -/
  | phase (h : RHdr) (c : PhaseF)
  /-- R333: Starts a graph instance and walks its object. -/
  | graph (h : RHdr) (c : GraphF)
  /-- R338: Cancels running instances of a level and tag. -/
  | cancel (h : RHdr) (c : CancelF)
  /-- R339: Posts a host interrupt vector after the release. -/
  | irq (h : RHdr) (c : IrqF)
  /-- R339: Writes a time stamp and the graph tag to a landing. -/
  | stamp_record (h : RHdr) (c : StampRecordF)
  /-- R340: Scans code tiles, sets X and writes a scan report. -/
  | map (h : RHdr) (c : MapF)
  /-- R331: Retires once every earlier record of its stream has retired. -/
  | fence_record (h : RHdr)
  /-- R137: The crew clock reaches the sync target and the program context issues again. -/
  | sync_release (core : Nat) (fw : Bool)
  /-- R138: An idle ends on its time limit or on a semaphore change, and D is written. -/
  | idle_wake (core : Nat) (fw : Bool)
  /-- R148: The conditions of a waiting fence all hold, and its context issues again. -/
  | fence_complete (core : Nat) (fw : Bool)
  /-- R132: A constant line reaches the line buffer, and the waiting load bundle issues. -/
  | const_line_ready (core : Nat)
  /-- R197: At an expectation's deadline ARRIVED is compared with the target, and the crew holds with cause LATE if rows are short. -/
  | fexp_deadline (core : Nat) (q : Nat)
  /-- R163: A station result is put on a lane, or written to OF and LL, at c + L. -/
  | station_result_land (core : Nat)
  /-- R195: An inbound ferry row enters the FR port buffer, and ARRIVED increases. -/
  | row_arrival (core : Nat) (q : Nat)
  /-- R32: Every hold condition of the crew has cleared, and the held crew cycle proceeds. -/
  | hold_release (crew : Nat)
  /-- R35: A single hold reaches HOLD_LIMIT, and a timing fault ends the launch. -/
  | hold_limit (crew : Nat)
  /-- R21: The crew clock would pass its maximum, and a timing fault ends the launch. -/
  | clock_end (crew : Nat)
  /-- R205: An accumulator update lands at the end of t + 16. -/
  | matrix_update_land (core : Nat)
  /-- R204: A matrix command completes, and its signal adds SINC the next cycle. -/
  | matrix_command_complete (core : Nat)
  /-- R230: A kiln output row is put or written at c + 336 + r. -/
  | xb_row_put (core : Nat)
  /-- R28: A command paused for quarantine space reserves freed space and moves its next row. -/
  | ferry_continue (cmd : Nat)
  /-- R263: A ferry command's last write is visible at its scope, and HEN and BEN follow. -/
  | ferry_command_complete (cmd : Nat)
  /-- R291: A retried codeword decodes or is found unreadable, and the waiting search goes on. -/
  | read_retry_done (cmd : Nat) (page : Nat) (codeword : Nat) (readable : Bool)
  /-- R287: LT reaches a waiting search's snapshot, and the search starts. -/
  | snapshot_ready (cmd : Nat)
  /-- R286: Log entries become durable and LT advances. -/
  | log_durable (obj : Nat) (stamp : Nat)
  /-- R295: The unmerged log reaches MTHRESH and the merge engine starts itself. -/
  | merge_autostart (obj : Nat)
  /-- R281: A storage command's status record is visible, and HEN and BEN follow. -/
  | store_command_complete (cmd : Nat)
  /-- R307: A key-value command's status record is visible, and HEN and BEN follow. -/
  | kv_command_complete (cmd : Nat)
  /-- R324: The queue manager observes a tail-line write and takes records while HEAD ≠ P. -/
  | tail_write (queue : Nat)
  /-- R25: A launch reserves its whole allotment at one instant. -/
  | launch_reserve (rec : Nat)
  /-- R26: Crew cycle 0 begins on every member after initialisation. -/
  | launch_start (crew : Nat)
  /-- R29: A member task completes, and the launch completes with it when nothing remains. -/
  | task_complete (core : Nat)
  /-- R329: A record retires, and its release and then its signal are applied. -/
  | record_retire (rec : Nat)
  /-- R323: A QM_QCTL write with EN = 1 reads the descriptor and turns the queue on. -/
  | queue_on (queue : Nat)
  /-- R323: A QM_QCTL write with EN = 0 turns the queue off. -/
  | queue_off (queue : Nat)
  /-- R338: A write to QM_CANCEL cancels instances of a partition. -/
  | qm_cancel (level : Nat) (part : Nat) (tag : BitVec 32)
  /-- R343: A higher-class LAUNCH is ready apart from its allotment, and victims are chosen and freeze requests are sent. -/
  | preempt (rec : Nat)
  /-- R374: Every member freezes at crew cycle f, and pending results are captured. -/
  | freeze (crew : Nat)
  /-- R370: The firmware context starts servicing its next queued request. -/
  | fw_service_start (core : Nat)
  /-- R379: SAVE_CTL.OP = 1 starts the save engine. -/
  | save_start (core : Nat)
  /-- R380: SAVE_CTL.OP = 2 starts the restore engine. -/
  | restore_start (core : Nat)
  /-- R372: The save or restore engine finishes and sets DONE. -/
  | save_engine_done (core : Nat)
  /-- R379: Every member has finished saving, a SAVED record is written and resources are released. -/
  | context_saved (crew : Nat)
  /-- R380: A saved launch's cores are free, and it is reserved again and its RESTORE services start. -/
  | restore (rec : Nat)
  /-- R380: Crew cycle f begins on every member, and a RESTORED record is written. -/
  | crew_resume (crew : Nat)
  /-- R371: An FQ_RESUME write with ACT 0 replays a suspended access. -/
  | fq_resume_resume (susp : Nat)
  /-- R371: An FQ_RESUME write with ACT 1 fails a suspended access. -/
  | fq_resume_fail (susp : Nat) (sub : Nat)
  /-- R223: A KILN_RECAL write requests recalibration of arrays. -/
  | kiln_recal (core : Nat) (start : BitVec 16)
  /-- R223: A DUE array becomes idle, and its recalibration starts. -/
  | recal_start (core : Nat) (arr : Nat)
  /-- R223: A recalibration ends, and the array becomes FIRED or UNFIRED. -/
  | recal_end (core : Nat) (arr : Nat) (ok : Bool)
  /-- R232: A firing ends, the array becomes FIRED or UNFIRED, and hM is signalled. -/
  | firing_end (core : Nat) (arr : Nat) (ok : Bool)
  /-- R224: A 1 µs temperature sample finds an excursion, and the array becomes DUE. -/
  | kiln_temp (core : Nat) (arr : Nat) (temp : Int)
  /-- R227: The use window of a voided multiplication ends, and the array becomes DUE. -/
  | drift_due (core : Nat) (arr : Nat)
  /-- R55: A LAND_CFG write starts a resize of the cache part, with write-back. -/
  | cache_units (slice : Nat) (units : BitVec 5)
  /-- R55: The write-back ends, and the new cache size takes effect. -/
  | cache_resize_done (slice : Nat)
  /-- R344: A PART_MAP write setting EN enables the partition unless refused. -/
  | partition_enable (part : Nat) (value : BitVec 64)
  /-- R344: A PART_MAP write clearing EN disables the partition unless a queue is on. -/
  | partition_disable (part : Nat)
  /-- R390: Re-reads a vector entry and delivers a pending vector. -/
  | irq_kick (vector : Nat)
  /-- R395: An ATTEST write starts a quote of the nonce. -/
  | attest (value : BitVec 64)
  /-- R395: The signed quote is visible, and BUSY clears. -/
  | attest_done
  /-- R396: Loads an object's wrapped keys into every controller. -/
  | key_load (value : BitVec 64)
  /-- R398: A 1 written to a core's bit requests a parity sweep. -/
  | core_online (m : Nat) (value : BitVec 64)
  /-- R7: A write to a register with no row of its own applies its access codes. -/
  | register_write (index : BitVec 12) (value : BitVec 64)
  /-- R387: A host read through the object aperture. -/
  | host_read (addr : BitVec 64) (len : Nat)
  /-- R387: A host write through the object aperture. -/
  | host_write (addr : BitVec 64) (bytes : List (BitVec 8))
  /-- R388: A suspended host access not resumed within 1 ms completes as an access fault. -/
  | host_access_timeout (susp : Nat)
  /-- R392: An RoCE v2 SEND is handled. -/
  | roce_send (port : Nat) (bytes : List (BitVec 8))
  /-- R392: An RoCE v2 RDMA WRITE reaches device objects. -/
  | roce_write (obj : NetObj) (off : Nat) (bytes : List (BitVec 8))
  /-- R392: An RoCE v2 RDMA READ of device objects. -/
  | roce_read (obj : NetObj) (off : Nat) (len : Nat)
  /-- R393: Power-on enters RESET and begins VERIFY. -/
  | power_on
  /-- R393: Image verification ends, giving CALIBRATE or FAILED. -/
  | verify_done (okA : Bool) (okB : Bool)
  /-- R393: Boot calibration ends, and MOUNT begins. -/
  | calibrate_done
  /-- R394: The firmware object is set up, the keys are restored, and READY is entered. -/
  | mount_done (line : BitVec 25)
  /-- R385: An alarm cause is detected and acted on at its level. -/
  | security_alarm (cause : Nat)
  /-- R397: The 1 µs supervisor tick adjusts partition clocks against their caps. -/
  | power_regulate (part : Nat) (power : Nat) (hot : Bool)
  /-- R397: Module power above 2,000 W for 100 µs steps every partition down. -/
  | module_power_limit
  /-- R397: A compute die at 115 °C shuts the module down. -/
  | thermal_shutdown
  /-- R398: A core idle for 100 µs goes to retention. -/
  | core_sleep (core : Nat)
  /-- R398: A wake-up parity sweep ends, and the core is online or offline. -/
  | parity_sweep_done (core : Nat) (ok : Bool)
  /-- R296: A running merge publishes all its shadow pages and MERGED at one instant on every controller concerned, freeing log space. -/
  | merge_publish (obj : Nat)
  /-- R286: Power is lost: LT and MERGED survive, non-durable log entries are lost, and the module is off until power-on. -/
  | power_loss
  /-- R391: The Lysueper fabric links finish training and DOM_CFG.UP becomes 1. -/
  | fabric_links_trained
  /-- R391: A fabric link fails, so accesses over it raise ACCESS UNCORRECTABLE with a record from source 468. -/
  | fabric_link_failure (dev : Nat)
deriving DecidableEq, Repr

end Sys2Proof
end

