-- ==== Sys2Proof/Decode.lean ====
section
/-!
DEFINITION. The decoder and the encoder, written from the encoding tables of spec 07 (R86 to R110), 11 (R168 to
R198), 13 (R206 to R216), 15 (R228 to R235), 17 (R242 to R258), 19 (R281 to R298), 21 (R309 to R318) and 23 (R23,
R325, R326). The decoder is total; what it does not accept it rejects by the name of the scanner check of R112 that
the word fails. Limits on field values are no part of decoding: they are `Instr.wf`.
-/
namespace Sys2Proof

/-- The checks of R112, in code order: the names by which a word is rejected. -/
inductive Check where
  | linkEngine | linkKind | linkNext | dataNext | opcodeMap | opcodeRsvd | opcodeStation
  | slot | bundle | reservedField | range | target | fill
deriving DecidableEq, Repr

/-- The CHECK code of a check (R112). -/
def Check.code : Check → Nat
  | .linkEngine => 1 | .linkKind => 2 | .linkNext => 3 | .dataNext => 4 | .opcodeMap => 5 | .opcodeRsvd => 6
  | .opcodeStation => 7 | .slot => 8 | .bundle => 9 | .reservedField => 10 | .range => 11 | .target => 12
  | .fill => 13

/-- The bits of an instruction as the hardware holds them: a sequencer word with its extension word, an entry, a
matrix command, a port command, a record. An event has no encoding. -/
inductive Encoded where
  | seq (w : BitVec 32) (ext : Option (BitVec 32))
  | entry (w : BitVec 64)
  | matrix (w : BitVec 128)
  | port (w : BitVec 256)
  | record (w : BitVec 512)
  | event
deriving DecidableEq, Repr

/-- Cut a number into fields of the given widths, the lowest bits first. -/
def unpack : List Nat → Nat → List Nat
  | [], _ => []
  | k :: ks, n => n % 2 ^ k :: unpack ks (n / 2 ^ k)

/-- Put fields of the given widths together, the first at the lowest bits. -/
def pack : List (Nat × Nat) → Nat
  | [] => 0
  | (k, v) :: r => v + 2 ^ k * pack r

/-- The format named by a TYPE code (R98). -/
def Fmt.ofCode : Nat → Fmt
  | 0 => .f32
  | 1 => .bf16
  | 2 => .f16
  | 3 => .e4m3
  | 4 => .e5m2
  | 5 => .i32
  | 6 => .i16
  | 7 => .i8
  | 8 => .ui8
  | 9 => .mxf8e4
  | 10 => .mxf8e5
  | 11 => .mxf4
  | 12 => .mxi8
  | 13 => .cb4
  | 14 => .bi16
  | _ => .bf32

/-- The TYPE code of a format (R98). -/
def Fmt.code : Fmt → Nat
  | .f32 => 0
  | .bf16 => 1
  | .f16 => 2
  | .e4m3 => 3
  | .e5m2 => 4
  | .i32 => 5
  | .i16 => 6
  | .i8 => 7
  | .ui8 => 8
  | .mxf8e4 => 9
  | .mxf8e5 => 10
  | .mxf4 => 11
  | .mxi8 => 12
  | .cb4 => 13
  | .bi16 => 14
  | .bf32 => 15

/-- The operand named by a six-bit operand field (R97); `none` where the level or special index is reserved. -/
def Opnd.ofCode (c : Nat) : Option Opnd :=
  match c / 16, c % 16 with
  | 0, 0 => some .ll
  | 1, i => some (.ofr (.ofNat 4 i))
  | 2, l => some (.lane (.ofNat 4 l))
  | 3, 0 => some .none
  | 3, 1 => some .imm
  | 3, 2 => some .zero
  | _, _ => Option.none

/-- The six bits of an operand (R97). -/
def Opnd.code : Opnd → Nat
  | .ll => 0
  | .ofr i => 16 + i.toNat
  | .lane l => 32 + l.toNat
  | .none => 48
  | .imm => 49
  | .zero => 50

/-- The answer for a word whose reserved fields must read zero. -/
def reservedBad : Except Check Instr := .error .reservedField

/-! ## The sequencer word (R91 to R95, R106) -/

/-- The extension word of a sequencer word: `none` unless slot kind 0b11 follows (R93). -/
def extOf (next : Option (BitVec 32)) : Option (Bool × BitVec 29) :=
  match next with
  | some w => if w.toNat / 2 ^ 30 = 3 then some (w.getLsbD 29, w.setWidth 29) else none
  | none => none

/-- The end bit of the word's last word and its extension, for a format that takes one: an extension may follow only
inside the bundle (R93, R94). -/
def takeExt (e : Bool) (next : Option (BitVec 32)) : Bool × Option (BitVec 29) :=
  if e then (true, none) else
    match extOf next with
    | some (e', x) => (e', some x)
    | none => (false, none)

/-- The instruction of a sequencer opcode, from the fields in [20:0], the end bit and the following word; the slot
kind has been checked. -/
def decodeSeqOp (op fields : Nat) (e : Bool) (next : Option (BitVec 32)) : Except Check Instr :=
  let x := takeExt e next
  match op with
  | 1 => match unpack [6, 5, 5, 5] fields with
    | [0, b, a, d] => .ok (.add e (.ofNat 5 d) (.ofNat 5 a) (.ofNat 5 b))
    | _ => reservedBad
  | 2 => match unpack [6, 5, 5, 5] fields with
    | [0, b, a, d] => .ok (.sub e (.ofNat 5 d) (.ofNat 5 a) (.ofNat 5 b))
    | _ => reservedBad
  | 3 => match unpack [6, 5, 5, 5] fields with
    | [0, b, a, d] => .ok (.mul e (.ofNat 5 d) (.ofNat 5 a) (.ofNat 5 b))
    | _ => reservedBad
  | 4 => match unpack [6, 5, 5, 5] fields with
    | [0, b, a, d] => .ok (.mulh e (.ofNat 5 d) (.ofNat 5 a) (.ofNat 5 b))
    | _ => reservedBad
  | 5 => match unpack [6, 5, 5, 5] fields with
    | [0, b, a, d] => .ok (.mulhu e (.ofNat 5 d) (.ofNat 5 a) (.ofNat 5 b))
    | _ => reservedBad
  | 6 => match unpack [6, 5, 5, 5] fields with
    | [0, b, a, d] => .ok (.div e (.ofNat 5 d) (.ofNat 5 a) (.ofNat 5 b))
    | _ => reservedBad
  | 7 => match unpack [6, 5, 5, 5] fields with
    | [0, b, a, d] => .ok (.divu e (.ofNat 5 d) (.ofNat 5 a) (.ofNat 5 b))
    | _ => reservedBad
  | 8 => match unpack [6, 5, 5, 5] fields with
    | [0, b, a, d] => .ok (.rem e (.ofNat 5 d) (.ofNat 5 a) (.ofNat 5 b))
    | _ => reservedBad
  | 9 => match unpack [6, 5, 5, 5] fields with
    | [0, b, a, d] => .ok (.remu e (.ofNat 5 d) (.ofNat 5 a) (.ofNat 5 b))
    | _ => reservedBad
  | 10 => match unpack [6, 5, 5, 5] fields with
    | [0, b, a, d] => .ok (.and e (.ofNat 5 d) (.ofNat 5 a) (.ofNat 5 b))
    | _ => reservedBad
  | 11 => match unpack [6, 5, 5, 5] fields with
    | [0, b, a, d] => .ok (.or e (.ofNat 5 d) (.ofNat 5 a) (.ofNat 5 b))
    | _ => reservedBad
  | 12 => match unpack [6, 5, 5, 5] fields with
    | [0, b, a, d] => .ok (.xor e (.ofNat 5 d) (.ofNat 5 a) (.ofNat 5 b))
    | _ => reservedBad
  | 13 => match unpack [6, 5, 5, 5] fields with
    | [0, b, a, d] => .ok (.andn e (.ofNat 5 d) (.ofNat 5 a) (.ofNat 5 b))
    | _ => reservedBad
  | 14 => match unpack [6, 5, 5, 5] fields with
    | [0, b, a, d] => .ok (.shl e (.ofNat 5 d) (.ofNat 5 a) (.ofNat 5 b))
    | _ => reservedBad
  | 15 => match unpack [6, 5, 5, 5] fields with
    | [0, b, a, d] => .ok (.shr e (.ofNat 5 d) (.ofNat 5 a) (.ofNat 5 b))
    | _ => reservedBad
  | 16 => match unpack [6, 5, 5, 5] fields with
    | [0, b, a, d] => .ok (.sar e (.ofNat 5 d) (.ofNat 5 a) (.ofNat 5 b))
    | _ => reservedBad
  | 17 => match unpack [6, 5, 5, 5] fields with
    | [0, b, a, d] => .ok (.rol e (.ofNat 5 d) (.ofNat 5 a) (.ofNat 5 b))
    | _ => reservedBad
  | 18 => match unpack [6, 5, 5, 5] fields with
    | [0, b, a, d] => .ok (.min e (.ofNat 5 d) (.ofNat 5 a) (.ofNat 5 b))
    | _ => reservedBad
  | 19 => match unpack [6, 5, 5, 5] fields with
    | [0, b, a, d] => .ok (.max e (.ofNat 5 d) (.ofNat 5 a) (.ofNat 5 b))
    | _ => reservedBad
  | 20 => match unpack [6, 5, 5, 5] fields with
    | [0, b, a, d] => .ok (.minu e (.ofNat 5 d) (.ofNat 5 a) (.ofNat 5 b))
    | _ => reservedBad
  | 21 => match unpack [6, 5, 5, 5] fields with
    | [0, b, a, d] => .ok (.maxu e (.ofNat 5 d) (.ofNat 5 a) (.ofNat 5 b))
    | _ => reservedBad
  | 22 => match unpack [6, 5, 5, 5] fields with
    | [0, b, a, d] => .ok (.slt e (.ofNat 5 d) (.ofNat 5 a) (.ofNat 5 b))
    | _ => reservedBad
  | 23 => match unpack [6, 5, 5, 5] fields with
    | [0, b, a, d] => .ok (.sltu e (.ofNat 5 d) (.ofNat 5 a) (.ofNat 5 b))
    | _ => reservedBad
  | 24 => match unpack [11, 5, 5] fields with
    | [imm, a, d] => .ok (.addi x.1 (.ofNat 5 d) (.ofNat 5 a) (.ofNat 11 imm) x.2)
    | _ => reservedBad
  | 25 => match unpack [11, 5, 5] fields with
    | [imm, a, d] => .ok (.andi x.1 (.ofNat 5 d) (.ofNat 5 a) (.ofNat 11 imm) x.2)
    | _ => reservedBad
  | 26 => match unpack [11, 5, 5] fields with
    | [imm, a, d] => .ok (.ori x.1 (.ofNat 5 d) (.ofNat 5 a) (.ofNat 11 imm) x.2)
    | _ => reservedBad
  | 27 => match unpack [11, 5, 5] fields with
    | [imm, a, d] => .ok (.xori x.1 (.ofNat 5 d) (.ofNat 5 a) (.ofNat 11 imm) x.2)
    | _ => reservedBad
  | 28 => match unpack [6, 5, 5, 5] fields with
    | [n, 0, a, d] => .ok (.shli e (.ofNat 5 d) (.ofNat 5 a) (.ofNat 6 n))
    | _ => reservedBad
  | 29 => match unpack [6, 5, 5, 5] fields with
    | [n, 0, a, d] => .ok (.shri e (.ofNat 5 d) (.ofNat 5 a) (.ofNat 6 n))
    | _ => reservedBad
  | 30 => match unpack [6, 5, 5, 5] fields with
    | [n, 0, a, d] => .ok (.sari e (.ofNat 5 d) (.ofNat 5 a) (.ofNat 6 n))
    | _ => reservedBad
  | 31 => match unpack [16, 5] fields with
    | [imm, d] => .ok (.lui x.1 (.ofNat 5 d) (.ofNat 16 imm) x.2)
    | _ => reservedBad
  | 32 => match unpack [11, 5, 5] fields with
    | [0, a, d] => .ok (.clz e (.ofNat 5 d) (.ofNat 5 a))
    | _ => reservedBad
  | 33 => match unpack [11, 5, 5] fields with
    | [0, a, d] => .ok (.ctz e (.ofNat 5 d) (.ofNat 5 a))
    | _ => reservedBad
  | 34 => match unpack [11, 5, 5] fields with
    | [0, a, d] => .ok (.popc e (.ofNat 5 d) (.ofNat 5 a))
    | _ => reservedBad
  | 35 => match unpack [11, 5, 5] fields with
    | [0, a, d] => .ok (.sext_b e (.ofNat 5 d) (.ofNat 5 a))
    | _ => reservedBad
  | 36 => match unpack [11, 5, 5] fields with
    | [0, a, d] => .ok (.sext_h e (.ofNat 5 d) (.ofNat 5 a))
    | _ => reservedBad
  | 37 => match unpack [11, 5, 5] fields with
    | [0, a, d] => .ok (.sext_w e (.ofNat 5 d) (.ofNat 5 a))
    | _ => reservedBad
  | 38 => match unpack [11, 5, 5] fields with
    | [0, a, d] => .ok (.zext_b e (.ofNat 5 d) (.ofNat 5 a))
    | _ => reservedBad
  | 39 => match unpack [11, 5, 5] fields with
    | [0, a, d] => .ok (.zext_h e (.ofNat 5 d) (.ofNat 5 a))
    | _ => reservedBad
  | 40 => match unpack [11, 5, 5] fields with
    | [0, a, d] => .ok (.zext_w e (.ofNat 5 d) (.ofNat 5 a))
    | _ => reservedBad
  | 41 => match unpack [4, 5, 5, 4, 3] fields with
    | [0, b, a, cc, pd] => .ok (.cmp e (.ofNat 3 pd) (.ofNat 4 cc) (.ofNat 5 a) (.ofNat 5 b))
    | _ => reservedBad
  | 42 => match unpack [9, 5, 4, 3] fields with
    | [imm, a, cc, pd] => .ok (.cmpi x.1 (.ofNat 3 pd) (.ofNat 4 cc) (.ofNat 5 a) (.ofNat 9 imm) x.2)
    | _ => reservedBad
  | 43 => match unpack [12, 3, 3, 3] fields with
    | [0, pb, pa, pd] => .ok (.pand e (.ofNat 3 pd) (.ofNat 3 pa) (.ofNat 3 pb))
    | _ => reservedBad
  | 44 => match unpack [12, 3, 3, 3] fields with
    | [0, pb, pa, pd] => .ok (.por e (.ofNat 3 pd) (.ofNat 3 pa) (.ofNat 3 pb))
    | _ => reservedBad
  | 45 => match unpack [12, 3, 3, 3] fields with
    | [0, pb, pa, pd] => .ok (.pxor e (.ofNat 3 pd) (.ofNat 3 pa) (.ofNat 3 pb))
    | _ => reservedBad
  | 46 => match unpack [15, 3, 3] fields with
    | [0, pa, pd] => .ok (.pnot e (.ofNat 3 pd) (.ofNat 3 pa))
    | _ => reservedBad
  | 47 => match unpack [3, 1, 2, 5, 5, 5] fields with
    | [p, neg, 0, b, a, d] => .ok (.sel e (.ofNat 5 d) (.ofNat 5 a) (.ofNat 5 b) (.ofNat 1 neg) (.ofNat 3 p))
    | _ => reservedBad
  | 48 => match unpack [11, 5, 5] fields with
    | [imm, a, d] => .ok (.ld_b x.1 (.ofNat 5 d) (.ofNat 5 a) (.ofNat 11 imm) x.2)
    | _ => reservedBad
  | 49 => match unpack [11, 5, 5] fields with
    | [imm, a, d] => .ok (.ld_h x.1 (.ofNat 5 d) (.ofNat 5 a) (.ofNat 11 imm) x.2)
    | _ => reservedBad
  | 50 => match unpack [11, 5, 5] fields with
    | [imm, a, d] => .ok (.ld_w x.1 (.ofNat 5 d) (.ofNat 5 a) (.ofNat 11 imm) x.2)
    | _ => reservedBad
  | 51 => match unpack [11, 5, 5] fields with
    | [imm, a, d] => .ok (.ld_d x.1 (.ofNat 5 d) (.ofNat 5 a) (.ofNat 11 imm) x.2)
    | _ => reservedBad
  | 52 => match unpack [11, 5, 5] fields with
    | [imm, a, d] => .ok (.ldu_b x.1 (.ofNat 5 d) (.ofNat 5 a) (.ofNat 11 imm) x.2)
    | _ => reservedBad
  | 53 => match unpack [11, 5, 5] fields with
    | [imm, a, d] => .ok (.ldu_h x.1 (.ofNat 5 d) (.ofNat 5 a) (.ofNat 11 imm) x.2)
    | _ => reservedBad
  | 54 => match unpack [11, 5, 5] fields with
    | [imm, a, d] => .ok (.ldu_w x.1 (.ofNat 5 d) (.ofNat 5 a) (.ofNat 11 imm) x.2)
    | _ => reservedBad
  | 55 => match unpack [11, 5, 5] fields with
    | [imm, a, d] => .ok (.st_b x.1 (.ofNat 5 d) (.ofNat 5 a) (.ofNat 11 imm) x.2)
    | _ => reservedBad
  | 56 => match unpack [11, 5, 5] fields with
    | [imm, a, d] => .ok (.st_h x.1 (.ofNat 5 d) (.ofNat 5 a) (.ofNat 11 imm) x.2)
    | _ => reservedBad
  | 57 => match unpack [11, 5, 5] fields with
    | [imm, a, d] => .ok (.st_w x.1 (.ofNat 5 d) (.ofNat 5 a) (.ofNat 11 imm) x.2)
    | _ => reservedBad
  | 58 => match unpack [11, 5, 5] fields with
    | [imm, a, d] => .ok (.st_d x.1 (.ofNat 5 d) (.ofNat 5 a) (.ofNat 11 imm) x.2)
    | _ => reservedBad
  | 59 => match unpack [4, 11, 3, 2, 1] fields with
    | [word, loff, p, 0, neg] => .ok (.br x.1 (.ofNat 1 neg) (.ofNat 3 p) (.ofNat 11 loff) (.ofNat 4 word) x.2)
    | _ => reservedBad
  | 60 => match unpack [4, 11, 4, 2] fields with
    | [word, loff, f, test] => .ok (.bf x.1 (.ofNat 2 test) (.ofNat 4 f) (.ofNat 11 loff) (.ofNat 4 word) x.2)
    | _ => reservedBad
  | 61 => match unpack [4, 11, 6] fields with
    | [word, loff, 0] => .ok (.jmp x.1 (.ofNat 11 loff) (.ofNat 4 word) x.2)
    | _ => reservedBad
  | 62 => match unpack [11, 5, 5] fields with
    | [0, a, 0] => .ok (.jr e (.ofNat 5 a))
    | _ => reservedBad
  | 63 => match unpack [4, 11, 6] fields with
    | [word, loff, 0] => .ok (.call x.1 (.ofNat 11 loff) (.ofNat 4 word) x.2)
    | _ => reservedBad
  | 64 => if fields = 0 then .ok (.ret e) else reservedBad
  | 65 => match unpack [4, 12, 5] fields with
    | [word, loff, a] => .ok (.loop x.1 (.ofNat 5 a) (.ofNat 12 loff) (.ofNat 4 word) x.2)
    | _ => reservedBad
  | 66 => if fields = 0 then .ok (.exit e) else reservedBad
  | 67 => match unpack [11, 10] fields with
    | [imm, 0] => .ok (.trap x.1 (.ofNat 11 imm) x.2)
    | _ => reservedBad
  | 68 => if fields = 0 then .ok (.rfe e) else reservedBad
  | 69 => if fields = 0 then .ok (.nop e) else reservedBad
  | 70 => match unpack [12, 5, 4] fields with
    | [loff, a, stream] => .ok (.arm x.1 (.ofNat 4 stream) (.ofNat 5 a) (.ofNat 12 loff) x.2)
    | _ => reservedBad
  | 71 => match unpack [17, 4] fields with
    | [0, stream] => if x.2.getD 0 = 0 then .ok (.disarm x.1 (.ofNat 4 stream) x.2) else reservedBad
    | _ => reservedBad
  | 72 => match unpack [11, 5, 5] fields with
    | [0, a, d] => .ok (.sync e (.ofNat 5 d) (.ofNat 5 a))
    | _ => reservedBad
  | 73 => match unpack [16, 5] fields with
    | [0, d] => .ok (.cyc e (.ofNat 5 d))
    | _ => reservedBad
  | 74 => match unpack [5, 4, 5, 4, 3] fields with
    | [0, ty, a, ofi, stn] => .ok (.setof e (.ofNat 3 stn) (.ofNat 4 ofi) (.ofNat 5 a) (.ofNat 4 ty))
    | _ => reservedBad
  | 75 => match unpack [11, 4, 1, 5] fields with
    | [0, f, 0, d] => .ok (.fget e (.ofNat 5 d) (.ofNat 4 f))
    | _ => reservedBad
  | 76 => match unpack [10, 2, 4, 5] fields with
    | [0, cmd, port, src] => .ok (.cport e (.ofNat 5 src) (.ofNat 4 port) (.ofNat 2 cmd))
    | _ => reservedBad
  | 77 => match unpack [12, 4, 5] fields with
    | [0, port, d] => .ok (.go e (.ofNat 5 d) (.ofNat 4 port))
    | _ => reservedBad
  | 78 => match unpack [6, 5, 5, 5] fields with
    | [0, b, a, 0] => .ok (.mxq e (.ofNat 5 a) (.ofNat 5 b))
    | _ => reservedBad
  | 79 => match unpack [9, 5, 2, 5] fields with
    | [imm, a, 0, h] => .ok (.hsig e (.ofNat 5 h) (.ofNat 5 a) (.ofNat 9 imm))
    | _ => reservedBad
  | 80 => match unpack [9, 5, 2, 5] fields with
    | [imm, a, op, h] => .ok (.hwait e (.ofNat 5 h) (.ofNat 2 op) (.ofNat 5 a) (.ofNat 9 imm))
    | _ => reservedBad
  | 81 => match unpack [11, 5, 5] fields with
    | [0, h, d] => .ok (.hrd e (.ofNat 5 d) (.ofNat 5 h))
    | _ => reservedBad
  | 82 => match unpack [4, 12, 5] fields with
    | [0, index, d] => .ok (.getc e (.ofNat 5 d) (.ofNat 12 index))
    | _ => reservedBad
  | 83 => match unpack [4, 12, 5] fields with
    | [0, index, d] => .ok (.setc e (.ofNat 5 d) (.ofNat 12 index))
    | _ => reservedBad
  | 84 => match unpack [18, 3] fields with
    | [0, scope] => .ok (.fence e (.ofNat 3 scope))
    | _ => reservedBad
  | 85 => match unpack [16, 5] fields with
    | [0, d] => .ok (.tstamp e (.ofNat 5 d))
    | _ => reservedBad
  | 86 => match unpack [11, 10] fields with
    | [imm, 0] => .ok (.fwshare x.1 (.ofNat 11 imm) x.2)
    | _ => reservedBad
  | 87 => match unpack [11, 5, 5] fields with
    | [imm, a, d] => .ok (.idle x.1 (.ofNat 5 d) (.ofNat 5 a) (.ofNat 11 imm) x.2)
    | _ => reservedBad
  | _ => .error .opcodeMap

/-- The slot kind of each sequencer opcode: 0 A, 1 L, 2 S (R106); `none` for the fill value and values of other maps. -/
def slotOf (op : Nat) : Option Nat :=
  if op = 0 ∨ 0x57 < op then none
  else if 0x30 ≤ op ∧ op ≤ 0x36 then some 1
  else if (0x37 ≤ op ∧ op ≤ 0x3A) ∨ op = 0x4C ∨ op = 0x4D ∨ op = 0x4E then some 2
  else some 0

/-- Decode one sequencer word with the word that follows it in its line (R91 to R94). -/
def decodeSeq (w : BitVec 32) (next : Option (BitVec 32)) : Except Check Instr :=
  match unpack [21, 8, 1, 2] w.toNat with
  | [fields, op, e, sk] =>
    if sk = 3 then .error .bundle
    else match slotOf op with
      | none => .error (if op = 0 then .opcodeRsvd else .opcodeMap)
      | some k => if sk = k then decodeSeqOp op fields (e == 1) next else .error .slot
  | _ => .error .opcodeMap

/-- Build a sequencer word and its extension word (R91, R93). -/
def seqWord (op sk : Nat) (e : Bool) (fields : Nat) (x : Option (BitVec 29)) : Encoded :=
  match x with
  | none => .seq (.ofNat 32 (pack [(21, fields), (8, op), (1, e.toNat), (2, sk)])) none
  | some x => .seq (.ofNat 32 (pack [(21, fields), (8, op), (1, 0), (2, sk)]))
      (some (.ofNat 32 (pack [(29, x.toNat), (1, e.toNat), (2, 3)])))

/-! ## The bank and station word (R96 to R98, R107, R108) -/

/-- The entry of an opcode, from its common fields and the modifiers `m` (MOD, its low half cleared where it is an
immediate). -/
def decodeEntryOp (op : Nat) (h : Ent) (m : Nat) : Except Check Instr :=
  match op with
  | 88 => match unpack [11, 17] m with
    | [row, 0] => .ok (.rd h (.ofNat 11 row))
    | _ => reservedBad
  | 89 => match unpack [11, 11, 5, 1] m with
    | [base, len, off, adv] => .ok (.rdx h (.ofNat 11 base) (.ofNat 11 len) (.ofNat 5 off) (.ofNat 1 adv))
    | _ => reservedBad
  | 90 => match unpack [11, 11, 6] m with
    | [rowA, rowB, 0] => .ok (.rdb h (.ofNat 11 rowA) (.ofNat 11 rowB))
    | _ => reservedBad
  | 91 => match unpack [11, 3, 14] m with
    | [row, part, 0] => .ok (.wr h (.ofNat 11 row) (.ofNat 3 part))
    | _ => reservedBad
  | 92 => match unpack [11, 11, 5, 1] m with
    | [base, len, off, adv] => .ok (.wrx h (.ofNat 11 base) (.ofNat 11 len) (.ofNat 5 off) (.ofNat 1 adv))
    | _ => reservedBad
  | 93 => match unpack [11, 16, 1] m with
    | [row, gmask, 0] => .ok (.wrb h (.ofNat 11 row) (.ofNat 16 gmask))
    | _ => reservedBad
  | 94 => match unpack [11, 11, 6] m with
    | [row, count, 0] => .ok (.bank_fill h (.ofNat 11 row) (.ofNat 11 count))
    | _ => reservedBad
  | 95 => match unpack [16, 3, 1, 2, 6] m with
    | [seedv, rnd, sat, seed, 0] => .ok (.bank_mode h (.ofNat 16 seedv) (.ofNat 3 rnd) (.ofNat 1 sat) (.ofNat 2 seed))
    | _ => reservedBad
  | 96 => match unpack [16, 4, 2, 1, 5] m with
    | [0, f, cb, load, 0] => .ok (.fmt h (.ofNat 4 f) (.ofNat 2 cb) (.ofNat 1 load))
    | _ => reservedBad
  | 97 => match unpack [24, 4] m with
    | [w, 0] => .ok (.bank_wait h (.ofNat 24 w))
    | _ => reservedBad
  | 104 => if m = 0 then .ok (.stn_nop h) else reservedBad
  | 105 => match unpack [24, 4] m with
    | [w, 0] => .ok (.stn_wait h (.ofNat 24 w))
    | _ => reservedBad
  | 106 => match unpack [16, 3, 1, 2, 6] m with
    | [seedv, rnd, sat, seed, 0] => .ok (.stn_mode h (.ofNat 16 seedv) (.ofNat 3 rnd) (.ofNat 1 sat) (.ofNat 2 seed))
    | _ => reservedBad
  | 107 => if m = 0 then .ok (.chk h) else reservedBad
  | 108 => if m = 0 then .ok (.vadd h) else reservedBad
  | 109 => if m = 0 then .ok (.vsub h) else reservedBad
  | 110 => if m = 0 then .ok (.vmul h) else reservedBad
  | 111 => match unpack [18, 1, 9] m with
    | [0, init, 0] => .ok (.vfma h (.ofNat 1 init))
    | _ => reservedBad
  | 112 => match unpack [18, 1, 9] m with
    | [0, init, 0] => .ok (.vfms h (.ofNat 1 init))
    | _ => reservedBad
  | 113 => if m = 0 then .ok (.vmin h) else reservedBad
  | 114 => if m = 0 then .ok (.vmax h) else reservedBad
  | 115 => if m = 0 then .ok (.vabs h) else reservedBad
  | 116 => if m = 0 then .ok (.vneg h) else reservedBad
  | 117 => if m = 0 then .ok (.vand h) else reservedBad
  | 118 => if m = 0 then .ok (.vor h) else reservedBad
  | 119 => if m = 0 then .ok (.vxor h) else reservedBad
  | 120 => if m = 0 then .ok (.vnot h) else reservedBad
  | 121 => if m = 0 then .ok (.vshl h) else reservedBad
  | 122 => if m = 0 then .ok (.vshr h) else reservedBad
  | 123 => if m = 0 then .ok (.vsar h) else reservedBad
  | 124 => if m = 0 then .ok (.vrshr h) else reservedBad
  | 125 => if m = 0 then .ok (.vaddsat h) else reservedBad
  | 126 => if m = 0 then .ok (.vsubsat h) else reservedBad
  | 127 => match unpack [16, 1, 11] m with
    | [0, sym, 0] => .ok (.vclamp h (.ofNat 1 sym))
    | _ => reservedBad
  | 128 => match unpack [16, 3, 9] m with
    | [0, rel, 0] => .ok (.vcmp h (.ofNat 3 rel))
    | _ => reservedBad
  | 129 => match unpack [16, 3, 1, 8] m with
    | [0, rel, 0, margin] => .ok (.vcmpb h (.ofNat 3 rel) (.ofNat 8 margin))
    | _ => reservedBad
  | 130 => match unpack [16, 4, 1, 7] m with
    | [0, mof, amb, 0] => .ok (.vsel h (.ofNat 4 mof) (.ofNat 1 amb))
    | _ => reservedBad
  | 131 => if m = 0 then .ok (.vmov h) else reservedBad
  | 132 => match unpack [16, 2, 1, 9] m with
    | [0, q, init, 0] => .ok (.vmac h (.ofNat 2 q) (.ofNat 1 init))
    | _ => reservedBad
  | 133 => if m = 0 then .ok (.vscale h) else reservedBad
  | 134 => match unpack [16, 3, 1, 8] m with
    | [0, part, init, 0] => .ok (.vcvt h (.ofNat 3 part) (.ofNat 1 init))
    | _ => reservedBad
  | 135 => if m = 0 then .ok (.vpack h) else reservedBad
  | 136 => match unpack [16, 1, 11] m with
    | [0, half, 0] => .ok (.vunpack h (.ofNat 1 half))
    | _ => reservedBad
  | 137 => if m = 0 then .ok (.viota h) else reservedBad
  | 138 => if m = 0 then .ok (.vaccept h) else reservedBad
  | 144 => if m = 0 then .ok (.rcp h) else reservedBad
  | 145 => if m = 0 then .ok (.rsq h) else reservedBad
  | 146 => if m = 0 then .ok (.sqrt h) else reservedBad
  | 147 => if m = 0 then .ok (.ex2 h) else reservedBad
  | 148 => if m = 0 then .ok (.lg2 h) else reservedBad
  | 149 => if m = 0 then .ok (.sin h) else reservedBad
  | 150 => if m = 0 then .ok (.cos h) else reservedBad
  | 152 => match unpack [16, 4, 1, 7] m with
    | [0, lr, h2, 0] => .ok (.xpose h (.ofNat 4 lr) (.ofNat 1 h2))
    | _ => reservedBad
  | 153 => if m = 0 then .ok (.perm h) else reservedBad
  | 154 => match unpack [16, 3, 9] m with
    | [0, pat, 0] => .ok (.shuf h (.ofNat 3 pat))
    | _ => reservedBad
  | 155 => match unpack [16, 8, 4] m with
    | [0, k, 0] => .ok (.bcast h (.ofNat 8 k))
    | _ => reservedBad
  | 156 => match unpack [16, 4, 2, 6] m with
    | [0, t, len, 0] => .ok (.gath h (.ofNat 4 t) (.ofNat 2 len))
    | _ => reservedBad
  | 157 => match unpack [16, 9, 3] m with
    | [0, k, 0] => .ok (.slide h (.ofNat 9 k))
    | _ => reservedBad
  | 158 => match unpack [16, 1, 11] m with
    | [0, pair, 0] => .ok (.rope h (.ofNat 1 pair))
    | _ => reservedBad
  | 159 => match unpack [20, 1, 7] m with
    | [0, md, 0] => .ok (.spc24 h (.ofNat 1 md))
    | _ => reservedBad
  | 160 => match unpack [20, 1, 7] m with
    | [0, md, 0] => .ok (.spc48 h (.ofNat 1 md))
    | _ => reservedBad
  | 164 => match unpack [16, 1, 1, 10] m with
    | [0, bc, sat, 0] => .ok (.rsum h (.ofNat 1 bc) (.ofNat 1 sat))
    | _ => reservedBad
  | 165 => match unpack [16, 1, 11] m with
    | [0, bc, 0] => .ok (.rmax h (.ofNat 1 bc))
    | _ => reservedBad
  | 166 => match unpack [16, 1, 11] m with
    | [0, bc, 0] => .ok (.rmin h (.ofNat 1 bc))
    | _ => reservedBad
  | 167 => match unpack [16, 1, 11] m with
    | [0, excl, 0] => .ok (.scan h (.ofNat 1 excl))
    | _ => reservedBad
  | 168 => match unpack [16, 3, 1, 8] m with
    | [0, k, start, 0] => .ok (.topk h (.ofNat 3 k) (.ofNat 1 start))
    | _ => reservedBad
  | 169 => if m = 0 then .ok (.argmax h) else reservedBad
  | 170 => match unpack [16, 1, 11] m with
    | [0, amb, 0] => .ok (.cmpct h (.ofNat 1 amb))
    | _ => reservedBad
  | 171 => match unpack [16, 1, 2, 1, 8] m with
    | [0, out, 0, start, 0] => .ok (.osm h (.ofNat 1 out) (.ofNat 1 start))
    | _ => reservedBad
  | 172 => if m = 0 then .ok (.osf h) else reservedBad
  | 173 => match unpack [1, 15, 8, 4] m with
    | [amb, 0, count, flag] => .ok (.vflag h (.ofNat 4 flag) (.ofNat 8 count) (.ofNat 1 amb))
    | _ => reservedBad
  | 176 => match unpack [4, 4, 20] m with
    | [arr, sh, 0] => .ok (.xmv h (.ofNat 4 arr) (.ofNat 4 sh))
    | _ => reservedBad
  | 177 => match unpack [4, 4, 20] m with
    | [arr, sh, 0] => .ok (.xref h (.ofNat 4 arr) (.ofNat 4 sh))
    | _ => reservedBad
  | 178 => match unpack [4, 9, 3, 1, 5, 6] m with
    | [arr, row, q, 0, 0, 0] => .ok (.xprog_deposit h (.ofNat 4 arr) (.ofNat 9 row) (.ofNat 3 q))
    | [arr, 0, 0, 1, hs, 0] => .ok (.xprog_fire h (.ofNat 4 arr) (.ofNat 5 hs))
    | [_, _, _, _, _, 0] => .error .range
    | _ => reservedBad
  | 179 => match unpack [4, 9, 3, 12] m with
    | [arr, row, q, 0] => .ok (.xrdw h (.ofNat 4 arr) (.ofNat 9 row) (.ofNat 3 q))
    | _ => reservedBad
  | 180 => match unpack [4, 4, 20] m with
    | [arr, sh, 0] => .ok (.xbound h (.ofNat 4 arr) (.ofNat 4 sh))
    | _ => reservedBad
  | 181 => match unpack [4, 3, 5, 16] m with
    | [arr, sel, ix, 0] => .ok (.xstat h (.ofNat 4 arr) (.ofNat 3 sel) (.ofNat 5 ix))
    | _ => reservedBad
  | 184 => match unpack [16, 7, 5] m with
    | [0, row, slot] => .ok (.mld h (.ofNat 7 row) (.ofNat 5 slot))
    | _ => reservedBad
  | 185 => if m = 0 then .ok (.mfd h) else reservedBad
  | 186 => match unpack [16, 7, 2, 2, 1] m with
    | [0, row, q, acc, 0] => .ok (.mdr h (.ofNat 7 row) (.ofNat 2 q) (.ofNat 2 acc))
    | _ => reservedBad
  | 187 => match unpack [7, 5, 2, 2, 1, 11] m with
    | [row, slot, acc, q, kind, 0] => .ok (.msv h (.ofNat 7 row) (.ofNat 5 slot) (.ofNat 2 acc) (.ofNat 2 q) (.ofNat 1 kind))
    | _ => reservedBad
  | 188 => match unpack [7, 5, 2, 2, 1, 11] m with
    | [row, slot, acc, q, kind, 0] => .ok (.mrs h (.ofNat 7 row) (.ofNat 5 slot) (.ofNat 2 acc) (.ofNat 2 q) (.ofNat 1 kind))
    | _ => reservedBad
  | 192 => match unpack [16, 3, 9] m with
    | [0, q, 0] => .ok (.fsnd h (.ofNat 3 q))
    | _ => reservedBad
  | 193 => match unpack [16, 3, 9] m with
    | [0, q, 0] => .ok (.frcv h (.ofNat 3 q))
    | _ => reservedBad
  | 194 => match unpack [16, 3, 7, 2] m with
    | [w, q, count, 0] => .ok (.fexp h (.ofNat 3 q) (.ofNat 7 count) (.ofNat 16 w))
    | _ => reservedBad
  | 195 => match unpack [16, 3, 5, 4] m with
    | [0, q, hs, 0] => .ok (.fqd h (.ofNat 3 q) (.ofNat 5 hs))
    | _ => reservedBad
  | _ => .error (if (0x62 ≤ op ∧ op ≤ 0x67) ∨ (0x68 ≤ op ∧ op ≤ 0xCF) then .opcodeRsvd else .opcodeMap)

/-- Decode one entry of a bank or station line (R96, R97). The low half of MOD is an immediate where SA or SB is IMM. -/
def decodeEntry (w : BitVec 64) : Except Check Instr :=
  match unpack [28, 4, 6, 6, 6, 6, 8] w.toNat with
  | [m, ty, sb, sa, dst, idle, op] =>
    match Opnd.ofCode dst, Opnd.ofCode sa, Opnd.ofCode sb with
    | some d, some a, some b =>
      let im := a == .imm || b == .imm
      decodeEntryOp op ⟨.ofNat 6 idle, d, a, b, Fmt.ofCode ty, .ofNat 16 (if im then m % 2 ^ 16 else 0)⟩
        (if im then 2 ^ 16 * (m / 2 ^ 16) else m)
    | _, _, _ => .error .range
  | _ => .error .opcodeMap

/-- Build an entry word (R96). -/
def entryWord (op : Nat) (h : Ent) (m : Nat) : Encoded :=
  .entry (.ofNat 64 (pack [(28, m + (if h.sa == .imm || h.sb == .imm then h.imm.toNat else 0)), (4, h.ty.code),
    (6, h.sb.code), (6, h.sa.code), (6, h.dst.code), (6, h.idle.toNat), (8, op)]))

/-! ## The matrix command (R99, R109, R206 to R216) -/

/-- Decode one 128-bit matrix command: its bits [87:86] are judged before its opcode (log entry 94). -/
def decodeMatrix (w : BitVec 128) : Except Check Instr :=
  match unpack [8, 40, 16, 5, 2, 1, 5, 1, 8, 2, 40] w.toNat with
  | [op, start, wval, wsem, wop, wen, ssem, sen, sinc, rsv, args] =>
    let h : MxHdr := ⟨.ofNat 40 start, .ofNat 16 wval, .ofNat 5 wsem, .ofNat 2 wop, .ofNat 1 wen, .ofNat 5 ssem,
      .ofNat 1 sen, .ofNat 8 sinc⟩
    if rsv ≠ 0 then reservedBad else
    match op with
    | 208 => match unpack [2, 5, 7, 7, 9, 4, 6] args with
      | [acc, slot, m, n, k, ty, 0] => .ok (.mmul h (.ofNat 2 acc) (.ofNat 5 slot) (.ofNat 7 m) (.ofNat 7 n) (.ofNat 9 k) (.ofNat 4 ty))
      | _ => reservedBad
    | 209 => match unpack [2, 5, 7, 7, 9, 4, 6] args with
      | [acc, slot, m, n, k, ty, 0] => .ok (.mmac h (.ofNat 2 acc) (.ofNat 5 slot) (.ofNat 7 m) (.ofNat 7 n) (.ofNat 9 k) (.ofNat 4 ty))
      | _ => reservedBad
    | 210 => match unpack [2, 5, 7, 7, 9, 4, 1, 1, 4] args with
      | [acc, slot, m, n, k, ty, sp, pc, mof] => .ok (.mmuls h (.ofNat 2 acc) (.ofNat 5 slot) (.ofNat 7 m) (.ofNat 7 n) (.ofNat 9 k) (.ofNat 4 ty) (.ofNat 1 sp) (.ofNat 1 pc) (.ofNat 4 mof))
      | _ => reservedBad
    | 211 => match unpack [2, 5, 7, 7, 9, 4, 1, 1, 4] args with
      | [acc, slot, m, n, k, ty, sp, pc, mof] => .ok (.mmacs h (.ofNat 2 acc) (.ofNat 5 slot) (.ofNat 7 m) (.ofNat 7 n) (.ofNat 9 k) (.ofNat 4 ty) (.ofNat 1 sp) (.ofNat 1 pc) (.ofNat 4 mof))
      | _ => reservedBad
    | 212 => match unpack [2, 1, 37] args with
      | [acc, ty, 0] => .ok (.mclr h (.ofNat 2 acc) (.ofNat 1 ty))
      | _ => reservedBad
    | 213 => match unpack [32, 8] args with
      | [mask, 0] => .ok (.mclaim h (.ofNat 32 mask))
      | _ => reservedBad
    | 214 => match unpack [32, 8] args with
      | [mask, 0] => .ok (.mrel h (.ofNat 32 mask))
      | _ => reservedBad
    | 215 => match unpack [5, 7, 4, 1, 23] args with
      | [slot, row0, mof, w, 0] => .ok (.mscl h (.ofNat 5 slot) (.ofNat 7 row0) (.ofNat 4 mof) (.ofNat 1 w))
      | _ => reservedBad
    | 216 => match unpack [5, 5, 30] args with
      | [dst, src, 0] => .ok (.mtr h (.ofNat 5 dst) (.ofNat 5 src))
      | _ => reservedBad
    | 217 => if args = 0 then .ok (.mfence h) else reservedBad
    | 218 => match unpack [6, 34] args with
      | [tgt, 0] => .ok (.mx_msig h (.ofNat 6 tgt))
      | _ => reservedBad
    | 219 => if args = 0 then .ok (.mnop h) else reservedBad
    | _ => .error (if 0xDC ≤ op ∧ op ≤ 0xDF then .opcodeRsvd else .opcodeMap)
  | _ => .error .opcodeMap

/-- Build a matrix command (R99). -/
def matrixWord (op : Nat) (h : MxHdr) (args : Nat) : Encoded :=
  .matrix (.ofNat 128 (pack [(8, op), (40, h.start.toNat), (16, h.wval.toNat), (5, h.wsem.toNat), (2, h.wop.toNat),
    (1, h.wen.toNat), (5, h.ssem.toNat), (1, h.sen.toNat), (8, h.sinc.toNat), (2, 0), (40, args)]))

/-! ## The ferry, storage and key-value commands (R110, R242, R281, R309) -/

/-- The fields of a `copy` command. -/
def decCopy (w : Nat) : Except Check Instr :=
  match unpack [8, 3, 3, 5, 1, 1, 3, 1, 1, 32, 6, 64, 64, 24, 2, 10, 10, 4, 14] w with
  | [_, h_sk, h_dk, h_h, h_hen, h_ben, h_scope, h_soft, h_cache, c_count, c_csl, c_src, c_dst, c_bar, c_bph, c_sdev, c_ddev, c_tag, 0] =>
    .ok (.copy ⟨.ofNat 3 h_sk, .ofNat 3 h_dk, .ofNat 5 h_h, .ofNat 1 h_hen, .ofNat 1 h_ben, .ofNat 3 h_scope, .ofNat 1 h_soft, .ofNat 1 h_cache⟩ ⟨.ofNat 32 c_count, .ofNat 6 c_csl, .ofNat 64 c_src, .ofNat 64 c_dst, .ofNat 24 c_bar, .ofNat 2 c_bph, .ofNat 10 c_sdev, .ofNat 10 c_ddev, .ofNat 4 c_tag⟩)
  | _ => reservedBad

/-- The fields of a `copyp` command. -/
def decCopyp (w : Nat) : Except Check Instr :=
  match unpack [8, 3, 3, 5, 1, 1, 3, 1, 1, 32, 6, 64, 64, 24, 2, 10, 4, 24] w with
  | [_, h_sk, h_dk, h_h, h_hen, h_ben, h_scope, h_soft, h_cache, c_count, c_csl, c_src, c_dst, c_bar, c_bph, c_sdev, 0, c_pub] =>
    .ok (.copyp ⟨.ofNat 3 h_sk, .ofNat 3 h_dk, .ofNat 5 h_h, .ofNat 1 h_hen, .ofNat 1 h_ben, .ofNat 3 h_scope, .ofNat 1 h_soft, .ofNat 1 h_cache⟩ ⟨.ofNat 32 c_count, .ofNat 6 c_csl, .ofNat 64 c_src, .ofNat 64 c_dst, .ofNat 24 c_bar, .ofNat 2 c_bph, .ofNat 10 c_sdev, .ofNat 24 c_pub⟩)
  | _ => reservedBad

/-- The fields of a `pref` command. -/
def decPref (w : Nat) : Except Check Instr :=
  match unpack [8, 3, 3, 5, 1, 1, 3, 1, 1, 32, 6, 64, 64, 24, 2, 10, 10, 4, 14] w with
  | [_, h_sk, h_dk, h_h, h_hen, h_ben, h_scope, h_soft, h_cache, c_count, c_csl, c_src, c_dst, c_bar, c_bph, c_sdev, c_ddev, c_tag, 0] =>
    .ok (.pref ⟨.ofNat 3 h_sk, .ofNat 3 h_dk, .ofNat 5 h_h, .ofNat 1 h_hen, .ofNat 1 h_ben, .ofNat 3 h_scope, .ofNat 1 h_soft, .ofNat 1 h_cache⟩ ⟨.ofNat 32 c_count, .ofNat 6 c_csl, .ofNat 64 c_src, .ofNat 64 c_dst, .ofNat 24 c_bar, .ofNat 2 c_bph, .ofNat 10 c_sdev, .ofNat 10 c_ddev, .ofNat 4 c_tag⟩)
  | _ => reservedBad

/-- The fields of a `ferry_gath` command. -/
def decFerryGath (w : Nat) : Except Check Instr :=
  match unpack [8, 3, 3, 5, 1, 1, 3, 1, 1, 32, 6, 64, 64, 24, 2, 28, 10] w with
  | [_, h_sk, h_dk, h_h, h_hen, h_ben, h_scope, h_soft, h_cache, c_count, c_csl, c_src, c_dst, c_bar, c_bph, c_idx, c_rowlen] =>
    .ok (.ferry_gath ⟨.ofNat 3 h_sk, .ofNat 3 h_dk, .ofNat 5 h_h, .ofNat 1 h_hen, .ofNat 1 h_ben, .ofNat 3 h_scope, .ofNat 1 h_soft, .ofNat 1 h_cache⟩ ⟨.ofNat 32 c_count, .ofNat 6 c_csl, .ofNat 64 c_src, .ofNat 64 c_dst, .ofNat 24 c_bar, .ofNat 2 c_bph, .ofNat 28 c_idx, .ofNat 10 c_rowlen⟩)
  | _ => reservedBad

/-- The fields of a `scat` command. -/
def decScat (w : Nat) : Except Check Instr :=
  match unpack [8, 3, 3, 5, 1, 1, 3, 1, 1, 32, 6, 64, 64, 24, 2, 28, 10] w with
  | [_, h_sk, h_dk, h_h, h_hen, h_ben, h_scope, h_soft, h_cache, c_count, c_csl, c_src, c_dst, c_bar, c_bph, c_idx, c_rowlen] =>
    .ok (.scat ⟨.ofNat 3 h_sk, .ofNat 3 h_dk, .ofNat 5 h_h, .ofNat 1 h_hen, .ofNat 1 h_ben, .ofNat 3 h_scope, .ofNat 1 h_soft, .ofNat 1 h_cache⟩ ⟨.ofNat 32 c_count, .ofNat 6 c_csl, .ofNat 64 c_src, .ofNat 64 c_dst, .ofNat 24 c_bar, .ofNat 2 c_bph, .ofNat 28 c_idx, .ofNat 10 c_rowlen⟩)
  | _ => reservedBad

/-- The fields of a `scadd` command. -/
def decScadd (w : Nat) : Except Check Instr :=
  match unpack [8, 3, 3, 5, 1, 1, 3, 1, 1, 32, 6, 64, 64, 24, 2, 28, 10] w with
  | [_, h_sk, h_dk, h_h, h_hen, h_ben, h_scope, h_soft, h_cache, c_count, c_csl, c_src, c_dst, c_bar, c_bph, c_idx, c_rowlen] =>
    .ok (.scadd ⟨.ofNat 3 h_sk, .ofNat 3 h_dk, .ofNat 5 h_h, .ofNat 1 h_hen, .ofNat 1 h_ben, .ofNat 3 h_scope, .ofNat 1 h_soft, .ofNat 1 h_cache⟩ ⟨.ofNat 32 c_count, .ofNat 6 c_csl, .ofNat 64 c_src, .ofNat 64 c_dst, .ofNat 24 c_bar, .ofNat 2 c_bph, .ofNat 28 c_idx, .ofNat 10 c_rowlen⟩)
  | _ => reservedBad

/-- The fields of a `lred` command. -/
def decLred (w : Nat) : Except Check Instr :=
  match unpack [8, 3, 3, 5, 1, 1, 3, 1, 1, 32, 6, 64, 64, 24, 2, 6, 2, 2, 28] w with
  | [_, h_sk, h_dk, h_h, h_hen, h_ben, h_scope, h_soft, h_cache, c_count, c_csl, c_src, c_dst, c_bar, c_bph, c_nc, c_fm, c_rop, 0] =>
    .ok (.lred ⟨.ofNat 3 h_sk, .ofNat 3 h_dk, .ofNat 5 h_h, .ofNat 1 h_hen, .ofNat 1 h_ben, .ofNat 3 h_scope, .ofNat 1 h_soft, .ofNat 1 h_cache⟩ ⟨.ofNat 32 c_count, .ofNat 6 c_csl, .ofNat 64 c_src, .ofNat 64 c_dst, .ofNat 24 c_bar, .ofNat 2 c_bph, .ofNat 6 c_nc, .ofNat 2 c_fm, .ofNat 2 c_rop⟩)
  | _ => reservedBad

/-- The fields of a `ltopk` command. -/
def decLtopk (w : Nat) : Except Check Instr :=
  match unpack [8, 3, 3, 5, 1, 1, 3, 1, 1, 32, 6, 64, 64, 24, 2, 6, 11, 1, 20] w with
  | [_, h_sk, h_dk, h_h, h_hen, h_ben, h_scope, h_soft, h_cache, c_count, c_csl, c_src, c_dst, c_bar, c_bph, c_nc, c_len, c_ord, 0] =>
    .ok (.ltopk ⟨.ofNat 3 h_sk, .ofNat 3 h_dk, .ofNat 5 h_h, .ofNat 1 h_hen, .ofNat 1 h_ben, .ofNat 3 h_scope, .ofNat 1 h_soft, .ofNat 1 h_cache⟩ ⟨.ofNat 32 c_count, .ofNat 6 c_csl, .ofNat 64 c_src, .ofNat 64 c_dst, .ofNat 24 c_bar, .ofNat 2 c_bph, .ofNat 6 c_nc, .ofNat 11 c_len, .ofNat 1 c_ord⟩)
  | _ => reservedBad

/-- The fields of a `lcmp` command. -/
def decLcmp (w : Nat) : Except Check Instr :=
  match unpack [8, 3, 3, 5, 1, 1, 3, 1, 1, 32, 6, 64, 64, 28, 28, 8] w with
  | [_, h_sk, h_dk, h_h, h_hen, h_ben, h_scope, h_soft, h_cache, c_count, c_csl, c_src, c_dst, c_mask, c_cnt, c_rb] =>
    .ok (.lcmp ⟨.ofNat 3 h_sk, .ofNat 3 h_dk, .ofNat 5 h_h, .ofNat 1 h_hen, .ofNat 1 h_ben, .ofNat 3 h_scope, .ofNat 1 h_soft, .ofNat 1 h_cache⟩ ⟨.ofNat 32 c_count, .ofNat 6 c_csl, .ofNat 64 c_src, .ofNat 64 c_dst, .ofNat 28 c_mask, .ofNat 28 c_cnt, .ofNat 8 c_rb⟩)
  | _ => reservedBad

/-- The fields of a `ferry_fill` command. -/
def decFerryFill (w : Nat) : Except Check Instr :=
  match unpack [8, 3, 3, 5, 1, 1, 3, 1, 1, 32, 6, 64, 64, 24, 2, 10, 10, 18] w with
  | [_, h_sk, h_dk, h_h, h_hen, h_ben, h_scope, h_soft, h_cache, c_count, c_csl, c_value, c_dst, c_bar, c_bph, c_sdev, c_ddev, 0] =>
    .ok (.ferry_fill ⟨.ofNat 3 h_sk, .ofNat 3 h_dk, .ofNat 5 h_h, .ofNat 1 h_hen, .ofNat 1 h_ben, .ofNat 3 h_scope, .ofNat 1 h_soft, .ofNat 1 h_cache⟩ ⟨.ofNat 32 c_count, .ofNat 6 c_csl, .ofNat 64 c_value, .ofNat 64 c_dst, .ofNat 24 c_bar, .ofNat 2 c_bph, .ofNat 10 c_sdev, .ofNat 10 c_ddev⟩)
  | _ => reservedBad

/-- The fields of a `atom` command. -/
def decAtom (w : Nat) : Except Check Instr :=
  match unpack [8, 3, 3, 5, 1, 1, 3, 1, 1, 28, 1, 4, 1, 4, 64, 64, 64] w with
  | [_, h_sk, h_dk, h_h, h_hen, h_ben, h_scope, h_soft, h_cache, c_ret, c_reten, c_aop, c_w64, 0, c_value, c_dst, c_cmpv] =>
    .ok (.atom ⟨.ofNat 3 h_sk, .ofNat 3 h_dk, .ofNat 5 h_h, .ofNat 1 h_hen, .ofNat 1 h_ben, .ofNat 3 h_scope, .ofNat 1 h_soft, .ofNat 1 h_cache⟩ ⟨.ofNat 28 c_ret, .ofNat 1 c_reten, .ofNat 4 c_aop, .ofNat 1 c_w64, .ofNat 64 c_value, .ofNat 64 c_dst, .ofNat 64 c_cmpv⟩)
  | _ => reservedBad

/-- The fields of a `barinit` command. -/
def decBarinit (w : Nat) : Except Check Instr :=
  match unpack [8, 3, 3, 5, 1, 1, 3, 1, 1, 38, 16, 112, 24, 40] w with
  | [_, h_sk, h_dk, h_h, h_hen, h_ben, h_scope, h_soft, h_cache, 0, c_target, 0, c_bar, 0] =>
    .ok (.barinit ⟨.ofNat 3 h_sk, .ofNat 3 h_dk, .ofNat 5 h_h, .ofNat 1 h_hen, .ofNat 1 h_ben, .ofNat 3 h_scope, .ofNat 1 h_soft, .ofNat 1 h_cache⟩ ⟨.ofNat 16 c_target, .ofNat 24 c_bar⟩)
  | _ => reservedBad

/-- The fields of a `inval` command. -/
def decInval (w : Nat) : Except Check Instr :=
  match unpack [8, 3, 3, 5, 1, 1, 3, 1, 1, 38, 24, 1, 1, 38, 32, 32, 24, 2, 38] w with
  | [_, h_sk, h_dk, h_h, h_hen, h_ben, h_scope, h_soft, h_cache, 0, c_obj, c_allt, c_allobj, 0, c_first, c_ntiles, c_bar, c_bph, 0] =>
    .ok (.inval ⟨.ofNat 3 h_sk, .ofNat 3 h_dk, .ofNat 5 h_h, .ofNat 1 h_hen, .ofNat 1 h_ben, .ofNat 3 h_scope, .ofNat 1 h_soft, .ofNat 1 h_cache⟩ ⟨.ofNat 24 c_obj, .ofNat 1 c_allt, .ofNat 1 c_allobj, .ofNat 32 c_first, .ofNat 32 c_ntiles, .ofNat 24 c_bar, .ofNat 2 c_bph⟩)
  | _ => reservedBad

/-- The fields of a `ferry_msig` command. -/
def decFerryMsig (w : Nat) : Except Check Instr :=
  match unpack [8, 3, 3, 5, 1, 1, 3, 1, 1, 2, 36, 32, 32, 64, 24, 2, 38] w with
  | [_, h_sk, h_dk, h_h, h_hen, h_ben, h_scope, h_soft, h_cache, c_sop, 0, c_value, 0, c_dst, c_bar, c_bph, 0] =>
    .ok (.ferry_msig ⟨.ofNat 3 h_sk, .ofNat 3 h_dk, .ofNat 5 h_h, .ofNat 1 h_hen, .ofNat 1 h_ben, .ofNat 3 h_scope, .ofNat 1 h_soft, .ofNat 1 h_cache⟩ ⟨.ofNat 2 c_sop, .ofNat 32 c_value, .ofNat 64 c_dst, .ofNat 24 c_bar, .ofNat 2 c_bph⟩)
  | _ => reservedBad

/-- The fields of a `srchg` command. -/
def decSrchg (w : Nat) : Except Check Instr :=
  match unpack [8, 5, 1, 1, 3, 24, 2, 10, 8, 2, 28, 24, 12, 28, 28, 8, 64] w with
  | [_, h_h, h_hen, h_ben, h_scope, h_obj, h_bph, c_k, c_beam, 0, h_inp, h_bar, c_hops, h_out, h_stat, 0, c_snap] =>
    .ok (.srchg ⟨.ofNat 5 h_h, .ofNat 1 h_hen, .ofNat 1 h_ben, .ofNat 3 h_scope, .ofNat 24 h_obj, .ofNat 2 h_bph, .ofNat 28 h_inp, .ofNat 24 h_bar, .ofNat 28 h_out, .ofNat 28 h_stat⟩ ⟨.ofNat 10 c_k, .ofNat 8 c_beam, .ofNat 12 c_hops, .ofNat 64 c_snap⟩)
  | _ => reservedBad

/-- The fields of a `srchv` command. -/
def decSrchv (w : Nat) : Except Check Instr :=
  match unpack [8, 5, 1, 1, 3, 24, 2, 10, 10, 28, 24, 1, 11, 28, 28, 8, 64] w with
  | [_, h_h, h_hen, h_ben, h_scope, h_obj, h_bph, c_k, c_nprobe, h_inp, h_bar, c_plist, 0, h_out, h_stat, 0, c_snap] =>
    .ok (.srchv ⟨.ofNat 5 h_h, .ofNat 1 h_hen, .ofNat 1 h_ben, .ofNat 3 h_scope, .ofNat 24 h_obj, .ofNat 2 h_bph, .ofNat 28 h_inp, .ofNat 24 h_bar, .ofNat 28 h_out, .ofNat 28 h_stat⟩ ⟨.ofNat 10 c_k, .ofNat 10 c_nprobe, .ofNat 1 c_plist, .ofNat 64 c_snap⟩)
  | _ => reservedBad

/-- The fields of a `dscan` command. -/
def decDscan (w : Nat) : Except Check Instr :=
  match unpack [8, 5, 1, 1, 3, 24, 2, 11, 1, 8, 28, 24, 12, 28, 28, 8, 24, 24, 16] w with
  | [_, h_h, h_hen, h_ben, h_scope, h_obj, h_bph, c_k, c_ord, 0, h_inp, h_bar, 0, h_out, h_stat, 0, c_first, c_npages, 0] =>
    .ok (.dscan ⟨.ofNat 5 h_h, .ofNat 1 h_hen, .ofNat 1 h_ben, .ofNat 3 h_scope, .ofNat 24 h_obj, .ofNat 2 h_bph, .ofNat 28 h_inp, .ofNat 24 h_bar, .ofNat 28 h_out, .ofNat 28 h_stat⟩ ⟨.ofNat 11 c_k, .ofNat 1 c_ord, .ofNat 24 c_first, .ofNat 24 c_npages⟩)
  | _ => reservedBad

/-- The fields of a `append` command. -/
def decAppend (w : Nat) : Except Check Instr :=
  match unpack [8, 5, 1, 1, 3, 24, 2, 16, 2, 2, 28, 24, 12, 28, 28, 72] w with
  | [_, h_h, h_hen, h_ben, h_scope, h_obj, h_bph, c_n, c_kind, 0, h_inp, h_bar, 0, h_out, h_stat, 0] =>
    .ok (.append ⟨.ofNat 5 h_h, .ofNat 1 h_hen, .ofNat 1 h_ben, .ofNat 3 h_scope, .ofNat 24 h_obj, .ofNat 2 h_bph, .ofNat 28 h_inp, .ofNat 24 h_bar, .ofNat 28 h_out, .ofNat 28 h_stat⟩ ⟨.ofNat 16 c_n, .ofNat 2 c_kind⟩)
  | _ => reservedBad

/-- The fields of a `remove` command. -/
def decRemove (w : Nat) : Except Check Instr :=
  match unpack [8, 5, 1, 1, 3, 24, 2, 16, 4, 28, 24, 12, 28, 28, 72] w with
  | [_, h_h, h_hen, h_ben, h_scope, h_obj, h_bph, c_n, 0, h_inp, h_bar, 0, h_out, h_stat, 0] =>
    .ok (.remove ⟨.ofNat 5 h_h, .ofNat 1 h_hen, .ofNat 1 h_ben, .ofNat 3 h_scope, .ofNat 24 h_obj, .ofNat 2 h_bph, .ofNat 28 h_inp, .ofNat 24 h_bar, .ofNat 28 h_out, .ofNat 28 h_stat⟩ ⟨.ofNat 16 c_n⟩)
  | _ => reservedBad

/-- The fields of a `merge` command. -/
def decMerge (w : Nat) : Except Check Instr :=
  match unpack [8, 5, 1, 1, 3, 24, 2, 20, 28, 24, 12, 28, 28, 8, 64] w with
  | [_, h_h, h_hen, h_ben, h_scope, h_obj, h_bph, 0, h_inp, h_bar, 0, h_out, h_stat, 0, c_m] =>
    .ok (.merge ⟨.ofNat 5 h_h, .ofNat 1 h_hen, .ofNat 1 h_ben, .ofNat 3 h_scope, .ofNat 24 h_obj, .ofNat 2 h_bph, .ofNat 28 h_inp, .ofNat 24 h_bar, .ofNat 28 h_out, .ofNat 28 h_stat⟩ ⟨.ofNat 64 c_m⟩)
  | _ => reservedBad

/-- The fields of a `stamp` command. -/
def decStamp (w : Nat) : Except Check Instr :=
  match unpack [8, 5, 1, 1, 3, 24, 2, 20, 28, 24, 12, 28, 28, 72] w with
  | [_, h_h, h_hen, h_ben, h_scope, h_obj, h_bph, 0, h_inp, h_bar, 0, h_out, h_stat, 0] =>
    .ok (.stamp ⟨.ofNat 5 h_h, .ofNat 1 h_hen, .ofNat 1 h_ben, .ofNat 3 h_scope, .ofNat 24 h_obj, .ofNat 2 h_bph, .ofNat 28 h_inp, .ofNat 24 h_bar, .ofNat 28 h_out, .ofNat 28 h_stat⟩)
  | _ => reservedBad

/-- The fields of a `pgrd` command. -/
def decPgrd (w : Nat) : Except Check Instr :=
  match unpack [8, 5, 1, 1, 3, 24, 2, 20, 28, 24, 12, 28, 28, 8, 24, 8, 32] w with
  | [_, h_h, h_hen, h_ben, h_scope, h_obj, h_bph, 0, h_inp, h_bar, 0, h_out, h_stat, 0, c_first, c_npages, 0] =>
    .ok (.pgrd ⟨.ofNat 5 h_h, .ofNat 1 h_hen, .ofNat 1 h_ben, .ofNat 3 h_scope, .ofNat 24 h_obj, .ofNat 2 h_bph, .ofNat 28 h_inp, .ofNat 24 h_bar, .ofNat 28 h_out, .ofNat 28 h_stat⟩ ⟨.ofNat 24 c_first, .ofNat 8 c_npages⟩)
  | _ => reservedBad

/-- The fields of a `kvalloc` command. -/
def decKvalloc (w : Nat) : Except Check Instr :=
  match unpack [8, 5, 1, 1, 3, 24, 2, 12, 3, 5, 28, 24, 12, 28, 28, 72] w with
  | [_, h_h, h_hen, h_ben, h_scope, h_obj, h_bph, c_n, c_span, 0, h_inp, h_bar, 0, h_out, h_stat, 0] =>
    .ok (.kvalloc ⟨.ofNat 5 h_h, .ofNat 1 h_hen, .ofNat 1 h_ben, .ofNat 3 h_scope, .ofNat 24 h_obj, .ofNat 2 h_bph, .ofNat 28 h_inp, .ofNat 24 h_bar, .ofNat 28 h_out, .ofNat 28 h_stat⟩ ⟨.ofNat 12 c_n, .ofNat 3 c_span⟩)
  | _ => reservedBad

/-- The fields of a `kvfree` command. -/
def decKvfree (w : Nat) : Except Check Instr :=
  match unpack [8, 5, 1, 1, 3, 24, 2, 12, 8, 28, 24, 12, 28, 28, 72] w with
  | [_, h_h, h_hen, h_ben, h_scope, h_obj, h_bph, c_n, 0, h_inp, h_bar, 0, h_out, h_stat, 0] =>
    .ok (.kvfree ⟨.ofNat 5 h_h, .ofNat 1 h_hen, .ofNat 1 h_ben, .ofNat 3 h_scope, .ofNat 24 h_obj, .ofNat 2 h_bph, .ofNat 28 h_inp, .ofNat 24 h_bar, .ofNat 28 h_out, .ofNat 28 h_stat⟩ ⟨.ofNat 12 c_n⟩)
  | _ => reservedBad

/-- The fields of a `kvapp` command. -/
def decKvapp (w : Nat) : Except Check Instr :=
  match unpack [8, 5, 1, 1, 3, 24, 2, 20, 28, 24, 12, 28, 28, 8, 16, 7, 6, 1, 34] w with
  | [_, h_h, h_hen, h_ben, h_scope, h_obj, h_bph, 0, h_inp, h_bar, 0, h_out, h_stat, 0, c_seq, c_layer, c_n, c_commit, 0] =>
    .ok (.kvapp ⟨.ofNat 5 h_h, .ofNat 1 h_hen, .ofNat 1 h_ben, .ofNat 3 h_scope, .ofNat 24 h_obj, .ofNat 2 h_bph, .ofNat 28 h_inp, .ofNat 24 h_bar, .ofNat 28 h_out, .ofNat 28 h_stat⟩ ⟨.ofNat 16 c_seq, .ofNat 7 c_layer, .ofNat 6 c_n, .ofNat 1 c_commit⟩)
  | _ => reservedBad

/-- The fields of a `kvmap` command. -/
def decKvmap (w : Nat) : Except Check Instr :=
  match unpack [8, 5, 1, 1, 3, 24, 2, 12, 7, 1, 28, 24, 10, 2, 28, 28, 8, 16, 32, 16] w with
  | [_, h_h, h_hen, h_ben, h_scope, h_obj, h_bph, c_nb, c_toklast, 0, h_inp, h_bar, c_dev, 0, h_out, h_stat, 0, c_seq, c_g0, 0] =>
    .ok (.kvmap ⟨.ofNat 5 h_h, .ofNat 1 h_hen, .ofNat 1 h_ben, .ofNat 3 h_scope, .ofNat 24 h_obj, .ofNat 2 h_bph, .ofNat 28 h_inp, .ofNat 24 h_bar, .ofNat 28 h_out, .ofNat 28 h_stat⟩ ⟨.ofNat 12 c_nb, .ofNat 7 c_toklast, .ofNat 10 c_dev, .ofNat 16 c_seq, .ofNat 32 c_g0⟩)
  | _ => reservedBad

/-- The fields of a `kvret` command. -/
def decKvret (w : Nat) : Except Check Instr :=
  match unpack [8, 5, 1, 1, 3, 24, 2, 20, 28, 24, 12, 28, 28, 8, 16, 3, 1, 44] w with
  | [_, h_h, h_hen, h_ben, h_scope, h_obj, h_bph, 0, h_inp, h_bar, 0, h_out, h_stat, 0, c_seq, c_tg, c_mode, 0] =>
    .ok (.kvret ⟨.ofNat 5 h_h, .ofNat 1 h_hen, .ofNat 1 h_ben, .ofNat 3 h_scope, .ofNat 24 h_obj, .ofNat 2 h_bph, .ofNat 28 h_inp, .ofNat 24 h_bar, .ofNat 28 h_out, .ofNat 28 h_stat⟩ ⟨.ofNat 16 c_seq, .ofNat 3 c_tg, .ofNat 1 c_mode⟩)
  | _ => reservedBad

/-- The fields of a `kvld` command. -/
def decKvld (w : Nat) : Except Check Instr :=
  match unpack [8, 5, 1, 1, 3, 24, 2, 20, 28, 24, 12, 28, 28, 8, 16, 7, 7, 2, 32] w with
  | [_, h_h, h_hen, h_ben, h_scope, h_obj, h_bph, c_rows, h_inp, h_bar, 0, h_out, h_stat, 0, c_seq, c_layer, c_head, 0, c_fromr] =>
    .ok (.kvld ⟨.ofNat 5 h_h, .ofNat 1 h_hen, .ofNat 1 h_ben, .ofNat 3 h_scope, .ofNat 24 h_obj, .ofNat 2 h_bph, .ofNat 28 h_inp, .ofNat 24 h_bar, .ofNat 28 h_out, .ofNat 28 h_stat⟩ ⟨.ofNat 20 c_rows, .ofNat 16 c_seq, .ofNat 7 c_layer, .ofNat 7 c_head, .ofNat 32 c_fromr⟩)
  | _ => reservedBad

/-- The fields of a `kvq` command. -/
def decKvq (w : Nat) : Except Check Instr :=
  match unpack [8, 5, 1, 1, 3, 24, 2, 12, 8, 28, 24, 12, 28, 28, 8, 16, 7, 7, 2, 16, 16] w with
  | [_, h_h, h_hen, h_ben, h_scope, h_obj, h_bph, c_maxn, 0, h_inp, h_bar, 0, h_out, h_stat, 0, c_seq, c_layer, c_head, 0, c_first, 0] =>
    .ok (.kvq ⟨.ofNat 5 h_h, .ofNat 1 h_hen, .ofNat 1 h_ben, .ofNat 3 h_scope, .ofNat 24 h_obj, .ofNat 2 h_bph, .ofNat 28 h_inp, .ofNat 24 h_bar, .ofNat 28 h_out, .ofNat 28 h_stat⟩ ⟨.ofNat 12 c_maxn, .ofNat 16 c_seq, .ofNat 7 c_layer, .ofNat 7 c_head, .ofNat 16 c_first⟩)
  | _ => reservedBad

/-- Decode one 256-bit port command, CMD0 lowest (R101, R110). -/
def decodePort (w : BitVec 256) : Except Check Instr :=
  match w.toNat % 256 with
  | 224 => decCopy w.toNat
  | 225 => decCopyp w.toNat
  | 226 => decPref w.toNat
  | 227 => decFerryGath w.toNat
  | 228 => decScat w.toNat
  | 229 => decScadd w.toNat
  | 230 => decLred w.toNat
  | 231 => decLtopk w.toNat
  | 232 => decLcmp w.toNat
  | 233 => decFerryFill w.toNat
  | 234 => decAtom w.toNat
  | 235 => decBarinit w.toNat
  | 236 => decInval w.toNat
  | 237 => decFerryMsig w.toNat
  | 240 => decSrchg w.toNat
  | 241 => decSrchv w.toNat
  | 242 => decDscan w.toNat
  | 243 => decAppend w.toNat
  | 244 => decRemove w.toNat
  | 245 => decMerge w.toNat
  | 246 => decStamp w.toNat
  | 247 => decPgrd w.toNat
  | 248 => decKvalloc w.toNat
  | 249 => decKvfree w.toNat
  | 250 => decKvapp w.toNat
  | 251 => decKvmap w.toNat
  | 252 => decKvret w.toNat
  | 253 => decKvld w.toNat
  | 254 => decKvq w.toNat
  | op => .error (if op = 0xEE ∨ op = 0xEF ∨ op = 0xFF then .opcodeRsvd else .opcodeMap)

/-! ## The queue-manager record (R23, R325, R326) -/

/-- The fields of a `nop_record`. -/
def decNopRecord (w : Nat) : Except Check Instr :=
  match unpack [4, 3, 3, 2, 10, 1, 3, 1, 2, 1, 2, 32, 32, 16, 16, 384] w with
  | [_, h_acq, h_rel, h_cls, h_queue, h_wen, h_wop, h_sen, h_sop, h_chain, 0, h_wval, h_sval, h_wsem, h_ssem, 0] =>
    .ok (.nop_record ⟨.ofNat 3 h_acq, .ofNat 3 h_rel, .ofNat 2 h_cls, .ofNat 10 h_queue, .ofNat 1 h_wen, .ofNat 3 h_wop, .ofNat 1 h_sen, .ofNat 2 h_sop, .ofNat 1 h_chain, .ofNat 32 h_wval, .ofNat 32 h_sval, .ofNat 16 h_wsem, .ofNat 16 h_ssem⟩)
  | _ => reservedBad

/-- The fields of a `launch_record`. -/
def decLaunchRecord (w : Nat) : Except Check Instr :=
  match unpack [4, 3, 3, 2, 10, 1, 3, 1, 2, 1, 2, 32, 32, 16, 16, 24, 25, 3, 4, 8, 40, 4, 5, 6, 9, 32, 32, 16, 32, 16, 6, 10, 11, 5, 24, 8, 32, 32] w with
  | _ :: h_acq :: h_rel :: h_cls :: h_queue :: h_wen :: h_wop :: h_sen :: h_sop :: h_chain :: 0 :: h_wval :: h_sval :: h_wsem :: h_ssem :: c_codeObj :: c_entry :: c_band :: c_rs0 :: c_bankMask :: c_coreMask :: c_accMask :: c_qbuf :: c_parLines :: c_rs1 :: c_bankFmt :: c_slotMask :: c_kilnMask :: c_hsemMask :: c_rs2 :: c_landSlice :: c_landBase :: c_landLen :: c_rs3 :: c_parObj :: c_rs4 :: c_ltag :: c_rs5 :: [] =>
    .ok (.launch_record ⟨.ofNat 3 h_acq, .ofNat 3 h_rel, .ofNat 2 h_cls, .ofNat 10 h_queue, .ofNat 1 h_wen, .ofNat 3 h_wop, .ofNat 1 h_sen, .ofNat 2 h_sop, .ofNat 1 h_chain, .ofNat 32 h_wval, .ofNat 32 h_sval, .ofNat 16 h_wsem, .ofNat 16 h_ssem⟩ ⟨.ofNat 24 c_codeObj, .ofNat 25 c_entry, .ofNat 3 c_band, .ofNat 4 c_rs0, .ofNat 8 c_bankMask, .ofNat 40 c_coreMask, .ofNat 4 c_accMask, .ofNat 5 c_qbuf, .ofNat 6 c_parLines, .ofNat 9 c_rs1, .ofNat 32 c_bankFmt, .ofNat 32 c_slotMask, .ofNat 16 c_kilnMask, .ofNat 32 c_hsemMask, .ofNat 16 c_rs2, .ofNat 6 c_landSlice, .ofNat 10 c_landBase, .ofNat 11 c_landLen, .ofNat 5 c_rs3, .ofNat 24 c_parObj, .ofNat 8 c_rs4, .ofNat 32 c_ltag, .ofNat 32 c_rs5⟩)
  | _ => reservedBad

/-- The fields of a `ferry_record`. -/
def decFerryRecord (w : Nat) : Except Check Instr :=
  match unpack [4, 3, 3, 2, 10, 1, 3, 1, 2, 1, 2, 32, 32, 16, 16, 64, 64, 64, 64, 6, 122] w with
  | [_, h_acq, h_rel, h_cls, h_queue, h_wen, h_wop, h_sen, h_sop, h_chain, 0, h_wval, h_sval, h_wsem, h_ssem, c_c0, c_c1, c_c2, c_c3, c_ferry, 0] =>
    .ok (.ferry_record ⟨.ofNat 3 h_acq, .ofNat 3 h_rel, .ofNat 2 h_cls, .ofNat 10 h_queue, .ofNat 1 h_wen, .ofNat 3 h_wop, .ofNat 1 h_sen, .ofNat 2 h_sop, .ofNat 1 h_chain, .ofNat 32 h_wval, .ofNat 32 h_sval, .ofNat 16 h_wsem, .ofNat 16 h_ssem⟩ ⟨.ofNat 64 c_c0, .ofNat 64 c_c1, .ofNat 64 c_c2, .ofNat 64 c_c3, .ofNat 6 c_ferry⟩)
  | _ => reservedBad

/-- The fields of a `store_record`. -/
def decStoreRecord (w : Nat) : Except Check Instr :=
  match unpack [4, 3, 3, 2, 10, 1, 3, 1, 2, 1, 2, 32, 32, 16, 16, 64, 64, 64, 64, 128] w with
  | [_, h_acq, h_rel, h_cls, h_queue, h_wen, h_wop, h_sen, h_sop, h_chain, 0, h_wval, h_sval, h_wsem, h_ssem, c_c0, c_c1, c_c2, c_c3, 0] =>
    .ok (.store_record ⟨.ofNat 3 h_acq, .ofNat 3 h_rel, .ofNat 2 h_cls, .ofNat 10 h_queue, .ofNat 1 h_wen, .ofNat 3 h_wop, .ofNat 1 h_sen, .ofNat 2 h_sop, .ofNat 1 h_chain, .ofNat 32 h_wval, .ofNat 32 h_sval, .ofNat 16 h_wsem, .ofNat 16 h_ssem⟩ ⟨.ofNat 64 c_c0, .ofNat 64 c_c1, .ofNat 64 c_c2, .ofNat 64 c_c3⟩)
  | _ => reservedBad

/-- The fields of a `kv_record`. -/
def decKvRecord (w : Nat) : Except Check Instr :=
  match unpack [4, 3, 3, 2, 10, 1, 3, 1, 2, 1, 2, 32, 32, 16, 16, 64, 64, 64, 64, 128] w with
  | [_, h_acq, h_rel, h_cls, h_queue, h_wen, h_wop, h_sen, h_sop, h_chain, 0, h_wval, h_sval, h_wsem, h_ssem, c_c0, c_c1, c_c2, c_c3, 0] =>
    .ok (.kv_record ⟨.ofNat 3 h_acq, .ofNat 3 h_rel, .ofNat 2 h_cls, .ofNat 10 h_queue, .ofNat 1 h_wen, .ofNat 3 h_wop, .ofNat 1 h_sen, .ofNat 2 h_sop, .ofNat 1 h_chain, .ofNat 32 h_wval, .ofNat 32 h_sval, .ofNat 16 h_wsem, .ofNat 16 h_ssem⟩ ⟨.ofNat 64 c_c0, .ofNat 64 c_c1, .ofNat 64 c_c2, .ofNat 64 c_c3⟩)
  | _ => reservedBad

/-- The fields of a `wait_record`. -/
def decWaitRecord (w : Nat) : Except Check Instr :=
  match unpack [4, 3, 3, 2, 10, 1, 3, 1, 2, 1, 2, 32, 32, 16, 16, 384] w with
  | [_, h_acq, h_rel, h_cls, h_queue, h_wen, h_wop, h_sen, h_sop, h_chain, 0, h_wval, h_sval, h_wsem, h_ssem, 0] =>
    .ok (.wait_record ⟨.ofNat 3 h_acq, .ofNat 3 h_rel, .ofNat 2 h_cls, .ofNat 10 h_queue, .ofNat 1 h_wen, .ofNat 3 h_wop, .ofNat 1 h_sen, .ofNat 2 h_sop, .ofNat 1 h_chain, .ofNat 32 h_wval, .ofNat 32 h_sval, .ofNat 16 h_wsem, .ofNat 16 h_ssem⟩)
  | _ => reservedBad

/-- The fields of a `signal_record`. -/
def decSignalRecord (w : Nat) : Except Check Instr :=
  match unpack [4, 3, 3, 2, 10, 1, 3, 1, 2, 1, 2, 32, 32, 16, 16, 384] w with
  | [_, h_acq, h_rel, h_cls, h_queue, h_wen, h_wop, h_sen, h_sop, h_chain, 0, h_wval, h_sval, h_wsem, h_ssem, 0] =>
    .ok (.signal_record ⟨.ofNat 3 h_acq, .ofNat 3 h_rel, .ofNat 2 h_cls, .ofNat 10 h_queue, .ofNat 1 h_wen, .ofNat 3 h_wop, .ofNat 1 h_sen, .ofNat 2 h_sop, .ofNat 1 h_chain, .ofNat 32 h_wval, .ofNat 32 h_sval, .ofNat 16 h_wsem, .ofNat 16 h_ssem⟩)
  | _ => reservedBad

/-- The fields of a `branch`. -/
def decBranch (w : Nat) : Except Check Instr :=
  match unpack [4, 3, 3, 2, 10, 1, 3, 1, 2, 1, 2, 32, 32, 16, 16, 16, 3, 13, 32, 24, 296] w with
  | [_, h_acq, h_rel, h_cls, h_queue, h_wen, h_wop, h_sen, h_sop, h_chain, 0, h_wval, h_sval, h_wsem, h_ssem, c_bsem, c_bop, 0, c_bval, c_target, 0] =>
    .ok (.branch ⟨.ofNat 3 h_acq, .ofNat 3 h_rel, .ofNat 2 h_cls, .ofNat 10 h_queue, .ofNat 1 h_wen, .ofNat 3 h_wop, .ofNat 1 h_sen, .ofNat 2 h_sop, .ofNat 1 h_chain, .ofNat 32 h_wval, .ofNat 32 h_sval, .ofNat 16 h_wsem, .ofNat 16 h_ssem⟩ ⟨.ofNat 16 c_bsem, .ofNat 3 c_bop, .ofNat 32 c_bval, .ofNat 24 c_target⟩)
  | _ => reservedBad

/-- The fields of a `select`. -/
def decSelect (w : Nat) : Except Check Instr :=
  match unpack [4, 3, 3, 2, 10, 1, 3, 1, 2, 1, 2, 32, 32, 16, 16, 28, 1, 1, 34, 25, 295] w with
  | [_, h_acq, h_rel, h_cls, h_queue, h_wen, h_wop, h_sen, h_sop, h_chain, 0, h_wval, h_sval, h_wsem, h_ssem, c_cnt, c_skip0, c_tagl, 0, c_tline, 0] =>
    .ok (.select ⟨.ofNat 3 h_acq, .ofNat 3 h_rel, .ofNat 2 h_cls, .ofNat 10 h_queue, .ofNat 1 h_wen, .ofNat 3 h_wop, .ofNat 1 h_sen, .ofNat 2 h_sop, .ofNat 1 h_chain, .ofNat 32 h_wval, .ofNat 32 h_sval, .ofNat 16 h_wsem, .ofNat 16 h_ssem⟩ ⟨.ofNat 28 c_cnt, .ofNat 1 c_skip0, .ofNat 1 c_tagl, .ofNat 25 c_tline⟩)
  | _ => reservedBad

/-- The fields of a `phase`. -/
def decPhase (w : Nat) : Except Check Instr :=
  match unpack [4, 3, 3, 2, 10, 1, 3, 1, 2, 1, 2, 32, 32, 16, 16, 32, 352] w with
  | [_, h_acq, h_rel, h_cls, h_queue, h_wen, h_wop, h_sen, h_sop, h_chain, 0, h_wval, h_sval, h_wsem, h_ssem, c_ptag, 0] =>
    .ok (.phase ⟨.ofNat 3 h_acq, .ofNat 3 h_rel, .ofNat 2 h_cls, .ofNat 10 h_queue, .ofNat 1 h_wen, .ofNat 3 h_wop, .ofNat 1 h_sen, .ofNat 2 h_sop, .ofNat 1 h_chain, .ofNat 32 h_wval, .ofNat 32 h_sval, .ofNat 16 h_wsem, .ofNat 16 h_ssem⟩ ⟨.ofNat 32 c_ptag⟩)
  | _ => reservedBad

/-- The fields of a `graph`. -/
def decGraph (w : Nat) : Except Check Instr :=
  match unpack [4, 3, 3, 2, 10, 1, 3, 1, 2, 1, 2, 32, 32, 16, 16, 24, 24, 16, 32, 288] w with
  | [_, h_acq, h_rel, h_cls, h_queue, h_wen, h_wop, h_sen, h_sop, h_chain, 0, h_wval, h_sval, h_wsem, h_ssem, c_gobj, c_nrec, 0, c_gtag, 0] =>
    .ok (.graph ⟨.ofNat 3 h_acq, .ofNat 3 h_rel, .ofNat 2 h_cls, .ofNat 10 h_queue, .ofNat 1 h_wen, .ofNat 3 h_wop, .ofNat 1 h_sen, .ofNat 2 h_sop, .ofNat 1 h_chain, .ofNat 32 h_wval, .ofNat 32 h_sval, .ofNat 16 h_wsem, .ofNat 16 h_ssem⟩ ⟨.ofNat 24 c_gobj, .ofNat 24 c_nrec, .ofNat 32 c_gtag⟩)
  | _ => reservedBad

/-- The fields of a `cancel`. -/
def decCancel (w : Nat) : Except Check Instr :=
  match unpack [4, 3, 3, 2, 10, 1, 3, 1, 2, 1, 2, 32, 32, 16, 16, 2, 30, 32, 320] w with
  | [_, h_acq, h_rel, h_cls, h_queue, h_wen, h_wop, h_sen, h_sop, h_chain, 0, h_wval, h_sval, h_wsem, h_ssem, c_level, 0, c_ctag, 0] =>
    .ok (.cancel ⟨.ofNat 3 h_acq, .ofNat 3 h_rel, .ofNat 2 h_cls, .ofNat 10 h_queue, .ofNat 1 h_wen, .ofNat 3 h_wop, .ofNat 1 h_sen, .ofNat 2 h_sop, .ofNat 1 h_chain, .ofNat 32 h_wval, .ofNat 32 h_sval, .ofNat 16 h_wsem, .ofNat 16 h_ssem⟩ ⟨.ofNat 2 c_level, .ofNat 32 c_ctag⟩)
  | _ => reservedBad

/-- The fields of a `irq`. -/
def decIrq (w : Nat) : Except Check Instr :=
  match unpack [4, 3, 3, 2, 10, 1, 3, 1, 2, 1, 2, 32, 32, 16, 16, 11, 373] w with
  | [_, h_acq, h_rel, h_cls, h_queue, h_wen, h_wop, h_sen, h_sop, h_chain, 0, h_wval, h_sval, h_wsem, h_ssem, c_vector, 0] =>
    .ok (.irq ⟨.ofNat 3 h_acq, .ofNat 3 h_rel, .ofNat 2 h_cls, .ofNat 10 h_queue, .ofNat 1 h_wen, .ofNat 3 h_wop, .ofNat 1 h_sen, .ofNat 2 h_sop, .ofNat 1 h_chain, .ofNat 32 h_wval, .ofNat 32 h_sval, .ofNat 16 h_wsem, .ofNat 16 h_ssem⟩ ⟨.ofNat 11 c_vector⟩)
  | _ => reservedBad

/-- The fields of a `stamp_record`. -/
def decStampRecord (w : Nat) : Except Check Instr :=
  match unpack [4, 3, 3, 2, 10, 1, 3, 1, 2, 1, 2, 32, 32, 16, 16, 28, 356] w with
  | [_, h_acq, h_rel, h_cls, h_queue, h_wen, h_wop, h_sen, h_sop, h_chain, 0, h_wval, h_sval, h_wsem, h_ssem, c_dst, 0] =>
    .ok (.stamp_record ⟨.ofNat 3 h_acq, .ofNat 3 h_rel, .ofNat 2 h_cls, .ofNat 10 h_queue, .ofNat 1 h_wen, .ofNat 3 h_wop, .ofNat 1 h_sen, .ofNat 2 h_sop, .ofNat 1 h_chain, .ofNat 32 h_wval, .ofNat 32 h_sval, .ofNat 16 h_wsem, .ofNat 16 h_ssem⟩ ⟨.ofNat 28 c_dst⟩)
  | _ => reservedBad

/-- The fields of a `map`. -/
def decMap (w : Nat) : Except Check Instr :=
  match unpack [4, 3, 3, 2, 10, 1, 3, 1, 2, 1, 2, 32, 32, 16, 16, 24, 24, 16, 24, 40, 28, 16, 212] w with
  | [_, h_acq, h_rel, h_cls, h_queue, h_wen, h_wop, h_sen, h_sop, h_chain, 0, h_wval, h_sval, h_wsem, h_ssem, c_obj, c_first, 0, c_ntiles, 0, c_report, c_cap, 0] =>
    .ok (.map ⟨.ofNat 3 h_acq, .ofNat 3 h_rel, .ofNat 2 h_cls, .ofNat 10 h_queue, .ofNat 1 h_wen, .ofNat 3 h_wop, .ofNat 1 h_sen, .ofNat 2 h_sop, .ofNat 1 h_chain, .ofNat 32 h_wval, .ofNat 32 h_sval, .ofNat 16 h_wsem, .ofNat 16 h_ssem⟩ ⟨.ofNat 24 c_obj, .ofNat 24 c_first, .ofNat 24 c_ntiles, .ofNat 28 c_report, .ofNat 16 c_cap⟩)
  | _ => reservedBad

/-- The fields of a `fence_record`. -/
def decFenceRecord (w : Nat) : Except Check Instr :=
  match unpack [4, 3, 3, 2, 10, 1, 3, 1, 2, 1, 2, 32, 32, 16, 16, 384] w with
  | [_, h_acq, h_rel, h_cls, h_queue, h_wen, h_wop, h_sen, h_sop, h_chain, 0, h_wval, h_sval, h_wsem, h_ssem, 0] =>
    .ok (.fence_record ⟨.ofNat 3 h_acq, .ofNat 3 h_rel, .ofNat 2 h_cls, .ofNat 10 h_queue, .ofNat 1 h_wen, .ofNat 3 h_wop, .ofNat 1 h_sen, .ofNat 2 h_sop, .ofNat 1 h_chain, .ofNat 32 h_wval, .ofNat 32 h_sval, .ofNat 16 h_wsem, .ofNat 16 h_ssem⟩)
  | _ => reservedBad

/-- Decode one 64-byte record, byte 0 lowest (R325). KIND is four bits and every value is assigned. -/
def decodeRecord (w : BitVec 512) : Except Check Instr :=
  match w.toNat % 16 with
  | 0 => decNopRecord w.toNat
  | 1 => decLaunchRecord w.toNat
  | 2 => decFerryRecord w.toNat
  | 3 => decStoreRecord w.toNat
  | 4 => decKvRecord w.toNat
  | 5 => decWaitRecord w.toNat
  | 6 => decSignalRecord w.toNat
  | 7 => decBranch w.toNat
  | 8 => decSelect w.toNat
  | 9 => decPhase w.toNat
  | 10 => decGraph w.toNat
  | 11 => decCancel w.toNat
  | 12 => decIrq w.toNat
  | 13 => decStampRecord w.toNat
  | 14 => decMap w.toNat
  | _ => decFenceRecord w.toNat

/-! ## The encoder, from the same tables -/

/-- The bits of an instruction. -/
def encode : Instr → Encoded
  | .add e d a b => seqWord 1 0 e (pack [(6, 0), (5, b.toNat), (5, a.toNat), (5, d.toNat)]) none
  | .sub e d a b => seqWord 2 0 e (pack [(6, 0), (5, b.toNat), (5, a.toNat), (5, d.toNat)]) none
  | .mul e d a b => seqWord 3 0 e (pack [(6, 0), (5, b.toNat), (5, a.toNat), (5, d.toNat)]) none
  | .mulh e d a b => seqWord 4 0 e (pack [(6, 0), (5, b.toNat), (5, a.toNat), (5, d.toNat)]) none
  | .mulhu e d a b => seqWord 5 0 e (pack [(6, 0), (5, b.toNat), (5, a.toNat), (5, d.toNat)]) none
  | .div e d a b => seqWord 6 0 e (pack [(6, 0), (5, b.toNat), (5, a.toNat), (5, d.toNat)]) none
  | .divu e d a b => seqWord 7 0 e (pack [(6, 0), (5, b.toNat), (5, a.toNat), (5, d.toNat)]) none
  | .rem e d a b => seqWord 8 0 e (pack [(6, 0), (5, b.toNat), (5, a.toNat), (5, d.toNat)]) none
  | .remu e d a b => seqWord 9 0 e (pack [(6, 0), (5, b.toNat), (5, a.toNat), (5, d.toNat)]) none
  | .and e d a b => seqWord 10 0 e (pack [(6, 0), (5, b.toNat), (5, a.toNat), (5, d.toNat)]) none
  | .or e d a b => seqWord 11 0 e (pack [(6, 0), (5, b.toNat), (5, a.toNat), (5, d.toNat)]) none
  | .xor e d a b => seqWord 12 0 e (pack [(6, 0), (5, b.toNat), (5, a.toNat), (5, d.toNat)]) none
  | .andn e d a b => seqWord 13 0 e (pack [(6, 0), (5, b.toNat), (5, a.toNat), (5, d.toNat)]) none
  | .shl e d a b => seqWord 14 0 e (pack [(6, 0), (5, b.toNat), (5, a.toNat), (5, d.toNat)]) none
  | .shr e d a b => seqWord 15 0 e (pack [(6, 0), (5, b.toNat), (5, a.toNat), (5, d.toNat)]) none
  | .sar e d a b => seqWord 16 0 e (pack [(6, 0), (5, b.toNat), (5, a.toNat), (5, d.toNat)]) none
  | .rol e d a b => seqWord 17 0 e (pack [(6, 0), (5, b.toNat), (5, a.toNat), (5, d.toNat)]) none
  | .min e d a b => seqWord 18 0 e (pack [(6, 0), (5, b.toNat), (5, a.toNat), (5, d.toNat)]) none
  | .max e d a b => seqWord 19 0 e (pack [(6, 0), (5, b.toNat), (5, a.toNat), (5, d.toNat)]) none
  | .minu e d a b => seqWord 20 0 e (pack [(6, 0), (5, b.toNat), (5, a.toNat), (5, d.toNat)]) none
  | .maxu e d a b => seqWord 21 0 e (pack [(6, 0), (5, b.toNat), (5, a.toNat), (5, d.toNat)]) none
  | .slt e d a b => seqWord 22 0 e (pack [(6, 0), (5, b.toNat), (5, a.toNat), (5, d.toNat)]) none
  | .sltu e d a b => seqWord 23 0 e (pack [(6, 0), (5, b.toNat), (5, a.toNat), (5, d.toNat)]) none
  | .addi e d a imm x => seqWord 24 0 e (pack [(11, imm.toNat), (5, a.toNat), (5, d.toNat)]) x
  | .andi e d a imm x => seqWord 25 0 e (pack [(11, imm.toNat), (5, a.toNat), (5, d.toNat)]) x
  | .ori e d a imm x => seqWord 26 0 e (pack [(11, imm.toNat), (5, a.toNat), (5, d.toNat)]) x
  | .xori e d a imm x => seqWord 27 0 e (pack [(11, imm.toNat), (5, a.toNat), (5, d.toNat)]) x
  | .shli e d a n => seqWord 28 0 e (pack [(6, n.toNat), (5, 0), (5, a.toNat), (5, d.toNat)]) none
  | .shri e d a n => seqWord 29 0 e (pack [(6, n.toNat), (5, 0), (5, a.toNat), (5, d.toNat)]) none
  | .sari e d a n => seqWord 30 0 e (pack [(6, n.toNat), (5, 0), (5, a.toNat), (5, d.toNat)]) none
  | .lui e d imm x => seqWord 31 0 e (pack [(16, imm.toNat), (5, d.toNat)]) x
  | .clz e d a => seqWord 32 0 e (pack [(11, 0), (5, a.toNat), (5, d.toNat)]) none
  | .ctz e d a => seqWord 33 0 e (pack [(11, 0), (5, a.toNat), (5, d.toNat)]) none
  | .popc e d a => seqWord 34 0 e (pack [(11, 0), (5, a.toNat), (5, d.toNat)]) none
  | .sext_b e d a => seqWord 35 0 e (pack [(11, 0), (5, a.toNat), (5, d.toNat)]) none
  | .sext_h e d a => seqWord 36 0 e (pack [(11, 0), (5, a.toNat), (5, d.toNat)]) none
  | .sext_w e d a => seqWord 37 0 e (pack [(11, 0), (5, a.toNat), (5, d.toNat)]) none
  | .zext_b e d a => seqWord 38 0 e (pack [(11, 0), (5, a.toNat), (5, d.toNat)]) none
  | .zext_h e d a => seqWord 39 0 e (pack [(11, 0), (5, a.toNat), (5, d.toNat)]) none
  | .zext_w e d a => seqWord 40 0 e (pack [(11, 0), (5, a.toNat), (5, d.toNat)]) none
  | .cmp e pd cc a b => seqWord 41 0 e (pack [(4, 0), (5, b.toNat), (5, a.toNat), (4, cc.toNat), (3, pd.toNat)]) none
  | .cmpi e pd cc a imm x => seqWord 42 0 e (pack [(9, imm.toNat), (5, a.toNat), (4, cc.toNat), (3, pd.toNat)]) x
  | .pand e pd pa pb => seqWord 43 0 e (pack [(12, 0), (3, pb.toNat), (3, pa.toNat), (3, pd.toNat)]) none
  | .por e pd pa pb => seqWord 44 0 e (pack [(12, 0), (3, pb.toNat), (3, pa.toNat), (3, pd.toNat)]) none
  | .pxor e pd pa pb => seqWord 45 0 e (pack [(12, 0), (3, pb.toNat), (3, pa.toNat), (3, pd.toNat)]) none
  | .pnot e pd pa => seqWord 46 0 e (pack [(15, 0), (3, pa.toNat), (3, pd.toNat)]) none
  | .sel e d a b neg p => seqWord 47 0 e (pack [(3, p.toNat), (1, neg.toNat), (2, 0), (5, b.toNat), (5, a.toNat), (5, d.toNat)]) none
  | .ld_b e d a imm x => seqWord 48 1 e (pack [(11, imm.toNat), (5, a.toNat), (5, d.toNat)]) x
  | .ld_h e d a imm x => seqWord 49 1 e (pack [(11, imm.toNat), (5, a.toNat), (5, d.toNat)]) x
  | .ld_w e d a imm x => seqWord 50 1 e (pack [(11, imm.toNat), (5, a.toNat), (5, d.toNat)]) x
  | .ld_d e d a imm x => seqWord 51 1 e (pack [(11, imm.toNat), (5, a.toNat), (5, d.toNat)]) x
  | .ldu_b e d a imm x => seqWord 52 1 e (pack [(11, imm.toNat), (5, a.toNat), (5, d.toNat)]) x
  | .ldu_h e d a imm x => seqWord 53 1 e (pack [(11, imm.toNat), (5, a.toNat), (5, d.toNat)]) x
  | .ldu_w e d a imm x => seqWord 54 1 e (pack [(11, imm.toNat), (5, a.toNat), (5, d.toNat)]) x
  | .st_b e d a imm x => seqWord 55 2 e (pack [(11, imm.toNat), (5, a.toNat), (5, d.toNat)]) x
  | .st_h e d a imm x => seqWord 56 2 e (pack [(11, imm.toNat), (5, a.toNat), (5, d.toNat)]) x
  | .st_w e d a imm x => seqWord 57 2 e (pack [(11, imm.toNat), (5, a.toNat), (5, d.toNat)]) x
  | .st_d e d a imm x => seqWord 58 2 e (pack [(11, imm.toNat), (5, a.toNat), (5, d.toNat)]) x
  | .br e neg p loff word x => seqWord 59 0 e (pack [(4, word.toNat), (11, loff.toNat), (3, p.toNat), (2, 0), (1, neg.toNat)]) x
  | .bf e test f loff word x => seqWord 60 0 e (pack [(4, word.toNat), (11, loff.toNat), (4, f.toNat), (2, test.toNat)]) x
  | .jmp e loff word x => seqWord 61 0 e (pack [(4, word.toNat), (11, loff.toNat), (6, 0)]) x
  | .jr e a => seqWord 62 0 e (pack [(11, 0), (5, a.toNat), (5, 0)]) none
  | .call e loff word x => seqWord 63 0 e (pack [(4, word.toNat), (11, loff.toNat), (6, 0)]) x
  | .ret e => seqWord 64 0 e 0 none
  | .loop e a loff word x => seqWord 65 0 e (pack [(4, word.toNat), (12, loff.toNat), (5, a.toNat)]) x
  | .exit e => seqWord 66 0 e 0 none
  | .trap e imm x => seqWord 67 0 e (pack [(11, imm.toNat), (10, 0)]) x
  | .rfe e => seqWord 68 0 e 0 none
  | .nop e => seqWord 69 0 e 0 none
  | .arm e stream a loff x => seqWord 70 0 e (pack [(12, loff.toNat), (5, a.toNat), (4, stream.toNat)]) x
  | .disarm e stream x => seqWord 71 0 e (pack [(17, 0), (4, stream.toNat)]) x
  | .sync e d a => seqWord 72 0 e (pack [(11, 0), (5, a.toNat), (5, d.toNat)]) none
  | .cyc e d => seqWord 73 0 e (pack [(16, 0), (5, d.toNat)]) none
  | .setof e stn ofi a ty => seqWord 74 0 e (pack [(5, 0), (4, ty.toNat), (5, a.toNat), (4, ofi.toNat), (3, stn.toNat)]) none
  | .fget e d f => seqWord 75 0 e (pack [(11, 0), (4, f.toNat), (1, 0), (5, d.toNat)]) none
  | .cport e src port cmd => seqWord 76 2 e (pack [(10, 0), (2, cmd.toNat), (4, port.toNat), (5, src.toNat)]) none
  | .go e d port => seqWord 77 2 e (pack [(12, 0), (4, port.toNat), (5, d.toNat)]) none
  | .mxq e a b => seqWord 78 2 e (pack [(6, 0), (5, b.toNat), (5, a.toNat), (5, 0)]) none
  | .hsig e h a imm => seqWord 79 0 e (pack [(9, imm.toNat), (5, a.toNat), (2, 0), (5, h.toNat)]) none
  | .hwait e h op a imm => seqWord 80 0 e (pack [(9, imm.toNat), (5, a.toNat), (2, op.toNat), (5, h.toNat)]) none
  | .hrd e d h => seqWord 81 0 e (pack [(11, 0), (5, h.toNat), (5, d.toNat)]) none
  | .getc e d index => seqWord 82 0 e (pack [(4, 0), (12, index.toNat), (5, d.toNat)]) none
  | .setc e d index => seqWord 83 0 e (pack [(4, 0), (12, index.toNat), (5, d.toNat)]) none
  | .fence e scope => seqWord 84 0 e (pack [(18, 0), (3, scope.toNat)]) none
  | .tstamp e d => seqWord 85 0 e (pack [(16, 0), (5, d.toNat)]) none
  | .fwshare e imm x => seqWord 86 0 e (pack [(11, imm.toNat), (10, 0)]) x
  | .idle e d a imm x => seqWord 87 0 e (pack [(11, imm.toNat), (5, a.toNat), (5, d.toNat)]) x
  | .rd h row => entryWord 88 h (pack [(11, row.toNat), (17, 0)])
  | .rdx h base len off adv => entryWord 89 h (pack [(11, base.toNat), (11, len.toNat), (5, off.toNat), (1, adv.toNat)])
  | .rdb h rowA rowB => entryWord 90 h (pack [(11, rowA.toNat), (11, rowB.toNat), (6, 0)])
  | .wr h row part => entryWord 91 h (pack [(11, row.toNat), (3, part.toNat), (14, 0)])
  | .wrx h base len off adv => entryWord 92 h (pack [(11, base.toNat), (11, len.toNat), (5, off.toNat), (1, adv.toNat)])
  | .wrb h row gmask => entryWord 93 h (pack [(11, row.toNat), (16, gmask.toNat), (1, 0)])
  | .bank_fill h row count => entryWord 94 h (pack [(11, row.toNat), (11, count.toNat), (6, 0)])
  | .bank_mode h seedv rnd sat seed => entryWord 95 h (pack [(16, seedv.toNat), (3, rnd.toNat), (1, sat.toNat), (2, seed.toNat), (6, 0)])
  | .fmt h f cb load => entryWord 96 h (pack [(16, 0), (4, f.toNat), (2, cb.toNat), (1, load.toNat), (5, 0)])
  | .bank_wait h w => entryWord 97 h (pack [(24, w.toNat), (4, 0)])
  | .stn_nop h => entryWord 104 h 0
  | .stn_wait h w => entryWord 105 h (pack [(24, w.toNat), (4, 0)])
  | .stn_mode h seedv rnd sat seed => entryWord 106 h (pack [(16, seedv.toNat), (3, rnd.toNat), (1, sat.toNat), (2, seed.toNat), (6, 0)])
  | .chk h => entryWord 107 h 0
  | .vadd h => entryWord 108 h 0
  | .vsub h => entryWord 109 h 0
  | .vmul h => entryWord 110 h 0
  | .vfma h init => entryWord 111 h (pack [(18, 0), (1, init.toNat), (9, 0)])
  | .vfms h init => entryWord 112 h (pack [(18, 0), (1, init.toNat), (9, 0)])
  | .vmin h => entryWord 113 h 0
  | .vmax h => entryWord 114 h 0
  | .vabs h => entryWord 115 h 0
  | .vneg h => entryWord 116 h 0
  | .vand h => entryWord 117 h 0
  | .vor h => entryWord 118 h 0
  | .vxor h => entryWord 119 h 0
  | .vnot h => entryWord 120 h 0
  | .vshl h => entryWord 121 h 0
  | .vshr h => entryWord 122 h 0
  | .vsar h => entryWord 123 h 0
  | .vrshr h => entryWord 124 h 0
  | .vaddsat h => entryWord 125 h 0
  | .vsubsat h => entryWord 126 h 0
  | .vclamp h sym => entryWord 127 h (pack [(16, 0), (1, sym.toNat), (11, 0)])
  | .vcmp h rel => entryWord 128 h (pack [(16, 0), (3, rel.toNat), (9, 0)])
  | .vcmpb h rel margin => entryWord 129 h (pack [(16, 0), (3, rel.toNat), (1, 0), (8, margin.toNat)])
  | .vsel h mof amb => entryWord 130 h (pack [(16, 0), (4, mof.toNat), (1, amb.toNat), (7, 0)])
  | .vmov h => entryWord 131 h 0
  | .vmac h q init => entryWord 132 h (pack [(16, 0), (2, q.toNat), (1, init.toNat), (9, 0)])
  | .vscale h => entryWord 133 h 0
  | .vcvt h part init => entryWord 134 h (pack [(16, 0), (3, part.toNat), (1, init.toNat), (8, 0)])
  | .vpack h => entryWord 135 h 0
  | .vunpack h half => entryWord 136 h (pack [(16, 0), (1, half.toNat), (11, 0)])
  | .viota h => entryWord 137 h 0
  | .vaccept h => entryWord 138 h 0
  | .rcp h => entryWord 144 h 0
  | .rsq h => entryWord 145 h 0
  | .sqrt h => entryWord 146 h 0
  | .ex2 h => entryWord 147 h 0
  | .lg2 h => entryWord 148 h 0
  | .sin h => entryWord 149 h 0
  | .cos h => entryWord 150 h 0
  | .xpose h lr h2 => entryWord 152 h (pack [(16, 0), (4, lr.toNat), (1, h2.toNat), (7, 0)])
  | .perm h => entryWord 153 h 0
  | .shuf h pat => entryWord 154 h (pack [(16, 0), (3, pat.toNat), (9, 0)])
  | .bcast h k => entryWord 155 h (pack [(16, 0), (8, k.toNat), (4, 0)])
  | .gath h t len => entryWord 156 h (pack [(16, 0), (4, t.toNat), (2, len.toNat), (6, 0)])
  | .slide h k => entryWord 157 h (pack [(16, 0), (9, k.toNat), (3, 0)])
  | .rope h pair => entryWord 158 h (pack [(16, 0), (1, pair.toNat), (11, 0)])
  | .spc24 h md => entryWord 159 h (pack [(20, 0), (1, md.toNat), (7, 0)])
  | .spc48 h md => entryWord 160 h (pack [(20, 0), (1, md.toNat), (7, 0)])
  | .rsum h bc sat => entryWord 164 h (pack [(16, 0), (1, bc.toNat), (1, sat.toNat), (10, 0)])
  | .rmax h bc => entryWord 165 h (pack [(16, 0), (1, bc.toNat), (11, 0)])
  | .rmin h bc => entryWord 166 h (pack [(16, 0), (1, bc.toNat), (11, 0)])
  | .scan h excl => entryWord 167 h (pack [(16, 0), (1, excl.toNat), (11, 0)])
  | .topk h k start => entryWord 168 h (pack [(16, 0), (3, k.toNat), (1, start.toNat), (8, 0)])
  | .argmax h => entryWord 169 h 0
  | .cmpct h amb => entryWord 170 h (pack [(16, 0), (1, amb.toNat), (11, 0)])
  | .osm h out start => entryWord 171 h (pack [(16, 0), (1, out.toNat), (2, 0), (1, start.toNat), (8, 0)])
  | .osf h => entryWord 172 h 0
  | .vflag h flag count amb => entryWord 173 h (pack [(1, amb.toNat), (15, 0), (8, count.toNat), (4, flag.toNat)])
  | .xmv h arr sh => entryWord 176 h (pack [(4, arr.toNat), (4, sh.toNat), (20, 0)])
  | .xref h arr sh => entryWord 177 h (pack [(4, arr.toNat), (4, sh.toNat), (20, 0)])
  | .xprog_deposit h arr row q => entryWord 178 h (pack [(4, arr.toNat), (9, row.toNat), (3, q.toNat), (12, 0)])
  | .xprog_fire h arr hs => entryWord 178 h (pack [(4, arr.toNat), (12, 0), (1, 1), (5, hs.toNat), (6, 0)])
  | .xrdw h arr row q => entryWord 179 h (pack [(4, arr.toNat), (9, row.toNat), (3, q.toNat), (12, 0)])
  | .xbound h arr sh => entryWord 180 h (pack [(4, arr.toNat), (4, sh.toNat), (20, 0)])
  | .xstat h arr sel ix => entryWord 181 h (pack [(4, arr.toNat), (3, sel.toNat), (5, ix.toNat), (16, 0)])
  | .mld h row slot => entryWord 184 h (pack [(16, 0), (7, row.toNat), (5, slot.toNat)])
  | .mfd h => entryWord 185 h 0
  | .mdr h row q acc => entryWord 186 h (pack [(16, 0), (7, row.toNat), (2, q.toNat), (2, acc.toNat), (1, 0)])
  | .msv h row slot acc q kind => entryWord 187 h (pack [(7, row.toNat), (5, slot.toNat), (2, acc.toNat), (2, q.toNat), (1, kind.toNat), (11, 0)])
  | .mrs h row slot acc q kind => entryWord 188 h (pack [(7, row.toNat), (5, slot.toNat), (2, acc.toNat), (2, q.toNat), (1, kind.toNat), (11, 0)])
  | .fsnd h q => entryWord 192 h (pack [(16, 0), (3, q.toNat), (9, 0)])
  | .frcv h q => entryWord 193 h (pack [(16, 0), (3, q.toNat), (9, 0)])
  | .fexp h q count w => entryWord 194 h (pack [(16, w.toNat), (3, q.toNat), (7, count.toNat), (2, 0)])
  | .fqd h q hs => entryWord 195 h (pack [(16, 0), (3, q.toNat), (5, hs.toNat), (4, 0)])
  | .mmul h acc slot m n k ty => matrixWord 208 h (pack [(2, acc.toNat), (5, slot.toNat), (7, m.toNat), (7, n.toNat), (9, k.toNat), (4, ty.toNat), (6, 0)])
  | .mmac h acc slot m n k ty => matrixWord 209 h (pack [(2, acc.toNat), (5, slot.toNat), (7, m.toNat), (7, n.toNat), (9, k.toNat), (4, ty.toNat), (6, 0)])
  | .mmuls h acc slot m n k ty sp pc mof => matrixWord 210 h (pack [(2, acc.toNat), (5, slot.toNat), (7, m.toNat), (7, n.toNat), (9, k.toNat), (4, ty.toNat), (1, sp.toNat), (1, pc.toNat), (4, mof.toNat)])
  | .mmacs h acc slot m n k ty sp pc mof => matrixWord 211 h (pack [(2, acc.toNat), (5, slot.toNat), (7, m.toNat), (7, n.toNat), (9, k.toNat), (4, ty.toNat), (1, sp.toNat), (1, pc.toNat), (4, mof.toNat)])
  | .mclr h acc ty => matrixWord 212 h (pack [(2, acc.toNat), (1, ty.toNat), (37, 0)])
  | .mclaim h mask => matrixWord 213 h (pack [(32, mask.toNat), (8, 0)])
  | .mrel h mask => matrixWord 214 h (pack [(32, mask.toNat), (8, 0)])
  | .mscl h slot row0 mof w => matrixWord 215 h (pack [(5, slot.toNat), (7, row0.toNat), (4, mof.toNat), (1, w.toNat), (23, 0)])
  | .mtr h dst src => matrixWord 216 h (pack [(5, dst.toNat), (5, src.toNat), (30, 0)])
  | .mfence h => matrixWord 217 h 0
  | .mx_msig h tgt => matrixWord 218 h (pack [(6, tgt.toNat), (34, 0)])
  | .mnop h => matrixWord 219 h 0
  | .copy h c => .port (.ofNat 256
      (pack [(8, 224), (3, h.sk.toNat), (3, h.dk.toNat), (5, h.h.toNat), (1, h.hen.toNat), (1, h.ben.toNat), (3, h.scope.toNat), (1, h.soft.toNat), (1, h.cache.toNat), (32, c.count.toNat), (6, c.csl.toNat), (64, c.src.toNat), (64, c.dst.toNat), (24, c.bar.toNat), (2, c.bph.toNat), (10, c.sdev.toNat), (10, c.ddev.toNat), (4, c.tag.toNat), (14, 0)]))
  | .copyp h c => .port (.ofNat 256
      (pack [(8, 225), (3, h.sk.toNat), (3, h.dk.toNat), (5, h.h.toNat), (1, h.hen.toNat), (1, h.ben.toNat), (3, h.scope.toNat), (1, h.soft.toNat), (1, h.cache.toNat), (32, c.count.toNat), (6, c.csl.toNat), (64, c.src.toNat), (64, c.dst.toNat), (24, c.bar.toNat), (2, c.bph.toNat), (10, c.sdev.toNat), (4, 0), (24, c.pub.toNat)]))
  | .pref h c => .port (.ofNat 256
      (pack [(8, 226), (3, h.sk.toNat), (3, h.dk.toNat), (5, h.h.toNat), (1, h.hen.toNat), (1, h.ben.toNat), (3, h.scope.toNat), (1, h.soft.toNat), (1, h.cache.toNat), (32, c.count.toNat), (6, c.csl.toNat), (64, c.src.toNat), (64, c.dst.toNat), (24, c.bar.toNat), (2, c.bph.toNat), (10, c.sdev.toNat), (10, c.ddev.toNat), (4, c.tag.toNat), (14, 0)]))
  | .ferry_gath h c => .port (.ofNat 256
      (pack [(8, 227), (3, h.sk.toNat), (3, h.dk.toNat), (5, h.h.toNat), (1, h.hen.toNat), (1, h.ben.toNat), (3, h.scope.toNat), (1, h.soft.toNat), (1, h.cache.toNat), (32, c.count.toNat), (6, c.csl.toNat), (64, c.src.toNat), (64, c.dst.toNat), (24, c.bar.toNat), (2, c.bph.toNat), (28, c.idx.toNat), (10, c.rowlen.toNat)]))
  | .scat h c => .port (.ofNat 256
      (pack [(8, 228), (3, h.sk.toNat), (3, h.dk.toNat), (5, h.h.toNat), (1, h.hen.toNat), (1, h.ben.toNat), (3, h.scope.toNat), (1, h.soft.toNat), (1, h.cache.toNat), (32, c.count.toNat), (6, c.csl.toNat), (64, c.src.toNat), (64, c.dst.toNat), (24, c.bar.toNat), (2, c.bph.toNat), (28, c.idx.toNat), (10, c.rowlen.toNat)]))
  | .scadd h c => .port (.ofNat 256
      (pack [(8, 229), (3, h.sk.toNat), (3, h.dk.toNat), (5, h.h.toNat), (1, h.hen.toNat), (1, h.ben.toNat), (3, h.scope.toNat), (1, h.soft.toNat), (1, h.cache.toNat), (32, c.count.toNat), (6, c.csl.toNat), (64, c.src.toNat), (64, c.dst.toNat), (24, c.bar.toNat), (2, c.bph.toNat), (28, c.idx.toNat), (10, c.rowlen.toNat)]))
  | .lred h c => .port (.ofNat 256
      (pack [(8, 230), (3, h.sk.toNat), (3, h.dk.toNat), (5, h.h.toNat), (1, h.hen.toNat), (1, h.ben.toNat), (3, h.scope.toNat), (1, h.soft.toNat), (1, h.cache.toNat), (32, c.count.toNat), (6, c.csl.toNat), (64, c.src.toNat), (64, c.dst.toNat), (24, c.bar.toNat), (2, c.bph.toNat), (6, c.nc.toNat), (2, c.fm.toNat), (2, c.rop.toNat), (28, 0)]))
  | .ltopk h c => .port (.ofNat 256
      (pack [(8, 231), (3, h.sk.toNat), (3, h.dk.toNat), (5, h.h.toNat), (1, h.hen.toNat), (1, h.ben.toNat), (3, h.scope.toNat), (1, h.soft.toNat), (1, h.cache.toNat), (32, c.count.toNat), (6, c.csl.toNat), (64, c.src.toNat), (64, c.dst.toNat), (24, c.bar.toNat), (2, c.bph.toNat), (6, c.nc.toNat), (11, c.len.toNat), (1, c.ord.toNat), (20, 0)]))
  | .lcmp h c => .port (.ofNat 256
      (pack [(8, 232), (3, h.sk.toNat), (3, h.dk.toNat), (5, h.h.toNat), (1, h.hen.toNat), (1, h.ben.toNat), (3, h.scope.toNat), (1, h.soft.toNat), (1, h.cache.toNat), (32, c.count.toNat), (6, c.csl.toNat), (64, c.src.toNat), (64, c.dst.toNat), (28, c.mask.toNat), (28, c.cnt.toNat), (8, c.rb.toNat)]))
  | .ferry_fill h c => .port (.ofNat 256
      (pack [(8, 233), (3, h.sk.toNat), (3, h.dk.toNat), (5, h.h.toNat), (1, h.hen.toNat), (1, h.ben.toNat), (3, h.scope.toNat), (1, h.soft.toNat), (1, h.cache.toNat), (32, c.count.toNat), (6, c.csl.toNat), (64, c.value.toNat), (64, c.dst.toNat), (24, c.bar.toNat), (2, c.bph.toNat), (10, c.sdev.toNat), (10, c.ddev.toNat), (18, 0)]))
  | .atom h c => .port (.ofNat 256
      (pack [(8, 234), (3, h.sk.toNat), (3, h.dk.toNat), (5, h.h.toNat), (1, h.hen.toNat), (1, h.ben.toNat), (3, h.scope.toNat), (1, h.soft.toNat), (1, h.cache.toNat), (28, c.ret.toNat), (1, c.reten.toNat), (4, c.aop.toNat), (1, c.w64.toNat), (4, 0), (64, c.value.toNat), (64, c.dst.toNat), (64, c.cmpv.toNat)]))
  | .barinit h c => .port (.ofNat 256
      (pack [(8, 235), (3, h.sk.toNat), (3, h.dk.toNat), (5, h.h.toNat), (1, h.hen.toNat), (1, h.ben.toNat), (3, h.scope.toNat), (1, h.soft.toNat), (1, h.cache.toNat), (38, 0), (16, c.target.toNat), (112, 0), (24, c.bar.toNat), (40, 0)]))
  | .inval h c => .port (.ofNat 256
      (pack [(8, 236), (3, h.sk.toNat), (3, h.dk.toNat), (5, h.h.toNat), (1, h.hen.toNat), (1, h.ben.toNat), (3, h.scope.toNat), (1, h.soft.toNat), (1, h.cache.toNat), (38, 0), (24, c.obj.toNat), (1, c.allt.toNat), (1, c.allobj.toNat), (38, 0), (32, c.first.toNat), (32, c.ntiles.toNat), (24, c.bar.toNat), (2, c.bph.toNat), (38, 0)]))
  | .ferry_msig h c => .port (.ofNat 256
      (pack [(8, 237), (3, h.sk.toNat), (3, h.dk.toNat), (5, h.h.toNat), (1, h.hen.toNat), (1, h.ben.toNat), (3, h.scope.toNat), (1, h.soft.toNat), (1, h.cache.toNat), (2, c.sop.toNat), (36, 0), (32, c.value.toNat), (32, 0), (64, c.dst.toNat), (24, c.bar.toNat), (2, c.bph.toNat), (38, 0)]))
  | .srchg h c => .port (.ofNat 256
      (pack [(8, 240), (5, h.h.toNat), (1, h.hen.toNat), (1, h.ben.toNat), (3, h.scope.toNat), (24, h.obj.toNat), (2, h.bph.toNat), (10, c.k.toNat), (8, c.beam.toNat), (2, 0), (28, h.inp.toNat), (24, h.bar.toNat), (12, c.hops.toNat), (28, h.out.toNat), (28, h.stat.toNat), (8, 0), (64, c.snap.toNat)]))
  | .srchv h c => .port (.ofNat 256
      (pack [(8, 241), (5, h.h.toNat), (1, h.hen.toNat), (1, h.ben.toNat), (3, h.scope.toNat), (24, h.obj.toNat), (2, h.bph.toNat), (10, c.k.toNat), (10, c.nprobe.toNat), (28, h.inp.toNat), (24, h.bar.toNat), (1, c.plist.toNat), (11, 0), (28, h.out.toNat), (28, h.stat.toNat), (8, 0), (64, c.snap.toNat)]))
  | .dscan h c => .port (.ofNat 256
      (pack [(8, 242), (5, h.h.toNat), (1, h.hen.toNat), (1, h.ben.toNat), (3, h.scope.toNat), (24, h.obj.toNat), (2, h.bph.toNat), (11, c.k.toNat), (1, c.ord.toNat), (8, 0), (28, h.inp.toNat), (24, h.bar.toNat), (12, 0), (28, h.out.toNat), (28, h.stat.toNat), (8, 0), (24, c.first.toNat), (24, c.npages.toNat), (16, 0)]))
  | .append h c => .port (.ofNat 256
      (pack [(8, 243), (5, h.h.toNat), (1, h.hen.toNat), (1, h.ben.toNat), (3, h.scope.toNat), (24, h.obj.toNat), (2, h.bph.toNat), (16, c.n.toNat), (2, c.kind.toNat), (2, 0), (28, h.inp.toNat), (24, h.bar.toNat), (12, 0), (28, h.out.toNat), (28, h.stat.toNat), (72, 0)]))
  | .remove h c => .port (.ofNat 256
      (pack [(8, 244), (5, h.h.toNat), (1, h.hen.toNat), (1, h.ben.toNat), (3, h.scope.toNat), (24, h.obj.toNat), (2, h.bph.toNat), (16, c.n.toNat), (4, 0), (28, h.inp.toNat), (24, h.bar.toNat), (12, 0), (28, h.out.toNat), (28, h.stat.toNat), (72, 0)]))
  | .merge h c => .port (.ofNat 256
      (pack [(8, 245), (5, h.h.toNat), (1, h.hen.toNat), (1, h.ben.toNat), (3, h.scope.toNat), (24, h.obj.toNat), (2, h.bph.toNat), (20, 0), (28, h.inp.toNat), (24, h.bar.toNat), (12, 0), (28, h.out.toNat), (28, h.stat.toNat), (8, 0), (64, c.m.toNat)]))
  | .stamp h => .port (.ofNat 256
      (pack [(8, 246), (5, h.h.toNat), (1, h.hen.toNat), (1, h.ben.toNat), (3, h.scope.toNat), (24, h.obj.toNat), (2, h.bph.toNat), (20, 0), (28, h.inp.toNat), (24, h.bar.toNat), (12, 0), (28, h.out.toNat), (28, h.stat.toNat), (72, 0)]))
  | .pgrd h c => .port (.ofNat 256
      (pack [(8, 247), (5, h.h.toNat), (1, h.hen.toNat), (1, h.ben.toNat), (3, h.scope.toNat), (24, h.obj.toNat), (2, h.bph.toNat), (20, 0), (28, h.inp.toNat), (24, h.bar.toNat), (12, 0), (28, h.out.toNat), (28, h.stat.toNat), (8, 0), (24, c.first.toNat), (8, c.npages.toNat), (32, 0)]))
  | .kvalloc h c => .port (.ofNat 256
      (pack [(8, 248), (5, h.h.toNat), (1, h.hen.toNat), (1, h.ben.toNat), (3, h.scope.toNat), (24, h.obj.toNat), (2, h.bph.toNat), (12, c.n.toNat), (3, c.span.toNat), (5, 0), (28, h.inp.toNat), (24, h.bar.toNat), (12, 0), (28, h.out.toNat), (28, h.stat.toNat), (72, 0)]))
  | .kvfree h c => .port (.ofNat 256
      (pack [(8, 249), (5, h.h.toNat), (1, h.hen.toNat), (1, h.ben.toNat), (3, h.scope.toNat), (24, h.obj.toNat), (2, h.bph.toNat), (12, c.n.toNat), (8, 0), (28, h.inp.toNat), (24, h.bar.toNat), (12, 0), (28, h.out.toNat), (28, h.stat.toNat), (72, 0)]))
  | .kvapp h c => .port (.ofNat 256
      (pack [(8, 250), (5, h.h.toNat), (1, h.hen.toNat), (1, h.ben.toNat), (3, h.scope.toNat), (24, h.obj.toNat), (2, h.bph.toNat), (20, 0), (28, h.inp.toNat), (24, h.bar.toNat), (12, 0), (28, h.out.toNat), (28, h.stat.toNat), (8, 0), (16, c.seq.toNat), (7, c.layer.toNat), (6, c.n.toNat), (1, c.commit.toNat), (34, 0)]))
  | .kvmap h c => .port (.ofNat 256
      (pack [(8, 251), (5, h.h.toNat), (1, h.hen.toNat), (1, h.ben.toNat), (3, h.scope.toNat), (24, h.obj.toNat), (2, h.bph.toNat), (12, c.nb.toNat), (7, c.toklast.toNat), (1, 0), (28, h.inp.toNat), (24, h.bar.toNat), (10, c.dev.toNat), (2, 0), (28, h.out.toNat), (28, h.stat.toNat), (8, 0), (16, c.seq.toNat), (32, c.g0.toNat), (16, 0)]))
  | .kvret h c => .port (.ofNat 256
      (pack [(8, 252), (5, h.h.toNat), (1, h.hen.toNat), (1, h.ben.toNat), (3, h.scope.toNat), (24, h.obj.toNat), (2, h.bph.toNat), (20, 0), (28, h.inp.toNat), (24, h.bar.toNat), (12, 0), (28, h.out.toNat), (28, h.stat.toNat), (8, 0), (16, c.seq.toNat), (3, c.tg.toNat), (1, c.mode.toNat), (44, 0)]))
  | .kvld h c => .port (.ofNat 256
      (pack [(8, 253), (5, h.h.toNat), (1, h.hen.toNat), (1, h.ben.toNat), (3, h.scope.toNat), (24, h.obj.toNat), (2, h.bph.toNat), (20, c.rows.toNat), (28, h.inp.toNat), (24, h.bar.toNat), (12, 0), (28, h.out.toNat), (28, h.stat.toNat), (8, 0), (16, c.seq.toNat), (7, c.layer.toNat), (7, c.head.toNat), (2, 0), (32, c.fromr.toNat)]))
  | .kvq h c => .port (.ofNat 256
      (pack [(8, 254), (5, h.h.toNat), (1, h.hen.toNat), (1, h.ben.toNat), (3, h.scope.toNat), (24, h.obj.toNat), (2, h.bph.toNat), (12, c.maxn.toNat), (8, 0), (28, h.inp.toNat), (24, h.bar.toNat), (12, 0), (28, h.out.toNat), (28, h.stat.toNat), (8, 0), (16, c.seq.toNat), (7, c.layer.toNat), (7, c.head.toNat), (2, 0), (16, c.first.toNat), (16, 0)]))
  | .nop_record h => .record (.ofNat 512
      (pack [(4, 0), (3, h.acq.toNat), (3, h.rel.toNat), (2, h.cls.toNat), (10, h.queue.toNat), (1, h.wen.toNat), (3, h.wop.toNat), (1, h.sen.toNat), (2, h.sop.toNat), (1, h.chain.toNat), (2, 0), (32, h.wval.toNat), (32, h.sval.toNat), (16, h.wsem.toNat), (16, h.ssem.toNat), (384, 0)]))
  | .launch_record h c => .record (.ofNat 512
      (pack [(4, 1), (3, h.acq.toNat), (3, h.rel.toNat), (2, h.cls.toNat), (10, h.queue.toNat), (1, h.wen.toNat), (3, h.wop.toNat), (1, h.sen.toNat), (2, h.sop.toNat), (1, h.chain.toNat), (2, 0), (32, h.wval.toNat), (32, h.sval.toNat), (16, h.wsem.toNat), (16, h.ssem.toNat), (24, c.codeObj.toNat), (25, c.entry.toNat), (3, c.band.toNat), (4, c.rs0.toNat), (8, c.bankMask.toNat), (40, c.coreMask.toNat), (4, c.accMask.toNat), (5, c.qbuf.toNat), (6, c.parLines.toNat), (9, c.rs1.toNat), (32, c.bankFmt.toNat), (32, c.slotMask.toNat), (16, c.kilnMask.toNat), (32, c.hsemMask.toNat), (16, c.rs2.toNat), (6, c.landSlice.toNat), (10, c.landBase.toNat), (11, c.landLen.toNat), (5, c.rs3.toNat), (24, c.parObj.toNat), (8, c.rs4.toNat), (32, c.ltag.toNat), (32, c.rs5.toNat)]))
  | .ferry_record h c => .record (.ofNat 512
      (pack [(4, 2), (3, h.acq.toNat), (3, h.rel.toNat), (2, h.cls.toNat), (10, h.queue.toNat), (1, h.wen.toNat), (3, h.wop.toNat), (1, h.sen.toNat), (2, h.sop.toNat), (1, h.chain.toNat), (2, 0), (32, h.wval.toNat), (32, h.sval.toNat), (16, h.wsem.toNat), (16, h.ssem.toNat), (64, c.c0.toNat), (64, c.c1.toNat), (64, c.c2.toNat), (64, c.c3.toNat), (6, c.ferry.toNat), (122, 0)]))
  | .store_record h c => .record (.ofNat 512
      (pack [(4, 3), (3, h.acq.toNat), (3, h.rel.toNat), (2, h.cls.toNat), (10, h.queue.toNat), (1, h.wen.toNat), (3, h.wop.toNat), (1, h.sen.toNat), (2, h.sop.toNat), (1, h.chain.toNat), (2, 0), (32, h.wval.toNat), (32, h.sval.toNat), (16, h.wsem.toNat), (16, h.ssem.toNat), (64, c.c0.toNat), (64, c.c1.toNat), (64, c.c2.toNat), (64, c.c3.toNat), (128, 0)]))
  | .kv_record h c => .record (.ofNat 512
      (pack [(4, 4), (3, h.acq.toNat), (3, h.rel.toNat), (2, h.cls.toNat), (10, h.queue.toNat), (1, h.wen.toNat), (3, h.wop.toNat), (1, h.sen.toNat), (2, h.sop.toNat), (1, h.chain.toNat), (2, 0), (32, h.wval.toNat), (32, h.sval.toNat), (16, h.wsem.toNat), (16, h.ssem.toNat), (64, c.c0.toNat), (64, c.c1.toNat), (64, c.c2.toNat), (64, c.c3.toNat), (128, 0)]))
  | .wait_record h => .record (.ofNat 512
      (pack [(4, 5), (3, h.acq.toNat), (3, h.rel.toNat), (2, h.cls.toNat), (10, h.queue.toNat), (1, h.wen.toNat), (3, h.wop.toNat), (1, h.sen.toNat), (2, h.sop.toNat), (1, h.chain.toNat), (2, 0), (32, h.wval.toNat), (32, h.sval.toNat), (16, h.wsem.toNat), (16, h.ssem.toNat), (384, 0)]))
  | .signal_record h => .record (.ofNat 512
      (pack [(4, 6), (3, h.acq.toNat), (3, h.rel.toNat), (2, h.cls.toNat), (10, h.queue.toNat), (1, h.wen.toNat), (3, h.wop.toNat), (1, h.sen.toNat), (2, h.sop.toNat), (1, h.chain.toNat), (2, 0), (32, h.wval.toNat), (32, h.sval.toNat), (16, h.wsem.toNat), (16, h.ssem.toNat), (384, 0)]))
  | .branch h c => .record (.ofNat 512
      (pack [(4, 7), (3, h.acq.toNat), (3, h.rel.toNat), (2, h.cls.toNat), (10, h.queue.toNat), (1, h.wen.toNat), (3, h.wop.toNat), (1, h.sen.toNat), (2, h.sop.toNat), (1, h.chain.toNat), (2, 0), (32, h.wval.toNat), (32, h.sval.toNat), (16, h.wsem.toNat), (16, h.ssem.toNat), (16, c.bsem.toNat), (3, c.bop.toNat), (13, 0), (32, c.bval.toNat), (24, c.target.toNat), (296, 0)]))
  | .select h c => .record (.ofNat 512
      (pack [(4, 8), (3, h.acq.toNat), (3, h.rel.toNat), (2, h.cls.toNat), (10, h.queue.toNat), (1, h.wen.toNat), (3, h.wop.toNat), (1, h.sen.toNat), (2, h.sop.toNat), (1, h.chain.toNat), (2, 0), (32, h.wval.toNat), (32, h.sval.toNat), (16, h.wsem.toNat), (16, h.ssem.toNat), (28, c.cnt.toNat), (1, c.skip0.toNat), (1, c.tagl.toNat), (34, 0), (25, c.tline.toNat), (295, 0)]))
  | .phase h c => .record (.ofNat 512
      (pack [(4, 9), (3, h.acq.toNat), (3, h.rel.toNat), (2, h.cls.toNat), (10, h.queue.toNat), (1, h.wen.toNat), (3, h.wop.toNat), (1, h.sen.toNat), (2, h.sop.toNat), (1, h.chain.toNat), (2, 0), (32, h.wval.toNat), (32, h.sval.toNat), (16, h.wsem.toNat), (16, h.ssem.toNat), (32, c.ptag.toNat), (352, 0)]))
  | .graph h c => .record (.ofNat 512
      (pack [(4, 10), (3, h.acq.toNat), (3, h.rel.toNat), (2, h.cls.toNat), (10, h.queue.toNat), (1, h.wen.toNat), (3, h.wop.toNat), (1, h.sen.toNat), (2, h.sop.toNat), (1, h.chain.toNat), (2, 0), (32, h.wval.toNat), (32, h.sval.toNat), (16, h.wsem.toNat), (16, h.ssem.toNat), (24, c.gobj.toNat), (24, c.nrec.toNat), (16, 0), (32, c.gtag.toNat), (288, 0)]))
  | .cancel h c => .record (.ofNat 512
      (pack [(4, 11), (3, h.acq.toNat), (3, h.rel.toNat), (2, h.cls.toNat), (10, h.queue.toNat), (1, h.wen.toNat), (3, h.wop.toNat), (1, h.sen.toNat), (2, h.sop.toNat), (1, h.chain.toNat), (2, 0), (32, h.wval.toNat), (32, h.sval.toNat), (16, h.wsem.toNat), (16, h.ssem.toNat), (2, c.level.toNat), (30, 0), (32, c.ctag.toNat), (320, 0)]))
  | .irq h c => .record (.ofNat 512
      (pack [(4, 12), (3, h.acq.toNat), (3, h.rel.toNat), (2, h.cls.toNat), (10, h.queue.toNat), (1, h.wen.toNat), (3, h.wop.toNat), (1, h.sen.toNat), (2, h.sop.toNat), (1, h.chain.toNat), (2, 0), (32, h.wval.toNat), (32, h.sval.toNat), (16, h.wsem.toNat), (16, h.ssem.toNat), (11, c.vector.toNat), (373, 0)]))
  | .stamp_record h c => .record (.ofNat 512
      (pack [(4, 13), (3, h.acq.toNat), (3, h.rel.toNat), (2, h.cls.toNat), (10, h.queue.toNat), (1, h.wen.toNat), (3, h.wop.toNat), (1, h.sen.toNat), (2, h.sop.toNat), (1, h.chain.toNat), (2, 0), (32, h.wval.toNat), (32, h.sval.toNat), (16, h.wsem.toNat), (16, h.ssem.toNat), (28, c.dst.toNat), (356, 0)]))
  | .map h c => .record (.ofNat 512
      (pack [(4, 14), (3, h.acq.toNat), (3, h.rel.toNat), (2, h.cls.toNat), (10, h.queue.toNat), (1, h.wen.toNat), (3, h.wop.toNat), (1, h.sen.toNat), (2, h.sop.toNat), (1, h.chain.toNat), (2, 0), (32, h.wval.toNat), (32, h.sval.toNat), (16, h.wsem.toNat), (16, h.ssem.toNat), (24, c.obj.toNat), (24, c.first.toNat), (16, 0), (24, c.ntiles.toNat), (40, 0), (28, c.report.toNat), (16, c.cap.toNat), (212, 0)]))
  | .fence_record h => .record (.ofNat 512
      (pack [(4, 15), (3, h.acq.toNat), (3, h.rel.toNat), (2, h.cls.toNat), (10, h.queue.toNat), (1, h.wen.toNat), (3, h.wop.toNat), (1, h.sen.toNat), (2, h.sop.toNat), (1, h.chain.toNat), (2, 0), (32, h.wval.toNat), (32, h.sval.toNat), (16, h.wsem.toNat), (16, h.ssem.toNat), (384, 0)]))
  | .sync_release _ _ => .event
  | .idle_wake _ _ => .event
  | .fence_complete _ _ => .event
  | .const_line_ready _ => .event
  | .fexp_deadline _ _ => .event
  | .station_result_land _ => .event
  | .row_arrival _ _ => .event
  | .hold_release _ => .event
  | .hold_limit _ => .event
  | .clock_end _ => .event
  | .matrix_update_land _ => .event
  | .matrix_command_complete _ => .event
  | .xb_row_put _ => .event
  | .ferry_continue _ => .event
  | .ferry_command_complete _ => .event
  | .read_retry_done _ _ _ _ => .event
  | .snapshot_ready _ => .event
  | .log_durable _ _ => .event
  | .merge_autostart _ => .event
  | .store_command_complete _ => .event
  | .kv_command_complete _ => .event
  | .tail_write _ => .event
  | .launch_reserve _ => .event
  | .launch_start _ => .event
  | .task_complete _ => .event
  | .record_retire _ => .event
  | .queue_on _ => .event
  | .queue_off _ => .event
  | .qm_cancel _ _ _ => .event
  | .preempt _ => .event
  | .freeze _ => .event
  | .fw_service_start _ => .event
  | .save_start _ => .event
  | .restore_start _ => .event
  | .save_engine_done _ => .event
  | .context_saved _ => .event
  | .restore _ => .event
  | .crew_resume _ => .event
  | .fq_resume_resume _ => .event
  | .fq_resume_fail _ _ => .event
  | .kiln_recal _ _ => .event
  | .recal_start _ _ => .event
  | .recal_end _ _ _ => .event
  | .firing_end _ _ _ => .event
  | .kiln_temp _ _ _ => .event
  | .drift_due _ _ => .event
  | .cache_units _ _ => .event
  | .cache_resize_done _ => .event
  | .partition_enable _ _ => .event
  | .partition_disable _ => .event
  | .irq_kick _ => .event
  | .attest _ => .event
  | .attest_done => .event
  | .key_load _ => .event
  | .core_online _ _ => .event
  | .register_write _ _ => .event
  | .host_read _ _ => .event
  | .host_write _ _ => .event
  | .host_access_timeout _ => .event
  | .roce_send _ _ => .event
  | .roce_write _ _ _ => .event
  | .roce_read _ _ _ => .event
  | .power_on => .event
  | .verify_done _ _ => .event
  | .calibrate_done => .event
  | .mount_done _ => .event
  | .security_alarm _ => .event
  | .power_regulate _ _ _ => .event
  | .module_power_limit => .event
  | .thermal_shutdown => .event
  | .core_sleep _ => .event
  | .parity_sweep_done _ _ => .event
  | .merge_publish _ => .event
  | .power_loss => .event
  | .fabric_links_trained => .event
  | .fabric_link_failure _ => .event

/-- Decode encoded bits. An event has none. -/
def decode : Encoded → Except Check Instr
  | .seq w x => decodeSeq w x
  | .entry w => decodeEntry w
  | .matrix w => decodeMatrix w
  | .port w => decodePort w
  | .record w => decodeRecord w
  | .event => .error .opcodeMap

/-- The host's question: the instruction this decoder reads from an instruction whose bits are `w`. The length tells
the family: a sequencer word (the word after it zero), an entry, a matrix command, a port command or a record. -/
def decodeTableWord (nbits w : Nat) : Option Instr :=
  let r :=
    if nbits = 32 then decodeSeq (.ofNat 32 w) (some 0)
    else if nbits = 64 then decodeEntry (.ofNat 64 w)
    else if nbits = 128 then decodeMatrix (.ofNat 128 w)
    else if nbits = 256 then decodePort (.ofNat 256 w)
    else if nbits = 512 then decodeRecord (.ofNat 512 w)
    else .error .opcodeMap
  r.toOption

end Sys2Proof
end

