-- ==== Sys2Proof/Machine/Numbers.lean ====
section
/-!
DEFINITION. The exact number arithmetic of spec 05 (R62 to R73): exact values, the five rounding modes, the formats,
and conversion into a format. A value is held exactly as a sign, a magnitude and a power of two; every rounding is one
function of an exact quotient.
-/
namespace Sys2Proof.Machine

/-- The rounding modes of R70. -/
inductive RMode where
  | rne | rtz | rdn | rup | sr
deriving DecidableEq, Repr

/-- The mode of a ROUND code (R70). Codes 5 to 7 are refused by the scanner (R111) and are never read here. -/
def RMode.ofCode : Nat → RMode
  | 0 => .rne | 1 => .rtz | 2 => .rdn | 3 => .rup | _ => .sr
/-- Its ROUND code. -/
def RMode.code : RMode → Nat
  | .rne => 0 | .rtz => 1 | .rdn => 2 | .rup => 3 | .sr => 4

/-- An exact value: NaN, an infinity, or `± m · 2^e` with the sign of zero kept (R64). -/
inductive Val where
  | nan
  | inf (neg : Bool)
  | fin (neg : Bool) (m : Nat) (e : Int)
deriving DecidableEq, Repr

namespace Val

/-- The exact value of an integer. -/
def ofInt (i : Int) : Val := .fin (i < 0) i.natAbs 0

/-- +0. -/
def zero : Val := .fin false 0 0

/-- 1. -/
def one : Val := .fin false 1 0

/-- The sign changed; NaN stays NaN. -/
def neg : Val → Val
  | .nan => .nan
  | .inf n => .inf (!n)
  | .fin n m e => .fin (!n) m e

/-- The sign cleared. -/
def abs : Val → Val
  | .nan => .nan
  | .inf _ => .inf false
  | .fin _ m e => .fin false m e

/-- The numeral `± m` scaled to the exponent `e0`, which lies at or below `e`. -/
def scaled (n : Bool) (m : Nat) (e e0 : Int) : Int :=
  let v : Int := (m * 2 ^ (e - e0).toNat : Nat)
  if n then -v else v

/-- Exact addition. An exact zero from two operands that are not zeros of one sign is −0 under RDN and +0 otherwise (R64). -/
def add (mode : RMode) : Val → Val → Val
  | .nan, _ => .nan
  | _, .nan => .nan
  | .inf a, .inf b => if a = b then .inf a else .nan
  | .inf a, _ => .inf a
  | _, .inf b => .inf b
  | .fin na ma ea, .fin nb mb eb =>
    let e0 := min ea eb
    let v := scaled na ma ea e0 + scaled nb mb eb e0
    if v = 0 then
      if ma = 0 ∧ mb = 0 ∧ na = nb then .fin na 0 0 else .fin (mode = .rdn) 0 0
    else .fin (v < 0) v.natAbs e0

/-- Exact subtraction. -/
def sub (mode : RMode) (a b : Val) : Val := add mode a b.neg

/-- Exact multiplication; zero times infinity is NaN. -/
def mul : Val → Val → Val
  | .nan, _ => .nan
  | _, .nan => .nan
  | .inf a, .inf b => .inf (a != b)
  | .inf a, .fin b m _ => if m = 0 then .nan else .inf (a != b)
  | .fin a m _, .inf b => if m = 0 then .nan else .inf (a != b)
  | .fin a ma ea, .fin b mb eb => .fin (a != b) (ma * mb) (ea + eb)

/-- The exact sum of a list, under RNE's rule for an exact zero; the empty sum is +0. -/
def sum : List Val → Val
  | [] => .fin false 0 0
  | v :: vs => vs.foldl (add .rne) v

/-- Whether the value is NaN. -/
def isNan : Val → Bool
  | .nan => true
  | _ => false

/-- Whether the value is finite. -/
def isFin : Val → Bool
  | .fin _ _ _ => true
  | _ => false

/-- Whether the value is a zero of either sign. -/
def isZero : Val → Bool
  | .fin _ 0 _ => true
  | _ => false

/-- Whether the sign is set. -/
def isNeg : Val → Bool
  | .nan => false
  | .inf n => n
  | .fin n _ _ => n

/-- The order of two values that are not NaN, zeros of both signs equal: negative, zero or positive. -/
def cmp : Val → Val → Int
  | .nan, _ => 0
  | _, .nan => 0
  | .inf a, .inf b => if a = b then 0 else if a then -1 else 1
  | .inf a, _ => if a then -1 else 1
  | _, .inf b => if b then 1 else -1
  | .fin na ma ea, .fin nb mb eb =>
    let e0 := min ea eb
    scaled na ma ea e0 - scaled nb mb eb e0

/-- `a < b`, false where either is NaN. -/
def lt (a b : Val) : Bool := !a.isNan && !b.isNan && cmp a b < 0

/-- `a ≤ b`, false where either is NaN. -/
def le (a b : Val) : Bool := !a.isNan && !b.isNan && cmp a b ≤ 0

/-- `a = b` as numbers, false where either is NaN. -/
def eqv (a b : Val) : Bool := !a.isNan && !b.isNan && cmp a b == 0

/-- The total order that ranks −0 below +0, on values that are not NaN (R174, R187). -/
def ltz (a b : Val) : Bool := lt a b || (eqv a b && a.isZero && a.isNeg && !b.isNeg)

/-- The exact quotient magnitude `num / den` of a finite value. -/
def ratio (m : Nat) (e : Int) : Nat × Nat := (m * 2 ^ e.toNat, 2 ^ (-e).toNat)

/-- A value that is an integer, as that integer; 0 otherwise. -/
def toInt : Val → Int
  | .fin n m e => let (a, b) := ratio m e; if n then -((a / b : Nat) : Int) else ((a / b : Nat) : Int)
  | _ => 0

end Val

/-! ## Rounding (R70, R71) -/

/-- `floor (log2 (num / den))` for a positive quotient. -/
def ilog2 (num den : Nat) : Int :=
  let d : Int := (Nat.log2 num : Int) - (Nat.log2 den : Int)
  if num * 2 ^ (-d).toNat < den * 2 ^ d.toNat then d - 1 else d

/-- Round the quotient `± num / den` to a whole number of quanta `2 ^ q`; `draw` is used under SR only (R71). -/
def roundQuanta (mode : RMode) (neg : Bool) (num den : Nat) (q : Int) (draw : Nat) : Nat :=
  let n := num * 2 ^ (-q).toNat
  let d := den * 2 ^ q.toNat
  let lo := n / d
  let r := n % d
  if r = 0 then lo else
  match mode with
  | .rne => if 2 * r > d ∨ (2 * r = d ∧ lo % 2 = 1) then lo + 1 else lo
  | .rtz => lo
  | .rdn => if neg then lo + 1 else lo
  | .rup => if neg then lo else lo + 1
  | .sr =>
    if neg then (if draw < (d - r) * 65536 / d then lo else lo + 1)
    else (if draw < r * 65536 / d then lo + 1 else lo)

/-- A float layout of R63: mantissa bits, the exponent of the smallest subnormal, the code of the largest finite value,
the code of +∞ (`none` where the format has none), the canonical NaN code and the width. -/
structure FloatFmt where
  mant : Nat
  qmin : Int
  maxCode : Nat
  infCode : Option Nat
  nanCode : Nat
  bits : Nat
deriving DecidableEq, Repr

/-- IEEE binary32 (R63). -/
def fp32 : FloatFmt := ⟨23, -149, 0x7F7FFFFF, some 0x7F800000, 0x7FC00000, 32⟩
/-- BF16 (R63). -/
def bf16F : FloatFmt := ⟨7, -133, 0x7F7F, some 0x7F80, 0x7FC0, 16⟩
/-- IEEE binary16 (R63). -/
def fp16 : FloatFmt := ⟨10, -24, 0x7BFF, some 0x7C00, 0x7E00, 16⟩
/-- E4M3 (R63): no infinity. -/
def e4m3F : FloatFmt := ⟨3, -9, 0x7E, none, 0x7F, 8⟩
/-- E5M2 (R63). -/
def e5m2F : FloatFmt := ⟨2, -16, 0x7B, some 0x7C, 0x7E, 8⟩
/-- E2M1, the element of MXFP4 (R63): neither infinity nor NaN. -/
def e2m1F : FloatFmt := ⟨1, -1, 7, none, 0, 4⟩

/-- The exact value of a float code (R63). -/
def FloatFmt.decode (f : FloatFmt) (code : Nat) : Val :=
  let neg := code / 2 ^ (f.bits - 1) % 2 = 1
  let c := code % 2 ^ (f.bits - 1)
  if c ≤ f.maxCode then
    let ex := c / 2 ^ f.mant
    if ex = 0 then .fin neg c f.qmin
    else .fin neg (2 ^ f.mant + c % 2 ^ f.mant) (f.qmin + ex - 1)
  else if some c = f.infCode then .inf neg
  else .nan

/-- The code with a sign put on. -/
def FloatFmt.signed (f : FloatFmt) (neg : Bool) (c : Nat) : Nat := if neg then 2 ^ (f.bits - 1) + c else c

/-- Whether SAT8 acts on the format (R73): the 8-bit floats. -/
def FloatFmt.isSat (f : FloatFmt) (sat8 : Bool) : Bool := sat8 && f.bits = 8

/-- The overflow result of R73. -/
def FloatFmt.overflow (f : FloatFmt) (mode : RMode) (sat8 neg : Bool) : Nat :=
  let toInf := match mode with
    | .rne => true
    | .sr => true
    | .rtz => false
    | .rdn => neg
    | .rup => !neg
  if toInf && !f.isSat sat8 then
    match f.infCode with
    | some i => f.signed neg i
    | none => f.nanCode
  else f.signed neg f.maxCode

/-- The magnitude code of the quotient rounded with the exponent range unbounded above (R73). -/
def FloatFmt.roundMag (f : FloatFmt) (mode : RMode) (neg : Bool) (num den draw : Nat) : Nat :=
  if num = 0 then 0 else
  let q := max (ilog2 num den - f.mant) f.qmin
  (q - f.qmin).toNat * 2 ^ f.mant + roundQuanta mode neg num den q draw

/-- Round an exact quotient `± num / den` to a float (R73). -/
def FloatFmt.roundQ (f : FloatFmt) (mode : RMode) (sat8 neg : Bool) (num den draw : Nat) : Nat :=
  let c := f.roundMag mode neg num den draw
  if c ≤ f.maxCode then f.signed neg c else f.overflow mode sat8 neg

/-- Convert an exact value to a float (R73). -/
def FloatFmt.conv (f : FloatFmt) (mode : RMode) (sat8 : Bool) (draw : Nat) : Val → Nat
  | .nan => f.nanCode
  | .inf n =>
    if f.isSat sat8 then f.signed n f.maxCode
    else match f.infCode with
      | some i => f.signed n i
      | none => f.nanCode
  | .fin n m e => let (a, b) := Val.ratio m e; f.roundQ mode sat8 n a b draw

/-- An FP32 code rounded RNE from an exact value. -/
def f32rne (v : Val) : Nat := fp32.conv .rne false 0 v

/-- The exact value rounded RNE to FP32. -/
def rne32 (v : Val) : Val := fp32.decode (f32rne v)

/-- Round an exact value to an integer by a mode (R73). -/
def roundInt (mode : RMode) (draw : Nat) : Val → Int
  | .fin n m e =>
    let (a, b) := Val.ratio m e
    let k := roundQuanta mode n a b 0 draw
    if n then -(k : Int) else k
  | _ => 0

/-- Clamp an integer into a range. -/
def clampInt (lo hi i : Int) : Int := if i < lo then lo else if hi < i then hi else i

/-- Convert an exact value to an integer between `lo` and `hi` (R73). -/
def convInt (lo hi : Int) (mode : RMode) (draw : Nat) : Val → Int
  | .nan => 0
  | .inf n => if n then lo else hi
  | v => clampInt lo hi (roundInt mode draw v)

/-! ## The stochastic generator (R71) -/

/-- One shift of the generator. -/
def lfsrStep (g : BitVec 32) : BitVec 32 :=
  let nb := g.getLsbD 31 ^^ g.getLsbD 21 ^^ g.getLsbD 1 ^^ g.getLsbD 0
  (g <<< 1) ||| (BitVec.ofBool nb).setWidth 32

/-- The generator after sixteen shifts (`draw16`). -/
def draw16 (g : BitVec 32) : BitVec 32 := Nat.repeat lfsrStep 16 g

/-- The seed loaded: zero loads 1 (R71). -/
def seedOf (v : BitVec 32) : BitVec 32 := if v = 0 then 1 else v

/-- The numeric state of a stream (R72). -/
structure Rounding where
  mode : RMode
  sat8 : Bool
  g : BitVec 32
deriving DecidableEq, Repr

/-- The numeric state at launch start (R72). -/
def Rounding.init : Rounding := ⟨.rne, false, 1⟩

/-- Round each of a list in ascending order, one draw for each under SR (R71). -/
def Rounding.mapDraw {α β : Type} (f : RMode → Bool → Nat → α → β) : Rounding → List α → List β × Rounding
  | r, [] => ([], r)
  | r, v :: vs =>
    let r' := if r.mode = .sr then { r with g := draw16 r.g } else r
    let d := if r.mode = .sr then r'.g.toNat % 65536 else 0
    let x := f r.mode r.sat8 d v
    let (xs, r'') := Rounding.mapDraw f r' vs
    (x :: xs, r'')

/-! ## Integer square root and the functions of SF -/

/-- The largest `s` below `2 ^ fuel` with `s * s ≤ n`, from the high bit down. -/
def isqrtFrom (n : Nat) : Nat → Nat → Nat
  | 0, s => s
  | k + 1, s => let t := s + 2 ^ k; isqrtFrom n k (if t * t ≤ n then t else s)

/-- The integer square root. -/
def isqrt (n : Nat) : Nat := isqrtFrom n (Nat.log2 n / 2 + 1) 0

/-- Fraction bits of the fixed-point evaluation of the transcendental functions (log entry 8). -/
def fixBits : Nat := 400

/-- ln 2 in units of 2^-400. -/
def ln2Fix : Nat := 1789879222497203190815761498240779176894896805856420935579692301363062920687047601279850318367644315849030039181347319086

/-- pi in units of 2^-600. -/
def piFix : Nat := 13036087627152999135228793149325883706411451860641517059512692589349356927284956232122985947124868324260373329126004229970251138265841936145774751301626362401504686637351871636910347

/-- `exp y` by its series, `y` and the result in units of 2^-400; `k` counts the term and `t` holds it. -/
def expSeries (y : Nat) : Nat → Nat → Nat → Nat → Nat
  | 0, _, _, acc => acc
  | fuel + 1, k, t, acc =>
    let t' := t * y / 2 ^ fixBits / (k + 1)
    expSeries y fuel (k + 1) t' (acc + t')

/-- The series `z + z^3/3 + z^5/5 + …` in units of 2^-400; `z2` is the square of `z`. -/
def atanhSeries (z2 : Nat) : Nat → Nat → Nat → Nat → Nat
  | 0, _, _, acc => acc
  | fuel + 1, k, t, acc =>
    let t' := t * z2 / 2 ^ fixBits
    atanhSeries z2 fuel (k + 2) t' (acc + t' / (k + 2))

/-- The alternating series of sine (start `k` 1) and cosine (start `k` 0) in units of 2^-400. -/
def sinSeries (y2 : Nat) : Nat → Nat → Bool → Nat → Int → Int
  | 0, _, _, _, acc => acc
  | fuel + 1, k, n, t, acc =>
    let t' := t * y2 / 2 ^ fixBits / ((k + 1) * (k + 2))
    sinSeries y2 fuel (k + 2) (!n) t' (if n then acc + t' else acc - t')

/-- A number known to lie strictly above `n / 2^bits` and below `(n + 1) / 2^bits`, rounded RNE to FP32. -/
def f32OfFix (neg : Bool) (n bits : Nat) : Nat := fp32.roundQ .rne false neg (2 * n + 1) (2 ^ (bits + 1)) 0

/-- `2 ^ v` rounded RNE to FP32, for an exact `v` (R180, R190). -/
def ex2Code : Val → Nat
  | .nan => fp32.nanCode
  | .inf true => 0
  | .inf false => 0x7F800000
  | .fin n m e =>
    let (a, b) := Val.ratio m e
    let i : Int := if n then -(((a + b - 1) / b : Nat) : Int) else ((a / b : Nat) : Int)
    let frac := ((if n then -(a : Int) else (a : Int)) - i * b).toNat
    if i ≥ 128 then 0x7F800000
    else if i < -151 then 0
    else if frac = 0 then fp32.conv .rne false 0 (.fin false 1 i)
    else
      let y := frac * ln2Fix / b
      let x := expSeries y 90 0 (2 ^ fixBits) (2 ^ fixBits)
      if i ≥ 0 then fp32.roundQ .rne false false ((2 * x + 1) * 2 ^ i.toNat) (2 ^ (fixBits + 1)) 0
      else f32OfFix false x (fixBits + (-i).toNat)

/-- `log2 v` rounded RNE to FP32 (R180). -/
def lg2Code : Val → Nat
  | .nan => fp32.nanCode
  | .inf true => fp32.nanCode
  | .inf false => 0x7F800000
  | .fin n m e =>
    if m = 0 then 0xFF800000
    else if n then fp32.nanCode
    else
      let k := Nat.log2 m
      let ex : Int := e + k
      if m = 2 ^ k then fp32.conv .rne false 0 (Val.ofInt ex)
      else
        let y := m * 2 ^ fixBits / 2 ^ k
        let z := (y - 2 ^ fixBits) * 2 ^ fixBits / (y + 2 ^ fixBits)
        let l := 2 * atanhSeries (z * z / 2 ^ fixBits) 130 1 z z
        let r : Int := ex * 2 ^ fixBits + (l * 2 ^ fixBits / ln2Fix : Nat)
        if r < 0 then f32OfFix true (-r - 1).toNat fixBits else f32OfFix false r.toNat fixBits

/-- `sin v` (or `cos v`) of a finite value that is not zero, as a signed number of 2^-400. The argument is reduced by
quarter turns with 600 bits of pi. -/
def sinCosFix (cos n : Bool) (m : Nat) (e : Int) : Int :=
  let x := m * 2 ^ (e + 600).toNat
  let q := 2 * x / piFix
  let r := (2 * x - q * piFix) / 2 / 2 ^ (600 - fixBits)
  let r2 := r * r / 2 ^ fixBits
  let s := sinSeries r2 60 1 false r (r : Int)
  let c := sinSeries r2 60 0 false (2 ^ fixBits) (2 ^ fixBits : Nat)
  if cos then
    match q % 4 with
    | 0 => c | 1 => -s | 2 => -c | _ => s
  else
    let v := match q % 4 with
      | 0 => s | 1 => c | 2 => -s | _ => -c
    if n then -v else v

/-- The nearest FP32 of a signed fixed-point number that is not exact. -/
def f32OfSigned (v : Int) : Nat := if v < 0 then f32OfFix true (-v - 1).toNat fixBits else f32OfFix false v.toNat fixBits

/-- `sin v` rounded RNE to FP32 (R180). Below 2^-100 the nearest value is the argument itself. -/
def sinCode : Val → Nat
  | .fin n m e =>
    if m = 0 then fp32.signed n 0
    else if e + Nat.log2 m < -100 then f32rne (.fin n m e)
    else f32OfSigned (sinCosFix false n m e)
  | _ => fp32.nanCode

/-- `cos v` rounded RNE to FP32 (R180). -/
def cosCode : Val → Nat
  | .fin n m e =>
    if m = 0 then 0x3F800000
    else if e + Nat.log2 m < -100 then 0x3F800000
    else f32OfSigned (sinCosFix true n m e)
  | _ => fp32.nanCode

/-- `1 / v` rounded RNE to FP32 (R180). -/
def rcpCode : Val → Nat
  | .nan => fp32.nanCode
  | .inf n => fp32.signed n 0
  | .fin n m e =>
    if m = 0 then fp32.signed n 0x7F800000
    else let (a, b) := Val.ratio m e; fp32.roundQ .rne false n b a 0

/-- The square root of `num / den` rounded RNE to FP32: 200 further bits decide, an inexact root being no tie. -/
def sqrtQ (num den : Nat) : Nat :=
  let k := Nat.log2 num + Nat.log2 den + 200
  let t := num * 2 ^ (2 * k) / den
  let s := isqrt t
  if s * s * den = num * 2 ^ (2 * k) then fp32.roundQ .rne false false s (2 ^ k) 0
  else f32OfFix false s k

/-- `sqrt v` rounded RNE to FP32 (R180). -/
def sqrtCode : Val → Nat
  | .nan => fp32.nanCode
  | .inf n => if n then fp32.nanCode else 0x7F800000
  | .fin n m e =>
    if m = 0 then fp32.signed n 0
    else if n then fp32.nanCode
    else let (a, b) := Val.ratio m e; sqrtQ a b

/-- `1 / sqrt v` rounded RNE to FP32 (R180). -/
def rsqCode : Val → Nat
  | .nan => fp32.nanCode
  | .inf n => if n then fp32.nanCode else 0
  | .fin n m e =>
    if m = 0 then fp32.signed n 0x7F800000
    else if n then fp32.nanCode
    else let (a, b) := Val.ratio m e; sqrtQ b a

end Sys2Proof.Machine
end

