-- ==== Sys2Proof/Machine/Rows.lean ====
section
/-!
DEFINITION. Rows and formats (spec 05 R62 to R76): a row of 128 bytes with its sideband, the decoding of its elements,
the encoding of values into a format, and the write of a row into a bank (R74 to R76, R170, R171).
-/
namespace Sys2Proof.Machine

/-- A row with its sideband (R62). CLASS always equals the class of TAG, so it is not held twice. -/
structure Row where
  data : BitVec 1024
  tag : Fmt
  poison : Bool
  side : BitVec 64
deriving DecidableEq, Repr

/-- A zero row of a format. -/
def Row.zero (f : Fmt) : Row := ⟨0, f, false, 0⟩

/-- A fault of an engine: CODE and SUB of R364, and which operand it concerns (1 the first, 2 the second; 0 none). -/
structure HwFault where
  code : Nat
  sub : Nat
  which : Nat := 0
deriving DecidableEq, Repr

/-! ## Formats (R62) -/

/-- Bits of one element. -/
def fmtBits : Fmt → Nat
  | .f32 => 32 | .bf16 => 16 | .f16 => 16 | .e4m3 => 8 | .e5m2 => 8 | .i32 => 32 | .i16 => 16 | .i8 => 8 | .ui8 => 8
  | .mxf8e4 => 8 | .mxf8e5 => 8 | .mxf4 => 4 | .mxi8 => 8 | .cb4 => 4 | .bi16 => 16 | .bf32 => 32

/-- Elements of a row. -/
def fmtElems (f : Fmt) : Nat := 1024 / fmtBits f

/-- The bounded class: BI16 and BF32. -/
def fmtBounded : Fmt → Bool
  | .bi16 => true | .bf32 => true | _ => false

/-- The microscaling formats of R66. -/
def fmtMx : Fmt → Bool
  | .mxf8e4 => true | .mxf8e5 => true | .mxf4 => true | .mxi8 => true | _ => false

/-- The float layout of a plain float format, BF32 included. -/
def fmtFloat : Fmt → Option FloatFmt
  | .f32 => some fp32 | .bf16 => some bf16F | .f16 => some fp16 | .e4m3 => some e4m3F | .e5m2 => some e5m2F
  | .bf32 => some fp32 | _ => none

/-- Whether the format is an integer format (codes 0x5 to 0x8). -/
def fmtInt : Fmt → Bool
  | .i32 => true | .i16 => true | .i8 => true | .ui8 => true | _ => false

/-- The smallest and largest integer of an integer format (R65). -/
def intRange : Fmt → Int × Int
  | .i32 => (-2147483648, 2147483647)
  | .i16 => (-32768, 32767)
  | .i8 => (-128, 127)
  | .ui8 => (0, 255)
  | _ => (0, 0)

/-- Two tags that an instruction takes for each other: under `.mxf8` codes 0x9 and 0xA are interchangeable (R98). -/
def tagFits (ty tag : Fmt) : Bool :=
  ty = tag || ((ty = .mxf8e4 || ty = .mxf8e5) && (tag = .mxf8e4 || tag = .mxf8e5))

/-- Read `w` bits as two's complement. -/
def signedOf (w v : Nat) : Int := if v % 2 ^ w < 2 ^ (w - 1) then (v % 2 ^ w : Nat) else (v % 2 ^ w : Nat) - (2 ^ w : Nat)

/-- The low `w` bits of an integer. -/
def wrapTo (w : Nat) (i : Int) : Nat := (i % (2 ^ w : Nat)).toNat

/-! ## Elements -/

/-- Element `i` of width `w` of a row's bytes; the lower element at the lower byte address, the lower nibble first (R5, R62). -/
def fieldAt (w : Nat) (d : BitVec 1024) (i : Nat) : Nat := d.toNat / 2 ^ (w * i) % 2 ^ w

/-- Fields of width `w`, the first lowest. -/
def packList (w : Nat) : List Nat → Nat
  | [] => 0
  | v :: vs => v % 2 ^ w + 2 ^ w * packList w vs

/-- The bytes of a list of elements of width `w`. -/
def ofFields (w : Nat) (l : List Nat) : BitVec 1024 := .ofNat 1024 (packList w l)

/-- The bits of element `i` in the row's own format. -/
def Row.code (r : Row) (i : Nat) : Nat := fieldAt (fmtBits r.tag) r.data i

/-- All elements of a row in its own format. -/
def Row.codes (r : Row) : List Nat := (List.range (fmtElems r.tag)).map r.code

/-- The scale byte of block `j` of a microscaling row (R62). -/
def Row.scale (r : Row) (j : Nat) : Nat := r.side.toNat / 2 ^ (8 * j) % 256

/-- The bound of a bounded row, an FP32 code (R69). -/
def Row.bound (r : Row) : Nat := if fmtBounded r.tag then r.side.toNat % 2 ^ 32 else 0

/-- The row scale of a BI16 row (R69). -/
def Row.rowScale (r : Row) : Nat := r.side.toNat / 2 ^ 32

/-- Entry `c` of a codebook register: 16 BF16 values, the first at the low end (R68). -/
def cbEntry (cb : BitVec 256) (c : Nat) : Nat := cb.toNat / 2 ^ (16 * c) % 2 ^ 16

/-- The exact value of an element code of a format, with the scale byte of its block where it has one (R63 to R66). -/
def codeVal (f : Fmt) (scale code : Nat) : Val :=
  match f with
  | .i32 => Val.ofInt (signedOf 32 code)
  | .i16 => Val.ofInt (signedOf 16 code)
  | .bi16 => Val.ofInt (signedOf 16 code)
  | .i8 => Val.ofInt (signedOf 8 code)
  | .ui8 => Val.ofInt (code % 256 : Nat)
  | .mxf8e4 => if scale = 255 then .nan else Val.mul (e4m3F.decode code) (.fin false 1 ((scale : Int) - 127))
  | .mxf8e5 => if scale = 255 then .nan else Val.mul (e5m2F.decode code) (.fin false 1 ((scale : Int) - 127))
  | .mxf4 => if scale = 255 then .nan else Val.mul (e2m1F.decode code) (.fin false 1 ((scale : Int) - 127))
  | .mxi8 => if scale = 255 then .nan else Val.mul (Val.ofInt (signedOf 8 code)) (.fin false 1 ((scale : Int) - 133))
  | .cb4 => .nan
  | .f32 => fp32.decode code
  | .bf32 => fp32.decode code
  | .bf16 => bf16F.decode code
  | .f16 => fp16.decode code
  | .e4m3 => e4m3F.decode code
  | .e5m2 => e5m2F.decode code

/-- The exact value of element `i` of a row, `cbs` being the four codebook registers (R63 to R69). A BI16 element stands
for its integer; the row scale is applied by the operations that use it. -/
def Row.val (cbs : List (BitVec 256)) (r : Row) (i : Nat) : Val :=
  match r.tag with
  | .cb4 => bf16F.decode (cbEntry (cbs.getD (r.side.toNat % 4) 0) (r.code i))
  | t => codeVal t (r.scale (i / 32)) (r.code i)

/-! ## Encoding values into a format (R67, R73) -/

/-- The code of a value in a plain format. -/
def encodeCode (f : Fmt) (mode : RMode) (sat8 : Bool) (draw : Nat) (v : Val) : Nat :=
  match fmtFloat f with
  | some ff => ff.conv mode sat8 draw v
  | none => let (lo, hi) := intRange f; wrapTo (fmtBits f) (convInt lo hi mode draw v)

/-- The element format of a microscaling float format. -/
def mxElem : Fmt → FloatFmt
  | .mxf8e4 => e4m3F | .mxf8e5 => e5m2F | _ => e2m1F

/-- The exponent of the largest element (R67). -/
def mxEmax : Fmt → Int
  | .mxf8e4 => 8 | .mxf8e5 => 15 | .mxf4 => 2 | _ => 0

/-- The larger magnitude of two finite values. -/
def maxMag (a b : Val) : Val := if Val.lt a.abs b.abs then b.abs else a.abs

/-- Round one scaled value to a microscaling element, saturating in every mode (R67). -/
def mxCode (f : Fmt) (mode : RMode) (draw : Nat) (v : Val) : Nat :=
  match f with
  | .mxi8 => wrapTo 8 (clampInt (-127) 127 (roundInt mode draw (Val.mul v (.fin false 64 0))))
  | _ => match v with
    | .fin n m e =>
      let (a, b) := Val.ratio m e
      (mxElem f).signed n (min ((mxElem f).roundMag mode n a b draw) (mxElem f).maxCode)
    | _ => 0

/-- Encode one block: its scale byte and its element codes (R67). A block that holds a NaN or an infinity rounds nothing
and draws nothing. -/
def encodeMxBlock (f : Fmt) (rd : Rounding) (vs : List Val) : Nat × List Nat × Rounding :=
  if vs.any (fun v => !v.isFin) then (255, vs.map (fun _ => 0), rd) else
  let a := vs.foldl maxMag Val.zero
  let s : Int := match a with
    | .fin _ m e => if m = 0 then -127 else clampInt (-127) 127 (e + Nat.log2 m - mxEmax f)
    | _ => -127
  let ws := vs.map (fun v => Val.mul v (.fin false 1 (-s)))
  let (cs, rd') := Rounding.mapDraw (fun m _ d v => mxCode f m d v) rd ws
  ((s + 127).toNat, cs, rd')

/-- Cut a list into pieces of `k`, for `n` pieces. -/
def chunks {α : Type} (k : Nat) : Nat → List α → List (List α)
  | 0, _ => []
  | n + 1, l => l.take k :: chunks k n (l.drop k)

/-- Encode blocks in ascending order. -/
def encodeBlocks (f : Fmt) : Rounding → List (List Val) → List Nat × List Nat × Rounding
  | rd, [] => ([], [], rd)
  | rd, b :: bs =>
    let (s, cs, rd') := encodeMxBlock f rd b
    let (ss, css, rd'') := encodeBlocks f rd' bs
    (s :: ss, cs ++ css, rd'')

/-- Encode values in ascending order into a format: element codes and, for a microscaling format, the scale bytes of
their blocks (R67, R73). No operation encodes into CB4. -/
def encodeVals (f : Fmt) (rd : Rounding) (vs : List Val) : List Nat × List Nat × Rounding :=
  if fmtMx f then
    let (ss, cs, rd') := encodeBlocks f rd (chunks 32 ((vs.length + 31) / 32) vs)
    (cs, ss, rd')
  else
    let (cs, rd') := Rounding.mapDraw (fun m s d v => encodeCode f m s d v) rd vs
    (cs, [], rd')

/-- Replace list elements from position `at0`. -/
def splice {α : Type} (l : List α) (at0 : Nat) (new : List α) : List α :=
  l.take at0 ++ new ++ l.drop (at0 + new.length)

/-- SIDE of a microscaling row from its scale bytes. -/
def sideOfScales (ss : List Nat) : BitVec 64 := .ofNat 64 (packList 8 ss)

/-- A row of element codes; `ss` are the scale bytes of a microscaling row. -/
def rowOf (f : Fmt) (cs ss : List Nat) (poison : Bool) : Row :=
  ⟨ofFields (fmtBits f) cs, f, poison, if fmtMx f then sideOfScales ss else 0⟩

/-- All scale bytes of a row. -/
def Row.scales (r : Row) : List Nat := (List.range (fmtElems r.tag / 32)).map r.scale

/-! ## Bounds (R69, R75, R81) -/

/-- The least FP32 code whose value is not below an exact non-negative value; +∞ for an infinity or NaN (R75). -/
def rup32 : Val → Nat
  | .fin _ m e => if m = 0 then 0 else let (a, b) := Val.ratio m e; fp32.roundQ .rup false false a b 0
  | _ => 0x7F800000

/-- The largest absolute difference between exact and rounded finite values; an infinity where a rounded value is NaN or
infinite (R75, R81). -/
def maxErr (exact : List Val) (rounded : List Val) : Val :=
  (List.zip exact rounded).foldl (fun acc p =>
    match p.2 with
    | .fin _ _ _ => match Val.sub .rne p.1 p.2 with
      | .fin _ m e => maxMag acc (.fin false m e)
      | _ => .inf false
    | _ => .inf false) Val.zero |> fun r =>
  if rounded.any (fun v => !v.isFin) then .inf false else r

/-- The larger of two bounds, FP32 codes of non-negative values, whose order is that of the codes. -/
def maxBound (a b : Nat) : Nat := max a b

/-! ## Writing a row into a bank (R74 to R76) -/

/-- TYPE fault of R85. -/
def typeFault (sub : Nat) : HwFault := { code := 0x02, sub := sub }

/-- The type check of a row written into a bank (R76). -/
def checkWrite (tag bank : Fmt) : Option HwFault :=
  if tag = bank then none
  else if fmtBounded tag then
    if fmtBounded bank then some (typeFault 2) else some (typeFault 1)
  else if bank = .bi16 then some (typeFault 2)
  else if tag = .cb4 then none
  else if bank = .cb4 then some (typeFault 3)
  else none

/-- What a bank write uses of the core: the bank's format and codebook number, the numeric state of its stream, and the
codebook registers with their poison bits. -/
structure BankCtx where
  fmt : Fmt
  cb : Nat
  rd : Rounding
  cbs : List (BitVec 256)
  cbPoison : List Bool

/-- Whether decoding the row goes through a poisoned codebook register (R166). -/
def cbTaint (cbPoison : List Bool) (x : Row) : Bool := x.tag = .cb4 && cbPoison.getD (x.side.toNat % 4) false

/-- The converted elements of a write: their codes, their blocks' scales, the poison of the incoming row as converted,
the largest error made and the numeric state after (R74, R75). -/
structure Converted where
  codes : List Nat
  scales : List Nat
  poison : Bool
  err : Val
  rd : Rounding

/-- Convert elements of a row into the bank's format: all the bank holds where the row has at least as many, else all the
row has (R74). -/
def convertFor (k : BankCtx) (x : Row) (part : Nat) : Except HwFault Converted :=
  let ns := fmtElems x.tag
  let nd := fmtElems k.fmt
  let q := if ns ≥ nd then ns / nd else nd / ns
  if part ≥ q then .error (typeFault 4) else
  let from0 := if ns ≥ nd then part * nd else 0
  let cnt := min ns nd
  let vs := (List.range cnt).map (fun i => x.val k.cbs (from0 + i))
  let (cs, ss, rd') := encodeVals k.fmt k.rd vs
  .ok ⟨cs, ss, x.poison || cbTaint k.cbPoison x, maxErr vs (cs.map (codeVal k.fmt 127)), rd'⟩

/-- A bank write as it leaves its entry: the bank format it was made for, the first element and the count it covers, the
converted row (elements outside the range are not used) and, for `wrb`, the byte mask. -/
structure Prep where
  fmt : Fmt
  at0 : Nat
  cnt : Nat
  new : Row
  mask : Option (BitVec 16)
deriving DecidableEq, Repr

/-- The part of `write_row` that is done when the entry issues: the checks of R76 and R74 and the conversion. A BF32 row written whole into a BF32
bank keeps its bound bit for bit (R74), also where an element is NaN or infinite, for which R75 says +∞ (DESIGN CHOICE; log entry 82). -/
def prepWrite (k : BankCtx) (x : Row) (part : Nat) (mask : Option (BitVec 16)) : Except HwFault (Prep × Rounding) :=
  match checkWrite x.tag k.fmt with
  | some f => .error f
  | none =>
    if x.tag = k.fmt then
      if part ≥ 1 then .error (typeFault 4)
      else .ok (⟨k.fmt, 0, fmtElems k.fmt, { x with side := if k.fmt = .cb4 then .ofNat 64 k.cb else x.side }, mask⟩, k.rd)
    else
      match convertFor k x part with
      | .error f => .error f
      | .ok c =>
        let ns := fmtElems x.tag
        let nd := fmtElems k.fmt
        if ns ≥ nd then
          let r := rowOf k.fmt c.codes c.scales c.poison
          .ok (⟨k.fmt, 0, nd, if k.fmt = .bf32 then { r with side := .ofNat 64 (rup32 c.err) } else r, mask⟩, c.rd)
        else
          let z := List.replicate (part * ns) 0
          let zs := List.replicate (part * ns / 32) 0
          .ok (⟨k.fmt, part * ns, ns, rowOf k.fmt (z ++ c.codes) (zs ++ c.scales) c.poison, mask⟩, c.rd)

/-- Bytes of a row. -/
def Row.byte (r : Row) (i : Nat) : Nat := fieldAt 8 r.data i

/-- The masked write of R170: the row of `write_row` with PART 0, of which only the bytes that GMASK selects are stored. -/
def maskRow (f : Fmt) (old new : Row) (gmask : BitVec 16) : Row :=
  if gmask = 0 then { old with tag := f }
  else if gmask = 0xFFFF then { new with tag := f, side := if f = .cb4 then old.side else new.side }
  else
    let blockG := if f = .mxf4 then 2 else 4
    let sel (g : Nat) : Bool :=
      if fmtMx f then (List.range blockG).any (fun j => gmask.getLsbD (g / blockG * blockG + j)) else gmask.getLsbD g
    let bytes := (List.range 128).map (fun i => if sel (i / 8) then new.byte i else old.byte i)
    let side : BitVec 64 :=
      if fmtMx f then
        sideOfScales ((List.range (fmtElems f / 32)).map (fun j => if sel (j * blockG) then new.scale j else old.scale j))
      else match f with
        | .bf32 => .ofNat 64 (maxBound (old.side.toNat % 2 ^ 32) (new.side.toNat % 2 ^ 32))
        | .bi16 =>
          if old.rowScale = new.rowScale then
            .ofNat 64 (maxBound (old.side.toNat % 2 ^ 32) (new.side.toNat % 2 ^ 32) + 2 ^ 32 * old.rowScale)
          else .ofNat 64 (0x7F800000 + 2 ^ 32 * new.rowScale)
        | _ => old.side
    ⟨ofFields 8 bytes, f, old.poison || new.poison, side⟩

/-- The part of `write_row` that is done at the array: the new elements over the old row (R74), then the byte mask (R170). -/
def mergeRow (p : Prep) (old0 : Row) : Row :=
  let old := { old0 with tag := p.fmt }
  let merged : Row :=
    if p.cnt = fmtElems p.fmt then p.new
    else
      ⟨ofFields (fmtBits p.fmt) (splice old.codes p.at0 ((List.range p.cnt).map (fun i => p.new.code (p.at0 + i)))), p.fmt,
        old.poison || p.new.poison,
        if fmtMx p.fmt then
          sideOfScales (splice old.scales (p.at0 / 32) ((List.range (p.cnt / 32)).map (fun j => p.new.scale (p.at0 / 32 + j))))
        else old.side⟩
  match p.mask with
  | none => merged
  | some g => maskRow p.fmt old merged g

/-- `write_row` of R74 whole: the new row of the bank and the numeric state of its stream after it. -/
def writeRow (k : BankCtx) (old x : Row) (part : Nat) : Except HwFault (Row × Rounding) :=
  match prepWrite k x part none with
  | .error f => .error f
  | .ok (p, rd) => .ok (mergeRow p old, rd)

end Sys2Proof.Machine
end

