-- ==== Sys2Proof/Machine/Store.lean ====
section
/-!
DEFINITION. Sparse maps as plain data: a list of keys and values with keys strictly rising, and what an unlisted key reads
as given at the read. Every register file and every memory of the machine is one.
-/
namespace Sys2Proof.Machine

/-- A map from numbers, the keys rising. -/
abbrev SMap (α : Type) := List (Nat × α)

/-- The value at a key; `d` where the key is not listed. -/
def SMap.get {α : Type} (d : α) : SMap α → Nat → α
  | [], _ => d
  | (j, v) :: r, k => if j = k then v else SMap.get d r k

/-- The value listed at a key. -/
def SMap.find {α : Type} : SMap α → Nat → Option α
  | [], _ => none
  | (j, v) :: r, k => if j = k then some v else SMap.find r k

/-- The keys listed. -/
def SMap.keys {α : Type} (m : SMap α) : List Nat := m.map (·.1)

/-- List a key with a value, in order, replacing its old value. -/
def SMap.put {α : Type} : SMap α → Nat → α → SMap α
  | [], k, v => [(k, v)]
  | (j, w) :: r, k, v => if k < j then (k, v) :: (j, w) :: r else if k = j then (k, v) :: r else (j, w) :: SMap.put r k v

/-- Unlist a key. -/
def SMap.del {α : Type} (m : SMap α) (k : Nat) : SMap α := m.filter (fun p => p.1 != k)

/-- Store a value in canonical form: a value equal to what an unlisted key reads as is not listed. -/
def SMap.set {α : Type} [DecidableEq α] (d : α) (m : SMap α) (k : Nat) (v : α) : SMap α :=
  if v = d then m.del k else m.put k v

/-- Change the value at a key. -/
def SMap.upd {α : Type} (d : α) (m : SMap α) (k : Nat) (f : α → α) : SMap α := m.put k (f (m.get d k))

/-- Give `n` keys from `lo` on one value, in canonical form. -/
def SMap.fill {α : Type} [DecidableEq α] (m : SMap α) (lo n : Nat) (d v : α) : SMap α :=
  m.filter (fun p => p.1 < lo) ++ (if v = d then [] else (List.range n).map (fun i => (lo + i, v))) ++ m.filter (fun p => lo + n ≤ p.1)

/-- The keys rise strictly and none is below `lo`. -/
def SMap.rising {α : Type} (lo : Nat) : SMap α → Bool
  | [] => true
  | (j, _) :: r => decide (lo ≤ j) && SMap.rising (j + 1) r

/-- The canonical form: keys strictly rising and no value equal to the default. -/
def SMap.wf {α : Type} [DecidableEq α] (d : α) (m : SMap α) : Bool := m.rising 0 && m.all (fun p => p.2 ≠ d)

/-- Bytes of any memory of the machine: addresses rising, zero bytes unlisted (log entry 2). -/
abbrev Memory := List Host.Cell

/-- The byte at an address. -/
def Memory.byte (m : Memory) (a : Nat) : Byte := SMap.get 0 m a

/-- Store a byte. -/
def Memory.setByte (m : Memory) (a : Nat) (v : Byte) : Memory := SMap.set 0 m a v

/-- The canonical form of a memory. -/
abbrev Memory.wf (m : Memory) : Bool := SMap.wf (0 : Byte) m

/-- Read `n` bytes as a little-endian number (R5). -/
def Memory.load (m : Memory) (a : Nat) : Nat → Nat
  | 0 => 0
  | n + 1 => (m.byte a).toNat + 256 * m.load (a + 1) n

/-- Store the low `n` bytes of a number, little-endian (R5). -/
def Memory.store (m : Memory) (a : Nat) : Nat → Nat → Memory
  | 0, _ => m
  | n + 1, v => (m.setByte a (.ofNat 8 v)).store (a + 1) n (v / 256)

/-- Read `n` bytes as a list. -/
def Memory.bytes (m : Memory) (a : Nat) : Nat → List Byte
  | 0 => []
  | n + 1 => m.byte a :: m.bytes (a + 1) n

/-- Store a list of bytes. -/
def Memory.setBytes (m : Memory) (a : Nat) : List Byte → Memory
  | [] => m
  | b :: bs => (m.setByte a b).setBytes (a + 1) bs

/-- Clear `n` bytes to what unlisted bytes read as. -/
def Memory.clear (m : Memory) (a n : Nat) : Memory := m.filter (fun p => p.1 < a || a + n ≤ p.1)

/-- A list of bytes as a little-endian number. -/
def natOfBytes : List Byte → Nat
  | [] => 0
  | b :: bs => b.toNat + 256 * natOfBytes bs

/-- The low `n` bytes of a number, the lowest first. -/
def bytesOfNat : Nat → Nat → List Byte
  | 0, _ => []
  | n + 1, v => .ofNat 8 v :: bytesOfNat n (v / 256)

end Sys2Proof.Machine
end

