-- ==== Sys2Proof/Machine/State.lean ====
section
/-!
DEFINITION. The state of the module as plain data, and the state at power-on. Every field cites the rule of the spec that
gives it; the fields that are the model's own say so.
-/
namespace Sys2Proof.Machine

/-! ## The sequencer (spec 09) -/

/-- The entry, command or bundle that a fault record names (R367): ENGINE of R87, its word, its line and word number. -/
structure Origin where
  engine : Nat := 0
  w0 : Word := 0
  w1 : Word := 0
  line : Nat := 0
  word : Nat := 0
deriving DecidableEq, Repr

/-- What keeps a context from issuing (R120, R137, R138, R148, R132, R135). -/
inductive Wait where
  | none
  /-- `sync` to a crew cycle (R137). -/
  | sync (t : Nat)
  /-- `idle`: the crew cycle at which the limit falls, in the firmware context the core cycles left (`none` without a limit),
  and the register that takes the outcome (R138). -/
  | idle (limit : Option Nat) (d : Reg)
  /-- `fence` of a scope, and the number that the next command would have had when it issued (R148). -/
  | fence (scope upTo : Nat)
  /-- A constant line not yet held (R132). -/
  | line (l : Nat)
  /-- `exit` has executed (R135). -/
  | exited
deriving DecidableEq, Repr

/-- A register or predicate write not yet landed (R123): it lands at the end of bundle `due`. -/
structure RegWrite where
  due : Nat
  pred : Bool
  index : Nat
  value : Word
deriving DecidableEq, Repr

/-- What the open bundle does at its end beside its writes and stores (R135, R151). -/
inductive CtlEnd where
  | none
  | trap (code : Nat)
  | rfe
  | exit
deriving DecidableEq, Repr

/-- A sequencer context (R122). -/
structure Ctx where
  /-- g0 to g31; g0 is never listed. -/
  g : SMap Word := []
  /-- p0 to p7 as 0 or 1; p0 is never listed. -/
  p : SMap Bool := []
  /-- CMD0 to CMD3 of each port, at 4 · port + n (R101). -/
  cmd : SMap Word := []
  /-- Commands accepted on each port, for the ticket (R103). -/
  tickets : SMap (BitVec 32) := []
  /-- The code object, line and word that issue next (R95). -/
  obj : Nat := 0
  line : Nat := 0
  word : Nat := 1
  /-- Bundles this context has issued (R120). -/
  bundles : Nat := 0
  /-- Register and predicate writes in their shadow, in issue order (R123). -/
  pend : List RegWrite := []
  /-- Words of the open bundle already issued. -/
  words : Nat := 0
  /-- Stores of the open bundle: address in the context's space and bytes (R124). -/
  stores : List (Nat × List Byte) := []
  /-- The transfer the open bundle takes: line and word (R133); word 0 marks a target that is no bundle start. -/
  xfer : Option (Nat × Nat) := none
  /-- The first fault of the open bundle, taken at its end (R131). -/
  fault : Option (HwFault × Origin) := none
  /-- Whether the line is still to be fetched and checked since the context moved to it (R88, R133): 0 no, 1 after the bundle
  before it, 2 at a start or after a link of the chain, 3 as the target of a transfer. -/
  check : Nat := 0
  /-- The bundle that issued last, with its transfer's word if it took one: what a fault of the chain names (R367). -/
  last : Origin := {}
  /-- What keeps the context from issuing. -/
  wait : Wait := .none
  /-- Core cycles of the two that follow a taken transfer in which nothing issues (R120). -/
  stall : Nat := 0
  /-- What the open bundle does at its end. -/
  ctl : CtlEnd := .none
  /-- The sequencer's line buffer: a constant line, with its content if R132 allows it. -/
  buf : Option (Nat × Option (BitVec 512)) := none
  /-- Cache sectors, slice and key, that its completed commands left dirty (R148, R350). -/
  unseen : List (Nat × Nat) := []
deriving DecidableEq, Repr

/-! ## Streams, banks and stations (spec 11) -/

/-- One of the sixteen streams of a core (R155, R156). -/
structure Stream where
  active : Bool := false
  /-- Armed and waiting for `start` (R30). -/
  start : Nat := 0
  obj : Nat := 0
  line : Nat := 0
  slot : Nat := 0
  /-- The crew cycle at which an entry with IDLE 0 would issue next. -/
  base : Nat := 0
  /-- ROUND, SAT8 and G (R72). -/
  rd : Rounding := Rounding.init
  /-- The entry that issued last: what a fault of the chain names (R367). -/
  last : Origin := {}
deriving DecidableEq, Repr

/-- A bank controller with its array (R74 to R77, R169). Rows not listed are zero rows. -/
structure Bank where
  fmt : Fmt := .f32
  cb : Nat := 0
  rows : SMap Row := []
  rp : Nat := 0
deriving DecidableEq, Repr

/-- A station: the last-result latch with the landing that wrote it, and the operand file (R156, R163). -/
structure Station where
  ll : Row := Row.zero .f32
  llAt : Nat × Nat := (0, 0)
  ofs : SMap Row := []
deriving DecidableEq, Repr

/-- A row on a lane: lane 0 to 15 of R97, the position and the crew cycle of its put (R158). -/
structure LaneRow where
  lane : Nat
  pos : Nat
  at0 : Nat
  row : Row
deriving DecidableEq, Repr

/-! ## The matrix engine (spec 13) -/

/-- An operand slot (R199). Rows not listed are zero rows. -/
structure Slot where
  claimed : Bool := false
  rows : SMap Row := []
deriving DecidableEq, Repr

/-- An accumulator (R199): element n of row m at 128 m + n. -/
structure Acc where
  isInt : Bool := false
  elems : SMap (BitVec 32) := []
  poison : SMap Bool := []
deriving DecidableEq, Repr

/-- A matrix command in the queue, with its 48-bit start cycle and the `mxq` that pushed it (R204). -/
structure MxCmd where
  word : BitVec 128
  start : Nat
  org : Origin
  /-- The crew cycle at whose end it enters the queue. -/
  pushed : Nat := 0
deriving DecidableEq, Repr

/-- The active multiply: its fields, what it read at START, and the rows it has processed (R207, R208). A sparse one has its
group size, metadata bits for a group and whether the pattern is one for each column. -/
structure MxActive where
  org : Origin
  keep : Bool
  acc : Nat
  k : Nat
  ty : Fmt
  sparse : Option (Nat × Nat × Bool)
  b : List Row
  cbs : List (BitVec 256)
  metaBits : Nat
  taint : Bool
  next : Nat
  rows : Nat
deriving DecidableEq, Repr

/-- The matrix engine of a core. -/
structure Mx where
  slots : SMap Slot := []
  accs : SMap Acc := []
  queue : List MxCmd := []
  active : Option MxActive := none
  /-- The crew cycle at which the next command reaches the head (R204, R216). -/
  headAt : Nat := 0
  /-- The A row present in a crew cycle (R201). -/
  aRow : Option (Nat × Row) := none
deriving DecidableEq, Repr

/-! ## Effects that land later (R163, R168, R205) -/

/-- An effect of an issued entry or command, waiting for its crew cycle. -/
inductive Eff where
  /-- A station result for its DST and LL, with the issue cycle of its entry (R163). -/
  | result (stn : Nat) (dst : Opnd) (row : Row) (issue : Nat)
  /-- A bank read: read the array and put (R168). -/
  | bankRead (bank lane rowNo : Nat) (fmt : Fmt)
  /-- A bank write (R168, R170). -/
  | bankWrite (bank rowNo : Nat) (p : Prep)
  /-- The next row of a fill (R171). -/
  | bankFill (bank rowNo left : Nat) (p : Prep)
  /-- `fmt`: every row of the bank becomes a zero row (R172). -/
  | fmtLand (bank : Nat)
  /-- `fmt` with LOAD: a codebook register and its poison (R172). -/
  | cbLoad (cb : Nat) (data : BitVec 256) (poison : Bool)
  /-- `setof` (R139). -/
  | setOf (fw : Bool) (stn ofi : Nat) (row : Row)
  /-- `vflag` (R192). -/
  | flag (f : Nat) (value : Word)
  /-- `mld`: a slot row (R201). -/
  | slotRow (slot rowNo : Nat) (row : Row)
  /-- `mrs` into a slot (R202). -/
  | slotRaw (slot rowNo : Nat) (row : Row)
  /-- `mrs` into an accumulator quarter (R202). -/
  | accRaw (acc rowNo q : Nat) (row : Row)
  /-- `mfd`: the A row of the next cycle (R201). -/
  | aRow (row : Row)
  /-- `mdr` and `msv`: read at the start of the next cycle, put two cycles later (R202). -/
  | mfRead (dst : Opnd) (isMsv : Bool) (fromAcc : Bool) (which rowNo q : Nat) (ty : Fmt) (issue : Nat)
  /-- An accumulator row update: for each column the exact sums of its groups; `keep` adds to the old value (R205, R208). -/
  | accUpd (acc rowNo : Nat) (isInt keep whole : Bool) (cols : List (Nat × List Val)) (poison : Bool)
  /-- `mclr` (R212). -/
  | accClear (acc : Nat) (isInt : Bool)
  /-- `mtr`: the rows of a slot (R214). -/
  | slotRows (slot : Nat) (rows : List Row)
  /-- `mscl`: scales of rows (R215). -/
  | scales (slot row0 perRow : Nat) (src : Row)
  /-- The completion of a matrix command: the semaphore change it makes one cycle later (R204). -/
  | mxDone (sen : Bool) (ssem : Nat) (sinc : Nat)
  /-- A kiln deposit (R232). -/
  | deposit (arr rowNo q : Nat) (row : Row)
  /-- The start of a firing (R232). -/
  | fire (arr h : Nat)
  /-- A voided array becomes DUE (R227). -/
  | kilnDue (arr : Nat)
deriving DecidableEq, Repr

/-- An effect with the crew cycle at whose end it lands and the entry that made it. -/
structure Pend where
  due : Nat
  org : Origin
  eff : Eff
deriving DecidableEq, Repr

/-- A change of a hardware semaphore that counts at a crew cycle (R143 to R145); `src` is the context of the `hsig` that
made it, if one did. -/
structure HsemChange where
  due : Nat
  h : Nat
  delta : Int
  src : Option (Nat × Bool)
deriving DecidableEq, Repr

/-! ## FR (R195 to R198) -/

/-- An item of an outbound queue: a row, or an `fqd` marker for a semaphore with the earliest cycle at which it counts. -/
inductive OqItem where
  | row (r : Row)
  | mark (h earliest : Nat)
deriving DecidableEq, Repr

/-- A pending expectation (R197). -/
structure Expect where
  q : Nat
  target : Nat
  deadline : Nat
deriving DecidableEq, Repr

/-- The ferry port station's queues. -/
structure Fr where
  iq : SMap (List Row) := []
  /-- Rows a ferry has sent that have not arrived, oldest first, and rows sent in all (R195). -/
  fly : SMap (List Row) := []
  sent : SMap Nat := []
  arrived : SMap Nat := []
  taken : SMap Nat := []
  oq : SMap (List OqItem) := []
  /-- By outbound queue: the number of a command that ended partially with rows of it not written; no marker behind them counts (R198). -/
  lost : SMap Nat := []
  exps : List Expect := []
deriving DecidableEq, Repr

/-! ## The firmware context (spec 27) -/

/-- A service request (R370): KIND, time and source of its fault, the eight words of its record, and its SUSP. -/
structure FwReq where
  kind : Nat
  stamp : Nat
  source : Nat
  words : List Word
  susp : Nat
deriving DecidableEq, Repr

/-! ## A core -/

/-- One of the 320 cores (R18). -/
structure Core where
  prog : Ctx := {}
  fw : Ctx := {}
  /-- f0 to f15 (R140). -/
  flags : SMap Word := []
  /-- h0 to h31 (R143), changes not yet counted, HSEM_SAT, and whether a value changed in the last core cycle (R138). -/
  hsem : SMap (BitVec 16) := []
  hsemPend : List HsemChange := []
  hsemSat : BitVec 32 := 0
  hsemMoved : Bool := false
  /-- Bits of HSEM_SAT that the current core cycle has set, which a write of it does not clear (R8), and whether a value changed
  since the firmware context last looked (R138). -/
  hsemHit : BitVec 32 := 0
  fwMoved : Bool := false
  /-- Sequencer memory and firmware memory (R130). -/
  seqMem : Memory := []
  fwMem : Memory := []
  streams : SMap Stream := []
  banks : SMap Bank := []
  stns : SMap Station := []
  /-- CB0 to CB3 and their poison bits (R68, R156). -/
  cbs : SMap (BitVec 256) := []
  cbPoison : SMap Bool := []
  /-- TB of RD (R156). -/
  tb : Nat := 0
  lanes : List LaneRow := []
  pend : List Pend := []
  /-- Port uses of the current crew cycle (R161): 4 · unit + kind, kind 0 a tap, 1 a put, 2 a write. -/
  uses : List Nat := []
  fr : Fr := {}
  mx : Mx := {}
  /-- End of the use window of each kiln array (R228). -/
  xbWin : SMap Nat := []
  /-- The end of the same window in wall time, as core cycles of the launch in which the crew was not frozen (R32, R223). -/
  xbWall : SMap Nat := []
  /-- The crew clock of the launch that runs on the core (R19, R20). -/
  crew : Option Nat := none
  /-- TRAP_CODE of SEQ_STATUS (R154). -/
  trapCode : BitVec 8 := 0
  /-- Restored pending results (CHECKED, R154): the crew cycle of the last of them, and the program bundle after which the last
  restored register write lands. -/
  checkedTo : Nat := 0
  checkedBundles : Nat := 0
  /-- FW_SHARE (R154). -/
  fwN : BitVec 6 := 4
  fwMin : BitVec 6 := 4
  /-- Slots of the second kind taken in the current window (R121). -/
  fwTaken : Nat := 0
  /-- SEQ_BUNDLES and FW_SLOTS (R154). -/
  bundles : BitVec 48 := 0
  fwSlots : BitVec 48 := 0
  /-- SEQ_LAUNCH.TAG (R154). -/
  tag : BitVec 32 := 0
  /-- CREW_CTL (R35). -/
  holdLimit : BitVec 24 := 0x010000
  holdLog : Bool := false
  /-- CREW_STATUS fields of the launch and the last hold's cause (R35). -/
  band : Nat := 0
  index : Nat := 0
  crewSize : Nat := 0
  leader : Nat := 0
  clockNo : Nat := 0
  cause : Nat := 0
  /-- HOLD_CYC (R34). -/
  holdCycles : BitVec 48 := 0
  episodes : BitVec 16 := 0
  /-- Whether the core's task has completed (R29). -/
  taskDone : Bool := false
  /-- Requests waiting for the firmware context and the one in service (R370). -/
  fwq : List FwReq := []
  svc : Option FwReq := none
  /-- FW_ACT: ACT and SUB last written in the service (R372). -/
  fwAct : Bool := false
  fwSub : BitVec 4 := 0
  /-- FW_ENTRY (R372). -/
  fwObj : BitVec 24 := 0
  fwLine : BitVec 25 := 0
  /-- SAVE_CTL: the operation running, DONE and SLOT (R372). -/
  saveOp : Nat := 0
  saveDone : Bool := false
  saveSlot : Nat := 0
  /-- The model's own, for the current crew cycle: the first fault the core has detected (R36), the cause of the hold it
asks for (R31), and the constant line its next bundle needs (R132). -/
  faulted : Option HwFault := none
  ask : Option Nat := none
  lineMiss : Option Nat := none
  /-- Asleep, and sweeping after a wake request (R398); the ONLINE bit is a device register. -/
  asleep : Bool := false
  sweeping : Bool := false
deriving DecidableEq, Repr

/-! ## Crews (R19 to R33, R374) -/

/-- A status of R14. -/
inductive Status where
  | running | done | cancelled | faulted | part
deriving DecidableEq, Repr

/-- What the crew still does in its current core cycle, in order: entries of streams, the matrix engines, bundles, landings, and the
end of the cycle. -/
inductive Work where
  | stream (core stn : Nat)
  | matrix (core : Nat)
  | seq (core : Nat) (fw : Bool)
  | land (core : Nat)
  | tick
deriving DecidableEq, Repr

/-- A crew: the cores that run one launch, on one crew clock. -/
structure Crew where
  clock : Nat := 0
  members : List Nat := []
  leader : Nat := 0
  band : Nat := 0
  /-- The LAUNCH record that runs and its allotment (R23). -/
  record : Nat := 0
  part : Nat := 0
  allot : LaunchRecordF
  /-- Whether crew cycle 0 has begun (R26). -/
  started : Bool := false
  /-- Core cycles since launch start, for the windows of R121. -/
  coreCycles : Nat := 0
  /-- A hold in progress: its cause and its length so far (R31, R33). -/
  hold : Option (Nat × Nat) := none
  /-- Frozen at the current crew cycle (R374): the record that asked for it. -/
  frozen : Option Nat := none
  /-- A freeze asked for, with the core cycles left until it acts (R374). -/
  freezeIn : Option (Nat × Nat) := none
  /-- A fault or cancel has stopped the crew: the status its launch ends with (R15, R36). -/
  stopped : Option Status := none
  /-- What is left of the current core cycle; empty between core cycles. -/
  todo : List Work := []
  /-- Whether a recalibration or a firing must not be waited for: the restore in progress (R380). -/
  restoring : Bool := false
  /-- The time stamp of the launch's start (R343: the most recently started). -/
  startedAt : Nat := 0
deriving DecidableEq, Repr

/-! ## The kiln tier (spec 15) -/

/-- A state of R221. -/
inductive KilnSt where
  | unfired | firing | fired | due | recal
deriving DecidableEq, Repr

/-- A kiln array. A quarter row of 128 weights is held at 4 · row + quarter, four bits each. -/
structure Kiln where
  st : KilnSt := .unfired
  cells : SMap (BitVec 512) := []
  image : SMap (BitVec 512) := []
  imgPoison : SMap Bool := []
  /-- FP32 codes of β, columns 0 to 511 and reference columns at 512 to 519; trims likewise (R222). -/
  beta : SMap (BitVec 32) := []
  gain : SMap (BitVec 16) := []
  offset : SMap (BitVec 16) := []
  /-- r_k, e_k, SH, A and floor(256 δ) of the last conversion (R222, R235). -/
  r : List Int := []
  e : List Int := []
  sh : Nat := 0
  sumA : Nat := 0
  delta : Nat := 0
  /-- The floor(256 δ) that REF shows, zero since a calibration (R235). -/
  refDelta : Nat := 0
  tCal : Int := 0
  temp : Int := 0
  /-- Time stamps of the last successful firing and of the last calibration. -/
  firedAt : Nat := 0
  calAt : Nat := 0
  pcount : Nat := 0
  mults : Nat := 0
  warns : Nat := 0
  voids : Nat := 0
  wpoison : Bool := false
  /-- Since a firing began whose end has not been reached with success, the cells hold open values, numbered from here (R232). -/
  lost : Option Nat := none
  /-- A drift breach not yet turned into DUE (R227). -/
  breach : Bool := false
  /-- The firing in progress: issuing core, semaphore and launch record (R232). -/
  firing : Option (Nat × Nat × Nat) := none
  /-- Recalibration asked for: by software or by the tier itself (R223, R224). -/
  wantCal : Bool := false
deriving DecidableEq, Repr

/-! ## Commands of ferries, controllers and the key-value engine (spec 17, 19, 21) -/

/-- Who issued a command (R11): a context of a core, with the LAUNCH record it works for, or a FERRY, STORE or KV record. -/
inductive Issuer where
  | ctx (core : Nat) (fw : Bool) (record : Option Nat)
  | record (r : Nat)
deriving DecidableEq, Repr

/-- Where a command stands. -/
inductive CmdSt where
  /-- In the port buffer (R103), or in the active bank of a record's target. -/
  | buffered
  /-- In the queue of its engine (R239, R280, R309). -/
  | queued
  /-- Started and not yet done, or paused for space or rows (R28, R266). -/
  | running
  /-- A search in its controller's queue while a codeword is in retry (R291), or waiting for its snapshot (R287). -/
  | waiting
  /-- Suspended on a translation fault (R264). -/
  | suspended (susp : Nat)
  /-- Every write made; completion is due (R263). -/
  | moved
  /-- Its arrival is held at the barrier (R261). -/
  | held
deriving DecidableEq, Repr

/-- Where an access of a command faulted: the object by its domain identifier and the tile, the destination tile, the sectors
of it already written. -/
structure Where where
  obj : Nat := 0
  tile : Nat := 0
  dtile : Nat := 0
  nsect : Nat := 0
deriving DecidableEq, Repr

/-- A command accepted by a port or taken from a record. -/
structure Cmd where
  port : Nat
  word : BitVec 256
  issuer : Issuer
  /-- Ticket SEQ (R103); 0 for a record's command. -/
  ticket : Nat := 0
  /-- The partition it works for, if any (R368), and the tag of its launch or graph. -/
  part : Option Nat := none
  tag : BitVec 32 := 0
  /-- Its ferry or controller. -/
  unit : Nat := 0
  st : CmdSt := .buffered
  /-- Its place in its engine's queue, and its acceptance stamp (R239, R280). -/
  qseq : Nat := 0
  stamp : Nat := 0
  /-- Units already moved: elements, sectors, rows or list entries; of `kvld`, the blocks it has quarantined (R316). -/
  pos : Nat := 0
  /-- Sectors of the current tile already written, and bytes written in all (R264, R367). -/
  nsect : Nat := 0
  bytes : Nat := 0
  /-- What it does once at its start is done: lists read, pending bytes added at its barrier (R250 to R252, R260). -/
  begun : Bool := false
  /-- Quarantine rows it has reserved and not delivered (R28), and the rows sent to its queue with its last one (R263). -/
  reserved : Nat := 0
  sentMark : Nat := 0
  /-- The numbers on their inbound queue of the rows it sent that are still under way to a core (R350). -/
  sent : List Nat := []
  /-- Rows its binding has taken from an outbound queue, with the markers among them (R266), and bytes it read at its start: an
index list, combined contributions or merged lists (R250 to R252). -/
  items : List OqItem := []
  data : List Byte := []
  /-- Rows of its binding whose writes have all been made (R198). -/
  rowsOut : Nat := 0
  /-- Tile tables fixed at the first translation of an object (R248). -/
  tables : SMap Nat := []
  /-- An access fault under SOFT 1: partial completion (R264). -/
  soft : Bool := false
  /-- Where the translation fault that suspended it last lay (R264, R371). -/
  place : Where := {}
  /-- What its markers wait for: commands, and the numbers of suspended accesses that began before them (R257). -/
  after : List Nat := []
  afterSusps : List Nat := []
  /-- Cache sectors it dirtied: slice and key (R350). -/
  dirtied : List (Nat × Nat) := []
  /-- Storage: snapshot, version read (of a marking ferry command, its markers' place, R257), re-queue count, codewords settled by a retry, cancel asked (R287, R291, R297, R15). -/
  snap : Nat := 0
  version : Nat := 0
  requeues : Nat := 0
  /-- The codeword in retry that it waits for (R291); LT of every log at its acceptance, while its own log is not known (R287). -/
  wants : Option Nat := none
  lts : Option (SMap Nat) := none
  settled : List (Nat × Bool) := []
  cancelled : Bool := false
  /-- Log entry stamps of an append or remove (R286): first and last. -/
  first : Nat := 0
  last : Nat := 0
  /-- The status record still to be written (R281, R307), the source of completion. -/
  status : List Byte := []
  /-- The status record of a key-value command that ends FAULTED, as its engine composed it (R307). -/
  failStatus : List Byte := []
  /-- It reported INCOMPLETE or CANCELLED (R14, R282). -/
  partialDone : Bool := false
deriving DecidableEq, Repr

/-- A log entry (R285, R286). -/
structure LogEntry where
  label : Nat
  stamp : Nat
  kind : Nat
  vec : List Byte
  durable : Bool
  /-- Where it lies in the log, counting bytes from its first page on without end; the log wraps (R285, R296). -/
  place : Nat
deriving DecidableEq, Repr

/-- An append log, by its object (R285, R286). -/
structure Log where
  entries : List LogEntry := []
  prev : Nat := 0
  tail : Nat := 0
  /-- LT as last reported, which never decreases and survives power loss (R286). -/
  lt : Nat := 0
deriving DecidableEq, Repr

/-- An index, by its object (R295 to R297): the version published, the pages that each publish replaced by the version they
belong to, and the merge in progress with its target stamp, its command and its shadow pages. -/
structure Index where
  version : Nat := 0
  old : List (Nat × List (Nat × List Byte)) := []
  merging : Option (Nat × Option Nat) := none
  shadow : List (Nat × List Byte) := []
deriving DecidableEq, Repr

/-- The spare area of a flash page (R270). -/
structure Spare where
  obj : BitVec 24 := 0
  colour : BitVec 8 := 0
  stamp : Nat := 0
deriving DecidableEq, Repr

/-- A sector of a landing cache part (R57). -/
structure CacheSec where
  data : BitVec 128
  dirty : Bool
  colour : BitVec 8
  /-- The tile whose bytes a dirty sector holds: object, tile number, and the sector's offset in it (R358). -/
  obj : Nat := 0
  tile : Nat := 0
  off : Nat := 0
deriving DecidableEq, Repr

/-- An entry a layout unit holds (R50): the port, whether it is an object entry, its identifier or address, and the last
place in a ferry queue that may still use it once a marker stands behind it (R257). -/
structure TlbEntry where
  port : Nat
  isObj : Bool
  key : Nat
  obj : Nat
  tile : Nat
  value : BitVec 512
  upTo : Option Nat
deriving DecidableEq, Repr

/-! ## The queue manager (spec 23, 01 R11 to R17) -/

/-- An instance of R11: level 0 launch, 1 phase, 2 graph, 3 job. -/
structure Inst where
  level : Nat
  part : Nat
  tag : BitVec 32
  count : BitVec 32 := 0
  status : Status := .running
  lastAdded : Bool := false
  /-- A cancel has reached a phase that is still to take records (R15, R338). -/
  cancelled : Bool := false
  /-- A member that cancelled, faulted or ended partially (R14). -/
  mark : Status := .done
  parent : Option Nat := none
deriving DecidableEq, Repr

/-- Where a record stands (R330, R331). -/
inductive RecSt where
  /-- In its queue's stream. -/
  | stream
  /-- In the shadow bank, then the active bank, of its target. -/
  | shadow | active
  /-- Taken by its target, or at work inside the queue manager. -/
  | running
  /-- Its work is complete; the release and the signal follow (R329). -/
  | done (st : Status)
  /-- A launch saved by pre-emption (R379). -/
  | saved
deriving DecidableEq, Repr

/-- A record added to a stream. -/
structure Rec where
  word : BitVec 512
  queue : Nat
  part : Nat
  graph : Nat
  phase : Option Nat := none
  inst : Option Nat := none
  st : RecSt := .stream
  /-- Its index in its graph. -/
  index : Nat := 0
  /-- Whether an evaluation has found its wait true (R328). -/
  acquired : Bool := false
  /-- The record before it in its command block (R332). -/
  chainPrev : Option Nat := none
  /-- Chosen by a SELECT: retire without starting, another ENTRY, another tag (R337). -/
  skip : Bool := false
  entry : Option Nat := none
  ltag : Option (BitVec 32) := none
  /-- The count that a SELECT has read (R337). -/
  count : Option Nat := none
  /-- When it was ready, for claims and restore order (R25, R343). -/
  readyAt : Option Nat := none
  /-- A suspension of an access made for it (R346). -/
  susp : Nat := 0
  /-- The home controller of a STORE record (R331), and the commands a MAP's invalidations wait for (R340). -/
  home : Nat := 0
  after : List Nat := []
  afterSusps : List Nat := []
deriving DecidableEq, Repr

/-- A hardware queue (R323, R324). -/
structure Queue where
  on : Bool := false
  ring : Nat := 0
  log2n : Nat := 0
  cls : Nat := 0
  level : Nat := 0
  part : Nat := 0
  weight : Nat := 0
  job : Nat := 0
  tobj : Nat := 0
  toff : Nat := 0
  head : BitVec 32 := 0
  /-- The producer index last observed (R324). -/
  tail : BitVec 32 := 0
  stream : List Nat := []
  jobInst : Option Nat := none
  /-- The last record taken from the ring and whether it carries CHAIN (R332). -/
  lastRec : Option Nat := none
  susp : Nat := 0
  /-- A cancel of its job found the producer index unreadable: the records that the next reading of it shows are discarded (R17). -/
  discard : Bool := false
deriving DecidableEq, Repr

/-- A graph walk (R333). -/
structure Walk where
  gobj : Nat
  nrec : Nat
  next : Nat := 0
  part : Nat
  /-- The record whose retirement lets the walk go on. -/
  waitFor : Option Nat := none
  phase : Option Nat := none
  /-- What a SELECT chose for the next LAUNCH (R337). -/
  skip : Bool := false
  entry : Option Nat := none
  ltag : Option (BitVec 32) := none
  /-- The GRAPH record. -/
  record : Nat := 0
  lastRec : Option Nat := none
  susp : Nat := 0
deriving DecidableEq, Repr

/-- A launch saved by pre-emption (R377 to R380): its crew, the core contexts as the engine wrote them, its remainder
commands and whether its landing range was handed over. -/
structure Saved where
  record : Nat
  crew : Crew
  cores : SMap Core
  remainders : SMap Cmd
  slots : List (Nat × Nat)
  landing : Option (List Byte)
  savedAt : Nat
  /-- Members whose save or restore has finished. -/
  finished : List Nat
deriving DecidableEq, Repr

/-- An access suspended on a translation fault (R371). -/
inductive Susp where
  | cmd (id : Nat)
  | fetch (core : Nat) (fw : Bool)
  /-- An access of the host link, with the tile it faulted at. -/
  | host (write : Bool) (addr : BitVec 64) (bytes : List Byte) (len tile : Nat)
  | record (id : Nat)
  | queue (q : Nat)
  | walk (id : Nat)
  /-- An access from the network, with its port (R49, R392). -/
  | net (port : Nat) (write : Bool) (obj off : Nat) (bytes : List Byte) (len tile : Nat)
deriving DecidableEq, Repr

/-- A translation fault that found every suspension number in use: the time stamp and source of the fault, whose access it was, and
where it lay; of a code fetch, `dtile` is the line (R371). `seq` is what a marker that waits for the access knows it by (R257). -/
structure SuspWait where
  seq : Nat
  stamp : Nat
  source : Nat
  who : Susp
  f : HwFault
  place : Where
deriving DecidableEq, Repr

/-- Which agent moves next (log entry 5): a crew in its core cycle, a firmware context outside a running crew, a command in its
buffer or engine, the queue manager at a record, a happening of a unit or from outside, the caching of a translation, a freed
suspension number, the eviction of a cache line, a store of the host to its own memory (R359), the passing of time. -/
inductive Turn where
  | crew (k : Nat)
  | fw (core : Nat)
  | cmd (id : Nat)
  | record (r : Nat)
  | event (i : Instr)
  | cacheObj (port obj : Nat)
  | cacheTile (port obj tile : Nat)
  | number
  | evict (slice key : Nat)
  | hostMem (addr : Nat) (bytes : List Byte)
  | wait (ns : Nat)
deriving DecidableEq, Repr

/-- The unit whose instruction runs (log entry 5). -/
structure Focus where
  core : Nat := 0
  fw : Bool := false
  stn : Nat := 0
  cmd : Nat := 0
  record : Nat := 0
  org : Origin := {}
deriving DecidableEq, Repr

/-! ## The machine -/

/-- Why the model stops. The module itself never stops on a fault: every fault of the spec is a next state. -/
inductive Fault where
  /-- The module has no power and nothing at hand restores it (R397). Raised by `step` alone. Safe: nothing runs. -/
  | noPower
deriving DecidableEq, Repr

/-- Why an instruction has no meaning here. -/
inductive Refusal where
  /-- An instruction this model does not give a meaning to, by its mnemonic. Raised only by the dispatcher. Safe. -/
  | notModelled (mnemonic : String)
deriving DecidableEq, Repr

/-- The whole module. -/
structure State where
  cores : SMap Core
  crews : SMap Crew
  /-- Kiln arrays at 16 · core + array. -/
  kilns : SMap Kiln
  /-- Device memory, host memory, landing staging at slice · 2^22 + offset, flash by flash tier address, peer objects at
  domain identifier · 2^40 + byte. -/
  lpddr : Memory
  host : Memory
  land : Memory
  flash : Memory
  peer : Memory
  /-- Entries of the object tables of other modules, by domain identifier, and modules the fabric cannot reach (R41, R391). -/
  peerObjs : SMap (BitVec 512)
  linksDown : List Nat
  /-- The integrity colour of each 32-byte burst (R52); 0 where not listed (log entry 2). -/
  colour : SMap (BitVec 8)
  spare : SMap Spare
  /-- Units with an uncorrectable error: tier and burst, sector or codeword number (R54, R241, R291). -/
  uncorr : List (Nat × Nat)
  /-- Flash codewords that fail hard decode (R291). -/
  hardFail : List Nat
  /-- Cache parts, per slice: sectors by tier · 2^60 + sector number; and sizes waiting for their write-back (R55, R57). -/
  cache : SMap (SMap CacheSec)
  resizing : SMap Nat
  tlb : List TlbEntry
  cmds : SMap Cmd
  /-- The next number for a command, a record or an instance. -/
  nextId : Nat
  logs : SMap Log
  indexes : SMap Index
  /-- The keys of objects that the key stores hold, by the blob that gave them, and those each codeword was written with (R270, R396). -/
  keys : SMap Nat
  cwKey : SMap Nat
  queues : SMap Queue
  recs : SMap Rec
  walks : SMap Walk
  insts : SMap Inst
  saved : List Saved
  /-- Round-robin positions of the schedulers, and starts left in the round (R342). -/
  rr : SMap Nat
  susps : SMap Susp
  /-- Translation faults that wait for a suspension number, in the order in which they receive one (R371). -/
  suspWait : List SuspWait
  /-- Device registers by index; what an unlisted one reads is `regReset`. -/
  regs : SMap Word
  /-- The global time stamp (R149). -/
  now : Nat
  /-- The largest clock step of each partition's power regulation is in PWR_CAP; partitions halted by an alarm (R385). -/
  halted : List Nat
  debugLocked : Bool
  off : Bool
  /-- The quote in progress: its host address (R395). -/
  quote : Option Nat
  /-- Messages received by SEND, by port (R392). -/
  messages : List (Nat × List Byte)
  /-- What the last host read returned (R387, R388). -/
  hostData : List Byte
  /-- Stores of the host that wait behind a suspended one: addresses of the link, those of its own memory in space 0b01 (R359). -/
  hostQueue : List (BitVec 64 × List Byte)
  /-- Rounds of SIGFAIL failures since power-on (R385). -/
  sigFails : Nat
  /-- The boot images A and B in the boot flash (R393). -/
  imageA : List Byte
  imageB : List Byte
  /-- The model's own: the counter of open values (log entry 3), the order of agents and the unit that runs (log entry 5). -/
  freeCtr : Nat
  agenda : List Turn
  focus : Focus
deriving DecidableEq, Repr

/-- What an unlisted device register reads: its reset value (R55, R227, R344, R385, R391, R397, R398). -/
def regReset (i : Nat) : Word :=
  if 0x840 ≤ i ∧ i < 0x880 then 0x20
  else if i = 0xA40 ∨ i = 0xA41 then .ofNat 64 (128 + 512 * 256)
  else if 0xB00 ≤ i ∧ i < 0xC00 ∧ (i % 16 = 10 ∨ i % 16 = 11 ∨ i % 16 = 12) then 0x0101010101010101
  else if i = 0xD90 then 0xFF
  else if i = 0xE30 then .ofNat 64 (2 ^ 10)
  else if 0xE40 ≤ i ∧ i < 0xE50 then .ofNat 64 (1600 * 2 ^ 13)
  else if 0xE50 ≤ i ∧ i < 0xE55 then .ofNat 64 (2 ^ 64 - 1)
  else 0

/-- The module at power-on (R393): BOOT_STATUS reads RESET, every register its reset value, nothing in memory. -/
def State.reset : State where
  cores := []
  crews := []
  kilns := []
  lpddr := []
  host := []
  land := []
  flash := []
  peer := []
  peerObjs := []
  linksDown := []
  colour := []
  spare := []
  uncorr := []
  hardFail := []
  cache := []
  resizing := []
  tlb := []
  cmds := []
  nextId := 1
  logs := []
  indexes := []
  keys := []
  cwKey := []
  queues := []
  recs := []
  walks := []
  insts := []
  saved := []
  rr := []
  susps := []
  suspWait := []
  regs := []
  now := 0
  halted := []
  debugLocked := false
  off := false
  quote := none
  messages := []
  hostData := []
  hostQueue := []
  sigFails := 0
  imageA := []
  imageB := []
  freeCtr := 0
  agenda := []
  focus := {}

end Sys2Proof.Machine
end

