-- ==== Sys2Proof/Machine/Mem.lean ====
section
/-!
DEFINITION. Objects, tiles and the memory tiers (spec 03 R39 to R57, 17 R241 to R244, 19 R268 to R270): the object table,
translation, permissions, and reads and writes of device memory, host memory, landing staging, flash and cache parts.
-/
namespace Sys2Proof.Machine

/-- An ACCESS fault of R364. -/
def accessFault (sub : Nat) : HwFault := { code := 0x10, sub := sub }
/-- An XLATE fault of R364. -/
def xlateFault (sub : Nat) : HwFault := { code := 0x0F, sub := sub }

/-- A device register (R7). -/
def State.reg (s : State) (i : Nat) : Word := SMap.get (regReset i) s.regs i
/-- Store a device register as it stands; access codes are applied before. -/
def State.setReg (s : State) (i : Nat) (v : Word) : State := { s with regs := s.regs.put i v }

/-- A field of a number: bits [hi:lo]. -/
def bitsOf (v hi lo : Nat) : Nat := v / 2 ^ lo % 2 ^ (hi + 1 - lo)

/-- A field of a register. -/
def fieldOf {n : Nat} (v : BitVec n) (hi lo : Nat) : Nat := bitsOf v.toNat hi lo

/-- A register with a field replaced. -/
def withField (v : Word) (hi lo f : Nat) : Word :=
  .ofNat 64 (v.toNat - bitsOf v.toNat hi lo * 2 ^ lo + f % 2 ^ (hi + 1 - lo) * 2 ^ lo)

/-! ## Open values (log entry 3) -/

/-- The open value of a draw. -/
def State.draw (s : State) : Nat × State := (Config.free s.freeCtr, { s with freeCtr := s.freeCtr + 1 })

/-! ## Device memory (R52 to R54) -/

/-- The tiers of R45 and R46. -/
inductive Tier where
  | lpddr | flash | host | landing
  /-- The memory of another module, by domain identifier and byte (R41). -/
  | peer
deriving DecidableEq, Repr

/-- The tier of a TIER code. -/
def Tier.ofCode : Nat → Tier
  | 0 => .lpddr | 1 => .flash | 2 => .host | _ => .landing

/-- The code of a tier. -/
def Tier.code : Tier → Nat
  | .lpddr => 0 | .flash => 1 | .host => 2 | .landing => 3 | .peer => 4

/-- The end of device memory: 3 TiB (R46). -/
def lpddrEnd : Nat := 3 * 2 ^ 40

/-- Numbers of the units of size `u` that a range of `n` bytes at `a` touches. -/
def unitsOf (u a n : Nat) : List Nat := if n = 0 then [] else (List.range ((a + n - 1) / u - a / u + 1)).map (a / u + ·)

/-- The check a port makes when it reads bursts (R54): TAG where a correct burst carries another colour; otherwise whether
any burst is uncorrectable. Memory beyond the end answers as uncorrectable (log entry 11). An access that meets both a burst of
another colour and an uncorrectable one raises TAG, whichever comes first (DESIGN CHOICE; log entry 82). -/
def lpCheck (s : State) (a n : Nat) (colour : BitVec 8) : Except HwFault Bool :=
  let bs := unitsOf 32 a n
  let bad := fun b => s.uncorr.contains (0, b) || decide (lpddrEnd ≤ 32 * b)
  if bs.any (fun b => !bad b && SMap.get 0 s.colour b != colour) then .error (accessFault 6) else .ok (bs.any bad)

/-- Read device memory for an agent other than a core: an uncorrectable burst raises UNCORRECTABLE (R54). -/
def lpRead (s : State) (a n : Nat) (colour : BitVec 8) : Except HwFault (List Byte) :=
  match lpCheck s a n colour with
  | .error f => .error f
  | .ok true => .error (accessFault 7)
  | .ok false => .ok (s.lpddr.bytes a n)

/-- Write bytes of one burst: `bytes` are offset and byte pairs within the burst (R53). A whole burst takes the colour; a
part of one checks it first. -/
def lpWriteBurst (s : State) (b : Nat) (bytes : SMap Byte) (colour : BitVec 8) : Except HwFault State :=
  let put := { s with lpddr := bytes.foldl (fun m p => m.setByte (32 * b + p.1) p.2) s.lpddr }
  if lpddrEnd ≤ 32 * b then .error (accessFault 7)
  else if bytes.length = 32 then
    .ok { put with colour := SMap.set 0 s.colour b colour, uncorr := s.uncorr.filter (· != (0, b)) }
  else if s.uncorr.contains (0, b) then .error (accessFault 7)
  else if SMap.get 0 s.colour b != colour then .error (accessFault 6)
  else .ok put

/-- Write a list of bytes at an address, burst by burst in ascending order. -/
def lpWriteMap (colour : BitVec 8) : List Nat → SMap Byte → State → Except HwFault State
  | [], _, s => .ok s
  | b :: bs, m, s =>
    let part := (m.filter (fun p => p.1 / 32 == b)).map (fun p => (p.1 % 32, p.2))
    match lpWriteBurst s b part colour with
    | .error f => .error f
    | .ok s' => lpWriteMap colour bs m s'

/-- The bytes of a list at consecutive addresses. -/
def bytesAt : Nat → List Byte → SMap Byte
  | _, [] => []
  | a, b :: bs => (a, b) :: bytesAt (a + 1) bs

/-- Write device memory (R53). -/
def lpWrite (s : State) (a : Nat) (bytes : List Byte) (colour : BitVec 8) : Except HwFault State :=
  lpWriteMap colour (unitsOf 32 a bytes.length) (bytesAt a bytes) s

/-! Structures of device memory that no object covers and that no register gives a colour: queue descriptors and the interrupt table. They are
read with whatever colour their bursts carry, and written with the colour of the burst they lie in (DESIGN CHOICE; log entry 87). -/

/-- Read bytes that no object covers. -/
def bareRead (s : State) (a n : Nat) : Except HwFault (List Byte) :=
  if (unitsOf 32 a n).any (fun b => s.uncorr.contains (0, b) || decide (lpddrEnd ≤ 32 * b)) then .error (accessFault 7)
  else .ok (s.lpddr.bytes a n)

/-- Write bytes of one burst that no object covers; an uncorrectable burst is left as it is (R53). -/
def bareWrite (s : State) (a : Nat) (b : List Byte) : State :=
  match lpWrite s a b (SMap.get 0 s.colour (a / 32)) with
  | .ok s' => s'
  | .error _ => s

/-! ## Landings (R55, R56, R241) -/

/-- The staging bytes of a slice: 4 MiB less its cache part (R55). -/
def stagingEnd (s : State) (slice : Nat) : Nat := 2 ^ 22 - 2 ^ 18 * fieldOf (s.reg (0x840 + slice)) 4 0

/-- Whether a staging range exists in its slice. -/
def landOk (s : State) (slice off n : Nat) : Bool := decide (slice < 64 ∧ off + n ≤ stagingEnd s slice)

/-- Whether a range holds an uncorrectable staging sector (R241). -/
def landBad (s : State) (slice off n : Nat) : Bool :=
  (unitsOf 16 (slice * 2 ^ 22 + off) n).any (fun k => s.uncorr.contains (3, k))

/-- Read staging bytes; `true` where a sector is uncorrectable. -/
def landRead (s : State) (slice off n : Nat) : Except HwFault (List Byte × Bool) :=
  if landOk s slice off n then .ok (s.land.bytes (slice * 2 ^ 22 + off) n, landBad s slice off n) else .error (accessFault 8)

/-- Read staging for an agent other than a core (R241). -/
def landGet (s : State) (slice off n : Nat) : Except HwFault (List Byte) :=
  match landRead s slice off n with
  | .error f => .error f
  | .ok (_, true) => .error (accessFault 7)
  | .ok (b, false) => .ok b

/-- Write staging bytes. A sector written whole is correct again. -/
def landPut (s : State) (slice off : Nat) (bytes : List Byte) : Except HwFault State :=
  if landOk s slice off bytes.length then
    let a := slice * 2 ^ 22 + off
    .ok { s with land := s.land.setBytes a bytes,
                 uncorr := s.uncorr.filter (fun u => !(u.1 = 3 && decide (a ≤ 16 * u.2 ∧ 16 * u.2 + 16 ≤ a + bytes.length))) }
  else .error (accessFault 8)

/-- The slice and offset of a 28-bit landing address (R243, R326). -/
def landAddr (v : Nat) : Nat × Nat := (v % 64, v / 64 % 2 ^ 22)

/-! ## Flash (R268 to R270) -/

/-- Usable pages of a die (R268). -/
def diePages : Nat := 14680064

/-- Whether a flash tier address names a usable page (R269). -/
def flashOk (a : Nat) : Bool := decide (a < 2 ^ 47 ∧ a / 2 ^ 19 % 2 ^ 24 < diePages)

/-- Whether a page's spare area names its object, the colour and a stamp that has passed (R54, R270; what the stamp is held
against is a DESIGN CHOICE, log entry 83). -/
def spareOk (s : State) (obj : Nat) (colour : BitVec 8) (page : Nat) : Bool :=
  let sp := SMap.get ({} : Spare) s.spare page
  sp.obj.toNat == obj && sp.colour == colour && decide (sp.stamp ≤ s.now)

/-- The check of flash codewords (R54, R270): TAG where a page read without error has another spare area; otherwise whether a
codeword is uncorrectable. -/
def flashCheck (s : State) (obj : Nat) (colour : BitVec 8) (cws : List Nat) : Except HwFault Bool :=
  let bad := fun c => s.uncorr.contains (1, c)
  if cws.any (fun c => !bad c && !spareOk s obj colour (c / 4)) then .error (accessFault 6) else .ok (cws.any bad)

/-- Whether a codeword was written with a key; one that nothing has written decrypts to what it holds. -/
def keyFits (s : State) (key cw : Nat) : Bool :=
  match s.cwKey.find cw with
  | some k => k == key
  | none => true

/-- Flash bytes as the present keys of an object decrypt them: what is written in a codeword under other keys does not come back (R270,
R386). -/
def flashBytes (s : State) (obj a n : Nat) : List Byte :=
  let key := SMap.get 0 s.keys obj
  if (unitsOf 4096 a n).all (keyFits s key) then s.flash.bytes a n
  else (List.range n).map (fun i => if keyFits s key ((a + i) / 4096) then s.flash.byte (a + i)
    else Config.wrongKey key (SMap.get 0 s.cwKey ((a + i) / 4096)) (a + i) (natOfBytes (s.flash.bytes (16 * ((a + i) / 16)) 16)))

/-- Read flash bytes of an object (R54, R270, R386): its keys must be loaded, every codeword must be correctable, and the pages'
spare areas must be the object's. -/
def flashRead (s : State) (obj : Nat) (colour : BitVec 8) (a n : Nat) : Except HwFault (List Byte) :=
  if (s.keys.find obj).isNone then .error (accessFault 7)
  else match flashCheck s obj colour (unitsOf 4096 a n) with
  | .error f => .error f
  | .ok true => .error (accessFault 7)
  | .ok false => .ok (flashBytes s obj a n)

/-- Write flash bytes of an object: each page touched takes the object's spare area (R270). -/
def flashWrite (s : State) (obj : Nat) (colour : BitVec 8) (a : Nat) (bytes : List Byte) : Except HwFault State :=
  if (s.keys.find obj).isNone then .error (accessFault 7) else
  let cws := unitsOf 4096 a bytes.length
  let key := SMap.get 0 s.keys obj
  let old := (cws.filter (fun c => !keyFits s key c)).foldl (fun m c => m.setBytes (4096 * c) (flashBytes s obj (4096 * c) 4096)) s.flash
  .ok { s with flash := old.setBytes a bytes,
               cwKey := cws.foldl (fun m c => m.put c key) s.cwKey,
               spare := (unitsOf 16384 a bytes.length).foldl (fun m p => m.put p ⟨.ofNat 24 obj, colour, s.now⟩) s.spare,
               uncorr := s.uncorr.filter (fun u => !(u.1 = 1 && cws.contains u.2)) }

/-! ## The object table (R41 to R45) -/

/-- An object table entry (R42). -/
structure Obj where
  id : Nat
  valid : Bool
  kind : Nat
  home : Nat
  ndim : Nat
  fmt : Fmt
  bounded : Bool
  colour : BitVec 8
  order : List Nat
  orderRest : Nat
  owner : Nat
  shared : Bool
  rd : Bool
  wr : Bool
  hostRd : Bool
  hostWr : Bool
  peerRd : Bool
  peerWr : Bool
  atoms : Nat
  tshape : List Nat
  ext : List Nat
  ttPtr : Nat
  cbPtr : Nat
  peerDev : Nat
  peerObj : Nat
  rsv : Nat
  /-- The domain identifier, where another module holds the object. -/
  peerAt : Option Nat := none
deriving DecidableEq, Repr

/-- The fields of an entry (R42). -/
def parseObj (id : Nat) (w : BitVec 512) : Obj :=
  let b := fun hi lo => bitsOf w.toNat hi lo
  let nd := b 10 8
  { id := id, valid := b 0 0 = 1, kind := b 4 1, home := b 7 5, ndim := nd, fmt := Fmt.ofCode (b 14 11),
    bounded := b 15 15 = 1, colour := .ofNat 8 (b 23 16), order := (List.range nd).map (fun j => b (26 + 3 * j) (24 + 3 * j)),
    orderRest := b 38 24 / 2 ^ (3 * nd), owner := b 42 39, shared := b 43 43 = 1, rd := b 44 44 = 1, wr := b 45 45 = 1,
    hostRd := b 46 46 = 1, hostWr := b 47 47 = 1, peerRd := b 48 48 = 1, peerWr := b 49 49 = 1, atoms := b 57 50,
    tshape := (List.range 5).map (fun i => b (67 + 4 * i) (64 + 4 * i)),
    ext := (List.range 5).map (fun i => b (167 + 40 * i) (128 + 40 * i)), ttPtr := b 375 336, cbPtr := b 415 376,
    peerDev := b 93 84, peerObj := b 117 94, rsv := b 63 58 + b 127 118 + b 335 328 + b 511 416 }

/-- Whether the entry is an alias of a peer object (R42). -/
def Obj.alias0 (o : Obj) : Bool := o.home = 4

/-- Elements of a tile (R44). -/
def Obj.tileElems (o : Obj) : Nat := 2 ^ (o.tshape.take o.ndim).sum

/-- Bytes of a tile's element data. -/
def Obj.dataBytes (o : Obj) : Nat := o.tileElems * fmtBits o.fmt / 8

/-- The footprint of a tile (R44). -/
def Obj.footprint (o : Obj) : Nat :=
  if fmtMx o.fmt then o.dataBytes + o.tileElems / 32
  else match o.fmt with
    | .bf32 => o.dataBytes + 4 * (o.dataBytes / 128)
    | .bi16 => o.dataBytes + 8 * (o.dataBytes / 128)
    | _ => max o.dataBytes 1

/-- Tiles along a dimension. -/
def Obj.tilesOf (o : Obj) (d : Nat) : Nat :=
  let e := o.ext.getD d 0
  let t := 2 ^ o.tshape.getD d 0
  (e + t - 1) / t

/-- The length of the tile table (R45). -/
def Obj.tiles (o : Obj) : Nat := ((List.range o.ndim).map o.tilesOf).foldl (· * ·) 1

/-- Elements of the object: the product of its extents. -/
def Obj.elems (o : Obj) : Nat := (o.ext.take o.ndim).foldl (· * ·) 1

/-- Whether an entry is malformed (R43, R44). `dev` is the module's own device number. -/
def Obj.bad (o : Obj) (dev : Nat) : Bool :=
  if o.alias0 then o.kind > 7 || o.kind = 1 || o.peerDev = dev
  else
    let rest := (List.range 5).drop o.ndim
    o.kind > 7 || o.home > 4 || o.rsv != 0 || o.ndim = 0 || o.ndim > 5 || o.bounded != fmtBounded o.fmt
    || o.orderRest != 0 || !((List.range o.ndim).all (fun d => o.order.contains d))
    || (List.range o.ndim).any (fun d => o.ext.getD d 0 = 0)
    || rest.any (fun d => o.ext.getD d 0 != 0 || o.tshape.getD d 0 != 0)
    || o.footprint > 65536 || o.tiles > 2 ^ 32
    || (fmtMx o.fmt && o.tshape.getD (o.order.headD 0) 0 < 5)
    || (fmtBounded o.fmt && o.dataBytes % 128 != 0)
    || (o.kind = 1 && !(o.ndim = 1 && o.fmt = .ui8 && o.tshape.headD 0 = 12 && o.home = 0 && o.ext.headD 0 % 64 = 0))

/-- Who asks (R48): a job of a partition (a core outside every partition reaches SHARED objects only), the host, a peer. -/
inductive Req where
  | job (part : Option Nat)
  | host
  | peer
deriving DecidableEq, Repr

/-- What is asked (R47); an atomic names its ATOMS bit. -/
inductive AccKind where
  | read | write | atomic (bit : Nat) | fetch
deriving DecidableEq, Repr

/-- Whether the permission bits accepts the access (R48). -/
def Obj.permits (o : Obj) (r : Req) (k : AccKind) : Bool :=
  let base := match r with
    | .job p => o.shared || p = some o.owner
    | _ => true
  let rd := match r with
    | .job _ => o.rd | .host => o.hostRd | .peer => o.peerRd
  let wr := match r with
    | .job _ => o.wr | .host => o.hostWr | .peer => o.peerWr
  base && match k with
    | .read => rd
    | .fetch => rd
    | .write => wr
    | .atomic b => wr && o.atoms / 2 ^ b % 2 = 1

/-- The ports whose layout units translate (R47, R50): ferries 0 to 63, controllers 64 to 79, and the others below. -/
def portKv : Nat := 80
/-- The queue manager's port. -/
def portQm : Nat := 81
/-- The host's port. -/
def portHost : Nat := 82
/-- The port of a core's code fetch. -/
def portFetch (core : Nat) : Nat := 100 + core

/-- An access's port, and its place in a ferry queue (0 elsewhere), which decides the markers it stands behind (R257). -/
structure Port where
  no : Nat
  qseq : Nat := 0
deriving DecidableEq, Repr

/-- A held entry that the access may use (R50, R257). -/
def tlbFind (s : State) (p : Port) (isObj : Bool) (key : Nat) : Option (BitVec 512) :=
  (s.tlb.find? (fun e => e.port = p.no && e.isObj = isObj && e.key = key &&
    (match e.upTo with
      | none => true
      | some q => decide (p.qseq < q)))).map (·.value)

/-- The colour of the translation tables (R50). -/
def tableColour (s : State) : BitVec 8 := .ofNat 8 (fieldOf (s.reg 0x801) 32 25)

/-- The address of an object table entry (R41). -/
def objAddr (s : State) (id : Nat) : Nat := 64 * fieldOf (s.reg 0x800) 39 0 + 64 * id

/-- The object entry an access uses: a held one, or a walk (R47, R50). -/
def objEntry (s : State) (p : Port) (id : Nat) : Except HwFault Obj :=
  if id ≥ fieldOf (s.reg 0x801) 24 0 then .error (accessFault 0) else
  let raw : Except HwFault Nat := match tlbFind s p true id with
    | some w => .ok w.toNat
    | none => match lpRead s (objAddr s id) 64 (tableColour s) with
      | .error f => .error f
      | .ok b => .ok (natOfBytes b)
  match raw with
  | .error f => .error f
  | .ok w =>
    let o := parseObj id (.ofNat 512 w)
    if !o.valid then .error (accessFault 0)
    else if o.bad (fieldOf (s.reg 0xE30) 9 0) then .error (accessFault 1)
    else .ok o

/-- An access over a failed link (R391): UNCORRECTABLE, marked so that its record names the fabric. -/
def linkFault : HwFault := { code := 0x10, sub := 7, which := 4 }

/-- The entry of an object of another module, under that module's permissions (R41, R391). An alias in the peer's own table, to
which R42 gives no meaning for a peer, raises OBJ_BAD (DESIGN CHOICE; log entry 82). -/
def objPeer (s : State) (k : AccKind) (dev id : Nat) : Except HwFault Obj :=
  if dev ≥ fieldOf (s.reg 0xE30) 19 10 ∨ dev > 767 then .error (accessFault 0)
  else if s.linksDown.contains dev then .error linkFault
  else match s.peerObjs.find (dev * 2 ^ 24 + id) with
    | none => .error (accessFault 0)
    | some w =>
      let o := { parseObj id w with peerAt := some (dev * 2 ^ 24 + id) }
      if !o.valid then .error (accessFault 0)
      else if o.alias0 || o.bad dev then .error (accessFault 1)
      else if o.permits .peer k then .ok o else .error (accessFault 2)

/-- The entry with its permission checked; an alias leads to the peer's object (R42). -/
def objFor (s : State) (p : Port) (r : Req) (k : AccKind) (id : Nat) : Except HwFault Obj :=
  match objEntry s p id with
  | .error f => .error f
  | .ok o =>
    if o.alias0 then objPeer s k o.peerDev o.peerObj
    else if o.permits r k then .ok o else .error (accessFault 2)

/-- The entry of an object named by device number and identifier (R41, R391). -/
def objDev (s : State) (p : Port) (r : Req) (k : AccKind) (dev id : Nat) : Except HwFault Obj :=
  if dev ≥ fieldOf (s.reg 0xE30) 19 10 ∨ dev > 767 then .error (accessFault 0)
  else if dev = fieldOf (s.reg 0xE30) 9 0 then objFor s p r k id else objPeer s k dev id

/-! ## Tiles (R45 to R47) -/

/-- A tile entry (R45). -/
structure Tile where
  present : Bool
  tier : Tier
  wp : Bool
  x : Bool
  addr : Nat
  rsv : Bool
deriving DecidableEq, Repr

/-- The fields of a tile entry. -/
def parseTile (w : Nat) : Tile :=
  ⟨w % 2 = 1, Tier.ofCode (bitsOf w 2 1), bitsOf w 3 3 = 1, bitsOf w 4 4 = 1, 4096 * bitsOf w 51 12, bitsOf w 11 5 + bitsOf w 63 52 != 0⟩

/-- The frame of a tier (R46). -/
def frameOf : Tier → Nat
  | .lpddr => 65536 | .flash => 16384 | .host => 4096 | .landing => 4096 | .peer => 65536

/-- Whether an address exists on its tier (R46, R269). -/
def tierHas (t : Tier) (a : Nat) : Bool :=
  match t with
  | .lpddr => decide (a < lpddrEnd)
  | .flash => flashOk a
  | .host => true
  | .landing => decide (a < 2 ^ 28)
  | .peer => true

/-- Whether a present entry breaks R46. -/
def Tile.bad (t : Tile) (o : Obj) : Bool :=
  t.rsv || !tierHas t.tier t.addr || t.addr % frameOf t.tier + o.footprint > frameOf t.tier

/-- The address of a tile entry (R47). -/
def tileAddr (ttPtr tile : Nat) : Nat := 64 * ttPtr + 8 * tile

/-- The atomics a tier carries (R48). -/
def tierAtoms (t : Tier) (bit : Nat) : Bool :=
  match t with
  | .lpddr => true | .landing => true
  | .host => bit = 0 || bit = 2 || bit = 3 || bit = 4
  | .flash => false
  | .peer => true

/-- The tile entry as read, without the checks of its use. The tiles of another module's object stand one after the other in
what this module sees of it (log entry 15). -/
def tileRaw (s : State) (p : Port) (o : Obj) (ttPtr tile : Nat) : Except HwFault Tile :=
  match o.peerAt with
  | some d => .ok ⟨true, .peer, false, false, d * 2 ^ 40 + tile * o.footprint, false⟩
  | none =>
  let a := tileAddr ttPtr tile
  let raw : Except HwFault Nat := match tlbFind s p false a with
    | some w => .ok (w.toNat % 2 ^ 64)
    | none => match lpRead s a 8 (tableColour s) with
      | .error f => .error f
      | .ok b => .ok (natOfBytes b)
  match raw with
  | .error f => .error f
  | .ok w => let t := parseTile w; if t.rsv || t.present && t.bad o then .error (accessFault 1) else .ok t

/-- The tile entry of an access, with the checks of R47. ATOM_TIER, which the pseudocode of R47 does not place, comes after
NOT_PRESENT, since the tier is that of a present tile, and before WRITE_PROT (DESIGN CHOICE; log entry 82). -/
def tileFor (s : State) (p : Port) (k : AccKind) (o : Obj) (ttPtr tile : Nat) : Except HwFault Tile :=
  match tileRaw s p o ttPtr tile with
  | .error f => .error f
  | .ok t =>
    if !t.present then .error (xlateFault 0)
    else match k with
      | .read => .ok t
      | .fetch => if t.x then .ok t else .error (accessFault 5)
      | .write => if t.wp || t.x then .error (xlateFault 1) else .ok t
      | .atomic b =>
        if !tierAtoms t.tier b then .error (accessFault 3)
        else if t.wp || t.x then .error (xlateFault 1) else .ok t

/-- The coordinates of a linear position, by dimension (R243). -/
def Obj.coords (o : Obj) (pos : Nat) : SMap Nat :=
  (o.order.foldl (fun (acc : SMap Nat × Nat) d =>
    let e := max (o.ext.getD d 1) 1
    (acc.1.put d (acc.2 % e), acc.2 / e)) ([], pos)).1

/-- The tile and the element within it of a linear position (R47). -/
def Obj.place (o : Obj) (pos : Nat) : Nat × Nat :=
  let c := o.coords pos
  o.order.reverse.foldl (fun (acc : Nat × Nat) d =>
    let sh := 2 ^ o.tshape.getD d 0
    (acc.1 * o.tilesOf d + SMap.get 0 c d / sh, acc.2 * sh + SMap.get 0 c d % sh)) (0, 0)

/-- Byte offset of an element in its tile. -/
def Obj.elemByte (o : Obj) (e : Nat) : Nat := e * fmtBits o.fmt / 8

/-- Where the sideband of an element lies in its tile: offset and length (R44). -/
def Obj.sideAt (o : Obj) (e : Nat) : Nat × Nat :=
  if fmtMx o.fmt then (o.dataBytes + e / 32, 1)
  else match o.fmt with
    | .bf32 => (o.dataBytes + 4 * (e / 32), 4)
    | .bi16 => (o.dataBytes + 8 * (e / 64), 8)
    | _ => (0, 0)

/-! ## Cache parts (R57) -/

/-- The key of a sector of a tier in a cache part. -/
def cacheKey (t : Tier) (sector : Nat) : Nat := t.code * 2 ^ 60 + sector

/-- The sectors a slice's cache part holds. -/
def State.cacheOf (s : State) (slice : Nat) : SMap CacheSec := SMap.get [] s.cache slice

/-- Whether the slice has a cache part at all. -/
def hasCache (s : State) (slice : Nat) : Bool := fieldOf (s.reg (0x840 + slice)) 4 0 != 0

/-- The port whose layout unit holds no entries: every use of it is a walk. -/
def walkPort : Port := ⟨portHost + 1, 0⟩

/-- Where the current entries place a dirty sector: its key and colour; `none` where they lead to no cached tier. -/
def newHome (s : State) (c : CacheSec) : Option (Nat × BitVec 8) :=
  match objEntry s walkPort c.obj with
  | .ok o => if o.alias0 then none else
    match tileRaw s walkPort o o.ttPtr c.tile with
    | .ok t => if t.present && (t.tier == .lpddr || t.tier == .host) then some (cacheKey t.tier ((t.addr + c.off) / 16), o.colour) else none
    | .error _ => none
  | .error _ => none

/-- The home of a dirty sector at a write-back: a walk of the current entries (R358), or, where they place it nowhere, its old one (log entry
84). -/
def sectorHome (s : State) (x : Nat × CacheSec) : Nat × BitVec 8 := (newHome s x.2).getD (x.1, x.2.colour)

/-- Write a sector back to its home. A write-back whose burst refuses it changes nothing (R53; log entry 12). -/
def writeBack (s : State) (x : Nat × CacheSec) : State :=
  let (k, colour) := sectorHome s x
  let a := 16 * (k % 2 ^ 60)
  match Tier.ofCode (k / 2 ^ 60) with
  | .lpddr => match lpWrite s a (bytesOfNat 16 x.2.data.toNat) colour with
    | .ok s' => s'
    | .error _ => s
  | .host => { s with host := s.host.setBytes a (bytesOfNat 16 x.2.data.toNat) }
  | _ => s

/-- Two dirty sectors whose homes are one burst, written back as that burst. -/
def burstBack (s : State) (x y : Nat × CacheSec) : Option State :=
  let (k, colour) := sectorHome s x
  if k / 2 ^ 60 = 0 ∧ k % 2 = 0 ∧ sectorHome s y = (k + 1, colour) then
    match lpWrite s (16 * k) (bytesOfNat 16 x.2.data.toNat ++ bytesOfNat 16 y.2.data.toNat) colour with
    | .ok s' => some s'
    | .error _ => some s
  else none

/-- Write back the dirty sectors that a condition selects, the two sectors of a burst together (R57). -/
def writeBackAll (sel : Nat → Bool) : List (Nat × CacheSec) → State → State
  | [], s => s
  | [x], s => if x.2.dirty && sel x.1 then writeBack s x else s
  | x :: y :: r, s =>
    if !(x.2.dirty && sel x.1) then writeBackAll sel (y :: r) s else
    match (if y.2.dirty && sel y.1 then burstBack s x y else none) with
    | some s' => writeBackAll sel r s'
    | none => writeBackAll sel (y :: r) (writeBack s x)

/-- Write back the selected dirty sectors of a slice and mark them clean. -/
def cleanSlice (s : State) (slice : Nat) (sel : Nat → Bool) : State :=
  let s' := writeBackAll sel (s.cacheOf slice) s
  let m := (s'.cacheOf slice).map (fun p => if sel p.1 then (p.1, { p.2 with dirty := false }) else p)
  { s' with cache := s'.cache.put slice m }

/-- The sectors that a scope makes visible beyond a cache part: those of LPDDR lines from DEVICE on, of host lines at SYSTEM (R57,
R350). -/
def scopeSel (scope : Nat) (key : Nat) : Bool := decide (2 ≤ scope) && (decide (key / 2 ^ 60 = 0) || scope == 4)

/-- Write back every dirty sector of a scope in every cache part: what was written before is visible at that scope (R57, R350). -/
def cleanScope (scope : Nat) (s : State) : State :=
  (s.cache.filter (fun p => p.2.any (fun c => c.2.dirty && scopeSel scope c.1))).foldl (fun s p => cleanSlice s p.1 (scopeSel scope)) s

/-- Drop the selected clean sectors of a slice (R57). -/
def dropClean (s : State) (slice : Nat) (sel : Nat → Bool) : State :=
  { s with cache := s.cache.put slice ((s.cacheOf slice).filter (fun p => p.2.dirty || !sel p.1)) }

/-- Evict a line of 64 bytes: its dirty sectors are written back, and all leave (R57). -/
def evictLine (slice line : Nat) (s : State) : State :=
  let s1 := cleanSlice s slice (fun k => k / 4 == line)
  { s1 with cache := s1.cache.put slice ((s1.cacheOf slice).filter (fun p => p.1 / 4 != line)) }

/-- The lines that a cache part of 256 sets for each of its units, of 16 ways, holds in the set of a line (R57; the set of a line is a
DESIGN CHOICE, log entry 18). -/
def linesOfSet (s : State) (slice line : Nat) : List Nat :=
  let sets := 256 * fieldOf (s.reg (0x840 + slice)) 4 0
  (((s.cacheOf slice).map (fun p => p.1 / 4)).filter (fun l => l % sets == line % sets)).eraseDups

/-- Make room for a sector: where its line is not held and its set is full, one line of the set, which one being open, leaves. -/
def cacheRoom (s : State) (slice key : Nat) : State :=
  let ls := linesOfSet s slice (key / 4)
  if ls.contains (key / 4) || decide (ls.length < 16) then s
  else evictLine slice (ls.getD (s.draw.1 % 16) 0) s.draw.2

/-- Read one 16-byte sector of device or host memory through a cache part, filling it from the home (R57, R351). -/
def cacheFetch (s : State) (slice : Nat) (t : Tier) (sector : Nat) (colour : BitVec 8) : Except HwFault (BitVec 128 × State) :=
  match (s.cacheOf slice).find? (fun p => p.1 == cacheKey t sector) with
  | some p => .ok (p.2.data, s)
  | none =>
    let home : Except HwFault (List Byte) := match t with
      | .lpddr => lpRead s (16 * sector) 16 colour
      | _ => .ok (s.host.bytes (16 * sector) 16)
    match home with
    | .error f => .error f
    | .ok b =>
      let d : BitVec 128 := .ofNat 128 (natOfBytes b)
      let s1 := cacheRoom s slice (cacheKey t sector)
      .ok (d, { s1 with cache := s1.cache.put slice ((s1.cacheOf slice).put (cacheKey t sector) ⟨d, false, colour, 0, 0, 0⟩) })

/-- Read sectors through a cache part. -/
def cacheReadList (slice : Nat) (t : Tier) (colour : BitVec 8) : List Nat → State → Except HwFault (List Byte × State)
  | [], s => .ok ([], s)
  | k :: ks, s =>
    match cacheFetch s slice t k colour with
    | .error f => .error f
    | .ok (d, s') => match cacheReadList slice t colour ks s' with
      | .error f => .error f
      | .ok (b, s'') => .ok (bytesOfNat 16 d.toNat ++ b, s'')

/-- Where a tile whose bytes go to a cache part stands: its object, its number and its address. -/
structure Home where
  obj : Nat := 0
  tile : Nat := 0
  addr : Nat := 0
deriving DecidableEq, Repr

/-- Store bytes of one sector in a cache part: a whole sector allocates without a fill (R57). -/
def cacheStore (s : State) (slice : Nat) (t : Tier) (sector : Nat) (bytes : SMap Byte) (colour : BitVec 8) (h : Home) : Except HwFault State :=
  let old : Except HwFault (BitVec 128 × State) := if bytes.length = 16 then .ok (0, s) else cacheFetch s slice t sector colour
  match old with
  | .error f => .error f
  | .ok (d, s') =>
    let m := bytes.foldl (fun (l : List Byte) p => l.set p.1 p.2) (bytesOfNat 16 d.toNat)
    let s1 := cacheRoom s' slice (cacheKey t sector)
    .ok { s1 with cache := s1.cache.put slice ((s1.cacheOf slice).put (cacheKey t sector) ⟨.ofNat 128 (natOfBytes m), true, colour, h.obj, h.tile, 16 * sector - h.addr⟩) }

/-- Store bytes in sectors of a cache part, ascending. -/
def cacheStoreList (slice : Nat) (t : Tier) (colour : BitVec 8) (h : Home) (m : SMap Byte) : List Nat → State → Except HwFault State
  | [], s => .ok s
  | k :: ks, s =>
    match cacheStore s slice t k ((m.filter (fun p => p.1 / 16 == k)).map (fun p => (p.1 % 16, p.2))) colour h with
    | .error f => .error f
    | .ok s' => cacheStoreList slice t colour h m ks s'

/-! ## Reads and writes on a tier -/

/-- Read bytes on a tier; `cache` names the slice whose cache part serves LPDDR and host tiles (R57); in a slice without a cache part
such an access goes uncached (DESIGN CHOICE; log entry 82). The flag says that an
uncorrectable unit was met, for a reader that poisons (R54); its bytes are open. -/
def tierRead (s : State) (o : Obj) (t : Tier) (a n : Nat) (cache : Option Nat) : Except HwFault (List Byte × Bool × State) :=
  match t, cache with
  | .lpddr, some sl =>
    if hasCache s sl then
      match cacheReadList sl .lpddr o.colour (unitsOf 16 a n) s with
      | .error f => if f = accessFault 7 then .ok (s.lpddr.bytes a n, true, s) else .error f
      | .ok (b, s') => .ok ((b.drop (a % 16)).take n, false, s')
    else match lpCheck s a n o.colour with
      | .error f => .error f
      | .ok bad => .ok (s.lpddr.bytes a n, bad, s)
  | .host, some sl =>
    if hasCache s sl then
      match cacheReadList sl .host o.colour (unitsOf 16 a n) s with
      | .error f => .error f
      | .ok (b, s') => .ok ((b.drop (a % 16)).take n, false, s')
    else .ok (s.host.bytes a n, false, s)
  | .lpddr, none => match lpCheck s a n o.colour with
    | .error f => .error f
    | .ok bad => .ok (s.lpddr.bytes a n, bad, s)
  | .host, none => .ok (s.host.bytes a n, false, s)
  | .flash, _ => match flashRead s o.id o.colour a n with
    | .error f => if f = accessFault 7 then .ok (flashBytes s o.id a n, true, s) else .error f
    | .ok b => .ok (b, false, s)
  | .landing, _ => match landRead s (a / 2 ^ 22) (a % 2 ^ 22) n with
    | .error f => .error f
    | .ok (b, bad) => .ok (b, bad, s)
  | .peer, _ => .ok (s.peer.bytes a n, false, s)

/-- The bytes a write to a TILE_TABLE object stores: bit 4 of each 8-byte entry that it touches is 0 (R61). A cached sector goes home
whole, so a cached write touches both entries of its sectors. `old` reads the bytes as they stand. -/
def clearX (old : Nat → Byte) (m : SMap Byte) (cached : Bool) : SMap Byte :=
  let u := if cached then 16 else 8
  let entries := ((m.map (fun p => p.1 / u)).eraseDups).flatMap (fun k => if cached then [2 * k, 2 * k + 1] else [k])
  entries.foldl (fun (acc : SMap Byte) e => acc.put (8 * e) (SMap.get (old (8 * e)) acc (8 * e) &&& 0xEF)) m

/-- Write bytes at ascending addresses on a tier; a write to a TILE_TABLE object by any agent but MAP clears X (R61). -/
def tierWrite (s : State) (o : Obj) (t : Tier) (m0 : SMap Byte) (cache : Option Nat) (h : Home) : Except HwFault State :=
  let cached := match t, cache with
    | .lpddr, some sl => hasCache s sl
    | .host, some sl => hasCache s sl
    | _, _ => false
  let old := fun a => match tierRead s o t a 1 cache with
    | .ok (b :: _, _, _) => b
    | _ => 0
  let m := if o.kind = 2 then clearX old m0 cached else m0
  let sectors := (m.map (fun p => p.1 / 16)).eraseDups
  match t, cache with
  | .lpddr, some sl => if hasCache s sl then cacheStoreList sl .lpddr o.colour h m sectors s
      else lpWriteMap o.colour (m.map (fun p => p.1 / 32)).eraseDups m s
  | .lpddr, none => lpWriteMap o.colour (m.map (fun p => p.1 / 32)).eraseDups m s
  | .host, some sl => if hasCache s sl then cacheStoreList sl .host o.colour h m sectors s
      else .ok { s with host := m.foldl (fun h p => h.setByte p.1 p.2) s.host }
  | .host, none => .ok { s with host := m.foldl (fun h p => h.setByte p.1 p.2) s.host }
  | .flash, _ => m.foldl (fun (r : Except HwFault State) p => match r with
      | .error f => .error f
      | .ok s' => flashWrite s' o.id o.colour p.1 [p.2]) (.ok s)
  | .landing, _ => (m.foldl (fun (r : Except HwFault State) p => match r with
      | .error f => .error f
      | .ok s' => landPut s' (p.1 / 2 ^ 22) (p.1 % 2 ^ 22) [p.2]) (.ok s)).map (fun s' =>
      { s' with uncorr := s'.uncorr.filter (fun u => !(u.1 = 3 && (List.range 16).all (fun i => m.any (·.1 == 16 * u.2 + i)))) })
  | .peer, _ => .ok { s with peer := m.foldl (fun h p => h.setByte p.1 p.2) s.peer }

/-! ## Elements of objects -/

/-- An element as a transfer carries it: its bits, its sideband bytes, and whether it came from an uncorrectable unit. -/
structure Elem where
  code : Nat
  side : List Byte
  bad : Bool
deriving DecidableEq, Repr

/-- The tile table a command uses for an object: the one it fixed at its first translation (R248), or the current one. -/
def tableOf (tables : SMap Nat) (o : Obj) : Nat := SMap.get o.ttPtr tables o.id

/-- Read the element at a position. -/
def readElem (s : State) (p : Port) (o : Obj) (tt pos : Nat) (cache : Option Nat) : Except HwFault (Elem × State) :=
  if pos ≥ o.elems then .error (accessFault 4) else
  let (tile, e) := o.place pos
  match tileFor s p .read o tt tile with
  | .error f => .error f
  | .ok t =>
    match tierRead s o t.tier (t.addr + o.elemByte e) ((fmtBits o.fmt + 7) / 8) cache with
    | .error f => .error f
    | .ok (b, bad, s') =>
      let v := natOfBytes b
      let code := if fmtBits o.fmt = 4 then (if e % 2 = 0 then v % 16 else v / 16 % 16) else v
      let (so, sn) := o.sideAt e
      if sn = 0 then .ok (⟨code, [], bad⟩, s')
      else match tierRead s' o t.tier (t.addr + so) sn cache with
        | .error f => .error f
        | .ok (sb, bad', s'') => .ok (⟨code, sb, bad || bad'⟩, s'')

/-- Read elements at consecutive positions. -/
def readElems (p : Port) (o : Obj) (tt : Nat) (cache : Option Nat) : Nat → Nat → State → Except HwFault (List Elem × State)
  | 0, _, s => .ok ([], s)
  | n + 1, pos, s =>
    match readElem s p o tt pos cache with
    | .error f => .error f
    | .ok (e, s') => match readElems p o tt cache n (pos + 1) s' with
      | .error f => .error f
      | .ok (es, s'') => .ok (e :: es, s'')

/-- The bytes that writing an element stores in its tile; a 4-bit element keeps the other nibble of its byte. -/
def elemBytes (o : Obj) (old : Nat → Byte) (acc : SMap Byte) (e : Nat) (v : Elem) : SMap Byte :=
  let at0 := o.elemByte e
  let acc :=
    if fmtBits o.fmt = 4 then
      let b := (SMap.get (old at0) acc at0).toNat
      acc.put at0 (.ofNat 8 (if e % 2 = 0 then b / 16 * 16 + v.code % 16 else b % 16 + v.code % 16 * 16))
    else (bytesAt at0 (bytesOfNat (fmtBits o.fmt / 8) v.code)).foldl (fun m p => m.put p.1 p.2) acc
  let (so, sn) := o.sideAt e
  if sn = 0 then acc else (bytesAt so (v.side.take sn)).foldl (fun m p => m.put p.1 p.2) acc

/-- Write elements of one tile: every byte at its offset, ascending (R262). -/
def writeTile (s : State) (p : Port) (k : AccKind) (o : Obj) (tt tile : Nat) (es : List (Nat × Elem)) (cache : Option Nat) :
    Except HwFault State :=
  match tileFor s p k o tt tile with
  | .error f => .error f
  | .ok t =>
    let oldR := fun off => match tierRead s o t.tier (t.addr + off) 1 cache with
      | .ok (b :: _, _, _) => b
      | _ => 0
    let m := es.foldl (fun acc x => elemBytes o oldR acc x.1 x.2) ([] : SMap Byte)
    tierWrite s o t.tier (m.map (fun x => (t.addr + x.1, x.2))) cache ⟨o.id, tile, t.addr⟩

/-- The tiles a range of positions touches, in ascending order of the least position in each (R262). -/
def tilesTouched (o : Obj) (pos n : Nat) : List Nat := ((List.range n).map (fun i => (o.place (pos + i)).1)).eraseDups

/-- Read a byte range of a one-dimensional UINT8 object for a unit that is not a core. -/
def readObjBytes (s : State) (p : Port) (r : Req) (id off n : Nat) : Except HwFault (List Byte) :=
  match objFor s p r .read id with
  | .error f => .error f
  | .ok o => match readElems p o o.ttPtr none n off s with
    | .error f => .error f
    | .ok (es, _) => if es.any (·.bad) then .error (accessFault 7) else .ok (es.map (fun e => .ofNat 8 e.code))

/-- Write a byte range of a one-dimensional UINT8 object, tile by tile. -/
def writeObjBytes (s : State) (p : Port) (r : Req) (id off : Nat) (bytes : List Byte) : Except HwFault State :=
  match objFor s p r .write id with
  | .error f => .error f
  | .ok o =>
    if off + bytes.length > o.elems then .error (accessFault 4) else
    (tilesTouched o off bytes.length).foldl (fun (acc : Except HwFault State) t => match acc with
      | .error f => .error f
      | .ok s' => writeTile s' p .write o o.ttPtr t
          ((bytes.zipIdx.filter (fun x => (o.place (off + x.2)).1 == t)).map
            (fun x => ((o.place (off + x.2)).2, (⟨x.1.toNat, [], false⟩ : Elem)))) none) (.ok s)

/-! ## Code lines (R61, R86 to R90) -/

/-- A 64-byte line of a code object, fetched for a requester; `fetch` asks for X (R61). An object of another KIND raises NOT_EXEC,
before BOUNDS (DESIGN CHOICE; log entry 82). -/
def codeLine (s : State) (p : Port) (r : Req) (k : AccKind) (obj line : Nat) : Except HwFault (BitVec 512) :=
  match objFor s p r k obj with
  | .error f => .error f
  | .ok o =>
    if o.kind != 1 then .error (accessFault 5)
    else if 64 * line + 64 > o.elems then .error (accessFault 4)
    else match tileFor s p k o o.ttPtr (line / 64) with
      | .error f => .error f
      | .ok t => match tierRead s o t.tier (t.addr + 64 * (line % 64)) 64 none with
        | .error f => .error f
        | .ok (_, true, _) => .error (accessFault 7)
        | .ok (b, false, _) => .ok (.ofNat 512 (natOfBytes b))

/-- 32-bit word `k` of a line. -/
def lineWord (l : BitVec 512) (k : Nat) : BitVec 32 := .ofNat 32 (l.toNat / 2 ^ (32 * k))
/-- Entry slot `j` of a bank or station line (R86). -/
def lineSlot (l : BitVec 512) (j : Nat) : BitVec 64 := .ofNat 64 (l.toNat / 2 ^ (32 + 64 * j))
/-- ENGINE of a link word (R87). -/
def lineEngine (l : BitVec 512) : Nat := bitsOf l.toNat 31 27
/-- KIND of a link word. -/
def lineKind (l : BitVec 512) : Nat := bitsOf l.toNat 26 25
/-- NEXT of a link word. -/
def lineNext (l : BitVec 512) : Nat := bitsOf l.toNat 24 0
/-- NEXT at the end of a chain (R87). -/
def chainEnd : Nat := 0x1FFFFFF

/-- Whether word `k` of a sequencer code line is a bundle start (R95). -/
def bundleStart (l : BitVec 512) (k : Nat) : Bool :=
  decide (1 ≤ k ∧ k ≤ 15) && (k = 1 || (lineWord l (k - 1)).getLsbD 29) && lineWord l k != 0

end Sys2Proof.Machine
end

