-- ==== Sys2Proof/Machine/Ops.lean ====
section
/-!
DEFINITION. The named operations over cores, contexts and crews: register reads and writes in their shadow (spec 09 R122 to
R124), hardware semaphores (R143), interrupts and fault records (spec 27 R365 to R369, 29 R390), service requests (R370,
R371), and `raise`, the one operation by which every core fault is taken (spec 01 R36, 27 R364 to R367, R373).
-/
namespace Sys2Proof.Machine

/-! ## Cores, contexts and crews -/

/-- A core (R18). -/
def State.core (s : State) (c : Nat) : Core := SMap.get {} s.cores c
/-- Replace a core. -/
def State.setCore (s : State) (c : Nat) (k : Core) : State := { s with cores := s.cores.put c k }
/-- Change a core. -/
def State.updCore (s : State) (c : Nat) (f : Core → Core) : State := s.setCore c (f (s.core c))
/-- The core of the instruction that runs. -/
def State.fcore (s : State) : Core := s.core s.focus.core
/-- Change the core of the instruction that runs. -/
def State.updF (s : State) (f : Core → Core) : State := s.updCore s.focus.core f

/-- One of the two contexts of a core (R122). -/
def Core.ctx (k : Core) (fw : Bool) : Ctx := if fw then k.fw else k.prog
/-- Replace a context. -/
def Core.setCtx (k : Core) (fw : Bool) (x : Ctx) : Core := if fw then { k with fw := x } else { k with prog := x }
/-- The context of the instruction that runs. -/
def State.ctx (s : State) : Ctx := s.fcore.ctx s.focus.fw
/-- Change the context of the instruction that runs. -/
def State.updCtx (s : State) (f : Ctx → Ctx) : State := s.updF (fun k => k.setCtx s.focus.fw (f (k.ctx s.focus.fw)))

/-- A crew by its clock number. -/
def State.crew (s : State) (k : Nat) : Option Crew := s.crews.find k
/-- The crew a core runs in (R19). -/
def State.crewOf (s : State) (c : Nat) : Option Crew := (s.core c).crew.bind s.crew
/-- Change a crew, if it exists. -/
def State.updCrew (s : State) (k : Nat) (f : Crew → Crew) : State :=
  match s.crew k with
  | some w => { s with crews := s.crews.put k (f w) }
  | none => s
/-- Change the crew of a core. -/
def State.updCrewOf (s : State) (c : Nat) (f : Crew → Crew) : State :=
  match (s.core c).crew with
  | some k => s.updCrew k f
  | none => s
/-- The crew cycle a core stands at; 0 when no launch runs on it (R137). -/
def State.clock (s : State) (c : Nat) : Nat := ((s.crewOf c).map (·.clock)).getD 0
/-- Whether the crew of a core is frozen or stopped (R21). -/
def State.still (s : State) (c : Nat) : Bool :=
  match s.crewOf c with
  | some w => w.frozen.isSome || w.stopped.isSome
  | none => true
/-- Whether the crew of a core is frozen: by pre-emption, or stopped by a fault (R21). -/
def State.frozen (s : State) (c : Nat) : Bool :=
  match s.crewOf c with
  | some w => w.frozen.isSome || w.stopped == some .faulted
  | none => false

/-- The crew cycle of the instruction that runs. -/
def State.now0 (s : State) : Nat := s.clock s.focus.core

/-! ## Registers and their shadow (R122 to R124) -/

/-- A general register; g0 reads zero. -/
def Ctx.reg (x : Ctx) (r : Reg) : Word := if r = 0 then 0 else SMap.get 0 x.g r.toNat
/-- A predicate; p0 reads 1. -/
def Ctx.preg (x : Ctx) (p : PReg) : Bool := if p = 0 then true else SMap.get false x.p p.toNat
/-- A register of the context that runs. -/
def State.g (s : State) (r : Reg) : Word := s.ctx.reg r
/-- A predicate of the context that runs. -/
def State.p (s : State) (p : PReg) : Bool := s.ctx.preg p

/-- Schedule a write with latency L (R123): the open bundle is number `bundles + 1`. -/
def Ctx.write (x : Ctx) (lat : Nat) (pred : Bool) (i : Nat) (v : Word) : Ctx :=
  { x with pend := x.pend ++ [⟨x.bundles + lat, pred, i, v⟩] }

/-- Land one write; a write to g0 or p0 is discarded. -/
def Ctx.land (x : Ctx) (w : RegWrite) : Ctx :=
  if w.index = 0 then x
  else if w.pred then { x with p := SMap.set false x.p w.index (w.value != 0) }
  else { x with g := SMap.set 0 x.g w.index w.value }

/-- Land the writes due at the current boundary, in issue order (R123; of two that write one register at once the later word's stands, log entry
98). -/
def Ctx.landWrites (x : Ctx) : Ctx :=
  let y := (x.pend.filter (fun w => w.due ≤ x.bundles)).foldl Ctx.land x
  { y with pend := x.pend.filter (fun w => !decide (w.due ≤ x.bundles)) }

/-- Land every write still due, boundary by boundary: after `exit` no bundle issues, and no result is discarded (R29). -/
def Ctx.landAll : Nat → Ctx → Ctx
  | 0, x => x
  | n + 1, x => Ctx.landAll n ({ x with bundles := x.bundles + 1 } : Ctx).landWrites

/-- Schedule a write of a general register of the context that runs. -/
def State.setG (s : State) (lat : Nat) (d : Reg) (v : Word) : State := s.updCtx (·.write lat false d.toNat v)
/-- Schedule a write of a predicate of the context that runs. -/
def State.setP (s : State) (d : PReg) (v : Bool) : State := s.updCtx (·.write 1 true d.toNat (if v then 1 else 0))

/-! ## Partitions (R344) -/

/-- Word n of the block of partition p. -/
def partReg (s : State) (p n : Nat) : Word := s.reg (0xB00 + 16 * p + n)
/-- Whether a partition is enabled. -/
def partOn (s : State) (p : Nat) : Bool := (partReg s p 0).getLsbD 0
/-- Whether a partition holds a core. -/
def partHasCore (s : State) (p c : Nat) : Bool := decide (c < 320) && (partReg s p (1 + c / 64)).getLsbD (c % 64)
/-- The enabled partition that holds a core. -/
def partOfCore (s : State) (c : Nat) : Option Nat := (List.range 16).find? (fun p => partOn s p && partHasCore s p c)
/-- The partition of the work of a core: that of its launch, else the one that holds it. -/
def workPart (s : State) (c : Nat) : Option Nat :=
  match s.crewOf c with
  | some w => some w.part
  | none => partOfCore s c

/-! ## Interrupts (R390) -/

/-- The table entry of a vector; one that cannot be read counts as masked (R54; DESIGN CHOICE, log entry 87). -/
def irqEntry (s : State) (v : Nat) : Nat :=
  match bareRead s (64 * fieldOf (s.reg 0xE00) 39 0 + 16 * v) 16 with
  | .ok b => natOfBytes b
  | .error _ => 2 ^ 96

/-- Deliver or pend a vector. -/
def postIrq (s : State) (v : Nat) : State :=
  let e := irqEntry s v
  let r := 0xE08 + v / 64
  if e / 2 ^ 96 % 2 = 1 then s.setReg r (s.reg r ||| BitVec.ofNat 64 (2 ^ (v % 64)))
  else { s with host := s.host.setBytes (e % 2 ^ 64) (bytesOfNat 4 (e / 2 ^ 64)) }

/-! ## Fault queues (R365 to R369) -/

/-- The queue that takes a record: that of its work's partition, else of the partition that holds its core, else 16; 16 while no
partition is enabled. -/
def recordQueue (s : State) (part core : Option Nat) : Nat :=
  if !(List.range 16).any (partOn s) then 16 else
  match part with
  | some p => p
  | none => match core with
    | some c => (partOfCore s c).getD 16
    | none => 16

/-- Word 1 of a record. -/
def recWord1 (source : Nat) (f : HwFault) (fw ended : Bool) (tag : BitVec 32) : Word :=
  .ofNat 64 (source % 1024 + f.code % 256 * 2 ^ 10 + f.sub % 16 * 2 ^ 18 + (if fw then 2 ^ 22 else 0)
    + (if ended then 2 ^ 23 else 0) + tag.toNat * 2 ^ 32)

/-- Word 2 of a record. -/
def recWord2 (cycle : Nat) (part : Option Nat) : Word := .ofNat 64 (cycle % 2 ^ 48 + part.getD 0 % 16 * 2 ^ 48)

/-- The bytes of a list of words (R5). -/
def bytesOfWords (ws : List Word) : List Byte := (ws.map (fun w => bytesOfNat 8 w.toNat)).flatten

/-- Count a record that is not written (R368). -/
def lostRecord (s : State) (q : Nat) : State :=
  let r := 0xD01 + 4 * q
  let n := fieldOf (s.reg r) 63 32
  s.setReg r (withField (s.reg r) 63 32 (min (n + 1) (2 ^ 32 - 1)))

/-- Write a record of eight words to a fault queue: a whole write of its two bursts with the queue's colour, then TAIL, then
the interrupt (R368, R369). The time stamp moves on with every record, so that a queue's records stand in ascending order
of their stamps (log entry 6). -/
def putRecord (s : State) (q : Nat) (ws : List Word) : State :=
  let cfg := s.reg (0xD01 + 4 * q)
  let lg := fieldOf cfg 4 0
  let tail := fieldOf (s.reg (0xD02 + 4 * q)) 31 0
  let head := fieldOf (s.reg (0xD03 + 4 * q)) 31 0
  let s1 := { s with now := s.now + 1 }
  if !cfg.getLsbD 5 || lg < 4 || lg > 20 || (tail + 2 ^ 32 - head) % 2 ^ 32 = 2 ^ lg then lostRecord s1 q else
  match lpWrite s1 (64 * fieldOf (s.reg (0xD00 + 4 * q)) 39 0 + 64 * (tail % 2 ^ lg)) (bytesOfWords ws)
      (.ofNat 8 (fieldOf cfg 25 18)) with
  | .error _ => lostRecord s1 q
  | .ok s2 =>
    let s3 := s2.setReg (0xD02 + 4 * q) (.ofNat 64 ((tail + 1) % 2 ^ 32))
    if cfg.getLsbD 6 then postIrq s3 (fieldOf cfg 17 7) else s3

/-- The words of a record (R365): at most five arguments follow the three fixed words. -/
def recordWords (s : State) (source : Nat) (f : HwFault) (fw ended : Bool) (tag : BitVec 32) (cycle : Nat) (part : Option Nat)
    (args : List Word) : List Word :=
  ([BitVec.ofNat 64 s.now, recWord1 source f fw ended tag, recWord2 cycle part] ++ args ++ List.replicate 5 0).take 8

/-- Write a record of a unit's work. -/
def record (s : State) (source : Nat) (f : HwFault) (fw ended : Bool) (tag : BitVec 32) (cycle : Nat) (part core : Option Nat)
    (args : List Word) : State :=
  putRecord s (recordQueue s part core) (recordWords s source f fw ended tag cycle part args)

/-! ## Taking a core fault (R36, R152, R364 to R367, R373) -/

/-- ARG0 of a core fault (R367): ENGINE, an operand field, lane or position, and an array, slot or semaphore. -/
def coreArg0 (engine field unit : Nat) : Word := .ofNat 64 (engine % 32 + field % 64 * 2 ^ 5 + unit % 32 * 2 ^ 11)

/-- ARG3 of a core fault: the line and word of the entry or bundle. -/
def coreArg3 (o : Origin) : Word := .ofNat 64 (o.line % 2 ^ 25 + o.word % 16 * 2 ^ 25)

/-- The status that two happenings give together (R14): the first of a cancel and a fault stands; a partial completion
counts where there is neither. -/
def joinStatus : Status → Status → Status
  | .cancelled, _ => .cancelled
  | .faulted, _ => .faulted
  | _, .cancelled => .cancelled
  | _, .faulted => .faulted
  | .part, _ => .part
  | _, .part => .part
  | _, _ => .done

/-- Note what happened to a member of an instance, while the instance runs (R14). -/
def markInst (s : State) (i : Nat) (m : Status) : State :=
  match s.insts.find i with
  | some t => if t.status = .running then { s with insts := s.insts.put i { t with mark := joinStatus t.mark m } } else s
  | none => s

/-- Note what happened to the instance that a record runs. -/
def markRec (s : State) (r : Nat) (m : Status) : State :=
  match (s.recs.find r).bind (·.inst) with
  | some i => markInst s i m
  | none => s

/-- A hold ends: one of 1,024 core cycles or more leaves a record if HOLD_LOG asks for it (R35). -/
def endHold (crew : Nat) (s : State) : State :=
  match s.crew crew with
  | some w =>
    match w.hold with
    | some (cause, n) =>
      let s1 := if (s.core w.leader).holdLog && decide (1024 ≤ n) then
          record s w.leader ⟨0x40, cause, 0⟩ false false (s.core w.leader).tag w.clock (some w.part) (some w.leader)
            [.ofNat 64 cause, .ofNat 64 n]
        else s
      s1.updCrew crew (fun w => { w with hold := none })
    | none => s
  | none => s

/-- Stop a crew (R15, R36): its launch is to end with the status, unless it is already to end otherwise; a hold ends with it. -/
def stopCrew (s : State) (k : Nat) (m : Status) : State :=
  match s.crew k with
  | some w => if w.stopped.isSome then s else markRec ((endHold k s).updCrew k (fun w => { w with stopped := some m })) w.record m
  | none => s

/-- Clear the bit of a core in CORE_ONLINE (R398). The service that its firmware context had in progress waits in its queue to begin anew
when the core is back (R373; DESIGN CHOICE, log entry 91). -/
def takeOffline (c : Nat) (s : State) : State :=
  let r := 0xE50 + c / 64
  (s.setReg r (s.reg r &&& ~~~(BitVec.ofNat 64 (2 ^ (c % 64))))).updCore c (fun k => { k with fwq := k.svc.toList ++ k.fwq, svc := none })

/-- A fault of the core that runs, with its first three arguments. The core writes one record for the cycle; a launch that
runs on the core is stopped to end FAULTED; a firmware context outside a launch goes offline with its core. -/
def raiseWith (f : HwFault) (a0 a1 a2 a3 : Word) (s : State) : State :=
  let c := s.focus.core
  let k := s.core c
  if k.faulted.isSome then s else
  let crew := s.crewOf c
  let tag := if crew.isSome then k.tag else 0
  let s1 := record s c f s.focus.fw crew.isSome tag (s.clock c) (crew.map (·.part)) (some c) [a0, a1, a2, a3]
  let s2 := s1.updCore c (fun k => { k with faulted := some f })
  match k.crew, crew with
  | some n, some _ => stopCrew s2 n .faulted
  | _, _ => takeOffline c s2

/-- A core fault of the entry, command or bundle in focus: `field` and `unit` are what ARG0 names. -/
def raise (f : HwFault) (field unit : Nat) (s : State) : State :=
  raiseWith f (coreArg0 s.focus.org.engine field unit) s.focus.org.w0 s.focus.org.w1 (coreArg3 s.focus.org) s

/-- ALLOT_USE (R27). -/
def allotUse : HwFault := { code := 0x0C, sub := 5 }
/-- A TIMING fault (R36). -/
def timing (sub : Nat) : HwFault := { code := 0x01, sub := sub }
/-- A SEQ fault (R152). -/
def seqFault (sub : Nat) : HwFault := { code := 0x04, sub := sub }
/-- An MX fault (R217). -/
def mxFault (sub : Nat) : HwFault := { code := 0x07, sub := sub }
/-- A KILN fault (R236). -/
def kilnFault (sub : Nat) : HwFault := { code := 0x08, sub := sub }
/-- A CMD_BAD fault (R104). -/
def cmdBad (sub : Nat) : HwFault := { code := 0x03, sub := sub }
/-- A POISON fault (R167). -/
def poisonFault (sub : Nat) : HwFault := { code := 0x06, sub := sub }
/-- A CHAIN fault (R364). -/
def chainFault (sub : Nat) : HwFault := { code := 0x0D, sub := sub }

/-- Ask for a hold of the crew in the current cycle (R31); the lowest cause code is kept (R33). -/
def askHold (cause : Nat) (s : State) : State :=
  s.updF (fun k => { k with ask := some (match k.ask with | some a => min a cause | none => cause) })

/-! ## The allotment (R23, R27) -/

/-- Whether the launch of the core that runs reserves bit `n` of a mask. -/
def hasBit {w : Nat} (mask : LaunchRecordF → BitVec w) (n : Nat) (s : State) : Bool :=
  match s.crewOf s.focus.core with
  | some k => (mask k.allot).getLsbD n
  | none => false

/-- Whether the semaphore is reserved. -/
def hasHsem (n : Nat) (s : State) : Bool := hasBit LaunchRecordF.hsemMask n s
/-- Whether the bank is reserved. -/
def hasBank (n : Nat) (s : State) : Bool := hasBit LaunchRecordF.bankMask n s
/-- Whether the accumulator is reserved. -/
def hasAcc (n : Nat) (s : State) : Bool := hasBit LaunchRecordF.accMask n s
/-- Whether the slot is reserved. -/
def hasSlot (n : Nat) (s : State) : Bool := hasBit LaunchRecordF.slotMask n s
/-- Whether the kiln array is reserved. -/
def hasKiln (n : Nat) (s : State) : Bool := hasBit LaunchRecordF.kilnMask n s

/-! ## Hardware semaphores (R143) -/

/-- The value of a hardware semaphore. -/
def Core.h (k : Core) (n : Nat) : BitVec 16 := SMap.get 0 k.hsem n

/-- Schedule a change of a semaphore of a core. -/
def hsemChange (s : State) (core : Nat) (ch : HsemChange) : State :=
  s.updCore core (fun k => { k with hsemPend := k.hsemPend ++ [ch] })

/-- Add a sum to one semaphore, clamped to 0 to 0xFFFF; clamping sets HSEM_SAT. -/
def Core.addHsem (k : Core) (n : Nat) (d : Int) : Core :=
  let v : Int := (k.h n).toNat + d
  let c := clampInt 0 65535 v
  let nv : BitVec 16 := .ofNat 16 c.toNat
  { k with hsem := SMap.set 0 k.hsem n nv,
           hsemSat := if c = v then k.hsemSat else k.hsemSat ||| BitVec.ofNat 32 (2 ^ n),
           hsemHit := if c = v then k.hsemHit else k.hsemHit ||| BitVec.ofNat 32 (2 ^ n),
           hsemMoved := k.hsemMoved || nv != k.h n,
           fwMoved := k.fwMoved || nv != k.h n }

/-- Count the changes that a condition selects: the exact sum of each semaphore's changes is added and clamped (R143). -/
def Core.countSel (sel : HsemChange → Bool) (k : Core) : Core :=
  let due := k.hsemPend.filter sel
  let k' := { k with hsemPend := k.hsemPend.filter (fun c => !sel c) }
  (List.range 32).foldl (fun k n =>
    if due.any (fun c => c.h == n) then k.addHsem n ((due.filter (fun c => c.h == n)).map (·.delta)).sum else k) k'

/-- Count the changes due at a crew cycle. -/
def Core.countHsem (k : Core) (clock : Nat) : Core := k.countSel (fun c => decide (c.due ≤ clock))

/-- Count the changes that take effect while the crew is frozen: those due, and every `hsig` made before the freeze (R32, R363). -/
def Core.countFrozen (k : Core) (clock : Nat) : Core := k.countSel (fun c => decide (c.due ≤ clock) || c.src.isSome)

/-- The comparison of `hwait` and of matrix waits (R99, R145). -/
def hsemHolds (op v w : Nat) : Bool :=
  match op with
  | 0 => decide (w ≤ v)
  | 1 => v == w
  | 2 => v != w
  | _ => decide (v < w)

/-! ## Effects that land later, and port uses (R161, R163) -/

/-- Schedule an effect of the entry in focus. -/
def State.later (s : State) (due : Nat) (e : Eff) : State :=
  s.updF (fun k => { k with pend := k.pend ++ [⟨due, s.focus.org, e⟩] })

/-- Unit positions: banks at even positions, stations at odd ones (R157). `u` is a stream number: 0 to 7 banks, 8 to 15
stations. -/
def posOf (u : Nat) : Nat := if u < 8 then 2 * u else 2 * (u - 8) + 1

/-- Uses allowed in a cycle: kind 0 a tap, 1 a put, 2 a write (R161); a bank's taps are not limited. -/
def useLimit (u kind : Nat) : Nat :=
  if u < 8 then (match kind with | 1 => 2 | 2 => 1 | _ => 64) else (match kind with | 0 => 2 | _ => 1)

/-- Count a port use of a unit; PORT_OVER beyond its limit (R161). -/
def countUse (u kind : Nat) (s : State) : State :=
  let n := s.fcore.uses.count (4 * u + kind)
  if n < useLimit u kind then s.updF (fun k => { k with uses := (4 * u + kind) :: k.uses })
  else raise (timing 5) (posOf u) 0 s

/-! ## Service requests (R370, R371) -/

/-- The lowest suspension number free, from 1 to 65,535 (R371). -/
def lowestSusp (s : State) : Option Nat :=
  ((List.range (min 65535 (s.susps.length + 1))).map (· + 1)).find? (fun n => (s.susps.find n).isNone)

/-- The number that a new fault receives: none while other faults wait for one (R371). -/
def freeSusp (s : State) : Option Nat := if s.suspWait.isEmpty then lowestSusp s else none

/-- A fault takes its place among those that wait for a number: ascending by time stamp and source. -/
def insertWait (w : SuspWait) : List SuspWait → List SuspWait
  | [] => [w]
  | x :: xs => if w.stamp < x.stamp ∨ (w.stamp = x.stamp ∧ w.source < x.source) then w :: x :: xs else x :: insertWait w xs

/-- A translation fault that finds every number in use waits (R371). -/
def waitSusp (source : Nat) (who : Susp) (f : HwFault) (place : Where) (s : State) : State :=
  { s with suspWait := insertWait ⟨s.nextId, s.now, source, who, f, place⟩ s.suspWait, nextId := s.nextId + 1 }

/-- What a record, queue or walk holds in place of a number while its fault waits for one. -/
def waitMark : Nat := 65536

/-- Queue a request for the firmware context of a core. -/
def request (s : State) (core : Nat) (r : FwReq) : State := s.updCore core (fun k => { k with fwq := k.fwq ++ [r] })

/-- The group of a request in the order of service (R370). -/
def FwReq.group (r : FwReq) : Nat := if r.kind = 5 || r.kind = 6 then 0 else if r.kind = 1 || r.kind = 2 then 1 else 2

/-- Whether a request is served before another. -/
def FwReq.before (a b : FwReq) : Bool :=
  a.group < b.group || (a.group == b.group && (a.stamp < b.stamp || (a.stamp == b.stamp && a.source < b.source)))

/-- The request served first: the earliest of those that none precedes. -/
def nextReq : List FwReq → Option FwReq
  | [] => none
  | r :: rs => match nextReq rs with
    | none => some r
    | some b => some (if b.before r then b else r)

/-- Whether the crew of a core holds for a TRAP or FETCH of that core (R370). -/
def Core.fwHolds (k : Core) : Bool := (k.fwq.any (fun r => r.group = 1)) || (match k.svc with | some r => r.group = 1 | none => false)

/-- Whether the firmware context has work (R121). -/
def Core.fwWork (k : Core) : Bool := k.svc.isSome

end Sys2Proof.Machine
end

