-- ==== Sys2Proof/Machine/VecOps.lean ====
section
/-!
DEFINITION. What the vector stations compute, as functions of rows (spec 05 R78 to R84, 11 R174 to R192): VA and VB, SF, PX
and RD. Faults of an operand are the first component; the stations' timing is in `Machine/Ops.lean`.
-/
namespace Sys2Proof.Machine

/-- A source operand as an entry sees it (R164): a row, the immediate, a row of zeros, or none. -/
inductive Src where
  | row (r : Row)
  | imm (v : BitVec 16)
  | zero
  | none
deriving DecidableEq, Repr

/-- STN fault of R165. -/
def stnFault (sub : Nat) : HwFault := { code := 0x05, sub := sub }

/-- The tag check of R164: a bounded row where it is not admitted raises TYPE BOUNDED_OP, an exact one STN TAG. -/
def Src.accepts (s : Src) (ok : Fmt → Bool) : Option HwFault :=
  match s with
  | .row r => if ok r.tag then Option.none else if fmtBounded r.tag then some (typeFault 0) else some (stnFault 0)
  | _ => Option.none

/-- Whether the operand is poisoned. -/
def Src.poison : Src → Bool
  | .row r => r.poison
  | _ => false

/-- The bound of the operand as an exact value; zero where it is exact (R81). -/
def Src.bound : Src → Val
  | .row r => fp32.decode r.bound
  | _ => Val.zero

/-- The exact value of element `i` of an operand under a TYPE (R164). -/
def Src.val (cbs : List (BitVec 256)) (ty : Fmt) (s : Src) (i : Nat) : Val :=
  match s with
  | .row r => r.val cbs i
  | .imm v => if fmtInt ty then Val.ofInt (if ty = .ui8 then (v.toNat : Int) else v.toInt) else bf16F.decode v.toNat
  | .zero => Val.zero
  | .none => Val.zero

/-- Element `i` as an integer under an integer TYPE. -/
def Src.int (ty : Fmt) (s : Src) (i : Nat) : Int := (s.val [] ty i).toInt

/-- The bits of element `i` under a TYPE. An immediate that the format cannot hold has no bits of its own. -/
def Src.bits (ty : Fmt) (s : Src) (i : Nat) : Nat :=
  match s with
  | .row r => fieldAt (fmtBits ty) r.data i
  | .imm v =>
    match fmtFloat ty with
    | some ff =>
      let x := bf16F.decode v.toNat
      let c := ff.conv .rne false 0 x
      if x.isNan || ff.decode c = x || Val.eqv (ff.decode c) x then c
      else Config.immBits ff.bits v % 2 ^ fmtBits ty
    | Option.none => if ty = .ui8 then v.toNat % 256 else wrapTo (fmtBits ty) v.toInt
  | .zero => 0
  | .none => 0

/-- The row an operand is, where one is needed. -/
def Src.toRow (ty : Fmt) (s : Src) : Row :=
  match s with
  | .row r => r
  | _ => ⟨ofFields (fmtBits ty) ((List.range (fmtElems ty)).map (s.bits ty)), ty, false, 0⟩

/-- Any poison among operands. -/
def anyPoison (l : List Src) : Bool := l.any Src.poison

/-- An integer row of TYPE, each element kept modulo 2^w (R174). -/
def intRow (ty : Fmt) (poison : Bool) (f : Nat → Int) : Row :=
  rowOf ty ((List.range (fmtElems ty)).map (fun i => wrapTo (fmtBits ty) (f i))) [] poison

/-- A row of TYPE rounded from exact values, one draw for each under SR (R174). -/
def floatRow (ty : Fmt) (rd : Rounding) (poison : Bool) (f : Nat → Val) : Row × Rounding :=
  let (cs, ss, rd') := encodeVals ty rd ((List.range (fmtElems ty)).map f)
  (rowOf ty cs ss poison, rd')

/-- Element by element over TYPE: an exact value rounded for a float TYPE, an integer wrapped for an integer TYPE. -/
def elemRow (ty : Fmt) (rd : Rounding) (poison : Bool) (fv : Nat → Val) (fi : Nat → Int) : Row × Rounding :=
  if fmtInt ty then (intRow ty poison fi, rd) else floatRow ty rd poison fv

/-- The largest magnitude among the elements of an exact operand (R81). -/
def maxAbs (n : Nat) (f : Nat → Val) : Val :=
  (List.range n).foldl (fun acc i =>
    match acc, f i with
    | .nan, _ => .nan
    | _, .nan => .nan
    | a, v => if Val.lt a v.abs then v.abs else a) Val.zero

/-- A BF32 result with its bound: `bnd` gives the exact bound from the error `ε` of the rounding (R81); where it is not a
number although every element is finite, the value is open. -/
def boundedRow (rd : Rounding) (poison : Bool) (fv : Nat → Val) (bnd : Val → Val) (seed : Nat × Nat) : Row × Rounding :=
  let vs := (List.range 32).map fv
  let (cs, _, rd') := encodeVals .bf32 rd vs
  let rs := cs.map fp32.decode
  let b := bnd (maxErr vs rs)
  let code :=
    if rs.any (fun v => !v.isFin) then 0x7F800000
    else if b.isNan then min (Config.openBound seed.1 seed.2).toNat 0x7F800000
    else rup32 b
  ({ rowOf .bf32 cs [] poison with side := .ofNat 64 code }, rd')

/-- A number that names an operand's bytes, for open values. -/
def Src.seed : Src → Nat
  | .row r => r.data.toNat
  | .imm v => v.toNat
  | _ => 0

/-- The admitted tags of an operand under TYPE: TAG = TYPE, and FP32 beside BF32 where R179 says so. -/
def tagsB (ty tag : Fmt) : Bool := tag = ty || (ty = .bf32 && tag = .f32)

/-- First fault of a list of checks of operands, marked with its place in the list: 1 for SA, 2 for SB, 3 for a third row. -/
def firstFault (l : List (Option HwFault)) : Option HwFault :=
  l.zipIdx.findSome? (fun p => p.1.map (fun f => { f with which := p.2 + 1 }))

/-- A fault of two operands that do not go together, which names the second. -/
def clash (bad : Bool) (f : HwFault) : Option HwFault := if bad then some { f with which := 2 } else Option.none

/-- `vadd`, `vsub` (R174, R179). -/
def rowAddSub (isSub : Bool) (ty : Fmt) (rd : Rounding) (a b : Src) : Except HwFault (Row × Rounding) :=
  match firstFault [a.accepts (tagsB ty), b.accepts (tagsB ty)] with
  | some f => .error f
  | Option.none =>
    let fv := fun i => (if isSub then Val.sub rd.mode else Val.add rd.mode) (a.val [] ty i) (b.val [] ty i)
    let p := a.poison || b.poison
    if ty = .bf32 then
      .ok (boundedRow rd p fv (fun e => Val.add .rne (Val.add .rne a.bound b.bound) e) (a.seed, b.seed))
    else .ok (elemRow ty rd p fv (fun i => if isSub then a.int ty i - b.int ty i else a.int ty i + b.int ty i))

/-- Whether an operand is a bounded row. -/
def Src.isBounded : Src → Bool
  | .row r => fmtBounded r.tag
  | _ => false

/-- `vmul` (R174, R179): at most one operand is bounded. -/
def rowMul (ty : Fmt) (rd : Rounding) (a b : Src) : Except HwFault (Row × Rounding) :=
  match firstFault [a.accepts (tagsB ty), b.accepts (tagsB ty)] <|> clash (a.isBounded && b.isBounded) (typeFault 0) with
  | some f => .error f
  | Option.none =>
    let fv := fun i => Val.mul (a.val [] ty i) (b.val [] ty i)
    let p := a.poison || b.poison
    if ty = .bf32 then
      let (bd, y) := if b.isBounded then (b.bound, a) else (a.bound, b)
      .ok (boundedRow rd p fv (fun e => Val.add .rne (Val.mul bd (maxAbs 32 (y.val [] ty))) e) (a.seed, b.seed))
    else .ok (elemRow ty rd p fv (fun i => a.int ty i * b.int ty i))

/-- `vfma`, `vfms` (R177): `d ± a · b` rounded once. -/
def rowFma (isSub : Bool) (init : Bool) (ty : Fmt) (rd : Rounding) (d a b : Src) : Except HwFault (Row × Rounding) :=
  match firstFault [a.accepts (· = ty), b.accepts (· = ty), if init then Option.none else d.accepts (· = ty)] with
  | some f => .error f
  | Option.none =>
    let d := if init then .zero else d
    .ok (floatRow ty rd (a.poison || b.poison || d.poison) (fun i =>
      let t := Val.mul (a.val [] ty i) (b.val [] ty i)
      Val.add rd.mode (d.val [] ty i) (if isSub then t.neg else t)))

/-- The smaller of two values; NaN if either is NaN; −0 below +0 (R174). -/
def vminVal (a b : Val) : Val := if a.isNan || b.isNan then .nan else if Val.ltz b a then b else a

/-- The larger of two values (R174). -/
def vmaxVal (a b : Val) : Val := if a.isNan || b.isNan then .nan else if Val.ltz a b then b else a

/-- `vmin`, `vmax` (R174, R179). -/
def rowMinMax (isMax : Bool) (ty : Fmt) (rd : Rounding) (a b : Src) : Except HwFault (Row × Rounding) :=
  match firstFault [a.accepts (tagsB ty), b.accepts (tagsB ty)] with
  | some f => .error f
  | Option.none =>
    let fv := fun i => (if isMax then vmaxVal else vminVal) (a.val [] ty i) (b.val [] ty i)
    let p := a.poison || b.poison
    if ty = .bf32 then
      .ok (boundedRow rd p fv (fun _ => if Val.lt a.bound b.bound then b.bound else a.bound) (a.seed, b.seed))
    else .ok (elemRow ty rd p fv (fun i => if isMax then max (a.int ty i) (b.int ty i) else min (a.int ty i) (b.int ty i)))

/-- `vabs` and `vneg` (R174). -/
def rowUnary (fv : Val → Val) (fi : Int → Int) (ty : Fmt) (rd : Rounding) (a : Src) : Except HwFault (Row × Rounding) :=
  match firstFault [a.accepts (· = ty)] with
  | some f => .error f
  | Option.none => .ok (elemRow ty rd a.poison (fun i => fv (a.val [] ty i)) (fun i => fi (a.int ty i)))

/-- `vand vor vxor` and, with one operand used, `vnot`: bitwise on the element bits (R174). -/
def rowBitwise (op : Nat → Nat → Nat) (ty : Fmt) (rd : Rounding) (a b : Src) : Except HwFault (Row × Rounding) :=
  match firstFault [a.accepts (· = ty), b.accepts (· = ty)] with
  | some f => .error f
  | Option.none =>
    .ok (rowOf ty ((List.range (fmtElems ty)).map (fun i => op (a.bits ty i) (b.bits ty i))) [] (a.poison || b.poison), rd)

/-- The shift count of element `i`: the low 8 bits of b's element (R174). -/
def shiftCount (ty : Fmt) (b : Src) (i : Nat) : Nat := b.bits ty i % 256

/-- An integer operation with a count. -/
def rowShift (f : Int → Nat → Int) (ty : Fmt) (rd : Rounding) (a b : Src) : Except HwFault (Row × Rounding) :=
  match firstFault [a.accepts (· = ty), b.accepts (· = ty)] with
  | some g => .error g
  | Option.none => .ok (intRow ty (a.poison || b.poison) (fun i => f (a.int ty i) (shiftCount ty b i)), rd)

/-- A left shift, 0 from the width on. -/
def shlInt (w : Nat) (a : Int) (k : Nat) : Int := if k ≥ w then 0 else a * (2 ^ k : Nat)
/-- A logical right shift, 0 from the width on, of an exact value (R164): a negative one shifts as its `w` bits, which are open for an
immediate that `w` bits cannot hold (log entry 10). -/
def shrInt (w : Nat) (a : Int) (k : Nat) : Int :=
  if k ≥ w then 0
  else if 0 ≤ a then a / (2 ^ k : Nat)
  else if -(2 ^ (w - 1) : Nat) ≤ a then (wrapTo w a / 2 ^ k : Nat)
  else (Config.immBits w (.ofInt 16 a) % 2 ^ w / 2 ^ k : Nat)
/-- An arithmetic right shift, the sign from the width on. -/
def sarInt (w : Nat) (a : Int) (k : Nat) : Int := if k ≥ w then (if a < 0 then -1 else 0) else a / (2 ^ k : Nat)
/-- A rounding right shift, computed exactly. -/
def rshrInt (a : Int) (k : Nat) : Int := if k = 0 then a else (a + (2 ^ (k - 1) : Nat)) / (2 ^ k : Nat)

/-- `vaddsat`, `vsubsat` (R174). -/
def rowSat (isSub : Bool) (ty : Fmt) (rd : Rounding) (a b : Src) : Except HwFault (Row × Rounding) :=
  match firstFault [a.accepts (· = ty), b.accepts (· = ty)] with
  | some g => .error g
  | Option.none =>
    let (lo, hi) := intRange ty
    .ok (intRow ty (a.poison || b.poison) (fun i =>
      clampInt lo hi (if isSub then a.int ty i - b.int ty i else a.int ty i + b.int ty i)), rd)

/-- `vclamp` (R174). -/
def rowClamp (sym : Bool) (ty : Fmt) (rd : Rounding) (a b : Src) : Except HwFault (Row × Rounding) :=
  match firstFault [a.accepts (· = ty), b.accepts (· = ty)] with
  | some g => .error g
  | Option.none =>
    .ok (elemRow ty rd (a.poison || b.poison)
      (fun i => let x := a.val [] ty i; let y := b.val [] ty i
        vminVal (vmaxVal x (if sym then y.neg else Val.zero)) y)
      (fun i => let x := a.int ty i; let y := b.int ty i
        min (max x (if sym then -y else 0)) y))

/-- A UINT8 mask row from the bytes of its first `n` elements (R175). -/
def maskRowOf (n : Nat) (poison : Bool) (f : Nat → Nat) : Row :=
  rowOf .ui8 ((List.range n).map f) [] poison

/-- A relation of R175 on exact values, as IEEE 754 compares. -/
def relHolds (rel : Nat) (x y : Val) : Bool :=
  match rel with
  | 0 => Val.eqv x y
  | 1 => !Val.eqv x y
  | 2 => Val.lt x y
  | 3 => Val.le x y
  | 4 => Val.lt y x
  | _ => Val.le y x

/-- `vcmp` (R175). -/
def rowCmp (rel : Nat) (ty : Fmt) (rd : Rounding) (a b : Src) : Except HwFault (Row × Rounding) :=
  match firstFault [a.accepts (· = ty), b.accepts (· = ty)] with
  | some g => .error g
  | Option.none =>
    .ok (maskRowOf (fmtElems ty) (a.poison || b.poison) (fun i =>
      if relHolds rel (a.val [] ty i) (b.val [] ty i) then 0xFF else 0), rd)

/-- The difference of two extended reals, infinities of one sign differing by 0 (R83). -/
def extSub (a b : Val) : Val :=
  match a, b with
  | .inf x, .inf y => if x = y then Val.zero else .inf x
  | _, _ => Val.sub .rne a b

/-- The interval `[a − b, a + b]` of a value with its bound; the whole line where both are infinite (R82). -/
def interval (a b : Val) : Val × Val :=
  match b with
  | .inf _ => (.inf true, .inf false)
  | _ => (Val.sub .rne a b, Val.add .rne a b)

/-- The outcome of a relation with margin over two intervals (R82, R175): 0xFF, 0x00 or 0x80. -/
def relMargin (rel : Nat) (x y : Val × Val) (m : Val) : Nat :=
  let tri (all some : Bool) : Nat := if all then 0xFF else if some then 0x80 else 0
  let below := Val.sub .rne y.1 m
  let belowMax := Val.sub .rne y.2 m
  let above := Val.add .rne y.2 m
  let aboveMin := Val.add .rne y.1 m
  let near := Val.le (extSub x.2 y.1) m && Val.le (extSub y.2 x.1) m
  let meets := Val.le (extSub x.1 y.2) m && Val.le (extSub y.1 x.2) m
  match rel with
  | 0 => tri near meets
  | 1 => tri (!meets) (!near)
  | 2 => tri (Val.lt x.2 below) (Val.lt x.1 belowMax)
  | 3 => tri (Val.le x.2 below) (Val.le x.1 belowMax)
  | 4 => tri (Val.lt above x.1) (Val.lt aboveMin x.2)
  | _ => tri (Val.le above x.1) (Val.le aboveMin x.2)

/-- `vcmpb` (R175, R179, R82). -/
def rowCmpb (rel margin : Nat) (ty : Fmt) (rd : Rounding) (a b : Src) : Except HwFault (Row × Rounding) :=
  match firstFault [a.accepts (tagsB ty), b.accepts (tagsB ty)] with
  | some g => .error g
  | Option.none =>
    let m := e4m3F.decode margin
    .ok (maskRowOf 32 (a.poison || b.poison) (fun i =>
      let x := a.val [] ty i
      let y := b.val [] ty i
      if x.isNan || y.isNan then 0x80 else relMargin rel (interval x a.bound) (interval y b.bound) m), rd)

/-- `vsel` (R176): `mask` is the operand-file row MOF. -/
def rowSel (amb : Bool) (ty : Fmt) (rd : Rounding) (mask : Row) (a b : Src) : Except HwFault (Row × Rounding) :=
  match firstFault [a.accepts (· = ty), b.accepts (· = ty), (Src.row mask).accepts (· = .ui8)] with
  | some g => .error g
  | Option.none =>
    let pick (i : Nat) : Src := match mask.byte i with
      | 0 => b
      | 0x80 => if amb then a else b
      | _ => a
    .ok (elemRow ty rd (a.poison || b.poison || mask.poison) (fun i => (pick i).val [] ty i) (fun i => (pick i).int ty i))

/-- A BF32 row with a NaN or infinite element has the bound +∞ (R81). -/
def Row.infBound (r : Row) : Row :=
  if r.tag = .bf32 ∧ r.codes.any (fun c => !(fp32.decode c).isFin) = true then { r with side := .ofNat 64 0x7F800000 } else r

/-- `vmov` (R174, R179): a row passes whole, with its own tag and SIDE; IMM and ZERO make a row of TYPE, rounded in the stream's mode. -/
def rowMov (ty : Fmt) (rd : Rounding) (a : Src) : Except HwFault (Row × Rounding) :=
  match firstFault [a.accepts (tagFits ty)] with
  | some g => .error g
  | Option.none => match a with
    | .row r => .ok (r, rd)
    | _ => let (r, rd') := elemRow ty rd false (a.val [] ty) (a.int ty); .ok (r.infBound, rd')

/-- `vmac` (R177): 32 products of group Q added into an INT32 row. -/
def rowMac (q : Nat) (init : Bool) (ty : Fmt) (rd : Rounding) (d a b : Src) : Except HwFault (Row × Rounding) :=
  let bOk : Fmt → Bool := fun t => if ty = .i8 || ty = .ui8 then t = .i8 || t = .ui8 else t = ty
  match firstFault [a.accepts (· = ty), b.accepts bOk, if init then Option.none else d.accepts (· = .i32)] with
  | some g => .error g
  | Option.none =>
    let d := if init then .zero else d
    .ok (intRow .i32 (a.poison || b.poison || d.poison) (fun j =>
      d.int .i32 j + a.int ty (32 * q + j) * b.int ty (32 * q + j)), rd)

/-- `vscale` (R179): `a · S · b` in BF32. -/
def rowScaleOp (rd : Rounding) (a b : Src) : Except HwFault (Row × Rounding) :=
  match firstFault [a.accepts (fun t => t = .bi16 || t = .bf32), b.accepts (· = .f32)] with
  | some g => .error g
  | Option.none =>
    let s : Val := match a with
      | .row r => if r.tag = .bi16 then fp32.decode r.rowScale else Val.one
      | _ => Val.one
    .ok (boundedRow rd (a.poison || b.poison) (fun i => Val.mul (Val.mul (a.val [] .bf32 i) s) (b.val [] .bf32 i))
      (fun e => Val.add .rne (Val.mul (Val.mul a.bound s.abs) (maxAbs 32 (b.val [] .bf32))) e) (a.seed, b.seed))

/-- `vcvt` (R178). `lane` says that DST is a lane, which a partial conversion does not accept. -/
def rowCvt (cbs : List (BitVec 256)) (cbPoison : List Bool) (part : Nat) (init lane : Bool) (ty : Fmt) (rd : Rounding) (d a : Src) :
    Except HwFault (Row × Rounding) :=
  match firstFault [a.accepts (fun t => !fmtBounded t)] with
  | some g => .error g
  | Option.none =>
    let tag := match a with
      | .row r => r.tag
      | _ => ty
    let taint := match a with
      | .row r => cbTaint cbPoison r
      | _ => false
    let ns := fmtElems tag
    let nd := fmtElems ty
    if ns ≥ nd then
      if part ≥ ns / nd then .error { typeFault 4 with which := 1 } else
      let (cs, ss, rd') := encodeVals ty rd ((List.range nd).map (fun i => a.val cbs ty (part * nd + i)))
      .ok (rowOf ty cs ss (a.poison || taint), rd')
    else
      if lane then .error { stnFault 0 with which := 3 } else
      match (if init then Option.none else d.accepts (tagFits ty)) with
      | some g => .error { g with which := 3 }
      | Option.none =>
        if part ≥ nd / ns then .error { typeFault 4 with which := 1 } else
        let old := if init then Row.zero ty else d.toRow ty
        let (cs, ss, rd') := encodeVals ty rd ((List.range ns).map (fun i => a.val cbs ty i))
        .ok (rowOf ty (splice old.codes (part * ns) cs) (splice old.scales (part * ns / 32) ss)
          (a.poison || taint || (!init && old.poison)), rd')

/-- The source formats that `vpack` takes for a result format (R178). -/
def packFrom : Fmt → List Fmt
  | .bf16 => [.f32] | .f16 => [.f32] | .e4m3 => [.bf16, .f16] | .e5m2 => [.bf16, .f16]
  | .i16 => [.i32] | .i8 => [.i16] | .ui8 => [.i16] | _ => []

/-- `vpack` (R178): a and b carry one tag. -/
def rowPack (ty : Fmt) (rd : Rounding) (a b : Src) : Except HwFault (Row × Rounding) :=
  let ok := fun t => (packFrom ty).contains t
  let same : Bool := match a, b with
    | .row x, .row y => x.tag == y.tag
    | _, _ => true
  match firstFault [a.accepts ok, b.accepts ok] <|> clash (!same) (stnFault 0) with
  | some g => .error g
  | Option.none =>
    let h := fmtElems ty / 2
    let vs := (List.range (fmtElems ty)).map (fun i => if i < h then a.val [] ty i else b.val [] ty (i - h))
    let (cs, ss, rd') := encodeVals ty rd vs
    .ok (rowOf ty cs ss (a.poison || b.poison), rd')

/-- The source formats that `vunpack` takes for a result format (R178). -/
def unpackFrom (ty t : Fmt) : Bool := (packFrom t).contains ty

/-- `vunpack` (R178). -/
def rowUnpack (half : Nat) (ty : Fmt) (rd : Rounding) (a : Src) : Except HwFault (Row × Rounding) :=
  match firstFault [a.accepts (unpackFrom ty)] with
  | some g => .error g
  | Option.none => .ok (floatRow ty rd a.poison (fun i => a.val [] ty (half * fmtElems ty + i)))

/-- `viota` (R174): base + i, rounded or wrapped to TYPE. -/
def rowIota (ty : Fmt) (rd : Rounding) (a : Src) : Row × Rounding :=
  elemRow ty rd false (fun i => Val.add rd.mode (a.val [] ty 0) (Val.ofInt i)) (fun i => a.int ty 0 + i)

/-- `vaccept` (R179, R84): the same elements as an exact row. -/
def rowAccept (ty : Fmt) (rd : Rounding) (a : Src) : Except HwFault (Row × Rounding) :=
  match firstFault [a.accepts (fun t => if ty = .i16 then t = .bi16 else t = .bf32)] with
  | some g => .error g
  | Option.none => .ok ({ a.toRow ty with tag := ty, side := 0 }, rd)

/-- An SF entry (R180): an FP32 function applied to each element, always RNE. -/
def rowSf (f : Val → Nat) (rd : Rounding) (a : Src) : Except HwFault (Row × Rounding) :=
  match firstFault [a.accepts (· = .f32)] with
  | some g => .error g
  | Option.none => .ok (rowOf .f32 ((List.range 32).map (fun i => f (a.val [] .f32 i))) [] a.poison, rd)

/-! ## PX -/

/-- The SIDE of a PX result of one source (R181): a bounded row keeps bound and scale. -/
def pxSide (ty : Fmt) (a : Src) : BitVec 64 :=
  match a with
  | .row r => if fmtBounded ty then r.side else 0
  | _ => 0

/-- The SIDE of a PX result of two sources: the larger bound, the scale of the row that has one (R181). -/
def pxSide2 (ty : Fmt) (a b : Src) : BitVec 64 :=
  if fmtBounded ty then
    let s : Nat := match a, b with
      | .row x, _ => x.rowScale
      | _, .row y => y.rowScale
      | _, _ => 0
    .ofNat 64 (maxBound ((pxSide ty a).toNat % 2 ^ 32) ((pxSide ty b).toNat % 2 ^ 32) +
      2 ^ 32 * (if ty = .bi16 then s else 0))
  else 0

/-- Two BI16 rows must carry equal scales (R181). -/
def scalesDiffer (ty : Fmt) (a b : Src) : Bool :=
  match a, b with
  | .row x, .row y => ty = .bi16 && x.rowScale != y.rowScale
  | _, _ => false

/-- A PX result of element bits (R81, R181). -/
def pxRow (ty : Fmt) (side : BitVec 64) (poison : Bool) (f : Nat → Nat) : Row :=
  Row.infBound { rowOf ty ((List.range (fmtElems ty)).map f) [] poison with side := side }

/-- `xpose` (R182): the transpose of `a ++ b` seen as 2^LR rows. -/
def rowXpose (lr h2 : Nat) (ty : Fmt) (rd : Rounding) (a b : Src) : Except HwFault (Row × Rounding) :=
  match firstFault [a.accepts (· = ty), b.accepts (· = ty)] <|> clash (scalesDiffer ty a b) (stnFault 0) with
  | some g => .error g
  | Option.none =>
    let n := fmtElems ty
    let m := if b = .none then n else 2 * n
    let r := 2 ^ lr
    let c := m / r
    let from0 (e : Nat) : Nat := let t := h2 * n + e; (t % r) * c + t / r
    let usesA := (List.range n).any (fun e => from0 e < n)
    let usesB := (List.range n).any (fun e => n ≤ from0 e)
    .ok (pxRow ty (pxSide2 ty (if usesA then a else .none) (if usesB then b else .none)) (a.poison || b.poison)
      (fun e => let x := from0 e; if x < n then a.bits ty x else b.bits ty (x - n)), rd)

/-- `perm` (R181): `a[b_i mod n]`. -/
def rowPerm (ty : Fmt) (rd : Rounding) (a b : Src) : Except HwFault (Row × Rounding) :=
  match firstFault [a.accepts (· = ty), b.accepts (· = .ui8)] with
  | some g => .error g
  | Option.none =>
    let n := fmtElems ty
    let ix (i : Nat) : Nat := match b with
      | .row r => r.byte i
      | .imm v => v.toNat % 256
      | _ => 0
    .ok (pxRow ty (pxSide ty a) (a.poison || b.poison) (fun i => a.bits ty (ix i % n)), rd)

/-- `shuf` (R181). -/
def rowShuf (pat : Nat) (ty : Fmt) (rd : Rounding) (a b : Src) : Except HwFault (Row × Rounding) :=
  match firstFault [a.accepts (· = ty), b.accepts (· = ty)] <|> clash (scalesDiffer ty a b) (stnFault 0) with
  | some g => .error g
  | Option.none =>
    let n := fmtElems ty
    let h := n / 2
    let f (i : Nat) : Nat := match pat with
      | 0 => if i % 2 = 0 then a.bits ty (i / 2) else b.bits ty (i / 2)
      | 1 => if i % 2 = 0 then a.bits ty (h + i / 2) else b.bits ty (h + i / 2)
      | 2 => if i < h then a.bits ty (2 * i) else b.bits ty (2 * (i - h))
      | 3 => if i < h then a.bits ty (2 * i + 1) else b.bits ty (2 * (i - h) + 1)
      | _ => a.bits ty (n - 1 - i)
    .ok (pxRow ty (pxSide2 ty a b) (a.poison || b.poison) f, rd)

/-- `bcast` (R181). -/
def rowBcast (k : Nat) (ty : Fmt) (rd : Rounding) (a : Src) : Except HwFault (Row × Rounding) :=
  match firstFault [a.accepts (· = ty)] with
  | some g => .error g
  | Option.none => .ok (pxRow ty (pxSide ty a) a.poison (fun _ => a.bits ty k), rd)

/-- `gath` (R183): a speculative gather from a table of operand-file rows. -/
def rowGath (ty : Fmt) (rd : Rounding) (table : List Row) (a : Src) : Except HwFault (Row × Rounding) :=
  let n := fmtElems ty
  let ixTy : Fmt := if n = 128 then .ui8 else .i16
  match firstFault ([a.accepts (· = ixTy)] ++ table.map (fun r => (Src.row r).accepts (· = ty))) with
  | some g => .error g
  | Option.none =>
    let m := table.length * n
    let ix (e : Nat) : Int := a.int ixTy e
    let good (e : Nat) : Bool := decide (0 ≤ ix e ∧ ix e < (m : Int))
    let at0 (e : Nat) : Row := table.getD ((ix e).toNat / n) (Row.zero ty)
    let used := (List.range n).filter good
    let bound := used.foldl (fun acc e => maxBound acc (at0 e).bound) 0
    let poison := a.poison || table.any (fun r => r.poison) || (List.range n).any (fun e => !good e)
    .ok (pxRow ty (if fmtBounded ty then .ofNat 64 bound else 0) poison
      (fun e => if good e then fieldAt (fmtBits ty) (at0 e).data ((ix e).toNat % n) else 0), rd)

/-- `slide` (R181): `(a ++ b)[K + i]`. -/
def rowSlide (k : Nat) (ty : Fmt) (rd : Rounding) (a b : Src) : Except HwFault (Row × Rounding) :=
  match firstFault [a.accepts (· = ty), b.accepts (· = ty)] <|> clash (scalesDiffer ty a b) (stnFault 0) with
  | some g => .error g
  | Option.none =>
    let n := fmtElems ty
    .ok (pxRow ty (pxSide2 ty a b) (a.poison || b.poison)
      (fun i => if k + i < n then a.bits ty (k + i) else b.bits ty (k + i - n)), rd)

/-- `rope` (R184): each pair rotated by its angle, rounded once. -/
def rowRope (pair : Nat) (ty : Fmt) (rd : Rounding) (a b : Src) : Except HwFault (Row × Rounding) :=
  match firstFault [a.accepts (· = ty), b.accepts (· = .f32)] with
  | some g => .error g
  | Option.none =>
    let n := fmtElems ty
    .ok (floatRow ty rd (a.poison || b.poison) (fun i =>
      let j := if pair = 0 then i / 2 else i % (n / 2)
      let isX := if pair = 0 then i % 2 = 0 else i < n / 2
      let x := a.val [] ty (if pair = 0 then 2 * j else j)
      let y := a.val [] ty (if pair = 0 then 2 * j + 1 else j + n / 2)
      let phi := b.val [] ty j
      if !phi.isFin then .nan else
      let c := fp32.decode (cosCode phi)
      let s := fp32.decode (sinCode phi)
      if isX then Val.sub rd.mode (Val.mul x c) (Val.mul y s) else Val.add rd.mode (Val.mul x s) (Val.mul y c)))

/-- Whether element `i` outranks element `j` in the selection of R185: NaN above every number, then the larger magnitude,
then the lower index. -/
def outranks (v : Nat → Val) (i j : Nat) : Bool :=
  let a := (v i).abs
  let b := (v j).abs
  if a.isNan then !b.isNan || i < j
  else if b.isNan then false
  else Val.lt b a || (Val.eqv a b && i < j)

/-- The kept indices of a group, ascending: those outranked by fewer than half of the group (R185). -/
def keptOf (v : Nat → Val) (g size : Nat) : List Nat :=
  (List.range size).filter (fun i =>
    decide (((List.range size).filter (fun j => outranks v (g * size + j) (g * size + i))).length < size / 2))

/-- `spc24` and `spc48` (R185), with groups of `size` elements whose indices take `w` bits. -/
def rowSpc (size w : Nat) (md : Bool) (ty : Fmt) (rd : Rounding) (a : Src) : Except HwFault (Row × Rounding) :=
  match firstFault [a.accepts (· = ty)] with
  | some g => .error g
  | Option.none =>
    let n := fmtElems ty
    let kept := (List.range (n / size)).map (keptOf (a.val [] ty) · size)
    if md then
      let bits := kept.map (fun l => packList w l % 2 ^ (w * (size / 2)))
      .ok (⟨.ofNat 1024 (packList (w * (size / 2)) bits), .ui8, a.poison, 0⟩, rd)
    else
      let idx := (List.range (n / size)).flatMap (fun g => (kept.getD g []).map (fun i => g * size + i))
      .ok (rowOf ty (idx.map (a.bits ty)) [] a.poison, rd)

/-! ## RD -/

/-- The pairwise tree of R79 over `2^k` values. -/
def treeFold {α : Type} (f : α → α → α) : Nat → List α → List α
  | 0, l => l
  | k + 1, l => let h := l.length / 2; treeFold f k (List.zipWith f (l.take h) (l.drop h))

/-- `tree_sum` of R79. -/
def treeSum (l : List Val) : Val := (treeFold (fun a b => rne32 (Val.add .rne a b)) (Nat.log2 l.length) l).headD Val.zero

/-- The placement of a reduction result (R187): element 0, or every element with BC. -/
def placeCode (ty : Fmt) (bc : Bool) (poison : Bool) (c : Nat) : Row :=
  rowOf ty ((List.range (fmtElems ty)).map (fun i => if bc || i = 0 then c else 0)) [] poison

/-- The elements of a row operand, or of an immediate taken in TYPE. -/
def Src.elems (ty : Fmt) : Src → Nat
  | .row r => fmtElems r.tag
  | _ => fmtElems ty

/-- `rsum` (R187). -/
def rowSum (bc sat : Bool) (ty : Fmt) (rd : Rounding) (a : Src) : Except HwFault (Row × Rounding) :=
  match firstFault [a.accepts (fun t => if ty = .i32 then fmtInt t else fmtFloat t != Option.none && t != .bf32)] with
  | some g => .error g
  | Option.none =>
    if ty = .i32 then
      let add := fun x y : Int => if sat then clampInt (-2147483648) 2147483647 (x + y) else signedOf 32 (wrapTo 32 (x + y))
      let l := (List.range (a.elems ty)).map (fun i => a.int ty i)
      .ok (placeCode .i32 bc a.poison (wrapTo 32 ((treeFold add (Nat.log2 l.length) l).headD 0)), rd)
    else
      let (cs, _, rd') := encodeVals ty rd [treeSum ((List.range (a.elems ty)).map (a.val [] ty))]
      .ok (placeCode ty bc a.poison (cs.headD 0), rd')

/-- `rmax` and `rmin` (R187): the element selected stands as it is, with no draw and no SAT8; an immediate that TYPE cannot hold rounds to nearest
(log entry 95). -/
def rowExtreme (isMax bc : Bool) (ty : Fmt) (rd : Rounding) (a : Src) : Except HwFault (Row × Rounding) :=
  match firstFault [a.accepts (· = ty)] with
  | some g => .error g
  | Option.none =>
    let vs := (List.range (fmtElems ty)).map (a.val [] ty)
    let v := vs.tail.foldl (if isMax then vmaxVal else vminVal) (vs.headD Val.zero)
    let c := encodeCode ty .rne false 0 v
    .ok (Row.infBound { placeCode ty bc a.poison c with side := pxSide ty a }, rd)

/-- `scan` (R187). An operand with fewer elements than TYPE leaves the rest open. -/
def rowScan (excl : Bool) (ty : Fmt) (rd : Rounding) (a b : Src) : Except HwFault (Row × Rounding) :=
  match firstFault [a.accepts (fun t => if ty = .i32 then fmtInt t else fmtFloat t != Option.none && t != .bf32), b.accepts (· = ty)] with
  | some g => .error g
  | Option.none =>
    let n := fmtElems ty
    let p := a.poison || b.poison
    if ty = .i32 then
      let c := b.int ty (n - 1)
      let l := (List.range n).map (fun i => a.int ty i)
      let step := fun (acc : Int × List Int) (x : Int) =>
        let s := signedOf 32 (wrapTo 32 (acc.1 + x)); (s, acc.2 ++ [if excl then acc.1 else s])
      let out := (l.foldl step (c, [])).2
      .ok (rowOf .i32 (out.map (wrapTo 32)) [] p, rd)
    else
      let c := b.val [] ty (n - 1)
      let l := (List.range n).map (fun i =>
        if i < a.elems ty then a.val [] ty i else fp32.decode (Config.scanTail a.seed i).toNat)
      let step := fun (acc : Val × List Val) (x : Val) =>
        let s := rne32 (Val.add .rne acc.1 x); (s, acc.2 ++ [if excl then acc.1 else s])
      let out := (l.foldl step (c, [])).2
      let (cs, _, rd') := encodeVals ty rd out
      .ok (rowOf ty cs [] p, rd')

/-- A candidate of `topk` (R188): score, bound and index, as FP32 values. -/
structure Cand where
  score : Val
  bound : Val
  index : Val
deriving DecidableEq, Repr

/-- Whether one candidate stands before another: the larger score, NaN below −∞, then the lower index (R188). -/
def Cand.before (x y : Cand) : Bool :=
  match x.score.isNan, y.score.isNan with
  | true, true => Val.lt x.index y.index
  | true, false => false
  | false, true => true
  | false, false => Val.lt y.score x.score || (Val.eqv x.score y.score && Val.lt x.index y.index)

/-- Insert a candidate behind those that stand before it. -/
def insertCand (c : Cand) : List Cand → List Cand
  | [] => [c]
  | d :: r => if c.before d then c :: d :: r else d :: insertCand c r

/-- Whether a selected entry and the best not selected could change places (R83). -/
def Cand.ambiguous (x y : Cand) : Bool :=
  x.score.isNan || y.score.isNan || Val.le (extSub x.score y.score).abs (Val.add .rne x.bound y.bound)

/-- `topk` (R188): the result row, the numeric state, and the new index base. -/
def rowTopk (k : Nat) (start : Bool) (tb : Nat) (ty : Fmt) (rd : Rounding) (a b : Src) : Except HwFault (Row × Rounding × Nat) :=
  match firstFault [a.accepts (· = ty), if start then Option.none else b.accepts (· = .f32)] with
  | some g => .error g
  | Option.none =>
    let n := fmtElems ty
    let tb := if start then 0 else tb
    if tb + n - 1 ≥ 2 ^ 24 then .error { stnFault 3 with which := 1 } else
    let old := if start then [] else
      ((List.range 8).map (fun j => (⟨b.val [] .f32 j, b.val [] .f32 (8 + j), b.val [] .f32 (16 + j)⟩ : Cand))).filter
        (fun c => Val.le Val.zero c.index)
    let new := (List.range n).map (fun i => (⟨a.val [] ty i, a.bound, Val.ofInt (tb + i : Nat)⟩ : Cand))
    let cand := (old ++ new).foldl (fun l c => insertCand c l) []
    let sel := cand.take k
    let next := (cand.drop k).head?
    let amb (c : Cand) : Bool := match next with
      | some d => c.ambiguous d
      | Option.none => false
    let at0 (i : Nat) : Option Cand := if i = 7 then next else sel[i]?
    let code (i : Nat) : Nat :=
      if i < 8 then match at0 i with
        | some c => f32rne c.score
        | Option.none => 0xFF800000
      else if i < 16 then match at0 (i - 8) with
        | some c => f32rne c.bound
        | Option.none => 0
      else if i < 24 then match at0 (i - 16) with
        | some c => f32rne c.index
        | Option.none => 0xBF800000
      else if i < 31 then match sel[i - 24]? with
        | some c => if amb c then 0x3F800000 else 0
        | Option.none => 0
      else f32rne (Val.ofInt ((sel.filter amb).length : Nat))
    .ok (rowOf .f32 ((List.range 32).map code) [] (a.poison || (!start && b.poison)), rd, tb + n)

/-- `argmax` (R187): the lowest index of the largest element, or of the first NaN. -/
def rowArgmax (ty : Fmt) (rd : Rounding) (a : Src) : Except HwFault (Row × Rounding) :=
  match firstFault [a.accepts (· = ty)] with
  | some g => .error g
  | Option.none =>
    let n := fmtElems ty
    let v := a.val [] ty
    let best := (List.range n).foldl (fun b i =>
      if (v b).isNan then b else if (v i).isNan then i else if Val.ltz (v b) (v i) then i else b) 0
    .ok (placeCode .i32 false a.poison best, rd)

/-- Whether a mask byte selects (R189, R192). -/
def byteSet (amb : Bool) (b : Nat) : Bool := b != 0 && (b != 0x80 || amb)

/-- `cmpct` (R189). -/
def rowCmpct (amb : Bool) (ty : Fmt) (rd : Rounding) (a b : Src) : Except HwFault (Row × Rounding) :=
  match firstFault [a.accepts (· = ty), b.accepts (· = .ui8)] with
  | some g => .error g
  | Option.none =>
    let kept := (List.range (fmtElems ty)).filter (fun i => byteSet amb (b.bits .ui8 i))
    .ok (Row.infBound { rowOf ty (kept.map (a.bits ty)) [] (a.poison || b.poison) with side := pxSide ty a }, rd)

/-- FLAGS of an online-softmax state row (R190): 0 to 3, anything else counts as NAN. -/
def osmFlags (v : Val) : Nat :=
  if v.isZero then 0 else if Val.eqv v (Val.ofInt 1) then 1 else if Val.eqv v (Val.ofInt 2) then 2
  else if Val.eqv v (Val.ofInt 3) then 3 else 1

/-- `osm` (R190). -/
def rowOsm (out start : Bool) (ty : Fmt) (rd : Rounding) (a b : Src) : Except HwFault (Row × Rounding) :=
  match firstFault [a.accepts (· = ty), if start then Option.none else b.accepts (· = .f32)] with
  | some g => .error g
  | Option.none =>
    let n := fmtElems ty
    let p := a.poison || (!start && b.poison)
    let m0 := if start then .inf true else b.val [] .f32 0
    let sum0 := if start then Val.zero else b.val [] .f32 1
    let fl := if start then 2 else osmFlags (b.val [] .f32 3)
    let vs := (List.range n).map (a.val [] ty)
    let res : List Val × List Nat :=
      if fl % 2 = 1 || vs.any Val.isNan then
        (vs.map (fun _ => .nan), [fp32.nanCode, fp32.nanCode, fp32.nanCode, 0x3F800000])
      else
        let m1 := vs.foldl vmaxVal m0
        let (ps, r) : List Val × Val := match m1 with
          | .inf true => (vs.map (fun _ => Val.zero), Val.one)
          | .inf false => (vs.map (fun v => if v = .inf false then Val.one else Val.zero),
              if m0 = .inf false then Val.one else Val.zero)
          | m => (vs.map (fun v => fp32.decode (ex2Code (Val.sub .rne v m))), fp32.decode (ex2Code (Val.sub .rne m0 m)))
        let sum1 := rne32 (Val.add .rne (rne32 (Val.mul sum0 r)) (treeSum ps))
        let fl1 := if m1 = .inf true || m1.isNan then fl else fl - fl / 2 * 2
        (ps, [f32rne m1, f32rne sum1, f32rne r, f32rne (Val.ofInt fl1)])
    if out then .ok (rowOf .f32 res.2 [] p, rd)
    else let (cs, ss, rd') := encodeVals ty rd res.1; .ok (rowOf ty cs ss p, rd')

/-- Round an exact quotient of two values (R191). -/
def quotCode (f : FloatFmt) (mode : RMode) (sat8 : Bool) (draw : Nat) (a b : Val) : Nat :=
  match a, b with
  | .nan, _ => f.nanCode
  | _, .nan => f.nanCode
  | .inf _, .inf _ => f.nanCode
  | .inf x, .fin y _ _ => f.conv mode sat8 draw (.inf (x != y))
  | .fin x _ _, .inf y => f.signed (x != y) 0
  | .fin x m e, .fin y m' e' =>
    if m' = 0 then (if m = 0 then f.nanCode else f.conv mode sat8 draw (.inf (x != y)))
    else
      let (n1, d1) := Val.ratio m e
      let (n2, d2) := Val.ratio m' e'
      f.roundQ mode sat8 (x != y) (n1 * d2) (d1 * n2) draw

/-- `osf` (R191): an accumulator row divided by the state row's SUM. -/
def rowOsf (ty : Fmt) (rd : Rounding) (a b : Src) : Except HwFault (Row × Rounding) :=
  match firstFault [a.accepts (· = .f32), b.accepts (· = .f32)] with
  | some g => .error g
  | Option.none =>
    let ff := if ty = .bf16 then bf16F else fp32
    let fl := osmFlags (b.val [] .f32 3)
    let p := a.poison || b.poison
    let sum := b.val [] .f32 1
    if fl % 2 = 1 then .ok (rowOf ty (List.replicate 32 ff.nanCode) [] p, rd)
    else if fl / 2 % 2 = 1 then .ok (rowOf ty (List.replicate 32 0) [] p, rd)
    else
      let (cs, rd') := Rounding.mapDraw (fun m s d i => quotCode ff m s d (a.val [] .f32 i) sum) rd (List.range 32)
      .ok (rowOf ty cs [] p, rd')

/-- The count of a `vflag` (R192). -/
def flagCount (amb : Bool) (count : Nat) (a : Src) : Nat :=
  ((List.range count).filter (fun i => byteSet amb (a.bits .ui8 i))).length

/-- A flag register's value from a count among `n` (R140): COUNT, ANY, ALL, NONE. -/
def flagWord (cnt n : Nat) : Nat :=
  cnt + 2 ^ 16 * (if cnt > 0 then 1 else 0) + 2 ^ 17 * (if cnt = n then 1 else 0) + 2 ^ 18 * (if cnt = 0 then 1 else 0)

end Sys2Proof.Machine
end

