-- ==== Sys2Proof/Machine/Operands.lean ====
section
/-!
DEFINITION. Operand forms: the immediates of sequencer words with their extension (spec 07 R92, R93), the operands of
station and bank entries (07 R97, 11 R158 to R164), puts and taps of lanes, and the result of a station entry (R163).
-/
namespace Sys2Proof.Machine

/-! ## Immediates of the sequencer (R92, R93) -/

/-- A field of `w` bits with its optional 29 bits above, sign-extended from the top bit of what is there. -/
def extImm {w : Nat} (imm : BitVec w) (x : Option (BitVec 29)) : Int :=
  match x with
  | none => imm.toInt
  | some v => (v ++ imm).toInt

/-- The immediate as a 64-bit register value. -/
def immWord {w : Nat} (imm : BitVec w) (x : Option (BitVec 29)) : Word := .ofInt 64 (extImm imm x)

/-! ## Lanes (R157 to R161) -/

/-- The position of a row on its lane at a crew cycle: cw lanes run up, aw lanes down. -/
def LaneRow.posAt (r : LaneRow) (t : Nat) : Nat := if r.lane < 8 then (r.pos + (t - r.at0)) % 16 else (r.pos + 15 * (t - r.at0)) % 16

/-- Whether a row is present at a position in cycle `t` at hop 1 to `maxHop` (R158). -/
def LaneRow.presentAt (r : LaneRow) (lane pos t maxHop : Nat) : Bool :=
  r.lane == lane && decide (r.at0 < t ∧ t - r.at0 ≤ maxHop) && r.posAt t == pos

/-- Whether a put is timing fault COLLISION (R159). -/
def Core.collides (k : Core) (lane pos t : Nat) : Bool :=
  k.lanes.any (fun r => r.presentAt lane pos t 14 || (r.lane == lane && r.at0 == t && r.pos == pos))

/-- Tap a lane at the position of unit `u` (R160). -/
def tapLane (u lane : Nat) (s : State) : Except State (Row × State) :=
  let s1 := countUse u 0 s
  if s1.fcore.faulted.isSome then .error s1 else
  match s1.fcore.lanes.find? (fun r => r.presentAt lane (posOf u) s.now0 15) with
  | some r => .ok (r.row, s1)
  | none => .error (raise (timing 2) lane 0 s1)

/-- Put a row onto a lane at the position of unit `u` (R158, R159). -/
def putLane (u lane : Nat) (row : Row) (s : State) : State :=
  let s1 := countUse u 1 s
  if s1.fcore.faulted.isSome then s1
  else if s1.fcore.collides lane (posOf u) s.now0 then raise (timing 1) lane 0 s1
  else s1.updF (fun k => { k with lanes := k.lanes ++ [⟨lane, posOf u, s.now0, row⟩] })

/-! ## Stations (R163, R164) -/

/-- A station of a core, by its stream number 8 to 15. -/
def Core.stn (k : Core) (u : Nat) : Station := SMap.get {} k.stns u
/-- Change a station. -/
def Core.updStn (k : Core) (u : Nat) (f : Station → Station) : Core := { k with stns := k.stns.upd {} u f }
/-- An operand-file entry; zero rows of TAG 0x0 at launch start (R156). -/
def Station.of0 (t : Station) (i : Nat) : Row := SMap.get (Row.zero .f32) t.ofs i

/-- A stream of a core. -/
def Core.stream (k : Core) (u : Nat) : Stream := SMap.get {} k.streams u
/-- Change a stream. -/
def Core.updStream (k : Core) (u : Nat) (f : Stream → Stream) : Core := { k with streams := k.streams.upd {} u f }
/-- The numeric state of the stream in focus (R72). -/
def State.rnd (s : State) : Rounding := (s.fcore.stream s.focus.stn).rd
/-- Replace it. -/
def State.setRnd (s : State) (rd : Rounding) : State := s.updF (fun k => k.updStream s.focus.stn (fun t => { t with rd := rd }))

/-- The four codebook registers of the core in focus (R68). -/
def State.cbs (s : State) : List (BitVec 256) := (List.range 4).map (fun i => SMap.get 0 s.fcore.cbs i)
/-- Their poison bits. -/
def State.cbPois (s : State) : List Bool := (List.range 4).map (fun i => SMap.get false s.fcore.cbPoison i)

/-- Read a source operand of the station in focus (R97, R163, R164). -/
def readOpnd (o : Opnd) (imm : BitVec 16) (s : State) : Except State (Src × State) :=
  match o with
  | .ll => .ok (.row (s.fcore.stn s.focus.stn).ll, s)
  | .ofr i => .ok (.row ((s.fcore.stn s.focus.stn).of0 i.toNat), s)
  | .lane l => match tapLane s.focus.stn l.toNat s with
    | .ok (r, s') => .ok (.row r, s')
    | .error s' => .error s'
  | .none => .ok (.none, s)
  | .imm => .ok (.imm imm, s)
  | .zero => .ok (.zero, s)

/-- Read both sources of an entry. -/
def readSources (h : Ent) (s : State) : Except State (Src × Src × State) :=
  match readOpnd h.sa h.imm s with
  | .error e => .error e
  | .ok (a, s1) => match readOpnd h.sb h.imm s1 with
    | .error e => .error e
    | .ok (b, s2) => .ok (a, b, s2)

/-- What DST holds at issue, for the entries that read it (R177, R178); a lane holds nothing. -/
def readDst (h : Ent) (s : State) : Src :=
  match h.dst with
  | .ll => .row (s.fcore.stn s.focus.stn).ll
  | .ofr i => .row ((s.fcore.stn s.focus.stn).of0 i.toNat)
  | _ => .none

/-- An operand-file entry of the station in focus. -/
def readOf (i : Nat) (s : State) : Row := (s.fcore.stn s.focus.stn).of0 i

/-- A fault of an operand-file row that MOD names: checks from `n` on concern the entries from `i` on. The place is kept above those of the
operand fields. -/
def nameFile (i n : Nat) (f : HwFault) : HwFault := if n ≤ f.which then { f with which := 24 + i + (f.which - n) } else f

/-- Raise a fault of an entry; the record names the operand field it concerns (R165). -/
def raiseOpnd (h : Ent) (f : HwFault) (s : State) : State :=
  raise f (match f.which with
    | 0 => 0
    | 1 => h.sa.code
    | 2 => h.sb.code
    | 3 => h.dst.code
    | n => n - 8) 0 s

/-- Schedule a station's result for crew cycle c + L (R163). -/
def giveResult (lat : Nat) (dst : Opnd) (row : Row) (s : State) : State :=
  s.later (s.now0 + lat) (.result s.focus.stn dst row s.now0)

/-- A station entry of latency L: its sources are read at issue, a fault has no other effect, and the result is scheduled. -/
def stationEntry (h : Ent) (lat : Nat) (f : State → Src → Src → Except HwFault (Row × Rounding)) (s : State) : State :=
  match readSources h s with
  | .error e => e
  | .ok (a, b, s1) => match f s1 a b with
    | .error g => raiseOpnd h g s1
    | .ok (row, rd) => giveResult lat h.dst row (s1.setRnd rd)

/-! ## Banks -/

/-- A bank of a core. -/
def Core.bank (k : Core) (n : Nat) : Bank := SMap.get {} k.banks n
/-- Change a bank. -/
def Core.updBank (k : Core) (n : Nat) (f : Bank → Bank) : Core := { k with banks := k.banks.upd {} n f }
/-- A row of a bank as its format stands (R76). -/
def Bank.row (b : Bank) (n : Nat) (fmt : Fmt) : Row := { SMap.get (Row.zero fmt) b.rows n with tag := fmt }

end Sys2Proof.Machine
end

