-- ==== Sys2Proof/Machine/Commands.lean ====
section
/-!
DEFINITION. What port commands have in common (spec 17 R239 to R266, 19 R279 to R284, 21 R306 to R309): their fields,
landing areas, barriers, suspension on a translation fault, the end on an access fault, and completion; with the instances
whose counters they move (01 R11 to R14).
-/
namespace Sys2Proof.Machine

/-! ## Instances (R11 to R14) -/

/-- Add a member; `none` where the counter would pass 0xFFFF_FFFF (R13). -/
def instAdd (s : State) (i : Nat) : Option State :=
  match s.insts.find i with
  | some t => if t.count = 0xFFFFFFFF then none else some { s with insts := s.insts.put i { t with count := t.count + 1 } }
  | none => some s

/-- An instance whose counter is zero after its last member was added takes its final status, once (R13, R14). -/
def Inst.settle (t : Inst) : Inst := if t.count = 0 ∧ t.lastAdded ∧ t.status = .running then { t with status := t.mark } else t

/-- A member completed, was cancelled or faulted. -/
def instDone (s : State) (i : Nat) (m : Status) : State :=
  match s.insts.find i with
  | some t => { s with insts := s.insts.put i { t with count := t.count - 1, mark := joinStatus t.mark m }.settle }
  | none => s

/-- The last member of an instance has been added. -/
def instLast (s : State) (i : Nat) : State :=
  match s.insts.find i with
  | some t => { s with insts := s.insts.put i { t with lastAdded := true }.settle }
  | none => s

/-- The crew that runs a LAUNCH record. -/
def crewOfRec (s : State) (r : Nat) : Option (Nat × Crew) := s.crews.find? (fun p => p.2.record == r)

/-- A drift breach not yet repaired makes its array DUE at once when the launch ends or freezes (R227). -/
def flushVoids (s : State) (core : Nat) : State :=
  { s with kilns := s.kilns.map (fun p =>
      if p.1 / 16 = core && p.2.breach then
        (p.1, { p.2 with breach := false, st := if p.2.st = .fired then .due else p.2.st })
      else p) }

/-- Release a crew: cores, clock and allotment together (R29); no restored result stays unlanded (R154). Semaphore changes already signalled count first (R263, R264). -/
def releaseCrew (s : State) (k : Nat) : State :=
  match s.crew k with
  | some w =>
    let s1 := w.members.foldl (fun s c => (flushVoids s c).updCore c (fun x => { x.countHsem (2 ^ 48) with crew := none, checkedTo := 0, checkedBundles := 0 })) s
    { s1 with crews := s1.crews.del k }
  | none => s

/-- A launch whose instance has completed releases its crew, and its record is ready to retire (R29, R331). -/
def launchEnd (s : State) (r : Nat) : State :=
  match s.recs.find r with
  | some x => match x.inst.bind s.insts.find with
    | some t =>
      if t.status ≠ .running ∧ x.st = .running then
        let s1 := match crewOfRec s r with
          | some (k, _) => releaseCrew s k
          | none => s
        { s1 with recs := s1.recs.put r { x with st := .done t.status } }
      else s
    | none => s
  | none => s

/-- A member of a record's launch instance ended. -/
def launchMember (s : State) (r : Nat) (m : Status) : State :=
  match (s.recs.find r).bind (·.inst) with
  | some i => launchEnd (instDone s i m) r
  | none => s

/-! ## Fields of a command (R242, R246, R279, R306) -/

/-- A field of the four command words as one number: CMDn at 64 n. -/
def Cmd.bits (c : Cmd) (hi lo : Nat) : Nat := bitsOf c.word.toNat hi lo
/-- HEN. -/
def Cmd.hen (c : Cmd) : Bool := if c.port = 0 then c.word.getLsbD 19 else c.word.getLsbD 13
/-- H. -/
def Cmd.h (c : Cmd) : Nat := if c.port = 0 then c.bits 18 14 else c.bits 12 8
/-- BEN. -/
def Cmd.ben (c : Cmd) : Bool := if c.port = 0 then c.word.getLsbD 20 else c.word.getLsbD 14
/-- BAR. -/
def Cmd.bar (c : Cmd) : Nat := if c.port = 0 then c.bits 215 192 else c.bits 115 92
/-- BPH. -/
def Cmd.bph (c : Cmd) : Nat := if c.port = 0 then c.bits 217 216 else c.bits 43 42
/-- SCOPE. -/
def Cmd.scope (c : Cmd) : Nat := if c.port = 0 then c.bits 23 21 else c.bits 17 15
/-- SOFT; a storage or key-value command has none. -/
def Cmd.softBit (c : Cmd) : Bool := c.port = 0 && c.word.getLsbD 24
/-- The opcode. -/
def Cmd.op (c : Cmd) : Nat := c.bits 7 0
/-- The object of a storage command, the space of a key-value command. -/
def Cmd.obj (c : Cmd) : Nat := c.bits 41 18
/-- The source number of the unit that runs it (R366). -/
def Cmd.source (c : Cmd) : Nat := if c.port = 0 then 320 + c.unit else if c.port = 1 then 448 + c.unit else 464
/-- The core that issued it. -/
def Cmd.core (c : Cmd) : Option Nat :=
  match c.issuer with
  | .ctx k _ _ => some k
  | .record _ => none
/-- Whether a firmware context issued it. -/
def Cmd.isFw (c : Cmd) : Bool :=
  match c.issuer with
  | .ctx _ f _ => f
  | .record _ => false
/-- The record it works for. -/
def Cmd.owner (c : Cmd) : Option Nat :=
  match c.issuer with
  | .ctx _ false r => r
  | .ctx _ true _ => none
  | .record r => some r
/-- Who asks, for R48. -/
def Cmd.req (c : Cmd) : Req := .job c.part

/-- Change a command. -/
def State.updCmd (s : State) (id : Nat) (f : Cmd → Cmd) : State :=
  match s.cmds.find id with
  | some c => { s with cmds := s.cmds.put id (f c) }
  | none => s

/-! ## Landing areas of commands (R56) -/

/-- Whether a command may address staging bytes by raw offset. -/
def landAllowed (s : State) (c : Cmd) (slice off n : Nat) : Bool :=
  landOk s slice off n &&
  match c.issuer with
  | .ctx _ false (some r) => match crewOfRec s r with
    | some (_, w) => w.allot.landSlice.toNat == slice && decide (4096 * w.allot.landBase.toNat ≤ off
        ∧ off + n ≤ 4096 * (w.allot.landBase.toNat + w.allot.landLen.toNat))
    | none => false
  | .ctx _ false none => false
  | .ctx k true _ => match partOfCore s k with
    | some p => (partReg s p 6).getLsbD slice
    | none => false
  | .record _ => match c.part with
    | some p => (partReg s p 6).getLsbD slice
    | none => false

/-- Read staging for a command: LAND_RANGE outside its range; the flag tells an uncorrectable sector. -/
def cmdLandRead (s : State) (c : Cmd) (slice off n : Nat) : Except HwFault (List Byte × Bool) :=
  if landAllowed s c slice off n then landRead s slice off n else .error (accessFault 8)

/-- Read staging for a command that may not meet an uncorrectable sector (R241). -/
def cmdLandGet (s : State) (c : Cmd) (slice off n : Nat) : Except HwFault (List Byte) :=
  if landAllowed s c slice off n then landGet s slice off n else .error (accessFault 8)

/-- Write staging for a command. -/
def cmdLandPut (s : State) (c : Cmd) (slice off : Nat) (b : List Byte) : Except HwFault State :=
  if landAllowed s c slice off b.length then landPut s slice off b else .error (accessFault 8)

/-! ## Barriers (R259 to R261) -/

/-- The slice and offset of a BAR field: sector index above the slice. -/
def barAt (bar : Nat) : Nat × Nat := (bar % 64, 16 * (bar / 64 % 2 ^ 18))

/-- The 16 bytes of a barrier as a number. -/
def barGet (s : State) (bar : Nat) : Nat := natOfBytes (s.land.bytes ((barAt bar).1 * 2 ^ 22 + (barAt bar).2) 16)

/-- Whether the sector of a barrier is uncorrectable (R241). -/
def barBad (s : State) (bar : Nat) : Bool := landBad s (barAt bar).1 (barAt bar).2 16

/-- Write a barrier. An uncorrectable one is not updated: it stays uncorrectable until `barinit` writes it whole. -/
def barPut (s : State) (bar v : Nat) : State :=
  if barBad s bar then s else
  match landPut s (barAt bar).1 (barAt bar).2 (bytesOfNat 16 v) with
  | .ok s' => s'
  | .error _ => s

/-- Replace a field of a number. -/
def setBits (v hi lo f : Nat) : Nat := v - bitsOf v hi lo * 2 ^ lo + f % 2 ^ (hi + 1 - lo) * 2 ^ lo

/-- Add pending bytes at the start of a command with BEN (R260): LAND_RANGE outside its landing area, UNCORRECTABLE where the barrier
cannot be read (R241), BAR_OVER where the sum would pass 0xFFFF_FFFF. -/
def barStart (s : State) (c : Cmd) (n : Nat) : Except HwFault State :=
  if !c.ben then .ok s
  else if !landAllowed s c (barAt c.bar).1 (barAt c.bar).2 16 then .error (accessFault 8)
  else if barBad s c.bar then .error (accessFault 7)
  else
    let v := barGet s c.bar
    let p := bitsOf v 31 0 + n
    if p ≥ 2 ^ 32 then .error (accessFault 0xC) else .ok (barPut s c.bar (setBits v 31 0 p))

/-- Each write subtracts the bytes it writes (R260). -/
def barWrote (s : State) (c : Cmd) (n : Nat) : State :=
  if c.ben then
    let v := barGet s c.bar
    barPut s c.bar (setBits v 31 0 (bitsOf v 31 0 - n))
  else s

/-- Whether a command is suspended on a translation fault. -/
def Cmd.isSuspended (c : Cmd) : Bool :=
  match c.st with
  | .suspended _ => true
  | _ => false

/-- PARTIAL says whether a suspended command is aimed at the barrier (R264). -/
def barPartial (s : State) (bar : Nat) : State :=
  let b := s.cmds.any (fun p => p.2.ben && p.2.bar == bar && p.2.isSuspended)
  barPut s bar (setBits (barGet s bar) 113 113 (if b then 1 else 0))

/-- Complete phases while the current slot holds TARGET, at most twice: each zeroes its slot (R261). -/
def barAdvance : Nat → Nat → Nat
  | 0, v => v
  | fuel + 1, v =>
    let ph := bitsOf v 63 32
    let lo := if ph % 2 = 0 then 80 else 96
    if bitsOf v (lo + 15) lo = bitsOf v 79 64 && bitsOf v 79 64 != 0 then
      barAdvance fuel (setBits (setBits v (lo + 15) lo 0) 63 32 (ph + 1))
    else v

/-- How an arrival is handled (R261). -/
inductive Arrival where
  | counted (v : Nat)
  | held
  | bad
deriving DecidableEq, Repr

/-- Handle an arrival with a phase tag at a barrier's value. -/
def arrive (v bph : Nat) : Arrival :=
  let target := bitsOf v 79 64
  if target = 0 then .bad else
  let ph := bitsOf v 63 32
  let d := (bph + 4 - ph % 4) % 4
  let cur := if ph % 2 = 0 then 80 else 96
  let oth := if ph % 2 = 0 then 96 else 80
  let add (lo : Nat) : Nat := setBits v (lo + 15) lo (bitsOf v (lo + 15) lo + 1)
  match d with
  | 0 => .counted (barAdvance 2 (add cur))
  | 1 => if bitsOf v (oth + 15) oth = target then .held else .counted (add oth)
  | 2 => .held
  | _ => .bad

/-! ## Records of commands (R367) -/

/-- The ticket word: SEQ, PORT, unit and SUSP. -/
def Cmd.ticketWord (c : Cmd) (susp : Nat) : Word :=
  .ofNat 64 (c.ticket % 2 ^ 32 + c.port % 16 * 2 ^ 32 + c.unit % 64 * 2 ^ 36 + susp % 2 ^ 16 * 2 ^ 42)

/-- A domain object identifier of an object of this module (R41). -/
def domainId (s : State) (obj : Nat) : Nat := fieldOf (s.reg 0xE30) 9 0 * 2 ^ 24 + obj % 2 ^ 24

/-- The arguments of a record of a command: an XLATE or ACCESS record, else a STORE or KV record. -/
def Cmd.args (s : State) (c : Cmd) (f : HwFault) (susp : Nat) (w : Where) : List Word :=
  if f.code = 0x0F ∨ f.code = 0x10 then
    [c.ticketWord susp, .ofNat 64 w.obj, .ofNat 64 w.tile,
     .ofNat 64 (w.dtile % 2 ^ 32 + w.nsect % 2 ^ 32 * 2 ^ 32), .ofNat 64 c.bytes]
  else
    match c.issuer with
    | .record r => match s.recs.find r with
      | some x => [c.ticketWord susp, .ofNat 64 c.obj, .ofNat 64 x.index, .ofNat 64 x.word.toNat, .ofNat 64 (x.word.toNat / 2 ^ 64)]
      | none => [c.ticketWord susp, .ofNat 64 c.obj]
    | _ => [c.ticketWord susp, .ofNat 64 c.obj]

/-- Write a record of a command. -/
def cmdRecord (s : State) (c : Cmd) (f : HwFault) (ended : Bool) (susp : Nat) (w : Where) : State :=
  record s (if f.which = 4 then 468 else c.source) f c.isFw ended c.tag 0 c.part c.core (c.args s f susp w)

/-- Mark a command suspended on a translation fault, with PARTIAL at its barrier (R264). -/
def holdCmd (s : State) (id n : Nat) (c : Cmd) (w : Where) : State :=
  let s1 := { s with cmds := s.cmds.put id { c with st := .suspended n, place := w } }
  if c.ben then barPartial s1 c.bar else s1

/-- Give a suspended command its number: a record, and a request to the firmware context of the core that issued it (R370, R371). -/
def numberCmd (s : State) (id n : Nat) (c : Cmd) (f : HwFault) (w : Where) : State :=
  let words := recordWords s c.source f c.isFw false c.tag 0 c.part (c.args s f n w)
  let s1 := putRecord s (recordQueue s c.part c.core) words
  let s2 := holdCmd { s1 with susps := s1.susps.put n (.cmd id) } id n c w
  match c.core with
  | some k => request s2 k ⟨3, s.now, c.source, words, n⟩
  | none => s2

/-- Suspend a command on a translation fault (R264, R371). With no number free the fault waits for one. -/
def suspendCmd (s : State) (id : Nat) (f : HwFault) (w : Where) : State :=
  match s.cmds.find id with
  | some c => match freeSusp s with
    | some n => numberCmd s id n c f w
    | none => waitSusp c.source (.cmd id) f w (holdCmd s id 0 c w)
  | none => s

/-! ## The end of a command -/

/-- The instance that issued a command ends FAULTED with it: a crew stops, a record is done; a firmware context's command
ends only itself (R11, R264, R284). -/
def failIssuer (s : State) (c : Cmd) : State :=
  match c.issuer with
  | .ctx _ true _ => s
  | .ctx _ false none => s
  | .ctx _ false (some r) =>
    let s1 := match crewOfRec s r with
      | some (k, _) => stopCrew s k .faulted
      | none => s
    launchMember s1 r .faulted
  | .record r => launchMember s r .faulted

/-- Whether the fault of a command ends its instance. -/
def Cmd.endsInstance (c : Cmd) : Bool := !c.softBit && c.owner.isSome

/-- The status record of a storage or key-value command that ends FAULTED (R281, R307): of a key-value command what it noted when it met the
fault, with the time of its end. -/
def faultedStatus (s : State) (c : Cmd) : List Byte :=
  if c.port = 1 then bytesOfNat 32 (c.op + 3 * 2 ^ 8 + min c.requeues 0xFFFF * 2 ^ 16)
  else if c.failStatus.isEmpty then bytesOfNat 32 (c.op + 3 * 2 ^ 8 + s.now * 2 ^ 128)
  else c.failStatus.take 16 ++ bytesOfNat 8 s.now ++ c.failStatus.drop 24

/-- The markers of a list of items. -/
def marksOf (l : List OqItem) : List OqItem := l.filter (fun y => match y with
  | .mark _ _ => true
  | .row _ => false)

/-- The markers of a binding behind rows that are never written stand at the head of its queue: neither they nor those behind them count
(R198; log entry 99). -/
def loseMarks (k q id : Nat) (l : List OqItem) (s : State) : State :=
  s.updCore k (fun x => { x with fr := { x.fr with
    oq := x.fr.oq.upd [] q (marksOf l ++ ·)
    lost := x.fr.lost.put q (min id ((x.fr.lost.find q).getD id)) } })

/-- A firmware context's binding that ends with rows not written gives them up. -/
def loseBinding (id : Nat) (c : Cmd) (s : State) : State :=
  match c.issuer with
  | .ctx k true _ => if decide (c.rowsOut + (marksOf c.items).length < c.items.length) then loseMarks k (c.bits 72 70) id c.items s else s
  | _ => s

/-- An access fault, or a fault of the storage or key-value side, ends a command (R264, R284, R320). With SOFT it completes
partially: its signals are still to be made, with FAULT at its barrier. The status record it writes counts at its barrier (R260). -/
def endOnFault (s : State) (id : Nat) (f : HwFault) (w : Where) : State :=
  match s.cmds.find id with
  | none => s
  | some c =>
    let s1 := cmdRecord s c f c.endsInstance 0 w
    if c.softBit then
      let s2 := (fun s => if c.ben && c.isSuspended then barPartial s c.bar else s) (s1.updCmd id (fun c => { c with st := .moved, soft := true }))
      if c.ben then barPut s2 c.bar (setBits (barGet s2 c.bar) 112 112 1) else s2
    else
      let s2 := if c.port = 0 then s1 else
        match cmdLandPut s1 c (landAddr (c.bits 183 156)).1 (landAddr (c.bits 183 156)).2 (faultedStatus s c) with
        | .ok s' => if c.begun then barWrote s' c (faultedStatus s c).length else s'
        | .error _ => s1
      let s3 := loseBinding id c { s2 with cmds := s2.cmds.del id }
      let s4 := if c.ben && c.isSuspended then barPartial s3 c.bar else s3
      failIssuer s4 c

/-- A fault met by a command: a translation fault suspends it, any other ends it. -/
def cmdFault (s : State) (id : Nat) (f : HwFault) (w : Where) : State :=
  if f.code = 0x0F then suspendCmd s id f w else endOnFault s id f w

/-- HEN: the semaphore of the issuing core gains 1 if its launch still runs (R242, R143). -/
def henSignal (s : State) (c : Cmd) : State :=
  if c.hen then
    match c.issuer with
    | .ctx k fw r =>
      if fw || (match r with | some r => (match s.crewOf k with | some w => w.record == r | none => false) | none => false) then
        hsemChange s k ⟨0, c.h, 1, none⟩
      else s
    | .record _ => s
  else s

/-- Whether a cache part holds a sector dirty. -/
def dirtyAt (s : State) (d : Nat × Nat) : Bool := ((s.cacheOf d.1).find d.2).any (·.dirty)

/-- The context of a completed command keeps what it left dirty in cache parts, for its fences (R148). -/
def noteUnseen (s : State) (c : Cmd) : State :=
  match c.issuer with
  | .ctx k fw _ => if c.dirtied.isEmpty then s else s.updCore k (fun x => x.setCtx fw (let y := x.ctx fw
      { y with unseen := (y.unseen ++ c.dirtied).eraseDups.filter (dirtyAt s) }))
  | .record _ => s

/-- Remove a completed command, make its semaphore signal and count it at its instance (R263, R14). -/
def finishCmd (s : State) (id : Nat) : State :=
  match s.cmds.find id with
  | none => s
  | some c =>
    let s1 := henSignal (noteUnseen { s with cmds := s.cmds.del id } c) c
    match c.owner with
    | some r => launchMember s1 r (if c.soft || c.partialDone then .part else .done)
    | none => s1

/-- A command whose arrival faults ends without it, with SOFT as a partial completion (R261, R264). -/
def arriveFault (s : State) (id : Nat) (c : Cmd) (f : HwFault) : State :=
  let s1 := cmdRecord s c f c.endsInstance 0 {}
  if c.softBit then
    finishCmd ((barPut s1 c.bar (setBits (barGet s1 c.bar) 112 112 1)).updCmd id (fun c => { c with soft := true })) id
  else failIssuer { s1 with cmds := s1.cmds.del id } c

/-- Handle the held arrivals of a barrier again, in the order of acceptance, until none can be counted. -/
def retryHeld (bar : Nat) : Nat → State → State
  | 0, s => s
  | fuel + 1, s =>
    match s.cmds.find? (fun p => p.2.st = .held && p.2.bar == bar &&
        (barBad s bar || (match arrive (barGet s bar) p.2.bph with | .held => false | _ => true))) with
    | none => s
    | some (id, c) =>
      if barBad s bar then retryHeld bar fuel (arriveFault s id c (accessFault 7)) else
      match arrive (barGet s bar) c.bph with
      | .counted v => retryHeld bar fuel (finishCmd (barPut s bar v) id)
      | .held => s
      | .bad => retryHeld bar fuel (arriveFault s id c (accessFault 0xD))

/-- Completion of a command (R263, R281, R307): the arrival at its barrier, the semaphore, the count at its instance. An
arrival two phases ahead is held and the command stays incomplete; a partial completion that meets BAR_PHASE ends without
its arrival. -/
def completeCmd (s : State) (id : Nat) : State :=
  match s.cmds.find id with
  | none => s
  | some c =>
    if !c.ben then finishCmd s id
    else if barBad s c.bar then arriveFault s id c (accessFault 7) else
    match arrive (barGet s c.bar) c.bph with
    | .counted v => retryHeld c.bar (s.cmds.length + 1) (finishCmd (barPut s c.bar v) id)
    | .held => s.updCmd id (fun c => { c with st := .held })
    | .bad => arriveFault s id c (accessFault 0xD)

/-- Whether a command is a search task: `srchg`, `srchv` or `dscan` (R15). -/
def Cmd.isTask (c : Cmd) : Bool := c.port = 1 && (c.op = 0xF0 || c.op = 0xF1 || c.op = 0xF2)

/-- Resume a suspended access (R264, R371): a command runs on, a search task from its place in its controller's queue (R280); any other access
is made again by its unit. -/
def resumeSusp (s : State) (n : Nat) : State :=
  match s.susps.find n with
  | some (.cmd id) =>
    let s1 := { s.updCmd id (fun c => { c with st := .running }) with susps := s.susps.del n }
    match s1.cmds.find id with
    | some c => if c.ben then barPartial s1 c.bar else s1
    | none => s1
  | some (.record r) => { s with susps := s.susps.del n, recs := s.recs.map (fun p => if p.1 = r then (p.1, { p.2 with susp := 0 }) else p) }
  | some (.queue q) => { s with susps := s.susps.del n, queues := s.queues.map (fun p => if p.1 = q then (p.1, { p.2 with susp := 0 }) else p) }
  | some (.walk w) => { s with susps := s.susps.del n, walks := s.walks.map (fun p => if p.1 = w then (p.1, { p.2 with susp := 0 }) else p) }
  | some _ => { s with susps := s.susps.del n }
  | none => s

end Sys2Proof.Machine
end

