-- ==== Sys2Proof/Machine/Flags.lean ====
section
/-!
DEFINITION. Flag computations: the comparisons of `cmp` and `cmpi` (spec 09 R129), the tests of a flag register (R133,
R140), and the writing of a flag by `vflag` (11 R192).
-/
namespace Sys2Proof.Machine

/-- The conditions of CC (R92, R129): EQ, NE, LT, GE signed, LTU, GEU unsigned. Reserved codes are false. -/
def ccHolds (cc : BitVec 4) (a b : Word) : Bool :=
  match cc.toNat with
  | 0 => a == b
  | 1 => a != b
  | 2 => a.slt b
  | 3 => !a.slt b
  | 4 => a.ult b
  | 5 => !a.ult b
  | _ => false

/-- A flag register of the core (R140). -/
def Core.flag (k : Core) (n : Nat) : Word := SMap.get 0 k.flags n

/-- The test of `bf` (R133): ANY, ALL, NONE. -/
def flagTest (test : BitVec 2) (f : Word) : Bool :=
  match test.toNat with
  | 0 => f.getLsbD 16
  | 1 => f.getLsbD 17
  | 2 => f.getLsbD 18
  | _ => false

/-- The flag register that a `vflag` writes (R140, R192): COUNT among the first `n` bytes, ANY, ALL and NONE. -/
def flagReg (amb : Bool) (n : Nat) (a : Src) : Word := .ofNat 64 (flagWord (flagCount amb n a) n)

end Sys2Proof.Machine
end

