-- ==== Sys2Proof/Machine/Bundle.lean ====
section
/-!
DEFINITION. The end of a bundle (spec 09 R123, R124, R131, R133, R151; 07 R88 to R95): stores, register writes, the fault of
the bundle, transfers and links, the taking of a TRAP and the end of a firmware service (27 R370 to R373).
-/
namespace Sys2Proof.Machine

/-! ## Code fetch (R61, R88, R370) -/

/-- The line that a context fetches. -/
def fetchLine (s : State) (core obj line : Nat) : Except HwFault (BitVec 512) :=
  codeLine s ⟨portFetch core, 0⟩ (.job (workPart s core)) .fetch obj line

/-- Arguments of the record of a fault met by a code fetch: no ticket, the object and the tile. -/
def fetchArgs (s : State) (susp obj line : Nat) : List Word :=
  [.ofNat 64 (susp % 2 ^ 16 * 2 ^ 42), .ofNat 64 (domainId s obj), .ofNat 64 (line / 64), 0, 0]

/-- A fault of a code fetch of the core in focus other than a translation fault ends its launch (R88, R371). A CHAIN record names the
bundle or entry before the link, or the line where none has issued yet (R367; DEDUCED, log entry 63). -/
def raiseFetch (f : HwFault) (last : Origin) (obj line : Nat) (s : State) : State :=
  if f.code = 0x10 then raiseWith f 0 (.ofNat 64 (domainId s obj)) (.ofNat 64 (line / 64)) 0 s
  else if last.word = 0 then raiseWith f (coreArg0 s.focus.org.engine 0 0) 0 0 (.ofNat 64 (line % 2 ^ 25)) s
  else raiseWith f (coreArg0 s.focus.org.engine 0 0) last.w0 0 (coreArg3 last) s

/-- Check the place a context moved to: the line must be a code line of the sequencer and the word a bundle start; after the
last bundle of a line the link is followed (R88, R89, R95, R133). The target of a transfer beyond the object is CHAIN_BAD (R133). A translation fault leaves the check to be made again when
the line is first needed; in the firmware context it is a fault of that context. -/
def resolvePc : Nat → State → State
  | 0, s => s
  | fuel + 1, s =>
    let x := s.ctx
    if x.check = 0 then s else
    match fetchLine s s.focus.core x.obj x.line with
    | .error f =>
      if f.code = 0x0F ∧ !s.focus.fw then s
      else raiseFetch (if x.check = 3 ∧ f = accessFault 4 then chainFault 0 else f) x.last x.obj x.line s
    | .ok l =>
      if lineEngine l ≠ 0 ∨ lineKind l ≠ 0 then raiseFetch (chainFault 0) x.last x.obj x.line s
      else if x.check = 1 ∧ (x.word ≥ 16 ∨ lineWord l x.word = 0) then
        if lineNext l = chainEnd then raiseFetch (chainFault 1) x.last x.obj x.line s
        else resolvePc fuel (s.updCtx (fun x => { x with line := lineNext l, word := 1, check := 2 }))
      else if bundleStart l x.word then s.updCtx (fun x => { x with check := 0 })
      else raiseFetch (chainFault 0) x.last x.obj x.line s

/-- Move to what issues next after a bundle that ended as `x` stood (R88, R120, R133). -/
def moveOn (x : Ctx) (s : State) : State :=
  match x.xfer with
  | some (line, word) => resolvePc 3 (s.updCtx (fun y => { y with line := line, word := word, check := 3, stall := 2 }))
  | none => resolvePc 3 (s.updCtx (fun y => { y with check := 1 }))

/-! ## Traps and services (R151, R370 to R373) -/

/-- The record a TRAP request shows to its service (R372): CODE 0, SUB 0, written to no fault queue. -/
def trapWords (s : State) (code : Nat) : List Word :=
  let c := s.focus.core
  recordWords s c ⟨0, 0, 0⟩ false false (s.core c).tag (s.clock c) ((s.crewOf c).map (·.part))
    [.ofNat 64 (code % 256 * 2 ^ 20), 0, 0, coreArg3 s.focus.org]

/-- Take a TRAP (R151, R370): TRAP_CODE takes the code and the request is queued; the crew holds while it is there. -/
def takeTrap (code : Nat) (s : State) : State :=
  let c := s.focus.core
  (request s c ⟨1, s.now, c, trapWords s code, 0⟩).updCore c (fun k => { k with trapCode := .ofNat 8 code })

/-- A saved or restored member is finished when its service ends after the engine reported done (R379, R380). -/
def memberFinished (s : State) (core : Nat) : State :=
  { s with saved := s.saved.map (fun v => if v.crew.members.contains core && !v.finished.contains core
      then { v with finished := v.finished ++ [core] } else v) }

/-- The outcome of a service by FW_ACT (R371). `fail` carries SUB. -/
def serviceOutcome (r : FwReq) (fail : Option Nat) (s : State) : State :=
  let asProgram := fun (s : State) => { s with focus := { s.focus with fw := false, org := {} } }
  match r.kind, fail with
  | 1, none => s
  | 1, some sub =>
    let t := raiseWith (seqFault 6) (.ofNat 64 (sub % 16 * 2 ^ 16 + (s.fcore.trapCode).toNat * 2 ^ 20)) 0 0 (r.words.getD 6 0) (asProgram s)
    { t with focus := s.focus }
  | 2, none => { s with susps := s.susps.del r.susp }
  | 2, some sub =>
    let t := raiseWith (accessFault sub) 0 (r.words.getD 4 0) (r.words.getD 5 0) 0 (asProgram s)
    { t with focus := s.focus, susps := t.susps.del r.susp }
  | 3, none => resumeSusp s r.susp
  | 3, some sub =>
    match s.susps.find r.susp with
    | some (.cmd id) =>
      let s1 := { s with susps := s.susps.del r.susp }
      endOnFault s1 id (accessFault sub) (((s1.cmds.find id).map (·.place)).getD {})
    | _ => s
  | 4, _ => s
  | _, _ => if s.fcore.saveDone then memberFinished s s.focus.core else s

/-- End the service in progress (R151, R371): the requests of its kind are acted on as FW_ACT says. -/
def endService (s : State) : State :=
  match s.fcore.svc with
  | none => s
  | some r =>
    let s1 := serviceOutcome r (if s.fcore.fwAct then some s.fcore.fwSub.toNat else none) s
    s1.updF (fun k => { k with svc := none, fwAct := false, fwSub := 0, saveOp := 0, saveDone := false })

/-! ## The end of a bundle -/

/-- Store bytes at an address of a context's space (R124, R130). -/
def Core.storeAt (k : Core) (fw : Bool) (a : Nat) (b : List Byte) : Core :=
  if !fw then { k with seqMem := k.seqMem.setBytes a b }
  else if a < 0x4000 then { k with fwMem := k.fwMem.setBytes a b }
  else { k with seqMem := k.seqMem.setBytes (a - 0x80000000) b }

/-- Count a program bundle (R154). -/
def Core.countBundle (k : Core) : Core := { k with bundles := if k.bundles = BitVec.allOnes 48 then k.bundles else k.bundles + 1 }

/-- End the open bundle of the context in focus: its stores are made, the writes due land (R123, R124), a fault of the bundle
is taken (R131), before its trap or exit, which it takes the place of (log entry 98), and then its trap, return or exit takes effect, or the
context moves on. -/
def bundleEnd (s : State) : State :=
  let x := s.ctx
  let fw := s.focus.fw
  let s1 := s.updF (fun k => x.stores.foldl (fun k st => k.storeAt fw st.1 st.2) k)
  let s2 := s1.updCtx (fun x => { ({ x with bundles := x.bundles + 1 } : Ctx).landWrites with
    stores := [], words := 0, xfer := none, fault := none, ctl := .none, last := if x.xfer.isSome then x.last else s.focus.org })
  let s3 := if fw then s2 else s2.updF Core.countBundle
  match x.fault with
  | some (f, o) =>
    let t := raise f 0 0 { s3 with focus := { s3.focus with org := o } }
    { t with focus := s3.focus }
  | none =>
    match x.ctl with
    | .none => moveOn x s3
    | .trap code => moveOn x (takeTrap code s3)
    | .rfe => endService s3
    | .exit => s3.updCtx (fun y => { y.landAll 18 with wait := .exited })

/-- A word of a bundle has issued: the context passes it and its extension word, and the bundle ends with the last word. -/
def seqDone (e ext : Bool) (s : State) : State :=
  let n := if ext then 2 else 1
  let s1 := s.updCtx (fun x => { x with word := x.word + n, words := x.words + n })
  if e then bundleEnd s1 else s1

/-- A word that writes a general register with a latency and has no other effect. -/
def seqReg (e ext : Bool) (d : Reg) (lat : Nat) (v : Word) (s : State) : State := seqDone e ext (s.setG lat d v)

/-- A memory fault of a word: it has no effect, and the fault is taken at the end of its bundle (R131). -/
def bundleFault (f : HwFault) (s : State) : State :=
  s.updCtx (fun x => { x with fault := some (x.fault.getD (f, s.focus.org)) })

/-- A transfer to word `word` of line L + `off`, taken after the bundle (R95, R133). -/
def takeTransfer (off : Int) (word : Nat) (s : State) : State :=
  let line : Int := s.ctx.line + off
  s.updCtx (fun x => { x with xfer := some (if 0 ≤ line ∧ line < 2 ^ 25 then (line.toNat, word) else (x.line, 0)), last := s.focus.org })

/-- A transfer to a link (R133): line in bits [28:4], word in [3:0], the other bits zero. -/
def takeLink (v : Word) (s : State) : State :=
  s.updCtx (fun x => { x with xfer := some (if v.toNat < 2 ^ 29 then (v.toNat / 16, v.toNat % 16) else (x.line, 0)), last := s.focus.org })

/-- The word after the bundle that holds word `k` of a line. -/
def bundleNext (l : BitVec 512) : Nat → Nat → Nat
  | 0, k => k
  | fuel + 1, k => if (lineWord l k).getLsbD 29 then k + 1 else bundleNext l fuel (k + 1)

/-- The return link of `call`: the bundle start that would issue next without it; 0 if the chain ends here (R133). -/
def returnLink (s : State) : Word :=
  match fetchLine s s.focus.core s.ctx.obj s.ctx.line with
  | .error _ => 0
  | .ok l =>
    let k := bundleNext l 3 s.ctx.word
    if k ≤ 15 ∧ lineWord l k ≠ 0 then .ofNat 64 (s.ctx.line * 16 + k)
    else if lineNext l = chainEnd then 0 else .ofNat 64 (lineNext l * 16 + 1)

end Sys2Proof.Machine
end

