-- ==== Sys2Proof/Machine/Sequencer.lean ====
section
/-!
DEFINITION. The sequencer's instructions (spec 09 R120 to R152), one meaning per instruction. Each word reads its registers as
they stood at the start of its bundle; `seqDone` ends the bundle with its last word. The instructions that reach a port, the
matrix queue or a control register stand in `Ports.lean`, `Matrix.lean` and `Registers.lean`.
-/
namespace Sys2Proof.Machine

/-- The outcome type of a meaning. -/
abbrev Out := Host.Outcome State Fault Refusal

/-! ## Integer arithmetic (R126 to R128) -/

/-- Signed division truncated toward zero, with its two corners (R126). -/
def divWord (a b : Word) : Word :=
  if b = 0 then BitVec.allOnes 64 else if a = BitVec.intMin 64 ∧ b = BitVec.allOnes 64 then a else .ofInt 64 (a.toInt.tdiv b.toInt)
/-- The remainder of `divWord`, with the sign of a. -/
def remWord (a b : Word) : Word :=
  if b = 0 then a else if a = BitVec.intMin 64 ∧ b = BitVec.allOnes 64 then 0 else .ofInt 64 (a.toInt - b.toInt * a.toInt.tdiv b.toInt)
/-- Unsigned division; all ones for a zero divisor. -/
def divuWord (a b : Word) : Word := if b = 0 then BitVec.allOnes 64 else .ofNat 64 (a.toNat / b.toNat)
/-- Unsigned remainder; a for a zero divisor. -/
def remuWord (a b : Word) : Word := if b = 0 then a else .ofNat 64 (a.toNat % b.toNat)
/-- Bits [127:64] of the signed product. -/
def mulhWord (a b : Word) : Word := .ofInt 64 (a.toInt * b.toInt / 2 ^ 64)
/-- Bits [127:64] of the unsigned product. -/
def mulhuWord (a b : Word) : Word := .ofNat 64 (a.toNat * b.toNat / 2 ^ 64)
/-- A shift count: bits [5:0] (R126). -/
def shiftOf (b : Word) : Nat := b.toNat % 64
/-- Leading zeros; 64 for zero (R128). -/
def clzWord (a : Word) : Nat := if a = 0 then 64 else 63 - Nat.log2 a.toNat
/-- Trailing zeros; 64 for zero. -/
def ctzWord (a : Word) : Nat := ((List.range 64).find? (fun i => a.getLsbD i)).getD 64
/-- One bits. -/
def popcWord (a : Word) : Nat := ((List.range 64).filter (fun i => a.getLsbD i)).length
/-- The low `n` bits sign-extended. -/
def sextOf (n : Nat) (a : Word) : Word := (a.setWidth n).signExtend 64
/-- The low `n` bits zero-extended. -/
def zextOf (n : Nat) (a : Word) : Word := (a.setWidth n).setWidth 64

/-- `add` (R126). -/
def execAdd (e : Bool) (d a b : Reg) (s : State) : Out :=
  .next (seqReg e false d 1 (s.g a + s.g b) s)
/-- `sub` (R126). -/
def execSub (e : Bool) (d a b : Reg) (s : State) : Out :=
  .next (seqReg e false d 1 (s.g a - s.g b) s)
/-- `mul`: the low 64 bits, latency 3 (R123, R126). -/
def execMul (e : Bool) (d a b : Reg) (s : State) : Out :=
  .next (seqReg e false d 3 (s.g a * s.g b) s)
/-- `mulh` (R126). -/
def execMulh (e : Bool) (d a b : Reg) (s : State) : Out :=
  .next (seqReg e false d 3 (mulhWord (s.g a) (s.g b)) s)
/-- `mulhu` (R126). -/
def execMulhu (e : Bool) (d a b : Reg) (s : State) : Out :=
  .next (seqReg e false d 3 (mulhuWord (s.g a) (s.g b)) s)
/-- `div`: never faults, latency 18 (R123, R126). -/
def execDiv (e : Bool) (d a b : Reg) (s : State) : Out :=
  .next (seqReg e false d 18 (divWord (s.g a) (s.g b)) s)
/-- `divu` (R126). -/
def execDivu (e : Bool) (d a b : Reg) (s : State) : Out :=
  .next (seqReg e false d 18 (divuWord (s.g a) (s.g b)) s)
/-- `rem` (R126). -/
def execRem (e : Bool) (d a b : Reg) (s : State) : Out :=
  .next (seqReg e false d 18 (remWord (s.g a) (s.g b)) s)
/-- `remu` (R126). -/
def execRemu (e : Bool) (d a b : Reg) (s : State) : Out :=
  .next (seqReg e false d 18 (remuWord (s.g a) (s.g b)) s)
/-- `and` (R126). -/
def execAnd (e : Bool) (d a b : Reg) (s : State) : Out :=
  .next (seqReg e false d 1 (s.g a &&& s.g b) s)
/-- `or` (R126). -/
def execOr (e : Bool) (d a b : Reg) (s : State) : Out :=
  .next (seqReg e false d 1 (s.g a ||| s.g b) s)
/-- `xor` (R126). -/
def execXor (e : Bool) (d a b : Reg) (s : State) : Out :=
  .next (seqReg e false d 1 (s.g a ^^^ s.g b) s)
/-- `andn` (R126). -/
def execAndn (e : Bool) (d a b : Reg) (s : State) : Out :=
  .next (seqReg e false d 1 (s.g a &&& ~~~(s.g b)) s)
/-- `shl` (R126). -/
def execShl (e : Bool) (d a b : Reg) (s : State) : Out :=
  .next (seqReg e false d 1 (s.g a <<< shiftOf (s.g b)) s)
/-- `shr` (R126). -/
def execShr (e : Bool) (d a b : Reg) (s : State) : Out :=
  .next (seqReg e false d 1 (s.g a >>> shiftOf (s.g b)) s)
/-- `sar` (R126). -/
def execSar (e : Bool) (d a b : Reg) (s : State) : Out :=
  .next (seqReg e false d 1 ((s.g a).sshiftRight (shiftOf (s.g b))) s)
/-- `rol` (R126). -/
def execRol (e : Bool) (d a b : Reg) (s : State) : Out :=
  .next (seqReg e false d 1 ((s.g a).rotateLeft (shiftOf (s.g b))) s)
/-- `min`, signed (R126). -/
def execMin (e : Bool) (d a b : Reg) (s : State) : Out :=
  .next (seqReg e false d 1 (if (s.g b).slt (s.g a) then s.g b else s.g a) s)
/-- `max`, signed (R126). -/
def execMax (e : Bool) (d a b : Reg) (s : State) : Out :=
  .next (seqReg e false d 1 (if (s.g a).slt (s.g b) then s.g b else s.g a) s)
/-- `minu` (R126). -/
def execMinu (e : Bool) (d a b : Reg) (s : State) : Out :=
  .next (seqReg e false d 1 (if (s.g b).ult (s.g a) then s.g b else s.g a) s)
/-- `maxu` (R126). -/
def execMaxu (e : Bool) (d a b : Reg) (s : State) : Out :=
  .next (seqReg e false d 1 (if (s.g a).ult (s.g b) then s.g b else s.g a) s)
/-- `slt` (R126). -/
def execSlt (e : Bool) (d a b : Reg) (s : State) : Out :=
  .next (seqReg e false d 1 (if (s.g a).slt (s.g b) then 1 else 0) s)
/-- `sltu` (R126). -/
def execSltu (e : Bool) (d a b : Reg) (s : State) : Out :=
  .next (seqReg e false d 1 (if (s.g a).ult (s.g b) then 1 else 0) s)
/-- `addi`: the sign-extended immediate (R127). -/
def execAddi (e : Bool) (d a : Reg) (imm : BitVec 11) (x : Option (BitVec 29)) (s : State) : Out :=
  .next (seqReg e x.isSome d 1 (s.g a + immWord imm x) s)
/-- `andi`: the sign-extended immediate (R127). -/
def execAndi (e : Bool) (d a : Reg) (imm : BitVec 11) (x : Option (BitVec 29)) (s : State) : Out :=
  .next (seqReg e x.isSome d 1 (s.g a &&& immWord imm x) s)
/-- `ori`: the sign-extended immediate (R127). -/
def execOri (e : Bool) (d a : Reg) (imm : BitVec 11) (x : Option (BitVec 29)) (s : State) : Out :=
  .next (seqReg e x.isSome d 1 (s.g a ||| immWord imm x) s)
/-- `xori`: the sign-extended immediate (R127). -/
def execXori (e : Bool) (d a : Reg) (imm : BitVec 11) (x : Option (BitVec 29)) (s : State) : Out :=
  .next (seqReg e x.isSome d 1 (s.g a ^^^ immWord imm x) s)
/-- `shli` (R127). -/
def execShli (e : Bool) (d a : Reg) (n : BitVec 6) (s : State) : Out :=
  .next (seqReg e false d 1 (s.g a <<< n.toNat) s)
/-- `shri` (R127). -/
def execShri (e : Bool) (d a : Reg) (n : BitVec 6) (s : State) : Out :=
  .next (seqReg e false d 1 (s.g a >>> n.toNat) s)
/-- `sari` (R127). -/
def execSari (e : Bool) (d a : Reg) (n : BitVec 6) (s : State) : Out :=
  .next (seqReg e false d 1 ((s.g a).sshiftRight n.toNat) s)
/-- `lui`: sext(IMM) << 19 (R127). -/
def execLui (e : Bool) (d : Reg) (imm : BitVec 16) (x : Option (BitVec 29)) (s : State) : Out :=
  .next (seqReg e x.isSome d 1 (immWord imm x <<< 19) s)
/-- `clz` (R128). -/
def execClz (e : Bool) (d a : Reg) (s : State) : Out := .next (seqReg e false d 1 (.ofNat 64 (clzWord (s.g a))) s)
/-- `ctz` (R128). -/
def execCtz (e : Bool) (d a : Reg) (s : State) : Out := .next (seqReg e false d 1 (.ofNat 64 (ctzWord (s.g a))) s)
/-- `popc` (R128). -/
def execPopc (e : Bool) (d a : Reg) (s : State) : Out := .next (seqReg e false d 1 (.ofNat 64 (popcWord (s.g a))) s)
/-- `sext.b` (R128). -/
def execSextB (e : Bool) (d a : Reg) (s : State) : Out := .next (seqReg e false d 1 (sextOf 8 (s.g a)) s)
/-- `sext.h` (R128). -/
def execSextH (e : Bool) (d a : Reg) (s : State) : Out := .next (seqReg e false d 1 (sextOf 16 (s.g a)) s)
/-- `sext.w` (R128). -/
def execSextW (e : Bool) (d a : Reg) (s : State) : Out := .next (seqReg e false d 1 (sextOf 32 (s.g a)) s)
/-- `zext.b` (R128). -/
def execZextB (e : Bool) (d a : Reg) (s : State) : Out := .next (seqReg e false d 1 (zextOf 8 (s.g a)) s)
/-- `zext.h` (R128). -/
def execZextH (e : Bool) (d a : Reg) (s : State) : Out := .next (seqReg e false d 1 (zextOf 16 (s.g a)) s)
/-- `zext.w` (R128). -/
def execZextW (e : Bool) (d a : Reg) (s : State) : Out := .next (seqReg e false d 1 (zextOf 32 (s.g a)) s)

/-! ## Predicates and select (R129) -/

/-- `cmp` (R129). -/
def execCmp (e : Bool) (pd : PReg) (cc : BitVec 4) (a b : Reg) (s : State) : Out :=
  .next (seqDone e false (s.setP pd (ccHolds cc (s.g a) (s.g b))))
/-- `cmpi` (R129). -/
def execCmpi (e : Bool) (pd : PReg) (cc : BitVec 4) (a : Reg) (imm : BitVec 9) (x : Option (BitVec 29)) (s : State) : Out :=
  .next (seqDone e x.isSome (s.setP pd (ccHolds cc (s.g a) (immWord imm x))))
/-- `pand` (R129). -/
def execPand (e : Bool) (pd pa pb : PReg) (s : State) : Out := .next (seqDone e false (s.setP pd (s.p pa && s.p pb)))
/-- `por` (R129). -/
def execPor (e : Bool) (pd pa pb : PReg) (s : State) : Out := .next (seqDone e false (s.setP pd (s.p pa || s.p pb)))
/-- `pxor` (R129). -/
def execPxor (e : Bool) (pd pa pb : PReg) (s : State) : Out := .next (seqDone e false (s.setP pd (s.p pa != s.p pb)))
/-- `pnot` (R129). -/
def execPnot (e : Bool) (pd pa : PReg) (s : State) : Out := .next (seqDone e false (s.setP pd (!s.p pa)))
/-- `sel` (R129). -/
def execSel (e : Bool) (d a b : Reg) (neg : BitVec 1) (p : PReg) (s : State) : Out :=
  .next (seqReg e false d 1 (if s.p p != (neg = 1) then s.g a else s.g b) s)

/-! ## Loads and stores (R130 to R132) -/

/-- Where an address of a context leads (R130). -/
inductive SeqAddr where
  | seqMem (a : Nat)
  | fwMem (a : Nat)
  | const (o : Nat)
  | none
deriving DecidableEq, Repr

/-- The address map of R130. -/
def seqAddr (fw : Bool) (a : Nat) : SeqAddr :=
  if fw then
    if a < 0x4000 then .fwMem a
    else if 0x80000000 ≤ a ∧ a < 0x80020000 then .seqMem (a - 0x80000000)
    else .none
  else if a < 0x20000 then .seqMem a
  else if 0x100000000 ≤ a then .const (a - 0x100000000)
  else .none

/-- The effective address of a load or store (R131). -/
def effAddr (a : Reg) (imm : BitVec 11) (x : Option (BitVec 29)) (s : State) : Nat := (s.g a + immWord imm x).toNat

/-- The register value of `n` loaded bytes: sign- or zero-extended (R131). -/
def loaded (n : Nat) (signed : Bool) (v : Nat) : Word := if signed then sextOf (8 * n) (.ofNat 64 v) else .ofNat 64 v

/-- A load of `n` bytes. An address outside R130 is judged before its alignment (log entry 13). A constant line not held keeps the bundle from
issuing; one beyond the object's extent is CONST_LINE as R132 says, not the BOUNDS of R113 (DESIGN CHOICE, log entry 82). -/
def seqLoad (n : Nat) (signed e : Bool) (d a : Reg) (imm : BitVec 11) (x : Option (BitVec 29)) (s : State) : State :=
  let ea := effAddr a imm x s
  let bad := fun sub => seqDone e x.isSome (bundleFault (seqFault sub) s)
  let give := fun v => seqReg e x.isSome d 3 (loaded n signed v) s
  match seqAddr s.focus.fw ea with
  | .none => bad 0
  | .seqMem m => if ea % n ≠ 0 then bad 1 else give (s.fcore.seqMem.load m n)
  | .fwMem m => if ea % n ≠ 0 then bad 1 else give (s.fcore.fwMem.load m n)
  | .const o =>
    if ea % n ≠ 0 then bad 1 else
    match s.ctx.buf with
    | some (l, some line) => if l = o / 64 then give (line.toNat / 2 ^ (8 * (o % 64)) % 2 ^ (8 * n))
        else s.updF (fun k => { k with lineMiss := some (o / 64) })
    | some (l, none) => if l = o / 64 then bad 5 else s.updF (fun k => { k with lineMiss := some (o / 64) })
    | none => s.updF (fun k => { k with lineMiss := some (o / 64) })

/-- A store of `n` bytes, made at the end of the bundle (R124, R131). -/
def seqStore (n : Nat) (e : Bool) (src a : Reg) (imm : BitVec 11) (x : Option (BitVec 29)) (s : State) : State :=
  let ea := effAddr a imm x s
  let bad := fun sub => seqDone e x.isSome (bundleFault (seqFault sub) s)
  match seqAddr s.focus.fw ea with
  | .none => bad 0
  | .const _ => bad 0
  | _ => if ea % n ≠ 0 then bad 1
    else seqDone e x.isSome (s.updCtx (fun y => { y with stores := y.stores ++ [(ea, bytesOfNat n (s.g src).toNat)] }))

/-- `ld.b` (R131). -/
def execLdB (e : Bool) (d a : Reg) (imm : BitVec 11) (x : Option (BitVec 29)) (s : State) : Out :=
  .next (seqLoad 1 true e d a imm x s)
/-- `ld.h` (R131). -/
def execLdH (e : Bool) (d a : Reg) (imm : BitVec 11) (x : Option (BitVec 29)) (s : State) : Out :=
  .next (seqLoad 2 true e d a imm x s)
/-- `ld.w` (R131). -/
def execLdW (e : Bool) (d a : Reg) (imm : BitVec 11) (x : Option (BitVec 29)) (s : State) : Out :=
  .next (seqLoad 4 true e d a imm x s)
/-- `ld.d` (R131). -/
def execLdD (e : Bool) (d a : Reg) (imm : BitVec 11) (x : Option (BitVec 29)) (s : State) : Out :=
  .next (seqLoad 8 true e d a imm x s)
/-- `ldu.b` (R131). -/
def execLduB (e : Bool) (d a : Reg) (imm : BitVec 11) (x : Option (BitVec 29)) (s : State) : Out :=
  .next (seqLoad 1 false e d a imm x s)
/-- `ldu.h` (R131). -/
def execLduH (e : Bool) (d a : Reg) (imm : BitVec 11) (x : Option (BitVec 29)) (s : State) : Out :=
  .next (seqLoad 2 false e d a imm x s)
/-- `ldu.w` (R131). -/
def execLduW (e : Bool) (d a : Reg) (imm : BitVec 11) (x : Option (BitVec 29)) (s : State) : Out :=
  .next (seqLoad 4 false e d a imm x s)
/-- `st.b` (R131). -/
def execStB (e : Bool) (d a : Reg) (imm : BitVec 11) (x : Option (BitVec 29)) (s : State) : Out :=
  .next (seqStore 1 e d a imm x s)
/-- `st.h` (R131). -/
def execStH (e : Bool) (d a : Reg) (imm : BitVec 11) (x : Option (BitVec 29)) (s : State) : Out :=
  .next (seqStore 2 e d a imm x s)
/-- `st.w` (R131). -/
def execStW (e : Bool) (d a : Reg) (imm : BitVec 11) (x : Option (BitVec 29)) (s : State) : Out :=
  .next (seqStore 4 e d a imm x s)
/-- `st.d` (R131). -/
def execStD (e : Bool) (d a : Reg) (imm : BitVec 11) (x : Option (BitVec 29)) (s : State) : Out :=
  .next (seqStore 8 e d a imm x s)

/-! ## Control transfer (R133 to R135) -/

/-- `br` (R133). -/
def execBr (e : Bool) (neg : BitVec 1) (p : PReg) (loff : BitVec 11) (word : BitVec 4) (x : Option (BitVec 29)) (s : State) : Out :=
  .next (seqDone e x.isSome (if s.p p != (neg = 1) then takeTransfer (extImm loff x) word.toNat s else s))
/-- `bf` (R133). -/
def execBf (e : Bool) (test : BitVec 2) (f : BitVec 4) (loff : BitVec 11) (word : BitVec 4) (x : Option (BitVec 29)) (s : State) : Out :=
  .next (seqDone e x.isSome (if flagTest test (s.fcore.flag f.toNat) then takeTransfer (extImm loff x) word.toNat s else s))
/-- `jmp` (R133). -/
def execJmp (e : Bool) (loff : BitVec 11) (word : BitVec 4) (x : Option (BitVec 29)) (s : State) : Out :=
  .next (seqDone e x.isSome (takeTransfer (extImm loff x) word.toNat s))
/-- `jr` (R133). -/
def execJr (e : Bool) (a : Reg) (s : State) : Out := .next (seqDone e false (takeLink (s.g a) s))
/-- The state in which the word at the context's place, with its extension word, has been passed. -/
def pastWord (ext : Bool) (s : State) : State := s.updCtx (fun x => { x with word := x.word + (if ext then 1 else 0) })
/-- `call`: g31 takes the return link (R133). -/
def execCall (e : Bool) (loff : BitVec 11) (word : BitVec 4) (x : Option (BitVec 29)) (s : State) : Out :=
  .next (seqDone e x.isSome (takeTransfer (extImm loff x) word.toNat (s.setG 1 31 (returnLink (pastWord x.isSome s)))))
/-- `ret`: as `jr g31` (R133). -/
def execRet (e : Bool) (s : State) : Out := .next (seqDone e false (takeLink (s.g 31) s))
/-- `loop`: decrements and is taken while the new value is not zero (R134). -/
def execLoop (e : Bool) (a : Reg) (loff : BitVec 12) (word : BitVec 4) (x : Option (BitVec 29)) (s : State) : Out :=
  let v := s.g a - 1
  let s1 := s.setG 1 a v
  .next (seqDone e x.isSome (if v ≠ 0 then takeTransfer (extImm loff x) word.toNat s1 else s1))
/-- A fault of a word, which then has no other effect. -/
def seqRaise (e ext : Bool) (f : HwFault) (unit : Nat) (s : State) : State := seqDone e ext (raise f 0 unit s)
/-- `exit` (R135); SEQ PRIV in the firmware context (R151). -/
def execExit (e : Bool) (s : State) : Out :=
  if s.focus.fw then .next (seqRaise e false (seqFault 2) 0 s)
  else .next (seqDone e false (s.updCtx (fun x => { x with ctl := .exit })))
/-- `trap`, at the end of its bundle; TRAP_NEST in the firmware context (R151). -/
def execTrap (e : Bool) (imm : BitVec 11) (x : Option (BitVec 29)) (s : State) : Out :=
  if s.focus.fw then .next (seqRaise e x.isSome (seqFault 4) 0 s)
  else .next (seqDone e x.isSome (s.updCtx (fun y => { y with ctl := .trap ((immWord imm x).toNat % 256) })))
/-- `rfe` ends the service in progress; SEQ PRIV in the program context (R151, R371). -/
def execRfe (e : Bool) (s : State) : Out :=
  if !s.focus.fw then .next (seqRaise e false (seqFault 2) 0 s)
  else .next (seqDone e false (s.updCtx (fun x => { x with ctl := .rfe })))
/-- `nop` (R135). -/
def execNop (e : Bool) (s : State) : Out := .next (seqDone e false s)

/-! ## Streams and the crew clock (R30, R136 to R138, R400) -/

/-- Whether `arm` and `disarm` are refused to the context: to the firmware context unless the crew is frozen, and while the save
engine has been started or the restore engine runs (R151, R400). -/
def armPriv (s : State) : Bool :=
  s.focus.fw && (!s.frozen s.focus.core || s.fcore.saveOp == 1 || (s.fcore.saveOp == 2 && !s.fcore.saveDone))

/-- The crew cycle at which an `arm` is judged: the current one, f − 1 in the firmware context (R30, R400). -/
def armCycle (s : State) : Int := if s.focus.fw then (s.now0 : Int) - 1 else s.now0

/-- Whether a stream still runs a chain at a cycle: past its start, or before the cycle after its last entry (R30, R155). -/
def Stream.busy (t : Stream) (c : Int) : Bool := if t.active then decide ((t.start : Int) ≤ c) else decide (c < t.base)

/-- Arm stream `u` with the chain at line L + `off` (R30). ALLOT_USE is judged before ARM_BUSY and ARM_LATE (R136; log entry 98). -/
def armStream (u : Nat) (off : Int) (start : Nat) (s : State) : State :=
  let c := armCycle s
  if u < 8 && !hasBank u s then raise allotUse 0 0 s
  else if (s.fcore.stream u).busy c then raise (timing 7) 0 0 s
  else if (start : Int) ≤ c then raise (timing 6) 0 0 s
  else
    let at0 : Int := s.ctx.line + off
    let line := if 0 ≤ at0 ∧ at0 < 2 ^ 25 then at0.toNat else chainEnd
    let obj := s.ctx.obj
    s.updF (fun k => k.updStream u (fun t => ⟨true, start, obj, line, 0, start, t.rd, {}⟩))

/-- `arm` (R136, R400). -/
def execArm (e : Bool) (stream : BitVec 4) (a : Reg) (loff : BitVec 12) (x : Option (BitVec 29)) (s : State) : Out :=
  if armPriv s then .next (seqRaise e x.isSome (seqFault 2) 0 s)
  else .next (seqDone e x.isSome (armStream stream.toNat (extImm loff x) ((s.g a).toNat % 2 ^ 48) s))
/-- `disarm`: no further entry issues; an idle stream is left as it is (R30, R136). -/
def execDisarm (e : Bool) (stream : BitVec 4) (x : Option (BitVec 29)) (s : State) : Out :=
  let u := stream.toNat
  if armPriv s then .next (seqRaise e x.isSome (seqFault 2) 0 s)
  else if u < 8 && !hasBank u s then .next (seqRaise e x.isSome allotUse 0 s)
  else .next (seqDone e x.isSome (s.updF (fun k => k.updStream u (fun t => { t with active := false, base := 0 }))))
/-- `sync` (R137). -/
def execSync (e : Bool) (d a : Reg) (s : State) : Out :=
  let t := (s.g a).toNat % 2 ^ 48
  let c := s.now0
  if s.focus.fw && s.still s.focus.core then .next (seqReg e false d 1 0 s)
  else
    let s1 := s.setG 1 d (if t < c then .ofNat 64 (c - t) else 0)
    .next (seqDone e false (if c < t then s1.updCtx (fun x => { x with wait := .sync t }) else s1))
/-- `cyc` (R137). -/
def execCyc (e : Bool) (d : Reg) (s : State) : Out := .next (seqReg e false d 1 (.ofNat 64 s.now0) s)
/-- `idle` (R138): the register takes the outcome when the wait ends. -/
def execIdle (e : Bool) (d a : Reg) (imm : BitVec 11) (x : Option (BitVec 29)) (s : State) : Out :=
  let w := (s.g a + immWord imm x).toNat % 2 ^ 48
  if s.focus.fw && w = 0 && (s.crewOf s.focus.core).isNone then .next (seqReg e x.isSome d 1 0 s)
  else
    let limit := if w = 0 then none else some (if s.focus.fw then w else s.now0 + w)
    .next (seqDone e x.isSome (s.updCtx (fun y => { y with wait := .idle limit d })))

/-! ## Operand files, flags and semaphores (R139 to R146) -/

/-- The value of `setof` in every element (R139). -/
def setofRow (ty : Fmt) (v : Word) : Row :=
  let x := fp32.decode (v.toNat % 2 ^ 32)
  let code : Nat :=
    match fmtFloat ty with
    | some ff => if ty = .f32 then (if x.isNan then fp32.nanCode else v.toNat % 2 ^ 32) else ff.conv .rne false 0 x
    | none => let (lo, hi) := intRange ty; wrapTo (fmtBits ty) (clampInt lo hi v.toInt)
  rowOf ty (List.replicate (fmtElems ty) code) [] false

/-- `setof`: applied at the end of crew cycle c + 3 (R139). With no launch on the core no crew cycle passes and it is applied
at once (log entry 14). -/
def execSetof (e : Bool) (stn : BitVec 3) (ofi : BitVec 4) (a : Reg) (ty : BitVec 4) (s : State) : Out :=
  let row := setofRow (Fmt.ofCode ty.toNat) (s.g a)
  let u := 8 + stn.toNat
  if (s.crewOf s.focus.core).isNone then
    .next (seqDone e false (s.updF (fun k => k.updStn u (fun t => { t with ofs := t.ofs.put ofi.toNat row }))))
  else .next (seqDone e false (s.later (s.now0 + 3) (.setOf s.focus.fw u ofi.toNat row)))
/-- `fget` (R140). -/
def execFget (e : Bool) (d : Reg) (f : BitVec 4) (s : State) : Out := .next (seqReg e false d 1 (s.fcore.flag f.toNat) s)
/-- `hsig`: counts at c + 2 at the issuing core, at c + 10 at another member (R144). ALLOT_USE is judged before SEM_TARGET (log entry 98). -/
def execHsig (e : Bool) (h a : Reg) (imm : BitVec 9) (s : State) : Out :=
  let c := s.focus.core
  let target := c / 40 * 40 + (s.g a).toNat % 64
  if !hasHsem h.toNat s then .next (seqRaise e false allotUse h.toNat s)
  else if (s.g a).toNat % 64 ≥ 40 || !(match s.crewOf c with | some w => w.members.contains target | none => false) then
    .next (seqRaise e false (seqFault 3) h.toNat s)
  else .next (seqDone e false (hsemChange s target
    ⟨s.now0 + (if target = c then 2 else 10), h.toNat, imm.toInt, some (c, s.focus.fw)⟩))
/-- `hwait`: holds the crew with cause SEM while its comparison is false (R145); SEQ PRIV in the firmware context (R151). -/
def execHwait (e : Bool) (h : Reg) (op : BitVec 2) (a : Reg) (imm : BitVec 9) (s : State) : Out :=
  if s.focus.fw then .next (seqRaise e false (seqFault 2) 0 s)
  else if !hasHsem h.toNat s then .next (seqRaise e false allotUse h.toNat s)
  else if hsemHolds op.toNat (s.fcore.h h.toNat).toNat ((s.g a + immWord imm none).toNat % 2 ^ 16) then .next (seqDone e false s)
  else .next (askHold 2 s)
/-- `hrd` (R146). -/
def execHrd (e : Bool) (d h : Reg) (s : State) : Out :=
  if !hasHsem h.toNat s then .next (seqRaise e false allotUse h.toNat s)
  else .next (seqReg e false d 1 (.ofNat 64 (s.fcore.h h.toNat).toNat) s)

/-! ## System instructions (R148 to R150) -/

/-- `fence` (R148). -/
def execFence (e : Bool) (scope : BitVec 3) (s : State) : Out :=
  .next (seqDone e false (s.updCtx (fun x => { x with wait := .fence scope.toNat s.nextId })))
/-- `tstamp` (R149). -/
def execTstamp (e : Bool) (d : Reg) (s : State) : Out := .next (seqReg e false d 1 (.ofNat 64 s.now) s)
/-- `fwshare`: N becomes the larger of IMM and MIN (R150). -/
def execFwshare (e : Bool) (imm : BitVec 11) (x : Option (BitVec 29)) (s : State) : Out :=
  .next (seqDone e x.isSome (s.updF (fun k => { k with fwN := .ofNat 6 (max ((immWord imm x).toNat % 64) k.fwMin.toNat) })))

/-! ## The waits of a context end (R120, R132, R137, R138, R148) -/

/-- Change a context named by an event. -/
def updCtxOf (core : Nat) (fw : Bool) (f : Ctx → Ctx) (s : State) : State := s.updCore core (fun k => k.setCtx fw (f (k.ctx fw)))

/-- SYNC_RELEASE: the crew cycle awaited has come (R137). -/
def execSyncRelease (core : Nat) (fw : Bool) (s : State) : Out :=
  match ((s.core core).ctx fw).wait with
  | .sync t => .next (if t ≤ s.clock core ∨ (fw ∧ s.still core) then updCtxOf core fw (fun x => { x with wait := .none }) s else s)
  | _ => .next s
/-- IDLE_WAKE: a semaphore changed or the limit is reached; the register takes 1 or 0 (R138). -/
def execIdleWake (core : Nat) (fw : Bool) (s : State) : Out :=
  match ((s.core core).ctx fw).wait with
  | .idle limit d =>
    let moved := (if fw then (s.core core).fwMoved else (s.core core).hsemMoved) && (s.crewOf core).isSome
    let ended := match limit with
      | some t => if fw then t = 0 else decide (t ≤ s.clock core)
      | none => (s.crewOf core).isNone
    .next (if moved || ended then
      updCtxOf core fw (fun x => ({ x with wait := .none }).land ⟨0, false, d.toNat, if moved then 1 else 0⟩) s else s)
  | _ => .next s
/-- Whether a `fence` of a scope is satisfied (R148): from CREW on, no command that the context accepted before it, numbered below `upTo`, is
incomplete; from DEVICE on, nothing that its commands left dirty in a cache part is still to be seen at the scope. -/
def fenceHolds (core : Nat) (fw : Bool) (scope upTo : Nat) (s : State) : Bool :=
  let k := s.core core
  !k.pend.any (fun p => match p.eff with | .setOf f _ _ _ => f == fw | _ => false) &&
  !k.hsemPend.any (fun c => c.src == some (core, fw)) &&
  (scope == 0 ||
    (!s.cores.any (fun p => p.2.hsemPend.any (fun c => c.src == some (core, fw))) &&
     !s.cmds.any (fun p => decide (p.1 < upTo) && (match p.2.issuer with | .ctx c f _ => c == core && f == fw | .record _ => false)) &&
     !(k.ctx fw).unseen.any (fun d => scopeSel scope d.2 && dirtyAt s d)))
/-- FENCE_COMPLETE (R148). -/
def execFenceComplete (core : Nat) (fw : Bool) (s : State) : Out :=
  match ((s.core core).ctx fw).wait with
  | .fence scope upTo => .next (if fenceHolds core fw scope upTo s then updCtxOf core fw (fun x => { x with wait := .none }) s else s)
  | _ => .next s
/-- A suspended code fetch takes its number and asks the firmware for service (R370, R371). -/
def numberFetch (f : HwFault) (core obj line n : Nat) (s : State) : State :=
  let words := recordWords s core f false false (s.core core).tag (s.clock core) (workPart s core) (fetchArgs s n obj line)
  let s1 := putRecord s (recordQueue s (workPart s core) (some core)) words
  request { s1 with susps := s1.susps.put n (.fetch core false) } core ⟨2, s.now, core, words, n⟩

/-- Whether a code fetch of a core waits for a suspension number (R371). -/
def fetchWaits (s : State) (core : Nat) : Bool := s.suspWait.any (fun w => w.who == .fetch core false)

/-- Suspend a code fetch of a core on a translation fault, once: a request stands until its service has ended (R370, R371). -/
def suspendFetch (f : HwFault) (core obj line : Nat) (s : State) : State :=
  if (s.core core).fwHolds || fetchWaits s core then s else
  match freeSusp s with
  | none => waitSusp core (.fetch core false) f { obj := obj, tile := line / 64, dtile := line } s
  | some n => numberFetch f core obj line n s
/-- CONST_LINE_READY: the line buffer takes the line, or that R132 does not allow it; a translation fault asks for service. -/
def execConstLineReady (core : Nat) (s : State) : Out :=
  let x := (s.core core).prog
  match x.wait with
  | .line l =>
    let held := fun v => updCtxOf core false (fun x => { x with wait := .none, buf := some (l, v) }) s
    match fetchLine s core x.obj l with
    | .ok b => .next (held (if lineKind b = 1 ∧ lineEngine b = 0 then some b else none))
    | .error f =>
      if f.code = 0x0F then .next (suspendFetch f core x.obj l s)
      else if f.sub = 6 ∨ f.sub = 7 then
        let t := raiseFetch f {} x.obj l { s with focus := { core := core } }
        .next { t with focus := s.focus }
      else .next (held none)
  | _ => .next s

end Sys2Proof.Machine
end

