-- ==== Sys2Proof/Machine/BankEntries.lean ====
section
/-!
DEFINITION. Bank entries and the entries of every station (spec 11 R155, R168 to R173). The scheduler has advanced the stream
past the entry before its meaning runs.
-/
namespace Sys2Proof.Machine

/-- The lane an operand field names; bank entries name only lanes (R97). -/
def laneNo : Opnd → Nat
  | .lane l => l.toNat
  | _ => 0

/-- What a bank write of the stream in focus uses (R74 to R76). -/
def bankCtx (s : State) : BankCtx :=
  let b := s.fcore.bank s.focus.stn
  ⟨b.fmt, b.cb, s.rnd, s.cbs, s.cbPois⟩

/-- Read one or two rows: each is read during c + 1 and put then (R168). -/
def bankRead (lane row : Nat) (s : State) : State :=
  s.later (s.now0 + 1) (.bankRead s.focus.stn lane row (s.fcore.bank s.focus.stn).fmt)

/-- The ring row of R169, and the ring pointer after it. -/
def ringRow (rp base len off adv : Nat) : Nat × Nat :=
  let n := if len = 0 then 2048 else len
  (base + (rp + off) % n, if adv = 1 then (rp + 1) % n else rp)

/-- Move the ring pointer of the bank in focus. -/
def setRp (rp : Nat) (s : State) : State := s.updF (fun k => k.updBank s.focus.stn (fun b => { b with rp := rp }))

/-- A write entry: the source is tapped and converted at issue, the array is written at the end of c + 1 (R168, R170). -/
def bankWrite (h : Ent) (row part : Nat) (mask : Option (BitVec 16)) (s : State) : Except State State :=
  if !hasBank s.focus.stn s then .error (raise allotUse 0 s.focus.stn s) else
  match tapLane s.focus.stn (laneNo h.sa) s with
  | .error e => .error e
  | .ok (x, s1) => match prepWrite (bankCtx s1) x part mask with
    | .error f => .error (raise f h.sa.code 0 s1)
    | .ok (p, rd) => .ok ((s1.setRnd rd).later (s.now0 + 1) (.bankWrite s.focus.stn row p))

/-- The state of a meaning that either faulted or went on. -/
def either (r : Except State State) : State :=
  match r with
  | .ok s => s
  | .error s => s

/-- `rd` (R168). -/
def execRd (h : Ent) (row : BitVec 11) (s : State) : Out := .next (bankRead (laneNo h.dst) row.toNat s)
/-- `rdx` (R169). -/
def execRdx (h : Ent) (base len : BitVec 11) (off : BitVec 5) (adv : BitVec 1) (s : State) : Out :=
  let (row, rp) := ringRow (s.fcore.bank s.focus.stn).rp base.toNat len.toNat off.toNat adv.toNat
  .next (bankRead (laneNo h.dst) row (setRp rp s))
/-- `rdb`: both rows in one cycle (R168). -/
def execRdb (h : Ent) (rowA rowB : BitVec 11) (s : State) : Out :=
  .next (bankRead (laneNo h.sa) rowB.toNat (bankRead (laneNo h.dst) rowA.toNat s))
/-- `wr` (R168). -/
def execWr (h : Ent) (row : BitVec 11) (part : BitVec 3) (s : State) : Out := .next (either (bankWrite h row.toNat part.toNat none s))
/-- `wrx` (R168, R169). -/
def execWrx (h : Ent) (base len : BitVec 11) (off : BitVec 5) (adv : BitVec 1) (s : State) : Out :=
  let (row, rp) := ringRow (s.fcore.bank s.focus.stn).rp base.toNat len.toNat off.toNat adv.toNat
  .next (match bankWrite h row 0 none s with
    | .ok s1 => setRp rp s1
    | .error s1 => s1)
/-- `wrb` (R170). -/
def execWrb (h : Ent) (row : BitVec 11) (gmask : BitVec 16) (s : State) : Out := .next (either (bankWrite h row.toNat 0 (some gmask) s))
/-- `fill` (R171). -/
def execBankFill (h : Ent) (row count : BitVec 11) (s : State) : Out :=
  let n := if count = 0 then 2048 else count.toNat
  let u := s.focus.stn
  if !hasBank u s then .next (raise allotUse 0 u s) else
  match h.sa with
  | .lane l =>
    .next (match tapLane u l.toNat s with
    | .error e => e
    | .ok (x, s1) => match prepWrite (bankCtx s1) x 0 none with
      | .error f => raise f h.sa.code 0 s1
      | .ok (p, rd) => (s1.setRnd rd).later (s.now0 + 1) (.bankFill u row.toNat n p))
  | _ =>
    let f := (s.fcore.bank u).fmt
    .next (s.later (s.now0 + 1) (.bankFill u row.toNat n ⟨f, 0, fmtElems f, Row.zero f, none⟩))

/-- Set the numeric state of the stream in focus (R72, R173); a loaded seed of zero loads 1 (R71). -/
def setMode (seedv : BitVec 16) (rnd : BitVec 3) (sat : BitVec 1) (seed : BitVec 2) (src : Src) (s : State) : State :=
  let rd := s.rnd
  let g : BitVec 32 := match seed.toNat, src with
    | 1, _ => seedOf (seedv.setWidth 32)
    | 2, .row r => seedOf (r.data.setWidth 32)
    | _, _ => rd.g
  s.setRnd { mode := RMode.ofCode rnd.toNat, sat8 := sat = 1, g := g }

/-- The `mode` entry of banks and stations: with SEED 2 its source is read, and checked as `chk` checks it (R173). -/
def modeEntry (h : Ent) (seedv : BitVec 16) (rnd : BitVec 3) (sat : BitVec 1) (seed : BitVec 2) (s : State) : State :=
  if seed.toNat = 2 then
    match readOpnd h.sa h.imm s with
    | .error e => e
    | .ok (a, s1) => if a.poison then raise (poisonFault 0) h.sa.code 0 s1 else setMode seedv rnd sat seed a s1
  else setMode seedv rnd sat seed .none s

/-- The bank `mode` (R168, R173). -/
def execBankMode (h : Ent) (seedv : BitVec 16) (rnd : BitVec 3) (sat : BitVec 1) (seed : BitVec 2) (s : State) : Out :=
  .next (modeEntry h seedv rnd sat seed s)

/-- `fmt` (R172): the format and codebook number change for what issues later, the rows are cleared at the end of c + 1. -/
def execFmt (h : Ent) (f : BitVec 4) (cb : BitVec 2) (load : BitVec 1) (s : State) : Out :=
  let u := s.focus.stn
  let set := fun (s : State) =>
    (s.updF (fun k => k.updBank u (fun b => { b with fmt := Fmt.ofCode f.toNat, cb := cb.toNat }))).later (s.now0 + 1) (.fmtLand u)
  if load = 1 then
    .next (match tapLane u (laneNo h.sa) s with
    | .error e => e
    | .ok (x, s1) => (set s1).later (s.now0 + 1) (.cbLoad cb.toNat (x.data.setWidth 256) x.poison))
  else .next (set s)

/-- Let W further cycles pass before the next entry of the stream in focus (R155). -/
def waitEntry (n : BitVec 24) (s : State) : State :=
  s.updF (fun k => k.updStream s.focus.stn (fun t => { t with base := t.base + n.toNat }))

/-- The bank `wait` (R155, R168). -/
def execBankWait (_h : Ent) (n : BitVec 24) (s : State) : Out := .next (waitEntry n s)
/-- The station `nop`: it occupies an issue (R173). -/
def execStnNop (_h : Ent) (s : State) : Out := .next s
/-- The station `wait` (R155, R173). -/
def execStnWait (_h : Ent) (n : BitVec 24) (s : State) : Out := .next (waitEntry n s)
/-- The station `mode` (R173); with SEED 2 it accepts a bounded operand (log entry 95). -/
def execStnMode (h : Ent) (seedv : BitVec 16) (rnd : BitVec 3) (sat : BitVec 1) (seed : BitVec 2) (s : State) : Out :=
  .next (modeEntry h seedv rnd sat seed s)
/-- `chk`: POISON CHK if either operand is poisoned (R167, R173); a bounded operand raises nothing (log entry 95). -/
def execChk (h : Ent) (s : State) : Out :=
  .next (match readSources h s with
  | .error e => e
  | .ok (a, b, s1) =>
    if a.poison then raise (poisonFault 0) h.sa.code 0 s1
    else if b.poison then raise (poisonFault 0) h.sb.code 0 s1 else s1)

end Sys2Proof.Machine
end

