-- ==== Sys2Proof/Machine/Vector.lean ====
section
/-!
DEFINITION. The entries of VA, VB, SF, PX and RD (spec 11 R174 to R192): each reads its operands at issue, computes its row by
the functions of `VecOps.lean`, and gives the result to DST and LL after its latency.
-/
namespace Sys2Proof.Machine

/-! ## VA and VB (R174 to R179) -/

/-- `vadd` (R174, R179). -/
def execVadd (h : Ent) (s : State) : Out :=
  .next (stationEntry h 2 (fun s a b => rowAddSub false h.ty s.rnd a b) s)
/-- `vsub` (R174, R179). -/
def execVsub (h : Ent) (s : State) : Out :=
  .next (stationEntry h 2 (fun s a b => rowAddSub true h.ty s.rnd a b) s)
/-- `vmul` (R174, R179). -/
def execVmul (h : Ent) (s : State) : Out :=
  .next (stationEntry h 4 (fun s a b => rowMul h.ty s.rnd a b) s)
/-- `vfma` (R177). -/
def execVfma (h : Ent) (init : BitVec 1) (s : State) : Out :=
  .next (stationEntry h 4 (fun s a b => rowFma false (init = 1) h.ty s.rnd (readDst h s) a b) s)
/-- `vfms` (R177). -/
def execVfms (h : Ent) (init : BitVec 1) (s : State) : Out :=
  .next (stationEntry h 4 (fun s a b => rowFma true (init = 1) h.ty s.rnd (readDst h s) a b) s)
/-- `vmin` (R174). -/
def execVmin (h : Ent) (s : State) : Out :=
  .next (stationEntry h 2 (fun s a b => rowMinMax false h.ty s.rnd a b) s)
/-- `vmax` (R174). -/
def execVmax (h : Ent) (s : State) : Out :=
  .next (stationEntry h 2 (fun s a b => rowMinMax true h.ty s.rnd a b) s)
/-- `vabs` (R174). -/
def execVabs (h : Ent) (s : State) : Out :=
  .next (stationEntry h 2 (fun s a _ => rowUnary Val.abs (fun i => i.natAbs) h.ty s.rnd a) s)
/-- `vneg` (R174). -/
def execVneg (h : Ent) (s : State) : Out :=
  .next (stationEntry h 2 (fun s a _ => rowUnary Val.neg (fun i => -i) h.ty s.rnd a) s)
/-- `vand` (R174). -/
def execVand (h : Ent) (s : State) : Out :=
  .next (stationEntry h 2 (fun s a b => rowBitwise (· &&& ·) h.ty s.rnd a b) s)
/-- `vor` (R174). -/
def execVor (h : Ent) (s : State) : Out :=
  .next (stationEntry h 2 (fun s a b => rowBitwise (· ||| ·) h.ty s.rnd a b) s)
/-- `vxor` (R174). -/
def execVxor (h : Ent) (s : State) : Out :=
  .next (stationEntry h 2 (fun s a b => rowBitwise (· ^^^ ·) h.ty s.rnd a b) s)
/-- `vnot` (R174). -/
def execVnot (h : Ent) (s : State) : Out :=
  .next (stationEntry h 2 (fun s a _ => rowBitwise (fun x _ => x ^^^ 0xFFFFFFFF) h.ty s.rnd a .none) s)
/-- `vshl` (R174). -/
def execVshl (h : Ent) (s : State) : Out :=
  .next (stationEntry h 2 (fun s a b => rowShift (shlInt (fmtBits h.ty)) h.ty s.rnd a b) s)
/-- `vshr` (R174). -/
def execVshr (h : Ent) (s : State) : Out :=
  .next (stationEntry h 2 (fun s a b => rowShift (shrInt (fmtBits h.ty)) h.ty s.rnd a b) s)
/-- `vsar` (R174). -/
def execVsar (h : Ent) (s : State) : Out :=
  .next (stationEntry h 2 (fun s a b => rowShift (sarInt (fmtBits h.ty)) h.ty s.rnd a b) s)
/-- `vrshr` (R174). -/
def execVrshr (h : Ent) (s : State) : Out :=
  .next (stationEntry h 2 (fun s a b => rowShift rshrInt h.ty s.rnd a b) s)
/-- `vaddsat` (R174). -/
def execVaddsat (h : Ent) (s : State) : Out :=
  .next (stationEntry h 2 (fun s a b => rowSat false h.ty s.rnd a b) s)
/-- `vsubsat` (R174). -/
def execVsubsat (h : Ent) (s : State) : Out :=
  .next (stationEntry h 2 (fun s a b => rowSat true h.ty s.rnd a b) s)
/-- `vclamp` (R174). -/
def execVclamp (h : Ent) (sym : BitVec 1) (s : State) : Out :=
  .next (stationEntry h 2 (fun s a b => rowClamp (sym = 1) h.ty s.rnd a b) s)
/-- `vcmp` (R175). -/
def execVcmp (h : Ent) (rel : BitVec 3) (s : State) : Out :=
  .next (stationEntry h 2 (fun s a b => rowCmp rel.toNat h.ty s.rnd a b) s)
/-- `vcmpb` (R175, R179). -/
def execVcmpb (h : Ent) (rel : BitVec 3) (margin : BitVec 8) (s : State) : Out :=
  .next (stationEntry h 2 (fun s a b => rowCmpb rel.toNat margin.toNat h.ty s.rnd a b) s)
/-- `vsel` (R176). -/
def execVsel (h : Ent) (mof : BitVec 4) (amb : BitVec 1) (s : State) : Out :=
  .next (stationEntry h 2 (fun s a b => (rowSel (amb = 1) h.ty s.rnd (readOf mof.toNat s) a b).mapError (nameFile mof.toNat 3)) s)
/-- `vmov` (R179). -/
def execVmov (h : Ent) (s : State) : Out :=
  .next (stationEntry h 2 (fun s a _ => rowMov h.ty s.rnd a) s)
/-- `vmac` (R177). -/
def execVmac (h : Ent) (q : BitVec 2) (init : BitVec 1) (s : State) : Out :=
  .next (stationEntry h 4 (fun s a b => rowMac q.toNat (init = 1) h.ty s.rnd (readDst h s) a b) s)
/-- `vscale` (R179). -/
def execVscale (h : Ent) (s : State) : Out :=
  .next (stationEntry h 4 (fun s a b => rowScaleOp s.rnd a b) s)
/-- `vcvt` (R178). -/
def execVcvt (h : Ent) (part : BitVec 3) (init : BitVec 1) (s : State) : Out :=
  .next (stationEntry h 3 (fun s a _ => rowCvt s.cbs s.cbPois part.toNat (init = 1) (match h.dst with | .lane _ => true | _ => false) h.ty s.rnd (readDst h s) a) s)
/-- `vpack` (R178). -/
def execVpack (h : Ent) (s : State) : Out :=
  .next (stationEntry h 3 (fun s a b => rowPack h.ty s.rnd a b) s)
/-- `vunpack` (R178). -/
def execVunpack (h : Ent) (half : BitVec 1) (s : State) : Out :=
  .next (stationEntry h 3 (fun s a _ => rowUnpack half.toNat h.ty s.rnd a) s)
/-- `viota` (R174). -/
def execViota (h : Ent) (s : State) : Out :=
  .next (stationEntry h 2 (fun s a _ => .ok (rowIota h.ty s.rnd a)) s)
/-- `vaccept` (R179, R84). -/
def execVaccept (h : Ent) (s : State) : Out :=
  .next (stationEntry h 2 (fun s a _ => rowAccept h.ty s.rnd a) s)

/-! ## SF (R180) -/

/-- `rcp` (R180). -/
def execRcp (h : Ent) (s : State) : Out :=
  .next (stationEntry h 8 (fun s a _ => rowSf rcpCode s.rnd a) s)
/-- `rsq` (R180). -/
def execRsq (h : Ent) (s : State) : Out :=
  .next (stationEntry h 8 (fun s a _ => rowSf rsqCode s.rnd a) s)
/-- `sqrt` (R180). -/
def execSqrt (h : Ent) (s : State) : Out :=
  .next (stationEntry h 8 (fun s a _ => rowSf sqrtCode s.rnd a) s)
/-- `ex2` (R180). -/
def execEx2 (h : Ent) (s : State) : Out :=
  .next (stationEntry h 8 (fun s a _ => rowSf ex2Code s.rnd a) s)
/-- `lg2` (R180). -/
def execLg2 (h : Ent) (s : State) : Out :=
  .next (stationEntry h 8 (fun s a _ => rowSf lg2Code s.rnd a) s)
/-- `sin` (R180). -/
def execSin (h : Ent) (s : State) : Out :=
  .next (stationEntry h 8 (fun s a _ => rowSf sinCode s.rnd a) s)
/-- `cos` (R180). -/
def execCos (h : Ent) (s : State) : Out :=
  .next (stationEntry h 8 (fun s a _ => rowSf cosCode s.rnd a) s)

/-! ## PX (R181 to R185) -/

/-- `xpose` (R182). -/
def execXpose (h : Ent) (lr : BitVec 4) (h2 : BitVec 1) (s : State) : Out :=
  .next (stationEntry h 3 (fun s a b => rowXpose lr.toNat h2.toNat h.ty s.rnd a b) s)
/-- `perm` (R181). -/
def execPerm (h : Ent) (s : State) : Out :=
  .next (stationEntry h 3 (fun s a b => rowPerm h.ty s.rnd a b) s)
/-- `shuf` (R181). -/
def execShuf (h : Ent) (pat : BitVec 3) (s : State) : Out :=
  .next (stationEntry h 3 (fun s a b => rowShuf pat.toNat h.ty s.rnd a b) s)
/-- `bcast` (R181). -/
def execBcast (h : Ent) (k : BitVec 8) (s : State) : Out :=
  .next (stationEntry h 3 (fun s a _ => rowBcast k.toNat h.ty s.rnd a) s)
/-- `gath` (R183). -/
def execGath (h : Ent) (t : BitVec 4) (len : BitVec 2) (s : State) : Out :=
  .next (stationEntry h 4 (fun s a _ =>
    (rowGath h.ty s.rnd ((List.range (len.toNat + 1)).map (fun i => readOf (t.toNat + i) s)) a).mapError (nameFile t.toNat 2)) s)
/-- `slide` (R181). -/
def execSlide (h : Ent) (k : BitVec 9) (s : State) : Out :=
  .next (stationEntry h 3 (fun s a b => rowSlide k.toNat h.ty s.rnd a b) s)
/-- `rope` (R184). -/
def execRope (h : Ent) (pair : BitVec 1) (s : State) : Out :=
  .next (stationEntry h 10 (fun s a b => rowRope pair.toNat h.ty s.rnd a b) s)
/-- `spc24` (R185). -/
def execSpc24 (h : Ent) (md : BitVec 1) (s : State) : Out :=
  .next (stationEntry h 3 (fun s a _ => rowSpc 4 2 (md = 1) h.ty s.rnd a) s)
/-- `spc48` (R185). -/
def execSpc48 (h : Ent) (md : BitVec 1) (s : State) : Out :=
  .next (stationEntry h 3 (fun s a _ => rowSpc 8 3 (md = 1) h.ty s.rnd a) s)

/-! ## RD (R186 to R192) -/

/-- `rsum` (R187). -/
def execRsum (h : Ent) (bc sat : BitVec 1) (s : State) : Out :=
  .next (stationEntry h 6 (fun s a _ => rowSum (bc = 1) (sat = 1) h.ty s.rnd a) s)
/-- `rmax` (R187). -/
def execRmax (h : Ent) (bc : BitVec 1) (s : State) : Out :=
  .next (stationEntry h 6 (fun s a _ => rowExtreme true (bc = 1) h.ty s.rnd a) s)
/-- `rmin` (R187). -/
def execRmin (h : Ent) (bc : BitVec 1) (s : State) : Out :=
  .next (stationEntry h 6 (fun s a _ => rowExtreme false (bc = 1) h.ty s.rnd a) s)
/-- `scan` (R187). -/
def execScan (h : Ent) (excl : BitVec 1) (s : State) : Out :=
  .next (stationEntry h 6 (fun s a b => rowScan (excl = 1) h.ty s.rnd a b) s)
/-- `topk` (R188): it also moves the index base TB. -/
def execTopk (h : Ent) (k : BitVec 3) (start : BitVec 1) (s : State) : Out :=
  .next (match readSources h s with
  | .error e => e
  | .ok (a, b, s1) => match rowTopk k.toNat (start = 1) s1.fcore.tb h.ty s1.rnd a b with
    | .error g => raiseOpnd h g s1
    | .ok (row, rd, tb) => giveResult 8 h.dst row ((s1.setRnd rd).updF (fun k => { k with tb := tb })))
/-- `argmax` (R187). -/
def execArgmax (h : Ent) (s : State) : Out :=
  .next (stationEntry h 6 (fun s a _ => rowArgmax h.ty s.rnd a) s)
/-- `cmpct` (R189). -/
def execCmpct (h : Ent) (amb : BitVec 1) (s : State) : Out :=
  .next (stationEntry h 3 (fun s a b => rowCmpct (amb = 1) h.ty s.rnd a b) s)
/-- `osm` (R190). -/
def execOsm (h : Ent) (out start : BitVec 1) (s : State) : Out :=
  .next (stationEntry h 10 (fun s a b => rowOsm (out = 1) (start = 1) h.ty s.rnd a b) s)
/-- `osf` (R191). -/
def execOsf (h : Ent) (s : State) : Out :=
  .next (stationEntry h 8 (fun s a b => rowOsf h.ty s.rnd a b) s)
/-- `vflag` (R192): the flag is written at the start of c + 6, that is at the end of c + 5; a poisoned mask raises POISON
VFLAG (R167). -/
def execVflag (h : Ent) (flag : BitVec 4) (count : BitVec 8) (amb : BitVec 1) (s : State) : Out :=
  .next (match readSources h s with
  | .error e => e
  | .ok (a, _, s1) => match a.accepts (· = .ui8) with
    | some g => raiseOpnd h { g with which := 1 } s1
    | none => if a.poison then raise (poisonFault 1) h.sa.code 0 s1
      else s1.later (s.now0 + 5) (.flag flag.toNat (flagReg (amb = 1) (count.toNat + 1) a)))

end Sys2Proof.Machine
end

