-- ==== Sys2Proof/Machine/FrMf.lean ====
section
/-!
DEFINITION. The ferry port station FR and the matrix feeder MF (spec 11 R194 to R198, 13 R200 to R202), with the arrival of
rows and the deadlines of expectations.
-/
namespace Sys2Proof.Machine

/-- Change the ferry port of the core in focus. -/
def State.updFr (s : State) (f : Fr → Fr) : State := s.updF (fun k => { k with fr := f k.fr })

/-- Whether an item of an outbound queue is a row. -/
def OqItem.isRow : OqItem → Bool
  | .row _ => true
  | .mark _ _ => false

/-- `fsnd` (R196): POISON FSND, then OUT_FULL at 128 rows, else the row is appended. -/
def execFsnd (h : Ent) (q : BitVec 3) (s : State) : Out :=
  .next (match readOpnd h.sa h.imm s with
  | .error e => e
  | .ok (a, s1) =>
    let l := SMap.get [] s1.fcore.fr.oq q.toNat
    if a.poison then raise (poisonFault 2) h.sa.code 0 s1
    else if (l.filter OqItem.isRow).length ≥ 128 then raise (stnFault 1) h.sa.code 0 s1
    else s1.updFr (fun f => { f with oq := f.oq.put q.toNat (l ++ [.row (a.toRow h.ty)]) }))

/-- `frcv` (R196): takes the oldest row of the queue; with none the crew holds with cause LATE. -/
def execFrcv (h : Ent) (q : BitVec 3) (s : State) : Out :=
  .next (match SMap.get [] s.fcore.fr.iq q.toNat with
  | [] => askHold 1 s
  | r :: rs => giveResult 1 h.dst r (s.updFr (fun f =>
      { f with iq := f.iq.put q.toNat rs, taken := f.taken.put q.toNat (SMap.get 0 f.taken q.toNat + 1) })))

/-- `fexp` (R197): an expectation; a fifth on one queue raises EXP_FULL. -/
def execFexp (_h : Ent) (q : BitVec 3) (count : BitVec 7) (w : BitVec 16) (s : State) : Out :=
  let f := s.fcore.fr
  let n := q.toNat
  .next (if (f.exps.filter (fun e => e.q == n)).length ≥ 4 then raise (stnFault 2) 0 0 s
    else s.updFr (fun f => { f with exps := f.exps ++ [⟨n, SMap.get 0 f.taken n + count.toNat + 1, s.now0 + max w.toNat 1⟩] }))

/-- The earliest crew cycle noted in a marker. -/
def OqItem.markAt : List OqItem → Option (Nat × Nat)
  | .mark h t :: _ => some (h, t)
  | _ => none

/-- Whether a command bound to an outbound queue has taken rows whose writes have not all completed, or never will (R198, R263, R266; log
entry 99). -/
def boundBusy (s : State) (core q : Nat) : Bool :=
  ((s.core core).fr.lost.find q).isSome || s.cmds.any (fun p => p.2.port == 0 && p.2.core == some core && p.2.bits 10 8 == 3 && p.2.bits 72 70 == q
    && p.2.items.any OqItem.isRow && p.2.st != .held)

/-- Count the markers at the head of an outbound queue: the rows ahead of them have been written (R198). -/
def countMarks : Nat → Nat → Nat → State → State
  | 0, _, _, s => s
  | fuel + 1, core, q, s =>
    match OqItem.markAt (SMap.get [] (s.core core).fr.oq q) with
    | some (h, t) =>
      if boundBusy s core q then s
      else countMarks fuel core q (hsemChange
        (s.updCore core (fun k => { k with fr := { k.fr with oq := k.fr.oq.upd [] q List.tail } })) core ⟨t, h, 1, none⟩)
    | none => s

/-- `fqd` (R198): a marker behind every row appended before it; it counts at c + 2 at the earliest. -/
def execFqd (_h : Ent) (q : BitVec 3) (hs : BitVec 5) (s : State) : Out :=
  if !hasHsem hs.toNat s then .next (raise allotUse 0 hs.toNat s)
  else
    let s1 := s.updFr (fun f => { f with oq := f.oq.upd [] q.toNat (· ++ [OqItem.mark hs.toNat (s.now0 + 2)]) })
    .next (countMarks 1 s.focus.core q.toNat s1)

/-- FEXP_DEADLINE (R197): expectations of a queue whose cycle has come retire if their rows have arrived; otherwise the crew
holds with cause LATE. -/
def execFexpDeadline (core q : Nat) (s : State) : Out :=
  let f := (s.core core).fr
  let due := fun (x : Expect) => x.q == q && decide (x.deadline ≤ s.clock core)
  let met := fun (x : Expect) => decide (x.target ≤ SMap.get 0 f.arrived q)
  let s1 := s.updCore core (fun k => { k with fr := { k.fr with exps := k.fr.exps.filter (fun x => !(due x && met x)) } })
  .next (if f.exps.any (fun x => due x && !met x) then
    { askHold 1 { s1 with focus := { s1.focus with core := core } } with focus := s.focus } else s1)

/-- The oldest row under way to a queue enters the FR port buffer (R195). -/
def arriveRow (core q : Nat) (s : State) : State :=
  match SMap.get [] (s.core core).fr.fly q with
  | [] => s
  | r :: rs => s.updCore core (fun k =>
      let f := k.fr
      { k with fr := { f with fly := f.fly.put q rs, iq := f.iq.upd [] q (· ++ [r]), arrived := f.arrived.put q (SMap.get 0 f.arrived q + 1) } })

/-! ## MF (R194, R201, R202) -/

/-- The source row of an MF entry: a bounded one raises TYPE BOUNDED_OP (R85). -/
def mfSource (h : Ent) (s : State) : Except State (Row × State) :=
  match readOpnd h.sa h.imm s with
  | .error e => .error e
  | .ok (a, s1) =>
    let r := a.toRow h.ty
    if fmtBounded r.tag then .error (raise (typeFault 0) h.sa.code 0 s1) else .ok (r, s1)

/-- `mld`: a slot row at the end of c + 1 (R201). -/
def execMld (h : Ent) (row : BitVec 7) (slot : BitVec 5) (s : State) : Out :=
  .next (if s.frozen s.focus.core then raise (mxFault 5) 0 slot.toNat s
    else if !hasSlot slot.toNat s then raise allotUse 0 slot.toNat s
    else match mfSource h s with
    | .error e => e
    | .ok (r, s1) => s1.later (s.now0 + 1) (.slotRow slot.toNat row.toNat r))
/-- `mfd`: the A row present in c + 1 (R201). -/
def execMfd (h : Ent) (s : State) : Out :=
  .next (if s.frozen s.focus.core then raise (mxFault 5) 0 0 s
    else match mfSource h s with
    | .error e => e
    | .ok (r, s1) => s1.later s.now0 (.aRow r))
/-- `mdr`: an accumulator quarter converted to TYPE, read at the start of c + 1 and put at c + 3 (R194, R202). -/
def execMdr (h : Ent) (row : BitVec 7) (q acc : BitVec 2) (s : State) : Out :=
  .next (if !hasAcc acc.toNat s then raise allotUse 0 acc.toNat s
    else s.later s.now0 (.mfRead h.dst false true acc.toNat row.toNat q.toNat h.ty s.now0))
/-- `msv`: the raw form of a slot row or accumulator quarter (R202). -/
def execMsv (h : Ent) (row : BitVec 7) (slot : BitVec 5) (acc q : BitVec 2) (kind : BitVec 1) (s : State) : Out :=
  .next (if kind = 1 then
      if !hasAcc acc.toNat s then raise allotUse 0 acc.toNat s
      else s.later s.now0 (.mfRead h.dst true true acc.toNat row.toNat q.toNat h.ty s.now0)
    else if !hasSlot slot.toNat s then raise allotUse 0 slot.toNat s
    else s.later s.now0 (.mfRead h.dst true false slot.toNat row.toNat 0 h.ty s.now0))
/-- `mrs`: a raw row written at the end of c + 1 (R202). -/
def execMrs (h : Ent) (row : BitVec 7) (slot : BitVec 5) (acc q : BitVec 2) (kind : BitVec 1) (s : State) : Out :=
  .next (if kind = 1 then
      if !hasAcc acc.toNat s then raise allotUse 0 acc.toNat s
      else match mfSource h s with
        | .error e => e
        | .ok (r, s1) =>
          if r.tag = .f32 ∨ r.tag = .i32 then s1.later (s.now0 + 1) (.accRaw acc.toNat row.toNat q.toNat r)
          else raise (mxFault 0) h.sa.code acc.toNat s1
    else if !hasSlot slot.toNat s then raise allotUse 0 slot.toNat s
    else match mfSource h s with
      | .error e => e
      | .ok (r, s1) => s1.later (s.now0 + 1) (.slotRaw slot.toNat row.toNat r))

end Sys2Proof.Machine
end

