-- ==== Sys2Proof/Machine/Transfer.lean ====
section
/-!
DEFINITION. How a ferry moves data (spec 17 R240 to R250, R259 to R267, 25 R353): a command is a list of transfers, each a
source and a destination cut into sectors or rows; they are moved in the order of R262, and the command stops at a fault, for
rows still to come, for quarantine space, or for a sector that a command ahead of it in its queue may still access.
-/
namespace Sys2Proof.Machine

/-- Why a command stops before its end. -/
inductive Stop where
  | wait
  | fault (f : HwFault) (w : Where)
deriving DecidableEq, Repr

/-- Where the items of a transfer come from: elements of an object; `w`-bit items in staging; rows of a binding from its row
`first` with `per` items each, whose TAG must be `tag` and, for `plain`, neither bounded nor MX; one fixed item; bytes read at
the start; the merged updates of one table row (R59), from staging or from a binding. -/
inductive SrcPlan where
  | obj (o : Obj) (tt pos : Nat)
  | land (slice off w : Nat)
  | rows (first per w : Nat) (tag : Option Fmt) (plain : Bool)
  | fixed (code : Nat)
  | data (w : Nat)
  | merged (places : List Nat) (fromRows : Bool) (slice off rowBytes rpe per w : Nat) (f : Fmt)
deriving DecidableEq, Repr

/-- Where they go: elements of an object, added to what is there under an ATOMS bit for `scadd`; `w`-bit items in staging;
rows of `per` items with a TAG on an inbound queue of a core. -/
inductive DstPlan where
  | obj (o : Obj) (tt pos : Nat) (add : Option Nat)
  | land (slice off w : Nat)
  | core (core q per w : Nat) (tag : Fmt)
deriving DecidableEq, Repr

/-- A transfer of `n` items. -/
structure Transfer where
  src : SrcPlan
  dst : DstPlan
  n : Nat
deriving DecidableEq, Repr

/-- One sector or row of a destination: its tile and its number there, how many of the tile come before it, and the items it
takes, each with its place in the tile. -/
structure FUnit where
  tile : Nat
  sector : Nat
  fresh : Nat
  items : List (Nat × Nat)
deriving DecidableEq, Repr

/-- The domain identifier of an object. -/
def Obj.domain (s : State) (o : Obj) : Nat := o.peerAt.getD (domainId s o.id)

/-! ## The sectors of a destination, in order (R262) -/

/-- The byte offsets in its tile that an element and its sideband take. -/
def Obj.bytesOf (o : Obj) (e : Nat) : List Nat :=
  let d := o.elemByte e
  let (so, sn) := o.sideAt e
  (List.range (max 1 (fmtBits o.fmt / 8))).map (d + ·) ++ (List.range sn).map (so + ·)

/-- The sectors of one tile that a list of its elements touches, ascending: element data first, then the footprint. -/
def tileUnits (o : Obj) (tile : Nat) (es : List (Nat × Nat)) : List FUnit :=
  let secs := (es.map (fun x => o.elemByte x.1 / 16)).eraseDups ++
    ((es.filter (fun x => (o.sideAt x.1).2 != 0)).map (fun x => (o.sideAt x.1).1 / 16)).eraseDups
  secs.eraseDups.zipIdx.map (fun k =>
    ⟨tile, k.1, k.2, es.filter (fun x => (o.bytesOf x.1).any (fun b => b / 16 == k.1))⟩)

/-- The sectors of a range of positions: tiles in ascending order of the least position in each. -/
def objUnits (o : Obj) (pos n : Nat) : List FUnit :=
  let m := min n (o.elems - pos)
  let pl := (List.range m).map (fun i => (o.place (pos + i), i))
  (pl.map (fun x => x.1.1)).eraseDups.flatMap (fun t =>
    tileUnits o t ((pl.filter (fun x => x.1.1 == t)).map (fun x => (x.1.2, x.2))))

/-- Items `per` at a time. -/
def flatUnits (per n : Nat) : List FUnit :=
  (List.range ((n + per - 1) / per)).map (fun j => ⟨0, j, j, (List.range (min per (n - j * per))).map (fun i => (j * per + i, j * per + i))⟩)

/-- The units of a transfer. -/
def Transfer.units (t : Transfer) : List FUnit :=
  match t.dst with
  | .obj o _ pos _ => objUnits o pos t.n
  | .land _ _ w => flatUnits (128 / w) t.n
  | .core _ _ per _ _ => flatUnits per t.n

/-- The bytes of its destination that a unit writes. -/
def Transfer.unitBytes (t : Transfer) (u : FUnit) : Nat :=
  match t.dst with
  | .obj o _ _ _ => ((u.items.flatMap (fun x => o.bytesOf x.1)).filter (fun b => b / 16 == u.sector)).eraseDups.length
  | .land _ _ w => (u.items.length * w + 7) / 8
  | .core .. => 128

/-- Whether a unit covers its sector whole: every byte, and of 4-bit elements both of each byte. -/
def Transfer.whole (t : Transfer) (u : FUnit) : Bool :=
  t.unitBytes u == 16 && (match t.dst with
    | .obj o _ _ _ => fmtBits o.fmt != 4 || u.items.all (fun x => o.elemByte x.1 / 16 != u.sector ||
        u.items.any (fun y => y.1 == if x.1 % 2 = 0 then x.1 + 1 else x.1 - 1))
    | _ => true)

/-- The destination bytes of a command (R260). -/
def totalBytes (ts : List Transfer) : Nat := (ts.map (fun t => (t.units.map t.unitBytes).sum)).sum

/-! ## The sectors that a command may still access (R353) -/

/-- The sectors of a byte range of a tier. -/
def sectorKeys (tier a n : Nat) : List (Nat × Nat) := (unitsOf 16 a n).map (fun k => (tier, k))

/-- The sectors behind elements of a tile, if it is present. -/
def tileKeys (s : State) (p : Port) (o : Obj) (tt tile : Nat) (offs : List Nat) : List (Nat × Nat) :=
  match tileRaw s p o tt tile with
  | .ok t => if t.present then (offs.map (fun b => (t.tier.code, (t.addr + b) / 16))).eraseDups else []
  | .error _ => []

/-- The sectors an item is read from. -/
def SrcPlan.keys (s : State) (p : Port) (src : SrcPlan) (i : Nat) : List (Nat × Nat) :=
  match src with
  | .obj o tt pos => if pos + i < o.elems then let (t, e) := o.place (pos + i); tileKeys s p o tt t (o.bytesOf e) else []
  | .land slice off w => sectorKeys 3 (slice * 2 ^ 22 + off + i * w / 8) (max 1 (w / 8))
  | .merged places false slice off rowBytes _ _ w _ =>
    places.flatMap (fun k => sectorKeys 3 (slice * 2 ^ 22 + off + k * rowBytes + i * w / 8) (max 1 (w / 8)))
  | _ => []

/-- The sectors a unit writes. -/
def DstPlan.keys (s : State) (p : Port) (dst : DstPlan) (u : FUnit) : List (Nat × Nat) :=
  match dst with
  | .obj o tt _ _ => tileKeys s p o tt u.tile [16 * u.sector]
  | .land slice off w => sectorKeys 3 (slice * 2 ^ 22 + off + 16 * u.sector) ((u.items.length * w + 7) / 8)
  | .core .. => []

/-- The port of a command's accesses. -/
def Cmd.portOf (c : Cmd) : Port := ⟨if c.port = 0 then c.unit else if c.port = 1 then 64 + c.unit else portKv, c.qseq⟩

/-- What is left of a command's transfers: the transfers, and the units of the first of them already done. -/
def leftKeys (s : State) (c : Cmd) (ts : List Transfer) : List (Bool × Nat × Nat) :=
  ((ts.drop c.pos).zipIdx).flatMap (fun x =>
    ((x.1.units.drop (if x.2 = 0 then c.nsect else 0))).flatMap (fun u =>
      ((x.1.dst.keys s c.portOf u).map (fun k => (true, k))) ++
      (u.items.flatMap (fun i => (x.1.src.keys s c.portOf i.2).map (fun k => (false, k))))))

/-! ## Rows between a core and a ferry (R28, R195, R266, R267) -/

/-- The crew a command's CORE endpoints lie in, and its number. -/
def crewOfCmd (s : State) (c : Cmd) : Option (Nat × Crew) :=
  match c.issuer with
  | .ctx _ false (some r) => crewOfRec s r
  | .ctx k true _ => ((s.core k).crew).bind (fun n => (s.crew n).map (fun w => (n, w)))
  | _ => none

/-- The core that a band index of the issuing core's band names (R243). -/
def memberCore (c : Cmd) (m : Nat) : Nat := (c.core.getD 0) / 40 * 40 + m

/-- Rows outstanding toward a core, reservations included (R28). -/
def outstanding (s : State) (core : Nat) : Nat :=
  let f := (s.core core).fr
  (f.iq.map (fun p => p.2.length)).sum + (f.fly.map (fun p => p.2.length)).sum +
    (s.cmds.map (fun p => if p.2.port = 0 && p.2.bits 13 11 = 3 && memberCore p.2 (p.2.bits 133 128) = core then p.2.reserved else 0)).sum

/-- Whether a row's space can be reserved: always toward a core that has left the crew, whose rows are discarded. -/
def rowSpace (s : State) (c : Cmd) (core : Nat) : Bool :=
  match crewOfCmd s c with
  | some (_, w) => !w.members.contains core || w.stopped.isSome || decide (outstanding s core < 128 * w.allot.qbuf.toNat)
  | none => true

/-- Send a row toward a core; a row toward a core that no longer runs in the crew is discarded. -/
def sendRow (id core q : Nat) (r : Row) (s : State) : State :=
  let live := match (s.cmds.find id).bind (crewOfCmd s) with
    | some (_, w) => w.members.contains core && w.stopped.isNone
    | none => false
  let s1 := s.updCmd id (fun c => { c with reserved := 0 })
  if live then
    let n := SMap.get 0 (s.core core).fr.sent q + 1
    (s1.updCore core (fun k => { k with fr := { k.fr with fly := k.fr.fly.upd [] q (· ++ [r]), sent := k.fr.sent.put q n } })).updCmd id
      (fun c => { c with sentMark := n, sent := c.sent ++ [n] })
  else s1

/-- The rows of a binding. -/
def Cmd.bound (c : Cmd) : List Row :=
  c.items.filterMap (fun x => match x with
    | .row r => some r
    | .mark _ _ => none)

/-- Move items of an outbound queue to a binding until it has `need` rows. -/
def takeItems : Nat → List OqItem → List OqItem × List OqItem
  | _, [] => ([], [])
  | 0, l => ([], l)
  | n + 1, .row r :: l => let (a, b) := takeItems n l; (.row r :: a, b)
  | n + 1, .mark h t :: l => let (a, b) := takeItems (n + 1) l; (.mark h t :: a, b)

/-- Whether two commands bind the same outbound queue. -/
def sameBinding (c d : Cmd) : Bool :=
  d.port == 0 && d.core == c.core && d.bits 10 8 == 3 && c.bits 10 8 == 3 && d.bits 72 70 == c.bits 72 70

/-- Whether the cache part of a slice is being resized: landing commands to the slice wait (R55). -/
def resizingSlice (s : State) (sl : Nat) : Bool := (s.resizing.find sl).isSome

/-- Whether a binding lacks rows; one whose need is not known yet does. -/
def Cmd.short (c : Cmd) (need : Option Nat) : Bool := need.all (fun n => decide (c.bound.length < n))

/-- Whether a command accepted before still takes rows of the same outbound queue; commands are numbered as they are accepted. -/
def boundAhead (s : State) (id : Nat) (c : Cmd) (need : Cmd → Option Nat) : Bool :=
  s.cmds.any (fun p => sameBinding c p.2 && decide (p.1 < id) && p.2.short (need p.2))

/-- The last command accepted before whose rows of the same queue have not all been written (R198, R266). -/
def unwrittenAhead (s : State) (id : Nat) (c : Cmd) : Option Nat :=
  ((s.cmds.filter (fun p => sameBinding c p.2 && decide (p.1 < id) && p.2.items.any OqItem.isRow && p.2.st != .held)).getLast?).map (·.1)

/-- Markers at the head of a list of items, and the items behind them. -/
def leadMarks : List OqItem → List OqItem × List OqItem
  | .mark h t :: l => let (a, b) := leadMarks l; (.mark h t :: a, b)
  | l => ([], l)

/-- Items join a binding. Markers ahead of its first row stand behind the rows of the bindings before it: while one of those has
unwritten rows they join that one. -/
def bindItems (id : Nat) (c : Cmd) (got : List OqItem) (s : State) : State :=
  let (ms, r) := if c.items.any OqItem.isRow then ([], got) else leadMarks got
  match unwrittenAhead s id c with
  | some e => (s.updCmd e (fun x => { x with items := x.items ++ ms })).updCmd id (fun x => { x with items := x.items ++ r })
  | none => s.updCmd id (fun x => { x with items := x.items ++ got })

/-- The binding of a command takes the rows it needs as they stand in the queue (R266). -/
def takeRows (id : Nat) (need : Cmd → Option Nat) (s : State) : State :=
  match s.cmds.find id with
  | some c =>
    match c.core with
    | some k =>
      if c.bits 10 8 = 3 && !boundAhead s id c need then
        let q := c.bits 72 70
        let (got, rest) := takeItems ((need c).getD 0 - c.bound.length) (SMap.get [] (s.core k).fr.oq q)
        bindItems id c got (s.updCore k (fun x => { x with fr := { x.fr with oq := x.fr.oq.put q rest } }))
      else s
    | none => s
  | none => s

/-- Markers among the rows of a binding, once the writes of every row ahead of them have been made (R198); `done` of the rows
are. -/
def fireMarks (core : Nat) : Nat → List OqItem → State → List OqItem × State
  | _, [], s => ([], s)
  | 0, .row r :: l, s => (.row r :: l, s)
  | n + 1, .row r :: l, s => let (a, t) := fireMarks core n l s; (.row r :: a, t)
  | n, .mark h t0 :: l, s => fireMarks core n l (hsemChange s core ⟨t0, h, 1, none⟩)

/-! ## Reading an item -/

/-- A `w`-bit item out of bytes that start at it; `odd` picks the upper nibble. -/
def itemOf (w : Nat) (odd : Bool) (b : List Byte) : Nat :=
  let v := natOfBytes b
  if w = 4 then (if odd then v / 16 % 16 else v % 16) else v % 2 ^ w

/-- Read an item of staging. -/
def landItem (s : State) (c : Cmd) (slice off w i : Nat) : Except Stop Elem :=
  match cmdLandRead s c slice (off + i * w / 8) (max 1 (w / 8)) with
  | .ok (b, bad) => .ok ⟨itemOf w (i % 2 = 1) b, [], bad⟩
  | .error f => .error (.fault f {})

/-- The sideband bytes of element `i` of a row as memory holds them (R44, R62): a block's scale; a bound; a row scale, then a
bound. -/
def rowSide (r : Row) (i : Nat) : List Byte :=
  if fmtMx r.tag then bytesOfNat 1 (r.scale (i / 32))
  else match r.tag with
    | .bf32 => bytesOfNat 4 r.side.toNat
    | .bi16 => bytesOfNat 4 (r.side.toNat / 2 ^ 32) ++ bytesOfNat 4 r.side.toNat
    | _ => []

/-- Read an item of a binding's rows. -/
def rowItem (c : Cmd) (first per w : Nat) (tag : Option Fmt) (plain : Bool) (i : Nat) : Except Stop Elem :=
  match c.bound[first + i / per]? with
  | none => .error .wait
  | some r =>
    if (match tag with
      | some f => r.tag != f
      | none => false) || (plain && (fmtBounded r.tag || fmtMx r.tag)) then .error (.fault (accessFault 9) {})
    else .ok ⟨fieldAt w r.data (i % per), rowSide r (i % per), false⟩

/-- One step of a reduction by addition (R59). -/
def addCodes (f : Fmt) (a b : Val) : Val :=
  match f with
  | .i32 => Val.ofInt (signedOf 32 (wrapTo 32 (a.toInt + b.toInt)))
  | _ => rne32 (Val.add .rne a b)

/-- Round the result of a reduction to its format. -/
def codeOf (f : Fmt) (v : Val) : Nat :=
  match f with
  | .i32 => wrapTo 32 v.toInt
  | .bf16 => bf16F.conv .rne false 0 v
  | _ => f32rne v

/-- Add contributions in ascending order (R59): each step rounded, BF16 accumulated in FP32. -/
def sumCodes (f : Fmt) : List Nat → Nat
  | [] => 0
  | x :: xs => codeOf f (xs.foldl (fun acc y => addCodes f acc (codeVal f 127 y)) (codeVal f 127 x))

/-- Read contributions one after the other. -/
def readAll (get : Nat → Except Stop Elem) : List Nat → Except Stop (List Elem)
  | [] => .ok []
  | k :: ks => match get k with
    | .error e => .error e
    | .ok x => match readAll get ks with
      | .error e => .error e
      | .ok xs => .ok (x :: xs)

/-- Read item `i` of a source. -/
def readItem (id : Nat) (cache : Option Nat) (src : SrcPlan) (i : Nat) (s : State) : Except Stop (Elem × State) :=
  match s.cmds.find id with
  | none => .error .wait
  | some c =>
    match src with
    | .obj o tt pos =>
      match readElem s c.portOf o tt (pos + i) cache with
      | .error f => .error (.fault f { obj := o.domain s, tile := if pos + i < o.elems then (o.place (pos + i)).1 else 0 })
      | .ok r => .ok r
    | .land slice off w => (landItem s c slice off w i).map (fun e => (e, s))
    | .rows first per w tag plain => (rowItem c first per w tag plain i).map (fun e => (e, s))
    | .fixed v => .ok (⟨v, [], false⟩, s)
    | .data w => .ok (⟨itemOf w (i % 2 = 1) ((c.data.drop (i * w / 8)).take (max 1 (w / 8))), [], false⟩, s)
    | .merged places fromRows slice off rowBytes rpe per w f =>
      match readAll (fun k => if fromRows then rowItem c (k * rpe) per w (some f) false i
          else landItem s c slice (off + k * rowBytes) w i) places with
      | .error e => .error e
      | .ok xs => .ok (⟨sumCodes f (xs.map (·.code)), [], xs.any (·.bad)⟩, s)

/-- Read the items of a unit in order. -/
def readItems (id : Nat) (cache : Option Nat) (src : SrcPlan) : List (Nat × Nat) → State → Except Stop (List (Nat × Elem) × State)
  | [], s => .ok ([], s)
  | x :: xs, s => match readItem id cache src x.2 s with
    | .error e => .error e
    | .ok (v, s') => match readItems id cache src xs s' with
      | .error e => .error e
      | .ok (vs, s'') => .ok ((x.1, v) :: vs, s'')

/-! ## Writing a unit -/

/-- Pack `w`-bit items into bytes. -/
def packItems (w : Nat) (l : List Nat) : List Byte := bytesOfNat ((l.length * w + 7) / 8) (packList w l)

/-- A row of delivered items (R247): elements beyond the last are zero, with a zero contribution to SIDE; POISON where an item
came from an uncorrectable unit. -/
def deliverRow (tag : Fmt) (w : Nat) (vs : List Elem) : Row :=
  let side : BitVec 64 :=
    if fmtMx tag then sideOfScales ((List.range (fmtElems tag / 32)).map (fun j => natOfBytes ((vs[32 * j]?.map (·.side)).getD [])))
    else match tag with
      | .bf32 => .ofNat 64 (natOfBytes ((vs.head?.map (·.side)).getD []))
      | .bi16 => let b := (vs.head?.map (·.side)).getD []; .ofNat 64 (natOfBytes (b.drop 4) + natOfBytes (b.take 4) * 2 ^ 32)
      | _ => 0
  ⟨ofFields w (vs.map (·.code)), tag, vs.any (·.bad), side⟩

/-- The sideband bytes of one place of a tile: those the elements there agree on; open where they differ (R246 states none). -/
def sideBytes (sn : Nat) (sides : List (List Byte)) (s : State) : List Byte × State :=
  match sides.eraseDups with
  | [b] => (b.take sn, s)
  | _ => let (v, s') := s.draw; (bytesOfNat sn v, s')

/-- The bytes of the sideband of a sector. -/
def sectorSides (o : Obj) (sector : Nat) (vs : List (Nat × Elem)) : List Nat → State → SMap Byte × State
  | [], s => ([], s)
  | a :: as, s =>
    let sn := ((vs.filter (fun v => (o.sideAt v.1).1 == a)).head?.map (fun v => (o.sideAt v.1).2)).getD 0
    let (b, s1) := sideBytes sn ((vs.filter (fun v => (o.sideAt v.1).1 == a)).map (fun v => v.2.side)) s
    let (m, s2) := sectorSides o sector vs as s1
    ((bytesAt a b).foldl (fun m p => m.put p.1 p.2) m, s2)

/-- The bytes that a unit writes in its tile, by offset. `old` reads the byte there. -/
def sectorBytes (o : Obj) (sector : Nat) (old : Nat → Byte) (vs : List (Nat × Elem)) (s : State) : SMap Byte × State :=
  let data := (vs.filter (fun v => o.elemByte v.1 / 16 == sector)).foldl (fun (m : SMap Byte) v =>
    let a := o.elemByte v.1
    if fmtBits o.fmt = 4 then
      let b := (SMap.get (old a) m a).toNat
      m.put a (.ofNat 8 (if v.1 % 2 = 0 then b / 16 * 16 + v.2.code % 16 else b % 16 + v.2.code % 16 * 16))
    else (bytesAt a (bytesOfNat (fmtBits o.fmt / 8) v.2.code)).foldl (fun m p => m.put p.1 p.2) m) []
  let places := ((vs.filter (fun v => (o.sideAt v.1).2 != 0 && (o.sideAt v.1).1 / 16 == sector)).map (fun v => (o.sideAt v.1).1)).eraseDups
  let (sides, s') := sectorSides o sector vs places s
  (sides.foldl (fun m p => m.put p.1 p.2) data, s')

/-- Read what stands at the destination and add to it (R250). -/
def addItems (o : Obj) (tt pos : Nat) (p : Port) : List (Nat × Nat × Elem) → State → Except HwFault (List (Nat × Elem))
  | [], _ => .ok []
  | (e, i, v) :: r, s => match readElem s p o tt (pos + i) none with
    | .error f => .error f
    | .ok (old, _) =>
      if old.bad then .error (accessFault 7) else
      match addItems o tt pos p r s with
      | .error f => .error f
      | .ok l => .ok ((e, { v with code := codeOf o.fmt (match o.fmt with
          | .bf16 => Val.add .rne (codeVal .bf16 127 old.code) (codeVal .bf16 127 v.code)
          | _ => addCodes o.fmt (codeVal o.fmt 127 old.code) (codeVal o.fmt 127 v.code)) }) :: l)

/-- Note the cache sector that a write dirtied (R350). -/
def noteDirty (id : Nat) (cache : Option Nat) (t : Tier) (sector : Nat) (s : State) : State :=
  match cache with
  | some sl =>
    if (t = .lpddr || t = .host) && hasCache s sl then
      s.updCmd id (fun c => { c with dirtied := if c.dirtied.contains (sl, cacheKey t sector) then c.dirtied else (sl, cacheKey t sector) :: c.dirtied })
    else s
  | none => s

/-- What refuses the read of a sector of which 4-bit elements leave a part as it is (R53, R57). -/
def fillCheck (s : State) (o : Obj) (t : Tile) (cache : Option Nat) (whole : Bool) (sector : Nat) : Option HwFault :=
  if fmtBits o.fmt ≠ 4 || whole || !(t.tier == .lpddr || t.tier == .host) then none else
  match tierRead s o t.tier (t.addr + 16 * sector) 16 cache with
  | .error f => some f
  | .ok (_, bad, _) => if bad then some (accessFault 7) else none

/-- Write a unit whose items have been read. -/
def putUnit (id : Nat) (c : Cmd) (cache : Option Nat) (dst : DstPlan) (src : SrcPlan) (u : FUnit) (vs : List (Nat × Elem)) (s : State) :
    Except Stop State :=
  match dst with
  | .core core q _ w tag =>
    let r := match src with
      | .rows first _ _ _ _ => (c.bound[first + u.sector]?).getD (Row.zero tag)
      | _ => deliverRow tag w (vs.map (·.2))
    .ok (sendRow id core q r s)
  | .land slice off w =>
    if vs.any (fun v => v.2.bad) then .error (.fault (accessFault 7) {}) else
    match cmdLandPut s c slice (off + 16 * u.sector) (packItems w (vs.map (·.2.code))) with
    | .error f => .error (.fault f {})
    | .ok s' => .ok s'
  | .obj o tt pos add =>
    let p := c.portOf
    let here : Where := { obj := o.domain s, tile := u.tile, dtile := u.tile }
    if vs.any (fun v => v.2.bad) then .error (.fault (accessFault 7) here) else
    let kind : AccKind := match add with
      | some b => .atomic b
      | none => .write
    match tileFor s p kind o tt u.tile with
    | .error f => .error (.fault f here)
    | .ok t =>
      let vs' : Except HwFault (List (Nat × Elem)) := match add with
        | some _ => addItems o tt pos p ((List.zip u.items vs).map (fun x => (x.1.1, x.1.2, x.2.2))) s
        | none => .ok vs
      match vs' with
      | .error f => .error (.fault f here)
      | .ok vs' =>
        match fillCheck s o t (if add.isSome then none else cache) (Transfer.whole ⟨src, dst, 0⟩ u) u.sector with
        | some f => .error (.fault f here)
        | none =>
        let old := fun off => match tierRead s o t.tier (t.addr + off) 1 cache with
          | .ok (b :: _, _, _) => b
          | _ => 0
        let (m, s1) := sectorBytes o u.sector old vs' s
        match tierWrite s1 o t.tier (m.map (fun x => (t.addr + x.1, x.2))) (if add.isSome then none else cache) ⟨o.id, u.tile, t.addr⟩ with
        | .error f => .error (.fault f here)
        | .ok s2 => .ok (noteDirty id (if add.isSome then none else cache) t.tier (t.addr / 16 + u.sector) s2)

/-- Whether the space of the unit's row is there, and reserve it (R28). -/
def reserveRow (id : Nat) (dst : DstPlan) (s : State) : Except Stop State :=
  match dst, s.cmds.find id with
  | .core core _ _ _ _, some c =>
    if c.reserved > 0 then .ok s
    else if rowSpace s c core then .ok (s.updCmd id (fun c => { c with reserved := 1 })) else .error .wait
  | _, _ => .ok s

/-- Read the items of a unit: `busy` tells a sector that a command ahead may still access. -/
def takeUnit (id : Nat) (cache : Option Nat) (busy : Bool → Nat × Nat → Bool) (t : Transfer) (u : FUnit) (p : Port) (s : State) :
    Except Stop (List (Nat × Elem) × State) :=
  if u.items.any (fun i => (t.src.keys s p i.2).any (busy false)) || (t.dst.keys s p u).any (busy true) then .error .wait
  else readItems id cache t.src u.items s

/-- Count a unit as moved. A row under way to a core is written when it arrives there (R350, R356). -/
def unitMoved (id : Nat) (c : Cmd) (t : Transfer) (u : FUnit) (s : State) : State :=
  let n := t.unitBytes u
  let flies : Bool := match t.dst with
    | .core .. => ((s.cmds.find id).map (fun x => x.sent.length)).getD 0 != c.sent.length
    | _ => false
  let s1 := s.updCmd id (fun c => { c with nsect := c.nsect + 1, bytes := c.bytes + n })
  if flies then s1 else barWrote s1 c n

/-- Move one unit. -/
def moveUnit (id : Nat) (cache : Option Nat) (busy : Bool → Nat × Nat → Bool) (t : Transfer) (u : FUnit) (s : State) : Except Stop State :=
  match reserveRow id t.dst s with
  | .error e => .error e
  | .ok s0 =>
  match s0.cmds.find id with
  | none => .error .wait
  | some c =>
    match takeUnit id cache busy t u c.portOf s0 with
    | .error e => .error e
    | .ok (vs, s1) => match putUnit id c cache t.dst t.src u vs s1 with
      | .error e => .error e
      | .ok s2 => .ok (unitMoved id c t u s2)

/-- The tile whose burst two units cover whole: sectors of device memory that go through no cache part (R53). -/
def burstTile (s : State) (c : Cmd) (cache : Option Nat) (t : Transfer) (u v : FUnit) : Option (Obj × Tile) :=
  match t.dst with
  | .obj o tt _ none =>
    if u.tile = v.tile ∧ v.sector = u.sector + 1 ∧ t.whole u ∧ t.whole v ∧ !(cache.any (hasCache s)) then
      match tileFor s c.portOf .write o tt u.tile with
      | .ok l => if l.tier = .lpddr ∧ (l.addr / 16 + u.sector) % 2 = 0 then some (o, l) else none
      | .error _ => none
    else none
  | _ => none

/-- What comes of moving the two sectors of a burst together. -/
inductive Burst where
  /-- Each sector moves by itself. -/
  | single
  | stop (e : Stop)
  | moved (s : State)

/-- Move the two sectors of a burst as one write, which takes the object's colour (R53): both must be there to be written, and a translation fault of
either leaves both for the replay. `short` tells that no more rows come to the binding (R266). -/
def moveBurst (id : Nat) (cache : Option Nat) (busy : Bool → Nat × Nat → Bool) (short : Bool) (t : Transfer) (u v : FUnit) (s : State) : Burst :=
  match s.cmds.find id with
  | none => .single
  | some c =>
    match burstTile s c cache t u v with
    | none => .single
    | some (o, l) =>
      match takeUnit id cache busy t u c.portOf s with
      | .error _ => .single
      | .ok (a, s1) =>
        match takeUnit id cache busy t v c.portOf s1 with
        | .error .wait => if short && (takeUnit id cache (fun _ _ => false) t v c.portOf s1).toBool = false then .single else .stop .wait
        | .error (.fault f w) => if f.code = 0x0F then .stop (.fault f w) else .single
        | .ok (b, s2) =>
          if (a ++ b).any (fun x => x.2.bad) then .single else
          let (m, s3) := sectorBytes o u.sector (fun _ => 0) a s2
          let (n, s4) := sectorBytes o v.sector (fun _ => 0) b s3
          match tierWrite s4 o l.tier ((m ++ n).map (fun x => (l.addr + x.1, x.2))) none {} with
          | .error _ => .single
          | .ok s5 => .moved (unitMoved id c t v (unitMoved id c t u s5))

/-- What stops a unit: a wait keeps the space it reserved. -/
def unitStop (id : Nat) (t : Transfer) (u : FUnit) (e : Stop) (s : State) : State × Option Stop :=
  match e with
  | .wait => ((match reserveRow id t.dst s with
      | .ok s' => s'
      | .error _ => s), some .wait)
  | .fault f w => (s, some (.fault f { w with dtile := u.tile, nsect := u.fresh }))

/-- Move units one after the other until the end or a stop, the two sectors of a burst together where they go whole. -/
def moveUnits (id : Nat) (cache : Option Nat) (busy : Bool → Nat × Nat → Bool) (short : Bool) (t : Transfer) :
    List FUnit → State → State × Option Stop
  | [], s => (s, none)
  | [u], s => match moveUnit id cache busy t u s with
    | .error e => unitStop id t u e s
    | .ok s' => (s', none)
  | u :: v :: us, s =>
    match moveBurst id cache busy short t u v s with
    | .stop e => unitStop id t u e s
    | .moved s' => moveUnits id cache busy short t us s'
    | .single => match moveUnit id cache busy t u s with
      | .error e => unitStop id t u e s
      | .ok s' => moveUnits id cache busy short t (v :: us) s'

/-- Units of one 64-byte line of one tile, as they follow each other. -/
def lineGroups : List FUnit → List (List FUnit)
  | [] => []
  | u :: us =>
    match lineGroups us with
    | (v :: g) :: gs => if u.tile = v.tile ∧ u.sector / 4 = v.sector / 4 then (u :: v :: g) :: gs else [u] :: (v :: g) :: gs
    | gs => [u] :: gs

/-- Whether units are the four whole sectors of an aligned line of an object: an object entry among them is written whole (R349). -/
def wholeLine (t : Transfer) (g : List FUnit) : Bool :=
  match t.dst with
  | .obj _ _ _ none => g.length == 4 && g.all t.whole
  | _ => false

/-- Move lines one after the other: a whole line is moved in one go, or waits, or is replayed, as a whole. `short` tells that no more
rows come to the binding (R266). -/
def moveLines (id : Nat) (cache : Option Nat) (busy : Bool → Nat × Nat → Bool) (short : Bool) (t : Transfer) :
    List (List FUnit) → State → State × Option Stop
  | [], s => (s, none)
  | g :: gs, s =>
    match moveUnits id cache busy short t g s with
    | (s', none) => moveLines id cache busy short t gs s'
    | (s', some e) =>
      if wholeLine t g && !short then
        match e with
        | .wait => (s, some e)
        | .fault f w => if f.code = 0x0F then (s, some (.fault f { w with nsect := (g.head?.map (·.fresh)).getD 0 })) else (s', some e)
      else (s', some e)

/-- Move the transfers left. A range that runs past the extents ends in BOUNDS after the positions before it (R47, R243). -/
def moveAll (id : Nat) (cache : Option Nat) (busy : Bool → Nat × Nat → Bool) (short : Bool) : List Transfer → State → State × Option Stop
  | [], s => (s, none)
  | t :: ts, s =>
    let done := ((s.cmds.find id).map (·.nsect)).getD 0
    match moveLines id cache busy short t (lineGroups (t.units.drop done)) s with
    | (s', some e) => (s', some e)
    | (s', none) =>
      let past := match t.dst with
        | .obj o _ pos _ => if o.elems < pos + t.n then some o else none
        | _ => none
      match past with
      | some o => (s', some (.fault (accessFault 4) { obj := o.domain s' }))
      | none => moveAll id cache busy short ts (s'.updCmd id (fun c => { c with pos := c.pos + 1, nsect := 0 }))

end Sys2Proof.Machine
end

