-- ==== Sys2Proof/Machine/Ferry.lean ====
section
/-!
DEFINITION. Ferry commands (spec 17 R239 to R266): what each moves, landing reductions and merges, atomics and signals,
barriers, publication and invalidation, with the start of a command, its continuation after a pause, and its completion.
-/
namespace Sys2Proof.Machine

/-! ## Endpoints (R243) -/

/-- ID of an OBJ endpoint. -/
def epId (w : BitVec 64) : Nat := fieldOf w 23 0
/-- POS of an OBJ endpoint. -/
def epPos (w : BitVec 64) : Nat := fieldOf w 63 24
/-- SLICE of a LAND or CACHE endpoint. -/
def epSlice (w : BitVec 64) : Nat := fieldOf w 5 0
/-- OFF of a LAND endpoint. -/
def epOff (w : BitVec 64) : Nat := fieldOf w 27 6
/-- Q of a CORE endpoint. -/
def epQ (w : BitVec 64) : Nat := fieldOf w 8 6
/-- The core that a CORE endpoint names. -/
def epCore (c : Cmd) (w : BitVec 64) : Nat := memberCore c (fieldOf w 5 0)

/-- A refusal of a format or tag, of an alignment. -/
def xferTag : Stop := .fault (accessFault 9) {}
/-- XFER_ALIGN. -/
def xferAlign : Stop := .fault (accessFault 0xA) {}

/-- An object endpoint of a command, on a device. -/
def epObj (s : State) (c : Cmd) (k : AccKind) (dev : Nat) (w : BitVec 64) : Except Stop Obj :=
  match objDev s c.portOf c.req k dev (epId w) with
  | .error f => .error (.fault f { obj := dev * 2 ^ 24 + epId w })
  | .ok o => .ok o

/-- This module's device number. -/
def devNo (s : State) : Nat := fieldOf (s.reg 0xE30) 9 0

/-- Items of a row of a format: its elements. -/
def perRow (o : Obj) : Nat := fmtElems o.fmt

/-- Whether each row of a range is one 128-byte unit of one tile's element data (R247). -/
def rowsWhole (o : Obj) (pos n : Nat) : Bool :=
  pos % perRow o = 0 && n % perRow o = 0 &&
    (List.range (n / perRow o)).all (fun r =>
      let at0 := o.place (pos + r * perRow o)
      o.elemByte at0.2 % 128 = 0 && decide (pos + (r + 1) * perRow o ≤ o.elems) &&
        (List.range (perRow o)).all (fun i => o.place (pos + r * perRow o + i) == (at0.1, at0.2 + i)))

/-- The alignment of elements of 4 bits (R244), and of rows of a format with sideband or of CB4 toward a core (R247). -/
def alignOk (o : Obj) (pos n : Nat) (toCore : Bool) : Bool :=
  (fmtBits o.fmt != 4 || (pos % 2 = 0 && n % 2 = 0)) &&
    (!toCore || !(fmtMx o.fmt || fmtBounded o.fmt || o.fmt = .cb4) || rowsWhole o pos n)

/-- Whether a format may stand beside a landing as packed bytes (R246). -/
def packedOk (f : Fmt) : Bool := !fmtBounded f && !fmtMx f

/-! ## Plans of copies and fills (R246 to R249, R254) -/

/-- The transfers of `copy`. -/
def planCopy (s : State) (c : Cmd) (h : FHdr) (n : Nat) (src dst : BitVec 64) (sdev ddev : Nat) (tag : Fmt) : Except Stop (List Transfer) :=
  match h.sk.toNat, h.dk.toNat with
  | 1, 1 =>
    match epObj s c .read sdev src, epObj s c .write ddev dst with
    | .error e, _ => .error e
    | _, .error e => .error e
    | .ok a, .ok b =>
      if a.fmt != b.fmt then .error xferTag
      else if !alignOk a (epPos src) n false || !alignOk b (epPos dst) n false then .error xferAlign
      else .ok [⟨.obj a (tableOf c.tables a) (epPos src), .obj b (tableOf c.tables b) (epPos dst) none, n⟩]
  | 1, 2 =>
    match epObj s c .read sdev src with
    | .error e => .error e
    | .ok a =>
      if !packedOk a.fmt then .error xferTag
      else if !alignOk a (epPos src) n false then .error xferAlign
      else .ok [⟨.obj a (tableOf c.tables a) (epPos src), .land (epSlice dst) (epOff dst) (fmtBits a.fmt), n⟩]
  | 1, 3 =>
    match epObj s c .read sdev src with
    | .error e => .error e
    | .ok a =>
      if !alignOk a (epPos src) n true then .error xferAlign
      else .ok [⟨.obj a (tableOf c.tables a) (epPos src), .core (epCore c dst) (epQ dst) (perRow a) (fmtBits a.fmt) a.fmt, n⟩]
  | 2, 1 =>
    match epObj s c .write ddev dst with
    | .error e => .error e
    | .ok b =>
      if !packedOk b.fmt then .error xferTag
      else if !alignOk b (epPos dst) n false then .error xferAlign
      else .ok [⟨.land (epSlice src) (epOff src) (fmtBits b.fmt), .obj b (tableOf c.tables b) (epPos dst) none, n⟩]
  | 3, 1 =>
    match epObj s c .write ddev dst with
    | .error e => .error e
    | .ok b =>
      if !alignOk b (epPos dst) n false then .error xferAlign
      else .ok [⟨.rows 0 (perRow b) (fmtBits b.fmt) (some b.fmt) false, .obj b (tableOf c.tables b) (epPos dst) none, n⟩]
  | 2, 2 => .ok [⟨.land (epSlice src) (epOff src) 128, .land (epSlice dst) (epOff dst) 128, n⟩]
  | 2, 3 => if n % 8 ≠ 0 then .error xferAlign
    else .ok [⟨.land (epSlice src) (epOff src) 128, .core (epCore c dst) (epQ dst) 8 128 tag, n⟩]
  | 3, 2 => if n % 8 ≠ 0 then .error xferAlign
    else .ok [⟨.rows 0 8 128 none true, .land (epSlice dst) (epOff dst) 128, n⟩]
  | 3, 3 => if n % 8 ≠ 0 then .error xferAlign
    else .ok [⟨.rows 0 8 128 none false, .core (epCore c dst) (epQ dst) 8 128 .f32, n⟩]
  | _, _ => .ok []

/-- The transfer of `fill` (R254). -/
def planFill (s : State) (c : Cmd) (h : FHdr) (n : Nat) (value dst : BitVec 64) (ddev : Nat) : Except Stop (List Transfer) :=
  if h.dk = 1 then
    match epObj s c .write ddev dst with
    | .error e => .error e
    | .ok b =>
      if b.fmt.code > 8 then .error xferTag
      else .ok [⟨.fixed (value.toNat % 2 ^ fmtBits b.fmt), .obj b (tableOf c.tables b) (epPos dst) none, n⟩]
  else .ok [⟨.fixed (value.toNat * (2 ^ 64 + 1)), .land (epSlice dst) (epOff dst) 128, n⟩]

/-! ## Index lists (R250) -/

/-- ROWLEN: 0 encodes 1,024. -/
def rowLen (v : BitVec 10) : Nat := if v = 0 then 1024 else v.toNat

/-- The entries of an index list that has been read. -/
def indexList (data : List Byte) (n : Nat) : List Nat := (List.range n).map (fun i => natOfBytes ((data.drop (4 * i)).take 4))

/-- The entry that skips its row. -/
def skipIdx : Nat := 0xFFFFFFFF

/-- Whether a table's rows of 4-bit elements start and end on whole bytes (R244). -/
def tableEven (o : Obj) (pos rl : Nat) : Bool := fmtBits o.fmt != 4 || (pos % 2 = 0 && rl % 2 = 0)

/-- The transfers of `gath`. -/
def planGath (s : State) (c : Cmd) (h : FHdr) (n : Nat) (src dst : BitVec 64) (rl : Nat) : Except Stop (List Transfer) :=
  let idx := indexList c.data n
  if h.sk = 1 then
    match epObj s c .read (devNo s) src with
    | .error e => .error e
    | .ok a =>
      let w := fmtBits a.fmt
      let rowB := rl * w / 8
      if h.dk = 2 && !packedOk a.fmt then .error xferTag
      else if !tableEven a (epPos src) rl then .error xferAlign
      else if h.dk = 3 && !idx.all (fun j => j = skipIdx || alignOk a (epPos src + j * rl) rl true) then .error xferAlign
      else .ok (idx.zipIdx.map (fun x =>
        ⟨if x.1 = skipIdx then .fixed 0 else .obj a (tableOf c.tables a) (epPos src + x.1 * rl),
         if h.dk = 3 then .core (epCore c dst) (epQ dst) (perRow a) w a.fmt else .land (epSlice dst) (epOff dst + x.2 * rowB) w, rl⟩))
  else .ok (idx.zipIdx.map (fun x =>
    ⟨if x.1 = skipIdx then .fixed 0 else .land (epSlice src) (epOff src + x.1 * rl * 16) 128,
     if h.dk = 3 then .core (epCore c dst) (epQ dst) 8 128 (Fmt.ofCode (fieldOf dst 12 9)) else .land (epSlice dst) (epOff dst + x.2 * rl * 16) 128, rl⟩))

/-- Lane rows of a table row (R250). -/
def lanesOf (w rl : Nat) : Nat := (rl * w + 1023) / 1024

/-- The transfers of `scat`: entries in list order. -/
def planScat (s : State) (c : Cmd) (h : FHdr) (n : Nat) (src dst : BitVec 64) (rl : Nat) : Except Stop (List Transfer) :=
  match epObj s c .write (devNo s) dst with
  | .error e => .error e
  | .ok b =>
    let w := fmtBits b.fmt
    if h.sk = 2 && !packedOk b.fmt then .error xferTag
    else if !tableEven b (epPos dst) rl then .error xferAlign
    else .ok (((indexList c.data n).zipIdx.filter (fun x => x.1 != skipIdx)).map (fun x =>
      ⟨if h.sk = 3 then .rows (x.2 * lanesOf w rl) (perRow b) w (some b.fmt) false else .land (epSlice src) (epOff src + x.2 * (rl * w / 8)) w,
       .obj b (tableOf c.tables b) (epPos dst + x.1 * rl) none, rl⟩))

/-- The ATOMS bit of an addition in a format (R250). -/
def addBit : Fmt → Nat
  | .i32 => 0 | .f32 => 5 | _ => 6

/-- The transfers of `scadd`: one update for each table row, at its first entry (R59; log entry 16). -/
def planScadd (s : State) (c : Cmd) (h : FHdr) (n : Nat) (src dst : BitVec 64) (rl : Nat) : Except Stop (List Transfer) :=
  match objEntry s c.portOf (epId dst) with
  | .error f => .error (.fault f { obj := domainId s (epId dst) })
  | .ok b0 =>
  let fmtOf := fun (o : Obj) => o.fmt == .f32 || o.fmt == .bf16 || o.fmt == .i32
  match epObj s c .write (devNo s) dst with
  | .error e => .error e
  | .ok b1 =>
    if !fmtOf b1 then .error xferTag else
    match epObj s c (.atomic (addBit b1.fmt)) (devNo s) dst with
    | .error e => .error e
    | .ok b =>
      let w := fmtBits b.fmt
      let idx := (indexList c.data n).zipIdx.filter (fun x => x.1 != skipIdx)
      .ok ((idx.map (·.1)).eraseDups.map (fun j =>
        ⟨.merged ((idx.filter (fun x => x.1 == j)).map (·.2)) (h.sk = 3) (epSlice src) (epOff src) (rl * w / 8) (lanesOf w rl) (perRow b) w b.fmt,
         .obj b (tableOf c.tables b0) (epPos dst + j * rl) (some (addBit b.fmt)), rl⟩))

/-! ## Landing operations (R251 to R253) -/

/-- NC: 0 encodes 64. -/
def ncOf (v : BitVec 6) : Nat := if v = 0 then 64 else v.toNat
/-- STRIDE of a source endpoint, in bytes. -/
def strideOf (src : BitVec 64) : Nat := 16 * fieldOf src 45 28
/-- FMT of `lred`. -/
def lredFmt (v : BitVec 2) : Fmt := match v.toNat with
  | 0 => .f32 | 1 => .bf16 | _ => .i32

/-- Combine contributions in ascending order (R251): any NaN gives canonical NaN, and −0 ranks below +0. -/
def combine (f : Fmt) (rop : Nat) (l : List Nat) : Nat :=
  if rop = 0 then sumCodes f l
  else
    let vs := l.map (codeVal f 127)
    if vs.any Val.isNan then codeOf f .nan
    else match List.zip l vs with
      | [] => 0
      | x :: xs => (xs.foldl (fun best y => if (if rop = 1 then Val.ltz best.2 y.2 else Val.ltz y.2 best.2) then y else best) x).1

/-- Read `n` lists of `len` bytes that lie `stride` apart. -/
def readLists (s : State) (c : Cmd) (slice off stride len : Nat) : List Nat → Except Stop (List (List Byte))
  | [] => .ok []
  | k :: ks => match cmdLandGet s c slice (off + k * stride) len with
    | .error f => .error (.fault f {})
    | .ok b => match readLists s c slice off stride len ks with
      | .error e => .error e
      | .ok bs => .ok (b :: bs)

/-- The result bytes of `lred`. -/
def lredBytes (f : Fmt) (rop n : Nat) (cons : List (List Byte)) : List Byte :=
  let w := fmtBits f / 8
  (List.range n).flatMap (fun j => bytesOfNat w (combine f rop (cons.map (fun b => natOfBytes ((b.drop (j * w)).take w)))))

/-- A pair of `ltopk` with the list it came from. -/
structure Pair where
  id : Nat
  score : Nat
  list : Nat
deriving DecidableEq, Repr

/-- Whether a pair stands before another (R252): NaN scores last, then by score, identifier and list. -/
def Pair.before (asc : Bool) (a b : Pair) : Bool :=
  let x := codeVal .f32 127 a.score
  let y := codeVal .f32 127 b.score
  let tie := decide (a.id < b.id) || (a.id == b.id && decide (a.list < b.list))
  if x.isNan || y.isNan then (!x.isNan && y.isNan) || (x.isNan && y.isNan && tie)
  else if Val.eqv x y then tie
  else if asc then Val.lt x y else Val.lt y x

/-- Insert a pair in order, behind its equals. -/
def insertPair (asc : Bool) (a : Pair) : List Pair → List Pair
  | [] => [a]
  | b :: bs => if a.before asc b then a :: b :: bs else b :: insertPair asc a bs

/-- The result bytes of `ltopk`. -/
def ltopkBytes (asc : Bool) (k len : Nat) (lists : List (List Byte)) : List Byte :=
  let pairs := lists.zipIdx.flatMap (fun x => (List.range len).map (fun i =>
    (⟨natOfBytes ((x.1.drop (16 * i)).take 8), natOfBytes ((x.1.drop (16 * i + 8)).take 4), x.2⟩ : Pair)))
  let best := ((pairs.filter (fun p => p.id != 2 ^ 64 - 1)).foldl (fun l p => insertPair asc p l) []).take k
  let all := best ++ List.replicate (k - best.length) ⟨2 ^ 64 - 1, if asc then 0x7F800000 else 0xFF800000, 0⟩
  all.flatMap (fun p => bytesOfNat 8 p.id ++ bytesOfNat 8 p.score)

/-- The destination of a landing operation's result (R251, R252). -/
def planResult (s : State) (c : Cmd) (h : FHdr) (dst : BitVec 64) (f : Fmt) (w n : Nat) : Except Stop (List Transfer) :=
  if h.dk = 1 then
    match epObj s c .write (devNo s) dst with
    | .error e => .error e
    | .ok b => if b.fmt != f then .error xferTag else .ok [⟨.data (fmtBits f), .obj b (tableOf c.tables b) (epPos dst) none, n * w / fmtBits f⟩]
  else .ok [⟨.data w, .land (epSlice dst) (epOff dst) w, n⟩]

/-- The transfers of `lcmp`: the rows whose mask byte is set, then the count sector. -/
def planLcmp (c : Cmd) (f : LcmpF) : List Transfer :=
  let n := f.count.toNat
  let rb := f.rb.toNat
  let hits := (List.range n).filter (fun j => (c.data.getD j 0) != 0)
  hits.zipIdx.map (fun x => ⟨.land (epSlice f.src) (epOff f.src + x.1 * rb * 16) 128, .land (epSlice f.dst) (epOff f.dst + x.2 * rb * 16) 128, rb⟩)
    ++ [⟨.fixed hits.length, .land (landAddr f.cnt.toNat).1 (landAddr f.cnt.toNat).2 128, 1⟩]

/-! ## What each command moves -/

/-- The landing bytes that a command reads once at its start: slice, offset, length. -/
def startReads : Instr → List (Nat × Nat × Nat)
  | .ferry_gath _ f => [((landAddr f.idx.toNat).1, (landAddr f.idx.toNat).2, 4 * f.count.toNat)]
  | .scat _ f => [((landAddr f.idx.toNat).1, (landAddr f.idx.toNat).2, 4 * f.count.toNat)]
  | .scadd _ f => [((landAddr f.idx.toNat).1, (landAddr f.idx.toNat).2, 4 * f.count.toNat)]
  | .lcmp _ f => [((landAddr f.mask.toNat).1, (landAddr f.mask.toNat).2, f.count.toNat)]
  | .lred _ f => (List.range (ncOf f.nc)).map (fun k =>
      (epSlice f.src, epOff f.src + k * strideOf f.src, f.count.toNat * fmtBits (lredFmt f.fm) / 8))
  | .ltopk _ f => (List.range (ncOf f.nc)).map (fun k => (epSlice f.src, epOff f.src + k * strideOf f.src, 16 * f.len.toNat))
  | _ => []

/-- What it makes of them. -/
def startData (s : State) (c : Cmd) (i : Instr) : Except Stop (List Byte) :=
  match i with
  | .lred _ f =>
    let n := f.count.toNat
    (readLists s c (epSlice f.src) (epOff f.src) (strideOf f.src) (n * fmtBits (lredFmt f.fm) / 8) (List.range (ncOf f.nc))).map
      (lredBytes (lredFmt f.fm) f.rop.toNat n)
  | .ltopk _ f =>
    (readLists s c (epSlice f.src) (epOff f.src) (strideOf f.src) (16 * f.len.toNat) (List.range (ncOf f.nc))).map
      (ltopkBytes (f.ord = 1) f.count.toNat f.len.toNat)
  | i => match startReads i with
    | (sl, off, n) :: _ => match cmdLandGet s c sl off n with
      | .error f => .error (.fault f {})
      | .ok b => .ok b
    | [] => .ok []

/-- The transfers of a command. -/
def planOf (s : State) (c : Cmd) : Instr → Except Stop (List Transfer)
  | .copy h f => planCopy s c h f.count.toNat f.src f.dst f.sdev.toNat f.ddev.toNat (Fmt.ofCode f.tag.toNat)
  | .copyp h f => planCopy s c h f.count.toNat f.src f.dst f.sdev.toNat (devNo s) .f32
  | .pref h f => if h.dk = 2 then planCopy s c h f.count.toNat f.src f.dst f.sdev.toNat f.ddev.toNat (Fmt.ofCode f.tag.toNat) else .ok []
  | .ferry_gath h f => planGath s c h f.count.toNat f.src f.dst (rowLen f.rowlen)
  | .scat h f => planScat s c h f.count.toNat f.src f.dst (rowLen f.rowlen)
  | .scadd h f => planScadd s c h f.count.toNat f.src f.dst (rowLen f.rowlen)
  | .lred h f => planResult s c h f.dst (lredFmt f.fm) (fmtBits (lredFmt f.fm)) f.count.toNat
  | .ltopk h f => planResult s c h f.dst .ui8 128 f.count.toNat
  | .lcmp _ f => .ok (planLcmp c f)
  | .ferry_fill h f => planFill s c h f.count.toNat f.value f.dst f.ddev.toNat
  | _ => .ok []

/-- The instruction of a command's words. -/
def Cmd.instr (c : Cmd) : Option Instr :=
  match decodePort c.word with
  | .ok i => some i
  | .error _ => none

/-- The device that holds the destination of a command. -/
def ddevOf (s : State) (c : Cmd) : Nat :=
  match c.instr with
  | some (.copy _ f) => f.ddev.toNat
  | _ => devNo s

/-- Rows that a command with a CORE source needs (R266); not known while its destination object cannot be read. -/
def rowsNeeded (s : State) (c : Cmd) : Option Nat :=
  let n := c.bits 57 26
  if c.bits 10 8 ≠ 3 then some 0
  else if c.bits 13 11 = 1 then
    match objDev s c.portOf c.req .write (ddevOf s c) (c.bits 151 128) with
    | .ok o =>
      let w := fmtBits o.fmt
      some (if c.op = 0xE4 ∨ c.op = 0xE5 then n * lanesOf w (rowLen (.ofNat 10 (c.bits 255 246))) else lanesOf w n)
    | .error _ => none
  else some (n / 8)

/-- The first position of each 64-byte line of a range, and the first position past the extents where the range runs past them. -/
def linePositions (o : Obj) (pos n : Nat) : List Nat :=
  (((List.range (min n (o.elems - pos))).map (fun i => (pos + i, (o.place (pos + i)).1, o.elemByte (o.place (pos + i)).2 / 64))).foldl
    (fun (acc : List (Nat × Nat × Nat)) x => match acc with
      | y :: _ => if y.2 == x.2 then acc else x :: acc
      | [] => [x]) []).reverse.map (·.1) ++ (if o.elems < pos + n then [max pos o.elems] else [])

/-- The ATOMS bit of an AOP (R255). -/
def aopBit (aop : Nat) : Nat :=
  if aop = 0 then 0 else if aop ≤ 4 then 1 else if aop ≤ 7 then 2 else if aop = 8 then 3 else if aop = 9 then 4
  else if aop = 10 then 5 else if aop = 11 then 6 else 7

/-- The sectors of a target that is changed in one access. -/
def targetKeys (s : State) (c : Cmd) (dk : BitVec 3) (dst : BitVec 64) (kind : AccKind) (n : Nat) : List (Nat × Nat) :=
  if dk = 1 then (match epObj s c kind (devNo s) dst with
    | .ok o => if epPos dst < o.elems then tileKeys s c.portOf o (tableOf c.tables o) (o.place (epPos dst)).1 [o.elemByte (o.place (epPos dst)).2] else []
    | .error _ => [])
  else sectorKeys 3 (epSlice dst * 2 ^ 22 + epOff dst) n

/-- The sectors of the lines that `pref` fills into a cache part. -/
def prefKeys (s : State) (c : Cmd) (f : PrefF) : List (Nat × Nat) :=
  match epObj s c .read f.sdev.toNat f.src with
  | .error _ => []
  | .ok o => ((linePositions o (epPos f.src) f.count.toNat).filter (· < o.elems)).flatMap (fun pos =>
      let e := o.elemByte (o.place pos).2
      tileKeys s c.portOf o (tableOf c.tables o) (o.place pos).1 ((List.range 4).map (fun k => e / 64 * 64 + 16 * k)))

/-- The sectors that a command which moves no transfers touches, with whether it may write them. -/
def singleKeys (s : State) (c : Cmd) (i : Instr) : List (Bool × Nat × Nat) :=
  match i with
  | .atom h f => (targetKeys s c h.dk f.dst (.atomic (aopBit f.aop.toNat)) (if f.w64 = 1 then 8 else 4) ++
      (if f.reten = 1 then sectorKeys 3 ((landAddr f.ret.toNat).1 * 2 ^ 22 + (landAddr f.ret.toNat).2) 16 else [])).map (true, ·)
  | .ferry_msig h f => (targetKeys s c h.dk f.dst .write 4).map (true, ·)
  | .barinit _ f => (sectorKeys 3 ((barAt f.bar.toNat).1 * 2 ^ 22 + (barAt f.bar.toNat).2) 16).map (true, ·)
  | .pref h f => if h.dk = 4 then (prefKeys s c f).map (false, ·) else []
  | _ => []

/-- Whether what a command moves follows from a list that it has not read yet: its accesses are not known (log entry 100). -/
def listUnread (c : Cmd) : Bool :=
  !c.begun && (match c.instr with
    | some (.ferry_gath _ _) => true
    | some (.scat _ _) => true
    | some (.scadd _ _) => true
    | some (.lcmp _ _) => true
    | _ => false)

/-- The slices that a command names: its landing areas, the cache part it uses and its barrier. -/
def Cmd.slices (c : Cmd) (i : Instr) : List Nat :=
  (if c.bits 10 8 = 2 then [c.bits 69 64] else []) ++ (if c.bits 13 11 = 2 ∨ c.bits 13 11 = 4 then [c.bits 133 128] else [])
    ++ (if c.word.getLsbD 25 then [c.bits 63 58] else []) ++ (if c.ben then [(barAt c.bar).1] else []) ++ (startReads i).map (·.1)
    ++ (match i with
      | .barinit _ f => [(barAt f.bar.toNat).1]
      | .atom _ f => if f.reten = 1 then [(landAddr f.ret.toNat).1] else []
      | .lcmp _ f => [(landAddr f.cnt.toNat).1]
      | _ => [])

/-- The bytes that a command which moves no transfers writes (R260). -/
def singleBytes : Instr → Nat
  | .ferry_msig _ _ => 4
  | _ => 0

/-- Every sector a started command may still access, with whether it may write it (R353). -/
def remaining (s : State) (c : Cmd) : List (Bool × Nat × Nat) :=
  match c.instr with
  | none => []
  | some i =>
    let start := if c.begun then [] else (startReads i).flatMap (fun r => (sectorKeys 3 (r.1 * 2 ^ 22 + r.2.1) r.2.2).map (fun k => (false, k)))
    let rest := match planOf s c i with
      | .ok ts => leftKeys s c ts
      | .error _ => []
    start ++ rest ++ singleKeys s c i

/-- Whether a command ahead in the same ferry queue may still access a sector in a way that an access of this one follows
(R262, R353), or the sector is of staging whose slice is being resized (R55). -/
def sectorBusy (s : State) (c : Cmd) : Bool → Nat × Nat → Bool :=
  let before := s.cmds.filter (fun p => p.2.port == 0 && p.2.unit == c.unit && decide (p.2.qseq < c.qseq) &&
    (p.2.st == .running || p.2.isSuspended))
  let ahead := before.flatMap (fun p => remaining s p.2)
  fun wr k => before.any (fun p => listUnread p.2) || ahead.any (fun x => x.2 == k && (wr || x.1)) || (k.1 == 3 && resizingSlice s (k.2 / 2 ^ 18))

/-! ## Atomics and signals (R255, R258) -/

/-- The new value of an atomic on `w` bytes. -/
def aopValue (aop w old v cmp : Nat) : Nat :=
  let m := 2 ^ (8 * w)
  let v := v % m
  let sg := fun (x : Nat) => signedOf (8 * w) x
  match aop with
  | 0 => (old + v) % m
  | 1 => if sg v < sg old then v else old
  | 2 => if sg old < sg v then v else old
  | 3 => if v < old then v else old
  | 4 => if old < v then v else old
  | 5 => Nat.land old v
  | 6 => Nat.lor old v
  | 7 => Nat.xor old v
  | 8 => v
  | 9 => if old = cmp % m then v else old
  | 10 => f32rne (Val.add .rne (codeVal .f32 127 old) (codeVal .f32 127 v))
  | 11 => bf16F.conv .rne false 0 (Val.add .rne (codeVal .bf16 127 old) (codeVal .bf16 127 v))
  | _ =>
    let x := codeVal .f32 127 old
    let y := codeVal .f32 127 v
    if x.isNan || y.isNan then f32rne .nan
    else if aop = 12 then (if Val.ltz y x then v else old) else (if Val.ltz x y then v else old)

/-- Change `w` bytes of a target in one access: an element's bytes of an object, or staging (R255). -/
def targetRmw (s : State) (c : Cmd) (dk : BitVec 3) (dst : BitVec 64) (kind : AccKind) (w : Nat) (hostOk : Tier → Bool)
    (f : Nat → Nat) : Except Stop (Nat × State) :=
  if dk = 1 then
    match epObj s c kind (devNo s) dst with
    | .error e => .error e
    | .ok o =>
      let here : Where := { obj := o.domain s, tile := (o.place (epPos dst)).1, dtile := (o.place (epPos dst)).1 }
      if epPos dst ≥ o.elems then .error (.fault (accessFault 4) { obj := o.domain s }) else
      match tileRaw s c.portOf o (tableOf c.tables o) here.tile with
      | .error g => .error (.fault g here)
      | .ok t0 =>
        if t0.present && !hostOk t0.tier then .error (.fault (accessFault 3) here) else
        match tileFor s c.portOf kind o (tableOf c.tables o) here.tile with
        | .error g => .error (.fault g here)
        | .ok t =>
          let a := t.addr + o.elemByte (o.place (epPos dst)).2
          if a % w ≠ 0 then .error (.fault (accessFault 0xA) here) else
          match tierRead s o t.tier a w none with
          | .error g => .error (.fault g here)
          | .ok (_, true, _) => .error (.fault (accessFault 7) here)
          | .ok (b, false, _) =>
            match tierWrite s o t.tier (bytesAt a (bytesOfNat w (f (natOfBytes b)))) none {} with
            | .error g => .error (.fault g here)
            | .ok s' => .ok (natOfBytes b, s')
  else if epOff dst % w ≠ 0 then .error xferAlign
  else match cmdLandGet s c (epSlice dst) (epOff dst) w with
    | .error g => .error (.fault g {})
    | .ok b => match cmdLandPut s c (epSlice dst) (epOff dst) (bytesOfNat w (f (natOfBytes b))) with
      | .error g => .error (.fault g {})
      | .ok s' => .ok (natOfBytes b, s')

/-- `atom` on its target, and the old value to the return sector. -/
def runAtom (h : FHdr) (f : AtomF) (c : Cmd) (s : State) : Except Stop State :=
  let aop := f.aop.toNat
  let w := if aop = 11 then 2 else if f.w64 = 1 then 8 else 4
  if f.reten = 1 && !landAllowed s c (landAddr f.ret.toNat).1 (landAddr f.ret.toNat).2 16 then .error (.fault (accessFault 8) {}) else
  match targetRmw s c h.dk f.dst (.atomic (aopBit aop)) w (fun t => tierAtoms t (aopBit aop))
      (fun old => aopValue aop w old f.value.toNat f.cmpv.toNat) with
  | .error e => .error e
  | .ok (old, s') =>
    if f.reten = 1 then
      match cmdLandPut s' c (landAddr f.ret.toNat).1 (landAddr f.ret.toNat).2 (bytesOfNat 16 old) with
      | .error g => .error (.fault g {})
      | .ok s'' => .ok s''
    else .ok s'

/-- `msig` on its word, once what the commands before it wrote is visible at its SCOPE (R258): cache parts write back what the scope asks
for. -/
def runMsig (h : FHdr) (f : FerryMsigF) (c : Cmd) (s : State) : Except Stop State :=
  let v := f.value.toNat
  (targetRmw (cleanScope c.scope s) c h.dk f.dst .write 4 (fun t => t != .flash) (fun old =>
    match f.sop.toNat with
    | 0 => min (old + v) 0xFFFFFFFF
    | 1 => v
    | _ => max old v)).map (·.2)

/-- `barinit` writes its barrier (R256); held arrivals are handled again. -/
def runBarinit (f : BarinitF) (c : Cmd) (s : State) : Except Stop State :=
  let (sl, off) := barAt f.bar.toNat
  match cmdLandPut s c sl off (bytesOfNat 16 (f.target.toNat * 2 ^ 64)) with
  | .error g => .error (.fault g {})
  | .ok s' => .ok (retryHeld f.bar.toNat (s'.cmds.length + 1) s')

/-! ## Publication and invalidation (R248, R257) -/

/-- What a marker covers: every entry, or the entries of objects with all tiles or a range of them. -/
structure Cover where
  all : Bool
  objs : List Nat
  first : Nat
  n : Option Nat
deriving DecidableEq, Repr

/-- Whether a held entry is covered. -/
def Cover.has (v : Cover) (e : TlbEntry) : Bool :=
  v.all || (v.objs.contains e.obj && (e.isObj || match v.n with
    | none => true
    | some n => decide (v.first ≤ e.tile ∧ e.tile < v.first + n)))

/-- Whether a command may make covered accesses. -/
def Cover.touches (v : Cover) (c : Cmd) : Bool :=
  v.all || (if c.port = 0 then (c.bits 10 8 = 1 && v.objs.contains (c.bits 87 64)) || (c.bits 13 11 = 1 && v.objs.contains (c.bits 151 128))
    else v.objs.contains c.obj)

/-- Whether a queued command stands before the marker on its ferry: behind the marking command on its own ferry the marker would wait for
commands that wait for it, so there it takes the place of that command (log entry 84). -/
def aheadQueued (own : Option Cmd) (c : Cmd) : Bool :=
  c.st == .queued && (match own with
    | some o => c.unit != o.unit || decide (c.qseq < o.qseq)
    | none => true)

/-- The log of an index, whose pages its storage commands use too (R272, R285). -/
def indexLog (s : State) (id : Nat) : Option Nat :=
  match objEntry s walkPort id with
  | .error _ => none
  | .ok o => if o.kind != 3 && o.kind != 4 then none else
    match tileRaw s walkPort o o.ttPtr 0 with
    | .ok t => if t.present && t.tier == .flash then some (bitsOf (natOfBytes (flashBytes s id t.addr 8)) 42 19) else none
    | .error _ => none

/-- Whether a storage or key-value command may make covered accesses: to its object, or to the log of its index. -/
def Cover.reaches (v : Cover) (s : State) (c : Cmd) : Bool := v.touches c || (c.port == 1 && (indexLog s c.obj).any v.objs.contains)

/-- The commands that stand before markers: queued ones, which their ferries must pass, and started ones that may still make covered
accesses (R257). -/
def aheadOf (own : Option Cmd) (v : Cover) (s : State) : List Nat :=
  (s.cmds.filter (fun p => if p.2.port = 0 then aheadQueued own p.2 || v.touches p.2 && (p.2.st == .running || p.2.isSuspended)
    else v.reaches s p.2 && (p.2.st == .running || p.2.st == .waiting || p.2.isSuspended ||
      p.2.st == .queued && (p.2.begun || !p.2.tables.isEmpty)))).map (·.1)

/-- Whether a suspended access is one of the host port or of the queue manager. -/
def Susp.outside : Susp → Bool
  | .cmd _ => false
  | .fetch _ _ => false
  | _ => true

/-- What stands in a list of suspended accesses for one that still waits for its number. -/
def waitName (seq : Nat) : Nat := 65536 + seq

/-- The suspended accesses of the host port and of the queue manager (R257). -/
def suspsAhead (s : State) : List Nat :=
  (s.susps.filter (·.2.outside)).map (·.1) ++ (s.suspWait.filter (·.who.outside)).map (fun w => waitName w.seq)

/-- Place markers at the tail of every ferry queue at one instant (R257): ferries' entries serve no command behind them, and
every other layout unit drops them. The marking command completes when the ferries have passed them and the accesses ahead have
ended. -/
def placeMarkers (id : Nat) (v : Cover) (s : State) : State :=
  let m := s.nextId
  let own := s.cmds.find id
  let keep := s.tlb.filter (fun e => !v.has e || decide (e.port < 64))
  let ahead := (aheadOf own v s).filter (· != id)
  let place := fun (port : Nat) => match own with
    | some o => if port = o.unit then o.qseq else m
    | none => m
  { s with
    nextId := m + 1
    tlb := keep.map (fun e => if v.has e then { e with upTo := some (match e.upTo with
      | some q => min q (place e.port)
      | none => place e.port) } else e) }.updCmd id (fun c => { c with after := ahead, afterSusps := suspsAhead s, version := m })

/-- What `inval` covers. -/
def coverOf (f : InvalF) : Cover :=
  ⟨f.allobj = 1, [f.obj.toNat], f.first.toNat, if f.allt = 1 then none else some f.ntiles.toNat⟩

/-- A sector that commands of a core left dirty takes another key. -/
def Core.rename (c : Core) (d e : Nat × Nat) : Core :=
  let f := fun (x : Ctx) => { x with unseen := x.unseen.map (fun y => if y = d then e else y) }
  { c with prog := f c.prog, fw := f c.fw }

/-- A covered dirty sector stands where the new entries place it (R358); one that they no longer place stays (log entry 84). -/
def rehomeSec (v : Cover) (slice key : Nat) (c : CacheSec) (s : State) : State :=
  if c.dirty && v.has ⟨0, false, 0, c.obj, c.tile, 0, none⟩ then
    match newHome s c with
    | some (k, col) =>
      if k = key ∧ col = c.colour then s else
      { s with
        cache := s.cache.put slice (((s.cacheOf slice).del key).put k { c with colour := col })
        cmds := s.cmds.map (fun p => (p.1, { p.2 with dirtied := p.2.dirtied.map (fun d => if d = (slice, key) then (slice, k) else d) }))
        cores := s.cores.map (fun p => (p.1, p.2.rename (slice, key) (slice, k))) }
    | none => s
  else s

/-- The covered dirty sectors of every cache part stand where the new entries place them, once no access uses the old ones. -/
def rehome (v : Cover) (s : State) : State :=
  s.cache.foldl (fun s p => p.2.foldl (fun s x => rehomeSec v p.1 x.1 x.2 s) s) s

/-- The 64 bytes of an object entry of this module. -/
def entryBytes (s : State) (id : Nat) : Except HwFault (List Byte) := lpRead s (objAddr s id) 64 (tableColour s)

/-- Dirty sectors stay with the tiles that two objects have exchanged. -/
def swapHomes (pub shadow : Nat) (s : State) : State :=
  { s with cache := s.cache.map (fun p => (p.1, p.2.map (fun x => (x.1, { x.2 with
      obj := if x.2.obj = pub then shadow else if x.2.obj = shadow then pub else x.2.obj })))) }

/-- Publish a shadow object (R248): the entries must agree but for TT_PTR; they exchange it, each written whole. -/
def publish (id pub shadow : Nat) (s : State) : Except Stop State :=
  let ent := fun (i : Nat) => match objEntry s walkPort i with
    | .error f => Except.error (Stop.fault f { obj := domainId s i })
    | .ok _ => match entryBytes s i with
      | .error f => .error (.fault f { obj := domainId s i })
      | .ok b => .ok (natOfBytes b)
  match ent pub, ent shadow with
  | .error e, _ => .error e
  | _, .error e => .error e
  | .ok a, .ok b =>
    if setBits a 375 336 0 ≠ setBits b 375 336 0 then .error (.fault (accessFault 0xE) { obj := domainId s pub }) else
    match lpWrite s (objAddr s pub) (bytesOfNat 64 b) (tableColour s) with
    | .error f => .error (.fault f { obj := domainId s pub })
    | .ok s1 => match lpWrite s1 (objAddr s shadow) (bytesOfNat 64 a) (tableColour s) with
      | .error f => .error (.fault f { obj := domainId s shadow })
      | .ok s2 => .ok (placeMarkers id ⟨false, [pub, shadow], 0, none⟩ (swapHomes pub shadow s2))

/-! ## Prefetch (R249) -/

/-- Fill the lines of a range into a cache part; lines of other tiers are skipped. -/
def prefLines (o : Obj) (p : Port) (tt slice : Nat) : List Nat → State → Except Stop State
  | [], s => .ok s
  | pos :: r, s =>
    if pos ≥ o.elems then .error (.fault (accessFault 4) { obj := o.domain s }) else
    let (tile, e) := o.place pos
    match tileFor s p .read o tt tile with
    | .error f => .error (.fault f { obj := o.domain s, tile := tile })
    | .ok t =>
      if (t.tier = .lpddr || t.tier = .host) && hasCache s slice then
        let line := (t.addr + o.elemByte e) / 64
        match cacheReadList slice t.tier o.colour ((List.range 4).map (fun k => 4 * line + k)) s with
        | .error f => .error (.fault f { obj := o.domain s, tile := tile })
        | .ok (_, s') => prefLines o p tt slice r s'
      else prefLines o p tt slice r s

/-- `pref` into a cache part. -/
def runPref (c : Cmd) (f : PrefF) (s : State) : Except Stop State :=
  match epObj s c .read f.sdev.toNat f.src with
  | .error e => .error e
  | .ok o =>
    if fmtBits o.fmt = 4 && (epPos f.src % 2 ≠ 0 || f.count.toNat % 2 ≠ 0) then .error xferAlign
    else prefLines o c.portOf (tableOf c.tables o) (epSlice f.dst) (linePositions o (epPos f.src) f.count.toNat) s

/-! ## Running a command -/

/-- What a command does in one access, where it does: `none` for one that moves transfers. -/
def runSingle (i : Instr) (id : Nat) (c : Cmd) (s : State) : Option (Except Stop State) :=
  match i with
  | .atom h f => some (runAtom h f c s)
  | .ferry_msig h f => some (runMsig h f c s)
  | .barinit _ f => some (runBarinit f c s)
  | .inval _ f => some (.ok (placeMarkers id (coverOf f) s))
  | .pref h f => if h.dk = 4 then some (runPref c f s) else none
  | _ => none

/-- Whether every member task of a binding's launch has completed, or the launch has stopped: no more rows come (R266). The launch of a firmware
context's command is the one that runs on its core (log entry 101). -/
def noMoreRows (s : State) (c : Cmd) : Bool :=
  match c.issuer with
  | .ctx _ _ (some r) => match crewOfRec s r with
    | some (_, w) => w.stopped.isSome || w.members.all (fun k => (s.core k).taskDone)
    | none => true
  | .ctx _ true none => true
  | _ => false

/-- Rows of a binding whose writes have all been made. -/
def rowsDone (c : Cmd) (ts : List Transfer) : Nat :=
  let left := ((ts.drop c.pos).zipIdx).flatMap (fun x => (x.1.units.drop (if x.2 = 0 then c.nsect else 0)).flatMap (fun u =>
    u.items.flatMap (fun i => match x.1.src with
      | .rows first per _ _ _ => [first + i.2 / per]
      | .merged places true _ _ _ rpe per _ _ => places.map (fun k => k * rpe + i.2 / per)
      | _ => [])))
  left.foldl min c.bound.length

/-- Whether rows of an earlier binding of the queue will never be written. -/
def lostAhead (s : State) (k q id : Nat) : Bool := ((s.core k).fr.lost.find q).any (fun l => decide (l < id))

/-- Count the markers whose rows have been written (R198). A command that writes through a cache part at DEVICE scope or
wider makes its writes complete at its end. -/
def settleMarks (id : Nat) (ts : List Transfer) (s : State) : State :=
  match s.cmds.find id with
  | some c =>
    match c.core with
    | some k =>
      if c.bits 10 8 ≠ 3 then s else
      let n := rowsDone c ts - c.sent.length
      let s1 := s.updCmd id (fun c => { c with rowsOut := n })
      if !(c.word.getLsbD 25 && decide (2 ≤ c.scope)) && (unwrittenAhead s id c).isNone && !lostAhead s k (c.bits 72 70) id then
        let (l, s') := fireMarks k n c.items s1
        s'.updCmd id (fun c => { c with items := l })
      else s1
    | none => s
  | none => s

/-- Count the markers of a binding that stand behind written rows. -/
def settleBinding (s : State) (id : Nat) : State :=
  match s.cmds.find id with
  | some c => match c.instr with
    | some i => match planOf s c i with
      | .ok ts => settleMarks id ts s
      | .error _ => s
    | none => s
  | none => s

/-- Count the markers of every binding of an outbound queue, oldest first, then those at the head of the queue. -/
def settleQueue (core q : Nat) (s : State) : State :=
  countMarks 64 core q (((s.cmds.filter (fun p => p.2.port == 0 && p.2.core == some core && p.2.bits 10 8 == 3 && p.2.bits 72 70 == q &&
    (p.2.st == .running || p.2.isSuspended || p.2.st == .moved))).map (·.1)).foldl settleBinding s)

/-- Write back what a command dirtied, as its SCOPE asks (R263, R350). -/
def writeBackCmd (s : State) (c : Cmd) : State :=
  if c.scope < 2 then s else
  ((c.dirtied.map (·.1)).eraseDups).foldl (fun s sl =>
    cleanSlice s sl (fun k => c.dirtied.contains (sl, k) && (decide (k / 2 ^ 60 = 0) || decide (c.scope = 4)))) s

/-- Publish what a `copyp` wrote, after every write is complete at its SCOPE (R248, R263). -/
def publishCmd (id : Nat) (f : CopypF) (s : State) : Except Stop State :=
  match s.cmds.find id with
  | some c => publish id f.pub.toNat (epId f.dst) (writeBackCmd s c)
  | none => .ok s

/-- The end of a run: what the command has become. -/
def ferrySettle (id : Nat) (i : Instr) (r : State × Option Stop) : State :=
  match r with
  | (s, none) =>
    match i with
    | .copyp _ f =>
      match publishCmd id f s with
      | .ok s' => s'.updCmd id (fun c => { c with st := .moved })
      | .error (.fault g w) => cmdFault s id g w
      | .error .wait => s
    | _ => s.updCmd id (fun c => { c with st := .moved })
  | (s, some .wait) =>
    match s.cmds.find id with
    | some c =>
      if c.bits 10 8 = 3 && c.short (rowsNeeded s c) && noMoreRows s c then endOnFault s id (accessFault 0xB) {}
      else s.updCmd id (fun c => { c with st := .running })
    | none => s
  | (s, some (.fault g w)) => cmdFault s id g w

/-- The tile tables a command fixes at its first translation of its objects (R248). -/
def fixTables (s : State) (c : Cmd) : SMap Nat :=
  let fix := fun (m : SMap Nat) (k id : Nat) =>
    if k = 1 then (match objEntry s c.portOf id with
      | .ok o => if (m.find id).isSome then m else m.put id o.ttPtr
      | .error _ => m) else m
  fix (fix c.tables (c.bits 10 8) (c.bits 87 64)) (c.bits 13 11) (c.bits 151 128)

/-- What is done once: lists are read, formats checked and pending bytes added (R250 to R252, R260). -/
def begin0 (id : Nat) (i : Instr) (c : Cmd) (busy : Bool → Nat × Nat → Bool) (s : State) : Except Stop State :=
  if c.begun then .ok s else
  if (startReads i).any (fun r => (sectorKeys 3 (r.1 * 2 ^ 22 + r.2.1) r.2.2).any (busy false)) then .error .wait else
  match startData s c i with
  | .error e => .error e
  | .ok data =>
    let c1 := { c with data := data, tables := fixTables s c, begun := true }
    match planOf s c1 i with
    | .error e => .error e
    | .ok ts => match barStart s c1 (totalBytes ts + singleBytes i) with
      | .error f => .error (.fault f {})
      | .ok s' => .ok { s' with cmds := s'.cmds.put id c1 }

/-- Whether a command has yet to take rows of its binding: those of skipped list entries are taken without effect (R250). -/
def lacksRows (s : State) (id : Nat) : Bool :=
  match s.cmds.find id with
  | some c => c.bits 10 8 == 3 && c.short (rowsNeeded s c)
  | none => false

/-- Run a started command as far as it goes. -/
def runFerry (i : Instr) (id : Nat) (s : State) : State :=
  match s.cmds.find id with
  | none => s
  | some c =>
    if (c.slices i).any (resizingSlice s) then s else
    let busy := sectorBusy s c
    match begin0 id i c busy s with
    | .error e => ferrySettle id i (s, some e)
    | .ok s1 =>
      match s1.cmds.find id with
      | none => s1
      | some c1 =>
        match runSingle i id c1 s1 with
        | some r =>
          if (singleKeys s1 c1 i).any (fun k => busy k.1 k.2) then ferrySettle id i (s1, some .wait) else
          match r with
          | .ok s2 => ferrySettle id i (barWrote s2 c1 (singleBytes i), none)
          | .error e => ferrySettle id i (s1, some e)
        | none =>
          let s2 := takeRows id (rowsNeeded s1) s1
          match planOf s2 ((s2.cmds.find id).getD c1) i with
          | .error e => ferrySettle id i (s2, some e)
          | .ok ts =>
            let cache := if c1.word.getLsbD 25 then some (c1.bits 63 58) else none
            let (s3, e) := moveAll id cache busy (noMoreRows s2 c1) (ts.drop c1.pos) s2
            ferrySettle id i (settleMarks id ts s3, if e.isNone && lacksRows s3 id then some .wait else e)

/-- Whether a command waits for commands ahead of it before it starts: `msig` (R258). -/
def msigWaits (s : State) (id : Nat) (c : Cmd) : Bool :=
  match c.issuer with
  | .ctx k fw _ => s.cmds.any (fun p => decide (p.1 < id) && p.2.port == 0 && (match p.2.issuer with
      | .ctx k' fw' _ => k' == k && fw' == fw
      | .record _ => false))
  | .record r => s.cmds.any (fun p => decide (p.1 < id) && p.2.port == 0 && p.2.unit == c.unit && (match p.2.issuer with
      | .ctx .. => false
      | .record r' => ((s.recs.find r').map (·.queue)) == ((s.recs.find r).map (·.queue))))

/-- Whether a command ahead in its ferry's queue has not started (R240). -/
def behindQueued (s : State) (c : Cmd) : Bool :=
  s.cmds.any (fun p => p.2.port == 0 && p.2.unit == c.unit && p.2.st == .queued && decide (p.2.qseq < c.qseq))

/-- Commands of a ferry that have a place among the eight: those that run, and those suspended (R240; log entry 102). -/
def placesTaken (s : State) (unit : Nat) : Nat :=
  (s.cmds.filter (fun p => p.2.port == 0 && p.2.unit == unit && (p.2.st == .running || p.2.isSuspended))).length

/-- Whether a queued command can start: in queue order, with a place among the eight, and with what it needs (R28, R55, R240, R258). -/
def canStart (s : State) (id : Nat) (c : Cmd) (i : Instr) : Bool :=
  c.st = .queued && !behindQueued s c && decide (placesTaken s c.unit < 8)
  && !(c.slices i).any (resizingSlice s)
  && (c.bits 13 11 != 3 || rowSpace s c (memberCore c (c.bits 133 128)))
  && (match i with
    | .ferry_msig _ _ => !msigWaits s id c
    | _ => true)

/-- Start the command in focus if it can start; it waits otherwise. -/
def startFerry (i : Instr) (s : State) : Out :=
  .next (match s.cmds.find s.focus.cmd with
  | some c =>
    if canStart s s.focus.cmd c i then
      runFerry i s.focus.cmd (s.updCmd s.focus.cmd (fun c => { c with st := .running, reserved := if c.bits 13 11 = 3 then 1 else 0 }))
    else s
  | none => s)

/-- `copy` (R246). -/
def execCopy (h : FHdr) (c : CopyF) (s : State) : Out := startFerry (.copy h c) s
/-- `copyp` (R248). -/
def execCopyp (h : FHdr) (c : CopypF) (s : State) : Out := startFerry (.copyp h c) s
/-- `pref` (R249). -/
def execPref (h : FHdr) (c : PrefF) (s : State) : Out := startFerry (.pref h c) s
/-- `gath` (R250). -/
def execFerryGath (h : FHdr) (c : FerryGathF) (s : State) : Out := startFerry (.ferry_gath h c) s
/-- `scat` (R250). -/
def execScat (h : FHdr) (c : ScatF) (s : State) : Out := startFerry (.scat h c) s
/-- `scadd` (R250). -/
def execScadd (h : FHdr) (c : ScaddF) (s : State) : Out := startFerry (.scadd h c) s
/-- `lred` (R251). -/
def execLred (h : FHdr) (c : LredF) (s : State) : Out := startFerry (.lred h c) s
/-- `ltopk` (R252). -/
def execLtopk (h : FHdr) (c : LtopkF) (s : State) : Out := startFerry (.ltopk h c) s
/-- `lcmp` (R253). -/
def execLcmp (h : FHdr) (c : LcmpF) (s : State) : Out := startFerry (.lcmp h c) s
/-- `fill` (R254). -/
def execFerryFill (h : FHdr) (c : FerryFillF) (s : State) : Out := startFerry (.ferry_fill h c) s
/-- `atom` (R255). -/
def execAtom (h : FHdr) (c : AtomF) (s : State) : Out := startFerry (.atom h c) s
/-- `barinit` (R256). -/
def execBarinit (h : FHdr) (c : BarinitF) (s : State) : Out := startFerry (.barinit h c) s
/-- `inval` (R257). -/
def execInval (h : FHdr) (c : InvalF) (s : State) : Out := startFerry (.inval h c) s
/-- `msig` (R258). -/
def execFerryMsig (h : FHdr) (c : FerryMsigF) (s : State) : Out := startFerry (.ferry_msig h c) s

/-- FERRY_CONTINUE (R28, R240, R264, R266): a started command that paused, for space, for rows or for a sector, goes on. -/
def execFerryContinue (cmd : Nat) (s : State) : Out :=
  .next (match s.cmds.find cmd with
  | some c => if c.st = .running ∧ c.port = 0 then (match c.instr with
      | some i => runFerry i cmd s
      | none => s) else s
  | none => s)

/-! ## Completion (R257, R263) -/

/-- Whether the rows a command sent have entered the FR port buffer. -/
def rowsArrived (s : State) (c : Cmd) : Bool :=
  c.bits 13 11 != 3 || c.sentMark == 0 ||
    (match crewOfCmd s c with
    | some (_, w) =>
      let k := memberCore c (c.bits 133 128)
      !w.members.contains k || w.stopped.isSome || decide (c.sentMark ≤ SMap.get 0 (s.core k).fr.arrived (c.bits 136 134))
    | none => true)

/-- Whether a command that stood before a marker has passed it and made its last covered access. -/
def passedBy (v : Cover) (e : Cmd) : Bool :=
  e.st == .moved || e.st == .held || (e.port != 0 && e.st == .buffered) || (e.port == 0 && e.st != .queued && !v.touches e)

/-- Whether everything that stood before markers has passed them: commands, and accesses suspended since before. -/
def allPassed (s : State) (v : Cover) (after susps : List Nat) : Bool :=
  after.all (fun a => match s.cmds.find a with
    | some e => passedBy v e
    | none => true) && susps.all (fun n => (s.susps.find n).isNone && !s.suspWait.any (fun w => waitName w.seq == n))

/-- What the markers of a command cover. -/
def markCover (c : Cmd) : Cover :=
  match c.instr with
  | some (.inval _ f) => coverOf f
  | some (.copyp _ f) => ⟨false, [f.pub.toNat, epId f.dst], 0, none⟩
  | _ => ⟨false, [], 0, none⟩

/-- Whether the markers of a command have been passed. -/
def markersPassed (s : State) (c : Cmd) : Bool := allPassed s (markCover c) c.after c.afterSusps

/-- The items of a binding ahead of its row `n`, and those behind the rows before it. -/
def splitItems : Nat → List OqItem → List OqItem × List OqItem
  | _, [] => ([], [])
  | 0, .row r :: l => ([], .row r :: l)
  | n + 1, .row r :: l => let (a, b) := splitItems n l; (.row r :: a, b)
  | n, .mark h t :: l => let (a, b) := splitItems n l; (.mark h t :: a, b)

/-- The markers left in a binding that completes: those behind rows of an earlier binding not yet written stay with that one; the others
count (R198). After a partial completion the markers behind rows that it did not write never count. -/
def endMarks (id : Nat) (c : Cmd) (s : State) : State :=
  match c.core with
  | some k =>
    if c.bits 10 8 ≠ 3 then s else
    let q := c.bits 72 70
    if lostAhead s k q id then (if (marksOf c.items).isEmpty then s else loseMarks k q id c.items s) else
    let n := if c.soft then c.rowsOut else c.bound.length
    let (out, rest) := splitItems n c.items
    let s1 := match unwrittenAhead s id c with
      | none => (fireMarks k n out s).2
      | some e => s.updCmd e (fun x => { x with items := x.items ++ marksOf out })
    if rest.any OqItem.isRow then loseMarks k q id rest s1 else s1
  | none => s

/-- FERRY_COMMAND_COMPLETE (R263): every write is visible at SCOPE; markers counted, entries covered dropped, and HEN and BEN
follow. -/
def execFerryCommandComplete (cmd : Nat) (s : State) : Out :=
  .next (match s.cmds.find cmd with
  | some c =>
    if c.st = .moved ∧ c.port = 0 ∧ rowsArrived s c ∧ markersPassed s c ∧ !(c.ben && resizingSlice s (barAt c.bar).1) then
      let s2 := endMarks cmd c (barWrote (writeBackCmd s c) c (128 * c.sent.length))
      let s3 := { s2 with tlb := if c.op = 0xEC ∨ c.op = 0xE1 then s2.tlb.filter (fun e => match e.upTo with
        | some q => decide (c.version < q)
        | none => true) else s2.tlb }
      let s4 := completeCmd ((if c.op = 0xEC then rehome (markCover c) else id) (s3.updCmd cmd (fun c => { c with items := [] }))) cmd
      match c.core with
      | some k => if c.bits 10 8 = 3 then settleQueue k (c.bits 72 70) s4 else s4
      | none => s4
    else s
  | none => s)

/-! ## Arrival of rows (R195, R350) -/

/-- The command that sent a row of an inbound queue, by the row's number. -/
def senderOf (s : State) (core q n : Nat) : Option (Nat × Cmd) :=
  s.cmds.find? (fun p => p.2.port == 0 && p.2.bits 13 11 == 3 && memberCore p.2 (p.2.bits 133 128) == core && p.2.bits 136 134 == q
    && p.2.sent.contains n)

/-- A row of a command has entered the FR port buffer: it is written (R350), so its bytes leave PENDING, and markers behind the row it
came from may count. -/
def rowWritten (id : Nat) (c : Cmd) (n : Nat) (s : State) : State :=
  let s1 := barWrote (s.updCmd id (fun c => { c with sent := c.sent.filter (· != n) })) c 128
  match c.core with
  | some k => if c.bits 10 8 = 3 then settleQueue k (c.bits 72 70) s1 else s1
  | none => s1

/-- ROW_ARRIVAL (R195): the oldest row under way to a queue enters the FR port buffer. -/
def execRowArrival (core q : Nat) (s : State) : Out :=
  let s1 := arriveRow core q s
  let n := SMap.get 0 (s1.core core).fr.arrived q
  .next (match senderOf s core q n with
  | some (id, c) => if (SMap.get [] (s.core core).fr.fly q).isEmpty then s else rowWritten id c n s1
  | none => s1)

end Sys2Proof.Machine
end

