-- ==== Sys2Proof/Machine/Limits.lean ====
section
/-!
DEFINITION. The limits on field values of sequencer words, entries and matrix commands: what the scanner rejects with RANGE
(spec 07 R95, R97, R111, 09 R125, R153, 11 R162 to R192, 13 R206 to R216, 15 R229). Limits of port commands and records stand
in `PortLimits.lean` and `RecordLimits.lean`.
-/
open Sys2Proof.Machine
namespace Sys2Proof

/-! ## Operand levels (R97, R162) -/

/-- What a DST of "any" admits, and what a row source admits: LL, OF or a lane. -/
def isRowOpnd : Opnd → Bool
  | .ll => true | .ofr _ => true | .lane _ => true | _ => false
/-- What an SA or SB of "any" admits. -/
def isSrc : Opnd → Bool
  | .none => false | _ => true
/-- A row source that may be left out: LL, OF, a lane or NONE. -/
def isRowOrNone (o : Opnd) : Bool := isRowOpnd o || o == .none
/-- LL or OF. -/
def isHeld : Opnd → Bool
  | .ll => true | .ofr _ => true | _ => false
/-- A lane. -/
def isLane : Opnd → Bool
  | .lane _ => true | _ => false
/-- An operand-file entry of index at most `n`. -/
def isOfTo (n : Nat) : Opnd → Bool
  | .ofr i => decide (i.toNat ≤ n) | _ => false

/-- Formats 0x0 to 0x8 (X of R174). -/
def tyX (t : Fmt) : Bool := decide (t.code ≤ 8)
/-- X and BF32. -/
def tyXB (t : Fmt) : Bool := tyX t || t == .bf32
/-- 0x0 to 0x4 (F). -/
def tyF (t : Fmt) : Bool := decide (t.code ≤ 4)
/-- 0x5 to 0x8 (I). -/
def tyI (t : Fmt) : Bool := fmtInt t
/-- 0x5 to 0x7 (S). -/
def tyS (t : Fmt) : Bool := decide (5 ≤ t.code ∧ t.code ≤ 7)
/-- X, BI16 and BF32 (P of R181). -/
def tyP (t : Fmt) : Bool := tyXB t || t == .bi16

/-- An entry that takes no TYPE writes it zero (R98). -/
def Ent.untyped (h : Ent) : Bool := h.ty == .f32
/-- No operand at all. -/
def Ent.bare (h : Ent) : Bool := h.dst == .none && h.sa == .none && h.sb == .none && h.untyped
/-- IMM stands in one source at most, and TYPE admits it (R97, R164); `free` frees SB of the second. -/
def Ent.immOk (h : Ent) (free : Bool) : Bool :=
  !(h.sa == .imm && h.sb == .imm) && (!(h.sa == .imm || (h.sb == .imm && !free)) || tyXB h.ty)
/-- DST, SA and SB any. -/
def Ent.any3 (h : Ent) (ty : Fmt → Bool) : Bool := ty h.ty && isRowOpnd h.dst && isSrc h.sa && isSrc h.sb && h.immOk false
/-- DST and SA any, SB NONE. -/
def Ent.any2 (h : Ent) (ty : Fmt → Bool) : Bool := ty h.ty && isRowOpnd h.dst && isSrc h.sa && h.sb == .none && h.immOk false
/-- DST any, SA any, SB any or NONE. -/
def Ent.any3n (h : Ent) (ty : Fmt → Bool) : Bool := ty h.ty && isRowOpnd h.dst && isSrc h.sa && h.immOk false
/-- A shift with an IMM count keeps MOD[15:8] zero (R174). -/
def Ent.countOk (h : Ent) : Bool := h.sb != .imm || decide (h.imm.toNat < 256)
/-- SF: FP32 only, SA LL, OF, lane or IMM (R180). -/
def Ent.sfOk (h : Ent) : Bool := h.ty == .f32 && isRowOpnd h.dst && (isRowOpnd h.sa || h.sa == .imm) && h.sb == .none
/-- A bank put, with DST its lane. -/
def Ent.putOk (h : Ent) : Bool := isLane h.dst && h.sa == .none && h.sb == .none && h.untyped
/-- A bank write, with SA its lane. -/
def Ent.wrOk (h : Ent) : Bool := h.dst == .none && isLane h.sa && h.sb == .none && h.untyped
/-- A bank entry with SA a lane or NONE. -/
def Ent.optOk (h : Ent) : Bool := h.dst == .none && (isLane h.sa || h.sa == .none) && h.sb == .none && h.untyped
/-- A length field in which 0 means 2,048 (R168). -/
def len2048 (v : BitVec 11) : Nat := if v = 0 then 2048 else v.toNat
/-- `mode`: ROUND 0 to 4, SEED 0 to 2, and SA where SEED is 2 alone (R111, R173). -/
def modeOk (sa : Opnd) (rowOk : Opnd → Bool) (rnd : BitVec 3) (seed : BitVec 2) : Bool :=
  decide (rnd.toNat ≤ 4) && seed != 3 && (if seed = 2 then rowOk sa else sa == .none)

/-- The limits of bank and station entries. A MOD field that the form does not use may hold anything (log entry 94). -/
def entryOk : Instr → Bool
  | .rd h _ => h.putOk
  | .rdx h base len _ _ => h.putOk && decide (base.toNat + len2048 len ≤ 2048)
  | .rdb h _ _ => isLane h.dst && isLane h.sa && h.sb == .none && h.untyped && h.dst != h.sa
  | .wr h _ _ => h.wrOk
  | .wrx h base len _ _ => h.wrOk && decide (base.toNat + len2048 len ≤ 2048)
  | .wrb h _ _ => h.wrOk
  | .bank_fill h row count => h.optOk && decide (row.toNat + len2048 count ≤ 2048)
  | .bank_mode h _ rnd _ seed => h.optOk && modeOk h.sa isLane rnd seed
  | .fmt h f _ load => h.optOk && (if load = 0 then h.sa == .none else f = 13 && h.sa != .none)
  | .bank_wait h w => h.bare && w != 0
  | .stn_nop h => h.bare
  | .stn_wait h w => h.bare && w != 0
  | .stn_mode h _ rnd _ seed => h.dst == .none && h.sb == .none && h.untyped && modeOk h.sa isRowOpnd rnd seed
  | .chk h => h.dst == .none && h.untyped && isRowOpnd h.sa && (isRowOpnd h.sb || h.sb == .none)
  | .vadd h => h.any3 tyXB
  | .vsub h => h.any3 tyXB
  | .vmul h => h.any3 tyXB
  | .vfma h _ => h.any3 tyF && isHeld h.dst
  | .vfms h _ => h.any3 tyF && isHeld h.dst
  | .vmin h => h.any3 tyXB
  | .vmax h => h.any3 tyXB
  | .vabs h => h.any2 tyX
  | .vneg h => h.any2 tyX
  | .vand h => h.any3 tyX
  | .vor h => h.any3 tyX
  | .vxor h => h.any3 tyX
  | .vnot h => h.any2 tyX
  | .vshl h => h.any3 tyI && h.countOk
  | .vshr h => h.any3 tyI && h.countOk
  | .vsar h => h.any3 tyS && h.countOk
  | .vrshr h => h.any3 tyS && h.countOk
  | .vaddsat h => h.any3 tyI
  | .vsubsat h => h.any3 tyI
  | .vclamp h _ => h.any3 tyX
  | .vcmp h rel => h.any3 tyX && decide (rel.toNat ≤ 5)
  | .vcmpb h rel margin => h.any3 (fun t => t == .f32 || t == .bf32) && decide (rel.toNat ≤ 5) && decide (margin.toNat < 0x7F)
  | .vsel h _ _ => h.any3 tyX
  | .vmov h => h.any2 (fun _ => true)
  | .vmac h q _ => h.any3 tyI && isHeld h.dst && decide (q.toNat < fmtElems h.ty / 32)
  | .vscale h => h.any3 (· == .bf32) && isRowOpnd h.sa
  | .vcvt h _ _ => h.any2 (fun t => decide (t.code ≤ 12))
  | .vpack h => [Fmt.bf16, .f16, .e4m3, .e5m2, .i16, .i8, .ui8].contains h.ty && isRowOpnd h.dst && isRowOpnd h.sa && isRowOpnd h.sb
  | .vunpack h _ => [Fmt.f32, .bf16, .f16, .i32, .i16].contains h.ty && isRowOpnd h.dst && isRowOpnd h.sa && h.sb == .none
  | .viota h => tyX h.ty && isRowOpnd h.dst && (h.sa == .imm || h.sa == .none) && h.sb == .none
  | .vaccept h => h.any2 (fun t => t == .i16 || t == .f32) && isRowOpnd h.sa
  | .rcp h => h.sfOk
  | .rsq h => h.sfOk
  | .sqrt h => h.sfOk
  | .ex2 h => h.sfOk
  | .lg2 h => h.sfOk
  | .sin h => h.sfOk
  | .cos h => h.sfOk
  | .xpose h lr h2 => h.any3n tyXB && decide (2 ^ lr.toNat ≤ fmtElems h.ty * (if h.sb == .none then 1 else 2)) && (h2 = 0 || h.sb != .none)
  | .perm h => tyP h.ty && isRowOpnd h.dst && isSrc h.sa && isSrc h.sb && h.immOk true && h.countOk
  | .shuf h pat => h.any3n tyP && decide (pat.toNat ≤ 4) && (pat != 4 || h.sb == .none)
  | .bcast h k => h.any2 tyP && decide (k.toNat < fmtElems h.ty)
  | .gath h t len => h.any2 tyXB && isRowOpnd h.sa && decide (t.toNat + len.toNat + 1 ≤ 16)
  | .slide h k => h.any3n tyP && decide (k.toNat ≤ fmtElems h.ty)
  | .rope h _ => h.any3 (fun t => t == .f32 || t == .bf16)
  | .spc24 h _ => h.any2 (fun t => [Fmt.i8, .ui8, .e4m3, .e5m2, .bf16, .f16].contains t)
  | .spc48 h _ => h.any2 (fun t => [Fmt.i8, .ui8, .e4m3, .e5m2, .bf16, .f16].contains t)
  | .rsum h _ _ => h.any2 (fun t => t == .f32 || t == .bf16 || t == .i32)
  | .rmax h _ => h.any2 tyXB
  | .rmin h _ => h.any2 tyXB
  | .scan h _ => h.any3n (fun t => t == .f32 || t == .bf16 || t == .i32)
  | .topk h k start => h.any3n (fun t => t == .f32 || t == .bf32) && isRowOrNone h.sb && k != 0 && (start = 1 || h.sb != .none)
  | .argmax h => h.any2 tyX
  | .cmpct h _ => h.any3 tyP && isRowOpnd h.sb
  | .osm h _ start => h.any3n (fun t => t == .f32 || t == .bf16) && isRowOrNone h.sb && (start = 1 || h.sb != .none)
  | .osf h => h.any3 (fun t => t == .f32 || t == .bf16) && isRowOpnd h.sb
  | .vflag h _ count _ => h.ty == .ui8 && h.dst == .none && isRowOpnd h.sa && h.sb == .none && decide (count.toNat < 128)
  | .xmv h _ _ => h.ty == .bi16 && (h.dst == .ll || isLane h.dst || isOfTo 8 h.dst) && isOfTo 12 h.sa && h.sb == .none
  | .xref h _ _ => h.ty == .i32 && isRowOpnd h.dst && h.sa == .none && h.sb == .none
  | .xprog_deposit h _ _ q => h.ty == .i8 && h.dst == .none && isRowOpnd h.sa && h.sb == .none && decide (q.toNat ≤ 3)
  | .xprog_fire h _ _ => h.bare
  | .xrdw h _ _ q => h.ty == .i8 && isRowOpnd h.dst && h.sa == .none && h.sb == .none && decide (q.toNat ≤ 4)
  | .xbound h _ _ => h.ty == .f32 && isRowOpnd h.dst && isOfTo 12 h.sa && h.sb == .none
  | .xstat h _ sel ix =>
    isRowOpnd h.dst && h.sa == .none && h.sb == .none &&
    (match sel.toNat with
      | 0 => h.ty == .i32 && ix == 0
      | 1 => h.ty == .f32 && decide (ix.toNat ≤ 16)
      | 2 => h.ty == .i16 && decide (ix.toNat ≤ 8)
      | 3 => h.ty == .i16 && decide (ix.toNat ≤ 8)
      | 4 => h.ty == .i32 && ix == 0
      | _ => false)
  | .mld h _ _ => h.untyped && h.dst == .none && isRowOpnd h.sa && h.sb == .none
  | .mfd h => h.untyped && h.dst == .none && isRowOpnd h.sa && h.sb == .none
  | .mdr h _ q _ => tyX h.ty && isRowOpnd h.dst && h.sa == .none && h.sb == .none && decide (32 * q.toNat + fmtElems h.ty ≤ 128)
  | .msv h _ _ _ _ _ => h.untyped && isRowOpnd h.dst && h.sa == .none && h.sb == .none
  | .mrs h _ _ _ _ _ => h.untyped && h.dst == .none && isRowOpnd h.sa && h.sb == .none
  | .fsnd h _ => h.untyped && h.dst == .none && isRowOpnd h.sa && h.sb == .none
  | .frcv h _ => h.untyped && isRowOpnd h.dst && h.sa == .none && h.sb == .none
  | .fexp h _ _ _ => h.bare
  | .fqd h _ _ => h.bare
  | _ => true

/-- The common fields of a bank or station entry. -/
def entOf : Instr → Option Ent
  | .rd h _ => some h
  | .rdx h _ _ _ _ => some h
  | .rdb h _ _ => some h
  | .wr h _ _ => some h
  | .wrx h _ _ _ _ => some h
  | .wrb h _ _ => some h
  | .bank_fill h _ _ => some h
  | .bank_mode h _ _ _ _ => some h
  | .fmt h _ _ _ => some h
  | .bank_wait h _ => some h
  | .stn_nop h => some h
  | .stn_wait h _ => some h
  | .stn_mode h _ _ _ _ => some h
  | .chk h => some h
  | .vadd h => some h
  | .vsub h => some h
  | .vmul h => some h
  | .vfma h _ => some h
  | .vfms h _ => some h
  | .vmin h => some h
  | .vmax h => some h
  | .vabs h => some h
  | .vneg h => some h
  | .vand h => some h
  | .vor h => some h
  | .vxor h => some h
  | .vnot h => some h
  | .vshl h => some h
  | .vshr h => some h
  | .vsar h => some h
  | .vrshr h => some h
  | .vaddsat h => some h
  | .vsubsat h => some h
  | .vclamp h _ => some h
  | .vcmp h _ => some h
  | .vcmpb h _ _ => some h
  | .vsel h _ _ => some h
  | .vmov h => some h
  | .vmac h _ _ => some h
  | .vscale h => some h
  | .vcvt h _ _ => some h
  | .vpack h => some h
  | .vunpack h _ => some h
  | .viota h => some h
  | .vaccept h => some h
  | .rcp h => some h
  | .rsq h => some h
  | .sqrt h => some h
  | .ex2 h => some h
  | .lg2 h => some h
  | .sin h => some h
  | .cos h => some h
  | .xpose h _ _ => some h
  | .perm h => some h
  | .shuf h _ => some h
  | .bcast h _ => some h
  | .gath h _ _ => some h
  | .slide h _ => some h
  | .rope h _ => some h
  | .spc24 h _ => some h
  | .spc48 h _ => some h
  | .rsum h _ _ => some h
  | .rmax h _ => some h
  | .rmin h _ => some h
  | .scan h _ => some h
  | .topk h _ _ => some h
  | .argmax h => some h
  | .cmpct h _ => some h
  | .osm h _ _ => some h
  | .osf h => some h
  | .vflag h _ _ _ => some h
  | .xmv h _ _ => some h
  | .xref h _ _ => some h
  | .xprog_deposit h _ _ _ => some h
  | .xprog_fire h _ _ => some h
  | .xrdw h _ _ _ => some h
  | .xbound h _ _ => some h
  | .xstat h _ _ _ => some h
  | .mld h _ _ => some h
  | .mfd h => some h
  | .mdr h _ _ _ => some h
  | .msv h _ _ _ _ _ => some h
  | .mrs h _ _ _ _ _ => some h
  | .fsnd h _ => some h
  | .frcv h _ => some h
  | .fexp h _ _ _ => some h
  | .fqd h _ _ => some h
  | _ => none

/-- The lower half of MOD holds an immediate only where a source is IMM (R96, R97). -/
def immPlaced (i : Instr) : Bool :=
  match entOf i with
  | some h => h.imm == 0 || h.sa == .imm || h.sb == .imm
  | none => true

/-! ## Matrix commands (R99, R206, R207, R212 to R216) -/

/-- The fields of the header that a disabled wait or signal leaves zero. -/
def MxHdr.ok (h : MxHdr) : Bool :=
  (h.wen = 1 || (h.wsem = 0 && h.wop = 0 && h.wval = 0)) && (if h.sen = 1 then h.sinc != 0 else h.ssem = 0 && h.sinc = 0)
/-- Elements per row E of a multiply TYPE; `none` for a TYPE that is not one (R206). -/
def mulElems (ty : Nat) : Option Nat := if [1, 2, 3, 4, 7, 8, 9, 10, 11, 12, 13].contains ty then some (fmtElems (Fmt.ofCode ty)) else none
/-- Group size G and metadata bits w of a sparse command (R207). -/
def sparseG (sp : BitVec 1) : Nat × Nat := if sp = 1 then (8, 12) else (4, 4)
/-- Rows or columns, where 0 encodes 128. -/
def dim128 (v : BitVec 7) : Nat := if v = 0 then 128 else v.toNat
/-- K from 1 to E. -/
def denseOk (k : BitVec 9) (ty : BitVec 4) : Bool :=
  match mulElems ty.toNat with
  | some e => decide (1 ≤ k.toNat ∧ k.toNat ≤ e)
  | none => false
/-- The limits of a sparse command. -/
def sparseOk (acc : BitVec 2) (n : BitVec 7) (k : BitVec 9) (ty : BitVec 4) (sp pc : BitVec 1) : Bool :=
  let (g, w) := sparseG sp
  denseOk k ty && [1, 2, 3, 4, 7, 8].contains ty.toNat && decide (k.toNat % g = 0) &&
  (if pc = 1 then decide (dim128 n * (k.toNat / g) * w ≤ 1024) else acc.toNat % 2 == 0)

/-- The limits of matrix commands. -/
def matrixOk : Instr → Bool
  | .mmul h _ _ _ _ k ty => h.ok && denseOk k ty
  | .mmac h _ _ _ _ k ty => h.ok && denseOk k ty
  | .mmuls h acc _ _ n k ty sp pc _ => h.ok && sparseOk acc n k ty sp pc
  | .mmacs h acc _ _ n k ty sp pc _ => h.ok && sparseOk acc n k ty sp pc
  | .mclr h _ _ => h.ok
  | .mclaim h mask => h.ok && mask != 0
  | .mrel h mask => h.ok && mask != 0
  | .mscl h _ row0 _ w => h.ok && decide (row0.toNat + (if w = 1 then 16 else 32) ≤ 128)
  | .mtr h _ _ => h.ok
  | .mfence h => h.ok
  | .mx_msig h tgt => h.ok && h.sen = 1 && decide (tgt.toNat ≤ 39)
  | .mnop h => h.ok
  | _ => true

/-! ## Sequencer words (R92, R95, R125, R153) -/

/-- Whether a control register index is assigned (R153, R154, R372). Device registers are all accepted; one that no unit has
reads zero and ignores writes. -/
def regIndexOk (i : Nat) : Bool :=
  decide (i ≤ 5) || i == 0x10 || i == 0x11 || i == 0x12 || i == 0x14 || decide (0x20 ≤ i ∧ i ≤ 0x23) || decide (0x28 ≤ i ∧ i ≤ 0x2F) || decide (0x800 ≤ i ∧ i ≤ 0xFFF)

/-- The value of an immediate with its extension. -/
def immInt {w : Nat} (imm : BitVec w) (x : Option (BitVec 29)) : Int :=
  match x with
  | none => imm.toInt
  | some v => (v ++ imm).toInt

/-- The limits of sequencer words. LOFF of `disarm`, which no target uses, is zero with its extension. -/
def seqOk : Instr → Bool
  | .disarm _ _ x => x.getD 0 == 0
  | .cmp _ _ cc _ _ => decide (cc.toNat ≤ 5)
  | .cmpi _ _ cc _ _ _ => decide (cc.toNat ≤ 5)
  | .br _ _ _ _ word _ => word != 0
  | .bf _ test _ _ word _ => word != 0 && test != 3
  | .jmp _ _ word _ => word != 0
  | .call _ _ word _ => word != 0
  | .loop _ a _ word _ => word != 0 && a != 0
  | .trap _ imm x => decide (0 ≤ immInt imm x ∧ immInt imm x ≤ 255)
  | .fwshare _ imm x => decide (0 ≤ immInt imm x ∧ immInt imm x ≤ 63)
  | .setof _ _ _ _ ty => decide (ty.toNat ≤ 8)
  | .cport _ _ port _ => decide (port.toNat ≤ 2)
  | .go _ _ port => decide (port.toNat ≤ 2)
  | .hsig _ _ _ imm => imm != 0
  | .getc _ _ index => regIndexOk index.toNat
  | .setc _ _ index => regIndexOk index.toNat
  | .fence _ scope => decide (scope.toNat ≤ 4)
  | _ => true

end Sys2Proof
end

