-- ==== Sys2Proof/Machine/Matrix.lean ====
section
/-!
DEFINITION. The matrix engine (spec 13 R199 to R218): `mxq`, the commands at their START, the rows of a multiply, and the
landing of updates and completions. The scheduler gives the engine its part of each crew cycle.
-/
namespace Sys2Proof.Machine

/-- Change the matrix engine of the core in focus. -/
def State.updMx (s : State) (f : Mx → Mx) : State := s.updF (fun k => { k with mx := f k.mx })
/-- A slot. -/
def Mx.slot (m : Mx) (n : Nat) : Slot := SMap.get {} m.slots n
/-- A row of a slot; zero rows where nothing was written (R200). -/
def Slot.row (t : Slot) (r : Nat) : Row := SMap.get (Row.zero .f32) t.rows r
/-- An accumulator. -/
def Mx.acc (m : Mx) (n : Nat) : Acc := SMap.get {} m.accs n
/-- An element of an accumulator. -/
def Acc.elem (a : Acc) (row col : Nat) : BitVec 32 := SMap.get 0 a.elems (128 * row + col)

/-! ## `mxq` (R99, R100, R142, R203, R204) -/

/-- What a command names of the allotment: accumulators, slots and semaphores. -/
structure MxUses where
  accs : List Nat := []
  slots : List Nat := []
  hsems : List Nat := []

/-- The semaphores of an enabled wait and signal. -/
def MxUses.sems (h : MxHdr) : List Nat :=
  (if h.wen = 1 then [h.wsem.toNat] else []) ++ (if h.sen = 1 then [h.ssem.toNat] else [])

/-- The bits set in a mask. -/
def bitsSet (w : Nat) (m : BitVec w) : List Nat := (List.range w).filter (fun n => m.getLsbD n)

/-- The accumulators of a sparse command. -/
def sparseAccs (acc : BitVec 2) (pc : BitVec 1) : List Nat := if pc = 1 then [acc.toNat] else [acc.toNat, acc.toNat + 1]

/-- What a matrix command names. -/
def mxUses : Instr → MxUses
  | .mmul h acc slot _ _ _ _ => ⟨[acc.toNat], [slot.toNat], MxUses.sems h⟩
  | .mmac h acc slot _ _ _ _ => ⟨[acc.toNat], [slot.toNat], MxUses.sems h⟩
  | .mmuls h acc slot _ _ _ _ _ pc _ => ⟨sparseAccs acc pc, [slot.toNat], MxUses.sems h⟩
  | .mmacs h acc slot _ _ _ _ _ pc _ => ⟨sparseAccs acc pc, [slot.toNat], MxUses.sems h⟩
  | .mclr h acc _ => ⟨[acc.toNat], [], MxUses.sems h⟩
  | .mclaim h mask => ⟨[], bitsSet 32 mask, MxUses.sems h⟩
  | .mrel h mask => ⟨[], bitsSet 32 mask, MxUses.sems h⟩
  | .mscl h slot _ _ _ => ⟨[], [slot.toNat], MxUses.sems h⟩
  | .mtr h dst src => ⟨[], [dst.toNat, src.toNat], MxUses.sems h⟩
  | .mfence h => ⟨[], [], MxUses.sems h⟩
  | .mx_msig h _ => ⟨[], [], MxUses.sems h⟩
  | .mnop h => ⟨[], [], MxUses.sems h⟩
  | _ => {}

/-- The first thing named outside the allotment (R203). -/
def mxOutside (u : MxUses) (s : State) : Option Nat :=
  match u.accs.find? (fun n => !hasAcc n s), u.slots.find? (fun n => !hasSlot n s), u.hsems.find? (fun n => !hasHsem n s) with
  | some n, _, _ => some n
  | none, some n, _ => some n
  | none, none, some n => some n
  | none, none, none => none

/-- The 48-bit start cycle of a command pushed at crew cycle `p` (R204). -/
def mxStart (p start : Nat) : Nat :=
  let v := p / 2 ^ 40 * 2 ^ 40 + start % 2 ^ 40
  if v + 2 ^ 39 < p then v + 2 ^ 40 else v

/-- A fault of a matrix command at its `mxq`: the record names the command. -/
def mxqRaise (f : HwFault) (unit : Nat) (lo hi : Word) (s : State) : State :=
  raiseWith f (coreArg0 9 0 unit) lo hi (coreArg3 s.focus.org) s

/-- `mxq` (R142, R203): a command that passes the checks enters the queue. -/
def execMxq (e : Bool) (a b : Reg) (s : State) : Out :=
  let lo := s.g a
  let hi := s.g b
  let bad := fun sub => seqDone e false (raiseWith (cmdBad sub) lo hi 0 (coreArg3 s.focus.org) s)
  .next (match decodeMatrix (hi ++ lo) with
  | .error c => bad (if c = .reservedField then 1 else 0)
  | .ok i =>
    if !matrixOk i then bad 1
    else if s.frozen s.focus.core then seqDone e false (mxqRaise (mxFault 5) 0 lo hi s)
    else match mxOutside (mxUses i) s with
      | some n => seqDone e false (mxqRaise allotUse n lo hi s)
      | none =>
        if s.fcore.mx.queue.length ≥ 16 then seqDone e false (mxqRaise (mxFault 4) 0 lo hi s)
        else
          let c : MxCmd := ⟨hi ++ lo, mxStart s.now0 (lo.toNat / 2 ^ 8), { s.focus.org with engine := 9, w0 := lo, w1 := hi }, s.now0⟩
          seqDone e false (s.updMx (fun m => { m with queue := m.queue ++ [c] })))

/-! ## A command at its START (R204, R217) -/

/-- The wait of a command: a false condition holds the crew with cause SEM; it is evaluated once it is true no more. -/
def mxAwait (h : MxHdr) (f : State → State) (s : State) : State :=
  if h.wen = 1 && !hsemHolds h.wop.toNat (s.fcore.h h.wsem.toNat).toNat h.wval.toNat then askHold 2 s else f s

/-- A command becomes active and leaves the queue; the next one reaches the head after `d` crew cycles. -/
def mxBegin (d : Nat) (s : State) : State := s.updMx (fun m => { m with queue := m.queue.tail, headAt := s.now0 + d })

/-- The command completes at the end of a crew cycle, and its signal counts in the next (R204). -/
def mxComplete (h : MxHdr) (at0 : Nat) (s : State) : State := s.later at0 (.mxDone (h.sen = 1) h.ssem.toNat h.sinc.toNat)

/-- A fault of a command at START: it has no effect. -/
def mxRaise (f : HwFault) (unit : Nat) (s : State) : State := raise f 0 unit s

/-- Whether an effect is an update of the matrix engine not yet landed (R199). -/
def Eff.isMxUpdate : Eff → Bool
  | .accUpd .. => true
  | .accClear .. => true
  | .slotRows .. => true
  | .scales .. => true
  | _ => false

/-- The type that an update gives an accumulator. -/
def Eff.accType (acc : Nat) : Eff → Option Bool
  | .accUpd a _ t _ _ _ _ => if a = acc then some t else none
  | .accClear a t => if a = acc then some t else none
  | _ => none

/-- The type an accumulator holds once every update of earlier commands has landed (R208). -/
def Core.accTypeDue (k : Core) (acc : Nat) : Bool := ((k.pend.filterMap (fun p => p.eff.accType acc)).getLast?).getD (k.mx.acc acc).isInt

/-! ## Multiplies (R206 to R211) -/

/-- A zero row (R200). -/
def Row.isZeroRow (r : Row) : Bool := r == Row.zero .f32

/-- The tags that the format group of a TYPE admits (R206). -/
def mulTags (ty : Fmt) : List Fmt :=
  match ty with
  | .bf16 => [.bf16, .f16] | .f16 => [.bf16, .f16]
  | .e4m3 => [.e4m3, .e5m2] | .e5m2 => [.e4m3, .e5m2]
  | .i8 => [.i8, .ui8] | .ui8 => [.i8, .ui8]
  | .mxf8e4 => [.mxf8e4, .mxf8e5] | .mxf8e5 => [.mxf8e4, .mxf8e5]
  | .mxf4 => [.mxf4, .cb4] | .cb4 => [.mxf4, .cb4]
  | .mxi8 => [.mxi8]
  | _ => []

/-- Whether the accumulator type of a TYPE is INT32. -/
def mulInt (ty : Fmt) : Bool := ty == .i8 || ty == .ui8

/-- The index fields of group `g` at a bit offset of the metadata (R209). -/
def groupIdx (metaBits off g : Nat) : List Nat :=
  let w := if g = 8 then 3 else 2
  (List.range (g / 2)).map (fun j => metaBits / 2 ^ (off + w * j) % 2 ^ w)

/-- Whether indices rise strictly (R210). -/
def strictlyRising : List Nat → Bool
  | a :: b :: r => decide (a < b) && strictlyRising (b :: r)
  | _ => true

/-- The bit offset of group `i` of column `n` (R209). -/
def groupOff (m : MxActive) (g w : Nat) (perCol : Bool) (n i : Nat) : Nat := if perCol then (n * (m.k / g) + i) * w else i * w

/-- The positions of K that the B operand of column `n` of an output half holds, with the element of the slot row that stands
there (R208, R209). -/
def bTerms (m : MxActive) (n half : Nat) : List (Nat × Nat) :=
  match m.sparse with
  | none => (List.range m.k).map (fun k => (k, k))
  | some (g, w, perCol) =>
    ((List.range (m.k / g)).map (fun i =>
      (groupIdx m.metaBits (groupOff m g w perCol n i) g).zipIdx.map (fun x =>
        (i * g + x.1, half * (fmtElems m.ty / 2) + i * g / 2 + x.2)))).flatten

/-- The exact sums of the groups of 32 of K (R78); an integer product chain is one group. -/
def groupSums (m : MxActive) (terms : List (Nat × Val)) : List Val :=
  if mulInt m.ty then [Val.sum (Val.zero :: terms.map (·.2))]
  else (List.range ((m.k + 31) / 32)).map (fun g => Val.sum ((terms.filter (fun t => t.1 / 32 == g)).map (·.2)))

/-- The columns of one output: the group sums of an A row with each B row. -/
def outCols (m : MxActive) (acbs : List (BitVec 256)) (a : Row) (half : Nat) : List (Nat × List Val) :=
  (m.b.zipIdx).map (fun x => (x.2, groupSums m ((bTerms m x.2 half).map (fun t =>
    (t.1, Val.mul (a.val acbs t.1) (x.1.val m.cbs t.2))))))

/-- Process the next row of the active multiply in the current crew cycle (R205, R208). -/
def mxRow (m : MxActive) (s : State) : State :=
  let s0 := { s with focus := { s.focus with org := m.org } }
  let t := s0.now0
  match s0.fcore.mx.aRow with
  | some (at0, a) =>
    if at0 ≠ t then mxRaise (timing 3) 0 s0
    else if !(mulTags m.ty).contains a.tag then mxRaise (mxFault 0) 0 s0
    else
      let poison := a.poison || cbTaint s0.cbPois a || m.taint
      let upd := fun (acc half : Nat) (s : State) => s.later (t + 16)
        (.accUpd acc m.next (mulInt m.ty) m.keep (m.b.length == 128) (outCols m s.cbs a half) poison)
      let s1 := upd m.acc 0 s0
      let s2 := match m.sparse with
        | some (_, _, false) => upd (m.acc + 1) 1 s1
        | _ => s1
      s2.updMx (fun x => { x with active := if m.next + 1 < m.rows then some { m with next := m.next + 1 } else none })
  | none => mxRaise (timing 3) 0 s0

/-- A multiply at its START: the checks of R217 in their order, the operands read, and row 0 processed. -/
def mxMultiply (keep : Bool) (h : MxHdr) (acc : BitVec 2) (slot : BitVec 5) (m n : BitVec 7) (k : BitVec 9) (ty : BitVec 4)
    (sparse : Option (Nat × Nat × Bool)) (mof : Nat) (s : State) : State :=
  let f := Fmt.ofCode ty.toNat
  let x := s.fcore.mx
  let sl := x.slot slot.toNat
  let b := (List.range (dim128 n)).map sl.row
  let md := (s.fcore.stn 8).of0 mof
  let act : MxActive := { org := s.focus.org, keep := keep, acc := acc.toNat, k := k.toNat, ty := f, sparse := sparse, b := b,
                          cbs := s.cbs, metaBits := md.data.toNat,
                          taint := b.any (fun r => r.poison || cbTaint s.cbPois r) || (sparse.isSome && md.poison),
                          next := 0, rows := dim128 m }
  let outs := match sparse with
    | some (_, _, false) => [acc.toNat, acc.toNat + 1]
    | _ => [acc.toNat]
  let badMeta := match sparse with
    | some (g, w, perCol) => (List.range (if perCol then b.length else 1)).any (fun c =>
        (List.range (k.toNat / g)).any (fun i => !strictlyRising (groupIdx act.metaBits (groupOff act g w perCol c i) g)))
    | none => false
  if !sl.claimed then mxRaise (timing 3) slot.toNat s
  else if b.any (fun r => !r.isZeroRow && !(mulTags f).contains r.tag) then mxRaise (mxFault 0) slot.toNat s
  else if sparse.isSome && md.tag != .ui8 then mxRaise (mxFault 0) slot.toNat s
  else if badMeta then mxRaise (mxFault 1) slot.toNat s
  else if keep && outs.any (fun a => s.fcore.accTypeDue a != mulInt f) then mxRaise (mxFault 2) acc.toNat s
  else mxRow act (mxComplete h (s.now0 + dim128 m + 15) (mxBegin (dim128 m) s))

/-- The sparse fields of a command (R207). -/
def sparseOf (sp pc : BitVec 1) : Option (Nat × Nat × Bool) := some ((sparseG sp).1, (sparseG sp).2, pc = 1)

/-- `mmul` (R207, R208). -/
def execMmul (h : MxHdr) (acc : BitVec 2) (slot : BitVec 5) (m n : BitVec 7) (k : BitVec 9) (ty : BitVec 4) (s : State) : Out :=
  .next (mxAwait h (mxMultiply false h acc slot m n k ty none 0) s)
/-- `mmac` (R207, R208). -/
def execMmac (h : MxHdr) (acc : BitVec 2) (slot : BitVec 5) (m n : BitVec 7) (k : BitVec 9) (ty : BitVec 4) (s : State) : Out :=
  .next (mxAwait h (mxMultiply true h acc slot m n k ty none 0) s)
/-- `mmuls` (R207, R209). -/
def execMmuls (h : MxHdr) (acc : BitVec 2) (slot : BitVec 5) (m n : BitVec 7) (k : BitVec 9) (ty : BitVec 4) (sp pc : BitVec 1)
    (mof : BitVec 4) (s : State) : Out :=
  .next (mxAwait h (mxMultiply false h acc slot m n k ty (sparseOf sp pc) mof.toNat) s)
/-- `mmacs` (R207, R209). -/
def execMmacs (h : MxHdr) (acc : BitVec 2) (slot : BitVec 5) (m n : BitVec 7) (k : BitVec 9) (ty : BitVec 4) (sp pc : BitVec 1)
    (mof : BitVec 4) (s : State) : Out :=
  .next (mxAwait h (mxMultiply true h acc slot m n k ty (sparseOf sp pc) mof.toNat) s)

/-! ## The other commands (R212 to R216) -/

/-- `mclr` (R212). -/
def execMclr (h : MxHdr) (acc : BitVec 2) (ty : BitVec 1) (s : State) : Out :=
  .next (mxAwait h (fun s => (mxComplete h (s.now0 + 16) (mxBegin 1 s)).later (s.now0 + 16) (.accClear acc.toNat (ty = 1))) s)

/-- Claim or free the slots of a mask; MX CLAIM where one already stands so (R213). -/
def mxClaim (claim : Bool) (h : MxHdr) (mask : BitVec 32) (s : State) : State :=
  match (bitsSet 32 mask).find? (fun n => (s.fcore.mx.slot n).claimed == claim) with
  | some n => mxRaise (mxFault 3) n s
  | none => mxComplete h s.now0 ((mxBegin 1 s).updMx (fun m =>
      { m with slots := (bitsSet 32 mask).foldl (fun t n => t.put n ⟨claim, []⟩) m.slots }))

/-- `mclaim` (R213). -/
def execMclaim (h : MxHdr) (mask : BitVec 32) (s : State) : Out := .next (mxAwait h (mxClaim true h mask) s)
/-- `mrel` (R213). -/
def execMrel (h : MxHdr) (mask : BitVec 32) (s : State) : Out := .next (mxAwait h (mxClaim false h mask) s)

/-- `mscl` (R215). -/
def execMscl (h : MxHdr) (slot : BitVec 5) (row0 : BitVec 7) (mof : BitVec 4) (w : BitVec 1) (s : State) : Out :=
  .next (mxAwait h (fun s =>
    let sl := s.fcore.mx.slot slot.toNat
    let e := (s.fcore.stn 8).of0 mof.toNat
    let nb := if w = 1 then 8 else 4
    let tags : List Fmt := if w = 1 then [.mxf4] else [.mxf8e4, .mxf8e5, .mxi8]
    if !sl.claimed then mxRaise (mxFault 3) slot.toNat s
    else if e.tag != .ui8 || (List.range (128 / nb)).any (fun r => !tags.contains (sl.row (row0.toNat + r)).tag) then
      mxRaise (mxFault 0) slot.toNat s
    else (mxComplete h (s.now0 + 16) (mxBegin 1 s)).later (s.now0 + 16) (.scales slot.toNat row0.toNat nb e)) s)

/-- The transposed rows of a slot (R214). -/
def mtrRows (src : Slot) : List Row :=
  let rows := (List.range 128).map src.row
  match rows.find? (fun r => !r.isZeroRow) with
  | none => List.replicate 128 (Row.zero .f32)
  | some t =>
    let p := rows.any (·.poison)
    (List.range 128).map (fun j => ⟨ofFields 8 (rows.map (fun r => r.byte j)), t.tag, p, 0⟩)

/-- `mtr` (R214). -/
def execMtr (h : MxHdr) (dst src : BitVec 5) (s : State) : Out :=
  .next (mxAwait h (fun s =>
    let x := s.fcore.mx
    let rows := ((List.range 128).map (x.slot src.toNat).row).filter (fun r => !r.isZeroRow)
    let tag := (rows.headD (Row.zero .i8)).tag
    if !(x.slot src.toNat).claimed then mxRaise (timing 3) src.toNat s
    else if !(x.slot dst.toNat).claimed then mxRaise (mxFault 3) dst.toNat s
    else if rows.any (fun r => r.tag != tag || !([Fmt.e4m3, .e5m2, .i8, .ui8].contains r.tag)) then mxRaise (mxFault 0) src.toNat s
    else (mxComplete h (s.now0 + 16) (mxBegin 1 s)).later (s.now0 + 16) (.slotRows dst.toNat (mtrRows (x.slot src.toNat)))) s)

/-- `mfence`: completes with the last update of earlier commands (R216). -/
def execMfence (h : MxHdr) (s : State) : Out :=
  .next (mxAwait h (fun s =>
    let last := ((s.fcore.pend.filter (fun p => p.eff.isMxUpdate)).map (·.due)).foldl max s.now0
    mxComplete h last (mxBegin (last + 1 - s.now0) s)) s)

/-- `msig`: h[SSEM] of a member gains SINC at START + 2, or + 10 at another member (R216). -/
def execMxMsig (h : MxHdr) (tgt : BitVec 6) (s : State) : Out :=
  .next (mxAwait h (fun s =>
    let c := s.focus.core
    let t := c / 40 * 40 + tgt.toNat
    if tgt.toNat ≥ 40 || !(match s.crewOf c with | some w => w.members.contains t | none => false) then mxRaise (mxFault 6) 0 s
    else hsemChange (mxBegin 1 s) t ⟨s.now0 + (if t = c then 2 else 10), h.ssem.toNat, h.sinc.toNat, none⟩) s)

/-- `mnop` (R216). -/
def execMnop (h : MxHdr) (s : State) : Out := .next (mxAwait h (fun s => mxComplete h s.now0 (mxBegin 1 s)) s)

/-! ## Landings (R202, R204, R205) -/

/-- One element after an update: the group sums are added to it in order, each rounded RNE to FP32; integers wrap (R78). -/
def accElem (isInt : Bool) (old : BitVec 32) (sums : List Val) : BitVec 32 :=
  if isInt then .ofInt 32 (old.toInt + (Val.sum (Val.zero :: sums)).toInt)
  else .ofNat 32 (sums.foldl (fun c t => f32rne (Val.add .rne (fp32.decode c) t)) old.toNat)

/-- An accumulator after an update of a row (R205, R208, R211). -/
def Acc.update (a : Acc) (row : Nat) (isInt keep whole : Bool) (cols : List (Nat × List Val)) (poison : Bool) : Acc :=
  { a with
    isInt := isInt
    elems := cols.foldl (fun e c => SMap.set 0 e (128 * row + c.1) (accElem isInt (if keep then a.elem row c.1 else 0) c.2)) a.elems
    poison := SMap.set false a.poison row (if whole && !keep then poison else SMap.get false a.poison row || poison) }

/-- Change an accumulator. -/
def Mx.updAcc (m : Mx) (n : Nat) (f : Acc → Acc) : Mx := { m with accs := m.accs.upd {} n f }
/-- Change a slot. -/
def Mx.updSlot (m : Mx) (n : Nat) (f : Slot → Slot) : Mx := { m with slots := m.slots.upd {} n f }

/-- Land one update of the matrix engine. -/
def Mx.landUpdate (m : Mx) : Eff → Mx
  | .accUpd acc row isInt keep whole cols poison => m.updAcc acc (fun a => a.update row isInt keep whole cols poison)
  | .accClear acc isInt => m.updAcc acc (fun _ => ⟨isInt, [], []⟩)
  | .slotRows slot rows => m.updSlot slot (fun t => { t with rows := rows.zipIdx.map (fun x => (x.2, x.1)) })
  | .scales slot row0 nb src => m.updSlot slot (fun t => { t with
      rows := (List.range (128 / nb)).foldl (fun rs r =>
        let old := t.row (row0 + r)
        let sc := (List.range nb).map (fun j => src.byte (r * nb + j))
        let v := bitsOf old.side.toNat 63 (8 * nb) * 2 ^ (8 * nb) + packList 8 sc
        rs.put (row0 + r) { old with side := .ofNat 64 v, poison := old.poison || src.poison }) t.rows })
  | _ => m

/-- The effects of a core that are due and that a condition selects, in the order they were issued; and the rest. -/
def Core.takeDue (k : Core) (clock : Nat) (sel : Eff → Bool) : List Pend × Core :=
  let hit := fun (p : Pend) => decide (p.due ≤ clock) && sel p.eff
  (k.pend.filter hit, { k with pend := k.pend.filter (fun p => !hit p) })

/-- MATRIX_UPDATE_LAND (R205): updates due at the end of the crew cycle land in processing order, ahead of MF writes. -/
def execMatrixUpdateLand (core : Nat) (s : State) : Out :=
  let (due, k) := (s.core core).takeDue (s.clock core) Eff.isMxUpdate
  .next (s.setCore core { k with mx := due.foldl (fun m p => m.landUpdate p.eff) k.mx })

/-- MATRIX_COMMAND_COMPLETE (R204): commands complete, and a signal counts at the next crew cycle. -/
def execMatrixCommandComplete (core : Nat) (s : State) : Out :=
  let (due, k) := (s.core core).takeDue (s.clock core) (fun e => match e with | .mxDone .. => true | _ => false)
  .next (due.foldl (fun s p => match p.eff with
    | .mxDone true h n => hsemChange s core ⟨p.due + 1, h, n, none⟩
    | _ => s) (s.setCore core k))

end Sys2Proof.Machine
end

