-- ==== Sys2Proof/Machine/Kiln.lean ====
section
/-!
DEFINITION. The kiln tier (spec 15 R220 to R237): the XB entries, the bound and the drift of a multiplication, deposits and
firings, recalibration and temperature. Analog readings and what a calibration finds are open values (log entry 3); what the
device guarantees of them holds.
-/
namespace Sys2Proof.Machine

/-- An array of a core. -/
def State.kiln (s : State) (core arr : Nat) : Kiln := SMap.get {} s.kilns (16 * core + arr)
/-- Change an array. -/
def State.updKiln (s : State) (core arr : Nat) (f : Kiln → Kiln) : State :=
  { s with kilns := s.kilns.upd {} (16 * core + arr) f }

/-- The next `n` open values, and the state with them drawn. -/
def State.draws (s : State) (n : Nat) : (Nat → Nat) × State := let c := s.freeCtr; (fun i => Config.free (c + i), { s with freeCtr := c + n })

/-- The weight in the cells at row `i`, column `j` (R220). -/
def Kiln.weight (k : Kiln) (i j : Nat) : Int := signedOf 4 (fieldAt 4 ((SMap.get 0 k.cells (4 * i + j / 128)).setWidth 1024) (j % 128))
/-- The weight of reference column `k` in row `i` (R220). -/
def refWeight (i k : Nat) : Int := if i % 256 / 2 ^ k % 2 = 1 then 7 else -7
/-- β of a column; the reference columns follow the 512 weight columns (R222). -/
def Kiln.betaVal (k : Kiln) (j : Nat) : Val := fp32.decode (SMap.get 0 k.beta j).toNat

/-- A record of the kiln tier about an array (R227, R366, R367). -/
def kilnRecord (code core arr : Nat) (delta : Nat) (tag : BitVec 32) (cycle : Nat) (part : Option Nat) (s : State) : State :=
  record s (466 + core / 160) ⟨code, 0, 0⟩ false false tag cycle part (some core)
    [.ofNat 64 (core + arr * 2 ^ 9), .ofNat 64 delta, .ofInt 64 (s.kiln core arr).temp]

/-! ## The bound (R226) -/

/-- The exact sum of |x|. -/
def sumAbs (x : List Int) : Nat := (x.map Int.natAbs).foldl (· + ·) 0
/-- β · A / S + 4, exact (R226, R227). -/
def boundVal (beta : Val) (a sh : Nat) : Val := Val.add .rne (Val.mul beta (.fin false a (-(sh : Int)))) (Val.ofInt 4)
/-- The row bound b_r as an FP32 code. -/
def Kiln.rowBound (k : Kiln) (r a sh : Nat) : Nat :=
  rup32 (boundVal ((List.range 64).foldl (fun m j => maxMag m (k.betaVal (64 * r + j))) Val.zero) a sh)
/-- The exact result y of a column. -/
def Kiln.dot (k : Kiln) (x : List Int) (j : Nat) : Int := (x.zipIdx.map (fun p => k.weight p.2 j * p.1)).foldl (· + ·) 0
/-- The exact result e of a reference column. -/
def refDot (x : List Int) (k : Nat) : Int := (x.zipIdx.map (fun p => refWeight p.2 k * p.1)).foldl (· + ·) 0

/-- The integer that an open value picks between two ends. -/
def pickInt (lo hi : Int) (v : Nat) : Int := if lo ≤ hi then lo + (v % ((hi - lo).toNat + 1) : Nat) else lo

/-- A reading of a column: an open integer q with |q · S − y| ≤ b · S (R226). Where the bound is infinite nothing holds. -/
def reading (y : Int) (sh bound v : Nat) : Int :=
  match fp32.decode bound with
  | .fin _ m e =>
    let (n, d) := Val.ratio m e
    let s : Int := (2 ^ sh : Nat)
    pickInt (-((-(y * d - n * s)) / (s * d))) ((y * d + n * s) / (s * d)) v
  | _ => pickInt (-32767) 32767 v

/-- A row of readings with its bound: readings beyond ±32,767 saturate, and then the row's bound is +∞ and its other readings
are open (R226). -/
def readingRow (bound : Nat) (sh : Nat) (ys : List (Int × Nat × Nat)) : List Int × Nat :=
  let us := ys.map (fun y => (reading y.1 sh bound y.2.1, y.2.2))
  if us.any (fun u => decide (u.1 < -32767 ∨ 32767 < u.1)) then
    (us.map (fun u => if u.1 < -32767 then -32767 else if 32767 < u.1 then 32767 else pickInt (-32767) 32767 u.2), 0x7F800000)
  else (us.map (·.1), bound)

/-! ## Drift (R227) -/

/-- Numerator and denominator of the deviation of one reference column. -/
def deviation (beta : Val) (a sh : Nat) (r e : Int) : Nat × Nat :=
  match beta with
  | .fin _ m x =>
    let (n, d) := Val.ratio m x
    ((r * (2 ^ sh : Nat) - e).natAbs * d, n * a + 4 * 2 ^ sh * d)
  | _ => (0, 1)

/-- WARN and GUARD of the die of a core, in units of 1/256. -/
def thresholds (s : State) (core : Nat) : Nat × Nat :=
  let v := s.reg (0xA40 + core / 160)
  (min (fieldOf v 8 0) (fieldOf v 17 9), fieldOf v 17 9)

/-- Convert the reference columns and judge the drift: the state with the readings and records made, and whether the
multiplication is void. A void asks the owning core's firmware for service and makes the array DUE at crew cycle c + 320. The record
of a warning names the crew cycle as R227 says, where R365 has CYCLE 0 for every source but a core (DEDUCED, log entry 51). -/
def judgeDrift (arr sh : Nat) (x : List Int) (s : State) : Bool × State :=
  let c := s.focus.core
  let k := s.kiln c arr
  let a := sumAbs x
  let (v, s1) := s.draws 8
  let r := (List.range 8).map (fun i => signedOf 32 (v i))
  let e := (List.range 8).map (refDot x)
  let devs := (List.range 8).map (fun i => deviation (k.betaVal (512 + i)) a sh (r.getD i 0) (e.getD i 0))
  let d256 := (devs.map (fun d => 256 * d.1 / d.2)).foldl max 0
  let beyond := fun t => devs.any (fun d => decide (t * d.2 < 256 * d.1))
  let (warn, guard) := thresholds s c
  let s2 := s1.updKiln c arr (fun k => { k with r := r, e := e, sh := sh, sumA := a, delta := d256, refDelta := d256 })
  let part := (s.crewOf c).map (·.part)
  if beyond guard then
    let s3 := s2.updKiln c arr (fun k => { k with voids := k.voids + 1, breach := true })
    let words := recordWords s3 (466 + c / 160) ⟨0x42, 0, 0⟩ false false (s.core c).tag 0 part
      [.ofNat 64 (c + arr * 2 ^ 9), .ofNat 64 d256, .ofInt 64 k.temp]
    let s4 := putRecord s3 (recordQueue s3 part (some c)) words
    (true, (request s4 c ⟨4, s3.now, 466 + c / 160, words, 0⟩).later (s.now0 + 319) (.kilnDue arr))
  else if beyond warn then
    (false, kilnRecord 0x41 c arr d256 (s.core c).tag s.now0 part (s2.updKiln c arr (fun k => { k with warns := k.warns + 1 })))
  else (false, s2)

/-! ## Issue (R228) -/

/-- The state of the array decides a using entry: UNFIRED, BUSY, a hold, or it runs and opens its window of `w` crew cycles. -/
def kilnUse (arr w : Nat) (f : State → State) (s : State) : State :=
  let c := s.focus.core
  let k := s.kiln c arr
  if k.st = .unfired ∨ k.st = .firing then raise (kilnFault 0) 0 arr s
  else if s.now0 < SMap.get 0 s.fcore.xbWin arr then raise (kilnFault 1) 0 arr s
  else if k.st = .due ∨ k.st = .recal then askHold 3 s
  else f (s.updF (fun x => { x with xbWin := x.xbWin.put arr (s.now0 + w), xbWall := x.xbWall.put arr (s.now0 + x.holdCycles.toNat + w) }))

/-- The tag check of an input row: INT8 (R228). -/
def int8Check (r : Row) : Option HwFault :=
  if r.tag = .i8 then none else if fmtBounded r.tag then some (typeFault 0) else some (stnFault 0)

/-- The four input entries of[T] to of[T + 3] (R230): the inputs and whether any is poisoned. -/
def kilnInputs (h : Ent) (s : State) : Except HwFault (List Int × Bool) :=
  let t := match h.sa with
    | .ofr i => i.toNat
    | _ => 0
  let rows := (List.range 4).map (fun m => readOf (t + m) s)
  match rows.findSome? int8Check with
  | some f => .error { f with which := 1 }
  | none => .ok ((rows.map (fun r => r.codes.map (signedOf 8))).flatten, rows.any (·.poison))

/-- A row of integers of width `w` in an integer format, zero from the list's end on. -/
def intsRow (ty : Fmt) (l : List Int) (poison : Bool) : Row := rowOf ty (l.map (wrapTo (fmtBits ty))) [] poison

/-- Where row `r` of an `xmv` goes: of[D + r], or the level named (R230). -/
def xmvDst (d : Opnd) (r : Nat) : Opnd :=
  match d with
  | .ofr i => .ofr (i + .ofNat 4 r)
  | o => o

/-- The eight output rows of an `xmv` (R230). -/
def xmvRows (k : Kiln) (x : List Int) (sh : Nat) (poison void : Bool) (v : Nat → Nat) : List Row :=
  let a := sumAbs x
  let scale := fp32.conv .rne false 0 (.fin false 1 sh)
  (List.range 8).map (fun r =>
    let (q, b) := if void then ((List.range 64).map (fun j => pickInt (-32767) 32767 (v (64 * r + j))), 0x7F800000)
      else readingRow (k.rowBound r a sh) sh ((List.range 64).map (fun j =>
        (k.dot x (64 * r + j), v (64 * r + j), v (512 + 64 * r + j))))
    { intsRow .bi16 q (poison || void || k.wpoison) with side := .ofNat 64 (b + scale * 2 ^ 32) })

/-- `xmv` (R230). -/
def execXmv (h : Ent) (arr sh : BitVec 4) (s : State) : Out :=
  .next (if !hasKiln arr.toNat s then raise allotUse 0 arr.toNat s else
  kilnUse arr.toNat 320 (fun s1 =>
    match kilnInputs h s1 with
    | .error f => raiseOpnd h f s1
    | .ok (x, p) =>
      let k := s1.kiln s1.focus.core arr.toNat
      let (void, s2) := judgeDrift arr.toNat sh.toNat x s1
      let (v, s3) := s2.draws 1024
      let s4 := s3.updKiln s3.focus.core arr.toNat (fun k => { k with mults := k.mults + 1 })
      (xmvRows k x sh.toNat p void v).zipIdx.foldl (fun s q => giveResult (336 + q.2) (xmvDst h.dst q.2) q.1 s) s4) s)

/-- The REF row (R235). -/
def Kiln.refRow (k : Kiln) (poison : Bool) : Row :=
  intsRow .i32 (((List.range 8).map (fun i => k.r.getD i 0)) ++ ((List.range 8).map (fun i => k.e.getD i 0))
    ++ [(k.sh : Int), k.sumA, min k.refDelta (2 ^ 31 - 1)]) poison

/-- The built-in input of `xref` (R231). -/
def xrefInput : List Int := (List.range 512).map (fun i => if i % 2 = 0 then 127 else -127)

/-- `xref` (R231). -/
def execXref (h : Ent) (arr sh : BitVec 4) (s : State) : Out :=
  .next (if !hasKiln arr.toNat s then raise allotUse 0 arr.toNat s else
  kilnUse arr.toNat 320 (fun s1 =>
    let (void, s2) := judgeDrift arr.toNat sh.toNat xrefInput s1
    let k := s2.kiln s2.focus.core arr.toNat
    giveResult 336 h.dst (k.refRow (void || k.wpoison)) s2) s)

/-- `xprog` deposit: the image takes a quarter row at the end of c + 1 (R232). -/
def execXprogDeposit (h : Ent) (arr : BitVec 4) (row : BitVec 9) (q : BitVec 3) (s : State) : Out :=
  .next (if !hasKiln arr.toNat s then raise allotUse 0 arr.toNat s
  else if (s.kiln s.focus.core arr.toNat).st = .firing then raise (kilnFault 3) 0 arr.toNat s
  else match readOpnd h.sa h.imm s with
  | .error e => e
  | .ok (a, s1) =>
    let r := a.toRow .i8
    match int8Check r with
    | some f => raiseOpnd h { f with which := 1 } s1
    | none =>
      if (r.codes.map (signedOf 8)).any (fun w => decide (w < -7 ∨ 7 < w)) then raise (kilnFault 2) h.sa.code arr.toNat s1
      else s1.later (s1.now0 + 1) (.deposit arr.toNat row.toNat q.toNat r))

/-- `xprog` FIRE: the firing starts at c + 1 (R225, R232). -/
def execXprogFire (_h : Ent) (arr : BitVec 4) (hs : BitVec 5) (s : State) : Out :=
  let k := s.kiln s.focus.core arr.toNat
  .next (if !hasKiln arr.toNat s then raise allotUse 0 arr.toNat s
  else if !hasHsem hs.toNat s then raise allotUse 0 hs.toNat s
  else if k.st = .firing then raise (kilnFault 3) 0 arr.toNat s
  else if s.now0 < SMap.get 0 s.fcore.xbWin arr.toNat then raise (kilnFault 1) 0 arr.toNat s
  else if k.pcount ≥ 10 ^ 6 then raise (kilnFault 4) 0 arr.toNat s
  else s.later s.now0 (.fire arr.toNat hs.toNat))

/-- `xrdw` (R233). -/
def execXrdw (h : Ent) (arr : BitVec 4) (row : BitVec 9) (q : BitVec 3) (s : State) : Out :=
  .next (if !hasKiln arr.toNat s then raise allotUse 0 arr.toNat s else
  kilnUse arr.toNat 40 (fun s1 =>
    let k := s1.kiln s1.focus.core arr.toNat
    let w := if q = 4 then (List.range 8).map (refWeight row.toNat)
      else (List.range 128).map (fun e => k.weight row.toNat (128 * q.toNat + e))
    giveResult 48 h.dst (intsRow .i8 w k.wpoison) s1) s)

/-- `xbound` (R234). -/
def execXbound (h : Ent) (arr sh : BitVec 4) (s : State) : Out :=
  let k := s.kiln s.focus.core arr.toNat
  .next (if !hasKiln arr.toNat s then raise allotUse 0 arr.toNat s
  else if k.st = .unfired ∨ k.st = .firing then raise (kilnFault 0) 0 arr.toNat s
  else match kilnInputs h s with
  | .error f => raiseOpnd h f s
  | .ok (x, p) =>
    let a := sumAbs x
    giveResult 6 h.dst (rowOf .f32 (((List.range 8).map (fun r => k.rowBound r a sh.toNat))
      ++ [f32rne (Val.ofInt a), f32rne (.fin false 1 sh.toNat)]) [] p) s)

/-- The code of a state (R221). -/
def KilnSt.code : KilnSt → Nat
  | .unfired => 0 | .firing => 1 | .fired => 2 | .due => 3 | .recal => 4

/-- The row of an `xstat` selection (R235); ages are in milliseconds of the time stamp. -/
def Kiln.statRow (k : Kiln) (now sel ix : Nat) : Row :=
  let sat := fun (n : Nat) => ((min n (2 ^ 31 - 1) : Nat) : Int)
  let trim := fun (m : SMap (BitVec 16)) =>
    if ix < 8 then (List.range 64).map (fun j => (SMap.get 0 m (64 * ix + j)).toInt)
    else (List.range 8).map (fun j => (SMap.get 0 m (512 + j)).toInt)
  match sel with
  | 0 => intsRow .i32 [k.st.code, sat k.pcount, if k.st = .unfired ∨ k.st = .firing then 0 else sat ((now - k.firedAt) / 10 ^ 6),
      sat ((now - k.calAt) / 10 ^ 6), k.tCal, k.temp, sat k.mults, sat k.warns, sat k.voids, sat k.delta, if k.wpoison then 1 else 0] false
  | 1 => rowOf .f32 (if ix < 16 then (List.range 32).map (fun j => (SMap.get 0 k.beta (32 * ix + j)).toNat)
      else (List.range 8).map (fun j => (SMap.get 0 k.beta (512 + j)).toNat)) [] false
  | 2 => intsRow .i16 (trim k.gain) false
  | 3 => intsRow .i16 (trim k.offset) false
  | _ => k.refRow false

/-- `xstat` (R235). -/
def execXstat (h : Ent) (arr : BitVec 4) (sel : BitVec 3) (ix : BitVec 5) (s : State) : Out :=
  .next (if !hasKiln arr.toNat s then raise allotUse 0 arr.toNat s
  else giveResult 4 h.dst ((s.kiln s.focus.core arr.toNat).statRow s.now sel.toNat ix.toNat) s)

/-! ## The tier's own happenings (R223, R224, R227, R232) -/

/-- What a calibration finds: coefficients at most 2^−6 and trims, open values; the counters are clear (R223). -/
def Kiln.calibrated (k : Kiln) (now : Nat) (v : Nat → Nat) : Kiln :=
  { k with
    beta := (List.range 520).map (fun j => (j, .ofNat 32 (v j % (0x3C800000 + 1))))
    gain := (List.range 520).map (fun j => (j, .ofNat 16 (v (520 + j))))
    offset := (List.range 520).map (fun j => (j, .ofNat 16 (v (1040 + j))))
    tCal := k.temp, calAt := now, mults := 0, warns := 0, voids := 0, r := [], e := [], sh := 0, sumA := 0, refDelta := 0
    st := .fired, breach := false, wantCal := false }

/-- KILN_RECAL: a request for each array named that is FIRED or DUE (R223). -/
def execKilnRecal (core : Nat) (start : BitVec 16) (s : State) : Out :=
  .next ((bitsSet 16 start).foldl (fun s a => s.updKiln core a (fun k =>
    if k.st = .fired ∨ k.st = .due then { k with wantCal := true } else k)) s)
/-- Whether no conversion or readback is in progress in the array in wall time (R223): the core cycles of its window have passed, those of
holds among them (R32), or its crew is gone or frozen. -/
def kilnIdle (s : State) (core arr : Nat) : Bool :=
  s.still core || decide (SMap.get 0 (s.core core).xbWall arr ≤ s.clock core + (s.core core).holdCycles.toNat)
/-- RECAL_START: the array is idle and a recalibration was asked for (R223). -/
def execRecalStart (core arr : Nat) (s : State) : Out :=
  let k := s.kiln core arr
  .next (if k.wantCal && (k.st == .fired || k.st == .due) && kilnIdle s core arr then s.updKiln core arr (fun k => { k with st := .recal })
    else s)
/-- RECAL_END: the array is FIRED with what was measured, or UNFIRED with a KILN_CAL_FAIL record (R223). -/
def execRecalEnd (core arr : Nat) (ok : Bool) (s : State) : Out :=
  .next (if (s.kiln core arr).st ≠ .recal then s
    else if ok then
      let (v, s1) := s.draws 1560
      s1.updKiln core arr (fun k => k.calibrated s.now v)
    else kilnRecord 0x44 core arr 0 0 0 none (s.updKiln core arr (fun k => { k with st := .unfired, wantCal := false })))
/-- A semaphore change for a core of a saved launch counts when the launch runs again. -/
def savedSignal (record core h : Nat) (s : State) : State :=
  { s with saved := s.saved.map (fun v => if v.record = record ∧ v.crew.members.contains core then
      { v with cores := v.cores.upd {} core (fun k => { k with hsemPend := k.hsemPend ++ [⟨0, h, 1, none⟩] }) } else v) }
/-- FIRING_END: the cells equal the image and the array is calibrated, or it is UNFIRED with a KILN_FIRE_FAIL record; the
semaphore gains 1 if the launch still runs (R232). -/
def execFiringEnd (core arr : Nat) (ok : Bool) (s : State) : Out :=
  let k := s.kiln core arr
  .next (if k.st ≠ .firing then s else
    let s1 := if ok then
        let (v, s1) := s.draws 1560
        s1.updKiln core arr (fun k => { k.calibrated s.now v with cells := k.image, lost := none, firedAt := s.now, firing := none })
      else kilnRecord 0x45 core arr 0 0 0 none (s.updKiln core arr (fun k => { k with st := .unfired, firing := none }))
    match k.firing with
    | some (c, h, r) => if (match s.crewOf c with | some w => w.record == r | none => false) then hsemChange s1 c ⟨0, h, 1, none⟩
      else savedSignal r c h s1
    | none => s1)
/-- KILN_TEMP: a sample; more than 240 units from T_CAL makes a FIRED array DUE, with a record and a recalibration (R224). -/
def execKilnTemp (core arr : Nat) (temp : Int) (s : State) : Out :=
  let s1 := s.updKiln core arr (fun k => { k with temp := temp })
  let k := s1.kiln core arr
  .next (if k.st = .fired ∧ 240 < (temp - k.tCal).natAbs then
      kilnRecord 0x43 core arr 0 0 0 none (s1.updKiln core arr (fun k => { k with st := .due, wantCal := true }))
    else s1)
/-- DRIFT_DUE: the use window of a voided multiplication ends; a breach not repaired makes the array DUE (R227). -/
def execDriftDue (core arr : Nat) (s : State) : Out :=
  .next (if (s.kiln core arr).breach then
      s.updKiln core arr (fun k => { k with breach := false, st := if k.st = .fired then .due else k.st })
    else s)

/-! ## Landings on the kiln die (R232) -/

/-- A quarter row of weights as the image holds it: four bits each. -/
def quarterOf (r : Row) : BitVec 512 := .ofNat 512 (packList 4 r.codes)

/-- A deposit or the start of a firing takes effect on the kiln die; from its start on the previous weights are lost. -/
def landKiln (core : Nat) (e : Eff) (s : State) : State :=
  match e with
  | .deposit arr row q r => s.updKiln core arr (fun k =>
      { k with image := SMap.set 0 k.image (4 * row + q) (quarterOf r), imgPoison := SMap.set false k.imgPoison (4 * row + q) r.poison })
  | .fire arr h => (s.draws 2048).2.updKiln core arr (fun k =>
      { k with st := .firing, pcount := k.pcount + 1, wpoison := k.imgPoison.any (·.2), wantCal := false, lost := some s.freeCtr
               firing := some (core, h, ((s.crewOf core).map (·.record)).getD 0) })
  | _ => s

end Sys2Proof.Machine
end

