-- ==== Sys2Proof/Machine/Landing.lean ====
section
/-!
DEFINITION. What lands at the end of a crew cycle (spec 11 R161 to R172, R192, 13 R201, R202, 15 R230, R232, 09 R139): station
results, bank reads and writes, MF rows and deposits; the end of a task, the advance of the crew clock and the end of a hold
(01 R21, R29, R32 to R35).
-/
namespace Sys2Proof.Machine

/-- Run a landing for the entry that made it, and give the focus back. -/
def landAs (core stn : Nat) (o : Origin) (f : State → State) (s : State) : State :=
  let t := f { s with focus := { s.focus with core := core, fw := false, stn := stn, org := o } }
  { t with focus := s.focus }

/-- A station's result reaches its destination and its LL (R163). Of two results that reach LL in one cycle, the one of the
entry that issued later stays. -/
def landResult (stn : Nat) (dst : Opnd) (row : Row) (issue : Nat) (s : State) : State :=
  let t := s.now0
  let s1 := match dst with
    | .lane l => putLane stn l.toNat row s
    | .ofr i =>
      let s' := countUse stn 2 s
      if s'.fcore.faulted.isSome then s'
      else s'.updF (fun k => k.updStn stn (fun x => { x with ofs := x.ofs.put i.toNat row }))
    | _ => s
  s1.updF (fun k => k.updStn stn (fun x =>
    if x.llAt.1 < t ∨ (x.llAt.1 = t ∧ x.llAt.2 ≤ issue) then { x with ll := row, llAt := (t, issue) } else x))

/-- Write a row of a bank through its write port (R161, R168). -/
def landBankWrite (bank rowNo : Nat) (p : Prep) (s : State) : State :=
  let s1 := countUse bank 2 s
  if s1.fcore.faulted.isSome then s1
  else s1.updF (fun k => k.updBank bank (fun b => { b with rows := b.rows.put rowNo (mergeRow p (b.row rowNo p.fmt)) }))

/-- The row that `mdr` or `msv` reads (R202), with the numeric state of MF after it. -/
def mfReadRow (m : Mx) (isMsv fromAcc : Bool) (which rowNo q : Nat) (ty : Fmt) (rd : Rounding) : Row × Rounding :=
  if fromAcc then
    let a := m.acc which
    let p := SMap.get false a.poison rowNo
    let codes := fun (n : Nat) => (List.range n).map (fun i => (a.elem rowNo (32 * q + i)).toNat)
    if isMsv then (rowOf (if a.isInt then .i32 else .f32) (codes 32) [] p, rd)
    else
      let vs := (codes (fmtElems ty)).map (fun c => if a.isInt then Val.ofInt (signedOf 32 c) else fp32.decode c)
      let (cs, ss, rd') := encodeVals ty rd vs
      (rowOf ty cs ss p, rd')
  else ((m.slot which).row rowNo, rd)

/-- Land one effect of the core in focus. -/
def landEff (p : Pend) (s : State) : State :=
  let t := s.now0
  match p.eff with
  | .result stn dst row issue => landResult stn dst row issue s
  | .bankRead bank lane rowNo fmt => putLane bank lane ((s.fcore.bank bank).row rowNo fmt) s
  | .bankWrite bank rowNo w => landBankWrite bank rowNo w s
  | .bankFill bank rowNo left w =>
    let s1 := landBankWrite bank rowNo w s
    if left ≤ 1 then s1 else s1.later (t + 1) (.bankFill bank (rowNo + 1) (left - 1) w)
  | .fmtLand bank => s.updF (fun k => k.updBank bank (fun b => { b with rows := [] }))
  | .cbLoad cb data poison => s.updF (fun k => { k with cbs := SMap.set 0 k.cbs cb data, cbPoison := SMap.set false k.cbPoison cb poison })
  | .setOf _ stn ofi row => s.updF (fun k => k.updStn stn (fun x => { x with ofs := x.ofs.put ofi row }))
  | .flag f value => s.updF (fun k => { k with flags := SMap.set 0 k.flags f value })
  | .slotRow slot rowNo row =>
    if (s.fcore.mx.slot slot).claimed then s.updMx (fun m => m.updSlot slot (fun x => { x with rows := x.rows.put rowNo row }))
    else raise (mxFault 3) 0 slot s
  | .slotRaw slot rowNo row => s.updMx (fun m => m.updSlot slot (fun x => { x with rows := x.rows.put rowNo row }))
  | .accRaw acc rowNo q row => s.updMx (fun m => m.updAcc acc (fun a => { a with
      isInt := row.tag == .i32
      elems := (List.range 32).foldl (fun e i => SMap.set 0 e (128 * rowNo + 32 * q + i) (.ofNat 32 (fieldAt 32 row.data i))) a.elems
      poison := SMap.set false a.poison rowNo row.poison }))
  | .aRow row => s.updMx (fun m => { m with aRow := some (t + 1, row) })
  | .mfRead dst isMsv fromAcc which rowNo q ty issue =>
    let rd := (s.fcore.stream 8).rd
    let (row, rd') := mfReadRow s.fcore.mx isMsv fromAcc which rowNo q ty rd
    (s.updF (fun k => k.updStream 8 (fun x => { x with rd := rd' }))).later (t + 3) (.result 8 dst row issue)
  | .deposit _ _ _ _ => landKiln s.focus.core p.eff s
  | .fire _ _ => landKiln s.focus.core p.eff s
  | _ => s

/-- The unit whose port an effect uses. -/
def Eff.unit : Eff → Nat
  | .result stn _ _ _ => stn
  | .bankRead b _ _ _ => b
  | .bankWrite b _ _ => b
  | .bankFill b _ _ _ => b
  | .setOf _ stn _ _ => stn
  | _ => 8

/-- The place of an effect among those that land in one cycle: bank reads see the array before its writes; `setof` follows the
results, `fmt` the writes, and MF samples last. -/
def Eff.phase : Eff → Nat
  | .bankRead .. => 0
  | .bankWrite .. => 1
  | .bankFill .. => 1
  | .slotRow .. => 2
  | .slotRaw .. => 2
  | .accRaw .. => 2
  | .result .. => 3
  | .setOf .. => 4
  | .fmtLand .. => 5
  | .flag .. => 5
  | .cbLoad .. => 5
  | .aRow .. => 6
  | .mfRead .. => 7
  | _ => 8

/-- Land the due effects of a core that a condition selects. -/
def landSel (core : Nat) (sel : Eff → Bool) (s : State) : State :=
  let (due, k) := (s.core core).takeDue (s.clock core) sel
  due.foldl (fun s p => landAs core p.eff.unit p.org (landEff p) s) (s.setCore core k)

/-- Whether an effect belongs to XB: its rows, and what its entries change on the kiln die. -/
def Eff.isXb : Eff → Bool
  | .result stn _ _ _ => stn == 11
  | .deposit .. => true
  | .fire .. => true
  | _ => false

/-- XB_ROW_PUT (R230): XB's rows due in the cycle are put or written; deposits and firings take effect. -/
def execXbRowPut (core : Nat) (s : State) : Out := .next (landSel core Eff.isXb s)
/-- STATION_RESULT_LAND (R163): what is due in the cycle lands, phase by phase. -/
def execStationResultLand (core : Nat) (s : State) : Out :=
  .next ((List.range 8).foldl (fun s ph => landSel core (fun e => !e.isXb && e.phase == ph) s) s)

/-! ## The end of a task (R29) -/

/-- Whether an `fqd` of a core has not counted: its marker stands in an outbound queue or in a binding. -/
def marksLeft (s : State) (core : Nat) : Bool :=
  (s.core core).fr.oq.any (fun p => p.2.any (!·.isRow)) || s.cmds.any (fun p => p.2.core == some core && p.2.items.any (!·.isRow))

/-- Whether every effect of what a core has issued has landed or counted, its streams are over and its engine is idle. -/
def coreQuiet (s : State) (core : Nat) : Bool :=
  let k := s.core core
  let t := s.clock core
  !k.streams.any (fun p => p.2.active || p.2.busy (t + 1)) && k.mx.queue.isEmpty && k.mx.active.isNone && k.pend.isEmpty && !marksLeft s core
  && k.lanes.all (fun r => decide (r.at0 + 15 ≤ t))
  && (match s.crewOf core with
    | some w => w.members.all (fun c => (s.core c).hsemPend.all (fun h => decide (h.due ≤ t)))
    | none => true)

/-- TASK_COMPLETE (R29): the sequencer has executed `exit` and nothing of the core is outstanding; the launch counts it. -/
def execTaskComplete (core : Nat) (s : State) : Out :=
  let k := s.core core
  match s.crewOf core with
  | some w =>
    .next (if k.prog.wait = .exited ∧ !k.taskDone ∧ coreQuiet s core then
      launchMember (s.updCore core (fun k => { k with taskDone := true })) w.record .done
    else s)
  | none => .next s

/-! ## The crew clock and holds (R21, R32 to R35) -/

/-- Raise a fault of a crew at its leader. -/
def crewRaise (k : Nat) (f : HwFault) (s : State) : State :=
  match s.crew k with
  | some w => landAs w.leader 0 {} (raise f 0 0) s
  | none => s

/-- CLOCK_END (R21). -/
def execClockEnd (crew : Nat) (s : State) : Out :=
  .next (match s.crew crew with
  | some w => if w.clock ≥ 0xFFFFFFFFFFFF then crewRaise crew (timing 8) s else s
  | none => s)

/-- The end of a crew cycle: rows past hop 15 leave their lanes, the port uses start afresh, and the clock advances. -/
def crewTick (crew : Nat) (s : State) : State :=
  match s.crew crew with
  | none => s
  | some w =>
    let s1 := w.members.foldl (fun s c => s.updCore c (fun k =>
      { k with lanes := k.lanes.filter (fun r => decide (w.clock < r.at0 + 15)), uses := [], ask := none, lineMiss := none })) s
    s1.updCrew crew (fun w => { w with clock := w.clock + 1 })

/-- HOLD_RELEASE (R32): every hold condition has cleared. -/
def execHoldRelease (crew : Nat) (s : State) : Out := .next (endHold crew s)

/-- HOLD_LIMIT (R35): a single hold has reached the leader's limit; it ends with a timing fault. -/
def execHoldLimit (crew : Nat) (s : State) : Out :=
  .next (match s.crew crew with
  | some w =>
    let lim := (s.core w.leader).holdLimit.toNat
    match w.hold with
    | some (_, n) => if lim ≠ 0 ∧ lim ≤ n then crewRaise crew (timing 0) (endHold crew s) else s
    | none => s
  | none => s)

end Sys2Proof.Machine
end

