-- ==== Sys2Proof/Machine/StoreRead.lean ====
section
/-!
DEFINITION. Reading on the storage side (spec 19 R268 to R278, R287 to R293): flash objects and their pages by version, headers,
node records and lists, the distance sequencer, the two searches, and scans.
-/
namespace Sys2Proof.Machine

/-- A STORE fault (R284). -/
def storeFault (sub : Nat) : HwFault := { code := 0x09, sub := sub }

/-- Why the work of a storage command stops. -/
inductive SStop where
  | fault (f : HwFault) (w : Where)
  /-- A codeword is in retry (R291). -/
  | retry (cw : Nat)
  /-- A codeword cannot be corrected (R291). -/
  | unreadable (cw : Nat)
deriving DecidableEq, Repr

/-! ## Objects and pages (R270, R271, R297) -/

/-- The object of a storage command: of one of the kinds, one tile a page, every tile on the flash tier (R271). -/
def flashObj (s : State) (p : Port) (r : Req) (kinds : List Nat) (id : Nat) : Except SStop Obj :=
  match objFor s p r .read id with
  | .error f => .error (.fault f { obj := domainId s id })
  | .ok o =>
    if !kinds.contains o.kind || o.ndim != 1 || o.fmt != .ui8 || o.tshape.headD 0 != 14 || o.home != 1 || o.peerAt.isSome
      || (List.range o.tiles).any (fun t => match tileRaw s p o o.ttPtr t with
        | .ok e => e.present && e.tier != .flash
        | .error _ => false)
    then .error (.fault (storeFault 0) { obj := domainId s id })
    else .ok o

/-- The state of the index of an object. -/
def State.index (s : State) (obj : Nat) : Index := SMap.get {} s.indexes obj
/-- The log of an object. -/
def State.log (s : State) (obj : Nat) : Log := SMap.get {} s.logs obj

/-- The page that a version still holds in the place of the current one. -/
def Index.oldPage (x : Index) (ver page : Nat) : Option (List Byte) :=
  (x.old.filter (fun v => decide (ver ≤ v.1))).findSome? (fun v => (v.2.find? (fun q => q.1 == page)).map (·.2))

/-- Bytes of flash as a version of an index reads them. -/
def verBytes (s : State) (obj ver a n : Nat) : List Byte :=
  match (s.index obj).oldPage ver (a / 16384) with
  | some b => (b.drop (a % 16384)).take n
  | none => flashBytes s obj a n

/-- Whether a range is zero in a version. -/
def verZero (s : State) (x : Index) (ver a n : Nat) : Bool :=
  match x.oldPage ver (a / 16384) with
  | some b => ((b.drop (a % 16384)).take n).all (· == 0)
  | none => !s.flash.any (fun p => decide (a ≤ p.1 ∧ p.1 < a + n))

/-- What a command knows of the codewords of a range: one still to be retried or one unreadable stops it (R291). -/
def cwCheck (s : State) (c : Cmd) (a n : Nat) : Except SStop Unit :=
  (unitsOf 4096 a n).foldl (fun (r : Except SStop Unit) k => match r with
    | .error e => .error e
    | .ok _ =>
      if s.hardFail.contains k || s.uncorr.contains (1, k) then
        match c.settled.find? (fun x => x.1 == k) with
        | some (_, true) => .ok ()
        | some (_, false) => .error (.unreadable k)
        | none => .error (.retry k)
      else .ok ()) (.ok ())

/-- The flash address of a tile of an object. -/
def pageOf (s : State) (c : Cmd) (o : Obj) (tile : Nat) : Except SStop Nat :=
  if tile ≥ o.tiles then .error (.fault (storeFault 6) { obj := o.domain s }) else
  match tileFor s c.portOf .read o (tableOf c.tables o) tile with
  | .error f => .error (.fault f { obj := o.domain s, tile := tile })
  | .ok t => .ok t.addr

/-- The tile of an object that lies at a flash page; 0 where none does. -/
def tileAt (s : State) (c : Cmd) (o : Obj) (page : Nat) : Nat :=
  ((List.range o.tiles).find? (fun t => match pageOf s c o t with
    | .ok a => a / 16384 == page
    | .error _ => false)).getD 0

/-- The keys of an object (R270, R386), the codewords of a range, and then the spare areas of its pages (R54, R270). -/
def pageCheck (s : State) (c : Cmd) (o : Obj) (a n : Nat) : Except SStop Unit :=
  if (s.keys.find o.id).isNone then .error (.fault (accessFault 7) { obj := o.domain s, tile := tileAt s c o (a / 16384) })
  else match cwCheck s c a n with
    | .error e => .error e
    | .ok _ => if (unitsOf 16384 a n).all (spareOk s o.id o.colour) then .ok ()
      else .error (.fault (accessFault 6) { obj := o.domain s, tile := tileAt s c o (a / 16384) })

/-- Read bytes of a page of an object at a flash address in the version of a command. -/
def readPage (s : State) (c : Cmd) (o : Obj) (a n : Nat) : Except SStop (List Byte) :=
  match pageCheck s c o a n with
  | .error e => .error e
  | .ok _ => .ok (verBytes s o.id c.version a n)

/-- Read bytes of a tile. -/
def readTile (s : State) (c : Cmd) (o : Obj) (tile off n : Nat) : Except SStop (List Byte) :=
  match pageOf s c o tile with
  | .error e => .error e
  | .ok a => readPage s c o (a + off) n

/-! ## The header (R272) -/

/-- The fields of an index's header page. -/
structure Head where
  list : Bool
  dim : Nat
  elem : Nat
  metric : Nat
  entries : List Nat
  log : Nat
  insBeam : Nat
  nmax : Nat
  merged : Nat
  mthresh : Nat
  nlist : Nat
  ct : Nat
  dt : Nat
deriving DecidableEq, Repr

/-- Bits of an element of an ELEM code. -/
def elemBits (e : Nat) : Nat := if e = 0 then 8 else if e = 1 then 4 else 16
/-- The bytes of a vector. -/
def Head.vb (h : Head) : Nat := (h.dim * elemBits h.elem + 7) / 8

/-- The header of words, unless a field is out of its limits. -/
def parseHead (kind : Nat) (w : Nat) : Option Head :=
  let b := fun n hi lo => bitsOf w (64 * n + hi) (64 * n + lo)
  let list := b 0 0 0 = 1
  let h : Head := ⟨list, b 0 12 1, b 0 14 13, b 0 16 15, (List.range (b 0 18 17 + 1)).map (fun i => b (4 + i) 63 0), b 0 42 19, b 0 50 43 + 1,
    b 0 57 51, b 1 63 0, b 2 39 0, b 3 19 0 + 1, b 3 43 20, b 4 23 0⟩
  let common := (if list then kind = 4 else kind = 3) && b 0 63 58 = 0 && b 2 63 40 = 0 && h.dim ≥ 1 && h.elem ≤ 2
  let own := if list then h.dim ≤ 2048 && b 3 63 44 = 0 && w / 2 ^ 280 = 0
    else h.dim ≤ 1024 && h.elem = 0 && 1 ≤ h.nmax && h.nmax ≤ 120 && b 3 63 0 = 0
  if common && own then some h else none

/-- Read the header of an index in the version of a command. -/
def readHead (s : State) (c : Cmd) (o : Obj) : Except SStop Head :=
  match pageOf s c o 0 with
  | .error e => .error e
  | .ok a => match readPage s c o a 64 with
    | .error e => .error e
    | .ok b =>
      match parseHead o.kind (natOfBytes b), verZero s (s.index o.id) c.version (a + 64) 16320 with
      | some h, true => .ok h
      | _, _ => .error (.fault (storeFault 1) { obj := o.domain s })

/-! ## The distance sequencer (R276) -/

/-- The codes of elements of a vector; INT4 elements pack lower nibble first (R44). -/
def elemCodes (elem n : Nat) (b : List Byte) : List Nat :=
  let w := elemBits elem
  let v := natOfBytes b
  (List.range n).map (fun i => v / 2 ^ (w * i) % 2 ^ w)

/-- Set bits of a number of at most 16 bits. -/
def popBits (n : Nat) : Nat := ((List.range 16).filter (fun i => n / 2 ^ i % 2 == 1)).length

/-- An accumulator: exact for integers, FP32 for BF16. -/
structure DAcc where
  i : Int := 0
  f : Val := Val.zero
deriving DecidableEq, Repr

/-- One term of a body. -/
def DAcc.step (body elem : Nat) (a : DAcc) (p q : Nat) : DAcc :=
  if elem = 2 then
    let x := codeVal .bf16 127 p
    let y := codeVal .bf16 127 q
    let d := Val.sub .rne x y
    let t := match body with
      | 0 => Val.mul x y
      | 1 => Val.mul d d
      | 2 => d.abs
      | _ => Val.ofInt (popBits (Nat.xor p q))
    { a with f := rne32 (Val.add .rne a.f t) }
  else
    let x := signedOf (elemBits elem) p
    let y := signedOf (elemBits elem) q
    let t : Int := match body with
      | 0 => x * y
      | 1 => (x - y) * (x - y)
      | 2 => (x - y).natAbs
      | _ => popBits (Nat.xor p q)
    { a with i := a.i + t }

/-- The score of an accumulator, an FP32 code. -/
def DAcc.score (elem : Nat) (a : DAcc) : Nat :=
  if elem = 2 then f32rne a.f else f32rne (Val.ofInt (signedOf 64 (wrapTo 64 a.i)))

/-- The score of a vector against a query. -/
def scoreVec (metric elem : Nat) (p q : List Nat) : Nat :=
  ((List.zip p q).foldl (fun a x => a.step metric elem x.1 x.2) ({} : DAcc)).score elem

/-- Whether a score ranks strictly before another: larger first for DOT, smaller first otherwise, NaN last. -/
def scoreBefore (larger : Bool) (a b : Nat) : Bool :=
  let x := codeVal .f32 127 a
  let y := codeVal .f32 127 b
  if x.isNan then false else if y.isNan then true else if larger then Val.lt y x else Val.lt x y

/-- Whether one item ranks before another, ties by the lower number. -/
def rankBefore (larger : Bool) (a b : Nat × Nat) : Bool :=
  scoreBefore larger a.1 b.1 || (!scoreBefore larger b.1 a.1 && decide (a.2 < b.2))

/-- Insert an item in order of rank: score and number, with what it carries. -/
def rankInsert {α : Type} (larger : Bool) (x : (Nat × Nat) × α) : List ((Nat × Nat) × α) → List ((Nat × Nat) × α)
  | [] => [x]
  | y :: r => if rankBefore larger x.1 y.1 then x :: y :: r else y :: rankInsert larger x r

/-- Items in order of rank. -/
def rankSort {α : Type} (larger : Bool) (l : List ((Nat × Nat) × α)) : List ((Nat × Nat) × α) :=
  l.foldl (fun acc x => rankInsert larger x acc) []

/-- The pairs of a result (R252, R290): the best K, then empty ones. -/
def pairBytes (larger : Bool) (k : Nat) (l : List (Nat × Nat)) : List Byte :=
  let best := l.take k
  (best.flatMap (fun x => bytesOfNat 8 x.2 ++ bytesOfNat 8 x.1)) ++
    (List.replicate (k - best.length) (bytesOfNat 8 (2 ^ 64 - 1) ++ bytesOfNat 8 (if larger then 0xFF800000 else 0x7F800000))).flatten

/-! ## Graph records (R273, R274) -/

/-- A node record. -/
structure GNode where
  addr : Nat
  label : Nat
  live : Bool
  vec : List Nat
  nbrs : List Nat
deriving DecidableEq, Repr

/-- DPAGE of a node address. -/
def nodeDpage (n : Nat) : Nat := 1024 * bitsOf n 26 13 + bitsOf n 12 3
/-- The flash tier address of a node (R269, R273). -/
def nodeFlash (n : Nat) : Nat :=
  bitsOf n 35 32 * 2 ^ 43 + nodeDpage n * 2 ^ 19 + bitsOf n 28 27 * 2 ^ 17 + bitsOf n 31 29 * 2 ^ 14 + 2048 * bitsOf n 2 0
/-- The node address of a record of a page. -/
def nodeAddr (page slot : Nat) : Nat :=
  let a := page * 16384
  slot + (bitsOf a 42 19 % 1024) * 2 ^ 3 + (bitsOf a 42 19 / 1024) * 2 ^ 13 + bitsOf a 18 17 * 2 ^ 27 + bitsOf a 16 14 * 2 ^ 29 + bitsOf a 46 43 * 2 ^ 32

/-- The record of bytes; `none` where it is malformed. -/
def parseNode (dim addr : Nat) (b : List Byte) : Option GNode :=
  let nn := natOfBytes ((b.drop 8).take 2)
  let fl := (b.getD 10 0).toNat
  if nn > 120 || fl > 1 || ((b.drop 11).take 5).any (· != 0) || ((b.drop (16 + dim)).take (1024 - dim)).any (· != 0)
      || (b.drop (1040 + 8 * nn)).any (· != 0) then none
  else some ⟨addr, natOfBytes (b.take 8), fl = 1, elemCodes 0 dim (b.drop 16),
    (List.range nn).map (fun j => natOfBytes ((b.drop (1040 + 8 * j)).take 8))⟩

/-- What a visit finds. -/
inductive Visit where
  | node (n : GNode)
  | foreign (page : Nat)
  | unreadable (page : Nat)
deriving DecidableEq, Repr

/-- Read the record at a node address (R273, R291). -/
def readNode (s : State) (c : Cmd) (o : Obj) (h : Head) (n : Nat) : Except SStop Visit :=
  let a := nodeFlash n
  if n ≥ 2 ^ 36 || nodeDpage n ≥ diePages || (SMap.get ({} : Spare) s.spare (a / 16384)).obj.toNat != o.id then .ok (.foreign (a / 16384)) else
  match readPage s c o a 2048 with
  | .error (.unreadable k) => .ok (.unreadable (k / 4))
  | .error e => .error e
  | .ok b => match parseNode h.dim n b with
    | some g => .ok (.node g)
    | none => .ok (.foreign (a / 16384))

/-! ## Log entries in a search (R287) -/

/-- The entries of a range of stamps. -/
def entriesIn (l : Log) (lo hi : Nat) : List LogEntry := l.entries.filter (fun e => decide (lo < e.stamp ∧ e.stamp ≤ hi))

/-- The latest entry of each label, in stamp order. -/
def latestEntries (l : List LogEntry) : List LogEntry :=
  l.filter (fun e => !l.any (fun x => x.label == e.label && decide (e.stamp < x.stamp)))

/-- Whether an INSERT stands before an entry of the same label. -/
def insertedBefore (l : List LogEntry) (e : LogEntry) : Bool := l.any (fun x => x.label == e.label && x.kind == 0 && decide (x.stamp < e.stamp))

/-- The entries that are candidates: INSERT, and REPLACE of what is live or was inserted in the range. -/
def entryCands (l : List LogEntry) (live : Nat → Bool) : List LogEntry :=
  (latestEntries l).filter (fun e => e.kind == 0 || (e.kind == 1 && (live e.label || insertedBefore l e)))

/-- What the controller's own maps tell whatever codewords read as: labels are known from when they were written (R295). -/
def mapView (s : State) : State := { s with hardFail := [], uncorr := s.uncorr.filter (fun u => u.1 != 1) }

/-- The nodes of tiles. -/
def tileNodes (s : State) (c : Cmd) (o : Obj) (h : Head) : List Nat → Except SStop (List GNode)
  | [] => .ok []
  | t :: ts => match pageOf s c o t with
    | .error e => .error e
    | .ok a =>
      let l := (List.range 8).filterMap (fun k => match readNode s c o h (nodeAddr (a / 16384) k) with
        | .ok (.node g) => if g.label = 2 ^ 64 - 1 then none else some g
        | _ => none)
      match tileNodes s c o h ts with
      | .error e => .error e
      | .ok r => .ok (l ++ r)

/-- Every node of an index in a version: the controller's label map (R295). -/
def allNodes (s : State) (c : Cmd) (o : Obj) (h : Head) : Except SStop (List GNode) := tileNodes (mapView s) c o h ((List.range o.tiles).drop 1)

/-! ## Progress and status (R281, R291) -/

/-- What a search has found. -/
structure Found where
  visited : List Nat := []
  scored : List ((Nat × Nat) × GNode) := []
  cand : List ((Nat × Nat) × GNode) := []
  expanded : List Nat := []
  hops : Nat := 0
  budget : Bool := false
  bad : List Nat := []
  reason : Nat := 0
deriving DecidableEq, Repr

/-- A page that ended a branch: the first one and its cause are reported, and how many there are. -/
def Found.badPage (f : Found) (page reason : Nat) : Found :=
  if f.bad.contains page then f else { f with bad := f.bad ++ [page], reason := if f.bad.isEmpty then reason else f.reason }

/-- Visit a node (R289). -/
def visit (s : State) (c : Cmd) (o : Obj) (h : Head) (q : List Nat) (beam x : Nat) (f : Found) : Except SStop Found :=
  if f.visited.contains x then .ok f else
  let f := { f with visited := x :: f.visited }
  match readNode s c o h x with
  | .error e => .error e
  | .ok (.foreign p) => .ok (f.badPage p 2)
  | .ok (.unreadable p) => .ok (f.badPage p 1)
  | .ok (.node g) =>
    let it := ((scoreVec h.metric h.elem g.vec q, x), g)
    .ok { f with scored := it :: f.scored, cand := (rankInsert (h.metric = 0) it f.cand).take beam }

/-- Visit nodes in order; a codeword in retry stops the walk, with what was found before it. -/
def visitAll (s : State) (c : Cmd) (o : Obj) (h : Head) (q : List Nat) (beam : Nat) : List Nat → Found → Found × Option SStop
  | [], f => (f, none)
  | x :: xs, f => match visit s c o h q beam x f with
    | .error e => (f, some e)
    | .ok f' => visitAll s c o h q beam xs f'

/-- The expansions of a beam search (R289). -/
def expand (s : State) (c : Cmd) (o : Obj) (h : Head) (q : List Nat) (beam : Nat) : Nat → Found → Found × Option SStop
  | 0, f => ({ f with budget := f.cand.any (fun x => !f.expanded.contains x.1.2) }, none)
  | n + 1, f =>
    match f.cand.find? (fun x => !f.expanded.contains x.1.2) with
    | none => (f, none)
    | some x =>
      match visitAll s c o h q beam x.2.nbrs { f with expanded := x.1.2 :: f.expanded, hops := f.hops + 1 } with
      | (f', some e) => (f', some e)
      | (f', none) => expand s c o h q beam n f'

/-- The traversal from the entry nodes. -/
def beamSearch (s : State) (c : Cmd) (o : Obj) (h : Head) (q : List Nat) (beam hops : Nat) : Found × Option SStop :=
  match visitAll s c o h q beam h.entries {} with
  | (f, some e) => (f, some e)
  | (f, none) => expand s c o h q beam hops f

/-- The results of a search in order: page candidates whose label no entry of the range decides, and entries. -/
def searchResults (h : Head) (q : List Nat) (range : List LogEntry) (live : Nat → Bool) (pages : List (Nat × Nat × Bool)) : List (Nat × Nat) :=
  let fromPages := (pages.filter (fun x => x.2.2 && !range.any (fun e => e.label == x.2.1))).map (fun x => ((x.1, x.2.1), ()))
  let fromLog := (entryCands range live).map (fun e => ((scoreVec h.metric h.elem (elemCodes h.elem h.dim e.vec) q, e.label), ()))
  (rankSort (h.metric = 0) (fromPages ++ fromLog)).map (·.1)

/-! ## Inverted lists (R275, R290) -/

/-- Bytes from one centroid to the next. -/
def Head.stride (h : Head) : Nat := 16 * ((h.vb + 15) / 16)
/-- Bytes of a list record. -/
def Head.recBytes (h : Head) : Nat := 8 + 8 * ((h.vb + 7) / 8)

/-- A centroid. -/
def readCentroid (s : State) (c : Cmd) (o : Obj) (h : Head) (n : Nat) : Except SStop (List Nat) :=
  let per := 16384 / h.stride
  match readTile s c o (h.ct + n / per) (n % per * h.stride) h.vb with
  | .error e => .error e
  | .ok b => .ok (elemCodes h.elem h.dim b)

/-- A directory entry: FIRST and NVEC. -/
def readDir (s : State) (c : Cmd) (o : Obj) (h : Head) (n : Nat) : Except SStop (Nat × Nat) :=
  match readTile s c o (h.dt + n / 1024) (n % 1024 * 16) 16 with
  | .error e => .error e
  | .ok b => let v := natOfBytes b; .ok (bitsOf v 46 0, bitsOf v 103 64)

/-- A list record: its label, its vector, its page and its place there. -/
structure LRec where
  label : Nat
  vec : List Nat
  page : Nat
  ix : Nat
deriving DecidableEq, Repr

/-- The records of a list from a page on, with the page it ended at because it could not be read (R291), and the pages walked.
The walk takes at most as many pages as the object has. -/
def readList (s : State) (c : Cmd) (o : Obj) (h : Head) : Nat → Nat → Except SStop (List LRec × Option (Nat × Nat) × List Nat)
  | 0, _ => .ok ([], none, [])
  | n + 1, a =>
    if !flashOk a || a % 16384 != 0 then .ok ([], some (a / 16384, 2), []) else
    match readPage s c o a 32 with
    | .error (.unreadable k) => .ok ([], some (k / 4, 1), [])
    | .error e => .error e
    | .ok b =>
      let next := natOfBytes (b.take 8) % 2 ^ 47
      let nrec := min (natOfBytes ((b.drop 8).take 2)) ((16384 - 32) / h.recBytes)
      match readPage s c o a (32 + nrec * h.recBytes) with
      | .error (.unreadable k) => .ok ([], some (k / 4, 1), [])
      | .error e => .error e
      | .ok pb =>
        let recs := (List.range nrec).map (fun r =>
          let x := pb.drop (32 + r * h.recBytes)
          (⟨natOfBytes (x.take 8), elemCodes h.elem h.dim (x.drop 8), a / 16384, r⟩ : LRec))
        if next = 2 ^ 47 - 1 then .ok (recs, none, [a / 16384]) else
        match readList s c o h n next with
        | .error e => .error e
        | .ok (rs, bad, ps) => .ok (recs ++ rs, bad, a / 16384 :: ps)

/-- The records of one list of the directory; one whose entry cannot be read ends there (R291). -/
def listOf (s : State) (c : Cmd) (o : Obj) (h : Head) (n : Nat) : Except SStop (List LRec × Option (Nat × Nat) × List Nat) :=
  match readDir s c o h n with
  | .error (.unreadable k) => .ok ([], some (k / 4, 1), [])
  | .error e => .error e
  | .ok (first, nvec) => if nvec = 0 ∧ first = 0 then .ok ([], none, []) else readList s c o h o.tiles first

/-- The records of lists, each with its list. -/
def listRecs (s : State) (c : Cmd) (o : Obj) (h : Head) : List Nat → Except SStop (List (Nat × LRec))
  | [] => .ok []
  | n :: ns => match listOf s c o h n with
    | .error e => .error e
    | .ok (l, _, _) => match listRecs s c o h ns with
      | .error e => .error e
      | .ok r => .ok (l.map (fun x => (n, x)) ++ r)

/-- Every record of an index of lists: the controller's label map (R295). -/
def allRecs (s : State) (c : Cmd) (o : Obj) (h : Head) : Except SStop (List (Nat × LRec)) := listRecs (mapView s) c o h (List.range h.nlist)

/-- The centroids in order of rank, and the pages of those that cannot be read, which have no score (R291). -/
def rankCentroids (s : State) (c : Cmd) (o : Obj) (h : Head) (q : List Nat) : List Nat → Except SStop (List ((Nat × Nat) × Unit) × List Nat)
  | [] => .ok ([], [])
  | n :: ns => match readCentroid s c o h n with
    | .error (.unreadable k) => (rankCentroids s c o h q ns).map (fun r => (r.1, k / 4 :: r.2))
    | .error e => .error e
    | .ok v => (rankCentroids s c o h q ns).map (fun r => (rankInsert (h.metric = 0) ((scoreVec h.metric h.elem v q, n), ()) r.1, r.2))

/-- STORE RANGE where centroids or directory entries that a search of lists reads lie beyond the object (R284): those of the lists it
names, or, before it has ranked them, all. -/
def listTables (s : State) (o : Obj) (h : Head) (named : Option (List Nat)) : Except SStop Unit :=
  let per := 16384 / h.stride
  let fits := match named with
    | some l => l.all (fun n => decide (h.dt + n / 1024 < o.tiles))
    | none => decide (h.ct + (h.nlist + per - 1) / per ≤ o.tiles ∧ h.dt + (h.nlist + 1023) / 1024 ≤ o.tiles)
  if fits then .ok () else .error (.fault (storeFault 6) { obj := o.domain s })

/-- Score the records of lists, with the pages that ended one. -/
def probeLists (s : State) (c : Cmd) (o : Obj) (h : Head) (q : List Nat) : List Nat → Found × List (Nat × Nat × Bool) →
    (Found × List (Nat × Nat × Bool)) × Option SStop
  | [], r => (r, none)
  | n :: ns, (f, l) => match listOf s c o h n with
    | .error e => ((f, l), some e)
    | .ok (recs, bad, _) =>
      let f' := match bad with
        | some (p, reason) => f.badPage p reason
        | none => f
      probeLists s c o h q ns (f', l ++ recs.map (fun r => (scoreVec h.metric h.elem r.vec q, r.label, true)))

/-! ## Scans (R277, R278, R292) -/

/-- A level of the descriptor. -/
structure DLevel where
  count : Nat
  pstride : Int
  qstride : Int
  pad : Nat
deriving DecidableEq, Repr

/-- A descriptor. -/
structure Desc where
  levels : List DLevel
  body : Nat
  elem : Nat
  e : Nat
  valid : Nat
  qlen : Nat
deriving DecidableEq, Repr

/-- Parse a descriptor; `none` raises STORE DESC. -/
def parseDesc (b : List Byte) : Option Desc :=
  let w := fun n => natOfBytes ((b.drop (8 * n)).take 8)
  let ls := (List.range 5).map (fun l => (⟨bitsOf (w l) 15 0, signedOf 20 (bitsOf (w l) 35 16), signedOf 16 (bitsOf (w l) 51 36), bitsOf (w l) 53 52⟩ : DLevel))
  let k := w 5
  let d : Desc := ⟨ls, bitsOf k 1 0, bitsOf k 3 2, bitsOf k 6 4, bitsOf k 23 8, bitsOf k 37 24⟩
  if ls.any (fun l => l.count = 0 || l.pad = 3) || (List.range 5).any (fun n => bitsOf (w n) 63 54 != 0) || bitsOf k 7 7 != 0 || bitsOf k 63 38 != 0
      || d.elem = 3 || d.e = 0 || d.e > 5 || d.valid = 0 || d.valid * elemBits d.elem > 16384 * 8 || d.qlen = 0 || d.qlen * elemBits d.elem > 65536
      || w 6 != 0 || w 7 != 0 || (((ls.drop d.e).map (·.count)).foldl (· * ·) 1) > 65536 then none
  else some d

/-- The step of a level: positions, whether padding elements are zero from here on, and whether the iteration is skipped. -/
def Desc.stepAt (d : Desc) (l : DLevel) (i : Nat) (p qp : Int) (zero : Bool) : Int × Int × Bool × Bool :=
  let pl := p + i * l.pstride
  let ql := qp + i * l.qstride
  if !zero && (decide (pl < 0) || decide ((d.valid : Int) ≤ pl)) then
    match l.pad with
    | 0 => (pl, ql, true, false)
    | 1 => (clampInt 0 ((d.valid : Int) - 1) pl, ql, false, false)
    | _ => (pl, ql, false, true)
  else (pl, ql, zero, false)

/-- A page element and a query element: zero outside. -/
def codeAt (l : List Nat) (n : Nat) (i : Int) : Nat := if 0 ≤ i ∧ i < n then l.getD i.toNat 0 else 0

/-- The reducing levels below `l` (R278). -/
def Desc.reduce (d : Desc) (page q : List Nat) : Nat → Int → Int → Bool → DAcc → DAcc
  | 0, _, _, _, acc => acc
  | l + 1, p, qp, zero, acc =>
    let lv := d.levels.getD l ⟨0, 0, 0, 0⟩
    (List.range lv.count).foldl (fun acc i =>
      let (pl, ql, z, skip) := d.stepAt lv i p qp zero
      if skip then acc
      else if l = 0 then acc.step d.body d.elem (if z then 0 else codeAt page d.valid pl) (codeAt q d.qlen ql)
      else d.reduce page q l pl ql z acc) acc

/-- The enumerating levels below `l`: scores in order, `none` for a skipped one. -/
def Desc.outputs (d : Desc) (page q : List Nat) : Nat → Int → Int → Bool → List (Option Nat)
  | 0, _, _, _ => []
  | l + 1, p, qp, zero =>
    if l < d.e then [some ((d.reduce page q d.e p qp zero {}).score d.elem)]
    else
      let lv := d.levels.getD l ⟨0, 0, 0, 0⟩
      (List.range lv.count).flatMap (fun i =>
        let (pl, ql, z, skip) := d.stepAt lv i p qp zero
        if skip then List.replicate ((((d.levels.take l).drop d.e).map (·.count)).foldl (· * ·) 1) none
        else if l = d.e then [some ((d.reduce page q l pl ql z {}).score d.elem)]
        else d.outputs page q l pl ql z)

/-- The scores of one page. -/
def Desc.pageScores (d : Desc) (page q : List Nat) : List (Option Nat) := d.outputs page q 5 0 0 false

/-- Scan pages in order. -/
def scanPages (s : State) (c : Cmd) (o : Obj) (d : Desc) (q : List Nat) : List Nat → List (Nat × List (Option Nat)) →
    List (Nat × List (Option Nat)) × Option SStop
  | [], acc => (acc, none)
  | t :: ts, acc =>
    match readTile s c o t 0 16384 with
    | .error e => (acc, some e)
    | .ok b => scanPages s c o d q ts (acc ++ [(t, d.pageScores (elemCodes d.elem d.valid b) q)])

end Sys2Proof.Machine
end

