-- ==== Sys2Proof/Machine/Storage.lean ====
section
/-!
DEFINITION. Storage commands (spec 19 R279 to R298): acceptance at the home controller, the searches, scans and page reads, the
log with its stamps, merges and their publication, status records and completion.
-/
namespace Sys2Proof.Machine

/-! ## The landed-through stamp (R286) -/

/-- LT of a log: it never decreases. -/
def ltOf (s : State) (log : Nat) : Nat :=
  let l := s.log log
  let lim := (l.entries.filter (fun e => !e.durable)).foldl (fun m e => min m (e.stamp - 1)) (s.now - 1)
  max l.lt lim

/-- Report LT. -/
def reportLt (s : State) (log : Nat) : Nat × State :=
  let v := ltOf s log
  (v, { s with logs := s.logs.upd {} log (fun l => { l with lt := v }) })

/-- The log of an index, by its header in the current version; `none` while no header is found. -/
def logOf (s : State) (c : Cmd) : Option Nat :=
  let c1 := { c with version := (s.index c.obj).version }
  match flashObj s c.portOf c.req [3, 4] c.obj with
  | .error _ => none
  | .ok o => match pageOf s c1 o 0 with
    | .error _ => none
    | .ok a => (parseHead o.kind (natOfBytes (verBytes s o.id c1.version a 64))).map (·.log)

/-! ## Acceptance (R280, R287, R297) -/

/-- The home controller of an object: that of its tile 0. -/
def homeOf (s : State) (c : Cmd) : Nat :=
  match objEntry s c.portOf c.obj with
  | .error _ => 0
  | .ok o => match tileRaw s c.portOf o o.ttPtr 0 with
    | .ok t => if t.present && t.tier = .flash then bitsOf t.addr 46 43 else 0
    | .error _ => 0

/-- Whether a command is a search: `srchg` or `srchv`. -/
def Cmd.isSearch (c : Cmd) : Bool := c.port = 1 && (c.op = 0xF0 || c.op = 0xF1)

/-- The home accepts a command: its stamp, and for a search its snapshot and the version it reads. A search that cannot tell its log yet
keeps LT of every log at this instant. -/
def acceptStore (id : Nat) (s : State) : State :=
  match s.cmds.find id with
  | none => s
  | some c =>
    let log := if c.isSearch then logOf s c else none
    let (lt, s1) := match log with
      | some g => reportLt s g
      | none => (0, s)
    let snap := c.bits 255 192
    { s1 with nextId := s1.nextId + 1 }.updCmd id (fun c => { c with
      st := .queued
      unit := homeOf s c
      qseq := s1.nextId
      stamp := s1.now
      snap := if snap = 0 then lt else snap
      lts := if c.isSearch && snap == 0 && log.isNone then some (s.logs.map (fun (p : Nat × Log) => (p.1, ltOf s p.1))) else none
      version := (s1.index c.obj).version })

/-! ## Records of events (R282, R291) -/

/-- The core or unit a command's records name. -/
def storeEvent (s : State) (c : Cmd) (code sub : Nat) (args : List Word) : State :=
  record s c.source ⟨code, sub, 0⟩ c.isFw false c.tag 0 c.part c.core args

/-- SEARCH_REQUEUE or FLASH_UNCORR of a page, from the controller that holds the page (R291, R366; the worked example of spec 20). -/
def pageEvent (s : State) (c : Cmd) (code page : Nat) : State :=
  record s (448 + bitsOf (page * 16384) 46 43) ⟨code, 0, 0⟩ c.isFw false c.tag 0 c.part c.core
    [c.ticketWord 0, .ofNat 64 c.obj, .ofNat 64 (page * 16384), .ofNat 64 (min c.requeues 0xFFFF)]

/-! ## Status records (R281, R283) -/

/-- The status record of a command. -/
def statusBytes (op status : Nat) (part budget : Bool) (reason requeues results hops badPage nbad w2 w3 : Nat) : List Byte :=
  bytesOfNat 8 (op + status * 2 ^ 8 + (if part then 2 ^ 10 else 0) + (if budget then 2 ^ 11 else 0) + reason * 2 ^ 12
    + min requeues 0xFFFF * 2 ^ 16 + results * 2 ^ 32 + hops * 2 ^ 43)
  ++ bytesOfNat 8 (badPage % 2 ^ 47 + min nbad (2 ^ 17 - 1) * 2 ^ 47) ++ bytesOfNat 8 w2 ++ bytesOfNat 8 w3

/-- A plain status record: DONE, with words 2 and 3. -/
def plainStatus (c : Cmd) (w2 w3 : Nat) : List Byte := statusBytes c.op 0 false false 0 0 0 0 0 0 w2 w3

/-- The status record of a search or scan. -/
def foundStatus (c : Cmd) (f : Found) (cancelled : Bool) (results w2 w3 : Nat) : List Byte :=
  let st := if cancelled then 2 else if f.bad.isEmpty then 0 else 1
  statusBytes c.op st (st != 0) f.budget f.reason c.requeues results f.hops (16384 * f.bad.headD 0) f.bad.length w2 w3

/-! ## Ends of a run -/

/-- Results to OUT (R281), in one go. -/
def putOut (id : Nat) (c : Cmd) (off : Nat) (b : List Byte) (s : State) : Except SStop State :=
  let (sl, o) := landAddr (c.bits 155 128)
  match cmdLandPut s c sl (o + off) b with
  | .error f => .error (.fault f {})
  | .ok s' => .ok (barWrote (s'.updCmd id (fun c => { c with bytes := c.bytes + b.length })) c b.length)

/-- The landing bytes at IN. -/
def getIn (s : State) (c : Cmd) (off n : Nat) : Except SStop (List Byte) :=
  let (sl, o) := landAddr (c.bits 91 64)
  match cmdLandGet s c sl (o + off) n with
  | .error f => .error (.fault f {})
  | .ok b => .ok b

/-- The command has done everything but its status record. -/
def storeMoved (id : Nat) (status : List Byte) (partialDone : Bool) (s : State) : State :=
  s.updCmd id (fun c => { c with st := .moved, status := status, partialDone := partialDone })

/-- A codeword failed hard decode (R291): a search task goes back to its queue with a record; any other command waits. -/
def retryWait (id : Nat) (c : Cmd) (cw : Nat) (s : State) : State :=
  if !c.isTask then s.updCmd id (fun c => { c with st := .waiting, wants := some cw })
  else
    let c1 := { c with requeues := c.requeues + 1, st := .waiting, wants := some cw }
    pageEvent { s with cmds := s.cmds.put id c1 } c1 0x46 (cw / 4)

/-- The tile of the object of a command that lies at a flash page (R367). -/
def objTile (s : State) (c : Cmd) (page : Nat) : Nat :=
  match objEntry s c.portOf c.obj with
  | .ok o => tileAt s c o page
  | .error _ => 0

/-- What a stop makes of a command. -/
def storeStop (id : Nat) (c : Cmd) (e : SStop) (s : State) : State :=
  match e with
  | .fault f w => cmdFault s id f w
  | .retry cw => retryWait id c cw s
  | .unreadable cw => cmdFault s id (accessFault 7) { obj := domainId s c.obj, tile := objTile s c (cw / 4) }

/-- Add the pending bytes at the barrier, once (R281). -/
def storeBegin (id : Nat) (c : Cmd) (n : Nat) (s : State) : Except SStop State :=
  if c.begun then .ok s else
  match barStart s c n with
  | .error f => .error (.fault f {})
  | .ok s' => .ok (s'.updCmd id (fun c => { c with begun := true }))

/-! ## Searches (R287 to R290) -/

/-- Whether a search may read the log range of its snapshot. -/
def snapReady (s : State) (c : Cmd) (h : Head) : Bool := decide (c.snap ≤ ltOf s h.log)

/-- The end of a search: results and status, or a wait for a codeword. A cancelled one writes what it has found. -/
def searchEnd (id : Nat) (c : Cmd) (h : Head) (k : Nat) (q : List Nat) (labels : Except SStop (List Nat)) (f : Found)
    (pages : List (Nat × Nat × Bool)) (stop : Option SStop) (s : State) : State :=
  let isRetry := match stop with
    | some (.retry _) => true
    | _ => false
  match stop, c.cancelled && isRetry with
  | some e, false => storeStop id c e s
  | _, _ =>
    let range := entriesIn (s.log h.log) h.merged c.snap
    match (if range.any (fun e => e.kind == 1) then labels else .ok []) with
    | .error e => storeStop id c e s
    | .ok live =>
    let res := (searchResults h q range (live.contains ·) pages).take k
    match putOut id c 0 (pairBytes (h.metric = 0) k res) s with
    | .error e => storeStop id c e s
    | .ok s' => storeMoved id (foundStatus c f c.cancelled res.length c.snap h.merged) (c.cancelled || !f.bad.isEmpty) s'

/-- `srchg` once its object and header stand. -/
def runSrchg (id : Nat) (c : Cmd) (f : SrchgF) (o : Obj) (h : Head) (s : State) : State :=
  match getIn s c 0 h.vb with
  | .error e => storeStop id c e s
  | .ok qb =>
    let q := elemCodes h.elem h.dim qb
    let (fd, stop) := beamSearch s c o h q (f.beam.toNat + 1) (f.hops.toNat + 1)
    let labels := (allNodes s c o h).map (fun l => (l.filter (·.live)).map (·.label))
    searchEnd id c h (f.k.toNat + 1) q labels fd
      (fd.scored.map (fun x => (x.1.1, x.2.label, x.2.live && x.2.label != 2 ^ 64 - 1))) stop s

/-- The probe set of `srchv`, and the pages of centroids that cannot be read. -/
def probeSet (s : State) (c : Cmd) (f : SrchvF) (o : Obj) (h : Head) (q : List Nat) : Except SStop (List Nat × List Nat) :=
  let n := f.nprobe.toNat + 1
  if f.plist = 1 then
    match getIn s c (16 * ((h.vb + 15) / 16)) (4 * n) with
    | .error e => .error e
    | .ok b =>
      let l := (List.range n).map (fun i => natOfBytes ((b.drop (4 * i)).take 4))
      if l.any (fun x => decide (h.nlist ≤ x)) then .error (.fault (storeFault 3) { obj := o.domain s }) else .ok (l.eraseDups, [])
  else match rankCentroids s c o h q (List.range h.nlist) with
    | .error e => .error e
    | .ok (l, bad) => .ok ((l.take n).map (·.1.2), bad)

/-- `srchv` once its object and header stand. -/
def runSrchv (id : Nat) (c : Cmd) (f : SrchvF) (o : Obj) (h : Head) (s : State) : State :=
  match getIn s c 0 h.vb with
  | .error e => storeStop id c e s
  | .ok qb =>
    let q := elemCodes h.elem h.dim qb
    match probeSet s c f o h q with
    | .error e => if c.cancelled then searchEnd id c h (f.k.toNat + 1) q (.ok []) {} [] (some e) s else storeStop id c e s
    | .ok (ps, bad) =>
      let ((fd, pages), stop) := probeLists s c o h q ps (bad.foldl (fun f p => f.badPage p 1) {}, [])
      searchEnd id c h (f.k.toNat + 1) q ((allRecs s c o h).map (fun l => l.map (fun x => x.2.label))) fd pages stop s

/-- The probe list of `srchv`, and the places of what it reads, are checked before any effect (R284). -/
def probeCheck (s : State) (c : Cmd) (f : SrchvF) (o : Obj) (h : Head) : Except SStop Unit :=
  if f.plist = 1 then
    match probeSet s c f o h [] with
    | .error e => .error e
    | .ok (l, _) => listTables s o h (some l)
  else listTables s o h none

/-- A search that could not tell its log when it was accepted takes the snapshot of that instant (R287). -/
def snapOf (c : Cmd) (h : Head) : Cmd :=
  match c.lts with
  | some m => { c with snap := SMap.get (c.stamp - 1) m h.log, lts := none }
  | none => c

/-- A search runs (R287): its object and header are read and its input checked, it waits for its snapshot, and it searches. -/
def runSearch (id : Nat) (kind : Nat) (k : Nat) (check : State → Cmd → Obj → Head → Except SStop Unit) (body : Cmd → Obj → Head → State → State) (s : State) : State :=
  match s.cmds.find id with
  | none => s
  | some c =>
    match flashObj s c.portOf c.req [kind] c.obj with
    | .error e => storeStop id c e s
    | .ok o => match readHead s c o with
      | .error e => storeStop id c e s
      | .ok h => match (if c.begun then .ok () else check s c o h) with
        | .error e => storeStop id c e s
        | .ok _ => match storeBegin id c (16 * k + 32) s with
          | .error e => storeStop id c e s
          | .ok s1 =>
            let c1 := { snapOf c h with begun := true }
            let s2 := s1.updCmd id (fun c => snapOf c h)
            if snapReady s2 c1 h || c.cancelled then body c1 o h s2
            else s2.updCmd id (fun c => { c with st := .waiting, wants := none })

/-! ## `dscan` and `pgrd` (R292, R293) -/

/-- The outputs of a scan (R292). -/
def scanOut (f : DscanF) (pages : List (Nat × List (Option Nat))) : List Byte × Nat :=
  if f.k = 0 then (pages.flatMap (fun p => p.2.flatMap (fun v => bytesOfNat 4 (v.getD 0x7FC00000))), 0)
  else
    let larger := f.ord = 0
    let cands := pages.flatMap (fun p => p.2.zipIdx.filterMap (fun v => match v.1 with
      | some x => some ((x, p.1 * 2 ^ 16 + v.2), ())
      | none => none))
    let best := ((rankSort larger cands).map (·.1)).take f.k.toNat
    (pairBytes larger f.k.toNat best, best.length)

/-- `dscan`. -/
def runDscan (id : Nat) (f : DscanF) (s : State) : State :=
  match s.cmds.find id with
  | none => s
  | some c =>
    match flashObj s c.portOf c.req [7, 3, 4] c.obj with
    | .error e => storeStop id c e s
    | .ok o =>
      match getIn s c 0 64 with
      | .error e => storeStop id c e s
      | .ok db => match parseDesc db with
        | none => storeStop id c (.fault (storeFault 2) { obj := o.domain s }) s
        | some d =>
          if f.first.toNat + f.npages.toNat > o.tiles then storeStop id c (.fault (storeFault 6) { obj := o.domain s }) s else
          match getIn s c 64 ((d.qlen * elemBits d.elem + 7) / 8) with
          | .error e => storeStop id c e s
          | .ok qb =>
            let per := ((d.levels.drop d.e).map (·.count)).foldl (· * ·) 1
            match storeBegin id c ((if f.k = 0 then 4 * per * f.npages.toNat else 16 * f.k.toNat) + 32) s with
            | .error e => storeStop id c e s
            | .ok s1 =>
              let cur := { c with begun := true, version := (s1.index o.id).version }
              let (pages, stop) := scanPages s1 cur o d (elemCodes d.elem d.qlen qb)
                ((List.range f.npages.toNat).map (f.first.toNat + ·)) []
              let isRetry := match stop with
                | some (.retry _) => true
                | _ => false
              match stop, c.cancelled && isRetry with
              | some e, false => storeStop id cur e s1
              | _, _ =>
                let (b, n) := scanOut f pages
                match putOut id cur 0 b s1 with
                | .error e => storeStop id cur e s1
                | .ok s2 => storeMoved id (foundStatus c {} c.cancelled n 0 0) c.cancelled s2

/-- Copy pages to OUT, from the page the command stands at. -/
def copyPages (id : Nat) (o : Obj) (first : Nat) : List Nat → State → State
  | [], s => match s.cmds.find id with
    | some c => storeMoved id (plainStatus c 0 0) false s
    | none => s
  | k :: ks, s => match s.cmds.find id with
    | none => s
    | some c0 =>
      let c := { c0 with version := (s.index o.id).version }
      match readTile s c o (first + k) 0 16384 with
      | .error e => storeStop id c e s
      | .ok b => match putOut id c (16384 * k) b s with
        | .error e => storeStop id c e s
        | .ok s' => copyPages id o first ks (s'.updCmd id (fun c => { c with pos := k + 1 }))

/-- `pgrd`. -/
def runPgrd (id : Nat) (f : PgrdF) (s : State) : State :=
  match s.cmds.find id with
  | none => s
  | some c =>
    match flashObj s c.portOf c.req [7, 3, 4, 6] c.obj with
    | .error e => storeStop id c e s
    | .ok o =>
      let n := f.npages.toNat + 1
      if f.first.toNat + n > o.tiles then storeStop id c (.fault (storeFault 6) { obj := o.domain s }) s else
      match storeBegin id c (16384 * n + 32) s with
      | .error e => storeStop id c e s
      | .ok s1 => copyPages id o f.first.toNat ((List.range n).drop c.pos) s1

/-! ## The log (R285, R286, R294) -/

/-- Bytes of a log entry of a kind. -/
def entryBytesOf (h : Head) (kind : Nat) : Nat := if kind = 2 then 32 else 32 + h.stride

/-- Where the next entry of a size lies: no entry straddles a page. -/
def placeEntry (tail size : Nat) : Nat := if tail % 16384 + size > 16384 then (tail / 16384 + 1) * 16384 else tail

/-- Places of `n` entries and the tail after them. -/
def placeEntries (size : Nat) : Nat → Nat → List Nat × Nat
  | 0, tail => ([], tail)
  | n + 1, tail =>
    let a := placeEntry tail size
    let (l, t) := placeEntries size n (a + size)
    (a :: l, t)

/-- The bytes of the log that entries above MERGED keep. -/
def logUsed (l : Log) (merged tail : Nat) : Nat := tail - (l.entries.filter (fun e => decide (merged < e.stamp))).foldl (fun m e => min m e.place) tail

/-- The labels and vectors of the input of `append` or `remove`. -/
def readRecs (s : State) (c : Cmd) (h : Head) (kind : Nat) : List Nat → Except SStop (List (Nat × List Byte))
  | [] => .ok []
  | i :: is =>
    let size := if kind = 2 then 8 else 16 + h.stride
    match getIn s c (i * size) (if kind = 2 then 8 else 16 + h.vb) with
    | .error e => .error e
    | .ok b => match readRecs s c h kind is with
      | .error e => .error e
      | .ok l => .ok ((natOfBytes (b.take 8), (b.drop 16).take h.vb) :: l)

/-- Whether another append or remove of the log stands before this one and has no stamps yet (R286). -/
def appendAhead (s : State) (c : Cmd) : Bool :=
  s.cmds.any (fun p => p.2.port == 1 && (p.2.op == 0xF3 || p.2.op == 0xF4) && p.2.last == 0 && decide (p.2.qseq < c.qseq)
    && (p.2.st == .queued || p.2.st == .running || p.2.st == .waiting || p.2.isSuspended)
    && (p.2.obj == c.obj || ((logOf s c).isSome && logOf s p.2 == logOf s c)))

/-! ## Merges (R295 to R297) -/

/-- The page contents that a merge works on: its shadows over the pages of the current version. -/
def shadowBytes (s : State) (obj page : Nat) : List Byte :=
  match (s.index obj).shadow.find? (fun q => q.1 == page) with
  | some q => q.2
  | none => flashBytes s obj (page * 16384) 16384

/-- Replace bytes of a page in the shadow. -/
def shadowPut (s : State) (obj page off : Nat) (b : List Byte) : State :=
  let x := s.index obj
  let new := splice (shadowBytes s obj page) off b
  { s with indexes := s.indexes.put obj { x with shadow := (page, new) :: x.shadow.filter (fun q => q.1 != page) } }

/-- The state as the merge engine reads the new version: the shadows in place of the flash pages, and every codeword as it was written
(log entry 85). -/
def withShadow (s : State) (obj : Nat) : State :=
  { mapView s with
    flash := (s.index obj).shadow.foldl (fun m q => m.setBytes (q.1 * 16384) q.2) s.flash
    cwKey := s.cwKey.filter (fun p => !(s.index obj).shadow.any (fun q => q.1 == p.1 / 4)) }

/-- The new version as the search of an insertion reads it: a codeword that cannot be read has no scores (R291). -/
def shadowView (s : State) (obj : Nat) : State := { withShadow s obj with hardFail := s.hardFail, uncorr := s.uncorr }

/-- What the merge engine answers: `none` stands for STORE FULL. -/
abbrev MRes (α : Type) := Except (Option SStop) α

/-- A step of the merge engine that may meet a fault. -/
def mres {α : Type} (r : Except SStop α) : MRes α :=
  match r with
  | .ok x => .ok x
  | .error e => .error (some e)

/-- The bytes of a node record. -/
def nodeBytes (dim : Nat) (g : GNode) : List Byte :=
  bytesOfNat 8 g.label ++ bytesOfNat 2 g.nbrs.length ++ [if g.live then 1 else 0] ++ List.replicate 5 0
    ++ g.vec.map (fun v => (.ofNat 8 v : Byte)) ++ List.replicate (1024 - dim) 0 ++ g.nbrs.flatMap (bytesOfNat 8)
    ++ List.replicate (8 * (126 - g.nbrs.length)) 0

/-- Write a node record in the shadow. -/
def putNode (s : State) (obj dim : Nat) (g : GNode) : State :=
  let a := nodeFlash g.addr
  shadowPut s obj (a / 16384) (a % 16384) (nodeBytes dim g)

/-- A reader of the merge itself. -/
def mergeCmd (s : State) (c : Cmd) : Cmd := { c with version := (s.index c.obj).version + 1 }

/-- The neighbours of a node with one more: with 120 the worst goes, ties keeping the lower node address (R295). -/
def addNeighbour (h : Head) (all : List GNode) (g : GNode) (n : Nat) : GNode :=
  let l := g.nbrs ++ [n]
  if l.length ≤ 120 then { g with nbrs := l } else
  let sc := fun a => match all.find? (fun x => x.addr == a) with
    | some x => scoreVec h.metric h.elem x.vec g.vec
    | none => 0x7FC00000
  let keep := ((rankSort (h.metric = 0) (l.map (fun a => ((sc a, a), ())))).map (·.1.2)).take 120
  { g with nbrs := l.filter (fun a => keep.contains a) }

/-- The lowest free slot of the lowest of some tiles. -/
def freeSlotIn (s : State) (c : Cmd) (o : Obj) : List Nat → Except SStop (Option Nat)
  | [] => .ok none
  | t :: ts => match pageOf s c o t with
    | .error e => .error e
    | .ok a => match (List.range 8).find? (fun k => natOfBytes (flashBytes s o.id (a + 2048 * k) 8) == 2 ^ 64 - 1) with
      | some k => .ok (some (nodeAddr (a / 16384) k))
      | none => freeSlotIn s c o ts

/-- The lowest free slot of the lowest tile. -/
def freeSlot (s : State) (c : Cmd) (o : Obj) : Except SStop (Option Nat) := freeSlotIn s c o ((List.range o.tiles).drop 1)

/-- A new node with its neighbours, and their edges back (R295). -/
def insertNode (v : State) (c : Cmd) (o : Obj) (h : Head) (all : List GNode) (e : LogEntry) (addr : Nat) (s : State) : MRes State :=
  let vec := elemCodes 0 h.dim e.vec
  match beamSearch v c o h vec h.insBeam (2 ^ 30) with
  | (_, some stop) => .error (some stop)
  | (f, none) =>
    let nb := (f.cand.take h.nmax).map (·.2)
    let scored := all.filter (fun g => !v.uncorr.contains (1, nodeFlash g.addr / 4096))
    let s1 := putNode s o.id h.dim ⟨addr, e.label, true, vec, nb.map (·.addr)⟩
    .ok (nb.foldl (fun s g => putNode s o.id h.dim (addNeighbour h (⟨addr, e.label, true, vec, []⟩ :: scored) g addr)) s1)

/-- Apply one log entry to a graph. -/
def mergeGraph (c0 : Cmd) (o : Obj) (h : Head) (inserted : Bool) (e : LogEntry) (s : State) : MRes State := do
  let v := withShadow s o.id
  let c := mergeCmd s c0
  let all ← mres (allNodes v c o h)
  match all.find? (fun g => g.label == e.label && g.live) with
  | some g =>
    pure (putNode s o.id h.dim (if e.kind = 2 then { g with live := false } else { g with vec := elemCodes 0 h.dim e.vec }))
  | none =>
    if e.kind = 2 || (e.kind = 1 && !inserted) then pure s else
    match ← mres (freeSlot v c o) with
    | none => throw none
    | some addr => insertNode (shadowView s o.id) c o h all e addr s

/-- The bytes of a list record. -/
def recBytes (h : Head) (r : Nat × List Byte) : List Byte := bytesOfNat 8 r.1 ++ r.2 ++ List.replicate (h.recBytes - 8 - r.2.length) 0

/-- Write the directory entry of a list in the shadow: a list without records has FIRST zero (R275). -/
def putDir (s : State) (c : Cmd) (o : Obj) (h : Head) (n first nvec : Nat) : Except SStop State :=
  match pageOf s c o (h.dt + n / 1024) with
  | .error e => .error e
  | .ok a => .ok (shadowPut s o.id (a / 16384) (n % 1024 * 16) (bytesOfNat 8 (if nvec = 0 then 0 else first) ++ bytesOfNat 8 nvec))

/-- The records of a list with its pages. -/
def listPages (s : State) (c : Cmd) (o : Obj) (h : Head) (n : Nat) : Except SStop (List LRec × List Nat) :=
  (listOf s c o h n).map (fun x => (x.1, x.2.2))

/-- The pages of lists. -/
def usedPages (s : State) (c : Cmd) (o : Obj) (h : Head) : List Nat → Except SStop (List Nat)
  | [] => .ok []
  | n :: ns => match listPages s c o h n with
    | .error e => .error e
    | .ok (_, p) => (usedPages s c o h ns).map (p ++ ·)

/-- The first of some tiles that no list, centroid, directory or header uses. -/
def freePageIn (s : State) (c : Cmd) (o : Obj) (h : Head) (used : List Nat) : List Nat → Except SStop (Option Nat)
  | [] => .ok none
  | t :: ts =>
    let cpages := (h.nlist + 16384 / h.stride - 1) / (16384 / h.stride)
    let dpages := (h.nlist + 1023) / 1024
    if (h.ct ≤ t ∧ t < h.ct + cpages) ∨ (h.dt ≤ t ∧ t < h.dt + dpages) then freePageIn s c o h used ts
    else match pageOf s c o t with
      | .error e => .error e
      | .ok a => if used.contains (a / 16384) then freePageIn s c o h used ts else .ok (some (a / 16384))

/-- A page of the object that no list, centroid, directory or header uses: the lowest (log entry 17). -/
def freePage (s : State) (c : Cmd) (o : Obj) (h : Head) : Except SStop (Option Nat) :=
  match usedPages s c o h (List.range h.nlist) with
  | .error e => .error e
  | .ok used => freePageIn s c o h used ((List.range o.tiles).drop 1)

/-- The bytes of a list page with one record, the last of its list. -/
def listPageBytes (h : Head) (r : Nat × List Byte) : List Byte := bytesOfNat 8 (2 ^ 47 - 1) ++ bytesOfNat 2 1 ++ List.replicate 22 0 ++ recBytes h r

/-- Append a record to a list (R295). -/
def appendToList (c : Cmd) (o : Obj) (h : Head) (n : Nat) (r : Nat × List Byte) (s : State) : MRes State := do
  let v := withShadow s o.id
  let (first, nvec) ← mres (readDir v c o h n)
  let (recs, pages) ← mres (listPages v c o h n)
  let per := (16384 - 32) / h.recBytes
  match pages.getLast? with
  | some pg =>
    let k := (recs.filter (fun x => x.page == pg)).length
    if k < per then
      let s1 := shadowPut s o.id pg (32 + k * h.recBytes) (recBytes h r)
      mres (putDir (shadowPut s1 o.id pg 8 (bytesOfNat 2 (k + 1))) c o h n first (nvec + 1))
    else match ← mres (freePage v c o h) with
      | none => throw none
      | some np => mres (putDir (shadowPut (shadowPut s o.id np 0 (listPageBytes h r)) o.id pg 0 (bytesOfNat 6 (np * 16384))) c o h n first (nvec + 1))
  | none => match ← mres (freePage v c o h) with
    | none => throw none
    | some np => mres (putDir (shadowPut s o.id np 0 (listPageBytes h r)) c o h n (np * 16384) 1)

/-- Take a record out of its list: the later ones of its page move up (log entry 17). -/
def removeRec (c : Cmd) (o : Obj) (h : Head) (n : Nat) (x : LRec) (s : State) : Except SStop State := do
  let v := withShadow s o.id
  let (recs, _) ← listPages v c o h n
  let (first, nvec) ← readDir v c o h n
  let k := (recs.filter (fun y => y.page == x.page)).length
  let b := shadowBytes s o.id x.page
  let tail := (b.drop (32 + (x.ix + 1) * h.recBytes)).take ((k - 1 - x.ix) * h.recBytes)
  let s1 := shadowPut s o.id x.page (32 + x.ix * h.recBytes) (tail ++ List.replicate h.recBytes 0)
  putDir (shadowPut s1 o.id x.page 8 (bytesOfNat 2 (k - 1))) c o h n first (nvec - 1)

/-- Apply one log entry to an index of lists. -/
def mergeList (c0 : Cmd) (o : Obj) (h : Head) (inserted : Bool) (e : LogEntry) (s : State) : MRes State := do
  let v := withShadow s o.id
  let c := mergeCmd s c0
  let all ← mres (allRecs v c o h)
  match all.find? (fun x => x.2.label == e.label) with
  | some (n, r) =>
    if e.kind = 2 then mres (removeRec c o h n r s)
    else pure (shadowPut s o.id r.page (32 + r.ix * h.recBytes) (recBytes h (e.label, e.vec)))
  | none =>
    if e.kind = 2 || (e.kind = 1 && !inserted) then pure s else
    match ← mres (rankCentroids (shadowView s o.id) c o h (elemCodes h.elem h.dim e.vec) (List.range h.nlist)) with
    | (x :: _, _) => appendToList c o h x.1.2 (e.label, e.vec) s
    | ([], _) => throw none

/-- Apply the latest entry of each label, in stamp order. -/
def applyEntries (c : Cmd) (o : Obj) (h : Head) (range : List LogEntry) : List LogEntry → State → MRes State
  | [], s => .ok s
  | e :: es, s =>
    let ins := insertedBefore range e
    match (if h.list then mergeList c o h ins e s else mergeGraph c o h ins e s) with
    | .error x => .error x
    | .ok s' => applyEntries c o h range es s'

/-- Start a merge of an index up to M: its shadow pages are written (R295, R296). -/
def startMerge (c : Cmd) (o : Obj) (h : Head) (m : Nat) (cmd : Option Nat) (s : State) : MRes State :=
  let range := entriesIn (s.log h.log) h.merged m
  let s0 := { s with indexes := s.indexes.upd {} o.id (fun x => { x with merging := some (m, cmd), shadow := [] }) }
  match applyEntries c o h range (latestEntries range) s0 with
  | .error x => .error x
  | .ok s1 => match pageOf s1 c o 0 with
    | .error e => .error (some e)
    | .ok a => .ok (shadowPut s1 o.id (a / 16384) 8 (bytesOfNat 8 m))

/-- A reader of an index that no command names: the merge engine. -/
def engineCmd (s : State) (obj : Nat) : Cmd :=
  let o := match objEntry s ⟨64, 0⟩ obj with
    | .ok o => o.owner
    | .error _ => 0
  { port := 1, word := .ofNat 256 (0xF5 + obj * 2 ^ 18), issuer := .record 0, part := some o, version := (s.index obj).version }

/-- How every codeword that fails decodes in the end. -/
def settledNow (s : State) : List (Nat × Bool) :=
  (s.hardFail ++ (s.uncorr.filter (·.1 == 1)).map (·.2)).map (fun k => (k, !s.uncorr.contains (1, k)))

/-- An index with its header in the current version, for the merge engine. -/
def engineHead (s : State) (obj : Nat) : Option (Cmd × Obj × Head) :=
  let c0 := engineCmd s obj
  match objEntry s ⟨64, 0⟩ obj with
  | .error _ => none
  | .ok o =>
    let c := { c0 with unit := homeOf s c0, settled := settledNow s }
    if o.kind != 3 && o.kind != 4 then none else
    match readHead s c o with
    | .ok h => some (c, o, h)
    | .error _ => none

/-- The merge engine starts itself with M = LT (R294, R295). A fault on its way leaves it not started (log entry 85). -/
def selfMerge (obj : Nat) (s : State) : State :=
  match engineHead s obj with
  | none => s
  | some (c, o, h) =>
    let m := ltOf s h.log
    if (s.index obj).merging.isSome || m ≤ h.merged then s else
    match startMerge c o h m none s with
    | .ok s' => s'
    | .error (some _) => s
    | .error none => record s (448 + c.unit) (storeFault 7) false false 0 0 c.part none [.ofNat 64 (2 ^ 32 + c.unit * 2 ^ 36), .ofNat 64 obj]

/-! ## Updates -/

/-- `append` and `remove` (R294): the entries are stamped and written in input order; with no space a merge starts and the
command waits. -/
def runAppend (id : Nat) (n kind : Nat) (s : State) : State :=
  match s.cmds.find id with
  | none => s
  | some c0 =>
    let c := { c0 with version := (s.index c0.obj).version }
    if appendAhead s c0 then s.updCmd id (fun c => { c with st := .queued }) else
    match flashObj s c.portOf c.req [3, 4] c.obj with
    | .error e => storeStop id c e s
    | .ok o => match readHead s c o with
      | .error e => storeStop id c e s
      | .ok h => match flashObj s c.portOf c.req [6] h.log with
        | .error e => storeStop id c e s
        | .ok lo => match readRecs s c h kind (List.range n) with
          | .error e => storeStop id c e s
          | .ok recs =>
            let size := entryBytesOf h kind
            let cap := 16384 * (lo.tiles - 1)
            let l := s.log h.log
            let (places, tail) := placeEntries size n l.tail
            if recs.any (fun r => r.1 = 2 ^ 64 - 1) then storeStop id c (.fault (storeFault 5) { obj := o.domain s }) s
            else if (placeEntries size n 0).2 > cap then storeStop id c (.fault (storeFault 4) { obj := o.domain s }) s
            else match places.findSome? (fun a => match pageOf s c lo (1 + a / 16384 % (lo.tiles - 1)) with
                | .error e => some e
                | .ok _ => none) with
            | some e => storeStop id c e s
            | none =>
            if logUsed l h.merged tail > cap then selfMerge c.obj (s.updCmd id (fun c => { c with st := .queued }))
            else match storeBegin id c 32 s with
              | .error e => storeStop id c e s
              | .ok s1 =>
                let first := max s1.now (l.prev + 1)
                let new := (List.zip recs places).zipIdx.map (fun x => (⟨x.1.1.1, first + x.2, kind, x.1.1.2, false, x.1.2⟩ : LogEntry))
                let s2 := { s1 with
                  indexes := s1.indexes.upd {} c.obj (fun x => x)
                  logs := s1.logs.upd {} h.log (fun l => { l with entries := l.entries ++ new, prev := first + n - 1, tail := tail }) }
                (storeMoved id (plainStatus c first (first + n - 1)) false s2).updCmd id
                  (fun c => { c with first := first, last := first + n - 1, snap := h.log })

/-- `merge` (R295): one merge of an index at a time; one that has nothing to do completes at once. A fault met as it starts leaves no bytes
pending (R284). -/
def runMerge (id : Nat) (m0 : Nat) (s : State) : State :=
  match s.cmds.find id with
  | none => s
  | some c0 =>
    let c := { c0 with version := (s.index c0.obj).version }
    match flashObj s c.portOf c.req [3, 4] c.obj with
    | .error e => storeStop id c e s
    | .ok o => match readHead s c o with
      | .error e => storeStop id c e s
      | .ok h =>
        let lt := ltOf s h.log
        let m := if m0 = 0 then lt else min m0 lt
        if h.merged < m && (s.index c.obj).merging.isSome then s.updCmd id (fun c => { c with st := .queued }) else
        match storeBegin id c 32 s with
        | .error e => storeStop id c e s
        | .ok s1 =>
          if m ≤ h.merged then storeMoved id (plainStatus c m h.merged) false s1 else
          match startMerge c o h m (some id) s1 with
          | .ok s2 => s2.updCmd id (fun c => { c with st := .running })
          | .error (some e) => storeStop id c e s
          | .error none => storeMoved id (plainStatus c m h.merged) false (cmdRecord s1 c (storeFault 7) false 0 {})

/-- `stamp` (R298): both stamps of one instant. -/
def runStamp (id : Nat) (s : State) : State :=
  match s.cmds.find id with
  | none => s
  | some c0 =>
    let c := { c0 with version := (s.index c0.obj).version }
    match flashObj s c.portOf c.req [3, 4] c.obj with
    | .error e => storeStop id c e s
    | .ok o => match readHead s c o with
      | .error e => storeStop id c e s
      | .ok h => match storeBegin id c 32 s with
        | .error e => storeStop id c e s
        | .ok s1 =>
          let (lt, s2) := reportLt s1 h.log
          storeMoved id (plainStatus c s2.now lt) false s2

/-! ## Starts -/

/-- Run the storage command of a number. -/
def runStore (i : Instr) (id : Nat) (s : State) : State :=
  match i with
  | .srchg _ f => runSearch id 3 (f.k.toNat + 1) (fun _ _ _ _ => .ok ()) (fun c o h s => runSrchg id c f o h s) s
  | .srchv _ f => runSearch id 4 (f.k.toNat + 1) (fun s c o h => probeCheck s c f o h) (fun c o h s => runSrchv id c f o h s) s
  | .dscan _ f => runDscan id f s
  | .append _ f => runAppend id (f.n.toNat + 1) f.kind.toNat s
  | .remove _ f => runAppend id (f.n.toNat + 1) 2 s
  | .merge _ f => runMerge id f.m.toNat s
  | .stamp _ => runStamp id s
  | .pgrd _ f => runPgrd id f s
  | _ => s

/-- The slices of a storage or key-value command's landing areas and barrier. -/
def Cmd.areas (c : Cmd) : List Nat := [c.bits 69 64, c.bits 133 128, c.bits 161 156] ++ (if c.ben then [(barAt c.bar).1] else [])

/-- The source number of who issued a command (R280, R366). -/
def Cmd.issuerSource (c : Cmd) : Nat := c.core.getD 464

/-- Whether one search comes before another: by acceptance stamp, then by the issuer's source number (R280). -/
def searchBefore (a b : Cmd) : Bool :=
  decide (a.stamp < b.stamp) || (a.stamp == b.stamp && (decide (a.issuerSource < b.issuerSource) ||
    (a.issuerSource == b.issuerSource && decide (a.qseq < b.qseq))))

/-- Whether a search task of the same controller is to be served before this one. -/
def searchAhead (s : State) (c : Cmd) : Bool :=
  c.isTask && s.cmds.any (fun p => p.2.isTask && p.2.unit == c.unit && (p.2.st == .queued || p.2.st == .running) && searchBefore p.2 c)

/-- A command that reads an object keeps the tile table of its first translation (R248). -/
def fixTable (id : Nat) (s : State) : State :=
  match s.cmds.find id with
  | some c => match objEntry s c.portOf c.obj with
    | .ok o => if (c.tables.find o.id).isSome then s else s.updCmd id (fun c => { c with tables := c.tables.put o.id o.ttPtr })
    | .error _ => s
  | none => s

/-- Whether a queued storage command can start: searches in the order of R280, and none while a slice it uses is resized (R55). -/
def canServe (s : State) (c : Cmd) : Bool := c.st = .queued && !searchAhead s c && !c.areas.any (resizingSlice s)

/-- Start the storage command in focus. -/
def startStore (i : Instr) (s : State) : Out :=
  .next (match s.cmds.find s.focus.cmd with
  | some c => if canServe s c then runStore i s.focus.cmd (fixTable s.focus.cmd (s.updCmd s.focus.cmd (fun c => { c with st := .running }))) else s
  | none => s)

/-- `srchg` (R289). -/
def execSrchg (h : SHdr) (c : SrchgF) (s : State) : Out := startStore (.srchg h c) s
/-- `srchv` (R290). -/
def execSrchv (h : SHdr) (c : SrchvF) (s : State) : Out := startStore (.srchv h c) s
/-- `dscan` (R292). -/
def execDscan (h : SHdr) (c : DscanF) (s : State) : Out := startStore (.dscan h c) s
/-- `append` (R294). -/
def execAppend (h : SHdr) (c : AppendF) (s : State) : Out := startStore (.append h c) s
/-- `remove` (R294). -/
def execRemove (h : SHdr) (c : RemoveF) (s : State) : Out := startStore (.remove h c) s
/-- `merge` (R295). -/
def execMerge (h : SHdr) (c : MergeF) (s : State) : Out := startStore (.merge h c) s
/-- `stamp` (R298). -/
def execStamp (h : SHdr) (s : State) : Out := startStore (.stamp h) s
/-- `pgrd` (R293). -/
def execPgrd (h : SHdr) (c : PgrdF) (s : State) : Out := startStore (.pgrd h c) s

/-! ## What happens later -/

/-- Run a command again from where it waits; while a slice that it uses is resized it goes on waiting (R55). -/
def rerunStore (id : Nat) (s : State) : State :=
  match s.cmds.find id with
  | some c => match c.instr with
    | some i => if c.areas.any (resizingSlice s) then s else runStore i id (s.updCmd id (fun c => { c with st := .running }))
    | none => s
  | none => s

/-- A command whose wait is over: a search task stands in its controller's queue in its place (R280, R291), any other runs. -/
def goOn (id : Nat) (s : State) : State :=
  match s.cmds.find id with
  | some c => if c.isTask then s.updCmd id (fun c => { c with st := .queued, wants := none })
    else rerunStore id (s.updCmd id (fun c => { c with wants := none }))
  | none => s

/-- READ_RETRY_DONE (R291): the codeword of a flash page decodes, or is unreadable and a record names its page; the waiting
command goes on. -/
def execReadRetryDone (cmd page codeword : Nat) (readable : Bool) (s : State) : Out :=
  .next (match s.cmds.find cmd with
  | some c =>
    let k := 4 * page + codeword
    let ok := readable && !s.uncorr.contains (1, k)
    if c.st = .waiting ∧ c.port = 1 ∧ c.wants = some k then
      let s1 := s.updCmd cmd (fun c => { c with settled := (k, ok) :: c.settled })
      goOn cmd (if ok then s1 else pageEvent s1 c 0x47 page)
    else s
  | none => s)

/-- SNAPSHOT_READY (R287): LT has reached the snapshot of a waiting search. -/
def execSnapshotReady (cmd : Nat) (s : State) : Out :=
  .next (match s.cmds.find cmd with
  | some c => if c.st = .waiting ∧ c.isSearch ∧ c.wants = none then goOn cmd s else s
  | none => s)

/-- The bytes of a log entry (R285). -/
def logEntryBytes (e : LogEntry) : List Byte :=
  bytesOfNat 8 e.label ++ bytesOfNat 8 e.stamp ++ bytesOfNat 16 e.kind ++ e.vec ++ List.replicate ((16 - e.vec.length % 16) % 16) 0

/-- LOG_DURABLE (R286): entries of a log up to a stamp are durable, in its flash pages, and LT advances. -/
def execLogDurable (obj stamp : Nat) (s : State) : Out :=
  let l : Log := s.log obj
  let due : List LogEntry := l.entries.filter (fun e => !e.durable && decide (e.stamp ≤ stamp))
  let s1 := match objEntry s ⟨64, 0⟩ obj with
    | .error _ => s
    | .ok o => due.foldl (fun (s : State) (e : LogEntry) => match tileRaw s ⟨64, 0⟩ o o.ttPtr (1 + e.place / 16384 % (max 1 (o.tiles - 1))) with
      | .ok t => if t.present && t.tier = Tier.flash then (match flashWrite s obj o.colour (t.addr + e.place % 16384) (logEntryBytes e) with
          | .ok s' => s'
          | .error _ => s) else s
      | .error _ => s) s
  let s2 := { s1 with logs := s1.logs.put obj { l with entries := l.entries.map (fun (e : LogEntry) => if e.stamp ≤ stamp then { e with durable := true } else e) } }
  .next (reportLt s2 obj).2

/-- MERGE_AUTOSTART (R295): the unmerged log bytes have reached MTHRESH. -/
def execMergeAutostart (obj : Nat) (s : State) : Out :=
  .next (match engineHead s obj with
  | some (_, _, h) =>
    let l := s.log h.log
    if h.mthresh ≠ 0 ∧ h.mthresh ≤ ((entriesIn l h.merged (2 ^ 64)).map (fun e => entryBytesOf h e.kind)).sum then selfMerge obj s else s
  | none => s)

/-- Versions that searches still read. -/
def versionsRead (s : State) (obj : Nat) : List Nat :=
  (s.cmds.filter (fun p => p.2.isSearch && p.2.obj == obj && p.2.st != .buffered && p.2.st != .moved && p.2.st != .held)).map (fun p => p.2.version)

/-- MERGE_PUBLISH (R296, R297; a codeword that was unreadable stays so, log entry 85): every shadow page and MERGED at one instant; the pages replaced stay for the searches of the
version before; log space is freed. A merge does not publish while a search reads an older version than the current one. -/
def execMergePublish (obj : Nat) (s : State) : Out :=
  let x := s.index obj
  match x.merging with
  | none => .next s
  | some (m, cmd) =>
    if (versionsRead s obj).any (fun v => decide (v < x.version)) then .next s else
    let old := x.shadow.map (fun q => (q.1, flashBytes s obj (q.1 * 16384) 16384))
    let (c, log) := match engineHead s obj with
      | some (c, _, h) => (c, h.log)
      | none => (engineCmd s obj, 0)
    let colour := match objEntry s ⟨64, 0⟩ obj with
      | .ok o => o.colour
      | .error _ => 0
    let s1 := x.shadow.foldl (fun s q => match flashWrite s obj colour (q.1 * 16384) q.2 with
      | .ok s' => s'
      | .error _ => s) s
    let keepOld := (versionsRead s obj).any (fun v => v = x.version)
    let s2 := { s1 with
      uncorr := s.uncorr
      indexes := s1.indexes.put obj ⟨x.version + 1, if keepOld then [(x.version, old)] else [], none, []⟩
      logs := s1.logs.upd {} log (fun l => { l with entries := if keepOld then l.entries else l.entries.filter (fun e => decide (m < e.stamp)) }) }
    .next (match cmd with
    | some id => storeMoved id (plainStatus ((s2.cmds.find id).getD c) m m) false s2
    | none => s2)

/-! ## Completion (R281, R282) -/

/-- Whether a command's own condition for completion holds: an update waits for LT (R294). -/
def storeReady (s : State) (c : Cmd) : Bool := !(c.op = 0xF3 || c.op = 0xF4) || decide (c.last ≤ ltOf s c.snap)

/-- STORE_COMMAND_COMPLETE (R281): the status record is written, a partial completion leaves its record, HEN and BEN follow. -/
def execStoreCommandComplete (cmd : Nat) (s : State) : Out :=
  .next (match s.cmds.find cmd with
  | some c =>
    if c.st = .moved ∧ c.port = 1 ∧ storeReady s c ∧ !c.areas.any (resizingSlice s) then
      let s0 := if c.op = 0xF3 ∨ c.op = 0xF4 then (reportLt s c.snap).2 else s
      let (sl, off) := landAddr (c.bits 183 156)
      match cmdLandPut s0 c sl off c.status with
      | .error f => endOnFault s0 cmd f {}
      | .ok s1 =>
        let s2 := barWrote s1 c 32
        let s3 := if c.partialDone then
            storeEvent s2 c 0x4C (natOfBytes (c.status.take 8) / 2 ^ 8 % 4)
              [c.ticketWord 0, .ofNat 64 c.obj, .ofNat 64 (natOfBytes ((c.status.drop 8).take 8)), .ofNat 64 (natOfBytes (c.status.take 8))]
          else s2
        completeCmd s3 cmd
    else s
  | none => s)

end Sys2Proof.Machine
end

