-- ==== Sys2Proof/Machine/Kv.lean ====
section
/-!
DEFINITION. The key-value engine (spec 21 R299 to R321): the space and its tables, blocks and pages, the seven commands at their
effect points, quarantine, rotation of keys, status records and completion.
-/
namespace Sys2Proof.Machine

/-- A KV fault of R320. -/
def kvFault (sub : Nat) : HwFault := { code := 0x0A, sub := sub }

/-- What keeps a key-value command from its effect: a fault and where it was met. -/
abbrev KRes (α : Type) := Except (HwFault × Where) α

/-! ## The space (R299, R300) -/

/-- A key-value space as its descriptor gives it. -/
structure KvSpace where
  o : Obj
  layers : Nat
  kvh : Nat
  d : Nat
  kf : Nat
  rotp : Nat
  strict : Bool
  nseq : Nat
  nblk : Nat
  lmax : Nat
  t1 : Nat
  t2 : Nat
  seqt : Nat
  freq : Nat
  head : Nat
  count : Nat
deriving DecidableEq, Repr

/-- The end of the free list. -/
def noBlock : Nat := 0xFFFFFFFF

/-- The tile of a byte of a one-dimensional UINT8 object. -/
def kvTile (o : Obj) (off : Nat) : Nat := off / 2 ^ o.tshape.getD 0 0

/-- The pieces of a byte range, tile by tile: tile, offset within it, length. -/
def kvPieces (o : Obj) (off n : Nat) : List (Nat × Nat × Nat) :=
  let sz := 2 ^ o.tshape.getD 0 0
  (unitsOf sz off n).map (fun t =>
    let lo := max off (t * sz)
    (t, lo - t * sz, min (off + n) ((t + 1) * sz) - lo))

/-- Read bytes of the space object through device memory ports. -/
def kvRead (s : State) (p : Port) (o : Obj) (off n : Nat) : KRes (List Byte) :=
  if off + n > o.ext.getD 0 0 then .error (accessFault 4, { obj := o.domain s, tile := kvTile o off }) else
  (kvPieces o off n).foldl (fun (r : KRes (List Byte)) x => match r with
    | .error e => .error e
    | .ok b =>
      let w : Where := { obj := o.domain s, tile := x.1 }
      match tileFor s p .read o o.ttPtr x.1 with
      | .error f => .error (f, w)
      | .ok t => match tierRead s o t.tier (t.addr + x.2.1) x.2.2 none with
        | .error f => .error (f, w)
        | .ok (_, true, _) => .error (accessFault 7, w)
        | .ok (b', false, _) => .ok (b ++ b')) (.ok [])

/-- Write bytes of the space object through device memory ports. -/
def kvWrite (p : Port) (r : Req) (o : Obj) (off : Nat) (b : List Byte) (s : State) : KRes State :=
  let permitted := o.permits (if o.peerAt.isSome then .peer else r) .write
  if !permitted then .error (accessFault 2, { obj := o.domain s, tile := kvTile o off })
  else if off + b.length > o.ext.getD 0 0 then .error (accessFault 4, { obj := o.domain s, tile := kvTile o off }) else
  (kvPieces o off b.length).foldl (fun (r : KRes State) x => match r with
    | .error e => .error e
    | .ok s' =>
      let w : Where := { obj := o.domain s, tile := x.1 }
      match tileFor s' p .write o o.ttPtr x.1 with
      | .error f => .error (f, w)
      | .ok t => match tierWrite s' o t.tier (bytesAt (t.addr + x.2.1) ((b.drop (x.1 * 2 ^ o.tshape.getD 0 0 + x.2.1 - off)).take x.2.2)) none {} with
        | .error f => .error (f, w)
        | .ok s'' => .ok s'') (.ok s)

/-- A number read from the space. -/
def kvNat (s : State) (p : Port) (o : Obj) (off n : Nat) : KRes Nat := (kvRead s p o off n).map natOfBytes

/-- Whether a descriptor breaks R299: a reserved field or code is set, or an area runs beyond EXT. -/
def kvDescBad (o : Obj) (d : List Byte) : Bool :=
  let w := fun k => natOfBytes ((d.drop (8 * k)).take 8)
  let layers := bitsOf (w 0) 6 0 + 1
  let kvh := bitsOf (w 0) 13 7 + 1
  let nseq := bitsOf (w 0) 34 19 + 1
  let hd := if bitsOf (w 0) 14 14 = 1 then 256 else 128
  let nblk := bitsOf (w 1) 31 0
  let lmax := bitsOf (w 1) 47 32
  let area := fun k n => bitsOf (w k) 39 0 % 64 != 0 || decide (bitsOf (w k) 39 0 + n > o.ext.getD 0 0)
  bitsOf (w 0) 63 35 != 0 || bitsOf (w 0) 16 15 == 3 || bitsOf (w 1) 63 48 != 0 || nblk == 0 || lmax == 0
    || [2, 3, 4, 5].any (fun k => bitsOf (w k) 63 40 != 0) || w 7 != 0
    || area 2 (16 * nseq * layers * kvh * lmax) || area 3 (16 * nblk) || area 4 (32 * nseq) || area 5 (2 * hd)

/-- The space of a checked descriptor. -/
def parseSpace (o : Obj) (d : List Byte) : KvSpace :=
  let w := fun k => natOfBytes ((d.drop (8 * k)).take 8)
  { o := o, layers := bitsOf (w 0) 6 0 + 1, kvh := bitsOf (w 0) 13 7 + 1, d := if bitsOf (w 0) 14 14 = 1 then 256 else 128,
    kf := bitsOf (w 0) 16 15, rotp := bitsOf (w 0) 17 17, strict := bitsOf (w 0) 18 18 = 1, nseq := bitsOf (w 0) 34 19 + 1,
    nblk := bitsOf (w 1) 31 0, lmax := bitsOf (w 1) 47 32, t1 := bitsOf (w 2) 39 0, t2 := bitsOf (w 3) 39 0,
    seqt := bitsOf (w 4) 39 0, freq := bitsOf (w 5) 39 0, head := bitsOf (w 6) 31 0, count := bitsOf (w 6) 63 32 }

/-- Whether the object itself breaks R299: its kind, shape, format and home, and a tile on another tier. -/
def kvObjBad (s : State) (p : Port) (o : Obj) : Bool :=
  o.kind != 5 || o.ndim != 1 || o.fmt != .ui8 || o.home != 0 || decide (o.ext.getD 0 0 < 64)
    || (o.peerAt.isNone && (List.range o.tiles).any (fun t => match tileRaw s p o o.ttPtr t with
        | .ok x => x.present && x.tier != Tier.lpddr
        | .error _ => false))

/-- The frequency table: θ_k as FP32 values (R300). -/
def kvThetas (s : State) (p : Port) (sp : KvSpace) : KRes (List Val) :=
  (kvRead s p sp.o sp.freq (2 * sp.d)).map (fun b =>
    (List.range (sp.d / 2)).map (fun k => fp32.decode (natOfBytes ((b.drop (4 * k)).take 4))))

/-- Open a space and check its descriptor (R299), through the tile table that its reader has fixed (R248). -/
def openSpace (s : State) (p : Port) (r : Req) (tables : SMap Nat) (dev id : Nat) : KRes KvSpace :=
  let own := dev = fieldOf (s.reg 0xE30) 9 0
  let w : Where := { obj := dev * 2 ^ 24 + id }
  match (if own then objEntry s p id else objPeer s .read dev id) with
  | .error f => .error (f, w)
  | .ok o0 =>
    let o := { o0 with ttPtr := if own then tableOf tables o0 else o0.ttPtr }
    if kvObjBad s p o then .error (kvFault 1, w)
    else if own && !o.permits r .read then .error (accessFault 2, w)
    else match kvRead s p o 0 64 with
      | .error e => .error e
      | .ok d =>
        if kvDescBad o d then .error (kvFault 1, w) else
        let sp := parseSpace o d
        match kvThetas s p sp with
        | .error e => .error e
        | .ok th => if th.all Val.isFin then .ok sp else .error (kvFault 1, w)

/-- A KV fault of a space. -/
def KvSpace.fault (sp : KvSpace) (s : State) (sub : Nat) : HwFault × Where := (kvFault sub, { obj := sp.o.domain s })

/-- Pages of a block (R301). -/
def KvSpace.np (sp : KvSpace) : Nat := sp.d * (if sp.kf = 2 then 2 else 1) / 128

/-- The layers and heads, layers outside. -/
def KvSpace.tables (sp : KvSpace) : List (Nat × Nat) := (List.range sp.layers).flatMap (fun l => (List.range sp.kvh).map (fun h => (l, h)))

/-- The offset of a first-stage entry (R300). -/
def KvSpace.at1 (sp : KvSpace) (q l h i : Nat) : Nat := sp.t1 + 16 * (((q * sp.layers + l) * sp.kvh + h) * sp.lmax + i)

/-! ## Entries (R303 to R305) -/

/-- A sequence state. -/
structure SeqState where
  next : Nat
  count : Nat
  high : Nat
deriving DecidableEq, Repr

/-- A first-stage entry. -/
structure Ent1 where
  st : Nat
  tier : Nat
  span : Nat
  ro : Bool
  dev : Nat
  ntok : Nat
  g : Nat
  pos : Nat
deriving DecidableEq, Repr

/-- A second-stage entry; `bad` marks a reserved code. -/
structure Ent2 where
  st : Nat
  tier : Nat
  span : Nat
  maps : Nat
  addr : Nat
  spos : Nat
  next : Nat
  bad : Bool
deriving DecidableEq, Repr

/-- The fields of a first-stage entry. -/
def parseEnt1 (v : Nat) : Ent1 :=
  ⟨bitsOf v 1 0, bitsOf v 3 2, bitsOf v 6 4, bitsOf v 7 7 = 1, bitsOf v 17 8, bitsOf v 24 18, bitsOf v 63 32, bitsOf v 95 64⟩

/-- A first-stage entry as a number. -/
def Ent1.num (e : Ent1) : Nat :=
  e.st + e.tier * 2 ^ 2 + e.span * 2 ^ 4 + (if e.ro then 2 ^ 7 else 0) + e.dev * 2 ^ 8 + e.ntok * 2 ^ 18 + e.g * 2 ^ 32 + e.pos * 2 ^ 64

/-- The fields of a second-stage entry. -/
def parseEnt2 (v : Nat) : Ent2 :=
  ⟨bitsOf v 1 0, bitsOf v 3 2, bitsOf v 6 4, bitsOf v 23 8, bitsOf v 63 24, bitsOf v 95 64, bitsOf v 127 96,
    bitsOf v 1 0 == 3 || bitsOf v 3 2 == 3 || bitsOf v 7 7 == 1⟩

/-- A second-stage entry as a number. -/
def Ent2.num (e : Ent2) : Nat :=
  e.st + e.tier * 2 ^ 2 + e.span * 2 ^ 4 + e.maps * 2 ^ 8 + e.addr * 2 ^ 24 + e.spos * 2 ^ 64 + e.next * 2 ^ 96

/-- A vacated slot (R304). -/
def retiredEnt : Ent1 := ⟨3, 0, 0, false, 0, 0, 0, 0⟩
/-- A slot cleared by `kvfree` (R311). -/
def emptyEnt : Ent1 := ⟨0, 0, 0, false, 0, 0, 0, 0⟩

/-- Whether an entry names a block. -/
def Ent1.live (e : Ent1) : Bool := e.st = 1 || e.st = 2

/-- What a command works with: its port, its requester, the module's device number. -/
structure KCtx where
  p : Port
  r : Req
  dev : Nat
deriving DecidableEq, Repr

/-- The context of a command. -/
def Cmd.kctx (s : State) (c : Cmd) : KCtx := ⟨c.portOf, c.req, fieldOf (s.reg 0xE30) 9 0⟩

/-- Read a sequence state. -/
def getSeq (s : State) (k : KCtx) (sp : KvSpace) (q : Nat) : KRes SeqState :=
  (kvNat s k.p sp.o (sp.seqt + 32 * q) 32).map (fun v => ⟨bitsOf v 31 0, bitsOf v 47 32, bitsOf v 95 64⟩)

/-- Write a sequence state. -/
def putSeq (k : KCtx) (sp : KvSpace) (q : Nat) (x : SeqState) (s : State) : KRes State :=
  kvWrite k.p k.r sp.o (sp.seqt + 32 * q) (bytesOfNat 32 (x.next + x.count * 2 ^ 32 + x.high * 2 ^ 64)) s

/-- Read a first-stage entry. -/
def getEnt1 (s : State) (k : KCtx) (sp : KvSpace) (q l h i : Nat) : KRes Ent1 :=
  (kvNat s k.p sp.o (sp.at1 q l h i) 16).map parseEnt1

/-- Write a first-stage entry. -/
def putEnt1 (k : KCtx) (sp : KvSpace) (q l h i : Nat) (e : Ent1) (s : State) : KRes State :=
  kvWrite k.p k.r sp.o (sp.at1 q l h i) (bytesOfNat 16 e.num) s

/-- The entries of slots 0 to COUNT − 1 of a table. -/
def tableEnts (s : State) (k : KCtx) (sp : KvSpace) (q l h : Nat) : Nat → KRes (List Ent1)
  | 0 => .ok []
  | n + 1 => match tableEnts s k sp q l h n with
    | .error e => .error e
    | .ok es => (getEnt1 s k sp q l h n).map (fun e => es ++ [e])

/-- Read a second-stage entry: a reserved code is KV BLOCK (R305), and so is a number at or above NBLK. -/
def getBlk (s : State) (k : KCtx) (sp : KvSpace) (g : Nat) : KRes Ent2 :=
  if g ≥ sp.nblk then .error (sp.fault s 0xA) else
  match kvNat s k.p sp.o (sp.t2 + 16 * g) 16 with
  | .error e => .error e
  | .ok v => let b := parseEnt2 v; if b.bad then .error (sp.fault s 0xA) else .ok b

/-- Write a second-stage entry. -/
def putBlk (k : KCtx) (sp : KvSpace) (g : Nat) (b : Ent2) (s : State) : KRes State :=
  kvWrite k.p k.r sp.o (sp.t2 + 16 * g) (bytesOfNat 16 b.num) s

/-- The space that resolves a block of a device (R300). -/
def spaceOf (s : State) (k : KCtx) (sp : KvSpace) (dev : Nat) : KRes KvSpace :=
  if dev = k.dev then .ok sp else openSpace s k.p k.r [] dev sp.o.id

/-- Write the free list's head and count. -/
def putFree (k : KCtx) (sp : KvSpace) (s : State) : KRes State :=
  kvWrite k.p k.r sp.o 48 (bytesOfNat 8 (sp.head + sp.count * 2 ^ 32)) s

/-- A fold that stops at the first fault. -/
def foldK {α σ : Type} (f : σ → α → KRes σ) : List α → σ → KRes σ
  | [], x => .ok x
  | a :: as, x => match f x a with
    | .error e => .error e
    | .ok y => foldK f as y

/-! ## The results of a command -/

/-- What a command leaves: STATUS, AUX, NQ, its sequence, and the bytes it writes at OUT. -/
structure KDone where
  status : Nat := 0
  aux : Nat := 0
  nq : Nat := 0
  seq : Nat := 0
  out : List Byte := []
deriving DecidableEq, Repr

/-- The landing bytes at IN. -/
def kvIn (s : State) (c : Cmd) (n : Nat) : KRes (List Byte) :=
  let (sl, off) := landAddr (c.bits 91 64)
  match cmdLandGet s c sl off n with
  | .error f => .error (f, {})
  | .ok b => .ok b

/-- The list of sequences of `kvalloc` and `kvfree` (R310). -/
def kvList (s : State) (c : Cmd) (sp : KvSpace) (n : Nat) : KRes (List Nat) :=
  match kvIn s c (4 * n) with
  | .error e => .error e
  | .ok b =>
    let l := (List.range n).map (fun i => natOfBytes ((b.drop (4 * i)).take 4))
    if l.any (fun q => decide (sp.nseq ≤ q)) then .error (sp.fault s 0)
    else if l.eraseDups.length != n then .error (sp.fault s 2) else .ok l

/-! ## `kvalloc` and `kvfree` (R310, R311) -/

/-- The first `n` blocks of the free list and the head after them. -/
def popFree (s : State) (k : KCtx) (sp : KvSpace) : Nat → Nat → KRes (List (Nat × Ent2) × Nat)
  | 0, g => .ok ([], g)
  | n + 1, g => match getBlk s k sp g with
    | .error e => .error e
    | .ok b =>
      if b.st != 0 then .error (sp.fault s 0xA) else
      match popFree s k sp n b.next with
      | .error e => .error e
      | .ok (l, g') => .ok ((g, b) :: l, g')

/-- Give a sequence one block in every table. -/
def allocSeq (k : KCtx) (sp : KvSpace) (span q : Nat) (blocks : List (Nat × Ent2)) (s : State) : KRes State :=
  match getSeq s k sp q with
  | .error e => .error e
  | .ok x =>
    match foldK (fun s (y : (Nat × Nat) × (Nat × Ent2)) =>
        match putBlk k sp y.2.1 ⟨1, y.2.2.tier, 0, 0, y.2.2.addr, x.next, 0, false⟩ s with
        | .error e => .error e
        | .ok s' => putEnt1 k sp q y.1.1 y.1.2 x.count ⟨1, y.2.2.tier, span, false, k.dev, 0, y.2.1, x.next⟩ s')
        (List.zip sp.tables blocks) s with
    | .error e => .error e
    | .ok s' => putSeq k sp q { x with count := x.count + 1 } s'

/-- `kvalloc`. -/
def kvAlloc (c : Cmd) (sp : KvSpace) (n span : Nat) (s : State) : KRes (KDone × State) :=
  let k := c.kctx s
  match kvList s c sp n with
  | .error e => .error e
  | .ok l =>
    match foldK (fun (_ : Unit) q => match getSeq s k sp q with
        | .error e => .error e
        | .ok x => if x.count ≥ sp.lmax then .error (sp.fault s 3) else if x.next > 2 ^ 32 - 65 then .error (sp.fault s 8) else .ok ()) l () with
    | .error e => .error e
    | .ok _ =>
      let per := sp.layers * sp.kvh
      let b := n * per
      let last := l.getLastD 0
      if sp.count < b then .ok ({ status := 1, aux := b - sp.count, seq := last }, s) else
      match popFree s k sp b sp.head with
      | .error e => .error e
      | .ok (blocks, head) =>
        match foldK (fun s (x : Nat × Nat) => allocSeq k sp span x.1 ((blocks.drop (x.2 * per)).take per) s) l.zipIdx s with
        | .error e => .error e
        | .ok s1 => match putFree k { sp with head := head, count := sp.count - b } s1 with
          | .error e => .error e
          | .ok s2 => .ok ({ aux := b, seq := last }, s2)

/-- Let go of the block of an entry (R311, R314): an OWNED block goes to the free list, a SHARED block's MAPS falls by 1. The
space carries the free list. -/
def releaseBlk (k : KCtx) (x : KvSpace × Nat × State) (e : Ent1) : KRes (KvSpace × Nat × State) :=
  let (sp, n, s) := x
  if !e.live then .ok x else
  match spaceOf s k sp e.dev with
  | .error f => .error f
  | .ok sp' => match getBlk s k sp' e.g with
    | .error f => .error f
    | .ok b =>
      if b.st = 1 then
        match putBlk k sp' e.g { b with st := 0, span := 0, maps := 0, next := sp.head } s with
        | .error f => .error f
        | .ok s' => .ok ({ sp with head := e.g, count := sp.count + 1 }, n + 1, s')
      else if b.st = 2 then
        match putBlk k sp' e.g { b with maps := b.maps - 1 } s with
        | .error f => .error f
        | .ok s' => .ok (sp, n, s')
      else .ok x

/-- Clear one sequence (R311). -/
def freeSeq (k : KCtx) (x : KvSpace × Nat × State) (q : Nat) : KRes (KvSpace × Nat × State) :=
  match getSeq x.2.2 k x.1 q with
  | .error e => .error e
  | .ok sq =>
    match foldK (fun (y : KvSpace × Nat × State) (t : Nat × Nat) =>
        foldK (fun (y : KvSpace × Nat × State) i => match getEnt1 y.2.2 k y.1 q t.1 t.2 i with
          | .error e => .error e
          | .ok e => match releaseBlk k y e with
            | .error f => .error f
            | .ok z => (putEnt1 k z.1 q t.1 t.2 i emptyEnt z.2.2).map (fun s' => (z.1, z.2.1, s'))) (List.range sq.count) y) x.1.tables x with
    | .error e => .error e
    | .ok y => (putSeq k y.1 q ⟨0, 0, 0⟩ y.2.2).map (fun s' => (y.1, y.2.1, s'))

/-- `kvfree`. -/
def kvFree (c : Cmd) (sp : KvSpace) (n : Nat) (s : State) : KRes (KDone × State) :=
  let k := c.kctx s
  match kvList s c sp n with
  | .error e => .error e
  | .ok l => match foldK (freeSeq k) l (sp, 0, s) with
    | .error e => .error e
    | .ok (sp', m, s1) => (putFree k sp' s1).map (fun s2 => ({ aux := m, seq := l.getLastD 0 }, s2))

/-! ## Pages (R301, R305) -/

/-- Where the pages of a block lie: the tier, the address of page 0, the device of another module. A landing block lies within
one slice. -/
def blkPlace (s : State) (sp : KvSpace) (k : KCtx) (dev : Nat) (b : Ent2) : KRes (Tier × Nat) :=
  let a := b.addr * 16384
  if b.tier = 2 ∧ a % 2 ^ 22 + 16384 * sp.np > 2 ^ 22 then .error (sp.fault s 0xA)
  else if dev ≠ k.dev then .ok (.peer, 2 ^ 80 + dev * 2 ^ 64 + b.tier * 2 ^ 60 + a)
  else .ok (if b.tier = 0 then .lpddr else if b.tier = 1 then .flash else .landing, a)

/-- Read page bytes; the flag tells an uncorrectable unit (R54). -/
def pageGet (s : State) (sp : KvSpace) (t : Tier) (a n : Nat) : KRes (List Byte × Bool) :=
  match tierRead s sp.o t a n none with
  | .error f => .error (f, { obj := sp.o.domain s })
  | .ok (b, bad, _) => .ok (b, bad)

/-- Write page bytes. -/
def pagePut (sp : KvSpace) (t : Tier) (a : Nat) (b : List Byte) (s : State) : KRes State :=
  let r : Except HwFault State := match t with
    | .lpddr => lpWrite s a b sp.o.colour
    | .flash => flashWrite s sp.o.id sp.o.colour a b
    | .landing => landPut s (a / 2 ^ 22) (a % 2 ^ 22) b
    | _ => .ok { s with peer := s.peer.setBytes a b }
  match r with
  | .error f => .error (f, { obj := sp.o.domain s })
  | .ok s' => .ok s'

/-! ## `kvapp` (R312) -/

/-- Where the tokens of one head go: the entry, the first token and the place of its block. -/
def appHead (s : State) (k : KCtx) (sp : KvSpace) (q layer n : Nat) (x : SeqState) (h : Nat) : KRes (Ent1 × Nat × Tier × Nat) :=
  if x.count = 0 then .error (sp.fault s 4) else
  match getEnt1 s k sp q layer h (x.count - 1) with
  | .error e => .error e
  | .ok e =>
    if e.st ≠ 1 ∨ e.ro ∨ x.next < e.pos ∨ x.next - e.pos + n > 64 then .error (sp.fault s 4) else
    match spaceOf s k sp e.dev with
    | .error f => .error f
    | .ok sp' => match getBlk s k sp' e.g with
      | .error f => .error f
      | .ok b => (blkPlace s sp k e.dev b).map (fun p => (e, x.next - e.pos, p.1, p.2))

/-- What a command answers that keeps what it did before a fault. -/
abbrev SRes (α : Type) := Except ((HwFault × Where) × State) α

/-- A fault that leaves a state as it was. -/
def keep {α : Type} (s : State) (r : KRes α) : SRes α :=
  match r with
  | .error e => .error (e, s)
  | .ok x => .ok x

/-- Page writes one after the other; those before a fault stand (R264). -/
def putAll (sp : KvSpace) : List (Tier × Nat × List Byte) → State → SRes State
  | [], s => .ok s
  | (t, a, b) :: l, s => match pagePut sp t a b s with
    | .error e => .error (e, s)
    | .ok s' => putAll sp l s'

/-- The page writes of the tokens of one head: K and V of every page of every token. -/
def appTokens (sp : KvSpace) (n : Nat) (src : List Byte) (dst : Ent1 × Nat × Tier × Nat) : List (Tier × Nat × List Byte) :=
  let np := sp.np
  (List.range n).flatMap (fun t => (List.range np).flatMap (fun j =>
    let row := src.drop (t * 256 * np)
    let a := dst.2.2.2 + 16384 * j + 128 * (dst.2.1 + t)
    [(dst.2.2.1, a, (row.drop (128 * j)).take 128), (dst.2.2.1, a + 8192, (row.drop (128 * np + 128 * j)).take 128)]))

/-- The checks of `kvapp` and what it reads: where each head's tokens go, and its input. -/
def appPlan (c : Cmd) (sp : KvSpace) (q layer n : Nat) (x : SeqState) (s : State) : KRes (List (Ent1 × Nat × Tier × Nat) × List Byte) :=
  match foldK (fun (l : List (Ent1 × Nat × Tier × Nat)) h => (appHead s (c.kctx s) sp q layer n x h).map (fun y => l ++ [y])) (List.range sp.kvh) [] with
  | .error e => .error e
  | .ok heads =>
    if x.next + n > 2 ^ 32 - 1 then .error (sp.fault s 8)
    else (kvIn s c (256 * sp.np * n * sp.kvh)).map (fun src => (heads, src))

/-- The effect point of `kvapp`. -/
def appCommit (k : KCtx) (sp : KvSpace) (q layer n : Nat) (x : SeqState) (commit : Bool) (heads : List (Ent1 × Nat × Tier × Nat)) (s : State) :
    KRes (KDone × State) :=
  match foldK (fun s (y : (Ent1 × Nat × Tier × Nat) × Nat) =>
      putEnt1 k sp q layer y.2 (x.count - 1) { y.1.1 with ntok := y.1.2.1 + n } s) heads.zipIdx s with
  | .error e => .error e
  | .ok s2 =>
    if commit then
      (putSeq k sp q { x with next := x.next + n, high := max x.high (x.next + n) } s2).map (fun s3 => ({ seq := q }, s3))
    else .ok ({ seq := q }, s2)

/-- `kvapp`. -/
def kvApp (c : Cmd) (sp : KvSpace) (q layer n : Nat) (commit : Bool) (s : State) : SRes (KDone × State) :=
  let k := c.kctx s
  if q ≥ sp.nseq then .error (sp.fault s 0, s) else if layer ≥ sp.layers then .error (sp.fault s 9, s) else
  match getSeq s k sp q with
  | .error e => .error (e, s)
  | .ok x => match appPlan c sp q layer n x s with
    | .error e => .error (e, s)
    | .ok (heads, src) => match putAll sp (heads.zipIdx.flatMap (fun y => appTokens sp n (src.drop (y.2 * n * 256 * sp.np)) y.1)) s with
      | .error e => .error e
      | .ok s1 => keep s1 (appCommit k sp q layer n x commit heads s1)

/-! ## `kvmap` (R313) -/

/-- The blocks of the run with their entries, each checked: below NBLK, SHARED, MAPS below 65,535. -/
def mapRun (s : State) (k : KCtx) (sp rp : KvSpace) (g0 nb : Nat) : KRes (List (Nat × Nat × Nat × Nat × Ent2)) :=
  foldK (fun (l : List (Nat × Nat × Nat × Nat × Ent2)) (x : Nat × Nat × Nat) =>
    let g := g0 + (x.1 * sp.layers + x.2.1) * sp.kvh + x.2.2
    if g ≥ rp.nblk then .error (sp.fault s 5) else
    match getBlk s k rp g with
    | .error e => .error e
    | .ok b => if b.st ≠ 2 ∨ b.maps ≥ 65535 then .error (sp.fault s 5) else .ok (l ++ [(x.1, x.2.1, x.2.2, g, b)]))
    ((List.range nb).flatMap (fun j => sp.tables.map (fun t => (j, t.1, t.2)))) []

/-- The space of the device that `kvmap` names; one at or above SIZE is no module (R391). -/
def mapSpace (s : State) (k : KCtx) (sp : KvSpace) (dev : Nat) : KRes KvSpace :=
  if fieldOf (s.reg 0xE30) 19 10 ≤ dev then .error (accessFault 0, { obj := dev * 2 ^ 24 + sp.o.id }) else spaceOf s k sp dev

/-- `kvmap`. -/
def kvMap (c : Cmd) (sp : KvSpace) (q g0 nb toklast dev : Nat) (s : State) : KRes (KDone × State) :=
  let k := c.kctx s
  if q ≥ sp.nseq then .error (sp.fault s 0) else
  match getSeq s k sp q with
  | .error e => .error e
  | .ok x =>
    if x.count + nb > sp.lmax then .error (sp.fault s 3) else
    match mapSpace s k sp dev with
    | .error e => .error e
    | .ok rp =>
    match mapRun s k sp rp g0 nb with
    | .error e => .error e
    | .ok run =>
      if (run.map (fun y => y.2.2.2.2.span)).eraseDups.length > 1 then .error (sp.fault s 5)
      else if x.next + 64 * nb > 2 ^ 32 - 1 then .error (sp.fault s 8) else
      match foldK (fun s (y : Nat × Nat × Nat × Nat × Ent2) =>
          let (j, l, h, g, b) := y
          match putEnt1 k sp q l h (x.count + j)
              ⟨1, if dev = k.dev then b.tier else 3, b.span, true, dev, if j = nb - 1 then toklast else 64, g, x.next + 64 * j⟩ s with
          | .error e => .error e
          | .ok s' => putBlk k rp g { b with maps := b.maps + 1 } s') run s with
      | .error e => .error e
      | .ok s1 =>
        let next := x.next + 64 * (nb - 1) + toklast
        (putSeq k sp q ⟨next, x.count + nb, max x.high next⟩ s1).map (fun s2 => ({ aux := nb, seq := q }, s2))

/-! ## `kvret` (R314) -/

/-- The highest position below NEXTPOS that an entry covers. -/
def coverHigh (x : SeqState) (e : Ent1) : Int :=
  if e.ntok = 0 ∨ x.next ≤ e.pos then -1 else ((min (e.pos + e.ntok) x.next : Nat) : Int) - 1

/-- Move the survivors of one table down and free the blocks of the others. -/
def retireTable (k : KCtx) (q : Nat) (count : Nat) (gone : List Nat) (t : Nat × Nat) (x : KvSpace × Nat × State) : KRes (KvSpace × Nat × State) :=
  match tableEnts x.2.2 k x.1 q t.1 t.2 count with
  | .error e => .error e
  | .ok es =>
    match foldK (releaseBlk k) ((es.zipIdx.filter (fun y => gone.contains y.2)).map (·.1)) x with
    | .error e => .error e
    | .ok y =>
      let keep := (es.zipIdx.filter (fun y => !gone.contains y.2)).map (·.1)
      foldK (fun (y : KvSpace × Nat × State) i => (putEnt1 k y.1 q t.1 t.2 i (keep.getD i retiredEnt) y.2.2).map (fun s' => (y.1, y.2.1, s')))
        (List.range count) y

/-- `kvret`. -/
def kvRet (c : Cmd) (sp : KvSpace) (q tag : Nat) (close : Bool) (s : State) : KRes (KDone × State) :=
  let k := c.kctx s
  if q ≥ sp.nseq then .error (sp.fault s 0) else
  match getSeq s k sp q with
  | .error e => .error e
  | .ok x => match tableEnts s k sp q 0 0 x.count with
    | .error e => .error e
    | .ok es =>
      let gone := (es.zipIdx.filter (fun y => y.1.live && y.1.span == tag)).map (·.2)
      match gone with
      | [] => .ok ({ seq := q }, s)
      | _ :: _ =>
        let a := ((es.zipIdx.filter (fun y => gone.contains y.2)).map (·.1.pos)).foldl min (2 ^ 32)
        let hi := ((es.zipIdx.filter (fun y => !gone.contains y.2 && y.1.live)).map (fun y => coverHigh x y.1)).foldl max (-1)
        if close ∧ hi > (a : Int) then .error (sp.fault s 6) else
        match foldK (fun y t => retireTable k q x.count gone t y) sp.tables (sp, 0, s) with
        | .error e => .error e
        | .ok (sp', _, s1) => match putFree k sp' s1 with
          | .error e => .error e
          | .ok s2 =>
            let next := if close then (hi + 1).toNat else x.high
            (putSeq k sp q ⟨next, x.count - gone.length, x.high⟩ s2).map (fun s3 => ({ aux := gone.length, seq := q }, s3))

/-! ## `kvq` (R318) -/

/-- `kvq`. -/
def kvQuery (c : Cmd) (sp : KvSpace) (q layer head first maxn : Nat) (s : State) : KRes (KDone × State) :=
  let k := c.kctx s
  if q ≥ sp.nseq then .error (sp.fault s 0) else if layer ≥ sp.layers ∨ head ≥ sp.kvh then .error (sp.fault s 9) else
  match getSeq s k sp q with
  | .error e => .error e
  | .ok x =>
    let m := min maxn (x.count - first)
    match foldK (fun (l : List Byte) i => (getEnt1 s k sp q layer head (first + i)).map (fun e => l ++ bytesOfNat 16 e.num)) (List.range m) [] with
    | .error e => .error e
    | .ok b => .ok ({ aux := m, seq := q, out := bytesOfNat 32 (x.next + x.count * 2 ^ 32 + x.high * 2 ^ 64) ++ b }, s)

/-! ## `kvld` (R315 to R317) -/

/-- The float layout of KF. -/
def kvFmt (kf : Nat) : FloatFmt := if kf = 0 then e4m3F else if kf = 1 then e5m2F else bf16F

/-- Bytes of an element. -/
def KvSpace.eb (sp : KvSpace) : Nat := if sp.kf = 2 then 2 else 1

/-- The elements of a head vector. -/
def kvElems (sp : KvSpace) (b : List Byte) : List Nat := (List.range sp.d).map (fun i => natOfBytes ((b.drop (sp.eb * i)).take sp.eb))

/-- Round a rotated element to KF: RNE, finite overflow saturated with its sign (R317). -/
def rotRound (f : FloatFmt) (v : Val) : Nat :=
  match v with
  | .fin n m e => let (a, b) := Val.ratio m e; let c := f.roundMag .rne n a b 0; f.signed n (min c f.maxCode)
  | v => f.conv .rne false 0 v

/-- The cosine and sine of each pair for the difference of positions; `none` where the angle is not finite (R317). -/
def rotAngles (th : List Val) (d : Int) : List (Option (Val × Val)) :=
  th.map (fun t =>
    let phi := rne32 (Val.mul (Val.ofInt d) t)
    if phi.isFin then some (fp32.decode (cosCode phi), fp32.decode (sinCode phi)) else none)

/-- The elements of pair k. -/
def rotPair (sp : KvSpace) (k : Nat) : Nat × Nat := if sp.rotp = 0 then (2 * k, 2 * k + 1) else (k, k + sp.d / 2)

/-- Rotate one key. -/
def rotateKey (sp : KvSpace) (ang : List (Option (Val × Val))) (key : List Nat) : List Nat :=
  let f := kvFmt sp.kf
  ang.zipIdx.foldl (fun (r : List Nat) (a : Option (Val × Val) × Nat) => match a.1 with
    | none => r
    | some (cv, sv) =>
      let (i, j) := rotPair sp a.2
      let x := f.decode (key.getD i 0)
      let y := f.decode (key.getD j 0)
      (r.set i (rotRound f (Val.sub .rne (x.mul cv) (y.mul sv)))).set j (rotRound f (Val.add .rne (x.mul sv) (y.mul cv)))) key

/-- Why a block is condemned: whether by an uncorrectable unit, and the page. -/
abbrev Condemn := Bool × Nat

/-- K and V of the tokens of a block, or what condemns it: an uncorrectable unit, a NaN or infinity, or an angle that is not
finite (R316, R317). -/
def readBlock (s : State) (k : KCtx) (sp : KvSpace) (th : List Val) (e : Ent1) : KRes (Except Condemn (List (List Byte × List Byte))) :=
  match spaceOf s k sp e.dev with
  | .error f => .error f
  | .ok sp' => match getBlk s k sp' e.g with
    | .error f => .error f
    | .ok b => match blkPlace s sp k e.dev b with
      | .error f => .error f
      | .ok (tier, a) =>
        match foldK (fun (l : List (List Byte × List Byte × Bool)) j =>
            match pageGet s sp tier (a + 16384 * j) (128 * e.ntok), pageGet s sp tier (a + 16384 * j + 8192) (128 * e.ntok) with
            | .error f, _ => .error f
            | _, .error f => .error f
            | .ok (kb, kbad), .ok (vb, vbad) => .ok (l ++ [(kb, vb, kbad || vbad)])) (List.range sp.np) [] with
        | .error f => .error f
        | .ok pages =>
          match (pages.zipIdx.find? (fun p => p.1.2.2)) with
          | some p => .ok (.error (true, p.2))
          | none =>
            let vec := fun (sel : List Byte × List Byte × Bool → List Byte) (t : Nat) => pages.flatMap (fun p => ((sel p).drop (128 * t)).take 128)
            let ks := (List.range e.ntok).map (vec (·.1))
            let vs := (List.range e.ntok).map (vec (·.2.1))
            let f := kvFmt sp.kf
            let bad := (ks ++ vs).findSome? (fun v => ((kvElems sp v).zipIdx.find? (fun x => !(f.decode x.1).isFin)).map (fun x => x.2 * sp.eb / 128))
            match bad with
            | some pg => .ok (.error (false, pg))
            | none =>
              let d : Int := (e.pos : Int) - b.spos
              if d = 0 ∨ e.ntok = 0 then .ok (.ok (List.zip ks vs)) else
              let ang := rotAngles th d
              match ang.zipIdx.find? (fun x => x.1.isNone) with
              | some x => .ok (.error (false, (rotPair sp x.2).1 * sp.eb / 128))
              | none => .ok (.ok (List.zip (ks.map (fun v => (rotateKey sp ang (kvElems sp v)).flatMap (bytesOfNat sp.eb))) vs))

/-- The KV_QUARANTINE record (R316, R367). -/
def quarantineRecord (s : State) (c : Cmd) (sp : KvSpace) (q layer head slot : Nat) (e : Ent1) (x : Condemn) : State :=
  storeEvent s c 0x48 (if x.1 then 1 else 0)
    [.ofNat 64 (sp.o.id + q * 2 ^ 24 + layer * 2 ^ 40 + head * 2 ^ 47), .ofNat 64 (slot + x.2 * 2 ^ 16 + e.g * 2 ^ 32), .ofNat 64 e.pos,
     c.ticketWord 0]

/-- A slot becomes QUARANTINED in every table of the sequence that still holds it VALID (R316). -/
def quarantine (k : KCtx) (sp : KvSpace) (q slot : Nat) (s : State) : KRes State :=
  foldK (fun s (t : Nat × Nat) => match getEnt1 s k sp q t.1 t.2 slot with
    | .error e => .error e
    | .ok e => if e.st = 1 then putEnt1 k sp q t.1 t.2 slot { e with st := 2 } s else .ok s) sp.tables s

/-- What `kvld` has gathered: rows below FROM passed, and the rows of its window. -/
structure LdAcc where
  pos : Nat := 0
  rows : List (List Byte × List Byte) := []
deriving DecidableEq, Repr

/-- Results at OUT (R307): what was written there before leaves PENDING once. -/
def kvOut (id : Nat) (c : Cmd) (parts : List (Nat × List Byte)) (s : State) : Except HwFault State :=
  let (sl, o) := landAddr (c.bits 155 128)
  let n := (parts.map (·.2.length)).sum
  let old := ((s.cmds.find id).map (·.bytes)).getD 0
  match parts.foldl (fun (r : Except HwFault State) p => match r with
    | .error f => .error f
    | .ok s' => cmdLandPut s' c sl (o + p.1) p.2) (.ok s) with
  | .error f => .error f
  | .ok s' => .ok (barWrote (s'.updCmd id (fun c => { c with bytes := n })) c (n - old))

/-- The rows gathered before a fault stand at their places (R264, R320). -/
def ldKeep (id : Nat) (c : Cmd) (sp : KvSpace) (n : Nat) (rows : List (List Byte × List Byte)) (s : State) : State :=
  match kvOut id c [(0, (rows.map (·.1)).flatten), (128 * sp.np * n, (rows.map (·.2)).flatten)] s with
  | .ok s' => s'
  | .error _ => s

/-- Go through the VALID entries in slot order: only blocks with rows in the window are read. Under STRICT the first condemned
block ends the command: its record is written and no table changes. The command counts the blocks it quarantines. -/
def ldEntries (id : Nat) (c : Cmd) (k : KCtx) (sp : KvSpace) (th : List Val) (q layer head from0 n : Nat) :
    List (Ent1 × Nat) → LdAcc → State → SRes (LdAcc × State)
  | [], a, s => .ok (a, s)
  | (e, slot) :: es, a, s =>
    if a.pos + e.ntok ≤ from0 ∨ from0 + n ≤ a.pos then ldEntries id c k sp th q layer head from0 n es { a with pos := a.pos + e.ntok } s else
    match readBlock s k sp th e with
    | .error f => .error (f, ldKeep id c sp n a.rows s)
    | .ok (.ok tk) =>
      let keep := (tk.zipIdx.filter (fun x => decide (from0 ≤ a.pos + x.2 ∧ a.pos + x.2 < from0 + n))).map (·.1)
      ldEntries id c k sp th q layer head from0 n es { a with pos := a.pos + e.ntok, rows := a.rows ++ keep } s
    | .ok (.error x) =>
      let s1 := quarantineRecord s c sp q layer head slot e x
      if sp.strict then .error (sp.fault s 7, s1) else
      match quarantine k sp q slot s1 with
      | .error f => .error (f, ldKeep id c sp n a.rows s)
      | .ok s2 => ldEntries id c k sp th q layer head from0 n es a (s2.updCmd id (fun c => { c with pos := c.pos + 1 }))

/-- `kvld`; an error carries the state with what stays of it: the records of quarantine, and the rows before the fault. -/
def kvLoad (id : Nat) (c : Cmd) (sp : KvSpace) (q layer head from0 n : Nat) (s : State) : SRes (KDone × State) :=
  let k := c.kctx s
  if q ≥ sp.nseq then .error (sp.fault s 0, s) else if layer ≥ sp.layers ∨ head ≥ sp.kvh then .error (sp.fault s 9, s) else
  match getSeq s k sp q, kvThetas s k.p sp with
  | .error e, _ => .error (e, s)
  | _, .error e => .error (e, s)
  | .ok x, .ok th => match tableEnts s k sp q layer head x.count with
    | .error e => .error (e, s)
    | .ok es =>
      match ldEntries id c k sp th q layer head from0 n (es.zipIdx.filter (fun y => y.1.st == 1)) {} s with
      | .error e => .error e
      | .ok (a, s1) =>
        let z := List.replicate (128 * sp.np) (0 : Byte)
        let pad := List.replicate (n - a.rows.length) z
        .ok ({ aux := a.pos, nq := ((s1.cmds.find id).map (·.pos)).getD 0, seq := q, out := (a.rows.map (·.1) ++ pad).flatten ++ (a.rows.map (·.2) ++ pad).flatten }, s1)

/-! ## Effect points and status records (R307, R308) -/

/-- The effect of a command. -/
def kvEffect (i : Instr) (id : Nat) (c : Cmd) (sp : KvSpace) (s : State) : SRes (KDone × State) :=
  match i with
  | .kvalloc _ f => keep s (kvAlloc c sp (f.n.toNat + 1) f.span.toNat s)
  | .kvfree _ f => keep s (kvFree c sp (f.n.toNat + 1) s)
  | .kvapp _ f => kvApp c sp f.seq.toNat f.layer.toNat (f.n.toNat + 1) (f.commit = 1) s
  | .kvmap _ f => keep s (kvMap c sp f.seq.toNat f.g0.toNat (f.nb.toNat + 1) f.toklast.toNat f.dev.toNat s)
  | .kvret _ f => keep s (kvRet c sp f.seq.toNat f.tg.toNat (f.mode = 1) s)
  | .kvld _ f => kvLoad id c sp f.seq.toNat f.layer.toNat f.head.toNat f.fromr.toNat (f.rows.toNat + 1) s
  | .kvq _ f => keep s (kvQuery c sp f.seq.toNat f.layer.toNat f.head.toNat f.first.toNat (f.maxn.toNat + 1) s)
  | _ => .ok ({}, s)

/-- The status record, with the count sector of `kvld` after it (R307, R315). -/
def kvStatus (c : Cmd) (r : KDone) (x : SeqState) (stamp freecnt : Nat) : List Byte :=
  bytesOfNat 8 (c.op + r.status * 2 ^ 8 + r.nq % 2 ^ 16 * 2 ^ 16 + r.aux * 2 ^ 32) ++ bytesOfNat 8 (x.next + x.count * 2 ^ 32)
    ++ bytesOfNat 8 stamp ++ bytesOfNat 8 (freecnt + x.high * 2 ^ 32) ++ (if c.op = 0xFD then bytesOfNat 16 r.aux else [])

/-- A fault of a key-value command. -/
def kvStop (id : Nat) (e : HwFault × Where) (s : State) : State := cmdFault s id e.1 e.2

/-- The space of a command. -/
def Cmd.space (c : Cmd) (s : State) : KRes KvSpace := openSpace s c.portOf c.req c.tables (fieldOf (s.reg 0xE30) 9 0) c.obj

/-- The sequence that words 1 and 3 of the status record describe: the command's, or the last of its list (R307). -/
def kvSeqOf (s : State) (c : Cmd) (i : Instr) : Option Nat :=
  let last := fun (n : Nat) => match getIn s c (4 * n) 4 with
    | .ok b => some (natOfBytes b)
    | .error _ => none
  match i with
  | .kvalloc _ f => last f.n.toNat
  | .kvfree _ f => last f.n.toNat
  | .kvapp _ f => some f.seq.toNat
  | .kvmap _ f => some f.seq.toNat
  | .kvret _ f => some f.seq.toNat
  | .kvld _ f => some f.seq.toNat
  | .kvq _ f => some f.seq.toNat
  | _ => none

/-- The fields of a sequence that a FAULTED status record names; open where no such sequence can be read (log entry 103). -/
def seqOr (x : Option SeqState) (s : State) : SeqState × State :=
  match x with
  | some x => (x, s)
  | none => let (v, s1) := s.draw; (⟨v % 2 ^ 32, v / 2 ^ 32 % 2 ^ 16, v / 2 ^ 48 % 2 ^ 32⟩, s1)

/-- The free blocks that it names; open where the space cannot be opened. -/
def freeOr (sp : Option KvSpace) (s : State) : Nat × State :=
  match sp with
  | some sp => (sp.count, s)
  | none => let (v, s1) := s.draw; (v % 2 ^ 32, s1)

/-- A sequence of an open space, if it can be read. -/
def seqIn (s : State) (c : Cmd) (sp : KvSpace) (q : Nat) : Option SeqState :=
  if q < sp.nseq then (getSeq s (c.kctx s) sp q).toOption else none

/-- A fault of a command: the status record of a FAULTED end tells the sequence and the free blocks as they stand (R307); `kvld` then writes no
count sector (R315, 22). -/
def kvFail (i : Instr) (id : Nat) (c : Cmd) (sp : Option KvSpace) (e : HwFault × Where) (s : State) : State :=
  let (x, s1) := seqOr (sp.bind (fun sp => (kvSeqOf s c i).bind (seqIn s c sp))) s
  let (free, s2) := freeOr sp s1
  let nq := if c.op = 0xFD then ((s.cmds.find id).map (·.pos)).getD 0 else 0
  kvStop id e (s2.updCmd id (fun y => { y with failStatus := (kvStatus c { status := 3, nq := nq } x s.now free).take 32 }))

/-- Write the results of a command that has had its effect (R307). -/
def kvResults (i : Instr) (id : Nat) (c : Cmd) (r : KDone) (s : State) : State :=
  match c.space s with
  | .error e => kvFail i id c none e s
  | .ok sp => match getSeq s (c.kctx s) sp r.seq with
    | .error e => kvFail i id c (some sp) e s
    | .ok x => match (if r.out.isEmpty then .ok s else kvOut id c [(0, r.out)] s) with
      | .error f => kvFail i id c (some sp) (f, {}) s
      | .ok s2 => storeMoved id (kvStatus c r x s.now sp.count) false s2

/-- The bytes a command will write at OUT (R307). -/
def kvOutBytes (s : State) (c : Cmd) (sp : KvSpace) : Instr → KRes Nat
  | .kvld _ f => .ok (2 * (f.rows.toNat + 1) * 128 * sp.np)
  | .kvq _ f => if f.seq.toNat ≥ sp.nseq then .ok 32 else
    (getSeq s (c.kctx s) sp f.seq.toNat).map (fun x => 32 + 16 * min (f.maxn.toNat + 1) (x.count - f.first.toNat))
  | _ => .ok 0

/-- Before its effect a command checks its landing areas and adds its bytes to PENDING, once (R307, R320). -/
def kvBegin (i : Instr) (id : Nat) (c : Cmd) (sp : KvSpace) (s : State) : KRes State :=
  if c.begun then .ok s else
  match kvOutBytes s c sp i with
  | .error e => .error e
  | .ok n =>
    let st := if c.op = 0xFD then 48 else 32
    let out := landAddr (c.bits 155 128)
    let stat := landAddr (c.bits 183 156)
    if (n != 0 && !landAllowed s c out.1 out.2 n) || !landAllowed s c stat.1 stat.2 st then .error (accessFault 8, {}) else
    match barStart s c (n + st) with
    | .error f => .error (f, {})
    | .ok s' => .ok (s'.updCmd id (fun c => { c with begun := true }))

/-- The slices of the landing-tier blocks that `kvapp` or `kvld` reaches in its sequence. -/
def kvSlices (s : State) (c : Cmd) (sp : KvSpace) (i : Instr) : List Nat :=
  let k := c.kctx s
  let go := fun (q layer : Nat) (heads : List Nat) (last : Bool) =>
    match seqIn s c sp q with
    | none => []
    | some x => heads.flatMap (fun h => match tableEnts s k sp q layer h x.count with
      | .error _ => []
      | .ok es => ((if last then es.drop (x.count - 1) else es).filter (fun e => e.st == 1 && e.dev == k.dev)).filterMap (fun e =>
          match getBlk s k sp e.g with
          | .ok b => if b.tier = 2 then some (b.addr * 16384 / 2 ^ 22) else none
          | .error _ => none))
  match i with
  | .kvapp _ f => go f.seq.toNat f.layer.toNat (List.range sp.kvh) true
  | .kvld _ f => go f.seq.toNat f.layer.toNat [f.head.toNat] false
  | _ => []

/-- A key-value command runs: its space is opened, its bytes are pending, its effect, its results. It waits while the slice of a landing-tier
block that it reaches is resized (R55). -/
def runKv (i : Instr) (id : Nat) (s : State) : State :=
  match s.cmds.find id with
  | none => s
  | some c => match c.space s with
    | .error e => kvFail i id c none e s
    | .ok sp =>
      if !s.resizing.isEmpty && (kvSlices s c sp i).any (resizingSlice s) then s else
      match kvBegin i id c sp s with
      | .error e => kvFail i id c (some sp) e s
      | .ok s0 =>
        let c0 := { c with begun := true }
        match kvEffect i id c0 sp s0 with
        | .error (e, s1) => kvFail i id c0 (some sp) e s1
        | .ok (r, s1) => kvResults i id c0 r s1

/-- Whether an earlier command at the engine has still to take effect (R308: the model takes effects in acceptance order). -/
def kvBehind (s : State) (c : Cmd) : Bool :=
  s.cmds.any (fun p => p.2.port == 2 && (p.2.st == .queued || p.2.st == .running || p.2.isSuspended) && decide (p.2.qseq < c.qseq))

/-- Start the key-value command in focus. -/
def startKv (i : Instr) (s : State) : Out :=
  .next (match s.cmds.find s.focus.cmd with
  | some c => if c.st = .queued ∧ !kvBehind s c ∧ !c.areas.any (resizingSlice s) then
      runKv i s.focus.cmd (fixTable s.focus.cmd (s.updCmd s.focus.cmd (fun c => { c with st := .running }))) else s
  | none => s)

/-- `kvalloc` (R310). -/
def execKvalloc (h : SHdr) (c : KvallocF) (s : State) : Out := startKv (.kvalloc h c) s
/-- `kvfree` (R311). -/
def execKvfree (h : SHdr) (c : KvfreeF) (s : State) : Out := startKv (.kvfree h c) s
/-- `kvapp` (R312). -/
def execKvapp (h : SHdr) (c : KvappF) (s : State) : Out := startKv (.kvapp h c) s
/-- `kvmap` (R313). -/
def execKvmap (h : SHdr) (c : KvmapF) (s : State) : Out := startKv (.kvmap h c) s
/-- `kvret` (R314). -/
def execKvret (h : SHdr) (c : KvretF) (s : State) : Out := startKv (.kvret h c) s
/-- `kvld` (R315). -/
def execKvld (h : SHdr) (c : KvldF) (s : State) : Out := startKv (.kvld h c) s
/-- `kvq` (R318). -/
def execKvq (h : SHdr) (c : KvqF) (s : State) : Out := startKv (.kvq h c) s

/-- Run a suspended command again (R264, R320); while a slice that it uses is resized it waits (R55). -/
def rerunKv (id : Nat) (s : State) : State :=
  match s.cmds.find id with
  | some c => match c.instr with
    | some i => if c.areas.any (resizingSlice s) then s else runKv i id (s.updCmd id (fun c => { c with st := .running }))
    | none => s
  | none => s

/-- KV_COMMAND_COMPLETE (R307): the status record is written last, and HEN and BEN follow. -/
def execKvCommandComplete (cmd : Nat) (s : State) : Out :=
  .next (match s.cmds.find cmd with
  | some c =>
    if c.st = .moved ∧ c.port = 2 ∧ !c.areas.any (resizingSlice s) then
      let (sl, off) := landAddr (c.bits 183 156)
      match cmdLandPut s c sl off c.status with
      | .error f => endOnFault s cmd f {}
      | .ok s1 => completeCmd (barWrote s1 c c.status.length) cmd
    else s
  | none => s)

end Sys2Proof.Machine
end

