-- ==== Sys2Proof/Machine/PortLimits.lean ====
section
/-!
DEFINITION. What a port rejects in a command at `go`, and what a FERRY, STORE or KV record is checked for (spec 07 R104, 17 R242 to
R258, 19 R279 to R294, 21 R306): the first of the four CMD words with a reserved field or a field beyond its limit.
-/
namespace Sys2Proof.Machine

/-- The opcodes of a port (R106, R110). -/
def portOpOk (port op : Nat) : Bool :=
  match port with
  | 0 => decide (0xE0 ≤ op ∧ op ≤ 0xED)
  | 1 => decide (0xF0 ≤ op ∧ op ≤ 0xF7)
  | _ => decide (0xF8 ≤ op ∧ op ≤ 0xFE)

/-- The port an opcode belongs to. -/
def portOf (op : Nat) : Nat := if op < 0xF0 then 0 else if op < 0xF8 then 1 else 2

/-- Whether the words up to word `k` keep their reserved fields zero. -/
def resOk (v k : Nat) : Bool :=
  match decodePort (.ofNat 256 (v % 2 ^ (64 * (k + 1)))) with
  | .ok _ => true
  | .error _ => false

/-! ## Ferry commands -/

/-- The source and destination kinds each command admits (R246 to R258). -/
def ferryKinds (op : Nat) : List Nat × List Nat :=
  match op with
  | 0xE0 => ([1, 2, 3], [1, 2, 3])
  | 0xE1 => ([1, 2, 3], [1])
  | 0xE2 => ([1], [2, 4])
  | 0xE3 => ([1, 2], [2, 3])
  | 0xE4 => ([2, 3], [1])
  | 0xE5 => ([2, 3], [1])
  | 0xE6 => ([2], [1, 2])
  | 0xE7 => ([2], [1, 2])
  | 0xE8 => ([2], [2])
  | 0xE9 => ([0], [1, 2])
  | 0xEA => ([0], [1, 2])
  | 0xED => ([0], [1, 2])
  | _ => ([0], [0])

/-- Whether an exact format that is neither MX nor CB4: what a row from a landing may be called (R246, R250). -/
def plainCode (c : Nat) : Bool := decide (c ≤ 8)

/-- CMD0 of a ferry command (R242, R245). -/
def ferryWord0 (record : Bool) (v : Nat) : Bool :=
  let b := bitsOf v
  let op := b 7 0
  let counted := decide (op ≤ 0xE9)
  let count := b 57 26
  let bars := op != 0xE8 && op != 0xEA && op != 0xEB
  (ferryKinds op).1.contains (b 10 8) && (ferryKinds op).2.contains (b 13 11)
    && !(record && (b 19 19 == 1 || b 10 8 == 3 || b 13 11 == 3))
    && (bars || b 20 20 == 0) && (b 19 19 == 1 || b 18 14 == 0)
    && decide (b 23 21 ≤ 4)
    && (if counted then count != 0 && (b 25 25 == 1 || b 63 58 == 0) else b 25 25 == 0) && (op != 0xE8 || b 25 25 == 0)
    && (op != 0xE7 || decide (count ≤ 1024))
    && (op != 0xE3 || b 10 8 != 2 || decide (count ≤ 64))
    && (op != 0xEA || (decide (b 58 55 ≤ 13) && (b 59 59 == 0 || decide (b 58 55 ≤ 9)) && b 53 32 % 16 == 0 && (b 54 54 == 1 || b 53 26 == 0)))
    && (op != 0xED || b 27 26 != 3)

/-- An endpoint word of a kind (R243); `src` says which end. -/
def endpointOk (op kind w : Nat) (src : Bool) (otherKind : Nat) : Bool :=
  match kind with
  | 0 => w == 0
  | 1 => true
  | 2 =>
    let off := bitsOf w 27 6
    let lists := src && (op == 0xE6 || op == 0xE7)
    (op == 0xEA || (if op == 0xED then off % 4 == 0 else off % 16 == 0))
      && (if lists then decide (w < 2 ^ 46) && bitsOf w 45 28 != 0 else decide (w < 2 ^ 28))
  | 3 =>
    decide (bitsOf w 5 0 ≤ 39)
      && (if op == 0xE3 && otherKind == 2 then decide (w < 2 ^ 13) && plainCode (bitsOf w 12 9) else decide (w < 2 ^ 9))
  | 4 => decide (w < 2 ^ 6)
  | _ => false

/-- Bytes of an element of `lred` (R251). -/
def lredWidth (f : Nat) : Nat := if f = 1 then 2 else 4

/-- CMD1 of a ferry command. -/
def ferryWord1 (v : Nat) : Bool :=
  let b := bitsOf v
  let op := b 7 0
  let w := b 127 64
  match op with
  | 0xE9 => true
  | 0xEA => true
  | 0xEB => b 79 64 != 0
  | 0xEC => b 89 89 == 0 || b 87 64 == 0
  | 0xED => true
  | _ => endpointOk op (b 10 8) w true (b 13 11)
      && (op != 0xE6 || b 223 218 == 1 || decide (b 57 26 * lredWidth (b 225 224) ≤ 16 * bitsOf w 45 28))
      && (op != 0xE7 || b 223 218 == 1 || decide (b 234 224 ≤ bitsOf w 45 28))

/-- CMD2 of a ferry command. -/
def ferryWord2 (v : Nat) : Bool :=
  let b := bitsOf v
  let op := b 7 0
  match op with
  | 0xEB => true
  | 0xEC => if b 88 88 == 1 || b 89 89 == 1 then b 191 128 == 0 else b 191 160 != 0
  | _ => endpointOk op (b 13 11) (b 191 128) false (b 10 8)

/-- CMD3 of a ferry command. -/
def ferryWord3 (v : Nat) : Bool :=
  let b := bitsOf v
  let op := b 7 0
  let sk := b 10 8
  let dk := b 13 11
  let bar := b 20 20 == 1 || b 217 192 == 0
  match op with
  | 0xE0 => bar && (sk == 1 || b 227 218 == 0) && (dk == 1 || b 237 228 == 0)
      && (if sk == 2 && dk == 3 then plainCode (b 241 238) else b 241 238 == 0)
  | 0xE1 => bar && (sk == 1 || b 227 218 == 0)
  | 0xE2 => bar && b 241 228 == 0
  | 0xE3 => bar && b 245 224 % 16 == 0
  | 0xE4 => bar && b 245 224 % 16 == 0
  | 0xE5 => bar && b 245 224 % 16 == 0
  | 0xE6 => bar && b 225 224 != 3 && b 227 226 != 3
  | 0xE7 => bar && decide (1 ≤ b 234 224 ∧ b 234 224 ≤ 1024)
  | 0xE8 => b 247 226 % 16 == 0 && b 255 248 != 0
  | 0xE9 => bar && b 227 218 == 0 && (dk == 1 || b 237 228 == 0)
  | 0xEC => bar
  | 0xED => bar
  | _ => true

/-! ## Storage and key-value commands (R279, R288 to R294, R306) -/

/-- Whether a command uses its IN area. -/
def usesIn (op : Nat) : Bool := [0xF0, 0xF1, 0xF2, 0xF3, 0xF4, 0xF8, 0xF9, 0xFA].contains op
/-- Whether a command uses its OUT area. -/
def usesOut (op : Nat) : Bool := [0xF0, 0xF1, 0xF2, 0xF7, 0xFD, 0xFE].contains op

/-- CMD0 of a storage or key-value command. -/
def storeWord0 (record : Bool) (v : Nat) : Bool :=
  let b := bitsOf v
  let op := b 7 0
  !(record && b 13 13 == 1) && (b 13 13 == 1 || b 12 8 == 0) && decide (b 17 15 ≤ 4) && (b 14 14 == 1 || b 43 42 == 0)
    && (op != 0xF1 || b 116 116 == 1 || decide (b 63 54 < 256))
    && (op != 0xF2 || decide (b 54 44 ≤ 1024))
    && (op != 0xF3 || decide (b 61 60 ≤ 1))
    && (op != 0xFB || decide (1 ≤ b 62 56 ∧ b 62 56 ≤ 64))

/-- CMD1 of a storage or key-value command. -/
def storeWord1 (v : Nat) : Bool :=
  let b := bitsOf v
  (if usesIn (b 7 0) then b 91 70 % 16 == 0 else b 91 64 == 0) && (b 14 14 == 1 || b 115 92 == 0)

/-- CMD2 of a storage or key-value command. -/
def storeWord2 (v : Nat) : Bool :=
  let b := bitsOf v
  (if usesOut (b 7 0) then b 155 134 % 16 == 0 else b 155 128 == 0) && b 183 162 % 16 == 0

/-- CMD3 of a storage or key-value command. -/
def storeWord3 (v : Nat) : Bool := bitsOf v 7 0 != 0xF2 || bitsOf v 239 216 != 0

/-! ## The check -/

/-- Whether word `k` of a command keeps its limits. -/
def portWordOk (record : Bool) (v k : Nat) : Bool :=
  resOk v k &&
  if bitsOf v 7 0 < 0xF0 then
    match k with
    | 0 => ferryWord0 record v | 1 => ferryWord1 v | 2 => ferryWord2 v | _ => ferryWord3 v
  else
    match k with
    | 0 => storeWord0 record v | 1 => storeWord1 v | 2 => storeWord2 v | _ => storeWord3 v

/-- The first CMD word with a fault (R104). -/
def portBad (record : Bool) (w : BitVec 256) : Option Nat := (List.range 4).find? (fun k => !portWordOk record w.toNat k)

end Sys2Proof.Machine

namespace Sys2Proof

/-- The limits of port commands. -/
def portOk (i : Instr) : Bool :=
  match encode i with
  | .port w => (Machine.portBad false w).isNone
  | _ => true

end Sys2Proof
end

