-- ==== Sys2Proof/Machine/Ports.lean ====
section
/-!
DEFINITION. The command ports (spec 07 R101 to R104, 17 R239, R245, 19 R280, 21 R309): `cport`, `go`, the port buffers and the
queues that take commands from them.
-/
namespace Sys2Proof.Machine

/-! ## CMD registers -/

/-- CMD0 to CMD3 of a port as one number (R101). -/
def Ctx.command (x : Ctx) (port : Nat) : BitVec 256 :=
  SMap.get 0 x.cmd (4 * port + 3) ++ SMap.get 0 x.cmd (4 * port + 2) ++ SMap.get 0 x.cmd (4 * port + 1) ++ SMap.get 0 x.cmd (4 * port)

/-- `cport` (R102). -/
def execCport (e : Bool) (src : Reg) (port : BitVec 4) (cmd : BitVec 2) (s : State) : Out :=
  .next (seqDone e false (s.updCtx (fun x => { x with cmd := SMap.set 0 x.cmd (4 * port.toNat + cmd.toNat) (x.reg src) })))

/-! ## Checks of `go` (R104, R245) -/

/-- Whether a band index names a member of the crew of a core. -/
def isMember (s : State) (core m : Nat) : Bool :=
  decide (m < 40) && (match s.crewOf core with
    | some w => w.members.contains (core / 40 * 40 + m)
    | none => false)

/-- The CMD words whose endpoint names no member of the crew, or for a binding a core other than the issuer (R245, R266). -/
def memberBad (s : State) (core : Nat) (w : BitVec 256) : List Nat :=
  (if fieldOf w 10 8 = 3 && !(fieldOf w 69 64 = core % 40 && isMember s core (fieldOf w 69 64)) then [1] else [])
    ++ (if fieldOf w 13 11 = 3 && !isMember s core (fieldOf w 133 128) then [2] else [])

/-- The subcode and first faulting word of a malformed command. -/
def goBad (s : State) (core port : Nat) (w : BitVec 256) : Option (Nat × Nat) :=
  if !portOpOk port (fieldOf w 7 0) then some (2, 0) else
  let m := if port = 0 then memberBad s core w else []
  match portBad false w, m with
  | some k, n :: _ => some (3, min k n)
  | some k, [] => some (3, k)
  | none, n :: _ => some (3, n)
  | none, [] => none

/-! ## Buffers and queues -/

/-- Commands of a core in its buffer of a port, oldest first (R103). -/
def buffered (s : State) (core port : Nat) : List (Nat × Cmd) :=
  s.cmds.filter (fun p => p.2.st == .buffered && p.2.port == port && (match p.2.issuer with
    | .ctx k _ _ => k == core
    | .record _ => false))

/-- Commands that a ferry, a controller or the key-value engine holds. -/
def heldBy (s : State) (port unit : Nat) : Nat :=
  (s.cmds.filter (fun p => p.2.port == port && p.2.unit == unit && p.2.st != .buffered)).length

/-- Whether the target of a command has room: 64 commands at a ferry, 512 elsewhere (R239, R280, R309). -/
def hasRoom (s : State) (c : Cmd) : Bool :=
  match c.port with
  | 0 => decide (heldBy s 0 c.unit < 64)
  | 1 => decide (heldBy s 1 (homeOf s c) < 512)
  | _ => decide (heldBy s 2 0 < 512)

/-- The source of a ferry that a command comes from (R239): 0 to 4 for the port buffers of its five cores, 5 for FERRY records. -/
def Cmd.ferrySource (c : Cmd) : Nat :=
  match c.core with
  | some k => k % 5
  | none => 5

/-- Whether a source of a ferry has a command ready: one in the core's port buffer, or a FERRY record in the active bank. -/
def sourceReady (s : State) (u src : Nat) : Bool :=
  if src < 5 then !(buffered s (5 * u + src) 0).isEmpty
  else s.recs.any (fun p => p.2.st == .active && bitsOf p.2.word.toNat 3 0 == 2 && bitsOf p.2.word.toNat 389 384 == u)

/-- The key of a ferry's round robin among its sources. -/
def ferryRr (u : Nat) : Nat := 6000000 + u

/-- Whether a command's source is the next in round robin (R239): the ferry takes one command from each source with one ready, in turn. -/
def ferryTurn (s : State) (c : Cmd) : Bool :=
  let ptr := SMap.get 0 s.rr (ferryRr c.unit)
  c.port != 0 || ((List.range 6).map (fun k => (ptr + k) % 6)).find? (fun src => src == c.ferrySource || sourceReady s c.unit src) == some c.ferrySource

/-- A buffered command enters the queue of its target. -/
def intake (id : Nat) (s : State) : State :=
  match s.cmds.find id with
  | none => s
  | some c =>
    if c.st ≠ .buffered ∨ !hasRoom s c ∨ !ferryTurn s c then s
    else if c.port = 1 then acceptStore id s
    else { s with nextId := s.nextId + 1, rr := if c.port = 0 then s.rr.put (ferryRr c.unit) ((c.ferrySource + 1) % 6) else s.rr }.updCmd id (fun c => { c with st := .queued, qseq := s.nextId, stamp := s.now })

/-- The oldest command of a core's port buffer enters the queue of its target, if its turn has come. -/
def intakeCore (core port : Nat) (s : State) : State :=
  match buffered s core port with
  | p :: _ => intake p.1 s
  | [] => s

/-- The next ticket number (R103). -/
def nextTicket (t : BitVec 32) : BitVec 32 := if t = BitVec.allOnes 32 then 1 else t + 1

/-- COUNT_OVERFLOW (R13). -/
def countOverflow : HwFault := { code := 0x0E, sub := 0 }

/-- Accept a command (R103, R11): it takes a ticket, the launch of a program context counts it, and the port's target takes it as
soon as it has room. -/
def acceptCmd (port : Nat) (w : BitVec 256) (e : Bool) (d : Reg) (s : State) : State :=
  let c := s.focus.core
  let x := s.ctx
  let crew := s.crewOf c
  let t := nextTicket (SMap.get 0 x.tickets port)
  let cmd : Cmd := { port := port, word := w, issuer := .ctx c s.focus.fw (crew.map (·.record)), ticket := t.toNat,
                     part := workPart s c, tag := if crew.isSome then s.fcore.tag else 0, unit := if port = 0 then c / 5 else 0 }
  let counted := match s.focus.fw, (crew.bind (fun w => s.recs.find w.record)).bind (·.inst) with
    | false, some i => instAdd s i
    | _, _ => some s
  match counted with
  | none => seqDone e false (raiseWith countOverflow 0 0 0 0 s)
  | some s1 =>
    let s2 := { s1 with nextId := s1.nextId + 1, cmds := s1.cmds.put s1.nextId cmd }.updCtx (fun x => { x with tickets := SMap.set 0 x.tickets port t })
    intakeCore c port (seqReg e false d 3 (.ofNat 64 (t.toNat + port * 2 ^ 32)) s2)

/-- `go` (R102 to R104). -/
def execGo (e : Bool) (d : Reg) (port : BitVec 4) (s : State) : Out :=
  let p := port.toNat
  let w := s.ctx.command p
  .next (match goBad s s.focus.core p w with
  | some (sub, k) => seqDone e false (raiseWith (cmdBad sub) (.ofNat 64 w.toNat) (.ofNat 64 k) 0 (coreArg3 s.focus.org) s)
  | none =>
    let hen := if p = 0 then w.getLsbD 19 else w.getLsbD 13
    let h := if p = 0 then fieldOf w 18 14 else fieldOf w 12 8
    if hen && !hasHsem h s then seqRaise e false allotUse h s
    else if (buffered s s.focus.core p).length ≥ 16 then seqReg e false d 3 0 s
    else acceptCmd p w e d s)

end Sys2Proof.Machine
end

