-- ==== Sys2Proof/Machine/RecordLimits.lean ====
section
/-!
DEFINITION. The limits on the fields of queue-manager records (spec 23 R325, R326, R341): the reserved codes of the header that
raise QM HDR, and the limits of the bodies.
-/
namespace Sys2Proof.Machine

/-- The header's own limits (R325, R60). -/
def hdrOk (h : RHdr) : Bool :=
  decide (h.acq.toNat ≤ 4 ∧ h.rel.toNat ≤ 4) && h.cls != 3
    && (if h.wen = 1 then decide (h.wop.toNat ≤ 5) else h.wop == 0 && h.wsem == 0 && h.wval == 0)
    && (if h.sen = 1 then h.sop != 3 else h.sop == 0 && h.ssem == 0 && h.sval == 0)

/-- The header of a record. -/
def recHdr : Instr → Option RHdr
  | .nop_record h => some h
  | .launch_record h _ => some h
  | .ferry_record h _ => some h
  | .store_record h _ => some h
  | .kv_record h _ => some h
  | .wait_record h => some h
  | .signal_record h => some h
  | .branch h _ => some h
  | .select h _ => some h
  | .phase h _ => some h
  | .graph h _ => some h
  | .cancel h _ => some h
  | .irq h _ => some h
  | .stamp_record h _ => some h
  | .map h _ => some h
  | .fence_record h => some h
  | _ => none

/-- Whether the codes of a record that raise QM HDR are assigned: those of its header and BOP (R325, R346). -/
def codesOk (i : Instr) : Bool :=
  (match recHdr i with
    | some h => hdrOk h
    | none => false) &&
  match i with
  | .branch _ c => decide (c.bop.toNat ≤ 5)
  | _ => true

/-- Whether a landing address field is a multiple of 16. -/
def landAligned (a : BitVec 28) : Bool := decide (a.toNat / 64 % 16 = 0)

/-- The four words of a command record as one number. -/
def cmdWord (c0 c1 c2 c3 : BitVec 64) : BitVec 256 := c3 ++ c2 ++ c1 ++ c0

/-- The first faulting word of a command record of a kind (R341); the opcode must be one of its port. -/
def recCmdBad (port : Nat) (w : BitVec 256) : Option Nat := if portOpOk port (bitsOf w.toNat 7 0) then portBad true w else some 0

/-- Reserved fields of a LAUNCH record (R24). -/
def launchRsvdOk (c : LaunchRecordF) : Bool := c.rs0 == 0 && c.rs1 == 0 && c.rs2 == 0 && c.rs3 == 0 && c.rs4 == 0 && c.rs5 == 0

/-- The limits of a LAUNCH record that its own bits decide (R24). -/
def launchRangeOk (c : LaunchRecordF) : Bool :=
  c.coreMask != 0 && decide (1 ≤ c.qbuf.toNat ∧ c.qbuf.toNat ≤ 16) && decide (c.landBase.toNat + c.landLen.toNat ≤ 1024)

end Sys2Proof.Machine

namespace Sys2Proof
open Sys2Proof.Machine

/-- The limits of records. -/
def recordOk (i : Instr) : Bool :=
  ((recHdr i).isNone || codesOk i) &&
  match i with
  | .launch_record _ c => launchRsvdOk c && launchRangeOk c
  | .ferry_record _ c => (recCmdBad 0 (cmdWord c.c0 c.c1 c.c2 c.c3)).isNone
  | .store_record _ c => (recCmdBad 1 (cmdWord c.c0 c.c1 c.c2 c.c3)).isNone
  | .kv_record _ c => (recCmdBad 2 (cmdWord c.c0 c.c1 c.c2 c.c3)).isNone
  | .select _ c => landAligned c.cnt
  | .graph _ c => c.nrec != 0
  | .stamp_record _ c => landAligned c.dst
  | .map _ c => c.ntiles != 0 && landAligned c.report
  | _ => true

end Sys2Proof
end

