-- ==== Sys2Proof/Machine/Queue.lean ====
section
/-!
DEFINITION. The queue manager (spec 23 R322 to R346, 01 R11 to R17): the fields of a record, memory semaphores, record faults,
retirement with its release and signal, cancels, the schedulers, the start of a record and the banks of its target.
-/
namespace Sys2Proof.Machine

/-- A QM fault (R346). -/
def qmFault (sub : Nat) : HwFault := { code := 0x0B, sub := sub }

/-- Why a step of the queue manager fails: the fault, the object and tile it names, or the CMD word. -/
structure QErr where
  f : HwFault
  obj : Nat := 0
  tile : Nat := 0
deriving DecidableEq, Repr

/-- What a step of the queue manager answers. -/
abbrev QRes (α : Type) := Except QErr α

/-! ## Fields of a record (R325) -/

/-- A field of a record. -/
def Rec.bits (r : Rec) (hi lo : Nat) : Nat := bitsOf r.word.toNat hi lo
/-- KIND. -/
def Rec.kind (r : Rec) : Nat := r.bits 3 0
/-- CHAIN. -/
def Rec.chain (r : Rec) : Bool := r.word.getLsbD 29
/-- The LAUNCH_TAG of a LAUNCH record, or what SELECT chose (R337). -/
def Rec.launchTag (r : Rec) : BitVec 32 := r.ltag.getD (.ofNat 32 (r.bits 479 448))
/-- The four command words of a FERRY, STORE or KV record. -/
def Rec.command (r : Rec) : BitVec 256 := .ofNat 256 (r.bits 383 128)

/-- The kind of a queue (R322). -/
def queueKind (q : Nat) : Nat := if q < 512 then 0 else if q < 768 then 1 else if q < 960 then 2 else 3

/-- Whether a queue admits a record (R322). -/
def admits (q : Nat) (r : Rec) : Bool :=
  match r.kind, queueKind q with
  | 1, 0 => true
  | 1, 2 => r.bits 335 320 != 0
  | 1, _ => false
  | 2, k => k == 1
  | 3, k => k == 2
  | 4, k => k == 3
  | _, _ => true

/-- Change a record. -/
def State.updRec (s : State) (id : Nat) (f : Rec → Rec) : State :=
  match s.recs.find id with
  | some r => { s with recs := s.recs.put id (f r) }
  | none => s
/-- A queue. -/
def State.queue (s : State) (q : Nat) : Queue := SMap.get {} s.queues q
/-- Change a queue. -/
def State.updQueue (s : State) (q : Nat) (f : Queue → Queue) : State :=
  match s.queues.find q with
  | some x => { s with queues := s.queues.put q (f x) }
  | none => s
/-- Change a walk. -/
def State.updWalk (s : State) (w : Nat) (f : Walk → Walk) : State :=
  match s.walks.find w with
  | some x => { s with walks := s.walks.put w (f x) }
  | none => s
/-- A new instance. -/
def newInst (t : Inst) (s : State) : Nat × State := (s.nextId, { s with nextId := s.nextId + 1, insts := s.insts.put s.nextId t })
/-- The tag of an instance; 0 for none. -/
def instTag (s : State) (i : Nat) : BitVec 32 := ((s.insts.find i).map (·.tag)).getD 0

/-! ## Memory for the queue manager -/

/-- The queue manager's port. -/
def qmPort : Port := ⟨portQm, 0⟩

/-- The tile of a byte of an object. -/
def qmTile (s : State) (id off : Nat) : Nat :=
  match objEntry s qmPort id with
  | .ok o => (o.place off).1
  | .error _ => 0

/-- Read bytes of an object for a partition. -/
def qmRead (s : State) (part id off n : Nat) : QRes (List Byte) :=
  match readObjBytes s qmPort (.job (some part)) id off n with
  | .error f => .error ⟨f, id, qmTile s id off⟩
  | .ok b => .ok b

/-- Write bytes of an object for a partition. -/
def qmWrite (part id off : Nat) (b : List Byte) (s : State) : QRes State :=
  match writeObjBytes s qmPort (.job (some part)) id off b with
  | .error f => .error ⟨f, id, qmTile s id off⟩
  | .ok s' => .ok s'

/-- The semaphore object of a partition, if semaphore `n` lies in it (R327). -/
def semObj (s : State) (part n : Nat) : QRes Nat :=
  let id := fieldOf (partReg s part 8) 23 0
  match objEntry s qmPort id with
  | .error f => .error ⟨f, id, 0⟩
  | .ok o => if o.elems < 4 * n + 4 then .error ⟨qmFault 2, id, 0⟩ else .ok id

/-- The value of a memory semaphore. -/
def semGet (s : State) (part n : Nat) : QRes Nat := do
  let id ← semObj s part n
  let b ← qmRead s part id (4 * n) 4
  pure (natOfBytes b)

/-- Change a memory semaphore in one access. -/
def semUpd (part n : Nat) (f : Nat → Nat) (s : State) : QRes State := do
  let id ← semObj s part n
  let b ← qmRead s part id (4 * n) 4
  qmWrite part id (4 * n) (bytesOfNat 4 (f (natOfBytes b))) s

/-- The comparison of a wait or a BRANCH (R325, R328). -/
def semCmp (op v w : Nat) : Bool :=
  match op with
  | 0 => decide (w ≤ v) | 1 => decide (w < v) | 2 => v == w | 3 => v != w | 4 => decide (v < w) | _ => decide (v ≤ w)

/-- Whether the wait of a record holds, or has been found to hold (R328). -/
def waitHolds (s : State) (r : Rec) : QRes Bool :=
  if r.word.getLsbD 22 && !r.acquired then (semGet s r.part (r.bits 111 96)).map (fun v => semCmp (r.bits 25 23) v (r.bits 63 32)) else .ok true

/-- The slice and offset of a record's landing area, confined to the partition's slices (R326, R56). -/
def recLand (s : State) (part addr n : Nat) : QRes (Nat × Nat) :=
  let (sl, off) := landAddr addr
  if (partReg s part 6).getLsbD sl && landOk s sl off n then .ok (sl, off) else .error { f := accessFault 8 }

/-- Write a record's landing area. -/
def recLandPut (part addr : Nat) (b : List Byte) (s : State) : QRes State := do
  let (sl, off) ← recLand s part addr b.length
  match landPut s sl off b with
  | .ok s' => pure s'
  | .error f => .error { f := f }

/-! ## Fault records of the queue manager (R346, R365 to R367) -/

/-- The tag of a record's work. -/
def recTag (s : State) (r : Rec) : BitVec 32 := if r.kind = 1 then r.launchTag else instTag s r.graph

/-- The arguments of a record fault. -/
def recArgs (s : State) (r : Rec) (e : QErr) (susp : Nat) : List Word :=
  match e.f.code with
  | 0x03 => [.ofNat 64 r.command.toNat, .ofNat 64 e.tile]
  | 0x0B => [.ofNat 64 r.queue, .ofNat 64 e.obj, .ofNat 64 r.index, .ofNat 64 r.word.toNat, .ofNat 64 (r.word.toNat / 2 ^ 64)]
  | 0x0F => [.ofNat 64 (r.queue + susp * 2 ^ 42), .ofNat 64 (domainId s e.obj), .ofNat 64 e.tile]
  | 0x10 => [.ofNat 64 r.queue, .ofNat 64 (domainId s e.obj), .ofNat 64 e.tile]
  | _ => []

/-- Write the record of a record fault, with source 464. -/
def qmRecord (r : Rec) (e : QErr) (ended : Bool) (susp : Nat) (s : State) : State :=
  record s 464 e.f false ended (recTag s r) 0 (some r.part) none (recArgs s r e susp)

/-- Write a fault record of a queue itself (R323, R324): it names the queue in ARG0. -/
def queueRecord (q : Nat) (e : QErr) (susp : Nat) (s : State) : State :=
  record s 464 e.f false false 0 0 (some (s.queue q).part) none
    (if e.f.code = 0x0B then [.ofNat 64 q] else [.ofNat 64 (q + susp * 2 ^ 42), .ofNat 64 (domainId s e.obj), .ofNat 64 e.tile])

/-! ## Instances above a launch (R13, R14, R334) -/

/-- A graph that has completed counts at its job, and its GRAPH record is done (R331). -/
def settleGraphs (s : State) : State :=
  s.insts.foldl (fun s p => match s.insts.find p.1 with
    | some t =>
      if t.level = 2 ∧ t.status ≠ .running then
        let s1 := match t.parent with
          | some j => instDone { s with insts := s.insts.put p.1 { t with parent := none } } j t.status
          | none => s
        { s1 with
          walks := s1.walks.del p.1
          recs := s1.recs.map (fun x => if x.2.kind = 10 ∧ x.2.inst = some p.1 ∧ x.2.st = .running then (x.1, { x.2 with st := .done t.status }) else x) }
      else s
    | none => s) s

/-- Note when a record reaches the head of its stream (R343). -/
def markHead (q : Nat) (s : State) : State :=
  match (s.queue q).stream with
  | id :: _ => s.updRec id (fun r => { r with readyAt := some (r.readyAt.getD s.now) })
  | [] => s

/-- Take a record out of its stream. -/
def unstream (id q : Nat) (s : State) : State := markHead q (s.updQueue q (fun x => { x with stream := x.stream.filter (· != id) }))

/-- The launch instance of a record that ends before its members have run takes its status (R14). -/
def closeLaunch (r : Rec) (st : Status) (s : State) : State :=
  match r.inst with
  | some i => match s.insts.find i with
    | some t => if t.level = 0 ∧ t.status = .running then { s with insts := s.insts.put i { t with status := st } } else s
    | none => s
  | none => s

/-- A record's work is over (R329). -/
def endRec (id : Nat) (st : Status) (s : State) : State :=
  match s.recs.find id with
  | some r => (unstream id r.queue (closeLaunch r st s)).updRec id (fun r => { r with st := .done st })
  | none => s

/-! ## Banks (R331) -/

/-- The front end of a band that a LAUNCH record goes to. Each partition and class has its own banks there, as it has its own
scheduler (R342), so that a waiting launch holds up no launch of a higher class (R37, R343; log entry 61). -/
def bandKey (band part cls : Nat) : Nat := 100 + 8 * (4 * part + cls) + band

/-- The target of a work record: a band's front end, ferries, home controllers and the key-value engine. -/
def Rec.target (r : Rec) : Option Nat :=
  match r.kind with
  | 1 => some (bandKey (r.bits 179 177) r.part (r.bits 11 10))
  | 2 => some (8 + r.bits 389 384)
  | 3 => some (72 + r.home)
  | 4 => some 88
  | _ => none

/-- The record that holds a bank of a target. -/
def bankOf (s : State) (key : Nat) (st : RecSt) : Option (Nat × Rec) := s.recs.find? (fun p => p.2.st == st && p.2.target == some key)

/-- The shadow bank moves into an empty active bank. -/
def moveBank (key : Nat) (s : State) : State :=
  match bankOf s key .active, bankOf s key .shadow with
  | none, some (id, _) => s.updRec id (fun r => { r with st := .active })
  | _, _ => s

/-- The ferry, controller or engine takes the operator of its active bank when it has room (R239, R280, R309). -/
def takeActive (key : Nat) (s : State) : State :=
  match bankOf s key .active with
  | some (id, r) =>
    if r.kind = 1 then s else
    let c : Cmd := { port := r.kind - 2, word := r.command, issuer := .record id, part := some r.part, tag := instTag s r.graph,
                     unit := if r.kind = 2 then r.bits 389 384 else 0 }
    if hasRoom s c && ferryTurn s c then
      intake s.nextId ({ s with nextId := s.nextId + 1, cmds := s.cmds.put s.nextId c }.updRec id (fun r => { r with st := .running }))
    else s
  | none => s

/-- Move a target on: active taken, shadow to active, and taken again. -/
def pumpTarget (key : Nat) (s : State) : State := takeActive key (moveBank key (takeActive key (moveBank key s)))

/-! ## Cancels (R15 to R17) -/

/-- A command accepted and not started is removed without effect; a started search is told to stop (R15, R309). -/
def cancelCmd (id : Nat) (s : State) : State :=
  match s.cmds.find id with
  | some c =>
    if c.st = .buffered ∨ (c.st = .queued ∧ !c.begun ∧ !(c.isTask && !c.tables.isEmpty)) then
      let s1 := { s with cmds := s.cmds.del id }
      match c.owner with
      | some r => launchMember s1 r .cancelled
      | none => s1
    else if c.isTask then
      let s1 := s.updCmd id (fun c => { c with cancelled := true })
      if c.begun ∧ (c.st = .waiting ∨ c.st = .queued) then rerunStore id s1 else s1
    else s
  | none => s

/-- Cancel the commands of a record. -/
def cancelCmds (r : Nat) (s : State) : State :=
  (s.cmds.filter (fun p => p.2.owner == some r)).foldl (fun s p => cancelCmd p.1 s) s

/-- A firing for a launch stops: its array is unfired (R15). -/
def unfire (r : Nat) (s : State) : State :=
  { s with kilns := s.kilns.map (fun p => match p.2.firing with
      | some (_, _, x) => if x = r then (p.1, { p.2 with firing := none, st := .unfired }) else p
      | none => p) }

/-- A suspended access of a record is given up. -/
def dropSusp (id : Nat) (s : State) : State :=
  { s with susps := s.susps.filter (fun p => p.2 != Susp.record id) }.updRec id (fun r => { r with susp := 0 })

/-- Cancel one record, wherever it stands; an access that it waits for is given up with it. -/
def cancelRec (id : Nat) (s : State) : State :=
  match s.recs.find id with
  | none => s
  | some r =>
    let s1 := dropSusp id (markRec s id .cancelled)
    match r.st with
    | .done _ => s
    | .stream => endRec id .cancelled s1
    | .shadow => endRec id .cancelled s1
    | .active => match r.target with
      | some k => pumpTarget k (endRec id .cancelled s1)
      | none => endRec id .cancelled s1
    | .saved => unfire id (endRec id .cancelled { s1 with saved := s1.saved.filter (·.record != id) })
    | .running =>
      if r.kind = 1 then
        match crewOfRec s id with
        | some (k, w) =>
          if w.started then unfire id (cancelCmds id (stopCrew (dropSusp id s) k .cancelled))
          else endRec id .cancelled (releaseCrew s1 k)
        | none => endRec id .cancelled s1
      else if r.kind = 2 ∨ r.kind = 3 ∨ r.kind = 4 then cancelCmds id s1
      else endRec id .cancelled s1

/-- End a graph early: its walk stops and its records meet the fate of a cancel (R346, R15). -/
def abortGraph (g : Nat) (m : Status) (s : State) : State :=
  match s.insts.find g with
  | some t =>
    if t.status ≠ .running then s else
    let ph := (s.walks.find g).bind (·.phase)
    let s1 := { markInst s g m with walks := s.walks.del g, susps := s.susps.filter (fun p => p.2 != Susp.walk g) }
    let s2 := (s1.recs.filter (fun p => p.2.graph == g)).foldl (fun s p => cancelRec p.1 s) s1
    let s3 := match ph with
      | some p => instLast s2 p
      | none => s2
    settleGraphs (instLast s3 g)
  | none => s

/-! ## Retirement (R329, R332, R346) -/

/-- A suspended access made for a record takes its number (R346, R371). -/
def numberRec (id : Nat) (r : Rec) (e : QErr) (n : Nat) (s : State) : State :=
  { qmRecord r e false n s with susps := s.susps.put n (.record id) }.updRec id (fun r => { r with susp := n })

/-- Suspend an access made for a record; with no number free the fault waits for one (R371). -/
def suspendRec (id : Nat) (r : Rec) (e : QErr) (s : State) : State :=
  match freeSusp s with
  | none => (waitSusp 464 (.record id) e.f { obj := e.obj, tile := e.tile } s).updRec id (fun r => { r with susp := waitMark })
  | some n => numberRec id r e n s

/-- The slices of a partition. -/
def partSlices (s : State) (part : Nat) : List Nat := (List.range 64).filter (fun k => (partReg s part 6).getLsbD k)

/-- The acquire of R57 on the slices of a partition. -/
def acquireAt (part scope : Nat) (s : State) : State := (partSlices s part).foldl (fun s k => dropClean s k (scopeSel scope)) s
/-- The release of R57. -/
def releaseAt (part scope : Nat) (s : State) : State :=
  if scope < 2 then s else (partSlices s part).foldl (fun s k => cleanSlice s k (scopeSel scope)) s

/-- The signal of a record (R329). -/
def signalRec (r : Rec) (st : Status) (s : State) : QRes State :=
  if r.word.getLsbD 26 && (st == .done || st == .part) then
    let v := r.bits 95 64
    semUpd r.part (r.bits 127 112) (fun x => match r.bits 28 27 with
      | 0 => min (x + v) 0xFFFFFFFF
      | 1 => v
      | _ => max x v) s
  else .ok s

/-- A record leaves the queue manager: its block goes on or ends, its graph and phase count it, and a fault ends its graph. -/
def retired (id : Nat) (r : Rec) (st : Status) (s : State) : State :=
  let next := if (r.chain && st == .faulted) || (r.chain && r.chainPrev == some 0) then some 0 else none
  let s1 := { s with
    recs := (s.recs.del id).map (fun p => if p.2.chainPrev = some id then (p.1, { p.2 with chainPrev := next }) else p)
    queues := s.queues.map (fun p => if p.2.lastRec = some id then (p.1, { p.2 with lastRec := next }) else p)
    walks := s.walks.map (fun p => (p.1, { p.2 with
      lastRec := if p.2.lastRec = some id then next else p.2.lastRec
      waitFor := if p.2.waitFor = some id then none else p.2.waitFor })) }
  let s2 := instDone s1 r.graph st
  let s3 := match r.phase with
    | some p => instDone s2 p st
    | none => s2
  settleGraphs (if st = .faulted then abortGraph r.graph .faulted s3 else s3)

/-- Retire a record whose work is over: the release, the signal and the interrupt, then the counts. A fault of the signal is a
fault of the record. -/
def retireRec (id : Nat) (s : State) : State :=
  match s.recs.find id with
  | some r => match r.st with
    | .done st =>
      if r.susp ≠ 0 then s else
      let s1 := releaseAt r.part (r.bits 9 7) s
      match signalRec r st s1 with
      | .error e => if e.f.code = 0x0F then suspendRec id r e s1 else retired id r .faulted (qmRecord r e true 0 s1)
      | .ok s2 => retired id r st (if r.kind = 12 ∧ st = .done then postIrq s2 (r.bits 138 128) else s2)
    | _ => s
  | none => s

/-- RECORD_RETIRE (R329). -/
def execRecordRetire (rec : Nat) (s : State) : Out := .next (retireRec rec s)

/-- A fault of a record: a translation fault suspends it, any other retires it FAULTED (R346). -/
def recFault (id : Nat) (e : QErr) (s : State) : State :=
  match s.recs.find id with
  | some r => if e.f.code = 0x0F then suspendRec id r e s else retireRec id (endRec id .faulted (qmRecord r e true 0 s))
  | none => s

/-! ## Schedulers (R342) -/

/-- The bank a record needs; a STORE record's controller is found by translating tile 0 of its object (R331). -/
def neededBank (s : State) (r : Rec) : QRes (Option Nat) :=
  if r.kind = 3 then
    let id := bitsOf r.command.toNat 41 18
    match objFor s qmPort (.job (some r.part)) .read id with
    | .error f => .error ⟨f, id, 0⟩
    | .ok o => match tileFor s qmPort .read o o.ttPtr 0 with
      | .error f => .error ⟨f, id, 0⟩
      | .ok t => .ok (some (72 + (if t.tier = .flash then bitsOf t.addr 46 43 else 0)))
  else .ok r.target

/-- The landing areas that a record uses itself. -/
def recAreas (r : Rec) : List Nat :=
  match decodeRecord r.word with
  | .ok (.select _ c) => [c.cnt.toNat]
  | .ok (.stamp_record _ c) => [c.dst.toNat]
  | .ok (.map _ c) => [c.report.toNat]
  | _ => []

/-- Whether a LAUNCH of the same front end that reached the head of its own stream earlier, its wait met, claims a core of this one (R37): it goes
into the banks first. -/
def claimedEarlier (s : State) (r : Rec) : Bool :=
  r.kind == 1 && s.queues.any (fun q => match q.2.stream with
    | h :: _ => match s.recs.find h with
      | some x => x.st == .stream && x.target == r.target && x.susp == 0 && x.chainPrev.isNone && x.kind == 1
          && (decide (x.readyAt.getD s.now < r.readyAt.getD s.now) || (x.readyAt == r.readyAt && decide (x.queue < r.queue)))
          && Nat.land (x.bits 231 192) (r.bits 231 192) != 0
          && (match waitHolds s x with
            | .ok b => b
            | .error _ => false)
      | none => false
    | [] => false)

/-- Whether a record could start (R328, R331, R332, R342): not in a halted partition (R385), nor while the cache part of a slice that it lands in is
being resized (R55). A fault met on the way is met at its start. -/
def recReady (s : State) (r : Rec) : Bool :=
  r.st == .stream && r.susp == 0 && r.chainPrev.isNone && !s.halted.contains r.part
  && (recAreas r).all (fun a => (s.resizing.find (landAddr a).1).isNone) && !claimedEarlier s r &&
  (match waitHolds s r with
    | .ok b => b
    | .error _ => true) &&
  (match neededBank s r with
    | .ok (some k) => (bankOf s k .shadow).isNone
    | _ => true)

/-- Whether the head record of a queue's stream could start. -/
def queueReady (s : State) (q : Queue) : Bool :=
  match q.stream with
  | id :: _ => match s.recs.find id with
    | some r => recReady s r
    | none => false
  | [] => false

/-- The ready queues of a partition and kind, of their highest class. -/
def readyQueues (s : State) (part kind : Nat) : List (Nat × Queue) :=
  let l := s.queues.filter (fun p => p.2.part == part && queueKind p.1 == kind && queueReady s p.2)
  let cls := l.foldl (fun m p => min m p.2.cls) 3
  l.filter (fun p => p.2.cls == cls)

/-- The key of a scheduler's credits for a level. -/
def rrKey (part kind cls lv : Nat) : Nat := 1000000 + ((part * 4 + kind) * 3 + cls) * 8 + lv

/-- The queue the scheduler chooses, and its positions afterwards. -/
def schedPick (s : State) (part kind : Nat) : Option (Nat × SMap Nat) :=
  match readyQueues s part kind with
  | [] => none
  | (q0, x0) :: rest =>
    let l := (q0, x0) :: rest
    let cls := x0.cls
    let lw := partReg s part (10 + cls)
    let full := !l.any (fun p => SMap.get 0 s.rr (rrKey part kind cls p.2.level) != 0)
    let rr := if full then (List.range 8).foldl (fun m k => m.put (rrKey part kind cls k) (fieldOf lw (8 * k + 7) (8 * k))) s.rr else s.rr
    let lv := l.foldl (fun m p => if SMap.get 0 rr (rrKey part kind cls p.2.level) != 0 then min m p.2.level else m) 8
    let qs := l.filter (fun p => p.2.level == lv)
    let left := fun (p : Nat × Queue) => (rr.find (2000000 + p.1)).getD (max p.2.weight 1)
    let able := qs.filter (fun p => left p != 0)
    let rr1 := if able.isEmpty then qs.foldl (fun m p => m.put (2000000 + p.1) (max p.2.weight 1)) rr else rr
    let cand := if able.isEmpty then qs else able
    let ptr := SMap.get 0 rr1 (3000000 + rrKey part kind cls lv)
    match cand.find? (fun p => decide (ptr ≤ p.1)) <|> cand.head? with
    | none => none
    | some (q, x) =>
      let n := (rr1.find (2000000 + q)).getD (max x.weight 1) - 1
      let rr2 := (rr1.put (2000000 + q) n).put (rrKey part kind cls lv) (SMap.get 0 rr1 (rrKey part kind cls lv) - 1)
      some (q, if n = 0 then rr2.put (3000000 + rrKey part kind cls lv) (q + 1) else rr2)

/-! ## The start of a record (R329, R331) -/

/-- The count L of a SELECT: bytes 0 to 3 of its count sector (R337). -/
def selectCount (s : State) (part : Nat) (c : SelectF) : QRes Nat :=
  if !landAligned c.cnt then .error { f := qmFault 6 } else
  match recLand s part c.cnt.toNat 16 with
  | .error e => .error e
  | .ok (sl, off) => match landGet s sl off 4 with
    | .ok b => .ok (natOfBytes b)
    | .error f => .error { f := f }

/-- What a record has read when its wait has been found true: it is not read again (R328, R337). -/
def Rec.noted (s : State) (sel : Option SelectF) (r : Rec) : Rec :=
  match waitHolds s r with
  | .ok true => { r with acquired := true, count := r.count <|> sel.bind (fun c => (selectCount s r.part c).toOption) }
  | _ => r

/-- The acquire and the effect of a record's start, once it is the one to start. -/
def beginRec (id : Nat) (r0 : Rec) (sel : Option SelectF) (eff : Nat → Rec → State → QRes State) (s : State) : State :=
  let r := Rec.noted s sel r0
  let s1 := (acquireAt r.part (r.bits 6 4) s).updRec id (fun x => { x with acquired := r.acquired, count := r.count })
  let res : QRes State := do
    let _ ← waitHolds s r
    let k ← neededBank s r
    let r1 := { r with acquired := true, home := if r.kind = 3 then k.getD 72 - 72 else r.home }
    eff id r1 ((unstream id r.queue s1).updRec id (fun _ => r1))
  match res with
  | .ok s2 => s2
  | .error e => recFault id e s1

/-- Note an evaluation of a wait that found it true: the record proceeds whatever the word becomes (R328). -/
def noteWait (id : Nat) (s : State) : State :=
  match s.recs.find id with
  | some r => if s.halted.contains r.part then s else match waitHolds s r with
    | .ok true => s.updRec id (fun r => { r with acquired := true })
    | _ => s
  | none => s

/-- Start the record in focus if it could start and its scheduler chooses its queue. A record of a block that has ended is
discarded (R332). A SELECT brings its fields, by which its count is read (R337). -/
def startRecOf (sel : Option SelectF) (eff : Nat → Rec → State → QRes State) (s : State) : Out :=
  let id := s.focus.record
  .next (match s.recs.find id with
  | none => s
  | some r =>
    if (s.queue r.queue).stream.head? ≠ some id ∨ r.st ≠ .stream ∨ s.halted.contains r.part then s
    else if r.chainPrev = some 0 then retireRec id (endRec id .cancelled s)
    else if !recReady s r then noteWait id s
    else match schedPick s r.part (queueKind r.queue) with
      | some (q, rr) => if q = r.queue then beginRec id r sel eff { s with rr := rr } else noteWait id s
      | none => noteWait id s)

/-- Start the record in focus, of any other kind. -/
def startRec (eff : Nat → Rec → State → QRes State) (s : State) : Out := startRecOf none eff s

/-- Retire a record inside its start. -/
def retireNow (id : Nat) (s : State) : QRes State := .ok (retireRec id (endRec id .done s))

/-- Expand a work record into the shadow bank of its target, with its launch instance (R11, R331). -/
def expandRec (id : Nat) (r : Rec) (count : BitVec 32) (last : Bool) (tag : BitVec 32) (s : State) : State :=
  let (i, s1) := newInst { level := 0, part := r.part, tag := tag, count := count, lastAdded := last } s
  let s2 := s1.updRec id (fun x => { x with st := .shadow, inst := some i })
  match r.target with
  | some k => pumpTarget k s2
  | none => s2

/-! ## Adding records (R330, R333) -/

/-- The checks of a record as it is added (R325, R333). -/
def addCheck (s : State) (r : Rec) (walked : Bool) : Option HwFault :=
  let q := s.queue r.queue
  if walked && r.kind == 10 then some (qmFault 1)
  else if r.bits 21 12 ≠ r.queue || (walked && !(q.on && q.part == r.part)) || r.bits 11 10 ≠ q.cls || !admits r.queue r then some (qmFault 0)
  else match decodeRecord r.word with
    | .error _ => some (qmFault 0)
    | .ok i => if codesOk i then none else some (qmFault 0)

/-- Add a record to the stream of its queue: its graph and phase count it; a count that would pass its end, or a check that
fails, is a fault of the record (R13, R346). -/
def addRec (r : Rec) (walked : Bool) (s : State) : State :=
  let id := s.nextId
  let s0 := { s with nextId := id + 1 }
  let phased : Option State := match instAdd s0 r.graph with
    | none => none
    | some s1 => match r.phase with
      | some p => instAdd s1 p
      | none => some s1
  match phased with
  | none => abortGraph r.graph .faulted (qmRecord r { f := countOverflow } true 0 s0)
  | some s1 =>
    let s2 := { s1 with recs := s1.recs.put id r }
    match addCheck s2 r walked with
    | some f => recFault id { f := f } s2
    | none =>
      if r.skip then s2.updRec id (fun r => { r with st := .done .done })
      else if ((r.phase.bind s2.insts.find).map (·.cancelled)) = some true then s2.updRec id (fun r => { r with st := .done .cancelled })
      else markHead r.queue (s2.updQueue r.queue (fun q => { q with stream := q.stream ++ [id] }))

/-- What the source of a record remembers of it for the block (R332). -/
def blockNext (id : Nat) (word : BitVec 512) : Option Nat := if word.getLsbD 29 then some id else none

/-! ## Graph walks (R333 to R337) -/

/-- The position of byte `k` of the element data of an object. -/
def Obj.bytePos (o : Obj) (k : Nat) : Nat := 8 * k / fmtBits o.fmt

/-- A fault of the walk that reaches an object is what it is where the walk cannot be read (R50, R54); any other fault of its entry is `bad`. -/
def walkOr (f : HwFault) (id : Nat) (bad : QErr) : QErr := if f = accessFault 6 ∨ f = accessFault 7 then ⟨f, id, 0⟩ else bad

/-- Record `i` of a graph object: the 64 bytes of its element data from byte 64 i. -/
def graphWord (s : State) (part gobj i : Nat) : QRes (BitVec 512) :=
  match objFor s qmPort (.job (some part)) .read gobj with
  | .error f => .error ⟨f, gobj, 0⟩
  | .ok o =>
    let pos := o.bytePos (64 * i)
    let here : QErr := ⟨qmFault 4, gobj, (o.place pos).1⟩
    match readElems qmPort o o.ttPtr none (512 / fmtBits o.fmt) pos s with
    | .error f => .error { here with f := f }
    | .ok (es, _) =>
      if es.any (·.bad) then .error { here with f := accessFault 7 } else
      match tileRaw s qmPort o o.ttPtr (o.place pos).1 with
      | .ok t => if t.tier = .lpddr then .ok (.ofNat 512 (packList (fmtBits o.fmt) (es.map (·.code)))) else .error here
      | .error f => .error { here with f := f }

/-- The walk ends: the graph's and its last phase's last members have been added. -/
def endWalk (g : Nat) (w : Walk) (s : State) : State :=
  let s1 := match w.phase with
    | some p => instLast s p
    | none => s
  settleGraphs (instLast { s1 with walks := s1.walks.del g } g)

/-- A suspended walk takes its number (R371). -/
def numberWalk (g : Nat) (r : Rec) (e : QErr) (n : Nat) (s : State) : State :=
  { qmRecord r e false n s with susps := s.susps.put n (.walk g) }.updWalk g (fun w => { w with susp := n })

/-- A fault of a walk: a translation fault suspends it, any other ends its graph with a record of the GRAPH record (R346). -/
def walkFault (g : Nat) (w : Walk) (e : QErr) (s : State) : State :=
  match s.recs.find w.record with
  | none => abortGraph g .faulted s
  | some r =>
    if e.f.code = 0x0F then
      match freeSusp s with
      | none => (waitSusp 464 (.walk g) e.f { obj := e.obj, tile := e.tile } s).updWalk g (fun w => { w with susp := waitMark })
      | some n => numberWalk g r e n s
    else abortGraph g .faulted (qmRecord r e true 0 s)

/-- One step of a walk: add record `next`, or end. -/
def walkStep (g : Nat) (w : Walk) (s : State) : State :=
  if w.next ≥ w.nrec then endWalk g w s else
  match graphWord s w.part w.gobj w.next with
  | .error e => walkFault g w e s
  | .ok v =>
    let qn := bitsOf v.toNat 21 12
    let kind := bitsOf v.toNat 3 0
    if (s.queue qn).on && decide (64 ≤ (s.queue qn).stream.length) then s else
    let s1 := if kind = 9 then (match w.phase with
      | some p => instLast s p
      | none => s) else s
    let (ph, s2) := if kind = 9 then
        let (i, s') := newInst { level := 1, part := w.part, tag := .ofNat 32 (bitsOf v.toNat 159 128) } s1
        (some i, s')
      else (w.phase, s1)
    let id := s2.nextId
    let s3 := s2.updWalk g (fun w => { w with next := w.next + 1, phase := ph, lastRec := blockNext id v, skip := false, entry := none, ltag := none,
                                              waitFor := if kind = 7 ∨ kind = 8 then some id else none })
    addRec { word := v, queue := qn, part := w.part, graph := g, phase := if kind = 9 then none else ph, index := w.next, chainPrev := w.lastRec,
             skip := w.skip && kind == 1, entry := w.entry, ltag := w.ltag } true s3

/-- Whether a walk may go on. -/
def walkFree (s : State) (g : Nat) : Option Walk :=
  match s.walks.find g with
  | some w => if w.susp = 0 ∧ w.waitFor = none then some w else none
  | none => none

/-- A walk adds records while it can. -/
def pumpWalk (g : Nat) : Nat → State → State
  | 0, s => s
  | fuel + 1, s =>
    match walkFree s g with
    | some w => pumpWalk g fuel (walkStep g w s)
    | none => s

end Sys2Proof.Machine
end

