-- ==== Sys2Proof/WellFormed.lean ====
section
/-!
DEFINITION. Well-formed instructions: those whose fields keep the limits of the spec (R111, R112 RANGE, R24, R104, R206 to R216,
R245, R279, R306, R325, R326).
-/
namespace Sys2Proof

/-- Every limit on the fields of an instruction. -/
def Instr.wf (i : Instr) : Bool := seqOk i && entryOk i && immPlaced i && matrixOk i && portOk i && recordOk i

end Sys2Proof
end

