-- ==== Sys2Proof/Machine/Scan.lean ====
section
/-!
DEFINITION. The scanner of MAP (spec 07 R86 to R97, R105 to R108, R111 to R114): the first failure of a line, the tiles that pass,
and the scan report.
-/
namespace Sys2Proof.Machine

/-- What the scanner sees: the lines, the covered lines from `lo` up to `hi`, and the line count of the object. -/
structure Scanned where
  line : Nat → BitVec 512
  lo : Nat
  hi : Nat
  total : Nat

/-- A failure: the word, the check and the failing word's content. -/
abbrev LineFail := Nat × Check × Nat

/-! ## Sequencer code (R90 to R95) -/

/-- Whether an opcode admits an extension word (R92, R93). -/
def takesExt (op : Nat) : Bool :=
  decide ((0x18 ≤ op ∧ op ≤ 0x1B) ∨ op = 0x1F ∨ op = 0x2A ∨ (0x30 ≤ op ∧ op ≤ 0x3D) ∨ op = 0x3F ∨ op = 0x41 ∨ op = 0x43 ∨ op = 0x46
    ∨ op = 0x47 ∨ op = 0x56 ∨ op = 0x57)

/-- Whether the target of a transfer or an arm from line `n` breaks R95, checked in full within the covered tiles; one below line 0 does (log
entry 94). -/
def targetBad (c : Scanned) (n : Nat) (off : Int) (eng word : Nat) : Bool :=
  let t : Int := n + off
  if t < 0 ∨ (c.total : Int) ≤ t then true
  else
    let k := t.toNat
    decide (c.lo ≤ k ∧ k < c.hi) && (lineEngine (c.line k) != eng || lineKind (c.line k) != 0 || (eng = 0 && !bundleStart (c.line k) word))

/-- The TARGET check of an instruction in line `n`. -/
def seqTargetBad (c : Scanned) (n : Nat) (i : Instr) : Bool :=
  match i with
  | .br _ _ _ loff word x => targetBad c n (extImm loff x) 0 word.toNat
  | .bf _ _ _ loff word x => targetBad c n (extImm loff x) 0 word.toNat
  | .jmp _ loff word x => targetBad c n (extImm loff x) 0 word.toNat
  | .call _ loff word x => targetBad c n (extImm loff x) 0 word.toNat
  | .loop _ _ loff word x => targetBad c n (extImm loff x) 0 word.toNat
  | .arm _ stream _ loff x => targetBad c n (extImm loff x) (stream.toNat + 1) 1
  | _ => false

/-- The checks 0x0A to 0x0C of an instruction word, which answers for what shows only with its extension word (log entry 94). -/
def seqWordFail (c : Scanned) (n : Nat) (w : BitVec 32) (next : Option (BitVec 32)) : Option Check :=
  match decodeSeq w next with
  | .error k => some k
  | .ok i => if !i.wf then some .range else if seqTargetBad c n i then some .target else none

/-- The first word after a fill that is not zero (R90). -/
def fillFail (l : BitVec 512) (k : Nat) : Option LineFail :=
  ((List.range 16).find? (fun j => decide (k < j) && lineWord l j != 0)).map (fun j => (j, .fill, (lineWord l j).toNat))

/-- The words of a sequencer line from word `k`: `pos` words of the open bundle stand before it, `rank` tells the slot kind its next
word must reach, and `ext` says whether an extension word may stand here. A zero word in an open bundle is no instruction (log entry 94). -/
def seqFail (c : Scanned) (n : Nat) (l : BitVec 512) : Nat → Nat → Nat → Nat → Bool → Option LineFail
  | 0, _, _, _, _ => none
  | fuel + 1, k, pos, rank, ext =>
    if k > 15 then none else
    let w := lineWord l k
    let sk := w.toNat / 2 ^ 30
    let op := w.toNat / 2 ^ 21 % 256
    let e := w.getLsbD 29
    let bad := fun (x : Check) => some (k, x, w.toNat)
    let crossed := decide (3 ≤ pos) || (k == 15 && !e)
    if pos = 0 ∧ w = 0 then (if k = 1 then bad .bundle else fillFail l k)
    else if sk = 3 then
      if crossed || !ext then bad .bundle else seqFail c n l fuel (k + 1) (if e then 0 else pos + 1) (if e then 0 else rank) false
    else match slotOf op with
      | none => bad (if op = 0 then .opcodeRsvd else .opcodeMap)
      | some slot =>
        if slot ≠ sk then bad .slot
        else if crossed || decide (slot < rank) then bad .bundle
        else match seqWordFail c n w (if e then none else some (lineWord l (k + 1))) with
          | some x => bad x
          | none => seqFail c n l fuel (k + 1) (if e then 0 else pos + 1) (if e then 0 else slot + 1) (!e && takesExt op)

/-! ## Bank and station code (R96, R105 to R108) -/

/-- The stations that implement an opcode, by ENGINE code (R108). -/
def stationsOf (op : Nat) : List Nat :=
  if op ≤ 0x6B then [9, 10, 11, 12, 13, 14, 15, 16]
  else if op ≤ 0x8A then [10, 13]
  else if op ≤ 0x96 then [11]
  else if op ≤ 0xA0 then [14]
  else if op ≤ 0xAD then [15]
  else if op ≤ 0xB5 then [12]
  else if op ≤ 0xBC then [9]
  else [16]

/-- The reserved values of the bank and station maps (R107, R108). -/
def entryRsvd (op : Nat) : Bool :=
  decide ((0x62 ≤ op ∧ op ≤ 0x67) ∨ (0x8B ≤ op ∧ op ≤ 0x8F) ∨ op = 0x97 ∨ (0xA1 ≤ op ∧ op ≤ 0xA3) ∨ op = 0xAE ∨ op = 0xAF ∨ op = 0xB6
    ∨ op = 0xB7 ∨ (0xBD ≤ op ∧ op ≤ 0xBF) ∨ 0xC4 ≤ op)

/-- An entry with its reserved operand codes read as NONE, so that its reserved fields can be judged before its operands. -/
def clearOpnds (w : BitVec 64) : BitVec 64 :=
  let v := w.toNat
  let fix := fun (v lo : Nat) => if (Opnd.ofCode (v / 2 ^ lo % 64)).isNone then v - v / 2 ^ lo % 64 * 2 ^ lo + Opnd.none.code * 2 ^ lo else v
  .ofNat 64 (fix (fix (fix v 32) 38) 44)

/-- The first failure of an entry of an engine. -/
def entryFail (eng : Nat) (w : BitVec 64) : Option Check :=
  let op := w.toNat / 2 ^ 56
  if (if eng ≤ 8 then decide (op < 0x58 ∨ 0x67 < op) else decide (op < 0x68 ∨ 0xCF < op)) then some .opcodeMap
  else if entryRsvd op then some .opcodeRsvd
  else if 8 < eng ∧ !(stationsOf op).contains eng then some .opcodeStation
  else match decodeEntry (clearOpnds w) with
    | .error k => some k
    | .ok _ => match decodeEntry w with
      | .error k => some k
      | .ok i => if i.wf then none else some .range

/-- The slots of a bank or station line from slot `j`; then bytes 60 to 63. -/
def slotsFail (eng : Nat) (l : BitVec 512) : List Nat → Option LineFail
  | [] => if lineWord l 15 = 0 then none else some (15, .fill, (lineWord l 15).toNat)
  | j :: js =>
    let w := lineSlot l j
    if w = 0 then
      if j = 0 then some (1, .bundle, 0)
      else match js.find? (fun k => lineSlot l k != 0) with
        | some k => some (1 + 2 * k, .fill, (lineSlot l k).toNat)
        | none => if lineWord l 15 = 0 then none else some (15, .fill, (lineWord l 15).toNat)
    else match entryFail eng w with
      | some x => some (1 + 2 * j, x, w.toNat)
      | none => slotsFail eng l js

/-! ## Lines, tiles and the report (R112 to R114) -/

/-- The first failure of line `n`. -/
def lineFail (c : Scanned) (n : Nat) : Option LineFail :=
  let l := c.line n
  let bad := fun (x : Check) => some (0, x, (lineWord l 0).toNat)
  let next := lineNext l
  if 17 ≤ lineEngine l then bad .linkEngine
  else if 2 ≤ lineKind l then bad .linkKind
  else if next ≠ chainEnd ∧ (c.total ≤ next ∨ (c.lo ≤ next ∧ next < c.hi ∧
      (lineEngine (c.line next) ≠ lineEngine l ∨ lineKind (c.line next) ≠ lineKind l))) then bad .linkNext
  else if lineKind l = 1 then (if next = chainEnd then none else bad .dataNext)
  else if lineEngine l = 0 then seqFail c n l 16 1 0 0 false
  else slotsFail (lineEngine l) l (List.range 7)

/-- The failed lines of the covered tiles, ascending. -/
def scanLines (c : Scanned) : List (Nat × LineFail) :=
  (List.range (min c.hi c.total - c.lo)).filterMap (fun k => (lineFail c (c.lo + k)).map (fun f => (c.lo + k, f)))

/-- Whether a tile passes. -/
def tilePasses (fails : List (Nat × LineFail)) (tile : Nat) : Bool := !fails.any (fun f => f.1 / 64 == tile)

/-- The scan report (R114). -/
def scanReport (obj first ntiles cap : Nat) (fails : List (Nat × LineFail)) : List Byte :=
  let shown := fails.take cap
  let passed := ((List.range ntiles).filter (fun t => tilePasses fails (first + t))).length
  bytesOfNat 16 (obj % 2 ^ 24 + fails.length % 2 ^ 24 * 2 ^ 24 + shown.length * 2 ^ 48 + passed * 2 ^ 64 + (ntiles - passed) * 2 ^ 96)
    ++ (shown.map (fun f => bytesOfNat 16 (f.1 + f.2.1 * 2 ^ 25 + f.2.2.1.code * 2 ^ 56 + f.2.2.2 * 2 ^ 64))).flatten

end Sys2Proof.Machine
end

