-- ==== Sys2Proof/Machine/Records.lean ====
section
/-!
DEFINITION. The records of the queue manager (spec 23 R322 to R342, 07 R113, R114, 01 R24), the queues themselves and their
rings (R323, R324), and cancels by level and tag (R338).
-/
namespace Sys2Proof.Machine

/-! ## Control records -/

/-- NOP (R331). -/
def execNopRecord (_h : RHdr) (s : State) : Out := startRec (fun id _ s => retireNow id s) s
/-- WAIT (R328, R331): its wait is what it does. -/
def execWaitRecord (_h : RHdr) (s : State) : Out := startRec (fun id _ s => retireNow id s) s
/-- SIGNAL (R329, R331): its signal is what it does. -/
def execSignalRecord (_h : RHdr) (s : State) : Out := startRec (fun id _ s => retireNow id s) s
/-- PHASE (R331, R334): the walk that added it has started its instance. -/
def execPhase (_h : RHdr) (_c : PhaseF) (s : State) : Out := startRec (fun id _ s => retireNow id s) s

/-- The walk of the graph that holds a record; QM KIND outside one. -/
def walkOf (s : State) (r : Rec) : QRes Walk :=
  match s.walks.find r.graph with
  | some w => .ok w
  | none => .error { f := qmFault 1 }

/-- BRANCH sets the walk's next index (R335). -/
def branchEff (c : BranchF) (id : Nat) (r : Rec) (s : State) : QRes State := do
  let w ← walkOf s r
  if c.target.toNat > w.nrec then throw { f := qmFault 4, obj := w.gobj }
  let v ← semGet s r.part c.bsem.toNat
  retireNow id (s.updWalk r.graph (fun w => { w with next := if semCmp c.bop.toNat v c.bval.toNat then c.target.toNat else r.index + 1 }))

/-- BRANCH (R335). -/
def execBranch (_h : RHdr) (c : BranchF) (s : State) : Out := startRec (branchEff c) s

/-- The bucket of a table line that serves a count: the least with ROWS nonzero and not below it (R118, R337). -/
def bucketOf (l : BitVec 512) (n : Nat) : Option Nat :=
  ((List.range 6).map (fun k => (lineSlot l k).toNat)).find? (fun e => decide (e / 2 ^ 32 ≠ 0 ∧ n ≤ e / 2 ^ 32))

/-- SELECT tells the walk what to do with the next LAUNCH (R337). -/
def selectEff (c : SelectF) (id : Nat) (r : Rec) (s : State) : QRes State := do
  let w ← walkOf s r
  let cnt ← match r.count with
    | some n => pure n
    | none => selectCount s r.part c
  if w.nrec ≤ r.index + 1 then throw { f := qmFault 1 }
  let v ← graphWord s r.part w.gobj (r.index + 1)
  if bitsOf v.toNat 3 0 ≠ 1 then throw { f := qmFault 1 }
  let obj := bitsOf v.toNat 151 128
  let l ← match codeLine s qmPort (.job (some r.part)) .fetch obj c.tline.toNat with
    | .ok l => pure l
    | .error f => throw (if f.code = 0x0F then ⟨f, obj, c.tline.toNat / 64⟩ else walkOr f obj ⟨qmFault 3, obj, 0⟩)
  if lineEngine l ≠ 0 ∨ lineKind l ≠ 1 then throw ⟨qmFault 3, obj, 0⟩
  if cnt = 0 ∧ c.skip0 = 1 then retireNow id (s.updWalk r.graph (fun w => { w with skip := true }))
  else match bucketOf l cnt with
    | none => throw ⟨qmFault 3, obj, 0⟩
    | some e => retireNow id (s.updWalk r.graph (fun w => { w with
        entry := some (e % 2 ^ 25)
        ltag := if c.tagl = 1 then some (.ofNat 32 cnt) else none }))

/-- SELECT (R337). -/
def execSelect (_h : RHdr) (c : SelectF) (s : State) : Out := startRecOf (some c) (selectEff c) s

/-- Whether a tile that holds records of a graph lies off the LPDDR tier. -/
def graphOff (s : State) (o : Obj) (nrec : Nat) : Bool :=
  (((List.range nrec).flatMap (fun i => [(o.place (o.bytePos (64 * i))).1, (o.place (o.bytePos (64 * i + 63))).1])).eraseDups).any (fun t =>
    match tileRaw s qmPort o o.ttPtr t with
    | .ok e => e.present && e.tier != .lpddr
    | .error _ => false)

/-- GRAPH starts its instance and walks its object (R333). -/
def graphEff (c : GraphF) (id : Nat) (r : Rec) (s : State) : QRes State := do
  if c.nrec = 0 then throw { f := qmFault 6 }
  let bad : QErr := ⟨qmFault 4, c.gobj.toNat, 0⟩
  let o ← match objEntry s qmPort c.gobj.toNat with
    | .ok o => pure o
    | .error f => throw (walkOr f c.gobj.toNat bad)
  if o.alias0 || o.kind != 7 || o.ndim != 1 || o.owner != r.part || decide (o.elems < 64 * c.nrec.toNat) || graphOff s o c.nrec.toNat then throw bad
  let job := (s.queue r.queue).jobInst
  let s1 ← match (match job with
      | some j => instAdd s j
      | none => some s) with
    | some s1 => pure s1
    | none => throw { f := countOverflow }
  let (g, s2) := newInst { level := 2, part := r.part, tag := c.gtag, parent := job } s1
  let s3 := s2.updRec id (fun r => { r with st := .running, inst := some g })
  pure (pumpWalk g 64 { s3 with walks := s3.walks.put g { gobj := c.gobj.toNat, nrec := c.nrec.toNat, part := r.part, record := id } })

/-- GRAPH (R333). -/
def execGraph (_h : RHdr) (c : GraphF) (s : State) : Out := startRec (graphEff c) s

/-- IRQ (R339): its vector is posted after the release. -/
def irqEff (c : IrqF) (id : Nat) (r : Rec) (s : State) : QRes State :=
  let v := c.vector.toNat
  let p := partReg s r.part 9
  if fieldOf p 10 0 ≤ v ∧ v < fieldOf p 10 0 + fieldOf p 22 11 then retireNow id s else .error { f := qmFault 5 }

/-- IRQ (R339). -/
def execIrq (_h : RHdr) (c : IrqF) (s : State) : Out := startRec (irqEff c) s

/-- STAMP (R339): the time stamp of its start and its graph's tag. -/
def stampEff (c : StampRecordF) (id : Nat) (r : Rec) (s : State) : QRes State := do
  if !landAligned c.dst then throw { f := qmFault 6 }
  let s1 ← recLandPut r.part c.dst.toNat (bytesOfNat 16 (s.now % 2 ^ 64 + (instTag s r.graph).toNat * 2 ^ 64)) s
  retireNow id s1

/-- STAMP (R339). -/
def execStampRecord (_h : RHdr) (c : StampRecordF) (s : State) : Out := startRec (stampEff c) s

/-- FENCE waits at work inside the queue manager (R331). -/
def execFenceRecord (_h : RHdr) (s : State) : Out := startRec (fun id _ s => .ok (s.updRec id (fun r => { r with st := .running }))) s

/-- Whether a FENCE may retire: every earlier record of its stream has retired. -/
def fenceDone (s : State) (id : Nat) (r : Rec) : Bool := !s.recs.any (fun p => decide (p.1 < id) && p.2.queue == r.queue)

/-! ## MAP (R113, R114, R340) -/

/-- The lines of the covered tiles of a code object that lie within its extent (R113): no other byte is read. -/
def mapLines (s : State) (o : Obj) : List Nat → QRes (SMap (BitVec 512))
  | [] => .ok []
  | t :: ts =>
    match tileRaw s qmPort o o.ttPtr t with
    | .error f => .error ⟨f, o.id, t⟩
    | .ok e =>
      if !e.present then .error ⟨xlateFault 0, o.id, t⟩ else
      let n := min 64 (o.elems / 64 - 64 * t)
      match tierRead s o e.tier e.addr (64 * n) none with
      | .error f => .error ⟨f, o.id, t⟩
      | .ok (_, true, _) => .error ⟨accessFault 7, o.id, t⟩
      | .ok (b, false, _) => match mapLines s o ts with
        | .error x => .error x
        | .ok m => .ok (((List.range n).map (fun k => (64 * t + k, .ofNat 512 (natOfBytes ((b.drop (64 * k)).take 64))))) ++ m)

/-- Set X of a tile entry as the scan decided; tells whether it changed. -/
def setX (o : Obj) (t : Nat) (x : Bool) (s : State) : QRes (Bool × State) :=
  let a := tileAddr o.ttPtr t
  match lpRead s a 8 (tableColour s) with
  | .error f => .error ⟨f, o.id, t⟩
  | .ok b =>
    let v := natOfBytes b
    if (bitsOf v 4 4 = 1) = (x = true) then .ok (false, s)
    else match lpWrite s a (bytesOfNat 8 (setBits v 4 4 (if x then 1 else 0))) (tableColour s) with
      | .error f => .error ⟨f, o.id, t⟩
      | .ok s' => .ok (true, s')

/-- Set X of each covered tile, and collect the tiles whose X changed. -/
def setXs (o : Obj) (pass : Nat → Bool) : List Nat → State → QRes (List Nat × State)
  | [], s => .ok ([], s)
  | t :: ts, s => do
    let (ch, s1) ← setX o t (pass t) s
    let (l, s2) ← setXs o pass ts s1
    pure (if ch then t :: l else l, s2)

/-- Invalidate one tile at every port (R257, R340), and collect the commands that may still make covered accesses. -/
def invalTile (obj : Nat) (acc : List Nat × State) (t : Nat) : List Nat × State :=
  let v : Cover := ⟨false, [obj], t, some 1⟩
  (acc.1 ++ aheadOf none v acc.2, placeMarkers 0 v acc.2)

/-- MAP scans its tiles, sets X and writes its report; it retires when its invalidations have completed. -/
def mapEff (c : MapF) (id : Nat) (r : Rec) (s : State) : QRes State := do
  let bad : QErr := ⟨qmFault 6, c.obj.toNat, 0⟩
  let o ← match objEntry s qmPort c.obj.toNat with
    | .ok o => pure o
    | .error f => throw (walkOr f c.obj.toNat bad)
  let first := c.first.toNat
  let n := c.ntiles.toNat
  if o.alias0 || o.kind != 1 || o.owner != r.part || n == 0 || decide (o.tiles < first + n) || !landAligned c.report then throw bad
  let _ ← recLand s r.part c.report.toNat (16 + 16 * c.cap.toNat)
  let tiles := (List.range n).map (first + ·)
  let m ← mapLines s o tiles
  let fails := scanLines ⟨fun k => SMap.get 0 m k, 64 * first, 64 * (first + n), o.elems / 64⟩
  let (changed, s1) ← setXs o (tilePasses fails) tiles s
  let (after, s2) := changed.foldl (invalTile o.id) ([], s1)
  let s3 ← recLandPut r.part c.report.toNat (scanReport o.id first n c.cap.toNat fails) s2
  let susps := if changed.isEmpty then [] else suspsAhead s
  if after.isEmpty && susps.isEmpty then retireNow id s3
  else pure (s3.updRec id (fun r => { r with st := .running, after := after, afterSusps := susps }))

/-- MAP (R340). -/
def execMap (_h : RHdr) (c : MapF) (s : State) : Out := startRec (mapEff c) s

/-- Whether the invalidations of a MAP have completed. -/
def mapDone (s : State) (r : Rec) : Bool := allPassed s ⟨false, [r.bits 151 128], 0, none⟩ r.after r.afterSusps

/-! ## Work records -/

/-- The fields of a LAUNCH as it runs: its ENTRY and tag as a SELECT chose them (R337). -/
def launchFields (r : Rec) (c : LaunchRecordF) : LaunchRecordF :=
  { c with entry := match r.entry with
      | some e => .ofNat 25 e
      | none => c.entry,
           ltag := r.launchTag }

/-- The member cores of an allotment. -/
def memberCores (c : LaunchRecordF) : List Nat := ((List.range 40).filter (fun k => c.coreMask.getLsbD k)).map (40 * c.band.toNat + ·)

/-- Whether a core is online (R398). -/
def online (s : State) (core : Nat) : Bool := (s.reg (0xE50 + core / 64)).getLsbD (core % 64)

/-- A fault of the reads that a check makes is what it is where the walk or the line cannot be read (R50, R54); any other makes the check fail. -/
def checkOr (f : HwFault) (id k : Nat) : QErr := walkOr f id { f := { code := 0x0C, sub := k } }

/-- The checks of R24, in the order of its table. -/
def launchCheck (s : State) (r : Rec) (c : LaunchRecordF) : Option QErr :=
  let mem := memberCores c
  let bad := fun (k : Nat) => some ({ f := { code := 0x0C, sub := k } } : QErr)
  if !launchRsvdOk c then bad 0
  else if !launchRangeOk c || (c.landLen != 0 && decide (stagingEnd s c.landSlice.toNat < 4096 * (c.landBase.toNat + c.landLen.toNat)))
      || mem.any (fun k => !online s k) then bad 1
  else if mem.any (fun k => !partHasCore s r.part k) || (c.landLen != 0 && !(partReg s r.part 6).getLsbD c.landSlice.toNat) then bad 2
  else match codeLine s qmPort (.job (some r.part)) .fetch c.codeObj.toNat c.entry.toNat with
    | .error f => some (checkOr f c.codeObj.toNat 3)
    | .ok l =>
      if lineEngine l ≠ 0 ∨ lineKind l ≠ 0 then bad 3
      else if c.parLines = 0 then none
      else match objFor s qmPort (.job (some r.part)) .read c.parObj.toNat with
        | .error f => some (checkOr f c.parObj.toNat 4)
        | .ok o => if o.elems * fmtBits o.fmt / 8 < 64 * c.parLines.toNat then bad 4 else none

/-- LAUNCH passes the checks of its allotment and expands into its band's bank. -/
def launchEff (c : LaunchRecordF) (id : Nat) (r : Rec) (s : State) : QRes State :=
  match launchCheck s r (launchFields r c) with
  | some e => .error e
  | none => .ok (expandRec id r 0 false r.launchTag s)

/-- LAUNCH (R24, R331). -/
def execLaunchRecord (_h : RHdr) (c : LaunchRecordF) (s : State) : Out := startRec (launchEff c) s

/-- A command record passes the checks of its words (R341) and expands. -/
def commandEff (port : Nat) (w : BitVec 256) (id : Nat) (r : Rec) (s : State) : QRes State :=
  if !portOpOk port (bitsOf w.toNat 7 0) then .error ⟨cmdBad 2, 0, 0⟩
  else match portBad true w with
    | some k => .error ⟨cmdBad 3, 0, k⟩
    | none => .ok (expandRec id r 1 true (instTag s r.graph) s)

/-- FERRY (R331, R341): its ferry must lie in the partition. -/
def execFerryRecord (_h : RHdr) (c : FerryRecordF) (s : State) : Out :=
  startRec (fun id r s => if (partReg s r.part 7).getLsbD c.ferry.toNat then commandEff 0 (cmdWord c.c0 c.c1 c.c2 c.c3) id r s
    else .error { f := qmFault 6 }) s
/-- STORE (R331, R341). -/
def execStoreRecord (_h : RHdr) (c : StoreRecordF) (s : State) : Out := startRec (commandEff 1 (cmdWord c.c0 c.c1 c.c2 c.c3)) s
/-- KV (R331, R341). -/
def execKvRecord (_h : RHdr) (c : KvRecordF) (s : State) : Out := startRec (commandEff 2 (cmdWord c.c0 c.c1 c.c2 c.c3)) s

/-! ## Queues and rings (R323, R324) -/

/-- The descriptor of a queue. -/
def descAddr (s : State) (q : Nat) : Nat := 64 * fieldOf (s.reg 0xC00) 39 0 + 64 * q

/-- HEAD and ON as the queue manager writes them back. -/
def writeHead (q : Nat) (s : State) : State :=
  let x := s.queue q
  bareWrite s (descAddr s q + 16) (bytesOfNat 8 (x.head.toNat + (if x.on then 2 ^ 32 else 0)))

/-- What breaks the conditions of R323 at a ring or tail object: QM RANGE, or a walk that cannot be read. -/
def ringObjBad (s : State) (id part need : Nat) : Option QErr :=
  let bad : QErr := ⟨qmFault 6, id, 0⟩
  match objEntry s qmPort id with
  | .error f => some (walkOr f id bad)
  | .ok o =>
    if o.alias0 || o.ndim != 1 || o.fmt != .ui8 || o.owner != part || decide (o.elems < need) then some bad
    else (List.range o.tiles).findSome? (fun t => match tileRaw s qmPort o o.ttPtr t with
        | .ok e => if e.present && e.tier == .flash then some bad else none
        | .error f => some { walkOr f id bad with tile := t })

/-- A queue stays off, with a record that names it. -/
def offRecord (q : Nat) (part : Option Nat) (e : QErr) (s : State) : State :=
  record s 464 e.f false false 0 0 part none
    (if e.f.code = 0x0B then [.ofNat 64 q] else [.ofNat 64 q, .ofNat 64 (domainId s e.obj), .ofNat 64 e.tile])

/-- The job instance a queue joins: the running one, or a new one (R334). -/
def joinJob (part job : Nat) (s : State) : Nat × State :=
  match s.insts.find? (fun p => p.2.level == 3 && p.2.part == part && p.2.tag == .ofNat 32 job && p.2.status == .running) with
  | some (i, t) => (i, { s with insts := s.insts.put i { t with lastAdded := false } })
  | none => newInst { level := 3, part := part, tag := .ofNat 32 job } s

/-- QUEUE_ON (R323). -/
def turnOn (q : Nat) (s : State) : State :=
  let x := s.queue q
  if x.on then s else
  match bareRead s (descAddr s q) 64 with
  | .error f => offRecord q none { f := f } s
  | .ok d =>
  let b := bitsOf (natOfBytes d)
  let part := b 36 33
  let y : Queue := { x with
    ring := b 23 0, log2n := b 27 24, cls := b 29 28, level := b 32 30, part := part, weight := max (b 44 37) 1, job := b 52 45
    tobj := b 87 64, toff := b 127 88, head := .ofNat 32 (b 159 128), tail := .ofNat 32 (b 159 128), on := true, susp := 0, lastRec := none, discard := false }
  let own : Option QErr := if decide (2 ≤ y.log2n ∧ y.log2n ≤ 15 ∧ y.cls ≠ 3 ∧ y.toff % 64 = 0) && partOn s part then none else some { f := qmFault 6 }
  match own <|> ringObjBad s y.ring part (64 * 2 ^ y.log2n) <|> ringObjBad s y.tobj part (y.toff + 64) with
  | none =>
    let (i, s1) := joinJob part y.job s
    writeHead q { s1 with queues := s1.queues.put q { y with jobInst := some i } }
  | some e => offRecord q (some part) e s

/-- QUEUE_ON (R323). -/
def execQueueOn (queue : Nat) (s : State) : Out := .next (turnOn queue s)

/-- QUEUE_OFF (R323, R334): the last queue of a job ends the adding of its graphs. -/
def turnOff (q : Nat) (s : State) : State :=
  let x := s.queue q
  if !x.on then s else
  let s1 := writeHead q { s.updQueue q (fun x => { x with on := false, susp := 0 }) with susps := s.susps.filter (fun p => p.2 != Susp.queue q) }
  match x.jobInst with
  | some j => if s1.queues.any (fun p => p.2.on && p.2.jobInst == some j) then s1 else instLast s1 j
  | none => s1

/-- QUEUE_OFF (R323). -/
def execQueueOff (queue : Nat) (s : State) : Out := .next (turnOff queue s)

/-- A suspended read of a ring or a tail line takes its number (R371). -/
def numberQueue (q : Nat) (e : QErr) (n : Nat) (s : State) : State :=
  { queueRecord q e n s with susps := s.susps.put n (.queue q) }.updQueue q (fun x => { x with susp := n })

/-- A fault of a read of the ring or the tail line: a translation fault suspends it, any other turns the queue off (R324, R346). -/
def ringFault (q : Nat) (e : QErr) (s : State) : State :=
  if e.f.code = 0x0F then
    match freeSusp s with
    | none => (waitSusp 464 (.queue q) e.f { obj := e.obj, tile := e.tile } s).updQueue q (fun x => { x with susp := waitMark })
    | some n => numberQueue q e n s
  else queueRecord q e 0 (turnOff q s)

/-- The producer index in the tail line. -/
def readTail (s : State) (x : Queue) : QRes (BitVec 32) := (qmRead s x.part x.tobj x.toff 4).map (fun b => .ofNat 32 (natOfBytes b))

/-- Take record HEAD of a ring: a record that is not GRAPH forms a graph of its own (R324, R333). -/
def takeRecord (q : Nat) (v : BitVec 512) (s : State) : State :=
  let s1 := writeHead q (s.updQueue q (fun x => { x with head := x.head + 1 }))
  let x := s1.queue q
  if bitsOf v.toNat 3 0 = 10 then
    let id := s1.nextId
    addRec { word := v, queue := q, part := x.part, graph := 0, chainPrev := x.lastRec } false
      (s1.updQueue q (fun x => { x with lastRec := blockNext id v }))
  else
    match (match x.jobInst with
      | some j => instAdd s1 j
      | none => some s1) with
    | none => qmRecord { word := v, queue := q, part := x.part, graph := 0 } { f := countOverflow } true 0 s1
    | some s2 =>
      let (g, s3) := newInst { level := 2, part := x.part, tag := 0, parent := x.jobInst } s2
      let id := s3.nextId
      let s4 := addRec { word := v, queue := q, part := x.part, graph := g, chainPrev := x.lastRec } false
        (s3.updQueue q (fun x => { x with lastRec := blockNext id v }))
      settleGraphs (instLast s4 g)

/-- Take records while HEAD ≠ P and the stream has room (R324, R330); a halted partition's queues take none (R385). -/
def takeRing (q : Nat) (p : BitVec 32) : Nat → State → State
  | 0, s => s
  | fuel + 1, s =>
    let x := s.queue q
    if !x.on || x.head == p || decide (64 ≤ x.stream.length) || s.halted.contains x.part then s else
    match qmRead s x.part x.ring (64 * (x.head.toNat % 2 ^ x.log2n)) 64 with
    | .error e => ringFault q e s
    | .ok b => takeRing q p fuel (takeRecord q (.ofNat 512 (natOfBytes b)) s)

/-- TAIL_WRITE (R324). -/
def execTailWrite (queue : Nat) (s : State) : Out :=
  let x := s.queue queue
  .next (if !x.on || x.susp != 0 then s else
    match readTail s x with
    | .error e => ringFault queue e s
    | .ok p =>
      let s1 := s.updQueue queue (fun x => { x with tail := p })
      if x.discard then writeHead queue (s1.updQueue queue (fun x => { x with head := p, discard := false }))
      else if (p - x.head).toNat > 2 ^ x.log2n then queueRecord queue { f := qmFault 7 } 0 (turnOff queue s1)
      else takeRing queue p 64 s1)

/-! ## Cancels by level and tag (R15, R17, R334, R338) -/

/-- Cancel a phase: the records it holds, and those it is still to take. -/
def cancelPhase (i : Nat) (s : State) : State :=
  let s1 := markInst s i .cancelled
  let s2 := match s1.insts.find i with
    | some t => { s1 with insts := s1.insts.put i { t with cancelled := true } }
    | none => s1
  (s2.recs.filter (fun p => p.2.phase == some i)).foldl (fun s p => cancelRec p.1 s) s2

/-- Discard the records present on a queue (R17): all that its producer index shows. One that cannot be read is read again, and what it
shows then is discarded, with the records last seen gone at once (log entry 96). -/
def discardRing (q : Nat) (x : Queue) (s : State) : State :=
  if !x.on then s else
  match readTail s x with
  | .ok t => writeHead q (s.updQueue q (fun x => { x with head := t }))
  | .error _ => writeHead q (s.updQueue q (fun x => { x with head := x.tail, discard := true }))

/-- Cancel a job: the records on its queues are discarded, and its graphs cancelled (R17). Records of another job's graph that wait on those
queues stay: they are no members of the job (R11; DESIGN CHOICE, log entry 82). -/
def cancelJob (i : Nat) (s : State) : State :=
  let s1 := markInst s i .cancelled
  let qs := s1.queues.filter (fun p => p.2.jobInst == some i)
  let s2 := qs.foldl (fun s p => discardRing p.1 p.2 s) s1
  let s3 := (s2.recs.filter (fun p => p.2.graph == 0 && p.2.st == .stream && qs.any (fun q => q.1 == p.2.queue))).foldl (fun s p => cancelRec p.1 s) s2
  (s3.insts.filter (fun p => p.2.level == 2 && p.2.parent == some i)).foldl (fun s p => abortGraph p.1 .cancelled s) s3

/-- Cancel every running instance of a level with a tag in a partition (R338). At the launch level only LAUNCH records are found: a FERRY, STORE
or KV record carries no LAUNCH_TAG (DESIGN CHOICE; log entry 82). -/
def cancelInst (level part : Nat) (tag : BitVec 32) (s : State) : State :=
  if level = 0 then
    (s.recs.filter (fun p => p.2.kind == 1 && p.2.part == part && p.2.launchTag == tag && p.2.inst.isSome)).foldl (fun s p => cancelRec p.1 s) s
  else
    (s.insts.filter (fun p => p.2.level == level && p.2.part == part && p.2.tag == tag && p.2.status == .running)).foldl (fun s p =>
      match level with
      | 1 => cancelPhase p.1 s
      | 2 => abortGraph p.1 .cancelled s
      | _ => cancelJob p.1 s) s

/-- QM_CANCEL (R338). -/
def execQmCancel (level part : Nat) (tag : BitVec 32) (s : State) : Out := .next (cancelInst level part tag s)

/-- CANCEL retires first, then cancels (R338). -/
def execCancel (_h : RHdr) (c : CancelF) (s : State) : Out :=
  startRec (fun id r s => .ok (cancelInst c.level.toNat r.part c.ctag (retireRec id (endRec id .done s)))) s

end Sys2Proof.Machine
end

