-- ==== Sys2Proof/Machine/Launch.lean ====
section
/-!
DEFINITION. The reservation and the start of a launch (spec 01 R19 to R26, R37, 29 R398), and the choice of the launches that a
launch of a higher class pre-empts (23 R343, 27 R374, R376).
-/
namespace Sys2Proof.Machine

/-! ## What an allotment needs (R25) -/

/-- Whether two landing ranges overlap; a launch with LAND_LEN 0 reserves none (R23). -/
def landLap (a b : LaunchRecordF) : Bool :=
  a.landLen != 0 && b.landLen != 0 && a.landSlice == b.landSlice && decide (a.landBase.toNat < b.landBase.toNat + b.landLen.toNat ∧ b.landBase.toNat < a.landBase.toNat + a.landLen.toNat)

/-- Whether a core is free for a launch: none runs on it, and it is awake (R25, R398). -/
def coreFree (s : State) (c : Nat) : Bool := (s.core c).crew.isNone && !(s.core c).asleep && !(s.core c).sweeping

/-- The crew clocks of a partition that no crew holds, ascending (R20). -/
def freeClocks (s : State) (part : Nat) : List Nat := (List.range 64).filter (fun k => (partReg s part 13).getLsbD k && (s.crew k).isNone)

/-- Whether the landing range of an allotment is free of running launches and of saved ones that keep theirs (R25, R379). -/
def landFree (s : State) (c : LaunchRecordF) (but : Nat) : Bool :=
  !s.crews.any (fun p => p.2.record != but && landLap p.2.allot c)
    && !s.saved.any (fun v => v.record != but && v.landing.isNone && landLap v.crew.allot c)

/-- The class of a record. -/
def Rec.cls (r : Rec) : Nat := r.bits 11 10
/-- The class of the launch that a crew runs. -/
def crewClass (s : State) (w : Crew) : Nat := ((s.recs.find w.record).map (·.cls)).getD 2

/-- The saved launches that come before a record: of its partition, of the same or a higher class, and saved before the record reached the
head of its stream (R343). -/
def savedBefore (s : State) (r : Rec) : List Saved :=
  s.saved.filter (fun v => decide (crewClass s v.crew ≤ r.cls ∧ v.savedAt < r.readyAt.getD 0) && v.crew.part == r.part &&
    (s.recs.find v.record).map (·.st) == some .saved)

/-- Whether a saved launch that comes before a record needs something of its allotment: a core, its landing range, or a crew clock, of which
one is kept for each (R343; log entry 90). -/
def savedAhead (s : State) (r : Rec) (c : LaunchRecordF) (clocks : Nat) : Bool :=
  let l := savedBefore s r
  (!l.isEmpty && decide (clocks ≤ l.length)) || l.any (fun v => v.crew.members.any ((memberCores c).contains ·) || landLap v.crew.allot c)

/-- The fields of a waiting LAUNCH record. -/
def launchOf (r : Rec) : Option LaunchRecordF :=
  match decodeRecord r.word with
  | .ok (.launch_record _ c) => some (launchFields r c)
  | _ => none

/-- The clock a launch would take but for other launches that come first: `none` while something of its allotment is not free. A core gone
offline is not waited for: the launch faults instead (R398). -/
def obtainable (s : State) (id : Nat) (r : Rec) (c : LaunchRecordF) : Option Nat :=
  if (memberCores c).all (fun k => coreFree s k || !online s k) && landFree s c id then (freeClocks s r.part).head? else none

/-- Whether a LAUNCH record stands ready but for its allotment: in a bank, or at the head of its stream with its wait met. -/
def launchWaits (s : State) (id : Nat) (r : Rec) : Bool :=
  r.kind == 1 && (match r.st with
    | .active | .shadow => true
    | .stream => (s.queue r.queue).stream.head? == some id && r.susp == 0 && r.chainPrev.isNone &&
        (match waitHolds s r with
          | .ok b => b
          | .error _ => false)
    | _ => false)

/-- The allotments of the ready launches of a higher class in the partition that could have theirs now: waiting ones that no launch before them in the
banks of their band holds up, and saved ones. -/
def readyAbove (s : State) (part cls : Nat) : List LaunchRecordF :=
  let able := fun (p : Nat × Rec) => match launchOf p.2 with
    | some c => (obtainable s p.1 p.2 c).isSome
    | none => false
  let behind := fun (p q : Nat × Rec) => q.2.target == p.2.target && q.1 != p.1 &&
    (q.2.st == .active || (q.2.st == .shadow && p.2.st != .active)) && !able q
  ((s.recs.filter (fun p => p.2.part == part && decide (p.2.cls < cls) && launchWaits s p.1 p.2 && able p && !s.recs.any (behind p))).filterMap
    (fun p => launchOf p.2))
  ++ (s.saved.filter (fun v => v.crew.part == part && decide (crewClass s v.crew < cls) && (s.recs.find v.record).map (·.st) == some .saved
      && v.crew.members.all (coreFree s) && landFree s v.crew.allot v.record)).map (·.crew.allot)

/-- Whether a ready launch of a higher class needs something that this allotment would take, and can obtain it: a core, landing space, or one of the
last clocks (R37). -/
def outranked (s : State) (part cls : Nat) (c : LaunchRecordF) : Bool :=
  let l := readyAbove s part cls
  l.any (fun d => landLap d c || (memberCores d).any ((memberCores c).contains ·)) || (!l.isEmpty && decide ((freeClocks s part).length ≤ l.length))

/-- Whether a waiting launch claims one of the cores (R37): one of a higher class, or, against a launch that was saved at `since`, one of its
class that had reached the head of its stream by then (R343). Waiting launches of one class take a band's cores in the order of its
banks, which they enter in the order of their claims (`claimedEarlier`). -/
def claimedAbove (s : State) (part cls : Nat) (since : Option Nat) (mem : List Nat) : Bool :=
  s.recs.any (fun p => p.2.part == part && launchWaits s p.1 p.2 &&
    (decide (p.2.cls < cls) || (match since, p.2.readyAt with
      | some t, some h => decide (p.2.cls = cls ∧ h ≤ t)
      | _, _ => false)) &&
    (match launchOf p.2 with
      | some c => (memberCores c).any (mem.contains ·)
      | none => false))

/-- The clock a launch would take: `none` while it must wait, and in a halted partition (R385). -/
def canReserve (s : State) (id : Nat) (r : Rec) (c : LaunchRecordF) : Option Nat :=
  if s.halted.contains r.part || savedAhead s r c (freeClocks s r.part).length || outranked s r.part r.cls c || claimedAbove s r.part r.cls none (memberCores c) then none
  else obtainable s id r c

/-! ## Reservation (R25) -/

/-- Ask the sleeping cores of a launch to wake (R398). -/
def wakeCores (mem : List Nat) (s : State) : State :=
  mem.foldl (fun s c => if (s.core c).asleep then s.updCore c (fun k => { k with sweeping := true }) else s) s

/-- Reserve an allotment at one instant: cores, clock, landing range and kiln arrays. -/
def reserve (id : Nat) (r : Rec) (c : LaunchRecordF) (clk : Nat) (s : State) : State :=
  let mem := memberCores c
  let w : Crew := { members := mem, leader := mem.headD 0, band := c.band.toNat, record := id, part := r.part, allot := c }
  let s1 := { s with crews := s.crews.put clk w }
  let s2 := mem.foldl (fun s k => s.updCore k (fun x => { x with crew := some clk })) s1
  pumpTarget (bandKey c.band.toNat r.part r.cls) (s2.updRec id (fun x => { x with st := .running }))

/-- LAUNCH_RESERVE (R25): a launch in its band's active bank reserves its allotment as soon as all of it is free; one with a core
gone offline faults at the instant it would reserve (R398). -/
def execLaunchReserve (rec : Nat) (s : State) : Out :=
  .next (match s.recs.find rec with
  | some r => match launchOf r with
    | some c =>
      if r.st ≠ .active then s
      else match canReserve s rec r c with
        | some clk =>
          if (memberCores c).all (online s) then reserve rec r c clk s
          else pumpTarget (bandKey c.band.toNat r.part r.cls) (recFault rec { f := { code := 0x0C, sub := 1 } } s)
        | none => wakeCores ((memberCores c).filter (online s)) s
    | none => s
  | none => s)

/-! ## Start (R26) -/

/-- The parameter block of a launch: the first bytes of its parameter object (R26). -/
def parBlock (s : State) (w : Crew) : QRes (List Byte) :=
  if w.allot.parLines = 0 then .ok [] else
  let id := w.allot.parObj.toNat
  let n := 64 * w.allot.parLines.toNat
  match objFor s qmPort (.job (some w.part)) .read id with
  | .error f => .error ⟨f, id, 0⟩
  | .ok o =>
    let cnt := (8 * n + fmtBits o.fmt - 1) / fmtBits o.fmt
    match readElems qmPort o o.ttPtr none cnt 0 s with
    | .error f => .error ⟨f, id, 0⟩
    | .ok (es, _) =>
      if es.any (·.bad) then .error ⟨accessFault 7, id, 0⟩
      else .ok (bytesOfNat n (packList (fmtBits o.fmt) (es.map (·.code))))

/-- The state of a member core at crew cycle 0 (R26, R34, R35, R72, R101, R103, R154, R156). -/
def Core.launched (k : Core) (core : Nat) (w : Crew) (clk : Nat) (par : List Byte) : Core :=
  let c := w.allot
  { k with
    prog := { obj := c.codeObj.toNat, line := c.entry.toNat, check := 2 }
    fw := { k.fw with tickets := [] }
    flags := []
    hsem := k.hsem.filter (fun p => !c.hsemMask.getLsbD p.1)
    hsemPend := k.hsemPend.filter (fun p => !c.hsemMask.getLsbD p.h)
    hsemSat := 0
    hsemMoved := false
    seqMem := Memory.setBytes [] 0x1F000 par
    streams := []
    banks := (List.range 8).map (fun n => (n, { fmt := Fmt.ofCode (fieldOf c.bankFmt (4 * n + 3) (4 * n)) }))
    stns := []
    cbs := []
    cbPoison := []
    tb := 0
    lanes := []
    pend := []
    uses := []
    fr := {}
    mx := { slots := k.mx.slots.map (fun p => (p.1, { p.2 with claimed := false })) }
    xbWin := []
    xbWall := []
    trapCode := 0
    checkedTo := 0
    checkedBundles := 0
    fwN := k.fwMin
    fwTaken := 0
    bundles := 0
    fwSlots := 0
    tag := c.ltag
    holdLimit := 0x010000
    holdLog := false
    band := w.band
    index := core % 40
    crewSize := w.members.length
    leader := w.leader % 40
    clockNo := clk
    cause := 0
    holdCycles := 0
    episodes := 0
    taskDone := false
    faulted := none
    ask := none
    lineMiss := none }

/-- Crew cycle 0 begins on every member, and the launch counts its tasks (R11, R13, R26). -/
def startCrew (clk : Nat) (w : Crew) (par : List Byte) (s : State) : State :=
  let s1 := w.members.foldl (fun s c => s.updCore c (fun k => k.launched c w clk par)) s
  let s2 := { s1 with crews := s1.crews.put clk { w with started := true, clock := 0, coreCycles := 0, startedAt := s.now } }
  match (s2.recs.find w.record).bind (·.inst) with
  | some i => match s2.insts.find i with
    | some t => { s2 with insts := s2.insts.put i { t with count := .ofNat 32 w.members.length, lastAdded := true } }
    | none => s2
  | none => s2

/-- LAUNCH_START (R26). A translation fault of the parameter object suspends the record; any other fault ends the launch. -/
def execLaunchStart (crew : Nat) (s : State) : Out :=
  .next (match s.crew crew with
  | some w =>
    if w.started then s else
    match parBlock s w with
    | .ok par => startCrew crew w par s
    | .error e => match s.recs.find w.record with
      | some r =>
        if r.susp ≠ 0 then s
        else if e.f.code = 0x0F then suspendRec w.record r e s
        else recFault w.record e (releaseCrew s crew)
      | none => s
  | none => s)

/-! ## Pre-emption: the choice of victims (R343, R374, R376) -/

/-- The number of save slots of the pool (R376). -/
def poolSlots (s : State) : Nat := fieldOf (s.reg 0xD80) 32 24

/-- The save slots that a PART_SAVE word names. -/
def saveSlots (w : Word) : List Nat := (List.range (fieldOf w 17 9)).map (fieldOf w 8 0 + ·)

/-- The save slots of a partition, and of the pool, that hold nothing (R376). -/
def freeSlots (s : State) (part : Nat) : List Nat :=
  (saveSlots (partReg s part 14)).filter (fun k => decide (k < poolSlots s) && !s.saved.any (fun x => x.slots.any (fun y => y.2 == k)))

/-- Whether a crew may be chosen: it runs in the partition, is of a lower class, and is neither frozen nor about to be. -/
def mayPreempt (s : State) (r : Rec) (w : Crew) : Bool :=
  w.started && w.part == r.part && w.stopped.isNone && w.frozen.isNone && w.freezeIn.isNone && decide (r.cls < crewClass s w)

/-- The lowest-class, most recently started crew that may be chosen. -/
def lastStarted (s : State) (l : List (Nat × Crew)) : Option (Nat × Crew) :=
  l.foldl (fun b p => match b with
    | none => some p
    | some q => if crewClass s q.2 < crewClass s p.2 ∨ (crewClass s q.2 = crewClass s p.2 ∧ q.2.startedAt ≤ p.2.startedAt) then some p else some q) none

/-- The victims of a launch (R343). -/
def victims (s : State) (r : Rec) (c : LaunchRecordF) : List (Nat × Crew) :=
  let run := s.crews.filter (fun p => mayPreempt s r p.2)
  let hit := run.filter (fun p => p.2.members.any ((memberCores c).contains ·) || landLap p.2.allot c)
  let leaving := s.crews.any (fun p => p.2.part == r.part && (p.2.freezeIn.isSome || (p.2.frozen.isSome && !p.2.restoring)))
  if hit.isEmpty && (freeClocks s r.part).isEmpty && !leaving then (lastStarted s run).toList else hit

/-- Save slots already promised to crews that are about to freeze. -/
def promised (s : State) (part : Nat) : Nat :=
  ((s.crews.filter (fun p => p.2.part == part && p.2.freezeIn.isSome)).map (·.2.members.length)).sum

/-- Ask victims to freeze, as long as a save slot is free for every member (R374, R376). -/
def askFreeze (rec : Nat) : List (Nat × Crew) → Nat → State → State
  | [], _, s => s
  | (k, w) :: vs, room, s =>
    if w.members.length ≤ room then askFreeze rec vs (room - w.members.length) (s.updCrew k (fun w => { w with freezeIn := some (rec, 2) }))
    else askFreeze rec vs room s

/-- PREEMPT (R343): a LAUNCH of a higher class waits for its allotment alone, and its partition allows pre-emption. -/
def execPreempt (rec : Nat) (s : State) : Out :=
  .next (match s.recs.find rec with
  | some r => match launchOf r with
    | some c =>
      if r.st = .active ∧ r.cls < 2 ∧ (partReg s r.part 0).getLsbD 1 ∧ canReserve s rec r c = none then
        askFreeze rec (victims s r c) ((freeSlots s r.part).length - promised s r.part) s
      else s
    | none => s
  | none => s)

end Sys2Proof.Machine
end

