-- ==== Sys2Proof/Machine/Preempt.lean ====
section
/-!
DEFINITION. Services of the firmware context and pre-emption (spec 27 R370 to R382, 25 R363, 23 R343): the start of a service, the
freeze, the save engine with its slot, the report of a saved context, and the restore.
-/
namespace Sys2Proof.Machine

/-! ## Services (R370) -/

/-- The words a SAVE or RESTORE request shows (R372): CODE 0, SUB 5 or 6, the slot and the freeze cycle. -/
def saveWords (s : State) (core kind slot f : Nat) : List Word :=
  recordWords s 464 ⟨0, kind, 0⟩ false false (s.core core).tag 0 ((s.crewOf core).map (·.part)) [.ofNat 64 slot, .ofNat 64 f]

/-- Whether a command is a binding still short of rows: every row appended for it so far has been taken and written (R375). -/
def shortBinding (s : State) (c : Cmd) : Bool :=
  c.port == 0 && c.bits 10 8 == 3 && c.short (rowsNeeded s c) &&
  (match c.core with
    | some k => !(SMap.get [] (s.core k).fr.oq (c.bits 72 70)).any OqItem.isRow
    | none => false) &&
  (((c.st == .buffered || c.st == .queued || c.st == .running) && c.bound.isEmpty) ||
    (c.st == .running &&
      (match c.instr with
        | some i => match planOf s c i with
          | .ok ts => rowsDone c ts == c.bound.length
          | .error _ => false
        | none => false)))

/-- Whether a core is ready for its SAVE service: no TRAP, FETCH or XLATE request of it waits, and every command that either of its contexts
has accepted has completed, but for bindings short of rows (R374, R375, R384; DEDUCED, log entry 92). -/
def saveReady (s : State) (core : Nat) : Bool :=
  !(s.core core).fwq.any (fun r => r.kind == 1 || r.kind == 2 || r.kind == 3) && !fetchWaits s core &&
  s.cmds.all (fun p => match p.2.issuer with
    | .ctx k _ _ => k != core || shortBinding s p.2
    | .record _ => true)

/-- The request that the firmware context of a core takes next (R370): a SAVE waits until the core is ready for it, and a drift trap waits with
it (R384). -/
def nextService (s : State) (core : Nat) : Option FwReq :=
  let q := (s.core core).fwq
  if q.any (fun r => r.kind == 5) && !saveReady s core then nextReq (q.filter (fun r => r.kind == 1 || r.kind == 2 || r.kind == 3)) else nextReq q

/-- FW_SERVICE_START (R370, R372): the request first in order becomes the service; the context issues from FW_ENTRY, its registers as they
were. -/
def execFwServiceStart (core : Nat) (s : State) : Out :=
  let k := s.core core
  .next (match k.svc, nextService s core with
  | none, some r => s.setCore core { k with
      svc := some r
      fwq := k.fwq.erase r
      fwAct := false
      fwSub := 0
      saveOp := 0
      saveDone := false
      fw := { k.fw with obj := k.fwObj.toNat, line := k.fwLine.toNat, word := 1, check := 2, wait := .none, stall := 0, words := 0, stores := [],
                        xfer := none, fault := none, ctl := .none } }
  | _, _ => s)

/-! ## The freeze (R374, R375) -/

/-- Assign the members their save slots and queue their SAVE requests. -/
def askSaves (f : Nat) : List Nat → List Nat → State → State
  | c :: cs, n :: ns, s =>
    askSaves f cs ns (request (s.updCore c (fun k => { k with saveSlot := n })) c ⟨5, s.now, 464, saveWords s c 5 n f, 0⟩)
  | _, _, s => s

/-- FREEZE (R374): every member freezes at the start of the current crew cycle; its results that have not landed are its pending results. A
launch already frozen or stopped is left as it is. -/
def execFreeze (crew : Nat) (s : State) : Out :=
  .next (match s.crew crew with
  | some w => match w.freezeIn with
    | some (rec, 0) =>
      if w.frozen.isSome ∨ w.stopped.isSome then s.updCrew crew (fun w => { w with freezeIn := none }) else
      let slots := (freeSlots s w.part).take w.members.length
      let s1 := w.members.foldl flushVoids (s.updCrew crew (fun w => { w with frozen := some rec, freezeIn := none }))
      let v : Saved := { record := w.record, crew := w, cores := [], remainders := [], slots := w.members.zip slots, landing := none, savedAt := 0,
                         finished := [] }
      askSaves w.clock w.members slots { s1 with saved := s1.saved ++ [v] }
    | _ => s
  | none => s)

/-! ## The slot (R376 to R378) -/

/-- The sideband of a row in a slot. -/
def sideBytesOf (r : Row) : List Byte :=
  bytesOfNat 16 (r.side.toNat + r.tag.code * 2 ^ 64 + (if fmtBounded r.tag then 2 ^ 68 else 0) + (if r.poison then 2 ^ 69 else 0))

/-- Bytes at an offset, unless they are all zero. -/
def partAt (off : Nat) (b : List Byte) : List (Nat × List Byte) := if b.all (· == 0) then [] else [(off, b)]

/-- Rows and their sidebands at two offsets. -/
def rowParts (rows side : Nat) (l : List (Nat × Row)) : List (Nat × List Byte) :=
  l.flatMap (fun p => partAt (rows + 128 * p.1) (bytesOfNat 128 p.2.data.toNat) ++ partAt (side + 16 * p.1) (sideBytesOf p.2))

/-- A pending descriptor and its payload: UNIT, engine index, destination, payload and DUE (R378). -/
structure PendDesc where
  unit : Nat
  engine : Nat
  dest : Nat
  payload : List Byte
  due : Nat
deriving DecidableEq, Repr

/-- The descriptor of a pending register write: bundle n issued with latency L lands it n + L − 1 bundles on, and DUE counts program bundles
after the restore (R378). -/
def regDesc (x : Ctx) (w : RegWrite) : PendDesc := ⟨if w.pred then 1 else 0, 0, w.index, bytesOfNat 8 w.value.toNat, w.due + 1 - x.bundles⟩

/-- A row as a payload: its bytes and its sideband. -/
def rowPayload (r : Row) : List Byte := bytesOfNat 128 r.data.toNat ++ sideBytesOf r

/-- The payload of a row of an accumulator: its 128 elements. -/
def accPayload (a : Acc) (row : Nat) : List Byte := ((List.range 128).map (fun j => bytesOfNat 4 (a.elem row j).toNat)).flatten

/-- The matrix engine after one pending result, in the order of their crew cycles. -/
def Mx.afterPend (m : Mx) (e : Eff) : Mx :=
  match e with
  | .slotRow k n r => m.updSlot k (fun x => { x with rows := x.rows.put n r })
  | .slotRaw k n r => m.updSlot k (fun x => { x with rows := x.rows.put n r })
  | .accRaw acc rowNo q row => m.updAcc acc (fun a => { a with
      elems := (List.range 32).foldl (fun t i => SMap.set 0 t (128 * rowNo + 32 * q + i) (.ofNat 32 (fieldAt 32 row.data i))) a.elems })
  | e => m.landUpdate e

/-- The descriptors of a pending result, where R378 gives its effect a unit: one for each row it writes, with what the row will hold. `m` is the
matrix engine after it. A bank read that is under way carries the row that the array holds (R168). -/
def effDescs (k : Core) (m : Mx) (p : Pend) : List PendDesc :=
  let acc := fun a n => (⟨5, a, n, accPayload (m.acc a) n, p.due⟩ : PendDesc)
  let slot := fun k n => (⟨6, k, n, rowPayload ((m.slot k).row n), p.due⟩ : PendDesc)
  match p.eff with
  | .result u d r _ => [⟨if u = 11 then 7 else 3, u, d.code, rowPayload r, p.due⟩]
  | .mfRead d isMsv fromAcc which n q ty _ => [⟨3, 8, d.code, rowPayload (mfReadRow m isMsv fromAcc which n q ty Rounding.init).1, p.due + 3⟩]
  | .bankRead b l n f => [⟨3, b, (Opnd.lane (.ofNat 4 l)).code, rowPayload ((k.bank b).row n f), p.due⟩]
  | .bankWrite b n w => [⟨4, b, n, rowPayload w.new, p.due⟩]
  | .bankFill b n _ w => [⟨4, b, n, rowPayload w.new, p.due⟩]
  | .accUpd a n _ _ _ _ _ => [acc a n]
  | .accRaw a n _ _ => [acc a n]
  | .accClear a _ => (List.range 128).map (acc a)
  | .slotRow k n _ => [slot k n]
  | .slotRaw k n _ => [slot k n]
  | .slotRows k _ => (List.range 128).map (slot k)
  | .scales k r0 nb _ => (List.range (128 / nb)).map (fun r => slot k (r0 + r))
  | .setOf _ u n r => [⟨8, u, n, rowPayload r, p.due⟩]
  | .flag f v => [⟨2, 0, f, bytesOfNat 8 v.toNat, p.due⟩]
  | .cbLoad n v _ => [⟨9, 0, n, bytesOfNat 32 v.toNat, p.due⟩]
  | _ => []

/-- The descriptors of pending results, each judged with the matrix engine as those before it leave it. -/
def descsFrom (k : Core) (m : Mx) : List Pend → List PendDesc
  | [] => []
  | p :: ps => let m' := m.afterPend p.eff; effDescs k m' p ++ descsFrom k m' ps

/-- A pending result takes its place by its crew cycle, ahead of those of the same cycle. -/
def insertDue (p : Pend) : List Pend → List Pend
  | [] => [p]
  | q :: qs => if p.due ≤ q.due then p :: q :: qs else q :: insertDue p qs

/-- The pending results of a core: its register writes, then what lands, in the order of its crew cycles. -/
def pendDescs (k : Core) : List PendDesc :=
  (k.prog.pend.map (regDesc k.prog) ++ descsFrom k k.mx (k.pend.foldr insertDue [])).take 128

/-- Descriptors and payloads, one after the other. -/
def descParts : List PendDesc → Nat → Nat → List (Nat × List Byte)
  | [], _, _ => []
  | d :: ds, n, off =>
    (0x1000 + 32 * n, bytesOfNat 32 (d.unit + d.engine % 32 * 2 ^ 4 + d.dest % 2 ^ 15 * 2 ^ 9 + off * 2 ^ 64 + d.payload.length * 2 ^ 128
      + d.due % 2 ^ 48 * 2 ^ 192)) :: (0x1000 + off, d.payload) :: descParts ds (n + 1) (off + d.payload.length)

/-- A list of numbers, `n` bytes each. -/
def packBytes (n : Nat) (l : List Nat) : List Byte := (l.map (bytesOfNat n)).flatten

/-- The rows of the outbound queues without their markers. -/
def oqRows (k : Core) : List Row := (List.range 8).flatMap (fun q => (SMap.get [] k.fr.oq q).filterMap (fun i => match i with
  | .row r => some r
  | .mark _ _ => none))

/-- The rows that a command of the matrix engine processes in all. -/
def mxRowsOf (w : BitVec 128) : Nat :=
  match decodeMatrix w with
  | .ok (.mmul _ _ _ m _ _ _) => dim128 m
  | .ok (.mmac _ _ _ m _ _ _) => dim128 m
  | .ok (.mmuls _ _ _ m _ _ _ _ _ _) => dim128 m
  | .ok (.mmacs _ _ _ m _ _ _ _ _ _) => dim128 m
  | _ => 0

/-- The command of the matrix engine that is active, with the rows it has processed: one whose completion has not been reached stays active. -/
def mxRunning (k : Core) : Option (BitVec 128 × Nat) :=
  match k.mx.active with
  | some a => some (a.org.w1 ++ a.org.w0, a.next)
  | none => ((k.pend.filter (fun p => match p.eff with | .mxDone .. => true | _ => false)).getLast?).map
      (fun p => (p.org.w1 ++ p.org.w0, mxRowsOf (p.org.w1 ++ p.org.w0)))

/-- Part 0x400 of the header. -/
def mxPart (k : Core) : List Byte :=
  let (w, n) := (mxRunning k).getD (0, 0)
  bytesOfNat 16 w.toNat ++ bytesOfNat 4 n
    ++ bytesOfNat 4 (packList 1 ((List.range 32).map (fun i => if (k.mx.slot i).claimed then 1 else 0)))
    ++ [.ofNat 8 (packList 1 ((List.range 4).map (fun i => if (k.mx.acc i).isInt then 1 else 0)))]

/-- The rows that a `fill` of a bank has still to write. -/
def fillLeft (k : Core) (u : Nat) : Nat :=
  (k.pend.findSome? (fun p => match p.eff with
    | .bankFill b _ n _ => if b = u then some n else none
    | _ => none)).getD 0

/-- The idle count of the entry that a stream issues next, past the links of its chain; 0 where no entry can be read. -/
def nextIdle (s : State) (core obj : Nat) : Nat → Nat → Nat → Nat
  | 0, _, _ => 0
  | fuel + 1, line, slot =>
    match fetchLine s core obj line with
    | .error _ => 0
    | .ok l =>
      if slot < 7 ∧ lineSlot l slot ≠ 0 then fieldOf (lineSlot l slot) 55 50
      else if lineNext l = chainEnd then 0 else nextIdle s core obj fuel (lineNext l) 0

/-- The state of stream `u` in part 0x800: eight words. The next issue counts the idle of the entry that is due, and what is left of it counts from
the freeze (R155). -/
def streamPart (s : State) (core f u : Nat) : List Byte :=
  let k := s.core core
  let t := k.stream u
  let due := t.base + nextIdle s core t.obj 3 t.line t.slot
  packBytes 8 [if t.active then 1 else 0, t.obj, t.line + t.slot * 2 ^ 32, due, due - f, fillLeft k u,
    t.rd.mode.code + (if t.rd.sat8 then 8 else 0) + (if u < 8 then (k.bank u).rp else k.tb) * 2 ^ 32, t.rd.g.toNat]

/-- A pending expectation in four bytes: the crew cycles and the rows it still waits for, and a bit that marks it (R197). -/
def expWord (k : Core) (f : Nat) (e : Expect) : Nat := (e.deadline - f) % 2 ^ 16 + (e.target - SMap.get 0 k.fr.taken e.q) % 2 ^ 8 * 2 ^ 16 + 2 ^ 24

/-- Part 0xC00 of the header: ARRIVED and TAKEN, four expectations a queue, row counts, and the commands that are divided, each with the rows of it that
are written (R375). -/
def frPart (k : Core) (f : Nat) (rest : List Cmd) : List Byte :=
  let row := fun (l : List Nat) (n : Nat) => (l ++ List.replicate n 0).take n
  packBytes 4 ((List.range 8).map (SMap.get 0 k.fr.arrived ·)) ++ packBytes 4 ((List.range 8).map (SMap.get 0 k.fr.taken ·))
    ++ packBytes 4 ((List.range 8).flatMap (fun q => row ((k.fr.exps.filter (fun e => e.q == q)).map (expWord k f)) 4))
    ++ packBytes 2 ((List.range 8).map (fun q => (SMap.get [] k.fr.iq q).length))
    ++ packBytes 2 ((List.range 8).map (fun q => ((SMap.get [] k.fr.oq q).filter OqItem.isRow).length))
    ++ packBytes 4 (row (rest.map (fun c => c.bound.length)) 8) ++ packBytes 32 ((rest.take 8).map (·.word.toNat))

/-- What the save engine writes of a core frozen at cycle `f`, with its divided commands: parts of the slot with their offsets (R377, R378;
log entry 46). -/
def slotParts (s : State) (core : Nat) (c : LaunchRecordF) (f : Nat) (rest : List Cmd) : List (Nat × List Byte) :=
  let k := s.core core
  let x := k.prog
  let ps := pendDescs k
  [(0x000, packBytes 8 ((List.range 32).map (fun i => (x.reg (.ofNat 5 i)).toNat))),
   (0x100, [.ofNat 8 (packList 1 ((List.range 8).map (fun i => if x.preg (.ofNat 3 i) then 1 else 0)))]),
   (0x108, packBytes 8 ((List.range 16).map (fun i => (SMap.get 0 k.flags i).toNat))),
   (0x188, bytesOfNat 8 (x.line * 16 + x.word)),
   (0x190, bytesOfNat 8 (f % 2 ^ 48 + ps.length * 2 ^ 48)),
   (0x198, packBytes 8 [k.bundles.toNat, k.fwSlots.toNat, k.holdCycles.toNat + k.episodes.toNat * 2 ^ 48,
      k.holdLimit.toNat + (if k.holdLog then 2 ^ 24 else 0), k.fwN.toNat + k.hsemSat.toNat * 2 ^ 6 + k.trapCode.toNat * 2 ^ 38]),
   (0x1C0, packBytes 2 ((List.range 32).map (fun i => (k.h i).toNat))),
   (0x200, packBytes 8 ((List.range 12).map (fun i => (SMap.get 0 x.cmd i).toNat))),
   (0x2C0, packBytes 4 ((List.range 3).flatMap (fun i => [(SMap.get 0 x.tickets i).toNat, (SMap.get 0 k.fw.tickets i).toNat]))),
   (0x300, packBytes 16 (k.mx.queue.map (·.word.toNat))),
   (0x400, mxPart k),
   (0x800, (List.range 16).flatMap (streamPart s core f)),
   (0xC00, frPart k f rest),
   (0xE00, packBytes 32 ((List.range 4).map (fun i => (SMap.get 0 k.cbs i).toNat))),
   (0xE80, [.ofNat 8 (packList 1 ((List.range 4).map (fun i => if SMap.get false k.cbPoison i then 1 else 0)))]),
   (0xEA0, packBytes 8 ((List.range 16).map (SMap.get 0 k.xbWin ·)))]
  ++ descParts ps 0 0x1000
  ++ k.seqMem.map (fun p => (0x11000 + p.1, [p.2]))
  ++ (List.range 8).flatMap (fun u => let t := k.stn (8 + u)
      rowParts (0x31000 + 2176 * u) (0x35400 + 272 * u) ((0, t.ll) :: t.ofs.map (fun p => (p.1 + 1, p.2))))
  ++ (List.range 8).flatMap (fun n => if c.bankMask.getLsbD n then
      rowParts (0x40000 + 262144 * n) (0x240000 + 32768 * n) ((List.range 2048).map (fun r => (r, (k.bank n).row r (k.bank n).fmt))) else [])
  ++ (List.range 32).flatMap (fun n => if c.slotMask.getLsbD n then
      rowParts (0x280000 + 16384 * n) (0x300000 + 2048 * n) (SMap.get {} k.mx.slots n).rows else [])
  ++ (List.range 4).flatMap (fun n => let a : Acc := SMap.get {} k.mx.accs n
      a.elems.map (fun p => (0x310000 + 65536 * n + 4 * p.1, bytesOfNat 4 p.2.toNat))
      ++ [(0x350000 + 16 * n, bytesOfNat 16 (packList 1 ((List.range 128).map (fun i => if SMap.get false a.poison i then 1 else 0)))),
          (0x350040 + n, [if a.isInt then 1 else 0])])
  ++ rowParts 0x351000 0x391000 (((List.range 8).flatMap (fun q => SMap.get [] k.fr.iq q)).zipIdx.map (fun p => (p.2, p.1)))
  ++ rowParts 0x399000 0x3B9000 ((oqRows k).zipIdx.map (fun p => (p.2, p.1)))

/-- Where a save slot begins. -/
def slotBase (s : State) (n : Nat) : Nat := 2 ^ 22 * fieldOf (s.reg 0xD80) 23 0 + 2 ^ 23 * n

/-- The regions of a slot that are written: banks and slots only where they are reserved (R377). -/
def slotRegions (c : LaunchRecordF) : List (Nat × Nat) :=
  [(0, 0x1000), (0x1000, 0x10000), (0x11000, 0x20000), (0x31000, 0x4400), (0x35400, 0x880)]
  ++ (List.range 8).flatMap (fun n => if c.bankMask.getLsbD n then [(0x40000 + 262144 * n, 262144), (0x240000 + 32768 * n, 32768)] else [])
  ++ (List.range 32).flatMap (fun n => if c.slotMask.getLsbD n then [(0x280000 + 16384 * n, 16384), (0x300000 + 2048 * n, 2048)] else [])
  ++ [(0x310000, 0x40000), (0x350000, 0x1000), (0x351000, 0x40000), (0x391000, 0x8000), (0x399000, 0x20000), (0x3B9000, 0x4000)]

/-- A whole write of a region of whole bursts, zero where its parts say nothing, in the colour of the slots (R53, R376). -/
def putRegion (base : Nat) (parts : List (Nat × List Byte)) (r : Nat × Nat) (s : State) : State :=
  let a := base + r.1
  let col : BitVec 8 := .ofNat 8 (fieldOf (s.reg 0xD80) 40 33)
  let inside := fun (b : Nat) => decide (a / 32 ≤ b ∧ b < (a + r.2) / 32)
  if lpddrEnd < a + r.2 then s else
  { s with
    lpddr := (parts.filter (fun p => decide (r.1 ≤ p.1 ∧ p.1 < r.1 + r.2))).foldl (fun m p => m.setBytes (base + p.1) p.2) (s.lpddr.clear a r.2)
    colour := SMap.fill s.colour (a / 32) (r.2 / 32) 0 col
    uncorr := s.uncorr.filter (fun u => u.1 != 0 || !inside u.2) }

/-- Write regions of a slot. -/
def putSlot (base : Nat) (parts : List (Nat × List Byte)) (regions : List (Nat × Nat)) (s : State) : State :=
  regions.foldl (fun s r => putRegion base parts r s) s

/-- The divided commands of a core (R375). -/
def dividedOf (s : State) (core : Nat) : List Cmd := (s.cmds.filter (fun p => p.2.core == some core && shortBinding s p.2)).map (·.2)

/-- The save engine writes a core's slot whole. -/
def saveSlotOf (core : Nat) (s : State) : State :=
  match s.crewOf core with
  | some w =>
    let base := slotBase s (s.core core).saveSlot
    putSlot base (slotParts s core w.allot w.clock (dividedOf s core)) (slotRegions w.allot) s
  | none => s

/-! ## Save and restore engines (R372, R379, R380) -/

/-- A write of SAVE_CTL.OP: 1 in a SAVE service, 2 in a RESTORE service, once. -/
def startEngine (core op : Nat) (s : State) : State :=
  let k := s.core core
  match k.svc with
  | some r => if r.kind = op + 4 ∧ k.saveOp = 0 ∧ !k.saveDone then s.updCore core (fun k => { k with saveOp := op }) else s
  | none => s

/-- SAVE_START (R379). -/
def execSaveStart (core : Nat) (s : State) : Out := .next (startEngine core 1 s)
/-- RESTORE_START (R380). -/
def execRestoreStart (core : Nat) (s : State) : Out := .next (startEngine core 2 s)

/-- What the restore engine loads into a core: all that belongs to the launch, the ticket counters of both contexts among it (R378); the firmware
context and the core's own state stay. Conversions that were in progress have completed on the kiln die (R237). CHECKED stands until the last restored
descriptor has landed (R381). -/
def Core.reload (cur sav : Core) : Core :=
  { sav with
    fw := { cur.fw with tickets := sav.fw.tickets }
    fwMem := cur.fwMem
    crew := cur.crew
    fwMin := cur.fwMin
    clockNo := cur.clockNo
    fwq := cur.fwq
    svc := cur.svc
    fwAct := cur.fwAct
    fwSub := cur.fwSub
    fwObj := cur.fwObj
    fwLine := cur.fwLine
    saveOp := cur.saveOp
    saveDone := cur.saveDone
    saveSlot := cur.saveSlot
    asleep := cur.asleep
    sweeping := cur.sweeping
    xbWall := []
    checkedTo := ((descsFrom sav sav.mx (sav.pend.foldr insertDue [])).map (·.due)).foldl max 0
    checkedBundles := (sav.prog.pend.map (·.due)).foldl max 0 }

/-- SAVE_ENGINE_DONE (R372): the engine that runs finishes and sets DONE. -/
def execSaveEngineDone (core : Nat) (s : State) : Out :=
  let k := s.core core
  .next (if k.saveDone then s
    else if k.saveOp = 1 then (saveSlotOf core s).updCore core (fun k => { k with saveDone := true })
    else if k.saveOp = 2 then
      match s.saved.find? (fun v => v.crew.members.contains core && (v.cores.find core).isSome) with
      | some v => s.setCore core { k.reload (SMap.get {} v.cores core) with saveDone := true }
      | none => s.updCore core (fun k => { k with saveDone := true })
    else s)

/-! ## The report of a saved context (R363, R379) -/

/-- The commands that either context of a member has accepted and that are not complete. -/
def crewCmds (s : State) (w : Crew) : List (Nat × Cmd) :=
  s.cmds.filter (fun p => match p.2.issuer with
    | .ctx k _ _ => w.members.contains k
    | .record _ => false)

/-- Release a saved launch's cores, clock, kiln arrays and semaphores. The written part of a divided binding completes at its SCOPE (R363); its landing range is handed over if the pre-empting launch needs
it (R379). -/
def reportSaved (k : Nat) (w : Crew) (v : Saved) (s : State) : State :=
  let s00 := w.members.foldl (fun s c => s.updCore c (fun x => x.countFrozen w.clock)) s
  let rest := (crewCmds s00 w).filter (fun p => shortBinding s00 p.2)
  let s0 := rest.foldl (fun s p => writeBackCmd s p.2) s00
  let needs := match (w.frozen.bind s0.recs.find).bind launchOf with
    | some c => c.landLen != 0 && landLap w.allot c
    | none => false
  let a := w.allot
  let range := s0.land.bytes (a.landSlice.toNat * 2 ^ 22 + 4096 * a.landBase.toNat) (4096 * a.landLen.toNat)
  let slot := SMap.get 0 v.slots w.leader
  let s1 := record s0 464 ⟨0x49, 0, 0⟩ false false a.ltag 0 (some w.part) none [.ofNat 64 slot, .ofNat 64 w.clock]
  let s2 := if needs then putSlot (slotBase s1 slot + 0x400000) [(0, range)] [(0, range.length)] s1 else s1
  let v1 : Saved := { v with crew := w, cores := w.members.map (fun c => (c, s2.core c)), remainders := rest,
                             landing := if needs then some range else none, savedAt := s2.now, finished := [] }
  let s3 := { releaseCrew s2 k with cmds := s2.cmds.filter (fun p => !rest.any (fun q => q.1 == p.1)) }
  { s3.updRec w.record (fun r => { r with st := .saved }) with saved := s3.saved.map (fun x => if x.record = w.record then v1 else x) }

/-- A launch cancelled while it was being saved ends; no restore follows (R15). -/
def endSaved (w : Crew) (s : State) : State :=
  let s1 := { s with saved := s.saved.filter (·.record != w.record) }
  w.members.foldl (fun s c => if (s.core c).taskDone then s else launchMember (s.updCore c (fun k => { k with taskDone := true })) w.record .cancelled) s1

/-- CONTEXT_SAVED (R363, R379): every member's service is over, and every command of either context has completed but for bindings short
of rows. -/
def execContextSaved (crew : Nat) (s : State) : Out :=
  .next (match s.crew crew with
  | some w => match s.saved.find? (fun v => v.record == w.record) with
    | some v =>
      if w.frozen.isSome ∧ !w.restoring ∧ w.members.all (v.finished.contains ·) then
        if w.stopped.isSome then endSaved w s
        else if (crewCmds s w).all (fun p => shortBinding s p.2) then reportSaved crew w v s else s
      else s
    | none => s
  | none => s)

/-! ## Restore (R343, R380) -/

/-- Whether a saved launch may run again: its cores free, a clock free, its landing range free, and no higher class before it or
claiming its cores (R37). -/
def canRestore (s : State) (v : Saved) : Option Nat :=
  let cls := crewClass s v.crew
  if !s.halted.contains v.crew.part && v.crew.members.all (fun c => coreFree s c && online s c) && landFree s v.crew.allot v.record
      && !outranked s v.crew.part cls v.crew.allot && !claimedAbove s v.crew.part cls (some v.savedAt) v.crew.members then
    (freeClocks s v.crew.part).head?
  else none

/-- RESTORE (R380): the crew takes its cores and a clock again, its landing range is copied back, and each member gets a RESTORE request. -/
def execRestore (rec : Nat) (s : State) : Out :=
  .next (match s.saved.find? (fun v => v.record == rec) with
  | some v =>
    if ((s.recs.find rec).map (·.st)) ≠ some .saved then s else
    match canRestore s v with
    | none => wakeCores v.crew.members s
    | some clk =>
      let a := v.crew.allot
      let s1 := match v.landing with
        | some b => { s with land := s.land.setBytes (a.landSlice.toNat * 2 ^ 22 + 4096 * a.landBase.toNat) b }
        | none => s
      let s2 := { s1 with crews := s1.crews.put clk { v.crew with frozen := some rec, freezeIn := none, restoring := true },
                          saved := s1.saved.map (fun x => if x.record = rec then { x with finished := [] } else x) }
      let s3 := v.crew.members.foldl (fun s c =>
        let n := SMap.get 0 v.slots c
        let sav : Core := SMap.get {} v.cores c
        let t := s.updCore c (fun k => { k with crew := some clk, clockNo := clk, saveSlot := n, tag := sav.tag, taskDone := sav.taskDone })
        request t c ⟨6, s.now, 464, saveWords t c 6 n v.crew.clock, 0⟩) s2
      s3.updRec rec (fun r => { r with st := .running })
  | none => s)

/-- The remainder commands are accepted again, ahead of any command the launch issues (R380); each keeps its number, so that a `fence` that
waited for it still does (R148). -/
def reaccept (l : SMap Cmd) (s : State) : State :=
  l.foldl (fun s p => intake p.1 { s with cmds := s.cmds.put p.1 { p.2 with st := .buffered } }) s

/-- CREW_RESUME (R380): crew cycle f begins on every member, and a RESTORED record is written. -/
def execCrewResume (crew : Nat) (s : State) : Out :=
  .next (match s.crew crew with
  | some w => match s.saved.find? (fun v => v.record == w.record) with
    | some v =>
      if w.restoring ∧ w.members.all (v.finished.contains ·) then
        let s1 := { s with saved := s.saved.filter (·.record != w.record) }
        let s2 := reaccept v.remainders (s1.updCrew crew (fun w => { w with frozen := none, restoring := false }))
        record s2 464 ⟨0x4A, 0, 0⟩ false false w.allot.ltag 0 (some w.part) none [.ofNat 64 (SMap.get 0 v.slots w.leader), .ofNat 64 w.clock]
      else s
    | none => s
  | none => s)

end Sys2Proof.Machine
end

