-- ==== Sys2Proof/Machine/Host.lean ====
section
/-!
DEFINITION. Accesses through the object aperture of the host link and from the network (spec 29 R387, R388, R392), and what a
write to FQ_RESUME does to a suspended access that no core services (27 R371).
-/
namespace Sys2Proof.Machine

/-- STATE of BOOT_STATUS (R393). -/
def bootState (s : State) : Nat := fieldOf (s.reg 0xE31) 2 0
/-- Whether the boot has failed: nothing but a few registers answers (R389, R393). -/
def bootFailed (s : State) : Bool := bootState s == 7

/-! ## The object aperture (R387) -/

/-- The host's port. -/
def hostPort : Port := ⟨portHost, 0⟩
/-- The port of the Ethernet side. -/
def netPort : Port := ⟨83, 0⟩

/-- The object of an aperture access: one dimension and 8-bit elements, else ACCESS PERM. -/
def apertureObj (s : State) (p : Port) (r : Req) (k : AccKind) (id : Nat) : Except HwFault Obj :=
  match objFor s p r k id with
  | .error f => .error f
  | .ok o => if o.ndim = 1 ∧ fmtBits o.fmt = 8 then .ok o else .error (accessFault 2)

/-- Read bytes at consecutive positions; a fault comes with its tile. -/
def apertureBytes (p : Port) (o : Obj) : Nat → Nat → State → Except (HwFault × Nat) (List Byte × State)
  | 0, _, s => .ok ([], s)
  | n + 1, pos, s =>
    match readElem s p o o.ttPtr pos none with
    | .error f => .error (f, (o.place pos).1)
    | .ok (e, s') =>
      if e.bad then .error (accessFault 7, (o.place pos).1) else
      match apertureBytes p o n (pos + 1) s' with
      | .error x => .error x
      | .ok (b, s'') => .ok (.ofNat 8 e.code :: b, s'')

/-- Read through the aperture. -/
def apertureRead (p : Port) (r : Req) (id off n : Nat) (s : State) : Except (HwFault × Nat) (List Byte × State) :=
  match apertureObj s p r .read id with
  | .error f => .error (f, 0)
  | .ok o => apertureBytes p o n off s

/-- Write the bytes of a list that fall into one tile. -/
def apertureTile (p : Port) (o : Obj) (off : Nat) (bytes : List Byte) (t : Nat) (s : State) : Except HwFault State :=
  writeTile s p .write o o.ttPtr t
    ((bytes.zipIdx.filter (fun x => (o.place (off + x.2)).1 == t)).map (fun x => ((o.place (off + x.2)).2, (⟨x.1.toNat, [], false⟩ : Elem)))) none

/-- Write tile after tile; a fault comes with its tile. -/
def apertureTiles (p : Port) (o : Obj) (off : Nat) (bytes : List Byte) : List Nat → State → Except (HwFault × Nat) State
  | [], s => .ok s
  | t :: ts, s =>
    match apertureTile p o off bytes t s with
    | .error f => .error (f, t)
    | .ok s' => apertureTiles p o off bytes ts s'

/-- Write through the aperture. -/
def apertureWrite (p : Port) (r : Req) (id off : Nat) (bytes : List Byte) (s : State) : Except (HwFault × Nat) State :=
  match apertureObj s p r .write id with
  | .error f => .error (f, 0)
  | .ok o =>
    if off + bytes.length > o.elems then .error (accessFault 4, (o.place (min off (o.elems - 1))).1)
    else apertureTiles p o off bytes (tilesTouched o off bytes.length) s

/-- The partition that owns an object of this module, if it is one. -/
def ownerOf (s : State) (p : Port) (id : Nat) : Option Nat :=
  match objEntry s p id with
  | .ok o => if o.alias0 then none else some o.owner
  | .error _ => none

/-- Write the record of an access of the host link or of the network. -/
def linkRecord (source : Nat) (p : Port) (f : HwFault) (susp id tile : Nat) (s : State) : State :=
  record s (if f.which = 4 then 468 else source) f false false 0 0 (ownerOf s p id) none
    [.ofNat 64 (susp % 2 ^ 16 * 2 ^ 42), .ofNat 64 (domainId s id), .ofNat 64 tile]

/-! ## Host accesses (R387, R388) -/

/-- The object an aperture address names. -/
def linkObj (a : BitVec 64) : Nat := fieldOf a 61 38
/-- The byte offset of an aperture address. -/
def linkOff (a : BitVec 64) : Nat := fieldOf a 37 0

/-- An access fault of a host access: a read returns all ones, a write is dropped, and a record is written. -/
def hostFail (write : Bool) (addr : BitVec 64) (len : Nat) (f : HwFault) (tile : Nat) (s : State) : State :=
  let s1 := linkRecord 465 hostPort f 0 (linkObj addr) tile s
  if write then s1 else { s1 with hostData := List.replicate len 0xFF }

/-- A suspended host access takes its number (R371, R388). -/
def numberHost (write : Bool) (addr : BitVec 64) (bytes : List Byte) (len : Nat) (f : HwFault) (tile n : Nat) (s : State) : State :=
  { linkRecord 465 hostPort f n (linkObj addr) tile s with susps := s.susps.put n (.host write addr bytes len tile) }

/-- A translation fault suspends a host access; with no number free the fault waits for one (R371). -/
def hostSuspend (write : Bool) (addr : BitVec 64) (bytes : List Byte) (len : Nat) (f : HwFault) (tile : Nat) (s : State) : State :=
  match freeSusp s with
  | none => waitSusp 465 (.host write addr bytes len tile) f {} s
  | some n => numberHost write addr bytes len f tile n s

/-- Make a host access in the aperture. -/
def hostMake (write : Bool) (addr : BitVec 64) (bytes : List Byte) (len : Nat) (s : State) : State :=
  let r : Except (HwFault × Nat) State :=
    if write then apertureWrite hostPort .host (linkObj addr) (linkOff addr) bytes s
    else match apertureRead hostPort .host (linkObj addr) (linkOff addr) len s with
      | .error x => .error x
      | .ok (b, s') => .ok { s' with hostData := b }
  match r with
  | .ok s' => s'
  | .error (f, tile) => if f.code = 0x0F then hostSuspend write addr bytes len f tile s else hostFail write addr len f tile s

/-- Whether an access is a store of the host link. -/
def Susp.isStore : Susp → Bool
  | .host write _ _ _ _ => write
  | _ => false

/-- Whether a store of the host link is suspended. -/
def storeWaits (s : State) : Bool := s.susps.any (·.2.isStore) || s.suspWait.any (·.who.isStore)

/-- A store of the host to its own memory as it stands in its queue: under space 0b01, which no access of the device uses (R387). -/
def ownStore (addr : Nat) : BitVec 64 := .ofNat 64 (2 ^ 62 + addr % 2 ^ 62)

/-- Make a store of the queue: to host memory, or in the aperture. -/
def hostStore (a : BitVec 64) (b : List Byte) (s : State) : State :=
  if fieldOf a 63 62 = 1 then { s with host := s.host.setBytes (fieldOf a 61 0) b } else hostMake true a b b.length s

/-- The stores that wait behind a suspended one are made in their order, up to one that is suspended itself (R359). -/
def hostDrain : Nat → State → State
  | 0, s => s
  | fuel + 1, s =>
    match s.hostQueue with
    | [] => s
    | (a, b) :: q => if storeWaits s then s else hostDrain fuel (hostStore a b { s with hostQueue := q })

/-- An access of the host link: a store keeps its place behind a suspended one (R359; log entry 73). Without a firmware nothing answers (R393). -/
def hostAccess (write : Bool) (addr : BitVec 64) (bytes : List Byte) (len : Nat) (s : State) : State :=
  if bootFailed s then (if write then s else { s with hostData := [] })
  else if write && (storeWaits s || !s.hostQueue.isEmpty) then { s with hostQueue := s.hostQueue ++ [(addr, bytes)] }
  else hostMake write addr bytes len s

/-- A store of the host to its own memory keeps its place behind its stores to the device (R359). -/
def hostOwn (addr : Nat) (bytes : List Byte) (s : State) : State :=
  if storeWaits s || !s.hostQueue.isEmpty then { s with hostQueue := s.hostQueue ++ [(ownStore addr, bytes)] }
  else hostStore (ownStore addr) bytes s

/-- End a suspended access of the host link as an access fault at its tile. -/
def hostGiveUp (n sub : Nat) (s : State) : State :=
  match s.susps.find n with
  | some (.host write addr _ len tile) =>
    let s1 := hostFail write addr len (accessFault sub) tile { s with susps := s.susps.del n }
    hostDrain s1.hostQueue.length s1
  | _ => s

/-- HOST_ACCESS_TIMEOUT (R388): an access not resumed within 1 ms completes as an access fault; no rule gives its SUB. -/
def execHostAccessTimeout (susp : Nat) (s : State) : Out :=
  .next (match s.susps.find susp with
  | some (.host ..) => let (v, s1) := s.draw; hostGiveUp susp (v % 16) s1
  | _ => s)

/-! ## RoCE (R392) -/

/-- The source of a record of a network access: ports 0 and 1, ports 2 and 3, and the storage fabric, which the model numbers from 4 on (log
entry 88). -/
def netSource (port : Nat) : Nat := if port < 2 then 469 else if port < 4 then 470 else 471

/-- An access fault of a network access: a record with its port's source, and no effect on memory; a read returns nothing. -/
def netFail (port : Nat) (write : Bool) (id : Nat) (f : HwFault) (tile : Nat) (s : State) : State :=
  linkRecord (netSource port) netPort f 0 id tile (if write then s else { s with hostData := [] })

/-- A suspended network access takes its number (R49, R371). -/
def numberNet (port : Nat) (write : Bool) (obj off : Nat) (bytes : List Byte) (len : Nat) (f : HwFault) (tile n : Nat) (s : State) : State :=
  { linkRecord (netSource port) netPort f n obj tile s with susps := s.susps.put n (.net port write obj off bytes len tile) }

/-- A fault of a network access: a translation fault suspends it, any other ends it (R49). -/
def netFault (port : Nat) (write : Bool) (obj off : Nat) (bytes : List Byte) (len : Nat) (f : HwFault) (tile : Nat) (s : State) : State :=
  if f.code = 0x0F then
    match freeSusp s with
    | none => waitSusp (netSource port) (.net port write obj off bytes len tile) f {} s
    | some n => numberNet port write obj off bytes len f tile n s
  else netFail port write obj f tile s

/-- Make a network access. -/
def netMake (port : Nat) (write : Bool) (obj off : Nat) (bytes : List Byte) (len : Nat) (s : State) : State :=
  let r : Except (HwFault × Nat) State :=
    if write then apertureWrite netPort .peer obj off bytes s
    else (apertureRead netPort .peer obj off len s).map (fun x => { x.2 with hostData := x.1 })
  match r with
  | .ok s' => s'
  | .error (f, tile) => netFault port write obj off bytes len f tile s

/-- SEND: the message reaches the queue pair of its port, which lies in host memory under the host driver. -/
def execRoceSend (port : Nat) (bytes : List (BitVec 8)) (s : State) : Out :=
  .next (if bootFailed s then s else { s with messages := s.messages ++ [(port, bytes)] })
/-- RDMA WRITE, under PEER_WR. -/
def execRoceWrite (obj : NetObj) (off : Nat) (bytes : List (BitVec 8)) (s : State) : Out :=
  .next (if bootFailed s then s else netMake obj.port true obj.obj off bytes bytes.length s)
/-- RDMA READ, under PEER_RD: the bytes go back to the requester. -/
def execRoceRead (obj : NetObj) (off len : Nat) (s : State) : Out :=
  .next (if bootFailed s then s else netMake obj.port false obj.obj off [] len s)

/-! ## FQ_RESUME (R371) -/

/-- Whether a suspended access is serviced by no core, so that FQ_RESUME reaches it. -/
def noCoreServes (s : State) : Susp → Bool
  | .cmd id => match s.cmds.find id with
    | some c => c.core.isNone
    | none => true
  | .fetch .. => false
  | _ => true

/-- FQ_RESUME with ACT 0: the access is made again. -/
def execFqResumeResume (susp : Nat) (s : State) : Out :=
  .next (match s.susps.find susp with
  | some x =>
    if !noCoreServes s x then s else
    match x with
    | .host write addr bytes len _ =>
      let s1 := hostMake write addr bytes len { s with susps := s.susps.del susp }
      hostDrain s1.hostQueue.length s1
    | .net port write obj off bytes len _ => netMake port write obj off bytes len { s with susps := s.susps.del susp }
    | _ => resumeSusp s susp
  | none => s)

/-- The access of a record fails: its record retires FAULTED with ACCESS SUB; a launch not yet started gives its allotment back. -/
def failRecord (id sub : Nat) (s : State) : State :=
  let s1 := s.updRec id (fun r => { r with susp := 0 })
  let s2 := match crewOfRec s1 id with
    | some (k, _) => releaseCrew s1 k
    | none => s1
  match s2.recs.find id with
  | some r => match r.st with
    | .done _ => retired id r .faulted (qmRecord r { f := accessFault sub } true 0 s2)
    | _ => recFault id { f := accessFault sub } s2
  | none => s2

/-- FQ_RESUME with ACT 1: the access fails with ACCESS SUB. -/
def execFqResumeFail (susp sub : Nat) (s : State) : Out :=
  .next (match s.susps.find susp with
  | some x =>
    if !noCoreServes s x then s else
    let s1 := { s with susps := s.susps.del susp }
    let f := accessFault (sub % 16)
    match x with
    | .cmd id => endOnFault s1 id f (((s1.cmds.find id).map (·.place)).getD {})
    | .fetch .. => s
    | .host .. => hostGiveUp susp (sub % 16) s
    | .net port write obj _ _ _ tile => netFail port write obj f tile s1
    | .record id => failRecord id (sub % 16) s1
    | .queue q => ringFault q { f := f } (s1.updQueue q (fun x => { x with susp := 0 }))
    | .walk g => match s1.walks.find g with
      | some w => walkFault g { w with susp := 0 } { f := f } (s1.updWalk g (fun w => { w with susp := 0 }))
      | none => s1
  | none => s)


end Sys2Proof.Machine
end

