-- ==== Sys2Proof/Machine/Registers.lean ====
section
/-!
DEFINITION. Registers: the device register map with its access codes (spec 00 R7, 03 R41, R55, 15 R223, R227, 23 R323, R338, R344,
27 R368, R371, R376, R385, 29 R387 to R398), and `getc` and `setc` with the control registers of a core (09 R147, R153, R154, 01 R34,
R35, 05 R77, 27 R372).
-/
namespace Sys2Proof.Machine

/-! ## Device registers: reads -/

/-- KILN_RECAL as it reads (R223). -/
def kilnRecalWord (s : State) (core : Nat) : Word :=
  .ofNat 64 (packList 1 ((List.range 16).map (fun a => if (s.kiln core a).st = .due then 1 else 0)) * 2 ^ 16
    + packList 1 ((List.range 16).map (fun a => if (s.kiln core a).st = .recal then 1 else 0)) * 2 ^ 32)

/-- What a device register reads (R7): the registers that show other state show it; every other one is kept as it reads. -/
def readReg (s : State) (i : Nat) : Word :=
  if 0x840 ≤ i ∧ i < 0x880 then
    .ofNat 64 (fieldOf (s.reg i) 4 0 + (if (s.cacheOf (i - 0x840)).any (fun p => p.2.dirty) then 0 else 32))
  else if 0x900 ≤ i ∧ i < 0xA40 then kilnRecalWord s (i - 0x900)
  else if i = 0xE32 then (if s.quote.isSome then 1 else 0)
  else s.reg i

/-! ## Registers whose write starts something -/

/-- Whether a reserved launch range would lie in a cache part of `units`. -/
def rangeInCache (s : State) (slice units : Nat) : Bool :=
  let bad := fun (c : LaunchRecordF) => c.landLen != 0 && c.landSlice.toNat == slice && decide (1024 - 64 * units < c.landBase.toNat + c.landLen.toNat)
  s.crews.any (fun p => bad p.2.allot) || s.saved.any (fun v => v.landing.isNone && bad v.crew.allot)

/-- CACHE_UNITS: above 16, or over a reserved launch range, it is ignored; otherwise the slice writes back every dirty sector, drops its cache
part, and the size waits for the end of the write-back (R55). -/
def execCacheUnits (slice : Nat) (units : BitVec 5) (s : State) : Out :=
  .next (if 64 ≤ slice ∨ 16 < units.toNat ∨ rangeInCache s slice units.toNat then s else
    let s1 := cleanSlice s slice (fun _ => true)
    { s1 with cache := s1.cache.put slice [], resizing := s1.resizing.put slice units.toNat })

/-- CACHE_RESIZE_DONE: the new size takes effect (R55). -/
def execCacheResizeDone (slice : Nat) (s : State) : Out :=
  .next (match s.resizing.find slice with
  | some u => { s.setReg (0x840 + slice) (.ofNat 64 (u + 32)) with resizing := s.resizing.del slice }
  | none => s)

/-- Whether two partitions name a common resource (R344, R345). -/
def partLap (s : State) (p q : Nat) (w0 : Word) : Bool :=
  let hit := fun n => partReg s p n &&& partReg s q n != 0
  [1, 2, 3, 4, 5, 6, 7, 13].any hit || fieldOf (w0 &&& partReg s q 0) 41 2 != 0
    || (saveSlots (partReg s p 14)).any ((saveSlots (partReg s q 14)).contains ·)

/-- Whether the object of PART_SEM keeps R327. -/
def semObjOk (s : State) (id : Nat) : Bool :=
  match objEntry s qmPort id with
  | .error _ => false
  | .ok o => !o.alias0 && o.ndim == 1 && o.fmt == .ui8 && (List.range o.tiles).all (fun t => match tileRaw s qmPort o o.ttPtr t with
      | .ok e => !e.present || e.tier == .lpddr || e.tier == .landing
      | .error _ => false)

/-- Whether a partition may be enabled (R344). -/
def canEnable (s : State) (p : Nat) (w0 : Word) : Bool :=
  [1, 2, 3, 4, 5].any (fun n => partReg s p n != 0) && partReg s p 13 != 0
    && (saveSlots (partReg s p 14)).all (fun k => decide (k < poolSlots s))
    && !(List.range 16).any (fun q => q != p && partOn s q && partLap s p q w0) && semObjOk s (fieldOf (partReg s p 8) 23 0)

/-- A write of PART_MAP that sets EN: refused with EN left at 0 where R344 says so; ignored while EN is 1. -/
def execPartitionEnable (part : Nat) (value : BitVec 64) (s : State) : Out :=
  .next (if 16 ≤ part ∨ partOn s part then s else
    let w := BitVec.ofNat 64 (fieldOf value 41 0)
    s.setReg (0xB00 + 16 * part) (if canEnable s part w then w ||| 1 else w &&& ~~~1))

/-- A write of PART_MAP that clears EN: refused while a queue of the partition is on (R344). -/
def execPartitionDisable (part : Nat) (s : State) : Out :=
  .next (if 16 ≤ part ∨ s.queues.any (fun p => p.2.on && p.2.part == part) then s
    else s.setReg (0xB00 + 16 * part) (partReg s part 0 &&& ~~~1))

/-- A write to a word of a partition block (R344): while EN = 1 only EN acts. -/
def writePart (p n : Nat) (v : Word) (s : State) : State :=
  let r := 0xB00 + 16 * p + n
  let put := fun (hi : Nat) => s.setReg r (.ofNat 64 (fieldOf v hi 0))
  if n = 0 then
    match (if v.getLsbD 0 then execPartitionEnable p v s else if partOn s p then execPartitionDisable p s else .next (put 41)) with
    | .next s' => s'
    | _ => s
  else if partOn s p then s
  else if n = 8 then put 23
  else if n = 9 then put 22
  else if n = 10 ∨ n = 11 ∨ n = 12 then s.setReg r (.ofNat 64 (packList 8 ((List.range 8).map (fun k => max 1 (fieldOf v (8 * k + 7) (8 * k))))))
  else if n = 14 then put 17
  else if n = 15 then s
  else put 63

/-- IRQ_KICK: a pending vector whose MASK is 0 is delivered once (R390). -/
def execIrqKick (vector : Nat) (s : State) : Out :=
  let r := 0xE08 + vector / 64
  let e := irqEntry s vector
  .next (if vector < 2048 ∧ (s.reg r).getLsbD (vector % 64) ∧ e / 2 ^ 96 % 2 = 0 then
      { s.setReg r (s.reg r &&& ~~~(BitVec.ofNat 64 (2 ^ (vector % 64)))) with host := s.host.setBytes (e % 2 ^ 64) (bytesOfNat 4 (e / 2 ^ 64)) }
    else s)

/-- ATTEST: a quote starts unless one is in progress (R395). -/
def execAttest (value : BitVec 64) (s : State) : Out :=
  .next (if s.quote.isSome then s else { s with quote := some (64 * fieldOf value 63 6) })

/-- The quote but for its signature. -/
def quoteBytes (s : State) (a : Nat) : List Byte :=
  s.host.bytes a 64 ++ bytesOfWords ((List.range 8).map (fun n => s.reg (0xE38 + n)))
    ++ bytesOfWords [s.reg 0xD91, .ofNat 64 s.now, .ofNat 64 (fieldOf (s.reg 0xE30) 9 0)]

/-- ATTEST_DONE: the quote stands from a + 64, with a signature whose bytes no rule gives, and BUSY clears (R395; log entry 9). -/
def execAttestDone (s : State) : Out :=
  .next (match s.quote with
  | some a =>
    let b := quoteBytes s a
    let (v, s1) := s.draws 17088
    { s1 with host := s1.host.setBytes (a + 64) (b ++ (List.range 17088).map (fun i => .ofNat 8 (v i))), quote := none }
  | none => s)

/-- KEY_LOAD: the blob at a landing address gives the object's keys to every controller, or is discarded (R396; log entry 9). -/
def execKeyLoad (value : BitVec 64) (s : State) : Out :=
  let obj := fieldOf value 23 0
  let (sl, off) := landAddr (fieldOf value 51 24)
  .next (match landGet s sl off 72 with
  | .ok b => if Config.keyGood (natOfBytes b) then { s with keys := s.keys.put obj (natOfBytes b) } else s
  | .error _ => s)

/-- CORE_ONLINE: each 1 bit asks its core for a parity sweep (R398). -/
def execCoreOnline (m : Nat) (value : BitVec 64) (s : State) : Out :=
  .next (if 5 ≤ m then s else
    (List.range 64).foldl (fun s k => if value.getLsbD k then s.updCore (64 * m + k) (fun x => { x with sweeping := true }) else s) s)

/-! ## Device registers: writes -/

/-- The state a meaning answers. -/
def outState (s : State) : Out → State
  | .next s' => s'
  | _ => s

/-- A write to a register of a fault queue (R368). -/
def writeFq (i : Nat) (v : Word) (s : State) : State :=
  match (i - 0xD00) % 4 with
  | 0 => s.setReg i (.ofNat 64 (fieldOf v 39 0))
  | 1 => s.setReg i (.ofNat 64 (fieldOf v 25 0 + fieldOf (s.reg i &&& ~~~v) 63 32 * 2 ^ 32))
  | 2 => s
  | _ => s.setReg i (.ofNat 64 (fieldOf v 31 0))

/-- A write to DOM_CFG: DEVNO stays while a partition is enabled; UP is read-only (R391). -/
def writeDom (v : Word) (s : State) : State :=
  let old := s.reg 0xE30
  let dev := if (List.range 16).any (partOn s) then fieldOf old 9 0 else fieldOf v 9 0
  s.setReg 0xE30 (.ofNat 64 (dev + fieldOf v 19 10 * 2 ^ 10 + fieldOf old 20 20 * 2 ^ 20))

/-- A write to a device register with its access codes (R7); an index that names no writable register is ignored. -/
def writeReg (i : Nat) (v : Word) (s : State) : State :=
  let put := fun (hi : Nat) => s.setReg i (.ofNat 64 (fieldOf v hi 0))
  if i = 0x800 then put 39
  else if i = 0x801 then put 32
  else if 0x840 ≤ i ∧ i < 0x880 then outState s (execCacheUnits (i - 0x840) (.ofNat 5 (fieldOf v 4 0)) s)
  else if 0x900 ≤ i ∧ i < 0xA40 then outState s (execKilnRecal (i - 0x900) (.ofNat 16 (fieldOf v 15 0)) s)
  else if i = 0xA40 ∨ i = 0xA41 then s.setReg i (.ofNat 64 (fieldOf v 8 0 + min 256 (fieldOf v 17 9) * 2 ^ 9))
  else if 0xB00 ≤ i ∧ i < 0xC00 then writePart ((i - 0xB00) / 16) (i % 16) v s
  else if i = 0xC00 then put 39
  else if i = 0xC01 then (if v.getLsbD 10 then turnOn (fieldOf v 9 0) s else turnOff (fieldOf v 9 0) s)
  else if i = 0xC02 then cancelInst (fieldOf v 1 0) (fieldOf v 5 2) (.ofNat 32 (fieldOf v 63 32)) s
  else if 0xD00 ≤ i ∧ i < 0xD44 then writeFq i v s
  else if i = 0xD80 then put 40
  else if i = 0xD82 then outState s (if v.getLsbD 16 then execFqResumeFail (fieldOf v 15 0) (fieldOf v 23 20) s else execFqResumeResume (fieldOf v 15 0) s)
  else if i = 0xD90 then (if (s.reg i).getLsbD 8 then s else put 8)
  else if i = 0xD91 then s.setReg i (s.reg i &&& ~~~(v &&& 0xF))
  else if i = 0xE00 then put 39
  else if i = 0xE01 then outState s (execIrqKick (fieldOf v 10 0) s)
  else if 0xE08 ≤ i ∧ i < 0xE28 then s.setReg i (s.reg i &&& ~~~v)
  else if i = 0xE30 then writeDom v s
  else if i = 0xE32 then outState s (execAttest v s)
  else if i = 0xE33 then outState s (execKeyLoad v s)
  else if 0xE40 ≤ i ∧ i < 0xE50 then s.setReg i (.ofNat 64 (fieldOf v 12 0 + fieldOf (s.reg i) 23 13 * 2 ^ 13))
  else if 0xE50 ≤ i ∧ i < 0xE55 then outState s (execCoreOnline (i - 0xE50) v s)
  else s

/-- REGISTER_WRITE (R7). -/
def execRegisterWrite (index : BitVec 12) (value : BitVec 64) (s : State) : Out := .next (writeReg index.toNat value s)

/-! ## The host link (R387, R389) -/

/-- Whether the host reaches a register in the present boot state (R389). -/
def hostSees (s : State) (i : Nat) : Bool :=
  fieldOf (s.reg 0xE31) 2 0 = 4 || i = 0xE31 || (decide (0xE38 ≤ i) && decide (i < 0xE40)) || i = 0xE32 || i = 0xD91

/-- The register a link address names, for an aligned access of 8 bytes. -/
def linkReg (addr : BitVec 64) (len : Nat) : Option Nat :=
  let o := fieldOf addr 61 0
  if len = 8 ∧ o % 8 = 0 ∧ o < 2 ^ 14 then some (0x800 + o / 8) else none

/-- HOST_READ: the aperture, the register window, or an error completion, which returns nothing (R387). -/
def execHostRead (addr : BitVec 64) (len : Nat) (s : State) : Out :=
  .next (match fieldOf addr 63 62 with
  | 0 => hostAccess false addr [] len s
  | 2 => match linkReg addr len with
    | some i => { s with hostData := bytesOfNat 8 (if hostSees s i then readReg s i else 0).toNat }
    | none => { s with hostData := [] }
  | _ => { s with hostData := [] })

/-- HOST_WRITE: the aperture, the register window, or an error completion, which changes nothing (R387). -/
def execHostWrite (addr : BitVec 64) (bytes : List (BitVec 8)) (s : State) : Out :=
  .next (match fieldOf addr 63 62 with
  | 0 => hostAccess true addr bytes bytes.length s
  | 2 => match linkReg addr bytes.length with
    | some i => if hostSees s i then writeReg i (.ofNat 64 (natOfBytes bytes)) s else s
    | none => s
  | _ => s)

/-! ## Control registers of a core (R154, R34, R35, R77, R372) -/

/-- SEQ_STATUS as a context reads it. -/
def seqStatus (s : State) (fw : Bool) : Word :=
  let k := s.fcore
  let checked := (k.checkedTo != 0 && decide (s.now0 ≤ k.checkedTo)) || decide (k.prog.bundles < k.checkedBundles)
  .ofNat 64 ((if fw then 1 else 0) + (if checked then 2 else 0) + (if fw && k.prog.wait == .exited then 4 else 0)
    + (if k.fwWork then 8 else 0) + k.trapCode.toNat * 2 ^ 4)

/-- CREW_STATUS as a context reads it. -/
def crewStatus (s : State) (fw : Bool) : Word :=
  let k := s.fcore
  let held := fw && (match s.crewOf s.focus.core with
    | some w => w.hold.isSome
    | none => false)
  .ofNat 64 (k.clockNo % 64 + k.band % 8 * 2 ^ 6 + k.index % 64 * 2 ^ 9 + k.crewSize % 64 * 2 ^ 15 + k.leader % 64 * 2 ^ 21
    + k.cause % 8 * 2 ^ 27 + (if held then 2 ^ 30 else 0))

/-- BANK_FMT. -/
def bankFmtWord (k : Core) : Word :=
  .ofNat 64 (packList 4 ((List.range 8).map (fun n => (k.bank n).fmt.code)) + packList 2 ((List.range 8).map (fun n => (k.bank n).cb % 4)) * 2 ^ 32)

/-- A firmware service register. -/
def fwWord (k : Core) (i : Nat) : Word :=
  match k.svc with
  | none => if i = 0x022 then .ofNat 64 (k.fwObj.toNat + k.fwLine.toNat * 2 ^ 24) else if i = 0x023 then .ofNat 64 (k.saveSlot % 2 ^ 9 * 2 ^ 4) else 0
  | some r =>
    if i = 0x020 then
      .ofNat 64 (r.kind % 8 + (if r.group = 1 then 8 else 0) + min k.fwq.length 4095 * 2 ^ 4 + (if r.kind = 2 ∨ r.kind = 3 then r.susp % 2 ^ 16 else 0) * 2 ^ 16)
    else if i = 0x022 then .ofNat 64 (k.fwObj.toNat + k.fwLine.toNat * 2 ^ 24)
    else if i = 0x023 then
      .ofNat 64 ((if k.saveOp ≠ 0 ∧ !k.saveDone then 4 else 0) + (if k.saveDone then 8 else 0) + k.saveSlot % 2 ^ 9 * 2 ^ 4)
    else if 0x028 ≤ i ∧ i < 0x030 then r.words.getD (i - 0x028) 0
    else 0

/-- What `getc` reads, if the context may (R154). -/
def getReg (i : Nat) (s : State) : Option Word :=
  let k := s.fcore
  let fw := s.focus.fw
  match i with
  | 0x000 => some (seqStatus s fw)
  | 0x001 => some (.ofNat 64 (k.fwN.toNat + k.fwMin.toNat * 2 ^ 6))
  | 0x002 => some (k.bundles.setWidth 64)
  | 0x003 => some (k.fwSlots.setWidth 64)
  | 0x004 => some (k.hsemSat.setWidth 64)
  | 0x005 => some (.ofNat 64 (k.tag.toNat + s.focus.core * 2 ^ 32))
  | 0x010 => some (.ofNat 64 (k.holdLimit.toNat + (if k.holdLog then 2 ^ 24 else 0)))
  | 0x011 => some (crewStatus s fw)
  | 0x012 => some (.ofNat 64 (k.holdCycles.toNat + k.episodes.toNat * 2 ^ 48))
  | 0x014 => some (bankFmtWord k)
  | i =>
    if !fw then none
    else if 0x020 ≤ i ∧ i < 0x040 then some (fwWord k i)
    else if 0x800 ≤ i then some (readReg s i)
    else none

/-- The device registers that `setc` of a firmware context may write (R389). -/
def fwMayWrite (i : Nat) : Bool :=
  (decide (0x900 ≤ i) && decide (i < 0xA40)) || i = 0xC01 || i = 0xC02 || i = 0xD82 || (decide (0xD00 ≤ i) && decide (i < 0xD44) && i % 4 = 3)

/-- What `setc` writes, if the context may (R154). -/
def setReg0 (i : Nat) (v : Word) (s : State) : Option State :=
  let fw := s.focus.fw
  match i with
  | 0x004 => some (s.updF (fun k => { k with hsemSat := k.hsemSat &&& ~~~(v.setWidth 32 &&& ~~~k.hsemHit) }))
  | 0x010 => some (s.updF (fun k => { k with holdLimit := v.setWidth 24, holdLog := v.getLsbD 24 }))
  | 0x011 => some s
  | 0x012 => some s
  | i =>
    if !fw then none
    else if i = 0x001 then some (s.updF (fun k =>
      let m : BitVec 6 := .ofNat 6 (fieldOf v 11 6)
      { k with fwMin := m, fwN := .ofNat 6 (max (fieldOf v 5 0) m.toNat) }))
    else if i = 0x021 then some (s.updF (fun k => if k.svc.isSome then { k with fwAct := v.getLsbD 0, fwSub := .ofNat 4 (fieldOf v 7 4) } else k))
    else if i = 0x022 then some (s.updF (fun k => { k with fwObj := .ofNat 24 (fieldOf v 23 0), fwLine := .ofNat 25 (fieldOf v 48 24) }))
    else if i = 0x023 then some (if fieldOf v 1 0 = 1 ∨ fieldOf v 1 0 = 2 then startEngine s.focus.core (fieldOf v 1 0) s else s)
    else if 0x020 ≤ i ∧ i < 0x040 then some s
    else if fwMayWrite i then some (writeReg i v s)
    else none

/-- `getc` (R147). -/
def execGetc (e : Bool) (d : Reg) (index : BitVec 12) (s : State) : Out :=
  .next (match getReg index.toNat s with
  | some v => seqReg e false d 3 v s
  | none => seqRaise e false (seqFault 2) 0 s)
/-- `setc` (R147). -/
def execSetc (e : Bool) (d : Reg) (index : BitVec 12) (s : State) : Out :=
  .next (match setReg0 index.toNat (s.g d) s with
  | some s1 => seqDone e false s1
  | none => seqRaise e false (seqFault 2) 0 s)

end Sys2Proof.Machine
end

