-- ==== Sys2Proof/Machine/Shake.lean ====
section
/-!
DEFINITION. SHAKE256 (FIPS 202), by which the boot ROM measures the image it accepts (spec 29 R393): lanes of 64 bits as numbers, lane
(x, y) at 5 y + x, and the first eight lanes of the output.
-/
namespace Sys2Proof.Machine

/-- A lane rotated left. -/
def rotLane (v n : Nat) : Nat := (v <<< n ||| v >>> (64 - n)) % 2 ^ 64

/-- A lane of a state. -/
def laneAt (a : List Nat) (x y : Nat) : Nat := a.getD (5 * (y % 5) + x % 5) 0

/-- A state from its lanes. -/
def lanes (f : Nat → Nat → Nat) : List Nat := (List.range 25).map (fun i => f (i % 5) (i / 5))

/-- How far each lane turns, as a list of places and amounts: from lane (1, 0) on, step `t` of the walk turns its lane by the `t`-th
triangular number and goes from (x, y) to (y, 2 x + 3 y). Lane (0, 0) is not on the walk and stays. -/
def turnWalk : Nat → Nat → Nat → List (Nat × Nat)
  | 0, _, _ => []
  | left + 1, x, y => (5 * y + x, (25 - left - 1) * (25 - left) / 2 % 64) :: turnWalk left y ((2 * x + 3 * y) % 5)

/-- How far the lane at a place turns. -/
def laneTurn (place : Nat) : Nat := (((turnWalk 24 1 0).find? (fun p => p.1 == place)).map (·.2)).getD 0

/-- One step of the feedback register of eight bits that yields the constants: x^8 + x^6 + x^5 + x^4 + 1. -/
def feedback (r : Nat) : Nat := if r < 128 then 2 * r else (2 * r) ^^^ 0x171

/-- The constants of `n` rounds from a register on: in each round seven bits of it in turn, the `j`-th at bit 2^j - 1. -/
def constsFrom : Nat → Nat → List Nat
  | 0, _ => []
  | n + 1, r =>
    let rs := (List.range 7).foldl (fun (l : List Nat) _ => feedback (l.headD r) :: l) [r]
    (((rs.tail.reverse).zipIdx.map (fun p => p.1 % 2 * 2 ^ (2 ^ p.2 - 1))).sum) :: constsFrom n (rs.headD r)

/-- The columns' part of a round. -/
def columnStep (a : List Nat) : List Nat :=
  let c := (List.range 5).map (fun x => (List.range 5).foldl (fun v y => v ^^^ laneAt a x y) 0)
  let d := (List.range 5).map (fun x => c.getD ((x + 4) % 5) 0 ^^^ rotLane (c.getD ((x + 1) % 5) 0) 1)
  lanes (fun x y => laneAt a x y ^^^ d.getD x 0)

/-- The lanes rotated and moved: what stood at (x, y) stands at (y, 2x + 3y). -/
def moveStep (a : List Nat) : List Nat := lanes (fun x y => rotLane (laneAt a (x + 3 * y) x) (laneTurn (5 * x + (x + 3 * y) % 5)))

/-- The rows' part of a round, with its constant. -/
def rowStep (k : Nat) (a : List Nat) : List Nat :=
  lanes (fun x y => laneAt a x y ^^^ ((2 ^ 64 - 1 - laneAt a (x + 1) y) &&& laneAt a (x + 2) y) ^^^ (if x = 0 ∧ y = 0 then k else 0))

/-- The permutation. -/
def permuteLanes (a : List Nat) : List Nat := (constsFrom 24 1).foldl (fun a k => rowStep k (moveStep (columnStep a))) a

/-- Take in a block of 136 bytes. -/
def absorbBlock (a : List Nat) (b : List Byte) : List Nat :=
  permuteLanes ((List.range 25).map (fun i => a.getD i 0 ^^^ natOfBytes ((b.drop (8 * i)).take 8)))

/-- A message with its padding: 0x1F behind it, zeros to the end of a block of 136 bytes, and the top bit of the last byte set. -/
def shakePad (m : List Byte) : List Byte :=
  let z := 135 - m.length % 136
  if z = 0 then m ++ [0x9F] else m ++ [0x1F] ++ List.replicate (z - 1) 0 ++ [0x80]

/-- Word `n` of the SHAKE256 digest of a message, for n below 8 (R393). -/
def shakeWord (m : List Byte) (n : Nat) : Nat :=
  let p := shakePad m
  ((List.range (p.length / 136)).foldl (fun a i => absorbBlock a ((p.drop (136 * i)).take 136)) (List.replicate 25 0)).getD n 0

end Sys2Proof.Machine
end

