-- ==== Sys2Proof/Machine/System.lean ====
section
/-!
DEFINITION. Boot, alarms, power and the fabric (spec 29 R391, R393, R394, R397, R398, 27 R385, R386, 19 R286).
-/
namespace Sys2Proof.Machine

/-! ## Alarms (R385) -/

/-- The partitions that are enabled. -/
def partsOn (s : State) : List Nat := (List.range 16).filter (partOn s)

/-- The SECURITY record of a cause in queue 16, and its copy in the queue of every enabled partition (R368). -/
def alarmRecord (cause level : Nat) (s : State) : State :=
  let words := recordWords s 464 { code := 0x60, sub := cause } false false 0 0 none [.ofNat 64 (cause + level * 4)]
  (16 :: partsOn s).foldl (fun s q => putRecord s q words) s

/-- Act on an alarm at its level; each level includes the lower ones. -/
def alarm (cause : Nat) (s : State) : State :=
  let level := max 1 (fieldOf (s.reg 0xD90) (2 * cause + 1) (2 * cause))
  let st := s.reg 0xD91
  let s1 := alarmRecord cause level (s.setReg 0xD91 (.ofNat 64
    (fieldOf (st ||| BitVec.ofNat 64 (2 ^ cause)) 3 0 + max level (fieldOf st 5 4) * 2 ^ 4)))
  let s2 := if 2 ≤ level then { s1 with debugLocked := true, halted := (List.range 16).filter (fun p => s1.halted.contains p || partOn s1 p) } else s1
  if 3 ≤ level then { s2 with keys := [] } else s2

/-- SECURITY_ALARM (R385). -/
def execSecurityAlarm (cause : Nat) (s : State) : Out := .next (if cause < 4 then alarm cause s else s)

/-! ## Boot (R393, R394) -/

/-- Set STATE. -/
def setBoot (st : Nat) (s : State) : State := s.setReg 0xE31 (withField (s.reg 0xE31) 2 0 st)

/-- A quarter row of weights as an open value gives it: each level read back lies in −7 … +7 (R233). -/
def levelsOf (v : Nat) : BitVec 512 := .ofNat 512 (packList 4 ((List.range 128).map (fun e => wrapTo 4 ((v / 15 ^ e % 15 : Nat) - 7 : Int))))

/-- What power-on finds of an array: its cells and counters, and a firing that was valid (R221, R232). -/
def Kiln.powered (k : Kiln) : Kiln :=
  { k with
    st := if k.st = .fired ∨ k.st = .due ∨ k.st = .recal then .fired else .unfired
    image := match k.lost with
      | some b => (List.range 2048).map (fun q => (q, levelsOf (Config.free (b + q))))
      | none => k.cells
    imgPoison := []
    firing := none
    breach := false
    wantCal := false }

/-- POWER_ON: the module starts from reset with what is not volatile, and verification begins. -/
def execPowerOn (s : State) : Out :=
  .next (if !s.off && bootState s != 0 then s else
    setBoot 1 { State.reset with
      kilns := s.kilns.map (fun p => (p.1, p.2.powered))
      flash := s.flash
      spare := s.spare
      uncorr := s.uncorr.filter (fun u => u.1 == 1)
      hardFail := s.hardFail
      host := s.host
      peer := s.peer
      peerObjs := s.peerObjs
      linksDown := s.linksDown
      logs := s.logs
      indexes := s.indexes.map (fun p => (p.1, { p.2 with merging := none, shadow := [] }))
      imageA := s.imageA
      imageB := s.imageB
      keys := s.keys
      cwKey := s.cwKey
      now := s.now
      nextId := s.nextId
      freeCtr := s.freeCtr
      agenda := s.agenda })

/-- Count failed verifications, and raise SIGFAIL at the fourth (R385). -/
def sigFail (n : Nat) (s : State) : State :=
  let s1 := { s with sigFails := s.sigFails + n }
  let s2 := s1.setReg 0xE31 (withField (s1.reg 0xE31) 7 4 (min 15 s1.sigFails))
  if s.sigFails < 4 ∧ 4 ≤ s1.sigFails then alarm 2 s2 else s2

/-- VERIFY_DONE: image A is verified, then image B; the SHAKE256 digest of the one accepted is measured (R393; log entry 9). -/
def execVerifyDone (okA okB : Bool) (s : State) : Out :=
  .next (if bootState s ≠ 1 then s else
    let s1 := sigFail ((if okA then 0 else 1) + (if okA || okB then 0 else 1)) s
    if okA || okB then
      let s2 := (List.range 8).foldl (fun t n => t.setReg (0xE38 + n) (.ofNat 64 (shakeWord (if okA then s.imageA else s.imageB) n))) s1
      setBoot 2 (s2.setReg 0xE31 (withField (s2.reg 0xE31) 3 3 (if okA then 0 else 1)))
    else setBoot 7 s1)

/-- Recalibrate an array that holds a valid firing: it succeeds or fails (R393, R223). -/
def bootCal (i : Nat) (s : State) : State :=
  let core := i / 16
  let arr := i % 16
  if (s.kiln core arr).st ≠ .fired then s else
  let (ok, s1) := s.draw
  if ok % 2 = 0 then
    let (v, s2) := s1.draws 1560
    s2.updKiln core arr (fun k => k.calibrated s.now v)
  else kilnRecord 0x44 core arr 0 0 0 none (s1.updKiln core arr (fun k => { k with st := .unfired }))

/-- CALIBRATE_DONE (R393). -/
def execCalibrateDone (s : State) : Out :=
  .next (if bootState s ≠ 2 then s else setBoot 3 (s.kilns.foldl (fun s p => bootCal p.1 s) s))

/-- The 1 MiB reserved to the firmware. -/
def fwArea : Nat := lpddrEnd - 2 ^ 20
/-- Tiles that the area behind the tables has room for (log entry 7). -/
def fwTiles : Nat := 240

/-- The accepted image: A or B (R393). -/
def fwImage (s : State) : List Byte := if (s.reg 0xE31).getLsbD 3 then s.imageB else s.imageA

/-- Lines of the firmware code object: those of the image, as far as there is room. -/
def fwLines (img : List Byte) : Nat := max 1 (min (64 * fwTiles) ((img.length + 63) / 64))

/-- Line `k` of the image. -/
def fwLine (img : List Byte) (k : Nat) : BitVec 512 := .ofNat 512 (natOfBytes ((img.drop (64 * k)).take 64))

/-- Entry 1 of the boot table, of a code object of so many lines. -/
def fwEntry (lines : Nat) : Nat :=
  1 + 1 * 2 ^ 1 + 1 * 2 ^ 8 + 8 * 2 ^ 11 + 2 ^ 43 + 2 ^ 44 + 12 * 2 ^ 64 + 64 * lines * 2 ^ 128 + (fwArea + 4096) / 64 * 2 ^ 336

/-- Tile entry `t` of the firmware code object, with X. -/
def fwTile (t : Nat) (x : Bool) : Nat := 1 + (if x then 2 ^ 4 else 0) + (fwArea + 65536 + 4096 * t)

/-- The tile entries of the firmware code object, X as the scan of MAP gives it (R113). -/
def fwTable (img : List Byte) : List Nat :=
  let n := fwLines img
  let tiles := (n + 63) / 64
  let fails := scanLines ⟨fwLine img, 0, 64 * tiles, n⟩
  (List.range fwTiles).map (fun t => if t < tiles then fwTile t (tilePasses fails t) else 0)

/-- MOUNT_DONE: the boot table, the firmware code object with the accepted image, its tiles mapped, and FW_ENTRY of every core (R394); the entry
line is what the image names. -/
def execMountDone (line : BitVec 25) (s : State) : Out :=
  .next (if bootState s ≠ 3 then s else
    let img := fwImage s
    let table := bytesOfNat 64 0 ++ bytesOfNat 64 (fwEntry (fwLines img)) ++ bytesOfNat 896 0
    let tiles := packBytes 8 (fwTable img)
    let code := (img ++ List.replicate (64 * fwLines img) 0).take (64 * fwLines img)
    let put := fun (a : Nat) (b : List Byte) (s : State) => match lpWrite s a b 0 with
      | .ok s' => s'
      | .error _ => s
    let s1 := put (fwArea + 65536) code (put (fwArea + 4096) tiles (put fwArea table s))
    let s2 := (s1.setReg 0x800 (.ofNat 64 (fwArea / 64))).setReg 0x801 16
    setBoot 4 ((List.range 320).foldl (fun s c => s.updCore c (fun k => { k with fwObj := 1, fwLine := line })) s2))

/-! ## Power (R397, R286) -/

/-- MHZ of a partition's clock. -/
def clockOf (s : State) (p : Nat) : Nat := fieldOf (s.reg (0xE40 + p)) 23 13
/-- Set MHZ. -/
def setClock (p mhz : Nat) (s : State) : State := s.setReg (0xE40 + p) (withField (s.reg (0xE40 + p)) 23 13 mhz)
/-- One step down, to the floor. -/
def stepDown (p : Nat) (s : State) : State := setClock p (max 800 (clockOf s p - 25)) s
/-- One step up, to the nominal clock. -/
def stepUp (p : Nat) (s : State) : State := setClock p (min 1600 (clockOf s p + 25)) s

/-- POWER_REGULATE: the supervisor compares an enabled partition's power with its cap; a hot die is held at the floor (R397). -/
def execPowerRegulate (part : Nat) (power : Nat) (hot : Bool) (s : State) : Out :=
  let c := s.reg (0xE40 + part)
  let watts := fieldOf c 11 0
  .next (if 16 ≤ part ∨ !partOn s part then s
    else if hot then setClock part 800 s
    else if !c.getLsbD 12 || watts = 0 then stepUp part s
    else if watts < power then stepDown part s
    else if 100 * power < 95 * watts then stepUp part s
    else s)
/-- MODULE_POWER_LIMIT (R397). -/
def execModulePowerLimit (s : State) : Out := .next ((List.range 16).foldl (fun s p => stepDown p s) s)

/-- The module goes off: entries that are not durable are lost (R286). -/
def powerDown (s : State) : State :=
  { s with off := true, logs := s.logs.map (fun p => (p.1, { p.2 with entries := p.2.entries.filter (·.durable) })) }

/-- THERMAL_SHUTDOWN (R397). -/
def execThermalShutdown (s : State) : Out := .next (powerDown s)
/-- POWER_LOSS (R286). -/
def execPowerLoss (s : State) : Out := .next (powerDown s)

/-! ## Sleep and parity (R398) -/

/-- CORE_SLEEP: a core that holds no launch sleeps; its banks lose power. -/
def execCoreSleep (core : Nat) (s : State) : Out :=
  .next (if (s.core core).crew.isNone ∧ core < 320 then s.updCore core (fun k => { k with asleep := true, banks := [] }) else s)

/-- Set or clear a core's ONLINE bit. -/
def setOnline (core : Nat) (on : Bool) (s : State) : State :=
  let r := 0xE50 + core / 64
  let b := BitVec.ofNat 64 (2 ^ (core % 64))
  s.setReg r (if on then s.reg r ||| b else s.reg r &&& ~~~b)

/-- PARITY_SWEEP_DONE: the core is awake and online, or it stays asleep, offline, with a PARITY record. -/
def execParitySweepDone (core : Nat) (ok : Bool) (s : State) : Out :=
  .next (if !(s.core core).sweeping ∨ 320 ≤ core then s else
    if ok then setOnline core true (s.updCore core (fun k => { k with asleep := false, sweeping := false }))
    else setOnline core false (record (s.updCore core (fun k => { k with asleep := true, sweeping := false })) core { code := 0x4B, sub := 0 } false false 0 0 none
      (some core) []))

/-! ## The fabric (R391) -/

/-- FABRIC_LINKS_TRAINED. -/
def execFabricLinksTrained (s : State) : Out := .next (s.setReg 0xE30 (withField (s.reg 0xE30) 20 20 1))
/-- FABRIC_LINK_FAILURE: accesses to the module raise ACCESS UNCORRECTABLE. -/
def execFabricLinkFailure (dev : Nat) (s : State) : Out :=
  .next (if s.linksDown.contains dev then s else { s with linksDown := dev :: s.linksDown })

end Sys2Proof.Machine
end

