-- ==== Sys2Proof/Machine/Dispatch.lean ====
section
/-!
DEFINITION. One arm for each constructor of `Instr`: a direct call of its meaning.
-/
namespace Sys2Proof.Machine

/-- The effect of one instruction, entry, command, record or event. -/
def exec (i : Instr) (s : State) : Host.Outcome State Fault Refusal :=
  match i with
  | .add e d a b => Sys2Proof.Machine.execAdd e d a b s
  | .sub e d a b => Sys2Proof.Machine.execSub e d a b s
  | .mul e d a b => Sys2Proof.Machine.execMul e d a b s
  | .mulh e d a b => Sys2Proof.Machine.execMulh e d a b s
  | .mulhu e d a b => Sys2Proof.Machine.execMulhu e d a b s
  | .div e d a b => Sys2Proof.Machine.execDiv e d a b s
  | .divu e d a b => Sys2Proof.Machine.execDivu e d a b s
  | .rem e d a b => Sys2Proof.Machine.execRem e d a b s
  | .remu e d a b => Sys2Proof.Machine.execRemu e d a b s
  | .and e d a b => Sys2Proof.Machine.execAnd e d a b s
  | .or e d a b => Sys2Proof.Machine.execOr e d a b s
  | .xor e d a b => Sys2Proof.Machine.execXor e d a b s
  | .andn e d a b => Sys2Proof.Machine.execAndn e d a b s
  | .shl e d a b => Sys2Proof.Machine.execShl e d a b s
  | .shr e d a b => Sys2Proof.Machine.execShr e d a b s
  | .sar e d a b => Sys2Proof.Machine.execSar e d a b s
  | .rol e d a b => Sys2Proof.Machine.execRol e d a b s
  | .min e d a b => Sys2Proof.Machine.execMin e d a b s
  | .max e d a b => Sys2Proof.Machine.execMax e d a b s
  | .minu e d a b => Sys2Proof.Machine.execMinu e d a b s
  | .maxu e d a b => Sys2Proof.Machine.execMaxu e d a b s
  | .slt e d a b => Sys2Proof.Machine.execSlt e d a b s
  | .sltu e d a b => Sys2Proof.Machine.execSltu e d a b s
  | .addi e d a imm x => Sys2Proof.Machine.execAddi e d a imm x s
  | .andi e d a imm x => Sys2Proof.Machine.execAndi e d a imm x s
  | .ori e d a imm x => Sys2Proof.Machine.execOri e d a imm x s
  | .xori e d a imm x => Sys2Proof.Machine.execXori e d a imm x s
  | .shli e d a n => Sys2Proof.Machine.execShli e d a n s
  | .shri e d a n => Sys2Proof.Machine.execShri e d a n s
  | .sari e d a n => Sys2Proof.Machine.execSari e d a n s
  | .lui e d imm x => Sys2Proof.Machine.execLui e d imm x s
  | .clz e d a => Sys2Proof.Machine.execClz e d a s
  | .ctz e d a => Sys2Proof.Machine.execCtz e d a s
  | .popc e d a => Sys2Proof.Machine.execPopc e d a s
  | .sext_b e d a => Sys2Proof.Machine.execSextB e d a s
  | .sext_h e d a => Sys2Proof.Machine.execSextH e d a s
  | .sext_w e d a => Sys2Proof.Machine.execSextW e d a s
  | .zext_b e d a => Sys2Proof.Machine.execZextB e d a s
  | .zext_h e d a => Sys2Proof.Machine.execZextH e d a s
  | .zext_w e d a => Sys2Proof.Machine.execZextW e d a s
  | .cmp e pd cc a b => Sys2Proof.Machine.execCmp e pd cc a b s
  | .cmpi e pd cc a imm x => Sys2Proof.Machine.execCmpi e pd cc a imm x s
  | .pand e pd pa pb => Sys2Proof.Machine.execPand e pd pa pb s
  | .por e pd pa pb => Sys2Proof.Machine.execPor e pd pa pb s
  | .pxor e pd pa pb => Sys2Proof.Machine.execPxor e pd pa pb s
  | .pnot e pd pa => Sys2Proof.Machine.execPnot e pd pa s
  | .sel e d a b neg p => Sys2Proof.Machine.execSel e d a b neg p s
  | .ld_b e d a imm x => Sys2Proof.Machine.execLdB e d a imm x s
  | .ld_h e d a imm x => Sys2Proof.Machine.execLdH e d a imm x s
  | .ld_w e d a imm x => Sys2Proof.Machine.execLdW e d a imm x s
  | .ld_d e d a imm x => Sys2Proof.Machine.execLdD e d a imm x s
  | .ldu_b e d a imm x => Sys2Proof.Machine.execLduB e d a imm x s
  | .ldu_h e d a imm x => Sys2Proof.Machine.execLduH e d a imm x s
  | .ldu_w e d a imm x => Sys2Proof.Machine.execLduW e d a imm x s
  | .st_b e d a imm x => Sys2Proof.Machine.execStB e d a imm x s
  | .st_h e d a imm x => Sys2Proof.Machine.execStH e d a imm x s
  | .st_w e d a imm x => Sys2Proof.Machine.execStW e d a imm x s
  | .st_d e d a imm x => Sys2Proof.Machine.execStD e d a imm x s
  | .br e neg p loff word x => Sys2Proof.Machine.execBr e neg p loff word x s
  | .bf e test f loff word x => Sys2Proof.Machine.execBf e test f loff word x s
  | .jmp e loff word x => Sys2Proof.Machine.execJmp e loff word x s
  | .jr e a => Sys2Proof.Machine.execJr e a s
  | .call e loff word x => Sys2Proof.Machine.execCall e loff word x s
  | .ret e => Sys2Proof.Machine.execRet e s
  | .loop e a loff word x => Sys2Proof.Machine.execLoop e a loff word x s
  | .exit e => Sys2Proof.Machine.execExit e s
  | .trap e imm x => Sys2Proof.Machine.execTrap e imm x s
  | .rfe e => Sys2Proof.Machine.execRfe e s
  | .nop e => Sys2Proof.Machine.execNop e s
  | .arm e stream a loff x => Sys2Proof.Machine.execArm e stream a loff x s
  | .disarm e stream x => Sys2Proof.Machine.execDisarm e stream x s
  | .sync e d a => Sys2Proof.Machine.execSync e d a s
  | .cyc e d => Sys2Proof.Machine.execCyc e d s
  | .setof e stn ofi a ty => Sys2Proof.Machine.execSetof e stn ofi a ty s
  | .fget e d f => Sys2Proof.Machine.execFget e d f s
  | .cport e src port cmd => Sys2Proof.Machine.execCport e src port cmd s
  | .go e d port => Sys2Proof.Machine.execGo e d port s
  | .mxq e a b => Sys2Proof.Machine.execMxq e a b s
  | .hsig e h a imm => Sys2Proof.Machine.execHsig e h a imm s
  | .hwait e h op a imm => Sys2Proof.Machine.execHwait e h op a imm s
  | .hrd e d h => Sys2Proof.Machine.execHrd e d h s
  | .getc e d index => Sys2Proof.Machine.execGetc e d index s
  | .setc e d index => Sys2Proof.Machine.execSetc e d index s
  | .fence e scope => Sys2Proof.Machine.execFence e scope s
  | .tstamp e d => Sys2Proof.Machine.execTstamp e d s
  | .fwshare e imm x => Sys2Proof.Machine.execFwshare e imm x s
  | .idle e d a imm x => Sys2Proof.Machine.execIdle e d a imm x s
  | .rd h row => Sys2Proof.Machine.execRd h row s
  | .rdx h base len off adv => Sys2Proof.Machine.execRdx h base len off adv s
  | .rdb h rowA rowB => Sys2Proof.Machine.execRdb h rowA rowB s
  | .wr h row part => Sys2Proof.Machine.execWr h row part s
  | .wrx h base len off adv => Sys2Proof.Machine.execWrx h base len off adv s
  | .wrb h row gmask => Sys2Proof.Machine.execWrb h row gmask s
  | .bank_fill h row count => Sys2Proof.Machine.execBankFill h row count s
  | .bank_mode h seedv rnd sat seed => Sys2Proof.Machine.execBankMode h seedv rnd sat seed s
  | .fmt h f cb load => Sys2Proof.Machine.execFmt h f cb load s
  | .bank_wait h w => Sys2Proof.Machine.execBankWait h w s
  | .stn_nop h => Sys2Proof.Machine.execStnNop h s
  | .stn_wait h w => Sys2Proof.Machine.execStnWait h w s
  | .stn_mode h seedv rnd sat seed => Sys2Proof.Machine.execStnMode h seedv rnd sat seed s
  | .chk h => Sys2Proof.Machine.execChk h s
  | .vadd h => Sys2Proof.Machine.execVadd h s
  | .vsub h => Sys2Proof.Machine.execVsub h s
  | .vmul h => Sys2Proof.Machine.execVmul h s
  | .vfma h init => Sys2Proof.Machine.execVfma h init s
  | .vfms h init => Sys2Proof.Machine.execVfms h init s
  | .vmin h => Sys2Proof.Machine.execVmin h s
  | .vmax h => Sys2Proof.Machine.execVmax h s
  | .vabs h => Sys2Proof.Machine.execVabs h s
  | .vneg h => Sys2Proof.Machine.execVneg h s
  | .vand h => Sys2Proof.Machine.execVand h s
  | .vor h => Sys2Proof.Machine.execVor h s
  | .vxor h => Sys2Proof.Machine.execVxor h s
  | .vnot h => Sys2Proof.Machine.execVnot h s
  | .vshl h => Sys2Proof.Machine.execVshl h s
  | .vshr h => Sys2Proof.Machine.execVshr h s
  | .vsar h => Sys2Proof.Machine.execVsar h s
  | .vrshr h => Sys2Proof.Machine.execVrshr h s
  | .vaddsat h => Sys2Proof.Machine.execVaddsat h s
  | .vsubsat h => Sys2Proof.Machine.execVsubsat h s
  | .vclamp h sym => Sys2Proof.Machine.execVclamp h sym s
  | .vcmp h rel => Sys2Proof.Machine.execVcmp h rel s
  | .vcmpb h rel margin => Sys2Proof.Machine.execVcmpb h rel margin s
  | .vsel h mof amb => Sys2Proof.Machine.execVsel h mof amb s
  | .vmov h => Sys2Proof.Machine.execVmov h s
  | .vmac h q init => Sys2Proof.Machine.execVmac h q init s
  | .vscale h => Sys2Proof.Machine.execVscale h s
  | .vcvt h part init => Sys2Proof.Machine.execVcvt h part init s
  | .vpack h => Sys2Proof.Machine.execVpack h s
  | .vunpack h half => Sys2Proof.Machine.execVunpack h half s
  | .viota h => Sys2Proof.Machine.execViota h s
  | .vaccept h => Sys2Proof.Machine.execVaccept h s
  | .rcp h => Sys2Proof.Machine.execRcp h s
  | .rsq h => Sys2Proof.Machine.execRsq h s
  | .sqrt h => Sys2Proof.Machine.execSqrt h s
  | .ex2 h => Sys2Proof.Machine.execEx2 h s
  | .lg2 h => Sys2Proof.Machine.execLg2 h s
  | .sin h => Sys2Proof.Machine.execSin h s
  | .cos h => Sys2Proof.Machine.execCos h s
  | .xpose h lr h2 => Sys2Proof.Machine.execXpose h lr h2 s
  | .perm h => Sys2Proof.Machine.execPerm h s
  | .shuf h pat => Sys2Proof.Machine.execShuf h pat s
  | .bcast h k => Sys2Proof.Machine.execBcast h k s
  | .gath h t len => Sys2Proof.Machine.execGath h t len s
  | .slide h k => Sys2Proof.Machine.execSlide h k s
  | .rope h pair => Sys2Proof.Machine.execRope h pair s
  | .spc24 h md => Sys2Proof.Machine.execSpc24 h md s
  | .spc48 h md => Sys2Proof.Machine.execSpc48 h md s
  | .rsum h bc sat => Sys2Proof.Machine.execRsum h bc sat s
  | .rmax h bc => Sys2Proof.Machine.execRmax h bc s
  | .rmin h bc => Sys2Proof.Machine.execRmin h bc s
  | .scan h excl => Sys2Proof.Machine.execScan h excl s
  | .topk h k start => Sys2Proof.Machine.execTopk h k start s
  | .argmax h => Sys2Proof.Machine.execArgmax h s
  | .cmpct h amb => Sys2Proof.Machine.execCmpct h amb s
  | .osm h out start => Sys2Proof.Machine.execOsm h out start s
  | .osf h => Sys2Proof.Machine.execOsf h s
  | .vflag h flag count amb => Sys2Proof.Machine.execVflag h flag count amb s
  | .xmv h arr sh => Sys2Proof.Machine.execXmv h arr sh s
  | .xref h arr sh => Sys2Proof.Machine.execXref h arr sh s
  | .xprog_deposit h arr row q => Sys2Proof.Machine.execXprogDeposit h arr row q s
  | .xprog_fire h arr hs => Sys2Proof.Machine.execXprogFire h arr hs s
  | .xrdw h arr row q => Sys2Proof.Machine.execXrdw h arr row q s
  | .xbound h arr sh => Sys2Proof.Machine.execXbound h arr sh s
  | .xstat h arr sel ix => Sys2Proof.Machine.execXstat h arr sel ix s
  | .mld h row slot => Sys2Proof.Machine.execMld h row slot s
  | .mfd h => Sys2Proof.Machine.execMfd h s
  | .mdr h row q acc => Sys2Proof.Machine.execMdr h row q acc s
  | .msv h row slot acc q kind => Sys2Proof.Machine.execMsv h row slot acc q kind s
  | .mrs h row slot acc q kind => Sys2Proof.Machine.execMrs h row slot acc q kind s
  | .fsnd h q => Sys2Proof.Machine.execFsnd h q s
  | .frcv h q => Sys2Proof.Machine.execFrcv h q s
  | .fexp h q count w => Sys2Proof.Machine.execFexp h q count w s
  | .fqd h q hs => Sys2Proof.Machine.execFqd h q hs s
  | .mmul h acc slot m n k ty => Sys2Proof.Machine.execMmul h acc slot m n k ty s
  | .mmac h acc slot m n k ty => Sys2Proof.Machine.execMmac h acc slot m n k ty s
  | .mmuls h acc slot m n k ty sp pc mof => Sys2Proof.Machine.execMmuls h acc slot m n k ty sp pc mof s
  | .mmacs h acc slot m n k ty sp pc mof => Sys2Proof.Machine.execMmacs h acc slot m n k ty sp pc mof s
  | .mclr h acc ty => Sys2Proof.Machine.execMclr h acc ty s
  | .mclaim h mask => Sys2Proof.Machine.execMclaim h mask s
  | .mrel h mask => Sys2Proof.Machine.execMrel h mask s
  | .mscl h slot row0 mof w => Sys2Proof.Machine.execMscl h slot row0 mof w s
  | .mtr h dst src => Sys2Proof.Machine.execMtr h dst src s
  | .mfence h => Sys2Proof.Machine.execMfence h s
  | .mx_msig h tgt => Sys2Proof.Machine.execMxMsig h tgt s
  | .mnop h => Sys2Proof.Machine.execMnop h s
  | .copy h c => Sys2Proof.Machine.execCopy h c s
  | .copyp h c => Sys2Proof.Machine.execCopyp h c s
  | .pref h c => Sys2Proof.Machine.execPref h c s
  | .ferry_gath h c => Sys2Proof.Machine.execFerryGath h c s
  | .scat h c => Sys2Proof.Machine.execScat h c s
  | .scadd h c => Sys2Proof.Machine.execScadd h c s
  | .lred h c => Sys2Proof.Machine.execLred h c s
  | .ltopk h c => Sys2Proof.Machine.execLtopk h c s
  | .lcmp h c => Sys2Proof.Machine.execLcmp h c s
  | .ferry_fill h c => Sys2Proof.Machine.execFerryFill h c s
  | .atom h c => Sys2Proof.Machine.execAtom h c s
  | .barinit h c => Sys2Proof.Machine.execBarinit h c s
  | .inval h c => Sys2Proof.Machine.execInval h c s
  | .ferry_msig h c => Sys2Proof.Machine.execFerryMsig h c s
  | .srchg h c => Sys2Proof.Machine.execSrchg h c s
  | .srchv h c => Sys2Proof.Machine.execSrchv h c s
  | .dscan h c => Sys2Proof.Machine.execDscan h c s
  | .append h c => Sys2Proof.Machine.execAppend h c s
  | .remove h c => Sys2Proof.Machine.execRemove h c s
  | .merge h c => Sys2Proof.Machine.execMerge h c s
  | .stamp h => Sys2Proof.Machine.execStamp h s
  | .pgrd h c => Sys2Proof.Machine.execPgrd h c s
  | .kvalloc h c => Sys2Proof.Machine.execKvalloc h c s
  | .kvfree h c => Sys2Proof.Machine.execKvfree h c s
  | .kvapp h c => Sys2Proof.Machine.execKvapp h c s
  | .kvmap h c => Sys2Proof.Machine.execKvmap h c s
  | .kvret h c => Sys2Proof.Machine.execKvret h c s
  | .kvld h c => Sys2Proof.Machine.execKvld h c s
  | .kvq h c => Sys2Proof.Machine.execKvq h c s
  | .nop_record h => Sys2Proof.Machine.execNopRecord h s
  | .launch_record h c => Sys2Proof.Machine.execLaunchRecord h c s
  | .ferry_record h c => Sys2Proof.Machine.execFerryRecord h c s
  | .store_record h c => Sys2Proof.Machine.execStoreRecord h c s
  | .kv_record h c => Sys2Proof.Machine.execKvRecord h c s
  | .wait_record h => Sys2Proof.Machine.execWaitRecord h s
  | .signal_record h => Sys2Proof.Machine.execSignalRecord h s
  | .branch h c => Sys2Proof.Machine.execBranch h c s
  | .select h c => Sys2Proof.Machine.execSelect h c s
  | .phase h c => Sys2Proof.Machine.execPhase h c s
  | .graph h c => Sys2Proof.Machine.execGraph h c s
  | .cancel h c => Sys2Proof.Machine.execCancel h c s
  | .irq h c => Sys2Proof.Machine.execIrq h c s
  | .stamp_record h c => Sys2Proof.Machine.execStampRecord h c s
  | .map h c => Sys2Proof.Machine.execMap h c s
  | .fence_record h => Sys2Proof.Machine.execFenceRecord h s
  | .sync_release core fw => Sys2Proof.Machine.execSyncRelease core fw s
  | .idle_wake core fw => Sys2Proof.Machine.execIdleWake core fw s
  | .fence_complete core fw => Sys2Proof.Machine.execFenceComplete core fw s
  | .const_line_ready core => Sys2Proof.Machine.execConstLineReady core s
  | .fexp_deadline core q => Sys2Proof.Machine.execFexpDeadline core q s
  | .station_result_land core => Sys2Proof.Machine.execStationResultLand core s
  | .row_arrival core q => Sys2Proof.Machine.execRowArrival core q s
  | .hold_release crew => Sys2Proof.Machine.execHoldRelease crew s
  | .hold_limit crew => Sys2Proof.Machine.execHoldLimit crew s
  | .clock_end crew => Sys2Proof.Machine.execClockEnd crew s
  | .matrix_update_land core => Sys2Proof.Machine.execMatrixUpdateLand core s
  | .matrix_command_complete core => Sys2Proof.Machine.execMatrixCommandComplete core s
  | .xb_row_put core => Sys2Proof.Machine.execXbRowPut core s
  | .ferry_continue cmd => Sys2Proof.Machine.execFerryContinue cmd s
  | .ferry_command_complete cmd => Sys2Proof.Machine.execFerryCommandComplete cmd s
  | .read_retry_done cmd page codeword readable => Sys2Proof.Machine.execReadRetryDone cmd page codeword readable s
  | .snapshot_ready cmd => Sys2Proof.Machine.execSnapshotReady cmd s
  | .log_durable obj stamp => Sys2Proof.Machine.execLogDurable obj stamp s
  | .merge_autostart obj => Sys2Proof.Machine.execMergeAutostart obj s
  | .store_command_complete cmd => Sys2Proof.Machine.execStoreCommandComplete cmd s
  | .kv_command_complete cmd => Sys2Proof.Machine.execKvCommandComplete cmd s
  | .tail_write queue => Sys2Proof.Machine.execTailWrite queue s
  | .launch_reserve rec => Sys2Proof.Machine.execLaunchReserve rec s
  | .launch_start crew => Sys2Proof.Machine.execLaunchStart crew s
  | .task_complete core => Sys2Proof.Machine.execTaskComplete core s
  | .record_retire rec => Sys2Proof.Machine.execRecordRetire rec s
  | .queue_on queue => Sys2Proof.Machine.execQueueOn queue s
  | .queue_off queue => Sys2Proof.Machine.execQueueOff queue s
  | .qm_cancel level part tag => Sys2Proof.Machine.execQmCancel level part tag s
  | .preempt rec => Sys2Proof.Machine.execPreempt rec s
  | .freeze crew => Sys2Proof.Machine.execFreeze crew s
  | .fw_service_start core => Sys2Proof.Machine.execFwServiceStart core s
  | .save_start core => Sys2Proof.Machine.execSaveStart core s
  | .restore_start core => Sys2Proof.Machine.execRestoreStart core s
  | .save_engine_done core => Sys2Proof.Machine.execSaveEngineDone core s
  | .context_saved crew => Sys2Proof.Machine.execContextSaved crew s
  | .restore rec => Sys2Proof.Machine.execRestore rec s
  | .crew_resume crew => Sys2Proof.Machine.execCrewResume crew s
  | .fq_resume_resume susp => Sys2Proof.Machine.execFqResumeResume susp s
  | .fq_resume_fail susp sub => Sys2Proof.Machine.execFqResumeFail susp sub s
  | .kiln_recal core start => Sys2Proof.Machine.execKilnRecal core start s
  | .recal_start core arr => Sys2Proof.Machine.execRecalStart core arr s
  | .recal_end core arr ok => Sys2Proof.Machine.execRecalEnd core arr ok s
  | .firing_end core arr ok => Sys2Proof.Machine.execFiringEnd core arr ok s
  | .kiln_temp core arr temp => Sys2Proof.Machine.execKilnTemp core arr temp s
  | .drift_due core arr => Sys2Proof.Machine.execDriftDue core arr s
  | .cache_units slice units => Sys2Proof.Machine.execCacheUnits slice units s
  | .cache_resize_done slice => Sys2Proof.Machine.execCacheResizeDone slice s
  | .partition_enable part value => Sys2Proof.Machine.execPartitionEnable part value s
  | .partition_disable part => Sys2Proof.Machine.execPartitionDisable part s
  | .irq_kick vector => Sys2Proof.Machine.execIrqKick vector s
  | .attest value => Sys2Proof.Machine.execAttest value s
  | .attest_done => Sys2Proof.Machine.execAttestDone s
  | .key_load value => Sys2Proof.Machine.execKeyLoad value s
  | .core_online m value => Sys2Proof.Machine.execCoreOnline m value s
  | .register_write index value => Sys2Proof.Machine.execRegisterWrite index value s
  | .host_read addr len => Sys2Proof.Machine.execHostRead addr len s
  | .host_write addr bytes => Sys2Proof.Machine.execHostWrite addr bytes s
  | .host_access_timeout susp => Sys2Proof.Machine.execHostAccessTimeout susp s
  | .roce_send port bytes => Sys2Proof.Machine.execRoceSend port bytes s
  | .roce_write obj off bytes => Sys2Proof.Machine.execRoceWrite obj off bytes s
  | .roce_read obj off len => Sys2Proof.Machine.execRoceRead obj off len s
  | .power_on => Sys2Proof.Machine.execPowerOn s
  | .verify_done okA okB => Sys2Proof.Machine.execVerifyDone okA okB s
  | .calibrate_done => Sys2Proof.Machine.execCalibrateDone s
  | .mount_done line => Sys2Proof.Machine.execMountDone line s
  | .security_alarm cause => Sys2Proof.Machine.execSecurityAlarm cause s
  | .power_regulate part power hot => Sys2Proof.Machine.execPowerRegulate part power hot s
  | .module_power_limit => Sys2Proof.Machine.execModulePowerLimit s
  | .thermal_shutdown => Sys2Proof.Machine.execThermalShutdown s
  | .core_sleep core => Sys2Proof.Machine.execCoreSleep core s
  | .parity_sweep_done core ok => Sys2Proof.Machine.execParitySweepDone core ok s
  | .merge_publish obj => Sys2Proof.Machine.execMergePublish obj s
  | .power_loss => Sys2Proof.Machine.execPowerLoss s
  | .fabric_links_trained => Sys2Proof.Machine.execFabricLinksTrained s
  | .fabric_link_failure dev => Sys2Proof.Machine.execFabricLinkFailure dev s

end Sys2Proof.Machine
end

