-- ==== Sys2Proof/Machine/Cycle.lean ====
section
/-!
DEFINITION. The order of the machine's agents (log entry 5): the core cycle of a crew with its holds, faults and firmware slots (spec 01
R21, R31 to R36, 09 R120, R121, 11 R155, 13 R204, 07 R88, R89), the end of a crew (01 R15, R29, 27 R384), the firmware context outside
a running crew, commands, records, and what units do on their own. Each turn ends in calls of `exec`.
-/
namespace Sys2Proof.Machine

/-- Run a meaning for its effect. -/
def run (f : State → Out) (s : State) : State := outState s (f s)

/-- Run a list of meanings. -/
def runAll (l : List (State → Out)) (s : State) : State := l.foldl (fun s f => run f s) s

/-! ## What issues next -/

/-- What stands where a scan would have passed nothing is not executable (R61; DESIGN CHOICE, log entry 29). -/
def notExec : HwFault := accessFault 5

/-- The word that issues next of a context, with the entry that a fault would name. -/
def fetchSeq (s : State) (core : Nat) (fw : Bool) : Except HwFault (Instr × Origin) :=
  let x := (s.core core).ctx fw
  match fetchLine s core x.obj x.line with
  | .error f => .error f
  | .ok l =>
    if x.word = 0 ∨ 15 < x.word then .error notExec else
    let w := lineWord l x.word
    match decodeSeq w (if x.word < 15 then some (lineWord l (x.word + 1)) else none) with
    | .error _ => .error notExec
    | .ok i => .ok (i, { engine := 0, w0 := w.setWidth 64, line := x.line, word := x.word - x.words })

/-- The entry that issues next of a stream. -/
def fetchEntry (s : State) (core u : Nat) : Except HwFault (Instr × Origin) :=
  let t := (s.core core).stream u
  match fetchLine s core t.obj t.line with
  | .error f => .error f
  | .ok l =>
    let w := lineSlot l t.slot
    let fail := entryFail (u + 1) w
    if 7 ≤ t.slot ∨ (fail.isSome ∧ fail ≠ some .range) then .error notExec
    else match decodeEntry w with
      | .error _ => .error notExec
      | .ok i => .ok (i, { engine := u + 1, w0 := w, line := t.line, word := 1 + 2 * t.slot })

/-- Whether an entry stands ready to be counted down at a stream's place. -/
def entryWord (s : State) (core u : Nat) : Word :=
  let t := (s.core core).stream u
  match fetchLine s core t.obj t.line with
  | .ok l => if t.slot < 7 then lineSlot l t.slot else 0
  | .error _ => 0

/-- Whether a stream's entry is due in a crew cycle (R155). -/
def streamDue (s : State) (core u : Nat) : Bool :=
  let t := (s.core core).stream u
  let c := s.clock core
  let w := entryWord s core u
  t.active && decide (t.base ≤ c) && w != 0 && decide (t.base + fieldOf w 55 50 ≤ c)

/-- A stream past its entry of the current cycle (R155). -/
def Stream.pass (t : Stream) (c : Nat) (o : Origin) : Stream := { t with slot := t.slot + 1, base := c + 1, last := o }

/-! ## One item of a core cycle -/

/-- Give the focus to a unit, run, and leave it there. -/
def focusOn (f : Focus) (s : State) : State := { s with focus := f }

/-- Whether a word of a context has issued and its bundle goes on. -/
def midBundle (s s' : State) (core : Nat) (fw : Bool) : Bool :=
  decide (((s.core core).ctx fw).words < ((s'.core core).ctx fw).words)

/-- A word that is to issue cannot be fetched: a program waits for the line (R370); any other fault is the context's. -/
def seqUnfetched (f : HwFault) (core : Nat) (fw : Bool) (s : State) : State :=
  let x := (s.core core).ctx fw
  if f.code = 0x0F ∧ !fw then s.updCore core (fun k => k.setCtx fw { k.ctx fw with check := 2 })
  else raiseFetch f x.last x.obj x.line (focusOn { core := core, fw := fw } s)

/-- The matrix engine's part of a cycle: the next row of the active multiply, or the command at the head of its queue, which reaches the head
no earlier than the cycle after the one at whose end it was pushed (R204). -/
def matrixItem (core : Nat) (s : State) : Out :=
  let m := (s.core core).mx
  match m.active, m.queue with
  | some a, _ => .next (mxRow a (focusOn { core := core, stn := 8 } s))
  | none, [] => .next s
  | none, c :: _ =>
    let s2 := focusOn { core := core, stn := 8, org := c.org } s
    if s.clock core < max m.headAt (c.pushed + 1) ∨ s.clock core < c.start then .next s
    else if c.start < s.clock core then .next (raise (timing 4) 0 0 s2)
    else match decodeMatrix c.word with
      | .error _ => .next (raiseWith (cmdBad 0) c.org.w0 c.org.w1 0 (coreArg3 c.org) s2)
      | .ok i => exec i s2

/-- The outcome of one word, entry or command, or of a landing; and whether the item is over. Entries due at the last crew cycle issue
before CLOCK_END (DESIGN CHOICE, log entry 82). -/
def runItem (k : Nat) (w : Work) (s : State) : Out × (State → Bool) :=
  match w with
  | .seq core fw =>
    match fetchSeq s core fw with
    | .error f => (.next (seqUnfetched f core fw s), fun _ => true)
    | .ok (i, o) => (exec i (focusOn { core := core, fw := fw, org := o } s), fun s' => !midBundle s s' core fw)
  | .stream core u =>
    match fetchEntry s core u with
    | .error f =>
      let t := (s.core core).stream u
      (.next (raiseFetch f t.last t.obj t.line (focusOn { core := core, stn := u, org := { engine := u + 1 } } s)), fun _ => true)
    | .ok (i, o) =>
      (exec i ((focusOn { core := core, stn := u, org := o } s).updCore core (fun x => x.updStream u (fun t => t.pass (s.clock core) o))),
        fun _ => true)
  | .matrix core => (matrixItem core s, fun _ => true)
  | .land core =>
    let due := ((s.core core).takeDue (s.clock core) (fun e => match e with | .kilnDue _ => true | _ => false))
    let s1 := due.1.foldl (fun s p => match p.eff with
      | .kilnDue a => run (execDriftDue core a) s
      | _ => s) (s.setCore core due.2)
    (.next (runAll [execMatrixUpdateLand core, execXbRowPut core, execStationResultLand core, execMatrixCommandComplete core] s1), fun _ => true)
  | .tick =>
    match s.crew k with
    | none => (.next s, fun _ => true)
    | some w =>
      if w.stopped.isSome then (.next s, fun _ => true) else
      let s1 := w.members.foldl (fun s c => run (execTaskComplete c) s) s
      (.next (if 0xFFFFFFFFFFFF ≤ w.clock then run (execClockEnd k) s1 else crewTick k s1), fun _ => true)

/-- Run an item to its end, for a trial. -/
def tryItem (k : Nat) (w : Work) : Nat → State → State
  | 0, s => s
  | fuel + 1, s =>
    let r := runItem k w s
    let s' := outState s r.1
    if r.2 s' then s' else tryItem k w fuel s'

/-- Run all items of a cycle, for a trial. -/
def tryItems (k : Nat) (l : List Work) (s : State) : State := l.foldl (fun s w => tryItem k w 4 s) s

/-! ## The beginning of a core cycle -/

/-- The events that may end the waits of a core's contexts (R120). -/
def wakeEvents (core : Nat) (fw : Bool) (x : Ctx) : List (State → Out) :=
  match x.wait with
  | .sync _ => [execSyncRelease core fw]
  | .idle _ _ => [execIdleWake core fw]
  | .fence _ _ => [execFenceComplete core fw]
  | .line _ => if fw then [] else [execConstLineReady core]
  | _ => []

/-- Count a core cycle against the limit of an `idle` of the firmware context (R138). -/
def Ctx.countIdle (x : Ctx) : Ctx :=
  match x.wait with
  | .idle (some t) d => { x with wait := .idle (some (t - 1)) d }
  | _ => x

/-- What begins with a core cycle on one member: semaphore changes count, waits may end, expectations fall due, a service may start. A change
that the program has not seen while its crew was frozen still ends its `idle` (R138). What a member asked for in a held cycle stands until
the clock advances (R145). -/
def beginCore (clock : Nat) (window : Bool) (s : State) (core : Nat) : State :=
  let s1 := s.updCore core (fun k => { (({ k with fwMoved := false, hsemHit := 0 } : Core).countHsem clock) with
    lineMiss := none, faulted := none, fw := k.fw.countIdle, fwTaken := if window then 0 else k.fwTaken })
  let k := s1.core core
  let dead := (List.range 8).filter (fun q => k.fr.exps.any (fun x => x.q == q && decide (x.deadline ≤ clock)))
  (runAll (wakeEvents core false k.prog ++ wakeEvents core true k.fw ++ dead.map (execFexpDeadline core) ++ [execFwServiceStart core]) s1).updCore
    core (fun k => { k with hsemMoved := false })

/-- A code line that a context or stream of a core needs and that is not present asks its firmware for service, once (R370). -/
def askFetch (core obj line : Nat) (s : State) : State :=
  match fetchLine s core obj line with
  | .error f => if f.code = 0x0F then suspendFetch f core obj line s else s
  | .ok _ => s

/-- Make the place of a context ready (R88, R133). -/
def prepCtx (core : Nat) (fw : Bool) (s : State) : State :=
  let x := (s.core core).ctx fw
  if x.check = 0 ∨ x.wait ≠ .none ∨ x.stall ≠ 0 then s else
  let s1 := resolvePc 3 (focusOn { core := core, fw := fw, org := { engine := 0, line := x.line, word := x.word } } s)
  let y := (s1.core core).ctx fw
  if y.check = 0 ∨ fw then s1 else askFetch core y.obj y.line s1

/-- Follow a stream's links until an entry stands at its place, or its chain is over (R88, R89). -/
def prepStream (core u : Nat) : Nat → State → State
  | 0, s => s
  | fuel + 1, s =>
    let t := (s.core core).stream u
    if !t.active || decide (s.clock core < t.base) then s else
    match fetchLine s core t.obj t.line with
    | .error f =>
      if f.code = 0x0F then askFetch core t.obj t.line s
      else raiseFetch f t.last t.obj t.line (focusOn { core := core, stn := u, org := { engine := u + 1, line := t.line } } s)
    | .ok l =>
      if lineEngine l ≠ u + 1 ∨ lineKind l ≠ 0 then
        raiseFetch (chainFault 0) t.last t.obj t.line (focusOn { core := core, stn := u, org := { engine := u + 1, line := t.line } } s)
      else if t.slot < 7 ∧ lineSlot l t.slot ≠ 0 then s
      else if lineNext l = chainEnd then s.updCore core (fun k => k.updStream u (fun t => { t with active := false }))
      else prepStream core u fuel (s.updCore core (fun k => k.updStream u (fun t => { t with line := lineNext l, slot := 0 })))

/-- Make every code place of a core ready. -/
def prepCore (s : State) (core : Nat) : State :=
  (List.range 16).foldl (fun s u => prepStream core u 3 s) (prepCtx core true (prepCtx core false s))

/-! ## The issue slot (R120, R121) -/

/-- Whether a context has a bundle ready to issue. -/
def Ctx.ready (x : Ctx) : Bool := x.wait == .none && x.stall == 0 && x.check == 0

/-- Whether the firmware context issues in this cycle: its work is ready, and the program has nothing to issue or the share is not used up. An
`hwait` that has issued and held the crew is no bundle to displace: its comparison is made again in every core cycle (R145). -/
def fwSlot (k : Core) (held : Bool) : Bool :=
  k.fwWork && k.fw.ready && (held || !k.prog.ready || (k.ask.isNone && decide (k.fwTaken < k.fwN.toNat)))

/-- The issue slot of a member is used: FW_SLOTS and the share count, and a stall passes. -/
def spendSlot (held : Bool) (k : Core) : Core :=
  let stall := fun (x : Ctx) => { x with stall := x.stall - 1 }
  let k1 := if fwSlot k held then
      { k with fwSlots := if k.fwSlots = BitVec.allOnes 48 then k.fwSlots else k.fwSlots + 1
               fwTaken := k.fwTaken + (if !held && k.prog.ready then 1 else 0) }
    else k
  { k1 with prog := stall k1.prog, fw := stall k1.fw }

/-- The firmware bundles of a cycle. -/
def fwItems (s : State) (w : Crew) (held : Bool) : List Work := (w.members.filter (fun c => fwSlot (s.core c) held)).map (.seq · true)

/-- The items of a cycle: due entries, matrix engines and bundles of both contexts, then the landings. -/
def cycleItems (s : State) (w : Crew) : List Work :=
  w.members.flatMap (fun c => ((List.range 16).filter (streamDue s c)).map (.stream c ·))
  ++ w.members.map .matrix
  ++ (w.members.filter (fun c => (s.core c).prog.ready && !fwSlot (s.core c) false)).map (.seq · false)
  ++ fwItems s w false
  ++ w.members.map .land

/-! ## Faults and holds (R31 to R36) -/

/-- A fault that is taken at the end of its bundle, the other words of which complete: of a load or store, of the place the bundle leads to
(R131 to R133). -/
def endsBundle (f : HwFault) : Bool := (f.code = 0x04 && (f.sub = 0 || f.sub = 1 || f.sub = 5)) || f.code = 0x0D || f.code = 0x10

/-- The items of a cycle that a fault does not undo: firmware bundles, which are no part of the launch, and program bundles whose fault is
taken at their end. -/
def survives (k : Nat) (s : State) : Work → Bool
  | .seq _ true => true
  | .seq c false => (((tryItem k (.seq c false) 4 s).core c).faulted.map endsBundle).getD false
  | _ => false

/-- A fault stops the crew at the cycle: the records stand, with the bundles that survive, and nothing else of the cycle does (R36, R131). The
trial has ended the hold. -/
def stopFault (k : Nat) (items : List Work) (trial s0 : State) : State :=
  let s := tryItems k (items.filter (survives k s0)) s0
  let s1 := { s with lpddr := trial.lpddr, colour := trial.colour, uncorr := trial.uncorr, host := trial.host, regs := trial.regs, now := trial.now }
  stopCrew (s1.updCrew k (fun w => { w with hold := none })) k .faulted

/-- Whether an arrival of a member waits, two phases ahead of its barrier (R31, R261): of a command of either of its contexts (DESIGN CHOICE,
log entry 82). -/
def barHeld (s : State) (w : Crew) : Bool :=
  s.cmds.any (fun p => p.2.st == .held && (match p.2.core with
    | some c => w.members.contains c
    | none => false))

/-- The hold causes that members meet (R31): a TRAP or FETCH request made before the cycle, and what a trial of the cycle shows. -/
def holdCauses (trial s : State) (w : Crew) : List Nat :=
  w.members.filterMap (fun c => (trial.core c).ask)
  ++ (if w.members.any (fun c => (s.core c).fwHolds || fetchWaits s c) then [4] else [])
  ++ (if barHeld trial w then [5] else [])

/-- What members have asked for is asked for anew. -/
def clearAsks (w : Crew) (s : State) : State := w.members.foldl (fun s c => s.updCore c (fun x => { x with ask := none })) s

/-- Note the members whose program bundle holds the crew: an `hwait` with a false comparison (R145). -/
def noteAsks (k : Nat) (w : Crew) (s : State) : State :=
  let t := clearAsks w s
  w.members.foldl (fun s c =>
    let a := if (s.core c).prog.ready then ((tryItem k (.seq c false) 4 t).core c).ask else none
    s.updCore c (fun x => { x with ask := a })) s

/-- A held core cycle (R32 to R35): counters, and the limit. -/
def holdCycle (k : Nat) (w : Crew) (cause : Nat) (s0 : State) : State :=
  let s := noteAsks k w s0
  let first := w.hold.isNone
  let (c, n) := w.hold.getD (cause, 0)
  let s1 := w.members.foldl (fun s m => s.updCore m (fun x => spendSlot true { x with
    holdCycles := if x.holdCycles = BitVec.allOnes 48 then x.holdCycles else x.holdCycles + 1
    episodes := if first && x.episodes != BitVec.allOnes 16 then x.episodes + 1 else x.episodes
    cause := c })) s
  let fw := fwItems s w true
  run (execHoldLimit k) (s1.updCrew k (fun w => { w with hold := some (c, n + 1), todo := fw }))

/-- Note the constant lines that bundles wait for (R132). -/
def waitLines (w : Crew) (trial s : State) : State :=
  w.members.foldl (fun s c => match (trial.core c).lineMiss with
    | some l => s.updCore c (fun k => { k with prog := { k.prog with wait := .line l } })
    | none => s) s

/-- A core cycle, once its beginning is done: a trial shows faults, holds and missing lines; else the cycle is set to work. -/
def cycle (k : Nat) (w : Crew) : Nat → State → State
  | 0, s => s
  | fuel + 1, s =>
    let items := cycleItems s w
    let t := tryItems k items (clearAsks w s)
    let faults := w.members.filterMap (fun c => (t.core c).faulted)
    if faults.any (fun f => f.code = 0x01 || f.code = 0x08) then stopFault k items t s
    else match holdCauses t s w with
      | c :: cs => holdCycle k w (cs.foldl min c) s
      | [] =>
        if w.members.any (fun c => (t.core c).lineMiss.isSome) then cycle k w fuel (waitLines w t s)
        else if !faults.isEmpty then stopFault k items t s
        else
          let s1 := if w.hold.isSome then run (execHoldRelease k) s else s
          let s2 := w.members.foldl (fun s m => s.updCore m (spendSlot false)) s1
          s2.updCrew k (fun w => { w with todo := items ++ [.tick] })

/-- The core cycle of a running crew. A fault met on the way to its items stops the crew before they are tried, so that other faults of the
cycle leave no record (DESIGN CHOICE, log entry 82). -/
def beginCycle (k : Nat) (w : Crew) (s : State) : State :=
  let s1 := s.updCrew k (fun w => { w with
    coreCycles := w.coreCycles + 1
    freezeIn := w.freezeIn.map (fun f => (f.1, f.2 - 1)) })
  let s2 := w.members.foldl (beginCore w.clock (w.coreCycles % 64 = 0)) s1
  let s3 := w.members.foldl prepCore s2
  if (w.members.any (fun c => (s3.core c).faulted.isSome)) then stopFault k [] s3 s1 else
  match s3.crew k with
  | some w' => cycle k w' 2 s3
  | none => s3

/-! ## The end of a crew (R15, R29, R36, R384) -/

/-- A core of a crew that has stopped: its local results and what its firmware would still do for the launch are discarded. -/
def Core.stopped (k : Core) : Core :=
  let svc := match k.svc with
    | some r => if r.group = 1 then none else some r
    | none => none
  { k with
    prog := { k.prog with pend := [], stores := [] }
    streams := []
    lanes := []
    pend := []
    uses := []
    hsemPend := []
    fr := {}
    mx := { slots := k.mx.slots.map (fun p => (p.1, { p.2 with claimed := false })) }
    fwq := k.fwq.filter (fun r => r.group != 1)
    svc := svc
    taskDone := true }

/-- The tasks of a stopped crew leave their launch with its status. -/
def teardown (w : Crew) (st : Status) (s : State) : State :=
  w.members.foldl (fun s c =>
    if (s.core c).taskDone then s else
    let s1 := (flushVoids s c).updCore c Core.stopped
    launchMember { s1 with susps := s1.susps.filter (fun p => p.2 != Susp.fetch c false) } w.record st) s

/-- The remainders that a stopped restore does not accept again leave their launch (R15, R384). -/
def dropRemainders (w : Crew) (st : Status) (s : State) : State :=
  ((s.saved.filter (·.record == w.record)).flatMap (·.remainders)).foldl (fun s p =>
    match p.2.owner with
    | some r => launchMember s r st
    | none => s) s

/-- A save or restore stops (R384): its requests and services are dropped and its slot is free. -/
def stopSaving (k : Nat) (w : Crew) (st : Status) (s0 : State) : State :=
  let s := dropRemainders w st s0
  let drop := fun (x : Core) => { x with
    fwq := x.fwq.filter (fun r => r.group != 0)
    svc := (match x.svc with
      | some r => if r.group = 0 then none else some r
      | none => none)
    saveOp := 0
    saveDone := false }
  let s1 := w.members.foldl (fun s c => s.updCore c drop) s
  { s1 with saved := s1.saved.filter (·.record != w.record) }.updCrew k (fun w => { w with frozen := none, restoring := false })

/-- The turn of a stopped crew. -/
def stoppedTurn (k : Nat) (w : Crew) (st : Status) (s : State) : State :=
  if w.frozen.isNone then teardown w st s
  else if st = .cancelled ∧ !w.restoring then run (execContextSaved k) s
  else stopSaving k w st s

/-- The turn of a crew between core cycles. -/
def crewTurn (k : Nat) (s : State) : State :=
  match s.crew k with
  | none => s
  | some w =>
    match w.stopped with
    | some st => stoppedTurn k w st s
    | none =>
      if s.halted.contains w.part then s
      else if w.frozen.isSome then run (if w.restoring then execCrewResume k else execContextSaved k) s
      else if !w.started then run (execLaunchStart k) s
      else match w.freezeIn with
        | some (_, 0) => run (execFreeze k) s
        | _ => beginCycle k w s

/-! ## The firmware context outside a running crew -/

/-- Whether a core's firmware context runs on its own: no crew on the core and the core online (R373), or a crew that is frozen, stopped or not
yet started, and no alarm has halted its partition (R385). -/
def fwFree (s : State) (core : Nat) : Bool :=
  !((workPart s core).any (s.halted.contains ·)) &&
  match s.crewOf core with
  | some w => w.frozen.isSome || w.stopped.isSome || !w.started
  | none => online s core

/-- A core cycle begins in the firmware context of a core on its own: while the crew is frozen, semaphore changes count (R32, R363). -/
def Core.beginFw (k : Core) (frozen : Bool) (clock : Nat) : Core :=
  let k1 : Core := { k with fwMoved := false, hsemHit := 0, faulted := none }
  if frozen then k1.countFrozen clock else k1

/-- The first word of a firmware bundle takes a core cycle of a launch (R154). -/
def Core.countFwSlot (k : Core) (launch : Bool) : Core :=
  if launch && k.fw.words = 0 && k.fwSlots != BitVec.allOnes 48 then { k with fwSlots := k.fwSlots + 1 } else k

/-- A turn of a firmware context on its own: the engine it started finishes, a service starts, a wait may end, or one word issues. The words of a
bundle share a core cycle. -/
def fwTurn (core : Nat) (s : State) : Out :=
  let k := s.core core
  let s1 := if k.fw.words = 0 then s.updCore core (·.beginFw (s.frozen core) (s.clock core)) else s
  if !fwFree s core then .next s
  else if k.saveOp ≠ 0 ∧ !k.saveDone then execSaveEngineDone core s1
  else if k.svc.isNone then execFwServiceStart core s1
  else if k.fw.wait ≠ .none then .next (runAll (wakeEvents core true k.fw) (s1.updCore core (fun k => { k with fw := k.fw.countIdle })))
  else if k.fw.stall ≠ 0 then .next (s1.updCore core (fun k => { k with fw := { k.fw with stall := k.fw.stall - 1 } }))
  else if k.fw.check ≠ 0 then .next (prepCtx core true s1)
  else (runItem 0 (.seq core true) (s1.updCore core (·.countFwSlot ((s.crewOf core).any (·.started))))).1

/-! ## Commands and records -/

/-- The turn of a command: it enters its queue, starts, goes on or completes. -/
def cmdTurn (id : Nat) (s : State) : Out :=
  match s.cmds.find id with
  | none => .next s
  | some c =>
    match c.st with
    | .buffered => match c.core with
      | some k => .next (intakeCore k c.port s)
      | none => .next (intake id s)
    | .queued => match c.instr with
      | some i => exec i (focusOn { core := c.core.getD 0, fw := c.isFw, cmd := id } s)
      | none => .next (endOnFault s id (cmdBad 2) {})
    | .running =>
      if c.port = 0 then execFerryContinue id s
      else if c.port = 1 then .next (if ((s.index c.obj).merging.map (·.2)) = some (some id) ∨ searchAhead s c then s else rerunStore id s)
      else .next (rerunKv id s)
    | .moved => if c.port = 0 then execFerryCommandComplete id s else if c.port = 1 then execStoreCommandComplete id s
        else execKvCommandComplete id s
    | _ => .next s

/-- A record at work inside the queue manager, or in a bank of its target. -/
def recordWork (id : Nat) (r : Rec) (s : State) : State :=
  match r.kind with
  | 10 => match r.inst with
    | some g => pumpWalk g 64 s
    | none => s
  | 14 => if mapDone s r then endRec id .done s else s
  | 15 => if fenceDone s id r then endRec id .done s else s
  | _ => s

/-- The turn of a record (R328 to R331, R343); a halted partition's records stand still (R385). -/
def recordTurn (id : Nat) (s : State) : Out :=
  match s.recs.find id with
  | none => .next s
  | some r =>
    let halted := s.halted.contains r.part
    match r.st with
    | .stream => match decodeRecord r.word with
      | .ok i => exec i (focusOn { record := id } s)
      | .error _ => .next (if halted then s else recFault id { f := qmFault 0 } s)
    | st => if halted then .next s else match st with
    | .stream => .next s
    | .shadow => .next (match r.target with
      | some k => pumpTarget k s
      | none => s)
    | .active => if r.kind = 1 then execPreempt id (run (execLaunchReserve id) s)
      else .next (match r.target with
        | some k => pumpTarget k s
        | none => s)
    | .running => .next (recordWork id r s)
    | .done _ => execRecordRetire id s
    | .saved => execRestore id s

/-! ## Translations and cache parts (R50, R57) -/

/-- A layout unit keeps an entry it walked, unless it holds one already or is full. -/
def keepEntry (e : TlbEntry) (room : Nat) (s : State) : State :=
  if s.tlb.any (fun x => x.port = e.port && x.isObj = e.isObj && x.key = e.key && x.upTo.isNone)
      || decide (room ≤ (s.tlb.filter (fun x => x.port = e.port && x.isObj = e.isObj)).length) then s
  else { s with tlb := s.tlb ++ [e] }

/-- A port caches an object entry; an invalid one is never held. -/
def cacheObj (port obj : Nat) (s : State) : State :=
  match lpRead s (objAddr s obj) 64 (tableColour s) with
  | .error _ => s
  | .ok b =>
    let w : BitVec 512 := .ofNat 512 (natOfBytes b)
    if w.getLsbD 0 && decide (obj < fieldOf (s.reg 0x801) 24 0) then keepEntry ⟨port, true, obj, obj, 0, w, none⟩ 64 s else s

/-- A port caches a tile entry; one that is not present is never held. -/
def cacheTile (port obj tile : Nat) (s : State) : State :=
  match objEntry s ⟨port, 0⟩ obj with
  | .error _ => s
  | .ok o =>
    let a := tileAddr o.ttPtr tile
    match lpRead s a 8 (tableColour s) with
    | .error _ => s
    | .ok b =>
      let w := natOfBytes b
      if w % 2 = 1 ∧ tile < o.tiles then keepEntry ⟨port, false, a, obj, tile, .ofNat 512 w, none⟩ 512 s else s

/-! ## Suspension numbers (R371) -/

/-- Give a suspended access a number that has become free; one whose unit has gone takes none. -/
def giveTo (w : SuspWait) (n : Nat) (s : State) : State :=
  let e : QErr := ⟨w.f, w.place.obj, w.place.tile⟩
  match w.who with
  | .cmd id => match s.cmds.find id with
    | some c => if c.st = .suspended 0 then numberCmd s id n c w.f w.place else s
    | none => s
  | .fetch core _ => if (s.crewOf core).isSome then numberFetch w.f core w.place.obj w.place.dtile n s else s
  | .host write addr bytes len tile => numberHost write addr bytes len w.f tile n s
  | .net port write obj off bytes len tile => numberNet port write obj off bytes len w.f tile n s
  | .record id => match s.recs.find id with
    | some r => if r.susp = waitMark then numberRec id r e n s else s
    | none => s
  | .queue q => if (s.queue q).susp = waitMark then numberQueue q e n s else s
  | .walk g => match s.walks.find g with
    | some x => match s.recs.find x.record with
      | some r => if x.susp = waitMark then numberWalk g r e n s else s
      | none => s
    | none => s

/-- Its record and its request carry the time at which the fault arose (R365; log entry 97). -/
def giveNumber (w : SuspWait) (n : Nat) (s : State) : State := { giveTo w n { s with now := w.stamp } with now := s.now + 1 }

/-- What waits for a suspended access knows it by its number from now on (R257). -/
def nameSusp (a n : Nat) (s : State) : State :=
  let f := fun (l : List Nat) => l.map (fun x => if x = a then n else x)
  { s with cmds := s.cmds.map (fun p => (p.1, { p.2 with afterSusps := f p.2.afterSusps }))
           recs := s.recs.map (fun p => (p.1, { p.2 with afterSusps := f p.2.afterSusps })) }

/-- The first fault that waits for a number receives the lowest free one. -/
def numberTurn (s : State) : State :=
  match s.suspWait, lowestSusp s with
  | w :: ws, some n => giveNumber w n (nameSusp (65536 + w.seq) n { s with suspWait := ws })
  | _, _ => s

/-! ## Turns -/

/-- The turn of an agent. -/
def turn (t : Turn) (s : State) : Out :=
  match t with
  | .crew k => .next (crewTurn k s)
  | .fw core => fwTurn core s
  | .cmd id => cmdTurn id s
  | .record id => recordTurn id s
  | .event i => exec i s
  | .cacheObj port obj => .next (cacheObj port obj s)
  | .cacheTile port obj tile => .next (cacheTile port obj tile s)
  | .number => .next (numberTurn s)
  | .evict slice key => .next (evictLine slice (key / 4) s)
  | .hostMem addr bytes => .next (hostOwn addr bytes s)
  | .wait ns => .next { s with now := s.now + ns }

/-- What an agent may do. -/
abbrev Move := State → Out

/-- The boot goes on by itself (R393): what verification and the image give is open. -/
def bootMoves (s : State) : List Move :=
  let f := Config.free s.freeCtr
  match fieldOf (s.reg 0xE31) 2 0 with
  | 0 => [execPowerOn]
  | 1 => [execVerifyDone (f % 2 = 0) (f / 2 % 2 = 0)]
  | 2 => [execCalibrateDone]
  | 3 => [execMountDone (.ofNat 25 f)]
  | _ => []

/-- What kiln arrays do by themselves (R223, R232). -/
def kilnMoves (s : State) : List Move :=
  let ok := decide (Config.free s.freeCtr % 2 = 0)
  s.kilns.filterMap (fun p =>
    if p.2.st = .recal then some (execRecalEnd (p.1 / 16) (p.1 % 16) ok)
    else if p.2.st = .firing then some (execFiringEnd (p.1 / 16) (p.1 % 16) ok)
    else if p.2.wantCal then some (execRecalStart (p.1 / 16) (p.1 % 16))
    else none)

/-- What a waiting search waits for: a codeword in retry, or its snapshot (R287, R291). -/
def waitMoves (s : State) : List Move :=
  s.cmds.filterMap (fun p =>
    if p.2.st = .waiting then
      match p.2.wants with
      | some k => some (execReadRetryDone p.1 (k / 4) (k % 4) (decide (Config.free s.freeCtr % 2 = 0)))
      | none => some (execSnapshotReady p.1)
    else none)

/-- What storage does by itself (R286, R295, R296). -/
def storageMoves (s : State) : List Move :=
  s.logs.filterMap (fun p => if p.2.entries.any (fun e => !e.durable) then some (execLogDurable p.1 p.2.prev) else none)
  ++ s.indexes.map (fun p => if p.2.merging.isSome then execMergePublish p.1 else execMergeAutostart p.1)

/-- What the agents may do, in the order in which the model lets them when nothing else is asked for (log entry 5). -/
def moves (s : State) : List Move :=
  bootMoves s
  ++ (if s.suspWait.isEmpty then [] else [turn .number])
  ++ s.crews.keys.map (fun k => turn (.crew k))
  ++ (s.cores.filter (fun p => (p.2.svc.isSome || !p.2.fwq.isEmpty) && fwFree s p.1)).map (fun p => fwTurn p.1)
  ++ s.cores.flatMap (fun p => (p.2.fr.fly.filter (fun q => !q.2.isEmpty)).map (fun q => execRowArrival p.1 q.1))
  ++ s.cmds.keys.map cmdTurn
  ++ s.recs.keys.map recordTurn
  ++ (s.queues.filter (fun p => p.2.on)).map (fun p => execTailWrite p.1)
  ++ s.resizing.keys.map (fun k => execCacheResizeDone k)
  ++ (s.cores.filter (fun p => p.2.sweeping)).map (fun p => execParitySweepDone p.1 (decide (Config.free s.freeCtr % 2 = 0)))
  ++ (if s.quote.isSome then [execAttestDone] else [])
  ++ kilnMoves s ++ waitMoves s ++ storageMoves s
  ++ [turn (.wait 1)]

/-- The next agent by itself: the agents take turns. -/
def nextTurn (s : State) : Out :=
  let l := moves s
  let n := SMap.get 0 s.rr 0
  (l.getD (n % l.length) (turn (.wait 1))) { s with rr := s.rr.put 0 (n + 1) }

/-- The crew in the middle of a core cycle, with its next item. -/
def busyCrew (s : State) : Option (Nat × Work × List Work) :=
  match s.crews.find? (fun p => !p.2.todo.isEmpty) with
  | some (k, w) => match w.todo with
    | i :: r => some (k, i, r)
    | [] => none
  | none => none

/-- The item of a crew in the middle of a core cycle. -/
def itemTurn (k : Nat) (i : Work) (rest : List Work) (s : State) : Out :=
  match runItem k i (s.updCrew k (fun w => { w with todo := rest })) with
  | (.next s', ended) => .next (if ended s' then s' else s'.updCrew k (fun w => { w with todo := i :: w.todo }))
  | (o, _) => o

/-- What the module does next. -/
def nextMove (s : State) : Out :=
  match busyCrew s with
  | some (k, i, rest) => itemTurn k i rest s
  | none => match s.agenda with
    | t :: ts => turn t { s with agenda := ts }
    | [] => nextTurn s

/-- A step of the machine: without power only power-on happens. -/
def stepOf (s : State) : Out :=
  if s.off then
    match s.agenda with
    | .event .power_on :: ts => execPowerOn { s with agenda := ts }
    | _ => .fault .noPower
  else nextMove s

end Sys2Proof.Machine
end

