-- ==== Sys2Proof/Machine/Place.lean ====
section
/-!
DEFINITION. Placing one instruction where the next step issues it (log entry 7): the load of a program, which is the host's and the
firmware's work and not the module's. A sequencer word, an entry and a matrix command run in a crew on core 0 that holds its whole
allotment; a port command stands at the head of its engine, a record at the head of its queue.
-/
namespace Sys2Proof.Machine

/-- An allotment of everything core 0 has. -/
def placedAllot : LaunchRecordF where
  codeObj := 1
  entry := 0
  band := 0
  rs0 := 0
  bankMask := .allOnes 8
  coreMask := 1
  accMask := .allOnes 4
  qbuf := .allOnes 5
  parLines := 0
  rs1 := 0
  bankFmt := 0
  slotMask := .allOnes 32
  kilnMask := .allOnes 16
  hsemMask := .allOnes 32
  rs2 := 0
  landSlice := 0
  landBase := 0
  landLen := 1024
  rs3 := 0
  parObj := 0
  rs4 := 0
  ltag := 0
  rs5 := 0

/-- The crew of core 0, with one item of a core cycle to do. -/
def placedCrew (w : Work) : Crew := { members := [0], allot := placedAllot, started := true, todo := [w] }

/-- Write whole bursts; a write to existing bursts does not fail. -/
def placeBytes (a : Nat) (b : List Byte) (s : State) : State :=
  match lpWrite s a b 0 with
  | .ok s' => s'
  | .error _ => s

/-- Object 1: one tile of code at 65536, its tile table at 4096, the object table at 0 (R41, R42, R45). -/
def placedObj : Nat := 1 + 1 * 2 ^ 1 + 1 * 2 ^ 8 + 8 * 2 ^ 11 + 2 ^ 43 + 2 ^ 44 + 12 * 2 ^ 64 + 4096 * 2 ^ 128 + 4096 / 64 * 2 ^ 336

/-- Line 0 of a code object of this engine, whose chain ends with it (R87). -/
def placeLine (engine body : Nat) (s : State) : State :=
  let s1 := { s with tlb := s.tlb.filter (fun e => e.port != portFetch 0) }
  let s2 := (s1.setReg 0x800 0).setReg 0x801 2
  placeBytes 65536 (bytesOfNat 64 (body * 2 ^ 32 + engine * 2 ^ 27 + 0x1FFFFFF))
    (placeBytes 4096 (bytesOfNat 32 (1 + 2 ^ 4 + 65536)) (placeBytes 0 (bytesOfNat 64 0 ++ bytesOfNat 64 placedObj) s2))

/-- No crew in the middle of a core cycle. -/
def idleCrews (s : State) : SMap Crew := s.crews.map (fun p => (p.1, { p.2 with todo := [] }))

/-- Power, nothing in the middle of a core cycle, and the crew with its item. -/
def placeWork (w : Work) (f : Core → Core) (s : State) : State :=
  let s1 := s.updCore 0 (fun k => f { k with crew := some 0, faulted := none })
  { s1 with off := false, crews := SMap.put (idleCrews s1) 0 (placedCrew w) }

/-- A sequencer word, a bundle with the zero words after it. -/
def placeSeq (w : Nat) (s : State) : State :=
  placeLine 0 w (placeWork (.seq 0 false) (fun k => { k with prog := { k.prog with
    obj := 1, line := 0, word := 1, words := 0, stores := [], xfer := none, fault := none, check := 0, wait := .none, stall := 0, ctl := .none } }) s)

/-- The unit on whose stream an entry may stand: a bank, or the first station that takes its opcode. -/
def unitOf (w : Nat) : Nat := if w / 2 ^ 56 < 0x68 then 0 else (stationsOf (w / 2 ^ 56)).headD 9 - 1

/-- An entry at its due cycle. -/
def placeEntryWord (w : Nat) (s : State) : State :=
  let u := unitOf w
  placeLine (u + 1) w (placeWork (.stream 0 u) (fun k => k.updStream u (fun t => { t with
    active := true, obj := 1, line := 0, slot := 0, base := 0 })) s)

/-- A matrix command at the head of its engine at its start cycle, the one after the cycle in which it was pushed (R204). -/
def placeMatrix (w : Nat) (s : State) : State :=
  (placeWork (.matrix 0) (fun k => { k with mx := { k.mx with queue := [⟨.ofNat 128 w, 1, {}, 0⟩], active := none, headAt := 0 } }) s).updCrew 0
    (fun c => { c with clock := 1 })

/-- What stands first among the agents. -/
def placeTurn (t : Turn) (s : State) : State :=
  { s with off := false, crews := idleCrews s, agenda := t :: s.agenda }

/-- A port command at the head of its engine, from a record. -/
def placePort (w : Nat) (s : State) : State :=
  let id := s.nextId
  placeTurn (.cmd id) { s with
    nextId := id + 1
    cmds := s.cmds.put id { port := portOf (w % 256), word := .ofNat 256 w, issuer := .record 0, part := some 0, st := .queued } }

/-- A record at the head of its queue, in a graph of its own. -/
def placeRecord (w : Nat) (s : State) : State :=
  let q := bitsOf w 21 12
  let (g, s1) := newInst { level := 2, part := 0, tag := 0, count := 1, lastAdded := true } s
  let id := s1.nextId
  placeTurn (.record id) { s1 with
    nextId := id + 1
    recs := s1.recs.put id { word := .ofNat 512 w, queue := q, part := 0, graph := if w % 16 = 10 then 0 else g }
    queues := s1.queues.put q { s1.queue q with on := true, cls := bitsOf w 11 10, part := 0, weight := 1, stream := [id] } }

/-- The instruction of these bits, placed by its length. -/
def placeWord (s : State) (nbits w : Nat) : State :=
  if nbits = 32 then placeSeq (w % 2 ^ 32) s
  else if nbits = 64 then placeEntryWord (w % 2 ^ 64) s
  else if nbits = 128 then placeMatrix w s
  else if nbits = 256 then placePort w s
  else if nbits = 512 then placeRecord w s
  else s

end Sys2Proof.Machine
end

