-- ==== Sys2Proof/Machine/Step.lean ====
section
/-!
DEFINITION. One step of the machine, and the placing of one instruction for the very next step.
-/
namespace Sys2Proof.Machine

/-- One step: what the module does next (log entry 5). -/
def step (s : State) : Host.Outcome State Fault Refusal := stepOf s

/-- The state with one instruction placed where the next step issues it (log entry 7). -/
def State.withFetchWord (s : State) (nbits w : Nat) : State := placeWord s nbits w

end Sys2Proof.Machine
end

