-- ==== Sys2Proof/Safety.lean ====
section
/-!
DEFINITION. The terms in which statements speak of the machine: what stays as it is, the canonical form of its memories, and what a
context reads at an address.
-/
namespace Sys2Proof.Machine

/-! ## What stays as it is -/

/-- Nothing but core `c` differs: every field but the cores is the same, and so is every other core. -/
def onlyCore (c : Nat) (s t : State) : Prop := { t with cores := s.cores } = s ∧ ∀ j, j ≠ c → t.core j = s.core j

/-- Nothing but the context in focus differs. -/
def onlyContext (s t : State) : Prop := onlyCore s.focus.core s t ∧ t.fcore.setCtx s.focus.fw s.ctx = s.fcore

/-- Nothing of a context differs but its place in the bundle and the writes in their shadow. -/
def sameContext (x y : Ctx) : Prop := { y with pend := x.pend, word := x.word, words := x.words } = x

/-- Every memory outside the cores reads the same: device memory with its colours, host memory, landing staging, flash and
peer objects. -/
def sameMemories (s t : State) : Prop :=
  (∀ a, t.lpddr.byte a = s.lpddr.byte a) ∧ (∀ a, t.host.byte a = s.host.byte a) ∧ (∀ a, t.land.byte a = s.land.byte a)
  ∧ (∀ a, t.flash.byte a = s.flash.byte a) ∧ (∀ a, t.peer.byte a = s.peer.byte a) ∧ t.colour = s.colour

/-! ## The canonical form -/

/-- Every memory of the module outside the cores is in canonical form. -/
def State.canonical (s : State) : Bool := s.lpddr.wf && s.host.wf && s.land.wf && s.flash.wf && s.peer.wf

/-! ## The memory of a context (R130) -/

/-- The byte a load of the context in focus reaches at an address of its memories; `none` where R130 gives none, and in the
constant-line window. -/
def State.contextByte (s : State) (a : Nat) : Option Byte :=
  if s.focus.fw then
    if a < 2 ^ 14 then some (s.fcore.fwMem.byte a)
    else if 2 ^ 31 ≤ a ∧ a < 2 ^ 31 + 2 ^ 17 then some (s.fcore.seqMem.byte (a - 2 ^ 31))
    else none
  else if a < 2 ^ 17 then some (s.fcore.seqMem.byte a)
  else none

/-- Byte `i` of the span from an address, in the memories of the context in focus. -/
def State.contextAt (s : State) (a i : Nat) : Byte := (s.contextByte (a + i)).getD 0

/-- Whether an address lies in the constant-line window of a program context. -/
def State.inConst (s : State) (a : Nat) : Prop := s.focus.fw = false ∧ 2 ^ 32 ≤ a

/-- The effective address of a load or store (R131): g[A] plus the sign-extended immediate, modulo 2^64. -/
def State.addressOf (s : State) (a : Reg) (imm : BitVec 11) (x : Option (BitVec 29)) : Nat :=
  match x with
  | none => (s.g a + imm.signExtend 64).toNat
  | some v => (s.g a + (v ++ imm).signExtend 64).toNat

/-- The sign-extended immediate of a word, with the 29 bits that an extension word puts above it (R93). -/
def wideImm {w : Nat} (imm : BitVec w) (x : Option (BitVec 29)) : Word :=
  match x with
  | none => imm.signExtend 64
  | some v => (v ++ imm).signExtend 64

/-! ## Stations and rows -/

/-- An entry of the station in focus has read its sources in `s`, leaves the numeric state `rd`, and gives `row` to its destination
`lat` cycles after its issue (R163). -/
def State.gives (s : State) (lat : Nat) (dst : Opnd) (row : Row) (rd : Rounding) : State :=
  (s.setRnd rd).later (s.now0 + lat) (.result s.focus.stn dst row s.now0)

/-- An operand-file entry of the station in focus. -/
def State.ofRow (s : State) (i : Nat) : Row := SMap.get (Row.zero .f32) (SMap.get {} s.fcore.stns s.focus.stn).ofs i

/-- Element `i` of a row of an integer format, as its format reads it: two's complement, UINT8 unsigned (R65). -/
def Row.intAt (r : Row) (i : Nat) : Int :=
  if r.tag = .ui8 then (r.code i : Int) else if r.code i < 2 ^ (fmtBits r.tag - 1) then (r.code i : Int) else (r.code i : Int) - 2 ^ fmtBits r.tag

/-- A row that a vector entry gives: of this format, exact, without sideband, and poisoned as said. -/
def Row.plain (r : Row) (ty : Fmt) (poison : Bool) : Prop := r.tag = ty ∧ r.side = 0 ∧ r.poison = poison

/-- An entry whose one source is the operand-file row `i`. -/
def onFile (h : Ent) (i : BitVec 4) : Prop := h.sa = .ofr i ∧ h.sb = .none

/-- An entry whose sources are the operand-file rows `i` and `j`. -/
def onFiles (h : Ent) (i j : BitVec 4) : Prop := h.sa = .ofr i ∧ h.sb = .ofr j

/-! ## Objects in device memory (R42, R45, R52 to R54) -/

/-- The bursts of a range read and take writes without a fault under a colour: none is uncorrectable, each carries the colour. -/
def State.soundBursts (s : State) (a n : Nat) (colour : BitVec 8) : Prop :=
  a + n ≤ lpddrEnd ∧ ∀ b, a < 32 * b + 32 → 32 * b < a + n → (0, b) ∉ s.uncorr ∧ SMap.get 0 s.colour b = colour

/-- An object of one dimension with `n` elements of `w` bytes, in one tile that a port finds in device memory at `a` for a kind of access,
with sound bursts. -/
def State.flatOf (s : State) (f : Fmt) (w : Nat) (o : Obj) (p : Port) (k : AccKind) (a n : Nat) : Prop :=
  o.peerAt = none ∧ o.alias0 = false ∧ o.kind ≠ 2 ∧ o.ndim = 1 ∧ o.fmt = f ∧ o.order = [0] ∧ o.ext.headD 0 = n ∧ n ≠ 0 ∧ o.tilesOf 0 = 1
  ∧ s.soundBursts a (w * n) o.colour ∧ ∃ t : Tile, tileFor s p k o o.ttPtr 0 = .ok t ∧ t.tier = .lpddr ∧ t.addr = a

/-- Such an object of UINT8 elements. -/
def State.flatAt (s : State) (o : Obj) (p : Port) (k : AccKind) (a n : Nat) : Prop := s.flatOf .ui8 1 o p k a n

/-- Nothing differs but device memory, which reads as if the bytes had been stored at `a`; every colour reads the same. -/
def State.stored (s t : State) (a : Nat) (bytes : List Byte) : Prop :=
  { t with lpddr := s.lpddr, colour := s.colour } = s ∧ (∀ b, t.lpddr.byte b = (s.lpddr.setBytes a bytes).byte b)
  ∧ ∀ b, SMap.get 0 t.colour b = SMap.get 0 s.colour b

/-- Nothing differs but what writing a fault or event record and posting its interrupt may change (R365 to R369, R390): the registers of
the fault queues and the pending bits of vectors, device and host memory, the time stamp. -/
def recordsOnly (s t : State) : Prop :=
  { t with lpddr := s.lpddr, colour := s.colour, uncorr := s.uncorr, host := s.host, regs := s.regs, now := s.now } = s
  ∧ ∀ i, ¬ (0xD00 ≤ i ∧ i < 0xD44) → ¬ (0xE08 ≤ i ∧ i < 0xE28) → t.reg i = s.reg i

/-! ## Commands of a ferry (R239 to R266) -/

/-- No staging sector is uncorrectable (R241). -/
def State.soundStaging (s : State) : Prop := ∀ u ∈ s.uncorr, u.1 ≠ 3

/-- The staging address of a LAND endpoint, or of a 28-bit landing address (R243). -/
def landBase (w : BitVec 64) : Nat := epSlice w * 2 ^ 22 + epOff w
/-- The staging address of a 28-bit landing address (R243). -/
def landWord (v : BitVec 28) : Nat := (landAddr v.toNat).1 * 2 ^ 22 + (landAddr v.toNat).2

/-- A command may address `n` staging bytes from an endpoint on (R56). -/
def State.mayLand (s : State) (c : Cmd) (w : BitVec 64) (n : Nat) : Prop := landAllowed s c (epSlice w) (epOff w) n = true
/-- A command may address `n` staging bytes from a landing address on (R56). -/
def State.mayLandAt (s : State) (c : Cmd) (v : BitVec 28) (n : Nat) : Prop := landAllowed s c (landAddr v.toNat).1 (landAddr v.toNat).2 n = true

/-- Two ranges of bytes share none. -/
def apart (a n b m : Nat) : Prop := a + n ≤ b ∨ b + m ≤ a

/-- The ferry command in focus starts when its turn comes: it stands queued with nothing of it done, no other command of its ferry is at work and none
is queued before it, no slice is being resized; it signals no barrier and uses no cache part (R28, R55, R239, R240). -/
def State.ferryStarts (s : State) (c : Cmd) (h : FHdr) : Prop :=
  s.cmds.find s.focus.cmd = some c ∧ c.port = 0 ∧ c.st = .queued ∧ c.begun = false ∧ c.pos = 0 ∧ c.nsect = 0 ∧ c.tables = [] ∧ c.items = [] ∧ c.dirtied = []
  ∧ c.bits 10 8 = h.sk.toNat ∧ c.bits 13 11 = h.dk.toNat ∧ c.ben = false ∧ c.word.getLsbD 25 = false
  ∧ (∀ p ∈ s.cmds, p.2.port = 0 → p.2.unit = c.unit → p.2.st ≠ .running ∧ p.2.isSuspended = false ∧ (p.2.st = .queued → c.qseq ≤ p.2.qseq))
  ∧ s.resizing = []

/-- A command has made every write: staging is as said, and nothing else differs but the command. -/
def State.movedAs (s t : State) (id : Nat) (l : Memory) : Prop := ∃ c : Cmd, c.st = .moved ∧ t = { s with land := l, cmds := s.cmds.put id c }

/-- The command in focus has made every write: staging is as said, and nothing else differs but the command. -/
def State.movedTo (s t : State) (l : Memory) : Prop := s.movedAs t s.focus.cmd l

/-- The command in focus has made every write: bytes of device memory are stored, and nothing else differs but the command. -/
def State.movedInto (s t : State) (a : Nat) (bytes : List Byte) : Prop :=
  s.stored { t with cmds := s.cmds } a bytes ∧ ∃ c : Cmd, c.st = .moved ∧ t.cmds = s.cmds.put s.focus.cmd c

/-! ## Commands of controllers and of the key-value engine (R279 to R321) -/

/-- The staging address of IN (R281, R306). -/
def Cmd.inAt (c : Cmd) : Nat := (landAddr (c.bits 91 64)).1 * 2 ^ 22 + (landAddr (c.bits 91 64)).2
/-- The staging address of OUT (R281, R306). -/
def Cmd.outAt (c : Cmd) : Nat := (landAddr (c.bits 155 128)).1 * 2 ^ 22 + (landAddr (c.bits 155 128)).2
/-- A command may address `n` staging bytes at IN (R56). -/
def State.mayIn (s : State) (c : Cmd) (n : Nat) : Prop := landAllowed s c (landAddr (c.bits 91 64)).1 (landAddr (c.bits 91 64)).2 n = true
/-- A command may address `n` staging bytes at OUT (R56). -/
def State.mayOut (s : State) (c : Cmd) (n : Nat) : Prop := landAllowed s c (landAddr (c.bits 155 128)).1 (landAddr (c.bits 155 128)).2 n = true

/-- The storage command in focus starts: it stands queued, nothing of it is done, it signals no barrier, no cancel was asked for, no search of its
controller is to be served before it if it is one, no slice is being resized; its object is one of the kinds, sound on the flash tier (R55, R271,
R280). -/
def State.storeStarts (s : State) (c : Cmd) (kinds : List Nat) (o : Obj) : Prop :=
  s.cmds.find s.focus.cmd = some c ∧ c.port = 1 ∧ c.st = .queued ∧ c.begun = false ∧ c.pos = 0 ∧ c.ben = false ∧ c.cancelled = false ∧ c.tables = []
  ∧ searchAhead s c = false ∧ s.resizing = [] ∧ flashObj s c.portOf c.req kinds c.obj = .ok o

/-- A storage or key-value command at work: it keeps the tile table of its object as it stood at its start (R248). -/
def Cmd.atWork (c : Cmd) (o : Obj) : Cmd := { c with st := .running, tables := c.tables.put o.id o.ttPtr }

/-- The command as it reads the current version of its object (R297). -/
def Cmd.current (c : Cmd) (s : State) : Cmd := { c with version := (s.index c.obj).version }

/-! ## Ranked results (R252, R290, R292) -/

/-- An FP32 code is a NaN. -/
def f32Nan (c : Nat) : Prop := 0x7F800000 < c % 2 ^ 31

/-- The place of an FP32 code that is no NaN among all of them; both zeros share one. -/
def f32Rank (c : Nat) : Int := if c / 2 ^ 31 % 2 = 1 then -((c % 2 ^ 31 : Nat) : Int) else ((c % 2 ^ 31 : Nat) : Int)

/-- A scored item, score and number, may stand before another: the better score first, of equal ones the lower number, NaN scores last. -/
def ranksFirst (larger : Bool) (a b : Nat × Nat) : Prop :=
  f32Nan b.1 ∨ (¬ f32Nan a.1 ∧ ((if larger then f32Rank b.1 < f32Rank a.1 else f32Rank a.1 < f32Rank b.1)
    ∨ (f32Rank a.1 = f32Rank b.1 ∧ a.2 ≤ b.2)))

/-- The best `k` of the items, in order: no more are left out than `k` says, and none that ought to stand before one kept. -/
def bestOf (larger : Bool) (k : Nat) (items best : List (Nat × Nat)) : Prop :=
  best.length = min k items.length ∧ best.Pairwise (fun a b => ranksFirst larger a b)
  ∧ ∃ rest, items.Perm (best ++ rest) ∧ ∀ a ∈ best, ∀ b ∈ rest, ranksFirst larger a b

/-! ## Records of the queue manager (R328 to R332) -/

/-- The record in focus starts: it heads the stream of its queue, nothing suspends it, no block holds it back, its wait holds, the bank it needs
is free, its scheduler chooses its queue, and no earlier start of it has read a count (R328, R331, R332, R337, R342). -/
def State.recordStarts (s : State) (id : Nat) (r : Rec) : Prop :=
  s.focus.record = id ∧ s.recs.find id = some r ∧ r.st = .stream ∧ r.susp = 0 ∧ r.count = none ∧ r.chainPrev = none ∧ (s.queue r.queue).stream.head? = some id
  ∧ waitHolds s r = .ok true ∧ (∃ b, neededBank s r = .ok b ∧ ∀ key, b = some key → bankOf s key .shadow = none)
  ∧ ∃ rr, schedPick s r.part (queueKind r.queue) = some (r.queue, rr)

/-- Memory semaphore `n` of a partition lies at address `a` of device memory, in an object that reads and takes writes without a fault (R327). -/
def State.semaphoreAt (s : State) (part n a : Nat) : Prop :=
  let id := fieldOf (partReg s part 8) 23 0
  ∃ (o : Obj) (b size : Nat), objEntry s qmPort id = .ok o ∧ objFor s qmPort (.job (some part)) .read id = .ok o
    ∧ objFor s qmPort (.job (some part)) .write id = .ok o ∧ s.flatAt o qmPort .read b size ∧ s.flatAt o qmPort .write b size
    ∧ 4 * n + 4 ≤ size ∧ a = b + 4 * n

/-- The value that the signal of a record makes of `x` (R329). -/
def Rec.signalled (r : Rec) (x : Nat) : Nat :=
  match r.bits 28 27 with
  | 0 => min (x + r.bits 95 64) 0xFFFFFFFF
  | 1 => r.bits 95 64
  | _ => max x (r.bits 95 64)

/-- A record may retire without a fault and without a release that writes memory: its release is local, and its signal, if it makes one, reaches its
semaphore (R57, R329). -/
def State.mayRetire (s : State) (r : Rec) : Prop :=
  r.bits 9 7 < 2 ∧ (r.word.getLsbD 26 = true → ∃ a, s.semaphoreAt r.part (r.bits 127 112) a)

/-- A record has retired: it is gone, its signal, made if its status says so, is the one change of device memory, and no core, crew or command has
changed. -/
def State.retired (s t : State) (id : Nat) (r : Rec) (signals : Bool) : Prop :=
  t.recs.find id = none ∧ t.cores = s.cores ∧ t.crews = s.crews ∧ t.cmds = s.cmds
  ∧ ((signals && r.word.getLsbD 26) = false → ∀ b, t.lpddr.byte b = s.lpddr.byte b)
  ∧ ((signals && r.word.getLsbD 26) = true → ∀ a, s.semaphoreAt r.part (r.bits 127 112) a →
      ∀ b, t.lpddr.byte b = (s.lpddr.setBytes a (bytesOfNat 4 (r.signalled (natOfBytes (s.lpddr.bytes a 4))))).byte b)

/-- A record has left the stream of its queue. -/
def State.leaves (s t : State) (id : Nat) (r : Rec) : Prop := (t.queue r.queue).stream = (s.queue r.queue).stream.filter (· != id)

/-- A record that started has retired at once, DONE. -/
def State.retires (s t : State) (id : Nat) (r : Rec) : Prop := s.leaves t id r ∧ s.retired t id r true

/-- A record may address `n` staging bytes from a landing address on (R56, R326). -/
def State.mayLandRec (s : State) (r : Rec) (v : BitVec 28) (n : Nat) : Prop :=
  (partReg s r.part 6).getLsbD (landAddr v.toNat).1 = true ∧ landOk s (landAddr v.toNat).1 (landAddr v.toNat).2 n = true

/-- The graph of a record is still being walked: its instance runs and has not had its last member added. -/
def State.walking (s : State) (r : Rec) : Prop := ∃ x, s.insts.find r.graph = some x ∧ x.status = .running ∧ x.lastAdded = false

end Sys2Proof.Machine
end

