-- ==== Sys2Proof/Certificates/Slice0/Obligations.lean ====
section
/-!
DEFINITION. The statements for the provers, family by family.
-/
open Sys2Proof Sys2Proof.Machine

/-! ## The sequencer: arithmetic (R126 to R129) -/

/-- R126: every two-operand integer instruction completes with the value the rule gives, with latency 3 for the products, 18 for the
divisions and 1 for the others (R123). -/
def Obligations.IntegerArithmetic : Prop :=
  ∀ (s : State) (e : Bool) (d a b : Reg),
    let x := s.g a
    let y := s.g b
    let n := y.toNat % 64
    let gives := fun (i : Instr) (lat : Nat) (v : Word) => exec i s = .next (seqReg e false d lat v s)
    gives (.add e d a b) 1 (.ofNat 64 (x.toNat + y.toNat))
    ∧ gives (.sub e d a b) 1 (.ofInt 64 (x.toInt - y.toInt))
    ∧ gives (.mul e d a b) 3 (.ofNat 64 (x.toNat * y.toNat))
    ∧ gives (.mulh e d a b) 3 ((x.signExtend 128 * y.signExtend 128).extractLsb' 64 64)
    ∧ gives (.mulhu e d a b) 3 ((x.setWidth 128 * y.setWidth 128).extractLsb' 64 64)
    ∧ gives (.and e d a b) 1 (x &&& y)
    ∧ gives (.or e d a b) 1 (x ||| y)
    ∧ gives (.xor e d a b) 1 (x ^^^ y)
    ∧ gives (.andn e d a b) 1 (x &&& ~~~y)
    ∧ gives (.shl e d a b) 1 (.ofNat 64 (x.toNat * 2 ^ n))
    ∧ gives (.shr e d a b) 1 (.ofNat 64 (x.toNat / 2 ^ n))
    ∧ gives (.sar e d a b) 1 (.ofInt 64 (x.toInt / 2 ^ n))
    ∧ gives (.rol e d a b) 1 ((x <<< n) ||| (x >>> (64 - n)))
    ∧ gives (.min e d a b) 1 (.ofInt 64 (min x.toInt y.toInt))
    ∧ gives (.max e d a b) 1 (.ofInt 64 (max x.toInt y.toInt))
    ∧ gives (.minu e d a b) 1 (.ofNat 64 (min x.toNat y.toNat))
    ∧ gives (.maxu e d a b) 1 (.ofNat 64 (max x.toNat y.toNat))
    ∧ gives (.slt e d a b) 1 (if x.toInt < y.toInt then 1 else 0)
    ∧ gives (.sltu e d a b) 1 (if x.toNat < y.toNat then 1 else 0)
    ∧ gives (.div e d a b) 18 (if y = 0 then -1 else if x.toInt = -2 ^ 63 ∧ y.toInt = -1 then x else .ofInt 64 (x.toInt.tdiv y.toInt))
    ∧ gives (.rem e d a b) 18 (if y = 0 then x else if x.toInt = -2 ^ 63 ∧ y.toInt = -1 then 0 else .ofInt 64 (x.toInt.tmod y.toInt))
    ∧ gives (.divu e d a b) 18 (if y = 0 then -1 else .ofNat 64 (x.toNat / y.toNat))
    ∧ gives (.remu e d a b) 18 (if y = 0 then x else .ofNat 64 (x.toNat % y.toNat))

/-- R127: the immediate forms complete with the value the rule gives; `lui` with an extension word fills D[63:19] exactly, and with a
following `addi` it forms any 64-bit constant. -/
def Obligations.ImmediateForms : Prop :=
  (∀ (s : State) (e : Bool) (d a : Reg) (imm : BitVec 11) (x : Option (BitVec 29)),
    exec (.addi e d a imm x) s = .next (seqReg e x.isSome d 1 (s.g a + wideImm imm x) s)
    ∧ exec (.andi e d a imm x) s = .next (seqReg e x.isSome d 1 (s.g a &&& wideImm imm x) s)
    ∧ exec (.ori e d a imm x) s = .next (seqReg e x.isSome d 1 (s.g a ||| wideImm imm x) s)
    ∧ exec (.xori e d a imm x) s = .next (seqReg e x.isSome d 1 (s.g a ^^^ wideImm imm x) s))
  ∧ (∀ (s : State) (e : Bool) (d a : Reg) (n : BitVec 6),
    exec (.shli e d a n) s = .next (seqReg e false d 1 (.ofNat 64 ((s.g a).toNat * 2 ^ n.toNat)) s)
    ∧ exec (.shri e d a n) s = .next (seqReg e false d 1 (.ofNat 64 ((s.g a).toNat / 2 ^ n.toNat)) s)
    ∧ exec (.sari e d a n) s = .next (seqReg e false d 1 (.ofInt 64 ((s.g a).toInt / 2 ^ n.toNat)) s))
  ∧ (∀ (s : State) (e : Bool) (d : Reg) (imm : BitVec 16),
    exec (.lui e d imm none) s = .next (seqReg e false d 1 (imm.signExtend 64 * 2 ^ 19) s)
    ∧ ∀ v : BitVec 29, exec (.lui e d imm (some v)) s = .next (seqReg e true d 1 ((v ++ imm) ++ (0 : BitVec 19)) s))
  ∧ (∀ c : Word, ∃ (v u : BitVec 29) (hi : BitVec 16) (lo : BitVec 11), ((v ++ hi) ++ (0 : BitVec 19)) + wideImm lo (some u) = c)

/-- R128: the bit counts and the extensions of slices. -/
def Obligations.CountsAndExtensions : Prop :=
  ∀ (s : State) (e : Bool) (d a : Reg),
    let x := s.g a
    let gives := fun (i : Instr) (v : Word) => exec i s = .next (seqReg e false d 1 v s)
    (∃ n, gives (.clz e d a) (.ofNat 64 n) ∧ n ≤ 64 ∧ (∀ k, k < n → x.getLsbD (63 - k) = false) ∧ (n < 64 → x.getLsbD (63 - n) = true))
    ∧ (∃ n, gives (.ctz e d a) (.ofNat 64 n) ∧ n ≤ 64 ∧ (∀ k, k < n → x.getLsbD k = false) ∧ (n < 64 → x.getLsbD n = true))
    ∧ gives (.popc e d a) (.ofNat 64 ((List.range 64).map (fun i => (x.toNat / 2 ^ i) % 2)).sum)
    ∧ gives (.sext_b e d a) ((x.extractLsb' 0 8).signExtend 64)
    ∧ gives (.sext_h e d a) ((x.extractLsb' 0 16).signExtend 64)
    ∧ gives (.sext_w e d a) ((x.extractLsb' 0 32).signExtend 64)
    ∧ gives (.zext_b e d a) (x &&& 0xFF)
    ∧ gives (.zext_h e d a) (x &&& 0xFFFF)
    ∧ gives (.zext_w e d a) (x &&& 0xFFFFFFFF)

/-- R129: comparisons, predicate logic and select. The condition codes are those of R92: 0 EQ, 1 NE, 2 LT, 3 GE, 4 LTU, 5 GEU. -/
def Obligations.ComparisonsAndPredicates : Prop :=
  (∀ (s : State) (e : Bool) (pd : PReg) (cc : BitVec 4) (a b : Reg) (imm : BitVec 9) (x : Option (BitVec 29)),
    let holds := fun (u v : Word) => match cc.toNat with
      | 0 => decide (u.toNat = v.toNat)
      | 1 => decide (u.toNat ≠ v.toNat)
      | 2 => decide (u.toInt < v.toInt)
      | 3 => decide (v.toInt ≤ u.toInt)
      | 4 => decide (u.toNat < v.toNat)
      | 5 => decide (v.toNat ≤ u.toNat)
      | _ => false
    exec (.cmp e pd cc a b) s = .next (seqDone e false (s.setP pd (holds (s.g a) (s.g b))))
    ∧ exec (.cmpi e pd cc a imm x) s = .next (seqDone e x.isSome (s.setP pd (holds (s.g a) (wideImm imm x)))))
  ∧ (∀ (s : State) (e : Bool) (pd pa pb : PReg),
    exec (.pand e pd pa pb) s = .next (seqDone e false (s.setP pd (s.p pa && s.p pb)))
    ∧ exec (.por e pd pa pb) s = .next (seqDone e false (s.setP pd (s.p pa || s.p pb)))
    ∧ exec (.pxor e pd pa pb) s = .next (seqDone e false (s.setP pd (xor (s.p pa) (s.p pb))))
    ∧ exec (.pnot e pd pa) s = .next (seqDone e false (s.setP pd (!s.p pa))))
  ∧ (∀ (s : State) (e : Bool) (d a b : Reg) (p : PReg),
    exec (.sel e d a b 0 p) s = .next (seqReg e false d 1 (if s.p p then s.g a else s.g b) s)
    ∧ exec (.sel e d a b 1 p) s = .next (seqReg e false d 1 (if s.p p then s.g b else s.g a) s))

/-! ## Bundles, shadows and the memories of a context (R122 to R124, R130 to R132) -/

/-- The words of a bundle that is not at its end: a word that writes a register leaves everything as it is but its context, and of that
only the place in the bundle and one more write in its shadow, which falls due after the latency of R123. -/
def Sys2Proof.Claims.RegisterWordFrame : Prop :=
  ∀ (s : State) (ext : Bool) (d : Reg) (lat : Nat) (v : Word),
    let t := seqReg false ext d lat v s
    onlyContext s t ∧ sameMemories s t ∧ sameContext s.ctx t.ctx
    ∧ t.ctx.pend = s.ctx.pend ++ [⟨s.ctx.bundles + lat, false, d.toNat, v⟩]
    ∧ t.ctx.word = s.ctx.word + (if ext then 2 else 1)
    ∧ (∀ r, t.g r = s.g r) ∧ (∀ p, t.p p = s.p p)

/-- Landing at the end of a bundle (R122, R123): of the writes due, the one issued last stands in its register; a register with no write
due keeps its value, g0 reads zero and p0 reads 1, and what is not due stays in its shadow. -/
def Sys2Proof.Claims.WritesLandInOrder : Prop :=
  ∀ (x : Ctx),
    let y := x.landWrites
    let due := fun (pred : Bool) (i : Nat) => (x.pend.filter (fun w => decide (w.due ≤ x.bundles) && w.pred == pred && w.index == i)).getLast?
    y.reg 0 = 0 ∧ y.preg 0 = true
    ∧ (∀ r : Reg, r ≠ 0 → y.reg r = match due false r.toNat with
        | some w => w.value
        | none => x.reg r)
    ∧ (∀ p : PReg, p ≠ 0 → y.preg p = match due true p.toNat with
        | some w => w.value != 0
        | none => x.preg p)
    ∧ y.pend = x.pend.filter (fun w => decide (x.bundles < w.due))

/-- Where a bundle ends without a fault, transfer, trap, return or exit, and the next word of the line is a bundle start: its stores are
made in issue order, its due writes land, its number is counted, SEQ_BUNDLES counts a program bundle, and nothing else changes. -/
def Sys2Proof.Claims.BundleEndEffect : Prop :=
  ∀ (s : State) (l : BitVec 512),
    let x := s.ctx
    let c := s.focus.core
    x.fault = none → x.ctl = .none → x.xfer = none →
    fetchLine s c x.obj x.line = .ok l → lineEngine l = 0 → lineKind l = 0 → x.word ≤ 15 → lineWord l x.word ≠ 0 →
    bundleStart l x.word = true →
    let k := x.stores.foldl (fun k st => k.storeAt s.focus.fw st.1 st.2) s.fcore
    let y : Ctx := { ({ x with bundles := x.bundles + 1 } : Ctx).landWrites with
      stores := [], words := 0, xfer := none, fault := none, ctl := .none, last := s.focus.org, check := 0 }
    let k' := k.setCtx s.focus.fw y
    bundleEnd s = s.setCore c (if s.focus.fw then k' else
      { k' with bundles := if k'.bundles = BitVec.allOnes 48 then k'.bundles else k'.bundles + 1 })

/-- What sequencer words write, when a pending write lands, and what the end of a bundle does (R122 to R124). -/
def Obligations.BundlesAndWrites : Prop :=
  Sys2Proof.Claims.RegisterWordFrame ∧ Sys2Proof.Claims.WritesLandInOrder ∧ Sys2Proof.Claims.BundleEndEffect

/-- R131: a load of one of the memories of its context, aligned to its size, completes: the bytes lie little-endian (R5) from the
effective address, the narrow forms extend by sign, the `u` forms by zeros, and the register takes the value with latency 3. The memory
read is the one of R130. -/
def Sys2Proof.Claims.LoadsOfContextMemory : Prop :=
  ∀ (s : State) (e : Bool) (d a : Reg) (imm : BitVec 11) (x : Option (BitVec 29)),
    let ea := s.addressOf a imm x
    let b := s.contextAt ea
    let gives := fun (i : Instr) (v : Word) => exec i s = .next (seqReg e x.isSome d 3 v s)
    (s.contextByte ea).isSome = true →
    gives (.ld_b e d a imm x) ((b 0).signExtend 64)
    ∧ gives (.ldu_b e d a imm x) ((b 0).setWidth 64)
    ∧ (ea % 2 = 0 → gives (.ld_h e d a imm x) ((b 1 ++ b 0).signExtend 64) ∧ gives (.ldu_h e d a imm x) ((b 1 ++ b 0).setWidth 64))
    ∧ (ea % 4 = 0 → gives (.ld_w e d a imm x) ((b 3 ++ b 2 ++ b 1 ++ b 0).signExtend 64)
        ∧ gives (.ldu_w e d a imm x) ((b 3 ++ b 2 ++ b 1 ++ b 0).setWidth 64))
    ∧ (ea % 8 = 0 → gives (.ld_d e d a imm x) (b 7 ++ b 6 ++ b 5 ++ b 4 ++ b 3 ++ b 2 ++ b 1 ++ b 0))

/-- R131: a store to one of the memories of its context, aligned to its size, completes: the low bytes of the register of the D field, in
little-endian order, stand among the stores that the end of the bundle makes (R124), and nothing else changes but the place in
the bundle. -/
def Sys2Proof.Claims.StoresOfContextMemory : Prop :=
  ∀ (s : State) (e : Bool) (r a : Reg) (imm : BitVec 11) (x : Option (BitVec 29)),
    let ea := s.addressOf a imm x
    let v := s.g r
    let b := fun (i : Nat) => v.extractLsb' (8 * i) 8
    let gives := fun (i : Instr) (bytes : List Byte) =>
      exec i s = .next (seqDone e x.isSome (s.updCtx (fun y => { y with stores := y.stores ++ [(ea, bytes)] })))
    (s.contextByte ea).isSome = true →
    gives (.st_b e r a imm x) [b 0]
    ∧ (ea % 2 = 0 → gives (.st_h e r a imm x) [b 0, b 1])
    ∧ (ea % 4 = 0 → gives (.st_w e r a imm x) [b 0, b 1, b 2, b 3])
    ∧ (ea % 8 = 0 → gives (.st_d e r a imm x) [b 0, b 1, b 2, b 3, b 4, b 5, b 6, b 7])

/-- The stores of a bundle (R124, R130): a store made at the bundle's end changes the bytes at its address in the memory that R130 gives the
context, and no other byte of either memory. -/
def Sys2Proof.Claims.StoreFrame : Prop :=
  ∀ (k : Core) (fw : Bool) (ea : Nat) (bytes : List Byte),
    let t := k.storeAt fw ea bytes
    (fw = false → (∀ i, i < bytes.length → t.seqMem.byte (ea + i) = bytes.getD i 0)
      ∧ (∀ b, (b < ea ∨ ea + bytes.length ≤ b) → t.seqMem.byte b = k.seqMem.byte b) ∧ (∀ b, t.fwMem.byte b = k.fwMem.byte b))
    ∧ (fw = true → ea < 2 ^ 14 → (∀ i, i < bytes.length → t.fwMem.byte (ea + i) = bytes.getD i 0)
      ∧ (∀ b, (b < ea ∨ ea + bytes.length ≤ b) → t.fwMem.byte b = k.fwMem.byte b) ∧ (∀ b, t.seqMem.byte b = k.seqMem.byte b))
    ∧ (fw = true → 2 ^ 31 ≤ ea → (∀ i, i < bytes.length → t.seqMem.byte (ea - 2 ^ 31 + i) = bytes.getD i 0)
      ∧ (∀ b, (b < ea - 2 ^ 31 ∨ ea - 2 ^ 31 + bytes.length ≤ b) → t.seqMem.byte b = k.seqMem.byte b)
      ∧ (∀ b, t.fwMem.byte b = k.fwMem.byte b))
    ∧ { t with seqMem := k.seqMem, fwMem := k.fwMem } = k

/-- Stores: their bytes, and what they leave as it was (R124, R130, R131). -/
def Obligations.Stores : Prop :=
  Sys2Proof.Claims.StoresOfContextMemory ∧ Sys2Proof.Claims.StoreFrame

/-- R130, R131: an address that the context does not reach raises SEQ MEM_RANGE and a misaligned one SEQ MEM_ALIGN, at the end of the
bundle, with no other effect of the word; a store into the constant-line window is MEM_RANGE. Range is judged before alignment (log
entry 13). -/
def Sys2Proof.Claims.LoadStoreFaults : Prop :=
  ∀ (s : State) (e : Bool) (d a : Reg) (imm : BitVec 11) (x : Option (BitVec 29)),
    let ea := s.addressOf a imm x
    let bad := fun (i : Instr) (sub : Nat) => exec i s = .next (seqDone e x.isSome (bundleFault (seqFault sub) s))
    (s.contextByte ea = none →
      bad (.st_b e d a imm x) 0 ∧ bad (.st_h e d a imm x) 0 ∧ bad (.st_w e d a imm x) 0 ∧ bad (.st_d e d a imm x) 0
      ∧ (¬ s.inConst ea → bad (.ld_b e d a imm x) 0 ∧ bad (.ld_h e d a imm x) 0 ∧ bad (.ld_w e d a imm x) 0 ∧ bad (.ld_d e d a imm x) 0
        ∧ bad (.ldu_b e d a imm x) 0 ∧ bad (.ldu_h e d a imm x) 0 ∧ bad (.ldu_w e d a imm x) 0))
    ∧ ((s.contextByte ea).isSome = true →
      (ea % 2 ≠ 0 → bad (.ld_h e d a imm x) 1 ∧ bad (.ldu_h e d a imm x) 1 ∧ bad (.st_h e d a imm x) 1)
      ∧ (ea % 4 ≠ 0 → bad (.ld_w e d a imm x) 1 ∧ bad (.ldu_w e d a imm x) 1 ∧ bad (.st_w e d a imm x) 1)
      ∧ (ea % 8 ≠ 0 → bad (.ld_d e d a imm x) 1 ∧ bad (.st_d e d a imm x) 1))

/-- R132: an aligned load of the constant-line window reads the line the sequencer holds; while that line is not held the word does not
issue, and the line it needs is noted; a line that the rule does not allow raises SEQ CONST_LINE at the end of the bundle. -/
def Sys2Proof.Claims.ConstantLineLoads : Prop :=
  ∀ (s : State) (e : Bool) (d a : Reg) (imm : BitVec 11) (x : Option (BitVec 29)) (o : Nat),
    s.focus.fw = false → s.addressOf a imm x = 2 ^ 32 + o → o % 8 = 0 →
    (∀ line : BitVec 512, s.ctx.buf = some (o / 64, some line) →
      exec (.ld_d e d a imm x) s = .next (seqReg e x.isSome d 3 (line.extractLsb' (8 * (o % 64)) 64) s)
      ∧ exec (.ldu_w e d a imm x) s = .next (seqReg e x.isSome d 3 ((line.extractLsb' (8 * (o % 64)) 32).setWidth 64) s)
      ∧ exec (.ld_b e d a imm x) s = .next (seqReg e x.isSome d 3 ((line.extractLsb' (8 * (o % 64)) 8).signExtend 64) s))
    ∧ (s.ctx.buf = some (o / 64, none) → exec (.ld_d e d a imm x) s = .next (seqDone e x.isSome (bundleFault (seqFault 5) s)))
    ∧ (s.ctx.buf.map (·.1) ≠ some (o / 64) → exec (.ld_d e d a imm x) s = .next (s.updF (fun k => { k with lineMiss := some (o / 64) })))

/-- Loads of the memories of a context and of constant lines, and the faults of loads and stores (R130 to R132). -/
def Obligations.Loads : Prop :=
  Sys2Proof.Claims.LoadsOfContextMemory ∧ Sys2Proof.Claims.LoadStoreFaults ∧ Sys2Proof.Claims.ConstantLineLoads

/-! ## Control transfer, traps and services (R133 to R135, R151, R370) -/

/-- R133, R134: the transfers. A taken one notes its target, which its bundle takes at its end, and itself as the word before the link (R367); one not taken has no effect; `loop` writes the
count less one and is taken while that is not zero; `call` also writes the return link to g31, `jr` and `ret` go to a link. Targets are
counted from the line of the word (R95). -/
def Sys2Proof.Claims.Transfers : Prop :=
  ∀ (s : State) (e : Bool) (loff : BitVec 11) (lloff : BitVec 12) (word : BitVec 4) (x : Option (BitVec 29)),
    let go := fun (line : Int) (t : State) => t.updCtx (fun y => { y with xfer := some (line.toNat, word.toNat), last := s.focus.org })
    let line : Int := s.ctx.line + (wideImm loff x).toInt
    let lline : Int := s.ctx.line + (wideImm lloff x).toInt
    (0 ≤ line ∧ line < 2 ^ 25 →
      (∀ p : PReg, exec (.br e 0 p loff word x) s = .next (seqDone e x.isSome (if s.p p then go line s else s))
        ∧ exec (.br e 1 p loff word x) s = .next (seqDone e x.isSome (if s.p p then s else go line s)))
      ∧ (∀ f : BitVec 4,
          exec (.bf e 0 f loff word x) s = .next (seqDone e x.isSome (if (s.fcore.flag f.toNat).getLsbD 16 then go line s else s))
        ∧ exec (.bf e 1 f loff word x) s = .next (seqDone e x.isSome (if (s.fcore.flag f.toNat).getLsbD 17 then go line s else s))
        ∧ exec (.bf e 2 f loff word x) s = .next (seqDone e x.isSome (if (s.fcore.flag f.toNat).getLsbD 18 then go line s else s)))
      ∧ exec (.jmp e loff word x) s = .next (seqDone e x.isSome (go line s))
      ∧ (∃ link : Word, exec (.call e loff word x) s = .next (seqDone e x.isSome (go line (s.setG 1 31 link)))))
    ∧ (0 ≤ lline ∧ lline < 2 ^ 25 → ∀ a : Reg,
      exec (.loop e a lloff word x) s = .next (seqDone e x.isSome
        (if (s.g a).toNat = 1 then s.setG 1 a 0 else go lline (s.setG 1 a (s.g a - 1)))))
    ∧ (∀ a : Reg, (s.g a).toNat < 2 ^ 29 →
      exec (.jr e a) s = .next (seqDone e false (s.updCtx (fun y => { y with xfer := some ((s.g a).toNat / 16, (s.g a).toNat % 16), last := s.focus.org }))))
    ∧ ((s.g 31).toNat < 2 ^ 29 →
      exec (.ret e) s = .next (seqDone e false (s.updCtx (fun y => { y with xfer := some ((s.g 31).toNat / 16, (s.g 31).toNat % 16), last := s.focus.org }))))

/-- R133: the return link that `call` writes, where the call ends its bundle: the line and number of the word after it in its line; word 1
of the next line if a fill or the line's end follows; 0 if the chain ends there. -/
def Sys2Proof.Claims.CallReturnLink : Prop :=
  ∀ (s : State) (loff : BitVec 11) (word : BitVec 4) (x : Option (BitVec 29)) (l : BitVec 512),
    let k := s.ctx.word + (if x.isSome then 2 else 1)
    let line : Int := s.ctx.line + (wideImm loff x).toInt
    fetchLine s s.focus.core s.ctx.obj s.ctx.line = .ok l → (lineWord l (k - 1)).getLsbD 29 = true → k ≤ 16 →
    0 ≤ line ∧ line < 2 ^ 25 →
    let link : Word := if k ≤ 15 ∧ lineWord l k ≠ 0 then .ofNat 64 (16 * s.ctx.line + k)
      else if lineNext l = 0x1FFFFFF then 0 else .ofNat 64 (16 * lineNext l + 1)
    exec (.call true loff word x) s = .next (seqDone true x.isSome
      ((s.setG 1 31 link).updCtx (fun y => { y with xfer := some (line.toNat, word.toNat), last := s.focus.org })))

/-- R95, R120, R133: a bundle's transfer to a bundle start of a sequencer code line is taken after the bundle: the context stands there, and
issues nothing in the two core cycles that follow. A target that is no bundle start of such a line raises CHAIN_BAD. -/
def Sys2Proof.Claims.TransferTaken : Prop :=
  ∀ (s : State) (line word : Nat) (l : BitVec 512),
    let c := s.focus.core
    s.ctx.fault = none → s.ctx.ctl = .none → s.ctx.xfer = some (line, word) → s.ctx.stores = [] →
    fetchLine s c s.ctx.obj line = .ok l →
    let ended := s.updF (fun k =>
      let y := ({ k.ctx s.focus.fw with bundles := s.ctx.bundles + 1 } : Ctx).landWrites
      let k' := k.setCtx s.focus.fw { y with words := 0, xfer := none, line := line, word := word, check := 3, stall := 2 }
      if s.focus.fw then k' else { k' with bundles := if k.bundles = BitVec.allOnes 48 then k.bundles else k.bundles + 1 })
    (lineEngine l = 0 ∧ lineKind l = 0 ∧ bundleStart l word = true → bundleEnd s = ended.updCtx (fun y => { y with check := 0 }))
    ∧ (¬ (lineEngine l = 0 ∧ lineKind l = 0 ∧ bundleStart l word = true) → bundleEnd s = raiseFetch (chainFault 0) s.ctx.last s.ctx.obj line ended)

/-- Branches, calls, loops and returns: where a bundle goes on, and when a transfer is taken (R95, R120, R133, R134). -/
def Obligations.ControlTransfers : Prop :=
  Sys2Proof.Claims.Transfers ∧ Sys2Proof.Claims.CallReturnLink ∧ Sys2Proof.Claims.TransferTaken

/-- R135, R151: `exit` and `trap` in the program context, `rfe` in the firmware context and `nop` complete: the first three note what the
end of their bundle does, `nop` does nothing. In the other context each of the three raises the fault of R151, with no
other effect. -/
def Sys2Proof.Claims.ExitTrapReturn : Prop :=
  ∀ (s : State) (e : Bool) (imm : BitVec 11) (x : Option (BitVec 29)),
    exec (.nop e) s = .next (seqDone e false s)
    ∧ (s.focus.fw = false →
      exec (.exit e) s = .next (seqDone e false (s.updCtx (fun y => { y with ctl := .exit })))
      ∧ exec (.trap e imm x) s = .next (seqDone e x.isSome (s.updCtx (fun y => { y with ctl := .trap ((wideImm imm x).toNat % 256) })))
      ∧ exec (.rfe e) s = .next (seqDone e false (raise (seqFault 2) 0 0 s)))
    ∧ (s.focus.fw = true →
      exec (.exit e) s = .next (seqDone e false (raise (seqFault 2) 0 0 s))
      ∧ exec (.trap e imm x) s = .next (seqDone e x.isSome (raise (seqFault 4) 0 0 s))
      ∧ exec (.rfe e) s = .next (seqDone e false (s.updCtx (fun y => { y with ctl := .rfe }))))

/-- R151, R370, R372: a trap is taken at the end of its bundle: TRAP_CODE takes the code, and a TRAP request with its record stands in the queue of
the core's firmware context, behind those already there; nothing else changes but what the bundle's end does. -/
def Sys2Proof.Claims.TrapTaken : Prop :=
  ∀ (s : State) (code : Nat),
    let c := s.focus.core
    let t := takeTrap code s
    onlyCore c s t ∧ (t.core c).trapCode = .ofNat 8 code
    ∧ (∃ words : List Word, words.length = 8 ∧ words.getD 0 0 = .ofNat 64 s.now
        ∧ words.getD 3 0 = .ofNat 64 (code % 256 * 2 ^ 20)
        ∧ (t.core c).fwq = (s.core c).fwq ++ [⟨1, s.now, c, words, 0⟩])
    ∧ { t.core c with fwq := (s.core c).fwq, trapCode := (s.core c).trapCode } = s.core c
    ∧ (t.core c).fwHolds = true

/-- R29, R123, R135: at the end of a bundle with `exit` every write still pending lands, none is left, and the context issues no later bundle. A
register or predicate holds the value of its write that falls due last, of equal ones that issued last (log entry 98), and its own value if it has
none. -/
def Sys2Proof.Claims.ExitLandsWrites : Prop :=
  ∀ (s : State), s.focus.fw = false → s.ctx.fault = none → s.ctx.ctl = .exit → s.ctx.stores = [] →
    (∀ w ∈ s.ctx.pend, s.ctx.bundles < w.due ∧ w.due ≤ s.ctx.bundles + 19) →
    let t := bundleEnd s
    let stands := fun (w : RegWrite) => ∃ before after, s.ctx.pend = before ++ w :: after
      ∧ (∀ v ∈ before, v.pred = w.pred → v.index = w.index → v.due ≤ w.due) ∧ ∀ v ∈ after, v.pred = w.pred → v.index = w.index → v.due < w.due
    t.ctx.wait = .exited ∧ t.ctx.pend = [] ∧ onlyCore s.focus.core s t
    ∧ (∀ r : Reg, r ≠ 0 → (∀ w ∈ s.ctx.pend, w.pred = false → w.index ≠ r.toNat) → t.g r = s.g r)
    ∧ (∀ r : Reg, r ≠ 0 → ∀ w, w.pred = false → w.index = r.toNat → stands w → t.g r = w.value)
    ∧ (∀ p : PReg, p ≠ 0 → (∀ w ∈ s.ctx.pend, w.pred = true → w.index ≠ p.toNat) → t.p p = s.p p)
    ∧ ∀ p : PReg, p ≠ 0 → ∀ w, w.pred = true → w.index = p.toNat → stands w → t.p p = (w.value != 0)

/-- R87, R88, R120: where a bundle ends at a fill word or at the end of its line, the context goes on at word 1 of the line that the link names; a
chain that ends there raises CHAIN_END, and a line that is no sequencer code line, or whose word 1 is no bundle start, CHAIN_BAD. -/
def Sys2Proof.Claims.LineEnds : Prop :=
  ∀ (s : State) (l : BitVec 512),
    let x := s.ctx
    let c := s.focus.core
    x.fault = none → x.ctl = .none → x.xfer = none → fetchLine s c x.obj x.line = .ok l → lineEngine l = 0 → lineKind l = 0 →
    15 < x.word ∨ lineWord l x.word = 0 →
    let k := x.stores.foldl (fun k st => k.storeAt s.focus.fw st.1 st.2) s.fcore
    let ended := fun (at0 : Ctx → Ctx) =>
      let k' := k.setCtx s.focus.fw (at0 { ({ x with bundles := x.bundles + 1 } : Ctx).landWrites with
        stores := [], words := 0, xfer := none, fault := none, ctl := .none, last := s.focus.org })
      s.setCore c (if s.focus.fw then k' else { k' with bundles := if k'.bundles = BitVec.allOnes 48 then k'.bundles else k'.bundles + 1 })
    (lineNext l = 0x1FFFFFF → bundleEnd s = raiseFetch (chainFault 1) s.focus.org x.obj x.line (ended (fun y => { y with check := 1 })))
    ∧ (lineNext l ≠ 0x1FFFFFF → ∀ l', fetchLine s c x.obj (lineNext l) = .ok l' →
      let good : Prop := lineEngine l' = 0 ∧ lineKind l' = 0 ∧ bundleStart l' 1 = true
      (good → bundleEnd s = ended (fun y => { y with line := lineNext l, word := 1, check := 0 }))
      ∧ (¬ good → bundleEnd s = raiseFetch (chainFault 0) s.focus.org x.obj (lineNext l)
          (ended (fun y => { y with line := lineNext l, word := 1, check := 2 }))))

/-- R137, R138, R148: how the waits of either context end. A firmware
`sync` also ends where the clock stands still. A firmware `idle` counts its own core cycles, and none without a limit ends but by a semaphore. A `fence` of
scope CREW or wider also waits for the context's `hsig` at other cores and for every command that it accepted before, one of scope DEVICE or wider for the
sectors of its scope that its commands left dirty (log entry 89). -/
def Sys2Proof.Claims.WiderWaits : Prop :=
  ∀ (s : State) (core : Nat) (fw : Bool),
    let k := s.core core
    let freed := fun (f : Ctx → Ctx) => s.updCore core (fun k => k.setCtx fw (f { k.ctx fw with wait := .none }))
    let gets := fun (d : Reg) (v : Word) (x : Ctx) => if d = 0 then x else { x with g := SMap.set 0 x.g d.toNat v }
    (∀ t, (k.ctx fw).wait = .sync t →
      (t ≤ s.clock core ∨ (fw = true ∧ s.still core = true) → exec (.sync_release core fw) s = .next (freed id))
      ∧ (s.clock core < t → fw = false ∨ s.still core = false → exec (.sync_release core fw) s = .next s))
    ∧ (∀ limit d, (k.ctx fw).wait = .idle limit d → (s.crewOf core).isSome = true →
      ((if fw then k.fwMoved else k.hsemMoved) = true → exec (.idle_wake core fw) s = .next (freed (gets d 1)))
      ∧ ((if fw then k.fwMoved else k.hsemMoved) = false →
        (limit = none → exec (.idle_wake core fw) s = .next s)
        ∧ (fw = true → limit = some 0 → exec (.idle_wake core fw) s = .next (freed (gets d 0)))
        ∧ (fw = true → ∀ n, limit = some (n + 1) → exec (.idle_wake core fw) s = .next s)))
    ∧ ∀ scope n, (k.ctx fw).wait = .fence scope n →
      let own := (∀ p ∈ k.pend, ∀ u i r, p.eff ≠ .setOf fw u i r) ∧ (∀ c ∈ k.hsemPend, c.src ≠ some (core, fw))
      let crew := (∀ p ∈ s.cores, ∀ c ∈ p.2.hsemPend, c.src ≠ some (core, fw)) ∧ ∀ p ∈ s.cmds, p.1 < n → ∀ r, p.2.issuer ≠ .ctx core fw r
      let seen := ∀ d ∈ (k.ctx fw).unseen, scopeSel scope d.2 = true → ((s.cacheOf d.1).find d.2).any (·.dirty) = false
      let ends : Prop := own ∧ (scope ≠ 0 → crew ∧ seen)
      (ends → exec (.fence_complete core fw) s = .next (freed id)) ∧ (¬ ends → exec (.fence_complete core fw) s = .next s)

/-- R365 to R369: a record is eight words: the time stamp, the source with code, SUB, context, END and tag, the cycle with the partition, and the
arguments, zero where there is none. An enabled queue with room writes it at its place in the ring, little-endian, under the queue's colour, and then
counts it in TAIL; its interrupt follows. A queue that is off, of a LOG2N outside 4 to 20, or full writes nothing and counts LOST, which
saturates. -/
def Sys2Proof.Claims.RecordsWritten : Prop :=
  (∀ (s : State) (source : Nat) (f : HwFault) (fw ended : Bool) (tag : BitVec 32) (cycle : Nat) (part : Option Nat) (args : List Word),
    source < 1024 → f.code < 256 → f.sub < 16 → cycle < 2 ^ 48 → (∀ p, part = some p → p < 16) → args.length ≤ 5 →
    let ws := recordWords s source f fw ended tag cycle part args
    ws.length = 8 ∧ ws.getD 0 0 = .ofNat 64 s.now
    ∧ (let w := ws.getD 1 0
       fieldOf w 9 0 = source ∧ fieldOf w 17 10 = f.code ∧ fieldOf w 21 18 = f.sub ∧ w.getLsbD 22 = fw ∧ w.getLsbD 23 = ended
       ∧ fieldOf w 31 24 = 0 ∧ fieldOf w 63 32 = tag.toNat)
    ∧ (let w := ws.getD 2 0
       fieldOf w 47 0 = cycle ∧ fieldOf w 51 48 = part.getD 0 ∧ fieldOf w 63 52 = 0)
    ∧ ∀ i, i < 5 → ws.getD (3 + i) 0 = args.getD i 0)
  ∧ ∀ (s : State) (q : Nat) (ws : List Word), q < 17 → ws.length = 8 →
    let cfg := s.reg (0xD01 + 4 * q)
    let lg := fieldOf cfg 4 0
    let tail := fieldOf (s.reg (0xD02 + 4 * q)) 31 0
    let head := fieldOf (s.reg (0xD03 + 4 * q)) 31 0
    let a := 64 * fieldOf (s.reg (0xD00 + 4 * q)) 39 0 + 64 * (tail % 2 ^ lg)
    let room : Prop := cfg.getLsbD 5 = true ∧ 4 ≤ lg ∧ lg ≤ 20 ∧ (tail + 2 ^ 32 - head) % 2 ^ 32 ≠ 2 ^ lg
    let t := putRecord s q ws
    (room → a + 64 ≤ lpddrEnd → ∃ u, t = (if cfg.getLsbD 6 then postIrq u (fieldOf cfg 17 7) else u)
      ∧ fieldOf (u.reg (0xD02 + 4 * q)) 31 0 = (tail + 1) % 2 ^ 32 ∧ (∀ i, i ≠ 0xD02 + 4 * q → u.reg i = s.reg i)
      ∧ (∀ b, u.lpddr.byte b = (s.lpddr.setBytes a (ws.flatMap (fun w => (List.range 8).map (fun i => w.extractLsb' (8 * i) 8)))).byte b)
      ∧ (∀ b, SMap.get 0 u.colour b = if b = a / 32 ∨ b = a / 32 + 1 then .ofNat 8 (fieldOf cfg 25 18) else SMap.get 0 s.colour b)
      ∧ { u with lpddr := s.lpddr, colour := s.colour, uncorr := s.uncorr, regs := s.regs, now := s.now } = s)
    ∧ (¬ room → (∀ i, i ≠ 0xD01 + 4 * q → t.reg i = s.reg i) ∧ fieldOf (t.reg (0xD01 + 4 * q)) 31 0 = fieldOf cfg 31 0
      ∧ fieldOf (t.reg (0xD01 + 4 * q)) 63 32 = min (fieldOf cfg 63 32 + 1) (2 ^ 32 - 1) ∧ { t with regs := s.regs, now := s.now } = s)

/-- The end of a context and of its lines, traps and their service, the waits of both contexts, and the records of faults (R29, R87, R88, R120, R135, R137, R138, R148, R151, R365 to R370, R372). -/
def Obligations.ExitsAndTraps : Prop :=
  Sys2Proof.Claims.ExitTrapReturn ∧ Sys2Proof.Claims.TrapTaken ∧ Sys2Proof.Claims.ExitLandsWrites ∧ Sys2Proof.Claims.LineEnds ∧ Sys2Proof.Claims.WiderWaits ∧ Sys2Proof.Claims.RecordsWritten

/-! ## Streams, the crew clock, flags, semaphores and registers of a core (R30, R136 to R154) -/

/-- R30, R136: `arm` in the program context, of a stream that runs no chain (a bank's only where the launch reserves the bank) and with a start
cycle later than the crew cycle of issue, arms the stream with the chain at its line, and keeps the stream's numeric state. -/
def Sys2Proof.Claims.ArmStartsStream : Prop :=
  ∀ (s : State) (e : Bool) (stream : BitVec 4) (a : Reg) (loff : BitVec 12) (x : Option (BitVec 29)),
    let u := stream.toNat
    let start := (s.g a).toNat % 2 ^ 48
    let line : Int := s.ctx.line + (wideImm loff x).toInt
    let t := s.fcore.stream u
    s.focus.fw = false → (8 ≤ u ∨ hasBank u s = true) → (t.active = true → s.now0 < t.start) → (t.active = false → t.base ≤ s.now0) →
    s.now0 < start → 0 ≤ line ∧ line < 2 ^ 25 →
    exec (.arm e stream a loff x) s = .next (seqDone e x.isSome
      (s.updF (fun k => { k with streams := k.streams.put u ⟨true, start, s.ctx.obj, line.toNat, 0, start, t.rd, {}⟩ })))

/-- R30, R27, R151: where `arm` of a program context does not arm: ALLOT_USE for a bank outside the allotment, which comes before the others (log entry 98); ARM_BUSY for a
stream that runs a chain, even where the start is late too, and for one that has ended in this cycle or is to (log entry 52); ARM_LATE for a start not later than the cycle
of issue. In a firmware context whose crew is not frozen both words raise SEQ PRIV; what they do there where it is frozen (R400) is stated nowhere. The fault is the word's only effect. -/
def Sys2Proof.Claims.ArmFaults : Prop :=
  ∀ (s : State) (e : Bool) (stream : BitVec 4) (a : Reg) (loff : BitVec 12) (x : Option (BitVec 29)),
    let u := stream.toNat
    let start := (s.g a).toNat % 2 ^ 48
    let t := s.fcore.stream u
    let bad := fun (f : HwFault) => exec (.arm e stream a loff x) s = .next (seqDone e x.isSome (raise f 0 0 s))
    (s.focus.fw = true → s.frozen s.focus.core = false → bad (seqFault 2)
      ∧ exec (.disarm e stream x) s = .next (seqDone e x.isSome (raise (seqFault 2) 0 0 s)))
    ∧ (s.focus.fw = false → u < 8 → hasBank u s = false → bad allotUse
      ∧ exec (.disarm e stream x) s = .next (seqDone e x.isSome (raise allotUse 0 0 s)))
    ∧ (s.focus.fw = false → (8 ≤ u ∨ hasBank u s = true) →
      ((t.active = true ∧ t.start ≤ s.now0) ∨ (t.active = false ∧ s.now0 < t.base) → bad (timing 7))
      ∧ ((t.active = true → s.now0 < t.start) → (t.active = false → t.base ≤ s.now0) → start ≤ s.now0 → bad (timing 6)))

/-- R30, R136: `disarm` stops its stream: no further entry of it issues, and its numeric state stays. -/
def Sys2Proof.Claims.DisarmStopsStream : Prop :=
  ∀ (s : State) (e : Bool) (stream : BitVec 4) (x : Option (BitVec 29)),
    let u := stream.toNat
    s.focus.fw = false → (8 ≤ u ∨ hasBank u s = true) →
    ∃ t, exec (.disarm e stream x) s = .next (seqDone e x.isSome t)
      ∧ (t.fcore.stream u).active = false ∧ (t.fcore.stream u).busy t.now0 = false
      ∧ (t.fcore.stream u).rd = (s.fcore.stream u).rd
      ∧ (∀ v, v ≠ u → t.fcore.stream v = s.fcore.stream v)
      ∧ onlyCore s.focus.core s t ∧ { t.fcore with streams := s.fcore.streams } = s.fcore

/-- Streams that a program starts and stops (R27, R30, R136, R151). -/
def Obligations.StreamsArmed : Prop :=
  Sys2Proof.Claims.ArmStartsStream ∧ Sys2Proof.Claims.ArmFaults ∧ Sys2Proof.Claims.DisarmStopsStream

/-- R137, R138, R149, R150: `cyc`, `sync`, `idle`, `tstamp` and `fwshare`. `sync` waits while its cycle is still to come and gives how late it
was; `idle` with a limit notes the cycle at which it ends. -/
def Sys2Proof.Claims.ClockWords : Prop :=
  ∀ (s : State) (e : Bool) (d a : Reg) (imm : BitVec 11) (x : Option (BitVec 29)),
    let c := s.now0
    let t := (s.g a).toNat % 2 ^ 48
    let w := (s.g a + wideImm imm x).toNat % 2 ^ 48
    exec (.cyc e d) s = .next (seqReg e false d 1 (.ofNat 64 c) s)
    ∧ exec (.tstamp e d) s = .next (seqReg e false d 1 (.ofNat 64 s.now) s)
    ∧ exec (.fwshare e imm x) s = .next (seqDone e x.isSome
        (s.updF (fun k => { k with fwN := .ofNat 6 (max ((wideImm imm x).toNat % 64) k.fwMin.toNat) })))
    ∧ (s.focus.fw = false →
      (t ≤ c → exec (.sync e d a) s = .next (seqReg e false d 1 (.ofNat 64 (c - t)) s))
      ∧ (c < t → exec (.sync e d a) s = .next (seqDone e false ((s.setG 1 d 0).updCtx (fun y => { y with wait := .sync t }))))
      ∧ exec (.idle e d a imm x) s = .next (seqDone e x.isSome (s.updCtx (fun y => { y with
          wait := .idle (if w = 0 then none else some (c + w)) d }))))
    ∧ (s.focus.fw = true → s.still s.focus.core = true → exec (.sync e d a) s = .next (seqReg e false d 1 0 s))
    ∧ (s.focus.fw = true → s.crewOf s.focus.core = none → w = 0 → exec (.idle e d a imm x) s = .next (seqReg e x.isSome d 1 0 s))

/-- R137, R138, R148: how the waits of a context end. SYNC_RELEASE ends a `sync` whose cycle has come and no other; IDLE_WAKE ends an `idle` of a
program context when a semaphore of the core has changed, with 1 in the register, or when the limit has come, with 0;
FENCE_COMPLETE ends a `fence` of scope CORE when no `setof` of the context is still to land and none of its `hsig` at this core is still to count. -/
def Sys2Proof.Claims.WaitsEnd : Prop :=
  ∀ (s : State) (core : Nat),
    let k := s.core core
    let freed := fun (f : Ctx → Ctx) => s.updCore core (fun k => { k with prog := f { k.prog with wait := .none } })
    (∀ t, k.prog.wait = .sync t →
      (t ≤ s.clock core → exec (.sync_release core false) s = .next (freed id))
      ∧ (s.clock core < t → exec (.sync_release core false) s = .next s))
    ∧ (∀ t d, k.prog.wait = .idle (some t) d → (s.crewOf core).isSome = true →
      (k.hsemMoved = true → exec (.idle_wake core false) s = .next (freed (fun x => if d = 0 then x else { x with g := SMap.set 0 x.g d.toNat 1 })))
      ∧ (k.hsemMoved = false → t ≤ s.clock core →
        exec (.idle_wake core false) s = .next (freed (fun x => if d = 0 then x else { x with g := SMap.set 0 x.g d.toNat 0 })))
      ∧ (k.hsemMoved = false → s.clock core < t → exec (.idle_wake core false) s = .next s))
    ∧ (∀ n, k.prog.wait = .fence 0 n →
      ((∀ p ∈ k.pend, ∀ u i r, p.eff ≠ .setOf false u i r) → (∀ c ∈ k.hsemPend, c.src ≠ some (core, false)) →
        exec (.fence_complete core false) s = .next (freed id))
      ∧ ((∃ p ∈ k.pend, ∃ u i r, p.eff = .setOf false u i r) → exec (.fence_complete core false) s = .next s))

/-- R148: `fence` withholds what follows it in its context until its scope's conditions hold for what the context accepted before it. -/
def Sys2Proof.Claims.FenceWaits : Prop :=
  ∀ (s : State) (e : Bool) (scope : BitVec 3),
    exec (.fence e scope) s = .next (seqDone e false (s.updCtx (fun y => { y with wait := .fence scope.toNat s.nextId })))

/-- Clock words, waits and their ends, fences (R137, R138, R148 to R150). -/
def Obligations.ClocksAndWaits : Prop :=
  Sys2Proof.Claims.ClockWords ∧ Sys2Proof.Claims.WaitsEnd ∧ Sys2Proof.Claims.FenceWaits

/-- R139: `setof` under a crew is applied at the end of crew cycle c + 3, with the value saturated to an integer type in every element, or
g[A][31:0] as FP32 with every NaN as 0x7FC00000; the row has TAG = TYPE, no poison and no sideband. `fget` reads a flag register (R140). -/
def Obligations.SetofAndFget : Prop :=
  ∀ (s : State) (e : Bool) (stn : BitVec 3) (ofi : BitVec 4) (d a : Reg) (f : BitVec 4),
    exec (.fget e d f) s = .next (seqReg e false d 1 (s.fcore.flag f.toNat) s)
    ∧ ((s.crewOf s.focus.core).isSome = true → ∀ ty : BitVec 4, ty.toNat ≤ 8 →
      ∃ row : Row, exec (.setof e stn ofi a ty) s =
          .next (seqDone e false (s.later (s.now0 + 3) (.setOf s.focus.fw (8 + stn.toNat) ofi.toNat row)))
        ∧ row.tag = Fmt.ofCode ty.toNat ∧ row.poison = false ∧ row.side = 0
        ∧ (ty = 5 → ∀ i, i < 32 → (row.code i : Int) = (max (-2 ^ 31) (min (2 ^ 31 - 1) (s.g a).toInt)) % 2 ^ 32)
        ∧ (ty = 6 → ∀ i, i < 64 → (row.code i : Int) = (max (-2 ^ 15) (min (2 ^ 15 - 1) (s.g a).toInt)) % 2 ^ 16)
        ∧ (ty = 7 → ∀ i, i < 128 → (row.code i : Int) = (max (-2 ^ 7) (min (2 ^ 7 - 1) (s.g a).toInt)) % 2 ^ 8)
        ∧ (ty = 8 → ∀ i, i < 128 → (row.code i : Int) = max 0 (min 255 (s.g a).toInt))
        ∧ (ty = 0 → ∀ i, i < 32 → row.code i =
            (let v := (s.g a).toNat % 2 ^ 32
             if v / 2 ^ 23 % 256 = 255 ∧ v % 2 ^ 23 ≠ 0 then 0x7FC00000 else v)))

/-- R144 to R146: `hsig` adds its immediate to a semaphore of a member, counting at c + 2 at the issuing core and at c + 10 at another;
`hwait` issues where its comparison holds and asks for a hold with cause SEM (2) where it does not; `hrd` reads. Outside the allotment
each raises ALLOT_USE, an `hsig` at no member SEQ SEM_TARGET. -/
def Sys2Proof.Claims.SemaphoreWords : Prop :=
  ∀ (s : State) (e : Bool) (d h a : Reg) (imm : BitVec 9) (w : Crew),
    let c := s.focus.core
    let n := h.toNat
    let m := (s.g a).toNat % 64
    let target := c / 40 * 40 + m
    let v := (s.g a + wideImm imm none).toNat % 2 ^ 16
    let sem := (s.fcore.h n).toNat
    s.crewOf c = some w →
    (w.allot.hsemMask.getLsbD n = true →
      (m < 40 → target ∈ w.members → exec (.hsig e h a imm) s = .next (seqDone e false (s.updCore target (fun k => { k with
          hsemPend := k.hsemPend ++ [⟨s.now0 + (if target = c then 2 else 10), n, imm.toInt, some (c, s.focus.fw)⟩] }))))
      ∧ (¬ (m < 40 ∧ target ∈ w.members) → exec (.hsig e h a imm) s = .next (seqDone e false (raise (seqFault 3) 0 n s)))
      ∧ (s.focus.fw = false → ∀ op : BitVec 2,
          let holds := match op.toNat with
            | 0 => decide (v ≤ sem)
            | 1 => decide (sem = v)
            | 2 => decide (sem ≠ v)
            | _ => decide (sem < v)
          exec (.hwait e h op a imm) s = .next (if holds then seqDone e false s else askHold 2 s))
      ∧ exec (.hrd e d h) s = .next (seqReg e false d 1 (.ofNat 64 sem) s))
    ∧ (w.allot.hsemMask.getLsbD n = false →
      exec (.hsig e h a imm) s = .next (seqDone e false (raise allotUse 0 n s))
      ∧ exec (.hrd e d h) s = .next (seqDone e false (raise allotUse 0 n s))
      ∧ (s.focus.fw = false → ∀ op, exec (.hwait e h op a imm) s = .next (seqDone e false (raise allotUse 0 n s))))

/-- R143: the changes that count in one cycle are added to a semaphore as one exact sum, clamped to 0 to 0xFFFF; clamping sets its bit of
HSEM_SAT, which a write of 1 in the same cycle does not clear (R8), and changes due later stay. -/
def Sys2Proof.Claims.SemaphoresCount : Prop :=
  ∀ (k : Core) (clock n : Nat), n < 32 →
    let t := k.countHsem clock
    let sum := ((k.hsemPend.filter (fun c => decide (c.due ≤ clock) && c.h == n)).map (·.delta)).sum
    let v := ((k.h n).toNat : Int) + sum
    ((t.h n).toNat : Int) = max 0 (min 65535 v)
    ∧ t.hsemSat.getLsbD n = (k.hsemSat.getLsbD n || decide (v < 0) || decide (65535 < v))
    ∧ t.hsemHit.getLsbD n = (decide (v < 0) || decide (65535 < v))
    ∧ t.hsemPend = k.hsemPend.filter (fun c => decide (clock < c.due))

/-- Hardware semaphores: the words on them and how their changes count (R143 to R146). -/
def Obligations.HardwareSemaphores : Prop :=
  Sys2Proof.Claims.SemaphoreWords ∧ Sys2Proof.Claims.SemaphoresCount

/-- R8, R147, R154: `getc` of the registers a program context may read, with the latency of a load, and `setc` of those it may write, which clears no bit of HSEM_SAT set in the same cycle; the service
registers and the device registers raise SEQ PRIV there. -/
def Sys2Proof.Claims.ControlRegisters : Prop :=
  ∀ (s : State) (e : Bool) (d : Reg), s.focus.fw = false →
    let k := s.fcore
    let reads := fun (i : BitVec 12) (v : Word) => exec (.getc e d i) s = .next (seqReg e false d 3 v s)
    reads 0x001 (k.fwMin.setWidth 64 <<< 6 ||| k.fwN.setWidth 64)
    ∧ reads 0x002 (k.bundles.setWidth 64)
    ∧ reads 0x003 (k.fwSlots.setWidth 64)
    ∧ reads 0x004 (k.hsemSat.setWidth 64)
    ∧ (s.focus.core < 320 → reads 0x005 (.ofNat 64 (s.focus.core * 2 ^ 32) ||| k.tag.setWidth 64))
    ∧ exec (.setc e d 0x004) s = .next (seqDone e false (s.updF (fun k => { k with hsemSat := k.hsemSat &&& ~~~((s.g d).setWidth 32 &&& ~~~k.hsemHit) })))
    ∧ exec (.setc e d 0x010) s = .next (seqDone e false (s.updF (fun k => { k with
        holdLimit := (s.g d).setWidth 24, holdLog := (s.g d).getLsbD 24 })))
    ∧ exec (.setc e d 0x011) s = .next (seqDone e false s)
    ∧ exec (.setc e d 0x012) s = .next (seqDone e false s)
    ∧ (∀ i : BitVec 12, 0x020 ≤ i.toNat →
      exec (.getc e d i) s = .next (seqDone e false (raise (seqFault 2) 0 0 s))
      ∧ exec (.setc e d i) s = .next (seqDone e false (raise (seqFault 2) 0 0 s)))

/-- R154, R372: a firmware context reads every device register as it stands, and writes FW_SHARE with N never below MIN. -/
def Sys2Proof.Claims.FirmwareRegisters : Prop :=
  ∀ (s : State) (e : Bool) (d : Reg), s.focus.fw = true →
    (∀ i : BitVec 12, 0x800 ≤ i.toNat → exec (.getc e d i) s = .next (seqReg e false d 3 (readReg s i.toNat) s))
    ∧ (∃ t, exec (.setc e d 0x001) s = .next (seqDone e false t) ∧ t.fcore.fwMin = (s.g d).extractLsb' 6 6
        ∧ t.fcore.fwN.toNat = max ((s.g d).extractLsb' 0 6).toNat ((s.g d).extractLsb' 6 6).toNat
        ∧ onlyCore s.focus.core s t)

/-- Control registers, of a program and of the firmware (R147, R153, R154, R372). -/
def Obligations.SequencerRegisters : Prop :=
  Sys2Proof.Claims.ControlRegisters ∧ Sys2Proof.Claims.FirmwareRegisters

/-! ## Ports and the matrix queue (R101 to R104, R142, R203) -/

/-- R101, R102: `cport` writes one CMD register of one port of its context, and nothing else of the ports. -/
def Sys2Proof.Claims.CportWrites : Prop :=
  ∀ (s : State) (e : Bool) (r : Reg) (port : BitVec 4) (cmd : BitVec 2),
    ∃ t, exec (.cport e r port cmd) s = .next (seqDone e false t) ∧ onlyContext s t
      ∧ (∀ n, SMap.get 0 t.ctx.cmd n = if n = 4 * port.toNat + cmd.toNat then s.g r else SMap.get 0 s.ctx.cmd n)
      ∧ { t.ctx with cmd := s.ctx.cmd } = s.ctx

/-- R103, R104: a `go` whose command passes the checks and finds the port's buffer full accepts nothing and writes 0; one that fails them raises
CMD_BAD, whether or not the buffer is full. -/
def Sys2Proof.Claims.GoFullOrBad : Prop :=
  ∀ (s : State) (e : Bool) (d : Reg) (port : BitVec 4),
    let p := port.toNat
    let w := s.ctx.command p
    (∀ sub k, goBad s s.focus.core p w = some (sub, k) →
      exec (.go e d port) s = .next (seqDone e false (raiseWith (cmdBad sub) (w.setWidth 64) (.ofNat 64 k) 0 (coreArg3 s.focus.org) s)))
    ∧ (goBad s s.focus.core p w = none →
      (if p = 0 then w.getLsbD 19 = false ∨ hasHsem (fieldOf w 18 14) s = true
        else w.getLsbD 13 = false ∨ hasHsem (fieldOf w 12 8) s = true) →
      16 ≤ (buffered s s.focus.core p).length → exec (.go e d port) s = .next (seqReg e false d 3 0 s))

/-- R103: a `go` whose command passes the checks and whose port's buffer has room is accepted whole: the register takes, with the latency of
a load, the ticket of the next acceptance number and the port's number, and the command stands in the buffer or, where its engine has
room, in that engine's queue. A program context's launch counts it (R11), so its counter must have room (R13). -/
def Sys2Proof.Claims.GoAccepts : Prop :=
  ∀ (s : State) (d : Reg) (port : BitVec 4),
    let c := s.focus.core
    let p := port.toNat
    let w := s.ctx.command p
    let last := SMap.get 0 s.ctx.tickets p
    let ticket : BitVec 32 := if last = BitVec.allOnes 32 then 1 else last + 1
    (s.focus.fw = true ∨ ∀ n t, SMap.find s.insts n = some t → t.count ≠ 0xFFFFFFFF) →
    goBad s c p w = none →
    (if p = 0 then w.getLsbD 19 = false ∨ hasHsem (fieldOf w 18 14) s = true
      else w.getLsbD 13 = false ∨ hasHsem (fieldOf w 12 8) s = true) →
    (buffered s c p).length < 16 → SMap.find s.cmds s.nextId = none →
    ∃ t x, exec (.go false d port) s = .next t ∧ SMap.find t.cmds s.nextId = some x
      ∧ x.word = w ∧ x.port = p ∧ x.ticket = ticket.toNat ∧ (x.st = .buffered ∨ x.st = .queued)
      ∧ t.ctx.pend = s.ctx.pend ++ [⟨s.ctx.bundles + 3, false, d.toNat, .ofNat 64 (ticket.toNat + p * 2 ^ 32)⟩]
      ∧ SMap.get 0 t.ctx.tickets p = ticket
      ∧ (∀ n, n ≠ s.nextId → (SMap.find t.cmds n).map (·.word) = (SMap.find s.cmds n).map (·.word))

/-- The command ports: buffering a command, a full port, refusals and acceptance (R101 to R104). -/
def Obligations.PortCommands : Prop :=
  Sys2Proof.Claims.CportWrites ∧ Sys2Proof.Claims.GoFullOrBad ∧ Sys2Proof.Claims.GoAccepts

/-- R142, R203, R204: `mxq` pushes a command that passes R99, R100 and the checks of R203 into a queue with room, with its start cycle filled up to
48 bits: bits [47:40] are those of the crew cycle of the push, and 2^40 is added where that lies more than 2^39 below it; a full queue raises MX QUEUE_FULL and pushes nothing;
the engine that its record names is the model's reading (log entry 54). -/
def Sys2Proof.Claims.MxqPushes : Prop :=
  ∀ (s : State) (e : Bool) (a b : Reg) (i : Instr),
    let w := s.g b ++ s.g a
    decodeMatrix w = .ok i → matrixOk i = true → s.frozen s.focus.core = false →
    (∀ n ∈ (mxUses i).accs, hasAcc n s = true) → (∀ n ∈ (mxUses i).slots, hasSlot n s = true) →
    (∀ n ∈ (mxUses i).hsems, hasHsem n s = true) →
    (s.fcore.mx.queue.length < 16 →
      ∃ c, exec (.mxq e a b) s = .next (seqDone e false (s.updF (fun k => { k with mx := { k.mx with queue := k.mx.queue ++ [c] } })))
        ∧ c.word = w ∧ c.pushed = s.now0 ∧ c.start = (let v := s.now0 / 2 ^ 40 * 2 ^ 40 + (w.extractLsb' 8 40).toNat
                                  if v + 2 ^ 39 < s.now0 then v + 2 ^ 40 else v))
    ∧ (16 ≤ s.fcore.mx.queue.length →
      exec (.mxq e a b) s = .next (seqDone e false (raiseWith (mxFault 4) (coreArg0 9 0 0) (s.g a) (s.g b) (coreArg3 s.focus.org) s)))

/-! ## Lanes, banks and stations (R155 to R173) -/

/-- R158: a row put at its position travels one hop a crew cycle, up on lanes 0 to 7 and down on lanes 8 to 15; it is present after 1 to 15
hops and at no other time, and never at two positions in one cycle. -/
def Sys2Proof.Claims.RowsTravel : Prop :=
  ∀ (r : LaneRow) (lane pos t : Nat), r.pos < 16 → pos < 16 →
    (r.presentAt lane pos t 15 = true ↔ r.lane = lane ∧ ∃ k, 1 ≤ k ∧ k ≤ 15 ∧ t = r.at0 + k ∧
      (if r.lane < 8 then pos = (r.pos + k) % 16 else (pos + k) % 16 = r.pos))

/-- R159: a put onto a lane where no row is present at hop 14 or less and none is put in the same cycle adds the row; otherwise it is
COLLISION. A station's second put and a bank's third in one cycle are PORT_OVER (R161), which comes first. -/
def Sys2Proof.Claims.PutsAndCollisions : Prop :=
  ∀ (s : State) (u lane : Nat) (row : Row), u < 16 →
    let k := s.fcore
    let t := s.now0
    let pos := if u < 8 then 2 * u else 2 * (u - 8) + 1
    let free := ∀ r ∈ k.lanes, ¬ (r.lane = lane ∧ ((r.at0 = t ∧ r.pos = pos) ∨ r.presentAt lane pos t 14 = true))
    let counted : State := s.updF (fun k => { k with uses := (4 * u + 1) :: k.uses })
    k.faulted = none →
    (k.uses.count (4 * u + 1) < (if u < 8 then 2 else 1) →
      (free → putLane u lane row s = counted.updF (fun k => { k with lanes := k.lanes ++ [⟨lane, pos, t, row⟩] }))
      ∧ (¬ free → putLane u lane row s = raise (timing 1) lane 0 counted))
    ∧ ((if u < 8 then 2 else 1) ≤ k.uses.count (4 * u + 1) → putLane u lane row s = raise (timing 5) pos 0 s)

/-- Rows on lanes: travel, puts, collisions (R158, R159, R161). -/
def Obligations.RowsOnLanes : Prop :=
  Sys2Proof.Claims.RowsTravel ∧ Sys2Proof.Claims.PutsAndCollisions

/-- R97, R160, R163, R164: what an entry reads as its source: its station's LL and operand file, and its immediate, without any effect; of a
lane the row present at its position, which counts as one tap; and where no row is present DEAD_TAP. -/
def Obligations.SourceOperands : Prop :=
  ∀ (s : State) (imm : BitVec 16),
    let u := s.focus.stn
    let pos := if u < 8 then 2 * u else 2 * (u - 8) + 1
    readOpnd .ll imm s = .ok (.row (SMap.get {} s.fcore.stns u).ll, s)
    ∧ (∀ i, readOpnd (.ofr i) imm s = .ok (.row (s.ofRow i.toNat), s))
    ∧ readOpnd .imm imm s = .ok (.imm imm, s) ∧ readOpnd .zero imm s = .ok (.zero, s) ∧ readOpnd .none imm s = .ok (.none, s)
    ∧ (∀ l : BitVec 4, s.fcore.faulted = none → s.fcore.uses.count (4 * u) < 2 →
      let counted : State := s.updF (fun k => { k with uses := (4 * u) :: k.uses })
      (∀ r, s.fcore.lanes.find? (fun r => r.presentAt l.toNat pos s.now0 15) = some r → readOpnd (.lane l) imm s = .ok (.row r.row, counted))
      ∧ ((∀ r ∈ s.fcore.lanes, r.presentAt l.toNat pos s.now0 15 = false) →
          readOpnd (.lane l) imm s = .error (raise (timing 2) l.toNat 0 counted)))

/-- R168, R169: bank reads: `rd`, `rdx` and `rdb` read their rows in the next crew cycle and put them on their lanes then; `rdx` addresses the ring
and moves its pointer with ADV. -/
def Obligations.BankReads : Prop :=
  ∀ (s : State) (h : Ent) (la lb : BitVec 4) (row rowB base len : BitVec 11) (off : BitVec 5) (adv : BitVec 1),
    let u := s.focus.stn
    let b := s.fcore.bank u
    let n := if len = 0 then 2048 else len.toNat
    h.dst = .lane la →
    exec (.rd h row) s = .next (s.later (s.now0 + 1) (.bankRead u la.toNat row.toNat b.fmt))
    ∧ (h.sa = .lane lb → exec (.rdb h row rowB) s = .next ((s.later (s.now0 + 1) (.bankRead u la.toNat row.toNat b.fmt)).later (s.now0 + 1)
        (.bankRead u lb.toNat rowB.toNat b.fmt)))
    ∧ (∃ t, exec (.rdx h base len off adv) s = .next t
      ∧ t.fcore.pend = s.fcore.pend ++ [⟨s.now0 + 1, s.focus.org, .bankRead u la.toNat (base.toNat + (b.rp + off.toNat) % n) b.fmt⟩]
      ∧ (t.fcore.bank u).rp = (if adv = 1 then (b.rp + 1) % n else b.rp)
      ∧ (t.fcore.bank u).rows = b.rows ∧ onlyCore s.focus.core s t)

/-- R74, R168 to R170: a bank write of a reserved bank whose lane holds a row in the bank's own format is converted to itself at issue and written at the
end of the next crew cycle: `wr` to its row, `wrx` to its ring row, `wrb` with its byte mask. Outside the allotment the write is ALLOT_USE. -/
def Obligations.BankWrites : Prop :=
  ∀ (s s1 : State) (h : Ent) (l : BitVec 4) (r : Row) (row base len : BitVec 11) (off : BitVec 5) (adv : BitVec 1) (gmask : BitVec 16),
    let u := s.focus.stn
    let b := s.fcore.bank u
    let n := if len = 0 then 2048 else len.toNat
    h.sa = .lane l →
    (hasBank u s = false → exec (.wr h row 0) s = .next (raise allotUse 0 u s) ∧ exec (.wrb h row gmask) s = .next (raise allotUse 0 u s)
      ∧ exec (.wrx h base len off adv) s = .next (raise allotUse 0 u s))
    ∧ (hasBank u s = true → tapLane u l.toNat s = .ok (r, s1) → r.tag = b.fmt → s1.fcore.bank u = b → s1.focus = s.focus → b.fmt ≠ .cb4 →
      let lands := fun (rowNo : Nat) (mask : Option (BitVec 16)) =>
        (⟨s.now0 + 1, s.focus.org, .bankWrite u rowNo ⟨b.fmt, 0, fmtElems b.fmt, r, mask⟩⟩ : Pend)
      (∃ t, exec (.wr h row 0) s = .next t ∧ t.fcore.pend = s1.fcore.pend ++ [lands row.toNat none] ∧ t.fcore.banks = s1.fcore.banks)
      ∧ (∃ t, exec (.wrb h row gmask) s = .next t ∧ t.fcore.pend = s1.fcore.pend ++ [lands row.toNat (some gmask)]
          ∧ t.fcore.banks = s1.fcore.banks)
      ∧ (∃ t, exec (.wrx h base len off adv) s = .next t
          ∧ t.fcore.pend = s1.fcore.pend ++ [lands (base.toNat + (b.rp + off.toNat) % n) none]
          ∧ (t.fcore.bank u).rp = (if adv = 1 then (b.rp + 1) % n else b.rp) ∧ (t.fcore.bank u).rows = b.rows))

/-- R171, R172, R155: `fill` without a lane schedules zero rows of the bank's format, one a crew cycle from the next on; `fmt` without LOAD changes the
format and codebook number for what issues later and schedules the clearing of the bank; `wait` lets its cycles pass. -/
def Sys2Proof.Claims.BankFillFmtWait : Prop :=
  ∀ (s : State) (h : Ent) (row count : BitVec 11) (f : BitVec 4) (cb : BitVec 2) (w : BitVec 24),
    let u := s.focus.stn
    let b := s.fcore.bank u
    let n := if count = 0 then 2048 else count.toNat
    (h.sa = .none → hasBank u s = true →
      exec (.bank_fill h row count) s = .next (s.later (s.now0 + 1) (.bankFill u row.toNat n ⟨b.fmt, 0, fmtElems b.fmt, Row.zero b.fmt, none⟩)))
    ∧ (∃ t, exec (.fmt h f cb 0) s = .next t ∧ (t.fcore.bank u).fmt = Fmt.ofCode f.toNat ∧ (t.fcore.bank u).cb = cb.toNat
        ∧ (t.fcore.bank u).rows = b.rows ∧ t.fcore.pend = s.fcore.pend ++ [⟨s.now0 + 1, s.focus.org, .fmtLand u⟩] ∧ onlyCore s.focus.core s t)
    ∧ exec (.bank_wait h w) s = .next (s.updF (fun k => k.updStream u (fun t => { t with base := t.base + w.toNat })))
    ∧ exec (.stn_wait h w) s = .next (s.updF (fun k => k.updStream u (fun t => { t with base := t.base + w.toNat })))

/-- R171, R172: how a fill and a format change land: each step of a fill writes its row whole and schedules the next row for the next cycle until
the count is spent; a format change leaves every row a zero row of the bank's format. -/
def Sys2Proof.Claims.FillsLand : Prop :=
  ∀ (s : State) (o : Origin) (bank rowNo left d : Nat) (f : Fmt), bank < 8 → s.fcore.faulted = none → s.fcore.uses.count (4 * bank + 2) = 0 →
    let w : Prep := ⟨f, 0, fmtElems f, Row.zero f, none⟩
    let t := landEff ⟨d, o, .bankFill bank rowNo left w⟩ s
    (t.fcore.bank bank).row rowNo f = Row.zero f
    ∧ (∀ n, n ≠ rowNo → (t.fcore.bank bank).row n f = (s.fcore.bank bank).row n f)
    ∧ (1 < left → t.fcore.pend = s.fcore.pend ++ [⟨s.now0 + 1, s.focus.org, .bankFill bank (rowNo + 1) (left - 1) w⟩])
    ∧ (left ≤ 1 → t.fcore.pend = s.fcore.pend)
    ∧ (∀ n, ((landEff ⟨d, o, .fmtLand bank⟩ s).fcore.bank bank).row n f = Row.zero f)

/-- Bank fills, formats and waits (R155, R171, R172). -/
def Obligations.FillsFormatsWaits : Prop :=
  Sys2Proof.Claims.BankFillFmtWait ∧ Sys2Proof.Claims.FillsLand

/-- R173, R71: `mode` of banks and stations sets ROUND and SAT8, and G as SEED says, a loaded zero becoming 1; the station `nop` has no effect; `chk` of
operands that are not poisoned has none, and a poisoned one raises POISON CHK (R167). -/
def Obligations.ModeNopChk : Prop :=
  ∀ (s : State) (h : Ent) (seedv : BitVec 16) (rnd : BitVec 3) (sat : BitVec 1) (i j : BitVec 4),
    let u := s.focus.stn
    let sets := fun (g : BitVec 32) => s.updF (fun k => k.updStream u (fun t => { t with rd := ⟨RMode.ofCode rnd.toNat, sat = 1, g⟩ }))
    let g0 := (s.fcore.stream u).rd.g
    let g1 : BitVec 32 := if seedv = 0 then 1 else seedv.setWidth 32
    let a := s.ofRow i.toNat
    let b := s.ofRow j.toNat
    exec (.stn_mode h seedv rnd sat 0) s = .next (sets g0) ∧ exec (.bank_mode h seedv rnd sat 0) s = .next (sets g0)
    ∧ exec (.stn_mode h seedv rnd sat 1) s = .next (sets g1) ∧ exec (.bank_mode h seedv rnd sat 1) s = .next (sets g1)
    ∧ (h.sa = .ofr i → a.poison = false → exec (.stn_mode h seedv rnd sat 2) s =
        .next (sets (if a.data.setWidth 32 = 0 then 1 else a.data.setWidth 32)))
    ∧ exec (.stn_nop h) s = .next s
    ∧ (onFiles h i j → a.poison = false → b.poison = false → exec (.chk h) s = .next s)
    ∧ (onFiles h i j → a.poison = true → exec (.chk h) s = .next (raise (poisonFault 0) (16 + i.toNat) 0 s))
    ∧ (onFiles h i j → a.poison = false → b.poison = true → exec (.chk h) s = .next (raise (poisonFault 0) (16 + j.toNat) 0 s))

/-- R163: a station's result lands at the end of its cycle: in its operand-file entry, if that is its destination, and in the station's LL unless a
result of a later entry stands there already; nothing else of the machine changes but the count of port uses. -/
def Obligations.ResultsLand : Prop :=
  ∀ (s : State) (o : Origin) (stn d issue : Nat) (i : BitVec 4) (row : Row), 8 ≤ stn → stn < 16 → s.fcore.faulted = none →
    s.fcore.uses.count (4 * stn + 2) = 0 →
    let x := SMap.get ({} : Station) s.fcore.stns stn
    let t := landEff ⟨d, o, .result stn (.ofr i) row issue⟩ s
    let y := SMap.get ({} : Station) t.fcore.stns stn
    (∀ n, SMap.get (Row.zero .f32) y.ofs n = if n = i.toNat then row else SMap.get (Row.zero .f32) x.ofs n)
    ∧ (x.llAt.1 < s.now0 ∨ (x.llAt.1 = s.now0 ∧ x.llAt.2 ≤ issue) → y.ll = row)
    ∧ (¬ (x.llAt.1 < s.now0 ∨ (x.llAt.1 = s.now0 ∧ x.llAt.2 ≤ issue)) → y.ll = x.ll)
    ∧ (∀ v, v ≠ stn → SMap.get ({} : Station) t.fcore.stns v = SMap.get ({} : Station) s.fcore.stns v)
    ∧ onlyCore s.focus.core s t ∧ { t.fcore with stns := s.fcore.stns, uses := s.fcore.uses } = s.fcore

/-- R174, R180, R181, R186 with R163: every vector entry reads its sources when it issues, computes its row by the function of its rule, and gives it to its
destination after the latency of its rule; where the rule names a fault, that fault is the entry's only effect. `topk` also moves the
index base. -/
def Obligations.StationEntries : Prop :=
  ∀ (s s1 : State) (h : Ent) (a b : Src), readSources h s = .ok (a, b, s1) →
    let rd := s1.rnd
    let d := readDst h s1
    let table := fun (t n : Nat) => (List.range (n + 1)).map (fun i => readOf (t + i) s1)
    let toLane := match h.dst with
      | .lane _ => true
      | _ => false
    let does := fun (i : Instr) (lat : Nat) (r : Except HwFault (Row × Rounding)) =>
      (∀ row rd', r = .ok (row, rd') → exec i s = .next (s1.gives lat h.dst row rd'))
      ∧ (∀ f, r = .error f → exec i s = .next (raiseOpnd h f s1))
    does (.vadd h) 2 (rowAddSub false h.ty rd a b) ∧ does (.vsub h) 2 (rowAddSub true h.ty rd a b) ∧ does (.vmul h) 4 (rowMul h.ty rd a b)
    ∧ (∀ n, does (.vfma h n) 4 (rowFma false (n = 1) h.ty rd d a b) ∧ does (.vfms h n) 4 (rowFma true (n = 1) h.ty rd d a b))
    ∧ does (.vmin h) 2 (rowMinMax false h.ty rd a b) ∧ does (.vmax h) 2 (rowMinMax true h.ty rd a b)
    ∧ does (.vabs h) 2 (rowUnary Val.abs (fun i => i.natAbs) h.ty rd a) ∧ does (.vneg h) 2 (rowUnary Val.neg (fun i => -i) h.ty rd a)
    ∧ does (.vand h) 2 (rowBitwise (· &&& ·) h.ty rd a b) ∧ does (.vor h) 2 (rowBitwise (· ||| ·) h.ty rd a b)
    ∧ does (.vxor h) 2 (rowBitwise (· ^^^ ·) h.ty rd a b) ∧ does (.vnot h) 2 (rowBitwise (fun x _ => x ^^^ 0xFFFFFFFF) h.ty rd a .none)
    ∧ does (.vshl h) 2 (rowShift (shlInt (fmtBits h.ty)) h.ty rd a b) ∧ does (.vshr h) 2 (rowShift (shrInt (fmtBits h.ty)) h.ty rd a b)
    ∧ does (.vsar h) 2 (rowShift (sarInt (fmtBits h.ty)) h.ty rd a b) ∧ does (.vrshr h) 2 (rowShift rshrInt h.ty rd a b)
    ∧ does (.vaddsat h) 2 (rowSat false h.ty rd a b) ∧ does (.vsubsat h) 2 (rowSat true h.ty rd a b)
    ∧ (∀ n, does (.vclamp h n) 2 (rowClamp (n = 1) h.ty rd a b)) ∧ (∀ r, does (.vcmp h r) 2 (rowCmp r.toNat h.ty rd a b))
    ∧ (∀ r m, does (.vcmpb h r m) 2 (rowCmpb r.toNat m.toNat h.ty rd a b))
    ∧ (∀ m n, does (.vsel h m n) 2 ((rowSel (n = 1) h.ty rd (readOf m.toNat s1) a b).mapError (nameFile m.toNat 3)))
    ∧ does (.vmov h) 2 (rowMov h.ty rd a) ∧ (∀ q n, does (.vmac h q n) 4 (rowMac q.toNat (n = 1) h.ty rd d a b))
    ∧ does (.vscale h) 4 (rowScaleOp rd a b)
    ∧ (∀ p n, does (.vcvt h p n) 3 (rowCvt s1.cbs s1.cbPois p.toNat (n = 1) toLane h.ty rd d a))
    ∧ does (.vpack h) 3 (rowPack h.ty rd a b) ∧ (∀ n, does (.vunpack h n) 3 (rowUnpack n.toNat h.ty rd a))
    ∧ does (.viota h) 2 (.ok (rowIota h.ty rd a)) ∧ does (.vaccept h) 2 (rowAccept h.ty rd a)
    ∧ does (.rcp h) 8 (rowSf rcpCode rd a) ∧ does (.rsq h) 8 (rowSf rsqCode rd a) ∧ does (.sqrt h) 8 (rowSf sqrtCode rd a)
    ∧ does (.ex2 h) 8 (rowSf ex2Code rd a) ∧ does (.lg2 h) 8 (rowSf lg2Code rd a) ∧ does (.sin h) 8 (rowSf sinCode rd a)
    ∧ does (.cos h) 8 (rowSf cosCode rd a)
    ∧ (∀ r n, does (.xpose h r n) 3 (rowXpose r.toNat n.toNat h.ty rd a b)) ∧ does (.perm h) 3 (rowPerm h.ty rd a b)
    ∧ (∀ p, does (.shuf h p) 3 (rowShuf p.toNat h.ty rd a b)) ∧ (∀ k, does (.bcast h k) 3 (rowBcast k.toNat h.ty rd a))
    ∧ (∀ t n, does (.gath h t n) 4 ((rowGath h.ty rd (table t.toNat n.toNat) a).mapError (nameFile t.toNat 2))) ∧ (∀ k, does (.slide h k) 3 (rowSlide k.toNat h.ty rd a b))
    ∧ (∀ p, does (.rope h p) 10 (rowRope p.toNat h.ty rd a b))
    ∧ (∀ m, does (.spc24 h m) 3 (rowSpc 4 2 (m = 1) h.ty rd a) ∧ does (.spc48 h m) 3 (rowSpc 8 3 (m = 1) h.ty rd a))
    ∧ (∀ c n, does (.rsum h c n) 6 (rowSum (c = 1) (n = 1) h.ty rd a))
    ∧ (∀ c, does (.rmax h c) 6 (rowExtreme true (c = 1) h.ty rd a) ∧ does (.rmin h c) 6 (rowExtreme false (c = 1) h.ty rd a))
    ∧ (∀ n, does (.scan h n) 6 (rowScan (n = 1) h.ty rd a b)) ∧ does (.argmax h) 6 (rowArgmax h.ty rd a)
    ∧ (∀ n, does (.cmpct h n) 3 (rowCmpct (n = 1) h.ty rd a b)) ∧ (∀ o n, does (.osm h o n) 10 (rowOsm (o = 1) (n = 1) h.ty rd a b))
    ∧ does (.osf h) 8 (rowOsf h.ty rd a b)
    ∧ (∀ k n row rd' tb, rowTopk k.toNat (n = 1) s1.fcore.tb h.ty rd a b = .ok (row, rd', tb) →
      ∃ t, exec (.topk h k n) s = .next t ∧ t.fcore.tb = tb
        ∧ t.fcore.pend = s1.fcore.pend ++ [⟨s1.now0 + 8, s1.focus.org, .result s1.focus.stn h.dst row s1.now0⟩])

/-- R174 for an integer TYPE: the elements that the arithmetic, extreme, shift and saturating entries give, from two rows of the TYPE in the operand
file: modulo 2^w, or saturated to the format's range [lo, hi] where the rule says so. A shift count is the low 8 bits of b's element. -/
def Obligations.IntegerVectorValues : Prop :=
  ∀ (s : State) (h : Ent) (i j : BitVec 4), onFiles h i j → fmtInt h.ty = true →
    let a := s.ofRow i.toNat
    let b := s.ofRow j.toNat
    let w := fmtBits h.ty
    let lo : Int := if h.ty = .ui8 then 0 else -2 ^ (w - 1)
    let hi : Int := if h.ty = .ui8 then 255 else 2 ^ (w - 1) - 1
    a.tag = h.ty → b.tag = h.ty →
    let gives := fun (x : Instr) (lat : Nat) (v : Nat → Int) => ∃ row : Row, exec x s = .next (s.gives lat h.dst row s.rnd)
      ∧ row.plain h.ty (a.poison || b.poison) ∧ ∀ e, e < 1024 / w → (row.code e : Int) = v e % 2 ^ w
    let gives1 := fun (x : Instr) (v : Nat → Int) => ∃ row : Row, exec x s = .next (s.gives 2 h.dst row s.rnd)
      ∧ row.plain h.ty a.poison ∧ ∀ e, e < 1024 / w → (row.code e : Int) = v e % 2 ^ w
    let x := a.intAt
    let y := b.intAt
    let k := fun e => b.code e % 256
    gives (.vadd h) 2 (fun e => x e + y e) ∧ gives (.vsub h) 2 (fun e => x e - y e) ∧ gives (.vmul h) 4 (fun e => x e * y e)
    ∧ gives (.vmin h) 2 (fun e => min (x e) (y e)) ∧ gives (.vmax h) 2 (fun e => max (x e) (y e))
    ∧ gives (.vaddsat h) 2 (fun e => max lo (min hi (x e + y e))) ∧ gives (.vsubsat h) 2 (fun e => max lo (min hi (x e - y e)))
    ∧ gives (.vclamp h 0) 2 (fun e => min (max (x e) 0) (y e)) ∧ gives (.vclamp h 1) 2 (fun e => min (max (x e) (-(y e))) (y e))
    ∧ gives (.vshl h) 2 (fun e => x e * 2 ^ k e) ∧ gives (.vshr h) 2 (fun e => (a.code e : Int) / 2 ^ k e)
    ∧ gives (.vsar h) 2 (fun e => x e / 2 ^ k e)
    ∧ gives (.vrshr h) 2 (fun e => if k e = 0 then x e else (x e + 2 ^ (k e - 1)) / 2 ^ k e)
    ∧ gives1 (.vabs h) (fun e => ((x e).natAbs : Int)) ∧ gives1 (.vneg h) (fun e => -(x e))
    ∧ gives1 (.vnot h) (fun e => 2 ^ w - 1 - a.code e)

/-- R174, R175, R176, R177: bitwise entries on element bits of every exact plain format; the mask that `vcmp` gives of integers; `vsel` by a UINT8 mask;
`vmac` of one group into an INT32 row. -/
def Obligations.BitsMasksAndMac : Prop :=
  ∀ (s : State) (h : Ent) (i j m : BitVec 4), onFiles h i j →
    let a := s.ofRow i.toNat
    let b := s.ofRow j.toNat
    let k := s.ofRow m.toNat
    let w := fmtBits h.ty
    let n := 1024 / w
    a.tag = h.ty → b.tag = h.ty →
    let gives := fun (x : Instr) (lat : Nat) (ty : Fmt) (p : Bool) (v : Nat → Int) =>
      ∃ row : Row, exec x s = .next (s.gives lat h.dst row s.rnd) ∧ row.plain ty p ∧ ∀ e, e < 1024 / fmtBits ty → (row.code e : Int) = v e
    let p := a.poison || b.poison
    (h.ty.code ≤ 8 →
      gives (.vand h) 2 h.ty p (fun e => (a.code e &&& b.code e : Nat)) ∧ gives (.vor h) 2 h.ty p (fun e => (a.code e ||| b.code e : Nat))
      ∧ gives (.vxor h) 2 h.ty p (fun e => (a.code e ^^^ b.code e : Nat)))
    ∧ (fmtInt h.ty = true →
      (let mask := fun (c : Int → Int → Bool) (e : Nat) => if e < n && c (a.intAt e) (b.intAt e) then (255 : Int) else 0
       gives (.vcmp h 0) 2 .ui8 p (mask (fun x y => x == y)) ∧ gives (.vcmp h 1) 2 .ui8 p (mask (fun x y => x != y))
       ∧ gives (.vcmp h 2) 2 .ui8 p (mask (fun x y => decide (x < y))) ∧ gives (.vcmp h 3) 2 .ui8 p (mask (fun x y => decide (x ≤ y)))
       ∧ gives (.vcmp h 4) 2 .ui8 p (mask (fun x y => decide (y < x))) ∧ gives (.vcmp h 5) 2 .ui8 p (mask (fun x y => decide (y ≤ x))))
      ∧ (k.tag = .ui8 →
        gives (.vsel h m 0) 2 h.ty (p || k.poison) (fun e => if k.code e = 0 ∨ k.code e = 128 then (b.code e : Int) else a.code e)
        ∧ gives (.vsel h m 1) 2 h.ty (p || k.poison) (fun e => if k.code e = 0 then (b.code e : Int) else a.code e)))
    ∧ (h.ty = .i8 → h.dst = .ofr m → k.tag = .i32 → ∀ q : BitVec 2,
      gives (.vmac h q 0) 4 .i32 (p || k.poison)
        (fun e => (k.intAt e + a.intAt (32 * q.toNat + e) * b.intAt (32 * q.toNat + e)) % 2 ^ 32)
      ∧ gives (.vmac h q 1) 4 .i32 p (fun e => (a.intAt (32 * q.toNat + e) * b.intAt (32 * q.toNat + e)) % 2 ^ 32))

/-- R181, R182: the permutations of PX give element bits of their sources unchanged: `perm` by index bytes, `shuf` by its five patterns, `slide` over the
two rows end to end, `bcast` of one element, `xpose` of the two rows seen as 2^LR rows. -/
def Obligations.Permutations : Prop :=
  ∀ (s : State) (h : Ent) (i j : BitVec 4), onFiles h i j → h.ty.code ≤ 8 →
    let a := s.ofRow i.toNat
    let b := s.ofRow j.toNat
    let n := 1024 / fmtBits h.ty
    let ab := fun e => if e < n then a.code e else b.code (e - n)
    a.tag = h.ty →
    let gives := fun (x : Instr) (p : Bool) (v : Nat → Nat) => ∃ row : Row, exec x s = .next (s.gives 3 h.dst row s.rnd)
      ∧ row.plain h.ty p ∧ ∀ e, e < n → row.code e = v e
    let p := a.poison || b.poison
    (b.tag = .ui8 → gives (.perm h) p (fun e => a.code (b.code e % n)))
    ∧ (∀ k : BitVec 8, k.toNat < n → gives (.bcast h k) a.poison (fun _ => a.code k.toNat))
    ∧ (b.tag = h.ty →
      gives (.shuf h 0) p (fun e => if e % 2 = 0 then a.code (e / 2) else b.code (e / 2))
      ∧ gives (.shuf h 1) p (fun e => if e % 2 = 0 then a.code (n / 2 + e / 2) else b.code (n / 2 + e / 2))
      ∧ gives (.shuf h 2) p (fun e => ab (2 * e)) ∧ gives (.shuf h 3) p (fun e => ab (2 * e + 1))
      ∧ gives (.shuf h 4) p (fun e => a.code (n - 1 - e))
      ∧ (∀ k : BitVec 9, k.toNat ≤ n → gives (.slide h k) p (fun e => ab (k.toNat + e)))
      ∧ (∀ (lr : BitVec 4) (u : BitVec 1) (r c : Nat), r = 2 ^ lr.toNat → r * c = 2 * n →
          gives (.xpose h lr u) p (fun e => ab ((u.toNat * n + e) % r * c + (u.toNat * n + e) / r))))

/-- R162, R187, R189: the integer reductions of an operand-file row, SB NONE: `rsum` into INT32 is the sum of all elements modulo 2^32, `rmax`, `rmin` and
`argmax` name the extreme element, the lowest of equal ones, each in the places the rule gives. -/
def Sys2Proof.Claims.IntegerReductions : Prop :=
  ∀ (s : State) (h : Ent) (i : BitVec 4), onFile h i →
    let a := s.ofRow i.toNat
    let x := a.intAt
    let gives := fun (z : Instr) (ty : Fmt) (v : Nat → Int) =>
      ∃ row : Row, exec z s = .next (s.gives 6 h.dst row s.rnd) ∧ row.plain ty a.poison ∧ ∀ e, e < 1024 / fmtBits ty → (row.code e : Int) = v e % 2 ^ fmtBits ty
    let total := ((List.range (1024 / fmtBits a.tag)).map x).sum
    (h.ty = .i32 → fmtInt a.tag = true →
      gives (.rsum h 0 0) .i32 (fun e => if e = 0 then total else 0) ∧ gives (.rsum h 1 0) .i32 (fun _ => total))
    ∧ (fmtInt h.ty = true → a.tag = h.ty →
      (∃ e0, e0 < 1024 / fmtBits h.ty ∧ (∀ e, e < 1024 / fmtBits h.ty → x e ≤ x e0) ∧ (∀ e, e < e0 → x e < x e0)
        ∧ gives (.argmax h) .i32 (fun e => if e = 0 then e0 else 0)
        ∧ gives (.rmax h 0) h.ty (fun e => if e = 0 then x e0 else 0)
        ∧ gives (.rmax h 1) h.ty (fun _ => x e0))
      ∧ (∃ e1, e1 < 1024 / fmtBits h.ty ∧ (∀ e, e < 1024 / fmtBits h.ty → x e1 ≤ x e)
        ∧ gives (.rmin h 0) h.ty (fun e => if e = 0 then x e1 else 0)
        ∧ gives (.rmin h 1) h.ty (fun _ => x e1)))

/-- R189, R192: of two operand-file rows `scan` gives the running sums modulo 2^32 from the last element of b, and `cmpct` packs the elements that its mask
selects. -/
def Sys2Proof.Claims.ScansAndCompactions : Prop :=
  ∀ (s : State) (h : Ent) (i j : BitVec 4), onFiles h i j →
    let a := s.ofRow i.toNat
    let b := s.ofRow j.toNat
    let gives := fun (z : Instr) (lat : Nat) (ty : Fmt) (v : Nat → Int) => ∃ row : Row, exec z s = .next (s.gives lat h.dst row s.rnd)
      ∧ row.plain ty (a.poison || b.poison) ∧ ∀ e, e < 1024 / fmtBits ty → (row.code e : Int) = v e % 2 ^ fmtBits ty
    (h.ty = .i32 → fmtInt a.tag = true → b.tag = .i32 →
      gives (.scan h 0) 6 .i32 (fun e => b.intAt 31 + ((List.range (e + 1)).map a.intAt).sum)
      ∧ gives (.scan h 1) 6 .i32 (fun e => b.intAt 31 + ((List.range e).map a.intAt).sum))
    ∧ (h.ty.code ≤ 8 → a.tag = h.ty → b.tag = .ui8 →
      let kept := fun (amb : Bool) => (List.range (1024 / fmtBits h.ty)).filter (fun e => b.code e != 0 && (b.code e != 128 || amb))
      gives (.cmpct h 0) 3 h.ty (fun e => ((kept false)[e]?.map a.code).getD 0)
      ∧ gives (.cmpct h 1) 3 h.ty (fun e => ((kept true)[e]?.map a.code).getD 0))

/-- R162, R174, R181: entries with one operand-file row and SB NONE, of the formats of exact elements: `vabs`, `vneg` and `vnot` of integers, `vmov`, `bcast`
of one element and `shuf` REV. -/
def Sys2Proof.Claims.UnaryEntries : Prop :=
  ∀ (s : State) (h : Ent) (i : BitVec 4), onFile h i → h.ty.code ≤ 8 →
    let a := s.ofRow i.toNat
    let w := fmtBits h.ty
    let n := 1024 / w
    a.tag = h.ty →
    let gives := fun (x : Instr) (lat : Nat) (v : Nat → Int) => ∃ row : Row, exec x s = .next (s.gives lat h.dst row s.rnd)
      ∧ row.plain h.ty a.poison ∧ ∀ e, e < n → (row.code e : Int) = v e % 2 ^ w
    (fmtInt h.ty = true → gives (.vabs h) 2 (fun e => ((a.intAt e).natAbs : Int)) ∧ gives (.vneg h) 2 (fun e => -(a.intAt e)))
    ∧ gives (.vnot h) 2 (fun e => 2 ^ w - 1 - a.code e)
    ∧ exec (.vmov h) s = .next (s.gives 2 h.dst a s.rnd)
    ∧ (∀ k : BitVec 8, k.toNat < n → gives (.bcast h k) 3 (fun _ => a.code k.toNat))
    ∧ gives (.shuf h 4) 3 (fun e => a.code (n - 1 - e))

/-- R64, R162, R174, R179, R180: FP32 facts that rest on no rounding, of an operand-file row with SB NONE: `vneg` and `vabs` of a number change only its sign bit, a NaN becomes the canonical NaN; `vmov`
passes a row whole, with its own sideband and poison; `vaccept` gives a BF32 row's elements bit for bit as an exact row; `sqrt`, `rcp`
and `cos` of +0. -/
def Sys2Proof.Claims.FloatExactFacts : Prop :=
  ∀ (s : State) (h : Ent) (i : BitVec 4), onFile h i → h.ty = .f32 →
    let a := s.ofRow i.toNat
    let nan := fun (c : Nat) => c / 2 ^ 23 % 256 = 255 ∧ c % 2 ^ 23 ≠ 0
    let gives := fun (x : Instr) (lat : Nat) (v : Nat → Nat) => ∃ row : Row, exec x s = .next (s.gives lat h.dst row s.rnd)
      ∧ row.plain .f32 a.poison ∧ ∀ e, e < 32 → row.code e = v e
    (a.tag = .f32 → s.rnd.mode ≠ .sr →
      gives (.vneg h) 2 (fun e => if nan (a.code e) then 0x7FC00000 else (a.code e + 2 ^ 31) % 2 ^ 32)
      ∧ gives (.vabs h) 2 (fun e => if nan (a.code e) then 0x7FC00000 else a.code e % 2 ^ 31)
      ∧ exec (.vmov h) s = .next (s.gives 2 h.dst a s.rnd))
    ∧ (a.tag = .bf32 → gives (.vaccept h) 2 (fun e => a.data.toNat / 2 ^ (32 * e) % 2 ^ 32))
    ∧ (a = Row.zero .f32 →
      gives (.sqrt h) 8 (fun _ => 0) ∧ gives (.rcp h) 8 (fun _ => 0x7F800000) ∧ gives (.cos h) 8 (fun _ => 0x3F800000))

/-- Reductions, scans and compactions, and the entries whose one source is a row (R64, R162, R174, R179 to R181, R187, R189, R192). -/
def Obligations.ReductionsAndUnary : Prop :=
  Sys2Proof.Claims.IntegerReductions ∧ Sys2Proof.Claims.ScansAndCompactions ∧ Sys2Proof.Claims.UnaryEntries ∧ Sys2Proof.Claims.FloatExactFacts

/-- R163, R168 to R170, R139, R140: what else lands at the end of a crew cycle. A bank read puts the array's row on its lane (R159); a bank write changes its row
alone: whole, within the elements or with the bytes that it selects, where a write that is not whole keeps the old poison; `setof` writes its
operand-file entry and no LL; a flag register takes its value; a station's result goes to its lane and to LL, or to LL alone, unless a result of a
later entry stands there already. -/
def Sys2Proof.Claims.ScheduledLandings : Prop :=
  ∀ (s : State) (o : Origin) (d : Nat), s.fcore.faulted = none →
    let k := s.fcore
    let land := fun (e : Eff) => landEff ⟨d, o, e⟩ s
    let stn := fun (x : Core) (u : Nat) => SMap.get ({} : Station) x.stns u
    (∀ (bank lane n : Nat) (f : Fmt), land (.bankRead bank lane n f) = putLane bank lane { SMap.get (Row.zero f) (k.bank bank).rows n with tag := f } s)
    ∧ (∀ (bank n : Nat) (w : Prep), bank < 8 → k.uses.count (4 * bank + 2) = 0 →
      let t := land (.bankWrite bank n w)
      let old := (k.bank bank).row n w.fmt
      let new := (t.fcore.bank bank).row n w.fmt
      (∀ m, m ≠ n → ∀ f, (t.fcore.bank bank).row m f = (k.bank bank).row m f) ∧ (∀ b, b ≠ bank → t.fcore.bank b = k.bank b)
      ∧ onlyCore s.focus.core s t ∧ { t.fcore with banks := k.banks, uses := k.uses } = k
      ∧ (w.cnt = fmtElems w.fmt → w.mask = none → new = { w.new with tag := w.fmt })
      ∧ (w.fmt.code ≤ 8 → w.new.tag = w.fmt →
        (w.mask = none → w.cnt < fmtElems w.fmt → w.at0 + w.cnt ≤ fmtElems w.fmt →
          new.poison = (old.poison || w.new.poison)
          ∧ ∀ e, e < fmtElems w.fmt → new.code e = if w.at0 ≤ e ∧ e < w.at0 + w.cnt then w.new.code e else old.code e)
        ∧ (∀ g, w.mask = some g → w.cnt = fmtElems w.fmt →
          new.poison = (if g = 0 then old.poison else if g = 0xFFFF then w.new.poison else old.poison || w.new.poison)
          ∧ ∀ i, i < 128 → new.byte i = if g.getLsbD (i / 8) then w.new.byte i else old.byte i)))
    ∧ (∀ (fw : Bool) (u i : Nat) (row : Row),
      let t := land (.setOf fw u i row)
      (∀ n, SMap.get (Row.zero .f32) (stn t.fcore u).ofs n = if n = i then row else SMap.get (Row.zero .f32) (stn k u).ofs n)
      ∧ { stn t.fcore u with ofs := (stn k u).ofs } = stn k u ∧ (∀ v, v ≠ u → stn t.fcore v = stn k v)
      ∧ onlyCore s.focus.core s t ∧ { t.fcore with stns := k.stns } = k)
    ∧ (∀ (f : Nat) (v : Word),
      let t := land (.flag f v)
      (∀ n, t.fcore.flag n = if n = f then v else k.flag n) ∧ onlyCore s.focus.core s t ∧ { t.fcore with flags := k.flags } = k)
    ∧ ∀ (u issue : Nat) (row : Row), 8 ≤ u → u < 16 →
      let held := fun (t : State) => ({ stn t.fcore u with ll := (stn k u).ll, llAt := (stn k u).llAt } = stn k u)
        ∧ (stn t.fcore u).ll = (if (stn k u).llAt.1 < s.now0 ∨ ((stn k u).llAt.1 = s.now0 ∧ (stn k u).llAt.2 ≤ issue) then row else (stn k u).ll)
        ∧ (∀ v, v ≠ u → stn t.fcore v = stn k v) ∧ onlyCore s.focus.core s t
      (∀ dst, dst = .ll ∨ dst = .none → let t := land (.result u dst row issue)
        held t ∧ { t.fcore with stns := k.stns } = k)
      ∧ ∀ l : BitVec 4, k.uses.count (4 * u + 1) = 0 →
        (∀ r ∈ k.lanes, ¬ (r.lane = l.toNat ∧ ((r.at0 = s.now0 ∧ r.pos = 2 * (u - 8) + 1) ∨ r.presentAt l.toNat (2 * (u - 8) + 1) s.now0 14 = true))) →
        let t := land (.result u (.lane l) row issue)
        held t ∧ t.fcore.lanes = k.lanes ++ [⟨l.toNat, 2 * (u - 8) + 1, s.now0, row⟩]
          ∧ { t.fcore with stns := k.stns, lanes := k.lanes, uses := k.uses } = k

/-- R226, R229 to R231, R234, R235: the values of kiln entries. Each element of a row of `xmv` that is not void lies within the row's bound of the exact result, in units of 2^SH,
and within −32,767 to +32,767; the bound is the row's, or +∞ where the row saturated. `xbound` gives the eight row bounds and the sum of the
magnitudes, and a row's bound is not below β · A / S + 4 of any of its columns. `xstat` gives the rest of the STATUS elements, the values of the
reference columns and the REF row. -/
def Sys2Proof.Claims.ConvertedValues : Prop :=
  ∀ (s : State) (h : Ent) (arr sh i : BitVec 4),
    let k := s.kiln s.focus.core arr.toNat
    let input := fun (m : Nat) => SMap.get (Row.zero .f32) (SMap.get ({} : Station) s.fcore.stns s.focus.stn).ofs (i.toNat + m)
    let x := fun (e : Nat) => (input (e / 128)).intAt (e % 128)
    let y := fun (j : Nat) => ((List.range 512).map (fun e => k.weight e j * x e)).sum
    let sum := ((List.range 512).map (fun e => (x e).natAbs)).sum
    let gives := fun (z : Instr) (lat : Nat) (good : Row → Prop) => ∃ row, good row ∧
      exec z s = .next (s.later (s.now0 + lat) (.result s.focus.stn h.dst row s.now0))
    hasKiln arr.toNat s = true →
    (k.st = .fired → SMap.get 0 s.fcore.xbWin arr.toNat ≤ s.now0 → h.sa = .ofr i → (∀ m, m < 4 → (input m).tag = .i8) →
      ∃ t, ∃ due : List Pend, ∃ rows : Nat → Row, exec (.xmv h arr sh) s = .next t
        ∧ t.fcore.pend = s.fcore.pend ++ due ++ (List.range 8).map (fun r => Pend.mk
            (s.now0 + (336 + r)) s.focus.org (.result s.focus.stn (match h.dst with | .ofr d => .ofr (d + .ofNat 4 r) | o => o) (rows r) s.now0))
        ∧ (due = [] → ∀ r, r < 8 → ∃ b, (rows r).side.toNat % 2 ^ 32 = b ∧ (b = 0x7F800000 ∨ b = k.rowBound r sum sh.toNat)
          ∧ ∀ e, e < 64 → -32767 ≤ (rows r).intAt e ∧ (rows r).intAt e ≤ 32767
            ∧ ∀ neg m ex, fp32.decode b = .fin neg m ex → (Val.ratio m ex).2 ≤ (Val.ratio m ex).1 →
              ((rows r).intAt e * 2 ^ sh.toNat - y (64 * r + e)).natAbs * (Val.ratio m ex).2 ≤ (Val.ratio m ex).1 * 2 ^ sh.toNat))
    ∧ (k.st ≠ .unfired → k.st ≠ .firing → h.sa = .ofr i → (∀ m, m < 4 → (input m).tag = .i8) →
      gives (.xbound h arr sh) 6 (fun row => (∀ r, r < 8 → row.code r = k.rowBound r sum sh.toNat) ∧ row.code 8 = f32rne (Val.ofInt sum)))
    ∧ (∀ r j m ex m' ex' neg, r < 8 → j < 64 →
      (∀ n, n < 64 → ∃ m ex, k.betaVal (64 * r + n) = .fin false m ex) → k.betaVal (64 * r + j) = .fin false m ex →
      fp32.decode (k.rowBound r sum sh.toNat) = .fin neg m' ex' →
      let n := (Val.ratio m ex).1
      let d := (Val.ratio m ex).2
      (n * sum + 4 * d * 2 ^ sh.toNat) * (Val.ratio m' ex').2 ≤ (Val.ratio m' ex').1 * (d * 2 ^ sh.toNat))
    ∧ gives (.xstat h arr 0 0) 4 (fun row =>
      row.code 2 = (if k.st = .unfired ∨ k.st = .firing then 0 else min ((s.now - k.firedAt) / 10 ^ 6) (2 ^ 31 - 1))
      ∧ row.code 3 = min ((s.now - k.calAt) / 10 ^ 6) (2 ^ 31 - 1) ∧ (row.code 4 : Int) = k.tCal % 2 ^ 32 ∧ (row.code 5 : Int) = k.temp % 2 ^ 32
      ∧ row.code 7 = min k.warns (2 ^ 31 - 1) ∧ row.code 9 = min k.delta (2 ^ 31 - 1) ∧ ∀ e, 11 ≤ e → e < 32 → row.code e = 0)
    ∧ gives (.xstat h arr 1 16) 4 (fun row => row.tag = .f32 ∧ ∀ e, e < 32 → row.code e = if e < 8 then (SMap.get 0 k.beta (512 + e)).toNat else 0)
    ∧ gives (.xstat h arr 2 8) 4 (fun row => row.tag = .i16 ∧ ∀ e, e < 64 → row.code e = if e < 8 then (SMap.get 0 k.gain (512 + e)).toNat else 0)
    ∧ gives (.xstat h arr 3 8) 4 (fun row => row.tag = .i16 ∧ ∀ e, e < 64 → row.code e = if e < 8 then (SMap.get 0 k.offset (512 + e)).toNat else 0)
    ∧ gives (.xstat h arr 4 0) 4 (fun row => row.tag = .i32 ∧ row.poison = false
      ∧ (∀ e, e < 8 → (row.code e : Int) = k.r.getD e 0 % 2 ^ 32 ∧ (row.code (8 + e) : Int) = k.e.getD e 0 % 2 ^ 32)
      ∧ row.code 16 = k.sh % 2 ^ 32 ∧ row.code 17 = k.sumA % 2 ^ 32 ∧ row.code 18 = min k.refDelta (2 ^ 31 - 1) ∧ ∀ e, 19 ≤ e → e < 32 → row.code e = 0)

/-- What lands at the end of a crew cycle beside matrix updates, and the values that kiln entries give (R139, R140, R163, R168 to R170, R226, R229 to R235). -/
def Obligations.LandingsAndReadings : Prop :=
  Sys2Proof.Claims.ScheduledLandings ∧ Sys2Proof.Claims.ConvertedValues

/-- R140, R192: `vflag` of a UINT8 row that is not poisoned counts the selected bytes among its first COUNT and schedules the flag register with the
count, ANY, ALL and NONE for the end of c + 5; a poisoned row raises POISON VFLAG. -/
def Obligations.FlagsOfMasks : Prop :=
  ∀ (s : State) (h : Ent) (i : BitVec 4) (flag : BitVec 4) (count : BitVec 8) (amb : BitVec 1),
    h.sa = .ofr i → h.sb = .none →
    let a := s.ofRow i.toNat
    let n := count.toNat + 1
    let hits := ((List.range n).filter (fun e => a.code e != 0 && (a.code e != 128 || amb == 1))).length
    a.tag = .ui8 → n ≤ 128 →
    (a.poison = false → exec (.vflag h flag count amb) s = .next (s.later (s.now0 + 5) (.flag flag.toNat
      (.ofNat 64 (hits + (if hits = 0 then 0 else 2 ^ 16) + (if hits = n then 2 ^ 17 else 0) + (if hits = 0 then 2 ^ 18 else 0))))))
    ∧ (a.poison = true → exec (.vflag h flag count amb) s = .next (raise (poisonFault 1) (16 + i.toNat) 0 s))

/-! ## The kiln tier (R220 to R237) -/

/-- R228, R230 to R235: the kiln entries on a reserved array that has been fired, outside its use window, with INT8 inputs. `xmv` and `xref` convert and
give their rows 336 cycles later, 48 for `xrdw`, 6 for `xbound`, 4 for `xstat`; the using entries open their window. A conversion that the
drift rule voids (R227) also schedules the array's DUE. -/
def Sys2Proof.Claims.KilnEntries : Prop :=
  ∀ (s : State) (h : Ent) (arr sh i : BitVec 4),
    let c := s.focus.core
    let a := arr.toNat
    let k := s.kiln c a
    let input := fun (m : Nat) => SMap.get (Row.zero .f32) (SMap.get ({} : Station) s.fcore.stns s.focus.stn).ofs (i.toNat + m)
    let poisoned := (input 0).poison || (input 1).poison || (input 2).poison || (input 3).poison
    let opened := fun (w : Nat) => s.updF (fun x => { x with xbWin := x.xbWin.put a (s.now0 + w), xbWall := x.xbWall.put a (s.now0 + x.holdCycles.toNat + w) })
    let result := fun (lat : Nat) (dst : Opnd) (row : Row) => (⟨s.now0 + lat, s.focus.org, .result s.focus.stn dst row s.now0⟩ : Pend)
    let gives := fun (z : Instr) (lat : Nat) (good : Row → Prop) => ∃ row, good row ∧
      exec z s = .next (s.later (s.now0 + lat) (.result s.focus.stn h.dst row s.now0))
    let voids := fun (due : List Pend) => due = [] ∨ due = [⟨s.now0 + 319, s.focus.org, .kilnDue a⟩]
    hasKiln a s = true →
    (k.st = .fired → SMap.get 0 s.fcore.xbWin a ≤ s.now0 →
      (h.sa = .ofr i → (∀ m, m < 4 → (input m).tag = .i8) →
        ∃ t due, ∃ rows : Nat → Row, exec (.xmv h arr sh) s = .next t ∧ voids due
          ∧ t.fcore.pend = s.fcore.pend ++ due ++ (List.range 8).map (fun r =>
              result (336 + r) (match h.dst with | .ofr d => .ofr (d + .ofNat 4 r) | o => o) (rows r))
          ∧ (∀ r, r < 8 → (rows r).tag = .bi16 ∧ (rows r).side.toNat / 2 ^ 32 = (127 + sh.toNat) * 2 ^ 23
              ∧ (rows r).poison = (poisoned || k.wpoison || !due.isEmpty))
          ∧ SMap.get 0 t.fcore.xbWin a = s.now0 + 320 ∧ (t.kiln c a).mults = k.mults + 1
          ∧ (t.kiln c a).cells = k.cells ∧ (t.kiln c a).beta = k.beta ∧ (t.kiln c a).sh = sh.toNat)
      ∧ (∃ t due row, exec (.xref h arr sh) s = .next t ∧ voids due ∧ t.fcore.pend = s.fcore.pend ++ due ++ [result 336 h.dst row]
          ∧ row.tag = .i32 ∧ row.poison = (k.wpoison || !due.isEmpty) ∧ row.code 16 = sh.toNat ∧ row.code 17 = 65024
          ∧ (t.kiln c a).sumA = 65024 ∧ (t.kiln c a).cells = k.cells)
      ∧ (∀ (row : BitVec 9) (q : BitVec 3), q.toNat ≤ 4 → ∃ r : Row,
          exec (.xrdw h arr row q) s = .next ((opened 40).later (s.now0 + 48) (.result s.focus.stn h.dst r s.now0))
          ∧ r.tag = .i8 ∧ r.poison = k.wpoison ∧ ∀ e, e < 128 → r.intAt e =
              (if q = 4 then (if 8 ≤ e then 0 else if row.toNat / 2 ^ e % 2 = 1 then 7 else -7)
               else k.weight row.toNat (128 * q.toNat + e))))
    ∧ (k.st ≠ .unfired → k.st ≠ .firing → h.sa = .ofr i → (∀ m, m < 4 → (input m).tag = .i8) →
      gives (.xbound h arr sh) 6 (fun row => row.tag = .f32 ∧ row.poison = poisoned ∧ row.code 9 = (127 + sh.toNat) * 2 ^ 23
        ∧ (∀ e, 10 ≤ e → e < 32 → row.code e = 0)))
    ∧ gives (.xstat h arr 0 0) 4 (fun row => row.tag = .i32 ∧ row.poison = false ∧ row.code 1 = min k.pcount (2 ^ 31 - 1)
        ∧ row.code 6 = min k.mults (2 ^ 31 - 1) ∧ row.code 8 = min k.voids (2 ^ 31 - 1) ∧ row.code 10 = (if k.wpoison then 1 else 0)
        ∧ row.code 0 = (match k.st with | .unfired => 0 | .firing => 1 | .fired => 2 | .due => 3 | .recal => 4))
    ∧ (∀ ix : BitVec 5, ix.toNat < 16 → gives (.xstat h arr 1 ix) 4 (fun row => row.tag = .f32
        ∧ ∀ e, e < 32 → row.code e = (SMap.get 0 k.beta (32 * ix.toNat + e)).toNat))
    ∧ (∀ ix : BitVec 5, ix.toNat < 8 →
      gives (.xstat h arr 2 ix) 4 (fun row => row.tag = .i16 ∧ ∀ e, e < 64 → row.code e = (SMap.get 0 k.gain (64 * ix.toNat + e)).toNat)
      ∧ gives (.xstat h arr 3 ix) 4 (fun row => row.tag = .i16 ∧ ∀ e, e < 64 → row.code e = (SMap.get 0 k.offset (64 * ix.toNat + e)).toNat))

/-- R228, R232: deposits and firings. A deposit of weights from −7 to +7 schedules its quarter of the image for the end of c + 1; FIRE of an array that is
not firing, whose window is over and whose count of firings has room, starts the firing at c + 1. How the two land: the quarter and its
poison bit; PCOUNT, WPOISON and FIRING. -/
def Sys2Proof.Claims.DepositsAndFirings : Prop :=
  ∀ (s : State) (h : Ent) (arr i : BitVec 4) (row : BitVec 9) (q : BitVec 3) (hs : BitVec 5),
    let c := s.focus.core
    let a := arr.toNat
    let k := s.kiln c a
    let r := s.ofRow i.toNat
    hasKiln a s = true →
    (h.sa = .ofr i → r.tag = .i8 → k.st ≠ .firing →
      ((∀ e, e < 128 → -7 ≤ r.intAt e ∧ r.intAt e ≤ 7) →
        exec (.xprog_deposit h arr row q) s = .next (s.later (s.now0 + 1) (.deposit a row.toNat q.toNat r)))
      ∧ ((∃ e, e < 128 ∧ ¬ (-7 ≤ r.intAt e ∧ r.intAt e ≤ 7)) →
        exec (.xprog_deposit h arr row q) s = .next (raise (kilnFault 2) (16 + i.toNat) a s)))
    ∧ (k.st = .firing → exec (.xprog_deposit h arr row q) s = .next (raise (kilnFault 3) 0 a s))
    ∧ (hasHsem hs.toNat s = true → k.st ≠ .firing → SMap.get 0 s.fcore.xbWin a ≤ s.now0 →
      (k.pcount < 10 ^ 6 → exec (.xprog_fire h arr hs) s = .next (s.later s.now0 (.fire a hs.toNat)))
      ∧ (10 ^ 6 ≤ k.pcount → exec (.xprog_fire h arr hs) s = .next (raise (kilnFault 4) 0 a s)))
    ∧ (∀ (o : Origin) (d n : Nat), n < 4 →
      let t := landEff ⟨d, o, .deposit a row.toNat n r⟩ s
      let fired := landEff ⟨d, o, .fire a hs.toNat⟩ s
      SMap.get false (t.kiln c a).imgPoison (4 * row.toNat + n) = r.poison ∧ (t.kiln c a).cells = k.cells
      ∧ (∀ m, m ≠ 4 * row.toNat + n → SMap.get 0 (t.kiln c a).image m = SMap.get 0 k.image m)
      ∧ (∀ e, e < 128 → (SMap.get 0 (t.kiln c a).image (4 * row.toNat + n)).toNat / 2 ^ (4 * e) % 16 = r.code e % 16)
      ∧ (fired.kiln c a).st = .firing ∧ (fired.kiln c a).pcount = k.pcount + 1
      ∧ (fired.kiln c a).wpoison = k.imgPoison.any (·.2) ∧ (fired.kiln c a).image = k.image)

/-- R226: a reading of a column lies within the row's bound of the exact result, for every bound of at least 1 output LSB. -/
def Sys2Proof.Claims.ReadingsWithinBound : Prop :=
  ∀ (y : Int) (sh bound v m : Nat) (neg : Bool) (e : Int), fp32.decode bound = .fin neg m e →
    let n := (Val.ratio m e).1
    let d := (Val.ratio m e).2
    d ≤ n → (reading y sh bound v * 2 ^ sh - y).natAbs * d ≤ n * 2 ^ sh

/-- Reads and readings of kiln arrays (R226 to R230, R235). -/
def Obligations.KilnReadings : Prop :=
  Sys2Proof.Claims.KilnEntries ∧ Sys2Proof.Claims.ReadingsWithinBound

/-- R228: where a using entry does not run, which the state of the array decides before its inputs are looked at: KILN UNFIRED on an array UNFIRED or FIRING, KILN BUSY within the window, and a hold with cause KILN (3) where the
array is DUE or RECAL; `xbound` of an UNFIRED or FIRING array is KILN UNFIRED; an array outside the allotment is ALLOT_USE for all. -/
def Sys2Proof.Claims.KilnRefusals : Prop :=
  ∀ (s : State) (h : Ent) (arr sh : BitVec 4) (row : BitVec 9) (q : BitVec 3),
    let a := arr.toNat
    let k := s.kiln s.focus.core a
    let users := fun (r : State) => exec (.xmv h arr sh) s = .next r ∧ exec (.xref h arr sh) s = .next r ∧ exec (.xrdw h arr row q) s = .next r
    (hasKiln a s = true →
      (k.st = .unfired ∨ k.st = .firing → users (raise (kilnFault 0) 0 a s) ∧ exec (.xbound h arr sh) s = .next (raise (kilnFault 0) 0 a s))
      ∧ (k.st ≠ .unfired → k.st ≠ .firing → s.now0 < SMap.get 0 s.fcore.xbWin a → users (raise (kilnFault 1) 0 a s))
      ∧ (k.st = .due ∨ k.st = .recal → SMap.get 0 s.fcore.xbWin a ≤ s.now0 → users (askHold 3 s)))
    ∧ (hasKiln a s = false → users (raise allotUse 0 a s)
      ∧ exec (.xbound h arr sh) s = .next (raise allotUse 0 a s) ∧ exec (.xprog_deposit h arr row q) s = .next (raise allotUse 0 a s)
      ∧ (∀ sel ix, exec (.xstat h arr sel ix) s = .next (raise allotUse 0 a s)) ∧ ∀ hs, exec (.xprog_fire h arr hs) s = .next (raise allotUse 0 a s))

/-- Deposits, firings and refusals of kiln arrays (R228, R232). -/
def Obligations.KilnWrites : Prop :=
  Sys2Proof.Claims.DepositsAndFirings ∧ Sys2Proof.Claims.KilnRefusals

/-- R223, R224, R227, R232: the tier's own happenings. A recalibration is asked for, starts on an idle array and ends FIRED with coefficients of at most 2^−6
and clear counters, or UNFIRED; a firing ends with the cells equal to the image, or UNFIRED; a temperature more than 240 units from T_CAL
makes a FIRED array DUE and asks for a recalibration; a breach not repaired makes it DUE. -/
def Obligations.KilnHappenings : Prop :=
  ∀ (s : State) (core arr : Nat),
    let k := s.kiln core arr
    (∀ start : BitVec 16, ∃ t, exec (.kiln_recal core start) s = .next t ∧ { t with kilns := s.kilns } = s
      ∧ ∀ a, a < 16 → t.kiln core a = (if start.getLsbD a && ((s.kiln core a).st == .fired || (s.kiln core a).st == .due)
          then { s.kiln core a with wantCal := true } else s.kiln core a))
    ∧ (k.wantCal = true → k.st = .fired ∨ k.st = .due → s.still core = true ∨ SMap.get 0 (s.core core).xbWall arr ≤ s.clock core + (s.core core).holdCycles.toNat →
      exec (.recal_start core arr) s = .next (s.updKiln core arr (fun k => { k with st := .recal })))
    ∧ (k.st = .recal →
      (∃ t, exec (.recal_end core arr true) s = .next t ∧ (t.kiln core arr).st = .fired ∧ (t.kiln core arr).cells = k.cells
        ∧ (t.kiln core arr).tCal = k.temp ∧ (t.kiln core arr).mults = 0 ∧ (t.kiln core arr).warns = 0 ∧ (t.kiln core arr).voids = 0
        ∧ ∀ j, j < 520 → (SMap.get 0 (t.kiln core arr).beta j).toNat ≤ 0x3C800000)
      ∧ (∃ t, exec (.recal_end core arr false) s = .next t ∧ (t.kiln core arr).st = .unfired ∧ (t.kiln core arr).cells = k.cells))
    ∧ (k.st = .firing →
      (∃ t, exec (.firing_end core arr true) s = .next t ∧ (t.kiln core arr).st = .fired ∧ (t.kiln core arr).cells = k.image
        ∧ (t.kiln core arr).firing = none
        ∧ (∀ c h r w, k.firing = some (c, h, r) → s.crewOf c = some w → w.record = r →
            (t.core c).hsemPend = (s.core c).hsemPend ++ [⟨0, h, 1, none⟩]))
      ∧ (∃ t, exec (.firing_end core arr false) s = .next t ∧ (t.kiln core arr).st = .unfired ∧ (t.kiln core arr).firing = none))
    ∧ (∀ temp : Int,
      (k.st = .fired ∧ 240 < (temp - k.tCal).natAbs → ∃ t, exec (.kiln_temp core arr temp) s = .next t
        ∧ (t.kiln core arr).st = .due ∧ (t.kiln core arr).wantCal = true ∧ (t.kiln core arr).temp = temp)
      ∧ (¬ (k.st = .fired ∧ 240 < (temp - k.tCal).natAbs) →
        exec (.kiln_temp core arr temp) s = .next (s.updKiln core arr (fun k => { k with temp := temp }))))
    ∧ (k.breach = true → exec (.drift_due core arr) s = .next (s.updKiln core arr (fun k =>
        { k with breach := false, st := if k.st = .fired then .due else k.st })))

/-! ## The ferry port and the matrix feeder (R194 to R202) -/

/-- R195 to R198: the ferry port. `fsnd` appends a row that is not poisoned to an outbound queue with fewer than 128 rows; `frcv` takes the oldest row of
an inbound queue, and asks for a hold with cause LATE (1) where there is none; `fexp` notes an expectation, a fifth being EXP_FULL; `fqd` puts
its marker behind the rows; a row under way arrives in its queue, and the command that sent it has written it then (R350). -/
def Sys2Proof.Claims.FerryPort : Prop :=
  ∀ (s : State) (h : Ent) (q : BitVec 3) (i : BitVec 4) (count : BitVec 7) (w : BitVec 16) (hs : BitVec 5),
    let n := q.toNat
    let f := s.fcore.fr
    let r := s.ofRow i.toNat
    let outq := SMap.get [] f.oq n
    let inq := SMap.get [] f.iq n
    let fr := fun (g : Fr) => s.updF (fun k => { k with fr := g })
    (h.sa = .ofr i →
      (r.poison = false → (outq.filter OqItem.isRow).length < 128 →
        exec (.fsnd h q) s = .next (fr { f with oq := f.oq.put n (outq ++ [.row r]) }))
      ∧ (r.poison = true → exec (.fsnd h q) s = .next (raise (poisonFault 2) (16 + i.toNat) 0 s))
      ∧ (r.poison = false → 128 ≤ (outq.filter OqItem.isRow).length → exec (.fsnd h q) s = .next (raise (stnFault 1) (16 + i.toNat) 0 s)))
    ∧ (inq = [] → exec (.frcv h q) s = .next (askHold 1 s))
    ∧ (∀ r rs, inq = r :: rs → exec (.frcv h q) s = .next ((fr { f with iq := f.iq.put n rs, taken := f.taken.put n (SMap.get 0 f.taken n + 1) }).later
        (s.now0 + 1) (.result s.focus.stn h.dst r s.now0)))
    ∧ ((f.exps.filter (fun e => e.q == n)).length < 4 → exec (.fexp h q count w) s = .next (fr { f with exps := f.exps ++
        [⟨n, SMap.get 0 f.taken n + count.toNat + 1, s.now0 + max w.toNat 1⟩] }))
    ∧ (4 ≤ (f.exps.filter (fun e => e.q == n)).length → exec (.fexp h q count w) s = .next (raise (stnFault 2) 0 0 s))
    ∧ (hasHsem hs.toNat s = true → (∃ r rest, outq = .row r :: rest) →
        exec (.fqd h q hs) s = .next (fr { f with oq := f.oq.put n (outq ++ [.mark hs.toNat (s.now0 + 2)]) }))
    ∧ (hasHsem hs.toNat s = true → outq = [] → boundBusy s s.focus.core n = false → ∃ t, exec (.fqd h q hs) s = .next t
        ∧ t.fcore.hsemPend = s.fcore.hsemPend ++ [⟨s.now0 + 2, hs.toNat, 1, none⟩] ∧ SMap.get [] t.fcore.fr.oq n = [])
    ∧ (hasHsem hs.toNat s = false → exec (.fqd h q hs) s = .next (raise allotUse 0 hs.toNat s))
    ∧ (∀ core m r rs, SMap.get [] (s.core core).fr.fly m = r :: rs →
        let a := SMap.get 0 (s.core core).fr.arrived m + 1
        ∃ t, exec (.row_arrival core m) s = .next t
        ∧ SMap.get [] (t.core core).fr.fly m = rs ∧ SMap.get [] (t.core core).fr.iq m = SMap.get [] (s.core core).fr.iq m ++ [r]
        ∧ SMap.get 0 (t.core core).fr.arrived m = a
        ∧ (senderOf s core m a = none → onlyCore core s t ∧ (t.core core).fr.oq = (s.core core).fr.oq)
        ∧ ∀ id c, senderOf s core m a = some (id, c) → s.cmds.find id = some c →
            (t.cmds.find id).map (·.sent) = some (c.sent.filter (· != a))
            ∧ (c.ben = false → ∀ b, t.land.byte b = s.land.byte b))

/-- R197: when an expectation's cycle has come it retires if its rows have arrived, whatever other expectations there are; one whose rows are not there asks
for a hold with cause LATE and stays. -/
def Sys2Proof.Claims.ExpectationDeadlines : Prop :=
  ∀ (s : State) (core q : Nat),
    let f := (s.core core).fr
    let due := fun (x : Expect) => x.q = q ∧ x.deadline ≤ s.clock core
    let met := fun (x : Expect) => x.target ≤ SMap.get 0 f.arrived q
    ∃ t, exec (.fexp_deadline core q) s = .next t ∧ onlyCore core s t
      ∧ (∀ x, x ∈ (t.core core).fr.exps ↔ x ∈ f.exps ∧ ¬ (due x ∧ met x))
      ∧ ((t.core core).ask = if ∃ x ∈ f.exps, due x ∧ ¬ met x then some (match (s.core core).ask with | some a => min a 1 | none => 1)
          else (s.core core).ask)

/-- The FR station: rows sent, received and expected (R195 to R198). -/
def Obligations.FerryStation : Prop :=
  Sys2Proof.Claims.FerryPort ∧ Sys2Proof.Claims.ExpectationDeadlines

/-- R85, R194, R200 to R202: the matrix feeder, with any source it may name. A row goes to a reserved slot's row at the end of c + 1 (`mld`), or is the A row
of c + 1 (`mfd`), where the crew is not frozen; `mdr` and `msv` read an accumulator quarter or a slot row at the start of c + 1; `mrs` writes a raw row,
an accumulator quarter only from an FP32 or INT32 row. A slot or accumulator outside the allotment is ALLOT_USE, a bounded row TYPE BOUNDED_OP, and
in a frozen crew `mld` and `mfd` are MX FROZEN. -/
def Sys2Proof.Claims.MatrixFeeder : Prop :=
  ∀ (s : State) (h : Ent) (row : BitVec 7) (slot : BitVec 5) (acc q : BitVec 2),
    let still := s.frozen s.focus.core = false
    let reads := fun (raw fromAcc : Bool) (n k : Nat) => s.later s.now0 (.mfRead h.dst raw fromAcc n row.toNat k h.ty s.now0)
    (∀ a s1, readOpnd h.sa h.imm s = .ok (a, s1) →
      let r := a.toRow h.ty
      let bounded := raise (typeFault 0) h.sa.code 0 s1
      (fmtBounded r.tag = false →
        (still → exec (.mfd h) s = .next (s1.later s.now0 (.aRow r)))
        ∧ (still → hasSlot slot.toNat s = true → exec (.mld h row slot) s = .next (s1.later (s.now0 + 1) (.slotRow slot.toNat row.toNat r)))
        ∧ (hasSlot slot.toNat s = true → exec (.mrs h row slot acc q 0) s = .next (s1.later (s.now0 + 1) (.slotRaw slot.toNat row.toNat r)))
        ∧ (hasAcc acc.toNat s = true →
          ((r.tag = .f32 ∨ r.tag = .i32) → exec (.mrs h row slot acc q 1) s =
            .next (s1.later (s.now0 + 1) (.accRaw acc.toNat row.toNat q.toNat r)))
          ∧ (¬ (r.tag = .f32 ∨ r.tag = .i32) → exec (.mrs h row slot acc q 1) s = .next (raise (mxFault 0) h.sa.code acc.toNat s1))))
      ∧ (fmtBounded r.tag = true →
        (still → exec (.mfd h) s = .next bounded)
        ∧ (hasSlot slot.toNat s = true → (still → exec (.mld h row slot) s = .next bounded) ∧ exec (.mrs h row slot acc q 0) s = .next bounded)
        ∧ (hasAcc acc.toNat s = true → exec (.mrs h row slot acc q 1) s = .next bounded)))
    ∧ (hasAcc acc.toNat s = true →
      exec (.mdr h row q acc) s = .next (reads false true acc.toNat q.toNat)
      ∧ exec (.msv h row slot acc q 1) s = .next (reads true true acc.toNat q.toNat))
    ∧ (hasSlot slot.toNat s = true → exec (.msv h row slot acc q 0) s = .next (reads true false slot.toNat 0))
    ∧ (hasAcc acc.toNat s = false → exec (.mdr h row q acc) s = .next (raise allotUse 0 acc.toNat s)
      ∧ exec (.msv h row slot acc q 1) s = .next (raise allotUse 0 acc.toNat s)
      ∧ exec (.mrs h row slot acc q 1) s = .next (raise allotUse 0 acc.toNat s))
    ∧ (hasSlot slot.toNat s = false → (still → exec (.mld h row slot) s = .next (raise allotUse 0 slot.toNat s))
      ∧ exec (.msv h row slot acc q 0) s = .next (raise allotUse 0 slot.toNat s)
      ∧ exec (.mrs h row slot acc q 0) s = .next (raise allotUse 0 slot.toNat s))
    ∧ (s.frozen s.focus.core = true → exec (.mld h row slot) s = .next (raise (mxFault 5) 0 slot.toNat s)
      ∧ exec (.mfd h) s = .next (raise (mxFault 5) 0 0 s))

/-! ## The matrix engine (R199 to R218) -/

/-- R203 to R217: the matrix commands at their START. A command whose enabled wait does not hold asks for a hold with cause SEM (2) and does nothing; one whose
wait holds leaves the queue, lets the next command reach the head after the cycles its rule gives, and schedules its effect and its completion,
which signals where SEN says so. -/
def Sys2Proof.Claims.MatrixCommands : Prop :=
  ∀ (s : State) (h : MxHdr) (acc : BitVec 2) (dst src : BitVec 5) (row0 : BitVec 7) (mof : BitVec 4) (ty w : BitVec 1) (mask : BitVec 32) (tgt : BitVec 6),
    let sem := (s.fcore.h h.wsem.toNat).toNat
    let v := h.wval.toNat
    let holds := match h.wop.toNat with
      | 0 => decide (v ≤ sem)
      | 1 => decide (sem = v)
      | 2 => decide (sem ≠ v)
      | _ => decide (sem < v)
    let mx := s.fcore.mx
    let begun := fun (d : Nat) => s.updF (fun k => { k with mx := { k.mx with queue := k.mx.queue.tail, headAt := s.now0 + d } })
    let done := fun (d : Nat) (t : State) => t.later (s.now0 + d) (.mxDone (h.sen = 1) h.ssem.toNat h.sinc.toNat)
    let row := fun (n : BitVec 5) (i : Nat) => SMap.get (Row.zero .f32) (SMap.get ({} : Slot) mx.slots n.toNat).rows i
    let claimed := fun (n : Nat) => (SMap.get ({} : Slot) mx.slots n).claimed
    let named := fun (n : Nat) => n < 32 ∧ mask.getLsbD n = true
    (h.wen = 1 ∧ holds = false → ∀ i ∈ [Instr.mclr h acc ty, .mclaim h mask, .mrel h mask, .mscl h dst row0 mof w, .mtr h dst src, .mfence h,
        .mx_msig h tgt, .mnop h], exec i s = .next (askHold 2 s))
    ∧ (h.wen = 0 ∨ holds = true →
      exec (.mclr h acc ty) s = .next ((done 16 (begun 1)).later (s.now0 + 16) (.accClear acc.toNat (ty = 1)))
      ∧ exec (.mnop h) s = .next (done 0 (begun 1))
      ∧ (∃ d, exec (.mfence h) s = .next (done d (begun (d + 1)))
          ∧ (∀ p ∈ s.fcore.pend, p.eff.isMxUpdate = true → p.due ≤ s.now0 + d)
          ∧ (d = 0 ∨ ∃ p ∈ s.fcore.pend, p.eff.isMxUpdate = true ∧ p.due = s.now0 + d))
      ∧ ((∀ n, named n → claimed n = false) → ∃ m, exec (.mclaim h mask) s = .next (done 0 ((begun 1).updF (fun k => { k with mx := m })))
          ∧ (∀ n, SMap.get ({} : Slot) m.slots n = if n < 32 ∧ mask.getLsbD n = true then ⟨true, []⟩ else SMap.get {} mx.slots n)
          ∧ m.accs = mx.accs ∧ m.queue = mx.queue.tail)
      ∧ ((∀ n, named n → claimed n = true) → ∃ m, exec (.mrel h mask) s = .next (done 0 ((begun 1).updF (fun k => { k with mx := m })))
          ∧ (∀ n, SMap.get ({} : Slot) m.slots n = if n < 32 ∧ mask.getLsbD n = true then ⟨false, []⟩ else SMap.get {} mx.slots n)
          ∧ m.accs = mx.accs ∧ m.queue = mx.queue.tail)
      ∧ ((∃ n, named n ∧ claimed n = true) → ∃ n, named n ∧ claimed n = true ∧ exec (.mclaim h mask) s = .next (raise (mxFault 3) 0 n s))
      ∧ ((∃ n, named n ∧ claimed n = false) → ∃ n, named n ∧ claimed n = false ∧ exec (.mrel h mask) s = .next (raise (mxFault 3) 0 n s))
      ∧ (claimed src.toNat = true → claimed dst.toNat = true →
          (∃ f ∈ [Fmt.e4m3, .e5m2, .i8, .ui8], ∀ r, r < 128 → row src r = Row.zero .f32 ∨ (row src r).tag = f) →
          ∃ rows, exec (.mtr h dst src) s = .next ((done 16 (begun 1)).later (s.now0 + 16) (.slotRows dst.toNat rows)) ∧ rows.length = 128
            ∧ ∀ j r, j < 128 → r < 128 → ((rows.getD j (Row.zero .f32)).data.toNat / 2 ^ (8 * r)) % 256 = ((row src r).data.toNat / 2 ^ (8 * j)) % 256)
      ∧ (claimed src.toNat = false → exec (.mtr h dst src) s = .next (raise (timing 3) 0 src.toNat s))
      ∧ (let e := SMap.get (Row.zero .f32) (SMap.get ({} : Station) s.fcore.stns 8).ofs mof.toNat
         let n := if w = 1 then 8 else 4
         claimed dst.toNat = true → e.tag = .ui8 →
         (∀ r, r < 128 / n → (if w = 1 then [Fmt.mxf4] else [Fmt.mxf8e4, .mxf8e5, .mxi8]).contains (row dst (row0.toNat + r)).tag = true) →
         exec (.mscl h dst row0 mof w) s = .next ((done 16 (begun 1)).later (s.now0 + 16) (.scales dst.toNat row0.toNat n e)))
      ∧ (∀ crew, s.crewOf s.focus.core = some crew →
          let c := s.focus.core
          let target := c / 40 * 40 + tgt.toNat
          (tgt.toNat < 40 ∧ target ∈ crew.members → exec (.mx_msig h tgt) s = .next ((begun 1).updCore target (fun k => { k with hsemPend := k.hsemPend ++
              [⟨s.now0 + (if target = c then 2 else 10), h.ssem.toNat, h.sinc.toNat, none⟩] })))
          ∧ (¬ (tgt.toNat < 40 ∧ target ∈ crew.members) → exec (.mx_msig h tgt) s = .next (raise (mxFault 6) 0 0 s))))

/-- Matrix commands: pushed by the sequencer, started by the engine (R99, R100, R142, R203, R204, R217). -/
def Obligations.MatrixCommandWords : Prop :=
  Sys2Proof.Claims.MxqPushes ∧ Sys2Proof.Claims.MatrixCommands

/-- R205 to R211: the multiplies at START, dense and sparse, where their slot is claimed, its rows and the A row present carry tags of the TYPE's group, the
sparse metadata is a UINT8 row with rising indices, and `mmac` and `mmacs` find their accumulators of the TYPE's kind: the command leaves the queue, its last row's update falls due M + 15
cycles after START, and row 0's update 16 cycles after it. -/
def Sys2Proof.Claims.Multiplies : Prop :=
  ∀ (s : State) (h : MxHdr) (acc : BitVec 2) (slot : BitVec 5) (m n : BitVec 7) (k : BitVec 9) (ty : BitVec 4) (sp pc : BitVec 1) (mof : BitVec 4) (a : Row),
    let f := Fmt.ofCode ty.toNat
    let mx := s.fcore.mx
    let sl := SMap.get ({} : Slot) mx.slots slot.toNat
    let size := fun (d : BitVec 7) => if d = 0 then 128 else d.toNat
    let row := fun (i : Nat) => SMap.get (Row.zero .f32) sl.rows i
    let md := SMap.get (Row.zero .f32) (SMap.get ({} : Station) s.fcore.stns 8).ofs mof.toNat
    let group := match f with
      | .bf16 | .f16 => [Fmt.bf16, .f16]
      | .e4m3 | .e5m2 => [Fmt.e4m3, .e5m2]
      | .i8 | .ui8 => [Fmt.i8, .ui8]
      | .mxf8e4 | .mxf8e5 => [Fmt.mxf8e4, .mxf8e5]
      | .mxf4 | .cb4 => [Fmt.mxf4, .cb4]
      | .mxi8 => [Fmt.mxi8]
      | _ => []
    let int := f = .i8 ∨ f = .ui8
    let typed := fun (accs : List Nat) => ∀ x ∈ accs, s.fcore.accTypeDue x = decide int
    let does := fun (i : Instr) (keep : Bool) (accs : List Nat) => ∃ t ups, exec i s = .next t
      ∧ t.fcore.mx.queue = mx.queue.tail ∧ t.fcore.mx.headAt = s.now0 + size m ∧ t.fcore.mx.slots = mx.slots ∧ t.fcore.mx.accs = mx.accs
      ∧ t.fcore.pend = s.fcore.pend ++ [⟨s.now0 + (size m + 15), s.focus.org, .mxDone (h.sen = 1) h.ssem.toNat h.sinc.toNat⟩] ++ ups
      ∧ ups.map (fun p => (p.due, match p.eff with | .accUpd x r i kp _ cols _ => some (x, r, i, kp, cols.length) | _ => none))
          = accs.map (fun x => (s.now0 + 16, some (x, 0, decide int, keep, size n)))
      ∧ t.fcore.mx.active.isSome = decide (1 < size m)
    h.wen = 0 → sl.claimed = true → (∀ i, i < size n → row i = Row.zero .f32 ∨ (row i).tag ∈ group) →
    mx.aRow = some (s.now0, a) → a.tag ∈ group →
    does (.mmul h acc slot m n k ty) false [acc.toNat]
    ∧ (typed [acc.toNat] → does (.mmac h acc slot m n k ty) true [acc.toNat])
    ∧ (let g := (sparseG sp).1
       let w := (sparseG sp).2
       let off := fun (c i : Nat) => if pc = 1 then (c * (k.toNat / g) + i) * w else i * w
       let rising := ∀ c i, (c < if pc = 1 then size n else 1) → i < k.toNat / g →
         (groupIdx md.data.toNat (off c i) g).Pairwise (· < ·)
       let outs := if pc = 1 then [acc.toNat] else [acc.toNat, acc.toNat + 1]
       md.tag = .ui8 → rising →
       does (.mmuls h acc slot m n k ty sp pc mof) false outs
       ∧ (typed outs → does (.mmacs h acc slot m n k ty sp pc mof) true outs))

/-- R78, R205, R208: an integer product: what the update of a dense multiply adds to an element is the exact sum of products of the A row's and the slot
row's elements, modulo 2^32. -/
def Sys2Proof.Claims.IntegerProducts : Prop :=
  ∀ (m : MxActive) (a b : Row) (n : Nat) (cbs : List (BitVec 256)) (old : BitVec 32),
    (m.ty = .i8 ∨ m.ty = .ui8) → m.sparse = none → m.k ≤ 128 → m.b[n]? = some b → (a.tag = .i8 ∨ a.tag = .ui8) →
    (b.tag = .i8 ∨ b.tag = .ui8 ∨ b = Row.zero .f32) →
    let y := fun (k : Nat) => if b.tag = .f32 then 0 else b.intAt k
    ∃ sums, (outCols m cbs a 0)[n]? = some (n, sums)
      ∧ accElem true old sums = BitVec.ofInt 32 (old.toInt + ((List.range m.k).map (fun k => a.intAt k * y k)).sum)

/-- Multiplies: how they run, and the values of integer products (R78, R205, R208, R211). -/
def Obligations.MatrixProducts : Prop :=
  Sys2Proof.Claims.Multiplies ∧ Sys2Proof.Claims.IntegerProducts

/-- R202, R204, R205, R212 to R215: at the end of a crew cycle every update due lands, each on what those before it left, in the order in which they were
made, and commands due complete: each that signals schedules its semaphore change for the next cycle. What is not due stays; nothing but the matrix
engine and what waits changes. How rows of MF land: `mld` in a claimed slot, `mrs` in a slot or an accumulator's quarter, the A row of `mfd`, and
the sample that `mdr` and `msv` give three cycles later. -/
def Sys2Proof.Claims.MatrixLandings : Prop :=
  ∀ (s : State) (core : Nat),
    let k := s.core core
    let due := fun (p : Pend) => decide (p.due ≤ s.clock core)
    let isDone := fun (p : Pend) => match p.eff with
      | .mxDone .. => true
      | _ => false
    (∃ t, exec (.matrix_update_land core) s = .next t ∧ onlyCore core s t
      ∧ (t.core core).pend = k.pend.filter (fun p => !(due p && p.eff.isMxUpdate))
      ∧ { t.core core with pend := k.pend, mx := k.mx } = k
      ∧ (t.core core).mx = (k.pend.filter (fun p => due p && p.eff.isMxUpdate)).foldl (fun m p => m.landUpdate p.eff) k.mx)
    ∧ (∃ t, exec (.matrix_command_complete core) s = .next t ∧ onlyCore core s t
      ∧ (t.core core).pend = k.pend.filter (fun p => !(due p && isDone p))
      ∧ { t.core core with pend := k.pend, hsemPend := k.hsemPend } = k
      ∧ (t.core core).hsemPend = k.hsemPend ++ (k.pend.filter (fun p => due p && isDone p)).filterMap (fun p => match p.eff with
          | .mxDone true h n => some ⟨p.due + 1, h, n, none⟩
          | _ => none))
    ∧ (∀ (x : Mx) (acc : Nat) (isInt : Bool), let y := SMap.get ({} : Acc) (x.landUpdate (.accClear acc isInt)).accs acc
        y.isInt = isInt ∧ (∀ i, SMap.get 0 y.elems i = 0) ∧ ∀ i, SMap.get false y.poison i = false)
    ∧ (∀ (x : Mx) (acc row : Nat) (isInt keep whole poison : Bool) (sums : List Val) (col : Nat), col < 128 →
        let old := SMap.get ({} : Acc) x.accs acc
        let y := SMap.get ({} : Acc) (x.landUpdate (.accUpd acc row isInt keep whole [(col, sums)] poison)).accs acc
        y.isInt = isInt ∧ SMap.get false y.poison row = (if whole && !keep then poison else SMap.get false old.poison row || poison)
        ∧ (∀ n, n ≠ row → SMap.get false y.poison n = SMap.get false old.poison n)
        ∧ (∀ i, SMap.get 0 y.elems i = if i = 128 * row + col
          then accElem isInt (if keep then SMap.get 0 old.elems i else 0) sums else SMap.get 0 old.elems i))
    ∧ ∀ (o : Origin) (d u n q acc : Nat) (row : Row),
      let f := s.fcore
      let land := fun (e : Eff) => landEff ⟨d, o, e⟩ s
      let slot := fun (x : Core) => SMap.get ({} : Slot) x.mx.slots u
      let wrote := fun (t : State) => (∀ m, SMap.get (Row.zero .f32) (slot t.fcore).rows m = if m = n then row else SMap.get (Row.zero .f32) (slot f).rows m)
        ∧ (slot t.fcore).claimed = (slot f).claimed ∧ (∀ v, v ≠ u → SMap.get ({} : Slot) t.fcore.mx.slots v = SMap.get ({} : Slot) f.mx.slots v)
        ∧ onlyCore s.focus.core s t ∧ { t.fcore with mx := { t.fcore.mx with slots := f.mx.slots } } = f
      wrote (land (.slotRaw u n row))
      ∧ ((slot f).claimed = true → wrote (land (.slotRow u n row)))
      ∧ ((slot f).claimed = false → land (.slotRow u n row) = raise (mxFault 3) 0 u s)
      ∧ (row.tag = .f32 ∨ row.tag = .i32 →
        let t := land (.accRaw acc n q row)
        let x := SMap.get ({} : Acc) f.mx.accs acc
        let y := SMap.get ({} : Acc) t.fcore.mx.accs acc
        y.isInt = decide (row.tag = .i32) ∧ (∀ m, SMap.get false y.poison m = if m = n then row.poison else SMap.get false x.poison m)
        ∧ (∀ j, j < 32 → (SMap.get 0 y.elems (128 * n + 32 * q + j)).toNat = row.code j)
        ∧ (∀ j, j < 128 * n + 32 * q ∨ 128 * n + 32 * q + 32 ≤ j → SMap.get 0 y.elems j = SMap.get 0 x.elems j)
        ∧ onlyCore s.focus.core s t ∧ { t.fcore with mx := { t.fcore.mx with accs := f.mx.accs } } = f)
      ∧ land (.aRow row) = s.updF (fun k => { k with mx := { k.mx with aRow := some (s.now0 + 1, row) } })
      ∧ ∀ (dst : Opnd) (ty : Fmt) (issue : Nat),
        (∃ t, land (.mfRead dst true false u n q ty issue) = t ∧ t.fcore.pend = f.pend ++
          [⟨s.now0 + 3, s.focus.org, .result 8 dst (SMap.get (Row.zero .f32) (slot f).rows n) issue⟩])
        ∧ ∃ t r, land (.mfRead dst true true acc n q ty issue) = t ∧ t.fcore.pend = f.pend ++ [⟨s.now0 + 3, s.focus.org, .result 8 dst r issue⟩]
          ∧ (let x := SMap.get ({} : Acc) f.mx.accs acc
             r.tag = (if x.isInt then .i32 else .f32) ∧ r.side = 0 ∧ r.poison = SMap.get false x.poison n
             ∧ ∀ j, j < 32 → r.code j = (SMap.get 0 x.elems (128 * n + 32 * q + j)).toNat)

/-- Rows to and from the matrix engine, and when its commands complete (R194, R200, R202, R204, R205, R212, R215). -/
def Obligations.MatrixRows : Prop :=
  Sys2Proof.Claims.MatrixFeeder ∧ Sys2Proof.Claims.MatrixLandings

/-! ## Boot, alarms, power, sleep and the fabric (R385, R391, R393, R394, R397, R398) -/

/-- R393: power-on leaves RESET for VERIFY: every other register has its reset value, every core its state after reset, no work is in flight;
flash, host memory, keys, logs and what the kiln arrays hold stay, and an array whose firing was valid is FIRED, any other UNFIRED (R221, R232). Device
memory and staging then read zero (log entry 2). -/
def Sys2Proof.Claims.PowersOn : Prop :=
  ∀ (s : State), s.off = true ∨ bootState s = 0 →
    ∃ t, exec .power_on s = .next t ∧ t.off = false ∧ bootState t = 1 ∧ (∀ i, i ≠ 0xE31 → t.reg i = regReset i)
      ∧ (∀ c, t.core c = ({} : Core)) ∧ t.crews = [] ∧ t.cmds = [] ∧ t.recs = [] ∧ t.queues = [] ∧ t.insts = []
      ∧ (∀ a, t.lpddr.byte a = 0 ∧ t.land.byte a = 0 ∧ t.flash.byte a = s.flash.byte a ∧ t.host.byte a = s.host.byte a)
      ∧ t.keys = s.keys ∧ t.logs = s.logs ∧ t.spare = s.spare
      ∧ ∀ c a, (∀ i, SMap.get 0 (t.kiln c a).cells i = SMap.get 0 (s.kiln c a).cells i)
          ∧ (t.kiln c a).st = (match (s.kiln c a).st with
            | .fired => .fired | .due => .fired | .recal => .fired | .firing => .unfired | .unfired => .unfired)

/-- R393, R385: verification of image A, then of image B: one that passes leads to CALIBRATE, its letter is recorded and MEAS0 to MEAS7 take its SHAKE256 digest; none leads to FAILED. Each
failure counts in SIGFAILS, which saturates, and the fourth since power-on raises the alarm. -/
def Sys2Proof.Claims.Verifies : Prop :=
  ∀ (s : State) (okA okB : Bool), bootState s = 1 →
    let n := (if okA then 0 else 1) + (if okA || okB then 0 else 1)
    ∃ t, exec (.verify_done okA okB) s = .next t ∧ bootState t = (if okA || okB then 2 else 7)
      ∧ t.sigFails = s.sigFails + n ∧ fieldOf (t.reg 0xE31) 7 4 = min 15 (s.sigFails + n)
      ∧ ((okA || okB) = true → (t.reg 0xE31).getLsbD 3 = !okA
        ∧ ∀ n, n < 8 → t.reg (0xE38 + n) = .ofNat 64 (shakeWord (if okA then s.imageA else s.imageB) n))
      ∧ (s.sigFails < 4 → 4 ≤ s.sigFails + n → (t.reg 0xD91).getLsbD 2 = true)
      ∧ t.cores = s.cores ∧ t.kilns = s.kilns ∧ t.flash = s.flash

/-- R393: CALIBRATE recalibrates every array that holds a valid firing, which is then FIRED or UNFIRED, and touches no other; MOUNT follows. -/
def Sys2Proof.Claims.Calibrates : Prop :=
  ∀ (s : State), bootState s = 2 →
    ∃ t, exec .calibrate_done s = .next t ∧ bootState t = 3 ∧ t.cores = s.cores ∧ t.flash = s.flash
      ∧ ∀ c a, (t.kiln c a).cells = (s.kiln c a).cells
        ∧ ((s.kiln c a).st ≠ .fired → t.kiln c a = s.kiln c a)
        ∧ ((s.kiln c a).st = .fired → (t.kiln c a).st = .fired ∨ (t.kiln c a).st = .unfired)

/-- R394: before READY the object table has 16 entries in the highest 1 MiB of device memory, of which only entry 1 is valid, and FW_ENTRY of every
core names object 1 and the image's entry line; nothing else of a core changes. Where in that area the table stands, and which tables follow it, is the model's choice (log entry 7). -/
def Sys2Proof.Claims.Mounts : Prop :=
  ∀ (s : State) (line : BitVec 25), bootState s = 3 →
    ∃ t, exec (.mount_done line) s = .next t ∧ bootState t = 4
      ∧ fieldOf (t.reg 0x800) 39 0 = (lpddrEnd - 2 ^ 20) / 64 ∧ fieldOf (t.reg 0x801) 24 0 = 16
      ∧ (∀ c, c < 320 → t.core c = { s.core c with fwObj := 1, fwLine := line }) ∧ (∀ c, 320 ≤ c → t.core c = s.core c)
      ∧ (∀ i, i < 16 → i ≠ 1 → t.lpddr.byte (lpddrEnd - 2 ^ 20 + 64 * i) = 0)
      ∧ (t.lpddr.byte (lpddrEnd - 2 ^ 20 + 64)).getLsbD 0 = true

/-- R393, R394: the stages of the boot complete one after the other. -/
def Sys2Proof.Claims.BootStages : Prop :=
  Claims.PowersOn ∧ Claims.Verifies ∧ Claims.Calibrates ∧ Claims.Mounts

/-- R385: an alarm of cause n acts at the level of SEC_POLICY[2n+1:2n], where 0 counts as 1: bit n of RAISED is set and MAXLVL takes the level if it is
higher; from level 2 on debug access is locked and every enabled partition halts; at level 3 every key is erased. Cores, crews, queues
and records stay as they are. -/
def Sys2Proof.Claims.AlarmLevels : Prop :=
  ∀ (s : State) (n : Nat), n < 4 →
    let level := max 1 (fieldOf (s.reg 0xD90) (2 * n + 1) (2 * n))
    ∃ t, exec (.security_alarm n) s = .next t
      ∧ (t.reg 0xD91).getLsbD n = true ∧ fieldOf (t.reg 0xD91) 5 4 = max level (fieldOf (s.reg 0xD91) 5 4)
      ∧ (∀ m, m < 4 → m ≠ n → (t.reg 0xD91).getLsbD m = (s.reg 0xD91).getLsbD m)
      ∧ (level = 1 → t.debugLocked = s.debugLocked ∧ t.halted = s.halted)
      ∧ (2 ≤ level → t.debugLocked = true ∧ ∀ p, p < 16 → partOn s p = true → p ∈ t.halted)
      ∧ (level < 3 → t.keys = s.keys) ∧ (level = 3 → t.keys = [])
      ∧ t.cores = s.cores ∧ t.crews = s.crews ∧ t.queues = s.queues ∧ t.recs = s.recs ∧ t.cmds = s.cmds

/-- The boot and the alarms (R385, R393, R394). -/
def Obligations.BootAndAlarms : Prop :=
  Sys2Proof.Claims.BootStages ∧ Sys2Proof.Claims.AlarmLevels

/-- R397: the supervisor moves the clock of an enabled partition by 25 MHz: down to the floor of 800 above the cap, up below 95 % of it; a hot die is
held at the floor. A partition without a cap goes back up to 1,600 (the model's choice: log entry 19). Nothing else
changes. The module limit steps every partition down. -/
def Sys2Proof.Claims.Regulates : Prop :=
  (∀ (s : State) (p power : Nat) (hot : Bool), p < 16 → partOn s p = true → 800 ≤ clockOf s p → clockOf s p ≤ 1600 →
    let mhz := clockOf s p
    let w := fieldOf (s.reg (0xE40 + p)) 11 0
    let capped : Prop := (s.reg (0xE40 + p)).getLsbD 12 = true ∧ w ≠ 0
    ∃ t, exec (.power_regulate p power hot) s = .next t
      ∧ (hot = true → clockOf t p = 800)
      ∧ (hot = false → capped → w < power → clockOf t p = max 800 (mhz - 25))
      ∧ (hot = false → capped → 100 * power < 95 * w → clockOf t p = min 1600 (mhz + 25))
      ∧ (hot = false → capped → power ≤ w → 95 * w ≤ 100 * power → clockOf t p = mhz)
      ∧ (hot = false → ¬ capped → clockOf t p = min 1600 (mhz + 25))
      ∧ fieldOf (t.reg (0xE40 + p)) 12 0 = fieldOf (s.reg (0xE40 + p)) 12 0
      ∧ (∀ i, i ≠ 0xE40 + p → t.reg i = s.reg i) ∧ { t with regs := s.regs } = s)
  ∧ ∀ (s : State), ∃ t, exec .module_power_limit s = .next t ∧ { t with regs := s.regs } = s
      ∧ (∀ p, p < 16 → clockOf t p = max 800 (clockOf s p - 25) ∧ fieldOf (t.reg (0xE40 + p)) 12 0 = fieldOf (s.reg (0xE40 + p)) 12 0)
      ∧ ∀ i, ¬ (0xE40 ≤ i ∧ i < 0xE50) → t.reg i = s.reg i

/-- R286, R397: a shutdown and a loss of power leave the module off; of the log only durable entries stay; nothing else changes, and nothing runs
until power is back. -/
def Sys2Proof.Claims.PowersOff : Prop :=
  ∀ (s : State) (i : Instr), i = .thermal_shutdown ∨ i = .power_loss →
    ∃ t, exec i s = .next t ∧ t.off = true ∧ { t with off := s.off, logs := s.logs } = s
      ∧ (∀ o e, e ∈ (SMap.get ({} : Log) t.logs o).entries ↔ e ∈ (SMap.get ({} : Log) s.logs o).entries ∧ e.durable = true)
      ∧ (s.agenda = [] → step t = .fault .noPower)

/-- R397, R286: power regulation and the loss of power. -/
def Sys2Proof.Claims.PowerSteps : Prop := Claims.Regulates ∧ Claims.PowersOff

/-- R398: a core without a launch sleeps and its banks lose power, so that their rows are gone (they read zero: log entry 2); a 1 written to its
CORE_ONLINE bit asks for a parity sweep; a sweep that passes leaves the core awake with its bit 1, one that fails leaves it asleep with its bit 0.
No other core changes. -/
def Sys2Proof.Claims.SleepAndSweep : Prop :=
  (∀ (s : State) (c : Nat), c < 320 → (s.core c).crew = none →
    ∃ t, exec (.core_sleep c) s = .next t ∧ onlyCore c s t ∧ t.core c = { s.core c with asleep := true, banks := [] })
  ∧ (∀ (s : State) (m : Nat) (v : Word), m < 5 →
    ∃ t, exec (.core_online m v) s = .next t ∧ { t with cores := s.cores } = s
      ∧ ∀ c, t.core c = { s.core c with sweeping := (s.core c).sweeping || (decide (c / 64 = m) && v.getLsbD (c % 64)) })
  ∧ ∀ (s : State) (c : Nat) (ok : Bool), c < 320 → (s.core c).sweeping = true →
    ∃ t, exec (.parity_sweep_done c ok) s = .next t ∧ t.core c = { s.core c with asleep := !ok, sweeping := false }
      ∧ (∀ j, j ≠ c → t.core j = s.core j) ∧ online t c = ok ∧ (∀ j, j < 320 → j ≠ c → online t j = online s j)
      ∧ (ok = true → sameMemories s t)

/-- Power regulation, loss of power, sleep and the parity sweep (R286, R397, R398). -/
def Obligations.PowerAndSleep : Prop :=
  Sys2Proof.Claims.PowerSteps ∧ Sys2Proof.Claims.SleepAndSweep

/-- R391: training the links sets UP alone; after the failure of a module's links an access to its objects raises ACCESS UNCORRECTABLE
of the fabric; accesses to other modules stay as they were. A device number at or above SIZE, or above 767, raises OBJ_INVALID. -/
def Sys2Proof.Claims.FabricLinks : Prop :=
  (∀ (s : State), ∃ t, exec .fabric_links_trained s = .next t ∧ { t with regs := s.regs } = s ∧ (∀ i, i ≠ 0xE30 → t.reg i = s.reg i)
    ∧ (t.reg 0xE30).getLsbD 20 = true ∧ ∀ b, b ≠ 20 → (t.reg 0xE30).getLsbD b = (s.reg 0xE30).getLsbD b)
  ∧ ∀ (s : State) (dev : Nat), ∃ t, exec (.fabric_link_failure dev) s = .next t ∧ { t with linksDown := s.linksDown } = s
    ∧ (∀ k id, (dev < fieldOf (s.reg 0xE30) 19 10 ∧ dev ≤ 767 → objPeer t k dev id = .error { code := 0x10, sub := 7, which := 4 })
        ∧ (fieldOf (s.reg 0xE30) 19 10 ≤ dev ∨ 767 < dev → objPeer t k dev id = .error { code := 0x10, sub := 0 }))
    ∧ ∀ k d id, d ≠ dev → objPeer t k d id = objPeer s k d id

/-! ## The host link, the network, registers (R7, R55, R344, R368, R371, R387 to R392, R395, R396) -/

/-- No store of the host is suspended, and none waits behind one (R359). -/
def Sys2Proof.Claims.storesFree (s : State) : Prop := storeWaits s = false ∧ s.hostQueue = []

/-- R359, R387: an access of the host in the object aperture: under HOST_RD and HOST_WR a read returns the bytes of the object at its offset and changes
nothing else, a write stores just the bytes there, unless an earlier store of the host is suspended: then it waits behind it. -/
def Sys2Proof.Claims.Aperture : Prop :=
  ∀ (s : State) (addr : BitVec 64) (o : Obj) (a n : Nat),
    let off := (addr.extractLsb' 0 38).toNat
    let id := (addr.extractLsb' 38 24).toNat
    addr.extractLsb' 62 2 = 0 → bootState s ≠ 7 →
    (∀ len, objFor s hostPort .host .read id = .ok o → s.flatAt o hostPort .read a n → off + len ≤ n →
      exec (.host_read addr len) s = .next { s with hostData := s.lpddr.bytes (a + off) len })
    ∧ (∀ bytes : List Byte, objFor s hostPort .host .write id = .ok o → s.flatAt o hostPort .write a n → off + bytes.length ≤ n → storesFree s →
      ∃ t, exec (.host_write addr bytes) s = .next t ∧ s.stored t (a + off) bytes)
    ∧ (storeWaits s = true → ∀ bytes, exec (.host_write addr bytes) s = .next { s with hostQueue := s.hostQueue ++ [(addr, bytes)] })

/-- R388, R387: what a host access meets: an access fault makes a read return all ones, drops a write, and leaves only records; a translation fault
suspends the access under the lowest free number; accesses to the spaces 0b01 and 0b11, register accesses not of 8 bytes and register writes not aligned do nothing; such a
read returns nothing. Stores are made while none is suspended (log entry 73). -/
def Sys2Proof.Claims.HostFaults : Prop :=
  ∀ (s : State) (addr : BitVec 64) (bytes : List Byte) (len : Nat),
    let off := (addr.extractLsb' 0 38).toNat
    let id := (addr.extractLsb' 38 24).toNat
    (addr.extractLsb' 62 2 = 0 → bootState s ≠ 7 → ∀ (f : HwFault) (tile : Nat),
      (apertureRead hostPort .host id off len s = .error (f, tile) →
        ∃ t, exec (.host_read addr len) s = .next t
          ∧ (f.code ≠ 0x0F → t.hostData = List.replicate len 0xFF ∧ recordsOnly s { t with hostData := s.hostData })
          ∧ (f.code = 0x0F → ∀ k, freeSusp s = some k → t.susps.find k = some (.host false addr [] len tile) ∧ t.hostData = s.hostData))
      ∧ (storesFree s → apertureWrite hostPort .host id off bytes s = .error (f, tile) →
        ∃ t, exec (.host_write addr bytes) s = .next t
          ∧ (f.code ≠ 0x0F → recordsOnly s t)
          ∧ (f.code = 0x0F → ∀ k, freeSusp s = some k → t.susps.find k = some (.host true addr bytes bytes.length tile))))
    ∧ (addr.extractLsb' 62 2 = 1 ∨ addr.extractLsb' 62 2 = 3 →
      exec (.host_read addr len) s = .next { s with hostData := [] } ∧ exec (.host_write addr bytes) s = .next s)
    ∧ (addr.extractLsb' 62 2 = 2 → (len ≠ 8 → exec (.host_read addr len) s = .next { s with hostData := [] })
      ∧ (bytes.length ≠ 8 ∨ addr.extractLsb' 0 3 ≠ 0 → exec (.host_write addr bytes) s = .next s))

/-- R387, R389: an aligned access of 8 bytes in the register window reads or writes the register it names; until READY all but BOOT_STATUS,
MEAS, ATTEST and SEC_STATUS read zero and ignore writes. -/
def Sys2Proof.Claims.RegisterWindow : Prop :=
  ∀ (s : State) (i : Nat) (v : Word), 0x800 ≤ i → i < 0x1000 →
    let addr := BitVec.ofNat 64 (2 ^ 63 + 8 * (i - 0x800))
    let sees := bootState s = 4 ∨ i = 0xE31 ∨ (0xE38 ≤ i ∧ i < 0xE40) ∨ i = 0xE32 ∨ i = 0xD91
    (sees → exec (.host_read addr 8) s = .next { s with hostData := bytesOfNat 8 (readReg s i).toNat }
      ∧ exec (.host_write addr (bytesOfNat 8 v.toNat)) s = exec (.register_write (.ofNat 12 i) v) s)
    ∧ (¬ sees → exec (.host_read addr 8) s = .next { s with hostData := List.replicate 8 0 }
      ∧ exec (.host_write addr (bytesOfNat 8 v.toNat)) s = .next s)

/-- R371: FQ_RESUME with ACT 0 lets a suspended access that no core services be made again, and frees its number: a record's command goes
on, a record, a queue or a walk is tried again. An unused number changes nothing, nor (log entry 67) does one of a core's own access. -/
def Sys2Proof.Claims.Resumes : Prop :=
  ∀ (s : State) (n : Nat),
    (s.susps.find n = none ∨ (∃ c fw, s.susps.find n = some (.fetch c fw)) → exec (.fq_resume_resume n) s = .next s)
    ∧ (∀ id c, s.susps.find n = some (.cmd id) → s.cmds.find id = some c →
      (c.core.isSome = true → exec (.fq_resume_resume n) s = .next s)
      ∧ (c.core = none → ∃ t, exec (.fq_resume_resume n) s = .next t ∧ t.susps = s.susps.del n ∧ t.cmds = s.cmds.put id { c with st := .running }
          ∧ t.cores = s.cores ∧ t.crews = s.crews ∧ t.recs = s.recs))
    ∧ (∀ id r, s.susps.find n = some (.record id) → s.recs.find id = some r → ∃ t, exec (.fq_resume_resume n) s = .next t
        ∧ t.recs.find id = some { r with susp := 0 } ∧ { t with recs := s.recs } = { s with susps := s.susps.del n })
    ∧ (∀ id q, s.susps.find n = some (.queue id) → s.queues.find id = some q → ∃ t, exec (.fq_resume_resume n) s = .next t
        ∧ t.queues.find id = some { q with susp := 0 } ∧ { t with queues := s.queues } = { s with susps := s.susps.del n })
    ∧ (∀ id w, s.susps.find n = some (.walk id) → s.walks.find id = some w → ∃ t, exec (.fq_resume_resume n) s = .next t
        ∧ t.walks.find id = some { w with susp := 0 } ∧ { t with walks := s.walks } = { s with susps := s.susps.del n })

/-- R388, R371: a suspended host access: within 1 ms FQ_RESUME makes it again or fails it; after that it ends as an access fault; its number is
free. No store waits behind it. -/
def Sys2Proof.Claims.HostSuspended : Prop :=
  ∀ (s : State) (k : Nat) (w : Bool) (addr : BitVec 64) (bytes : List Byte) (len tile : Nat),
    s.susps.find k = some (.host w addr bytes len tile) → s.hostQueue = [] →
    let s0 := { s with susps := s.susps.del k }
    (addr.extractLsb' 62 2 = 0 → bootState s ≠ 7 → storeWaits s0 = false → (if w then len = bytes.length else bytes = []) →
      exec (.fq_resume_resume k) s = exec (if w then .host_write addr bytes else .host_read addr len) s0)
    ∧ (∃ t, exec (.fq_resume_resume k) s = .next t)
    ∧ (∀ sub, ∃ t, exec (.fq_resume_fail k sub) s = .next t ∧ t.susps = s.susps.del k
        ∧ t.hostData = (if w then s.hostData else List.replicate len 0xFF) ∧ recordsOnly s { t with susps := s.susps, hostData := s.hostData })
    ∧ ∃ t, exec (.host_access_timeout k) s = .next t ∧ t.susps = s.susps.del k
        ∧ t.hostData = (if w then s.hostData else List.replicate len 0xFF)
        ∧ recordsOnly s { t with susps := s.susps, hostData := s.hostData, freeCtr := s.freeCtr }

/-- R387 to R389: the host link. -/
def Sys2Proof.Claims.HostLink : Prop :=
  Claims.Aperture ∧ Claims.HostFaults ∧ Claims.RegisterWindow ∧ Claims.Resumes ∧ Claims.HostSuspended

/-- R392: RDMA WRITE and READ act on objects under PEER_WR and PEER_RD as the host does in its aperture, and SEND puts the message in the queue of its
port; an access fault leaves only fault records, and a read returns nothing; a translation fault suspends the access under the lowest
free number (R49, R371), and FQ_RESUME makes it again; this part is the model's choice (log entry 50). In a module whose boot failed nothing answers (R393). -/
def Sys2Proof.Claims.NetworkAccesses : Prop :=
  ∀ (s : State) (id off : Nat) (bytes : List Byte) (len : Nat) (o : Obj) (a n : Nat) (port : Nat),
    (bootState s ≠ 7 →
      exec (.roce_send port bytes) s = .next { s with messages := s.messages ++ [(port, bytes)] }
      ∧ (objFor s netPort .peer .read id = .ok o → s.flatAt o netPort .read a n → off + len ≤ n →
        exec (.roce_read ⟨port, id⟩ off len) s = .next { s with hostData := s.lpddr.bytes (a + off) len })
      ∧ (objFor s netPort .peer .write id = .ok o → s.flatAt o netPort .write a n → off + bytes.length ≤ n →
        ∃ t, exec (.roce_write ⟨port, id⟩ off bytes) s = .next t ∧ s.stored t (a + off) bytes)
      ∧ (∀ f tile, apertureWrite netPort .peer id off bytes s = .error (f, tile) → ∃ t, exec (.roce_write ⟨port, id⟩ off bytes) s = .next t
        ∧ (f.code ≠ 0x0F → recordsOnly s t)
        ∧ (f.code = 0x0F → ∀ k, freeSusp s = some k → t.susps.find k = some (.net port true id off bytes bytes.length tile)))
      ∧ (∀ f tile, apertureRead netPort .peer id off len s = .error (f, tile) → ∃ t, exec (.roce_read ⟨port, id⟩ off len) s = .next t
        ∧ (f.code ≠ 0x0F → t.hostData = [] ∧ recordsOnly s { t with hostData := s.hostData })
        ∧ (f.code = 0x0F → ∀ k, freeSusp s = some k → t.susps.find k = some (.net port false id off [] len tile)))
      ∧ ∀ k tile, s.susps.find k = some (.net port true id off bytes bytes.length tile) →
        exec (.fq_resume_resume k) s = exec (.roce_write ⟨port, id⟩ off bytes) { s with susps := s.susps.del k })
    ∧ (bootState s = 7 → exec (.roce_send port bytes) s = .next s ∧ exec (.roce_read ⟨port, id⟩ off len) s = .next s
      ∧ exec (.roce_write ⟨port, id⟩ off bytes) s = .next s)

/-- Fabric links, host accesses and network accesses (R387 to R389, R391, R392). -/
def Obligations.LinksAndHost : Prop :=
  Sys2Proof.Claims.FabricLinks ∧ Sys2Proof.Claims.HostLink ∧ Sys2Proof.Claims.NetworkAccesses

/-- R7: a write to a device register acts through its access codes: RW fields take the value and reserved bits stay 0, W1C bits written 1 are
cleared, read-only words keep theirs; a write that starts something is that start. No write changes another register but by what it
starts. -/
def Sys2Proof.Claims.RegisterWrites : Prop :=
  ∀ (s : State) (v : Word),
    let wr := fun (i : Nat) => exec (.register_write (.ofNat 12 i) v) s
    wr 0x800 = .next (s.setReg 0x800 (v &&& 0xFFFFFFFFFF))
    ∧ wr 0x801 = .next (s.setReg 0x801 (v &&& 0x1FFFFFFFF))
    ∧ wr 0xC00 = .next (s.setReg 0xC00 (v &&& 0xFFFFFFFFFF))
    ∧ wr 0xD80 = .next (s.setReg 0xD80 (v &&& 0x1FFFFFFFFFF))
    ∧ wr 0xE00 = .next (s.setReg 0xE00 (v &&& 0xFFFFFFFFFF))
    ∧ (∀ m, m < 32 → wr (0xE08 + m) = .next (s.setReg (0xE08 + m) (s.reg (0xE08 + m) &&& ~~~v)))
    ∧ wr 0xD91 = .next (s.setReg 0xD91 (s.reg 0xD91 &&& ~~~(v &&& 0xF)))
    ∧ wr 0xD90 = .next (if (s.reg 0xD90).getLsbD 8 then s else s.setReg 0xD90 (v &&& 0x1FF))
    ∧ wr 0xE31 = .next s ∧ (∀ n, n < 8 → wr (0xE38 + n) = .next s)
    ∧ (∀ q, q < 17 → wr (0xD02 + 4 * q) = .next s ∧ wr (0xD03 + 4 * q) = .next (s.setReg (0xD03 + 4 * q) (v &&& 0xFFFFFFFF)))
    ∧ (∀ p, p < 16 → ∃ t, wr (0xE40 + p) = .next t ∧ { t with regs := s.regs } = s ∧ fieldOf (t.reg (0xE40 + p)) 12 0 = fieldOf v 12 0
        ∧ fieldOf (t.reg (0xE40 + p)) 23 13 = fieldOf (s.reg (0xE40 + p)) 23 13 ∧ ∀ i, i ≠ 0xE40 + p → t.reg i = s.reg i)
    ∧ (∀ k, k < 64 → wr (0x840 + k) = exec (.cache_units k (v.setWidth 5)) s)
    ∧ (∀ c, c < 320 → wr (0x900 + c) = exec (.kiln_recal c (v.setWidth 16)) s)
    ∧ wr 0xC01 = exec (if v.getLsbD 10 then .queue_on (fieldOf v 9 0) else .queue_off (fieldOf v 9 0)) s
    ∧ wr 0xC02 = exec (.qm_cancel (fieldOf v 1 0) (fieldOf v 5 2) (v.extractLsb' 32 32)) s
    ∧ wr 0xE01 = exec (.irq_kick (fieldOf v 10 0)) s
    ∧ wr 0xE32 = exec (.attest v) s ∧ wr 0xE33 = exec (.key_load v) s
    ∧ (∀ m, m < 5 → wr (0xE50 + m) = exec (.core_online m v) s)

/-- R344: a partition is enabled by a write of PART_MAP with EN 1 where its block allows it, and else its EN stays 0; while EN is 1 such a write is
ignored. It is disabled by a write with EN 0 unless one of its queues is on. A block that names no core, or a core that an enabled partition
names, is refused. Nothing but PART_MAP changes. -/
def Sys2Proof.Claims.PartitionEnable : Prop :=
  (∀ (s : State) (p : Nat) (v : Word), p < 16 →
    (partOn s p = false → ∃ t, exec (.partition_enable p v) s = .next t ∧ { t with regs := s.regs } = s
      ∧ (∀ i, i ≠ 0xB00 + 16 * p → t.reg i = s.reg i) ∧ fieldOf (partReg t p 0) 41 1 = fieldOf v 41 1
      ∧ partOn t p = canEnable s p (v &&& 0x3FFFFFFFFFF))
    ∧ (partOn s p = true → exec (.partition_enable p v) s = .next s)
    ∧ ((∃ q ∈ s.queues, q.2.on = true ∧ q.2.part = p) → exec (.partition_disable p) s = .next s)
    ∧ ((∀ q ∈ s.queues, q.2.on = true → q.2.part ≠ p) → ∃ t, exec (.partition_disable p) s = .next t ∧ { t with regs := s.regs } = s
      ∧ (∀ i, i ≠ 0xB00 + 16 * p → t.reg i = s.reg i) ∧ partOn t p = false ∧ fieldOf (partReg t p 0) 63 1 = fieldOf (partReg s p 0) 63 1))
  ∧ ∀ (s : State) (p : Nat) (w : Word), p < 16 →
    ((∀ c, c < 320 → partHasCore s p c = false) → canEnable s p w = false)
    ∧ ((∃ q c, q < 16 ∧ q ≠ p ∧ partOn s q = true ∧ partHasCore s p c = true ∧ partHasCore s q c = true) → canEnable s p w = false)

/-- R55: a write of LAND_CFG drops the slice's cache part and notes the size, which takes effect when the write-back ends: then UNITS reads it, and the
staging bytes of the slice end below it. A value above 16 is ignored. While no sector is dirty the memories stay as they are. -/
def Sys2Proof.Claims.CacheSize : Prop :=
  (∀ (s : State) (slice : Nat) (u : BitVec 5),
    (16 < u.toNat → exec (.cache_units slice u) s = .next s)
    ∧ (slice < 64 → u.toNat ≤ 16 → rangeInCache s slice u.toNat = false →
      ∃ t, exec (.cache_units slice u) s = .next t ∧ t.cacheOf slice = [] ∧ t.resizing.find slice = some u.toNat
        ∧ t.cores = s.cores ∧ t.regs = s.regs ∧ (∀ j, j ≠ slice → t.cacheOf j = s.cacheOf j)
        ∧ ((∀ x ∈ s.cacheOf slice, x.2.dirty = false) → sameMemories s t)))
  ∧ ∀ (s : State) (slice u : Nat), slice < 64 → u ≤ 16 → s.resizing.find slice = some u →
    ∃ t, exec (.cache_resize_done slice) s = .next t ∧ fieldOf (t.reg (0x840 + slice)) 4 0 = u ∧ stagingEnd t slice = 2 ^ 22 - 2 ^ 18 * u
      ∧ t.resizing.find slice = none ∧ (∀ i, i ≠ 0x840 + slice → t.reg i = s.reg i)
      ∧ { t with regs := s.regs, resizing := s.resizing } = s

/-- Cache parts, partitions and register writes (R7, R55, R344). -/
def Obligations.PartitionsAndCaches : Prop :=
  Sys2Proof.Claims.CacheSize ∧ Sys2Proof.Claims.PartitionEnable ∧ Sys2Proof.Claims.RegisterWrites

/-- R390: IRQ_KICK delivers a pending vector whose MASK is 0 once, with one 4-byte write of its data to its host address, and clears its pending
bit; a vector that is masked or not pending stays as it is, for an entry that can be read. A post of a vector writes, or pends it, by its MASK. -/
def Sys2Proof.Claims.VectorsDelivered : Prop :=
  ∀ (s : State) (v : Nat), v < 2048 →
    let a := 64 * fieldOf (s.reg 0xE00) 39 0 + 16 * v
    let b := fun (i : Nat) => s.lpddr.byte (a + i)
    let masked := (b 12).getLsbD 0
    let pends := (s.reg (0xE08 + v / 64)).getLsbD (v % 64)
    let host := s.host.setBytes (b 7 ++ b 6 ++ b 5 ++ b 4 ++ b 3 ++ b 2 ++ b 1 ++ b 0).toNat [b 8, b 9, b 10, b 11]
    (0, a / 32) ∉ s.uncorr → a < lpddrEnd →
    (pends = true → masked = false → ∃ t, exec (.irq_kick v) s = .next t ∧ t.host = host
      ∧ { t with host := s.host, regs := s.regs } = s ∧ (∀ i, i ≠ 0xE08 + v / 64 → t.reg i = s.reg i)
      ∧ ∀ k, (t.reg (0xE08 + v / 64)).getLsbD k = ((s.reg (0xE08 + v / 64)).getLsbD k && decide (k ≠ v % 64)))
    ∧ (pends = false ∨ masked = true → exec (.irq_kick v) s = .next s)
    ∧ (masked = false → postIrq s v = { s with host := host })
    ∧ (masked = true → (postIrq s v).host = s.host ∧ ∀ k, k < 64 →
      ((postIrq s v).reg (0xE08 + v / 64)).getLsbD k = ((s.reg (0xE08 + v / 64)).getLsbD k || decide (k = v % 64)))

/-- R395: a write of an address to ATTEST starts a quote and BUSY reads 1; a write while it does is ignored. The quote stands from a + 64: the nonce, MEAS0
to MEAS7, SEC_STATUS, the time stamp and DEVNO, and a signature of 17,088 bytes whose values are open (log entry 9); no other byte of host memory
changes, and BUSY clears. R396: a key blob that passes its check loads the object's keys, any other is discarded. -/
def Sys2Proof.Claims.QuotesAndKeys : Prop :=
  (∀ (s : State) (v : Word),
    (s.quote = none → ∃ t, exec (.attest v) s = .next t ∧ readReg t 0xE32 = 1 ∧ t.quote = some (v &&& ~~~0x3F).toNat ∧ { t with quote := s.quote } = s)
    ∧ (s.quote ≠ none → exec (.attest v) s = .next s))
  ∧ (∀ (s : State) (a : Nat), s.quote = some a →
    ∃ t, exec .attest_done s = .next t ∧ readReg t 0xE32 = 0 ∧ { t with quote := s.quote, host := s.host, freeCtr := s.freeCtr } = s
      ∧ t.host.bytes (a + 64) 64 = s.host.bytes a 64
      ∧ (∀ n, n < 8 → t.host.bytes (a + 128 + 8 * n) 8 = bytesOfNat 8 (s.reg (0xE38 + n)).toNat)
      ∧ t.host.bytes (a + 192) 8 = bytesOfNat 8 (s.reg 0xD91).toNat
      ∧ t.host.bytes (a + 200) 8 = bytesOfNat 8 s.now ∧ t.host.bytes (a + 208) 8 = bytesOfNat 8 (fieldOf (s.reg 0xE30) 9 0)
      ∧ ∀ b, (b < a + 64 ∨ a + 216 + 17088 ≤ b) → t.host.byte b = s.host.byte b)
  ∧ ∀ (s : State) (v : Word),
    let obj := fieldOf v 23 0
    let slice := fieldOf v 29 24
    let off := fieldOf v 51 30
    landOk s slice off 72 = true → landBad s slice off 72 = false →
    let good := Config.keyGood (natOfBytes (s.land.bytes (slice * 2 ^ 22 + off) 72))
    ∃ t, exec (.key_load v) s = .next t ∧ { t with keys := s.keys } = s ∧ ∀ k, t.keys.find k = if good = true ∧ k = obj then some (natOfBytes (s.land.bytes (slice * 2 ^ 22 + off) 72)) else s.keys.find k

/-- Interrupts, quotes and keys (R390, R395, R396). -/
def Obligations.InterruptsAndQuotes : Prop :=
  Sys2Proof.Claims.VectorsDelivered ∧ Sys2Proof.Claims.QuotesAndKeys

/-! ## Ferries (R239 to R266) -/

/-- R246, R262: a LAND to LAND `copy` moves its sectors unchanged. -/
def Sys2Proof.Claims.CopyOfStaging : Prop :=
  ∀ (s : State) (c : Cmd) (h : FHdr) (f : CopyF), s.ferryStarts c h → h.sk = 2 → h.dk = 2 → s.soundStaging →
    let n := 16 * f.count.toNat
    s.mayLand c f.src n → s.mayLand c f.dst n → apart (landBase f.src) n (landBase f.dst) n →
    ∃ t, exec (.copy h f) s = .next t ∧ s.movedTo t (s.land.setBytes (landBase f.dst) (s.land.bytes (landBase f.src) n))

/-- R254: a `fill` of staging writes the value twice in each sector. -/
def Sys2Proof.Claims.FillOfStaging : Prop :=
  ∀ (s : State) (c : Cmd) (h : FHdr) (f : FerryFillF), s.ferryStarts c h → h.sk = 0 → h.dk = 2 → s.soundStaging →
    s.mayLand c f.dst (16 * f.count.toNat) →
    let v := bytesOfNat 8 f.value.toNat
    ∃ t, exec (.ferry_fill h f) s = .next t ∧ s.movedTo t (s.land.setBytes (landBase f.dst) (List.replicate f.count.toNat (v ++ v)).flatten)

/-- R250: `gath` of a LAND table appends the rows its list names, in list order; 0xFFFFFFFF gives a row of zeros. -/
def Sys2Proof.Claims.GatherOfStaging : Prop :=
  ∀ (s : State) (c : Cmd) (h : FHdr) (f : FerryGathF), s.ferryStarts c h → h.sk = 2 → h.dk = 2 → s.soundStaging →
    let n := f.count.toNat
    let rl := 16 * (if f.rowlen = 0 then 1024 else f.rowlen.toNat)
    let idx := (List.range n).map (fun i => natOfBytes (s.land.bytes (landWord f.idx + 4 * i) 4))
    let row := fun (j : Nat) => if j = 0xFFFFFFFF then List.replicate rl (0 : Byte) else s.land.bytes (landBase f.src + rl * j) rl
    s.mayLandAt c f.idx (4 * n) → s.mayLand c f.dst (rl * n) →
    (∀ j ∈ idx, j ≠ 0xFFFFFFFF → landAllowed s c (epSlice f.src) (epOff f.src + rl * j) rl = true
      ∧ apart (landBase f.src + rl * j) rl (landBase f.dst) (rl * n)) →
    ∃ t, exec (.ferry_gath h f) s = .next t ∧ s.movedTo t (s.land.setBytes (landBase f.dst) (idx.flatMap row))

/-- R253: `lcmp` copies the rows whose mask byte is not zero, packed in ascending order, and then writes their number into the count sector. -/
def Sys2Proof.Claims.Compacts : Prop :=
  ∀ (s : State) (c : Cmd) (h : FHdr) (f : LcmpF), s.ferryStarts c h → h.sk = 2 → h.dk = 2 → s.soundStaging →
    let n := f.count.toNat
    let rb := 16 * f.rb.toNat
    let hits := (List.range n).filter (fun j => s.land.byte (landWord f.mask + j) ≠ 0)
    s.mayLandAt c f.mask n → s.mayLandAt c f.cnt 16 → s.mayLand c f.src (rb * n) → s.mayLand c f.dst (rb * n) →
    apart (landBase f.src) (rb * n) (landBase f.dst) (rb * n) →
    ∃ t, exec (.lcmp h f) s = .next t ∧ s.movedTo t
      ((s.land.setBytes (landBase f.dst) (hits.flatMap (fun j => s.land.bytes (landBase f.src + rb * j) rb))).setBytes (landWord f.cnt)
        (bytesOfNat 16 hits.length))

/-- R251: `lred` in INT32: element j of the result is the sum of the contributions' elements j modulo 2^32, or their greatest or least as signed numbers. -/
def Sys2Proof.Claims.ReducesIntegers : Prop :=
  ∀ (s : State) (c : Cmd) (h : FHdr) (f : LredF), s.ferryStarts c h → h.sk = 2 → h.dk = 2 → s.soundStaging → f.fm = 2 →
    let n := f.count.toNat
    let nc := if f.nc = 0 then 64 else f.nc.toNat
    let stride := 16 * (f.src.extractLsb' 28 18).toNat
    let elem := fun (k j : Nat) => BitVec.ofNat 32 (natOfBytes (s.land.bytes (landBase f.src + k * stride + 4 * j) 4))
    (∀ k, k < nc → landAllowed s c (epSlice f.src) (epOff f.src + k * stride) (4 * n) = true) → s.mayLand c f.dst (4 * n) →
    ∃ (t : State) (r : Nat → BitVec 32), exec (.lred h f) s = .next t
      ∧ s.movedTo t (s.land.setBytes (landBase f.dst) ((List.range n).flatMap (fun j => bytesOfNat 4 (r j).toNat)))
      ∧ ∀ j, j < n →
        (f.rop = 0 → r j = ((List.range nc).map (elem · j)).sum)
        ∧ (f.rop = 1 → (∃ k, k < nc ∧ r j = elem k j) ∧ ∀ k, k < nc → (elem k j).toInt ≤ (r j).toInt)
        ∧ (f.rop = 2 → (∃ k, k < nc ∧ r j = elem k j) ∧ ∀ k, k < nc → (r j).toInt ≤ (elem k j).toInt)

/-- R252: `ltopk` writes K pairs of 16 bytes: pairs of the lists that are not empty, and empty ones with an infinite score after them; with no more
pairs than K every one of them is written. -/
def Sys2Proof.Claims.MergesLists : Prop :=
  ∀ (s : State) (c : Cmd) (h : FHdr) (f : LtopkF), s.ferryStarts c h → h.sk = 2 → h.dk = 2 → s.soundStaging →
    let k := f.count.toNat
    let nc := if f.nc = 0 then 64 else f.nc.toNat
    let len := f.len.toNat
    let stride := 16 * (f.src.extractLsb' 28 18).toNat
    let at0 := fun (l i : Nat) => landBase f.src + l * stride + 16 * i
    let pairs : List Pair := ((List.range nc).flatMap (fun l => (List.range len).map (fun i =>
      (⟨natOfBytes (s.land.bytes (at0 l i) 8), natOfBytes (s.land.bytes (at0 l i + 8) 4), l⟩ : Pair)))).filter (fun p => p.id ≠ 2 ^ 64 - 1)
    let empty : Pair := ⟨2 ^ 64 - 1, if f.ord = 1 then 0x7F800000 else 0xFF800000, 0⟩
    (∀ l, l < nc → landAllowed s c (epSlice f.src) (epOff f.src + l * stride) (16 * len) = true) → s.mayLand c f.dst (16 * k) →
    ∃ (t : State) (best : List Pair), exec (.ltopk h f) s = .next t
      ∧ s.movedTo t (s.land.setBytes (landBase f.dst)
        ((best ++ List.replicate (k - best.length) empty).flatMap (fun p => bytesOfNat 8 p.id ++ bytesOfNat 8 p.score)))
      ∧ best.length = min k pairs.length ∧ (∀ p ∈ best, p ∈ pairs) ∧ (pairs.length ≤ k → best.Perm pairs)

/-- What ferries do in landing staging (R246, R250 to R254): the commands complete, with exactly the bytes of their rules written, and nothing else
of the module differs but the command. -/
def Obligations.FerriesInStaging : Prop :=
  Claims.CopyOfStaging ∧ Claims.FillOfStaging ∧ Claims.GatherOfStaging ∧ Claims.Compacts ∧ Claims.ReducesIntegers ∧ Claims.MergesLists

/-- R246, R249: `copy` and `pref` from an object of UINT8 to staging move the element data as bytes. -/
def Sys2Proof.Claims.ObjectToStaging : Prop :=
  ∀ (s : State) (c : Cmd) (h : FHdr) (o : Obj) (a n : Nat), s.ferryStarts c h → h.sk = 1 → h.dk = 2 → s.soundStaging →
    (∀ (f : CopyF), c.bits 87 64 = epId f.src → objDev s c.portOf c.req .read f.sdev.toNat (epId f.src) = .ok o → s.flatAt o c.portOf .read a n →
      epPos f.src + f.count.toNat ≤ n → s.mayLand c f.dst f.count.toNat →
      ∃ t, exec (.copy h f) s = .next t ∧ s.movedTo t (s.land.setBytes (landBase f.dst) (s.lpddr.bytes (a + epPos f.src) f.count.toNat)))
    ∧ ∀ (f : PrefF), c.bits 87 64 = epId f.src → objDev s c.portOf c.req .read f.sdev.toNat (epId f.src) = .ok o → s.flatAt o c.portOf .read a n →
      epPos f.src + f.count.toNat ≤ n → s.mayLand c f.dst f.count.toNat →
      ∃ t, exec (.pref h f) s = .next t ∧ s.movedTo t (s.land.setBytes (landBase f.dst) (s.lpddr.bytes (a + epPos f.src) f.count.toNat))

/-- R246, R250: bytes of one sector from staging to an object of UINT8: `copy` writes them from POS on, `scat` with a list of one entry writes them into the
table row that the entry names. -/
def Sys2Proof.Claims.StagingToObject : Prop :=
  ∀ (s : State) (c : Cmd) (h : FHdr) (o : Obj) (a n : Nat), s.ferryStarts c h → h.sk = 2 → h.dk = 1 → s.soundStaging →
    s.flatAt o c.portOf .write a n →
    (∀ (f : CopyF), c.bits 151 128 = epId f.dst → objDev s c.portOf c.req .write f.ddev.toNat (epId f.dst) = .ok o →
      let pos := epPos f.dst
      f.count ≠ 0 → pos + f.count.toNat ≤ n → pos / 16 = (pos + f.count.toNat - 1) / 16 → s.mayLand c f.src f.count.toNat →
      ∃ t, exec (.copy h f) s = .next t ∧ s.movedInto t (a + pos) (s.land.bytes (landBase f.src) f.count.toNat))
    ∧ ∀ (f : ScatF), c.bits 151 128 = epId f.dst → objDev s c.portOf c.req .write (devNo s) (epId f.dst) = .ok o → f.count = 1 →
      let j := natOfBytes (s.land.bytes (landWord f.idx) 4)
      let rl := f.rowlen.toNat
      let pos := epPos f.dst + j * rl
      rl ≠ 0 → j ≠ 0xFFFFFFFF → pos + rl ≤ n → pos / 16 = (pos + rl - 1) / 16 → s.mayLandAt c f.idx 4 → s.mayLand c f.src rl →
      ∃ t, exec (.scat h f) s = .next t ∧ s.movedInto t (a + pos) (s.land.bytes (landBase f.src) rl)

/-- R250, R59: `scadd` into an object of INT32, with rows of one element and a list that names one row throughout: the element grows by the sum of the
contributions, modulo 2^32, in one update. That updates of a row are made one for all its entries is R59's; their place in the order is the
model's choice (log entry 16). -/
def Sys2Proof.Claims.AddsIntoObject : Prop :=
  ∀ (s : State) (c : Cmd) (h : FHdr) (f : ScaddF) (o : Obj) (a n j : Nat), s.ferryStarts c h → h.sk = 2 → h.dk = 1 → s.soundStaging →
    c.bits 151 128 = epId f.dst → objEntry s c.portOf (epId f.dst) = .ok o → o.permits c.req .write = true → o.permits c.req (.atomic 0) = true →
    s.flatOf .i32 4 o c.portOf (.atomic 0) a n → f.rowlen = 1 → f.count ≠ 0 →
    (∀ i, i < f.count.toNat → natOfBytes (s.land.bytes (landWord f.idx + 4 * i) 4) = j) → j ≠ 0xFFFFFFFF →
    let pos := epPos f.dst + j
    pos < n → s.mayLandAt c f.idx (4 * f.count.toNat) → s.mayLand c f.src (4 * f.count.toNat) →
    let old := natOfBytes (s.lpddr.bytes (a + 4 * pos) 4)
    let sum := ((List.range f.count.toNat).map (fun i => natOfBytes (s.land.bytes (landBase f.src + 4 * i) 4))).sum
    ∃ t, exec (.scadd h f) s = .next t ∧ s.movedInto t (a + 4 * pos) (bytesOfNat 4 ((old + sum) % 2 ^ 32))

/-- R248: `copyp` moves its data and then publishes: the entries of the shadow object and the published one, which differ in TT_PTR alone, stand
exchanged, each written whole. -/
def Sys2Proof.Claims.CopiesAndPublishes : Prop :=
  ∀ (s : State) (c : Cmd) (h : FHdr) (f : CopypF) (o p q : Obj) (a n : Nat), s.ferryStarts c h → h.sk = 2 → h.dk = 1 → s.soundStaging →
    c.bits 151 128 = epId f.dst → objDev s c.portOf c.req .write (devNo s) (epId f.dst) = .ok o → s.flatAt o c.portOf .write a n →
    let pos := epPos f.dst
    f.count ≠ 0 → pos + f.count.toNat ≤ n → pos / 16 = (pos + f.count.toNat - 1) / 16 → s.mayLand c f.src f.count.toNat →
    let pub := objAddr s f.pub.toNat
    let shadow := objAddr s (epId f.dst)
    f.pub.toNat ≠ epId f.dst → s.tlb = [] →
    objEntry s c.portOf f.pub.toNat = .ok p → objEntry s c.portOf (epId f.dst) = .ok q →
    s.soundBursts pub 64 (tableColour s) → s.soundBursts shadow 64 (tableColour s) → apart a n pub 64 → apart a n shadow 64 →
    (∀ i, i < 64 → i < 42 ∨ 47 ≤ i → s.lpddr.byte (pub + i) = s.lpddr.byte (shadow + i)) →
    ∃ t, exec (.copyp h f) s = .next t
      ∧ t.lpddr.bytes pub 64 = s.lpddr.bytes shadow 64 ∧ t.lpddr.bytes shadow 64 = s.lpddr.bytes pub 64
      ∧ t.lpddr.bytes (a + pos) f.count.toNat = s.land.bytes (landBase f.src) f.count.toNat
      ∧ (t.cmds.find s.focus.cmd).map (·.st) = some .moved ∧ t.land = s.land ∧ t.cores = s.cores

/-- R249, R57: `pref` of bytes of one line of device memory into a slice's cache part fills its four sectors, clean, but for those it holds, which stay; it
changes no memory. The set has room for the line or holds it (log entry 18). -/
def Sys2Proof.Claims.PrefetchesLine : Prop :=
  ∀ (s : State) (c : Cmd) (h : FHdr) (f : PrefF) (o : Obj) (a n : Nat), s.ferryStarts c h → h.sk = 1 → h.dk = 4 →
    c.bits 87 64 = epId f.src → objDev s c.portOf c.req .read f.sdev.toNat (epId f.src) = .ok o → s.flatAt o c.portOf .read a n →
    let pos := epPos f.src
    let line := (a + pos) / 64
    let slice := epSlice f.dst
    f.count ≠ 0 → pos + f.count.toNat ≤ n → (a + pos + f.count.toNat - 1) / 64 = line → a % 64 = 0 → s.soundBursts (64 * line) 64 o.colour →
    hasCache s slice = true → ((linesOfSet s slice line).length < 16 ∨ line ∈ linesOfSet s slice line) →
    ∃ t, exec (.pref h f) s = .next t ∧ (t.cmds.find s.focus.cmd).map (·.st) = some .moved
      ∧ { t with cache := s.cache, cmds := s.cmds } = s ∧ (∀ j, j ≠ slice → t.cacheOf j = s.cacheOf j)
      ∧ ∀ i, i < 4 → (t.cacheOf slice).find (4 * line + i) = some (((s.cacheOf slice).find (4 * line + i)).getD
          ⟨.ofNat 128 (natOfBytes (s.lpddr.bytes (64 * line + 16 * i) 16)), false, o.colour, 0, 0, 0⟩)

/-- What ferries do between objects, staging and cache parts (R246, R248 to R250). -/
def Obligations.FerriesOnObjects : Prop :=
  Claims.ObjectToStaging ∧ Claims.StagingToObject ∧ Claims.AddsIntoObject ∧ Claims.CopiesAndPublishes ∧ Claims.PrefetchesLine

/-- R255: `atom` on staging bytes aligned to its width, the integer operations: the target takes the new value, and with RETEN the return sector takes the
old one, zero-extended. -/
def Sys2Proof.Claims.AtomicOnStaging : Prop :=
  ∀ (s : State) (c : Cmd) (h : FHdr) (f : AtomF), s.ferryStarts c h → h.sk = 0 → h.dk = 2 → s.soundStaging → f.aop.toNat ≤ 9 →
    let w := if f.w64 = 1 then 8 else 4
    let m := 2 ^ (8 * w)
    s.mayLand c f.dst w → epOff f.dst % w = 0 → (f.reten = 1 → s.mayLandAt c f.ret 16) →
    let old := natOfBytes (s.land.bytes (landBase f.dst) w)
    let v := f.value.toNat % m
    let int := fun (x : Nat) => (BitVec.ofNat (8 * w) x).toInt
    let new := match f.aop.toNat with
      | 0 => (old + v) % m
      | 1 => if int v < int old then v else old
      | 2 => if int old < int v then v else old
      | 3 => min old v
      | 4 => max old v
      | 5 => old &&& v
      | 6 => old ||| v
      | 7 => old ^^^ v
      | 8 => v
      | _ => if old = f.cmpv.toNat % m then v else old
    let land := s.land.setBytes (landBase f.dst) (bytesOfNat w new)
    ∃ t, exec (.atom h f) s = .next t
      ∧ s.movedTo t (if f.reten = 1 then land.setBytes (landWord f.ret) (bytesOfNat 16 old) else land)

/-- R258: `msig` on an aligned staging word, with no ferry command of its context accepted before it and not complete: a saturating addition, the value, or
the greater of the two. What commands before it left in cache parts is written back first as its SCOPE asks: from DEVICE on no sector of device memory
stays dirty in any cache part (log entry 89). -/
def Sys2Proof.Claims.SignalsWord : Prop :=
  ∀ (s : State) (c : Cmd) (h : FHdr) (f : FerryMsigF), s.ferryStarts c h → h.sk = 0 → h.dk = 2 → s.soundStaging →
    (∀ p ∈ s.cmds, p.1 < s.focus.cmd → p.2.port ≠ 0) → s.mayLand c f.dst 4 → epOff f.dst % 4 = 0 →
    let s0 := cleanScope c.scope s
    let old := natOfBytes (s.land.bytes (landBase f.dst) 4)
    let v := f.value.toNat
    let put := fun (x : Nat) => ∃ t, exec (.ferry_msig h f) s = .next t ∧ s0.movedTo t (s.land.setBytes (landBase f.dst) (bytesOfNat 4 x))
    (f.sop = 0 → put (min (old + v) 0xFFFFFFFF)) ∧ (f.sop = 1 → put v) ∧ (f.sop = 2 → put (max old v))
      ∧ ((∀ p ∈ s.cache, ∀ x ∈ p.2, x.2.dirty = false) → s0 = s)
      ∧ (2 ≤ c.scope → ∀ p ∈ s0.cache, ∀ x ∈ p.2, x.1 < 2 ^ 60 → x.2.dirty = false)

/-- R256: `barinit` writes its barrier: PENDING, PHASE, counts and flags zero, and TARGET; with no arrival held at a barrier nothing else differs. -/
def Sys2Proof.Claims.BarrierSet : Prop :=
  ∀ (s : State) (c : Cmd) (h : FHdr) (f : BarinitF), s.ferryStarts c h → h.sk = 0 → h.dk = 0 → s.soundStaging →
    let slice := (f.bar.extractLsb' 0 6).toNat
    let off := 16 * (f.bar.extractLsb' 6 18).toNat
    landAllowed s c slice off 16 = true → (∀ p ∈ s.cmds, p.2.st ≠ .held) →
    ∃ t, exec (.barinit h f) s = .next t
      ∧ s.movedTo t (s.land.setBytes (slice * 2 ^ 22 + off) (List.replicate 8 0 ++ bytesOfNat 2 f.target.toNat ++ List.replicate 6 0))

/-- R257: `inval` places its markers at one instant: of the entries held, a covered one of a layout unit that is no ferry's is dropped, and a covered one of a
ferry's serves only commands that stand before the marker, which on its own ferry takes its place (log entry 84); every other entry stays. Where no cache
part holds a sector dirty, the cache parts stay as they are. -/
def Sys2Proof.Claims.MarksEntries : Prop :=
  ∀ (s : State) (c : Cmd) (h : FHdr) (f : InvalF), s.ferryStarts c h → h.sk = 0 → h.dk = 0 →
    let covered := fun (e : TlbEntry) => f.allobj = 1 ∨ (e.obj = f.obj.toNat ∧
      (e.isObj = true ∨ f.allt = 1 ∨ (f.first.toNat ≤ e.tile ∧ e.tile < f.first.toNat + f.ntiles.toNat)))
    let place := fun (port : Nat) => if port = c.unit then c.qseq else s.nextId
    ∃ t, exec (.inval h f) s = .next t ∧ t.nextId = s.nextId + 1 ∧ (t.cmds.find s.focus.cmd).map (·.st) = some .moved
      ∧ { t with tlb := s.tlb, cmds := s.cmds, nextId := s.nextId, cache := s.cache, cores := s.cores } = s
      ∧ ((∀ p ∈ s.cache, ∀ x ∈ p.2, x.2.dirty = false) → t.cache = s.cache ∧ t.cores = s.cores)
      ∧ ∀ e, e ∈ t.tlb ↔ ∃ x ∈ s.tlb, (¬ covered x ∧ e = x) ∨
          (covered x ∧ x.port < 64 ∧ e = { x with upTo := some (match x.upTo with
            | some q => min q (place x.port)
            | none => place x.port) })

/-- Atomics, signals, barriers and invalidation (R255 to R258). -/
def Obligations.AtomicsAndBarriers : Prop :=
  Claims.AtomicOnStaging ∧ Claims.SignalsWord ∧ Claims.BarrierSet ∧ Claims.MarksEntries

/-- R28, R240: a `fill` of staging that paused after `k` of its sectors goes on with the next one to its end. -/
def Sys2Proof.Claims.GoesOn : Prop :=
  ∀ (s : State) (id k : Nat) (c : Cmd) (h : FHdr) (f : FerryFillF),
    s.cmds.find id = some c → c.port = 0 → c.st = .running → c.begun = true → c.pos = 0 → c.nsect = k → c.instr = some (.ferry_fill h f) →
    c.bits 10 8 = 0 → c.bits 13 11 = 2 → c.ben = false → c.word.getLsbD 25 = false → h.dk = 2 → k ≤ f.count.toNat → s.soundStaging → s.resizing = [] →
    (∀ p ∈ s.cmds, p.2.port = 0 → p.2.unit = c.unit → p.2.st = .running ∨ p.2.isSuspended = true → c.qseq ≤ p.2.qseq) →
    s.mayLand c f.dst (16 * f.count.toNat) →
    let v := bytesOfNat 8 f.value.toNat
    ∃ t, exec (.ferry_continue id) s = .next t ∧ { s with focus := { s.focus with cmd := id } }.movedTo { t with focus := { s.focus with cmd := id } }
      (s.land.setBytes (landBase f.dst + 16 * k) (List.replicate (f.count.toNat - k) (v ++ v)).flatten)

/-- R263, R242: a firmware context's command whose writes are all made completes: it is gone, with HEN the semaphore of its core gains 1, and nothing
else differs. -/
def Sys2Proof.Claims.FerryCompletes : Prop :=
  ∀ (s : State) (id : Nat) (c : Cmd), s.cmds.find id = some c → c.st = .moved → c.port = 0 → c.bits 10 8 = 2 → c.bits 13 11 = 2 → c.ben = false →
    c.after = [] → c.afterSusps = [] → c.dirtied = [] → c.items = [] → c.op ≠ 0xEC → c.op ≠ 0xE1 → c.owner = none →
    ∃ t, exec (.ferry_command_complete id) s = .next t ∧ t.cmds.find id = none ∧ { t with cores := s.cores, cmds := s.cmds } = s
      ∧ (c.hen = false → t.cores = s.cores)
      ∧ ∀ k, c.issuer = .ctx k true none → c.hen = true →
        t.core k = { s.core k with hsemPend := (s.core k).hsemPend ++ [⟨0, c.h, 1, none⟩] } ∧ ∀ j, j ≠ k → t.core j = s.core j

/-- R260, R261: an arrival at a barrier of PENDING p, PHASE ph, TARGET n and counts x (even phases) and y (odd ones), with flags clear: at its phase it counts,
and the one that reaches TARGET completes the phase and zeroes its count; one phase ahead it counts for the next phase unless that is full;
two ahead it is held, three ahead, or with TARGET 0, it is bad. -/
def Sys2Proof.Claims.ArrivalsAtBarriers : Prop :=
  ∀ (p ph n x y : Nat), p < 2 ^ 32 → ph < 2 ^ 32 - 1 → n < 2 ^ 16 → x < n → y < n → ph % 2 = 0 →
    let bar := fun (ph x y : Nat) => p + ph * 2 ^ 32 + n * 2 ^ 64 + x * 2 ^ 80 + y * 2 ^ 96
    (x + 1 < n → arrive (bar ph x y) (ph % 4) = .counted (bar ph (x + 1) y))
    ∧ (x + 1 = n → arrive (bar ph x y) (ph % 4) = .counted (bar (ph + 1) 0 y))
    ∧ arrive (bar ph x y) ((ph + 1) % 4) = .counted (bar ph x (y + 1))
    ∧ arrive (bar ph x n) ((ph + 1) % 4) = .held
    ∧ arrive (bar ph x y) ((ph + 2) % 4) = .held
    ∧ arrive (bar ph x y) ((ph + 3) % 4) = .bad
    ∧ ∀ b, b < 4 → arrive (p + ph * 2 ^ 32) b = .bad

/-- Commands that go on, complete and arrive (R28, R240, R242, R260 to R263). -/
def Obligations.FerryCompletion : Prop := Claims.GoesOn ∧ Claims.FerryCompletes ∧ Claims.ArrivalsAtBarriers

/-! ## What happens to crews (R21, R29, R32 to R35, R132, R163, R230) -/

/-- R163, R230: a result that is the one thing due on a core reaches the operand file and the last-result latch of its station, and nothing else. -/
def Sys2Proof.Claims.ResultsReachStations : Prop :=
  ∀ (s : State) (c stn : Nat) (i : BitVec 4) (row : Row) (issue due : Nat) (org : Origin),
    let k := s.core c
    let x : Station := SMap.get {} k.stns stn
    k.pend = [⟨due, org, .result stn (.ofr i) row issue⟩] → due ≤ s.clock c → k.uses = [] → k.faulted = none →
    let lands := fun (i0 : Instr) => ∃ t, exec i0 s = .next t ∧ onlyCore c s t ∧
      (let k' := t.core c
       let x' : Station := SMap.get {} k'.stns stn
       k'.pend = [] ∧ { k' with pend := k.pend, stns := k.stns, uses := k.uses } = k
       ∧ (∀ u, u ≠ stn → SMap.get ({} : Station) k'.stns u = SMap.get {} k.stns u)
       ∧ (∀ z, SMap.get z x'.ofs i.toNat = row) ∧ (∀ j z, j ≠ i.toNat → SMap.get z x'.ofs j = SMap.get z x.ofs j)
       ∧ (x.llAt.1 < s.clock c → x'.ll = row ∧ x'.llAt = (s.clock c, issue)))
    (stn = 11 → lands (.xb_row_put c)) ∧ (stn ≠ 11 → lands (.station_result_land c))

/-- R32, R35: a hold that ends leaves the crew without one. Nothing else changes but for a record, which it may leave only if it was 1,024 core cycles or more
long and HOLD_LOG asks for it. -/
def Sys2Proof.Claims.HoldsEnd : Prop :=
  ∀ (s : State) (k cause n : Nat) (w : Crew), s.crew k = some w → w.hold = some (cause, n) → w.part < 16 →
    ∃ t, exec (.hold_release k) s = .next t ∧ t.crew k = some { w with hold := none } ∧ (∀ j, j ≠ k → t.crew j = s.crew j)
      ∧ recordsOnly { s with crews := t.crews } t
      ∧ ((s.core w.leader).holdLog = false ∨ n < 1024 → t = { s with crews := t.crews })

/-- R35, R21: a hold at the leader's limit ends with TIMING HOLD_LIMIT, and a crew clock at its end with TIMING CLOCK_END: the leader has the fault and the crew
stops; below the limit nothing happens. That the leader alone records it is the model's reading (log entry 20). -/
def Sys2Proof.Claims.CrewLimits : Prop :=
  ∀ (s : State) (k : Nat) (w : Crew), s.crew k = some w → (s.core w.leader).crew = some k →
    let lim := (s.core w.leader).holdLimit.toNat
    let stops := fun (i : Instr) (sub : Nat) => ∃ t, exec i s = .next t ∧ (t.core w.leader).faulted = some ⟨0x01, sub, 0⟩
      ∧ ∃ w', t.crew k = some w' ∧ w'.stopped = some (w.stopped.getD .faulted) ∧ w'.clock = w.clock ∧ w'.members = w.members
    (∀ cause n, w.hold = some (cause, n) →
      ((lim = 0 ∨ n < lim) → exec (.hold_limit k) s = .next s)
      ∧ (lim ≠ 0 → lim ≤ n → (s.core w.leader).faulted = none → stops (.hold_limit k) 0))
    ∧ (w.clock < 2 ^ 48 - 1 → exec (.clock_end k) s = .next s)
    ∧ (2 ^ 48 - 1 ≤ w.clock → (s.core w.leader).faulted = none → stops (.clock_end k) 8)

/-- R29, R13: a task whose sequencer has executed `exit` and of which nothing is outstanding is done, and its launch counts it; with the last one the launch
takes its status and its crew releases its cores and its clock. Until then nothing happens. -/
def Sys2Proof.Claims.TasksComplete : Prop :=
  ∀ (s : State) (c : Nat) (w : Crew), s.crewOf c = some w →
    let k := s.core c
    let ended := k.prog.wait = .exited ∧ k.taskDone = false ∧ coreQuiet s c = true
    (¬ ended → exec (.task_complete c) s = .next s)
    ∧ ∀ (r : Rec) (i : Nat) (x : Inst), ended → s.recs.find w.record = some r → r.inst = some i → s.insts.find i = some x → x.status = .running → r.st = .running →
      ((x.count ≠ 1 ∨ x.lastAdded = false) → ∃ t, exec (.task_complete c) s = .next t ∧ t.core c = { k with taskDone := true } ∧ onlyCore c { s with insts := t.insts } t
        ∧ t.insts.find i = some { x with count := x.count - 1, mark := joinStatus x.mark .done })
      ∧ (∀ n, x.count = 1 → x.lastAdded = true → x.mark = .done → crewOfRec s w.record = some (n, w) → s.crew n = some w →
        ∃ t, exec (.task_complete c) s = .next t ∧ t.crew n = none ∧ (∀ m ∈ w.members, (t.core m).crew = none)
          ∧ (t.recs.find w.record).map (·.st) = some (.done .done) ∧ (t.insts.find i).map (·.status) = some .done ∧ t.lpddr = s.lpddr ∧ t.land = s.land)

/-- R132, R370: the line buffer of a sequencer takes a constant line; a line of another kind, or one that an access fault of its object keeps from the buffer, is held as one no load may
read (for the access faults but TAG and UNCORRECTABLE, log entry 82); a translation fault asks the core's
firmware for service, once. -/
def Sys2Proof.Claims.ConstantLines : Prop :=
  ∀ (s : State) (c l : Nat),
    let k := s.core c
    k.prog.wait = .line l →
    let held := fun v => ∃ t, exec (.const_line_ready c) s = .next t ∧ onlyCore c s t
      ∧ t.core c = { k with prog := { k.prog with wait := .none, buf := some (l, v) } }
    (∀ b, fetchLine s c k.prog.obj l = .ok b → held (if lineKind b = 1 ∧ lineEngine b = 0 then some b else none))
    ∧ ∀ f, fetchLine s c k.prog.obj l = .error f →
      (f.code = 0x10 → f.sub ≠ 6 → f.sub ≠ 7 → held none)
      ∧ (f.code = 0x10 → f.sub = 6 ∨ f.sub = 7 → k.faulted = none →
          ∃ t, exec (.const_line_ready c) s = .next t ∧ (t.core c).faulted = some f ∧ t.focus = s.focus)
      ∧ ∀ n, f.code = 0x0F → freeSusp s = some n →
        (k.fwHolds = false → fetchWaits s c = false → ∃ t, exec (.const_line_ready c) s = .next t ∧ t.susps.find n = some (.fetch c false)
          ∧ (t.core c).prog = k.prog ∧ (t.core c).fwq.length = k.fwq.length + 1)
        ∧ (k.fwHolds = true ∨ fetchWaits s c = true → exec (.const_line_ready c) s = .next s)

/-- What happens to the crews and tasks of launches. -/
def Obligations.CrewEvents : Prop :=
  Claims.ResultsReachStations ∧ Claims.HoldsEnd ∧ Claims.CrewLimits ∧ Claims.TasksComplete ∧ Claims.ConstantLines

/-! ## Storage (R279 to R298) -/

/-- R287, R289, R252: a graph search that is ready, with nothing in the log range of its snapshot, writes K pairs at OUT: the best K of the live labelled nodes its traversal
has scored, best first, and empty pairs after them. A search whose snapshot has become ready stands in its controller's queue again. -/
def Sys2Proof.Claims.SearchesGraph : Prop :=
  (∀ (s : State) (c : Cmd) (h : SHdr) (f : SrchgF) (o : Obj) (hd : Head) (fd : Found), s.soundStaging → s.storeStarts c [3] o →
    let k := f.k.toNat + 1
    let c1 := { snapOf (c.atWork o) hd with begun := true }
    readHead s (c.atWork o) o = .ok hd → c1.snap ≤ ltOf s hd.log → entriesIn (s.log hd.log) hd.merged c1.snap = [] → s.mayIn c hd.vb → s.mayOut c (16 * k) →
    beamSearch s c1 o hd (elemCodes hd.elem hd.dim (s.land.bytes c.inAt hd.vb)) (f.beam.toNat + 1) (f.hops.toNat + 1) = (fd, none) →
    let hits := (fd.scored.filter (fun x => x.2.live && x.2.label != 2 ^ 64 - 1)).map (fun x => (x.1.1, x.2.label))
    ∃ (t : State) (res : List (Nat × Nat)), exec (.srchg h f) s = .next t
      ∧ s.movedTo t (s.land.setBytes c.outAt (pairBytes (hd.metric = 0) k res)) ∧ bestOf (hd.metric = 0) k hits res)
  ∧ ∀ (s : State) (c : Cmd) (id : Nat), s.cmds.find id = some c → c.isSearch = true → c.st = .waiting → c.wants = none →
      exec (.snapshot_ready id) s = .next { s with cmds := s.cmds.put id { c with st := .queued, wants := none } }

/-- R280: a search is not served while its controller has one queued of an earlier acceptance stamp, or of the same stamp and a lower source number. -/
def Sys2Proof.Claims.SearchOrder : Prop :=
  ∀ (s : State) (c d : Cmd) (id : Nat), s.cmds.find s.focus.cmd = some c → s.cmds.find id = some d → c.isSearch = true → d.isSearch = true → d.unit = c.unit →
    d.st = .queued → (d.stamp < c.stamp ∨ (d.stamp = c.stamp ∧ d.issuerSource < c.issuerSource)) →
    (∀ h f, exec (.srchg h f) s = .next s) ∧ ∀ h f, exec (.srchv h f) s = .next s

/-- R290, R252: a search of inverted lists likewise, of the records of the lists it probes, whose tiles its object has (R284). -/
def Sys2Proof.Claims.SearchesLists : Prop :=
  ∀ (s : State) (c : Cmd) (h : SHdr) (f : SrchvF) (o : Obj) (hd : Head) (ps bad : List Nat) (fd : Found) (pages : List (Nat × Nat × Bool)),
    s.storeStarts c [4] o → s.soundStaging →
    let k := f.k.toNat + 1
    let q := elemCodes hd.elem hd.dim (s.land.bytes c.inAt hd.vb)
    let c1 := { snapOf (c.atWork o) hd with begun := true }
    readHead s (c.atWork o) o = .ok hd → c1.snap ≤ ltOf s hd.log → entriesIn (s.log hd.log) hd.merged c1.snap = [] → s.mayIn c hd.vb → s.mayOut c (16 * k) →
    (probeCheck s (c.atWork o) f o hd).toOption.isSome → probeSet s c1 f o hd q = .ok (ps, bad) →
    probeLists s c1 o hd q ps (bad.foldl (fun f p => f.badPage p 1) {}, []) = ((fd, pages), none) →
    let hits := (pages.filter (·.2.2)).map (fun x => (x.1, x.2.1))
    ∃ (t : State) (res : List (Nat × Nat)), exec (.srchv h f) s = .next t
      ∧ s.movedTo t (s.land.setBytes c.outAt (pairBytes (hd.metric = 0) k res)) ∧ bestOf (hd.metric = 0) k hits res

/-- R292: a scan of readable pages writes at OUT with K 0 every score in page and iteration order, the default NaN for a skipped one; with K the best K of
those that were not skipped, best first, each under the number of its page and iteration. -/
def Sys2Proof.Claims.Scans : Prop :=
  ∀ (s : State) (c : Cmd) (h : SHdr) (f : DscanF) (o : Obj) (d : Desc) (pages : List (Nat × List (Option Nat))), s.storeStarts c [7, 3, 4] o → s.soundStaging →
    let cur := { c.atWork o with begun := true, version := (s.index o.id).version }
    let n := (d.qlen * elemBits d.elem + 7) / 8
    let q := elemCodes d.elem d.qlen (s.land.bytes (c.inAt + 64) n)
    s.mayIn c (64 + n) → parseDesc (s.land.bytes c.inAt 64) = some d → f.first.toNat + f.npages.toNat ≤ o.tiles →
    scanPages s cur o d q ((List.range f.npages.toNat).map (f.first.toNat + ·)) [] = (pages, none) →
    (f.k = 0 →
      let all := pages.flatMap (fun p => p.2.flatMap (fun v => bytesOfNat 4 (v.getD 0x7FC00000)))
      s.mayOut c all.length → ∃ t, exec (.dscan h f) s = .next t ∧ s.movedTo t (s.land.setBytes c.outAt all))
    ∧ (f.k ≠ 0 → s.mayOut c (16 * f.k.toNat) →
      let hits := pages.flatMap (fun p => p.2.zipIdx.filterMap (fun v => v.1.map (fun x => (x, p.1 * 2 ^ 16 + v.2))))
      ∃ (t : State) (res : List (Nat × Nat)), exec (.dscan h f) s = .next t
        ∧ s.movedTo t (s.land.setBytes c.outAt (pairBytes (f.ord = 0) f.k.toNat res)) ∧ bestOf (f.ord = 0) f.k.toNat hits res)

/-- R293, R291: a page read copies its pages to OUT, when it starts with every codeword readable, and when the retry of its one failing codeword is done; one that
cannot be read ends it. -/
def Sys2Proof.Claims.ReadsPages : Prop :=
  ∀ (s : State) (c : Cmd) (h : SHdr) (f : PgrdF) (o : Obj), s.soundStaging → (s.index o.id).old = [] →
    (∀ (a : Nat → Nat),
      let n := f.npages.toNat + 1
      s.storeStarts c [7, 3, 4, 6] o → f.first.toNat + n ≤ o.tiles → s.mayOut c (16384 * n) →
      (∀ i, i < n → pageOf s (c.atWork o) o (f.first.toNat + i) = .ok (a i) ∧ pageCheck s (c.atWork o) o (a i) 16384 = .ok ()) →
      ∃ t, exec (.pgrd h f) s = .next t ∧ s.movedTo t (s.land.setBytes c.outAt ((List.range n).flatMap (fun i => flashBytes s o.id (a i) 16384))))
    ∧ ∀ (id a page cw : Nat) (readable : Bool),
      s.cmds.find id = some c → c.port = 1 → c.op = 0xF7 → c.st = .waiting → c.wants = some (4 * page + cw) → s.resizing = [] → c.ben = false → c.pos = 0 →
      c.settled = [] → c.instr = some (.pgrd h f) → f.npages = 0 →
      flashObj s c.portOf c.req [7, 3, 4, 6] c.obj = .ok o → f.first.toNat + 1 ≤ o.tiles → s.mayOut c 16384 → pageOf s c o f.first.toNat = .ok a →
      (s.keys.find o.id).isSome → (unitsOf 16384 a 16384).all (spareOk s o.id o.colour) = true → 4 * page + cw ∈ unitsOf 4096 a 16384 → 4 * page + cw ∈ s.hardFail → (1, 4 * page + cw) ∉ s.uncorr →
      (∀ k ∈ unitsOf 4096 a 16384, k ≠ 4 * page + cw → k ∉ s.hardFail ∧ (1, k) ∉ s.uncorr) →
      ∃ t, exec (.read_retry_done id page cw readable) s = .next t
        ∧ (readable = true → s.movedAs t id (s.land.setBytes c.outAt (flashBytes s o.id a 16384)))
        ∧ (readable = false → (∀ q, (s.reg (0xD01 + 4 * q)).getLsbD 5 = false) → t.cmds.find id = none ∧ t.flash = s.flash)

/-- R294, R286: `append` and `remove` stamp their entries in input order, from the present or the stamp after the last one on, and put them at the end of the log;
no page and no staging byte changes before they are durable. -/
def Sys2Proof.Claims.Appends : Prop :=
  ∀ (s : State) (c : Cmd) (h : SHdr) (o lo : Obj) (hd : Head), s.storeStarts c [3, 4] o → s.soundStaging →
    let c1 := c.atWork o
    appendAhead { s with cmds := s.cmds.put s.focus.cmd c1 } c1 = false →
    readHead s (c1.current s) o = .ok hd → flashObj s c.portOf c.req [6] hd.log = .ok lo →
    let l := s.log hd.log
    let cap := 16384 * (lo.tiles - 1)
    let go := fun (i : Instr) (n kind size : Nat) (vec : Nat → List Byte) =>
      let es := entryBytesOf hd kind
      let label := fun (j : Nat) => natOfBytes (s.land.bytes (c.inAt + j * size) 8)
      let first := max s.now (l.prev + 1)
      s.mayIn c (n * size) → (∀ j, j < n → label j ≠ 2 ^ 64 - 1) → (placeEntries es n 0).2 ≤ cap →
      (∀ a ∈ (placeEntries es n l.tail).1, ∃ x, pageOf s (c1.current s) lo (1 + a / 16384 % (lo.tiles - 1)) = .ok x) →
      logUsed l hd.merged (placeEntries es n l.tail).2 ≤ cap →
      ∃ (t : State) (new : List LogEntry), exec i s = .next t ∧ { t with logs := s.logs, indexes := s.indexes, cmds := s.cmds } = s ∧ (∀ k, t.index k = s.index k)
        ∧ (t.cmds.find s.focus.cmd).map (·.st) = some .moved
        ∧ t.log hd.log = { l with entries := l.entries ++ new, prev := first + n - 1, tail := (placeEntries es n l.tail).2 } ∧ (∀ k, k ≠ hd.log → t.log k = s.log k)
        ∧ new.length = n ∧ ∀ j, j < n → ∃ place, new[j]? = some ⟨label j, first + j, kind, vec j, false, place⟩
    (∀ f : AppendF, f.kind.toNat ≤ 1 → go (.append h f) (f.n.toNat + 1) f.kind.toNat (16 + hd.stride) (fun j => s.land.bytes (c.inAt + j * (16 + hd.stride) + 16) hd.vb))
    ∧ ∀ f : RemoveF, go (.remove h f) (f.n.toNat + 1) 2 8 (fun _ => [])

/-- R298, R286: `stamp` reports the present and the landed-through stamp of its index's log in the last two words of its status record; the stamp never goes back. -/
def Sys2Proof.Claims.Stamps : Prop :=
  ∀ (s : State) (c : Cmd) (h : SHdr) (o : Obj) (hd : Head), s.storeStarts c [3, 4] o → readHead s ((c.atWork o).current s) o = .ok hd →
    let lt := ltOf s hd.log
    ∃ (t : State) (c' : Cmd), exec (.stamp h) s = .next t ∧ { t with logs := s.logs, cmds := s.cmds } = s ∧ t.cmds.find s.focus.cmd = some c' ∧ c'.st = .moved
      ∧ c'.status.length = 32 ∧ c'.status.drop 16 = bytesOfNat 8 s.now ++ bytesOfNat 8 lt
      ∧ t.log hd.log = { s.log hd.log with lt := lt } ∧ (∀ k, k ≠ hd.log → t.log k = s.log k) ∧ (s.log hd.log).lt ≤ lt
      ∧ ∀ e ∈ (s.log hd.log).entries, e.durable = false → lt ≤ max (s.log hd.log).lt (e.stamp - 1)

/-- R295: `merge` with nothing above MERGED completes at once, its status naming M and MERGED; else, if room is found, its index is merging up to M. M is what it asks
for, at most LT, and LT for 0. -/
def Sys2Proof.Claims.Merges : Prop :=
  ∀ (s : State) (c : Cmd) (h : SHdr) (f : MergeF) (o : Obj) (hd : Head), s.storeStarts c [3, 4] o → readHead s ((c.atWork o).current s) o = .ok hd →
    (s.index c.obj).merging = none →
    let lt := ltOf s hd.log
    let m := if f.m = 0 then lt else min f.m.toNat lt
    let id := s.focus.cmd
    (m ≤ hd.merged → ∃ t, exec (.merge h f) s = .next t ∧ s.movedTo t s.land
      ∧ (t.cmds.find id).map (fun c => c.status.drop 16) = some (bytesOfNat 8 m ++ bytesOfNat 8 hd.merged))
    ∧ (hd.merged < m →
      let s1 := { s with cmds := s.cmds.put id { c.atWork o with begun := true } }
      ∀ s2, startMerge ((c.atWork o).current s) o hd m (some id) s1 = .ok s2 →
        ∃ t, exec (.merge h f) s = .next t ∧ (t.index o.id).merging = some (m, some id) ∧ (t.index o.id).version = (s.index o.id).version
          ∧ { t with indexes := s.indexes, cmds := s.cmds } = s ∧ (t.cmds.find id).map (·.st) = some .running)

/-- R286, R295 to R297: what storage does by itself. Entries up to a stamp become durable, and LT stays below those that are not. A merge starts by itself at
MTHRESH and not below. A merge publishes at one instant: a new version, no merge in progress, and without a search of the version before the log's
entries up to M are gone; while an older version is read it waits. -/
def Sys2Proof.Claims.StorageByItself : Prop :=
  (∀ (s : State) (obj stamp : Nat), ∃ t, exec (.log_durable obj stamp) s = .next t
      ∧ (t.log obj).entries = (s.log obj).entries.map (fun e => if e.stamp ≤ stamp then { e with durable := true } else e)
      ∧ (s.log obj).lt ≤ (t.log obj).lt ∧ (∀ e ∈ (t.log obj).entries, e.durable = false → (t.log obj).lt ≤ max (s.log obj).lt (e.stamp - 1))
      ∧ (t.log obj).prev = (s.log obj).prev ∧ (∀ k, k ≠ obj → t.log k = s.log k) ∧ t.land = s.land ∧ t.lpddr = s.lpddr ∧ t.cores = s.cores ∧ t.cmds = s.cmds)
  ∧ (∀ (s : State) (obj : Nat) (e : Cmd) (o : Obj) (hd : Head), engineHead s obj = some (e, o, hd) →
      let n := ((entriesIn (s.log hd.log) hd.merged (2 ^ 64)).map (fun e => entryBytesOf hd e.kind)).sum
      let lt := ltOf s hd.log
      ((hd.mthresh = 0 ∨ n < hd.mthresh) → exec (.merge_autostart obj) s = .next s)
      ∧ ∀ s', hd.mthresh ≠ 0 → hd.mthresh ≤ n → (s.index obj).merging = none → hd.merged < lt → startMerge e o hd lt none s = .ok s' →
        exec (.merge_autostart obj) s = .next s' ∧ (s'.index o.id).merging = some (lt, none))
  ∧ ∀ (s : State) (obj m : Nat) (cmd : Option Nat), (s.index obj).merging = some (m, cmd) →
      let v := (s.index obj).version
      ((∃ x ∈ versionsRead s obj, x < v) → exec (.merge_publish obj) s = .next s)
      ∧ ((∀ x ∈ versionsRead s obj, v ≤ x) →
        ∃ t, exec (.merge_publish obj) s = .next t ∧ (t.index obj).version = v + 1 ∧ (t.index obj).merging = none ∧ (t.index obj).shadow = []
          ∧ t.land = s.land ∧ t.lpddr = s.lpddr ∧ t.cores = s.cores ∧ ((s.index obj).shadow = [] → t.flash = s.flash)
          ∧ (∀ e o hd, engineHead s obj = some (e, o, hd) → v ∉ versionsRead s obj →
              (t.log hd.log).entries = (s.log hd.log).entries.filter (fun x => decide (m < x.stamp)))
          ∧ (∀ id c, cmd = some id → s.cmds.find id = some c → (t.cmds.find id).map (·.st) = some .moved)
          ∧ (cmd = none → t.cmds = s.cmds)
          ∧ ∀ p b o s', (s.index obj).shadow = [(p, b)] → objEntry s ⟨64, 0⟩ obj = .ok o → flashWrite s obj o.colour (p * 16384) b = .ok s' → t.flash = s'.flash)

/-- R281, R294, R307, R242: a firmware context's storage or key-value command that has done its work completes: its status record stands at STAT, it is gone, and without HEN
nothing else differs; an update waits until LT has reached its last stamp, and reports LT. -/
def Sys2Proof.Claims.StatusWritten : Prop :=
  ∀ (s : State) (id : Nat) (c : Cmd), s.cmds.find id = some c → c.st = .moved → c.ben = false → c.hen = false → c.owner = none → c.dirtied = [] → s.resizing = [] → s.soundStaging →
    let at0 := landAddr (c.bits 183 156)
    landAllowed s c at0.1 at0.2 c.status.length = true →
    let land := s.land.setBytes (at0.1 * 2 ^ 22 + at0.2) c.status
    (c.port = 1 → c.status.length = 32 → c.partialDone = false →
      (c.op ≠ 0xF3 → c.op ≠ 0xF4 → exec (.store_command_complete id) s = .next { s with land := land, cmds := s.cmds.del id })
      ∧ (c.op = 0xF3 ∨ c.op = 0xF4 →
        (ltOf s c.snap < c.last → exec (.store_command_complete id) s = .next s)
        ∧ (c.last ≤ ltOf s c.snap → ∃ t, exec (.store_command_complete id) s = .next t ∧ { t with logs := s.logs } = { s with land := land, cmds := s.cmds.del id }
            ∧ (t.log c.snap).lt = ltOf s c.snap)))
    ∧ (c.port = 2 → exec (.kv_command_complete id) s = .next { s with land := land, cmds := s.cmds.del id })

/-- R252: the pairs that `ltopk` writes are the best K of those that are not empty, best first; of equal ones with one identifier the one of the lower list. -/
def Sys2Proof.Claims.MergesTheBest : Prop :=
  ∀ (s : State) (c : Cmd) (h : FHdr) (f : LtopkF), s.ferryStarts c h → h.sk = 2 → h.dk = 2 → s.soundStaging →
    let k := f.count.toNat
    let lists := if f.nc = 0 then 64 else f.nc.toNat
    let stride := 16 * (f.src.extractLsb' 28 18).toNat
    let read := fun (l i : Nat) =>
      let b := s.land.bytes (landBase f.src + l * stride + 16 * i) 16
      (⟨natOfBytes (b.take 8), natOfBytes ((b.drop 8).take 4), l⟩ : Pair)
    let pairs := ((List.range lists).flatMap (fun l => (List.range f.len.toNat).map (read l))).filter (fun p => p.id ≠ 2 ^ 64 - 1)
    let larger := decide (f.ord = 0)
    let first := fun (p q : Pair) => ranksFirst larger (p.score, p.id) (q.score, q.id)
      ∧ (¬ f32Nan p.score → ¬ f32Nan q.score → f32Rank p.score = f32Rank q.score → p.id = q.id → p.list ≤ q.list)
    (∀ l, l < lists → landAllowed s c (epSlice f.src) (epOff f.src + l * stride) (16 * f.len.toNat) = true) → s.mayLand c f.dst (16 * k) →
    ∃ (t : State) (best rest : List Pair), exec (.ltopk h f) s = .next t ∧ best.length = min k pairs.length ∧ pairs.Perm (best ++ rest)
      ∧ best.Pairwise first ∧ (∀ p ∈ best, ∀ q ∈ rest, first p q)
      ∧ s.movedTo t (s.land.setBytes (landBase f.dst) (pairBytes larger k (best.map (fun p => (p.score, p.id)))))

/-- R311 to R315: what `kvfree`, `kvret`, `kvmap`, `kvapp` and `kvld` do, each of one block of a sequence of a space of one layer and head, with pages of one
block page in one tile of device memory: the bytes of the space that change and those of the block. -/
def Sys2Proof.Claims.KvEffects : Prop :=
  ∀ (s : State) (id : Nat) (c : Cmd) (h : SHdr) (sp : KvSpace) (a n q : Nat) (x : SeqState) (e : Ent1) (b : Ent2),
    let k := c.kctx s
    sp.layers = 1 → sp.kvh = 1 → sp.d = 128 → sp.kf ≠ 2 → sp.o.permits c.req .write = true → s.flatAt sp.o k.p .write a n → apart (tileAddr sp.o.ttPtr 0) 8 a n →
    q < sp.nseq → getSeq s k sp q = .ok x → sp.seqt + 32 * q + 32 ≤ n → 56 ≤ n → sp.t2 + 16 * e.g + 16 ≤ n → e.dev = k.dev → getBlk s k sp e.g = .ok b →
    let blk := fun (v : Ent2) (m : Memory) => m.setBytes (a + (sp.t2 + 16 * e.g)) (bytesOfNat 16 v.num)
    let slot := fun (i : Nat) (v : Ent1) (m : Memory) => m.setBytes (a + sp.at1 q 0 0 i) (bytesOfNat 16 v.num)
    let seq := fun (v : SeqState) (m : Memory) => m.setBytes (a + (sp.seqt + 32 * q)) (bytesOfNat 32 (v.next + v.count * 2 ^ 32 + v.high * 2 ^ 64))
    let free := fun (head count : Nat) (m : Memory) => m.setBytes (a + 48) (bytesOfNat 8 (head + count * 2 ^ 32))
    let pushed : Ent2 := { b with st := 0, span := 0, maps := 0, next := sp.head }
    let fewer : Ent2 := { b with maps := b.maps - 1 }
    let does := fun (i : Instr) (aux : Nat) (m : Memory) => ∃ t, kvEffect i id c sp s = .ok (({ aux := aux, seq := q } : KDone), t)
      ∧ { t with lpddr := s.lpddr, colour := s.colour } = s ∧ ∀ y, t.lpddr.byte y = m.byte y
    -- one entry, which `kvfree` clears and `kvret` retires
    (x.count = 1 → getEnt1 s k sp q 0 0 0 = .ok e → e.live = true → sp.at1 q 0 0 0 + 16 ≤ n →
      (∀ f : KvfreeF, f.n = 0 → s.mayIn c 4 → s.soundStaging → natOfBytes (s.land.bytes c.inAt 4) = q →
        (b.st = 1 → does (.kvfree h f) 1 (free e.g (sp.count + 1) (seq ⟨0, 0, 0⟩ (slot 0 emptyEnt (blk pushed s.lpddr)))))
        ∧ (b.st = 2 → does (.kvfree h f) 0 (free sp.head sp.count (seq ⟨0, 0, 0⟩ (slot 0 emptyEnt (blk fewer s.lpddr))))))
      ∧ ∀ f : KvretF, f.seq.toNat = q → f.tg.toNat = e.span →
        let after : SeqState := ⟨if f.mode = 1 then 0 else x.high, 0, x.high⟩
        (b.st = 1 → does (.kvret h f) 1 (seq after (free e.g (sp.count + 1) (slot 0 retiredEnt (blk pushed s.lpddr)))))
        ∧ (b.st = 2 → does (.kvret h f) 1 (seq after (free sp.head sp.count (slot 0 retiredEnt (blk fewer s.lpddr))))))
    -- a SHARED block of this module mapped
    ∧ (∀ f : KvmapF, f.seq.toNat = q → f.dev.toNat = k.dev → f.g0.toNat = e.g → f.nb = 0 → k.dev < fieldOf (s.reg 0xE30) 19 10 → x.count < sp.lmax → b.st = 2 → b.maps < 65535 →
      x.next + 64 ≤ 2 ^ 32 - 1 → sp.at1 q 0 0 x.count + 16 ≤ n →
      does (.kvmap h f) 1 (seq ⟨x.next + f.toklast.toNat, x.count + 1, max x.high (x.next + f.toklast.toNat)⟩
        (blk { b with maps := b.maps + 1 } (slot x.count ⟨1, b.tier, b.span, true, k.dev, f.toklast.toNat, e.g, x.next⟩ s.lpddr))))
    -- a block in device memory: a token appended to it, its tokens loaded
    ∧ (b.tier = 0 → s.soundBursts (16384 * b.addr) 16384 sp.o.colour →
      (∀ f : KvappF, f.seq.toNat = q → f.layer = 0 → f.n = 0 → x.count ≠ 0 → getEnt1 s k sp q 0 0 (x.count - 1) = .ok e → e.st = 1 → e.ro = false → e.pos ≤ x.next →
        x.next - e.pos + 1 ≤ 64 → x.next + 1 ≤ 2 ^ 32 - 1 → s.mayIn c 256 → s.soundStaging → sp.at1 q 0 0 (x.count - 1) + 16 ≤ n →
        apart (tileAddr sp.o.ttPtr 0) 8 (16384 * b.addr) 16384 →
        let at0 := 16384 * b.addr + 128 * (x.next - e.pos)
        let rows := (s.lpddr.setBytes at0 (s.land.bytes c.inAt 128)).setBytes (at0 + 8192) (s.land.bytes (c.inAt + 128) 128)
        let m := slot (x.count - 1) { e with ntok := x.next - e.pos + 1 } rows
        does (.kvapp h f) 0 (if f.commit = 1 then seq { x with next := x.next + 1, high := max x.high (x.next + 1) } m else m))
      ∧ ∀ (f : KvldF) (th : List Val), f.seq.toNat = q → f.layer = 0 → f.head = 0 → f.fromr = 0 → x.count = 1 → getEnt1 s k sp q 0 0 0 = .ok e → e.st = 1 → 1 ≤ e.ntok →
        e.ntok ≤ f.rows.toNat + 1 → e.ntok ≤ 64 → e.pos = b.spos → kvThetas s k.p sp = .ok th →
        let at0 := 16384 * b.addr
        let zeros := List.replicate (128 * (f.rows.toNat + 1 - e.ntok)) (0 : Byte)
        let keys := s.lpddr.bytes at0 (128 * e.ntok)
        let vals := s.lpddr.bytes (at0 + 8192) (128 * e.ntok)
        (∀ y ∈ keys ++ vals, ((kvFmt sp.kf).decode y.toNat).isFin = true) →
        ∃ nq, kvEffect (.kvld h f) id c sp s = .ok (({ aux := e.ntok, nq := nq, seq := q, out := keys ++ zeros ++ (vals ++ zeros) } : KDone), s))

/-- R260, R261: arrivals at a barrier in an odd phase, where the two counts change their parts, and one that completes two phases at once: its own, and the
next, whose count is full. -/
def Sys2Proof.Claims.ArrivalsOfEveryPhase : Prop :=
  ∀ (p ph n x y : Nat), p < 2 ^ 32 → ph < 2 ^ 32 - 2 → n < 2 ^ 16 → x < n →
    let bar := fun (ph own next : Nat) => p + ph * 2 ^ 32 + n * 2 ^ 64 + (if ph % 2 = 0 then own * 2 ^ 80 + next * 2 ^ 96 else next * 2 ^ 80 + own * 2 ^ 96)
    (x + 1 < n → y ≤ n → arrive (bar ph x y) (ph % 4) = .counted (bar ph (x + 1) y))
    ∧ (x + 1 = n → y < n → arrive (bar ph x y) (ph % 4) = .counted (bar (ph + 1) y 0))
    ∧ (x + 1 = n → arrive (bar ph x n) (ph % 4) = .counted (bar (ph + 2) 0 0))
    ∧ (y < n → arrive (bar ph x y) ((ph + 1) % 4) = .counted (bar ph x (y + 1)))
    ∧ arrive (bar ph x n) ((ph + 1) % 4) = .held
    ∧ (y ≤ n → arrive (bar ph x y) ((ph + 2) % 4) = .held ∧ arrive (bar ph x y) ((ph + 3) % 4) = .bad)

/-- R11, R263, R242: a program context's ferry command whose writes are all made completes as a member of its launch: it is gone, the launch's count is one lower, and with
HEN its core's semaphore gains 1. A command that a soft fault ended marks the launch as partially complete. -/
def Sys2Proof.Claims.ProgramCommandEnds : Prop :=
  ∀ (s : State) (id k rid i : Nat) (c : Cmd) (r : Rec) (x : Inst), s.cmds.find id = some c → c.st = .moved → c.port = 0 → c.bits 10 8 = 2 → c.bits 13 11 = 2 → c.ben = false →
    c.after = [] → c.afterSusps = [] → c.dirtied = [] → c.items = [] → c.op ≠ 0xEC → c.op ≠ 0xE1 →
    c.issuer = .ctx k false (some rid) → (∃ w, s.crewOf k = some w ∧ w.record = rid) → s.recs.find rid = some r → r.inst = some i → s.insts.find i = some x → 2 ≤ x.count.toNat →
    ∃ t, exec (.ferry_command_complete id) s = .next t ∧ t.cmds = s.cmds.del id
      ∧ t.insts.find i = some { x with count := x.count - 1, mark := joinStatus x.mark (if c.soft || c.partialDone then .part else .done) }
      ∧ (∀ j, j ≠ i → t.insts.find j = s.insts.find j) ∧ t.recs = s.recs ∧ t.crews = s.crews ∧ t.land = s.land ∧ t.lpddr = s.lpddr
      ∧ (t.core k).hsemPend = (s.core k).hsemPend ++ (if c.hen then [⟨0, c.h, 1, none⟩] else []) ∧ ∀ j, j ≠ k → t.core j = s.core j

/-- Searches, scans, merges of lists and page reads (R252, R280, R287 to R293); effects of key-value commands (R311 to R315); arrivals at barriers and the end of a
program's command (R11, R260 to R263). -/
def Obligations.StorageReads : Prop :=
  Claims.SearchesGraph ∧ Claims.SearchOrder ∧ Claims.SearchesLists ∧ Claims.Scans ∧ Claims.MergesTheBest ∧ Claims.ReadsPages
  ∧ Claims.KvEffects ∧ Claims.ArrivalsOfEveryPhase ∧ Claims.ProgramCommandEnds

/-- Updates, stamps, merges and completion on the storage side (R281, R286, R294 to R298). -/
def Obligations.StorageUpdates : Prop :=
  Claims.Appends ∧ Claims.Stamps ∧ Claims.Merges ∧ Claims.StorageByItself ∧ Claims.StatusWritten

/-! ## The key-value engine (R299 to R321) -/

/-- R307, R308, R310 to R318: a key-value command whose space opens and whose landing areas it may use takes its effect, if that meets no fault, and writes its results at OUT and has its status record: opcode, STATUS, NQ and
AUX; NEXTPOS and COUNT of its sequence; the time; the free blocks and HIGH; and for `kvld` the count sector. -/
def Sys2Proof.Claims.KvCommands : Prop :=
  ∀ (s s2 : State) (c : Cmd) (i : Instr) (o : Obj) (sp sp2 : KvSpace) (n : Nat) (r : KDone) (x : SeqState),
    (∃ h, (∃ f, i = .kvalloc h f) ∨ (∃ f, i = .kvfree h f) ∨ (∃ f, i = .kvapp h f) ∨ (∃ f, i = .kvmap h f) ∨ (∃ f, i = .kvret h f) ∨ (∃ f, i = .kvld h f)
      ∨ ∃ f, i = .kvq h f) →
    let id := s.focus.cmd
    s.cmds.find id = some c → c.st = .queued → kvBehind s c = false → s.resizing = [] → c.ben = false → c.begun = false → c.tables = [] →
    objEntry s c.portOf c.obj = .ok o →
    let c0 := c.atWork o
    let s0 := { s with cmds := s.cmds.put id c0 }
    c0.space s0 = .ok sp → kvOutBytes s0 c0 sp i = .ok n → (n = 0 ∨ s0.mayOut c0 n) →
    landAllowed s0 c0 (landAddr (c.bits 183 156)).1 (landAddr (c.bits 183 156)).2 (if c.op = 0xFD then 48 else 32) = true →
    let c1 := { c0 with begun := true }
    kvEffect i id c1 sp { s with cmds := s.cmds.put id c1 } = .ok (r, s2) →
    (s2.cmds.find id).isSome → c1.space s2 = .ok sp2 → getSeq s2 (c1.kctx s2) sp2 r.seq = .ok x →
    s2.soundStaging → (r.out ≠ [] → s2.mayOut c1 r.out.length) →
    ∃ t, exec i s = .next t ∧ s2.movedAs t id (s2.land.setBytes c.outAt r.out)
      ∧ (t.cmds.find id).map (·.status) = some (bytesOfNat 8 (c.op + r.status * 2 ^ 8 + r.nq % 2 ^ 16 * 2 ^ 16 + r.aux * 2 ^ 32)
        ++ bytesOfNat 8 (x.next + x.count * 2 ^ 32) ++ bytesOfNat 8 s2.now ++ bytesOfNat 8 (sp2.count + x.high * 2 ^ 32)
        ++ (if c.op = 0xFD then bytesOfNat 16 r.aux else []))

/-- R310: `kvalloc` for one sequence of a space of one layer and head, in one tile of device memory: the first free block is owned from NEXTPOS on, the next slot names it,
COUNT grows by 1, and the free list goes on after it. -/
def Sys2Proof.Claims.AllocatesBlock : Prop :=
  ∀ (s : State) (id : Nat) (c : Cmd) (h : SHdr) (f : KvallocF) (sp : KvSpace) (a n : Nat) (x : SeqState) (b : Ent2),
    let k := c.kctx s
    let q := natOfBytes (s.land.bytes c.inAt 4)
    f.n = 0 → s.mayIn c 4 → s.soundStaging → q < sp.nseq → sp.layers = 1 → sp.kvh = 1 → sp.o.permits c.req .write = true →
    s.flatAt sp.o k.p .write a n → apart (tileAddr sp.o.ttPtr 0) 8 a n →
    getSeq s k sp q = .ok x → x.count < sp.lmax → x.next ≤ 2 ^ 32 - 65 → 1 ≤ sp.count → getBlk s k sp sp.head = .ok b → b.st = 0 →
    sp.at1 q 0 0 x.count + 16 ≤ n → sp.t2 + 16 * sp.head + 16 ≤ n → sp.seqt + 32 * q + 32 ≤ n → 56 ≤ n →
    let m := (((s.lpddr.setBytes (a + (sp.t2 + 16 * sp.head)) (bytesOfNat 16 (Ent2.num ⟨1, b.tier, 0, 0, b.addr, x.next, 0, false⟩))).setBytes
      (a + sp.at1 q 0 0 x.count) (bytesOfNat 16 (Ent1.num ⟨1, b.tier, f.span.toNat, false, k.dev, 0, sp.head, x.next⟩))).setBytes
      (a + (sp.seqt + 32 * q)) (bytesOfNat 32 (x.next + (x.count + 1) * 2 ^ 32 + x.high * 2 ^ 64))).setBytes (a + 48) (bytesOfNat 8 (b.next + (sp.count - 1) * 2 ^ 32))
    ∃ t, kvEffect (.kvalloc h f) id c sp s = .ok (({ aux := 1, seq := q } : KDone), t) ∧ { t with lpddr := s.lpddr, colour := s.colour } = s
      ∧ ∀ y, t.lpddr.byte y = m.byte y

/-- R310 to R318, R320: what keeps a key-value command from its effect, and effects that change nothing: a sequence, layer or head out of range; a table that is full; no block to append
to; too few free blocks, where `kvalloc` ends SHORT and AUX says how many are missing; a `kvret` that matches nothing; and `kvq`, which returns the state and the
slots asked for, as they stand. -/
def Sys2Proof.Claims.KvOutcomes : Prop :=
  ∀ (s : State) (id : Nat) (c : Cmd) (h : SHdr) (sp : KvSpace),
    let k := c.kctx s
    let bad := fun (i : Instr) (sub : Nat) => kvEffect i id c sp s = .error ((⟨0x0A, sub, 0⟩, { obj := sp.o.domain s }), s)
    (∀ f : KvappF, (sp.nseq ≤ f.seq.toNat → bad (.kvapp h f) 0) ∧ (f.seq.toNat < sp.nseq → sp.layers ≤ f.layer.toNat → bad (.kvapp h f) 9)
      ∧ ∀ x, f.seq.toNat < sp.nseq → f.layer.toNat < sp.layers → 1 ≤ sp.kvh → getSeq s k sp f.seq.toNat = .ok x → x.count = 0 → bad (.kvapp h f) 4)
    ∧ (∀ f : KvmapF, (sp.nseq ≤ f.seq.toNat → bad (.kvmap h f) 0)
      ∧ ∀ x, f.seq.toNat < sp.nseq → f.dev.toNat = k.dev → getSeq s k sp f.seq.toNat = .ok x → sp.lmax < x.count + (f.nb.toNat + 1) → bad (.kvmap h f) 3)
    ∧ (∀ f : KvretF, (sp.nseq ≤ f.seq.toNat → bad (.kvret h f) 0)
      ∧ ∀ x es, f.seq.toNat < sp.nseq → getSeq s k sp f.seq.toNat = .ok x → tableEnts s k sp f.seq.toNat 0 0 x.count = .ok es →
        (∀ e ∈ es, e.live = true → e.span ≠ f.tg.toNat) → kvEffect (.kvret h f) id c sp s = .ok (({ seq := f.seq.toNat } : KDone), s))
    ∧ (∀ f : KvldF, (sp.nseq ≤ f.seq.toNat → bad (.kvld h f) 0)
      ∧ (f.seq.toNat < sp.nseq → (sp.layers ≤ f.layer.toNat ∨ sp.kvh ≤ f.head.toNat) → bad (.kvld h f) 9))
    ∧ (∀ (f : KvallocF) (x : SeqState), f.n = 0 → s.mayIn c 4 → s.soundStaging →
      let q := natOfBytes (s.land.bytes c.inAt 4)
      q < sp.nseq → getSeq s k sp q = .ok x → (sp.lmax ≤ x.count → bad (.kvalloc h f) 3)
      ∧ (x.count < sp.lmax → 2 ^ 32 - 65 < x.next → bad (.kvalloc h f) 8)
      ∧ (x.count < sp.lmax → x.next ≤ 2 ^ 32 - 65 → sp.count < sp.layers * sp.kvh →
        kvEffect (.kvalloc h f) id c sp s = .ok (({ status := 1, aux := sp.layers * sp.kvh - sp.count, seq := q } : KDone), s)))
    ∧ ∀ (f : KvqF) (x : SeqState) (e : Nat → Ent1), f.seq.toNat < sp.nseq → f.layer.toNat < sp.layers → f.head.toNat < sp.kvh → getSeq s k sp f.seq.toNat = .ok x →
      let m := min (f.maxn.toNat + 1) (x.count - f.first.toNat)
      (∀ j, j < m → getEnt1 s k sp f.seq.toNat f.layer.toNat f.head.toNat (f.first.toNat + j) = .ok (e j)) →
      let out := bytesOfNat 32 (x.next + x.count * 2 ^ 32 + x.high * 2 ^ 64) ++ (List.range m).flatMap (fun j => bytesOfNat 16 (e j).num)
      kvEffect (.kvq h f) id c sp s = .ok (({ aux := m, seq := f.seq.toNat, out := out } : KDone), s)

/-- The key-value engine (R307 to R320). -/
def Obligations.KeyValueCommands : Prop := Claims.KvCommands ∧ Claims.AllocatesBlock ∧ Claims.KvOutcomes

/-! ## Records of the queue manager (R328 to R342) -/

/-- R329, R331: NOP, WAIT, SIGNAL and PHASE retire as soon as they start, with their signal; one whose wait does not hold stays where it is. -/
def Sys2Proof.Claims.PlainRecords : Prop :=
  ∀ (s : State) (id : Nat) (r : Rec) (h : RHdr),
    let all := fun (p : Instr → Prop) => p (.nop_record h) ∧ p (.wait_record h) ∧ p (.signal_record h) ∧ ∀ c, p (.phase h c)
    (s.recordStarts id r → r.kind ≠ 12 → s.mayRetire r →
      all (fun i => ∃ t, exec i s = .next t ∧ s.retires t id r ∧ t.host = s.host ∧ t.regs = s.regs ∧ t.land = s.land))
    ∧ (s.focus.record = id → s.recs.find id = some r → r.chainPrev = none → waitHolds s r = .ok false → all (fun i => exec i s = .next s))

/-- R57, R329: a record without a signal whose acquire or release reaches memory retires too: its acquire drops the clean sectors of its scope in the slices of its
partition, its release leaves none of its scope dirty there. -/
def Sys2Proof.Claims.ScopedRecords : Prop :=
  ∀ (s : State) (id : Nat) (r : Rec) (h : RHdr), s.recordStarts id r → r.kind ≠ 12 → r.word.getLsbD 26 = false →
    ∃ t, exec (.nop_record h) s = .next t ∧ t.recs.find id = none ∧ s.leaves t id r
      ∧ (2 ≤ r.bits 9 7 → ∀ k ∈ partSlices s r.part, ∀ p ∈ t.cacheOf k, scopeSel (r.bits 9 7) p.1 = true → p.2.dirty = false)
      ∧ (r.bits 9 7 < 2 → ∀ k ∈ partSlices s r.part, t.cacheOf k = (s.cacheOf k).filter (fun p => p.2.dirty || !scopeSel (r.bits 6 4) p.1))

/-- R335, R337: BRANCH moves its walk to TARGET where its comparison holds and to the next record where it does not; SELECT tells the walk to pass the next LAUNCH
over when the count is zero and SKIP0 says so, and else gives it the entry of its bucket, and the count as a tag if TAGL says so. -/
def Sys2Proof.Claims.WalkRecords : Prop :=
  ∀ (s : State) (id : Nat) (r : Rec) (h : RHdr) (w : Walk), s.recordStarts id r → r.kind ≠ 12 → s.mayRetire r → s.walks.find r.graph = some w → s.walking r →
    (∀ (c : BranchF) (v : Nat), c.target.toNat ≤ w.nrec → semGet s r.part c.bsem.toNat = .ok v →
      ∃ t, exec (.branch h c) s = .next t ∧ s.retires t id r
        ∧ (t.walks.find r.graph).map (·.next) = some (if semCmp c.bop.toNat v c.bval.toNat then c.target.toNat else r.index + 1))
    ∧ ∀ (c : SelectF) (v l : BitVec 512), landAligned c.cnt = true → s.mayLandRec r c.cnt 16 → s.soundStaging → r.index + 1 < w.nrec →
      graphWord s r.part w.gobj (r.index + 1) = .ok v → bitsOf v.toNat 3 0 = 1 →
      codeLine s qmPort (.job (some r.part)) .fetch (bitsOf v.toNat 151 128) c.tline.toNat = .ok l → lineEngine l = 0 → lineKind l = 1 →
      let n := natOfBytes (s.land.bytes (landWord c.cnt) 4)
      (n = 0 → c.skip0 = 1 → ∃ t, exec (.select h c) s = .next t ∧ s.retires t id r ∧ (t.walks.find r.graph).map (·.skip) = some true)
      ∧ ∀ e, (n ≠ 0 ∨ c.skip0 = 0) → bucketOf l n = some e →
        ∃ t, exec (.select h c) s = .next t ∧ s.retires t id r
          ∧ (t.walks.find r.graph).map (fun x => (x.entry, x.ltag, x.skip)) = some (some (e % 2 ^ 25), if c.tagl = 1 then some (.ofNat 32 n) else none, w.skip)

/-- R333, R334: GRAPH starts an instance of its tag, a member of its queue's job, and a walk of its object from record 0; a walk adds the record it comes to to the stream
of that record's queue, as a member of the graph, and stops at a BRANCH or SELECT until that retires. -/
def Sys2Proof.Claims.GraphsStart : Prop :=
  (∀ (s : State) (id : Nat) (r : Rec) (h : RHdr) (c : GraphF) (o : Obj), s.recordStarts id r → r.kind = 10 → c.nrec ≠ 0 →
    objEntry s qmPort c.gobj.toNat = .ok o → o.alias0 = false → o.kind = 7 → o.ndim = 1 → o.owner = r.part → 64 * c.nrec.toNat ≤ o.elems →
    graphOff s o c.nrec.toNat = false →
    let job := (s.queue r.queue).jobInst
    let g := s.nextId
    (∀ j x, job = some j → s.insts.find j = some x → x.count ≠ 0xFFFFFFFF) →
    ∃ t, exec (.graph h c) s = .next (pumpWalk g 64 t)
      ∧ t.walks.find g = some { gobj := c.gobj.toNat, nrec := c.nrec.toNat, part := r.part, record := id }
      ∧ t.insts.find g = some { level := 2, part := r.part, tag := c.gtag, parent := job }
      ∧ (t.recs.find id).map (fun x => (x.st, x.inst)) = some (.running, some g)
      ∧ s.leaves t id r ∧ t.lpddr = s.lpddr ∧ t.cores = s.cores ∧ t.cmds = s.cmds)
  ∧ ∀ (s : State) (g : Nat) (w : Walk) (v : BitVec 512) (x : Inst), s.walks.find g = some w → w.next < w.nrec → graphWord s w.part w.gobj w.next = .ok v →
    let kind := bitsOf v.toNat 3 0
    let qn := bitsOf v.toNat 21 12
    let id := s.nextId
    kind ≠ 9 → (s.queue qn).stream.length < 64 → (s.queue qn).on = true → w.phase = none → w.skip = false →
    s.insts.find g = some x → x.count ≠ 0xFFFFFFFF →
    addCheck s { word := v, queue := qn, part := w.part, graph := g, index := w.next, chainPrev := w.lastRec, entry := w.entry, ltag := w.ltag } true = none →
    let t := walkStep g w s
    (t.queue qn).stream = (s.queue qn).stream ++ [id] ∧ (t.recs.find id).map (fun r => (r.word, r.graph, r.index)) = some (v, g, w.next)
      ∧ (t.insts.find g).map (·.count) = some (x.count + 1)
      ∧ (t.walks.find g).map (fun y => (y.next, y.waitFor)) = some (w.next + 1, if kind = 7 ∨ kind = 8 then some id else none)

/-- R339: IRQ with a vector of its partition posts it when it retires; STAMP writes the time of its start and its graph's tag. R338: CANCEL retires, and then cancels. R331: FENCE is at
work until the records before it have retired. -/
def Sys2Proof.Claims.OtherRecords : Prop :=
  ∀ (s : State) (id : Nat) (r : Rec) (h : RHdr), s.recordStarts id r →
    (∀ c : IrqF, r.kind = 12 → s.mayRetire r → r.word.getLsbD 26 = false → r.bits 138 128 = c.vector.toNat →
      let p := partReg s r.part 9
      fieldOf p 10 0 ≤ c.vector.toNat → c.vector.toNat < fieldOf p 10 0 + fieldOf p 22 11 →
      ∃ t, exec (.irq h c) s = .next t ∧ s.retires t id r ∧ t.host = (postIrq s c.vector.toNat).host ∧ t.regs = (postIrq s c.vector.toNat).regs)
    ∧ (∀ c : StampRecordF, r.kind ≠ 12 → s.mayRetire r → landAligned c.dst = true → s.mayLandRec r c.dst 16 →
      ∃ t, exec (.stamp_record h c) s = .next t ∧ s.retires t id r
        ∧ t.land = s.land.setBytes (landWord c.dst) (bytesOfNat 16 (s.now % 2 ^ 64 + (instTag s r.graph).toNat * 2 ^ 64)))
    ∧ (∀ c : CancelF, r.kind ≠ 12 → s.mayRetire r →
      ∃ t, exec (.cancel h c) s = .next (cancelInst c.level.toNat r.part c.ctag t) ∧ s.retires t id r)
    ∧ ∃ t, exec (.fence_record h) s = .next t ∧ (t.recs.find id).map (·.st) = some .running
      ∧ s.leaves t id r ∧ t.lpddr = s.lpddr ∧ t.land = s.land ∧ t.cores = s.cores ∧ t.cmds = s.cmds

/-- R340, R113, R114: MAP of readable tiles of a code object, with no command and no suspended access to wait for, sets the X of each as the scan decides, writes its report and retires. -/
def Sys2Proof.Claims.MapsCode : Prop :=
  ∀ (s : State) (id : Nat) (r : Rec) (h : RHdr) (c : MapF) (o : Obj) (m : SMap (BitVec 512)), s.recordStarts id r → r.kind ≠ 12 → s.mayRetire r →
    r.word.getLsbD 26 = false → s.cmds = [] → suspsAhead s = [] →
    let first := c.first.toNat
    let n := c.ntiles.toNat
    let at0 := tileAddr o.ttPtr first
    let tiles := (List.range n).map (first + ·)
    objEntry s qmPort c.obj.toNat = .ok o → o.alias0 = false → o.kind = 1 → o.owner = r.part → n ≠ 0 → first + n ≤ o.tiles → landAligned c.report = true →
    s.mayLandRec r c.report (16 + 16 * c.cap.toNat) → mapLines s o tiles = .ok m → s.soundBursts at0 (8 * n) (tableColour s) →
    let fails := scanLines ⟨fun k => SMap.get 0 m k, 64 * first, 64 * (first + n), o.elems / 64⟩
    ∃ t, exec (.map h c) s = .next t ∧ t.recs.find id = none
      ∧ t.land = s.land.setBytes (landWord c.report) (scanReport o.id first n c.cap.toNat fails)
      ∧ (∀ k, k < n → ∀ b, b < 64 → (BitVec.ofNat 64 (natOfBytes (t.lpddr.bytes (at0 + 8 * k) 8))).getLsbD b =
          if b = 4 then tilePasses fails (first + k) else (BitVec.ofNat 64 (natOfBytes (s.lpddr.bytes (at0 + 8 * k) 8))).getLsbD b)
      ∧ ∀ b, b < at0 ∨ at0 + 8 * n ≤ b → t.lpddr.byte b = s.lpddr.byte b

/-- R24, R331: a LAUNCH that passes the checks of its allotment stands in a bank of its band, its partition and its class (one bank pair for each is the model's reading: log entry 61) with an instance of its tag; it is in the active one if that was empty. -/
def Sys2Proof.Claims.LaunchRecords : Prop :=
  ∀ (s : State) (id : Nat) (r : Rec) (h : RHdr) (c : LaunchRecordF), s.recordStarts id r → r.kind = 1 → launchCheck s r (launchFields r c) = none →
    ∃ t, exec (.launch_record h c) s = .next t
      ∧ (t.recs.find id).map (fun x => (x.st, x.inst)) = some (if (bankOf s (bandKey (r.bits 179 177) r.part r.cls) .active).isNone then .active else .shadow, some s.nextId)
      ∧ t.insts.find s.nextId = some { level := 0, part := r.part, tag := r.launchTag }
      ∧ s.leaves t id r ∧ t.cores = s.cores ∧ t.crews = s.crews ∧ t.cmds = s.cmds ∧ t.lpddr = s.lpddr

/-- R331, R341: a FERRY, STORE or KV record whose words pass is taken by its ferry, home controller or engine when the banks before it are empty, that has room, and a ferry's round robin has come to it: its command is
queued there, as a member of the record's instance. -/
def Sys2Proof.Claims.CommandRecords : Prop :=
  ∀ (s : State) (id key : Nat) (r : Rec) (h : RHdr), s.recordStarts id r → neededBank s r = .ok (some key) → bankOf s key .active = none →
    let cmd : Cmd := { port := r.kind - 2, word := r.command, issuer := .record id, part := some r.part, tag := instTag s r.graph,
                       unit := if r.kind = 2 then r.bits 389 384 else 0 }
    hasRoom s cmd = true → (∀ q rr, schedPick s r.part (queueKind r.queue) = some (q, rr) → ferryTurn { s with rr := rr } cmd = true) →
    let taken := fun (i : Instr) => ∃ t x c, exec i s = .next t ∧ t.recs.find id = some x ∧ x.st = .running ∧ x.inst = some s.nextId
      ∧ (t.insts.find s.nextId).map (fun y => (y.level, y.part, y.count, y.lastAdded)) = some (0, r.part, 1, true)
      ∧ t.cmds.find (s.nextId + 1) = some c ∧ c.word = r.command ∧ c.port = r.kind - 2 ∧ c.issuer = .record id ∧ c.st = .queued ∧ c.part = some r.part
      ∧ s.leaves t id r ∧ t.lpddr = s.lpddr ∧ t.cores = s.cores
    let good := fun (port : Nat) (w : BitVec 256) => portOpOk port (bitsOf w.toNat 7 0) = true ∧ portBad true w = none
    (∀ c : FerryRecordF, r.kind = 2 → (partReg s r.part 7).getLsbD c.ferry.toNat = true → good 0 (cmdWord c.c0 c.c1 c.c2 c.c3) → taken (.ferry_record h c))
    ∧ (∀ c : StoreRecordF, r.kind = 3 → good 1 (cmdWord c.c0 c.c1 c.c2 c.c3) → taken (.store_record h c))
    ∧ ∀ c : KvRecordF, r.kind = 4 → good 2 (cmdWord c.c0 c.c1 c.c2 c.c3) → taken (.kv_record h c)

/-- R329: a record whose work is over retires with its signal if it is done or partially complete, and posts its vector if it is an IRQ that is done; any other record stays. -/
def Sys2Proof.Claims.Retirement : Prop :=
  ∀ (s : State) (id : Nat) (r : Rec), s.recs.find id = some r →
    (∀ st, r.st = .done st → st ≠ .faulted → st ≠ .running → r.susp = 0 → s.mayRetire r →
      ∃ t, exec (.record_retire id) s = .next t ∧ s.retired t id r (st == .done || st == .part)
        ∧ (∀ q, (t.queue q).stream = (s.queue q).stream) ∧ t.land = s.land ∧ (r.kind ≠ 12 ∨ st ≠ .done → t.host = s.host ∧ t.regs = s.regs))
    ∧ ((∀ st, r.st ≠ .done st) ∨ r.susp ≠ 0 → exec (.record_retire id) s = .next s)

/-- Control records (R328 to R340). -/
def Obligations.ControlRecords : Prop :=
  Claims.PlainRecords ∧ Claims.ScopedRecords ∧ Claims.WalkRecords ∧ Claims.GraphsStart ∧ Claims.OtherRecords ∧ Claims.MapsCode

/-- Work records and retirement (R24, R329, R331, R341). -/
def Obligations.WorkRecords : Prop := Claims.LaunchRecords ∧ Claims.CommandRecords ∧ Claims.Retirement

/-! ## Queues, launches and pre-emption (R23 to R26, R323, R324, R338, R343, R363, R370 to R380) -/

/-- R323: QUEUE_ON with a descriptor in its limits turns a queue on with the descriptor's fields, HEAD and the producer index as the descriptor's HEAD, and writes HEAD and ON back; with
any other the queue stays off and a record of source 464 is written that names it: QM RANGE where a limit is not kept, and for a burst that cannot be read an access record (log
entry 87). R323, R324: QUEUE_OFF turns it off and writes that back. A queue already so stays as it is. The descriptor has no colour of its own (log entry 49). -/
def Sys2Proof.Claims.QueuesOnAndOff : Prop :=
  ∀ (s : State) (q : Nat),
    let x := s.queue q
    let a := descAddr s q
    let b := bitsOf (natOfBytes (s.lpddr.bytes a 64))
    let part := b 36 33
    let readable := ∃ d, bareRead s a 64 = .ok d
    let good := readable ∧ 2 ≤ b 27 24 ∧ b 27 24 ≤ 15 ∧ b 29 28 ≠ 3 ∧ b 127 88 % 64 = 0 ∧ partOn s part = true
      ∧ ringObjBad s (b 23 0) part (64 * 2 ^ b 27 24) = none ∧ ringObjBad s (b 87 64) part (b 127 88 + 64) = none
    (x.on = true → exec (.queue_on q) s = .next s)
    ∧ (x.on = false → exec (.queue_off q) s = .next s)
    ∧ (x.on = false → good → ∃ t, exec (.queue_on q) s = .next t ∧
      (let y := t.queue q
       y.on = true ∧ y.ring = b 23 0 ∧ y.log2n = b 27 24 ∧ y.cls = b 29 28 ∧ y.level = b 32 30 ∧ y.part = part ∧ y.weight = max 1 (b 44 37) ∧ y.job = b 52 45
       ∧ y.tobj = b 87 64 ∧ y.toff = b 127 88 ∧ y.head = .ofNat 32 (b 159 128) ∧ y.tail = .ofNat 32 (b 159 128) ∧ y.stream = x.stream)
      ∧ (∀ p, p ≠ q → t.queue p = s.queue p) ∧ (∀ y, t.lpddr.byte y = (s.lpddr.setBytes (a + 16) (bytesOfNat 8 (b 159 128 + 2 ^ 32))).byte y) ∧ t.cores = s.cores ∧ t.recs = s.recs)
    ∧ (x.on = false → ¬ good → ∃ t, exec (.queue_on q) s = .next t ∧ recordsOnly s t)
    ∧ (x.on = false → readable → ¬ (2 ≤ b 27 24 ∧ b 27 24 ≤ 15 ∧ b 29 28 ≠ 3 ∧ b 127 88 % 64 = 0 ∧ partOn s part = true) →
      exec (.queue_on q) s = .next (record s 464 { code := 0x0B, sub := 6 } false false 0 0 (some part) none [.ofNat 64 q]))
    ∧ (x.on = false → ∀ f, bareRead s a 64 = .error f →
      exec (.queue_on q) s = .next (record s 464 f false false 0 0 none none [.ofNat 64 q, .ofNat 64 (domainId s 0), 0]))
    ∧ (x.on = true → readable → ∃ t, exec (.queue_off q) s = .next t ∧ t.queue q = { x with on := false, susp := 0 } ∧ (∀ p, p ≠ q → t.queue p = s.queue p)
        ∧ (∀ y, t.lpddr.byte y = (s.lpddr.setBytes (a + 16) (bytesOfNat 8 x.head.toNat)).byte y) ∧ t.cores = s.cores ∧ t.recs = s.recs)

/-- R324: a write of its tail line lets a queue take what its ring holds: nothing where the producer index is HEAD; a record, as a graph of its own in the queue's job, where it is one on;
an index further from HEAD than the ring is long turns the queue off. A queue that is off takes nothing. Where a cancel of the queue's job could not read the producer index, the
records below the index now read are discarded (log entry 96). The descriptor has no colour of its own (log entry 49). -/
def Sys2Proof.Claims.TailWrites : Prop :=
  ∀ (s : State) (q : Nat),
    let x := s.queue q
    (x.on = false ∨ x.susp ≠ 0 → exec (.tail_write q) s = .next s)
    ∧ (∀ p, x.on = true → x.susp = 0 → x.discard = true → readTail s x = .ok p →
      ∃ t, exec (.tail_write q) s = .next t ∧ t.queue q = { x with tail := p, head := p, discard := false } ∧ (∀ k, k ≠ q → t.queue k = s.queue k) ∧ t.recs = s.recs
        ∧ t.cores = s.cores ∧ t.insts = s.insts)
    ∧ ∀ p, x.on = true → x.susp = 0 → x.discard = false → readTail s x = .ok p →
      (p = x.head → ∃ t, exec (.tail_write q) s = .next t ∧ { t with queues := s.queues } = s ∧ t.queue q = { x with tail := p } ∧ ∀ k, k ≠ q → t.queue k = s.queue k)
      ∧ (2 ^ x.log2n < (p - x.head).toNat → ∃ t, exec (.tail_write q) s = .next t ∧ (t.queue q).on = false ∧ (t.queue q).head = x.head ∧ t.recs = s.recs)
      ∧ ∀ v : BitVec 512, p = x.head + 1 → x.stream.length < 64 → s.halted.contains x.part = false → x.jobInst = none → (∀ g ∈ s.insts, g.2.parent ≠ some s.nextId) → bitsOf v.toNat 3 0 ≠ 10 →
        (∃ d, bareRead s (descAddr s q) 64 = .ok d) → qmRead s x.part x.ring (64 * (x.head.toNat % 2 ^ x.log2n)) 64 = .ok (bytesOfNat 64 v.toNat) →
        addCheck s { word := v, queue := q, part := x.part, graph := 0 } false = none →
        ∃ t, exec (.tail_write q) s = .next t ∧ (t.queue q).head = p ∧ (t.queue q).tail = p ∧ (t.queue q).stream = x.stream ++ [s.nextId + 1]
          ∧ (t.recs.find (s.nextId + 1)).map (fun r => (r.word, r.queue, r.graph)) = some (v, q, s.nextId)
          ∧ (t.insts.find s.nextId).map (fun g => (g.level, g.part, g.count, g.lastAdded)) = some (2, x.part, 1, true)
          ∧ (∀ y, t.lpddr.byte y = (s.lpddr.setBytes (descAddr s q + 16) (bytesOfNat 8 (p.toNat + 2 ^ 32))).byte y) ∧ t.cores = s.cores

/-- R15, R338: a cancel by level and tag stops the started launch that alone carries its tag: its crew ends CANCELLED, a hold with it, and no core changes. A LAUNCH record
of the tag that has no instance yet is left, and so is every record of another kind (log entry 82); with no running instance of its level and tag in the partition it does nothing. -/
def Sys2Proof.Claims.CancelsByTag : Prop :=
  ∀ (s : State) (part : Nat) (tag : BitVec 32),
    (∀ level, 1 ≤ level → (∀ p ∈ s.insts, p.2.level = level → p.2.part = part → p.2.tag = tag → p.2.status ≠ .running) →
      exec (.qm_cancel level part tag) s = .next s)
    ∧ ((∀ p ∈ s.recs, p.2.kind = 1 → p.2.part = part → p.2.launchTag = tag → p.2.inst = none) → exec (.qm_cancel 0 part tag) s = .next s)
    ∧ ∀ (id k : Nat) (r : Rec) (w : Crew),
      s.recs.filter (fun p => p.2.kind == 1 && p.2.part == part && p.2.launchTag == tag && p.2.inst.isSome) = [(id, r)] → s.recs.find id = some r →
      r.st = .running → crewOfRec s id = some (k, w) → s.crew k = some w → w.started = true → w.stopped = none → w.record = id →
      (∀ p ∈ s.cmds, p.2.owner ≠ some id) →
      ∃ t, exec (.qm_cancel 0 part tag) s = .next t ∧ t.crew k = some { w with hold := none, stopped := some .cancelled } ∧ (∀ j, j ≠ k → t.crew j = s.crew j)
        ∧ t.cores = s.cores ∧ t.cmds = s.cmds ∧ t.recs.find id = some { r with susp := 0 } ∧ (∀ j, j ≠ id → t.recs.find j = s.recs.find j)
        ∧ (w.hold = none → t.lpddr = s.lpddr)

/-- R25, R20: a launch in its band's active bank whose allotment is free reserves it at one instant: its cores, and a crew on the lowest free clock; while something of it is taken nothing
changes but that its sleeping cores are asked to wake (R398). -/
def Sys2Proof.Claims.Reserves : Prop :=
  ∀ (s : State) (id : Nat) (r : Rec) (c : LaunchRecordF), s.recs.find id = some r → launchOf r = some c → r.st = .active →
    (∀ m ∈ memberCores c, online s m = true) →
    (∀ clk, canReserve s id r c = some clk →
      ∃ t, exec (.launch_reserve id) s = .next t ∧ (t.recs.find id).map (·.st) = some .running
        ∧ t.crew clk = some { members := memberCores c, leader := (memberCores c).headD 0, band := c.band.toNat, record := id, part := r.part, allot := c }
        ∧ (∀ k, k ≠ clk → t.crew k = s.crew k) ∧ (∀ m ∈ memberCores c, t.core m = { s.core m with crew := some clk })
        ∧ (∀ m, m ∉ memberCores c → t.core m = s.core m) ∧ t.lpddr = s.lpddr ∧ t.land = s.land)
    ∧ (canReserve s id r c = none →
      ∃ t, exec (.launch_reserve id) s = .next t ∧ { t with cores := s.cores } = s
        ∧ ∀ m, t.core m = { s.core m with sweeping := (s.core m).sweeping || (decide (m ∈ memberCores c) && (s.core m).asleep) })

/-- R26, R13: at its start a crew stands at cycle 0; each member issues from the entry, its registers, flags, streams, lanes and results gone, its reserved semaphores zero, its banks in
their formats, sequencer memory holding the parameter block; the firmware context stays, but that its commands are numbered from 1 again (R103); and the launch counts its tasks. A crew that has started is left as it is. -/
def Sys2Proof.Claims.LaunchStarts : Prop :=
  ∀ (s : State) (k : Nat) (w : Crew), s.crew k = some w →
    (w.started = true → exec (.launch_start k) s = .next s)
    ∧ ∀ par : List Byte, w.started = false → w.members.Nodup → parBlock s w = .ok par →
      ∃ t, exec (.launch_start k) s = .next t ∧ t.crew k = some { w with started := true, clock := 0, coreCycles := 0, startedAt := s.now }
        ∧ (∀ r i x, s.recs.find w.record = some r → r.inst = some i → s.insts.find i = some x →
            t.insts.find i = some { x with count := .ofNat 32 w.members.length, lastAdded := true })
        ∧ (∀ m, m ∉ w.members → t.core m = s.core m) ∧ t.lpddr = s.lpddr ∧ t.land = s.land
        ∧ ∀ m ∈ w.members,
          let x := s.core m
          let y := t.core m
          y.prog = { obj := w.allot.codeObj.toNat, line := w.allot.entry.toNat, check := 2 } ∧ y.fw = { x.fw with tickets := [] } ∧ y.fwMem = x.fwMem ∧ y.tag = w.allot.ltag
          ∧ y.flags = [] ∧ y.streams = [] ∧ y.stns = [] ∧ y.lanes = [] ∧ y.pend = [] ∧ y.holdLimit = 0x010000 ∧ y.taskDone = false
          ∧ (∀ h, y.h h = if w.allot.hsemMask.getLsbD h then 0 else x.h h)
          ∧ (∀ n, n < 8 → (SMap.get ({} : Bank) y.banks n).fmt = Fmt.ofCode (fieldOf w.allot.bankFmt (4 * n + 3) (4 * n)) ∧ (SMap.get ({} : Bank) y.banks n).rows = [])
          ∧ (∀ j, y.seqMem.byte (0x1F000 + j) = par.getD j 0) ∧ ∀ a, a < 0x1F000 → y.seqMem.byte a = 0

/-- How launches come to run (R20, R23 to R26, R323, R324, R338). -/
def Obligations.QueuesAndLaunches : Prop :=
  Claims.QueuesOnAndOff ∧ Claims.TailWrites ∧ Claims.CancelsByTag ∧ Claims.Reserves ∧ Claims.LaunchStarts

/-- R343, R374, R376: a launch that can have its allotment pre-empts nothing, nor does one of the lowest class or in a partition that does not allow it; else its one victim is asked to
freeze in two core cycles if a save slot is free for every member, and not if not (one slot for each member: log entry 64). -/
def Sys2Proof.Claims.AsksForFreeze : Prop :=
  ∀ (s : State) (id : Nat) (r : Rec) (c : LaunchRecordF), s.recs.find id = some r → launchOf r = some c →
    let may := r.st = .active ∧ r.cls < 2 ∧ (partReg s r.part 0).getLsbD 1 = true ∧ canReserve s id r c = none
    (¬ may → exec (.preempt id) s = .next s)
    ∧ ∀ k v, may → victims s r c = [(k, v)] → s.crew k = some v →
      let room := (freeSlots s r.part).length - promised s r.part
      (v.members.length ≤ room → exec (.preempt id) s = .next { s with crews := s.crews.put k { v with freezeIn := some (id, 2) } })
      ∧ (room < v.members.length → exec (.preempt id) s = .next s)

/-- R374, R376, R370: a crew whose freeze has come stands frozen at its cycle, each member with a SAVE request and a save slot of its own (log entry 64); one whose freeze has not come, or is not asked for, goes on. -/
def Sys2Proof.Claims.Freezes : Prop :=
  ∀ (s : State) (k : Nat) (w : Crew), s.crew k = some w →
    ((∀ rec, w.freezeIn ≠ some (rec, 0)) → exec (.freeze k) s = .next s)
    ∧ ∀ rec, w.freezeIn = some (rec, 0) → w.frozen = none → w.stopped = none → w.members.Nodup → w.members.length ≤ (freeSlots s w.part).length →
      ∃ t, exec (.freeze k) s = .next t ∧ t.crew k = some { w with frozen := some rec, freezeIn := none } ∧ (∀ j, j ≠ k → t.crew j = s.crew j)
        ∧ (∀ m ∈ w.members, ∃ q n, (t.core m).fwq = (s.core m).fwq ++ [q] ∧ q.kind = 5 ∧ n ∈ freeSlots s w.part
            ∧ t.core m = { s.core m with fwq := (t.core m).fwq, saveSlot := n })
        ∧ (∀ m, m ∉ w.members → t.core m = s.core m) ∧ t.saved.length = s.saved.length + 1 ∧ t.lpddr = s.lpddr ∧ t.land = s.land

/-- R370, R372: an idle firmware context takes the first of its requests, none of which comes before it, and issues from FW_ENTRY with its registers as they were; with a service in progress,
or no request, nothing happens. While a SAVE waits for the core's commands, only TRAP, FETCH and XLATE requests are served (log entry 92). -/
def Sys2Proof.Claims.ServicesStart : Prop :=
  ∀ (s : State) (c : Nat),
    let k := s.core c
    let may := fun (q : FwReq) => k.fwq.any (fun r => r.kind == 5) = false ∨ saveReady s c = true ∨ q.kind = 1 ∨ q.kind = 2 ∨ q.kind = 3
    (k.svc ≠ none ∨ (∀ q ∈ k.fwq, ¬ may q) → exec (.fw_service_start c) s = .next s)
    ∧ (k.svc = none → (∃ q ∈ k.fwq, may q) →
      ∃ t r, exec (.fw_service_start c) s = .next t ∧ onlyCore c s t ∧ r ∈ k.fwq ∧ may r ∧ (∀ q ∈ k.fwq, may q → q.before r = false) ∧ (t.core c).svc = some r
        ∧ (t.core c).fwq = k.fwq.erase r ∧ (t.core c).prog = k.prog
        ∧ (let x := (t.core c).fw
           x.g = k.fw.g ∧ x.p = k.fw.p ∧ x.obj = k.fwObj.toNat ∧ x.line = k.fwLine.toNat ∧ x.word = 1 ∧ x.wait = .none ∧ x.stall = 0))

/-- R372, R376 to R380: SAVE_CTL starts the save engine in a SAVE service and the restore engine in a RESTORE service, once; the save engine leaves the member's registers in its slot,
g0 first, the restore engine loads the context that was saved, from the model's own copy of it (log entry 46), and both set DONE. -/
def Sys2Proof.Claims.SaveEngines : Prop :=
  ∀ (s : State) (c : Nat),
    let k := s.core c
    (∀ r, k.svc = some r → k.saveOp = 0 → k.saveDone = false →
      (r.kind = 5 → exec (.save_start c) s = .next (s.setCore c { k with saveOp := 1 }))
      ∧ (r.kind ≠ 5 → exec (.save_start c) s = .next s)
      ∧ (r.kind = 6 → exec (.restore_start c) s = .next (s.setCore c { k with saveOp := 2 }))
      ∧ (r.kind ≠ 6 → exec (.restore_start c) s = .next s))
    ∧ (k.saveOp ≠ 0 → exec (.save_start c) s = .next s ∧ exec (.restore_start c) s = .next s)
    ∧ (∀ w, k.saveDone = false → k.saveOp = 1 → s.crewOf c = some w → slotBase s k.saveSlot + 0x1000 ≤ lpddrEnd →
      ∃ t, exec (.save_engine_done c) s = .next t ∧ t.core c = { k with saveDone := true } ∧ (∀ j, j ≠ c → t.core j = s.core j) ∧ t.crews = s.crews
        ∧ (let base := slotBase s k.saveSlot
           (∀ i, i < 32 → natOfBytes (t.lpddr.bytes (base + 8 * i) 8) = (k.prog.reg (.ofNat 5 i)).toNat) ∧ ∀ a, a < base → t.lpddr.byte a = s.lpddr.byte a))
    ∧ (∀ v x, k.saveDone = false → k.saveOp = 2 → s.saved.find? (fun v => v.crew.members.contains c && (v.cores.find c).isSome) = some v → v.cores.find c = some x →
      ∃ t, exec (.save_engine_done c) s = .next t ∧ onlyCore c s t ∧
        (let y := t.core c
         y.saveDone = true ∧ y.prog = x.prog ∧ y.seqMem = x.seqMem ∧ y.banks = x.banks ∧ y.stns = x.stns ∧ y.mx = x.mx ∧ y.hsem = x.hsem ∧ y.flags = x.flags
         ∧ y.pend = x.pend ∧ y.fw = { k.fw with tickets := x.fw.tickets } ∧ y.fwMem = k.fwMem ∧ y.svc = k.svc ∧ y.fwq = k.fwq ∧ y.crew = k.crew))
    ∧ (k.saveDone = true → exec (.save_engine_done c) s = .next s)

/-- R379, R363: when every member of a frozen crew is saved and no command of it is left, its launch is saved: its crew is gone, its cores are free, and its record waits to be restored; before
that nothing happens. The saved cores are kept beside the slots (log entry 46). -/
def Sys2Proof.Claims.ContextsSaved : Prop :=
  ∀ (s : State) (k : Nat) (w : Crew) (v : Saved), s.crew k = some w → s.saved.find? (fun v => v.record == w.record) = some v →
    (w.frozen = none ∨ w.restoring = true ∨ (∃ m ∈ w.members, m ∉ v.finished) → exec (.context_saved k) s = .next s)
    ∧ ∀ r, w.frozen.isSome = true → w.restoring = false → w.stopped = none → (∀ m ∈ w.members, m ∈ v.finished) → crewCmds s w = [] → s.recs.find w.record = some r →
      ∃ t, exec (.context_saved k) s = .next t ∧ t.crew k = none ∧ (∀ j, j ≠ k → t.crew j = s.crew j) ∧ (∀ m ∈ w.members, (t.core m).crew = none)
        ∧ (∀ m, m ∉ w.members → t.core m = s.core m) ∧ t.recs.find w.record = some { r with st := .saved }
        ∧ (∃ x, t.saved.find? (fun v => v.record == w.record) = some x ∧ x.crew = w ∧ x.slots = v.slots ∧ x.remainders = []
            ∧ ∀ m ∈ w.members, (x.cores.find m).map (fun y => (y.prog, y.banks, y.stns, y.seqMem, y.pend))
                = some ((s.core m).prog, (s.core m).banks, (s.core m).stns, (s.core m).seqMem, (s.core m).pend))
        ∧ t.cmds = s.cmds ∧ t.land = s.land

/-- R380, R343: a saved launch whose cores, a clock and landing range are free takes them again, frozen at its cycle, each member with a RESTORE request; until then nothing changes but that its
sleeping cores are asked to wake. When every member is restored its crew goes on at that cycle, and it is no longer saved. -/
def Sys2Proof.Claims.Restores : Prop :=
  (∀ (s : State) (id : Nat) (v : Saved), s.saved.find? (fun v => v.record == id) = some v →
    (((s.recs.find id).map (·.st)) ≠ some .saved → exec (.restore id) s = .next s)
    ∧ (((s.recs.find id).map (·.st)) = some .saved →
      (canRestore s v = none → ∃ t, exec (.restore id) s = .next t ∧ { t with cores := s.cores } = s
        ∧ ∀ m, t.core m = { s.core m with sweeping := (s.core m).sweeping || (decide (m ∈ v.crew.members) && (s.core m).asleep) })
      ∧ ∀ clk, canRestore s v = some clk → v.crew.members.Nodup →
        ∃ t, exec (.restore id) s = .next t ∧ t.crew clk = some { v.crew with frozen := some id, freezeIn := none, restoring := true }
          ∧ (∀ j, j ≠ clk → t.crew j = s.crew j) ∧ (t.recs.find id).map (·.st) = some .running
          ∧ (∀ m ∈ v.crew.members, (t.core m).crew = some clk ∧ ∃ q, (t.core m).fwq = (s.core m).fwq ++ [q] ∧ q.kind = 6)
          ∧ (∀ m, m ∉ v.crew.members → t.core m = s.core m) ∧ t.lpddr = s.lpddr
          ∧ (v.landing = none → t.land = s.land)))
  ∧ ∀ (s : State) (k : Nat) (w : Crew) (v : Saved), s.crew k = some w → s.saved.find? (fun v => v.record == w.record) = some v →
    (w.restoring = false ∨ (∃ m ∈ w.members, m ∉ v.finished) → exec (.crew_resume k) s = .next s)
    ∧ (w.restoring = true → (∀ m ∈ w.members, m ∈ v.finished) → v.remainders = [] →
      ∃ t, exec (.crew_resume k) s = .next t ∧ t.crew k = some { w with frozen := none, restoring := false } ∧ (∀ j, j ≠ k → t.crew j = s.crew j)
        ∧ t.saved.find? (fun v => v.record == w.record) = none ∧ t.cores = s.cores ∧ t.cmds = s.cmds ∧ t.land = s.land)

/-- Services, saves and restores (R343, R363, R370 to R380). -/
def Obligations.Preemption : Prop :=
  Claims.AsksForFreeze ∧ Claims.Freezes ∧ Claims.ServicesStart ∧ Claims.SaveEngines ∧ Claims.ContextsSaved ∧ Claims.Restores

/-! ## Encodings (R86 to R110, R242, R279, R306, R325, R326) -/

/-- Decode and encode agree: every well-formed instruction that has an encoding decodes from it, and the word after an encoding without an extension word changes nothing
where it is no extension word (R93). -/
def Obligations.EncodingRoundTrip : Prop :=
  (∀ i : Instr, i.wf = true → encode i ≠ .event → decode (encode i) = .ok i)
  ∧ ∀ (w v : BitVec 32), v.toNat / 2 ^ 30 ≠ 3 → decodeSeq w (some v) = decodeSeq w none

/-- Every word that decodes is the encoding of the instruction it decodes to: no bit of an accepted word goes unread, and each reserved bit is zero. A sequencer word takes
the extension word with it only where one follows it inside the bundle (R93, R94). -/
def Obligations.EncodingExact : Prop :=
  (∀ (w : BitVec 64) (i : Instr), decodeEntry w = .ok i → encode i = .entry w)
  ∧ (∀ (w : BitVec 128) (i : Instr), decodeMatrix w = .ok i → encode i = .matrix w)
  ∧ (∀ (w : BitVec 256) (i : Instr), decodePort w = .ok i → encode i = .port w)
  ∧ (∀ (w : BitVec 512) (i : Instr), decodeRecord w = .ok i → encode i = .record w)
  ∧ (∀ (w : BitVec 32) (i : Instr), decodeSeq w none = .ok i → encode i = .seq w none)
  ∧ ∀ (w v : BitVec 32) (i : Instr), decodeSeq w (some v) = .ok i →
      encode i = .seq w none ∨ (w.getLsbD 29 = false ∧ v.toNat / 2 ^ 30 = 3 ∧ encode i = .seq w (some v))

/-- Words written out from the tables decode to what they stand for: sequencer words (R91, R92, R106) with and without an extension word (R93), entries (R96, R97, R107,
R108), matrix commands (R99, R109), port commands (R110, R242, R279, R306) and records (R325, R326). Reserved values of the maps, a wrong slot kind, a reserved field and a
reserved operand are refused by the name of their check (R112). -/
def Obligations.SampleWords : Prop :=
  decodeSeq (0#2 ++ 1#1 ++ 0x01#8 ++ 3#5 ++ 1#5 ++ 2#5 ++ 0#6) none = .ok (.add true 3 1 2)
  ∧ decodeSeq (0#2 ++ 0#1 ++ 0x18#8 ++ 5#5 ++ 6#5 ++ 0x7FF#11) (some (3#2 ++ 1#1 ++ 1#29)) = .ok (.addi true 5 6 0x7FF (some 1))
  ∧ decodeSeq (1#2 ++ 1#1 ++ 0x33#8 ++ 4#5 ++ 7#5 ++ 8#11) none = .ok (.ld_d true 4 7 8 none)
  ∧ decodeSeq (2#2 ++ 1#1 ++ 0x39#8 ++ 4#5 ++ 7#5 ++ 8#11) none = .ok (.st_w true 4 7 8 none)
  ∧ decodeSeq (0#2 ++ 1#1 ++ 0x3B#8 ++ 1#1 ++ 0#2 ++ 6#3 ++ 9#11 ++ 4#4) none = .ok (.br true 1 6 9 4 none)
  ∧ decodeSeq (0#2 ++ 1#1 ++ 0x4F#8 ++ 17#5 ++ 0#2 ++ 3#5 ++ 1#9) none = .ok (.hsig true 17 3 1)
  ∧ decodeEntry (0x6C#8 ++ 2#6 ++ 1#2 ++ 3#4 ++ 2#2 ++ 9#4 ++ 3#2 ++ 1#4 ++ 5#4 ++ 0#12 ++ 0xFFFE#16)
      = .ok (.vadd ⟨2, .ofr 3, .lane 9, .imm, .i32, 0xFFFE⟩)
  ∧ decodeEntry (0x58#8 ++ 0#6 ++ 2#2 ++ 1#4 ++ 3#2 ++ 0#4 ++ 3#2 ++ 0#4 ++ 0#4 ++ 0#17 ++ 7#11)
      = .ok (.rd ⟨0, .lane 1, .none, .none, .f32, 0⟩ 7)
  ∧ decodeMatrix (0#37 ++ 1#1 ++ 2#2 ++ 0#2 ++ 0#8 ++ 0#1 ++ 0#5 ++ 1#1 ++ 1#2 ++ 9#5 ++ 77#16 ++ 100#40 ++ 0xD4#8)
      = .ok (.mclr ⟨100, 77, 9, 1, 1, 0, 0, 0⟩ 2 1)
  ∧ decodePort (0#14 ++ 0#4 ++ 0#10 ++ 5#10 ++ 0#2 ++ 0#24 ++ 0x1234#64 ++ 0x5678#64 ++ 0#6 ++ 10#32 ++ 0#1 ++ 1#1 ++ 3#3 ++ 0#1 ++ 1#1 ++ 17#5 ++ 1#3 ++ 0#3 ++ 0xE0#8)
      = .ok (.copy ⟨0, 1, 17, 1, 0, 3, 1, 0⟩ ⟨10, 0, 0x5678, 0x1234, 0, 0, 5, 0, 0⟩)
  ∧ decodePort (0#16 ++ 11#16 ++ 0#2 ++ 2#7 ++ 1#7 ++ 5#16 ++ 0#8 ++ 0x30#28 ++ 0x20#28 ++ 0#12 ++ 0#24 ++ 0#28 ++ 0#8 ++ 63#12 ++ 0#2 ++ 9#24 ++ 3#3 ++ 0#1 ++ 1#1 ++ 4#5 ++ 0xFE#8)
      = .ok (.kvq ⟨4, 1, 0, 3, 9, 0, 0, 0, 0x20, 0x30⟩ ⟨63, 5, 1, 2, 11⟩)
  ∧ decodeRecord (0#373 ++ 2047#11 ++ 6#16 ++ 7#16 ++ 8#32 ++ 9#32 ++ 0#2 ++ 1#1 ++ 2#2 ++ 1#1 ++ 4#3 ++ 1#1 ++ 500#10 ++ 3#2 ++ 2#3 ++ 1#3 ++ 12#4)
      = .ok (.irq ⟨1, 2, 3, 500, 1, 4, 1, 2, 1, 9, 8, 7, 6⟩ ⟨2047⟩)
  ∧ decodeSeq 0 none = .error .opcodeRsvd
  ∧ decodeSeq (0#2 ++ 1#1 ++ 0x58#8 ++ 0#21) none = .error .opcodeMap
  ∧ decodeSeq (0#2 ++ 1#1 ++ 0x33#8 ++ 0#21) none = .error .slot
  ∧ decodeSeq (0#2 ++ 1#1 ++ 0x01#8 ++ 0#20 ++ 1#1) none = .error .reservedField
  ∧ decodeSeq (3#2 ++ 1#1 ++ 0#29) none = .error .bundle
  ∧ decodeEntry (0x6C#8 ++ 0#6 ++ 3#2 ++ 3#4 ++ 0#44) = .error .range
  ∧ decodeEntry (0x8B#8 ++ 0#56) = .error .opcodeRsvd
  ∧ decodeMatrix (0#120 ++ 0xDC#8) = .error .opcodeRsvd
  ∧ decodePort (0#248 ++ 0xFF#8) = .error .opcodeRsvd

/-! ## The step -/

/-- An answer of a word stands for the step: a next state is the step's, with the item put back while the word's bundle goes on. -/
def Sys2Proof.Claims.wordStep (s : State) (k core : Nat) (fw : Bool) (s0 : State) (o : Host.Outcome State Fault Refusal) : Prop :=
  (∀ t, o = .next t → step s = .next (if ((s0.core core).ctx fw).words < ((t.core core).ctx fw).words then t.updCrew k (fun w => { w with todo := .seq core fw :: w.todo }) else t))
  ∧ (∀ f, o = .fault f → step s = .fault f) ∧ ∀ r, o = .refused r → step s = .refused r

/-- R33, R91 to R94: where a crew's next item is a word of a context, the step is the instruction that the word at the context's place decodes to, with that context in focus
and the item done; the bundle's further words take further steps. -/
def Sys2Proof.Claims.WordsStep : Prop :=
  ∀ (s : State) (k core : Nat) (fw : Bool) (rest : List Work) (l : BitVec 512) (i : Instr),
    let s0 := s.updCrew k (fun w => { w with todo := rest })
    let x := (s0.core core).ctx fw
    let o : Origin := { engine := 0, w0 := (lineWord l x.word).setWidth 64, line := x.line, word := x.word - x.words }
    s.off = false → busyCrew s = some (k, .seq core fw, rest) → fetchLine s0 core x.obj x.line = .ok l → 1 ≤ x.word → x.word ≤ 15 →
    decodeSeq (lineWord l x.word) (if x.word < 15 then some (lineWord l (x.word + 1)) else none) = .ok i → i.wf = true →
    Sys2Proof.Claims.wordStep s k core fw s0 (exec i (focusOn { core := core, fw := fw, org := o } s0))

/-- R155, R163: where a crew's next item is an entry of a stream, the step is the instruction that the slot at the stream's place decodes to, the stream past it. -/
def Sys2Proof.Claims.EntriesStep : Prop :=
  ∀ (s : State) (k core u : Nat) (rest : List Work) (l : BitVec 512) (i : Instr),
    let s0 := s.updCrew k (fun w => { w with todo := rest })
    let x := (s0.core core).stream u
    let w := lineSlot l x.slot
    let o : Origin := { engine := u + 1, w0 := w, line := x.line, word := 1 + 2 * x.slot }
    s.off = false → busyCrew s = some (k, .stream core u, rest) → fetchLine s0 core x.obj x.line = .ok l → x.slot < 7 → entryFail (u + 1) w = none ∨ entryFail (u + 1) w = some .range →
    decodeEntry w = .ok i →
    step s = exec i ((focusOn { core := core, stn := u, org := o } s0).updCore core (fun y => y.updStream u (fun t => t.pass (s0.clock core) o)))

/-- R204, R205: where a crew's next item is its matrix engine, no command is in progress, the head stands there since an earlier cycle and its start cycle has come, the step is the head command. -/
def Sys2Proof.Claims.MatrixStep : Prop :=
  ∀ (s : State) (k core : Nat) (rest : List Work) (c : MxCmd) (q : List MxCmd) (i : Instr),
    let s0 := s.updCrew k (fun w => { w with todo := rest })
    s.off = false → busyCrew s = some (k, .matrix core, rest) → (s0.core core).mx.active = none → (s0.core core).mx.queue = c :: q →
    max (s0.core core).mx.headAt (c.pushed + 1) ≤ s0.clock core → c.start = s0.clock core → decodeMatrix c.word = .ok i →
    step s = exec i (focusOn { core := core, stn := 8, org := c.org } s0)

/-- Where no crew is in the middle of a core cycle, the step is the turn that stands first: of a command that is queued, the command's instruction; of a record in its stream,
the record's; an event itself. The order of turns is the model's (log entry 5). Without power only power-on happens. -/
def Sys2Proof.Claims.TurnsStep : Prop :=
  ∀ (s : State) (ts : List Turn),
    let s0 := { s with agenda := ts }
    (s.off = false → busyCrew s = none →
      (∀ i, s.agenda = .event i :: ts → step s = exec i s0)
      ∧ (∀ id c i, s.agenda = .cmd id :: ts → s.cmds.find id = some c → c.st = .queued → decodePort c.word = .ok i →
          step s = exec i (focusOn { core := c.core.getD 0, fw := c.isFw, cmd := id } s0))
      ∧ ∀ id r i, s.agenda = .record id :: ts → s.recs.find id = some r → r.st = .stream → decodeRecord r.word = .ok i → step s = exec i (focusOn { record := id } s0))
    ∧ (s.off = true → s.agenda = .event .power_on :: ts → step s = exec .power_on s0)
    ∧ (s.off = true → (∀ ts', s.agenda ≠ .event .power_on :: ts') → step s = .fault .noPower)

/-- A step runs the decoded instruction. -/
def Obligations.StepRunsDecoded : Prop :=
  Sys2Proof.Claims.WordsStep ∧ Sys2Proof.Claims.EntriesStep ∧ Sys2Proof.Claims.MatrixStep ∧ Sys2Proof.Claims.TurnsStep

/-! ## Reset and the canonical form -/

/-- R393: at reset the module is booting, with no crew, no core written and nothing in its memories; every device register reads its reset value. What an unwritten byte reads as is
the model's choice (log entry 2), and so are the reset values that no rule states (log entry 1). -/
def Obligations.ResetState : Prop :=
  State.reset.canonical = true ∧ State.reset.off = false ∧ fieldOf (State.reset.reg 0xE31) 2 0 = 0 ∧ State.reset.crews = [] ∧ State.reset.cores = []
  ∧ State.reset.cmds = [] ∧ State.reset.recs = [] ∧ (∀ i, State.reset.reg i = regReset i)
  ∧ (∀ a, State.reset.lpddr.byte a = 0 ∧ State.reset.land.byte a = 0 ∧ State.reset.host.byte a = 0)
  ∧ ∀ c, State.reset.core c = {}

/-- Every step keeps the canonical form of every memory outside the cores: addresses rise strictly and no listed byte is what an unlisted one reads as. -/
def Obligations.StepKeepsCanonical : Prop :=
  ∀ (s t : State), s.canonical = true → step s = .next t → t.canonical = true

/-- Every sequencer word keeps the canonical form of every memory outside the cores, in every state and whether it completes, waits or faults. -/
def Obligations.WordsKeepCanonical : Prop :=
  ∀ (i : Instr) (w : BitVec 32) (x : Option (BitVec 32)) (s t : State),
    encode i = .seq w x → s.canonical = true → exec i s = .next t → t.canonical = true
end

