-- ==== Sys2Proof/Laws/Store.lean ====
section
/-!
SUPPORT. The sparse maps and memories: what a read gives after a write, and that every operation keeps the canonical form.
-/
namespace Sys2Proof.Machine

/-! ## Reads after writes -/

variable {α : Type}

theorem SMap.get_put (d : α) (m : SMap α) (k j : Nat) (v : α) :
    SMap.get d (m.put k v) j = if k = j then v else SMap.get d m j := by
  induction m with
  | nil => simp [SMap.put, SMap.get]
  | cons p r ih =>
    obtain ⟨i, w⟩ := p
    simp only [SMap.put]
    split
    · simp only [SMap.get]
    · split
      · rename_i h1 h2
        subst h2
        simp only [SMap.get]
        split <;> rfl
      · simp only [SMap.get, ih]
        split
        · rename_i h1 h2 h3
          subst h3
          rw [if_neg h2]
        · rfl

theorem SMap.get_put_self (d : α) (m : SMap α) (k : Nat) (v : α) : SMap.get d (m.put k v) k = v := by
  rw [SMap.get_put, if_pos rfl]

theorem SMap.get_put_ne (d : α) (m : SMap α) (k j : Nat) (v : α) (h : k ≠ j) :
    SMap.get d (m.put k v) j = SMap.get d m j := by rw [SMap.get_put, if_neg h]

theorem SMap.get_del (d : α) (m : SMap α) (k j : Nat) :
    SMap.get d (m.del k) j = if k = j then d else SMap.get d m j := by
  induction m with
  | nil => simp [SMap.del, SMap.get]
  | cons p r ih =>
    obtain ⟨i, w⟩ := p
    by_cases hik : i = k
    · subst hik
      have e : SMap.del ((i, w) :: r) i = SMap.del r i := by simp [SMap.del]
      rw [e, ih]
      simp only [SMap.get]
      split <;> rfl
    · have e : SMap.del ((i, w) :: r) k = (i, w) :: SMap.del r k := by simp [SMap.del, hik]
      rw [e]
      simp only [SMap.get, ih]
      by_cases hij : i = j
      · subst hij
        simp only [if_true]
        rw [if_neg (fun h => hik h.symm)]
      · simp only [if_neg hij]

theorem SMap.get_set [DecidableEq α] (d : α) (m : SMap α) (k j : Nat) (v : α) :
    SMap.get d (SMap.set d m k v) j = if k = j then v else SMap.get d m j := by
  unfold SMap.set
  split
  · rename_i h
    rw [SMap.get_del, h]
  · rw [SMap.get_put]

theorem SMap.find_put (m : SMap α) (k j : Nat) (v : α) : (m.put k v).find j = if k = j then some v else m.find j := by
  induction m with
  | nil => simp [SMap.put, SMap.find]
  | cons p r ih =>
    obtain ⟨i, w⟩ := p
    simp only [SMap.put]
    split
    · simp only [SMap.find]
    · split
      · rename_i h1 h2
        subst h2
        simp only [SMap.find]
        split <;> rfl
      · simp only [SMap.find, ih]
        split
        · rename_i h1 h2 h3
          subst h3
          rw [if_neg h2]
        · rfl

/-- A second write to a key replaces the first. -/
theorem SMap.put_put (k : Nat) (v w : α) : ∀ m : SMap α, (m.put k v).put k w = m.put k w
  | [] => by simp [SMap.put]
  | (j, u) :: r => by
    simp only [SMap.put]
    split
    · simp [SMap.put]
    · split
      · simp [SMap.put]
      · rename_i h1 h2
        simp only [SMap.put, if_neg h1, if_neg h2, SMap.put_put k v w r]

/-! ## The canonical form -/

theorem SMap.rising_mono {lo lo' : Nat} (h : lo' ≤ lo) : ∀ {m : SMap α}, m.rising lo = true → m.rising lo' = true
  | [], _ => rfl
  | (j, _) :: r, hr => by
    simp only [SMap.rising, Bool.and_eq_true, decide_eq_true_eq] at hr ⊢
    exact ⟨Nat.le_trans h hr.1, hr.2⟩

theorem SMap.rising_put {lo : Nat} (k : Nat) (v : α) (hk : lo ≤ k) : ∀ {m : SMap α}, m.rising lo = true → (m.put k v).rising lo = true
  | [], _ => by simp [SMap.put, SMap.rising, hk]
  | (j, w) :: r, hr => by
    simp only [SMap.rising, Bool.and_eq_true, decide_eq_true_eq] at hr
    simp only [SMap.put]
    split
    · rename_i h
      simp only [SMap.rising, Bool.and_eq_true, decide_eq_true_eq]
      exact ⟨hk, h, hr.2⟩
    · split
      · rename_i h1 h2
        simp only [SMap.rising, Bool.and_eq_true, decide_eq_true_eq]
        exact ⟨hk, h2 ▸ hr.2⟩
      · rename_i h1 h2
        simp only [SMap.rising, Bool.and_eq_true, decide_eq_true_eq]
        exact ⟨hr.1, SMap.rising_put k v (by omega) hr.2⟩

theorem SMap.rising_filter (p : Nat × α → Bool) : ∀ {lo : Nat} {m : SMap α}, m.rising lo = true → SMap.rising lo (m.filter p) = true
  | _, [], _ => rfl
  | lo, (j, w) :: r, hr => by
    simp only [SMap.rising, Bool.and_eq_true, decide_eq_true_eq] at hr
    have ih := SMap.rising_filter p hr.2
    simp only [List.filter_cons]
    split
    · simp only [SMap.rising, Bool.and_eq_true, decide_eq_true_eq]
      exact ⟨hr.1, ih⟩
    · exact SMap.rising_mono (by omega) ih

theorem SMap.all_put (q : Nat × α → Bool) (k : Nat) (v : α) (hv : q (k, v) = true) :
    ∀ {m : SMap α}, m.all q = true → List.all (m.put k v) q = true
  | [], _ => by simp [SMap.put, hv]
  | (j, w) :: r, hm => by
    simp only [List.all_cons, Bool.and_eq_true] at hm
    simp only [SMap.put]
    split
    · simp [hv, hm.1, hm.2]
    · split
      · simp [hv, hm.2]
      · simp only [List.all_cons, Bool.and_eq_true]
        exact ⟨hm.1, SMap.all_put q k v hv hm.2⟩

theorem SMap.wf_nil [DecidableEq α] (d : α) : SMap.wf d ([] : SMap α) = true := rfl

theorem SMap.wf_filter [DecidableEq α] (d : α) (p : Nat × α → Bool) {m : SMap α} (h : SMap.wf d m = true) :
    SMap.wf d (m.filter p) = true := by
  simp only [SMap.wf, Bool.and_eq_true] at h ⊢
  refine ⟨SMap.rising_filter p h.1, ?_⟩
  rw [List.all_eq_true] at h ⊢
  intro x hx
  exact h.2 x (List.mem_filter.mp hx).1

theorem SMap.wf_set [DecidableEq α] (d : α) (k : Nat) (v : α) {m : SMap α} (h : SMap.wf d m = true) :
    SMap.wf d (SMap.set d m k v) = true := by
  unfold SMap.set
  split
  · exact SMap.wf_filter d _ h
  · rename_i hv
    simp only [SMap.wf, Bool.and_eq_true] at h ⊢
    exact ⟨SMap.rising_put k v (Nat.zero_le k) h.1, SMap.all_put _ k v (by simpa using hv) h.2⟩

/-- A memory in canonical form reads the default at an address below every listed one. -/
theorem SMap.get_below (d : α) {lo : Nat} {m : SMap α} (h : m.rising lo = true) {k : Nat} (hk : k < lo) : SMap.get d m k = d := by
  induction m generalizing lo with
  | nil => rfl
  | cons p r ih =>
    obtain ⟨j, w⟩ := p
    simp only [SMap.rising, Bool.and_eq_true, decide_eq_true_eq] at h
    simp only [SMap.get]
    rw [if_neg (by omega)]
    exact ih h.2 (by omega)

/-- Two maps in canonical form that read the same everywhere are equal. -/
theorem SMap.ext_of_rising [DecidableEq α] (d : α) : ∀ {m n : SMap α} {lo : Nat}, m.rising lo = true → n.rising lo = true →
    m.all (fun p => p.2 ≠ d) = true → n.all (fun p => p.2 ≠ d) = true → (∀ k, SMap.get d m k = SMap.get d n k) → m = n
  | [], [], _, _, _, _, _, _ => rfl
  | [], (j, w) :: r, _, _, _, _, hn, h => by
    have := h j
    simp only [SMap.get, if_true] at this
    simp only [List.all_cons, Bool.and_eq_true, decide_eq_true_eq] at hn
    exact absurd this.symm hn.1
  | (j, w) :: r, [], _, _, _, hm, _, h => by
    have := h j
    simp only [SMap.get, if_true] at this
    simp only [List.all_cons, Bool.and_eq_true, decide_eq_true_eq] at hm
    exact absurd this hm.1
  | (j, w) :: r, (i, v) :: q, lo, hm, hn, am, an, h => by
    simp only [SMap.rising, Bool.and_eq_true, decide_eq_true_eq] at hm hn
    simp only [List.all_cons, Bool.and_eq_true, decide_eq_true_eq] at am an
    have hji : j = i := by
      by_cases hlt : j < i
      · have := h j
        simp only [SMap.get, if_true] at this
        rw [if_neg (by omega), SMap.get_below d hn.2 (by omega)] at this
        exact absurd this am.1
      · by_cases hgt : i < j
        · have := h i
          simp only [SMap.get, if_true] at this
          rw [if_neg (by omega), SMap.get_below d hm.2 (by omega)] at this
          exact absurd this.symm an.1
        · omega
    subst hji
    have hw := h j
    simp only [SMap.get, if_true] at hw
    subst hw
    have : r = q := SMap.ext_of_rising d hm.2 hn.2 am.2 an.2 (fun k => by
      have := h k
      simp only [SMap.get] at this
      by_cases hk : j = k
      · subst hk
        rw [SMap.get_below d hm.2 (by omega), SMap.get_below d hn.2 (by omega)]
      · simpa [if_neg hk] using this)
    rw [this]

theorem Memory.ext_of_wf {m n : Memory} (hm : m.wf = true) (hn : n.wf = true) (h : ∀ a, m.byte a = n.byte a) : m = n := by
  simp only [Memory.wf, SMap.wf, Bool.and_eq_true] at hm hn
  exact SMap.ext_of_rising 0 hm.1 hn.1 hm.2 hn.2 h

/-! ## Memories -/

theorem Memory.byte_setByte (m : Memory) (a b : Nat) (v : Byte) : (m.setByte a v).byte b = if a = b then v else m.byte b :=
  SMap.get_set 0 m a b v

theorem Memory.wf_setByte {m : Memory} (a : Nat) (v : Byte) (h : m.wf = true) : (m.setByte a v).wf = true := SMap.wf_set 0 a v h

theorem Memory.wf_clear {m : Memory} (a n : Nat) (h : m.wf = true) : (m.clear a n).wf = true := SMap.wf_filter 0 _ h

theorem Memory.wf_setBytes : ∀ {m : Memory} (a : Nat) (bs : List Byte), m.wf = true → (m.setBytes a bs).wf = true
  | _, _, [], h => h
  | _, a, b :: bs, h => Memory.wf_setBytes (a + 1) bs (Memory.wf_setByte a b h)

theorem Memory.wf_store : ∀ {m : Memory} (a n v : Nat), m.wf = true → (m.store a n v).wf = true
  | _, _, 0, _, h => h
  | _, a, n + 1, v, h => Memory.wf_store (a + 1) n (v / 256) (Memory.wf_setByte a (.ofNat 8 v) h)

/-- A list of bytes stored from address `a`: inside it each address reads its byte, outside it nothing changes. -/
theorem Memory.byte_setBytes : ∀ (m : Memory) (a : Nat) (bs : List Byte) (b : Nat),
    (m.setBytes a bs).byte b = if a ≤ b ∧ b < a + bs.length then bs.getD (b - a) 0 else m.byte b
  | m, a, [], b => by
    rw [if_neg (by simp only [List.length_nil]; omega)]
    rfl
  | m, a, x :: xs, b => by
    simp only [Memory.setBytes]
    rw [Memory.byte_setBytes (m.setByte a x) (a + 1) xs b, Memory.byte_setByte]
    simp only [List.length_cons]
    by_cases h : a = b
    · subst h
      rw [if_neg (by omega), if_pos rfl, if_pos (by omega), Nat.sub_self]
      rfl
    · by_cases h2 : a + 1 ≤ b ∧ b < a + 1 + xs.length
      · rw [if_pos h2, if_pos (by omega)]
        have : b - a = (b - (a + 1)) + 1 := by omega
        rw [this]
        rfl
      · rw [if_neg h2, if_neg h, if_neg (by omega)]

theorem Memory.byte_setBytes_outside (m : Memory) (a : Nat) (bs : List Byte) (b : Nat) (h : b < a ∨ a + bs.length ≤ b) :
    (m.setBytes a bs).byte b = m.byte b := by
  rw [Memory.byte_setBytes, if_neg (by omega)]

theorem Memory.byte_clear (m : Memory) (a n b : Nat) : (m.clear a n).byte b = if a ≤ b ∧ b < a + n then 0 else m.byte b := by
  unfold Memory.byte
  induction m with
  | nil => simp [Memory.clear, SMap.get]
  | cons p r ih =>
    obtain ⟨j, w⟩ := p
    by_cases hj : a ≤ j ∧ j < a + n
    · have e : Memory.clear ((j, w) :: r) a n = Memory.clear r a n := by
        simp only [Memory.clear, List.filter_cons]
        rw [if_neg (by simp; omega)]
      rw [e, ih]
      simp only [SMap.get]
      by_cases hjb : j = b
      · subst hjb
        rw [if_pos hj, if_pos hj]
      · rw [if_neg hjb]
    · have e : Memory.clear ((j, w) :: r) a n = (j, w) :: Memory.clear r a n := by
        simp only [Memory.clear, List.filter_cons]
        rw [if_pos (by simp; omega)]
      rw [e]
      simp only [SMap.get, ih]
      by_cases hjb : j = b
      · subst hjb
        rw [if_pos rfl, if_pos rfl, if_neg hj]
      · rw [if_neg hjb, if_neg hjb]

theorem bytesOfNat_length : ∀ (n v : Nat), (bytesOfNat n v).length = n
  | 0, _ => rfl
  | n + 1, v => by simp [bytesOfNat, bytesOfNat_length n (v / 256)]

/-- A number of `n` bytes reads back from its bytes. -/
theorem natOfBytes_bytesOfNat : ∀ (n v : Nat), natOfBytes (bytesOfNat n v) = v % 256 ^ n
  | 0, v => by simp [bytesOfNat, natOfBytes, Nat.mod_one]
  | n + 1, v => by
    have h : v % 256 ^ (n + 1) = v % 256 + 256 * (v / 256 % 256 ^ n) := by rw [Nat.pow_succ, Nat.mul_comm (256 ^ n) 256, Nat.mod_mul]
    rw [h]
    simp only [bytesOfNat, natOfBytes, natOfBytes_bytesOfNat n (v / 256), BitVec.toNat_ofNat]

theorem Memory.load_eq (m : Memory) : ∀ (a n : Nat), m.load a n = natOfBytes (m.bytes a n)
  | _, 0 => rfl
  | a, n + 1 => by simp [Memory.load, Memory.bytes, natOfBytes, Memory.load_eq m (a + 1) n]

theorem Memory.bytes_length (m : Memory) : ∀ (a n : Nat), (m.bytes a n).length = n
  | _, 0 => rfl
  | a, n + 1 => by simp [Memory.bytes, Memory.bytes_length m (a + 1) n]

/-- Reading a span depends only on the bytes in it. -/
theorem Memory.bytes_congr {m k : Memory} : ∀ {a n : Nat}, (∀ b, a ≤ b → b < a + n → m.byte b = k.byte b) → m.bytes a n = k.bytes a n
  | _, 0, _ => rfl
  | a, n + 1, h => by
    simp only [Memory.bytes]
    rw [h a (Nat.le_refl a) (by omega), Memory.bytes_congr (fun b hb hn => h b (by omega) (by omega))]

/-- Bytes stored read back. -/
theorem Memory.bytes_setBytes_self : ∀ (m : Memory) (a : Nat) (bs : List Byte), (m.setBytes a bs).bytes a bs.length = bs
  | _, _, [] => rfl
  | m, a, x :: xs => by
    simp only [Memory.setBytes, List.length_cons, Memory.bytes, Memory.bytes_setBytes_self (m.setByte a x) (a + 1) xs]
    rw [Memory.byte_setBytes_outside _ _ _ _ (by omega), Memory.byte_setByte, if_pos rfl]

end Sys2Proof.Machine
end

