-- ==== Sys2Proof/Laws/State.lean ====
section
/-!
SUPPORT. What each update of the state leaves as it is, field by field, and what a core, a context and a register read after it.
-/
namespace Sys2Proof.Machine

/-! ## `setCore` -/

@[simp] theorem State.setCore_crews (s : State) (c : Nat) (k : Core) : (s.setCore c k).crews = s.crews := rfl
@[simp] theorem State.setCore_kilns (s : State) (c : Nat) (k : Core) : (s.setCore c k).kilns = s.kilns := rfl
@[simp] theorem State.setCore_lpddr (s : State) (c : Nat) (k : Core) : (s.setCore c k).lpddr = s.lpddr := rfl
@[simp] theorem State.setCore_host (s : State) (c : Nat) (k : Core) : (s.setCore c k).host = s.host := rfl
@[simp] theorem State.setCore_land (s : State) (c : Nat) (k : Core) : (s.setCore c k).land = s.land := rfl
@[simp] theorem State.setCore_flash (s : State) (c : Nat) (k : Core) : (s.setCore c k).flash = s.flash := rfl
@[simp] theorem State.setCore_peer (s : State) (c : Nat) (k : Core) : (s.setCore c k).peer = s.peer := rfl
@[simp] theorem State.setCore_peerObjs (s : State) (c : Nat) (k : Core) : (s.setCore c k).peerObjs = s.peerObjs := rfl
@[simp] theorem State.setCore_linksDown (s : State) (c : Nat) (k : Core) : (s.setCore c k).linksDown = s.linksDown := rfl
@[simp] theorem State.setCore_colour (s : State) (c : Nat) (k : Core) : (s.setCore c k).colour = s.colour := rfl
@[simp] theorem State.setCore_spare (s : State) (c : Nat) (k : Core) : (s.setCore c k).spare = s.spare := rfl
@[simp] theorem State.setCore_uncorr (s : State) (c : Nat) (k : Core) : (s.setCore c k).uncorr = s.uncorr := rfl
@[simp] theorem State.setCore_hardFail (s : State) (c : Nat) (k : Core) : (s.setCore c k).hardFail = s.hardFail := rfl
@[simp] theorem State.setCore_cache (s : State) (c : Nat) (k : Core) : (s.setCore c k).cache = s.cache := rfl
@[simp] theorem State.setCore_resizing (s : State) (c : Nat) (k : Core) : (s.setCore c k).resizing = s.resizing := rfl
@[simp] theorem State.setCore_tlb (s : State) (c : Nat) (k : Core) : (s.setCore c k).tlb = s.tlb := rfl
@[simp] theorem State.setCore_cmds (s : State) (c : Nat) (k : Core) : (s.setCore c k).cmds = s.cmds := rfl
@[simp] theorem State.setCore_nextId (s : State) (c : Nat) (k : Core) : (s.setCore c k).nextId = s.nextId := rfl
@[simp] theorem State.setCore_logs (s : State) (c : Nat) (k : Core) : (s.setCore c k).logs = s.logs := rfl
@[simp] theorem State.setCore_indexes (s : State) (c : Nat) (k : Core) : (s.setCore c k).indexes = s.indexes := rfl
@[simp] theorem State.setCore_keys (s : State) (c : Nat) (k : Core) : (s.setCore c k).keys = s.keys := rfl
@[simp] theorem State.setCore_cwKey (s : State) (c : Nat) (k : Core) : (s.setCore c k).cwKey = s.cwKey := rfl
@[simp] theorem State.setCore_suspWait (s : State) (c : Nat) (k : Core) : (s.setCore c k).suspWait = s.suspWait := rfl
@[simp] theorem State.setCore_hostQueue (s : State) (c : Nat) (k : Core) : (s.setCore c k).hostQueue = s.hostQueue := rfl
@[simp] theorem State.setCore_imageA (s : State) (c : Nat) (k : Core) : (s.setCore c k).imageA = s.imageA := rfl
@[simp] theorem State.setCore_imageB (s : State) (c : Nat) (k : Core) : (s.setCore c k).imageB = s.imageB := rfl
@[simp] theorem State.setCore_queues (s : State) (c : Nat) (k : Core) : (s.setCore c k).queues = s.queues := rfl
@[simp] theorem State.setCore_recs (s : State) (c : Nat) (k : Core) : (s.setCore c k).recs = s.recs := rfl
@[simp] theorem State.setCore_walks (s : State) (c : Nat) (k : Core) : (s.setCore c k).walks = s.walks := rfl
@[simp] theorem State.setCore_insts (s : State) (c : Nat) (k : Core) : (s.setCore c k).insts = s.insts := rfl
@[simp] theorem State.setCore_saved (s : State) (c : Nat) (k : Core) : (s.setCore c k).saved = s.saved := rfl
@[simp] theorem State.setCore_rr (s : State) (c : Nat) (k : Core) : (s.setCore c k).rr = s.rr := rfl
@[simp] theorem State.setCore_susps (s : State) (c : Nat) (k : Core) : (s.setCore c k).susps = s.susps := rfl
@[simp] theorem State.setCore_regs (s : State) (c : Nat) (k : Core) : (s.setCore c k).regs = s.regs := rfl
@[simp] theorem State.setCore_now (s : State) (c : Nat) (k : Core) : (s.setCore c k).now = s.now := rfl
@[simp] theorem State.setCore_halted (s : State) (c : Nat) (k : Core) : (s.setCore c k).halted = s.halted := rfl
@[simp] theorem State.setCore_debugLocked (s : State) (c : Nat) (k : Core) : (s.setCore c k).debugLocked = s.debugLocked := rfl
@[simp] theorem State.setCore_off (s : State) (c : Nat) (k : Core) : (s.setCore c k).off = s.off := rfl
@[simp] theorem State.setCore_quote (s : State) (c : Nat) (k : Core) : (s.setCore c k).quote = s.quote := rfl
@[simp] theorem State.setCore_messages (s : State) (c : Nat) (k : Core) : (s.setCore c k).messages = s.messages := rfl
@[simp] theorem State.setCore_hostData (s : State) (c : Nat) (k : Core) : (s.setCore c k).hostData = s.hostData := rfl
@[simp] theorem State.setCore_sigFails (s : State) (c : Nat) (k : Core) : (s.setCore c k).sigFails = s.sigFails := rfl
@[simp] theorem State.setCore_freeCtr (s : State) (c : Nat) (k : Core) : (s.setCore c k).freeCtr = s.freeCtr := rfl
@[simp] theorem State.setCore_agenda (s : State) (c : Nat) (k : Core) : (s.setCore c k).agenda = s.agenda := rfl
@[simp] theorem State.setCore_focus (s : State) (c : Nat) (k : Core) : (s.setCore c k).focus = s.focus := rfl

/-! ## `updCore` -/

@[simp] theorem State.updCore_crews (s : State) (c : Nat) (f : Core → Core) : (s.updCore c f).crews = s.crews := rfl
@[simp] theorem State.updCore_kilns (s : State) (c : Nat) (f : Core → Core) : (s.updCore c f).kilns = s.kilns := rfl
@[simp] theorem State.updCore_lpddr (s : State) (c : Nat) (f : Core → Core) : (s.updCore c f).lpddr = s.lpddr := rfl
@[simp] theorem State.updCore_host (s : State) (c : Nat) (f : Core → Core) : (s.updCore c f).host = s.host := rfl
@[simp] theorem State.updCore_land (s : State) (c : Nat) (f : Core → Core) : (s.updCore c f).land = s.land := rfl
@[simp] theorem State.updCore_flash (s : State) (c : Nat) (f : Core → Core) : (s.updCore c f).flash = s.flash := rfl
@[simp] theorem State.updCore_peer (s : State) (c : Nat) (f : Core → Core) : (s.updCore c f).peer = s.peer := rfl
@[simp] theorem State.updCore_peerObjs (s : State) (c : Nat) (f : Core → Core) : (s.updCore c f).peerObjs = s.peerObjs := rfl
@[simp] theorem State.updCore_linksDown (s : State) (c : Nat) (f : Core → Core) : (s.updCore c f).linksDown = s.linksDown := rfl
@[simp] theorem State.updCore_colour (s : State) (c : Nat) (f : Core → Core) : (s.updCore c f).colour = s.colour := rfl
@[simp] theorem State.updCore_spare (s : State) (c : Nat) (f : Core → Core) : (s.updCore c f).spare = s.spare := rfl
@[simp] theorem State.updCore_uncorr (s : State) (c : Nat) (f : Core → Core) : (s.updCore c f).uncorr = s.uncorr := rfl
@[simp] theorem State.updCore_hardFail (s : State) (c : Nat) (f : Core → Core) : (s.updCore c f).hardFail = s.hardFail := rfl
@[simp] theorem State.updCore_cache (s : State) (c : Nat) (f : Core → Core) : (s.updCore c f).cache = s.cache := rfl
@[simp] theorem State.updCore_resizing (s : State) (c : Nat) (f : Core → Core) : (s.updCore c f).resizing = s.resizing := rfl
@[simp] theorem State.updCore_tlb (s : State) (c : Nat) (f : Core → Core) : (s.updCore c f).tlb = s.tlb := rfl
@[simp] theorem State.updCore_cmds (s : State) (c : Nat) (f : Core → Core) : (s.updCore c f).cmds = s.cmds := rfl
@[simp] theorem State.updCore_nextId (s : State) (c : Nat) (f : Core → Core) : (s.updCore c f).nextId = s.nextId := rfl
@[simp] theorem State.updCore_logs (s : State) (c : Nat) (f : Core → Core) : (s.updCore c f).logs = s.logs := rfl
@[simp] theorem State.updCore_indexes (s : State) (c : Nat) (f : Core → Core) : (s.updCore c f).indexes = s.indexes := rfl
@[simp] theorem State.updCore_keys (s : State) (c : Nat) (f : Core → Core) : (s.updCore c f).keys = s.keys := rfl
@[simp] theorem State.updCore_cwKey (s : State) (c : Nat) (f : Core → Core) : (s.updCore c f).cwKey = s.cwKey := rfl
@[simp] theorem State.updCore_suspWait (s : State) (c : Nat) (f : Core → Core) : (s.updCore c f).suspWait = s.suspWait := rfl
@[simp] theorem State.updCore_hostQueue (s : State) (c : Nat) (f : Core → Core) : (s.updCore c f).hostQueue = s.hostQueue := rfl
@[simp] theorem State.updCore_imageA (s : State) (c : Nat) (f : Core → Core) : (s.updCore c f).imageA = s.imageA := rfl
@[simp] theorem State.updCore_imageB (s : State) (c : Nat) (f : Core → Core) : (s.updCore c f).imageB = s.imageB := rfl
@[simp] theorem State.updCore_queues (s : State) (c : Nat) (f : Core → Core) : (s.updCore c f).queues = s.queues := rfl
@[simp] theorem State.updCore_recs (s : State) (c : Nat) (f : Core → Core) : (s.updCore c f).recs = s.recs := rfl
@[simp] theorem State.updCore_walks (s : State) (c : Nat) (f : Core → Core) : (s.updCore c f).walks = s.walks := rfl
@[simp] theorem State.updCore_insts (s : State) (c : Nat) (f : Core → Core) : (s.updCore c f).insts = s.insts := rfl
@[simp] theorem State.updCore_saved (s : State) (c : Nat) (f : Core → Core) : (s.updCore c f).saved = s.saved := rfl
@[simp] theorem State.updCore_rr (s : State) (c : Nat) (f : Core → Core) : (s.updCore c f).rr = s.rr := rfl
@[simp] theorem State.updCore_susps (s : State) (c : Nat) (f : Core → Core) : (s.updCore c f).susps = s.susps := rfl
@[simp] theorem State.updCore_regs (s : State) (c : Nat) (f : Core → Core) : (s.updCore c f).regs = s.regs := rfl
@[simp] theorem State.updCore_now (s : State) (c : Nat) (f : Core → Core) : (s.updCore c f).now = s.now := rfl
@[simp] theorem State.updCore_halted (s : State) (c : Nat) (f : Core → Core) : (s.updCore c f).halted = s.halted := rfl
@[simp] theorem State.updCore_debugLocked (s : State) (c : Nat) (f : Core → Core) : (s.updCore c f).debugLocked = s.debugLocked := rfl
@[simp] theorem State.updCore_off (s : State) (c : Nat) (f : Core → Core) : (s.updCore c f).off = s.off := rfl
@[simp] theorem State.updCore_quote (s : State) (c : Nat) (f : Core → Core) : (s.updCore c f).quote = s.quote := rfl
@[simp] theorem State.updCore_messages (s : State) (c : Nat) (f : Core → Core) : (s.updCore c f).messages = s.messages := rfl
@[simp] theorem State.updCore_hostData (s : State) (c : Nat) (f : Core → Core) : (s.updCore c f).hostData = s.hostData := rfl
@[simp] theorem State.updCore_sigFails (s : State) (c : Nat) (f : Core → Core) : (s.updCore c f).sigFails = s.sigFails := rfl
@[simp] theorem State.updCore_freeCtr (s : State) (c : Nat) (f : Core → Core) : (s.updCore c f).freeCtr = s.freeCtr := rfl
@[simp] theorem State.updCore_agenda (s : State) (c : Nat) (f : Core → Core) : (s.updCore c f).agenda = s.agenda := rfl
@[simp] theorem State.updCore_focus (s : State) (c : Nat) (f : Core → Core) : (s.updCore c f).focus = s.focus := rfl

/-! ## `updF` -/

@[simp] theorem State.updF_crews (s : State) (f : Core → Core) : (s.updF f).crews = s.crews := rfl
@[simp] theorem State.updF_kilns (s : State) (f : Core → Core) : (s.updF f).kilns = s.kilns := rfl
@[simp] theorem State.updF_lpddr (s : State) (f : Core → Core) : (s.updF f).lpddr = s.lpddr := rfl
@[simp] theorem State.updF_host (s : State) (f : Core → Core) : (s.updF f).host = s.host := rfl
@[simp] theorem State.updF_land (s : State) (f : Core → Core) : (s.updF f).land = s.land := rfl
@[simp] theorem State.updF_flash (s : State) (f : Core → Core) : (s.updF f).flash = s.flash := rfl
@[simp] theorem State.updF_peer (s : State) (f : Core → Core) : (s.updF f).peer = s.peer := rfl
@[simp] theorem State.updF_peerObjs (s : State) (f : Core → Core) : (s.updF f).peerObjs = s.peerObjs := rfl
@[simp] theorem State.updF_linksDown (s : State) (f : Core → Core) : (s.updF f).linksDown = s.linksDown := rfl
@[simp] theorem State.updF_colour (s : State) (f : Core → Core) : (s.updF f).colour = s.colour := rfl
@[simp] theorem State.updF_spare (s : State) (f : Core → Core) : (s.updF f).spare = s.spare := rfl
@[simp] theorem State.updF_uncorr (s : State) (f : Core → Core) : (s.updF f).uncorr = s.uncorr := rfl
@[simp] theorem State.updF_hardFail (s : State) (f : Core → Core) : (s.updF f).hardFail = s.hardFail := rfl
@[simp] theorem State.updF_cache (s : State) (f : Core → Core) : (s.updF f).cache = s.cache := rfl
@[simp] theorem State.updF_resizing (s : State) (f : Core → Core) : (s.updF f).resizing = s.resizing := rfl
@[simp] theorem State.updF_tlb (s : State) (f : Core → Core) : (s.updF f).tlb = s.tlb := rfl
@[simp] theorem State.updF_cmds (s : State) (f : Core → Core) : (s.updF f).cmds = s.cmds := rfl
@[simp] theorem State.updF_nextId (s : State) (f : Core → Core) : (s.updF f).nextId = s.nextId := rfl
@[simp] theorem State.updF_logs (s : State) (f : Core → Core) : (s.updF f).logs = s.logs := rfl
@[simp] theorem State.updF_indexes (s : State) (f : Core → Core) : (s.updF f).indexes = s.indexes := rfl
@[simp] theorem State.updF_keys (s : State) (f : Core → Core) : (s.updF f).keys = s.keys := rfl
@[simp] theorem State.updF_cwKey (s : State) (f : Core → Core) : (s.updF f).cwKey = s.cwKey := rfl
@[simp] theorem State.updF_suspWait (s : State) (f : Core → Core) : (s.updF f).suspWait = s.suspWait := rfl
@[simp] theorem State.updF_hostQueue (s : State) (f : Core → Core) : (s.updF f).hostQueue = s.hostQueue := rfl
@[simp] theorem State.updF_imageA (s : State) (f : Core → Core) : (s.updF f).imageA = s.imageA := rfl
@[simp] theorem State.updF_imageB (s : State) (f : Core → Core) : (s.updF f).imageB = s.imageB := rfl
@[simp] theorem State.updF_queues (s : State) (f : Core → Core) : (s.updF f).queues = s.queues := rfl
@[simp] theorem State.updF_recs (s : State) (f : Core → Core) : (s.updF f).recs = s.recs := rfl
@[simp] theorem State.updF_walks (s : State) (f : Core → Core) : (s.updF f).walks = s.walks := rfl
@[simp] theorem State.updF_insts (s : State) (f : Core → Core) : (s.updF f).insts = s.insts := rfl
@[simp] theorem State.updF_saved (s : State) (f : Core → Core) : (s.updF f).saved = s.saved := rfl
@[simp] theorem State.updF_rr (s : State) (f : Core → Core) : (s.updF f).rr = s.rr := rfl
@[simp] theorem State.updF_susps (s : State) (f : Core → Core) : (s.updF f).susps = s.susps := rfl
@[simp] theorem State.updF_regs (s : State) (f : Core → Core) : (s.updF f).regs = s.regs := rfl
@[simp] theorem State.updF_now (s : State) (f : Core → Core) : (s.updF f).now = s.now := rfl
@[simp] theorem State.updF_halted (s : State) (f : Core → Core) : (s.updF f).halted = s.halted := rfl
@[simp] theorem State.updF_debugLocked (s : State) (f : Core → Core) : (s.updF f).debugLocked = s.debugLocked := rfl
@[simp] theorem State.updF_off (s : State) (f : Core → Core) : (s.updF f).off = s.off := rfl
@[simp] theorem State.updF_quote (s : State) (f : Core → Core) : (s.updF f).quote = s.quote := rfl
@[simp] theorem State.updF_messages (s : State) (f : Core → Core) : (s.updF f).messages = s.messages := rfl
@[simp] theorem State.updF_hostData (s : State) (f : Core → Core) : (s.updF f).hostData = s.hostData := rfl
@[simp] theorem State.updF_sigFails (s : State) (f : Core → Core) : (s.updF f).sigFails = s.sigFails := rfl
@[simp] theorem State.updF_freeCtr (s : State) (f : Core → Core) : (s.updF f).freeCtr = s.freeCtr := rfl
@[simp] theorem State.updF_agenda (s : State) (f : Core → Core) : (s.updF f).agenda = s.agenda := rfl
@[simp] theorem State.updF_focus (s : State) (f : Core → Core) : (s.updF f).focus = s.focus := rfl

/-! ## `updCtx` -/

@[simp] theorem State.updCtx_crews (s : State) (f : Ctx → Ctx) : (s.updCtx f).crews = s.crews := rfl
@[simp] theorem State.updCtx_kilns (s : State) (f : Ctx → Ctx) : (s.updCtx f).kilns = s.kilns := rfl
@[simp] theorem State.updCtx_lpddr (s : State) (f : Ctx → Ctx) : (s.updCtx f).lpddr = s.lpddr := rfl
@[simp] theorem State.updCtx_host (s : State) (f : Ctx → Ctx) : (s.updCtx f).host = s.host := rfl
@[simp] theorem State.updCtx_land (s : State) (f : Ctx → Ctx) : (s.updCtx f).land = s.land := rfl
@[simp] theorem State.updCtx_flash (s : State) (f : Ctx → Ctx) : (s.updCtx f).flash = s.flash := rfl
@[simp] theorem State.updCtx_peer (s : State) (f : Ctx → Ctx) : (s.updCtx f).peer = s.peer := rfl
@[simp] theorem State.updCtx_peerObjs (s : State) (f : Ctx → Ctx) : (s.updCtx f).peerObjs = s.peerObjs := rfl
@[simp] theorem State.updCtx_linksDown (s : State) (f : Ctx → Ctx) : (s.updCtx f).linksDown = s.linksDown := rfl
@[simp] theorem State.updCtx_colour (s : State) (f : Ctx → Ctx) : (s.updCtx f).colour = s.colour := rfl
@[simp] theorem State.updCtx_spare (s : State) (f : Ctx → Ctx) : (s.updCtx f).spare = s.spare := rfl
@[simp] theorem State.updCtx_uncorr (s : State) (f : Ctx → Ctx) : (s.updCtx f).uncorr = s.uncorr := rfl
@[simp] theorem State.updCtx_hardFail (s : State) (f : Ctx → Ctx) : (s.updCtx f).hardFail = s.hardFail := rfl
@[simp] theorem State.updCtx_cache (s : State) (f : Ctx → Ctx) : (s.updCtx f).cache = s.cache := rfl
@[simp] theorem State.updCtx_resizing (s : State) (f : Ctx → Ctx) : (s.updCtx f).resizing = s.resizing := rfl
@[simp] theorem State.updCtx_tlb (s : State) (f : Ctx → Ctx) : (s.updCtx f).tlb = s.tlb := rfl
@[simp] theorem State.updCtx_cmds (s : State) (f : Ctx → Ctx) : (s.updCtx f).cmds = s.cmds := rfl
@[simp] theorem State.updCtx_nextId (s : State) (f : Ctx → Ctx) : (s.updCtx f).nextId = s.nextId := rfl
@[simp] theorem State.updCtx_logs (s : State) (f : Ctx → Ctx) : (s.updCtx f).logs = s.logs := rfl
@[simp] theorem State.updCtx_indexes (s : State) (f : Ctx → Ctx) : (s.updCtx f).indexes = s.indexes := rfl
@[simp] theorem State.updCtx_keys (s : State) (f : Ctx → Ctx) : (s.updCtx f).keys = s.keys := rfl
@[simp] theorem State.updCtx_cwKey (s : State) (f : Ctx → Ctx) : (s.updCtx f).cwKey = s.cwKey := rfl
@[simp] theorem State.updCtx_suspWait (s : State) (f : Ctx → Ctx) : (s.updCtx f).suspWait = s.suspWait := rfl
@[simp] theorem State.updCtx_hostQueue (s : State) (f : Ctx → Ctx) : (s.updCtx f).hostQueue = s.hostQueue := rfl
@[simp] theorem State.updCtx_imageA (s : State) (f : Ctx → Ctx) : (s.updCtx f).imageA = s.imageA := rfl
@[simp] theorem State.updCtx_imageB (s : State) (f : Ctx → Ctx) : (s.updCtx f).imageB = s.imageB := rfl
@[simp] theorem State.updCtx_queues (s : State) (f : Ctx → Ctx) : (s.updCtx f).queues = s.queues := rfl
@[simp] theorem State.updCtx_recs (s : State) (f : Ctx → Ctx) : (s.updCtx f).recs = s.recs := rfl
@[simp] theorem State.updCtx_walks (s : State) (f : Ctx → Ctx) : (s.updCtx f).walks = s.walks := rfl
@[simp] theorem State.updCtx_insts (s : State) (f : Ctx → Ctx) : (s.updCtx f).insts = s.insts := rfl
@[simp] theorem State.updCtx_saved (s : State) (f : Ctx → Ctx) : (s.updCtx f).saved = s.saved := rfl
@[simp] theorem State.updCtx_rr (s : State) (f : Ctx → Ctx) : (s.updCtx f).rr = s.rr := rfl
@[simp] theorem State.updCtx_susps (s : State) (f : Ctx → Ctx) : (s.updCtx f).susps = s.susps := rfl
@[simp] theorem State.updCtx_regs (s : State) (f : Ctx → Ctx) : (s.updCtx f).regs = s.regs := rfl
@[simp] theorem State.updCtx_now (s : State) (f : Ctx → Ctx) : (s.updCtx f).now = s.now := rfl
@[simp] theorem State.updCtx_halted (s : State) (f : Ctx → Ctx) : (s.updCtx f).halted = s.halted := rfl
@[simp] theorem State.updCtx_debugLocked (s : State) (f : Ctx → Ctx) : (s.updCtx f).debugLocked = s.debugLocked := rfl
@[simp] theorem State.updCtx_off (s : State) (f : Ctx → Ctx) : (s.updCtx f).off = s.off := rfl
@[simp] theorem State.updCtx_quote (s : State) (f : Ctx → Ctx) : (s.updCtx f).quote = s.quote := rfl
@[simp] theorem State.updCtx_messages (s : State) (f : Ctx → Ctx) : (s.updCtx f).messages = s.messages := rfl
@[simp] theorem State.updCtx_hostData (s : State) (f : Ctx → Ctx) : (s.updCtx f).hostData = s.hostData := rfl
@[simp] theorem State.updCtx_sigFails (s : State) (f : Ctx → Ctx) : (s.updCtx f).sigFails = s.sigFails := rfl
@[simp] theorem State.updCtx_freeCtr (s : State) (f : Ctx → Ctx) : (s.updCtx f).freeCtr = s.freeCtr := rfl
@[simp] theorem State.updCtx_agenda (s : State) (f : Ctx → Ctx) : (s.updCtx f).agenda = s.agenda := rfl
@[simp] theorem State.updCtx_focus (s : State) (f : Ctx → Ctx) : (s.updCtx f).focus = s.focus := rfl

/-! ## `setG` -/

@[simp] theorem State.setG_crews (s : State) (l : Nat) (d : Reg) (v : Word) : (s.setG l d v).crews = s.crews := rfl
@[simp] theorem State.setG_kilns (s : State) (l : Nat) (d : Reg) (v : Word) : (s.setG l d v).kilns = s.kilns := rfl
@[simp] theorem State.setG_lpddr (s : State) (l : Nat) (d : Reg) (v : Word) : (s.setG l d v).lpddr = s.lpddr := rfl
@[simp] theorem State.setG_host (s : State) (l : Nat) (d : Reg) (v : Word) : (s.setG l d v).host = s.host := rfl
@[simp] theorem State.setG_land (s : State) (l : Nat) (d : Reg) (v : Word) : (s.setG l d v).land = s.land := rfl
@[simp] theorem State.setG_flash (s : State) (l : Nat) (d : Reg) (v : Word) : (s.setG l d v).flash = s.flash := rfl
@[simp] theorem State.setG_peer (s : State) (l : Nat) (d : Reg) (v : Word) : (s.setG l d v).peer = s.peer := rfl
@[simp] theorem State.setG_peerObjs (s : State) (l : Nat) (d : Reg) (v : Word) : (s.setG l d v).peerObjs = s.peerObjs := rfl
@[simp] theorem State.setG_linksDown (s : State) (l : Nat) (d : Reg) (v : Word) : (s.setG l d v).linksDown = s.linksDown := rfl
@[simp] theorem State.setG_colour (s : State) (l : Nat) (d : Reg) (v : Word) : (s.setG l d v).colour = s.colour := rfl
@[simp] theorem State.setG_spare (s : State) (l : Nat) (d : Reg) (v : Word) : (s.setG l d v).spare = s.spare := rfl
@[simp] theorem State.setG_uncorr (s : State) (l : Nat) (d : Reg) (v : Word) : (s.setG l d v).uncorr = s.uncorr := rfl
@[simp] theorem State.setG_hardFail (s : State) (l : Nat) (d : Reg) (v : Word) : (s.setG l d v).hardFail = s.hardFail := rfl
@[simp] theorem State.setG_cache (s : State) (l : Nat) (d : Reg) (v : Word) : (s.setG l d v).cache = s.cache := rfl
@[simp] theorem State.setG_resizing (s : State) (l : Nat) (d : Reg) (v : Word) : (s.setG l d v).resizing = s.resizing := rfl
@[simp] theorem State.setG_tlb (s : State) (l : Nat) (d : Reg) (v : Word) : (s.setG l d v).tlb = s.tlb := rfl
@[simp] theorem State.setG_cmds (s : State) (l : Nat) (d : Reg) (v : Word) : (s.setG l d v).cmds = s.cmds := rfl
@[simp] theorem State.setG_nextId (s : State) (l : Nat) (d : Reg) (v : Word) : (s.setG l d v).nextId = s.nextId := rfl
@[simp] theorem State.setG_logs (s : State) (l : Nat) (d : Reg) (v : Word) : (s.setG l d v).logs = s.logs := rfl
@[simp] theorem State.setG_indexes (s : State) (l : Nat) (d : Reg) (v : Word) : (s.setG l d v).indexes = s.indexes := rfl
@[simp] theorem State.setG_keys (s : State) (l : Nat) (d : Reg) (v : Word) : (s.setG l d v).keys = s.keys := rfl
@[simp] theorem State.setG_cwKey (s : State) (l : Nat) (d : Reg) (v : Word) : (s.setG l d v).cwKey = s.cwKey := rfl
@[simp] theorem State.setG_suspWait (s : State) (l : Nat) (d : Reg) (v : Word) : (s.setG l d v).suspWait = s.suspWait := rfl
@[simp] theorem State.setG_hostQueue (s : State) (l : Nat) (d : Reg) (v : Word) : (s.setG l d v).hostQueue = s.hostQueue := rfl
@[simp] theorem State.setG_imageA (s : State) (l : Nat) (d : Reg) (v : Word) : (s.setG l d v).imageA = s.imageA := rfl
@[simp] theorem State.setG_imageB (s : State) (l : Nat) (d : Reg) (v : Word) : (s.setG l d v).imageB = s.imageB := rfl
@[simp] theorem State.setG_queues (s : State) (l : Nat) (d : Reg) (v : Word) : (s.setG l d v).queues = s.queues := rfl
@[simp] theorem State.setG_recs (s : State) (l : Nat) (d : Reg) (v : Word) : (s.setG l d v).recs = s.recs := rfl
@[simp] theorem State.setG_walks (s : State) (l : Nat) (d : Reg) (v : Word) : (s.setG l d v).walks = s.walks := rfl
@[simp] theorem State.setG_insts (s : State) (l : Nat) (d : Reg) (v : Word) : (s.setG l d v).insts = s.insts := rfl
@[simp] theorem State.setG_saved (s : State) (l : Nat) (d : Reg) (v : Word) : (s.setG l d v).saved = s.saved := rfl
@[simp] theorem State.setG_rr (s : State) (l : Nat) (d : Reg) (v : Word) : (s.setG l d v).rr = s.rr := rfl
@[simp] theorem State.setG_susps (s : State) (l : Nat) (d : Reg) (v : Word) : (s.setG l d v).susps = s.susps := rfl
@[simp] theorem State.setG_regs (s : State) (l : Nat) (d : Reg) (v : Word) : (s.setG l d v).regs = s.regs := rfl
@[simp] theorem State.setG_now (s : State) (l : Nat) (d : Reg) (v : Word) : (s.setG l d v).now = s.now := rfl
@[simp] theorem State.setG_halted (s : State) (l : Nat) (d : Reg) (v : Word) : (s.setG l d v).halted = s.halted := rfl
@[simp] theorem State.setG_debugLocked (s : State) (l : Nat) (d : Reg) (v : Word) : (s.setG l d v).debugLocked = s.debugLocked := rfl
@[simp] theorem State.setG_off (s : State) (l : Nat) (d : Reg) (v : Word) : (s.setG l d v).off = s.off := rfl
@[simp] theorem State.setG_quote (s : State) (l : Nat) (d : Reg) (v : Word) : (s.setG l d v).quote = s.quote := rfl
@[simp] theorem State.setG_messages (s : State) (l : Nat) (d : Reg) (v : Word) : (s.setG l d v).messages = s.messages := rfl
@[simp] theorem State.setG_hostData (s : State) (l : Nat) (d : Reg) (v : Word) : (s.setG l d v).hostData = s.hostData := rfl
@[simp] theorem State.setG_sigFails (s : State) (l : Nat) (d : Reg) (v : Word) : (s.setG l d v).sigFails = s.sigFails := rfl
@[simp] theorem State.setG_freeCtr (s : State) (l : Nat) (d : Reg) (v : Word) : (s.setG l d v).freeCtr = s.freeCtr := rfl
@[simp] theorem State.setG_agenda (s : State) (l : Nat) (d : Reg) (v : Word) : (s.setG l d v).agenda = s.agenda := rfl
@[simp] theorem State.setG_focus (s : State) (l : Nat) (d : Reg) (v : Word) : (s.setG l d v).focus = s.focus := rfl

/-! ## `setP` -/

@[simp] theorem State.setP_crews (s : State) (d : PReg) (v : Bool) : (s.setP d v).crews = s.crews := rfl
@[simp] theorem State.setP_kilns (s : State) (d : PReg) (v : Bool) : (s.setP d v).kilns = s.kilns := rfl
@[simp] theorem State.setP_lpddr (s : State) (d : PReg) (v : Bool) : (s.setP d v).lpddr = s.lpddr := rfl
@[simp] theorem State.setP_host (s : State) (d : PReg) (v : Bool) : (s.setP d v).host = s.host := rfl
@[simp] theorem State.setP_land (s : State) (d : PReg) (v : Bool) : (s.setP d v).land = s.land := rfl
@[simp] theorem State.setP_flash (s : State) (d : PReg) (v : Bool) : (s.setP d v).flash = s.flash := rfl
@[simp] theorem State.setP_peer (s : State) (d : PReg) (v : Bool) : (s.setP d v).peer = s.peer := rfl
@[simp] theorem State.setP_peerObjs (s : State) (d : PReg) (v : Bool) : (s.setP d v).peerObjs = s.peerObjs := rfl
@[simp] theorem State.setP_linksDown (s : State) (d : PReg) (v : Bool) : (s.setP d v).linksDown = s.linksDown := rfl
@[simp] theorem State.setP_colour (s : State) (d : PReg) (v : Bool) : (s.setP d v).colour = s.colour := rfl
@[simp] theorem State.setP_spare (s : State) (d : PReg) (v : Bool) : (s.setP d v).spare = s.spare := rfl
@[simp] theorem State.setP_uncorr (s : State) (d : PReg) (v : Bool) : (s.setP d v).uncorr = s.uncorr := rfl
@[simp] theorem State.setP_hardFail (s : State) (d : PReg) (v : Bool) : (s.setP d v).hardFail = s.hardFail := rfl
@[simp] theorem State.setP_cache (s : State) (d : PReg) (v : Bool) : (s.setP d v).cache = s.cache := rfl
@[simp] theorem State.setP_resizing (s : State) (d : PReg) (v : Bool) : (s.setP d v).resizing = s.resizing := rfl
@[simp] theorem State.setP_tlb (s : State) (d : PReg) (v : Bool) : (s.setP d v).tlb = s.tlb := rfl
@[simp] theorem State.setP_cmds (s : State) (d : PReg) (v : Bool) : (s.setP d v).cmds = s.cmds := rfl
@[simp] theorem State.setP_nextId (s : State) (d : PReg) (v : Bool) : (s.setP d v).nextId = s.nextId := rfl
@[simp] theorem State.setP_logs (s : State) (d : PReg) (v : Bool) : (s.setP d v).logs = s.logs := rfl
@[simp] theorem State.setP_indexes (s : State) (d : PReg) (v : Bool) : (s.setP d v).indexes = s.indexes := rfl
@[simp] theorem State.setP_keys (s : State) (d : PReg) (v : Bool) : (s.setP d v).keys = s.keys := rfl
@[simp] theorem State.setP_cwKey (s : State) (d : PReg) (v : Bool) : (s.setP d v).cwKey = s.cwKey := rfl
@[simp] theorem State.setP_suspWait (s : State) (d : PReg) (v : Bool) : (s.setP d v).suspWait = s.suspWait := rfl
@[simp] theorem State.setP_hostQueue (s : State) (d : PReg) (v : Bool) : (s.setP d v).hostQueue = s.hostQueue := rfl
@[simp] theorem State.setP_imageA (s : State) (d : PReg) (v : Bool) : (s.setP d v).imageA = s.imageA := rfl
@[simp] theorem State.setP_imageB (s : State) (d : PReg) (v : Bool) : (s.setP d v).imageB = s.imageB := rfl
@[simp] theorem State.setP_queues (s : State) (d : PReg) (v : Bool) : (s.setP d v).queues = s.queues := rfl
@[simp] theorem State.setP_recs (s : State) (d : PReg) (v : Bool) : (s.setP d v).recs = s.recs := rfl
@[simp] theorem State.setP_walks (s : State) (d : PReg) (v : Bool) : (s.setP d v).walks = s.walks := rfl
@[simp] theorem State.setP_insts (s : State) (d : PReg) (v : Bool) : (s.setP d v).insts = s.insts := rfl
@[simp] theorem State.setP_saved (s : State) (d : PReg) (v : Bool) : (s.setP d v).saved = s.saved := rfl
@[simp] theorem State.setP_rr (s : State) (d : PReg) (v : Bool) : (s.setP d v).rr = s.rr := rfl
@[simp] theorem State.setP_susps (s : State) (d : PReg) (v : Bool) : (s.setP d v).susps = s.susps := rfl
@[simp] theorem State.setP_regs (s : State) (d : PReg) (v : Bool) : (s.setP d v).regs = s.regs := rfl
@[simp] theorem State.setP_now (s : State) (d : PReg) (v : Bool) : (s.setP d v).now = s.now := rfl
@[simp] theorem State.setP_halted (s : State) (d : PReg) (v : Bool) : (s.setP d v).halted = s.halted := rfl
@[simp] theorem State.setP_debugLocked (s : State) (d : PReg) (v : Bool) : (s.setP d v).debugLocked = s.debugLocked := rfl
@[simp] theorem State.setP_off (s : State) (d : PReg) (v : Bool) : (s.setP d v).off = s.off := rfl
@[simp] theorem State.setP_quote (s : State) (d : PReg) (v : Bool) : (s.setP d v).quote = s.quote := rfl
@[simp] theorem State.setP_messages (s : State) (d : PReg) (v : Bool) : (s.setP d v).messages = s.messages := rfl
@[simp] theorem State.setP_hostData (s : State) (d : PReg) (v : Bool) : (s.setP d v).hostData = s.hostData := rfl
@[simp] theorem State.setP_sigFails (s : State) (d : PReg) (v : Bool) : (s.setP d v).sigFails = s.sigFails := rfl
@[simp] theorem State.setP_freeCtr (s : State) (d : PReg) (v : Bool) : (s.setP d v).freeCtr = s.freeCtr := rfl
@[simp] theorem State.setP_agenda (s : State) (d : PReg) (v : Bool) : (s.setP d v).agenda = s.agenda := rfl
@[simp] theorem State.setP_focus (s : State) (d : PReg) (v : Bool) : (s.setP d v).focus = s.focus := rfl

/-! ## `later` -/

@[simp] theorem State.later_crews (s : State) (n : Nat) (e : Eff) : (s.later n e).crews = s.crews := rfl
@[simp] theorem State.later_kilns (s : State) (n : Nat) (e : Eff) : (s.later n e).kilns = s.kilns := rfl
@[simp] theorem State.later_lpddr (s : State) (n : Nat) (e : Eff) : (s.later n e).lpddr = s.lpddr := rfl
@[simp] theorem State.later_host (s : State) (n : Nat) (e : Eff) : (s.later n e).host = s.host := rfl
@[simp] theorem State.later_land (s : State) (n : Nat) (e : Eff) : (s.later n e).land = s.land := rfl
@[simp] theorem State.later_flash (s : State) (n : Nat) (e : Eff) : (s.later n e).flash = s.flash := rfl
@[simp] theorem State.later_peer (s : State) (n : Nat) (e : Eff) : (s.later n e).peer = s.peer := rfl
@[simp] theorem State.later_peerObjs (s : State) (n : Nat) (e : Eff) : (s.later n e).peerObjs = s.peerObjs := rfl
@[simp] theorem State.later_linksDown (s : State) (n : Nat) (e : Eff) : (s.later n e).linksDown = s.linksDown := rfl
@[simp] theorem State.later_colour (s : State) (n : Nat) (e : Eff) : (s.later n e).colour = s.colour := rfl
@[simp] theorem State.later_spare (s : State) (n : Nat) (e : Eff) : (s.later n e).spare = s.spare := rfl
@[simp] theorem State.later_uncorr (s : State) (n : Nat) (e : Eff) : (s.later n e).uncorr = s.uncorr := rfl
@[simp] theorem State.later_hardFail (s : State) (n : Nat) (e : Eff) : (s.later n e).hardFail = s.hardFail := rfl
@[simp] theorem State.later_cache (s : State) (n : Nat) (e : Eff) : (s.later n e).cache = s.cache := rfl
@[simp] theorem State.later_resizing (s : State) (n : Nat) (e : Eff) : (s.later n e).resizing = s.resizing := rfl
@[simp] theorem State.later_tlb (s : State) (n : Nat) (e : Eff) : (s.later n e).tlb = s.tlb := rfl
@[simp] theorem State.later_cmds (s : State) (n : Nat) (e : Eff) : (s.later n e).cmds = s.cmds := rfl
@[simp] theorem State.later_nextId (s : State) (n : Nat) (e : Eff) : (s.later n e).nextId = s.nextId := rfl
@[simp] theorem State.later_logs (s : State) (n : Nat) (e : Eff) : (s.later n e).logs = s.logs := rfl
@[simp] theorem State.later_indexes (s : State) (n : Nat) (e : Eff) : (s.later n e).indexes = s.indexes := rfl
@[simp] theorem State.later_keys (s : State) (n : Nat) (e : Eff) : (s.later n e).keys = s.keys := rfl
@[simp] theorem State.later_cwKey (s : State) (n : Nat) (e : Eff) : (s.later n e).cwKey = s.cwKey := rfl
@[simp] theorem State.later_suspWait (s : State) (n : Nat) (e : Eff) : (s.later n e).suspWait = s.suspWait := rfl
@[simp] theorem State.later_hostQueue (s : State) (n : Nat) (e : Eff) : (s.later n e).hostQueue = s.hostQueue := rfl
@[simp] theorem State.later_imageA (s : State) (n : Nat) (e : Eff) : (s.later n e).imageA = s.imageA := rfl
@[simp] theorem State.later_imageB (s : State) (n : Nat) (e : Eff) : (s.later n e).imageB = s.imageB := rfl
@[simp] theorem State.later_queues (s : State) (n : Nat) (e : Eff) : (s.later n e).queues = s.queues := rfl
@[simp] theorem State.later_recs (s : State) (n : Nat) (e : Eff) : (s.later n e).recs = s.recs := rfl
@[simp] theorem State.later_walks (s : State) (n : Nat) (e : Eff) : (s.later n e).walks = s.walks := rfl
@[simp] theorem State.later_insts (s : State) (n : Nat) (e : Eff) : (s.later n e).insts = s.insts := rfl
@[simp] theorem State.later_saved (s : State) (n : Nat) (e : Eff) : (s.later n e).saved = s.saved := rfl
@[simp] theorem State.later_rr (s : State) (n : Nat) (e : Eff) : (s.later n e).rr = s.rr := rfl
@[simp] theorem State.later_susps (s : State) (n : Nat) (e : Eff) : (s.later n e).susps = s.susps := rfl
@[simp] theorem State.later_regs (s : State) (n : Nat) (e : Eff) : (s.later n e).regs = s.regs := rfl
@[simp] theorem State.later_now (s : State) (n : Nat) (e : Eff) : (s.later n e).now = s.now := rfl
@[simp] theorem State.later_halted (s : State) (n : Nat) (e : Eff) : (s.later n e).halted = s.halted := rfl
@[simp] theorem State.later_debugLocked (s : State) (n : Nat) (e : Eff) : (s.later n e).debugLocked = s.debugLocked := rfl
@[simp] theorem State.later_off (s : State) (n : Nat) (e : Eff) : (s.later n e).off = s.off := rfl
@[simp] theorem State.later_quote (s : State) (n : Nat) (e : Eff) : (s.later n e).quote = s.quote := rfl
@[simp] theorem State.later_messages (s : State) (n : Nat) (e : Eff) : (s.later n e).messages = s.messages := rfl
@[simp] theorem State.later_hostData (s : State) (n : Nat) (e : Eff) : (s.later n e).hostData = s.hostData := rfl
@[simp] theorem State.later_sigFails (s : State) (n : Nat) (e : Eff) : (s.later n e).sigFails = s.sigFails := rfl
@[simp] theorem State.later_freeCtr (s : State) (n : Nat) (e : Eff) : (s.later n e).freeCtr = s.freeCtr := rfl
@[simp] theorem State.later_agenda (s : State) (n : Nat) (e : Eff) : (s.later n e).agenda = s.agenda := rfl
@[simp] theorem State.later_focus (s : State) (n : Nat) (e : Eff) : (s.later n e).focus = s.focus := rfl

/-! ## `setRnd` -/

@[simp] theorem State.setRnd_crews (s : State) (r : Rounding) : (s.setRnd r).crews = s.crews := rfl
@[simp] theorem State.setRnd_kilns (s : State) (r : Rounding) : (s.setRnd r).kilns = s.kilns := rfl
@[simp] theorem State.setRnd_lpddr (s : State) (r : Rounding) : (s.setRnd r).lpddr = s.lpddr := rfl
@[simp] theorem State.setRnd_host (s : State) (r : Rounding) : (s.setRnd r).host = s.host := rfl
@[simp] theorem State.setRnd_land (s : State) (r : Rounding) : (s.setRnd r).land = s.land := rfl
@[simp] theorem State.setRnd_flash (s : State) (r : Rounding) : (s.setRnd r).flash = s.flash := rfl
@[simp] theorem State.setRnd_peer (s : State) (r : Rounding) : (s.setRnd r).peer = s.peer := rfl
@[simp] theorem State.setRnd_peerObjs (s : State) (r : Rounding) : (s.setRnd r).peerObjs = s.peerObjs := rfl
@[simp] theorem State.setRnd_linksDown (s : State) (r : Rounding) : (s.setRnd r).linksDown = s.linksDown := rfl
@[simp] theorem State.setRnd_colour (s : State) (r : Rounding) : (s.setRnd r).colour = s.colour := rfl
@[simp] theorem State.setRnd_spare (s : State) (r : Rounding) : (s.setRnd r).spare = s.spare := rfl
@[simp] theorem State.setRnd_uncorr (s : State) (r : Rounding) : (s.setRnd r).uncorr = s.uncorr := rfl
@[simp] theorem State.setRnd_hardFail (s : State) (r : Rounding) : (s.setRnd r).hardFail = s.hardFail := rfl
@[simp] theorem State.setRnd_cache (s : State) (r : Rounding) : (s.setRnd r).cache = s.cache := rfl
@[simp] theorem State.setRnd_resizing (s : State) (r : Rounding) : (s.setRnd r).resizing = s.resizing := rfl
@[simp] theorem State.setRnd_tlb (s : State) (r : Rounding) : (s.setRnd r).tlb = s.tlb := rfl
@[simp] theorem State.setRnd_cmds (s : State) (r : Rounding) : (s.setRnd r).cmds = s.cmds := rfl
@[simp] theorem State.setRnd_nextId (s : State) (r : Rounding) : (s.setRnd r).nextId = s.nextId := rfl
@[simp] theorem State.setRnd_logs (s : State) (r : Rounding) : (s.setRnd r).logs = s.logs := rfl
@[simp] theorem State.setRnd_indexes (s : State) (r : Rounding) : (s.setRnd r).indexes = s.indexes := rfl
@[simp] theorem State.setRnd_keys (s : State) (r : Rounding) : (s.setRnd r).keys = s.keys := rfl
@[simp] theorem State.setRnd_cwKey (s : State) (r : Rounding) : (s.setRnd r).cwKey = s.cwKey := rfl
@[simp] theorem State.setRnd_suspWait (s : State) (r : Rounding) : (s.setRnd r).suspWait = s.suspWait := rfl
@[simp] theorem State.setRnd_hostQueue (s : State) (r : Rounding) : (s.setRnd r).hostQueue = s.hostQueue := rfl
@[simp] theorem State.setRnd_imageA (s : State) (r : Rounding) : (s.setRnd r).imageA = s.imageA := rfl
@[simp] theorem State.setRnd_imageB (s : State) (r : Rounding) : (s.setRnd r).imageB = s.imageB := rfl
@[simp] theorem State.setRnd_queues (s : State) (r : Rounding) : (s.setRnd r).queues = s.queues := rfl
@[simp] theorem State.setRnd_recs (s : State) (r : Rounding) : (s.setRnd r).recs = s.recs := rfl
@[simp] theorem State.setRnd_walks (s : State) (r : Rounding) : (s.setRnd r).walks = s.walks := rfl
@[simp] theorem State.setRnd_insts (s : State) (r : Rounding) : (s.setRnd r).insts = s.insts := rfl
@[simp] theorem State.setRnd_saved (s : State) (r : Rounding) : (s.setRnd r).saved = s.saved := rfl
@[simp] theorem State.setRnd_rr (s : State) (r : Rounding) : (s.setRnd r).rr = s.rr := rfl
@[simp] theorem State.setRnd_susps (s : State) (r : Rounding) : (s.setRnd r).susps = s.susps := rfl
@[simp] theorem State.setRnd_regs (s : State) (r : Rounding) : (s.setRnd r).regs = s.regs := rfl
@[simp] theorem State.setRnd_now (s : State) (r : Rounding) : (s.setRnd r).now = s.now := rfl
@[simp] theorem State.setRnd_halted (s : State) (r : Rounding) : (s.setRnd r).halted = s.halted := rfl
@[simp] theorem State.setRnd_debugLocked (s : State) (r : Rounding) : (s.setRnd r).debugLocked = s.debugLocked := rfl
@[simp] theorem State.setRnd_off (s : State) (r : Rounding) : (s.setRnd r).off = s.off := rfl
@[simp] theorem State.setRnd_quote (s : State) (r : Rounding) : (s.setRnd r).quote = s.quote := rfl
@[simp] theorem State.setRnd_messages (s : State) (r : Rounding) : (s.setRnd r).messages = s.messages := rfl
@[simp] theorem State.setRnd_hostData (s : State) (r : Rounding) : (s.setRnd r).hostData = s.hostData := rfl
@[simp] theorem State.setRnd_sigFails (s : State) (r : Rounding) : (s.setRnd r).sigFails = s.sigFails := rfl
@[simp] theorem State.setRnd_freeCtr (s : State) (r : Rounding) : (s.setRnd r).freeCtr = s.freeCtr := rfl
@[simp] theorem State.setRnd_agenda (s : State) (r : Rounding) : (s.setRnd r).agenda = s.agenda := rfl
@[simp] theorem State.setRnd_focus (s : State) (r : Rounding) : (s.setRnd r).focus = s.focus := rfl

/-! ## `setReg` -/

@[simp] theorem State.setReg_cores (s : State) (i : Nat) (v : Word) : (s.setReg i v).cores = s.cores := rfl
@[simp] theorem State.setReg_crews (s : State) (i : Nat) (v : Word) : (s.setReg i v).crews = s.crews := rfl
@[simp] theorem State.setReg_kilns (s : State) (i : Nat) (v : Word) : (s.setReg i v).kilns = s.kilns := rfl
@[simp] theorem State.setReg_lpddr (s : State) (i : Nat) (v : Word) : (s.setReg i v).lpddr = s.lpddr := rfl
@[simp] theorem State.setReg_host (s : State) (i : Nat) (v : Word) : (s.setReg i v).host = s.host := rfl
@[simp] theorem State.setReg_land (s : State) (i : Nat) (v : Word) : (s.setReg i v).land = s.land := rfl
@[simp] theorem State.setReg_flash (s : State) (i : Nat) (v : Word) : (s.setReg i v).flash = s.flash := rfl
@[simp] theorem State.setReg_peer (s : State) (i : Nat) (v : Word) : (s.setReg i v).peer = s.peer := rfl
@[simp] theorem State.setReg_peerObjs (s : State) (i : Nat) (v : Word) : (s.setReg i v).peerObjs = s.peerObjs := rfl
@[simp] theorem State.setReg_linksDown (s : State) (i : Nat) (v : Word) : (s.setReg i v).linksDown = s.linksDown := rfl
@[simp] theorem State.setReg_colour (s : State) (i : Nat) (v : Word) : (s.setReg i v).colour = s.colour := rfl
@[simp] theorem State.setReg_spare (s : State) (i : Nat) (v : Word) : (s.setReg i v).spare = s.spare := rfl
@[simp] theorem State.setReg_uncorr (s : State) (i : Nat) (v : Word) : (s.setReg i v).uncorr = s.uncorr := rfl
@[simp] theorem State.setReg_hardFail (s : State) (i : Nat) (v : Word) : (s.setReg i v).hardFail = s.hardFail := rfl
@[simp] theorem State.setReg_cache (s : State) (i : Nat) (v : Word) : (s.setReg i v).cache = s.cache := rfl
@[simp] theorem State.setReg_resizing (s : State) (i : Nat) (v : Word) : (s.setReg i v).resizing = s.resizing := rfl
@[simp] theorem State.setReg_tlb (s : State) (i : Nat) (v : Word) : (s.setReg i v).tlb = s.tlb := rfl
@[simp] theorem State.setReg_cmds (s : State) (i : Nat) (v : Word) : (s.setReg i v).cmds = s.cmds := rfl
@[simp] theorem State.setReg_nextId (s : State) (i : Nat) (v : Word) : (s.setReg i v).nextId = s.nextId := rfl
@[simp] theorem State.setReg_logs (s : State) (i : Nat) (v : Word) : (s.setReg i v).logs = s.logs := rfl
@[simp] theorem State.setReg_indexes (s : State) (i : Nat) (v : Word) : (s.setReg i v).indexes = s.indexes := rfl
@[simp] theorem State.setReg_keys (s : State) (i : Nat) (v : Word) : (s.setReg i v).keys = s.keys := rfl
@[simp] theorem State.setReg_cwKey (s : State) (i : Nat) (v : Word) : (s.setReg i v).cwKey = s.cwKey := rfl
@[simp] theorem State.setReg_suspWait (s : State) (i : Nat) (v : Word) : (s.setReg i v).suspWait = s.suspWait := rfl
@[simp] theorem State.setReg_hostQueue (s : State) (i : Nat) (v : Word) : (s.setReg i v).hostQueue = s.hostQueue := rfl
@[simp] theorem State.setReg_imageA (s : State) (i : Nat) (v : Word) : (s.setReg i v).imageA = s.imageA := rfl
@[simp] theorem State.setReg_imageB (s : State) (i : Nat) (v : Word) : (s.setReg i v).imageB = s.imageB := rfl
@[simp] theorem State.setReg_queues (s : State) (i : Nat) (v : Word) : (s.setReg i v).queues = s.queues := rfl
@[simp] theorem State.setReg_recs (s : State) (i : Nat) (v : Word) : (s.setReg i v).recs = s.recs := rfl
@[simp] theorem State.setReg_walks (s : State) (i : Nat) (v : Word) : (s.setReg i v).walks = s.walks := rfl
@[simp] theorem State.setReg_insts (s : State) (i : Nat) (v : Word) : (s.setReg i v).insts = s.insts := rfl
@[simp] theorem State.setReg_saved (s : State) (i : Nat) (v : Word) : (s.setReg i v).saved = s.saved := rfl
@[simp] theorem State.setReg_rr (s : State) (i : Nat) (v : Word) : (s.setReg i v).rr = s.rr := rfl
@[simp] theorem State.setReg_susps (s : State) (i : Nat) (v : Word) : (s.setReg i v).susps = s.susps := rfl
@[simp] theorem State.setReg_now (s : State) (i : Nat) (v : Word) : (s.setReg i v).now = s.now := rfl
@[simp] theorem State.setReg_halted (s : State) (i : Nat) (v : Word) : (s.setReg i v).halted = s.halted := rfl
@[simp] theorem State.setReg_debugLocked (s : State) (i : Nat) (v : Word) : (s.setReg i v).debugLocked = s.debugLocked := rfl
@[simp] theorem State.setReg_off (s : State) (i : Nat) (v : Word) : (s.setReg i v).off = s.off := rfl
@[simp] theorem State.setReg_quote (s : State) (i : Nat) (v : Word) : (s.setReg i v).quote = s.quote := rfl
@[simp] theorem State.setReg_messages (s : State) (i : Nat) (v : Word) : (s.setReg i v).messages = s.messages := rfl
@[simp] theorem State.setReg_hostData (s : State) (i : Nat) (v : Word) : (s.setReg i v).hostData = s.hostData := rfl
@[simp] theorem State.setReg_sigFails (s : State) (i : Nat) (v : Word) : (s.setReg i v).sigFails = s.sigFails := rfl
@[simp] theorem State.setReg_freeCtr (s : State) (i : Nat) (v : Word) : (s.setReg i v).freeCtr = s.freeCtr := rfl
@[simp] theorem State.setReg_agenda (s : State) (i : Nat) (v : Word) : (s.setReg i v).agenda = s.agenda := rfl
@[simp] theorem State.setReg_focus (s : State) (i : Nat) (v : Word) : (s.setReg i v).focus = s.focus := rfl

/-! ## Contexts of a core -/

@[simp] theorem Core.setCtx_flags (k : Core) (w : Bool) (x : Ctx) : (k.setCtx w x).flags = k.flags := by cases w <;> rfl
@[simp] theorem Core.setCtx_hsem (k : Core) (w : Bool) (x : Ctx) : (k.setCtx w x).hsem = k.hsem := by cases w <;> rfl
@[simp] theorem Core.setCtx_hsemPend (k : Core) (w : Bool) (x : Ctx) : (k.setCtx w x).hsemPend = k.hsemPend := by cases w <;> rfl
@[simp] theorem Core.setCtx_hsemSat (k : Core) (w : Bool) (x : Ctx) : (k.setCtx w x).hsemSat = k.hsemSat := by cases w <;> rfl
@[simp] theorem Core.setCtx_hsemMoved (k : Core) (w : Bool) (x : Ctx) : (k.setCtx w x).hsemMoved = k.hsemMoved := by cases w <;> rfl
@[simp] theorem Core.setCtx_seqMem (k : Core) (w : Bool) (x : Ctx) : (k.setCtx w x).seqMem = k.seqMem := by cases w <;> rfl
@[simp] theorem Core.setCtx_fwMem (k : Core) (w : Bool) (x : Ctx) : (k.setCtx w x).fwMem = k.fwMem := by cases w <;> rfl
@[simp] theorem Core.setCtx_streams (k : Core) (w : Bool) (x : Ctx) : (k.setCtx w x).streams = k.streams := by cases w <;> rfl
@[simp] theorem Core.setCtx_banks (k : Core) (w : Bool) (x : Ctx) : (k.setCtx w x).banks = k.banks := by cases w <;> rfl
@[simp] theorem Core.setCtx_stns (k : Core) (w : Bool) (x : Ctx) : (k.setCtx w x).stns = k.stns := by cases w <;> rfl
@[simp] theorem Core.setCtx_cbs (k : Core) (w : Bool) (x : Ctx) : (k.setCtx w x).cbs = k.cbs := by cases w <;> rfl
@[simp] theorem Core.setCtx_cbPoison (k : Core) (w : Bool) (x : Ctx) : (k.setCtx w x).cbPoison = k.cbPoison := by cases w <;> rfl
@[simp] theorem Core.setCtx_tb (k : Core) (w : Bool) (x : Ctx) : (k.setCtx w x).tb = k.tb := by cases w <;> rfl
@[simp] theorem Core.setCtx_lanes (k : Core) (w : Bool) (x : Ctx) : (k.setCtx w x).lanes = k.lanes := by cases w <;> rfl
@[simp] theorem Core.setCtx_pend (k : Core) (w : Bool) (x : Ctx) : (k.setCtx w x).pend = k.pend := by cases w <;> rfl
@[simp] theorem Core.setCtx_uses (k : Core) (w : Bool) (x : Ctx) : (k.setCtx w x).uses = k.uses := by cases w <;> rfl
@[simp] theorem Core.setCtx_fr (k : Core) (w : Bool) (x : Ctx) : (k.setCtx w x).fr = k.fr := by cases w <;> rfl
@[simp] theorem Core.setCtx_mx (k : Core) (w : Bool) (x : Ctx) : (k.setCtx w x).mx = k.mx := by cases w <;> rfl
@[simp] theorem Core.setCtx_xbWin (k : Core) (w : Bool) (x : Ctx) : (k.setCtx w x).xbWin = k.xbWin := by cases w <;> rfl
@[simp] theorem Core.setCtx_crew (k : Core) (w : Bool) (x : Ctx) : (k.setCtx w x).crew = k.crew := by cases w <;> rfl
@[simp] theorem Core.setCtx_trapCode (k : Core) (w : Bool) (x : Ctx) : (k.setCtx w x).trapCode = k.trapCode := by cases w <;> rfl
@[simp] theorem Core.setCtx_checkedTo (k : Core) (w : Bool) (x : Ctx) : (k.setCtx w x).checkedTo = k.checkedTo := by cases w <;> rfl
@[simp] theorem Core.setCtx_checkedBundles (k : Core) (w : Bool) (x : Ctx) : (k.setCtx w x).checkedBundles = k.checkedBundles := by cases w <;> rfl
@[simp] theorem Core.setCtx_fwN (k : Core) (w : Bool) (x : Ctx) : (k.setCtx w x).fwN = k.fwN := by cases w <;> rfl
@[simp] theorem Core.setCtx_fwMin (k : Core) (w : Bool) (x : Ctx) : (k.setCtx w x).fwMin = k.fwMin := by cases w <;> rfl
@[simp] theorem Core.setCtx_fwTaken (k : Core) (w : Bool) (x : Ctx) : (k.setCtx w x).fwTaken = k.fwTaken := by cases w <;> rfl
@[simp] theorem Core.setCtx_bundles (k : Core) (w : Bool) (x : Ctx) : (k.setCtx w x).bundles = k.bundles := by cases w <;> rfl
@[simp] theorem Core.setCtx_fwSlots (k : Core) (w : Bool) (x : Ctx) : (k.setCtx w x).fwSlots = k.fwSlots := by cases w <;> rfl
@[simp] theorem Core.setCtx_tag (k : Core) (w : Bool) (x : Ctx) : (k.setCtx w x).tag = k.tag := by cases w <;> rfl
@[simp] theorem Core.setCtx_holdLimit (k : Core) (w : Bool) (x : Ctx) : (k.setCtx w x).holdLimit = k.holdLimit := by cases w <;> rfl
@[simp] theorem Core.setCtx_holdLog (k : Core) (w : Bool) (x : Ctx) : (k.setCtx w x).holdLog = k.holdLog := by cases w <;> rfl
@[simp] theorem Core.setCtx_band (k : Core) (w : Bool) (x : Ctx) : (k.setCtx w x).band = k.band := by cases w <;> rfl
@[simp] theorem Core.setCtx_index (k : Core) (w : Bool) (x : Ctx) : (k.setCtx w x).index = k.index := by cases w <;> rfl
@[simp] theorem Core.setCtx_crewSize (k : Core) (w : Bool) (x : Ctx) : (k.setCtx w x).crewSize = k.crewSize := by cases w <;> rfl
@[simp] theorem Core.setCtx_leader (k : Core) (w : Bool) (x : Ctx) : (k.setCtx w x).leader = k.leader := by cases w <;> rfl
@[simp] theorem Core.setCtx_clockNo (k : Core) (w : Bool) (x : Ctx) : (k.setCtx w x).clockNo = k.clockNo := by cases w <;> rfl
@[simp] theorem Core.setCtx_cause (k : Core) (w : Bool) (x : Ctx) : (k.setCtx w x).cause = k.cause := by cases w <;> rfl
@[simp] theorem Core.setCtx_holdCycles (k : Core) (w : Bool) (x : Ctx) : (k.setCtx w x).holdCycles = k.holdCycles := by cases w <;> rfl
@[simp] theorem Core.setCtx_episodes (k : Core) (w : Bool) (x : Ctx) : (k.setCtx w x).episodes = k.episodes := by cases w <;> rfl
@[simp] theorem Core.setCtx_taskDone (k : Core) (w : Bool) (x : Ctx) : (k.setCtx w x).taskDone = k.taskDone := by cases w <;> rfl
@[simp] theorem Core.setCtx_fwq (k : Core) (w : Bool) (x : Ctx) : (k.setCtx w x).fwq = k.fwq := by cases w <;> rfl
@[simp] theorem Core.setCtx_svc (k : Core) (w : Bool) (x : Ctx) : (k.setCtx w x).svc = k.svc := by cases w <;> rfl
@[simp] theorem Core.setCtx_fwAct (k : Core) (w : Bool) (x : Ctx) : (k.setCtx w x).fwAct = k.fwAct := by cases w <;> rfl
@[simp] theorem Core.setCtx_fwSub (k : Core) (w : Bool) (x : Ctx) : (k.setCtx w x).fwSub = k.fwSub := by cases w <;> rfl
@[simp] theorem Core.setCtx_fwObj (k : Core) (w : Bool) (x : Ctx) : (k.setCtx w x).fwObj = k.fwObj := by cases w <;> rfl
@[simp] theorem Core.setCtx_fwLine (k : Core) (w : Bool) (x : Ctx) : (k.setCtx w x).fwLine = k.fwLine := by cases w <;> rfl
@[simp] theorem Core.setCtx_saveOp (k : Core) (w : Bool) (x : Ctx) : (k.setCtx w x).saveOp = k.saveOp := by cases w <;> rfl
@[simp] theorem Core.setCtx_saveDone (k : Core) (w : Bool) (x : Ctx) : (k.setCtx w x).saveDone = k.saveDone := by cases w <;> rfl
@[simp] theorem Core.setCtx_saveSlot (k : Core) (w : Bool) (x : Ctx) : (k.setCtx w x).saveSlot = k.saveSlot := by cases w <;> rfl
@[simp] theorem Core.setCtx_faulted (k : Core) (w : Bool) (x : Ctx) : (k.setCtx w x).faulted = k.faulted := by cases w <;> rfl
@[simp] theorem Core.setCtx_ask (k : Core) (w : Bool) (x : Ctx) : (k.setCtx w x).ask = k.ask := by cases w <;> rfl
@[simp] theorem Core.setCtx_lineMiss (k : Core) (w : Bool) (x : Ctx) : (k.setCtx w x).lineMiss = k.lineMiss := by cases w <;> rfl
@[simp] theorem Core.setCtx_hsemHit (k : Core) (w : Bool) (x : Ctx) : (k.setCtx w x).hsemHit = k.hsemHit := by cases w <;> rfl
@[simp] theorem Core.setCtx_fwMoved (k : Core) (w : Bool) (x : Ctx) : (k.setCtx w x).fwMoved = k.fwMoved := by cases w <;> rfl
@[simp] theorem Core.setCtx_xbWall (k : Core) (w : Bool) (x : Ctx) : (k.setCtx w x).xbWall = k.xbWall := by cases w <;> rfl
@[simp] theorem Core.setCtx_asleep (k : Core) (w : Bool) (x : Ctx) : (k.setCtx w x).asleep = k.asleep := by cases w <;> rfl
@[simp] theorem Core.setCtx_sweeping (k : Core) (w : Bool) (x : Ctx) : (k.setCtx w x).sweeping = k.sweeping := by cases w <;> rfl
@[simp] theorem Core.setCtx_ctx (k : Core) (w : Bool) (x : Ctx) : (k.setCtx w x).ctx w = x := by cases w <;> rfl
@[simp] theorem Core.setCtx_ctx_other (k : Core) (w : Bool) (x : Ctx) : (k.setCtx w x).ctx (!w) = k.ctx (!w) := by cases w <;> rfl
@[simp] theorem Core.setCtx_setCtx (k : Core) (w : Bool) (x y : Ctx) : (k.setCtx w x).setCtx w y = k.setCtx w y := by cases w <;> rfl

/-! ## A write to the shadow leaves the rest of its context -/

@[simp] theorem Ctx.write_g (x : Ctx) (l : Nat) (p : Bool) (i : Nat) (v : Word) : (x.write l p i v).g = x.g := rfl
@[simp] theorem Ctx.write_p (x : Ctx) (l : Nat) (p : Bool) (i : Nat) (v : Word) : (x.write l p i v).p = x.p := rfl
@[simp] theorem Ctx.write_cmd (x : Ctx) (l : Nat) (p : Bool) (i : Nat) (v : Word) : (x.write l p i v).cmd = x.cmd := rfl
@[simp] theorem Ctx.write_tickets (x : Ctx) (l : Nat) (p : Bool) (i : Nat) (v : Word) : (x.write l p i v).tickets = x.tickets := rfl
@[simp] theorem Ctx.write_obj (x : Ctx) (l : Nat) (p : Bool) (i : Nat) (v : Word) : (x.write l p i v).obj = x.obj := rfl
@[simp] theorem Ctx.write_line (x : Ctx) (l : Nat) (p : Bool) (i : Nat) (v : Word) : (x.write l p i v).line = x.line := rfl
@[simp] theorem Ctx.write_word (x : Ctx) (l : Nat) (p : Bool) (i : Nat) (v : Word) : (x.write l p i v).word = x.word := rfl
@[simp] theorem Ctx.write_bundles (x : Ctx) (l : Nat) (p : Bool) (i : Nat) (v : Word) : (x.write l p i v).bundles = x.bundles := rfl
@[simp] theorem Ctx.write_words (x : Ctx) (l : Nat) (p : Bool) (i : Nat) (v : Word) : (x.write l p i v).words = x.words := rfl
@[simp] theorem Ctx.write_stores (x : Ctx) (l : Nat) (p : Bool) (i : Nat) (v : Word) : (x.write l p i v).stores = x.stores := rfl
@[simp] theorem Ctx.write_xfer (x : Ctx) (l : Nat) (p : Bool) (i : Nat) (v : Word) : (x.write l p i v).xfer = x.xfer := rfl
@[simp] theorem Ctx.write_fault (x : Ctx) (l : Nat) (p : Bool) (i : Nat) (v : Word) : (x.write l p i v).fault = x.fault := rfl
@[simp] theorem Ctx.write_check (x : Ctx) (l : Nat) (p : Bool) (i : Nat) (v : Word) : (x.write l p i v).check = x.check := rfl
@[simp] theorem Ctx.write_last (x : Ctx) (l : Nat) (p : Bool) (i : Nat) (v : Word) : (x.write l p i v).last = x.last := rfl
@[simp] theorem Ctx.write_unseen (x : Ctx) (l : Nat) (p : Bool) (i : Nat) (v : Word) : (x.write l p i v).unseen = x.unseen := rfl
@[simp] theorem Ctx.write_wait (x : Ctx) (l : Nat) (p : Bool) (i : Nat) (v : Word) : (x.write l p i v).wait = x.wait := rfl
@[simp] theorem Ctx.write_stall (x : Ctx) (l : Nat) (p : Bool) (i : Nat) (v : Word) : (x.write l p i v).stall = x.stall := rfl
@[simp] theorem Ctx.write_ctl (x : Ctx) (l : Nat) (p : Bool) (i : Nat) (v : Word) : (x.write l p i v).ctl = x.ctl := rfl
@[simp] theorem Ctx.write_buf (x : Ctx) (l : Nat) (p : Bool) (i : Nat) (v : Word) : (x.write l p i v).buf = x.buf := rfl
@[simp] theorem Ctx.write_pend (x : Ctx) (l : Nat) (p : Bool) (i : Nat) (v : Word) : (x.write l p i v).pend = x.pend ++ [⟨x.bundles + l, p, i, v⟩] := rfl

/-! ## Reads after writes -/

theorem State.core_setCore (s : State) (c : Nat) (k : Core) (j : Nat) : (s.setCore c k).core j = if c = j then k else s.core j :=
  SMap.get_put ({} : Core) s.cores c j k
@[simp] theorem State.core_setCore_self (s : State) (c : Nat) (k : Core) : (s.setCore c k).core c = k := by rw [State.core_setCore, if_pos rfl]
theorem State.core_updCore (s : State) (c : Nat) (f : Core → Core) (j : Nat) :
    (s.updCore c f).core j = if c = j then f (s.core c) else s.core j := State.core_setCore s c (f (s.core c)) j
@[simp] theorem State.core_updCore_self (s : State) (c : Nat) (f : Core → Core) : (s.updCore c f).core c = f (s.core c) :=
  State.core_setCore_self s c (f (s.core c))
@[simp] theorem State.fcore_updF (s : State) (f : Core → Core) : (s.updF f).fcore = f s.fcore := State.core_updCore_self s s.focus.core f
@[simp] theorem State.ctx_updCtx (s : State) (f : Ctx → Ctx) : (s.updCtx f).ctx = f s.ctx := by
  unfold State.ctx
  rw [State.updCtx_focus]
  unfold State.updCtx
  rw [State.fcore_updF, Core.setCtx_ctx]
theorem State.fcore_updCtx (s : State) (f : Ctx → Ctx) : (s.updCtx f).fcore = s.fcore.setCtx s.focus.fw (f s.ctx) := by
  unfold State.updCtx
  rw [State.fcore_updF]
  rfl
@[simp] theorem State.fcore_updCtx_seqMem (s : State) (f : Ctx → Ctx) : (s.updCtx f).fcore.seqMem = s.fcore.seqMem := by rw [State.fcore_updCtx, Core.setCtx_seqMem]
@[simp] theorem State.fcore_updCtx_fwMem (s : State) (f : Ctx → Ctx) : (s.updCtx f).fcore.fwMem = s.fcore.fwMem := by rw [State.fcore_updCtx, Core.setCtx_fwMem]
theorem State.core_updF_ne (s : State) (f : Core → Core) (j : Nat) (h : j ≠ s.focus.core) : (s.updF f).core j = s.core j := by
  unfold State.updF
  rw [State.core_updCore, if_neg (fun e => h e.symm)]
theorem State.core_updCtx_ne (s : State) (f : Ctx → Ctx) (j : Nat) (h : j ≠ s.focus.core) : (s.updCtx f).core j = s.core j :=
  State.core_updF_ne s _ j h
theorem State.setCore_setCore (s : State) (c : Nat) (k l : Core) : (s.setCore c k).setCore c l = s.setCore c l := by
  unfold State.setCore
  simp only [SMap.put_put]
theorem State.updF_updF (s : State) (f g : Core → Core) : (s.updF f).updF g = s.updF (fun k => g (f k)) := by
  have h := State.fcore_updF s f
  unfold State.updF State.updCore at *
  simp only [State.setCore_focus]
  rw [State.setCore_setCore, State.core_setCore_self]
theorem State.updCtx_updCtx (s : State) (f g : Ctx → Ctx) : (s.updCtx f).updCtx g = s.updCtx (fun x => g (f x)) := by
  unfold State.updCtx
  rw [State.updF_updF]
  simp only [State.updF_focus, Core.setCtx_setCtx, Core.setCtx_ctx]
/-- The scheduled write of a word that is not its bundle's last. -/
theorem State.setG_pend (s : State) (l : Nat) (d : Reg) (v : Word) : (s.setG l d v).ctx.pend = s.ctx.pend ++ [⟨s.ctx.bundles + l, false, d.toNat, v⟩] := by
  unfold State.setG
  rw [State.ctx_updCtx]
  rfl
theorem State.g_of_ctx {s t : State} (h : t.ctx.g = s.ctx.g) (r : Reg) : t.g r = s.g r := by
  unfold State.g Ctx.reg
  rw [h]
theorem State.reg_setReg (s : State) (i j : Nat) (v : Word) : (s.setReg i v).reg j = if i = j then v else s.reg j :=
  SMap.get_put (regReset j) s.regs i j v
end Sys2Proof.Machine
end

