-- ==== Sys2Proof/Laws/Code.lean ====
section
/-!
SUPPORT. Fetching code: what a fetch reads does not depend on the cores' own state, and a bundle's end in closed form.
-/
namespace Sys2Proof.Machine

/-- Reading a tier without a cache part gives the same bytes whatever the cores hold. -/
theorem tierRead_cores (s : State) (cs : SMap Core) (o : Obj) (t : Tier) (a n : Nat) :
    (tierRead { s with cores := cs } o t a n none).map (fun r => (r.1, r.2.1)) = (tierRead s o t a n none).map (fun r => (r.1, r.2.1)) := by
  cases t <;> simp only [tierRead]
  · show (match lpCheck s a n o.colour with
      | .error f => .error f
      | .ok bad => .ok (s.lpddr.bytes a n, bad, { s with cores := cs }) : Except HwFault _).map _ = _
    cases lpCheck s a n o.colour <;> rfl
  · show (match flashRead s o.id o.colour a n with
      | .error f => if f = accessFault 7 then .ok (flashBytes s o.id a n, true, { s with cores := cs }) else .error f
      | .ok b => .ok (b, false, { s with cores := cs }) : Except HwFault _).map _ = _
    cases flashRead s o.id o.colour a n
    · simp only
      split <;> rfl
    · rfl
  · rfl
  · show (match landRead s (a / 2 ^ 22) (a % 2 ^ 22) n with
      | .error f => .error f
      | .ok (b, bad) => .ok (b, bad, { s with cores := cs }) : Except HwFault _).map _ = _
    cases landRead s (a / 2 ^ 22) (a % 2 ^ 22) n <;> rfl
  · rfl

/-- A code line reads the same whatever the cores hold. -/
theorem codeLine_cores (s : State) (cs : SMap Core) (p : Port) (r : Req) (k : AccKind) (obj line : Nat) :
    codeLine { s with cores := cs } p r k obj line = codeLine s p r k obj line := by
  unfold codeLine
  have h1 : objFor { s with cores := cs } p r k obj = objFor s p r k obj := rfl
  rw [h1]
  cases objFor s p r k obj with
  | error f => rfl
  | ok o =>
    simp only
    split
    · rfl
    · split
      · rfl
      · have h2 : tileFor { s with cores := cs } p k o o.ttPtr (line / 64) = tileFor s p k o o.ttPtr (line / 64) := rfl
        rw [h2]
        cases tileFor s p k o o.ttPtr (line / 64) with
        | error f => rfl
        | ok t =>
          simp only
          have h3 := tierRead_cores s cs o t.tier (t.addr + 64 * (line % 64)) 64
          revert h3
          generalize tierRead { s with cores := cs } o t.tier (t.addr + 64 * (line % 64)) 64 none = x
          generalize tierRead s o t.tier (t.addr + 64 * (line % 64)) 64 none = y
          intro h3
          cases x with
          | error f =>
            cases y with
            | error g => simp only [Except.map, Except.error.injEq] at h3; rw [h3]
            | ok v => simp [Except.map] at h3
          | ok u =>
            cases y with
            | error g => simp [Except.map] at h3
            | ok v =>
              obtain ⟨u1, u2, u3⟩ := u
              obtain ⟨v1, v2, v3⟩ := v
              simp only [Except.map, Except.ok.injEq, Prod.mk.injEq] at h3
              obtain ⟨h4, h5⟩ := h3
              subst h4 h5
              cases u2 <;> rfl

/-- The crew of a core depends on its clock number alone. -/
theorem crewOf_setCore (s : State) (c : Nat) (k : Core) (j : Nat) (h : k.crew = (s.core c).crew) :
    (s.setCore c k).crewOf j = s.crewOf j := by
  unfold State.crewOf
  rw [State.core_setCore]
  split
  · rename_i e
    subst e
    rw [h]
    rfl
  · rfl

/-- What a core fetches does not change with its own state while it stays in its crew. -/
theorem fetchLine_setCore (s : State) (c : Nat) (k : Core) (h : k.crew = (s.core c).crew) (j obj line : Nat) :
    fetchLine (s.setCore c k) j obj line = fetchLine s j obj line := by
  unfold fetchLine
  have hw : workPart (s.setCore c k) j = workPart s j := by
    unfold workPart
    rw [crewOf_setCore s c k j h]
    rfl
  rw [hw]
  exact codeLine_cores s _ _ _ _ _ _

end Sys2Proof.Machine
end

