-- ==== Sys2Proof/Tests/Slice0.lean ====
section
/-!
SUPPORT. Tests: the well-formedness checks refuse, words written out from the spec decode, each statement's hypotheses are met somewhere.
Expected values come from the rules named in each comment.
-/
set_option Elab.async false
set_option exponentiation.threshold 2000
open Sys2Proof Sys2Proof.Machine

/-! ## Words written out from the spec -/

/-- Sequencer words written out from R91 to R93 and R106 decode to what they stand for. -/
theorem test_words_sequencer_1 :
    decodeSeq (0#2 ++ 1#1 ++ 1#8 ++ 1#5 ++ 0x1E#5 ++ 0#5 ++ 0#6) none = .ok (.add true 1 30 0)
    ∧ decodeSeq (0#2 ++ 1#1 ++ 2#8 ++ 2#5 ++ 0x1D#5 ++ 1#5 ++ 0#6) none = .ok (.sub true 2 29 1)
    ∧ decodeSeq (0#2 ++ 1#1 ++ 3#8 ++ 3#5 ++ 0x1C#5 ++ 2#5 ++ 0#6) none = .ok (.mul true 3 28 2)
    ∧ decodeSeq (0#2 ++ 1#1 ++ 4#8 ++ 4#5 ++ 0x1B#5 ++ 3#5 ++ 0#6) none = .ok (.mulh true 4 27 3)
    ∧ decodeSeq (0#2 ++ 1#1 ++ 5#8 ++ 5#5 ++ 0x1A#5 ++ 4#5 ++ 0#6) none = .ok (.mulhu true 5 26 4)
    ∧ decodeSeq (0#2 ++ 1#1 ++ 6#8 ++ 6#5 ++ 0x19#5 ++ 5#5 ++ 0#6) none = .ok (.div true 6 25 5)
    ∧ decodeSeq (0#2 ++ 1#1 ++ 7#8 ++ 7#5 ++ 0x18#5 ++ 6#5 ++ 0#6) none = .ok (.divu true 7 24 6)
    ∧ decodeSeq (0#2 ++ 1#1 ++ 8#8 ++ 8#5 ++ 0x17#5 ++ 7#5 ++ 0#6) none = .ok (.rem true 8 23 7)
    ∧ decodeSeq (0#2 ++ 1#1 ++ 9#8 ++ 9#5 ++ 0x16#5 ++ 8#5 ++ 0#6) none = .ok (.remu true 9 22 8)
    ∧ decodeSeq (0#2 ++ 1#1 ++ 0xA#8 ++ 0xA#5 ++ 0x15#5 ++ 9#5 ++ 0#6) none = .ok (.and true 10 21 9)
    ∧ decodeSeq (0#2 ++ 1#1 ++ 0xB#8 ++ 0xB#5 ++ 0x14#5 ++ 0xA#5 ++ 0#6) none = .ok (.or true 11 20 10)
    ∧ decodeSeq (0#2 ++ 1#1 ++ 0xC#8 ++ 0xC#5 ++ 0x13#5 ++ 0xB#5 ++ 0#6) none = .ok (.xor true 12 19 11) := by
  refine ⟨?_, ?_, ?_, ?_, ?_, ?_, ?_, ?_, ?_, ?_, ?_, ?_⟩ <;> rfl

/-- Sequencer words written out from R91 to R93 and R106 decode to what they stand for. -/
theorem test_words_sequencer_2 :
    decodeSeq (0#2 ++ 1#1 ++ 0xD#8 ++ 0xD#5 ++ 0x12#5 ++ 0xC#5 ++ 0#6) none = .ok (.andn true 13 18 12)
    ∧ decodeSeq (0#2 ++ 1#1 ++ 0xE#8 ++ 0xE#5 ++ 0x11#5 ++ 0xD#5 ++ 0#6) none = .ok (.shl true 14 17 13)
    ∧ decodeSeq (0#2 ++ 1#1 ++ 0xF#8 ++ 0xF#5 ++ 0x10#5 ++ 0xE#5 ++ 0#6) none = .ok (.shr true 15 16 14)
    ∧ decodeSeq (0#2 ++ 1#1 ++ 0x10#8 ++ 0x10#5 ++ 0xF#5 ++ 0xF#5 ++ 0#6) none = .ok (.sar true 16 15 15)
    ∧ decodeSeq (0#2 ++ 1#1 ++ 0x11#8 ++ 0x11#5 ++ 0xE#5 ++ 0x10#5 ++ 0#6) none = .ok (.rol true 17 14 16)
    ∧ decodeSeq (0#2 ++ 1#1 ++ 0x12#8 ++ 0x12#5 ++ 0xD#5 ++ 0x11#5 ++ 0#6) none = .ok (.min true 18 13 17)
    ∧ decodeSeq (0#2 ++ 1#1 ++ 0x13#8 ++ 0x13#5 ++ 0xC#5 ++ 0x12#5 ++ 0#6) none = .ok (.max true 19 12 18)
    ∧ decodeSeq (0#2 ++ 1#1 ++ 0x14#8 ++ 0x14#5 ++ 0xB#5 ++ 0x13#5 ++ 0#6) none = .ok (.minu true 20 11 19)
    ∧ decodeSeq (0#2 ++ 1#1 ++ 0x15#8 ++ 0x15#5 ++ 0xA#5 ++ 0x14#5 ++ 0#6) none = .ok (.maxu true 21 10 20)
    ∧ decodeSeq (0#2 ++ 1#1 ++ 0x16#8 ++ 0x16#5 ++ 9#5 ++ 0x15#5 ++ 0#6) none = .ok (.slt true 22 9 21)
    ∧ decodeSeq (0#2 ++ 1#1 ++ 0x17#8 ++ 0x17#5 ++ 8#5 ++ 0x16#5 ++ 0#6) none = .ok (.sltu true 23 8 22)
    ∧ decodeSeq (0#2 ++ 1#1 ++ 0x18#8 ++ 9#5 ++ 4#5 ++ 0x7F0#11) none = .ok (.addi true 9 4 0x7F0 none) := by
  refine ⟨?_, ?_, ?_, ?_, ?_, ?_, ?_, ?_, ?_, ?_, ?_, ?_⟩ <;> rfl

/-- Sequencer words written out from R91 to R93 and R106 decode to what they stand for. -/
theorem test_words_sequencer_3 :
    decodeSeq (0#2 ++ 1#1 ++ 0x19#8 ++ 9#5 ++ 5#5 ++ 0x7F1#11) none = .ok (.andi true 9 5 0x7F1 none)
    ∧ decodeSeq (0#2 ++ 1#1 ++ 0x1A#8 ++ 9#5 ++ 6#5 ++ 0x7F2#11) none = .ok (.ori true 9 6 0x7F2 none)
    ∧ decodeSeq (0#2 ++ 1#1 ++ 0x1B#8 ++ 9#5 ++ 7#5 ++ 0x7F3#11) none = .ok (.xori true 9 7 0x7F3 none)
    ∧ decodeSeq (0#2 ++ 0#1 ++ 0x18#8 ++ 9#5 ++ 4#5 ++ 5#11) (some (3#2 ++ 1#1 ++ 0x10000003#29)) = .ok (.addi true 9 4 5 (some 0x10000003))
    ∧ decodeSeq (0#2 ++ 1#1 ++ 0x1C#8 ++ 9#5 ++ 4#5 ++ 0#5 ++ 0x3D#6) none = .ok (.shli true 9 4 61)
    ∧ decodeSeq (0#2 ++ 1#1 ++ 0x1D#8 ++ 9#5 ++ 5#5 ++ 0#5 ++ 0x3E#6) none = .ok (.shri true 9 5 62)
    ∧ decodeSeq (0#2 ++ 1#1 ++ 0x1E#8 ++ 9#5 ++ 6#5 ++ 0#5 ++ 0x3F#6) none = .ok (.sari true 9 6 63)
    ∧ decodeSeq (0#2 ++ 1#1 ++ 0x1F#8 ++ 0x11#5 ++ 0xABCD#16) none = .ok (.lui true 17 0xABCD none)
    ∧ decodeSeq (0#2 ++ 0#1 ++ 0x1F#8 ++ 0x11#5 ++ 0xABCD#16) (some (3#2 ++ 1#1 ++ 7#29)) = .ok (.lui true 17 0xABCD (some 7))
    ∧ decodeSeq (0#2 ++ 1#1 ++ 0x20#8 ++ 0xB#5 ++ 0x14#5 ++ 0#5 ++ 0#6) none = .ok (.clz true 11 20)
    ∧ decodeSeq (0#2 ++ 1#1 ++ 0x21#8 ++ 0xB#5 ++ 0x15#5 ++ 0#5 ++ 0#6) none = .ok (.ctz true 11 21)
    ∧ decodeSeq (0#2 ++ 1#1 ++ 0x22#8 ++ 0xB#5 ++ 0x16#5 ++ 0#5 ++ 0#6) none = .ok (.popc true 11 22) := by
  refine ⟨?_, ?_, ?_, ?_, ?_, ?_, ?_, ?_, ?_, ?_, ?_, ?_⟩ <;> rfl

/-- Sequencer words written out from R91 to R93 and R106 decode to what they stand for. -/
theorem test_words_sequencer_4 :
    decodeSeq (0#2 ++ 1#1 ++ 0x23#8 ++ 0xB#5 ++ 0x17#5 ++ 0#5 ++ 0#6) none = .ok (.sext_b true 11 23)
    ∧ decodeSeq (0#2 ++ 1#1 ++ 0x24#8 ++ 0xB#5 ++ 0x18#5 ++ 0#5 ++ 0#6) none = .ok (.sext_h true 11 24)
    ∧ decodeSeq (0#2 ++ 1#1 ++ 0x25#8 ++ 0xB#5 ++ 0x19#5 ++ 0#5 ++ 0#6) none = .ok (.sext_w true 11 25)
    ∧ decodeSeq (0#2 ++ 1#1 ++ 0x26#8 ++ 0xB#5 ++ 0x1A#5 ++ 0#5 ++ 0#6) none = .ok (.zext_b true 11 26)
    ∧ decodeSeq (0#2 ++ 1#1 ++ 0x27#8 ++ 0xB#5 ++ 0x1B#5 ++ 0#5 ++ 0#6) none = .ok (.zext_h true 11 27)
    ∧ decodeSeq (0#2 ++ 1#1 ++ 0x28#8 ++ 0xB#5 ++ 0x1C#5 ++ 0#5 ++ 0#6) none = .ok (.zext_w true 11 28)
    ∧ decodeSeq (0#2 ++ 1#1 ++ 0x29#8 ++ 5#3 ++ 3#4 ++ 0x11#5 ++ 9#5 ++ 0#4) none = .ok (.cmp true 5 3 17 9)
    ∧ decodeSeq (0#2 ++ 1#1 ++ 0x2A#8 ++ 5#3 ++ 4#4 ++ 0x11#5 ++ 0x1FE#9) none = .ok (.cmpi true 5 4 17 0x1FE none)
    ∧ decodeSeq (0#2 ++ 0#1 ++ 0x2A#8 ++ 5#3 ++ 4#4 ++ 0x11#5 ++ 0x1FE#9) (some (3#2 ++ 1#1 ++ 2#29)) = .ok (.cmpi true 5 4 17 0x1FE (some 2))
    ∧ decodeSeq (0#2 ++ 1#1 ++ 0x2B#8 ++ 6#3 ++ 3#3 ++ 1#3 ++ 0#12) none = .ok (.pand true 6 3 1)
    ∧ decodeSeq (0#2 ++ 1#1 ++ 0x2C#8 ++ 6#3 ++ 3#3 ++ 2#3 ++ 0#12) none = .ok (.por true 6 3 2)
    ∧ decodeSeq (0#2 ++ 1#1 ++ 0x2D#8 ++ 6#3 ++ 3#3 ++ 3#3 ++ 0#12) none = .ok (.pxor true 6 3 3) := by
  refine ⟨?_, ?_, ?_, ?_, ?_, ?_, ?_, ?_, ?_, ?_, ?_, ?_⟩ <;> rfl

/-- Sequencer words written out from R91 to R93 and R106 decode to what they stand for. -/
theorem test_words_sequencer_5 :
    decodeSeq (0#2 ++ 1#1 ++ 0x2E#8 ++ 6#3 ++ 3#3 ++ 0#15) none = .ok (.pnot true 6 3)
    ∧ decodeSeq (0#2 ++ 1#1 ++ 0x2F#8 ++ 3#5 ++ 0x15#5 ++ 0xA#5 ++ 0xD#6) none = .ok (.sel true 3 21 10 1 5)
    ∧ decodeSeq (1#2 ++ 1#1 ++ 0x30#8 ++ 3#5 ++ 0x1D#5 ++ 0x400#11) none = .ok (.ld_b true 3 29 0x400 none)
    ∧ decodeSeq (1#2 ++ 1#1 ++ 0x31#8 ++ 4#5 ++ 0x1D#5 ++ 0x401#11) none = .ok (.ld_h true 4 29 0x401 none)
    ∧ decodeSeq (1#2 ++ 1#1 ++ 0x32#8 ++ 5#5 ++ 0x1D#5 ++ 0x402#11) none = .ok (.ld_w true 5 29 0x402 none)
    ∧ decodeSeq (1#2 ++ 1#1 ++ 0x33#8 ++ 6#5 ++ 0x1D#5 ++ 0x403#11) none = .ok (.ld_d true 6 29 0x403 none)
    ∧ decodeSeq (1#2 ++ 1#1 ++ 0x34#8 ++ 7#5 ++ 0x1D#5 ++ 0x404#11) none = .ok (.ldu_b true 7 29 0x404 none)
    ∧ decodeSeq (1#2 ++ 1#1 ++ 0x35#8 ++ 8#5 ++ 0x1D#5 ++ 0x405#11) none = .ok (.ldu_h true 8 29 0x405 none)
    ∧ decodeSeq (1#2 ++ 1#1 ++ 0x36#8 ++ 9#5 ++ 0x1D#5 ++ 0x406#11) none = .ok (.ldu_w true 9 29 0x406 none)
    ∧ decodeSeq (1#2 ++ 0#1 ++ 0x33#8 ++ 3#5 ++ 0x1D#5 ++ 8#11) (some (3#2 ++ 1#1 ++ 0x2000000#29)) = .ok (.ld_d true 3 29 8 (some 0x2000000))
    ∧ decodeSeq (2#2 ++ 1#1 ++ 0x37#8 ++ 3#5 ++ 0x1D#5 ++ 0x3FF#11) none = .ok (.st_b true 3 29 0x3FF none)
    ∧ decodeSeq (2#2 ++ 1#1 ++ 0x38#8 ++ 4#5 ++ 0x1D#5 ++ 0x3FE#11) none = .ok (.st_h true 4 29 0x3FE none) := by
  refine ⟨?_, ?_, ?_, ?_, ?_, ?_, ?_, ?_, ?_, ?_, ?_, ?_⟩ <;> rfl

/-- Sequencer words written out from R91 to R93 and R106 decode to what they stand for. -/
theorem test_words_sequencer_6 :
    decodeSeq (2#2 ++ 1#1 ++ 0x39#8 ++ 5#5 ++ 0x1D#5 ++ 0x3FD#11) none = .ok (.st_w true 5 29 0x3FD none)
    ∧ decodeSeq (2#2 ++ 1#1 ++ 0x3A#8 ++ 6#5 ++ 0x1D#5 ++ 0x3FC#11) none = .ok (.st_d true 6 29 0x3FC none)
    ∧ decodeSeq (0#2 ++ 1#1 ++ 0x3B#8 ++ 1#1 ++ 0#2 ++ 6#3 ++ 0x7FE#11 ++ 9#4) none = .ok (.br true 1 6 0x7FE 9 none)
    ∧ decodeSeq (0#2 ++ 0#1 ++ 0x3B#8 ++ 0#1 ++ 0#2 ++ 6#3 ++ 0x7FE#11 ++ 9#4) (some (3#2 ++ 1#1 ++ 0x1FFFFFFF#29)) = .ok (.br true 0 6 0x7FE 9 (some 0x1FFFFFFF))
    ∧ decodeSeq (0#2 ++ 1#1 ++ 0x3C#8 ++ 2#2 ++ 0xD#4 ++ 5#11 ++ 1#4) none = .ok (.bf true 2 13 5 1 none)
    ∧ decodeSeq (0#2 ++ 1#1 ++ 0x3D#8 ++ 0#6 ++ 5#11 ++ 0xF#4) none = .ok (.jmp true 5 15 none)
    ∧ decodeSeq (0#2 ++ 1#1 ++ 0x3E#8 ++ 0#5 ++ 0x13#5 ++ 0#5 ++ 0#6) none = .ok (.jr true 19)
    ∧ decodeSeq (0#2 ++ 1#1 ++ 0x3F#8 ++ 0#6 ++ 0x7FF#11 ++ 1#4) none = .ok (.call true 0x7FF 1 none)
    ∧ decodeSeq (0#2 ++ 1#1 ++ 0x40#8 ++ 0#21) none = .ok (.ret true)
    ∧ decodeSeq (0#2 ++ 1#1 ++ 0x41#8 ++ 0xC#5 ++ 0xFFF#12 ++ 3#4) none = .ok (.loop true 12 0xFFF 3 none)
    ∧ decodeSeq (0#2 ++ 1#1 ++ 0x42#8 ++ 0#21) none = .ok (.exit true)
    ∧ decodeSeq (0#2 ++ 1#1 ++ 0x43#8 ++ 0#5 ++ 0#5 ++ 0xFF#11) none = .ok (.trap true 255 none) := by
  refine ⟨?_, ?_, ?_, ?_, ?_, ?_, ?_, ?_, ?_, ?_, ?_, ?_⟩ <;> rfl

/-- Sequencer words written out from R91 to R93 and R106 decode to what they stand for. -/
theorem test_words_sequencer_7 :
    decodeSeq (0#2 ++ 1#1 ++ 0x44#8 ++ 0#21) none = .ok (.rfe true)
    ∧ decodeSeq (0#2 ++ 1#1 ++ 0x45#8 ++ 0#21) none = .ok (.nop true)
    ∧ decodeSeq (0#2 ++ 1#1 ++ 0x46#8 ++ 0xE#4 ++ 8#5 ++ 0x801#12) none = .ok (.arm true 14 8 0x801 none)
    ∧ decodeSeq (0#2 ++ 0#1 ++ 0x46#8 ++ 0xE#4 ++ 8#5 ++ 0x801#12) (some (3#2 ++ 1#1 ++ 9#29)) = .ok (.arm true 14 8 0x801 (some 9))
    ∧ decodeSeq (0#2 ++ 1#1 ++ 0x47#8 ++ 0xE#4 ++ 0#17) none = .ok (.disarm true 14 none)
    ∧ decodeSeq (0#2 ++ 1#1 ++ 0x48#8 ++ 6#5 ++ 0x19#5 ++ 0#5 ++ 0#6) none = .ok (.sync true 6 25)
    ∧ decodeSeq (0#2 ++ 1#1 ++ 0x49#8 ++ 6#5 ++ 0#5 ++ 0#5 ++ 0#6) none = .ok (.cyc true 6)
    ∧ decodeSeq (0#2 ++ 1#1 ++ 0x4A#8 ++ 5#3 ++ 0xC#4 ++ 7#5 ++ 8#4 ++ 0#5) none = .ok (.setof true 5 12 7 8)
    ∧ decodeSeq (0#2 ++ 1#1 ++ 0x4B#8 ++ 6#5 ++ 0xF#5 ++ 0#5 ++ 0#6) none = .ok (.fget true 6 15)
    ∧ decodeSeq (2#2 ++ 1#1 ++ 0x4C#8 ++ 0x16#5 ++ 2#4 ++ 3#2 ++ 0#10) none = .ok (.cport true 22 2 3)
    ∧ decodeSeq (2#2 ++ 1#1 ++ 0x4D#8 ++ 0x16#5 ++ 1#4 ++ 0#2 ++ 0#10) none = .ok (.go true 22 1)
    ∧ decodeSeq (2#2 ++ 1#1 ++ 0x4E#8 ++ 0#5 ++ 0xD#5 ++ 0xE#5 ++ 0#6) none = .ok (.mxq true 13 14) := by
  refine ⟨?_, ?_, ?_, ?_, ?_, ?_, ?_, ?_, ?_, ?_, ?_, ?_⟩ <;> rfl

/-- Sequencer words written out from R91 to R93 and R106 decode to what they stand for. -/
theorem test_words_sequencer_8 :
    decodeSeq (0#2 ++ 1#1 ++ 0x4F#8 ++ 0x1F#5 ++ 0#2 ++ 2#5 ++ 0x1FF#9) none = .ok (.hsig true 31 2 0x1FF)
    ∧ decodeSeq (0#2 ++ 1#1 ++ 0x50#8 ++ 0x1F#5 ++ 3#2 ++ 2#5 ++ 7#9) none = .ok (.hwait true 31 3 2 7)
    ∧ decodeSeq (0#2 ++ 1#1 ++ 0x51#8 ++ 4#5 ++ 0x1B#5 ++ 0#5 ++ 0#6) none = .ok (.hrd true 4 27)
    ∧ decodeSeq (0#2 ++ 1#1 ++ 0x52#8 ++ 4#5 ++ 0xE31#12 ++ 0#4) none = .ok (.getc true 4 0xE31)
    ∧ decodeSeq (0#2 ++ 1#1 ++ 0x53#8 ++ 4#5 ++ 0x10#12 ++ 0#4) none = .ok (.setc true 4 0x010)
    ∧ decodeSeq (0#2 ++ 1#1 ++ 0x54#8 ++ 4#3 ++ 0#18) none = .ok (.fence true 4)
    ∧ decodeSeq (0#2 ++ 1#1 ++ 0x55#8 ++ 0x12#5 ++ 0#5 ++ 0#5 ++ 0#6) none = .ok (.tstamp true 18)
    ∧ decodeSeq (0#2 ++ 1#1 ++ 0x56#8 ++ 0#5 ++ 0#5 ++ 0x3F#11) none = .ok (.fwshare true 63 none)
    ∧ decodeSeq (0#2 ++ 1#1 ++ 0x57#8 ++ 1#5 ++ 2#5 ++ 0x64#11) none = .ok (.idle true 1 2 100 none) := by
  refine ⟨?_, ?_, ?_, ?_, ?_, ?_, ?_, ?_, ?_⟩ <;> rfl

/-- Entries written out from R96, R97, R107, R108 and the MOD columns of R168 to R198 and R229. -/
theorem test_words_entries_1 :
    decodeEntry (0x58#8 ++ 3#6 ++ 2#2 ++ 1#4 ++ 3#2 ++ 0#4 ++ 3#2 ++ 0#4 ++ 0#4 ++ 0#17 ++ 0x7FF#11) = .ok (.rd ⟨3, .lane 1, .none, .none, .f32, 0⟩ 0x7FF)
    ∧ decodeEntry (0x59#8 ++ 0#6 ++ 2#2 ++ 9#4 ++ 3#2 ++ 0#4 ++ 3#2 ++ 0#4 ++ 0#4 ++ 1#1 ++ 0x11#5 ++ 0x3E8#11 ++ 5#11) = .ok (.rdx ⟨0, .lane 9, .none, .none, .f32, 0⟩ 5 0x3E8 0x11 1)
    ∧ decodeEntry (0x5A#8 ++ 0#6 ++ 2#2 ++ 2#4 ++ 2#2 ++ 0xB#4 ++ 3#2 ++ 0#4 ++ 0#4 ++ 0#6 ++ 9#11 ++ 8#11) = .ok (.rdb ⟨0, .lane 2, .lane 11, .none, .f32, 0⟩ 8 9)
    ∧ decodeEntry (0x5B#8 ++ 0x3F#6 ++ 3#2 ++ 0#4 ++ 2#2 ++ 0xF#4 ++ 3#2 ++ 0#4 ++ 0#4 ++ 0#14 ++ 5#3 ++ 0x400#11) = .ok (.wr ⟨63, .none, .lane 15, .none, .f32, 0⟩ 0x400 5)
    ∧ decodeEntry (0x5C#8 ++ 0#6 ++ 3#2 ++ 0#4 ++ 2#2 ++ 7#4 ++ 3#2 ++ 0#4 ++ 0#4 ++ 0#1 ++ 1#5 ++ 0x40#11 ++ 0x20#11) = .ok (.wrx ⟨0, .none, .lane 7, .none, .f32, 0⟩ 0x20 0x40 1 0)
    ∧ decodeEntry (0x5D#8 ++ 0#6 ++ 3#2 ++ 0#4 ++ 2#2 ++ 7#4 ++ 3#2 ++ 0#4 ++ 0#4 ++ 0#1 ++ 0x8001#16 ++ 3#11) = .ok (.wrb ⟨0, .none, .lane 7, .none, .f32, 0⟩ 3 0x8001)
    ∧ decodeEntry (0x5E#8 ++ 0#6 ++ 3#2 ++ 0#4 ++ 3#2 ++ 0#4 ++ 3#2 ++ 0#4 ++ 0#4 ++ 0#6 ++ 0x10#11 ++ 3#11) = .ok (.bank_fill ⟨0, .none, .none, .none, .f32, 0⟩ 3 0x10)
    ∧ decodeEntry (0x5F#8 ++ 0#6 ++ 3#2 ++ 0#4 ++ 2#2 ++ 3#4 ++ 3#2 ++ 0#4 ++ 0#4 ++ 0#6 ++ 2#2 ++ 1#1 ++ 4#3 ++ 0#16) = .ok (.bank_mode ⟨0, .none, .lane 3, .none, .f32, 0⟩ 0 4 1 2)
    ∧ decodeEntry (0x60#8 ++ 0#6 ++ 3#2 ++ 0#4 ++ 2#2 ++ 3#4 ++ 3#2 ++ 0#4 ++ 0#4 ++ 0#5 ++ 1#1 ++ 2#2 ++ 0xD#4 ++ 0#16) = .ok (.fmt ⟨0, .none, .lane 3, .none, .f32, 0⟩ 0xD 2 1)
    ∧ decodeEntry (0x61#8 ++ 0#6 ++ 3#2 ++ 0#4 ++ 3#2 ++ 0#4 ++ 3#2 ++ 0#4 ++ 0#4 ++ 0#4 ++ 0x123456#24) = .ok (.bank_wait ⟨0, .none, .none, .none, .f32, 0⟩ 0x123456)
    ∧ decodeEntry (0x68#8 ++ 1#6 ++ 3#2 ++ 0#4 ++ 3#2 ++ 0#4 ++ 3#2 ++ 0#4 ++ 0#4 ++ 0#28) = .ok (.stn_nop ⟨1, .none, .none, .none, .f32, 0⟩)
    ∧ decodeEntry (0x69#8 ++ 0#6 ++ 3#2 ++ 0#4 ++ 3#2 ++ 0#4 ++ 3#2 ++ 0#4 ++ 0#4 ++ 0#4 ++ 1#24) = .ok (.stn_wait ⟨0, .none, .none, .none, .f32, 0⟩ 1) := by
  refine ⟨?_, ?_, ?_, ?_, ?_, ?_, ?_, ?_, ?_, ?_, ?_, ?_⟩ <;> rfl

/-- Entries written out from R96, R97, R107, R108 and the MOD columns of R168 to R198 and R229. -/
theorem test_words_entries_2 :
    decodeEntry (0x6A#8 ++ 0#6 ++ 3#2 ++ 0#4 ++ 3#2 ++ 0#4 ++ 3#2 ++ 0#4 ++ 0#4 ++ 0#6 ++ 1#2 ++ 0#1 ++ 3#3 ++ 0xBEEF#16) = .ok (.stn_mode ⟨0, .none, .none, .none, .f32, 0⟩ 0xBEEF 3 0 1)
    ∧ decodeEntry (0x6B#8 ++ 0#6 ++ 3#2 ++ 0#4 ++ 1#2 ++ 4#4 ++ 0#2 ++ 0#4 ++ 0#4 ++ 0#28) = .ok (.chk ⟨0, .none, .ofr 4, .ll, .f32, 0⟩)
    ∧ decodeEntry (0x6C#8 ++ 0#6 ++ 1#2 ++ 0#4 ++ 2#2 ++ 0#4 ++ 1#2 ++ 0xF#4 ++ 0xF#4 ++ 0#28) = .ok (.vadd ⟨0, .ofr 0, .lane 0, .ofr 15, .bf32, 0⟩)
    ∧ decodeEntry (0x6D#8 ++ 1#6 ++ 1#2 ++ 1#4 ++ 2#2 ++ 1#4 ++ 1#2 ++ 0xF#4 ++ 2#4 ++ 0#28) = .ok (.vsub ⟨1, .ofr 1, .lane 1, .ofr 15, .f16, 0⟩)
    ∧ decodeEntry (0x6E#8 ++ 2#6 ++ 1#2 ++ 2#4 ++ 2#2 ++ 2#4 ++ 1#2 ++ 0xF#4 ++ 7#4 ++ 0#28) = .ok (.vmul ⟨2, .ofr 2, .lane 2, .ofr 15, .i8, 0⟩)
    ∧ decodeEntry (0x71#8 ++ 5#6 ++ 1#2 ++ 5#4 ++ 2#2 ++ 5#4 ++ 1#2 ++ 0xF#4 ++ 3#4 ++ 0#28) = .ok (.vmin ⟨5, .ofr 5, .lane 5, .ofr 15, .e4m3, 0⟩)
    ∧ decodeEntry (0x72#8 ++ 6#6 ++ 1#2 ++ 6#4 ++ 2#2 ++ 6#4 ++ 1#2 ++ 0xF#4 ++ 4#4 ++ 0#28) = .ok (.vmax ⟨6, .ofr 6, .lane 6, .ofr 15, .e5m2, 0⟩)
    ∧ decodeEntry (0x73#8 ++ 7#6 ++ 1#2 ++ 7#4 ++ 2#2 ++ 7#4 ++ 3#2 ++ 0#4 ++ 8#4 ++ 0#28) = .ok (.vabs ⟨7, .ofr 7, .lane 7, .none, .ui8, 0⟩)
    ∧ decodeEntry (0x74#8 ++ 8#6 ++ 1#2 ++ 8#4 ++ 2#2 ++ 8#4 ++ 3#2 ++ 0#4 ++ 6#4 ++ 0#28) = .ok (.vneg ⟨8, .ofr 8, .lane 8, .none, .i16, 0⟩)
    ∧ decodeEntry (0x75#8 ++ 9#6 ++ 1#2 ++ 9#4 ++ 2#2 ++ 9#4 ++ 1#2 ++ 0xF#4 ++ 5#4 ++ 0#28) = .ok (.vand ⟨9, .ofr 9, .lane 9, .ofr 15, .i32, 0⟩)
    ∧ decodeEntry (0x76#8 ++ 0xA#6 ++ 1#2 ++ 0xA#4 ++ 2#2 ++ 0xA#4 ++ 1#2 ++ 0xF#4 ++ 5#4 ++ 0#28) = .ok (.vor ⟨10, .ofr 10, .lane 10, .ofr 15, .i32, 0⟩)
    ∧ decodeEntry (0x77#8 ++ 0xB#6 ++ 1#2 ++ 0xB#4 ++ 2#2 ++ 0xB#4 ++ 1#2 ++ 0xF#4 ++ 5#4 ++ 0#28) = .ok (.vxor ⟨11, .ofr 11, .lane 11, .ofr 15, .i32, 0⟩) := by
  refine ⟨?_, ?_, ?_, ?_, ?_, ?_, ?_, ?_, ?_, ?_, ?_, ?_⟩ <;> rfl

/-- Entries written out from R96, R97, R107, R108 and the MOD columns of R168 to R198 and R229. -/
theorem test_words_entries_3 :
    decodeEntry (0x78#8 ++ 0xC#6 ++ 1#2 ++ 0xC#4 ++ 2#2 ++ 0xC#4 ++ 3#2 ++ 0#4 ++ 5#4 ++ 0#28) = .ok (.vnot ⟨12, .ofr 12, .lane 12, .none, .i32, 0⟩)
    ∧ decodeEntry (0x79#8 ++ 0xD#6 ++ 1#2 ++ 0xD#4 ++ 2#2 ++ 0xD#4 ++ 1#2 ++ 0xF#4 ++ 6#4 ++ 0#28) = .ok (.vshl ⟨13, .ofr 13, .lane 13, .ofr 15, .i16, 0⟩)
    ∧ decodeEntry (0x7A#8 ++ 0xE#6 ++ 1#2 ++ 0xE#4 ++ 2#2 ++ 0xE#4 ++ 1#2 ++ 0xF#4 ++ 8#4 ++ 0#28) = .ok (.vshr ⟨14, .ofr 14, .lane 14, .ofr 15, .ui8, 0⟩)
    ∧ decodeEntry (0x7B#8 ++ 0xF#6 ++ 1#2 ++ 0xF#4 ++ 2#2 ++ 0xF#4 ++ 1#2 ++ 0xF#4 ++ 5#4 ++ 0#28) = .ok (.vsar ⟨15, .ofr 15, .lane 15, .ofr 15, .i32, 0⟩)
    ∧ decodeEntry (0x7C#8 ++ 0x10#6 ++ 1#2 ++ 0#4 ++ 2#2 ++ 0#4 ++ 1#2 ++ 0xF#4 ++ 5#4 ++ 0#28) = .ok (.vrshr ⟨16, .ofr 0, .lane 0, .ofr 15, .i32, 0⟩)
    ∧ decodeEntry (0x7D#8 ++ 0x11#6 ++ 1#2 ++ 1#4 ++ 2#2 ++ 1#4 ++ 1#2 ++ 0xF#4 ++ 7#4 ++ 0#28) = .ok (.vaddsat ⟨17, .ofr 1, .lane 1, .ofr 15, .i8, 0⟩)
    ∧ decodeEntry (0x7E#8 ++ 0x12#6 ++ 1#2 ++ 2#4 ++ 2#2 ++ 2#4 ++ 1#2 ++ 0xF#4 ++ 7#4 ++ 0#28) = .ok (.vsubsat ⟨18, .ofr 2, .lane 2, .ofr 15, .i8, 0⟩)
    ∧ decodeEntry (0x6F#8 ++ 0#6 ++ 1#2 ++ 1#4 ++ 1#2 ++ 2#4 ++ 1#2 ++ 3#4 ++ 0#4 ++ 0#9 ++ 1#1 ++ 0#18) = .ok (.vfma ⟨0, .ofr 1, .ofr 2, .ofr 3, .f32, 0⟩ 1)
    ∧ decodeEntry (0x70#8 ++ 0#6 ++ 0#2 ++ 0#4 ++ 1#2 ++ 2#4 ++ 3#2 ++ 1#4 ++ 1#4 ++ 0#9 ++ 0#1 ++ 0#2 ++ 0x3F80#16) = .ok (.vfms ⟨0, .ll, .ofr 2, .imm, .bf16, 0x3F80⟩ 0)
    ∧ decodeEntry (0x7F#8 ++ 0#6 ++ 1#2 ++ 1#4 ++ 1#2 ++ 2#4 ++ 3#2 ++ 2#4 ++ 6#4 ++ 0#11 ++ 1#1 ++ 0#16) = .ok (.vclamp ⟨0, .ofr 1, .ofr 2, .zero, .i16, 0⟩ 1)
    ∧ decodeEntry (0x80#8 ++ 0#6 ++ 1#2 ++ 1#4 ++ 3#2 ++ 1#4 ++ 1#2 ++ 3#4 ++ 7#4 ++ 0#9 ++ 5#3 ++ 0xFF80#16) = .ok (.vcmp ⟨0, .ofr 1, .imm, .ofr 3, .i8, 0xFF80⟩ 5)
    ∧ decodeEntry (0x81#8 ++ 0#6 ++ 1#2 ++ 1#4 ++ 1#2 ++ 2#4 ++ 1#2 ++ 3#4 ++ 0xF#4 ++ 0x38#8 ++ 0#1 ++ 2#3 ++ 0#16) = .ok (.vcmpb ⟨0, .ofr 1, .ofr 2, .ofr 3, .bf32, 0⟩ 2 0x38) := by
  refine ⟨?_, ?_, ?_, ?_, ?_, ?_, ?_, ?_, ?_, ?_, ?_, ?_⟩ <;> rfl

/-- Entries written out from R96, R97, R107, R108 and the MOD columns of R168 to R198 and R229. -/
theorem test_words_entries_4 :
    decodeEntry (0x82#8 ++ 0#6 ++ 1#2 ++ 1#4 ++ 1#2 ++ 2#4 ++ 1#2 ++ 3#4 ++ 0#4 ++ 0#7 ++ 1#1 ++ 0xB#4 ++ 0#16) = .ok (.vsel ⟨0, .ofr 1, .ofr 2, .ofr 3, .f32, 0⟩ 0xB 1)
    ∧ decodeEntry (0x83#8 ++ 0#6 ++ 2#2 ++ 8#4 ++ 1#2 ++ 2#4 ++ 3#2 ++ 0#4 ++ 0xB#4 ++ 0#28) = .ok (.vmov ⟨0, .lane 8, .ofr 2, .none, .mxf4, 0⟩)
    ∧ decodeEntry (0x84#8 ++ 0#6 ++ 1#2 ++ 1#4 ++ 1#2 ++ 2#4 ++ 1#2 ++ 3#4 ++ 7#4 ++ 0#9 ++ 1#1 ++ 3#2 ++ 0#16) = .ok (.vmac ⟨0, .ofr 1, .ofr 2, .ofr 3, .i8, 0⟩ 3 1)
    ∧ decodeEntry (0x85#8 ++ 0#6 ++ 1#2 ++ 1#4 ++ 1#2 ++ 2#4 ++ 3#2 ++ 1#4 ++ 0xF#4 ++ 0#12 ++ 2#16) = .ok (.vscale ⟨0, .ofr 1, .ofr 2, .imm, .bf32, 0x2⟩)
    ∧ decodeEntry (0x86#8 ++ 0#6 ++ 1#2 ++ 1#4 ++ 1#2 ++ 2#4 ++ 3#2 ++ 0#4 ++ 0xC#4 ++ 0#8 ++ 1#1 ++ 6#3 ++ 0#16) = .ok (.vcvt ⟨0, .ofr 1, .ofr 2, .none, .mxi8, 0⟩ 6 1)
    ∧ decodeEntry (0x87#8 ++ 0#6 ++ 1#2 ++ 1#4 ++ 1#2 ++ 2#4 ++ 1#2 ++ 3#4 ++ 6#4 ++ 0#28) = .ok (.vpack ⟨0, .ofr 1, .ofr 2, .ofr 3, .i16, 0⟩)
    ∧ decodeEntry (0x88#8 ++ 0#6 ++ 1#2 ++ 1#4 ++ 1#2 ++ 2#4 ++ 3#2 ++ 0#4 ++ 0#4 ++ 0#11 ++ 1#1 ++ 0#16) = .ok (.vunpack ⟨0, .ofr 1, .ofr 2, .none, .f32, 0⟩ 1)
    ∧ decodeEntry (0x89#8 ++ 0#6 ++ 1#2 ++ 1#4 ++ 3#2 ++ 1#4 ++ 3#2 ++ 0#4 ++ 5#4 ++ 0#12 ++ 0x8000#16) = .ok (.viota ⟨0, .ofr 1, .imm, .none, .i32, 0x8000⟩)
    ∧ decodeEntry (0x8A#8 ++ 0#6 ++ 1#2 ++ 1#4 ++ 1#2 ++ 2#4 ++ 3#2 ++ 0#4 ++ 6#4 ++ 0#28) = .ok (.vaccept ⟨0, .ofr 1, .ofr 2, .none, .i16, 0⟩)
    ∧ decodeEntry (0x90#8 ++ 0#6 ++ 1#2 ++ 0#4 ++ 2#2 ++ 0#4 ++ 3#2 ++ 0#4 ++ 0#4 ++ 0#28) = .ok (.rcp ⟨0, .ofr 0, .lane 0, .none, .f32, 0⟩)
    ∧ decodeEntry (0x91#8 ++ 0#6 ++ 1#2 ++ 1#4 ++ 2#2 ++ 1#4 ++ 3#2 ++ 0#4 ++ 0#4 ++ 0#28) = .ok (.rsq ⟨0, .ofr 1, .lane 1, .none, .f32, 0⟩)
    ∧ decodeEntry (0x92#8 ++ 0#6 ++ 1#2 ++ 2#4 ++ 2#2 ++ 2#4 ++ 3#2 ++ 0#4 ++ 0#4 ++ 0#28) = .ok (.sqrt ⟨0, .ofr 2, .lane 2, .none, .f32, 0⟩) := by
  refine ⟨?_, ?_, ?_, ?_, ?_, ?_, ?_, ?_, ?_, ?_, ?_, ?_⟩ <;> rfl

/-- Entries written out from R96, R97, R107, R108 and the MOD columns of R168 to R198 and R229. -/
theorem test_words_entries_5 :
    decodeEntry (0x93#8 ++ 0#6 ++ 1#2 ++ 3#4 ++ 2#2 ++ 3#4 ++ 3#2 ++ 0#4 ++ 0#4 ++ 0#28) = .ok (.ex2 ⟨0, .ofr 3, .lane 3, .none, .f32, 0⟩)
    ∧ decodeEntry (0x94#8 ++ 0#6 ++ 1#2 ++ 4#4 ++ 2#2 ++ 4#4 ++ 3#2 ++ 0#4 ++ 0#4 ++ 0#28) = .ok (.lg2 ⟨0, .ofr 4, .lane 4, .none, .f32, 0⟩)
    ∧ decodeEntry (0x95#8 ++ 0#6 ++ 1#2 ++ 5#4 ++ 2#2 ++ 5#4 ++ 3#2 ++ 0#4 ++ 0#4 ++ 0#28) = .ok (.sin ⟨0, .ofr 5, .lane 5, .none, .f32, 0⟩)
    ∧ decodeEntry (0x96#8 ++ 0#6 ++ 1#2 ++ 6#4 ++ 2#2 ++ 6#4 ++ 3#2 ++ 0#4 ++ 0#4 ++ 0#28) = .ok (.cos ⟨0, .ofr 6, .lane 6, .none, .f32, 0⟩)
    ∧ decodeEntry (0x98#8 ++ 0#6 ++ 1#2 ++ 1#4 ++ 1#2 ++ 2#4 ++ 1#2 ++ 3#4 ++ 7#4 ++ 0#7 ++ 1#1 ++ 8#4 ++ 0#16) = .ok (.xpose ⟨0, .ofr 1, .ofr 2, .ofr 3, .i8, 0⟩ 8 1)
    ∧ decodeEntry (0x99#8 ++ 0#6 ++ 1#2 ++ 1#4 ++ 1#2 ++ 2#4 ++ 3#2 ++ 1#4 ++ 6#4 ++ 0#12 ++ 0x3F#16) = .ok (.perm ⟨0, .ofr 1, .ofr 2, .imm, .i16, 0x3F⟩)
    ∧ decodeEntry (0x9A#8 ++ 0#6 ++ 1#2 ++ 1#4 ++ 1#2 ++ 2#4 ++ 3#2 ++ 0#4 ++ 6#4 ++ 0#9 ++ 4#3 ++ 0#16) = .ok (.shuf ⟨0, .ofr 1, .ofr 2, .none, .i16, 0⟩ 4)
    ∧ decodeEntry (0x9B#8 ++ 0#6 ++ 1#2 ++ 1#4 ++ 1#2 ++ 2#4 ++ 3#2 ++ 0#4 ++ 6#4 ++ 0#4 ++ 0x3F#8 ++ 0#16) = .ok (.bcast ⟨0, .ofr 1, .ofr 2, .none, .i16, 0⟩ 0x3F)
    ∧ decodeEntry (0x9C#8 ++ 0#6 ++ 1#2 ++ 1#4 ++ 1#2 ++ 2#4 ++ 3#2 ++ 0#4 ++ 6#4 ++ 0#6 ++ 3#2 ++ 0xC#4 ++ 0#16) = .ok (.gath ⟨0, .ofr 1, .ofr 2, .none, .i16, 0⟩ 0xC 3)
    ∧ decodeEntry (0x9D#8 ++ 0#6 ++ 1#2 ++ 1#4 ++ 1#2 ++ 2#4 ++ 1#2 ++ 3#4 ++ 8#4 ++ 0#3 ++ 0x80#9 ++ 0#16) = .ok (.slide ⟨0, .ofr 1, .ofr 2, .ofr 3, .ui8, 0⟩ 0x80)
    ∧ decodeEntry (0x9E#8 ++ 0#6 ++ 1#2 ++ 1#4 ++ 1#2 ++ 2#4 ++ 1#2 ++ 3#4 ++ 0#4 ++ 0#11 ++ 1#1 ++ 0#16) = .ok (.rope ⟨0, .ofr 1, .ofr 2, .ofr 3, .f32, 0⟩ 1)
    ∧ decodeEntry (0x9F#8 ++ 0#6 ++ 1#2 ++ 1#4 ++ 1#2 ++ 2#4 ++ 3#2 ++ 0#4 ++ 7#4 ++ 0#7 ++ 1#1 ++ 0#4 ++ 0#16) = .ok (.spc24 ⟨0, .ofr 1, .ofr 2, .none, .i8, 0⟩ 1) := by
  refine ⟨?_, ?_, ?_, ?_, ?_, ?_, ?_, ?_, ?_, ?_, ?_, ?_⟩ <;> rfl

/-- Entries written out from R96, R97, R107, R108 and the MOD columns of R168 to R198 and R229. -/
theorem test_words_entries_6 :
    decodeEntry (0xA0#8 ++ 0#6 ++ 1#2 ++ 1#4 ++ 1#2 ++ 2#4 ++ 3#2 ++ 0#4 ++ 2#4 ++ 0#7 ++ 0#1 ++ 0#4 ++ 0#16) = .ok (.spc48 ⟨0, .ofr 1, .ofr 2, .none, .f16, 0⟩ 0)
    ∧ decodeEntry (0xA4#8 ++ 0#6 ++ 1#2 ++ 1#4 ++ 1#2 ++ 2#4 ++ 3#2 ++ 0#4 ++ 5#4 ++ 0#10 ++ 1#1 ++ 0#1 ++ 0#16) = .ok (.rsum ⟨0, .ofr 1, .ofr 2, .none, .i32, 0⟩ 0 1)
    ∧ decodeEntry (0xA5#8 ++ 0#6 ++ 1#2 ++ 1#4 ++ 1#2 ++ 2#4 ++ 3#2 ++ 0#4 ++ 5#4 ++ 0#11 ++ 1#1 ++ 0#16) = .ok (.rmax ⟨0, .ofr 1, .ofr 2, .none, .i32, 0⟩ 1)
    ∧ decodeEntry (0xA6#8 ++ 0#6 ++ 1#2 ++ 1#4 ++ 1#2 ++ 2#4 ++ 3#2 ++ 0#4 ++ 5#4 ++ 0#11 ++ 0#1 ++ 0#16) = .ok (.rmin ⟨0, .ofr 1, .ofr 2, .none, .i32, 0⟩ 0)
    ∧ decodeEntry (0xA7#8 ++ 0#6 ++ 1#2 ++ 1#4 ++ 1#2 ++ 2#4 ++ 1#2 ++ 3#4 ++ 0#4 ++ 0#11 ++ 1#1 ++ 0#16) = .ok (.scan ⟨0, .ofr 1, .ofr 2, .ofr 3, .f32, 0⟩ 1)
    ∧ decodeEntry (0xA8#8 ++ 0#6 ++ 1#2 ++ 1#4 ++ 1#2 ++ 2#4 ++ 3#2 ++ 0#4 ++ 0#4 ++ 0#8 ++ 1#1 ++ 7#3 ++ 0#16) = .ok (.topk ⟨0, .ofr 1, .ofr 2, .none, .f32, 0⟩ 7 1)
    ∧ decodeEntry (0xA9#8 ++ 0#6 ++ 1#2 ++ 1#4 ++ 1#2 ++ 2#4 ++ 3#2 ++ 0#4 ++ 2#4 ++ 0#28) = .ok (.argmax ⟨0, .ofr 1, .ofr 2, .none, .f16, 0⟩)
    ∧ decodeEntry (0xAA#8 ++ 0#6 ++ 1#2 ++ 1#4 ++ 1#2 ++ 2#4 ++ 1#2 ++ 3#4 ++ 0xE#4 ++ 0#11 ++ 1#1 ++ 0#16) = .ok (.cmpct ⟨0, .ofr 1, .ofr 2, .ofr 3, .bi16, 0⟩ 1)
    ∧ decodeEntry (0xAB#8 ++ 0#6 ++ 1#2 ++ 1#4 ++ 1#2 ++ 2#4 ++ 1#2 ++ 3#4 ++ 0#4 ++ 0#8 ++ 0#1 ++ 0#2 ++ 1#1 ++ 0#16) = .ok (.osm ⟨0, .ofr 1, .ofr 2, .ofr 3, .f32, 0⟩ 1 0)
    ∧ decodeEntry (0xAC#8 ++ 0#6 ++ 1#2 ++ 1#4 ++ 1#2 ++ 2#4 ++ 1#2 ++ 3#4 ++ 1#4 ++ 0#28) = .ok (.osf ⟨0, .ofr 1, .ofr 2, .ofr 3, .bf16, 0⟩)
    ∧ decodeEntry (0xAD#8 ++ 0#6 ++ 3#2 ++ 0#4 ++ 1#2 ++ 2#4 ++ 3#2 ++ 0#4 ++ 8#4 ++ 0xD#4 ++ 0x7F#8 ++ 0#15 ++ 1#1) = .ok (.vflag ⟨0, .none, .ofr 2, .none, .ui8, 0⟩ 0xD 0x7F 1)
    ∧ decodeEntry (0xB0#8 ++ 0#6 ++ 1#2 ++ 8#4 ++ 1#2 ++ 0xC#4 ++ 3#2 ++ 0#4 ++ 0xE#4 ++ 0#20 ++ 3#4 ++ 0xE#4) = .ok (.xmv ⟨0, .ofr 8, .ofr 12, .none, .bi16, 0⟩ 0xE 3) := by
  refine ⟨?_, ?_, ?_, ?_, ?_, ?_, ?_, ?_, ?_, ?_, ?_, ?_⟩ <;> rfl

/-- Entries written out from R96, R97, R107, R108 and the MOD columns of R168 to R198 and R229. -/
theorem test_words_entries_7 :
    decodeEntry (0xB1#8 ++ 0#6 ++ 2#2 ++ 3#4 ++ 3#2 ++ 0#4 ++ 3#2 ++ 0#4 ++ 5#4 ++ 0#20 ++ 3#4 ++ 0xE#4) = .ok (.xref ⟨0, .lane 3, .none, .none, .i32, 0⟩ 0xE 3)
    ∧ decodeEntry (0xB2#8 ++ 0#6 ++ 3#2 ++ 0#4 ++ 2#2 ++ 3#4 ++ 3#2 ++ 0#4 ++ 7#4 ++ 0#12 ++ 3#3 ++ 0x1FF#9 ++ 0xE#4) = .ok (.xprog_deposit ⟨0, .none, .lane 3, .none, .i8, 0⟩ 0xE 0x1FF 3)
    ∧ decodeEntry (0xB2#8 ++ 0#6 ++ 3#2 ++ 0#4 ++ 3#2 ++ 0#4 ++ 3#2 ++ 0#4 ++ 0#4 ++ 0#6 ++ 0x1E#5 ++ 1#1 ++ 0#12 ++ 0xE#4) = .ok (.xprog_fire ⟨0, .none, .none, .none, .f32, 0⟩ 0xE 0x1E)
    ∧ decodeEntry (0xB3#8 ++ 0#6 ++ 1#2 ++ 3#4 ++ 3#2 ++ 0#4 ++ 3#2 ++ 0#4 ++ 7#4 ++ 0#12 ++ 4#3 ++ 0x1FF#9 ++ 0xE#4) = .ok (.xrdw ⟨0, .ofr 3, .none, .none, .i8, 0⟩ 0xE 0x1FF 4)
    ∧ decodeEntry (0xB4#8 ++ 0#6 ++ 1#2 ++ 3#4 ++ 1#2 ++ 0xC#4 ++ 3#2 ++ 0#4 ++ 0#4 ++ 0#20 ++ 3#4 ++ 0xE#4) = .ok (.xbound ⟨0, .ofr 3, .ofr 12, .none, .f32, 0⟩ 0xE 3)
    ∧ decodeEntry (0xB5#8 ++ 0#6 ++ 1#2 ++ 3#4 ++ 3#2 ++ 0#4 ++ 3#2 ++ 0#4 ++ 6#4 ++ 0#16 ++ 8#5 ++ 2#3 ++ 0xE#4) = .ok (.xstat ⟨0, .ofr 3, .none, .none, .i16, 0⟩ 0xE 2 8)
    ∧ decodeEntry (0xB8#8 ++ 0#6 ++ 3#2 ++ 0#4 ++ 1#2 ++ 3#4 ++ 3#2 ++ 0#4 ++ 0#4 ++ 0x1F#5 ++ 0x7F#7 ++ 0#16) = .ok (.mld ⟨0, .none, .ofr 3, .none, .f32, 0⟩ 0x7F 0x1F)
    ∧ decodeEntry (0xB9#8 ++ 0#6 ++ 3#2 ++ 0#4 ++ 2#2 ++ 8#4 ++ 3#2 ++ 0#4 ++ 0#4 ++ 0#28) = .ok (.mfd ⟨0, .none, .lane 8, .none, .f32, 0⟩)
    ∧ decodeEntry (0xBA#8 ++ 0#6 ++ 1#2 ++ 3#4 ++ 3#2 ++ 0#4 ++ 3#2 ++ 0#4 ++ 1#4 ++ 0#1 ++ 2#2 ++ 1#2 ++ 0x64#7 ++ 0#16) = .ok (.mdr ⟨0, .ofr 3, .none, .none, .bf16, 0⟩ 0x64 1 2)
    ∧ decodeEntry (0xBB#8 ++ 0#6 ++ 1#2 ++ 3#4 ++ 3#2 ++ 0#4 ++ 3#2 ++ 0#4 ++ 0#4 ++ 0#11 ++ 1#1 ++ 3#2 ++ 2#2 ++ 0#5 ++ 0x64#7) = .ok (.msv ⟨0, .ofr 3, .none, .none, .f32, 0⟩ 0x64 0 2 3 1)
    ∧ decodeEntry (0xBC#8 ++ 0#6 ++ 3#2 ++ 0#4 ++ 1#2 ++ 3#4 ++ 3#2 ++ 0#4 ++ 0#4 ++ 0#11 ++ 0#1 ++ 0#2 ++ 0#2 ++ 0x1F#5 ++ 0x64#7) = .ok (.mrs ⟨0, .none, .ofr 3, .none, .f32, 0⟩ 0x64 0x1F 0 0 0)
    ∧ decodeEntry (0xC0#8 ++ 0#6 ++ 3#2 ++ 0#4 ++ 1#2 ++ 3#4 ++ 3#2 ++ 0#4 ++ 0#4 ++ 0#9 ++ 7#3 ++ 0#16) = .ok (.fsnd ⟨0, .none, .ofr 3, .none, .f32, 0⟩ 7) := by
  refine ⟨?_, ?_, ?_, ?_, ?_, ?_, ?_, ?_, ?_, ?_, ?_, ?_⟩ <;> rfl

/-- Entries written out from R96, R97, R107, R108 and the MOD columns of R168 to R198 and R229. -/
theorem test_words_entries_8 :
    decodeEntry (0xC1#8 ++ 0#6 ++ 2#2 ++ 3#4 ++ 3#2 ++ 0#4 ++ 3#2 ++ 0#4 ++ 0#4 ++ 0#9 ++ 6#3 ++ 0#16) = .ok (.frcv ⟨0, .lane 3, .none, .none, .f32, 0⟩ 6)
    ∧ decodeEntry (0xC2#8 ++ 0#6 ++ 3#2 ++ 0#4 ++ 3#2 ++ 0#4 ++ 3#2 ++ 0#4 ++ 0#4 ++ 0#2 ++ 9#7 ++ 6#3 ++ 0x3E8#16) = .ok (.fexp ⟨0, .none, .none, .none, .f32, 0⟩ 6 9 0x3E8)
    ∧ decodeEntry (0xC3#8 ++ 0#6 ++ 3#2 ++ 0#4 ++ 3#2 ++ 0#4 ++ 3#2 ++ 0#4 ++ 0#4 ++ 0#4 ++ 0x1F#5 ++ 6#3 ++ 0#16) = .ok (.fqd ⟨0, .none, .none, .none, .f32, 0⟩ 6 0x1F) := by
  refine ⟨?_, ?_, ?_⟩ <;> rfl

/-- Matrix commands written out from R99, R109 and R207 to R216. -/
theorem test_words_matrix_1 :
    decodeMatrix (0#6 ++ 7#4 ++ 0x64#9 ++ 0x40#7 ++ 3#7 ++ 0x1E#5 ++ 1#2 ++ 0#2 ++ 0xC8#8 ++ 1#1 ++ 9#5 ++ 1#1 ++ 2#2 ++ 0x11#5 ++ 0xBEEF#16 ++ 0x123456789A#40 ++ 0xD0#8) = .ok (.mmul ⟨0x123456789A, 0xBEEF, 17, 2, 1, 9, 1, 200⟩ 1 0x1E 3 0x40 0x64 7)
    ∧ decodeMatrix (0#6 ++ 8#4 ++ 0x64#9 ++ 0x40#7 ++ 3#7 ++ 0x1E#5 ++ 1#2 ++ 0#2 ++ 0xC8#8 ++ 1#1 ++ 9#5 ++ 1#1 ++ 2#2 ++ 0x11#5 ++ 0xBEEF#16 ++ 0x123456789A#40 ++ 0xD1#8) = .ok (.mmac ⟨0x123456789A, 0xBEEF, 17, 2, 1, 9, 1, 200⟩ 1 0x1E 3 0x40 0x64 8)
    ∧ decodeMatrix (0xD#4 ++ 1#1 ++ 0#1 ++ 7#4 ++ 0x40#9 ++ 4#7 ++ 3#7 ++ 0x1E#5 ++ 2#2 ++ 0#2 ++ 0xC8#8 ++ 1#1 ++ 9#5 ++ 1#1 ++ 2#2 ++ 0x11#5 ++ 0xBEEF#16 ++ 0x123456789A#40 ++ 0xD2#8) = .ok (.mmuls ⟨0x123456789A, 0xBEEF, 17, 2, 1, 9, 1, 200⟩ 2 0x1E 3 4 0x40 7 0 1 0xD)
    ∧ decodeMatrix (0xD#4 ++ 0#1 ++ 1#1 ++ 7#4 ++ 0x40#9 ++ 4#7 ++ 3#7 ++ 0x1E#5 ++ 2#2 ++ 0#2 ++ 0xC8#8 ++ 1#1 ++ 9#5 ++ 1#1 ++ 2#2 ++ 0x11#5 ++ 0xBEEF#16 ++ 0x123456789A#40 ++ 0xD3#8) = .ok (.mmacs ⟨0x123456789A, 0xBEEF, 17, 2, 1, 9, 1, 200⟩ 2 0x1E 3 4 0x40 7 1 0 0xD)
    ∧ decodeMatrix (0#37 ++ 1#1 ++ 3#2 ++ 0#2 ++ 0xC8#8 ++ 1#1 ++ 9#5 ++ 1#1 ++ 2#2 ++ 0x11#5 ++ 0xBEEF#16 ++ 0x123456789A#40 ++ 0xD4#8) = .ok (.mclr ⟨0x123456789A, 0xBEEF, 17, 2, 1, 9, 1, 200⟩ 3 1)
    ∧ decodeMatrix (0#8 ++ 0x80000001#32 ++ 0#2 ++ 0xC8#8 ++ 1#1 ++ 9#5 ++ 1#1 ++ 2#2 ++ 0x11#5 ++ 0xBEEF#16 ++ 0x123456789A#40 ++ 0xD5#8) = .ok (.mclaim ⟨0x123456789A, 0xBEEF, 17, 2, 1, 9, 1, 200⟩ 0x80000001)
    ∧ decodeMatrix (0#8 ++ 0x40000000#32 ++ 0#2 ++ 0xC8#8 ++ 1#1 ++ 9#5 ++ 1#1 ++ 2#2 ++ 0x11#5 ++ 0xBEEF#16 ++ 0x123456789A#40 ++ 0xD6#8) = .ok (.mrel ⟨0x123456789A, 0xBEEF, 17, 2, 1, 9, 1, 200⟩ 0x40000000)
    ∧ decodeMatrix (0#23 ++ 1#1 ++ 0xB#4 ++ 0x70#7 ++ 6#5 ++ 0#2 ++ 0xC8#8 ++ 1#1 ++ 9#5 ++ 1#1 ++ 2#2 ++ 0x11#5 ++ 0xBEEF#16 ++ 0x123456789A#40 ++ 0xD7#8) = .ok (.mscl ⟨0x123456789A, 0xBEEF, 17, 2, 1, 9, 1, 200⟩ 6 0x70 0xB 1)
    ∧ decodeMatrix (0#30 ++ 3#5 ++ 0x1D#5 ++ 0#2 ++ 0xC8#8 ++ 1#1 ++ 9#5 ++ 1#1 ++ 2#2 ++ 0x11#5 ++ 0xBEEF#16 ++ 0x123456789A#40 ++ 0xD8#8) = .ok (.mtr ⟨0x123456789A, 0xBEEF, 17, 2, 1, 9, 1, 200⟩ 0x1D 3)
    ∧ decodeMatrix (0#40 ++ 0#2 ++ 0xC8#8 ++ 1#1 ++ 9#5 ++ 1#1 ++ 2#2 ++ 0x11#5 ++ 0xBEEF#16 ++ 0x123456789A#40 ++ 0xD9#8) = .ok (.mfence ⟨0x123456789A, 0xBEEF, 17, 2, 1, 9, 1, 200⟩)
    ∧ decodeMatrix (0#34 ++ 0x27#6 ++ 0#2 ++ 0xC8#8 ++ 1#1 ++ 9#5 ++ 1#1 ++ 2#2 ++ 0x11#5 ++ 0xBEEF#16 ++ 0x123456789A#40 ++ 0xDA#8) = .ok (.mx_msig ⟨0x123456789A, 0xBEEF, 17, 2, 1, 9, 1, 200⟩ 0x27)
    ∧ decodeMatrix (0#40 ++ 0#2 ++ 0xC8#8 ++ 1#1 ++ 9#5 ++ 1#1 ++ 2#2 ++ 0x11#5 ++ 0xBEEF#16 ++ 0x123456789A#40 ++ 0xDB#8) = .ok (.mnop ⟨0x123456789A, 0xBEEF, 17, 2, 1, 9, 1, 200⟩) := by
  refine ⟨?_, ?_, ?_, ?_, ?_, ?_, ?_, ?_, ?_, ?_, ?_, ?_⟩ <;> rfl

/-- Port commands written out from R110, R242 to R258, R279, R288 to R298 and R306. -/
theorem test_words_port_1 :
    decodePort (0#14 ++ 0#4 ++ 0#10 ++ 3#10 ++ 2#2 ++ 0x20C#24 ++ 0#36 ++ 0x1230#22 ++ 5#6 ++ 0xABCDE#40 ++ 0x4D#24 ++ 9#6 ++ 0x12345#32 ++ 1#1 ++ 1#1 ++ 2#3 ++ 1#1 ++ 1#1 ++ 0x15#5 ++ 2#3 ++ 1#3 ++ 0xE0#8) = .ok (.copy ⟨1, 2, 21, 1, 1, 2, 1, 1⟩ ⟨0x12345, 9, 0xABCDE00004D, 0x48C05, 0x20C, 2, 3, 0, 0⟩)
    ∧ decodePort (0x4E#24 ++ 0#4 ++ 3#10 ++ 2#2 ++ 0x20C#24 ++ 0xABCDE#40 ++ 0x4D#24 ++ 0xABCDE#40 ++ 0x4D#24 ++ 0#6 ++ 0x12345#32 ++ 0#1 ++ 1#1 ++ 2#3 ++ 1#1 ++ 1#1 ++ 0x15#5 ++ 1#3 ++ 1#3 ++ 0xE1#8) = .ok (.copyp ⟨1, 1, 21, 1, 1, 2, 1, 0⟩ ⟨0x12345, 0, 0xABCDE00004D, 0xABCDE00004D, 0x20C, 2, 3, 0x4E⟩)
    ∧ decodePort (0#14 ++ 0#4 ++ 0#10 ++ 3#10 ++ 2#2 ++ 0x20C#24 ++ 0#58 ++ 0x3F#6 ++ 0xABCDE#40 ++ 0x4D#24 ++ 0#6 ++ 0x12345#32 ++ 0#1 ++ 1#1 ++ 2#3 ++ 1#1 ++ 1#1 ++ 0x15#5 ++ 4#3 ++ 1#3 ++ 0xE2#8) = .ok (.pref ⟨1, 4, 21, 1, 1, 2, 1, 0⟩ ⟨0x12345, 0, 0xABCDE00004D, 0x3F, 0x20C, 2, 3, 0, 0⟩)
    ∧ decodePort (0x64#10 ++ 0x40#22 ++ 2#6 ++ 2#2 ++ 0x20C#24 ++ 0#36 ++ 0x1230#22 ++ 5#6 ++ 0xABCDE#40 ++ 0x4D#24 ++ 0#6 ++ 0x12345#32 ++ 0#1 ++ 1#1 ++ 2#3 ++ 1#1 ++ 1#1 ++ 0x15#5 ++ 2#3 ++ 1#3 ++ 0xE3#8) = .ok (.ferry_gath ⟨1, 2, 21, 1, 1, 2, 1, 0⟩ ⟨0x12345, 0, 0xABCDE00004D, 0x48C05, 0x20C, 2, 0x1002, 0x64⟩)
    ∧ decodePort (0x64#10 ++ 0x40#22 ++ 2#6 ++ 2#2 ++ 0x20C#24 ++ 0xABCDE#40 ++ 0x4D#24 ++ 0#36 ++ 0x1230#22 ++ 5#6 ++ 0#6 ++ 0x12345#32 ++ 0#1 ++ 1#1 ++ 2#3 ++ 1#1 ++ 1#1 ++ 0x15#5 ++ 1#3 ++ 2#3 ++ 0xE4#8) = .ok (.scat ⟨2, 1, 21, 1, 1, 2, 1, 0⟩ ⟨0x12345, 0, 0x48C05, 0xABCDE00004D, 0x20C, 2, 0x1002, 0x64⟩)
    ∧ decodePort (0x64#10 ++ 0x40#22 ++ 2#6 ++ 2#2 ++ 0x20C#24 ++ 0xABCDE#40 ++ 0x4D#24 ++ 0#36 ++ 0x1230#22 ++ 5#6 ++ 0#6 ++ 0x12345#32 ++ 0#1 ++ 1#1 ++ 2#3 ++ 1#1 ++ 1#1 ++ 0x15#5 ++ 1#3 ++ 2#3 ++ 0xE5#8) = .ok (.scadd ⟨2, 1, 21, 1, 1, 2, 1, 0⟩ ⟨0x12345, 0, 0x48C05, 0xABCDE00004D, 0x20C, 2, 0x1002, 0x64⟩)
    ∧ decodePort (0#28 ++ 1#2 ++ 2#2 ++ 0x3F#6 ++ 2#2 ++ 0x20C#24 ++ 0#36 ++ 0x1230#22 ++ 5#6 ++ 0#18 ++ 0x64#18 ++ 0x1230#22 ++ 5#6 ++ 0#6 ++ 0x12345#32 ++ 0#1 ++ 1#1 ++ 2#3 ++ 1#1 ++ 1#1 ++ 0x15#5 ++ 2#3 ++ 2#3 ++ 0xE6#8) = .ok (.lred ⟨2, 2, 21, 1, 1, 2, 1, 0⟩ ⟨0x12345, 0, 0x640048C05, 0x48C05, 0x20C, 2, 0x3F, 2, 1⟩)
    ∧ decodePort (0#20 ++ 1#1 ++ 0x400#11 ++ 3#6 ++ 2#2 ++ 0x20C#24 ++ 0#36 ++ 0x1230#22 ++ 5#6 ++ 0#18 ++ 0x64#18 ++ 0x1230#22 ++ 5#6 ++ 0#6 ++ 0xA#32 ++ 0#1 ++ 1#1 ++ 2#3 ++ 1#1 ++ 1#1 ++ 0x15#5 ++ 2#3 ++ 2#3 ++ 0xE7#8) = .ok (.ltopk ⟨2, 2, 21, 1, 1, 2, 1, 0⟩ ⟨0xA, 0, 0x640048C05, 0x48C05, 0x20C, 2, 3, 0x400, 1⟩)
    ∧ decodePort (0xC8#8 ++ 0x50#22 ++ 1#6 ++ 0x40#22 ++ 2#6 ++ 0#36 ++ 0x1230#22 ++ 5#6 ++ 0#36 ++ 0x1230#22 ++ 5#6 ++ 0#6 ++ 0xA#32 ++ 0#1 ++ 1#1 ++ 2#3 ++ 0#1 ++ 1#1 ++ 0x15#5 ++ 2#3 ++ 2#3 ++ 0xE8#8) = .ok (.lcmp ⟨2, 2, 21, 1, 0, 2, 1, 0⟩ ⟨0xA, 0, 0x48C05, 0x48C05, 0x1002, 0x1401, 0xC8⟩)
    ∧ decodePort (0#18 ++ 0#10 ++ 0#10 ++ 2#2 ++ 0x20C#24 ++ 0#36 ++ 0x1230#22 ++ 5#6 ++ 0xFEDCBA9876543210#64 ++ 0#6 ++ 0xA#32 ++ 0#1 ++ 1#1 ++ 2#3 ++ 1#1 ++ 1#1 ++ 0x15#5 ++ 2#3 ++ 0#3 ++ 0xE9#8) = .ok (.ferry_fill ⟨0, 2, 21, 1, 1, 2, 1, 0⟩ ⟨0xA, 0, 0xFEDCBA9876543210, 0x48C05, 0x20C, 2, 0, 0⟩)
    ∧ decodePort (6#64 ++ 0xABCDE#40 ++ 0x4D#24 ++ 7#64 ++ 0#4 ++ 0#1 ++ 0xA#4 ++ 1#1 ++ 0x40#22 ++ 2#6 ++ 0#1 ++ 1#1 ++ 2#3 ++ 0#1 ++ 1#1 ++ 0x15#5 ++ 1#3 ++ 0#3 ++ 0xEA#8) = .ok (.atom ⟨0, 1, 21, 1, 0, 2, 1, 0⟩ ⟨0x1002, 1, 0xA, 0, 7, 0xABCDE00004D, 6⟩)
    ∧ decodePort (0#40 ++ 0x20C#24 ++ 0#64 ++ 0#48 ++ 5#16 ++ 0#38 ++ 0#1 ++ 1#1 ++ 2#3 ++ 0#1 ++ 1#1 ++ 0x15#5 ++ 0#3 ++ 0#3 ++ 0xEB#8) = .ok (.barinit ⟨0, 0, 21, 1, 0, 2, 1, 0⟩ ⟨5, 0x20C⟩) := by
  refine ⟨?_, ?_, ?_, ?_, ?_, ?_, ?_, ?_, ?_, ?_, ?_, ?_⟩ <;> rfl

/-- Port commands written out from R110, R242 to R258, R279, R288 to R298 and R306. -/
theorem test_words_port_2 :
    decodePort (0#38 ++ 2#2 ++ 0x20C#24 ++ 9#32 ++ 8#32 ++ 0#38 ++ 0#1 ++ 0#1 ++ 0x4D#24 ++ 0#38 ++ 0#1 ++ 1#1 ++ 2#3 ++ 1#1 ++ 1#1 ++ 0x15#5 ++ 0#3 ++ 0#3 ++ 0xEC#8) = .ok (.inval ⟨0, 0, 21, 1, 1, 2, 1, 0⟩ ⟨0x4D, 0, 0, 8, 9, 0x20C, 2⟩)
    ∧ decodePort (0#38 ++ 2#2 ++ 0x20C#24 ++ 0#36 ++ 0x1230#22 ++ 5#6 ++ 0#32 ++ 0x89ABCDEF#32 ++ 0#36 ++ 1#2 ++ 0#1 ++ 1#1 ++ 2#3 ++ 1#1 ++ 1#1 ++ 0x15#5 ++ 2#3 ++ 0#3 ++ 0xED#8) = .ok (.ferry_msig ⟨0, 2, 21, 1, 1, 2, 1, 0⟩ ⟨1, 0x89ABCDEF, 0x48C05, 0x20C, 2⟩)
    ∧ decodePort (0x55#64 ++ 0#8 ++ 0x3456780#28 ++ 0x2345670#28 ++ 0xFFF#12 ++ 0x20C#24 ++ 0x1234560#28 ++ 0#2 ++ 0x63#8 ++ 9#10 ++ 2#2 ++ 0x4D#24 ++ 3#3 ++ 1#1 ++ 1#1 ++ 0x15#5 ++ 0xF0#8) = .ok (.srchg ⟨21, 1, 1, 3, 77, 2, 0x1234560, 0x20C, 0x2345670, 0x3456780⟩ ⟨9, 0x63, 0xFFF, 0x55⟩)
    ∧ decodePort (0x55#64 ++ 0#8 ++ 0x3456780#28 ++ 0x2345670#28 ++ 0#11 ++ 1#1 ++ 0x20C#24 ++ 0x1234560#28 ++ 5#10 ++ 9#10 ++ 2#2 ++ 0x4D#24 ++ 3#3 ++ 1#1 ++ 1#1 ++ 0x15#5 ++ 0xF1#8) = .ok (.srchv ⟨21, 1, 1, 3, 77, 2, 0x1234560, 0x20C, 0x2345670, 0x3456780⟩ ⟨9, 5, 1, 0x55⟩)
    ∧ decodePort (0#16 ++ 0x1E#24 ++ 0x14#24 ++ 0#8 ++ 0x3456780#28 ++ 0x2345670#28 ++ 0#12 ++ 0x20C#24 ++ 0x1234560#28 ++ 0#8 ++ 1#1 ++ 0x400#11 ++ 2#2 ++ 0x4D#24 ++ 3#3 ++ 1#1 ++ 1#1 ++ 0x15#5 ++ 0xF2#8) = .ok (.dscan ⟨21, 1, 1, 3, 77, 2, 0x1234560, 0x20C, 0x2345670, 0x3456780⟩ ⟨0x400, 1, 0x14, 0x1E⟩)
    ∧ decodePort (0#64 ++ 0#8 ++ 0x3456780#28 ++ 0x2345670#28 ++ 0#12 ++ 0x20C#24 ++ 0x1234560#28 ++ 0#2 ++ 1#2 ++ 0x1F4#16 ++ 2#2 ++ 0x4D#24 ++ 3#3 ++ 1#1 ++ 1#1 ++ 0x15#5 ++ 0xF3#8) = .ok (.append ⟨21, 1, 1, 3, 77, 2, 0x1234560, 0x20C, 0x2345670, 0x3456780⟩ ⟨0x1F4, 1⟩)
    ∧ decodePort (0#64 ++ 0#8 ++ 0x3456780#28 ++ 0x2345670#28 ++ 0#12 ++ 0x20C#24 ++ 0x1234560#28 ++ 0#2 ++ 0#2 ++ 0x1F4#16 ++ 2#2 ++ 0x4D#24 ++ 3#3 ++ 1#1 ++ 1#1 ++ 0x15#5 ++ 0xF4#8) = .ok (.remove ⟨21, 1, 1, 3, 77, 2, 0x1234560, 0x20C, 0x2345670, 0x3456780⟩ ⟨0x1F4⟩)
    ∧ decodePort (0x1122#64 ++ 0#8 ++ 0x3456780#28 ++ 0x2345670#28 ++ 0#12 ++ 0x20C#24 ++ 0x1234560#28 ++ 0#20 ++ 2#2 ++ 0x4D#24 ++ 3#3 ++ 1#1 ++ 1#1 ++ 0x15#5 ++ 0xF5#8) = .ok (.merge ⟨21, 1, 1, 3, 77, 2, 0x1234560, 0x20C, 0x2345670, 0x3456780⟩ ⟨0x1122⟩)
    ∧ decodePort (0#64 ++ 0#8 ++ 0x3456780#28 ++ 0x2345670#28 ++ 0#12 ++ 0x20C#24 ++ 0x1234560#28 ++ 0#20 ++ 2#2 ++ 0x4D#24 ++ 3#3 ++ 1#1 ++ 1#1 ++ 0x15#5 ++ 0xF6#8) = .ok (.stamp ⟨21, 1, 1, 3, 77, 2, 0x1234560, 0x20C, 0x2345670, 0x3456780⟩)
    ∧ decodePort (0#32 ++ 0xFF#8 ++ 0x14#24 ++ 0#8 ++ 0x3456780#28 ++ 0x2345670#28 ++ 0#12 ++ 0x20C#24 ++ 0x1234560#28 ++ 0#20 ++ 2#2 ++ 0x4D#24 ++ 3#3 ++ 1#1 ++ 1#1 ++ 0x15#5 ++ 0xF7#8) = .ok (.pgrd ⟨21, 1, 1, 3, 77, 2, 0x1234560, 0x20C, 0x2345670, 0x3456780⟩ ⟨0x14, 0xFF⟩)
    ∧ decodePort (0#64 ++ 0#8 ++ 0x3456780#28 ++ 0x2345670#28 ++ 0#12 ++ 0x20C#24 ++ 0x1234560#28 ++ 0#5 ++ 6#3 ++ 0x64#12 ++ 2#2 ++ 0x4D#24 ++ 3#3 ++ 1#1 ++ 1#1 ++ 0x15#5 ++ 0xF8#8) = .ok (.kvalloc ⟨21, 1, 1, 3, 77, 2, 0x1234560, 0x20C, 0x2345670, 0x3456780⟩ ⟨0x64, 6⟩)
    ∧ decodePort (0#64 ++ 0#8 ++ 0x3456780#28 ++ 0x2345670#28 ++ 0#12 ++ 0x20C#24 ++ 0x1234560#28 ++ 0#8 ++ 0x64#12 ++ 2#2 ++ 0x4D#24 ++ 3#3 ++ 1#1 ++ 1#1 ++ 0x15#5 ++ 0xF9#8) = .ok (.kvfree ⟨21, 1, 1, 3, 77, 2, 0x1234560, 0x20C, 0x2345670, 0x3456780⟩ ⟨0x64⟩) := by
  refine ⟨?_, ?_, ?_, ?_, ?_, ?_, ?_, ?_, ?_, ?_, ?_, ?_⟩ <;> rfl

/-- Port commands written out from R110, R242 to R258, R279, R288 to R298 and R306. -/
theorem test_words_port_3 :
    decodePort (0#34 ++ 1#1 ++ 0x3F#6 ++ 0x64#7 ++ 5#16 ++ 0#8 ++ 0x3456780#28 ++ 0x2345670#28 ++ 0#12 ++ 0x20C#24 ++ 0x1234560#28 ++ 0#20 ++ 2#2 ++ 0x4D#24 ++ 3#3 ++ 1#1 ++ 1#1 ++ 0x15#5 ++ 0xFA#8) = .ok (.kvapp ⟨21, 1, 1, 3, 77, 2, 0x1234560, 0x20C, 0x2345670, 0x3456780⟩ ⟨5, 0x64, 0x3F, 1⟩)
    ∧ decodePort (0#16 ++ 7#32 ++ 5#16 ++ 0#8 ++ 0x3456780#28 ++ 0x2345670#28 ++ 0#2 ++ 0x1F4#10 ++ 0x20C#24 ++ 0x1234560#28 ++ 0#1 ++ 0x40#7 ++ 0x64#12 ++ 2#2 ++ 0x4D#24 ++ 3#3 ++ 1#1 ++ 1#1 ++ 0x15#5 ++ 0xFB#8) = .ok (.kvmap ⟨21, 1, 1, 3, 77, 2, 0x1234560, 0x20C, 0x2345670, 0x3456780⟩ ⟨0x64, 0x40, 0x1F4, 5, 7⟩)
    ∧ decodePort (0#44 ++ 1#1 ++ 5#3 ++ 6#16 ++ 0#8 ++ 0x3456780#28 ++ 0x2345670#28 ++ 0#12 ++ 0x20C#24 ++ 0x1234560#28 ++ 0#20 ++ 2#2 ++ 0x4D#24 ++ 3#3 ++ 1#1 ++ 1#1 ++ 0x15#5 ++ 0xFC#8) = .ok (.kvret ⟨21, 1, 1, 3, 77, 2, 0x1234560, 0x20C, 0x2345670, 0x3456780⟩ ⟨6, 5, 1⟩)
    ∧ decodePort (9#32 ++ 0#2 ++ 8#7 ++ 0x64#7 ++ 5#16 ++ 0#8 ++ 0x3456780#28 ++ 0x2345670#28 ++ 0#12 ++ 0x20C#24 ++ 0x1234560#28 ++ 0xABCDE#20 ++ 2#2 ++ 0x4D#24 ++ 3#3 ++ 1#1 ++ 1#1 ++ 0x15#5 ++ 0xFD#8) = .ok (.kvld ⟨21, 1, 1, 3, 77, 2, 0x1234560, 0x20C, 0x2345670, 0x3456780⟩ ⟨0xABCDE, 5, 0x64, 8, 9⟩)
    ∧ decodePort (0#16 ++ 9#16 ++ 0#2 ++ 8#7 ++ 0x64#7 ++ 5#16 ++ 0#8 ++ 0x3456780#28 ++ 0x2345670#28 ++ 0#12 ++ 0x20C#24 ++ 0x1234560#28 ++ 0#8 ++ 0x64#12 ++ 2#2 ++ 0x4D#24 ++ 3#3 ++ 1#1 ++ 1#1 ++ 0x15#5 ++ 0xFE#8) = .ok (.kvq ⟨21, 1, 1, 3, 77, 2, 0x1234560, 0x20C, 0x2345670, 0x3456780⟩ ⟨0x64, 5, 0x64, 8, 9⟩) := by
  refine ⟨?_, ?_, ?_, ?_, ?_⟩ <;> rfl

/-- Records written out from R23, R325 and R326. -/
theorem test_words_records_1 :
    decodeRecord (0#384 ++ 0x4444#16 ++ 0x3333#16 ++ 0x22222222#32 ++ 0x11111111#32 ++ 0#2 ++ 1#1 ++ 2#2 ++ 1#1 ++ 4#3 ++ 1#1 ++ 0x3E8#10 ++ 3#2 ++ 2#3 ++ 1#3 ++ 0#4) = .ok (.nop_record ⟨1, 2, 3, 1000, 1, 4, 1, 2, 1, 0x11111111, 0x22222222, 0x3333, 0x4444⟩)
    ∧ decodeRecord (0#32 ++ 0xDEADBEEF#32 ++ 0#8 ++ 0x123456#24 ++ 0#5 ++ 0x400#11 ++ 0x3FF#10 ++ 0x3F#6 ++ 0#16 ++ 0xF000000F#32 ++ 0x8421#16 ++ 0xC0000003#32 ++ 0x76543210#32 ++ 0#9 ++ 0x21#6 ++ 0x10#5 ++ 9#4 ++ 0x8000000001#40 ++ 0xF0#8 ++ 0#4 ++ 5#3 ++ 0x1234567#25 ++ 0x89ABCD#24 ++ 0x4444#16 ++ 0x3333#16 ++ 0x22222222#32 ++ 0x11111111#32 ++ 0#2 ++ 1#1 ++ 2#2 ++ 1#1 ++ 4#3 ++ 1#1 ++ 0x3E8#10 ++ 3#2 ++ 2#3 ++ 1#3 ++ 1#4) = .ok (.launch_record ⟨1, 2, 3, 1000, 1, 4, 1, 2, 1, 0x11111111, 0x22222222, 0x3333, 0x4444⟩ ⟨0x89ABCD, 0x1234567, 5, 0, 0xF0, 0x8000000001, 9, 0x10, 0x21, 0, 0x76543210, 0xC0000003, 0x8421, 0xF000000F, 0, 0x3F, 0x3FF, 0x400, 0, 0x123456, 0, 0xDEADBEEF, 0⟩)
    ∧ decodeRecord (0#64 ++ 0#58 ++ 0x3F#6 ++ 4#64 ++ 3#64 ++ 2#64 ++ 1#64 ++ 0x4444#16 ++ 0x3333#16 ++ 0x22222222#32 ++ 0x11111111#32 ++ 0#2 ++ 1#1 ++ 2#2 ++ 1#1 ++ 4#3 ++ 1#1 ++ 0x3E8#10 ++ 3#2 ++ 2#3 ++ 1#3 ++ 2#4) = .ok (.ferry_record ⟨1, 2, 3, 1000, 1, 4, 1, 2, 1, 0x11111111, 0x22222222, 0x3333, 0x4444⟩ ⟨1, 2, 3, 4, 0x3F⟩)
    ∧ decodeRecord (0#128 ++ 4#64 ++ 3#64 ++ 2#64 ++ 1#64 ++ 0x4444#16 ++ 0x3333#16 ++ 0x22222222#32 ++ 0x11111111#32 ++ 0#2 ++ 1#1 ++ 2#2 ++ 1#1 ++ 4#3 ++ 1#1 ++ 0x3E8#10 ++ 3#2 ++ 2#3 ++ 1#3 ++ 3#4) = .ok (.store_record ⟨1, 2, 3, 1000, 1, 4, 1, 2, 1, 0x11111111, 0x22222222, 0x3333, 0x4444⟩ ⟨1, 2, 3, 4⟩)
    ∧ decodeRecord (0#128 ++ 4#64 ++ 3#64 ++ 2#64 ++ 1#64 ++ 0x4444#16 ++ 0x3333#16 ++ 0x22222222#32 ++ 0x11111111#32 ++ 0#2 ++ 1#1 ++ 2#2 ++ 1#1 ++ 4#3 ++ 1#1 ++ 0x3E8#10 ++ 3#2 ++ 2#3 ++ 1#3 ++ 4#4) = .ok (.kv_record ⟨1, 2, 3, 1000, 1, 4, 1, 2, 1, 0x11111111, 0x22222222, 0x3333, 0x4444⟩ ⟨1, 2, 3, 4⟩)
    ∧ decodeRecord (0#384 ++ 0x4444#16 ++ 0x3333#16 ++ 0x22222222#32 ++ 0x11111111#32 ++ 0#2 ++ 1#1 ++ 2#2 ++ 1#1 ++ 4#3 ++ 1#1 ++ 0x3E8#10 ++ 3#2 ++ 2#3 ++ 1#3 ++ 5#4) = .ok (.wait_record ⟨1, 2, 3, 1000, 1, 4, 1, 2, 1, 0x11111111, 0x22222222, 0x3333, 0x4444⟩)
    ∧ decodeRecord (0#384 ++ 0x4444#16 ++ 0x3333#16 ++ 0x22222222#32 ++ 0x11111111#32 ++ 0#2 ++ 1#1 ++ 2#2 ++ 1#1 ++ 4#3 ++ 1#1 ++ 0x3E8#10 ++ 3#2 ++ 2#3 ++ 1#3 ++ 6#4) = .ok (.signal_record ⟨1, 2, 3, 1000, 1, 4, 1, 2, 1, 0x11111111, 0x22222222, 0x3333, 0x4444⟩)
    ∧ decodeRecord (0#256 ++ 0#40 ++ 0x654321#24 ++ 0x12345678#32 ++ 0#13 ++ 5#3 ++ 0xABCD#16 ++ 0x4444#16 ++ 0x3333#16 ++ 0x22222222#32 ++ 0x11111111#32 ++ 0#2 ++ 1#1 ++ 2#2 ++ 1#1 ++ 4#3 ++ 1#1 ++ 0x3E8#10 ++ 3#2 ++ 2#3 ++ 1#3 ++ 7#4) = .ok (.branch ⟨1, 2, 3, 1000, 1, 4, 1, 2, 1, 0x11111111, 0x22222222, 0x3333, 0x4444⟩ ⟨0xABCD, 5, 0x12345678, 0x654321⟩)
    ∧ decodeRecord (0#256 ++ 0#39 ++ 0x1ABCDEF#25 ++ 0#34 ++ 1#1 ++ 0#1 ++ 0x2345670#28 ++ 0x4444#16 ++ 0x3333#16 ++ 0x22222222#32 ++ 0x11111111#32 ++ 0#2 ++ 1#1 ++ 2#2 ++ 1#1 ++ 4#3 ++ 1#1 ++ 0x3E8#10 ++ 3#2 ++ 2#3 ++ 1#3 ++ 8#4) = .ok (.select ⟨1, 2, 3, 1000, 1, 4, 1, 2, 1, 0x11111111, 0x22222222, 0x3333, 0x4444⟩ ⟨0x2345670, 0, 1, 0x1ABCDEF⟩)
    ∧ decodeRecord (0#320 ++ 0#32 ++ 0x99#32 ++ 0x4444#16 ++ 0x3333#16 ++ 0x22222222#32 ++ 0x11111111#32 ++ 0#2 ++ 1#1 ++ 2#2 ++ 1#1 ++ 4#3 ++ 1#1 ++ 0x3E8#10 ++ 3#2 ++ 2#3 ++ 1#3 ++ 9#4) = .ok (.phase ⟨1, 2, 3, 1000, 1, 4, 1, 2, 1, 0x11111111, 0x22222222, 0x3333, 0x4444⟩ ⟨0x99⟩)
    ∧ decodeRecord (0#256 ++ 0#32 ++ 0x99#32 ++ 0#16 ++ 0x111111#24 ++ 0x222222#24 ++ 0x4444#16 ++ 0x3333#16 ++ 0x22222222#32 ++ 0x11111111#32 ++ 0#2 ++ 1#1 ++ 2#2 ++ 1#1 ++ 4#3 ++ 1#1 ++ 0x3E8#10 ++ 3#2 ++ 2#3 ++ 1#3 ++ 0xA#4) = .ok (.graph ⟨1, 2, 3, 1000, 1, 4, 1, 2, 1, 0x11111111, 0x22222222, 0x3333, 0x4444⟩ ⟨0x222222, 0x111111, 0x99⟩)
    ∧ decodeRecord (0#320 ++ 0x99#32 ++ 0#30 ++ 3#2 ++ 0x4444#16 ++ 0x3333#16 ++ 0x22222222#32 ++ 0x11111111#32 ++ 0#2 ++ 1#1 ++ 2#2 ++ 1#1 ++ 4#3 ++ 1#1 ++ 0x3E8#10 ++ 3#2 ++ 2#3 ++ 1#3 ++ 0xB#4) = .ok (.cancel ⟨1, 2, 3, 1000, 1, 4, 1, 2, 1, 0x11111111, 0x22222222, 0x3333, 0x4444⟩ ⟨3, 0x99⟩) := by
  refine ⟨?_, ?_, ?_, ?_, ?_, ?_, ?_, ?_, ?_, ?_, ?_, ?_⟩ <;> rfl

/-- Records written out from R23, R325 and R326. -/
theorem test_words_records_2 :
    decodeRecord (0#320 ++ 0#53 ++ 0x7FF#11 ++ 0x4444#16 ++ 0x3333#16 ++ 0x22222222#32 ++ 0x11111111#32 ++ 0#2 ++ 1#1 ++ 2#2 ++ 1#1 ++ 4#3 ++ 1#1 ++ 0x3E8#10 ++ 3#2 ++ 2#3 ++ 1#3 ++ 0xC#4) = .ok (.irq ⟨1, 2, 3, 1000, 1, 4, 1, 2, 1, 0x11111111, 0x22222222, 0x3333, 0x4444⟩ ⟨0x7FF⟩)
    ∧ decodeRecord (0#320 ++ 0#36 ++ 0x2345670#28 ++ 0x4444#16 ++ 0x3333#16 ++ 0x22222222#32 ++ 0x11111111#32 ++ 0#2 ++ 1#1 ++ 2#2 ++ 1#1 ++ 4#3 ++ 1#1 ++ 0x3E8#10 ++ 3#2 ++ 2#3 ++ 1#3 ++ 0xD#4) = .ok (.stamp_record ⟨1, 2, 3, 1000, 1, 4, 1, 2, 1, 0x11111111, 0x22222222, 0x3333, 0x4444⟩ ⟨0x2345670⟩)
    ∧ decodeRecord (0#192 ++ 0#20 ++ 0x1F4#16 ++ 0x2345670#28 ++ 0#40 ++ 0x333333#24 ++ 0#16 ++ 0x111111#24 ++ 0x222222#24 ++ 0x4444#16 ++ 0x3333#16 ++ 0x22222222#32 ++ 0x11111111#32 ++ 0#2 ++ 1#1 ++ 2#2 ++ 1#1 ++ 4#3 ++ 1#1 ++ 0x3E8#10 ++ 3#2 ++ 2#3 ++ 1#3 ++ 0xE#4) = .ok (.map ⟨1, 2, 3, 1000, 1, 4, 1, 2, 1, 0x11111111, 0x22222222, 0x3333, 0x4444⟩ ⟨0x222222, 0x111111, 0x333333, 0x2345670, 0x1F4⟩)
    ∧ decodeRecord (0#384 ++ 0x4444#16 ++ 0x3333#16 ++ 0x22222222#32 ++ 0x11111111#32 ++ 0#2 ++ 1#1 ++ 2#2 ++ 1#1 ++ 4#3 ++ 1#1 ++ 0x3E8#10 ++ 3#2 ++ 2#3 ++ 1#3 ++ 0xF#4) = .ok (.fence_record ⟨1, 2, 3, 1000, 1, 4, 1, 2, 1, 0x11111111, 0x22222222, 0x3333, 0x4444⟩) := by
  refine ⟨?_, ?_, ?_, ?_⟩ <;> rfl


/-! ## States for the tests -/

namespace Sys2Proof.Tests

/-- Core 0 in a crew that holds all of core 0. -/
def onCore : State := placeWork (.seq 0 false) id State.reset
/-- A change of core 0. -/
def withCore (f : Core → Core) : State := onCore.updCore 0 f
/-- A change of the program context of core 0. -/
def withProg (f : Ctx → Ctx) : State := withCore (fun k => { k with prog := f k.prog })
/-- Registers of the program context of core 0. -/
def withRegs (g : SMap Word) : State := withProg (fun x => { x with g := g })
/-- The firmware context of core 0, no launch running. -/
def onFw : State := { State.reset with focus := { fw := true } }
/-- The crew of core 0 at a crew cycle. -/
def atCycle (n : Nat) (s : State) : State := s.updCrew 0 (fun w => { w with clock := n })
/-- The firmware context of core 0, its crew frozen. -/
def onFrozen : State := { (onCore.updCrew 0 (fun w => { w with frozen := some 1 })) with focus := { fw := true } }
/-- A code line with these words behind its header, the last line of its chain. -/
def codeLine0 (body : Nat) : BitVec 512 := .ofNat 512 (body * 2 ^ 32 + 0x1FFFFFF)
/-- The program context of core 0 at word `k` of a line with these words. -/
def inLine (body k : Nat) (f : Ctx → Ctx) : State :=
  (placeLine 0 body (placeSeq 0 State.reset)).updCtx (fun x => f { x with word := k })
/-- `nop` with E 1 (R92: opcode 0x45). -/
def nopWord : Nat := 2 ^ 29 + 0x45 * 2 ^ 21
/-- A fetched line, from its value. -/
theorem line_ok {e : Except HwFault (BitVec 512)} {l : BitVec 512} (h : e.toOption = some l) : e = .ok l := by
  cases e <;> simp_all [Except.toOption]

/-! ## The hypotheses of the sequencer's statements are met -/

theorem wit_BundleEndEffect : ∃ (s : State) (l : BitVec 512), s.ctx.fault = none ∧ s.ctx.ctl = .none ∧ s.ctx.xfer = none
    ∧ fetchLine s s.focus.core s.ctx.obj s.ctx.line = .ok l ∧ lineEngine l = 0 ∧ lineKind l = 0 ∧ s.ctx.word ≤ 15
    ∧ lineWord l s.ctx.word ≠ 0 ∧ bundleStart l s.ctx.word = true :=
  ⟨inLine (nopWord + nopWord * 2 ^ 32) 2 (fun x => { x with words := 1 }), codeLine0 (nopWord + nopWord * 2 ^ 32),
    by decide +kernel, by decide +kernel, by decide +kernel, line_ok (by decide +kernel), by decide +kernel, by decide +kernel, by decide +kernel,
    by decide +kernel, by decide +kernel⟩

/-- A load or store at the last byte, halfword, word and doubleword of each memory of a context. -/
theorem wit_LoadsAndStores : (∃ (s : State) (a : Reg) (imm : BitVec 11) (x : Option (BitVec 29)), s.focus.fw = false
      ∧ (s.contextByte (s.addressOf a imm x)).isSome = true ∧ s.addressOf a imm x = 2 ^ 17 - 1)
    ∧ (∃ (s : State) (a : Reg) (imm : BitVec 11) (x : Option (BitVec 29)), (s.contextByte (s.addressOf a imm x)).isSome = true ∧ s.addressOf a imm x % 8 = 0
      ∧ s.addressOf a imm x = 2 ^ 17 - 8)
    ∧ (∃ (s : State) (a : Reg) (imm : BitVec 11) (x : Option (BitVec 29)), s.focus.fw = true ∧ (s.contextByte (s.addressOf a imm x)).isSome = true
      ∧ s.addressOf a imm x % 4 = 0 ∧ s.addressOf a imm x = 2 ^ 14 - 4)
    ∧ ∃ (s : State) (a : Reg) (imm : BitVec 11) (x : Option (BitVec 29)), s.focus.fw = true ∧ (s.contextByte (s.addressOf a imm x)).isSome = true
      ∧ s.addressOf a imm x % 2 = 0 ∧ s.addressOf a imm x = 2 ^ 31 + 2 ^ 17 - 2 :=
  ⟨⟨withRegs [(1, 0x20000)], 1, 0x7FF, none, by decide +kernel⟩, ⟨withRegs [(1, 0x20000)], 1, 0x7F8, none, by decide +kernel⟩,
    ⟨onFw, 0, 0x7FC, some 7, by decide +kernel⟩, ⟨onFw.updCtx (fun x => { x with g := [(1, 0x80020000)] }), 1, 0x7FE, none, by decide +kernel⟩⟩

theorem wit_StoreFrame : (∃ fw : Bool, fw = false) ∧ (∃ (fw : Bool) (ea : Nat), fw = true ∧ ea < 2 ^ 14)
    ∧ ∃ (fw : Bool) (ea : Nat), fw = true ∧ 2 ^ 31 ≤ ea :=
  ⟨⟨false, rfl⟩, ⟨true, 2 ^ 14 - 1, by decide⟩, ⟨true, 2 ^ 31, by decide⟩⟩

/-- Out of range beside each bound, and misaligned in range. -/
theorem wit_LoadStoreFaults : (∃ (s : State) (a : Reg) (imm : BitVec 11) (x : Option (BitVec 29)), s.contextByte (s.addressOf a imm x) = none
      ∧ ¬ s.inConst (s.addressOf a imm x) ∧ s.addressOf a imm x = 2 ^ 17)
    ∧ (∃ (s : State) (a : Reg) (imm : BitVec 11) (x : Option (BitVec 29)), s.contextByte (s.addressOf a imm x) = none ∧ s.inConst (s.addressOf a imm x))
    ∧ ∃ (s : State) (a : Reg) (imm : BitVec 11) (x : Option (BitVec 29)), (s.contextByte (s.addressOf a imm x)).isSome = true
      ∧ s.addressOf a imm x % 2 ≠ 0 ∧ s.addressOf a imm x % 4 ≠ 0 ∧ s.addressOf a imm x % 8 ≠ 0 :=
  ⟨⟨withRegs [(1, 0x20000)], 1, 0, none, by decide +kernel, fun h => absurd h.2 (by decide +kernel), by decide +kernel⟩,
    ⟨withRegs [(1, 0x100000000)], 1, 0, none, by decide +kernel, ⟨by decide +kernel, by decide +kernel⟩⟩, ⟨onCore, 0, 7, none, by decide +kernel⟩⟩

/-- The held line, a line that may not be read, and a line that is not held, at the first and the last doubleword of a line. -/
theorem wit_ConstantLineLoads :
    (∃ (s : State) (a : Reg) (o : Nat) (line : BitVec 512), s.focus.fw = false ∧ s.addressOf a 0 none = 2 ^ 32 + o ∧ o % 8 = 0 ∧ s.ctx.buf = some (o / 64, some line))
    ∧ (∃ (s : State) (a : Reg) (o : Nat), s.focus.fw = false ∧ s.addressOf a 0 none = 2 ^ 32 + o ∧ o % 8 = 0 ∧ s.ctx.buf = some (o / 64, none))
    ∧ ∃ (s : State) (a : Reg) (o : Nat), s.focus.fw = false ∧ s.addressOf a 0 none = 2 ^ 32 + o ∧ o % 8 = 0 ∧ s.ctx.buf.map (·.1) ≠ some (o / 64) :=
  ⟨⟨withProg (fun x => { x with g := [(1, 0x100000038)], buf := some (0, some 5) }), 1, 56, 5, by decide +kernel⟩,
    ⟨withProg (fun x => { x with g := [(1, 0x100000000)], buf := some (0, none) }), 1, 0, by decide +kernel⟩,
    ⟨withProg (fun x => { x with g := [(1, 0x100000040)], buf := some (0, none) }), 1, 64, by decide +kernel⟩⟩

/-- A target in range at both ends of a chain's numbers, and links in range. -/
theorem wit_Transfers :
    (∃ (s : State) (loff : BitVec 11), (0 : Int) ≤ s.ctx.line + (wideImm loff none).toInt ∧ s.ctx.line + (wideImm loff none).toInt < 2 ^ 25
      ∧ s.ctx.line + (wideImm loff none).toInt = 0)
    ∧ (∃ (s : State) (loff : BitVec 12) (x : Option (BitVec 29)), (0 : Int) ≤ s.ctx.line + (wideImm loff x).toInt
      ∧ s.ctx.line + (wideImm loff x).toInt = 2 ^ 25 - 1)
    ∧ (∃ (s : State) (a : Reg), (s.g a).toNat < 2 ^ 29) ∧ ∃ s : State, (s.g 31).toNat < 2 ^ 29 :=
  ⟨⟨withProg (fun x => { x with line := 1 }), 0x7FF, by decide +kernel⟩,
    ⟨onCore, 0xFFF, some 0x1FFF, by decide +kernel⟩,
    ⟨withRegs [(31, 0x1FFFFFFF)], 31, by decide +kernel⟩, ⟨withRegs [(31, 0x1FFFFFFF)], by decide +kernel⟩⟩

/-- The three links of a call: a word after it, a fill after it, and the line's end. -/
theorem wit_CallReturnLink : ∀ p ∈ [(nopWord + nopWord * 2 ^ 32, 1), (nopWord, 1), (nopWord * 2 ^ (32 * 14), 15)],
    let s := inLine p.1 p.2 id
    let l := codeLine0 p.1
    fetchLine s s.focus.core s.ctx.obj s.ctx.line = .ok l ∧ (lineWord l (s.ctx.word + 1 - 1)).getLsbD 29 = true ∧ s.ctx.word + 1 ≤ 16
      ∧ (0 : Int) ≤ s.ctx.line + (wideImm (0 : BitVec 11) none).toInt ∧ s.ctx.line + (wideImm (0 : BitVec 11) none).toInt < 2 ^ 25 := by
  intro p hp
  fin_cases hp <;> exact ⟨line_ok (by decide +kernel), by decide +kernel, by decide +kernel, by decide +kernel, by decide +kernel⟩

/-- A transfer to a bundle start, and one to a fill. -/
theorem wit_TransferTaken : ∀ word ∈ [1, 2],
    let s := inLine nopWord 2 (fun x => { x with xfer := some (0, word) })
    let l := codeLine0 nopWord
    s.ctx.fault = none ∧ s.ctx.ctl = .none ∧ s.ctx.xfer = some (0, word) ∧ s.ctx.stores = [] ∧ fetchLine s s.focus.core s.ctx.obj 0 = .ok l
      ∧ ((lineEngine l = 0 ∧ lineKind l = 0 ∧ bundleStart l word = true) ↔ word = 1) := by
  intro p hp
  fin_cases hp <;> exact ⟨by decide +kernel, by decide +kernel, by decide +kernel, by decide +kernel, line_ok (by decide +kernel), by decide +kernel⟩

/-- Each of the two contexts. -/
theorem wit_contexts : (∃ s : State, s.focus.fw = false) ∧ ∃ s : State, s.focus.fw = true := ⟨⟨onCore, rfl⟩, ⟨onFw, rfl⟩⟩

/-- `exit` with a write still in the longest shadow. -/
theorem wit_ExitLandsWrites : ∃ s : State, s.focus.fw = false ∧ s.ctx.fault = none ∧ s.ctx.ctl = .exit ∧ s.ctx.stores = []
    ∧ (∀ w ∈ s.ctx.pend, w.due ≤ s.ctx.bundles + 19) ∧ s.ctx.pend ≠ [] :=
  ⟨withProg (fun x => { x with ctl := .exit, pend := [⟨19, false, 3, 7⟩] }), by decide +kernel⟩

/-! ## Streams, clocks, flags, semaphores, registers, ports -/

/-- `arm` of a bank that the launch reserves, at the earliest start, the stream idle; and of a station whose old chain is still to start. -/
theorem wit_ArmStartsStream :
    (∃ (s : State) (a : Reg) (u : Nat), u = 0 ∧ s.focus.fw = false ∧ hasBank u s = true ∧ (s.fcore.stream u).active = false ∧ (s.fcore.stream u).base ≤ s.now0
      ∧ s.now0 < (s.g a).toNat % 2 ^ 48 ∧ (0 : Int) ≤ s.ctx.line + (wideImm (0 : BitVec 12) none).toInt)
    ∧ ∃ (s : State) (a : Reg) (u : Nat), u = 15 ∧ s.focus.fw = false ∧ (s.fcore.stream u).active = true ∧ s.now0 < (s.fcore.stream u).start
      ∧ s.now0 < (s.g a).toNat % 2 ^ 48 :=
  ⟨⟨atCycle 4 (withRegs [(1, 5)]), 1, 0, by decide +kernel⟩,
    ⟨(withRegs [(1, 5)]).updCore 0 (fun k => k.updStream 15 (fun t => { t with active := true, start := 1 })), 1, 15, by decide +kernel⟩⟩

/-- Each fault of `arm`. -/
theorem wit_ArmFaults : (∃ s : State, s.focus.fw = true ∧ s.frozen s.focus.core = false)
    ∧ (∃ (s : State) (u : Nat), s.focus.fw = false ∧ u = 7 ∧ hasBank u s = false)
    ∧ (∃ (s : State), s.focus.fw = false ∧ (s.fcore.stream 8).active = true ∧ (s.fcore.stream 8).start ≤ s.now0)
    ∧ (∃ (s : State), s.focus.fw = false ∧ (s.fcore.stream 8).active = false ∧ s.now0 < (s.fcore.stream 8).base)
    ∧ ∃ (s : State) (a : Reg), s.focus.fw = false ∧ (s.fcore.stream 8).active = false ∧ (s.fcore.stream 8).base ≤ s.now0 ∧ (s.g a).toNat % 2 ^ 48 = s.now0 :=
  ⟨⟨onFw, by decide +kernel⟩, ⟨State.reset, 7, by decide +kernel⟩,
    ⟨withCore (fun k => k.updStream 8 (fun t => { t with active := true })), by decide +kernel⟩,
    ⟨withCore (fun k => k.updStream 8 (fun t => { t with base := 1 })), by decide +kernel⟩,
    ⟨onCore, 0, by decide +kernel⟩⟩

theorem wit_DisarmStopsStream : ∃ s : State, s.focus.fw = false ∧ hasBank 7 s = true := ⟨onCore, by decide +kernel⟩

/-- `sync` to the present cycle and to the next one, and the firmware forms. -/
theorem wit_ClockWords : (∃ (s : State) (a : Reg), s.focus.fw = false ∧ (s.g a).toNat % 2 ^ 48 = s.now0)
    ∧ (∃ (s : State) (a : Reg), s.focus.fw = false ∧ (s.g a).toNat % 2 ^ 48 = s.now0 + 1)
    ∧ (∃ s : State, s.focus.fw = true ∧ s.still s.focus.core = true)
    ∧ ∃ s : State, s.focus.fw = true ∧ s.crewOf s.focus.core = none ∧ (s.g 0 + wideImm (0 : BitVec 11) none).toNat % 2 ^ 48 = 0 :=
  ⟨⟨onCore, 0, by decide +kernel⟩, ⟨withRegs [(1, 1)], 1, by decide +kernel⟩, ⟨onFrozen, by decide +kernel⟩, ⟨onFw, by decide +kernel⟩⟩

theorem wit_WaitsEnd : (∃ s : State, (s.core 0).prog.wait = .sync 0 ∧ 0 ≤ s.clock 0) ∧ (∃ s : State, (s.core 0).prog.wait = .sync 1 ∧ s.clock 0 < 1)
    ∧ (∃ s : State, (s.core 0).prog.wait = .idle (some 0) 3 ∧ (s.crewOf 0).isSome = true ∧ (s.core 0).hsemMoved = true)
    ∧ (∃ s : State, (s.core 0).prog.wait = .idle (some 0) 3 ∧ (s.crewOf 0).isSome = true ∧ (s.core 0).hsemMoved = false ∧ 0 ≤ s.clock 0)
    ∧ (∃ s : State, (s.core 0).prog.wait = .idle (some 1) 3 ∧ (s.crewOf 0).isSome = true ∧ (s.core 0).hsemMoved = false ∧ s.clock 0 < 1)
    ∧ (∃ s : State, (s.core 0).prog.wait = .fence 0 0 ∧ (s.core 0).pend = [] ∧ (s.core 0).hsemPend = [])
    ∧ ∃ (s : State) (p : Pend), (s.core 0).prog.wait = .fence 0 0 ∧ (s.core 0).pend = [p] ∧ p.eff = .setOf false 8 0 (Row.zero .i32) :=
  ⟨⟨withProg (fun x => { x with wait := .sync 0 }), by decide +kernel⟩, ⟨withProg (fun x => { x with wait := .sync 1 }), by decide +kernel⟩,
    ⟨withCore (fun k => { k with hsemMoved := true, prog := { wait := .idle (some 0) 3 } }), by decide +kernel⟩,
    ⟨withProg (fun x => { x with wait := .idle (some 0) 3 }), by decide +kernel⟩, ⟨withProg (fun x => { x with wait := .idle (some 1) 3 }), by decide +kernel⟩,
    ⟨withProg (fun x => { x with wait := .fence 0 0 }), by decide +kernel⟩,
    ⟨withCore (fun k => { k with pend := [⟨3, {}, .setOf false 8 0 (Row.zero .i32)⟩], prog := { wait := .fence 0 0 } }), _, by decide +kernel, rfl, rfl⟩⟩

/-- Each end of the waits of either context, and each wait that goes on. -/
theorem wit_WiderWaits :
    (∃ s : State, (s.core 0).fw.wait = .sync 5 ∧ s.clock 0 < 5 ∧ s.still 0 = true) ∧ (∃ s : State, (s.core 0).fw.wait = .sync 5 ∧ s.clock 0 = 5)
    ∧ (∃ s : State, (s.core 0).fw.wait = .sync 5 ∧ s.clock 0 < 5 ∧ s.still 0 = false)
    ∧ (∃ s : State, (s.core 0).prog.wait = .idle none 3 ∧ (s.crewOf 0).isSome = true ∧ (s.core 0).hsemMoved = true)
    ∧ (∀ limit ∈ [none, some 0, some 1], ∃ s : State, (s.core 0).fw.wait = .idle limit 0 ∧ (s.crewOf 0).isSome = true ∧ (s.core 0).fwMoved = false)
    ∧ (∃ s : State, (s.core 0).prog.wait = .fence 1 2 ∧ (s.core 0).pend = [] ∧ (∀ p ∈ s.cores, ∀ c ∈ p.2.hsemPend, c.src ≠ some (0, false)) ∧ s.cmds.find 2 = some { port := 0, word := 0, issuer := .ctx 0 false none }
        ∧ (∀ p ∈ s.cmds, p.1 < 2 → ∀ r, p.2.issuer ≠ .ctx 0 false r) ∧ (s.core 0).prog.unseen = [])
    ∧ (∃ (s : State) (c : HsemChange), (s.core 0).prog.wait = .fence 1 0 ∧ c ∈ (s.core 1).hsemPend ∧ c.src = some (0, false) ∧ (s.core 0).hsemPend = [])
    ∧ ∃ (s : State) (d : Nat × Nat), (s.core 0).fw.wait = .fence 2 0 ∧ d ∈ (s.core 0).fw.unseen ∧ scopeSel 2 d.2 = true ∧ ((s.cacheOf d.1).find d.2).any (·.dirty) = true :=
  ⟨⟨onFrozen.updCore 0 (fun k => { k with fw := { k.fw with wait := .sync 5 } }), by decide +kernel⟩,
    ⟨atCycle 5 (withCore (fun k => { k with fw := { k.fw with wait := .sync 5 } })), by decide +kernel⟩, ⟨withCore (fun k => { k with fw := { k.fw with wait := .sync 5 } }), by decide +kernel⟩,
    ⟨withCore (fun k => { k with hsemMoved := true, prog := { wait := .idle none 3 } }), by decide +kernel⟩,
    fun limit _ => ⟨withCore (fun k => { k with fw := { k.fw with wait := .idle limit 0 } }), rfl, rfl, rfl⟩,
    ⟨{ withProg (fun x => { x with wait := .fence 1 2 }) with cmds := [(2, { port := 0, word := 0, issuer := .ctx 0 false none })] }, rfl, by decide +kernel, by decide +kernel, by decide +kernel,
      fun p hp h => by simp only [List.mem_singleton] at hp; subst hp; exact absurd h (by decide), rfl⟩,
    ⟨(withProg (fun x => { x with wait := .fence 1 0 })).updCore 1 (fun k => { k with hsemPend := [⟨0, 3, 1, some (0, false)⟩] }), ⟨0, 3, 1, some (0, false)⟩, by decide +kernel⟩,
    ⟨{ withCore (fun k => { k with fw := { k.fw with wait := .fence 2 0, unseen := [(63, 5)] } }) with cache := [(63, [(5, ⟨1, true, 0, 0, 0, 0⟩)])] }, (63, 5), by decide +kernel⟩⟩

/-- A record of the greatest fields; the alarms' queue at the last place of a ring of 16, over the end of its count; and queues that are off, full, and of a ring out of range. -/
theorem wit_RecordsWritten : (1023 < 1024 ∧ (⟨255, 15, 0⟩ : HwFault).code < 256 ∧ (⟨255, 15, 0⟩ : HwFault).sub < 16 ∧ 2 ^ 48 - 1 < 2 ^ 48 ∧ (15 : Nat) < 16 ∧ [(1 : Word), 2, 3, 4, 5].length ≤ 5)
    ∧ (∃ s : State, let cfg := s.reg 0xD41
        cfg.getLsbD 5 = true ∧ fieldOf cfg 4 0 = 4 ∧ fieldOf (s.reg 0xD42) 31 0 = 2 ^ 32 - 1 ∧ fieldOf (s.reg 0xD43) 31 0 = 2 ^ 32 - 2 ∧ 64 * fieldOf (s.reg 0xD40) 39 0 + 64 * 15 + 64 ≤ lpddrEnd)
    ∧ ∀ cfg ∈ [(4 : Word), 32 + 3, 32 + 21, 32 + 4], ∃ s : State, let c := s.reg 0xD01
        c = cfg ∧ ¬ (c.getLsbD 5 = true ∧ 4 ≤ fieldOf c 4 0 ∧ fieldOf c 4 0 ≤ 20 ∧ (fieldOf (s.reg 0xD02) 31 0 + 2 ^ 32 - fieldOf (s.reg 0xD03) 31 0) % 2 ^ 32 ≠ 2 ^ fieldOf c 4 0) := by
  refine ⟨by decide, ⟨((State.reset.setReg 0xD41 36).setReg 0xD42 0xFFFFFFFF).setReg 0xD43 0xFFFFFFFE, by decide +kernel⟩, fun cfg h => ⟨(State.reset.setReg 0xD01 cfg).setReg 0xD02 16, ?_⟩⟩
  fin_cases h <;> decide +kernel

theorem wit_SetofAndFget : ∃ s : State, (s.crewOf s.focus.core).isSome = true := ⟨onCore, by decide +kernel⟩

/-- A member and a core that is none, and a semaphore in and outside the allotment. -/
theorem wit_SemaphoreWords : (∃ (s : State) (w : Crew), s.crewOf 0 = some w ∧ s.focus.core = 0 ∧ s.focus.fw = false ∧ w.allot.hsemMask.getLsbD 31 = true ∧ 0 ∈ w.members ∧ 39 ∉ w.members)
    ∧ ∃ (s : State) (w : Crew), s.crewOf 0 = some w ∧ s.focus.core = 0 ∧ s.focus.fw = false ∧ w.allot.hsemMask.getLsbD 0 = false :=
  ⟨⟨onCore, placedCrew (.seq 0 false), by decide +kernel⟩,
    ⟨onCore.updCrew 0 (fun w => { w with allot := { placedAllot with hsemMask := 0 } }), _, rfl, by decide +kernel⟩⟩

theorem wit_ControlRegisters : ∃ s : State, s.focus.fw = false ∧ s.focus.core < 320 ∧ s.focus.core = 319 := ⟨{ State.reset with focus := { core := 319 } }, by decide +kernel⟩

/-- CMD registers of a ferry `copy` from staging to staging, with and without HEN. -/
def copyCmd (hen : Nat) : SMap Word := [(0, .ofNat 64 (0xE0 + 2 * 2 ^ 8 + 2 * 2 ^ 11 + hen * 2 ^ 19 + 10 * 2 ^ 26))]

theorem wit_GoFullOrBad :
    (∃ (s : State) (p sub k : Nat), p = 0 ∧ goBad s s.focus.core p (s.ctx.command p) = some (sub, k))
    ∧ ∃ (s : State) (p : Nat), p = 0 ∧ goBad s s.focus.core p (s.ctx.command p) = none ∧ (s.ctx.command p).getLsbD 19 = true ∧ hasHsem (fieldOf (s.ctx.command p) 18 14) s = true
        ∧ 16 ≤ (buffered s s.focus.core p).length :=
  ⟨⟨withProg (fun x => { x with cmd := [(0, 0xFF)] }), 0, _, _, rfl, rfl⟩,
    ⟨{ withProg (fun x => { x with cmd := copyCmd 1 }) with cmds := (List.range 16).map (fun i => (i + 1, { port := 0, word := 0, issuer := .ctx 0 false none })) }, 0,
      by decide +kernel⟩⟩

theorem wit_GoAccepts : ∃ (s : State) (p : Nat), p = 0 ∧ s.insts = [] ∧ goBad s s.focus.core p (s.ctx.command p) = none ∧ (s.ctx.command p).getLsbD 19 = false
    ∧ (buffered s s.focus.core p).length < 16 ∧ SMap.find s.cmds s.nextId = none :=
  ⟨withProg (fun x => { x with cmd := copyCmd 0 }), 0, by decide +kernel⟩

/-- `mxq` of an `mnop`, with room in the queue and without. -/
theorem wit_MxqPushes : ∀ n ∈ [15, 16], ∃ (s : State) (a b : Reg) (i : Instr), decodeMatrix (s.g b ++ s.g a) = .ok i ∧ matrixOk i = true ∧ s.frozen s.focus.core = false
    ∧ (mxUses i).accs = [] ∧ (mxUses i).slots = [] ∧ (mxUses i).hsems = [] ∧ s.fcore.mx.queue.length = n := by
  intro n hn
  fin_cases hn
  · exact ⟨withCore (fun k => { k with prog := { g := [(1, 0xDB)] }, mx := { queue := List.replicate 15 ⟨0xDB, 0, {}, 0⟩ } }), 1, 0,
      .mnop ⟨0, 0, 0, 0, 0, 0, 0, 0⟩, rfl, by decide +kernel⟩
  · exact ⟨withCore (fun k => { k with prog := { g := [(1, 0xDB)] }, mx := { queue := List.replicate 16 ⟨0xDB, 0, {}, 0⟩ } }), 1, 0,
      .mnop ⟨0, 0, 0, 0, 0, 0, 0, 0⟩, rfl, by decide +kernel⟩

/-! ## The hypotheses of the statements about lanes, banks and stations are met -/

/-- Station 8 (VE 0) in focus, with these rows in its operand file. -/
def atStation (ofs : SMap Row) : State :=
  { withCore (fun k => { k with stns := [(8, { ofs := ofs })] }) with focus := { stn := 8 } }
/-- Bank 0 in focus, on core 0. -/
def atBank (f : Core → Core) : State := withCore f
/-- An entry from rows 0 and 1 of the operand file to row 2. -/
def filesEnt (ty : Fmt) : Ent := ⟨0, .ofr 2, .ofr 0, .ofr 1, ty, 0⟩

/-- A row upwards and one downwards, each at its last hop, around the end of its lane. -/
theorem wit_RowsTravel : (∃ r : LaneRow, r.pos < 16 ∧ r.lane = 7 ∧ r.presentAt 7 0 15 15 = true) ∧ ∃ r : LaneRow, r.pos < 16 ∧ r.lane = 8 ∧ r.presentAt 8 15 15 15 = true :=
  ⟨⟨⟨7, 1, 0, Row.zero .f32⟩, by decide⟩, ⟨⟨8, 14, 0, Row.zero .f32⟩, by decide⟩⟩

/-- A free lane and one taken, for a bank and a station, and puts beyond the limit of each. -/
theorem wit_PutsAndCollisions :
    (∀ u ∈ [0, 15], ∃ s : State, s.fcore.faulted = none ∧ s.fcore.uses.count (4 * u + 1) < (if u < 8 then 2 else 1) ∧ s.fcore.lanes = [])
    ∧ (∃ s : State, s.fcore.faulted = none ∧ s.fcore.uses.count 1 < 2 ∧ ∃ r ∈ s.fcore.lanes, r.lane = 3 ∧ r.at0 = s.now0 ∧ r.pos = 0)
    ∧ ∀ u ∈ [0, 15], ∃ s : State, s.fcore.faulted = none ∧ (if u < 8 then 2 else 1) ≤ s.fcore.uses.count (4 * u + 1) := by
  refine ⟨?_, ⟨withCore (fun k => { k with lanes := [⟨3, 0, 0, Row.zero .f32⟩] }), by decide +kernel, by decide +kernel, ⟨3, 0, 0, Row.zero .f32⟩, by decide +kernel⟩, ?_⟩
  · intro u hu
    fin_cases hu
    · exact ⟨onCore, by decide +kernel⟩
    · exact ⟨onCore, by decide +kernel⟩
  · intro u hu
    fin_cases hu
    · exact ⟨withCore (fun k => { k with uses := [1, 1] }), by decide +kernel⟩
    · exact ⟨withCore (fun k => { k with uses := [61] }), by decide +kernel⟩

/-- A row present at a station's position, and none. -/
theorem wit_SourceOperands : (∃ (s : State) (r : LaneRow), s.fcore.faulted = none ∧ s.fcore.uses.count (4 * s.focus.stn) < 2
      ∧ s.fcore.lanes.find? (fun r => r.presentAt 7 1 s.now0 15) = some r)
    ∧ ∃ s : State, s.fcore.faulted = none ∧ s.fcore.uses.count (4 * s.focus.stn) < 2 ∧ ∀ r ∈ s.fcore.lanes, r.presentAt 7 1 s.now0 15 = false :=
  ⟨⟨atCycle 1 ((atStation []).updCore 0 (fun k => { k with lanes := [⟨7, 0, 0, Row.zero .f32⟩] })), _, by decide +kernel, by decide +kernel, rfl⟩,
    ⟨atStation [], by decide +kernel⟩⟩

theorem wit_BankReads : ∃ (h : Ent) (la lb : BitVec 4), h.dst = .lane la ∧ h.sa = .lane lb := ⟨⟨0, .lane 1, .lane 15, .none, .f32, 0⟩, 1, 15, rfl, rfl⟩

/-- A write of a reserved bank from a lane with a row of its format, and one of a bank outside the allotment. -/
theorem wit_BankWrites : (∃ (s s1 : State) (h : Ent) (l : BitVec 4) (r : Row), h.sa = .lane l ∧ hasBank s.focus.stn s = true ∧ tapLane s.focus.stn l.toNat s = .ok (r, s1)
      ∧ r.tag = (s.fcore.bank s.focus.stn).fmt ∧ s1.fcore.bank s.focus.stn = s.fcore.bank s.focus.stn ∧ s1.focus = s.focus
      ∧ (s.fcore.bank s.focus.stn).fmt ≠ .cb4)
    ∧ ∃ (s : State) (h : Ent) (l : BitVec 4), h.sa = .lane l ∧ hasBank s.focus.stn s = false :=
  ⟨⟨atCycle 15 (atBank (fun k => { k with lanes := [⟨0, 1, 0, Row.zero .f32⟩] })), _, ⟨0, .none, .lane 0, .none, .f32, 0⟩, 0, Row.zero .f32, rfl, by decide +kernel, rfl,
      by decide +kernel, by decide +kernel, by decide +kernel, by decide +kernel⟩,
    ⟨State.reset, ⟨0, .none, .lane 0, .none, .f32, 0⟩, 0, rfl, by decide +kernel⟩⟩

theorem wit_BankFillFmtWait : ∃ (s : State) (h : Ent), h.sa = .none ∧ hasBank s.focus.stn s = true := ⟨onCore, ⟨0, .none, .none, .none, .f32, 0⟩, by decide +kernel⟩

theorem wit_FillsLand : ∃ (s : State) (bank : Nat), bank < 8 ∧ bank = 7 ∧ s.fcore.faulted = none ∧ s.fcore.uses.count (4 * bank + 2) = 0 := ⟨onCore, 7, by decide +kernel⟩

/-- Sound and poisoned operands. -/
theorem wit_ModeNopChk : ∀ p ∈ [(false, false), (true, false), (false, true)], ∃ (s : State) (h : Ent) (i j : BitVec 4), onFiles h i j ∧ (s.ofRow i.toNat).poison = p.1
    ∧ (s.ofRow j.toNat).poison = p.2 := by
  intro p _
  exact ⟨atStation [(0, ⟨0, .f32, p.1, 0⟩), (1, ⟨0, .f32, p.2, 0⟩)], filesEnt .f32, 0, 1, ⟨rfl, rfl⟩, rfl, rfl⟩

/-- A result after, at, and before the one that stands in LL. -/
theorem wit_ResultsLand : ∀ p ∈ [((4, 9), 0), ((5, 3), 3), ((5, 4), 3)], ∃ (s : State) (stn : Nat), 8 ≤ stn ∧ stn < 16 ∧ stn = 15 ∧ s.fcore.faulted = none
    ∧ s.fcore.uses.count (4 * stn + 2) = 0 ∧ (SMap.get ({} : Station) s.fcore.stns stn).llAt = p.1 ∧ s.now0 = 5 := by
  intro p hp
  fin_cases hp
  · exact ⟨atCycle 5 (withCore (fun k => { k with stns := [(15, { llAt := (4, 9) })] })), 15, by decide +kernel⟩
  · exact ⟨atCycle 5 (withCore (fun k => { k with stns := [(15, { llAt := (5, 3) })] })), 15, by decide +kernel⟩
  · exact ⟨atCycle 5 (withCore (fun k => { k with stns := [(15, { llAt := (5, 4) })] })), 15, by decide +kernel⟩

/-- Sources that read, with a function that gives a row, one that faults, and a `topk` that goes on. -/
theorem wit_StationEntries : ∃ (s s1 : State) (h : Ent) (a b : Src), readSources h s = .ok (a, b, s1) ∧ h.ty = .f32
    ∧ (∃ p, rowAddSub false h.ty s1.rnd a b = .ok p) ∧ (∃ f, rowBitwise (· &&& ·) .i32 s1.rnd a b = .error f) ∧ ∃ p, rowTopk 7 true s1.fcore.tb h.ty s1.rnd a b = .ok p :=
  ⟨atStation [], _, filesEnt .f32, _, _, rfl, rfl, ⟨_, rfl⟩, ⟨_, rfl⟩, ⟨_, rfl⟩⟩

/-- Rows of every integer format. -/
theorem wit_IntegerVectorValues : ∀ ty ∈ [Fmt.i32, .i16, .i8, .ui8], ∃ (s : State) (h : Ent) (i j : BitVec 4), onFiles h i j ∧ h.ty = ty ∧ fmtInt h.ty = true
    ∧ (s.ofRow i.toNat).tag = h.ty ∧ (s.ofRow j.toNat).tag = h.ty := by
  intro ty hty
  refine ⟨atStation [(0, Row.zero ty), (1, Row.zero ty)], filesEnt ty, 0, 1, ⟨rfl, rfl⟩, rfl, ?_, rfl, rfl⟩
  fin_cases hty <;> rfl

/-- Rows of the least and greatest plain formats, a UINT8 mask, and an INT32 row to add to. -/
theorem wit_BitsMasksAndMac : (∀ ty ∈ [Fmt.f32, .ui8], ∃ (s : State) (h : Ent) (i j m : BitVec 4), onFiles h i j ∧ h.ty = ty ∧ (s.ofRow i.toNat).tag = h.ty
      ∧ (s.ofRow j.toNat).tag = h.ty ∧ h.ty.code ≤ 8 ∧ (s.ofRow m.toNat).tag = .ui8)
    ∧ (∃ (s : State) (h : Ent) (i j m : BitVec 4), onFiles h i j ∧ (s.ofRow i.toNat).tag = h.ty ∧ (s.ofRow j.toNat).tag = h.ty ∧ h.ty = .i8 ∧ h.dst = .ofr m
      ∧ (s.ofRow m.toNat).tag = .i32) := by
  refine ⟨?_, atStation [(0, Row.zero .i8), (1, Row.zero .i8), (2, Row.zero .i32)], filesEnt .i8, 0, 1, 2, ⟨rfl, rfl⟩, rfl, rfl, rfl, rfl, rfl⟩
  intro ty hty
  refine ⟨atStation [(0, Row.zero ty), (1, Row.zero ty), (3, Row.zero .ui8)], filesEnt ty, 0, 1, 3, ⟨rfl, rfl⟩, rfl, rfl, rfl, ?_, rfl⟩
  fin_cases hty <;> decide

/-- Index bytes, a last element, and two rows seen as a square of bytes. -/
theorem wit_Permutations : ∃ (s : State) (h : Ent) (i j j' : BitVec 4), onFiles h i j ∧ h.ty.code ≤ 8 ∧ (s.ofRow i.toNat).tag = h.ty ∧ (s.ofRow j.toNat).tag = h.ty
    ∧ (s.ofRow j'.toNat).tag = .ui8 ∧ (127 : BitVec 8).toNat < 1024 / fmtBits h.ty ∧ (128 : BitVec 9).toNat ≤ 1024 / fmtBits h.ty
    ∧ 2 ^ (4 : BitVec 4).toNat * 16 = 2 * (1024 / fmtBits h.ty) :=
  ⟨atStation [(0, Row.zero .i8), (1, Row.zero .i8), (3, Row.zero .ui8)], filesEnt .i8, 0, 1, 3, ⟨rfl, rfl⟩, by decide, rfl, rfl, rfl, by decide, by decide, by decide⟩

/-- An entry with one operand-file row. -/
def fileEnt (ty : Fmt) : Ent := ⟨0, .ofr 2, .ofr 0, .none, ty, 0⟩

theorem wit_IntegerReductions : (∃ (s : State) (h : Ent) (i : BitVec 4), onFile h i ∧ h.ty = .i32 ∧ fmtInt (s.ofRow i.toNat).tag = true ∧ (s.ofRow i.toNat).tag = .ui8)
    ∧ ∃ (s : State) (h : Ent) (i : BitVec 4), onFile h i ∧ fmtInt h.ty = true ∧ (s.ofRow i.toNat).tag = h.ty :=
  ⟨⟨atStation [(0, Row.zero .ui8)], fileEnt .i32, 0, ⟨rfl, rfl⟩, rfl, rfl, rfl⟩, ⟨atStation [(0, Row.zero .i16)], fileEnt .i16, 0, ⟨rfl, rfl⟩, rfl, rfl⟩⟩

theorem wit_ScansAndCompactions : (∃ (s : State) (h : Ent) (i j : BitVec 4), onFiles h i j ∧ h.ty = .i32 ∧ fmtInt (s.ofRow i.toNat).tag = true ∧ (s.ofRow j.toNat).tag = .i32)
    ∧ ∃ (s : State) (h : Ent) (i j : BitVec 4), onFiles h i j ∧ h.ty.code ≤ 8 ∧ (s.ofRow i.toNat).tag = h.ty ∧ (s.ofRow j.toNat).tag = .ui8 :=
  ⟨⟨atStation [(0, Row.zero .ui8), (1, Row.zero .i32)], filesEnt .i32, 0, 1, ⟨rfl, rfl⟩, rfl, rfl, rfl⟩,
    ⟨atStation [(0, Row.zero .i16), (1, Row.zero .ui8)], filesEnt .i16, 0, 1, ⟨rfl, rfl⟩, by decide, rfl, rfl⟩⟩

/-- An integer row and one of floating-point elements. -/
theorem wit_UnaryEntries : ∀ p ∈ [(Fmt.i8, true), (.f32, false)], ∃ (s : State) (h : Ent) (i : BitVec 4), onFile h i ∧ h.ty.code ≤ 8 ∧ (s.ofRow i.toNat).tag = h.ty ∧ h.ty = p.1 ∧ fmtInt h.ty = p.2
    ∧ (31 : BitVec 8).toNat < 1024 / fmtBits h.ty := by
  intro p hp
  refine ⟨atStation [(0, Row.zero p.1)], fileEnt p.1, 0, ⟨rfl, rfl⟩, ?_⟩
  fin_cases hp <;> decide +kernel

theorem wit_FloatExactFacts : (∃ (s : State) (h : Ent) (i : BitVec 4), onFile h i ∧ h.ty = .f32 ∧ s.ofRow i.toNat = Row.zero .f32 ∧ s.rnd.mode ≠ .sr)
    ∧ ∃ (s : State) (h : Ent) (i : BitVec 4), onFile h i ∧ h.ty = .f32 ∧ (s.ofRow i.toNat).tag = .bf32 :=
  ⟨⟨atStation [], fileEnt .f32, 0, ⟨rfl, rfl⟩, rfl, rfl, by decide +kernel⟩, ⟨atStation [(0, Row.zero .bf32)], fileEnt .f32, 0, ⟨rfl, rfl⟩, rfl, rfl⟩⟩

/-- Each form of landing: a bank write that is whole, of some elements and of some bytes; a result later than the one in LL, and one for a free lane. -/
theorem wit_ScheduledLandings :
    (∀ w ∈ [(⟨.i8, 0, 128, Row.zero .i8, none⟩ : Prep), ⟨.i8, 3, 4, Row.zero .i8, none⟩, ⟨.i8, 0, 128, Row.zero .i8, some 5⟩], ∃ (s : State) (bank : Nat), s.fcore.faulted = none ∧ bank < 8
      ∧ s.fcore.uses.count (4 * bank + 2) = 0 ∧ w.fmt.code ≤ 8 ∧ w.new.tag = w.fmt ∧ ((w.cnt = fmtElems w.fmt ∧ w.mask = none) ∨ (w.mask = none ∧ w.cnt < fmtElems w.fmt ∧ w.at0 + w.cnt ≤ fmtElems w.fmt)
        ∨ (w.mask = some 5 ∧ w.cnt = fmtElems w.fmt)))
    ∧ ∃ (s : State) (u : Nat) (l : BitVec 4), s.fcore.faulted = none ∧ 8 ≤ u ∧ u < 16 ∧ s.fcore.uses.count (4 * u + 1) = 0 ∧ (SMap.get ({} : Station) s.fcore.stns u).llAt.1 < s.now0
      ∧ (∃ r ∈ s.fcore.lanes, r.lane = l.toNat) ∧ ∀ r ∈ s.fcore.lanes, ¬ (r.lane = l.toNat ∧ ((r.at0 = s.now0 ∧ r.pos = 2 * (u - 8) + 1) ∨ r.presentAt l.toNat (2 * (u - 8) + 1) s.now0 14 = true)) := by
  refine ⟨fun w hw => ⟨onCore, 7, ?_⟩, atCycle 9 (withCore (fun k => { k with lanes := [⟨3, 0, 0, Row.zero .f32⟩] })), 15, 3, by decide +kernel⟩
  fin_cases hw <;> decide +kernel

theorem wit_FlagsOfMasks : ∀ p ∈ [false, true], ∃ (s : State) (h : Ent) (i : BitVec 4) (count : BitVec 8), h.sa = .ofr i ∧ h.sb = .none ∧ (s.ofRow i.toNat).tag = .ui8
    ∧ count.toNat + 1 ≤ 128 ∧ count = 127 ∧ (s.ofRow i.toNat).poison = p := by
  intro p _
  exact ⟨atStation [(0, ⟨0, .ui8, p, 0⟩)], ⟨0, .ofr 2, .ofr 0, .none, .ui8, 0⟩, 0, 127, rfl, rfl, rfl, by decide, rfl, rfl⟩

/-! ## The kiln tier -/

/-- Kiln array 15 of core 0 as said, station 11 (XB) in focus with these operand files. -/
def atKiln (k : Kiln) (ofs : SMap Row) : State :=
  { withCore (fun c => { c with stns := [(11, { ofs := ofs })] }) with kilns := [(15, k)], focus := { stn := 11 } }
/-- Four rows of INT8 inputs. -/
def kilnInputs : SMap Row := [(0, Row.zero .i8), (1, Row.zero .i8), (2, Row.zero .i8), (3, Row.zero .i8)]

/-- A fired array with its readings due, one whose parameters are numbers, and one that never was fired. -/
theorem wit_ConvertedValues : (∃ (s : State) (h : Ent) (arr i : BitVec 4), hasKiln arr.toNat s = true ∧ (s.kiln s.focus.core arr.toNat).st = .fired ∧ SMap.get 0 s.fcore.xbWin arr.toNat ≤ s.now0
      ∧ h.sa = .ofr i ∧ (∀ m, m < 4 → (SMap.get (Row.zero .f32) (SMap.get ({} : Station) s.fcore.stns s.focus.stn).ofs (i.toNat + m)).tag = .i8)
      ∧ (∀ j, j < 64 → ∃ m ex, (s.kiln s.focus.core arr.toNat).betaVal j = .fin false m ex) ∧ (fp32.decode ((s.kiln s.focus.core arr.toNat).rowBound 0 0 0)).isFin = true)
    ∧ ∃ (s : State) (arr : BitVec 4), hasKiln arr.toNat s = true ∧ (s.kiln s.focus.core arr.toNat).st = .unfired :=
  ⟨⟨atKiln { st := .fired } kilnInputs, ⟨0, .ofr 8, .ofr 0, .none, .i8, 0⟩, 15, 0, by decide +kernel, rfl, by decide +kernel, rfl, by decide +kernel, fun j _ => ⟨0, -149, by show fp32.decode 0 = _; decide +kernel⟩, by decide +kernel⟩,
    atKiln { st := .unfired } [], 15, by decide +kernel, rfl⟩

theorem wit_KilnEntries : ∃ (s : State) (h : Ent) (arr i : BitVec 4), hasKiln arr.toNat s = true ∧ (s.kiln s.focus.core arr.toNat).st = .fired
    ∧ SMap.get 0 s.fcore.xbWin arr.toNat ≤ s.now0 ∧ h.sa = .ofr i
    ∧ (∀ m, m < 4 → (SMap.get (Row.zero .f32) (SMap.get ({} : Station) s.fcore.stns s.focus.stn).ofs (i.toNat + m)).tag = .i8) :=
  ⟨atKiln { st := .fired } kilnInputs, ⟨0, .ofr 8, .ofr 0, .none, .i8, 0⟩, 15, 0, by decide +kernel, rfl, by decide +kernel, rfl, by decide +kernel⟩

/-- Weights of 0 and of −8, an array that fires, one whose count of firings has room, and one at the limit. -/
theorem wit_DepositsAndFirings :
    (∃ (s : State) (h : Ent) (arr i : BitVec 4) (hs : BitVec 5), hasKiln arr.toNat s = true ∧ h.sa = .ofr i ∧ (s.ofRow i.toNat).tag = .i8
      ∧ (∀ e, e < 128 → -7 ≤ (s.ofRow i.toNat).intAt e ∧ (s.ofRow i.toNat).intAt e ≤ 7) ∧ hasHsem hs.toNat s = true ∧ (s.kiln s.focus.core arr.toNat).st ≠ .firing
      ∧ SMap.get 0 s.fcore.xbWin arr.toNat ≤ s.now0 ∧ (s.kiln s.focus.core arr.toNat).pcount < 10 ^ 6)
    ∧ (∃ (s : State) (h : Ent) (arr i : BitVec 4), hasKiln arr.toNat s = true ∧ h.sa = .ofr i ∧ (s.ofRow i.toNat).tag = .i8 ∧ (s.kiln s.focus.core arr.toNat).st ≠ .firing
      ∧ ∃ e, e < 128 ∧ ¬ (-7 ≤ (s.ofRow i.toNat).intAt e ∧ (s.ofRow i.toNat).intAt e ≤ 7))
    ∧ (∃ (s : State) (arr : BitVec 4), hasKiln arr.toNat s = true ∧ (s.kiln s.focus.core arr.toNat).st = .firing)
    ∧ ∃ (s : State) (arr : BitVec 4) (hs : BitVec 5), hasKiln arr.toNat s = true ∧ hasHsem hs.toNat s = true ∧ (s.kiln s.focus.core arr.toNat).st ≠ .firing
      ∧ SMap.get 0 s.fcore.xbWin arr.toNat ≤ s.now0 ∧ (s.kiln s.focus.core arr.toNat).pcount = 10 ^ 6 :=
  ⟨⟨atKiln { pcount := 999999 } kilnInputs, ⟨0, .ofr 8, .ofr 0, .none, .i8, 0⟩, 15, 0, 31, by decide +kernel, rfl, rfl, by decide +kernel, by decide +kernel, by decide +kernel,
      by decide +kernel, by decide +kernel⟩,
    ⟨atKiln {} [(0, ⟨0xF8, .i8, false, 0⟩)], ⟨0, .ofr 8, .ofr 0, .none, .i8, 0⟩, 15, 0, by decide +kernel, rfl, rfl, by decide +kernel, 0, by decide +kernel⟩,
    ⟨atKiln { st := .firing } [], 15, by decide +kernel⟩, ⟨atKiln { pcount := 10 ^ 6 } [], 15, 31, by decide +kernel⟩⟩

/-- A bound of exactly one output LSB. -/
theorem wit_ReadingsWithinBound : ∃ (bound m : Nat) (neg : Bool) (e : Int), fp32.decode bound = .fin neg m e ∧ (Val.ratio m e).2 ≤ (Val.ratio m e).1
    ∧ (Val.ratio m e).2 = (Val.ratio m e).1 := ⟨0x3F800000, _, _, _, rfl, by decide, by decide⟩

/-- Each state of an array, and an array outside the allotment. -/
theorem wit_KilnRefusals : (∀ st ∈ [KilnSt.unfired, .firing], ∃ (s : State) (arr : BitVec 4), hasKiln arr.toNat s = true ∧ (s.kiln s.focus.core arr.toNat).st = st)
    ∧ (∃ (s : State) (arr : BitVec 4), hasKiln arr.toNat s = true ∧ (s.kiln s.focus.core arr.toNat).st = .due ∧ s.now0 < SMap.get 0 s.fcore.xbWin arr.toNat)
    ∧ (∀ st ∈ [KilnSt.due, .recal], ∃ (s : State) (arr : BitVec 4), hasKiln arr.toNat s = true ∧ (s.kiln s.focus.core arr.toNat).st = st
      ∧ SMap.get 0 s.fcore.xbWin arr.toNat ≤ s.now0)
    ∧ ∃ (s : State) (arr : BitVec 4), hasKiln arr.toNat s = false := by
  refine ⟨?_, ⟨(atKiln { st := .due } []).updCore 0 (fun k => { k with xbWin := [(15, 1)] }), 15, by decide +kernel⟩, ?_, ⟨State.reset, 15, by decide +kernel⟩⟩
  · intro st _
    exact ⟨atKiln { st := st } [], 15, rfl, rfl⟩
  · intro st _
    exact ⟨atKiln { st := st } [], 15, rfl, rfl, Nat.le_refl 0⟩

theorem wit_KilnHappenings :
    (∃ (s : State), (s.kiln 0 15).wantCal = true ∧ (s.kiln 0 15).st = .due ∧ SMap.get 0 (s.core 0).xbWin 15 ≤ s.clock 0)
    ∧ (∃ s : State, (s.kiln 0 15).st = .recal) ∧ (∃ s : State, (s.kiln 0 15).st = .firing ∧ (s.kiln 0 15).firing = some (0, 31, 0) ∧ ∃ w, s.crewOf 0 = some w ∧ w.record = 0)
    ∧ (∃ (s : State) (t : Int), (s.kiln 0 15).st = .fired ∧ 240 < (t - (s.kiln 0 15).tCal).natAbs ∧ t = -241)
    ∧ (∃ (s : State) (t : Int), ¬ ((s.kiln 0 15).st = .fired ∧ 240 < (t - (s.kiln 0 15).tCal).natAbs) ∧ t = 240) ∧ ∃ s : State, (s.kiln 0 15).breach = true :=
  ⟨⟨atKiln { wantCal := true, st := .due } [], by decide +kernel⟩, ⟨atKiln { st := .recal } [], rfl⟩,
    ⟨atKiln { st := .firing, firing := some (0, 31, 0) } [], rfl, rfl, _, rfl, rfl⟩, ⟨atKiln { st := .fired } [], -241, by decide +kernel⟩,
    ⟨atKiln { st := .fired } [], 240, by decide +kernel⟩, ⟨atKiln { breach := true } [], rfl⟩⟩

/-! ## The hypotheses of the statements about the ferry port and the matrix engine are met -/

/-- Station 14 (FR) of core 0 in focus, with these queues. -/
def atFr (f : Fr) (ofs : SMap Row) : State :=
  { withCore (fun c => { c with fr := f, stns := [(14, { ofs := ofs })] }) with focus := { stn := 14 } }

theorem wit_FerryPort :
    (∃ (s : State) (h : Ent) (i : BitVec 4) (n : Nat), n = 7 ∧ h.sa = .ofr i ∧ (s.ofRow i.toNat).poison = false ∧ ((SMap.get [] s.fcore.fr.oq n).filter OqItem.isRow).length = 127)
    ∧ (∃ (s : State) (h : Ent) (i : BitVec 4), h.sa = .ofr i ∧ (s.ofRow i.toNat).poison = true)
    ∧ (∃ (s : State) (h : Ent) (i : BitVec 4) (n : Nat), h.sa = .ofr i ∧ (s.ofRow i.toNat).poison = false ∧ ((SMap.get [] s.fcore.fr.oq n).filter OqItem.isRow).length = 128)
    ∧ (∃ (s : State) (n : Nat), SMap.get [] s.fcore.fr.iq n = []) ∧ (∃ (s : State) (n : Nat) (r : Row) (rs : List Row), SMap.get [] s.fcore.fr.iq n = r :: rs)
    ∧ (∃ (s : State) (n : Nat), (s.fcore.fr.exps.filter (fun e => e.q == n)).length = 3) ∧ (∃ (s : State) (n : Nat), (s.fcore.fr.exps.filter (fun e => e.q == n)).length = 4)
    ∧ (∃ (s : State) (hs : BitVec 5) (n : Nat) (r : Row) (rest : List OqItem), hasHsem hs.toNat s = true ∧ SMap.get [] s.fcore.fr.oq n = .row r :: rest)
    ∧ (∃ (s : State) (hs : BitVec 5) (n : Nat), hasHsem hs.toNat s = true ∧ SMap.get [] s.fcore.fr.oq n = [] ∧ boundBusy s s.focus.core n = false)
    ∧ (∃ (s : State) (hs : BitVec 5), hasHsem hs.toNat s = false) ∧ ∃ (s : State) (core m : Nat) (r : Row) (rs : List Row), SMap.get [] (s.core core).fr.fly m = r :: rs :=
  ⟨⟨atFr { oq := [(7, List.replicate 127 (.row (Row.zero .i8)))] } [], filesEnt .i8, 0, 7, rfl, rfl, rfl, by decide +kernel⟩,
    ⟨atFr {} [(0, ⟨0, .i8, true, 0⟩)], filesEnt .i8, 0, rfl, rfl⟩,
    ⟨atFr { oq := [(7, List.replicate 128 (.row (Row.zero .i8)))] } [], filesEnt .i8, 0, 7, rfl, rfl, by decide +kernel⟩,
    ⟨atFr {} [], 7, rfl⟩, ⟨atFr { iq := [(7, [Row.zero .i8])] } [], 7, _, _, rfl⟩, ⟨atFr { exps := List.replicate 3 ⟨7, 1, 9⟩ } [], 7, rfl⟩,
    ⟨atFr { exps := List.replicate 4 ⟨7, 1, 9⟩ } [], 7, rfl⟩, ⟨atFr { oq := [(7, [.row (Row.zero .i8)])] } [], 31, 7, _, _, by decide +kernel, rfl⟩,
    ⟨atFr {} [], 31, 7, by decide +kernel⟩, ⟨State.reset, 31, by decide +kernel⟩, ⟨atFr { fly := [(7, [Row.zero .i8])] } [], 0, 7, _, _, rfl⟩⟩

/-- Exact and bounded rows, in and outside the allotment. -/
theorem wit_MatrixFeeder : (∀ f ∈ [Fmt.f32, .i32, .i8, .bf32], ∃ (s : State) (h : Ent) (i : BitVec 4), s.frozen s.focus.core = false ∧ h.sa = .ofr i ∧ (s.ofRow i.toNat).tag = f
      ∧ (∃ p, readOpnd h.sa h.imm s = .ok p) ∧ hasSlot 31 s = true ∧ hasAcc 3 s = true) ∧ fmtBounded .bf32 = true ∧ fmtBounded .i8 = false
    ∧ ∃ (s : State) (h : Ent) (i : BitVec 4), s.frozen s.focus.core = false ∧ h.sa = .ofr i ∧ hasSlot 31 s = false ∧ hasAcc 3 s = false ∧ ∃ s : State, s.frozen s.focus.core = true := by
  refine ⟨?_, rfl, rfl, State.reset, filesEnt .i8, 0, by decide +kernel, rfl, by decide +kernel, by decide +kernel, onFrozen, by decide +kernel⟩
  intro f _
  exact ⟨atStation [(0, Row.zero f)], filesEnt .i8, 0, rfl, rfl, rfl, ⟨_, rfl⟩, rfl, rfl⟩

/-- The matrix engine of core 0. -/
def atMx (m : Mx) : State := { withCore (fun c => { c with mx := m }) with focus := { stn := 8 } }
/-- A command header without wait and signal. -/
def bareHdr : MxHdr := ⟨0, 0, 0, 0, 0, 0, 0, 0⟩

/-- A wait that does not hold, one that does, slots claimed and free, scales, and a `msig` at a member and at none. -/
theorem wit_MatrixCommands :
    (∃ (s : State) (h : MxHdr), h.wen = 1 ∧ h.wop = 0 ∧ (s.fcore.h h.wsem.toNat).toNat < h.wval.toNat)
    ∧ (∃ (s : State) (h : MxHdr), h.wen = 1 ∧ h.wop = 0 ∧ h.wval.toNat = (s.fcore.h h.wsem.toNat).toNat ∧ h.wval = 1)
    ∧ (∃ (s : State) (h : MxHdr) (mask : BitVec 32), h.wen = 0 ∧ mask.getLsbD 31 = true ∧ ∀ n, n < 32 ∧ mask.getLsbD n = true → (SMap.get ({} : Slot) s.fcore.mx.slots n).claimed = false)
    ∧ (∃ (s : State) (h : MxHdr) (mask : BitVec 32), h.wen = 0 ∧ mask.getLsbD 31 = true ∧ ∀ n, n < 32 ∧ mask.getLsbD n = true → (SMap.get ({} : Slot) s.fcore.mx.slots n).claimed = true)
    ∧ (∃ (s : State) (h : MxHdr) (src dst : BitVec 5), h.wen = 0 ∧ (SMap.get ({} : Slot) s.fcore.mx.slots src.toNat).claimed = true
      ∧ (SMap.get ({} : Slot) s.fcore.mx.slots dst.toNat).claimed = true
      ∧ ∃ f ∈ [Fmt.e4m3, .e5m2, .i8, .ui8], ∀ r, r < 128 → SMap.get (Row.zero .f32) (SMap.get ({} : Slot) s.fcore.mx.slots src.toNat).rows r = Row.zero .f32
          ∨ (SMap.get (Row.zero .f32) (SMap.get ({} : Slot) s.fcore.mx.slots src.toNat).rows r).tag = f)
    ∧ (∃ (s : State) (h : MxHdr) (dst : BitVec 5) (row0 : BitVec 7) (mof : BitVec 4), h.wen = 0 ∧ (SMap.get ({} : Slot) s.fcore.mx.slots dst.toNat).claimed = true
      ∧ (SMap.get (Row.zero .f32) (SMap.get ({} : Station) s.fcore.stns 8).ofs mof.toNat).tag = .ui8
      ∧ ∀ r, r < 128 / 8 → [Fmt.mxf4].contains (SMap.get (Row.zero .f32) (SMap.get ({} : Slot) s.fcore.mx.slots dst.toNat).rows (row0.toNat + r)).tag = true)
    ∧ ∃ (s : State) (h : MxHdr) (crew : Crew), h.wen = 0 ∧ s.crewOf s.focus.core = some crew ∧ s.focus.core / 40 * 40 + 0 ∈ crew.members ∧ s.focus.core / 40 * 40 + 39 ∉ crew.members := by
  refine ⟨⟨atMx {}, ⟨0, 1, 0, 0, 1, 0, 0, 0⟩, by decide +kernel⟩, ⟨withCore (fun c => { c with hsem := [(0, 1)] }), ⟨0, 1, 0, 0, 1, 0, 0, 0⟩, by decide +kernel⟩,
    ⟨atMx {}, bareHdr, 0x80000000, rfl, by decide, fun n _ => rfl⟩, ⟨atMx { slots := [(31, { claimed := true })] }, bareHdr, 0x80000000, rfl, by decide, ?_⟩,
    ⟨atMx { slots := [(0, { claimed := true }), (31, { claimed := true, rows := [(127, Row.zero .i8)] })] }, bareHdr, 31, 0, rfl, rfl, rfl, .i8, by decide, by decide +kernel⟩,
    ⟨{ atMx { slots := [(31, { claimed := true, rows := (List.range 16).map (fun i => (i, Row.zero .mxf4)) })] } with
        cores := SMap.put [] 0 { ((atMx { slots := [(31, { claimed := true, rows := (List.range 16).map (fun i => (i, Row.zero .mxf4)) })] }).core 0) with
          stns := [(8, { ofs := [(15, Row.zero .ui8)] })] } }, bareHdr, 31, 0, 15, rfl, rfl, rfl, by decide +kernel⟩,
    ⟨onCore, bareHdr, _, rfl, rfl, by decide +kernel⟩⟩
  rintro n ⟨hn, hm⟩
  interval_cases n <;> first | rfl | (exact absurd hm (by decide))

/-- A dense INT8 multiply of one row and one column, and a sparse one whose indices rise, accumulators of both kinds. -/
theorem wit_Multiplies : ∃ (s : State) (h : MxHdr) (slot : BitVec 5) (n : BitVec 7) (k : BitVec 9) (mof : BitVec 4) (a : Row), h.wen = 0
    ∧ (SMap.get ({} : Slot) s.fcore.mx.slots slot.toNat).claimed = true ∧ n = 1
    ∧ (∀ i, i < 1 → SMap.get (Row.zero .f32) (SMap.get ({} : Slot) s.fcore.mx.slots slot.toNat).rows i = Row.zero .f32
        ∨ (SMap.get (Row.zero .f32) (SMap.get ({} : Slot) s.fcore.mx.slots slot.toNat).rows i).tag ∈ [Fmt.i8, .ui8])
    ∧ s.fcore.mx.aRow = some (s.now0, a) ∧ a.tag ∈ [Fmt.i8, .ui8] ∧ s.fcore.accTypeDue 0 = true
    ∧ (SMap.get (Row.zero .f32) (SMap.get ({} : Station) s.fcore.stns 8).ofs mof.toNat).tag = .ui8 ∧ k = 4
    ∧ (groupIdx (SMap.get (Row.zero .f32) (SMap.get ({} : Station) s.fcore.stns 8).ofs mof.toNat).data.toNat 0 4).Pairwise (· < ·) :=
  ⟨{ withCore (fun c => { c with
        mx := { slots := [(31, { claimed := true, rows := [(0, Row.zero .i8)] })], accs := [(0, { isInt := true })], aRow := some (0, Row.zero .ui8) },
        stns := [(8, { ofs := [(15, ⟨4, .ui8, false, 0⟩)] })] }) with focus := { stn := 8 } },
    bareHdr, 31, 1, 4, 15, Row.zero .ui8, by decide +kernel⟩

theorem wit_IntegerProducts : ∃ (m : MxActive) (a b : Row) (n : Nat), (m.ty = .i8 ∨ m.ty = .ui8) ∧ m.sparse = none ∧ m.k ≤ 128 ∧ m.k = 128 ∧ m.b[n]? = some b
    ∧ (a.tag = .i8 ∨ a.tag = .ui8) ∧ (b.tag = .i8 ∨ b.tag = .ui8 ∨ b = Row.zero .f32) :=
  ⟨⟨{}, false, 0, 128, .i8, none, [Row.zero .ui8], [], 0, false, 0, 1⟩, Row.zero .i8, Row.zero .ui8, 0, by decide⟩

/-- Two updates due and one not, a command done, the last column, a slot that is claimed and one that is not. -/
theorem wit_MatrixLandings : (∃ (s : State) (p q : Pend), ((s.core 0).pend.filter (fun p => decide (p.due ≤ s.clock 0) && p.eff.isMxUpdate)) = [p, q] ∧ (s.core 0).pend.length = 3) ∧ (∃ (s : State) (p : Pend), p ∈ (s.core 0).pend ∧ p.due ≤ s.clock 0 ∧ p.eff = .mxDone true 31 1)
    ∧ (∃ col : Nat, col < 128 ∧ col = 127) ∧ (∃ s : State, (SMap.get ({} : Slot) s.fcore.mx.slots 31).claimed = true) ∧ ∃ s : State, (SMap.get ({} : Slot) s.fcore.mx.slots 31).claimed = false :=
  ⟨⟨withCore (fun c => { c with pend := [⟨0, {}, .accClear 3 true⟩, ⟨0, {}, .accClear 3 false⟩, ⟨1, {}, .accClear 2 true⟩] }), _, _, rfl, rfl⟩,
    ⟨withCore (fun c => { c with pend := [⟨0, {}, .mxDone true 31 1⟩] }), _, List.mem_cons_self, by decide +kernel, rfl⟩, ⟨127, by decide⟩,
    ⟨withCore (fun c => { c with mx := { slots := [(31, { claimed := true })] } }), by decide +kernel⟩, onCore, by decide +kernel⟩

/-! ## The hypotheses of the statements about boot, power, the links and the registers are met -/

/-- The module at reset, with one device register as said. -/
def withReg (i : Nat) (v : Word) : State := State.reset.setReg i v
/-- The entry of an object of one dimension, open to everybody, its tile table at 4096 + 64 id. -/
def objWord (id kind home fmt tshape ext : Nat) : Nat :=
  1 + kind * 2 + home * 2 ^ 5 + 2 ^ 8 + fmt * 2 ^ 11 + 0x7F * 2 ^ 43 + 0xFF * 2 ^ 50 + tshape * 2 ^ 64 + ext * 2 ^ 128 + (4096 + 64 * id) / 64 * 2 ^ 336
/-- That object. -/
def objOf (id kind home fmt tshape ext : Nat) : Obj := parseObj id (.ofNat 512 (objWord id kind home fmt tshape ext))
/-- The bytes of a number at an address. -/
def cellsAt (a n v : Nat) : Memory := ((List.range n).map (fun i => (a + i, BitVec.ofNat 8 (v / 256 ^ i)))).filter (fun p => p.2 != 0)
/-- An object table at 0, with these numbers, entries and tile entries. -/
def withTable (l : List (Nat × Nat × List Nat)) (s : State) : State :=
  { s.setReg 0x801 16 with lpddr := l.flatMap (fun x => cellsAt (64 * x.1) 64 x.2.1) ++ l.flatMap (fun x => x.2.2.zipIdx.flatMap (fun t => cellsAt (4096 + 64 * x.1 + 8 * t.2) 8 t.1)) }
/-- Object 2: 256 bytes of UINT8 at 131072 of device memory; object 3 has no tile. -/
def withObjs (s : State) : State := withTable [(2, objWord 2 0 0 8 12 256, [1 + 131072]), (3, objWord 3 0 0 8 12 256, [0])] s
/-- The tile of object 2. -/
def tile2 : Tile := parseTile (1 + 131072)
/-- Object 2. -/
def obj2 : Obj := objOf 2 0 0 8 12 256
/-- Bursts without an error, all of colour 0. -/
theorem sound_of {s : State} {a n : Nat} (h : a + n ≤ lpddrEnd ∧ s.uncorr = [] ∧ s.colour = []) : s.soundBursts a n 0 :=
  ⟨h.1, fun b _ _ => ⟨by rw [h.2.1]; exact List.not_mem_nil, by rw [h.2.2]; rfl⟩⟩
/-- An object of one tile, from facts that compute. -/
theorem flat_of {s : State} {f : Fmt} {w : Nat} {o : Obj} {p : Port} {k : AccKind} {a n : Nat} {t : Tile}
    (h : (o.peerAt = none ∧ o.alias0 = false ∧ o.kind ≠ 2 ∧ o.ndim = 1 ∧ o.fmt = f ∧ o.order = [0] ∧ o.ext.headD 0 = n ∧ n ≠ 0 ∧ o.tilesOf 0 = 1)
      ∧ o.colour = 0 ∧ (a + w * n ≤ lpddrEnd ∧ s.uncorr = [] ∧ s.colour = []) ∧ tileFor s p k o o.ttPtr 0 = .ok t ∧ t.tier = .lpddr ∧ t.addr = a) : s.flatOf f w o p k a n := by
  obtain ⟨⟨h1, h2, h3, h4, h5, h6, h7, h8, h9⟩, hc, hs, ht⟩ := h
  exact ⟨h1, h2, h3, h4, h5, h6, h7, h8, h9, by rw [hc]; exact sound_of hs, t, ht⟩

theorem wit_PowersOn : (∃ s : State, s.off = true) ∧ ∃ s : State, bootState s = 0 := ⟨⟨{ State.reset with off := true }, rfl⟩, State.reset, by decide +kernel⟩
/-- The third and the fourth failure. -/
theorem wit_Verifies : ∃ s : State, bootState s = 1 ∧ s.sigFails < 4 ∧ 4 ≤ s.sigFails + 1 := ⟨{ withReg 0xE31 1 with sigFails := 3 }, by decide +kernel⟩
theorem wit_CalibratesAndMounts : (∃ s : State, bootState s = 2 ∧ (s.kiln 0 0).st = .fired) ∧ ∃ s : State, bootState s = 3 :=
  ⟨⟨{ withReg 0xE31 2 with kilns := [(0, { st := .fired })] }, by decide +kernel⟩, withReg 0xE31 3, by decide +kernel⟩
/-- Each level, of the last cause. -/
theorem wit_AlarmLevels : ∀ l ∈ [0, 1, 2, 3], ∃ (s : State) (n : Nat), n < 4 ∧ n = 3 ∧ fieldOf (s.reg 0xD90) (2 * n + 1) (2 * n) = l := by
  intro l hl
  fin_cases hl
  · exact ⟨withReg 0xD90 0, 3, by decide +kernel⟩
  · exact ⟨withReg 0xD90 0x40, 3, by decide +kernel⟩
  · exact ⟨withReg 0xD90 0x80, 3, by decide +kernel⟩
  · exact ⟨State.reset, 3, by decide +kernel⟩
/-- A clock at the floor, power above, at, within and below the cap, and no cap. -/
theorem wit_Regulates : (∃ (s : State) (p : Nat), p < 16 ∧ p = 15 ∧ partOn s p = true ∧ clockOf s p = 800 ∧ (s.reg (0xE40 + p)).getLsbD 12 = true ∧ fieldOf (s.reg (0xE40 + p)) 11 0 = 100)
    ∧ (∃ power, 100 < power ∧ power = 101) ∧ (∃ power, power ≤ 100 ∧ 95 * 100 ≤ 100 * power ∧ power = 95) ∧ (∃ power, 100 * power < 95 * 100 ∧ power = 94)
    ∧ ∃ (s : State) (p : Nat), p < 16 ∧ partOn s p = true ∧ clockOf s p = 1600 ∧ (s.reg (0xE40 + p)).getLsbD 12 = false :=
  ⟨⟨(withReg 0xBF0 1).setReg 0xE4F (.ofNat 64 (800 * 2 ^ 13 + 2 ^ 12 + 100)), 15, by decide +kernel⟩, ⟨101, by decide⟩, ⟨95, by decide⟩, ⟨94, by decide⟩,
    withReg 0xBF0 1, 15, by decide +kernel⟩
theorem wit_PowersOff : ∃ s : State, s.agenda = [] := ⟨State.reset, rfl⟩
theorem wit_SleepAndSweep : (∃ (s : State) (c : Nat), c < 320 ∧ c = 319 ∧ (s.core c).crew = none) ∧ (∃ m : Nat, m < 5 ∧ m = 4)
    ∧ ∃ (s : State) (c : Nat), c < 320 ∧ c = 319 ∧ (s.core c).sweeping = true :=
  ⟨⟨State.reset, 319, by decide⟩, ⟨4, by decide⟩, State.reset.updCore 319 (fun k => { k with sweeping := true }), 319, by decide +kernel⟩
/-- A device number below SIZE, at SIZE, and above 767. -/
theorem wit_FabricLinks : (∃ (s : State) (dev : Nat), dev < fieldOf (s.reg 0xE30) 19 10 ∧ dev ≤ 767 ∧ dev = 767)
    ∧ (∃ (s : State) (dev : Nat), fieldOf (s.reg 0xE30) 19 10 = dev) ∧ ∃ dev : Nat, 767 < dev :=
  ⟨⟨withReg 0xE30 (.ofNat 64 (768 * 2 ^ 10)), 767, by decide +kernel⟩, ⟨State.reset, 1, by decide +kernel⟩, 768, by decide⟩

/-- The last bytes of an object that the host may read and write. -/
theorem wit_Aperture : (∃ (s : State) (addr : BitVec 64) (o : Obj) (a n : Nat), addr.extractLsb' 62 2 = 0 ∧ bootState s ≠ 7 ∧ Claims.storesFree s
    ∧ objFor s hostPort .host .read (addr.extractLsb' 38 24).toNat = .ok o ∧ s.flatAt o hostPort .read a n
    ∧ objFor s hostPort .host .write (addr.extractLsb' 38 24).toNat = .ok o ∧ s.flatAt o hostPort .write a n ∧ (addr.extractLsb' 0 38).toNat + 4 = n)
    ∧ ∃ s : State, bootState s ≠ 7 ∧ storeWaits s = true :=
  ⟨⟨withObjs State.reset, .ofNat 64 (2 * 2 ^ 38 + 252), obj2, 131072, 256, by decide +kernel, by decide +kernel, ⟨by decide +kernel, rfl⟩, by decide +kernel,
    flat_of (t := tile2) (by decide +kernel), by decide +kernel, flat_of (t := tile2) (by decide +kernel), by decide +kernel⟩,
    { State.reset with susps := [(1, .host true 0 [7] 1 0)] }, by decide +kernel⟩

/-- An object that is not there, and one whose tile is not present. -/
theorem wit_HostFaults :
    (∃ (s : State) (addr : BitVec 64) (f : HwFault) (tile : Nat), addr.extractLsb' 62 2 = 0 ∧ bootState s ≠ 7 ∧ Claims.storesFree s
      ∧ apertureRead hostPort .host (addr.extractLsb' 38 24).toNat (addr.extractLsb' 0 38).toNat 4 s = .error (f, tile)
      ∧ apertureWrite hostPort .host (addr.extractLsb' 38 24).toNat (addr.extractLsb' 0 38).toNat [1] s = .error (f, tile) ∧ f.code ≠ 0x0F)
    ∧ (∃ (s : State) (addr : BitVec 64) (f g : HwFault) (tile k : Nat), addr.extractLsb' 62 2 = 0 ∧ bootState s ≠ 7 ∧ Claims.storesFree s
      ∧ apertureRead hostPort .host (addr.extractLsb' 38 24).toNat (addr.extractLsb' 0 38).toNat 4 s = .error (f, tile)
      ∧ apertureWrite hostPort .host (addr.extractLsb' 38 24).toNat (addr.extractLsb' 0 38).toNat [1] s = .error (g, tile) ∧ f.code = 0x0F ∧ g.code = 0x0F ∧ freeSusp s = some k)
    ∧ (∃ addr : BitVec 64, addr.extractLsb' 62 2 = 1) ∧ (∃ addr : BitVec 64, addr.extractLsb' 62 2 = 3) ∧ ∃ addr : BitVec 64, addr.extractLsb' 62 2 = 2 ∧ addr.extractLsb' 0 3 ≠ 0 :=
  ⟨⟨withObjs State.reset, .ofNat 64 (15 * 2 ^ 38), accessFault 0, 0, by decide +kernel, by decide +kernel, ⟨by decide +kernel, rfl⟩, by decide +kernel⟩,
    ⟨withObjs State.reset, .ofNat 64 (3 * 2 ^ 38), xlateFault 0, xlateFault 0, 0, 1, by decide +kernel, by decide +kernel, ⟨by decide +kernel, rfl⟩, by decide +kernel⟩,
    ⟨.ofNat 64 (2 ^ 62), by decide⟩, ⟨.ofNat 64 (3 * 2 ^ 62), by decide⟩, .ofNat 64 (2 ^ 63 + 1), by decide⟩

/-- A module that is ready and one that is not, at the first and last register. -/
theorem wit_RegisterWindow : (∃ (s : State) (i : Nat), 0x800 ≤ i ∧ i < 0x1000 ∧ i = 0xFFF ∧ bootState s = 4)
    ∧ (∃ i : Nat, 0x800 ≤ i ∧ i < 0x1000 ∧ i = 0xE31)
    ∧ ∃ (s : State) (i : Nat), 0x800 ≤ i ∧ i < 0x1000 ∧ i = 0x800 ∧ ¬ (bootState s = 4 ∨ i = 0xE31 ∨ (0xE38 ≤ i ∧ i < 0xE40) ∨ i = 0xE32 ∨ i = 0xD91) :=
  ⟨⟨withReg 0xE31 4, 0xFFF, by decide +kernel⟩, ⟨0xE31, by decide⟩, State.reset, 0x800, by decide +kernel⟩

theorem wit_HostSuspended : ∀ w ∈ [false, true], ∃ (s : State) (k : Nat) (addr : BitVec 64) (bytes : List Byte) (len tile : Nat), s.susps.find k = some (.host w addr bytes len tile)
    ∧ s.hostQueue = [] ∧ bootState s ≠ 7 ∧ storeWaits { s with susps := s.susps.del k } = false ∧ addr.extractLsb' 62 2 = 0 ∧ (if w then len = bytes.length else bytes = []) := by
  intro w hw
  fin_cases hw
  · exact ⟨{ State.reset with susps := [(65535, .host false 0 [] 8 3)] }, 65535, 0, [], 8, 3, rfl, rfl, by decide +kernel, by decide +kernel, by decide, rfl⟩
  · exact ⟨{ State.reset with susps := [(65535, .host true 0 [7] 1 3)] }, 65535, 0, [7], 1, 3, rfl, rfl, by decide +kernel, by decide +kernel, by decide, rfl⟩

/-- A number that names nothing, a core's own access, a command of a record and one of a core, a record, a queue and a walk. -/
theorem wit_Resumes : (∃ (s : State) (n : Nat), s.susps.find n = none) ∧ (∃ (s : State) (n c : Nat) (fw : Bool), s.susps.find n = some (.fetch c fw))
    ∧ (∃ (s : State) (n id : Nat) (c : Cmd), s.susps.find n = some (.cmd id) ∧ s.cmds.find id = some c ∧ c.core = some 319)
    ∧ (∃ (s : State) (n id : Nat) (c : Cmd), s.susps.find n = some (.cmd id) ∧ s.cmds.find id = some c ∧ c.core = none)
    ∧ (∃ (s : State) (n id : Nat) (r : Rec), s.susps.find n = some (.record id) ∧ s.recs.find id = some r)
    ∧ (∃ (s : State) (n id : Nat) (q : Queue), s.susps.find n = some (.queue id) ∧ s.queues.find id = some q)
    ∧ ∃ (s : State) (n id : Nat) (w : Walk), s.susps.find n = some (.walk id) ∧ s.walks.find id = some w :=
  ⟨⟨State.reset, 0, rfl⟩, ⟨{ State.reset with susps := [(9, .fetch 0 true)] }, 9, 0, true, rfl⟩,
    ⟨{ State.reset with susps := [(9, .cmd 1)], cmds := [(1, { port := 0, word := 0, issuer := .ctx 319 false none })] }, 9, 1, _, rfl, rfl, rfl⟩,
    ⟨{ State.reset with susps := [(9, .cmd 1)], cmds := [(1, { port := 0, word := 0, issuer := .record 2 })] }, 9, 1, _, rfl, rfl, rfl⟩,
    ⟨{ State.reset with susps := [(9, .record 1)], recs := [(1, { word := 0, queue := 0, part := 0, graph := 0 })] }, 9, 1, _, rfl, rfl⟩,
    ⟨{ State.reset with susps := [(9, .queue 1)], queues := [(1, {})] }, 9, 1, _, rfl, rfl⟩,
    ⟨{ State.reset with susps := [(9, .walk 1)], walks := [(1, { gobj := 0, nrec := 0, part := 0 })] }, 9, 1, _, rfl, rfl⟩⟩

theorem wit_NetworkAccesses : (∃ (s : State) (o : Obj) (a n : Nat), bootState s ≠ 7 ∧ objFor s netPort .peer .read 2 = .ok o ∧ s.flatAt o netPort .read a n ∧ 252 + 4 = n
      ∧ objFor s netPort .peer .write 2 = .ok o ∧ s.flatAt o netPort .write a n) ∧ (∃ (s : State) (f : HwFault) (tile : Nat), bootState s ≠ 7 ∧ f.code ≠ 0x0F ∧ apertureWrite netPort .peer 15 0 [1] s = .error (f, tile) ∧ apertureRead netPort .peer 15 0 1 s = .error (f, tile))
    ∧ (∃ (s : State) (f : HwFault) (tile k : Nat), bootState s ≠ 7 ∧ f.code = 0x0F ∧ freeSusp s = some k ∧ apertureWrite netPort .peer 3 0 [1] s = .error (f, tile) ∧ apertureRead netPort .peer 3 0 1 s = .error (f, tile))
    ∧ (∃ (s : State) (k tile : Nat), s.susps.find k = some (.net 3 true 2 0 [7] [7].length tile)) ∧ ∃ s : State, bootState s = 7 :=
  ⟨⟨withObjs State.reset, obj2, 131072, 256, by decide +kernel, by decide +kernel, flat_of (t := tile2) (by decide +kernel), by decide +kernel, by decide +kernel,
      flat_of (t := tile2) (by decide +kernel)⟩,
    ⟨withObjs State.reset, accessFault 0, 0, by decide +kernel⟩, ⟨withObjs State.reset, xlateFault 0, 0, 1, by decide +kernel⟩,
    ⟨{ State.reset with susps := [(1, .net 3 true 2 0 [7] 1 0)] }, 1, 0, rfl⟩, withReg 0xE31 7, by decide +kernel⟩

theorem wit_PartitionEnable : (∃ (s : State) (p : Nat), p < 16 ∧ partOn s p = false ∧ ∀ q ∈ s.queues, q.2.on = true → q.2.part ≠ p)
    ∧ (∃ (s : State) (p : Nat), p < 16 ∧ p = 15 ∧ partOn s p = true ∧ ∃ q ∈ s.queues, q.2.on = true ∧ q.2.part = p)
    ∧ (∃ (s : State) (p : Nat), p < 16 ∧ ∀ c, c < 320 → partHasCore s p c = false)
    ∧ ∃ (s : State) (p q c : Nat), p < 16 ∧ q < 16 ∧ q ≠ p ∧ partOn s q = true ∧ partHasCore s p c = true ∧ partHasCore s q c = true :=
  ⟨⟨State.reset, 0, by decide +kernel⟩, ⟨{ withReg 0xBF0 1 with queues := [(1023, { on := true, part := 15 })] }, 15, by decide +kernel⟩,
    ⟨State.reset, 0, by decide +kernel⟩,
    ((withReg 0xB10 1).setReg 0xB15 (.ofNat 64 (2 ^ 63))).setReg 0xB05 (.ofNat 64 (2 ^ 63)), 0, 1, 319, by decide +kernel⟩

/-- A size of 17 and one of 16, clean sectors in the slice. -/
theorem wit_CacheSize : (∃ u : BitVec 5, 16 < u.toNat ∧ u = 17) ∧ (∃ (s : State) (slice : Nat) (u : BitVec 5), slice < 64 ∧ slice = 63 ∧ u.toNat ≤ 16 ∧ u = 16
      ∧ rangeInCache s slice u.toNat = false ∧ s.cacheOf slice ≠ [] ∧ ∀ x ∈ s.cacheOf slice, x.2.dirty = false)
    ∧ ∃ (s : State) (slice u : Nat), slice < 64 ∧ u ≤ 16 ∧ s.resizing.find slice = some u :=
  ⟨⟨17, by decide⟩, ⟨{ State.reset with cache := [(63, [(5, ⟨1, false, 0, 0, 0, 0⟩)])] }, 63, 16, by decide +kernel⟩, { State.reset with resizing := [(63, 16)] }, 63, 16, by decide +kernel⟩

theorem wit_VectorsDelivered : ∀ m ∈ [false, true], (∃ (s : State) (v : Nat), v < 2048 ∧ v = 2047 ∧ (s.reg (0xE08 + v / 64)).getLsbD (v % 64) = true
      ∧ (s.lpddr.byte (64 * fieldOf (s.reg 0xE00) 39 0 + 16 * v + 12)).getLsbD 0 = m
      ∧ (0, (64 * fieldOf (s.reg 0xE00) 39 0 + 16 * v) / 32) ∉ s.uncorr ∧ 64 * fieldOf (s.reg 0xE00) 39 0 + 16 * v < lpddrEnd)
    ∧ ∃ (s : State) (v : Nat), v < 2048 ∧ (s.reg (0xE08 + v / 64)).getLsbD (v % 64) = false := by
  intro m hm
  refine ⟨?_, State.reset, 2047, by decide +kernel⟩
  fin_cases hm
  · exact ⟨withReg 0xE27 (.ofNat 64 (2 ^ 63)), 2047, by decide +kernel⟩
  · exact ⟨{ withReg 0xE27 (.ofNat 64 (2 ^ 63)) with lpddr := [(16 * 2047 + 12, 1)] }, 2047, by decide +kernel⟩

theorem wit_QuotesAndKeys : (∃ s : State, s.quote = none) ∧ (∃ (s : State) (a : Nat), s.quote = some a)
    ∧ ∃ (s : State) (slice off : Nat), landOk s slice off 72 = true ∧ landBad s slice off 72 = false ∧ slice = 63 ∧ off = 0 :=
  ⟨⟨State.reset, rfl⟩, ⟨{ State.reset with quote := some 64 }, 64, rfl⟩, withReg 0x87F 0x20, 63, 0, by decide +kernel⟩

/-! ## The hypotheses of the statements about ferries are met -/

/-- Partition 0 is enabled, owns core 0 and may use every slice. -/
def partOpen (s : State) : State := ((s.setReg 0xB00 1).setReg 0xB01 1).setReg 0xB06 (.allOnes 64)
/-- A ferry command with these kinds of endpoints, of a record of partition 0. -/
def ferryCmd (sk dk more : Nat) : Cmd := { port := 0, word := .ofNat 256 (0xE0 + sk * 2 ^ 8 + dk * 2 ^ 11 + more), issuer := .record 0, part := some 0, st := .queued }
/-- It stands alone in its ferry, in focus. -/
def withCmd (c : Cmd) (s : State) : State := { partOpen s with cmds := [(1, c)], focus := { cmd := 1 } }
/-- A LAND endpoint. -/
def landEp (slice off : Nat) : BitVec 64 := .ofNat 64 (slice + off * 64)
/-- The header that goes with the kinds. -/
def fhdr (sk dk : BitVec 3) : FHdr := ⟨sk, dk, 0, 0, 0, 0, 0, 0⟩
theorem starts_of {s : State} {c : Cmd} {h : FHdr}
    (hs : s.cmds.find s.focus.cmd = some c ∧ c.port = 0 ∧ c.st = .queued ∧ c.begun = false ∧ c.pos = 0 ∧ c.nsect = 0 ∧ c.tables = [] ∧ c.items = [] ∧ c.dirtied = []
      ∧ c.bits 10 8 = h.sk.toNat ∧ c.bits 13 11 = h.dk.toNat ∧ c.ben = false ∧ c.word.getLsbD 25 = false
      ∧ (∀ p ∈ s.cmds, p.2.port = 0 → p.2.unit = c.unit → p.2.st ≠ .running ∧ p.2.isSuspended = false ∧ (p.2.st = .queued → c.qseq ≤ p.2.qseq)) ∧ s.resizing = []) : s.ferryStarts c h := hs
theorem staging_of {s : State} (h : s.uncorr = []) : s.soundStaging := fun u hu => absurd hu (by rw [h]; exact List.not_mem_nil)
/-- Staging slices 0 and 63 hold something. -/
def landed : Memory := [(16, 1), (17, 2), (18, 0), (64, 2), (128, 7), (63 * 2 ^ 22, 0x80), (63 * 2 ^ 22 + 5, 9)]
/-- A staging command starts there. -/
def ferryLand (sk dk more : Nat) : State := withCmd (ferryCmd sk dk more) { State.reset with land := landed }

/-- From the end of one slice to the start of another. -/
theorem wit_CopyOfStaging : ∃ (s : State) (c : Cmd) (h : FHdr) (f : CopyF), s.ferryStarts c h ∧ h.sk = 2 ∧ h.dk = 2 ∧ s.soundStaging ∧ f.count = 2
    ∧ s.mayLand c f.src 32 ∧ s.mayLand c f.dst 32 ∧ apart (landBase f.src) 32 (landBase f.dst) 32 :=
  ⟨(ferryLand 2 2 (63 * 2 ^ 64)).setReg 0x87F 0x20, ferryCmd 2 2 (63 * 2 ^ 64), fhdr 2 2, ⟨2, 0, landEp 63 (2 ^ 22 - 32), landEp 0 0, 0, 0, 0, 0, 0⟩, starts_of (by decide +kernel), rfl, rfl,
    staging_of rfl, rfl, by unfold State.mayLand; decide +kernel, by unfold State.mayLand; decide +kernel, by unfold apart; decide +kernel⟩
theorem wit_FillOfStaging : ∃ (s : State) (c : Cmd) (h : FHdr) (f : FerryFillF), s.ferryStarts c h ∧ h.sk = 0 ∧ h.dk = 2 ∧ s.soundStaging ∧ s.mayLand c f.dst (16 * f.count.toNat) ∧ f.count = 3 :=
  ⟨ferryLand 0 2 0, ferryCmd 0 2 0, fhdr 0 2, ⟨3, 0, 0x0807060504030201, landEp 63 32, 0, 0, 0, 0⟩, starts_of (by decide +kernel), rfl, rfl, staging_of rfl,
    by unfold State.mayLand; decide +kernel, rfl⟩
/-- A list of a row, of no row, and of the row again. -/
theorem wit_GatherOfStaging : ∃ (s : State) (c : Cmd) (h : FHdr) (f : FerryGathF), s.ferryStarts c h ∧ h.sk = 2 ∧ h.dk = 2 ∧ s.soundStaging ∧ f.count = 3 ∧ f.rowlen = 1
    ∧ s.mayLandAt c f.idx 12 ∧ s.mayLand c f.dst 48 ∧ (List.range 3).map (fun i => natOfBytes (s.land.bytes (landWord f.idx + 4 * i) 4)) = [1, 0xFFFFFFFF, 1]
    ∧ landAllowed s c (epSlice f.src) (epOff f.src + 16) 16 = true ∧ apart (landBase f.src + 16) 16 (landBase f.dst) 48 :=
  ⟨withCmd (ferryCmd 2 2 0) { State.reset with land := Memory.setBytes [] 256 [1, 0, 0, 0, 255, 255, 255, 255, 1] }, ferryCmd 2 2 0, fhdr 2 2, ⟨3, 0, landEp 0 0, landEp 63 0, 0, 0, .ofNat 28 (256 * 64), 1⟩,
    starts_of (by decide +kernel), rfl, rfl, staging_of rfl, rfl, rfl, by unfold State.mayLandAt; decide +kernel, by unfold State.mayLand; decide +kernel, by decide +kernel, by decide +kernel,
    by unfold apart; decide +kernel⟩
theorem wit_Compacts : ∃ (s : State) (c : Cmd) (h : FHdr) (f : LcmpF), s.ferryStarts c h ∧ h.sk = 2 ∧ h.dk = 2 ∧ s.soundStaging ∧ f.count = 3 ∧ f.rb = 1
    ∧ s.mayLandAt c f.mask 3 ∧ s.mayLandAt c f.cnt 16 ∧ s.mayLand c f.src 48 ∧ s.mayLand c f.dst 48 ∧ apart (landBase f.src) 48 (landBase f.dst) 48 :=
  ⟨ferryLand 2 2 0, ferryCmd 2 2 0, fhdr 2 2, ⟨3, 0, landEp 0 64, landEp 63 0, .ofNat 28 (16 * 64), .ofNat 28 (63 + 64 * 64), 1⟩,
    starts_of (by decide +kernel), rfl, rfl, staging_of rfl, rfl, rfl, by unfold State.mayLandAt; decide +kernel, by unfold State.mayLandAt; decide +kernel, by unfold State.mayLand; decide +kernel,
    by unfold State.mayLand; decide +kernel, by unfold apart; decide +kernel⟩
/-- Contributions from byte 16 of slice 0 on, 16 bytes apart. -/
def twoParts : BitVec 64 := .ofNat 64 (16 * 64 + 2 ^ 28)
/-- Two contributions 16 bytes apart, each reduction. -/
theorem wit_ReducesIntegers : ∀ rop ∈ [(0 : BitVec 2), 1, 2], ∃ (s : State) (c : Cmd) (h : FHdr) (f : LredF), s.ferryStarts c h ∧ h.sk = 2 ∧ h.dk = 2 ∧ s.soundStaging ∧ f.fm = 2 ∧ f.rop = rop
    ∧ f.count = 4 ∧ f.nc = 2 ∧ (∀ k, k < 2 → landAllowed s c (epSlice f.src) (epOff f.src + k * (16 * (f.src.extractLsb' 28 18).toNat)) 16 = true) ∧ s.mayLand c f.dst 16 := by
  intro rop _
  exact ⟨ferryLand 2 2 0, ferryCmd 2 2 0, fhdr 2 2, ⟨4, 0, twoParts, landEp 63 0, 0, 0, 2, 2, rop⟩, starts_of (by decide +kernel), rfl, rfl, staging_of rfl, rfl, rfl, rfl, rfl,
    (by decide +kernel : ∀ k, k < 2 → landAllowed (ferryLand 2 2 0) (ferryCmd 2 2 0) (epSlice twoParts) (epOff twoParts + k * (16 * (twoParts.extractLsb' 28 18).toNat)) 16 = true),
    (by decide +kernel : landAllowed (ferryLand 2 2 0) (ferryCmd 2 2 0) (epSlice (landEp 63 0)) (epOff (landEp 63 0)) 16 = true)⟩
theorem wit_MergesLists : ∃ (s : State) (c : Cmd) (h : FHdr) (f : LtopkF), s.ferryStarts c h ∧ h.sk = 2 ∧ h.dk = 2 ∧ s.soundStaging ∧ f.count = 1024 ∧ f.nc = 2 ∧ f.len = 1
    ∧ (∀ l, l < 2 → landAllowed s c (epSlice f.src) (epOff f.src + l * (16 * (f.src.extractLsb' 28 18).toNat)) 16 = true) ∧ s.mayLand c f.dst 16384 :=
  ⟨ferryLand 2 2 0, ferryCmd 2 2 0, fhdr 2 2, ⟨1024, 0, .ofNat 64 (16 * 64 + 2 ^ 28), landEp 63 0, 0, 0, 2, 1, 0⟩, starts_of (by decide +kernel), rfl, rfl, staging_of rfl, rfl, rfl, rfl,
    by decide +kernel, by unfold State.mayLand; decide +kernel⟩

/-- The last bytes of object 2, and its bytes into staging. -/
theorem wit_ObjectToStaging : (∃ (s : State) (c : Cmd) (h : FHdr) (o : Obj) (a n : Nat) (f : CopyF), s.ferryStarts c h ∧ h.sk = 1 ∧ h.dk = 2 ∧ s.soundStaging ∧ c.bits 87 64 = epId f.src
      ∧ objDev s c.portOf c.req .read f.sdev.toNat (epId f.src) = .ok o ∧ s.flatAt o c.portOf .read a n ∧ epPos f.src + f.count.toNat = n ∧ s.mayLand c f.dst f.count.toNat)
    ∧ ∃ (s : State) (c : Cmd) (h : FHdr) (o : Obj) (a n : Nat) (f : PrefF), s.ferryStarts c h ∧ h.sk = 1 ∧ h.dk = 2 ∧ s.soundStaging ∧ c.bits 87 64 = epId f.src
      ∧ objDev s c.portOf c.req .read f.sdev.toNat (epId f.src) = .ok o ∧ s.flatAt o c.portOf .read a n ∧ epPos f.src + f.count.toNat = n ∧ s.mayLand c f.dst f.count.toNat :=
  ⟨⟨withCmd (ferryCmd 1 2 (2 * 2 ^ 64)) (withObjs State.reset), ferryCmd 1 2 (2 * 2 ^ 64), fhdr 1 2, obj2, 131072, 256, ⟨6, 0, .ofNat 64 (2 + 250 * 2 ^ 24), landEp 63 0, 0, 0, 0, 0, 0⟩,
      starts_of (by decide +kernel), rfl, rfl, staging_of (by decide +kernel), by decide +kernel, by decide +kernel, flat_of (t := tile2) (by decide +kernel), by decide +kernel, by unfold State.mayLand; decide +kernel⟩,
    withCmd (ferryCmd 1 2 (2 * 2 ^ 64)) (withObjs State.reset), ferryCmd 1 2 (2 * 2 ^ 64), fhdr 1 2, obj2, 131072, 256, ⟨6, 0, .ofNat 64 (2 + 250 * 2 ^ 24), landEp 63 0, 0, 0, 0, 0, 0⟩,
      starts_of (by decide +kernel), rfl, rfl, staging_of (by decide +kernel), by decide +kernel, by decide +kernel, flat_of (t := tile2) (by decide +kernel), by decide +kernel, by unfold State.mayLand; decide +kernel⟩

/-- A staging command into object 2. -/
def intoObj2 (l : Memory) : State := withCmd (ferryCmd 2 1 (2 * 2 ^ 128)) { withObjs State.reset with land := l }

theorem wit_StagingToObject : (∃ (s : State) (c : Cmd) (h : FHdr) (o : Obj) (a n : Nat) (f : CopyF), s.ferryStarts c h ∧ h.sk = 2 ∧ h.dk = 1 ∧ s.soundStaging ∧ s.flatAt o c.portOf .write a n
      ∧ c.bits 151 128 = epId f.dst ∧ objDev s c.portOf c.req .write f.ddev.toNat (epId f.dst) = .ok o ∧ f.count ≠ 0 ∧ epPos f.dst + f.count.toNat = n
      ∧ epPos f.dst / 16 = (epPos f.dst + f.count.toNat - 1) / 16 ∧ s.mayLand c f.src f.count.toNat)
    ∧ ∃ (s : State) (c : Cmd) (h : FHdr) (o : Obj) (a n : Nat) (f : ScatF), s.ferryStarts c h ∧ h.sk = 2 ∧ h.dk = 1 ∧ s.soundStaging ∧ s.flatAt o c.portOf .write a n
      ∧ c.bits 151 128 = epId f.dst ∧ objDev s c.portOf c.req .write (devNo s) (epId f.dst) = .ok o ∧ f.count = 1 ∧ natOfBytes (s.land.bytes (landWord f.idx) 4) = 62 ∧ f.rowlen = 4
      ∧ epPos f.dst + 62 * 4 + 4 ≤ n ∧ (epPos f.dst + 62 * 4) / 16 = (epPos f.dst + 62 * 4 + 3) / 16 ∧ s.mayLandAt c f.idx 4 ∧ s.mayLand c f.src 4 :=
  ⟨⟨intoObj2 landed, ferryCmd 2 1 (2 * 2 ^ 128), fhdr 2 1, obj2, 131072, 256, ⟨6, 0, landEp 0 17, .ofNat 64 (2 + 250 * 2 ^ 24), 0, 0, 0, 0, 0⟩, starts_of (by decide +kernel), rfl, rfl,
      staging_of (by decide +kernel), flat_of (t := tile2) (by decide +kernel), by decide +kernel, by decide +kernel, by decide +kernel, by decide +kernel, by decide +kernel,
      by unfold State.mayLand; decide +kernel⟩,
    intoObj2 [(256, 62)], ferryCmd 2 1 (2 * 2 ^ 128), fhdr 2 1, obj2, 131072, 256, ⟨1, 0, landEp 0 0, .ofNat 64 2, 0, 0, .ofNat 28 (256 * 64), 4⟩, starts_of (by decide +kernel), rfl, rfl,
      staging_of (by decide +kernel), flat_of (t := tile2) (by decide +kernel), by decide +kernel, by decide +kernel, rfl, by decide +kernel, rfl, by decide +kernel, by decide +kernel,
      by unfold State.mayLandAt; decide +kernel, by unfold State.mayLand; decide +kernel⟩

/-- Object 4: 64 elements of INT32 at 196608. -/
def withInts (s : State) : State := withTable [(4, objWord 4 0 0 5 10 64, [1 + 196608])] s

theorem wit_AddsIntoObject : ∃ (s : State) (c : Cmd) (h : FHdr) (f : ScaddF) (o : Obj) (a n j : Nat), s.ferryStarts c h ∧ h.sk = 2 ∧ h.dk = 1 ∧ s.soundStaging
    ∧ c.bits 151 128 = epId f.dst ∧ objEntry s c.portOf (epId f.dst) = .ok o ∧ o.permits c.req .write = true ∧ o.permits c.req (.atomic 0) = true
    ∧ s.flatOf .i32 4 o c.portOf (.atomic 0) a n ∧ f.rowlen = 1 ∧ f.count = 2 ∧ (∀ i, i < 2 → natOfBytes (s.land.bytes (landWord f.idx + 4 * i) 4) = j) ∧ j ≠ 0xFFFFFFFF
    ∧ epPos f.dst + j + 1 = n ∧ s.mayLandAt c f.idx 8 ∧ s.mayLand c f.src 8 :=
  ⟨withCmd (ferryCmd 2 1 (4 * 2 ^ 128)) { withInts State.reset with land := [(256, 63), (260, 63)] }, ferryCmd 2 1 (4 * 2 ^ 128), fhdr 2 1, ⟨2, 0, landEp 0 0, .ofNat 64 4, 0, 0, .ofNat 28 (256 * 64), 1⟩,
    objOf 4 0 0 5 10 64, 196608, 64, 63, starts_of (by decide +kernel), rfl, rfl, staging_of (by decide +kernel), by decide +kernel, by decide +kernel, by decide +kernel, by decide +kernel,
    flat_of (t := parseTile (1 + 196608)) (by decide +kernel), rfl, rfl, by decide +kernel, by decide +kernel, by decide +kernel, by unfold State.mayLandAt; decide +kernel, by unfold State.mayLand; decide +kernel⟩

theorem wit_CopiesAndPublishes : ∃ (s : State) (c : Cmd) (h : FHdr) (f : CopypF) (o p q : Obj) (a n : Nat), s.ferryStarts c h ∧ h.sk = 2 ∧ h.dk = 1 ∧ s.soundStaging
    ∧ c.bits 151 128 = epId f.dst ∧ objDev s c.portOf c.req .write (devNo s) (epId f.dst) = .ok o ∧ s.flatAt o c.portOf .write a n ∧ f.count ≠ 0 ∧ epPos f.dst + f.count.toNat ≤ n
    ∧ epPos f.dst / 16 = (epPos f.dst + f.count.toNat - 1) / 16 ∧ s.mayLand c f.src f.count.toNat ∧ f.pub.toNat ≠ epId f.dst ∧ s.tlb = []
    ∧ objEntry s c.portOf f.pub.toNat = .ok p ∧ objEntry s c.portOf (epId f.dst) = .ok q ∧ s.soundBursts (objAddr s f.pub.toNat) 64 (tableColour s)
    ∧ s.soundBursts (objAddr s (epId f.dst)) 64 (tableColour s) ∧ apart a n (objAddr s f.pub.toNat) 64 ∧ apart a n (objAddr s (epId f.dst)) 64
    ∧ ∀ i, i < 64 → i < 42 ∨ 47 ≤ i → s.lpddr.byte (objAddr s f.pub.toNat + i) = s.lpddr.byte (objAddr s (epId f.dst) + i) :=
  ⟨intoObj2 landed, ferryCmd 2 1 (2 * 2 ^ 128), fhdr 2 1, ⟨6, 0, landEp 0 17, .ofNat 64 2, 0, 0, 0, 3⟩, obj2, objOf 3 0 0 8 12 256, obj2, 131072, 256, starts_of (by decide +kernel), rfl, rfl,
    staging_of (by decide +kernel), by decide +kernel, by decide +kernel, flat_of (t := tile2) (by decide +kernel), by decide +kernel, by decide +kernel, by decide +kernel,
    by unfold State.mayLand; decide +kernel, by decide +kernel, by decide +kernel, by decide +kernel, by decide +kernel, sound_of (by decide +kernel), sound_of (by decide +kernel),
    by unfold apart; decide +kernel, by unfold apart; decide +kernel, by decide +kernel⟩

theorem wit_PrefetchesLine : ∃ (s : State) (c : Cmd) (h : FHdr) (f : PrefF) (o : Obj) (a n : Nat), s.ferryStarts c h ∧ h.sk = 1 ∧ h.dk = 4 ∧ c.bits 87 64 = epId f.src
    ∧ objDev s c.portOf c.req .read f.sdev.toNat (epId f.src) = .ok o ∧ s.flatAt o c.portOf .read a n ∧ f.count ≠ 0 ∧ epPos f.src + f.count.toNat = n
    ∧ (a + epPos f.src + f.count.toNat - 1) / 64 = (a + epPos f.src) / 64 ∧ a % 64 = 0 ∧ s.soundBursts (64 * ((a + epPos f.src) / 64)) 64 o.colour ∧ hasCache s (epSlice f.dst) = true
    ∧ (linesOfSet s (epSlice f.dst) ((a + epPos f.src) / 64)).length < 16 :=
  ⟨withCmd (ferryCmd 1 4 (2 * 2 ^ 64 + 63 * 2 ^ 128)) ((withObjs State.reset).setReg 0x87F 0x30), ferryCmd 1 4 (2 * 2 ^ 64 + 63 * 2 ^ 128), fhdr 1 4, ⟨64, 0, .ofNat 64 (2 + 192 * 2 ^ 24), 63, 0, 0, 0, 0, 0⟩,
    obj2, 131072, 256, starts_of (by decide +kernel), rfl, rfl, by decide +kernel, by decide +kernel, flat_of (t := tile2) (by decide +kernel), by decide +kernel, by decide +kernel,
    by decide +kernel, by decide +kernel, sound_of (by decide +kernel), by decide +kernel, by decide +kernel⟩

/-- Each integer operation, at the end of a slice, with a return sector. -/
theorem wit_AtomicOnStaging : ∀ aop : BitVec 4, aop.toNat ≤ 9 → ∃ (s : State) (c : Cmd) (h : FHdr) (f : AtomF), s.ferryStarts c h ∧ h.sk = 0 ∧ h.dk = 2 ∧ s.soundStaging ∧ f.aop = aop ∧ f.aop.toNat ≤ 9
    ∧ f.w64 = 1 ∧ s.mayLand c f.dst 8 ∧ epOff f.dst % 8 = 0 ∧ f.reten = 1 ∧ s.mayLandAt c f.ret 16 := by
  intro aop ha
  exact ⟨(ferryLand 0 2 0).setReg 0x87F 0x20, ferryCmd 0 2 0, fhdr 0 2, ⟨.ofNat 28 (32 * 64), 1, aop, 1, 5, landEp 63 (2 ^ 22 - 8), 6⟩, starts_of (by decide +kernel), rfl, rfl, staging_of rfl, rfl, ha, rfl,
    (by decide +kernel : landAllowed ((ferryLand 0 2 0).setReg 0x87F 0x20) (ferryCmd 0 2 0) (epSlice (landEp 63 (2 ^ 22 - 8))) (epOff (landEp 63 (2 ^ 22 - 8))) 8 = true),
    (by decide +kernel : epOff (landEp 63 (2 ^ 22 - 8)) % 8 = 0), rfl,
    (by decide +kernel : landAllowed ((ferryLand 0 2 0).setReg 0x87F 0x20) (ferryCmd 0 2 0) (landAddr (BitVec.ofNat 28 (32 * 64)).toNat).1 (landAddr (BitVec.ofNat 28 (32 * 64)).toNat).2 16 = true)⟩
theorem wit_SignalsWord : ∀ sop ∈ [(0 : BitVec 2), 1, 2], ∃ (s : State) (c : Cmd) (h : FHdr) (f : FerryMsigF), s.ferryStarts c h ∧ 2 ≤ c.scope ∧ (∀ p ∈ s.cache, ∀ x ∈ p.2, x.2.dirty = false) ∧ h.sk = 0 ∧ h.dk = 2 ∧ s.soundStaging ∧ f.sop = sop
    ∧ (∀ p ∈ s.cmds, p.1 < s.focus.cmd → p.2.port ≠ 0) ∧ s.mayLand c f.dst 4 ∧ epOff f.dst % 4 = 0 := by
  intro sop _
  exact ⟨ferryLand 0 2 (2 * 2 ^ 21), ferryCmd 0 2 (2 * 2 ^ 21), fhdr 0 2, ⟨sop, 0xFFFFFFFF, landEp 63 4, 0, 0⟩, starts_of (by decide +kernel), by decide +kernel, by decide +kernel, rfl, rfl, staging_of rfl, rfl, by decide +kernel,
    (by decide +kernel : landAllowed (ferryLand 0 2 (2 * 2 ^ 21)) (ferryCmd 0 2 (2 * 2 ^ 21)) (epSlice (landEp 63 4)) (epOff (landEp 63 4)) 4 = true), (by decide +kernel : epOff (landEp 63 4) % 4 = 0)⟩
theorem wit_BarrierSet : ∃ (s : State) (c : Cmd) (h : FHdr) (f : BarinitF), s.ferryStarts c h ∧ h.sk = 0 ∧ h.dk = 0 ∧ s.soundStaging
    ∧ landAllowed s c (f.bar.extractLsb' 0 6).toNat (16 * (f.bar.extractLsb' 6 18).toNat) 16 = true ∧ ∀ p ∈ s.cmds, p.2.st ≠ .held :=
  ⟨ferryLand 0 0 0, ferryCmd 0 0 0, fhdr 0 0, ⟨0xFFFF, .ofNat 24 (63 + 64 * 2)⟩, starts_of (by decide +kernel), rfl, rfl, staging_of rfl, by decide +kernel, by decide +kernel⟩
theorem wit_MarksEntries : ∃ (s : State) (c : Cmd) (h : FHdr) (x y : TlbEntry) (f : InvalF), s.ferryStarts c h ∧ h.sk = 0 ∧ h.dk = 0 ∧ x ∈ s.tlb ∧ y ∈ s.tlb ∧ x.port < 64 ∧ 64 ≤ y.port ∧ x.obj = f.obj.toNat
    ∧ f.first.toNat ≤ x.tile ∧ x.tile + 1 = f.first.toNat + f.ntiles.toNat :=
  ⟨{ ferryLand 0 0 0 with tlb := [⟨63, false, 0, 5, 4, 0, none⟩, ⟨64, false, 0, 5, 4, 0, none⟩] }, ferryCmd 0 0 0, fhdr 0 0, ⟨63, false, 0, 5, 4, 0, none⟩, ⟨64, false, 0, 5, 4, 0, none⟩,
    ⟨5, 0, 0, 3, 2, 0, 0⟩, starts_of (by decide +kernel), by decide +kernel⟩

/-- A fill of three sectors after its second. -/
theorem wit_GoesOn : ∃ (s : State) (id : Nat) (c : Cmd) (h : FHdr) (f : FerryFillF), s.cmds.find id = some c ∧ c.port = 0 ∧ c.st = .running ∧ c.begun = true ∧ c.pos = 0 ∧ c.nsect = 2
    ∧ c.instr = some (.ferry_fill h f) ∧ c.bits 10 8 = 0 ∧ c.bits 13 11 = 2 ∧ c.ben = false ∧ c.word.getLsbD 25 = false ∧ h.dk = 2 ∧ 2 ≤ f.count.toNat ∧ f.count = 3 ∧ s.soundStaging ∧ s.resizing = []
    ∧ (∀ p ∈ s.cmds, p.2.port = 0 → p.2.unit = c.unit → p.2.st = .running ∨ p.2.isSuspended = true → c.qseq ≤ p.2.qseq) ∧ s.mayLand c f.dst (16 * f.count.toNat) :=
  ⟨withCmd { ferryCmd 0 2 (9 + 3 * 2 ^ 26 + 7 * 2 ^ 64) with st := .running, begun := true, nsect := 2 } State.reset, 1, { ferryCmd 0 2 (9 + 3 * 2 ^ 26 + 7 * 2 ^ 64) with st := .running, begun := true, nsect := 2 },
    fhdr 0 2, ⟨3, 0, 7, 0, 0, 0, 0, 0⟩, by decide +kernel, rfl, rfl, rfl, rfl, rfl, by decide +kernel, by decide +kernel, by decide +kernel, by decide +kernel, by decide +kernel, rfl, by decide, rfl,
    staging_of (by decide +kernel), by decide +kernel, by decide +kernel, by unfold State.mayLand; decide +kernel⟩
theorem wit_FerryCompletes : ∃ (s : State) (id : Nat) (c : Cmd), s.cmds.find id = some c ∧ c.st = .moved ∧ c.port = 0 ∧ c.bits 10 8 = 2 ∧ c.bits 13 11 = 2 ∧ c.ben = false
    ∧ c.after = [] ∧ c.afterSusps = [] ∧ c.dirtied = [] ∧ c.items = [] ∧ c.op ≠ 0xEC ∧ c.op ≠ 0xE1 ∧ c.owner = none ∧ c.issuer = .ctx 0 true none ∧ c.hen = true :=
  ⟨withCmd { ferryCmd 2 2 (2 ^ 19) with st := .moved, issuer := .ctx 0 true none } State.reset, 1, { ferryCmd 2 2 (2 ^ 19) with st := .moved, issuer := .ctx 0 true none }, by decide +kernel⟩
/-- The last arrival of a phase, and one that is not the last. -/
theorem wit_ArrivalsAtBarriers : (∃ p ph n x y : Nat, p < 2 ^ 32 ∧ ph < 2 ^ 32 - 1 ∧ n < 2 ^ 16 ∧ x < n ∧ y < n ∧ ph % 2 = 0 ∧ x + 1 = n)
    ∧ ∃ p ph n x y : Nat, p < 2 ^ 32 ∧ ph < 2 ^ 32 - 1 ∧ n < 2 ^ 16 ∧ x < n ∧ y < n ∧ ph % 2 = 0 ∧ x + 1 < n :=
  ⟨⟨2 ^ 32 - 1, 2 ^ 32 - 2, 65535, 65534, 0, by decide⟩, ⟨0, 0, 2, 0, 1, by decide⟩⟩

/-! ## The hypotheses of the statements about crews are met -/

theorem wit_ResultsReachStations : ∀ stn ∈ [8, 11], ∃ (s : State) (k : Core) (i : BitVec 4) (row : Row) (org : Origin), k = s.core 0 ∧ k.pend = [⟨0, org, .result stn (.ofr i) row 0⟩] ∧ 0 ≤ s.clock 0
    ∧ k.uses = [] ∧ k.faulted = none ∧ (SMap.get ({} : Station) k.stns stn).llAt.1 < s.clock 0 := by
  intro stn _
  exact ⟨atCycle 1 (withCore (fun k => { k with pend := [⟨0, {}, .result stn (.ofr 15) (Row.zero .i8) 0⟩] })), _, 15, Row.zero .i8, {}, rfl, rfl, Nat.zero_le _, rfl, rfl, Nat.zero_lt_one⟩
/-- A hold that asks for its record, and one that is one core cycle too short. -/
theorem wit_HoldsEnd : (∃ (s : State) (w : Crew), s.crew 0 = some w ∧ w.hold = some (2, 1024) ∧ w.part < 16 ∧ (s.core w.leader).holdLog = true)
    ∧ ∃ (s : State) (w : Crew), s.crew 0 = some w ∧ w.hold = some (2, 1023) ∧ w.part < 16 ∧ w.part = 15 :=
  ⟨⟨(withCore (fun k => { k with holdLog := true })).updCrew 0 (fun w => { w with hold := some (2, 1024) }), _, rfl, rfl, by decide, rfl⟩,
    onCore.updCrew 0 (fun w => { w with hold := some (2, 1023), part := 15 }), _, rfl, rfl, by decide, rfl⟩
/-- At the limit and below it, at the last cycle of the clock and before it. -/
theorem wit_CrewLimits : ∀ n ∈ [(0x010000, 2 ^ 48 - 1), (0xFFFF, 2 ^ 48 - 2)], ∃ (s : State) (w : Crew), s.crew 0 = some w ∧ (s.core w.leader).crew = some 0 ∧ w.hold = some (1, n.1)
    ∧ (s.core w.leader).holdLimit.toNat = 0x010000 ∧ w.clock = n.2 ∧ (s.core w.leader).faulted = none := by
  intro n _
  exact ⟨onCore.updCrew 0 (fun w => { w with hold := some (1, n.1), clock := n.2 }), _, rfl, rfl, rfl, rfl, rfl, rfl⟩

/-- A launch of core 0, record 5, instance 9, its task at its end. -/
def taskEnded (count : BitVec 32) : State :=
  { (withProg (fun x => { x with wait := .exited })).updCrew 0 (fun w => { w with record := 5 }) with
    recs := [(5, { word := 1, queue := 0, part := 0, graph := 3, inst := some 9, st := .running })]
    insts := [(9, { level := 0, part := 0, tag := 0, count := count, lastAdded := true })] }

/-- The last task, one that is not the last, and one not at its end. -/
theorem wit_TasksComplete :
    (∀ n ∈ [(1 : BitVec 32), 2], ∃ (s : State) (w : Crew) (r : Rec) (i : Nat) (x : Inst), s.crewOf 0 = some w ∧ (s.core 0).prog.wait = .exited ∧ (s.core 0).taskDone = false ∧ coreQuiet s 0 = true
      ∧ s.recs.find w.record = some r ∧ r.inst = some i ∧ s.insts.find i = some x ∧ x.status = .running ∧ r.st = .running ∧ x.count = n ∧ x.lastAdded = true ∧ x.mark = .done
      ∧ crewOfRec s w.record = some (0, w) ∧ s.crew 0 = some w)
    ∧ ∃ (s : State) (w : Crew), s.crewOf 0 = some w ∧ (s.core 0).prog.wait ≠ .exited := by
  refine ⟨?_, onCore, _, rfl, by decide +kernel⟩
  intro n hn
  fin_cases hn
  · exact ⟨taskEnded 1, { placedCrew (.seq 0 false) with record := 5 }, { word := 1, queue := 0, part := 0, graph := 3, inst := some 9, st := .running }, 9,
      { level := 0, part := 0, tag := 0, count := 1, lastAdded := true }, by decide +kernel⟩
  · exact ⟨taskEnded 2, { placedCrew (.seq 0 false) with record := 5 }, { word := 1, queue := 0, part := 0, graph := 3, inst := some 9, st := .running }, 9,
      { level := 0, part := 0, tag := 0, count := 2, lastAdded := true }, by decide +kernel⟩

/-- A line that may be read, one beyond the object, and one of a tile that is not present. -/
theorem wit_ConstantLines :
    (∃ (s : State) (b : BitVec 512), (s.core 0).prog.wait = .line 0 ∧ fetchLine s 0 (s.core 0).prog.obj 0 = .ok b)
    ∧ (∃ (s : State) (f : HwFault), (s.core 0).prog.wait = .line 64 ∧ fetchLine s 0 (s.core 0).prog.obj 64 = .error f ∧ f.code = 0x10 ∧ f.sub ≠ 6 ∧ f.sub ≠ 7)
    ∧ (∃ (s : State) (f : HwFault), (s.core 0).prog.wait = .line 0 ∧ fetchLine s 0 (s.core 0).prog.obj 0 = .error f ∧ f.code = 0x10 ∧ f.sub = 7 ∧ (s.core 0).faulted = none)
    ∧ (∃ (s : State) (f : HwFault) (n : Nat), (s.core 0).prog.wait = .line 0 ∧ fetchLine s 0 (s.core 0).prog.obj 0 = .error f ∧ f.code = 0x0F ∧ freeSusp s = some n ∧ (s.core 0).fwHolds = false ∧ fetchWaits s 0 = false)
    ∧ ∃ (s : State) (f : HwFault) (n : Nat), (s.core 0).prog.wait = .line 0 ∧ fetchLine s 0 (s.core 0).prog.obj 0 = .error f ∧ f.code = 0x0F ∧ freeSusp s = some n ∧ (s.core 0).fwHolds = true :=
  ⟨⟨inLine nopWord 1 (fun x => { x with wait := .line 0 }), codeLine0 nopWord, by decide +kernel⟩,
    ⟨inLine nopWord 1 (fun x => { x with wait := .line 64 }), accessFault 4, by decide +kernel⟩,
    ⟨{ inLine nopWord 1 (fun x => { x with wait := .line 0 }) with uncorr := (List.range 8192).map (fun b => (0, b)) }, accessFault 7, by decide +kernel⟩,
    ⟨placeBytes 4096 (List.replicate 32 0) (inLine nopWord 1 (fun x => { x with wait := .line 0 })), xlateFault 0, 1, by decide +kernel⟩,
    ⟨(placeBytes 4096 (List.replicate 32 0) (inLine nopWord 1 (fun x => { x with wait := .line 0 }))).updCore 0 (fun k => { k with fwq := [⟨1, 0, 0, [], 1⟩] }), xlateFault 0, 1, by decide +kernel⟩⟩

/-! ## The hypotheses of the statements about storage are met -/

/-- The flash address of page `n`. -/
def pageAt (n : Nat) : Nat := 16384 * n
/-- The tile entry of flash page `n`. -/
def flashTile (n : Nat) : Nat := 1 + 2 + pageAt n
/-- Object 5, a graph: header on page 8, nodes on page 9. Object 6, its log: pages 10 and 11. Object 7, inverted lists: header, centroids, directory and records on pages 16 to 19. -/
def shelf : State :=
  let s := withTable [(5, objWord 5 3 1 8 14 (2 * 16384), [flashTile 8, flashTile 9]), (6, objWord 6 6 1 8 14 (2 * 16384), [flashTile 10, flashTile 11]),
    (7, objWord 7 4 1 8 14 (4 * 16384), [flashTile 16, flashTile 17, flashTile 18, flashTile 19])] State.reset
  let head := fun (list : Nat) (nmax : Nat) => bytesOfNat 8 (list + 4 * 2 + 6 * 2 ^ 19 + nmax * 2 ^ 51)
  let node : Nat := 2 ^ 27 + 2 ^ 29
  { partOpen s with
    now := 5
    keys := [(5, 5), (6, 6), (7, 7)]
    spare := [(8, ⟨5, 0, 0⟩), (9, ⟨5, 0, 0⟩), (10, ⟨6, 0, 0⟩), (11, ⟨6, 0, 0⟩), (16, ⟨7, 0, 0⟩), (17, ⟨7, 0, 0⟩), (18, ⟨7, 0, 0⟩), (19, ⟨7, 0, 0⟩)]
    flash := (((((Memory.setBytes [] (pageAt 8) (head 0 8)).setBytes (pageAt 8 + 32) (bytesOfNat 8 node)).setBytes (pageAt 9) ([7, 0, 0, 0, 0, 0, 0, 0, 0, 0, 1, 0, 0, 0, 0, 0, 1, 2, 3, 4])).setBytes
      (pageAt 16) (head 1 0 ++ List.replicate 18 0 ++ [0x10, 0, 0, 0, 0, 0, 2])).setBytes (pageAt 18) (bytesOfNat 8 (pageAt 19) ++ [1])).setBytes (pageAt 19)
      (bytesOfNat 8 (2 ^ 47 - 1) ++ [1] ++ List.replicate 23 0 ++ [9, 0, 0, 0, 0, 0, 0, 0, 5, 6, 7, 8])
    land := Memory.setBytes [] 0 [1, 1, 1, 1] }
/-- A storage command on an object, IN at 0 and OUT at 4096 of slice 0, of a record of partition 0. -/
def storeCmd (op obj more : Nat) : Cmd :=
  { port := 1, word := .ofNat 256 (op + obj * 2 ^ 18 + 4096 * 64 * 2 ^ 128 + 8192 * 64 * 2 ^ 156 + more), issuer := .record 0, part := some 0, st := .queued }
/-- It stands in focus. -/
def onShelf (c : Cmd) : State := { shelf with cmds := [(1, c)], focus := { cmd := 1 } }
/-- A header of a storage command; the statements do not read it. -/
def shdr : SHdr := ⟨0, 0, 0, 0, 5, 0, 0, 0, 0, 0⟩
/-- Objects 5 to 7, the headers of 5 and 7. -/
def graph5 : Obj := objOf 5 3 1 8 14 (2 * 16384)
def log6 : Obj := objOf 6 6 1 8 14 (2 * 16384)
def lists7 : Obj := objOf 7 4 1 8 14 (4 * 16384)
def head5 : Head := ⟨false, 4, 0, 0, [2 ^ 27 + 2 ^ 29], 6, 1, 8, 0, 0, 1, 0, 0⟩
def head7 : Head := ⟨true, 4, 0, 0, [2], 6, 1, 0, 0, 0, 1, 1, 2⟩
theorem store_of {s : State} {c : Cmd} {kinds : List Nat} {o : Obj}
    (h : s.cmds.find s.focus.cmd = some c ∧ c.port = 1 ∧ c.st = .queued ∧ c.begun = false ∧ c.pos = 0 ∧ c.ben = false ∧ c.cancelled = false ∧ c.tables = []
      ∧ searchAhead s c = false ∧ s.resizing = [] ∧ flashObj s c.portOf c.req kinds c.obj = .ok o) :
    s.storeStarts c kinds o := h

/-- A pair from its second part. -/
theorem pair_of {α β : Type} {p : α × β} {b : β} (h : p.2 = b) : p = (p.1, b) := by cases h; rfl


/-- A search of one node as it starts, and one whose snapshot becomes ready. -/
theorem wit_SearchesGraph :
    (∃ (s : State) (c : Cmd) (f : SrchgF) (o : Obj) (hd : Head) (fd : Found), s.soundStaging ∧ readHead s (c.atWork o) o = .ok hd
      ∧ (snapOf (c.atWork o) hd).snap ≤ ltOf s hd.log ∧ entriesIn (s.log hd.log) hd.merged (snapOf (c.atWork o) hd).snap = []
      ∧ s.mayIn c hd.vb ∧ s.mayOut c (16 * (f.k.toNat + 1)) ∧ f.k = 1
      ∧ beamSearch s { snapOf (c.atWork o) hd with begun := true } o hd (elemCodes hd.elem hd.dim (s.land.bytes c.inAt hd.vb)) (f.beam.toNat + 1) (f.hops.toNat + 1) = (fd, none)
      ∧ fd.scored.length = 1 ∧ s.storeStarts c [3] o)
    ∧ ∃ (s : State) (c : Cmd) (id : Nat), s.cmds.find id = some c ∧ c.isSearch = true ∧ c.st = .waiting ∧ c.wants = none := by
  refine ⟨⟨onShelf (storeCmd 0xF0 5 0), storeCmd 0xF0 5 0, ⟨1, 0, 0, 0⟩, graph5, head5, _, staging_of (by decide +kernel), by decide +kernel, by decide +kernel, by decide +kernel,
    by unfold State.mayIn; decide +kernel, by unfold State.mayOut; decide +kernel, rfl, pair_of (by decide +kernel), by decide +kernel, store_of (by decide +kernel)⟩,
    onShelf { storeCmd 0xF0 5 0 with st := .waiting }, { storeCmd 0xF0 5 0 with st := .waiting }, 1, by decide +kernel⟩

/-- An earlier stamp, and the same stamp of a lower source. -/
theorem wit_SearchOrder : ∀ n ∈ [1, 2], ∃ (s : State) (c d : Cmd) (id : Nat), s.cmds.find s.focus.cmd = some c ∧ s.cmds.find id = some d ∧ c.isSearch = true ∧ d.isSearch = true ∧ d.unit = c.unit
    ∧ d.st = .queued ∧ d.stamp = n ∧ (d.stamp < c.stamp ∨ (d.stamp = c.stamp ∧ d.issuerSource < c.issuerSource)) := by
  intro n hn
  refine ⟨{ shelf with cmds := [(1, { storeCmd 0xF0 5 0 with stamp := 2 }), (2, { storeCmd 0xF1 7 0 with stamp := n, issuer := .ctx 319 true none })], focus := { cmd := 1 } }, _, _, 2, rfl, rfl, ?_⟩
  fin_cases hn <;> decide +kernel

/-- A search of one list of one record. -/
theorem wit_SearchesLists : ∃ (s : State) (c : Cmd) (f : SrchvF) (o : Obj) (hd : Head) (ps bad : List Nat) (fd : Found) (pages : List (Nat × Nat × Bool)), s.storeStarts c [4] o ∧ s.soundStaging
    ∧ readHead s (c.atWork o) o = .ok hd ∧ (snapOf (c.atWork o) hd).snap ≤ ltOf s hd.log ∧ entriesIn (s.log hd.log) hd.merged (snapOf (c.atWork o) hd).snap = []
    ∧ s.mayIn c hd.vb ∧ s.mayOut c (16 * (f.k.toNat + 1)) ∧ (probeCheck s (c.atWork o) f o hd).toOption.isSome
    ∧ probeSet s { snapOf (c.atWork o) hd with begun := true } f o hd (elemCodes hd.elem hd.dim (s.land.bytes c.inAt hd.vb)) = .ok (ps, bad)
    ∧ probeLists s { snapOf (c.atWork o) hd with begun := true } o hd (elemCodes hd.elem hd.dim (s.land.bytes c.inAt hd.vb)) ps (bad.foldl (fun f p => f.badPage p 1) {}, []) = ((fd, pages), none) ∧ pages.length = 1 :=
  ⟨onShelf (storeCmd 0xF1 7 0), storeCmd 0xF1 7 0, ⟨0, 0, 0, 0⟩, lists7, head7, [0], [], {}, [(0x41D00000, 9, true)], store_of (by decide +kernel), staging_of (by decide +kernel), by decide +kernel,
    by decide +kernel, by decide +kernel, by unfold State.mayIn; decide +kernel, by unfold State.mayOut; decide +kernel, by decide +kernel, by decide +kernel, by decide +kernel, rfl⟩

/-- The descriptor of R277 for sixteen products of a vector. -/
def scanDesc : List Byte := bytesOfNat 8 (16 + 2 ^ 16 + 2 ^ 36) ++ bytesOfNat 8 1 ++ bytesOfNat 8 1 ++ bytesOfNat 8 1 ++ bytesOfNat 8 1 ++ bytesOfNat 8 (16 + 16 * 2 ^ 8 + 16 * 2 ^ 24) ++ List.replicate 16 0
def scanState : State := { onShelf (storeCmd 0xF2 5 0) with land := Memory.setBytes [] 0 (scanDesc ++ [1]) }

theorem scan_goes : (scanPages scanState { (storeCmd 0xF2 5 0).atWork graph5 with begun := true, version := (scanState.index graph5.id).version } graph5
    ⟨[⟨16, 1, 1, 0⟩, ⟨1, 0, 0, 0⟩, ⟨1, 0, 0, 0⟩, ⟨1, 0, 0, 0⟩, ⟨1, 0, 0, 0⟩], 0, 0, 1, 16, 16⟩ (elemCodes 0 16 (scanState.land.bytes ((storeCmd 0xF2 5 0).inAt + 64) ((16 * elemBits 0 + 7) / 8)))
    ((List.range (1 : BitVec 24).toNat).map ((1 : BitVec 24).toNat + ·)) []).2 = none := by decide +kernel

/-- A scan of the node page of object 5, with K 0 and with K 1. -/
theorem wit_Scans : ∀ k ∈ [(0 : BitVec 11), 1], ∃ (s : State) (c : Cmd) (f : DscanF) (o : Obj) (d : Desc) (pages : List (Nat × List (Option Nat))), s.storeStarts c [7, 3, 4] o ∧ s.soundStaging ∧ f.k = k
    ∧ f.npages = 1 ∧ s.mayIn c (64 + (d.qlen * elemBits d.elem + 7) / 8) ∧ parseDesc (s.land.bytes c.inAt 64) = some d ∧ f.first.toNat + f.npages.toNat = o.tiles
    ∧ scanPages s { c.atWork o with begun := true, version := (s.index o.id).version } o d (elemCodes d.elem d.qlen (s.land.bytes (c.inAt + 64) ((d.qlen * elemBits d.elem + 7) / 8)))
        ((List.range f.npages.toNat).map (f.first.toNat + ·)) [] = (pages, none) ∧ s.mayOut c (16 * f.k.toNat) := by
  intro k hk
  refine ⟨scanState, storeCmd 0xF2 5 0, ⟨k, 0, 1, 1⟩, graph5, ⟨[⟨16, 1, 1, 0⟩, ⟨1, 0, 0, 0⟩, ⟨1, 0, 0, 0⟩, ⟨1, 0, 0, 0⟩, ⟨1, 0, 0, 0⟩], 0, 0, 1, 16, 16⟩, _, store_of (by decide +kernel),
    staging_of (by decide +kernel), rfl, rfl, by unfold State.mayIn; decide +kernel, by decide +kernel, (by decide +kernel : (1 : BitVec 24).toNat + (1 : BitVec 24).toNat = graph5.tiles),
    pair_of scan_goes, ?_⟩
  unfold State.mayOut
  fin_cases hk <;> decide +kernel

/-- One page of object 5, and a retry of its one failing codeword. -/
theorem wit_ReadsPages :
    (∃ (s : State) (c : Cmd) (f : PgrdF) (o : Obj) (a : Nat → Nat), s.soundStaging ∧ (s.index o.id).old = [] ∧ f.npages = 0 ∧ s.storeStarts c [7, 3, 4, 6] o ∧ f.first.toNat + 1 = o.tiles
      ∧ s.mayOut c 16384 ∧ (∀ i, i < 1 → pageOf s (c.atWork o) o (f.first.toNat + i) = .ok (a i) ∧ pageCheck s (c.atWork o) o (a i) 16384 = .ok ()))
    ∧ ∃ (s : State) (c : Cmd) (h : SHdr) (f : PgrdF) (o : Obj) (id a page cw : Nat), s.soundStaging ∧ (s.index o.id).old = [] ∧ s.cmds.find id = some c ∧ c.port = 1 ∧ c.op = 0xF7 ∧ c.st = .waiting ∧ c.wants = some (4 * page + cw) ∧ s.resizing = []
      ∧ c.ben = false ∧ c.pos = 0 ∧ c.settled = [] ∧ c.instr = some (.pgrd h f) ∧ f.npages = 0 ∧ flashObj s c.portOf c.req [7, 3, 4, 6] c.obj = .ok o ∧ f.first.toNat + 1 ≤ o.tiles
      ∧ s.mayOut c 16384 ∧ (pageOf s c o f.first.toNat = .ok a ∧ (s.keys.find o.id).isSome ∧ (unitsOf 16384 a 16384).all (spareOk s o.id o.colour) = true ∧ 4 * page + cw ∈ unitsOf 4096 a 16384 ∧ 4 * page + cw ∈ s.hardFail ∧ (1, 4 * page + cw) ∉ s.uncorr
      ∧ (∀ k ∈ unitsOf 4096 a 16384, k ≠ 4 * page + cw → k ∉ s.hardFail ∧ (1, k) ∉ s.uncorr)) ∧ ∀ q, (s.reg (0xD01 + 4 * q)).getLsbD 5 = false ∨ 17 ≤ q :=
  ⟨⟨onShelf (storeCmd 0xF7 5 0), storeCmd 0xF7 5 0, ⟨1, 0⟩, graph5, fun _ => pageAt 9, staging_of (by decide +kernel), rfl, rfl, store_of (by decide +kernel), by decide +kernel,
      by unfold State.mayOut; decide +kernel, by decide +kernel⟩,
    { onShelf { storeCmd 0xF7 5 0 with st := .waiting, wants := some 35 } with hardFail := [35] }, { storeCmd 0xF7 5 0 with st := .waiting, wants := some 35 },
    ⟨0, 0, 0, 0, 5, 0, 0, 0, .ofNat 28 (4096 * 64), .ofNat 28 (8192 * 64)⟩, ⟨0, 0⟩, graph5, 1, pageAt 8, 8, 3, staging_of (by decide +kernel), rfl, by decide +kernel, rfl, by decide +kernel, rfl, rfl, rfl,
    by decide +kernel, rfl, rfl, by decide +kernel, rfl, by decide +kernel, by decide +kernel, by unfold State.mayOut; decide +kernel, by decide +kernel, by
      intro q
      by_cases h : 17 ≤ q
      · exact .inr h
      · exact .inl (by interval_cases q <;> decide +kernel)⟩

/-- One entry of each kind, its record at IN. -/
theorem wit_Appends : ∀ p ∈ [(0xF3, (0 : Nat), 32), (0xF3, 1, 32), (0xF4, 2, 8)], ∃ (s : State) (c : Cmd) (o lo : Obj) (hd : Head), s.storeStarts c [3, 4] o ∧ s.soundStaging ∧ appendAhead { s with cmds := s.cmds.put s.focus.cmd (c.atWork o) } (c.atWork o) = false
    ∧ readHead s ((c.atWork o).current s) o = .ok hd ∧ flashObj s c.portOf c.req [6] hd.log = .ok lo ∧ 16 + hd.stride = 32 ∧ s.mayIn c p.2.2 ∧ natOfBytes (s.land.bytes c.inAt 8) ≠ 2 ^ 64 - 1
    ∧ (placeEntries (entryBytesOf hd p.2.1) 1 0).2 ≤ 16384 * (lo.tiles - 1)
    ∧ (∀ a ∈ (placeEntries (entryBytesOf hd p.2.1) 1 (s.log hd.log).tail).1, ∃ x, pageOf s ((c.atWork o).current s) lo (1 + a / 16384 % (lo.tiles - 1)) = .ok x)
    ∧ logUsed (s.log hd.log) hd.merged (placeEntries (entryBytesOf hd p.2.1) 1 (s.log hd.log).tail).2 ≤ 16384 * (lo.tiles - 1) := by
  intro p hp
  fin_cases hp
  · exact ⟨onShelf (storeCmd 0xF3 5 0), storeCmd 0xF3 5 0, graph5, log6, head5, store_of (by decide +kernel), staging_of (by decide +kernel), by decide +kernel, by decide +kernel, by decide +kernel,
      by decide +kernel, by unfold State.mayIn; decide +kernel, by decide +kernel, by decide +kernel, fun a ha => ⟨pageAt 11, by
        have h : a = 0 := by revert a; decide +kernel
        subst h; decide +kernel⟩, by decide +kernel⟩
  · exact ⟨onShelf (storeCmd 0xF3 5 0), storeCmd 0xF3 5 0, graph5, log6, head5, store_of (by decide +kernel), staging_of (by decide +kernel), by decide +kernel, by decide +kernel, by decide +kernel,
      by decide +kernel, by unfold State.mayIn; decide +kernel, by decide +kernel, by decide +kernel, fun a ha => ⟨pageAt 11, by
        have h : a = 0 := by revert a; decide +kernel
        subst h; decide +kernel⟩, by decide +kernel⟩
  · exact ⟨onShelf (storeCmd 0xF4 5 0), storeCmd 0xF4 5 0, graph5, log6, head5, store_of (by decide +kernel), staging_of (by decide +kernel), by decide +kernel, by decide +kernel, by decide +kernel,
      by decide +kernel, by unfold State.mayIn; decide +kernel, by decide +kernel, by decide +kernel, fun a ha => ⟨pageAt 11, by
        have h : a = 0 := by revert a; decide +kernel
        subst h; decide +kernel⟩, by decide +kernel⟩

theorem wit_Stamps : ∃ (s : State) (c : Cmd) (o : Obj) (hd : Head), s.storeStarts c [3, 4] o ∧ readHead s ((c.atWork o).current s) o = .ok hd :=
  ⟨onShelf (storeCmd 0xF6 5 0), storeCmd 0xF6 5 0, graph5, head5, store_of (by decide +kernel), by decide +kernel⟩

/-- An outcome that is a state, from the fact that it is one. -/
theorem went_of {ε α : Type} {e : Except ε α} (h : e.toOption.isSome = true) : ∃ x, e = .ok x := by
  cases e with
  | ok x => exact ⟨x, rfl⟩
  | error _ => simp [Except.toOption] at h

/-- Nothing to merge, and a merge of an empty range. -/
theorem wit_Merges :
    (∃ (s : State) (c : Cmd) (f : MergeF) (o : Obj) (hd : Head), s.storeStarts c [3, 4] o ∧ readHead s ((c.atWork o).current s) o = .ok hd ∧ (s.index c.obj).merging = none ∧ f.m = 0 ∧ ltOf s hd.log = hd.merged)
    ∧ ∃ (s : State) (c : Cmd) (f : MergeF) (o : Obj) (hd : Head) (s2 : State), s.storeStarts c [3, 4] o ∧ readHead s ((c.atWork o).current s) o = .ok hd ∧ (s.index c.obj).merging = none ∧ f.m = 1
      ∧ hd.merged < min f.m.toNat (ltOf s hd.log) ∧ startMerge ((c.atWork o).current s) o hd (min f.m.toNat (ltOf s hd.log)) (some s.focus.cmd)
          { s with cmds := s.cmds.put s.focus.cmd { c.atWork o with begun := true } } = .ok s2 := by
  refine ⟨⟨{ onShelf (storeCmd 0xF5 5 0) with now := 1 }, storeCmd 0xF5 5 0, ⟨0⟩, graph5, head5, store_of (by decide +kernel), by decide +kernel, rfl, rfl, by decide +kernel⟩, ?_⟩
  have h : (startMerge (((storeCmd 0xF5 5 0).atWork graph5).current (onShelf (storeCmd 0xF5 5 0))) graph5 head5
      (min (1 : BitVec 64).toNat (ltOf (onShelf (storeCmd 0xF5 5 0)) head5.log)) (some (onShelf (storeCmd 0xF5 5 0)).focus.cmd)
      { onShelf (storeCmd 0xF5 5 0) with cmds := (onShelf (storeCmd 0xF5 5 0)).cmds.put (onShelf (storeCmd 0xF5 5 0)).focus.cmd { (storeCmd 0xF5 5 0).atWork graph5 with begun := true } }).toOption.isSome = true := by
    decide +kernel
  obtain ⟨s2, h2⟩ := went_of h
  exact ⟨onShelf (storeCmd 0xF5 5 0), storeCmd 0xF5 5 0, ⟨1⟩, graph5, head5, s2, store_of (by decide +kernel), by decide +kernel, rfl, rfl, by decide +kernel, h2⟩

/-- The shelf with MTHRESH 32 and one entry in the log of object 5, not yet durable. -/
def loggedShelf : State := { shelf with flash := shelf.flash.setBytes (pageAt 8 + 16) [32], logs := [(6, { entries := [⟨9, 5, 2, [], false, 0⟩], prev := 5, tail := 32 })] }
/-- The merge engine as a reader of object 5. -/
def engine5 : Cmd := { port := 1, word := .ofNat 256 (0xF5 + 5 * 2 ^ 18), issuer := .record 0, part := some 0 }

theorem wit_StorageByItself_threshold : (∃ (s : State) (e : Cmd) (o : Obj) (hd : Head), engineHead s 5 = some (e, o, hd) ∧ hd.mthresh = 0)
    ∧ ∃ (s s' : State) (e : Cmd) (o : Obj) (hd : Head), engineHead s 5 = some (e, o, hd) ∧ hd.mthresh ≠ 0
      ∧ hd.mthresh = ((entriesIn (s.log hd.log) hd.merged (2 ^ 64)).map (fun e => entryBytesOf hd e.kind)).sum ∧ (s.index 5).merging = none ∧ hd.merged < ltOf s hd.log
      ∧ startMerge e o hd (ltOf s hd.log) none s = .ok s' := by
  refine ⟨⟨shelf, engine5, graph5, head5, by decide +kernel, rfl⟩, ?_⟩
  have h : (startMerge engine5 graph5 { head5 with mthresh := 32 } (ltOf loggedShelf 6) none loggedShelf).toOption.isSome = true := by decide +kernel
  obtain ⟨s', h'⟩ := went_of h
  exact ⟨loggedShelf, s', engine5, graph5, { head5 with mthresh := 32 }, by decide +kernel, by decide, by decide +kernel, by decide +kernel, by decide +kernel, h'⟩
/-- A merge that publishes, with a search of an older version, of its version, and of none, and with a page to write. -/
theorem wit_StorageByItself_publish :
    (∃ s : State, (s.index 5).merging = some (4, none) ∧ (s.index 5).version = 1 ∧ versionsRead s 5 = [0])
    ∧ (∃ s : State, (s.index 5).merging = some (4, none) ∧ (s.index 5).version = 1 ∧ versionsRead s 5 = [1])
    ∧ ∃ (s : State) (c : Cmd) (o : Obj), (s.index 5).merging = some (4, some 1) ∧ versionsRead s 5 = [] ∧ s.cmds.find 1 = some c ∧ (engineHead s 5).isSome = true
      ∧ (s.index 5).shadow = [(9, [1])] ∧ objEntry s ⟨64, 0⟩ 5 = .ok o ∧ (s.keys.find 5).isSome = true :=
  ⟨⟨{ shelf with cmds := [(1, storeCmd 0xF0 5 0)], indexes := [(5, { version := 1, merging := some (4, none) })] }, by decide +kernel⟩,
    ⟨{ shelf with cmds := [(1, { storeCmd 0xF0 5 0 with version := 1 })], indexes := [(5, { version := 1, merging := some (4, none) })] }, by decide +kernel⟩,
    { shelf with cmds := [(1, { storeCmd 0xF5 5 0 with st := .running })], indexes := [(5, { merging := some (4, some 1), shadow := [(9, [1])] })] },
    { storeCmd 0xF5 5 0 with st := .running }, graph5, by decide +kernel⟩

/-- Each kind of command, LT below and at the last stamp. -/
theorem wit_StatusWritten : ∀ p ∈ [(1, 0xF6, 0), (1, 0xF3, 4), (1, 0xF3, 5), (2, 0xFE, 0)], ∃ (s : State) (id : Nat) (c : Cmd), s.cmds.find id = some c ∧ c.st = .moved ∧ c.ben = false ∧ c.hen = false ∧ c.owner = none ∧ c.dirtied = [] ∧ s.resizing = []
    ∧ s.soundStaging ∧ landAllowed s c (landAddr (c.bits 183 156)).1 (landAddr (c.bits 183 156)).2 c.status.length = true ∧ c.port = p.1 ∧ c.status.length = 32 ∧ c.partialDone = false ∧ c.op = p.2.1
    ∧ c.last = p.2.2 ∧ ltOf s c.snap = 4 := by
  intro p hp
  fin_cases hp
  · exact ⟨onShelf { storeCmd 0xF6 5 0 with st := .moved, issuer := .ctx 0 true none, status := List.replicate 32 0 }, 1, _, rfl, rfl, by decide +kernel, by decide +kernel, rfl, rfl, rfl,
      staging_of (by decide +kernel), by decide +kernel, rfl, rfl, rfl, by decide +kernel, rfl, by decide +kernel⟩
  · exact ⟨onShelf { storeCmd 0xF3 5 0 with st := .moved, issuer := .ctx 0 true none, status := List.replicate 32 0, last := 4, snap := 6 }, 1, _, rfl, rfl, by decide +kernel, by decide +kernel, rfl, rfl, rfl,
      staging_of (by decide +kernel), by decide +kernel, rfl, rfl, rfl, by decide +kernel, rfl, by decide +kernel⟩
  · exact ⟨onShelf { storeCmd 0xF3 5 0 with st := .moved, issuer := .ctx 0 true none, status := List.replicate 32 0, last := 5, snap := 6 }, 1, _, rfl, rfl, by decide +kernel, by decide +kernel, rfl, rfl, rfl,
      staging_of (by decide +kernel), by decide +kernel, rfl, rfl, rfl, by decide +kernel, rfl, by decide +kernel⟩
  · exact ⟨onShelf { storeCmd 0xFE 5 0 with port := 2, st := .moved, issuer := .ctx 0 true none, status := List.replicate 32 0 }, 1, _, rfl, rfl, by decide +kernel, by decide +kernel, rfl, rfl, rfl,
      staging_of (by decide +kernel), by decide +kernel, rfl, rfl, rfl, by decide +kernel, rfl, by decide +kernel⟩

/-! ## The hypotheses of the statements about the key-value engine are met -/

/-- Object 8, a space of two sequences, one layer and head and four blocks, at 262144: tables at 64, blocks at 192, states at 256, rotations at 320. -/
def kvShelf (count : Nat) (cells : Memory) : State :=
  let s := withTable [(8, objWord 8 5 0 8 12 4096, [1 + 262144])] State.reset
  let desc := [2 ^ 19, 4 + 4 * 2 ^ 32, 64, 192, 256, 320, count * 2 ^ 32].zipIdx.flatMap (fun x => cellsAt (262144 + 8 * x.2) 8 x.1)
  { partOpen s with lpddr := s.lpddr ++ desc ++ cells }
/-- A key-value command on it, of a record of partition 0. -/
def kvCmd (op : Nat) : Cmd := { storeCmd op 8 0 with port := 2 }
/-- It stands in focus. -/
def onKv (op count : Nat) (cells : Memory) : State := { kvShelf count cells with cmds := [(1, kvCmd op)], focus := { cmd := 1 } }
def obj8 : Obj := objOf 8 5 0 8 12 4096
def space8 (count : Nat) : KvSpace :=
  { o := obj8, layers := 1, kvh := 1, d := 128, kf := 0, rotp := 0, strict := false, nseq := 2, nblk := 4, lmax := 4, t1 := 64, t2 := 192, seqt := 256, freq := 320, head := 0, count := count }

/-- The command of a `kvret` of object 8, as its effect reads. -/
def retWork : Cmd := { (kvCmd 0xFC).atWork obj8 with begun := true }
/-- The state in which it takes its effect. -/
def retState : State := { onKv 0xFC 4 [] with cmds := [(1, retWork)] }

/-- A `kvret` of an empty sequence, which matches nothing. -/
theorem wit_KvCommands : ∃ (s s2 : State) (c : Cmd) (i : Instr) (o : Obj) (sp sp2 : KvSpace) (n : Nat) (r : KDone) (x : SeqState), (∃ h f, i = .kvret h f) ∧ s2.soundStaging
    ∧ s.cmds.find s.focus.cmd = some c ∧ c.st = .queued ∧ kvBehind s c = false ∧ s.resizing = [] ∧ c.ben = false ∧ c.begun = false ∧ c.tables = [] ∧ objEntry s c.portOf c.obj = .ok o
    ∧ (let c0 := c.atWork o
       let s0 := { s with cmds := s.cmds.put s.focus.cmd c0 }
       let c1 := { c0 with begun := true }
       c0.space s0 = .ok sp ∧ kvOutBytes s0 c0 sp i = .ok n ∧ n = 0
       ∧ landAllowed s0 c0 (landAddr (c.bits 183 156)).1 (landAddr (c.bits 183 156)).2 (if c.op = 0xFD then 48 else 32) = true
       ∧ kvEffect i s.focus.cmd c1 sp { s with cmds := s.cmds.put s.focus.cmd c1 } = .ok (r, s2)
       ∧ (s2.cmds.find s.focus.cmd).isSome ∧ c1.space s2 = .ok sp2 ∧ getSeq s2 (c1.kctx s2) sp2 r.seq = .ok x ∧ r.out = []) :=
  ⟨onKv 0xFC 4 [], retState, kvCmd 0xFC, .kvret shdr ⟨1, 0, 0⟩, obj8, space8 4, space8 4, 0, { seq := 1 }, ⟨0, 0, 0⟩, ⟨shdr, ⟨1, 0, 0⟩, rfl⟩, staging_of (by decide +kernel), by decide +kernel⟩

theorem wit_AllocatesBlock : ∃ (s : State) (c : Cmd) (f : KvallocF) (sp : KvSpace) (a n : Nat) (x : SeqState) (b : Ent2), f.n = 0 ∧ s.mayIn c 4 ∧ s.soundStaging
    ∧ natOfBytes (s.land.bytes c.inAt 4) < sp.nseq ∧ sp.layers = 1 ∧ sp.kvh = 1 ∧ sp.o.permits c.req .write = true ∧ s.flatAt sp.o (c.kctx s).p .write a n ∧ apart (tileAddr sp.o.ttPtr 0) 8 a n
    ∧ getSeq s (c.kctx s) sp (natOfBytes (s.land.bytes c.inAt 4)) = .ok x ∧ x.count < sp.lmax ∧ x.next ≤ 2 ^ 32 - 65 ∧ 1 ≤ sp.count ∧ getBlk s (c.kctx s) sp sp.head = .ok b ∧ b.st = 0
    ∧ sp.at1 (natOfBytes (s.land.bytes c.inAt 4)) 0 0 x.count + 16 ≤ n ∧ sp.t2 + 16 * sp.head + 16 ≤ n ∧ sp.seqt + 32 * natOfBytes (s.land.bytes c.inAt 4) + 32 ≤ n ∧ 56 ≤ n :=
  ⟨onKv 0xF8 1 [], kvCmd 0xF8, ⟨0, 0⟩, space8 1, 262144, 4096, ⟨0, 0, 0⟩, ⟨0, 0, 0, 0, 0, 0, 0, false⟩, rfl, by unfold State.mayIn; decide +kernel, staging_of (by decide +kernel), by decide +kernel, rfl, rfl,
    by decide +kernel, flat_of (t := parseTile (1 + 262144)) (by decide +kernel), by unfold apart; decide +kernel, by decide +kernel⟩

/-- A sequence and a layer out of range and in range, an empty sequence, a full table, a position at its end, and too few blocks. -/
theorem wit_KvOutcomes :
    (∃ (sp : KvSpace) (q : BitVec 16), sp.nseq ≤ q.toNat ∧ sp.nseq = q.toNat)
    ∧ (∃ (sp : KvSpace) (q : BitVec 16) (l : BitVec 7), q.toNat < sp.nseq ∧ sp.layers = l.toNat)
    ∧ (∃ (s : State) (c : Cmd) (sp : KvSpace) (x : SeqState), 1 < sp.nseq ∧ 0 < sp.layers ∧ 1 ≤ sp.kvh ∧ getSeq s (c.kctx s) sp 1 = .ok x ∧ x.count = 0 ∧ tableEnts s (c.kctx s) sp 1 0 0 x.count = .ok [])
    ∧ (∃ (s : State) (c : Cmd) (sp : KvSpace) (x : SeqState) (f : KvmapF), f.seq.toNat < sp.nseq ∧ f.dev.toNat = (c.kctx s).dev ∧ getSeq s (c.kctx s) sp f.seq.toNat = .ok x ∧ sp.lmax < x.count + (f.nb.toNat + 1))
    ∧ (∃ (s : State) (c : Cmd) (sp : KvSpace) (x : SeqState), s.mayIn c 4 ∧ s.soundStaging ∧ natOfBytes (s.land.bytes c.inAt 4) < sp.nseq ∧ getSeq s (c.kctx s) sp (natOfBytes (s.land.bytes c.inAt 4)) = .ok x
      ∧ x.count = sp.lmax)
    ∧ (∃ (s : State) (c : Cmd) (sp : KvSpace) (x : SeqState), s.mayIn c 4 ∧ s.soundStaging ∧ natOfBytes (s.land.bytes c.inAt 4) < sp.nseq ∧ getSeq s (c.kctx s) sp (natOfBytes (s.land.bytes c.inAt 4)) = .ok x
      ∧ x.count < sp.lmax ∧ x.next = 2 ^ 32 - 64)
    ∧ (∃ (s : State) (c : Cmd) (sp : KvSpace) (x : SeqState), s.mayIn c 4 ∧ s.soundStaging ∧ natOfBytes (s.land.bytes c.inAt 4) < sp.nseq ∧ getSeq s (c.kctx s) sp (natOfBytes (s.land.bytes c.inAt 4)) = .ok x
      ∧ x.count < sp.lmax ∧ x.next ≤ 2 ^ 32 - 65 ∧ sp.count < sp.layers * sp.kvh)
    ∧ ∃ (s : State) (c : Cmd) (sp : KvSpace) (x : SeqState) (e : Ent1), getSeq s (c.kctx s) sp 0 = .ok x ∧ min (0 + 1) (x.count - 0) = 1 ∧ getEnt1 s (c.kctx s) sp 0 0 0 0 = .ok e :=
  ⟨⟨space8 4, 2, by decide⟩, ⟨space8 4, 1, 1, by decide⟩, ⟨onKv 0xFA 4 [], kvCmd 0xFA, space8 4, ⟨0, 0, 0⟩, by decide +kernel⟩,
    ⟨onKv 0xFB 4 [], kvCmd 0xFB, space8 4, ⟨0, 0, 0⟩, ⟨4, 0, 0, 1, 0⟩, by decide +kernel⟩,
    ⟨onKv 0xF8 4 (cellsAt (262144 + 256) 8 (4 * 2 ^ 32)), kvCmd 0xF8, space8 4, ⟨0, 4, 0⟩, by unfold State.mayIn; decide +kernel, staging_of (by decide +kernel), by decide +kernel, by decide +kernel, by decide +kernel⟩,
    ⟨onKv 0xF8 4 (cellsAt (262144 + 256) 8 (2 ^ 32 - 64)), kvCmd 0xF8, space8 4, ⟨2 ^ 32 - 64, 0, 0⟩, by unfold State.mayIn; decide +kernel, staging_of (by decide +kernel), by decide +kernel, by decide +kernel,
      by decide +kernel, by decide +kernel⟩,
    ⟨onKv 0xF8 0 [], kvCmd 0xF8, space8 0, ⟨0, 0, 0⟩, by unfold State.mayIn; decide +kernel, staging_of (by decide +kernel), by decide +kernel, by decide +kernel, by decide +kernel, by decide +kernel, by decide +kernel⟩,
    onKv 0xFE 4 (cellsAt (262144 + 256) 8 (64 + 2 ^ 32)), kvCmd 0xFE, space8 4, ⟨64, 1, 0⟩, ⟨0, 0, 0, false, 0, 0, 0, 0⟩, by decide +kernel⟩

/-- Sequence 0 holds one token in block 0 of the space, which a first-stage entry of span 3 names; block 0 is OWNED (1) or SHARED (2) at 81920. -/
def kvOne (op st : Nat) : State :=
  onKv op 3 (cellsAt (262144 + 64) 16 (1 + 3 * 2 ^ 4 + 2 ^ 18) ++ cellsAt (262144 + 192) 16 (st + 2 ^ 8 + 5 * 2 ^ 24) ++ cellsAt (262144 + 256) 32 (1 + 2 ^ 32 + 2 ^ 64))
/-- Its entry and its block. -/
def oneEnt : Ent1 := ⟨1, 0, 3, false, 0, 1, 0, 0⟩
def oneBlk (st : Nat) : Ent2 := ⟨st, 0, 0, 1, 5, 0, 0, false⟩

/-- What the effects share, for a block of either state; then the premises of each. -/
theorem wit_KvEffects : ∀ st ∈ [1, 2], ∃ (s : State) (c : Cmd) (sp : KvSpace) (a n q : Nat) (x : SeqState) (e : Ent1) (b : Ent2), let k := c.kctx s
    (sp.layers = 1 ∧ sp.kvh = 1 ∧ sp.d = 128 ∧ sp.kf ≠ 2 ∧ sp.o.permits c.req .write = true ∧ s.flatAt sp.o k.p .write a n ∧ apart (tileAddr sp.o.ttPtr 0) 8 a n
      ∧ q < sp.nseq ∧ getSeq s k sp q = .ok x ∧ sp.seqt + 32 * q + 32 ≤ n ∧ 56 ≤ n ∧ sp.t2 + 16 * e.g + 16 ≤ n ∧ e.dev = k.dev ∧ getBlk s k sp e.g = .ok b)
    ∧ b.st = st ∧ (x.count = 1 ∧ getEnt1 s k sp q 0 0 0 = .ok e ∧ e.live = true ∧ sp.at1 q 0 0 0 + 16 ≤ n ∧ s.mayIn c 4 ∧ s.soundStaging ∧ natOfBytes (s.land.bytes c.inAt 4) = q ∧ e.span = (3 : BitVec 3).toNat)
    ∧ (k.dev < fieldOf (s.reg 0xE30) 19 10 ∧ x.count < sp.lmax ∧ b.maps < 65535 ∧ x.next + 64 ≤ 2 ^ 32 - 1 ∧ sp.at1 q 0 0 x.count + 16 ≤ n ∧ e.g = 0)
    ∧ b.tier = 0 ∧ s.soundBursts (16384 * b.addr) 16384 sp.o.colour ∧ apart (tileAddr sp.o.ttPtr 0) 8 (16384 * b.addr) 16384
    ∧ (e.st = 1 ∧ e.ro = false ∧ e.pos ≤ x.next ∧ x.next - e.pos + 1 ≤ 64 ∧ s.mayIn c 256)
    ∧ 1 ≤ e.ntok ∧ e.ntok ≤ (0 : BitVec 6).toNat + 1 ∧ e.pos = b.spos ∧ (kvThetas s k.p sp).toOption.isSome = true
    ∧ ∀ y ∈ s.lpddr.bytes (16384 * b.addr) (128 * e.ntok) ++ s.lpddr.bytes (16384 * b.addr + 8192) (128 * e.ntok), ((kvFmt sp.kf).decode y.toNat).isFin = true := by
  intro st hst
  refine ⟨{ kvOne 0xF9 st with land := [] }, kvCmd 0xF9, space8 3, 262144, 4096, 0, ⟨1, 1, 1⟩, oneEnt, oneBlk st, ?_⟩
  fin_cases hst <;>
    exact ⟨⟨rfl, rfl, rfl, by decide, by decide +kernel, flat_of (t := parseTile (1 + 262144)) (by decide +kernel), by unfold apart; decide +kernel, by decide +kernel⟩, rfl,
      ⟨rfl, by decide +kernel, rfl, by decide +kernel, by unfold State.mayIn; decide +kernel, staging_of (by decide +kernel), by decide +kernel, rfl⟩, by decide +kernel, rfl,
      sound_of (by decide +kernel), by unfold apart; decide +kernel, ⟨rfl, rfl, by decide, by decide, by unfold State.mayIn; decide +kernel⟩, by decide +kernel⟩

/-! ## Arrivals, the merging of lists and the end of a program's command -/

/-- The present phase in its first and its last arrival, the next one empty and full, of even and odd phases. -/
theorem wit_ArrivalsOfEveryPhase : ∀ q ∈ [(0, 1, 0, 0), (1, 2, 0, 2), (2 ^ 32 - 3, 2, 1, 1)], ∃ p ph n x y : Nat, p < 2 ^ 32 ∧ p = 2 ^ 32 - 1 ∧ ph < 2 ^ 32 - 2 ∧ n < 2 ^ 16 ∧ x < n ∧ y ≤ n ∧ (ph, n, x, y) = q := by
  intro q hq
  refine ⟨2 ^ 32 - 1, q.1, q.2.1, q.2.2.1, q.2.2.2, ?_⟩
  fin_cases hq <;> decide

/-- Sixty-four lists of one pair, of which three are wanted. -/
theorem wit_MergesTheBest : ∃ (s : State) (c : Cmd) (h : FHdr) (f : LtopkF), s.ferryStarts c h ∧ h.sk = 2 ∧ h.dk = 2 ∧ s.soundStaging ∧ f.count = 3 ∧ f.nc = 0 ∧ f.len = 1
    ∧ (∀ l, l < 64 → landAllowed s c (epSlice f.src) (epOff f.src + l * (16 * (f.src.extractLsb' 28 18).toNat)) 16 = true) ∧ s.mayLand c f.dst 48 :=
  ⟨ferryLand 2 2 0, ferryCmd 2 2 0, fhdr 2 2, ⟨3, 0, .ofNat 64 (16 * 64 + 2 ^ 28), landEp 63 0, 0, 0, 0, 1, 0⟩, starts_of (by decide +kernel), rfl, rfl, staging_of rfl, rfl, rfl, rfl,
    by decide +kernel, by unfold State.mayLand; decide +kernel⟩

/-- A program's `copy` with HEN, its writes made, in a launch of two tasks. -/
def endingCmd : Cmd := { port := 0, word := .ofNat 256 (0xE0 + 2 * 2 ^ 8 + 2 * 2 ^ 11 + 3 * 2 ^ 14 + 2 ^ 19), issuer := .ctx 0 false (some 4), part := some 0, st := .moved }
theorem wit_ProgramCommandEnds : ∃ (s : State) (id k rid i : Nat) (c : Cmd) (r : Rec) (x : Inst), s.cmds.find id = some c ∧ c.st = .moved ∧ c.port = 0 ∧ c.bits 10 8 = 2 ∧ c.bits 13 11 = 2 ∧ c.ben = false
    ∧ c.after = [] ∧ c.afterSusps = [] ∧ c.dirtied = [] ∧ c.items = [] ∧ c.op ≠ 0xEC ∧ c.op ≠ 0xE1 ∧ c.issuer = .ctx k false (some rid) ∧ (∃ w, s.crewOf k = some w ∧ w.record = rid)
    ∧ s.recs.find rid = some r ∧ r.inst = some i ∧ s.insts.find i = some x ∧ 2 ≤ x.count.toNat ∧ c.hen = true :=
  ⟨{ onCore.updCrew 0 (fun w => { w with record := 4 }) with cmds := [(6, endingCmd)], recs := [(4, { word := 1, queue := 0, part := 0, graph := 0, st := .running, inst := some 5 })], insts := [(5, { level := 0, part := 0, tag := 1, count := 2 })] },
    6, 0, 4, 5, endingCmd, _, _, rfl, by decide +kernel, rfl, by decide +kernel, by decide +kernel, by decide +kernel, rfl, rfl, rfl, rfl, by decide +kernel, by decide +kernel, rfl, ⟨_, rfl, rfl⟩, rfl, rfl, rfl,
    by decide, by decide +kernel⟩

/-! ## The hypotheses of the statements about records are met -/

/-- Objects 2 (semaphores, 131072), 9 (a graph, 262144) and 10 (code, 65536: line 0 a bucket table, line 1 code). -/
def recShelf (cells : Memory) : State :=
  let s := withTable [(2, objWord 2 0 0 8 12 256, [1 + 131072]), (9, objWord 9 7 0 8 12 4096, [1 + 262144]), (10, objWord 10 1 0 8 12 4096, [1 + 2 ^ 4 + 65536])] State.reset
  let t := cellsAt 65536 64 ((5 + 3 * 2 ^ 32) * 2 ^ 32 + 2 ^ 25 + 0x1FFFFFF) ++ cellsAt (65536 + 64) 64 0x1FFFFFF
  let g := cellsAt (262144 + 64) 64 (1 + 10 * 2 ^ 128)
  { (partOpen s).setReg 0xB08 2 with lpddr := s.lpddr ++ t ++ g ++ cells }
/-- A record of a queue of partition 0, in graph 7. -/
def recOf (kind q more : Nat) : Rec := { word := .ofNat 512 (kind + q * 2 ^ 12 + more), queue := q, part := 0, graph := 7 }
/-- It heads its queue and stands in focus. -/
def atRec (r : Rec) (s : State) : State :=
  { s with recs := [(1, r)], nextId := 20, queues := [(r.queue, { on := true, weight := 1, stream := [1] })], focus := { record := 1 },
           insts := [(7, { level := 2, part := 0, tag := 5, count := 1 })], walks := [(7, { gobj := 9, nrec := 2, next := 1, part := 0 })] }
/-- A header of a record; the statements do not read it. -/
def rhdr : RHdr := ⟨0, 0, 0, 0, 0, 0, 0, 0, 0, 0, 0, 0, 0⟩
theorem recStarts_of {s : State} {id : Nat} {r : Rec} {b : Option Nat}
    (h : (s.focus.record = id ∧ s.recs.find id = some r ∧ r.st = .stream ∧ r.susp = 0 ∧ r.count = none ∧ r.chainPrev = none ∧ (s.queue r.queue).stream.head? = some id)
      ∧ waitHolds s r = .ok true ∧ neededBank s r = .ok b ∧ (∀ key ∈ b.toList, bankOf s key .shadow = none) ∧ (schedPick s r.part (queueKind r.queue)).map (·.1) = some r.queue) :
    s.recordStarts id r := by
  obtain ⟨⟨h1, h2, h3, h4, h5, h6, h7⟩, hw, hb, hk, hp⟩ := h
  refine ⟨h1, h2, h3, h4, h5, h6, h7, hw, ⟨b, hb, fun key hkey => hk key (by simp [hkey])⟩, ?_⟩
  cases hx : schedPick s r.part (queueKind r.queue) with
  | none => rw [hx] at hp; cases hp
  | some p =>
    rw [hx] at hp
    obtain ⟨q, rr⟩ := p
    exact ⟨rr, by simp only [Option.map_some, Option.some.injEq] at hp; subst hp; rfl⟩
theorem retire_of {s : State} {r : Rec} (h : r.bits 9 7 < 2 ∧ r.word.getLsbD 26 = false) : s.mayRetire r := ⟨h.1, fun x => absurd x (by rw [h.2]; decide)⟩

/-- A record that starts, with and without a signal, and one whose wait does not hold. -/
theorem wit_PlainRecords : (∃ (s : State) (id : Nat) (r : Rec), s.recordStarts id r ∧ r.kind ≠ 12 ∧ s.mayRetire r ∧ r.word.getLsbD 26 = false)
    ∧ (∃ (s : State) (id : Nat) (r : Rec), s.recordStarts id r ∧ r.kind ≠ 12 ∧ s.mayRetire r ∧ r.word.getLsbD 26 = true)
    ∧ ∃ (s : State) (id : Nat) (r : Rec), s.focus.record = id ∧ s.recs.find id = some r ∧ r.chainPrev = none ∧ waitHolds s r = .ok false :=
  ⟨⟨atRec (recOf 0 1023 0) (recShelf []), 1, recOf 0 1023 0, recStarts_of (b := none) (by decide +kernel), by decide +kernel, retire_of (by decide +kernel), by decide +kernel⟩,
    ⟨atRec (recOf 6 0 (2 ^ 26 + 3 * 2 ^ 64 + 2 ^ 112)) (recShelf []), 1, recOf 6 0 (2 ^ 26 + 3 * 2 ^ 64 + 2 ^ 112), recStarts_of (b := none) (by decide +kernel), by decide +kernel,
      ⟨by decide +kernel, fun _ => ⟨131072 + 4, obj2, 131072, 256, by decide +kernel, by decide +kernel, by decide +kernel, flat_of (t := tile2) (by decide +kernel),
        flat_of (t := tile2) (by decide +kernel), by decide +kernel, by decide +kernel⟩⟩, by decide +kernel⟩,
    atRec (recOf 5 0 (2 ^ 22 + 3 * 2 ^ 32)) (recShelf []), 1, recOf 5 0 (2 ^ 22 + 3 * 2 ^ 32), by decide +kernel⟩

/-- Scopes on either side of DEVICE, with a dirty sector and a clean one. -/
theorem wit_ScopedRecords : ∀ p ∈ [(4, 1), (0, 2), (2, 4)], ∃ (s : State) (id : Nat) (r : Rec), s.recordStarts id r ∧ r.kind ≠ 12 ∧ r.word.getLsbD 26 = false
    ∧ r.bits 6 4 = p.1 ∧ r.bits 9 7 = p.2 ∧ (63 ∈ partSlices s r.part ∧ s.cacheOf 63 ≠ []) := by
  intro p hp
  refine ⟨atRec (recOf 0 0 (p.1 * 2 ^ 4 + p.2 * 2 ^ 7)) { recShelf [] with cache := [(63, [(5, ⟨1, false, 0, 0, 0, 0⟩), (6, ⟨2, true, 0, 0, 0, 0⟩)])] }, 1, recOf 0 0 (p.1 * 2 ^ 4 + p.2 * 2 ^ 7),
    recStarts_of (b := none) ?_, ?_⟩ <;> revert p <;> decide +kernel

/-- A record of the graph that is being walked. -/
theorem wit_WalkRecords_branch : ∃ (s : State) (id : Nat) (r : Rec) (w : Walk) (c : BranchF) (v : Nat), s.recordStarts id r ∧ r.kind ≠ 12 ∧ s.mayRetire r ∧ s.walks.find r.graph = some w
    ∧ s.walking r ∧ c.target.toNat ≤ w.nrec ∧ c.target.toNat = w.nrec ∧ semGet s r.part c.bsem.toNat = .ok v :=
  ⟨atRec (recOf 7 0 0) (recShelf []), 1, recOf 7 0 0, { gobj := 9, nrec := 2, next := 1, part := 0 }, ⟨63, 0, 0, 2⟩, 0, recStarts_of (b := none) (by decide +kernel), by decide +kernel,
    retire_of (by decide +kernel), by decide +kernel, ⟨_, rfl, by decide, by decide⟩, by decide, by decide, by decide +kernel⟩

/-- A count of zero and one that the last bucket just serves. -/
theorem wit_WalkRecords_select : ∀ n ∈ [0, 3], ∃ (s : State) (id : Nat) (r : Rec) (w : Walk) (c : SelectF) (v l : BitVec 512), s.recordStarts id r ∧ r.kind ≠ 12 ∧ s.mayRetire r
    ∧ s.walks.find r.graph = some w ∧ s.walking r ∧ landAligned c.cnt = true ∧ s.mayLandRec r c.cnt 16 ∧ s.soundStaging ∧ r.index + 1 < w.nrec ∧ graphWord s r.part w.gobj (r.index + 1) = .ok v
    ∧ bitsOf v.toNat 3 0 = 1 ∧ codeLine s qmPort (.job (some r.part)) .fetch (bitsOf v.toNat 151 128) c.tline.toNat = .ok l ∧ lineEngine l = 0 ∧ lineKind l = 1
    ∧ natOfBytes (s.land.bytes (landWord c.cnt) 4) = n ∧ bucketOf l n = some (5 + 3 * 2 ^ 32) := by
  intro n hn
  have h : ∀ n ∈ [0, 3], let s := atRec (recOf 8 0 0) { recShelf [] with land := Memory.setBytes [] 4177920 [.ofNat 8 n] }
      natOfBytes (s.land.bytes (landWord (.ofNat 28 (4177920 * 64))) 4) = n ∧ s.uncorr = [] := by decide +kernel
  obtain ⟨h1, h2⟩ := h n hn
  refine ⟨_, 1, recOf 8 0 0, { gobj := 9, nrec := 2, next := 1, part := 0 }, ⟨.ofNat 28 (4177920 * 64), 1, 1, 0⟩, .ofNat 512 (1 + 10 * 2 ^ 128),
    .ofNat 512 ((5 + 3 * 2 ^ 32) * 2 ^ 32 + 2 ^ 25 + 0x1FFFFFF), ?_, by decide +kernel, retire_of (by decide +kernel), ?_, ⟨_, rfl, by decide, by decide⟩, by decide +kernel, ?_,
    staging_of h2, by decide +kernel, ?_, by decide +kernel, ?_, by decide +kernel, by decide +kernel, h1, ?_⟩
  · exact recStarts_of (b := none) (by fin_cases hn <;> decide +kernel)
  · fin_cases hn <;> decide +kernel
  · unfold State.mayLandRec; fin_cases hn <;> decide +kernel
  · fin_cases hn <;> decide +kernel
  · fin_cases hn <;> decide +kernel
  · fin_cases hn <;> decide +kernel

def obj9 : Obj := objOf 9 7 0 8 12 4096
/-- A graph of as many records as its object holds; a walk at its last record. -/
theorem wit_GraphsStart : (∃ (s : State) (id : Nat) (r : Rec) (c : GraphF) (o : Obj), s.recordStarts id r ∧ (∀ j x, (s.queue r.queue).jobInst = some j → s.insts.find j = some x → x.count ≠ 0xFFFFFFFF)
      ∧ r.kind = 10 ∧ c.nrec ≠ 0 ∧ objEntry s qmPort c.gobj.toNat = .ok o ∧ o.alias0 = false
      ∧ o.kind = 7 ∧ o.ndim = 1 ∧ o.owner = r.part ∧ 64 * c.nrec.toNat ≤ o.elems ∧ 64 * c.nrec.toNat = o.elems ∧ graphOff s o c.nrec.toNat = false)
    ∧ ∃ (s : State) (g : Nat) (w : Walk) (v : BitVec 512) (x : Inst), s.walks.find g = some w ∧ w.next < w.nrec ∧ w.next + 1 = w.nrec ∧ graphWord s w.part w.gobj w.next = .ok v
      ∧ bitsOf v.toNat 3 0 ≠ 9 ∧ (s.queue (bitsOf v.toNat 21 12)).stream.length < 64 ∧ (s.queue (bitsOf v.toNat 21 12)).on = true ∧ w.phase = none ∧ w.skip = false
      ∧ s.insts.find g = some x ∧ x.count ≠ 0xFFFFFFFF
      ∧ addCheck s { word := v, queue := bitsOf v.toNat 21 12, part := w.part, graph := g, index := w.next, chainPrev := w.lastRec, entry := w.entry, ltag := w.ltag } true = none :=
  ⟨⟨atRec (recOf 10 0 0) (recShelf []), 1, recOf 10 0 0, ⟨9, 64, 3⟩, obj9, recStarts_of (b := none) (by decide +kernel), (fun j x h => by cases h), by decide +kernel⟩,
    atRec (recOf 10 0 0) (recShelf []), 7, { gobj := 9, nrec := 2, next := 1, part := 0 }, .ofNat 512 (1 + 10 * 2 ^ 128), { level := 2, part := 0, tag := 5, count := 1 }, by decide +kernel⟩

/-- The last vector of a partition, a landing address at the end of the last slice, a cancel, a fence. -/
theorem wit_OtherRecords : (∃ (s : State) (id : Nat) (r : Rec) (c : IrqF), s.recordStarts id r ∧ r.kind = 12 ∧ s.mayRetire r ∧ r.word.getLsbD 26 = false ∧ r.bits 138 128 = c.vector.toNat
      ∧ fieldOf (partReg s r.part 9) 10 0 ≤ c.vector.toNat ∧ c.vector.toNat < fieldOf (partReg s r.part 9) 10 0 + fieldOf (partReg s r.part 9) 22 11 ∧ c.vector = 2047)
    ∧ ∃ (s : State) (id : Nat) (r : Rec) (c : StampRecordF), s.recordStarts id r ∧ r.kind ≠ 12 ∧ s.mayRetire r ∧ landAligned c.dst = true ∧ s.mayLandRec r c.dst 16 :=
  ⟨⟨atRec (recOf 12 0 (2047 * 2 ^ 128)) ((recShelf []).setReg 0xB09 (.ofNat 64 (2047 + 2 ^ 11))), 1, recOf 12 0 (2047 * 2 ^ 128), ⟨2047⟩, recStarts_of (b := none) (by decide +kernel),
      by decide +kernel, retire_of (by decide +kernel), by decide +kernel⟩,
    atRec (recOf 13 0 0) (recShelf []), 1, recOf 13 0 0, ⟨.ofNat 28 (63 + 4177920 * 64 + 16 * 64)⟩, recStarts_of (b := none) (by decide +kernel), by decide +kernel, retire_of (by decide +kernel),
    by decide +kernel, by unfold State.mayLandRec; decide +kernel⟩

def obj10 : Obj := objOf 10 1 0 8 12 4096
/-- The lines of the code object's tile. -/
def lines10 : SMap (BitVec 512) := (List.range 64).map (fun k => (k, if k = 0 then .ofNat 512 ((5 + 3 * 2 ^ 32) * 2 ^ 32 + 2 ^ 25 + 0x1FFFFFF) else if k = 1 then 0x1FFFFFF else 0))
theorem wit_MapsCode : ∃ (s : State) (id : Nat) (r : Rec) (c : MapF) (o : Obj) (m : SMap (BitVec 512)), s.recordStarts id r ∧ s.mayRetire r ∧ s.soundBursts (tileAddr o.ttPtr c.first.toNat) (8 * c.ntiles.toNat) (tableColour s)
    ∧ s.mayLandRec r c.report (16 + 16 * c.cap.toNat) ∧ r.kind ≠ 12 ∧ r.word.getLsbD 26 = false ∧ s.cmds = [] ∧ suspsAhead s = []
    ∧ objEntry s qmPort c.obj.toNat = .ok o ∧ o.alias0 = false ∧ o.kind = 1 ∧ o.owner = r.part ∧ c.ntiles.toNat ≠ 0 ∧ c.first.toNat + c.ntiles.toNat ≤ o.tiles ∧ landAligned c.report = true
    ∧ mapLines s o ((List.range c.ntiles.toNat).map (c.first.toNat + ·)) = .ok m :=
  ⟨atRec (recOf 14 0 0) (recShelf []), 1, recOf 14 0 0, ⟨10, 0, 1, 0, 2⟩, obj10, lines10, recStarts_of (b := none) (by decide +kernel), retire_of (by decide +kernel), sound_of (by decide +kernel),
    by unfold State.mayLandRec; decide +kernel, by decide +kernel⟩

/-- The fields of a LAUNCH of core 0 and their bits: its code at line 1 of object 10, one buffer of its bank. -/
def launch10 : LaunchRecordF := ⟨10, 1, 0, 0, 1, 1, 1, 1, 0, 0, 0, 1, 0, 1, 0, 0, 0, 0, 0, 0, 0, 9, 0⟩
def launchRec : Rec := match encode (.launch_record rhdr launch10) with
  | .record w => { word := w, queue := 0, part := 0, graph := 7 }
  | _ => recOf 1 0 0
theorem wit_LaunchRecords : ∃ (s : State) (id : Nat) (r : Rec) (c : LaunchRecordF), s.recordStarts id r ∧ r.kind = 1 ∧ launchCheck s r (launchFields r c) = none :=
  ⟨atRec launchRec (recShelf []), 1, launchRec, launch10, recStarts_of (b := some (bandKey 0 0 launchRec.cls)) (by decide +kernel), by decide +kernel, by decide +kernel⟩

/-- A FERRY record of the last ferry, a STORE and a KV record. -/
theorem wit_CommandRecords :
    (∃ (s : State) (id key : Nat) (r : Rec) (c : FerryRecordF), s.recordStarts id r ∧ neededBank s r = .ok (some key) ∧ bankOf s key .active = none
      ∧ hasRoom s { port := r.kind - 2, word := r.command, issuer := .record id, part := some r.part, tag := instTag s r.graph, unit := r.bits 389 384 } = true
      ∧ (schedPick s r.part (queueKind r.queue)).all (fun x => ferryTurn { s with rr := x.2 } { port := r.kind - 2, word := r.command, issuer := .record id, part := some r.part, tag := instTag s r.graph, unit := r.bits 389 384 }) = true
      ∧ r.kind = 2 ∧ (partReg s r.part 7).getLsbD c.ferry.toNat = true ∧ c.ferry = 63 ∧ portOpOk 0 (bitsOf (cmdWord c.c0 c.c1 c.c2 c.c3).toNat 7 0) = true ∧ portBad true (cmdWord c.c0 c.c1 c.c2 c.c3) = none)
    ∧ (∃ (s : State) (id key : Nat) (r : Rec) (c : StoreRecordF), s.recordStarts id r ∧ neededBank s r = .ok (some key) ∧ bankOf s key .active = none
      ∧ hasRoom s { port := r.kind - 2, word := r.command, issuer := .record id, part := some r.part, tag := instTag s r.graph, unit := 0 } = true
      ∧ (schedPick s r.part (queueKind r.queue)).all (fun x => ferryTurn { s with rr := x.2 } { port := r.kind - 2, word := r.command, issuer := .record id, part := some r.part, tag := instTag s r.graph, unit := 0 }) = true
      ∧ r.kind = 3 ∧ portOpOk 1 (bitsOf (cmdWord c.c0 c.c1 c.c2 c.c3).toNat 7 0) = true ∧ portBad true (cmdWord c.c0 c.c1 c.c2 c.c3) = none)
    ∧ ∃ (s : State) (id key : Nat) (r : Rec) (c : KvRecordF), s.recordStarts id r ∧ neededBank s r = .ok (some key) ∧ bankOf s key .active = none
      ∧ hasRoom s { port := r.kind - 2, word := r.command, issuer := .record id, part := some r.part, tag := instTag s r.graph, unit := 0 } = true
      ∧ (schedPick s r.part (queueKind r.queue)).all (fun x => ferryTurn { s with rr := x.2 } { port := r.kind - 2, word := r.command, issuer := .record id, part := some r.part, tag := instTag s r.graph, unit := 0 }) = true
      ∧ r.kind = 4 ∧ portOpOk 2 (bitsOf (cmdWord c.c0 c.c1 c.c2 c.c3).toNat 7 0) = true ∧ portBad true (cmdWord c.c0 c.c1 c.c2 c.c3) = none :=
  ⟨⟨atRec (recOf 2 512 (63 * 2 ^ 384)) ((recShelf []).setReg 0xB07 (.allOnes 64)), 1, 71, recOf 2 512 (63 * 2 ^ 384), ⟨0xE0 + 2 * 2 ^ 8 + 2 * 2 ^ 11 + 10 * 2 ^ 26, 0, 0, 0, 63⟩,
      recStarts_of (b := some 71) (by decide +kernel), by decide +kernel⟩,
    ⟨atRec (recOf 3 768 (2 * 2 ^ 146)) (recShelf []), 1, 72, recOf 3 768 (2 * 2 ^ 146), ⟨0xF6, 0, 0, 0⟩, recStarts_of (b := some 72) (by decide +kernel), by decide +kernel⟩,
    atRec (recOf 4 1023 0) (recShelf []), 1, 88, recOf 4 1023 0, ⟨0xFC, 0, 0, 0⟩, recStarts_of (b := some 88) (by decide +kernel), by decide +kernel⟩

/-- A record that is done, one that is still at work, one that waits for a translation. -/
theorem wit_Retirement : (∀ st ∈ [Status.done, .cancelled, .part], ∃ (s : State) (id : Nat) (r : Rec), s.recs.find id = some r ∧ r.st = .done st ∧ r.susp = 0 ∧ s.mayRetire r ∧ r.kind = 12)
    ∧ (∃ (s : State) (id : Nat) (r : Rec), s.recs.find id = some r ∧ ∀ st, r.st ≠ .done st) ∧ ∃ (s : State) (id : Nat) (r : Rec), s.recs.find id = some r ∧ r.susp ≠ 0 := by
  refine ⟨fun st _ => ⟨atRec { recOf 12 0 0 with st := .done st } State.reset, 1, { recOf 12 0 0 with st := .done st }, rfl, rfl, rfl, retire_of ?_, ?_⟩,
    ⟨atRec { recOf 12 0 0 with st := .running } State.reset, 1, { recOf 12 0 0 with st := .running }, rfl, fun st h => by cases h⟩,
    atRec { recOf 12 0 0 with susp := 3 } State.reset, 1, { recOf 12 0 0 with susp := 3 }, rfl, by decide⟩ <;> cases st <;> decide +kernel

/-! ## The hypotheses of the statements about queues, launches and pre-emption are met -/

/-- Device memory with a descriptor of queue 1023 at 524288 and the objects 2 (ring and tail) and 9 (a ring of four records). -/
def descShelf (part ring : Nat) : State :=
  let s := withTable [(2, objWord 2 0 0 8 12 256, [1 + 131072]), (9, objWord 9 0 0 8 12 4096, [1 + 262144])] State.reset
  { ((partOpen s).setReg 0xB08 2).setReg 0xC00 (.ofNat 64 (524288 / 64)) with lpddr := s.lpddr ++ cellsAt (524288 + 64 * 1023) 64 (ring + 2 * 2 ^ 24 + 7 * 2 ^ 30 + part * 2 ^ 33 + 255 * 2 ^ 45 + 2 * 2 ^ 64 + 192 * 2 ^ 88 + 5 * 2 ^ 128) }
/-- The conditions of R323, on the last queue: a descriptor that meets them, two that do not, and one that cannot be read; and a queue that is on. -/
theorem wit_QueuesOnAndOff : (∀ p ∈ [(0, 9, 0, true), (0, 3, 0, false), (15, 9, 0, false), (0, 9, 1, false)], ∃ (s : State) (q : Nat), (s.queue q).on = false ∧ q = 1023
    ∧ (let a := descAddr s q
       let b := bitsOf (natOfBytes (s.lpddr.bytes a 64))
       ((bareRead s a 64).toOption.isSome && decide (2 ≤ b 27 24 ∧ b 27 24 ≤ 15 ∧ b 29 28 ≠ 3 ∧ b 127 88 % 64 = 0 ∧ partOn s (b 36 33) = true
        ∧ ringObjBad s (b 23 0) (b 36 33) (64 * 2 ^ b 27 24) = none ∧ ringObjBad s (b 87 64) (b 36 33) (b 127 88 + 64) = none)) = p.2.2.2))
    ∧ (∃ (s : State) (q : Nat), (s.queue q).on = false ∧ (bareRead s (descAddr s q) 64).toOption.isSome = true ∧ bitsOf (natOfBytes (s.lpddr.bytes (descAddr s q) 64)) 36 33 = 15 ∧ partOn s 15 = false)
    ∧ (∃ (s : State) (q : Nat) (f : HwFault), (s.queue q).on = false ∧ bareRead s (descAddr s q) 64 = .error f)
    ∧ ∃ (s : State) (q : Nat) (d : List Byte), (s.queue q).on = true ∧ bareRead s (descAddr s q) 64 = .ok d := by
  refine ⟨fun p hp => ⟨{ descShelf p.1 p.2.1 with uncorr := List.replicate p.2.2.1 (0, (524288 + 64 * 1023) / 32) }, 1023, ?_⟩,
    ⟨descShelf 15 9, 1023, by decide +kernel⟩, ⟨{ descShelf 0 9 with uncorr := [(0, (524288 + 64 * 1023) / 32)] }, 1023, accessFault 7, by decide +kernel⟩,
    { descShelf 0 9 with queues := [(1, { on := true })] }, 1, List.replicate 64 0, by decide +kernel⟩
  revert p
  decide +kernel

/-- Queue 0 is on, with ring 9 and its tail line in object 2, four records behind the producer index at most. -/
def ringOn (tail : Nat) : State :=
  let s := withTable [(2, objWord 2 0 0 8 12 256, [1 + 131072]), (9, objWord 9 0 0 8 12 4096, [1 + 262144])] State.reset
  { partOpen s with lpddr := s.lpddr ++ cellsAt 131072 4 tail, queues := [(0, { on := true, ring := 9, log2n := 2, tobj := 2, toff := 0, weight := 1, head := 0xFFFFFFFF })] }
theorem wit_TailWrites : (∃ (s : State) (q : Nat) (p : BitVec 32), (s.queue q).on = true ∧ (s.queue q).susp = 0 ∧ (s.queue q).discard = true ∧ readTail s (s.queue q) = .ok p)
    ∧ (∃ (s : State) (q : Nat) (p : BitVec 32), (s.queue q).on = true ∧ (s.queue q).susp = 0 ∧ (s.queue q).discard = false ∧ readTail s (s.queue q) = .ok p ∧ p = (s.queue q).head)
    ∧ (∃ (s : State) (q : Nat) (p : BitVec 32), (s.queue q).on = true ∧ (s.queue q).susp = 0 ∧ (s.queue q).discard = false ∧ readTail s (s.queue q) = .ok p ∧ 2 ^ (s.queue q).log2n < (p - (s.queue q).head).toNat
      ∧ 2 ^ (s.queue q).log2n + 1 = (p - (s.queue q).head).toNat)
    ∧ ∃ (s : State) (q : Nat) (v : BitVec 512), let x := s.queue q
      x.on = true ∧ x.susp = 0 ∧ x.discard = false ∧ readTail s x = .ok (x.head + 1) ∧ x.stream.length < 64 ∧ s.halted.contains x.part = false ∧ x.jobInst = none ∧ (∀ g ∈ s.insts, g.2.parent ≠ some s.nextId)
      ∧ bitsOf v.toNat 3 0 ≠ 10 ∧ (bareRead s (descAddr s q) 64).toOption.isSome = true ∧ qmRead s x.part x.ring (64 * (x.head.toNat % 2 ^ x.log2n)) 64 = .ok (bytesOfNat 64 v.toNat)
      ∧ addCheck s { word := v, queue := q, part := x.part, graph := 0 } false = none :=
  ⟨⟨{ ringOn 3 with queues := (ringOn 3).queues.map (fun p => (p.1, { p.2 with discard := true })) }, 0, 3, by decide +kernel⟩, ⟨ringOn 0xFFFFFFFF, 0, 0xFFFFFFFF, by decide +kernel⟩, ⟨ringOn 4, 0, 4, by decide +kernel⟩, ringOn 0, 0, 0, by decide +kernel⟩

/-- The crew of core 0, at cycle 3, of launch record 1, with this allotment. -/
def runningCrew : Crew := { members := [0], record := 1, allot := launch10, started := true, clock := 3 }
/-- It runs, its record of class 2 at work. -/
def launched (w : Crew) (r : Rec) : State :=
  { recShelf [] with recs := [(1, r)], insts := [(2, { level := 0, part := 0, tag := 9, count := 1, lastAdded := true })], nextId := 20,
                     crews := [(0, w)], cores := [(0, { crew := some 0 })] }
def bulkRec : Rec := { launchRec with word := launchRec.word ||| 0x800#512, st := .running, inst := some 2 }
theorem wit_CancelsByTag : ∃ (s : State) (part : Nat) (tag : BitVec 32) (id k : Nat) (r : Rec) (w : Crew),
    s.recs.filter (fun p => p.2.kind == 1 && p.2.part == part && p.2.launchTag == tag && p.2.inst.isSome) = [(id, r)] ∧ s.recs.find id = some r
    ∧ r.st = .running ∧ crewOfRec s id = some (k, w) ∧ s.crew k = some w ∧ w.started = true ∧ w.stopped = none ∧ w.record = id ∧ ∀ p ∈ s.cmds, p.2.owner ≠ some id :=
  ⟨launched { runningCrew with hold := some (2, 7) } bulkRec, 0, 9, 1, 0, bulkRec, { runningCrew with hold := some (2, 7) }, by decide +kernel⟩

/-- Its record stands in the active bank of its band; clocks 5 and up are its partition's. -/
def waiting (asleep : Bool) : State :=
  { (recShelf []).setReg 0xB0D (.ofNat 64 (2 ^ 64 - 2 ^ 5)) with recs := [(1, { launchRec with st := .active, inst := some 2 })], nextId := 20, insts := [(2, { level := 0, part := 0, tag := 9 })], cores := [(0, { asleep := asleep })] }
theorem wit_Reserves : (∃ (s : State) (id : Nat) (r : Rec) (c : LaunchRecordF) (clk : Nat), s.recs.find id = some r ∧ launchOf r = some c ∧ r.st = .active ∧ (∀ m ∈ memberCores c, online s m = true)
      ∧ memberCores c = [0] ∧ canReserve s id r c = some clk ∧ clk = 5)
    ∧ ∃ (s : State) (id : Nat) (r : Rec) (c : LaunchRecordF), s.recs.find id = some r ∧ launchOf r = some c ∧ r.st = .active ∧ (∀ m ∈ memberCores c, online s m = true)
      ∧ canReserve s id r c = none ∧ (s.core 0).asleep = true :=
  ⟨⟨waiting false, 1, { launchRec with st := .active, inst := some 2 }, launch10, 5, by decide +kernel⟩, waiting true, 1, { launchRec with st := .active, inst := some 2 }, launch10, by decide +kernel⟩

/-- A launch with a parameter block of one line and one without. -/
theorem wit_LaunchStarts : (∃ (s : State) (k : Nat) (w : Crew) (par : List Byte), s.crew k = some w ∧ w.started = false ∧ w.members.Nodup ∧ parBlock s w = .ok par ∧ par = [])
    ∧ ∃ (s : State) (k : Nat) (w : Crew) (par : List Byte), s.crew k = some w ∧ w.started = false ∧ w.members.Nodup ∧ parBlock s w = .ok par ∧ par.length = 64 :=
  ⟨⟨launched { runningCrew with started := false } bulkRec, 0, { runningCrew with started := false }, [], by decide +kernel⟩,
    launched { runningCrew with started := false, allot := { launch10 with parLines := 1, parObj := 2 } } bulkRec, 0,
    { runningCrew with started := false, allot := { launch10 with parLines := 1, parObj := 2 } }, List.replicate 64 0, by decide +kernel⟩

/-- A launch of class 0 waits for core 0, on which one of class 2 runs; partition 0 allows pre-emption and has this many save slots from 7 on. -/
def contended (slots : Nat) : State :=
  { (((launched runningCrew bulkRec).setReg 0xB00 3).setReg 0xB0E (.ofNat 64 (7 + slots * 2 ^ 9))).setReg 0xD80 (.ofNat 64 (511 * 2 ^ 24)) with recs := [(1, bulkRec), (3, { launchRec with st := .active, inst := some 4 })] }
theorem wit_AsksForFreeze : ∀ slots ∈ [0, 1], ∃ (s : State) (id : Nat) (r : Rec) (c : LaunchRecordF) (k : Nat) (v : Crew), s.recs.find id = some r ∧ launchOf r = some c
    ∧ (r.st = .active ∧ r.cls < 2 ∧ (partReg s r.part 0).getLsbD 1 = true ∧ canReserve s id r c = none) ∧ victims s r c = [(k, v)] ∧ s.crew k = some v
    ∧ v.members.length = 1 ∧ (freeSlots s r.part).length - promised s r.part = slots := by
  intro slots hs
  refine ⟨contended slots, 3, { launchRec with st := .active, inst := some 4 }, launch10, 0, runningCrew, ?_⟩
  revert slots
  decide +kernel

theorem wit_Freezes : (∃ (s : State) (k : Nat) (w : Crew), s.crew k = some w ∧ w.freezeIn = some (3, 1) ∧ ∀ rec, w.freezeIn ≠ some (rec, 0))
    ∧ ∃ (s : State) (k : Nat) (w : Crew) (rec : Nat), s.crew k = some w ∧ w.freezeIn = some (rec, 0) ∧ w.frozen = none ∧ w.stopped = none ∧ w.members.Nodup
      ∧ w.members.length ≤ (freeSlots s w.part).length ∧ w.members.length = (freeSlots s w.part).length :=
  ⟨⟨launched { runningCrew with freezeIn := some (3, 1) } bulkRec, 0, { runningCrew with freezeIn := some (3, 1) }, by decide +kernel, rfl, fun rec h => by cases h⟩,
    ((launched { runningCrew with freezeIn := some (3, 0) } bulkRec).setReg 0xB0E (.ofNat 64 (7 + 2 ^ 9))).setReg 0xD80 (.ofNat 64 (511 * 2 ^ 24)), 0, { runningCrew with freezeIn := some (3, 0) }, 3, by decide +kernel⟩

/-- A request of a kind. -/
def reqOf (kind : Nat) : FwReq := ⟨kind, 0, 464, [], 0⟩
/-- What a core may take while a SAVE waits, as the statement says it. -/
def mayTake (s : State) (c : Nat) (q : FwReq) : Prop := (s.core c).fwq.any (fun r => r.kind == 5) = false ∨ saveReady s c = true ∨ q.kind = 1 ∨ q.kind = 2 ∨ q.kind = 3
/-- A service in progress, a SAVE that waits for a command of the core, requests of which the second comes first, and a trap to take before a SAVE. -/
theorem wit_ServicesStart : (∃ (s : State) (c : Nat), (s.core c).svc ≠ none) ∧ (∃ (s : State) (c : Nat), (s.core c).svc = none ∧ (s.core c).fwq ≠ [] ∧ ∀ q ∈ (s.core c).fwq, ¬ mayTake s c q)
    ∧ (∃ (s : State) (c : Nat), (s.core c).svc = none ∧ (∃ q ∈ (s.core c).fwq, mayTake s c q) ∧ c = 319)
    ∧ ∃ (s : State) (c : Nat), (s.core c).svc = none ∧ (s.core c).fwq.length = 2 ∧ saveReady s c = false ∧ ∃ q ∈ (s.core c).fwq, mayTake s c q :=
  ⟨⟨{ State.reset with cores := [(319, { svc := some (reqOf 1) })] }, 319, by decide +kernel⟩,
    ⟨{ State.reset with cores := [(319, { fwq := [reqOf 5] })], cmds := [(1, { port := 1, word := 0, issuer := .ctx 319 false none })] }, 319, by unfold mayTake; decide +kernel⟩,
    ⟨{ State.reset with cores := [(319, { fwq := [reqOf 6, reqOf 1] })] }, 319, by unfold mayTake; decide +kernel⟩,
    { State.reset with cores := [(319, { fwq := [reqOf 5, reqOf 1] })] }, 319, by unfold mayTake; decide +kernel⟩

/-- A launch that is frozen for record 3, with what is saved of it. -/
def frozenCrew : Crew := { runningCrew with frozen := some 3 }
def savedOf (w : Crew) (fin : List Nat) : Saved := { record := 1, crew := w, cores := [(0, { crew := some 0 })], remainders := [], slots := [(0, 7)], landing := none, savedAt := 0, finished := fin }
def freezing (w : Crew) (k : Core) (fin : List Nat) : State := { launched w bulkRec with cores := [(0, { k with crew := some 0 })], saved := [savedOf w fin] }
theorem wit_SaveEngines : (∀ kind ∈ [5, 6], ∃ (s : State) (c : Nat) (r : FwReq), (s.core c).svc = some r ∧ (s.core c).saveOp = 0 ∧ (s.core c).saveDone = false ∧ r.kind = kind)
    ∧ (∃ (s : State) (c : Nat) (w : Crew), (s.core c).saveDone = false ∧ (s.core c).saveOp = 1 ∧ s.crewOf c = some w ∧ slotBase s (s.core c).saveSlot + 0x1000 ≤ lpddrEnd)
    ∧ (∃ (s : State) (c : Nat) (v : Saved) (x : Core), (s.core c).saveDone = false ∧ (s.core c).saveOp = 2
      ∧ s.saved.find? (fun v => v.crew.members.contains c && (v.cores.find c).isSome) = some v ∧ v.cores.find c = some x)
    ∧ ∃ (s : State) (c : Nat), (s.core c).saveDone = true :=
  ⟨fun kind _ => ⟨freezing frozenCrew { svc := some (reqOf kind) } [], 0, reqOf kind, rfl, rfl, rfl, rfl⟩,
    ⟨freezing frozenCrew { svc := some (reqOf 5), saveOp := 1 } [], 0, frozenCrew, by decide +kernel⟩,
    ⟨freezing frozenCrew { svc := some (reqOf 6), saveOp := 2 } [], 0, savedOf frozenCrew [], { crew := some 0 }, by decide +kernel⟩,
    freezing frozenCrew { saveDone := true } [], 0, by decide +kernel⟩

theorem wit_ContextsSaved : (∃ (s : State) (k : Nat) (w : Crew) (v : Saved), s.crew k = some w ∧ s.saved.find? (fun v => v.record == w.record) = some v ∧ ∃ m ∈ w.members, m ∉ v.finished)
    ∧ ∃ (s : State) (k : Nat) (w : Crew) (v : Saved) (r : Rec), s.crew k = some w ∧ s.saved.find? (fun v => v.record == w.record) = some v ∧ w.frozen.isSome = true ∧ w.restoring = false
      ∧ w.stopped = none ∧ (∀ m ∈ w.members, m ∈ v.finished) ∧ crewCmds s w = [] ∧ s.recs.find w.record = some r :=
  ⟨⟨freezing frozenCrew {} [], 0, frozenCrew, savedOf frozenCrew [], by decide +kernel⟩, freezing frozenCrew {} [0], 0, frozenCrew, savedOf frozenCrew [0], bulkRec, by decide +kernel⟩

/-- The same launch saved. -/
def setAside (asleep : Bool) : State :=
  { (launched frozenCrew bulkRec).setReg 0xB0D 1 with recs := [(1, { bulkRec with st := .saved })], crews := [], cores := [(0, { asleep := asleep })], saved := [savedOf frozenCrew []] }
theorem wit_Restores :
    (∃ (s : State) (id : Nat) (v : Saved), s.saved.find? (fun v => v.record == id) = some v ∧ (s.recs.find id).map (·.st) = some .saved ∧ canRestore s v = none ∧ (s.core 0).asleep = true)
    ∧ (∃ (s : State) (id : Nat) (v : Saved) (clk : Nat), s.saved.find? (fun v => v.record == id) = some v ∧ (s.recs.find id).map (·.st) = some .saved ∧ canRestore s v = some clk
      ∧ v.crew.members.Nodup ∧ v.landing = none)
    ∧ (∃ (s : State) (k : Nat) (w : Crew) (v : Saved), s.crew k = some w ∧ s.saved.find? (fun v => v.record == w.record) = some v ∧ w.restoring = true ∧ ∃ m ∈ w.members, m ∉ v.finished)
    ∧ ∃ (s : State) (k : Nat) (w : Crew) (v : Saved), s.crew k = some w ∧ s.saved.find? (fun v => v.record == w.record) = some v ∧ w.restoring = true
      ∧ (∀ m ∈ w.members, m ∈ v.finished) ∧ v.remainders = [] :=
  ⟨⟨setAside true, 1, savedOf frozenCrew [], by decide +kernel⟩, ⟨setAside false, 1, savedOf frozenCrew [], 0, by decide +kernel⟩,
    ⟨freezing { frozenCrew with restoring := true } {} [], 0, { frozenCrew with restoring := true }, savedOf { frozenCrew with restoring := true } [], by decide +kernel⟩,
    freezing { frozenCrew with restoring := true } {} [0], 0, { frozenCrew with restoring := true }, savedOf { frozenCrew with restoring := true } [0], by decide +kernel⟩

/-! ## The hypotheses of the statements about encodings and the step are met -/

theorem wit_EncodingRoundTrip : (∃ i : Instr, i.wf = true ∧ encode i ≠ .event ∧ encode i = .seq (.ofNat 32 nopWord) none) ∧ ∃ v : BitVec 32, v.toNat / 2 ^ 30 ≠ 3 :=
  ⟨⟨.nop true, by decide +kernel⟩, 0, by decide⟩

/-- One word of each form decodes, and one with an extension word. -/
theorem wit_EncodingExact : (∃ w i, decodeEntry w = .ok i) ∧ (∃ w i, decodeMatrix w = .ok i) ∧ (∃ w i, decodePort w = .ok i) ∧ (∃ w i, decodeRecord w = .ok i)
    ∧ (∃ w i, decodeSeq w none = .ok i) ∧ ∃ w v i, decodeSeq w (some v) = .ok i ∧ encode i = .seq w (some v) :=
  have ex {α β : Type} {e : Except α β} (h : e.isOk = true) : ∃ i, e = .ok i := by
    cases e with
    | error _ => cases h
    | ok i => exact ⟨i, rfl⟩
  ⟨⟨_, ex (e := decodeEntry (0x6C#8 ++ 2#6 ++ 1#2 ++ 3#4 ++ 2#2 ++ 9#4 ++ 3#2 ++ 1#4 ++ 5#4 ++ 0#12 ++ 0xFFFE#16)) (by decide +kernel)⟩, ⟨_, ex (e := decodeMatrix 0xD4) (by decide +kernel)⟩,
    ⟨_, ex (e := decodePort (.ofNat 256 (0xE0 + 2 * 2 ^ 8 + 2 * 2 ^ 11 + 10 * 2 ^ 26))) (by decide +kernel)⟩, ⟨_, ex (e := decodeRecord 0) (by decide +kernel)⟩,
    ⟨_, ex (e := decodeSeq (.ofNat 32 nopWord) none) (by decide +kernel)⟩,
    (0#2 ++ 0#1 ++ 0x18#8 ++ 5#5 ++ 6#5 ++ 0x7FF#11), (3#2 ++ 1#1 ++ 1#29), .addi true 5 6 0x7FF (some 1), by decide +kernel, by decide +kernel⟩

/-- A word, an entry and a matrix command of core 0, each the crew's next item. -/
theorem wit_WordsStep : ∀ k ∈ [1, 15], ∃ (s : State) (rest : List Work) (l : BitVec 512) (i : Instr), let s0 := s.updCrew 0 (fun w => { w with todo := rest })
    s.off = false ∧ busyCrew s = some (0, .seq 0 false, rest) ∧ fetchLine s0 0 ((s0.core 0).ctx false).obj ((s0.core 0).ctx false).line = .ok l ∧ ((s0.core 0).ctx false).word = k
    ∧ 1 ≤ k ∧ k ≤ 15 ∧ decodeSeq (lineWord l k) (if k < 15 then some (lineWord l (k + 1)) else none) = .ok i ∧ i.wf = true := by
  intro k hk
  refine ⟨inLine (nopWord * 2 ^ (32 * (k - 1))) k id, [], codeLine0 (nopWord * 2 ^ (32 * (k - 1))), .nop true, ?_⟩
  revert k
  decide +kernel

theorem wit_EntriesStep : ∃ (s : State) (l : BitVec 512) (i : Instr), let s0 := s.updCrew 0 (fun w => { w with todo := [] })
    s.off = false ∧ busyCrew s = some (0, .stream 0 9, []) ∧ fetchLine s0 0 ((s0.core 0).stream 9).obj ((s0.core 0).stream 9).line = .ok l ∧ ((s0.core 0).stream 9).slot < 7
    ∧ entryFail 10 (lineSlot l ((s0.core 0).stream 9).slot) = none ∧ decodeEntry (lineSlot l ((s0.core 0).stream 9).slot) = .ok i :=
  let w : Nat := (0x6C#8 ++ 2#6 ++ 1#2 ++ 3#4 ++ 2#2 ++ 9#4 ++ 3#2 ++ 1#4 ++ 5#4 ++ 0#12 ++ 0xFFFE#16).toNat
  ⟨placeEntryWord w State.reset, .ofNat 512 (w * 2 ^ 32 + 10 * 2 ^ 27 + 0x1FFFFFF), .vadd ⟨2, .ofr 3, .lane 9, .imm, .i32, 0xFFFE⟩, by decide +kernel⟩

theorem wit_MatrixStep : ∃ (s : State) (c : MxCmd) (q : List MxCmd) (i : Instr), let s0 := s.updCrew 0 (fun w => { w with todo := [] })
    s.off = false ∧ busyCrew s = some (0, .matrix 0, []) ∧ (s0.core 0).mx.active = none ∧ (s0.core 0).mx.queue = c :: q
    ∧ max (s0.core 0).mx.headAt (c.pushed + 1) ≤ s0.clock 0 ∧ c.start = s0.clock 0 ∧ decodeMatrix c.word = .ok i :=
  ⟨atCycle 1 (placeMatrix 0xD4 State.reset), ⟨0xD4, 1, {}, 0⟩, [], .mclr ⟨0, 0, 0, 0, 0, 0, 0, 0⟩ 0 0, by decide +kernel⟩

theorem wit_TurnsStep : (∃ (s : State) (i : Instr) (ts : List Turn), s.off = false ∧ busyCrew s = none ∧ s.agenda = .event i :: ts)
    ∧ (∃ (s : State) (ts : List Turn) (id : Nat) (c : Cmd) (i : Instr), s.off = false ∧ busyCrew s = none ∧ s.agenda = .cmd id :: ts ∧ s.cmds.find id = some c ∧ c.st = .queued ∧ decodePort c.word = .ok i)
    ∧ (∃ (s : State) (ts : List Turn) (id : Nat) (r : Rec) (i : Instr), s.off = false ∧ busyCrew s = none ∧ s.agenda = .record id :: ts ∧ s.recs.find id = some r ∧ r.st = .stream ∧ decodeRecord r.word = .ok i)
    ∧ (∃ (s : State) (ts : List Turn), s.off = true ∧ s.agenda = .event .power_on :: ts) ∧ ∃ s : State, s.off = true ∧ ∀ ts, s.agenda ≠ .event .power_on :: ts :=
  ⟨⟨{ State.reset with agenda := [.event .power_loss] }, .power_loss, [], rfl, rfl, rfl⟩,
    ⟨placePort (0xE0 + 2 * 2 ^ 8 + 2 * 2 ^ 11 + 10 * 2 ^ 26) State.reset, [], 1,
      { port := 0, word := .ofNat 256 (0xE0 + 2 * 2 ^ 8 + 2 * 2 ^ 11 + 10 * 2 ^ 26), issuer := .record 0, part := some 0, st := .queued },
      .copy ⟨2, 2, 0, 0, 0, 0, 0, 0⟩ ⟨10, 0, 0, 0, 0, 0, 0, 0, 0⟩, by decide +kernel⟩,
    ⟨placeRecord 0 State.reset, [], 2, { word := 0, queue := 0, part := 0, graph := 1 }, .nop_record ⟨0, 0, 0, 0, 0, 0, 0, 0, 0, 0, 0, 0, 0⟩, by decide +kernel⟩,
    ⟨{ State.reset with off := true, agenda := [.event .power_on] }, [], rfl, rfl⟩, { State.reset with off := true }, rfl, fun ts h => by cases h⟩

/-- A state whose memories are canonical and not empty, with a next state. -/
theorem wit_StepKeepsCanonical : ∃ s : State, s.canonical = true ∧ s.lpddr ≠ [] ∧ ∃ t, exec (.nop true) s = .next t := by
  refine ⟨placeSeq nopWord State.reset, by decide +kernel, by decide +kernel, ?_⟩
  have h : ∀ o : Host.Outcome State Fault Refusal, (match o with | .next _ => true | _ => false) = true → ∃ t, o = .next t := by
    intro o h
    cases o with
    | next t => exact ⟨t, rfl⟩
    | fault _ => cases h
    | refused _ => cases h
  exact h _ (by decide +kernel)

/-! ## Every well-formedness check refuses something -/


/-! ## One step of ferries, with the values that the rules give -/

/-- The state after an instruction that completes. -/
def after (o : Out) : Option State :=
  match o with
  | .next t => some t
  | _ => none

/-- R246, R262: two sectors from the end of slice 63 to slice 0. -/
theorem test_copy_staging : (after (exec (.copy (fhdr 2 2) ⟨2, 0, landEp 63 (2 ^ 22 - 32), landEp 0 0, 0, 0, 0, 0, 0⟩)
    ((withCmd (ferryCmd 2 2 (63 * 2 ^ 64)) { State.reset with land := [(16, 1), (64 * 2 ^ 22 - 31, 5), (64 * 2 ^ 22 - 1, 6)] }).setReg 0x87F 0x20))).map (·.land)
    = some [(1, 5), (31, 6), (64 * 2 ^ 22 - 31, 5), (64 * 2 ^ 22 - 1, 6)] := by decide +kernel
/-- R254: the value twice in the sector. -/
theorem test_fill_staging : (after (exec (.ferry_fill (fhdr 0 2) ⟨1, 0, 0x0200000000000001, landEp 0 16, 0, 0, 0, 0⟩) (ferryLand 0 2 0))).map (fun t => t.land.bytes 16 16)
    = some [1, 0, 0, 0, 0, 0, 0, 2, 1, 0, 0, 0, 0, 0, 0, 2] := by decide +kernel
/-- R250: row 1, zeros, row 1. -/
theorem test_gather_staging : (after (exec (.ferry_gath (fhdr 2 2) ⟨3, 0, landEp 0 0, landEp 0 64, 0, 0, .ofNat 28 (256 * 64), 1⟩)
    (withCmd (ferryCmd 2 2 0) { State.reset with land := Memory.setBytes [(17, 9)] 256 [1, 0, 0, 0, 255, 255, 255, 255, 1] }))).map (fun t => t.land.bytes 64 48)
    = some ([0, 9] ++ List.replicate 30 0 ++ [0, 9] ++ List.replicate 14 0) := by decide +kernel
/-- R253: of three rows the first and the second, and their number. -/
theorem test_lcmp : (after (exec (.lcmp (fhdr 2 2) ⟨3, 0, landEp 0 64, landEp 0 256, .ofNat 28 (16 * 64), .ofNat 28 (32 * 64), 1⟩)
    (withCmd (ferryCmd 2 2 0) { State.reset with land := [(16, 1), (18, 2), (64, 7), (80, 8), (96, 9)] }))).map (fun t => (t.land.bytes 256 48, t.land.bytes 32 16))
    = some ([7] ++ List.replicate 15 0 ++ [9] ++ List.replicate 31 0, [2] ++ List.replicate 15 0) := by decide +kernel
/-- R251: −1 + 3, the greater and the less as signed numbers. -/
theorem test_lred : ∀ p ∈ [((0 : BitVec 2), [(2 : Byte), 0, 0, 0]), (1, [3, 0, 0, 0]), (2, [255, 255, 255, 255])],
    (after (exec (.lred (fhdr 2 2) ⟨1, 0, .ofNat 64 (16 * 64 + 2 ^ 28), landEp 0 64, 0, 0, 2, 2, p.1⟩)
      (withCmd (ferryCmd 2 2 0) { State.reset with land := [(16, 255), (17, 255), (18, 255), (19, 255), (32, 3)] }))).map (fun t => t.land.bytes 64 4) = some p.2 := by decide +kernel
/-- R252: the greater score first, then an empty pair of −∞. -/
theorem test_ltopk : (after (exec (.ltopk (fhdr 2 2) ⟨3, 0, .ofNat 64 (16 * 64 + 2 ^ 28), landEp 0 64, 0, 0, 2, 1, 0⟩)
      (withCmd (ferryCmd 2 2 0) { State.reset with land := [(16, 5), (27, 0x3F), (32, 6), (43, 0x40)] }))).map (fun t => t.land.bytes 64 48)
    = some ([6, 0, 0, 0, 0, 0, 0, 0, 0, 0, 0, 0x40, 0, 0, 0, 0] ++ [5, 0, 0, 0, 0, 0, 0, 0, 0, 0, 0, 0x3F, 0, 0, 0, 0]
      ++ List.replicate 8 255 ++ [0, 0, 0x80, 0xFF, 0, 0, 0, 0]) := by decide +kernel
/-- R246: bytes 250 to 255 of object 2. -/
theorem test_copy_object : (after (exec (.copy (fhdr 1 2) ⟨6, 0, .ofNat 64 (2 + 250 * 2 ^ 24), landEp 0 0, 0, 0, 0, 0, 0⟩)
    (withCmd (ferryCmd 1 2 (2 * 2 ^ 64)) (placeBytes (131072 + 224) (List.replicate 26 0 ++ [1, 2, 3, 4, 5, 6]) (withObjs State.reset))))).map (·.land)
    = some [(0, 1), (1, 2), (2, 3), (3, 4), (4, 5), (5, 6)] := by decide +kernel
/-- R246: and back, one byte further on than it came. -/
theorem test_copy_into_object : (after (exec (.copy (fhdr 2 1) ⟨3, 0, landEp 0 16, .ofNat 64 (2 + 250 * 2 ^ 24), 0, 0, 0, 0, 0⟩) (intoObj2 landed))).map
    (fun t => t.lpddr.bytes (131072 + 249) 5) = some [0, 1, 2, 0, 0] := by decide +kernel
/-- R250, R59: 5 + 7 + (2^32 − 2) modulo 2^32. -/
theorem test_scadd : (after (exec (.scadd (fhdr 2 1) ⟨2, 0, landEp 0 0, .ofNat 64 4, 0, 0, .ofNat 28 (256 * 64), 1⟩)
    (withCmd (ferryCmd 2 1 (4 * 2 ^ 128)) { placeBytes 196608 (List.replicate 28 0 ++ [5, 0, 0, 0]) (withInts State.reset) with
      land := [(0, 7), (4, 254), (5, 255), (6, 255), (7, 255), (256, 7), (260, 7)] }))).map (fun t => t.lpddr.bytes (196608 + 28) 4) = some [10, 0, 0, 0] := by decide +kernel
/-- R255: an addition and a comparison that holds, the old value returned. -/
theorem test_atom : ∀ p ∈ [((0 : BitVec 4), [(7 : Byte), 2, 0, 0]), (9, [5, 0, 0, 0])],
    (after (exec (.atom (fhdr 0 2) ⟨.ofNat 28 (32 * 64), 1, p.1, 0, 5, landEp 0 16, 0x202⟩) (withCmd (ferryCmd 0 2 0) { State.reset with land := [(16, 2), (17, 2)] }))).map
      (fun t => (t.land.bytes 16 4, t.land.bytes 32 16)) = some (p.2, [2, 2] ++ List.replicate 14 0) := by decide +kernel
/-- R258: an addition that saturates. -/
theorem test_msig : (after (exec (.ferry_msig (fhdr 0 2) ⟨0, 0xFFFFFFFE, landEp 0 16, 0, 0⟩) (ferryLand 0 2 0))).map (fun t => t.land.bytes 16 4) = some [255, 255, 255, 255] := by decide +kernel
/-- R256: TARGET at bits 79:64, all else zero. -/
theorem test_barinit : (after (exec (.barinit (fhdr 0 0) ⟨0x0102, .ofNat 24 64⟩) (ferryLand 0 0 0))).map (fun t => t.land.bytes 16 16) = some ([0, 0, 0, 0, 0, 0, 0, 0, 2, 1] ++ List.replicate 6 0) := by decide +kernel
/-- R248: the entries of objects 3 and 2 change places. -/
theorem test_copyp : (after (exec (.copyp (fhdr 2 1) ⟨6, 0, landEp 0 17, .ofNat 64 2, 0, 0, 0, 3⟩) (intoObj2 landed))).map (fun t => (t.lpddr.bytes 192 64, t.lpddr.bytes 128 64))
    = some ((intoObj2 landed).lpddr.bytes 128 64, (intoObj2 landed).lpddr.bytes 192 64) := by decide +kernel

/-- R393: words of SHAKE256 digests of FIPS 202: of no byte, and of the bytes 0 to 136, which take two blocks. -/
theorem test_shake : shakeWord [] 0 = 0x138DA80B2BDDB946 ∧ shakeWord [] 7 = 0xBEC4B7B3AC2E2940 ∧ shakeWord ((List.range 137).map (BitVec.ofNat 8)) 0 = 0xEBA542C65209D901 := by decide +kernel

/-! ## Every well-formedness check refuses something -/

/-- R128: there is no condition 6; the first five differ from it in nothing else. -/
theorem smoke_seqOk : (Instr.cmp true 1 6 2 3).wf = false ∧ (Instr.cmp true 1 5 2 3).wf = true := by decide +kernel
/-- R153: 0x006 is no control register. R95: no word 0. -/
theorem smoke_seqOk_index : (Instr.getc true 1 6).wf = false ∧ (Instr.getc true 1 5).wf = true ∧ (Instr.jmp true 1 0 none).wf = false := by decide +kernel
/-- R168: `rdb` names no lane twice. -/
theorem smoke_entryOk : (Instr.rdb ⟨0, .lane 1, .lane 1, .none, .f32, 0⟩ 0 0).wf = false ∧ (Instr.rdb ⟨0, .lane 1, .lane 2, .none, .f32, 0⟩ 0 0).wf = true := by decide +kernel
/-- R96: a value at IMM without an IMM operand. -/
theorem smoke_immPlaced : (Instr.vadd ⟨0, .ofr 1, .ofr 2, .ofr 3, .i32, 7⟩).wf = false ∧ (Instr.vadd ⟨0, .ofr 1, .ofr 2, .imm, .i32, 7⟩).wf = true := by decide +kernel
/-- R213: `mclaim` of no slot. R206: a K of 0. -/
theorem smoke_matrixOk : (Instr.mclaim ⟨0, 0, 0, 0, 0, 0, 0, 0⟩ 0).wf = false ∧ (Instr.mclaim ⟨0, 0, 0, 0, 0, 0, 0, 0⟩ 1).wf = true
    ∧ (Instr.mmul ⟨0, 0, 0, 0, 0, 0, 0, 0⟩ 0 0 0 0 0 9).wf = false := by decide +kernel
/-- R245: `copy` takes no source kind 0. -/
theorem smoke_portOk : (Instr.copy (fhdr 0 2) ⟨10, 0, 0, 0, 0, 0, 0, 0, 0⟩).wf = false ∧ (Instr.copy (fhdr 2 2) ⟨10, 0, 0, 0, 0, 0, 0, 0, 0⟩).wf = true := by decide +kernel
/-- R325: class 3 is reserved. -/
theorem smoke_recordOk : (Instr.nop_record { rhdr with cls := 3 }).wf = false ∧ (Instr.nop_record { rhdr with cls := 2 }).wf = true := by decide +kernel

end Sys2Proof.Tests
end

/-! # The canonical form of memory is kept (O59, O60)

A byte reaches a memory outside the cores through `Memory.setByte`, `Memory.setBytes` and `Memory.clear` alone, and these keep the canonical
form (`Memory.wf_setByte`, `Memory.wf_setBytes`, `Memory.wf_clear`). So each function of the model that answers a state, or a result that
holds one, has one lemma here, named after it: `<function>_canon`. Its proof goes through the function's own branches (`fun_cases`,
`fun_induction`) and cites the lemmas of the functions that the branch calls; a branch that writes no memory is closed by the hypothesis
itself, since `State.Canon` sees the five memories alone. The sections follow those of the model. -/
section
namespace Sys2Proof.Machine

/-! ## The predicate and how it passes through results -/

/-- Five memories in canonical form. -/
def CanonMems (lpddr host land flash peer : Memory) : Prop :=
  lpddr.wf = true ∧ host.wf = true ∧ land.wf = true ∧ flash.wf = true ∧ peer.wf = true

/-- The memories outside the cores are in canonical form: `State.canonical` as a proposition about the five memories alone, so
that it does not see what becomes of any other field. -/
abbrev State.Canon (s : State) : Prop := CanonMems s.lpddr s.host s.land s.flash s.peer

theorem State.canon_iff {s : State} : s.Canon ↔ s.canonical = true := by
  simp [State.Canon, CanonMems, State.canonical, and_assoc]

variable {α β ε : Type}

/-- What holds of the value of a result, and what of its error. -/
def OnExcept (Q : ε → Prop) (P : α → Prop) : Except ε α → Prop
  | .ok a => P a
  | .error e => Q e

/-- What holds of the value of a result, if there is one. -/
abbrev OnOk (P : α → Prop) (r : Except ε α) : Prop := OnExcept (fun _ => True) P r

/-- What holds of a value, if there is one. -/
def OnSome (P : α → Prop) : Option α → Prop
  | some a => P a
  | none => True

/-- A meaning that answers a next state answers one in canonical form. -/
def NextCanon : Out → Prop
  | .next t => t.Canon
  | _ => True

/-- From every canonical state, a move answers a canonical one. -/
abbrev KeepsCanon (f : State → Out) : Prop := ∀ t, t.Canon → NextCanon (f t)

theorem ok_canon {r : Except ε State} {t : State} (e : r = .ok t) (h : OnOk State.Canon r) : t.Canon := by
  subst e
  exact h

theorem ok_pair_canon {r : Except ε (α × State)} {p : α × State} (e : r = .ok p) (h : OnOk (fun x => x.2.Canon) r) : p.2.Canon := by
  subst e
  exact h

theorem ok_triple_canon {r : Except ε (α × β × State)} {p : α × β × State} (e : r = .ok p) (h : OnOk (fun x => x.2.2.Canon) r) :
    p.2.2.Canon := by
  subst e
  exact h

theorem ok_snd_canon {r : Except ε (α × State)} {a : α} {t : State} (e : r = .ok (a, t)) (h : OnOk (fun x => x.2.Canon) r) : t.Canon := by
  subst e
  exact h

theorem ok_snd_snd_canon {r : Except ε (α × β × State)} {a : α} {b : β} {t : State} (e : r = .ok (a, b, t))
    (h : OnOk (fun x => x.2.2.Canon) r) : t.Canon := by
  subst e
  exact h

theorem result_canon {Q : ε → Prop} {r : Except ε State} {t : State} (e : r = .ok t) (h : OnExcept Q State.Canon r) : t.Canon := by
  subst e
  exact h

theorem result_snd_canon {Q : ε → Prop} {r : Except ε (α × State)} {a : α} {t : State} (e : r = .ok (a, t))
    (h : OnExcept Q (fun x => x.2.Canon) r) : t.Canon := by
  subst e
  exact h

theorem result_snd_snd_canon {Q : ε → Prop} {r : Except ε (α × β × State)} {a : α} {b : β} {t : State} (e : r = .ok (a, b, t))
    (h : OnExcept Q (fun x => x.2.2.Canon) r) : t.Canon := by
  subst e
  exact h

theorem error_canon {P : α → Prop} {r : Except State α} {t : State} (e : r = .error t) (h : OnExcept State.Canon P r) : t.Canon := by
  subst e
  exact h

theorem error_snd_canon {P : α → Prop} {r : Except (β × State) α} {b : β} {t : State} (e : r = .error (b, t))
    (h : OnExcept (fun x => x.2.Canon) P r) : t.Canon := by
  subst e
  exact h

theorem error_pair_canon {P : α → Prop} {r : Except (β × State) α} {p : β × State} (e : r = .error p)
    (h : OnExcept (fun x => x.2.Canon) P r) : p.2.Canon := by
  subst e
  exact h

theorem some_canon {r : Option State} {t : State} (e : r = some t) (h : OnSome State.Canon r) : t.Canon := by
  subst e
  exact h

theorem some_ok_canon {r : Option (Except ε State)} {t : State} (e : r = some (.ok t)) (h : OnSome (OnOk State.Canon) r) : t.Canon := by
  subst e
  exact h

theorem next_canon {r : Out} {t : State} (e : r = .next t) (h : NextCanon r) : t.Canon := by
  subst e
  exact h

theorem fst_canon {p : State × α} {t : State} {a : α} (e : p = (t, a)) (h : p.1.Canon) : t.Canon := by
  subst e
  exact h

theorem snd_canon {p : α × State} {t : State} {a : α} (e : p = (a, t)) (h : p.2.Canon) : t.Canon := by
  subst e
  exact h

theorem OnExcept.bind {Q : ε → Prop} {P : α → Prop} {R : β → Prop} {r : Except ε α} {f : α → Except ε β} (h : OnExcept Q P r)
    (hf : ∀ a, P a → OnExcept Q R (f a)) : OnExcept Q R (r >>= f) := by
  cases r with
  | ok a => exact hf a h
  | error e => exact h

theorem OnExcept.map {Q : ε → Prop} {P : α → Prop} {R : β → Prop} {r : Except ε α} {f : α → β} (h : OnExcept Q P r)
    (hf : ∀ a, P a → R (f a)) : OnExcept Q R (r.map f) := by
  cases r with
  | ok a => exact hf a h
  | error e => exact h

theorem onOk_any {r : Except ε α} : OnOk (fun _ => True) r := by
  cases r <;> exact trivial

theorem ite_canon {c : Prop} [Decidable c] {s t : State} (hs : s.Canon) (ht : t.Canon) : (if c then s else t).Canon := by
  split
  · exact hs
  · exact ht

theorem ite_onExcept {c : Prop} [Decidable c] {Q : ε → Prop} {P : α → Prop} {a b : Except ε α} (ha : OnExcept Q P a) (hb : OnExcept Q P b) :
    OnExcept Q P (if c then a else b) := by
  split
  · exact ha
  · exact hb

theorem ite_onSome {c : Prop} [Decidable c] {P : α → Prop} {a b : Option α} (ha : OnSome P a) (hb : OnSome P b) :
    OnSome P (if c then a else b) := by
  split
  · exact ha
  · exact hb

theorem ite_nextCanon {c : Prop} [Decidable c] {a b : Out} (ha : NextCanon a) (hb : NextCanon b) : NextCanon (if c then a else b) := by
  split
  · exact ha
  · exact hb

theorem foldl_canon {f : State → α → State} {l : List α} {s : State} (hs : s.Canon) (hf : ∀ t a, t.Canon → (f t a).Canon) :
    (l.foldl f s).Canon :=
  List.foldlRecOn l f hs fun t ht a _ => hf t a ht

theorem foldl_onOk {f : Except ε State → α → Except ε State} {l : List α} {r : Except ε State} (hr : OnOk State.Canon r)
    (hf : ∀ t a, OnOk State.Canon t → OnOk State.Canon (f t a)) : OnOk State.Canon (l.foldl f r) :=
  List.foldlRecOn l f hr fun t ht a _ => hf t a ht

theorem foldK_canon {P : β → Prop} {f : β → α → KRes β} {l : List α} {x : β} (hx : P x) (hf : ∀ y a, P y → OnOk P (f y a)) :
    OnOk P (foldK f l x) := by
  fun_induction foldK f l x
  case case1 => exact hx
  case case2 => exact trivial
  case case3 a _ _ y h ih =>
    have hy := hf _ a hx
    rw [h] at hy
    exact ih hy

theorem mres_canon {P : α → Prop} {r : Except SStop α} (hr : OnOk P r) : OnOk P (mres r) := by
  cases r with
  | ok x => exact hr
  | error e => exact trivial


variable {s : State}

/-! ### Objects, tiles and the memory tiers -/

theorem setReg_canon {i v} (hs : s.Canon) : (State.setReg s i v).Canon := hs

/-! ### Device memory (R52 to R54) -/

theorem Memory.wf_foldl {f : Memory → α → Memory} {l : List α} {m : Memory} (hm : m.wf = true)
    (hf : ∀ m a, Memory.wf m = true → (f m a).wf = true) : (l.foldl f m).wf = true :=
  List.foldlRecOn (motive := fun m => Memory.wf m = true) l f hm fun t ht a _ => hf t a ht

theorem CanonMems.lpddr {a b c d e x : Memory} (h : CanonMems a b c d e) (hx : a.wf = true → x.wf = true) : CanonMems x b c d e :=
  ⟨hx h.1, h.2⟩

theorem CanonMems.host {a b c d e x : Memory} (h : CanonMems a b c d e) (hx : b.wf = true → x.wf = true) : CanonMems a x c d e :=
  ⟨h.1, hx h.2.1, h.2.2⟩

theorem CanonMems.land {a b c d e x : Memory} (h : CanonMems a b c d e) (hx : c.wf = true → x.wf = true) : CanonMems a b x d e :=
  ⟨h.1, h.2.1, hx h.2.2.1, h.2.2.2⟩

theorem CanonMems.flash {a b c d e x : Memory} (h : CanonMems a b c d e) (hx : d.wf = true → x.wf = true) : CanonMems a b c x e :=
  ⟨h.1, h.2.1, h.2.2.1, hx h.2.2.2.1, h.2.2.2.2⟩

theorem CanonMems.peer {a b c d e x : Memory} (h : CanonMems a b c d e) (hx : e.wf = true → x.wf = true) : CanonMems a b c d x :=
  ⟨h.1, h.2.1, h.2.2.1, h.2.2.2.1, hx h.2.2.2.2⟩

theorem lpWriteBurst_canon {b bytes colour} (hs : s.Canon) : OnOk State.Canon (lpWriteBurst s b bytes colour) := by
  fun_cases lpWriteBurst s b bytes colour
  case case2 | case5 => exact hs.lpddr (Memory.wf_foldl · fun _ _ => Memory.wf_setByte _ _)
  all_goals exact trivial

theorem lpWriteMap_canon {colour x1 x2} (hs : s.Canon) : OnOk State.Canon (lpWriteMap colour x1 x2 s) := by
  fun_induction lpWriteMap colour x1 x2 s
  case case1 => exact hs
  case case2 => exact trivial
  case case3 h ih => exact ih (ok_canon h (lpWriteBurst_canon hs))

theorem lpWrite_canon {a bytes colour} (hs : s.Canon) : OnOk State.Canon (lpWrite s a bytes colour) := lpWriteMap_canon hs

/-! ### Device memory that no object covers -/

theorem bareWrite_canon {a b} (hs : s.Canon) : (bareWrite s a b).Canon := by
  fun_cases bareWrite s a b
  case case1 h => exact ok_canon h (lpWrite_canon hs)
  case case2 => exact hs

/-! ### Landings (R55, R56, R241) -/

theorem landPut_canon {slice off bytes} (hs : s.Canon) : OnOk State.Canon (landPut s slice off bytes) := by
  fun_cases landPut s slice off bytes
  case case1 => exact hs.land (Memory.wf_setBytes _ _)
  case case2 => exact trivial

/-! ### Flash (R268 to R270) -/

theorem flashWrite_canon {obj colour a bytes} (hs : s.Canon) : OnOk State.Canon (flashWrite s obj colour a bytes) := by
  fun_cases flashWrite s obj colour a bytes
  case case1 => exact trivial
  case case2 => exact hs.flash fun h => Memory.wf_setBytes _ _ (Memory.wf_foldl h fun _ _ => Memory.wf_setBytes _ _)

/-! ### Cache parts (R57) -/

theorem writeBack_canon {x} (hs : s.Canon) : (writeBack s x).Canon := by
  fun_cases writeBack s x
  case case1 h => exact ok_canon h (lpWrite_canon hs)
  case case3 => exact hs.host (Memory.wf_setBytes _ _)
  all_goals exact hs

theorem burstBack_canon {x y} (hs : s.Canon) : OnSome State.Canon (burstBack s x y) := by
  fun_cases burstBack s x y
  case case1 h => exact ok_canon h (lpWrite_canon hs)
  case case2 => exact hs
  case case3 => exact trivial

theorem writeBackAll_canon {sel x1} (hs : s.Canon) : (writeBackAll sel x1 s).Canon := by
  fun_induction writeBackAll sel x1 s
  case case2 => exact writeBack_canon hs
  case case4 ih => exact ih hs
  case case5 h ih => exact ih (some_canon h (ite_onSome (burstBack_canon hs) trivial))
  case case6 ih => exact ih (writeBack_canon hs)
  all_goals exact hs

theorem cleanSlice_canon {slice sel} (hs : s.Canon) : (cleanSlice s slice sel).Canon := writeBackAll_canon hs

theorem cleanScope_canon {scope} (hs : s.Canon) : (cleanScope scope s).Canon := foldl_canon hs (fun _ _ ht => cleanSlice_canon ht)

theorem evictLine_canon {slice line} (hs : s.Canon) : (evictLine slice line s).Canon := cleanSlice_canon hs

theorem cacheRoom_canon {slice key} (hs : s.Canon) : (cacheRoom s slice key).Canon := by
  fun_cases cacheRoom s slice key
  case case1 => exact hs
  case case2 => exact evictLine_canon hs

theorem cacheFetch_canon {slice t sector colour} (hs : s.Canon) : OnOk (fun x => x.2.Canon) (cacheFetch s slice t sector colour) := by
  fun_cases cacheFetch s slice t sector colour
  case case1 => exact hs
  case case2 => exact trivial
  case case3 => exact cacheRoom_canon hs

theorem cacheReadList_canon {slice t colour x3} (hs : s.Canon) : OnOk (fun x => x.2.Canon) (cacheReadList slice t colour x3 s) := by
  fun_induction cacheReadList slice t colour x3 s
  case case1 => exact hs
  case case4 h _ _ h2 ih => exact ok_snd_canon h2 (ih (ok_snd_canon h (cacheFetch_canon hs)))
  all_goals exact trivial

theorem cacheStore_canon {slice t sector bytes colour h} (hs : s.Canon) :
    OnOk State.Canon (cacheStore s slice t sector bytes colour h) := by
  fun_cases cacheStore s slice t sector bytes colour h
  case case1 => exact trivial
  case case2 h2 _ _ => exact cacheRoom_canon (ok_snd_canon h2 (ite_onExcept hs (cacheFetch_canon hs)))

theorem cacheStoreList_canon {slice t colour h m x5} (hs : s.Canon) : OnOk State.Canon (cacheStoreList slice t colour h m x5 s) := by
  fun_induction cacheStoreList slice t colour h m x5 s
  case case1 => exact hs
  case case2 => exact trivial
  case case3 h2 ih => exact ih (ok_canon h2 (cacheStore_canon hs))

/-! ### Reads and writes on a tier -/

theorem tierRead_canon {o t a n cache} (hs : s.Canon) : OnOk (fun x => x.2.2.Canon) (tierRead s o t a n cache) := by
  fun_cases tierRead s o t a n cache
  case case2 | case4 | case6 | case9 | case13 | case15 => exact trivial
  case case3 h | case7 h => exact ok_snd_canon h (cacheReadList_canon hs)
  all_goals exact hs

theorem tierWrite_canon {o t m0 cache h} (hs : s.Canon) : OnOk State.Canon (tierWrite s o t m0 cache h) := by
  fun_cases tierWrite s o t m0 cache h
  case case1 | case4 => exact cacheStoreList_canon hs
  case case2 | case3 => exact lpWriteMap_canon hs
  case case5 | case6 => exact hs.host (Memory.wf_foldl · fun _ _ => Memory.wf_setByte _ _)
  case case7 => exact foldl_onOk hs fun r _ hr => match r, hr with
    | .error _, _ => trivial
    | .ok _, ht => flashWrite_canon ht
  case case8 => exact .map (foldl_onOk hs fun r _ hr => match r, hr with
    | .error _, _ => trivial
    | .ok _, ht => landPut_canon ht) fun _ ht => ht
  case case9 => exact hs.peer (Memory.wf_foldl · fun _ _ => Memory.wf_setByte _ _)

/-! ### Elements of objects -/

theorem readElem_canon {p o tt pos cache} (hs : s.Canon) : OnOk (fun x => x.2.Canon) (readElem s p o tt pos cache) := by
  fun_cases readElem s p o tt pos cache
  case case4 h _ _ _ _ => exact ok_snd_snd_canon h (tierRead_canon hs)
  case case6 h _ _ _ _ _ _ _ _ _ h2 => exact ok_snd_snd_canon h2 (tierRead_canon (ok_snd_snd_canon h (tierRead_canon hs)))
  all_goals exact trivial

theorem writeTile_canon {p k o tt tile es cache} (hs : s.Canon) : OnOk State.Canon (writeTile s p k o tt tile es cache) := by
  fun_cases writeTile s p k o tt tile es cache
  case case1 => exact trivial
  case case2 => exact tierWrite_canon hs

theorem writeObjBytes_canon {p r id off bytes} (hs : s.Canon) : OnOk State.Canon (writeObjBytes s p r id off bytes) := by
  fun_cases writeObjBytes s p r id off bytes
  case case3 =>
    exact foldl_onOk hs (fun _ _ ht => (by
      split
      · exact trivial
      · exact writeTile_canon ht))
  all_goals exact trivial

/-! ### Cores, contexts and crews -/

theorem updCore_canon {c f} (hs : s.Canon) : (State.updCore s c f).Canon := hs

theorem updF_canon {f} (hs : s.Canon) : (State.updF s f).Canon := hs

theorem updCtx_canon {f} (hs : s.Canon) : (State.updCtx s f).Canon := hs

theorem updCrew_canon {k f} (hs : s.Canon) : (State.updCrew s k f).Canon := by
  fun_cases State.updCrew s k f <;> exact hs

/-! ### Interrupts (R390) -/

theorem postIrq_canon {v} (hs : s.Canon) : (postIrq s v).Canon := by
  fun_cases postIrq s v
  case case1 => exact hs
  case case2 => exact hs.host (Memory.wf_setBytes _ _)

/-! ### Fault queues (R365 to R369) -/

theorem putRecord_canon {q ws} (hs : s.Canon) : (putRecord s q ws).Canon := by
  fun_cases putRecord s q ws
  case case3 h _ _ => exact postIrq_canon (setReg_canon (ok_canon h (lpWrite_canon hs)))
  case case4 h _ _ => exact setReg_canon (ok_canon h (lpWrite_canon hs))
  all_goals exact hs

theorem record_canon {source f fw ended tag cycle part core args} (hs : s.Canon) :
    (record s source f fw ended tag cycle part core args).Canon :=
  putRecord_canon hs

/-! ### Taking a core fault (R36, R152, R364 to R367, R373) -/

theorem markInst_canon {i m} (hs : s.Canon) : (markInst s i m).Canon := by
  fun_cases markInst s i m <;> exact hs

theorem markRec_canon {r m} (hs : s.Canon) : (markRec s r m).Canon := by
  fun_cases markRec s r m
  case case1 => exact markInst_canon hs
  case case2 => exact hs

theorem endHold_canon {crew} (hs : s.Canon) : (endHold crew s).Canon := by
  fun_cases endHold crew s
  case case1 => exact updCrew_canon (ite_canon (record_canon hs) hs)
  all_goals exact hs

theorem stopCrew_canon {k m} (hs : s.Canon) : (stopCrew s k m).Canon := by
  fun_cases stopCrew s k m
  case case2 => exact markRec_canon (updCrew_canon (endHold_canon hs))
  all_goals exact hs

theorem takeOffline_canon {c} (hs : s.Canon) : (takeOffline c s).Canon := hs

theorem raiseWith_canon {f a0 a1 a2 a3} (hs : s.Canon) : (raiseWith f a0 a1 a2 a3 s).Canon := by
  fun_cases raiseWith f a0 a1 a2 a3 s
  case case1 => exact hs
  case case2 => exact stopCrew_canon (updCore_canon (record_canon hs))
  case case3 => exact takeOffline_canon (updCore_canon (record_canon hs))

theorem raise_canon {f field unit} (hs : s.Canon) : (raise f field unit s).Canon := raiseWith_canon hs

/-! ### Hardware semaphores (R143) -/

theorem hsemChange_canon {core ch} (hs : s.Canon) : (hsemChange s core ch).Canon := hs

/-! ### Effects that land later, and port uses (R161, R163) -/

theorem later_canon {due e} (hs : s.Canon) : (State.later s due e).Canon := hs

theorem countUse_canon {u kind} (hs : s.Canon) : (countUse u kind s).Canon := by
  fun_cases countUse u kind s
  case case1 => exact hs
  case case2 => exact raise_canon hs

/-! ### Service requests (R370, R371) -/

theorem waitSusp_canon {source who f place} (hs : s.Canon) : (waitSusp source who f place s).Canon := hs

theorem request_canon {core r} (hs : s.Canon) : (request s core r).Canon := hs

/-! ### Lanes (R157 to R161) -/

theorem tapLane_canon {u lane} (hs : s.Canon) : OnExcept State.Canon (fun x => x.2.Canon) (tapLane u lane s) := by
  fun_cases tapLane u lane s
  case case3 => exact raise_canon (countUse_canon hs)
  all_goals exact countUse_canon hs

theorem putLane_canon {u lane row} (hs : s.Canon) : (putLane u lane row s).Canon := by
  fun_cases putLane u lane row s
  case case1 => exact countUse_canon hs
  case case2 => exact raise_canon (countUse_canon hs)
  case case3 => exact updF_canon (countUse_canon hs)

/-! ### Stations (R163, R164) -/

theorem setRnd_canon {rd} (hs : s.Canon) : (State.setRnd s rd).Canon := hs

theorem readOpnd_canon {o imm} (hs : s.Canon) : OnExcept State.Canon (fun x => x.2.Canon) (readOpnd o imm s) := by
  fun_cases readOpnd o imm s
  case case3 h => exact result_snd_canon h (tapLane_canon hs)
  case case4 h => exact error_canon h (tapLane_canon hs)
  all_goals exact hs

theorem readSources_canon {h} (hs : s.Canon) : OnExcept State.Canon (fun x => x.2.2.Canon) (readSources h s) := by
  fun_cases readSources h s
  case case1 h2 => exact error_canon h2 (readOpnd_canon hs)
  case case2 h2 _ h3 => exact error_canon h3 (readOpnd_canon (result_snd_canon h2 (readOpnd_canon hs)))
  case case3 h2 _ _ h3 => exact result_snd_canon h3 (readOpnd_canon (result_snd_canon h2 (readOpnd_canon hs)))

theorem raiseOpnd_canon {h f} (hs : s.Canon) : (raiseOpnd h f s).Canon := raise_canon hs

theorem giveResult_canon {lat dst row} (hs : s.Canon) : (giveResult lat dst row s).Canon := hs

theorem stationEntry_canon {h lat f} (hs : s.Canon) : (stationEntry h lat f s).Canon := by
  fun_cases stationEntry h lat f s
  case case1 h2 => exact error_canon h2 (readSources_canon hs)
  case case2 h2 _ _ => exact raiseOpnd_canon (result_snd_snd_canon h2 (readSources_canon hs))
  case case3 h2 _ _ _ => exact giveResult_canon (setRnd_canon (result_snd_snd_canon h2 (readSources_canon hs)))

/-! ### Instances (R11 to R14) -/

theorem instAdd_canon {i} (hs : s.Canon) : OnSome State.Canon (instAdd s i) := by
  fun_cases instAdd s i
  case case1 => exact trivial
  all_goals exact hs

theorem instDone_canon {i m} (hs : s.Canon) : (instDone s i m).Canon := by
  fun_cases instDone s i m <;> exact hs

theorem instLast_canon {i} (hs : s.Canon) : (instLast s i).Canon := by
  fun_cases instLast s i <;> exact hs

theorem releaseCrew_canon {k} (hs : s.Canon) : (releaseCrew s k).Canon := by
  fun_cases releaseCrew s k
  case case1 => exact foldl_canon hs (fun _ _ ht => ht)
  case case2 => exact hs

theorem launchEnd_canon {r} (hs : s.Canon) : (launchEnd s r).Canon := by
  fun_cases launchEnd s r
  case case1 s1 =>
    have h1 : s1.Canon := by
      dsimp only [s1]
      split
      · exact releaseCrew_canon hs
      · exact hs
    exact h1
  all_goals exact hs

theorem launchMember_canon {r m} (hs : s.Canon) : (launchMember s r m).Canon := by
  fun_cases launchMember s r m
  case case1 => exact launchEnd_canon (instDone_canon hs)
  case case2 => exact hs

/-! ### Fields of a command (R242, R246, R279, R306) -/

theorem updCmd_canon {id f} (hs : s.Canon) : (State.updCmd s id f).Canon := by
  fun_cases State.updCmd s id f <;> exact hs

/-! ### Landing areas of commands (R56) -/

theorem cmdLandPut_canon {c slice off b} (hs : s.Canon) : OnOk State.Canon (cmdLandPut s c slice off b) := by
  fun_cases cmdLandPut s c slice off b
  case case1 => exact landPut_canon hs
  case case2 => exact trivial

/-! ### Barriers (R259 to R261) -/

theorem barPut_canon {bar v} (hs : s.Canon) : (barPut s bar v).Canon := by
  fun_cases barPut s bar v
  case case2 h => exact ok_canon h (landPut_canon hs)
  all_goals exact hs

theorem barStart_canon {c n} (hs : s.Canon) : OnOk State.Canon (barStart s c n) := by
  fun_cases barStart s c n
  case case1 => exact hs
  case case5 => exact barPut_canon hs
  all_goals exact trivial

theorem barWrote_canon {c n} (hs : s.Canon) : (barWrote s c n).Canon := by
  fun_cases barWrote s c n
  case case1 => exact barPut_canon hs
  case case2 => exact hs

theorem barPartial_canon {bar} (hs : s.Canon) : (barPartial s bar).Canon := barPut_canon hs

/-! ### Records of commands (R367) -/

theorem cmdRecord_canon {c f ended susp w} (hs : s.Canon) : (cmdRecord s c f ended susp w).Canon := record_canon hs

theorem holdCmd_canon {id n c w} (hs : s.Canon) : (holdCmd s id n c w).Canon := by
  fun_cases holdCmd s id n c w
  case case1 => exact barPartial_canon hs
  case case2 => exact hs

theorem numberCmd_canon {id n c f w} (hs : s.Canon) : (numberCmd s id n c f w).Canon := by
  fun_cases numberCmd s id n c f w
  case case1 => exact request_canon (holdCmd_canon (putRecord_canon hs))
  case case2 => exact holdCmd_canon (putRecord_canon hs)

theorem suspendCmd_canon {id f w} (hs : s.Canon) : (suspendCmd s id f w).Canon := by
  fun_cases suspendCmd s id f w
  case case1 => exact numberCmd_canon hs
  case case2 => exact waitSusp_canon (holdCmd_canon hs)
  case case3 => exact hs

/-! ### The end of a command -/

theorem failIssuer_canon {c} (hs : s.Canon) : (failIssuer s c).Canon := by
  fun_cases failIssuer s c
  case case3 h =>
    exact launchMember_canon (by
      dsimp only [h]
      split
      · exact stopCrew_canon hs
      · exact hs)
  case case4 => exact launchMember_canon hs
  all_goals exact hs

theorem loseMarks_canon {k q id l} (hs : s.Canon) : (loseMarks k q id l s).Canon := hs

theorem loseBinding_canon {id c} (hs : s.Canon) : (loseBinding id c s).Canon := by
  fun_cases loseBinding id c s <;> exact hs

theorem endOnFault_canon {id f w} (hs : s.Canon) : (endOnFault s id f w).Canon := by
  fun_cases endOnFault s id f w
  case case1 => exact hs
  case case2 => exact barPut_canon (ite_canon (barPartial_canon (updCmd_canon (cmdRecord_canon hs))) (updCmd_canon (cmdRecord_canon hs)))
  case case3 => exact ite_canon (barPartial_canon (updCmd_canon (cmdRecord_canon hs))) (updCmd_canon (cmdRecord_canon hs))
  case case4 s1 _ s2 s3 _ =>
    have h1 : s1.Canon := cmdRecord_canon hs
    have h2 : s2.Canon := ite_canon h1 (by
      split
      · next h =>
        have ht := ok_canon h (cmdLandPut_canon h1)
        exact ite_canon (barWrote_canon ht) ht
      · exact h1)
    have h3 : s3.Canon := loseBinding_canon h2
    exact failIssuer_canon (ite_canon (barPartial_canon h3) h3)

theorem cmdFault_canon {id f w} (hs : s.Canon) : (cmdFault s id f w).Canon := by
  fun_cases cmdFault s id f w
  case case1 => exact suspendCmd_canon hs
  case case2 => exact endOnFault_canon hs

theorem henSignal_canon {c} (hs : s.Canon) : (henSignal s c).Canon := by
  fun_cases henSignal s c <;> exact hs

theorem noteUnseen_canon {c} (hs : s.Canon) : (noteUnseen s c).Canon := by
  fun_cases noteUnseen s c <;> exact hs

theorem finishCmd_canon {id} (hs : s.Canon) : (finishCmd s id).Canon := by
  fun_cases finishCmd s id
  case case1 => exact hs
  case case2 => exact launchMember_canon (henSignal_canon (noteUnseen_canon hs))
  case case3 => exact henSignal_canon (noteUnseen_canon hs)

theorem arriveFault_canon {id c f} (hs : s.Canon) : (arriveFault s id c f).Canon := by
  fun_cases arriveFault s id c f
  case case1 => exact finishCmd_canon (updCmd_canon (barPut_canon (cmdRecord_canon hs)))
  case case2 => exact failIssuer_canon (cmdRecord_canon hs)

theorem retryHeld_canon {bar x1} (hs : s.Canon) : (retryHeld bar x1 s).Canon := by
  fun_induction retryHeld bar x1 s
  case case3 ih | case6 ih => exact ih (arriveFault_canon hs)
  case case4 ih => exact ih (finishCmd_canon (barPut_canon hs))
  all_goals exact hs

theorem completeCmd_canon {id} (hs : s.Canon) : (completeCmd s id).Canon := by
  fun_cases completeCmd s id
  case case1 => exact hs
  case case2 => exact finishCmd_canon hs
  case case4 => exact retryHeld_canon (finishCmd_canon (barPut_canon hs))
  case case5 => exact updCmd_canon hs
  all_goals exact arriveFault_canon hs

theorem resumeSusp_canon {n} (hs : s.Canon) : (resumeSusp s n).Canon := by
  fun_cases resumeSusp s n
  case case1 => exact barPartial_canon (updCmd_canon hs)
  case case2 | case3 => exact updCmd_canon hs
  all_goals exact hs

/-! ### Code fetch (R61, R88, R370) -/

theorem raiseFetch_canon {f last obj line} (hs : s.Canon) : (raiseFetch f last obj line s).Canon := by
  fun_cases raiseFetch f last obj line s <;> exact raiseWith_canon hs

theorem resolvePc_canon {x0} (hs : s.Canon) : (resolvePc x0 s).Canon := by
  fun_induction resolvePc x0 s
  case case4 | case5 | case6 | case9 => exact raiseFetch_canon hs
  case case7 ih => exact ih hs
  all_goals exact hs

theorem moveOn_canon {x} (hs : s.Canon) : (moveOn x s).Canon := by
  fun_cases moveOn x s <;> exact resolvePc_canon hs

/-! ### Traps and services (R151, R370 to R373) -/

theorem takeTrap_canon {code} (hs : s.Canon) : (takeTrap code s).Canon := hs

theorem serviceOutcome_canon {r fail} (hs : s.Canon) : (serviceOutcome r fail s).Canon := by
  fun_cases serviceOutcome r fail s
  case case2 | case4 => exact raiseWith_canon hs
  case case5 => exact resumeSusp_canon hs
  case case6 => exact endOnFault_canon hs
  all_goals exact hs

theorem endService_canon (hs : s.Canon) : (endService s).Canon := by
  fun_cases endService s
  case case1 => exact hs
  case case2 => exact updF_canon (serviceOutcome_canon hs)

/-! ### The end of a bundle -/

theorem bundleEnd_canon (hs : s.Canon) : (bundleEnd s).Canon := by
  fun_cases bundleEnd s
  case case1 => exact raise_canon (ite_canon hs hs)
  case case2 => exact moveOn_canon (ite_canon hs hs)
  case case3 => exact moveOn_canon (takeTrap_canon (ite_canon hs hs))
  case case4 => exact endService_canon (ite_canon hs hs)
  case case5 => exact updCtx_canon (ite_canon hs hs)

theorem seqDone_canon {e ext} (hs : s.Canon) : (seqDone e ext s).Canon := by
  fun_cases seqDone e ext s
  case case1 => exact bundleEnd_canon hs
  case case2 => exact hs

theorem seqReg_canon {e ext d lat v} (hs : s.Canon) : (seqReg e ext d lat v s).Canon := seqDone_canon hs

/-! ### Loads and stores (R130 to R132) -/

theorem seqLoad_canon {n signed e d a imm x} (hs : s.Canon) : (seqLoad n signed e d a imm x s).Canon := by
  fun_cases seqLoad n signed e d a imm x s
  case case3 | case5 | case7 => exact seqReg_canon hs
  case case8 | case10 | case11 => exact hs
  all_goals exact seqDone_canon hs

theorem seqStore_canon {n e src a imm x} (hs : s.Canon) : (seqStore n e src a imm x s).Canon := by
  fun_cases seqStore n e src a imm x s <;> exact seqDone_canon hs

/-! ### Control transfer (R133 to R135) -/

theorem seqRaise_canon {e ext f unit} (hs : s.Canon) : (seqRaise e ext f unit s).Canon := seqDone_canon (raise_canon hs)

theorem execExit_canon {e} (hs : s.Canon) : NextCanon (execExit e s) := by
  fun_cases execExit e s
  case case1 => exact seqRaise_canon hs
  case case2 => exact seqDone_canon hs

theorem execTrap_canon {e imm x} (hs : s.Canon) : NextCanon (execTrap e imm x s) := by
  fun_cases execTrap e imm x s
  case case1 => exact seqRaise_canon hs
  case case2 => exact seqDone_canon hs

theorem execRfe_canon {e} (hs : s.Canon) : NextCanon (execRfe e s) := by
  fun_cases execRfe e s
  case case1 => exact seqRaise_canon hs
  case case2 => exact seqDone_canon hs

/-! ### Streams and the crew clock (R30, R136 to R138, R400) -/

theorem armStream_canon {u off start} (hs : s.Canon) : (armStream u off start s).Canon := by
  fun_cases armStream u off start s
  case case4 => exact hs
  all_goals exact raise_canon hs

theorem execArm_canon {e stream a loff x} (hs : s.Canon) : NextCanon (execArm e stream a loff x s) := by
  fun_cases execArm e stream a loff x s
  case case1 => exact seqRaise_canon hs
  case case2 => exact seqDone_canon (armStream_canon hs)

theorem execDisarm_canon {e stream x} (hs : s.Canon) : NextCanon (execDisarm e stream x s) := by
  fun_cases execDisarm e stream x s
  case case3 => exact seqDone_canon hs
  all_goals exact seqRaise_canon hs

theorem execSync_canon {e d a} (hs : s.Canon) : NextCanon (execSync e d a s) := by
  fun_cases execSync e d a s
  case case1 => exact seqReg_canon hs
  case case2 => exact seqDone_canon (ite_canon hs hs)

theorem execIdle_canon {e d a imm x} (hs : s.Canon) : NextCanon (execIdle e d a imm x s) := by
  fun_cases execIdle e d a imm x s
  case case1 => exact seqReg_canon hs
  case case2 => exact seqDone_canon hs

/-! ### Operand files, flags and semaphores (R139 to R146) -/

theorem execSetof_canon {e stn ofi a ty} (hs : s.Canon) : NextCanon (execSetof e stn ofi a ty s) := by
  fun_cases execSetof e stn ofi a ty s <;> exact seqDone_canon hs

theorem execHsig_canon {e h a imm} (hs : s.Canon) : NextCanon (execHsig e h a imm s) := by
  fun_cases execHsig e h a imm s
  case case3 => exact seqDone_canon hs
  all_goals exact seqRaise_canon hs

theorem execHwait_canon {e h op a imm} (hs : s.Canon) : NextCanon (execHwait e h op a imm s) := by
  fun_cases execHwait e h op a imm s
  case case3 => exact seqDone_canon hs
  case case4 => exact hs
  all_goals exact seqRaise_canon hs

theorem execHrd_canon {e d h} (hs : s.Canon) : NextCanon (execHrd e d h s) := by
  fun_cases execHrd e d h s
  case case1 => exact seqRaise_canon hs
  case case2 => exact seqReg_canon hs

/-! ### The waits of a context end (R120, R132, R137, R138, R148) -/

theorem execSyncRelease_canon {core fw} (hs : s.Canon) : NextCanon (execSyncRelease core fw s) := by
  fun_cases execSyncRelease core fw s
  case case1 => exact ite_canon hs hs
  case case2 => exact hs

theorem execIdleWake_canon {core fw} (hs : s.Canon) : NextCanon (execIdleWake core fw s) := by
  fun_cases execIdleWake core fw s
  case case1 => exact ite_canon hs hs
  case case2 => exact hs

theorem execFenceComplete_canon {core fw} (hs : s.Canon) : NextCanon (execFenceComplete core fw s) := by
  fun_cases execFenceComplete core fw s
  case case1 => exact ite_canon hs hs
  case case2 => exact hs

theorem numberFetch_canon {f core obj line n} (hs : s.Canon) : (numberFetch f core obj line n s).Canon := request_canon (putRecord_canon hs)

theorem suspendFetch_canon {f core obj line} (hs : s.Canon) : (suspendFetch f core obj line s).Canon := by
  fun_cases suspendFetch f core obj line s
  case case3 => exact numberFetch_canon hs
  all_goals exact hs

theorem execConstLineReady_canon {core} (hs : s.Canon) : NextCanon (execConstLineReady core s) := by
  fun_cases execConstLineReady core s
  case case2 => exact suspendFetch_canon hs
  case case3 => exact raiseFetch_canon hs
  all_goals exact hs

/-! ### Bank entries -/

theorem setRp_canon {rp} (hs : s.Canon) : (setRp rp s).Canon := hs

theorem bankWrite_canon {h row part mask} (hs : s.Canon) : OnExcept State.Canon State.Canon (bankWrite h row part mask s) := by
  fun_cases bankWrite h row part mask s
  case case1 => exact raise_canon hs
  case case2 h2 => exact error_canon h2 (tapLane_canon hs)
  case case3 h2 _ _ => exact raise_canon (result_snd_canon h2 (tapLane_canon hs))
  case case4 h2 _ _ _ => exact later_canon (setRnd_canon (result_snd_canon h2 (tapLane_canon hs)))

theorem either_canon {r} (hr : OnExcept State.Canon State.Canon r) : (either r).Canon := by
  cases r with
  | ok s => exact hr
  | error s => exact hr

theorem execWrx_canon {h base len off adv} (hs : s.Canon) : NextCanon (execWrx h base len off adv s) := by
  fun_cases execWrx h base len off adv s
  split
  next h2 => exact setRp_canon (result_canon h2 (bankWrite_canon hs))
  next h2 => exact error_canon h2 (bankWrite_canon hs)

theorem execBankFill_canon {h row count} (hs : s.Canon) : NextCanon (execBankFill h row count s) := by
  fun_cases execBankFill h row count s
  case case1 => exact raise_canon hs
  case case2 h2 _ _ _ =>
    dsimp only [h2]
    split
    next h3 => exact error_canon h3 (tapLane_canon hs)
    · split
      next h3 _ _ _ => exact raise_canon (result_snd_canon h3 (tapLane_canon hs))
      next h3 _ _ _ _ => exact later_canon (setRnd_canon (result_snd_canon h3 (tapLane_canon hs)))
  case case3 => exact hs

theorem setMode_canon {seedv rnd sat seed src} (hs : s.Canon) : (setMode seedv rnd sat seed src s).Canon := hs

theorem modeEntry_canon {h seedv rnd sat seed} (hs : s.Canon) : (modeEntry h seedv rnd sat seed s).Canon := by
  fun_cases modeEntry h seedv rnd sat seed s
  case case1 h2 => exact error_canon h2 (readOpnd_canon hs)
  case case2 h2 _ => exact raise_canon (result_snd_canon h2 (readOpnd_canon hs))
  case case3 h2 _ => exact setMode_canon (result_snd_canon h2 (readOpnd_canon hs))
  case case4 => exact hs

theorem execFmt_canon {h f cb load} (hs : s.Canon) : NextCanon (execFmt h f cb load s) := by
  fun_cases execFmt h f cb load s
  case case1 h2 _ _ =>
    dsimp only [h2]
    split
    next h3 => exact error_canon h3 (tapLane_canon hs)
    next h3 => exact later_canon (later_canon (updF_canon (result_snd_canon h3 (tapLane_canon hs))))
  case case2 => exact hs

theorem execChk_canon {h} (hs : s.Canon) : NextCanon (execChk h s) := by
  fun_cases execChk h s
  split
  next h2 => exact error_canon h2 (readSources_canon hs)
  next h2 =>
    have ht := result_snd_snd_canon h2 (readSources_canon hs)
    exact ite_canon (raise_canon ht) (ite_canon (raise_canon ht) ht)

/-! ### RD (R186 to R192) -/

theorem execTopk_canon {h k start} (hs : s.Canon) : NextCanon (execTopk h k start s) := by
  fun_cases execTopk h k start s
  split
  next h2 => exact error_canon h2 (readSources_canon hs)
  · split
    next h2 _ _ _ => exact raiseOpnd_canon (result_snd_snd_canon h2 (readSources_canon hs))
    next h2 _ _ _ _ _ => exact giveResult_canon (updF_canon (setRnd_canon (result_snd_snd_canon h2 (readSources_canon hs))))

theorem execVflag_canon {h flag count amb} (hs : s.Canon) : NextCanon (execVflag h flag count amb s) := by
  fun_cases execVflag h flag count amb s
  split
  next h2 => exact error_canon h2 (readSources_canon hs)
  · split
    next h2 _ _ _ => exact raiseOpnd_canon (result_snd_snd_canon h2 (readSources_canon hs))
    next h2 _ _ =>
      have ht := result_snd_snd_canon h2 (readSources_canon hs)
      exact ite_canon (raise_canon ht) (later_canon ht)

/-! ### The ferry port station FR and the matrix feeder MF -/

theorem updFr_canon {f} (hs : s.Canon) : (State.updFr s f).Canon := hs

theorem execFsnd_canon {h q} (hs : s.Canon) : NextCanon (execFsnd h q s) := by
  fun_cases execFsnd h q s
  split
  next h2 => exact error_canon h2 (readOpnd_canon hs)
  next h2 =>
    dsimp only
    have ht := result_snd_canon h2 (readOpnd_canon hs)
    exact ite_canon (raise_canon ht) (ite_canon (raise_canon ht) (updFr_canon ht))

theorem execFrcv_canon {h q} (hs : s.Canon) : NextCanon (execFrcv h q s) := by
  fun_cases execFrcv h q s
  split <;> exact hs

theorem execFexp_canon {_h q count w} (hs : s.Canon) : NextCanon (execFexp _h q count w s) := by
  fun_cases execFexp _h q count w s
  exact ite_canon (raise_canon hs) hs

theorem countMarks_canon {x0 x1 x2} (hs : s.Canon) : (countMarks x0 x1 x2 s).Canon := by
  fun_induction countMarks x0 x1 x2 s
  case case3 ih => exact ih hs
  all_goals exact hs

theorem execFqd_canon {_h q sem} (hs : s.Canon) : NextCanon (execFqd _h q sem s) := by
  fun_cases execFqd _h q sem s
  case case1 => exact raise_canon hs
  case case2 => exact countMarks_canon hs

theorem execFexpDeadline_canon {core q} (hs : s.Canon) : NextCanon (execFexpDeadline core q s) := by
  fun_cases execFexpDeadline core q s
  exact ite_canon hs hs

theorem arriveRow_canon {core q} (hs : s.Canon) : (arriveRow core q s).Canon := by
  fun_cases arriveRow core q s <;> exact hs

/-! ### MF (R194, R201, R202) -/

theorem mfSource_canon {h} (hs : s.Canon) : OnExcept State.Canon (fun x => x.2.Canon) (mfSource h s) := by
  fun_cases mfSource h s
  case case1 h2 => exact error_canon h2 (readOpnd_canon hs)
  case case2 h2 _ _ => exact raise_canon (result_snd_canon h2 (readOpnd_canon hs))
  case case3 h2 _ _ => exact result_snd_canon h2 (readOpnd_canon hs)

theorem execMld_canon {h row slot} (hs : s.Canon) : NextCanon (execMld h row slot s) := by
  fun_cases execMld h row slot s
  exact ite_canon (raise_canon hs) (ite_canon (raise_canon hs) (by
    split
    next h2 => exact error_canon h2 (mfSource_canon hs)
    next h2 => exact later_canon (result_snd_canon h2 (mfSource_canon hs))))

theorem execMfd_canon {h} (hs : s.Canon) : NextCanon (execMfd h s) := by
  fun_cases execMfd h s
  exact ite_canon (raise_canon hs) (by
    split
    next h2 => exact error_canon h2 (mfSource_canon hs)
    next h2 => exact later_canon (result_snd_canon h2 (mfSource_canon hs)))

theorem execMrs_canon {h row slot acc q kind} (hs : s.Canon) : NextCanon (execMrs h row slot acc q kind s) := by
  refine ite_canon (ite_canon (raise_canon hs) ?_) (ite_canon (raise_canon hs) ?_)
  · split
    · next h => exact error_canon h (mfSource_canon hs)
    · next h =>
      have ht := result_snd_canon h (mfSource_canon hs)
      exact ite_canon (later_canon ht) (raise_canon ht)
  · split
    · next h => exact error_canon h (mfSource_canon hs)
    · next h => exact later_canon (result_snd_canon h (mfSource_canon hs))

/-! ### Rows between a core and a ferry (R28, R195, R266, R267) -/

theorem sendRow_canon {id core q r} (hs : s.Canon) : (sendRow id core q r s).Canon := by
  fun_cases sendRow id core q r s
  case case1 => exact updCmd_canon (updCore_canon (updCmd_canon hs))
  case case2 => exact updCmd_canon hs

theorem bindItems_canon {id c got} (hs : s.Canon) : (bindItems id c got s).Canon := by
  fun_cases bindItems id c got s
  case case1 => exact updCmd_canon (updCmd_canon hs)
  case case2 => exact updCmd_canon hs

theorem takeRows_canon {id need} (hs : s.Canon) : (takeRows id need s).Canon := by
  fun_cases takeRows id need s
  case case1 => exact bindItems_canon hs
  all_goals exact hs

theorem fireMarks_canon {core x1 x2} (hs : s.Canon) : (fireMarks core x1 x2 s).2.Canon := by
  fun_induction fireMarks core x1 x2 s
  case case3 h ih => exact snd_canon h (ih hs)
  case case4 ih => exact ih hs
  all_goals exact hs

/-! ### Reading an item -/

theorem readItem_canon {id cache src i} (hs : s.Canon) : OnOk (fun x => x.2.Canon) (readItem id cache src i s) := by
  fun_cases readItem id cache src i s
  case case3 h => exact ok_pair_canon h (readElem_canon hs)
  case case4 | case5 => exact .map onOk_any (fun _ _ => hs)
  case case6 | case7 | case9 => exact hs
  all_goals exact trivial

theorem readItems_canon {id cache src x3} (hs : s.Canon) : OnOk (fun x => x.2.Canon) (readItems id cache src x3 s) := by
  fun_induction readItems id cache src x3 s
  case case1 => exact hs
  case case4 h _ _ h2 ih => exact ok_snd_canon h2 (ih (ok_snd_canon h (readItem_canon hs)))
  all_goals exact trivial

/-! ### Writing a unit -/

theorem sideBytes_canon {sn sides} (hs : s.Canon) : (sideBytes sn sides s).2.Canon := by
  fun_cases sideBytes sn sides s
  case case1 => exact hs
  case case2 h _ => exact snd_canon h hs

theorem sectorSides_canon {o sector vs x3} (hs : s.Canon) : (sectorSides o sector vs x3 s).2.Canon := by
  fun_induction sectorSides o sector vs x3 s
  case case1 => exact hs
  case case2 h _ _ h2 ih => exact snd_canon h2 (ih (snd_canon h (sideBytes_canon hs)))

theorem sectorBytes_canon {o sector old vs} (hs : s.Canon) : (sectorBytes o sector old vs s).2.Canon := sectorSides_canon hs

theorem noteDirty_canon {id cache t sector} (hs : s.Canon) : (noteDirty id cache t sector s).Canon := by
  fun_cases noteDirty id cache t sector s
  case case1 => exact updCmd_canon hs
  all_goals exact hs

theorem putUnit_canon {id c cache dst src u vs} (hs : s.Canon) : OnOk State.Canon (putUnit id c cache dst src u vs s) := by
  fun_cases putUnit id c cache dst src u vs s
  case case1 => exact sendRow_canon hs
  case case4 h => exact ok_canon h (cmdLandPut_canon hs)
  case case8 | case9 | case10 =>
    split
    · exact trivial
    · dsimp only
      split
      · exact trivial
      next h => exact noteDirty_canon (ok_canon h (tierWrite_canon (sectorBytes_canon hs)))
  all_goals exact trivial

theorem reserveRow_canon {id dst} (hs : s.Canon) : OnOk State.Canon (reserveRow id dst s) := by
  fun_cases reserveRow id dst s
  case case2 => exact updCmd_canon hs
  case case3 => exact trivial
  all_goals exact hs

theorem takeUnit_canon {id cache busy t u p} (hs : s.Canon) : OnOk (fun x => x.2.Canon) (takeUnit id cache busy t u p s) := by
  fun_cases takeUnit id cache busy t u p s
  case case1 => exact trivial
  case case2 => exact readItems_canon hs

theorem unitMoved_canon {id c t u} (hs : s.Canon) : (unitMoved id c t u s).Canon := by
  fun_cases unitMoved id c t u s
  case case1 => exact updCmd_canon hs
  case case2 => exact barWrote_canon (updCmd_canon hs)

theorem moveUnit_canon {id cache busy t u} (hs : s.Canon) : OnOk State.Canon (moveUnit id cache busy t u s) := by
  fun_cases moveUnit id cache busy t u s
  case case5 h _ _ _ _ h2 _ h3 =>
    exact unitMoved_canon (ok_canon h3 (putUnit_canon (ok_snd_canon h2 (takeUnit_canon (ok_canon h (reserveRow_canon hs))))))
  all_goals exact trivial

theorem unitStop_canon {id t u e} (hs : s.Canon) : (unitStop id t u e s).1.Canon := by
  fun_cases unitStop id t u e s
  case case1 =>
    split
    next h => exact ok_canon h (reserveRow_canon hs)
    · exact hs
  case case2 => exact hs

theorem moveBurst_canon {id cache busy short t u v s'} (hs : s.Canon) : moveBurst id cache busy short t u v s = .moved s' → s'.Canon := by
  fun_cases moveBurst id cache busy short t u v s
  case case10 h1 _ _ h2 _ _ _ h3 _ _ h4 _ h5 =>
    rintro ⟨⟩
    have hu := ok_snd_canon h2 (takeUnit_canon (ok_snd_canon h1 (takeUnit_canon hs)))
    have hb := snd_canon h4 (sectorBytes_canon (snd_canon h3 (sectorBytes_canon hu)))
    exact unitMoved_canon (unitMoved_canon (ok_canon h5 (tierWrite_canon hb)))
  all_goals nofun

theorem moveUnits_canon {id cache busy short t us} (hs : s.Canon) : (moveUnits id cache busy short t us s).1.Canon := by
  fun_induction moveUnits id cache busy short t us s
  case case1 => exact hs
  case case2 | case4 | case6 => exact unitStop_canon hs
  case case3 h => exact ok_canon h (moveUnit_canon hs)
  case case5 h ih => exact ih (moveBurst_canon hs h)
  case case7 h ih => exact ih (ok_canon h (moveUnit_canon hs))

theorem moveLines_canon {id cache busy short t x5} (hs : s.Canon) : (moveLines id cache busy short t x5 s).1.Canon := by
  fun_induction moveLines id cache busy short t x5 s
  case case2 h ih => exact ih (fst_canon h (moveUnits_canon hs))
  case case5 h => exact fst_canon h (moveUnits_canon hs)
  case case6 h _ => exact fst_canon h (moveUnits_canon hs)
  all_goals exact hs

theorem moveAll_canon {id cache busy short x4} (hs : s.Canon) : (moveAll id cache busy short x4 s).1.Canon := by
  fun_induction moveAll id cache busy short x4 s
  case case1 => exact hs
  case case2 h => exact fst_canon h (moveLines_canon hs)
  case case3 h _ _ _ => exact fst_canon h (moveLines_canon hs)
  case case4 h _ _ ih => exact ih (updCmd_canon (fst_canon h (moveLines_canon hs)))

/-! ### Atomics and signals (R255, R258) -/

theorem targetRmw_canon {c dk dst kind w hostOk f} (hs : s.Canon) : OnOk (fun x => x.2.Canon) (targetRmw s c dk dst kind w hostOk f) := by
  fun_cases targetRmw s c dk dst kind w hostOk f
  case case10 h => exact ok_canon h (tierWrite_canon hs)
  case case14 h => exact ok_canon h (cmdLandPut_canon hs)
  all_goals exact trivial

theorem runAtom_canon {h f c} (hs : s.Canon) : OnOk State.Canon (runAtom h f c s) := by
  fun_cases runAtom h f c s
  case case4 h2 _ _ h3 => exact ok_canon h3 (cmdLandPut_canon (ok_snd_canon h2 (targetRmw_canon hs)))
  case case5 h2 _ => exact ok_snd_canon h2 (targetRmw_canon hs)
  all_goals exact trivial

theorem runMsig_canon {h f c} (hs : s.Canon) : OnOk State.Canon (runMsig h f c s) :=
  .map (targetRmw_canon (cleanScope_canon hs)) (fun _ ht => ht)

theorem runBarinit_canon {f c} (hs : s.Canon) : OnOk State.Canon (runBarinit f c s) := by
  fun_cases runBarinit f c s
  case case1 => exact trivial
  case case2 h => exact retryHeld_canon (ok_canon h (cmdLandPut_canon hs))

/-! ### Publication and invalidation (R248, R257) -/

theorem placeMarkers_canon {id v} (hs : s.Canon) : (placeMarkers id v s).Canon := updCmd_canon hs

theorem rehomeSec_canon {v slice key c} (hs : s.Canon) : (rehomeSec v slice key c s).Canon := by
  fun_cases rehomeSec v slice key c s <;> exact hs

theorem rehome_canon {v} (hs : s.Canon) : (rehome v s).Canon :=
  foldl_canon hs (fun _ _ ht => foldl_canon ht (fun _ _ ht1 => rehomeSec_canon ht1))

theorem swapHomes_canon {pub shadow} (hs : s.Canon) : (swapHomes pub shadow s).Canon := hs

theorem publish_canon {id pub shadow} (hs : s.Canon) : OnOk State.Canon (publish id pub shadow s) := by
  fun_cases publish id pub shadow s
  case case6 h _ h2 => exact placeMarkers_canon (swapHomes_canon (ok_canon h2 (lpWrite_canon (ok_canon h (lpWrite_canon hs)))))
  all_goals exact trivial

/-! ### Prefetch (R249) -/

theorem prefLines_canon {o p tt slice x4} (hs : s.Canon) : OnOk State.Canon (prefLines o p tt slice x4 s) := by
  fun_induction prefLines o p tt slice x4 s
  case case1 => exact hs
  case case5 h ih => exact ih (ok_snd_canon h (cacheReadList_canon hs))
  case case6 ih => exact ih hs
  all_goals exact trivial

theorem runPref_canon {c f} (hs : s.Canon) : OnOk State.Canon (runPref c f s) := by
  fun_cases runPref c f s
  case case3 => exact prefLines_canon hs
  all_goals exact trivial

/-! ### Running a command -/

theorem runSingle_canon {i id c} (hs : s.Canon) : OnSome (OnOk State.Canon) (runSingle i id c s) := by
  fun_cases runSingle i id c s
  case case1 => exact runAtom_canon hs
  case case2 => exact runMsig_canon hs
  case case3 => exact runBarinit_canon hs
  case case4 => exact placeMarkers_canon hs
  case case5 => exact runPref_canon hs
  all_goals exact trivial

theorem settleMarks_canon {id ts} (hs : s.Canon) : (settleMarks id ts s).Canon := by
  fun_cases settleMarks id ts s
  case case2 h => exact updCmd_canon (snd_canon h (fireMarks_canon (updCmd_canon hs)))
  case case3 => exact updCmd_canon hs
  all_goals exact hs

theorem settleBinding_canon {id} (hs : s.Canon) : (settleBinding s id).Canon := by
  fun_cases settleBinding s id
  case case1 => exact settleMarks_canon hs
  all_goals exact hs

theorem settleQueue_canon {core q} (hs : s.Canon) : (settleQueue core q s).Canon :=
  countMarks_canon (foldl_canon hs (fun _ _ ht => settleBinding_canon ht))

theorem writeBackCmd_canon {c} (hs : s.Canon) : (writeBackCmd s c).Canon := by
  fun_cases writeBackCmd s c
  case case1 => exact hs
  case case2 => exact foldl_canon hs (fun _ _ ht => cleanSlice_canon ht)

theorem publishCmd_canon {id f} (hs : s.Canon) : OnOk State.Canon (publishCmd id f s) := by
  fun_cases publishCmd id f s
  case case1 => exact publish_canon (writeBackCmd_canon hs)
  case case2 => exact hs

theorem ferrySettle_canon {id i r} (hr : r.1.Canon) : (ferrySettle id i r).Canon := by
  fun_cases ferrySettle id i r
  case case1 h => exact updCmd_canon (ok_canon h (publishCmd_canon hr))
  case case3 | case7 => exact hr
  case case4 | case6 => exact updCmd_canon hr
  case case5 => exact endOnFault_canon hr
  all_goals exact cmdFault_canon hr

theorem begin0_canon {id i c busy} (hs : s.Canon) : OnOk State.Canon (begin0 id i c busy s) := by
  fun_cases begin0 id i c busy s
  case case1 => exact hs
  case case6 h => exact (ok_canon h (barStart_canon hs) :)
  all_goals exact trivial

theorem runFerry_canon {i id} (hs : s.Canon) : (runFerry i id s).Canon := by
  fun_cases runFerry i id s
  case case1 | case2 => exact hs
  case case3 => exact ferrySettle_canon hs
  case case4 h _ => exact ok_canon h (begin0_canon hs)
  case case5 h _ _ _ _ _ | case7 h _ _ _ _ _ => exact ferrySettle_canon (ok_canon h (begin0_canon hs))
  case case6 h _ _ _ _ h' => exact ferrySettle_canon (barWrote_canon (some_ok_canon h' (runSingle_canon (ok_canon h (begin0_canon hs)))))
  case case8 h _ _ _ _ _ _ => exact ferrySettle_canon (takeRows_canon (ok_canon h (begin0_canon hs)))
  case case9 h _ _ _ _ _ _ _ _ _ h' =>
    exact ferrySettle_canon (settleMarks_canon (fst_canon h' (moveAll_canon (takeRows_canon (ok_canon h (begin0_canon hs))))))

theorem startFerry_canon {i} (hs : s.Canon) : NextCanon (startFerry i s) := by
  fun_cases startFerry i s
  split
  · exact ite_canon (runFerry_canon (updCmd_canon hs)) hs
  · exact hs

theorem execFerryContinue_canon {cmd} (hs : s.Canon) : NextCanon (execFerryContinue cmd s) := by
  fun_cases execFerryContinue cmd s
  split
  · exact ite_canon (by
      split
      · exact runFerry_canon hs
      · exact hs) hs
  · exact hs

/-! ### Completion (R257, R263) -/

theorem endMarks_canon {id c} (hs : s.Canon) : (endMarks id c s).Canon := by
  fun_cases endMarks id c s
  case case4 h _ =>
    exact loseMarks_canon (by
      dsimp only [h]
      split
      · exact fireMarks_canon hs
      · exact updCmd_canon hs)
  case case5 h _ =>
    dsimp only [h]
    split
    · exact fireMarks_canon hs
    · exact updCmd_canon hs
  all_goals exact hs

theorem execFerryCommandComplete_canon {cmd} (hs : s.Canon) : NextCanon (execFerryCommandComplete cmd s) := by
  have rest {c : Cmd} {t : State} (ht : t.Canon) :
      (completeCmd ((if c.op = 0xEC then rehome (markCover c) else id) t) cmd).Canon := by
    split
    · exact completeCmd_canon (rehome_canon ht)
    · exact completeCmd_canon ht
  unfold execFerryCommandComplete
  split
  · refine ite_canon ?_ hs
    have marked {c} := endMarks_canon (id := cmd) (c := c)
      (barWrote_canon (c := c) (n := 128 * c.sent.length) (writeBackCmd_canon (c := c) hs))
    dsimp only
    split
    · exact ite_canon (settleQueue_canon (rest (updCmd_canon marked))) (rest (updCmd_canon marked))
    · exact rest (updCmd_canon marked)
  · exact hs

/-! ### Arrival of rows (R195, R350) -/

theorem rowWritten_canon {id c n} (hs : s.Canon) : (rowWritten id c n s).Canon := by
  fun_cases rowWritten id c n s
  case case1 => exact settleQueue_canon (barWrote_canon (updCmd_canon hs))
  all_goals exact barWrote_canon (updCmd_canon hs)

theorem execRowArrival_canon {core q} (hs : s.Canon) : NextCanon (execRowArrival core q s) := by
  fun_cases execRowArrival core q s
  case case1 h2 h =>
    dsimp only [h, h2]
    split
    · exact ite_canon hs (rowWritten_canon (arriveRow_canon hs))
    · exact arriveRow_canon hs

/-! ### The matrix engine (R199 to R218) -/

theorem updMx_canon {f} (hs : s.Canon) : (State.updMx s f).Canon := hs

/-! ### `mxq` (R99, R100, R142, R203, R204) -/

theorem mxqRaise_canon {f unit lo hi} (hs : s.Canon) : (mxqRaise f unit lo hi s).Canon := raiseWith_canon hs

theorem execMxq_canon {e a b} (hs : s.Canon) : NextCanon (execMxq e a b s) := by
  fun_cases execMxq e a b s
  case case1 h2 h _ =>
    dsimp only [h, h2]
    split
    · exact seqDone_canon (raiseWith_canon hs)
    · exact ite_canon (seqDone_canon (raiseWith_canon hs)) (ite_canon (seqDone_canon (mxqRaise_canon hs)) (by
        split
        · exact seqDone_canon (mxqRaise_canon hs)
        · exact ite_canon (seqDone_canon (mxqRaise_canon hs)) (seqDone_canon hs)))

/-! ### A command at its START (R204, R217) -/

theorem mxAwait_canon {h f} (hf : ∀ a0, a0.Canon → (f a0).Canon) (hs : s.Canon) : (mxAwait h f s).Canon := by
  fun_cases mxAwait h f s
  case case1 => exact hs
  case case2 => exact hf _ hs

theorem mxRaise_canon {f unit} (hs : s.Canon) : (mxRaise f unit s).Canon := raise_canon hs

/-! ### Multiplies (R206 to R211) -/

theorem mxRow_canon {m} (hs : s.Canon) : (mxRow m s).Canon := by
  fun_cases mxRow m s
  case case3 h =>
    exact updMx_canon (by
      dsimp only [h]
      split <;> exact hs)
  all_goals exact mxRaise_canon hs

theorem mxMultiply_canon {keep h acc slot m n k ty sparse mof} (hs : s.Canon) :
    (mxMultiply keep h acc slot m n k ty sparse mof s).Canon := by
  fun_cases mxMultiply keep h acc slot m n k ty sparse mof s
  case case6 => exact mxRow_canon hs
  all_goals exact mxRaise_canon hs

/-! ### The other commands (R212 to R216) -/

theorem mxClaim_canon {claim h mask} (hs : s.Canon) : (mxClaim claim h mask s).Canon := by
  fun_cases mxClaim claim h mask s
  case case1 => exact mxRaise_canon hs
  case case2 => exact hs

theorem execMscl_canon {h slot row0 mof w} (hs : s.Canon) : NextCanon (execMscl h slot row0 mof w s) := by
  fun_cases execMscl h slot row0 mof w s
  exact mxAwait_canon (fun _ ht => (by
    dsimp only
    exact ite_canon (mxRaise_canon ht) (ite_canon (mxRaise_canon ht) ht))) hs

theorem execMtr_canon {h dst src} (hs : s.Canon) : NextCanon (execMtr h dst src s) := by
  fun_cases execMtr h dst src s
  exact mxAwait_canon (fun _ ht => (by
    dsimp only
    exact ite_canon (mxRaise_canon ht) (ite_canon (mxRaise_canon ht) (ite_canon (mxRaise_canon ht) ht)))) hs

theorem execMxMsig_canon {h tgt} (hs : s.Canon) : NextCanon (execMxMsig h tgt s) := by
  fun_cases execMxMsig h tgt s
  exact mxAwait_canon (fun _ ht => (by
    dsimp only
    exact ite_canon (mxRaise_canon ht) ht)) hs

/-! ### Landings (R202, R204, R205) -/

theorem execMatrixUpdateLand_canon {core} (hs : s.Canon) : NextCanon (execMatrixUpdateLand core s) := hs

theorem execMatrixCommandComplete_canon {core} (hs : s.Canon) : NextCanon (execMatrixCommandComplete core s) := by
  fun_cases execMatrixCommandComplete core s
  exact foldl_canon hs (fun _ _ ht => (by split <;> exact ht))

/-! ### The kiln tier (R220 to R237) -/

theorem updKiln_canon {core arr f} (hs : s.Canon) : (State.updKiln s core arr f).Canon := hs

theorem draws_canon {n} (hs : s.Canon) : (State.draws s n).2.Canon := hs

theorem kilnRecord_canon {code core arr delta tag cycle part} (hs : s.Canon) : (kilnRecord code core arr delta tag cycle part s).Canon :=
  record_canon hs

/-! ### Drift (R227) -/

theorem judgeDrift_canon {arr sh x} (hs : s.Canon) : (judgeDrift arr sh x s).2.Canon := by
  fun_cases judgeDrift arr sh x s
  case case1 h _ _ _ _ _ _ _ _ _ _ _ _ _ _ =>
    exact later_canon (request_canon (putRecord_canon (updKiln_canon (updKiln_canon (snd_canon h hs)))))
  case case2 h _ _ _ _ _ _ _ _ _ _ _ _ => exact kilnRecord_canon (updKiln_canon (updKiln_canon (snd_canon h hs)))
  case case3 h _ _ _ _ _ _ _ _ _ _ _ => exact updKiln_canon (snd_canon h hs)

/-! ### Issue (R228) -/

theorem kilnUse_canon {arr w f} (hf : ∀ a0, a0.Canon → (f a0).Canon) (hs : s.Canon) : (kilnUse arr w f s).Canon := by
  fun_cases kilnUse arr w f s
  case case3 => exact hs
  case case4 => exact hf _ hs
  all_goals exact raise_canon hs

theorem execXmv_canon {h arr sh} (hs : s.Canon) : NextCanon (execXmv h arr sh s) := by
  fun_cases execXmv h arr sh s
  exact ite_canon (raise_canon hs) (kilnUse_canon (fun _ ht => (by
    split
    · exact raiseOpnd_canon ht
    · dsimp only
      exact foldl_canon (updKiln_canon (draws_canon (judgeDrift_canon ht))) (fun _ _ ht1 => ht1))) hs)

theorem execXref_canon {h arr sh} (hs : s.Canon) : NextCanon (execXref h arr sh s) := by
  fun_cases execXref h arr sh s
  exact ite_canon (raise_canon hs) (kilnUse_canon (fun _ ht => (by
    split
    next h2 => exact giveResult_canon (snd_canon h2 (judgeDrift_canon ht)))) hs)

theorem execXprogDeposit_canon {h arr row q} (hs : s.Canon) : NextCanon (execXprogDeposit h arr row q s) := by
  fun_cases execXprogDeposit h arr row q s
  exact ite_canon (raise_canon hs) (ite_canon (raise_canon hs) (by
    split
    next h2 => exact error_canon h2 (readOpnd_canon hs)
    · dsimp only
      split
      next h2 _ _ _ => exact raiseOpnd_canon (result_snd_canon h2 (readOpnd_canon hs))
      next h2 _ _ =>
        have ht := result_snd_canon h2 (readOpnd_canon hs)
        exact ite_canon (raise_canon ht) (later_canon ht)))

theorem execXprogFire_canon {_h arr sem} (hs : s.Canon) : NextCanon (execXprogFire _h arr sem s) := by
  fun_cases execXprogFire _h arr sem s
  exact ite_canon (raise_canon hs) (ite_canon (raise_canon hs) (ite_canon (raise_canon hs)
      (ite_canon (raise_canon hs) (ite_canon (raise_canon hs) hs))))

theorem execXbound_canon {h arr sh} (hs : s.Canon) : NextCanon (execXbound h arr sh s) := by
  fun_cases execXbound h arr sh s
  exact ite_canon (raise_canon hs) (ite_canon (raise_canon hs) (by
    split
    · exact raiseOpnd_canon hs
    · exact hs))

/-! ### The tier's own happenings (R223, R224, R227, R232) -/

theorem execKilnRecal_canon {core start} (hs : s.Canon) : NextCanon (execKilnRecal core start s) := foldl_canon hs (fun _ _ ht => ht)

theorem execRecalStart_canon {core arr} (hs : s.Canon) : NextCanon (execRecalStart core arr s) := by
  fun_cases execRecalStart core arr s
  exact ite_canon hs hs

theorem execRecalEnd_canon {core arr ok} (hs : s.Canon) : NextCanon (execRecalEnd core arr ok s) :=
  ite_canon hs (ite_canon hs (kilnRecord_canon hs))

theorem savedSignal_canon {record core h} (hs : s.Canon) : (savedSignal record core h s).Canon := hs

theorem execFiringEnd_canon {core arr ok} (hs : s.Canon) : NextCanon (execFiringEnd core arr ok s) := by
  fun_cases execFiringEnd core arr ok s
  case case1 h =>
    exact ite_canon hs (by
      dsimp only [h]
      split
      · exact ite_canon (hsemChange_canon (ite_canon hs (kilnRecord_canon hs))) (savedSignal_canon (ite_canon hs (kilnRecord_canon hs)))
      · exact ite_canon hs (kilnRecord_canon hs))

theorem execKilnTemp_canon {core arr temp} (hs : s.Canon) : NextCanon (execKilnTemp core arr temp s) := by
  fun_cases execKilnTemp core arr temp s
  exact ite_canon (kilnRecord_canon hs) hs

theorem execDriftDue_canon {core arr} (hs : s.Canon) : NextCanon (execDriftDue core arr s) := ite_canon hs hs

/-! ### Landings on the kiln die (R232) -/

theorem landKiln_canon {core e} (hs : s.Canon) : (landKiln core e s).Canon := by
  fun_cases landKiln core e s <;> exact hs

/-! ### What lands at the end of a crew cycle -/

theorem landAs_canon {core stn o f} (hf : ∀ a0, a0.Canon → (f a0).Canon) (hs : s.Canon) : (landAs core stn o f s).Canon := hf _ hs

theorem landResult_canon {stn dst row issue} (hs : s.Canon) : (landResult stn dst row issue s).Canon := by
  fun_cases landResult stn dst row issue s
  case case1 h =>
    exact updF_canon (by
      dsimp only [h]
      split
      · exact putLane_canon hs
      · exact ite_canon (countUse_canon hs) (updF_canon (countUse_canon hs))
      · exact hs)

theorem landBankWrite_canon {bank rowNo p} (hs : s.Canon) : (landBankWrite bank rowNo p s).Canon := by
  fun_cases landBankWrite bank rowNo p s
  case case1 => exact countUse_canon hs
  case case2 => exact updF_canon (countUse_canon hs)

theorem landEff_canon {p} (hs : s.Canon) : (landEff p s).Canon := by
  fun_cases landEff p s
  case case1 => exact landResult_canon hs
  case case2 => exact putLane_canon hs
  case case3 | case4 => exact landBankWrite_canon hs
  case case5 => exact later_canon (landBankWrite_canon hs)
  case case11 => exact raise_canon hs
  case case16 | case17 => exact landKiln_canon hs
  all_goals exact hs

theorem landSel_canon {core sel} (hs : s.Canon) : (landSel core sel s).Canon :=
  foldl_canon hs (fun _ _ ht => landAs_canon (fun _ ht1 => landEff_canon ht1) ht)

theorem execXbRowPut_canon {core} (hs : s.Canon) : NextCanon (execXbRowPut core s) := landSel_canon hs

theorem execStationResultLand_canon {core} (hs : s.Canon) : NextCanon (execStationResultLand core s) :=
  foldl_canon hs (fun _ _ ht => landSel_canon ht)

/-! ### The end of a task (R29) -/

theorem execTaskComplete_canon {core} (hs : s.Canon) : NextCanon (execTaskComplete core s) := by
  fun_cases execTaskComplete core s
  case case1 => exact ite_canon (launchMember_canon hs) hs
  case case2 => exact hs

/-! ### The crew clock and holds (R21, R32 to R35) -/

theorem crewRaise_canon {k f} (hs : s.Canon) : (crewRaise k f s).Canon := by
  fun_cases crewRaise k f s
  case case1 => exact landAs_canon (fun _ ht => raise_canon ht) hs
  case case2 => exact hs

theorem execClockEnd_canon {crew} (hs : s.Canon) : NextCanon (execClockEnd crew s) := by
  fun_cases execClockEnd crew s
  split
  · exact ite_canon (crewRaise_canon hs) hs
  · exact hs

theorem crewTick_canon {crew} (hs : s.Canon) : (crewTick crew s).Canon := by
  fun_cases crewTick crew s
  case case1 => exact hs
  case case2 => exact updCrew_canon (foldl_canon hs (fun _ _ ht => ht))

theorem execHoldRelease_canon {crew} (hs : s.Canon) : NextCanon (execHoldRelease crew s) := endHold_canon hs

theorem execHoldLimit_canon {crew} (hs : s.Canon) : NextCanon (execHoldLimit crew s) := by
  fun_cases execHoldLimit crew s
  split
  · dsimp only
    split
    · exact ite_canon (crewRaise_canon (endHold_canon hs)) hs
    · exact hs
  · exact hs

/-! ### The landed-through stamp (R286) -/

theorem reportLt_canon {log} (hs : s.Canon) : (reportLt s log).2.Canon := hs

/-! ### Acceptance (R280, R287, R297) -/

theorem acceptStore_canon {id} (hs : s.Canon) : (acceptStore id s).Canon := by
  unfold acceptStore
  split
  · exact hs
  · dsimp only
    split <;> exact updCmd_canon hs

/-! ### Records of events (R282, R291) -/

theorem storeEvent_canon {c code sub args} (hs : s.Canon) : (storeEvent s c code sub args).Canon := record_canon hs

theorem pageEvent_canon {c code page} (hs : s.Canon) : (pageEvent s c code page).Canon := record_canon hs

/-! ### Ends of a run -/

theorem putOut_canon {id c off b} (hs : s.Canon) : OnOk State.Canon (putOut id c off b s) := by
  fun_cases putOut id c off b s
  case case1 => exact trivial
  case case2 h => exact barWrote_canon (updCmd_canon (ok_canon h (cmdLandPut_canon hs)))

theorem storeMoved_canon {id status partialDone} (hs : s.Canon) : (storeMoved id status partialDone s).Canon := updCmd_canon hs

theorem retryWait_canon {id c cw} (hs : s.Canon) : (retryWait id c cw s).Canon := by
  fun_cases retryWait id c cw s
  case case1 => exact updCmd_canon hs
  case case2 => exact pageEvent_canon hs

theorem storeStop_canon {id c e} (hs : s.Canon) : (storeStop id c e s).Canon := by
  fun_cases storeStop id c e s
  case case2 => exact retryWait_canon hs
  all_goals exact cmdFault_canon hs

theorem storeBegin_canon {id c n} (hs : s.Canon) : OnOk State.Canon (storeBegin id c n s) := by
  fun_cases storeBegin id c n s
  case case1 => exact hs
  case case2 => exact trivial
  case case3 h => exact updCmd_canon (ok_canon h (barStart_canon hs))

/-! ### Searches (R287 to R290) -/

theorem searchEnd_canon {id c h k q labels f pages stop} (hs : s.Canon) : (searchEnd id c h k q labels f pages stop s).Canon := by
  fun_cases searchEnd id c h k q labels f pages stop s
  case case4 h2 _ _ => exact storeMoved_canon (ok_canon h2 (putOut_canon hs))
  all_goals exact storeStop_canon hs

theorem runSrchg_canon {id c f o h} (hs : s.Canon) : (runSrchg id c f o h s).Canon := by
  fun_cases runSrchg id c f o h s
  case case1 => exact storeStop_canon hs
  case case2 => exact searchEnd_canon hs

theorem runSrchv_canon {id c f o h} (hs : s.Canon) : (runSrchv id c f o h s).Canon := by
  fun_cases runSrchv id c f o h s
  case case2 | case4 => exact searchEnd_canon hs
  all_goals exact storeStop_canon hs

theorem runSearch_canon {id kind k check body} (hbody : ∀ a0 a1 a2 a3, a3.Canon → (body a0 a1 a2 a3).Canon) (hs : s.Canon) :
    (runSearch id kind k check body s).Canon := by
  fun_cases runSearch id kind k check body s
  case case1 => exact hs
  case case6 h _ _ _ => exact hbody _ _ _ _ (updCmd_canon (ok_canon h (storeBegin_canon hs)))
  case case7 h _ _ _ => exact updCmd_canon (updCmd_canon (ok_canon h (storeBegin_canon hs)))
  all_goals exact storeStop_canon hs

/-! ### `dscan` and `pgrd` (R292, R293) -/

theorem runDscan_canon {id f} (hs : s.Canon) : (runDscan id f s).Canon := by
  fun_cases runDscan id f s
  case case1 => exact hs
  case case8 h _ _ _ _ _ _ => exact storeStop_canon (ok_canon h (storeBegin_canon hs))
  case case9 h _ _ _ _ _ _ _ _ _ _ _ => exact storeStop_canon (ok_canon h (storeBegin_canon hs))
  case case10 h _ _ _ _ _ _ _ _ _ h2 _ => exact storeMoved_canon (ok_canon h2 (putOut_canon (ok_canon h (storeBegin_canon hs))))
  all_goals exact storeStop_canon hs

theorem copyPages_canon {id o first x3} (hs : s.Canon) : (copyPages id o first x3 s).Canon := by
  fun_induction copyPages id o first x3 s
  case case1 => exact storeMoved_canon hs
  case case4 | case5 => exact storeStop_canon hs
  case case6 h ih => exact ih (updCmd_canon (ok_canon h (putOut_canon hs)))
  all_goals exact hs

theorem runPgrd_canon {id f} (hs : s.Canon) : (runPgrd id f s).Canon := by
  fun_cases runPgrd id f s
  case case1 => exact hs
  case case5 h => exact copyPages_canon (ok_canon h (storeBegin_canon hs))
  all_goals exact storeStop_canon hs

/-! ### Merges (R295 to R297) -/

theorem shadowPut_canon {obj page off b} (hs : s.Canon) : (shadowPut s obj page off b).Canon := hs

theorem insertNode_canon {v c o h all e addr} (hs : s.Canon) : OnOk State.Canon (insertNode v c o h all e addr s) := by
  fun_cases insertNode v c o h all e addr s
  case case1 => exact trivial
  case case2 => exact foldl_canon hs (fun _ _ ht => ht)

theorem mergeGraph_canon {c0 o h inserted e} (hs : s.Canon) : OnOk State.Canon (mergeGraph c0 o h inserted e s) := by
  fun_cases mergeGraph c0 o h inserted e s
  refine .bind onOk_any fun _ _ => ?_
  split
  · exact hs
  · refine ite_onExcept hs (.bind onOk_any fun _ _ => ?_)
    split
    · exact trivial
    · exact insertNode_canon hs

theorem putDir_canon {c o h n first nvec} (hs : s.Canon) : OnOk State.Canon (putDir s c o h n first nvec) := by
  fun_cases putDir s c o h n first nvec
  case case1 => exact trivial
  case case2 => exact hs

theorem appendToList_canon {c o h n r} (hs : s.Canon) : OnOk State.Canon (appendToList c o h n r s) := by
  fun_cases appendToList c o h n r s
  refine .bind onOk_any fun _ _ => ?_
  split
  refine .bind onOk_any fun _ _ => ?_
  split
  dsimp only
  split
  · refine ite_onExcept (mres_canon (putDir_canon hs)) (.bind onOk_any fun _ _ => ?_)
    split
    · exact trivial
    · exact mres_canon (putDir_canon hs)
  · refine .bind onOk_any fun _ _ => ?_
    split
    · exact trivial
    · exact mres_canon (putDir_canon hs)

theorem removeRec_canon {c o h n x} (hs : s.Canon) : OnOk State.Canon (removeRec c o h n x s) :=
  .bind onOk_any (fun _ _ => .bind onOk_any (fun _ _ => putDir_canon hs))

theorem mergeList_canon {c0 o h inserted e} (hs : s.Canon) : OnOk State.Canon (mergeList c0 o h inserted e s) := by
  fun_cases mergeList c0 o h inserted e s
  refine .bind onOk_any fun _ _ => ?_
  split
  · exact ite_onExcept (mres_canon (removeRec_canon hs)) hs
  · refine ite_onExcept hs (.bind onOk_any fun _ _ => ?_)
    split
    · exact appendToList_canon hs
    · exact trivial

theorem applyEntries_canon {c o h range x4} (hs : s.Canon) : OnOk State.Canon (applyEntries c o h range x4 s) := by
  fun_induction applyEntries c o h range x4 s
  case case1 => exact hs
  case case2 => exact trivial
  case case3 h2 ih => exact ih (ok_canon h2 (ite_onExcept (mergeList_canon hs) (mergeGraph_canon hs)))

theorem startMerge_canon {c o h m cmd} (hs : s.Canon) : OnOk State.Canon (startMerge c o h m cmd s) := by
  fun_cases startMerge c o h m cmd s
  case case3 h2 _ _ => exact shadowPut_canon (ok_canon h2 (applyEntries_canon hs))
  all_goals exact trivial

theorem selfMerge_canon {obj} (hs : s.Canon) : (selfMerge obj s).Canon := by
  fun_cases selfMerge obj s
  case case3 h => exact ok_canon h (startMerge_canon hs)
  case case5 => exact record_canon hs
  all_goals exact hs

/-! ### Updates -/

theorem runAppend_canon {id n kind} (hs : s.Canon) : (runAppend id n kind s).Canon := by
  fun_cases runAppend id n kind s
  case case1 => exact hs
  case case2 => exact updCmd_canon hs
  case case10 => exact selfMerge_canon (updCmd_canon hs)
  case case12 h _ _ _ => exact updCmd_canon (storeMoved_canon (ok_canon h (storeBegin_canon hs) :))
  all_goals exact storeStop_canon hs

theorem runMerge_canon {id m0} (hs : s.Canon) : (runMerge id m0 s).Canon := by
  fun_cases runMerge id m0 s
  case case1 => exact hs
  case case4 => exact updCmd_canon hs
  case case6 h _ => exact storeMoved_canon (ok_canon h (storeBegin_canon hs))
  case case7 h _ _ h2 => exact updCmd_canon (ok_canon h2 (startMerge_canon (ok_canon h (storeBegin_canon hs))))
  case case9 h _ _ => exact storeMoved_canon (cmdRecord_canon (ok_canon h (storeBegin_canon hs)))
  all_goals exact storeStop_canon hs

theorem runStamp_canon {id} (hs : s.Canon) : (runStamp id s).Canon := by
  fun_cases runStamp id s
  case case1 => exact hs
  case case5 h _ _ h2 => exact storeMoved_canon (snd_canon h2 (reportLt_canon (ok_canon h (storeBegin_canon hs))))
  all_goals exact storeStop_canon hs

/-! ### Starts -/

theorem runStore_canon {i id} (hs : s.Canon) : (runStore i id s).Canon := by
  fun_cases runStore i id s
  case case1 => exact runSearch_canon (fun _ _ _ _ ht => runSrchg_canon ht) hs
  case case2 => exact runSearch_canon (fun _ _ _ _ ht => runSrchv_canon ht) hs
  case case3 => exact runDscan_canon hs
  case case6 => exact runMerge_canon hs
  case case7 => exact runStamp_canon hs
  case case8 => exact runPgrd_canon hs
  case case9 => exact hs
  all_goals exact runAppend_canon hs

theorem fixTable_canon {id} (hs : s.Canon) : (fixTable id s).Canon := by
  fun_cases fixTable id s
  case case2 => exact updCmd_canon hs
  all_goals exact hs

theorem startStore_canon {i} (hs : s.Canon) : NextCanon (startStore i s) := by
  fun_cases startStore i s
  split
  · exact ite_canon (runStore_canon (fixTable_canon (updCmd_canon hs))) hs
  · exact hs

/-! ### What happens later -/

theorem rerunStore_canon {id} (hs : s.Canon) : (rerunStore id s).Canon := by
  fun_cases rerunStore id s
  case case2 => exact runStore_canon (updCmd_canon hs)
  all_goals exact hs

theorem goOn_canon {id} (hs : s.Canon) : (goOn id s).Canon := by
  fun_cases goOn id s
  case case1 => exact updCmd_canon hs
  case case2 => exact rerunStore_canon (updCmd_canon hs)
  case case3 => exact hs

theorem execReadRetryDone_canon {cmd page codeword readable} (hs : s.Canon) :
    NextCanon (execReadRetryDone cmd page codeword readable s) := by
  fun_cases execReadRetryDone cmd page codeword readable s
  split
  · dsimp only
    exact ite_canon (goOn_canon (ite_canon (updCmd_canon hs) (pageEvent_canon (updCmd_canon hs)))) hs
  · exact hs

theorem execSnapshotReady_canon {cmd} (hs : s.Canon) : NextCanon (execSnapshotReady cmd s) := by
  fun_cases execSnapshotReady cmd s
  split
  · exact ite_canon (goOn_canon hs) hs
  · exact hs

theorem execLogDurable_canon {obj stamp} (hs : s.Canon) : NextCanon (execLogDurable obj stamp s) := by
  fun_cases execLogDurable obj stamp s
  case case1 h2 h =>
    exact reportLt_canon (by
      dsimp only [h, h2]
      split
      · exact hs
      · exact foldl_canon hs (fun _ _ ht => (by
          split
          · exact ite_canon (by
              split
              next h3 => exact ok_canon h3 (flashWrite_canon ht)
              · exact ht) ht
          · exact ht)))

theorem execMergeAutostart_canon {obj} (hs : s.Canon) : NextCanon (execMergeAutostart obj s) := by
  fun_cases execMergeAutostart obj s
  split
  · dsimp only
    exact ite_canon (selfMerge_canon hs) hs
  · exact hs

theorem execMergePublish_canon {obj} (hs : s.Canon) : NextCanon (execMergePublish obj s) := by
  fun_cases execMergePublish obj s
  case case3 =>
    have put {l : List (Nat × List Byte)} {colour : BitVec 8} : (l.foldl (fun s q =>
        match flashWrite s obj colour (q.1 * 16384) q.2 with
        | .ok s' => s'
        | .error _ => s) s).Canon := foldl_canon hs fun _ _ ht => by
      split
      · next h => exact ok_canon h (flashWrite_canon ht)
      · exact ht
    split
    · exact storeMoved_canon put
    · exact put
  all_goals exact hs

/-! ### Completion (R281, R282) -/

theorem execStoreCommandComplete_canon {cmd} (hs : s.Canon) : NextCanon (execStoreCommandComplete cmd s) := by
  fun_cases execStoreCommandComplete cmd s
  split
  · exact ite_canon (by
      dsimp only
      split
      · exact endOnFault_canon (ite_canon hs hs)
      next h =>
        have ht := ok_canon h (cmdLandPut_canon (ite_canon hs hs))
        exact completeCmd_canon (ite_canon (storeEvent_canon (barWrote_canon ht)) (barWrote_canon ht))) hs
  · exact hs

/-! ### The space (R299, R300) -/

theorem kvWrite_canon {p r o off b} (hs : s.Canon) : OnOk State.Canon (kvWrite p r o off b s) := by
  fun_cases kvWrite p r o off b s
  case case3 =>
    exact foldl_onOk hs (fun _ _ ht => (by
      split
      · exact trivial
      · dsimp only
        split
        · exact trivial
        · split
          · exact trivial
          next h => exact ok_canon h (tierWrite_canon ht)))
  all_goals exact trivial

/-! ### Entries (R303 to R305) -/

theorem putSeq_canon {k sp q x} (hs : s.Canon) : OnOk State.Canon (putSeq k sp q x s) := kvWrite_canon hs

theorem putEnt1_canon {k sp q l h i e} (hs : s.Canon) : OnOk State.Canon (putEnt1 k sp q l h i e s) := kvWrite_canon hs

theorem putBlk_canon {k sp g b} (hs : s.Canon) : OnOk State.Canon (putBlk k sp g b s) := kvWrite_canon hs

theorem putFree_canon {k sp} (hs : s.Canon) : OnOk State.Canon (putFree k sp s) := kvWrite_canon hs

/-! ### `kvalloc` and `kvfree` (R310, R311) -/

theorem allocSeq_canon {k sp span q blocks} (hs : s.Canon) : OnOk State.Canon (allocSeq k sp span q blocks s) := by
  fun_cases allocSeq k sp span q blocks s
  case case3 h =>
    exact putSeq_canon (ok_canon h (foldK_canon hs (fun _ _ ht => (by
      split
      · exact trivial
      next h => exact putEnt1_canon (ok_canon h (putBlk_canon ht))))))
  all_goals exact trivial

theorem kvAlloc_canon {c sp n span} (hs : s.Canon) : OnOk (fun x => x.2.Canon) (kvAlloc c sp n span s) := by
  fun_cases kvAlloc c sp n span s
  case case3 => exact hs
  case case7 h _ h2 => exact ok_canon h2 (putFree_canon (ok_canon h (foldK_canon hs (fun _ _ ht => allocSeq_canon ht))))
  all_goals exact trivial

theorem releaseBlk_canon {k x e} (hx : x.2.2.Canon) : OnOk (fun x => x.2.2.Canon) (releaseBlk k x e) := by
  fun_cases releaseBlk k x e
  case case1 | case8 => exact hx
  case case5 h | case7 h => exact ok_canon h (putBlk_canon hx)
  all_goals exact trivial

theorem freeSeq_canon {k x q} (hx : x.2.2.Canon) : OnOk (fun x => x.2.2.Canon) (freeSeq k x q) := by
  fun_cases freeSeq k x q
  case case3 h =>
    refine .map (putSeq_canon (ok_triple_canon h (foldK_canon hx fun _ _ ht => foldK_canon ht fun _ _ hy => ?_))) fun _ hz => hz
    split
    · exact trivial
    · split
      · exact trivial
      · next h' => exact .map (putEnt1_canon (ok_triple_canon h' (releaseBlk_canon hy))) fun _ hz => hz
  all_goals exact trivial

theorem kvFree_canon {c sp n} (hs : s.Canon) : OnOk (fun x => x.2.Canon) (kvFree c sp n s) := by
  fun_cases kvFree c sp n s
  case case3 h => exact .map (putFree_canon (ok_snd_snd_canon h (foldK_canon hs (fun _ _ ht => freeSeq_canon ht)))) (fun _ ht => ht)
  all_goals exact trivial

/-! ### Pages (R301, R305) -/

theorem pagePut_canon {sp t a b} (hs : s.Canon) : OnOk State.Canon (pagePut sp t a b s) := by
  fun_cases pagePut sp t a b s
  case case1 => exact trivial
  case case2 r h =>
    refine ok_canon h ?_
    cases t with
    | lpddr => exact lpWrite_canon hs
    | flash => exact flashWrite_canon hs
    | landing => exact landPut_canon hs
    | _ => exact hs.peer (Memory.wf_setBytes _ _)

/-! ### `kvapp` (R312) -/

theorem keep_canon {r : KRes (β × State)} (hs : s.Canon) (hr : OnOk (fun x => x.2.Canon) r) :
    OnExcept (fun x => x.2.Canon) (fun x => x.2.Canon) (keep s r) := by
  cases r with
  | ok x => exact hr
  | error e => exact hs

theorem putAll_canon {sp x1} (hs : s.Canon) : OnExcept (fun x => x.2.Canon) State.Canon (putAll sp x1 s) := by
  fun_induction putAll sp x1 s
  case case3 h ih => exact ih (ok_canon h (pagePut_canon hs))
  all_goals exact hs

theorem appCommit_canon {k sp q layer n x commit heads} (hs : s.Canon) :
    OnOk (fun x => x.2.Canon) (appCommit k sp q layer n x commit heads s) := by
  fun_cases appCommit k sp q layer n x commit heads s
  case case1 => exact trivial
  case case2 h _ => exact .map (putSeq_canon (ok_canon h (foldK_canon hs (fun _ _ ht => putEnt1_canon ht)))) (fun _ ht => ht)
  case case3 h _ => exact ok_canon h (foldK_canon hs (fun _ _ ht => putEnt1_canon ht))

theorem kvApp_canon {c sp q layer n commit} (hs : s.Canon) :
    OnExcept (fun x => x.2.Canon) (fun x => x.2.Canon) (kvApp c sp q layer n commit s) := by
  fun_cases kvApp c sp q layer n commit s
  case case5 h => exact error_pair_canon h (putAll_canon hs)
  case case6 h =>
    have ht := result_canon h (putAll_canon hs)
    exact keep_canon ht (appCommit_canon ht)
  all_goals exact hs

/-! ### `kvmap` (R313) -/

theorem kvMap_canon {c sp q g0 nb toklast dev} (hs : s.Canon) : OnOk (fun x => x.2.Canon) (kvMap c sp q g0 nb toklast dev s) := by
  fun_cases kvMap c sp q g0 nb toklast dev s
  case case9 h _ =>
    refine .map (putSeq_canon (ok_canon h (foldK_canon hs fun t y ht => ?_))) fun _ ht => ht
    dsimp only
    split
    · exact trivial
    · next h' => exact putBlk_canon (ok_canon h' (putEnt1_canon ht))
  all_goals exact trivial

/-! ### `kvret` (R314) -/

theorem retireTable_canon {k q count gone t x} (hx : x.2.2.Canon) : OnOk (fun x => x.2.2.Canon) (retireTable k q count gone t x) := by
  fun_cases retireTable k q count gone t x
  case case3 h _ =>
    exact foldK_canon (ok_triple_canon h (foldK_canon hx (fun _ _ ht => releaseBlk_canon ht)))
        (fun _ _ ht => .map (putEnt1_canon ht) (fun _ ht1 => ht1))
  all_goals exact trivial

theorem kvRet_canon {c sp q tag close} (hs : s.Canon) : OnOk (fun x => x.2.Canon) (kvRet c sp q tag close s) := by
  fun_cases kvRet c sp q tag close s
  case case4 => exact hs
  case case8 h _ h2 _ =>
    exact .map (putSeq_canon (ok_canon h2 (putFree_canon (ok_snd_snd_canon h (foldK_canon hs (fun _ _ ht => retireTable_canon ht))))))
        (fun _ ht => ht)
  all_goals exact trivial

/-! ### `kvq` (R318) -/

theorem kvQuery_canon {c sp q layer head first maxn} (hs : s.Canon) :
    OnOk (fun x => x.2.Canon) (kvQuery c sp q layer head first maxn s) := by
  fun_cases kvQuery c sp q layer head first maxn s
  case case5 => exact hs
  all_goals exact trivial

/-! ### `kvld` (R315 to R317) -/

theorem quarantineRecord_canon {c sp q layer head slot e x} (hs : s.Canon) : (quarantineRecord s c sp q layer head slot e x).Canon :=
  storeEvent_canon hs

theorem quarantine_canon {k sp q slot} (hs : s.Canon) : OnOk State.Canon (quarantine k sp q slot s) := by
  fun_cases quarantine k sp q slot s
  exact foldK_canon hs (fun _ _ ht => (by
    split
    · exact trivial
    · exact ite_onExcept (putEnt1_canon ht) ht))

theorem kvOut_canon {id c parts} (hs : s.Canon) : OnOk State.Canon (kvOut id c parts s) := by
  fun_cases kvOut id c parts s
  case case1 => exact trivial
  case case2 h =>
    exact barWrote_canon (updCmd_canon (ok_canon h (foldl_onOk hs (fun _ _ ht => (by
      split
      · exact trivial
      · exact cmdLandPut_canon ht)))))

theorem ldKeep_canon {id c sp n rows} (hs : s.Canon) : (ldKeep id c sp n rows s).Canon := by
  fun_cases ldKeep id c sp n rows s
  case case1 h => exact ok_canon h (kvOut_canon hs)
  case case2 => exact hs

theorem ldEntries_canon {id c k sp th q layer head from0 n x10 x11} (hs : s.Canon) :
    OnExcept (fun x => x.2.Canon) (fun x => x.2.Canon) (ldEntries id c k sp th q layer head from0 n x10 x11 s) := by
  fun_induction ldEntries id c k sp th q layer head from0 n x10 x11 s
  case case1 => exact hs
  case case2 ih | case4 ih => exact ih hs
  case case5 => exact quarantineRecord_canon hs
  case case7 h ih => exact ih (updCmd_canon (ok_canon h (quarantine_canon (quarantineRecord_canon hs))))
  all_goals exact ldKeep_canon hs

theorem kvLoad_canon {id c sp q layer head from0 n} (hs : s.Canon) :
    OnExcept (fun x => x.2.Canon) (fun x => x.2.Canon) (kvLoad id c sp q layer head from0 n s) := by
  fun_cases kvLoad id c sp q layer head from0 n s
  case case6 h => exact error_pair_canon h (ldEntries_canon hs)
  case case7 h _ _ => exact result_snd_canon h (ldEntries_canon hs)
  all_goals exact hs

/-! ### Effect points and status records (R307, R308) -/

theorem kvEffect_canon {i id c sp} (hs : s.Canon) : OnExcept (fun x => x.2.Canon) (fun x => x.2.Canon) (kvEffect i id c sp s) := by
  fun_cases kvEffect i id c sp s
  case case1 => exact keep_canon hs (kvAlloc_canon hs)
  case case2 => exact keep_canon hs (kvFree_canon hs)
  case case3 => exact kvApp_canon hs
  case case4 => exact keep_canon hs (kvMap_canon hs)
  case case5 => exact keep_canon hs (kvRet_canon hs)
  case case6 => exact kvLoad_canon hs
  case case7 => exact keep_canon hs (kvQuery_canon hs)
  case case8 => exact hs

theorem kvStop_canon {id e} (hs : s.Canon) : (kvStop id e s).Canon := cmdFault_canon hs

theorem seqOr_canon {x} (hs : s.Canon) : (seqOr x s).2.Canon := by
  fun_cases seqOr x s
  case case1 => exact hs
  case case2 h => exact snd_canon h hs

theorem freeOr_canon {sp} (hs : s.Canon) : (freeOr sp s).2.Canon := by
  fun_cases freeOr sp s
  case case1 => exact hs
  case case2 h => exact snd_canon h hs

theorem kvFail_canon {i id c sp e} (hs : s.Canon) : (kvFail i id c sp e s).Canon := by
  fun_cases kvFail i id c sp e s
  case case1 h _ _ h2 _ => exact kvStop_canon (updCmd_canon (snd_canon h2 (freeOr_canon (snd_canon h (seqOr_canon hs)))))

theorem kvResults_canon {i id c r} (hs : s.Canon) : (kvResults i id c r s).Canon := by
  fun_cases kvResults i id c r s
  case case4 h => exact storeMoved_canon (ok_canon h (ite_onExcept hs (kvOut_canon hs)))
  all_goals exact kvFail_canon hs

theorem kvBegin_canon {i id c sp} (hs : s.Canon) : OnOk State.Canon (kvBegin i id c sp s) := by
  fun_cases kvBegin i id c sp s
  case case1 => exact hs
  case case5 h => exact updCmd_canon (ok_canon h (barStart_canon hs))
  all_goals exact trivial

theorem runKv_canon {i id} (hs : s.Canon) : (runKv i id s).Canon := by
  fun_cases runKv i id s
  case case2 | case4 => exact kvFail_canon hs
  case case5 h _ _ _ h2 => exact kvFail_canon (error_snd_canon h2 (kvEffect_canon (ok_canon h (kvBegin_canon hs))))
  case case6 h _ _ _ h2 => exact kvResults_canon (result_snd_canon h2 (kvEffect_canon (ok_canon h (kvBegin_canon hs))))
  all_goals exact hs

theorem startKv_canon {i} (hs : s.Canon) : NextCanon (startKv i s) := by
  fun_cases startKv i s
  split
  · exact ite_canon (runKv_canon (fixTable_canon (updCmd_canon hs))) hs
  · exact hs

theorem rerunKv_canon {id} (hs : s.Canon) : (rerunKv id s).Canon := by
  fun_cases rerunKv id s
  case case2 => exact runKv_canon (updCmd_canon hs)
  all_goals exact hs

theorem execKvCommandComplete_canon {cmd} (hs : s.Canon) : NextCanon (execKvCommandComplete cmd s) := by
  fun_cases execKvCommandComplete cmd s
  split
  · exact ite_canon (by
      split
      split
      · exact endOnFault_canon hs
      next h => exact completeCmd_canon (barWrote_canon (ok_canon h (cmdLandPut_canon hs)))) hs
  · exact hs

/-! ### Buffers and queues -/

theorem intake_canon {id} (hs : s.Canon) : (intake id s).Canon := by
  fun_cases intake id s
  case case3 => exact acceptStore_canon hs
  case case4 => exact updCmd_canon hs
  all_goals exact hs

theorem intakeCore_canon {core port} (hs : s.Canon) : (intakeCore core port s).Canon := by
  fun_cases intakeCore core port s
  case case1 => exact intake_canon hs
  case case2 => exact hs

theorem acceptCmd_canon {port w e d} (hs : s.Canon) : (acceptCmd port w e d s).Canon := by
  unfold acceptCmd
  dsimp only
  split
  · exact seqDone_canon (raiseWith_canon hs)
  · next h =>
    have ht := some_canon h (by
      split
      · exact instAdd_canon hs
      · exact hs)
    exact intakeCore_canon (seqReg_canon (updCtx_canon ht))

theorem execGo_canon {e d port} (hs : s.Canon) : NextCanon (execGo e d port s) := by
  fun_cases execGo e d port s
  case case1 h h2 =>
    dsimp only [h, h2]
    split
    · exact seqDone_canon (raiseWith_canon hs)
    · exact ite_canon (seqRaise_canon hs) (ite_canon (seqReg_canon hs) (acceptCmd_canon hs))

/-! ### Fields of a record (R325) -/

theorem updRec_canon {id f} (hs : s.Canon) : (State.updRec s id f).Canon := by
  fun_cases State.updRec s id f <;> exact hs

theorem updQueue_canon {q f} (hs : s.Canon) : (State.updQueue s q f).Canon := by
  fun_cases State.updQueue s q f <;> exact hs

theorem updWalk_canon {w f} (hs : s.Canon) : (State.updWalk s w f).Canon := by
  fun_cases State.updWalk s w f <;> exact hs

theorem newInst_canon {t} (hs : s.Canon) : (newInst t s).2.Canon := hs

/-! ### Memory for the queue manager -/

theorem qmWrite_canon {part id off b} (hs : s.Canon) : OnOk State.Canon (qmWrite part id off b s) := by
  fun_cases qmWrite part id off b s
  case case1 => exact trivial
  case case2 h => exact ok_canon h (writeObjBytes_canon hs)

theorem semUpd_canon {part n f} (hs : s.Canon) : OnOk State.Canon (semUpd part n f s) :=
  .bind onOk_any (fun _ _ => .bind onOk_any (fun _ _ => qmWrite_canon hs))

theorem recLandPut_canon {part addr b} (hs : s.Canon) : OnOk State.Canon (recLandPut part addr b s) := by
  fun_cases recLandPut part addr b s
  refine .bind onOk_any fun _ _ => ?_
  split
  split
  · next h => exact ok_canon h (landPut_canon hs)
  · exact trivial

/-! ### Fault records of the queue manager (R346, R365 to R367) -/

theorem qmRecord_canon {r e ended susp} (hs : s.Canon) : (qmRecord r e ended susp s).Canon := record_canon hs

theorem queueRecord_canon {q e susp} (hs : s.Canon) : (queueRecord q e susp s).Canon := record_canon hs

/-! ### Instances above a launch (R13, R14, R334) -/

theorem settleGraphs_canon (hs : s.Canon) : (settleGraphs s).Canon := by
  fun_cases settleGraphs s
  exact foldl_canon hs (fun _ _ ht => (by
    split
    · exact ite_canon (by
        dsimp only
        split
        · exact instDone_canon ht
        · exact ht) ht
    · exact ht))

theorem markHead_canon {q} (hs : s.Canon) : (markHead q s).Canon := by
  fun_cases markHead q s
  case case1 => exact updRec_canon hs
  case case2 => exact hs

theorem unstream_canon {id q} (hs : s.Canon) : (unstream id q s).Canon := markHead_canon (updQueue_canon hs)

theorem closeLaunch_canon {r st} (hs : s.Canon) : (closeLaunch r st s).Canon := by
  fun_cases closeLaunch r st s <;> exact hs

theorem endRec_canon {id st} (hs : s.Canon) : (endRec id st s).Canon := by
  fun_cases endRec id st s
  case case1 => exact updRec_canon (unstream_canon (closeLaunch_canon hs))
  case case2 => exact hs

/-! ### Banks (R331) -/

theorem moveBank_canon {key} (hs : s.Canon) : (moveBank key s).Canon := by
  fun_cases moveBank key s
  case case1 => exact updRec_canon hs
  case case2 => exact hs

theorem takeActive_canon {key} (hs : s.Canon) : (takeActive key s).Canon := by
  fun_cases takeActive key s
  case case2 => exact intake_canon (updRec_canon hs)
  all_goals exact hs

theorem pumpTarget_canon {key} (hs : s.Canon) : (pumpTarget key s).Canon :=
  takeActive_canon (moveBank_canon (takeActive_canon (moveBank_canon hs)))

/-! ### Cancels (R15 to R17) -/

theorem cancelCmd_canon {id} (hs : s.Canon) : (cancelCmd id s).Canon := by
  fun_cases cancelCmd id s
  case case1 => exact launchMember_canon hs
  case case3 => exact rerunStore_canon (updCmd_canon hs)
  case case4 => exact updCmd_canon hs
  all_goals exact hs

theorem cancelCmds_canon {r} (hs : s.Canon) : (cancelCmds r s).Canon := foldl_canon hs (fun _ _ ht => cancelCmd_canon ht)

theorem unfire_canon {r} (hs : s.Canon) : (unfire r s).Canon := hs

theorem dropSusp_canon {id} (hs : s.Canon) : (dropSusp id s).Canon := updRec_canon hs

theorem cancelRec_canon {id} (hs : s.Canon) : (cancelRec id s).Canon := by
  fun_cases cancelRec id s
  case case1 | case2 => exact hs
  case case5 => exact pumpTarget_canon (endRec_canon (dropSusp_canon (markRec_canon hs)))
  case case7 => exact unfire_canon (endRec_canon (dropSusp_canon (markRec_canon hs)))
  case case8 => exact unfire_canon (cancelCmds_canon (stopCrew_canon (dropSusp_canon hs)))
  case case9 => exact endRec_canon (releaseCrew_canon (dropSusp_canon (markRec_canon hs)))
  case case11 => exact cancelCmds_canon (dropSusp_canon (markRec_canon hs))
  all_goals exact endRec_canon (dropSusp_canon (markRec_canon hs))

theorem abortGraph_canon {g m} (hs : s.Canon) : (abortGraph g m s).Canon := by
  fun_cases abortGraph g m s
  case case2 h2 _ _ h =>
    exact settleGraphs_canon (instLast_canon (by
      dsimp only [h, h2]
      split
      · exact instLast_canon (foldl_canon (markInst_canon hs) (fun _ _ ht => cancelRec_canon ht))
      · exact foldl_canon (markInst_canon hs) (fun _ _ ht => cancelRec_canon ht)))
  all_goals exact hs

/-! ### Retirement (R329, R332, R346) -/

theorem numberRec_canon {id r e n} (hs : s.Canon) : (numberRec id r e n s).Canon := updRec_canon (qmRecord_canon hs)

theorem suspendRec_canon {id r e} (hs : s.Canon) : (suspendRec id r e s).Canon := by
  fun_cases suspendRec id r e s
  case case1 => exact updRec_canon hs
  case case2 => exact numberRec_canon hs

theorem acquireAt_canon {part scope} (hs : s.Canon) : (acquireAt part scope s).Canon := foldl_canon hs (fun _ _ ht => ht)

theorem releaseAt_canon {part scope} (hs : s.Canon) : (releaseAt part scope s).Canon := by
  fun_cases releaseAt part scope s
  case case1 => exact hs
  case case2 => exact foldl_canon hs (fun _ _ ht => cleanSlice_canon ht)

theorem signalRec_canon {r st} (hs : s.Canon) : OnOk State.Canon (signalRec r st s) := by
  fun_cases signalRec r st s
  case case1 => exact semUpd_canon hs
  case case2 => exact hs

theorem retired_canon {id r st} (hs : s.Canon) : (retired id r st s).Canon := by
  fun_cases retired id r st s
  case case1 s3 =>
    have h3 : s3.Canon := by
      dsimp only [s3]
      split
      · exact instDone_canon (instDone_canon hs)
      · exact instDone_canon hs
    exact settleGraphs_canon (ite_canon (abortGraph_canon h3) h3)

theorem retireRec_canon {id} (hs : s.Canon) : (retireRec id s).Canon := by
  fun_cases retireRec id s
  case case2 => exact suspendRec_canon (releaseAt_canon hs)
  case case3 => exact retired_canon (qmRecord_canon (releaseAt_canon hs))
  case case4 h =>
    have ht := ok_canon h (signalRec_canon (releaseAt_canon hs))
    exact retired_canon (ite_canon (postIrq_canon ht) ht)
  all_goals exact hs

theorem execRecordRetire_canon {rec} (hs : s.Canon) : NextCanon (execRecordRetire rec s) := retireRec_canon hs

theorem recFault_canon {id e} (hs : s.Canon) : (recFault id e s).Canon := by
  fun_cases recFault id e s
  case case1 => exact suspendRec_canon hs
  case case2 => exact retireRec_canon (endRec_canon (qmRecord_canon hs))
  case case3 => exact hs

/-! ### The start of a record (R329, R331) -/

theorem beginRec_canon {id r0 sel eff} (heff : ∀ a0 a1 a2, a2.Canon → OnOk State.Canon (eff a0 a1 a2)) (hs : s.Canon) :
    (beginRec id r0 sel eff s).Canon := by
  fun_cases beginRec id r0 sel eff s
  case case1 h =>
    exact ok_canon h (.bind onOk_any (fun _ _ => .bind onOk_any (fun _ _ => heff _ _ _
        (updRec_canon (unstream_canon (updRec_canon (acquireAt_canon hs)))))))
  case case2 => exact recFault_canon (updRec_canon (acquireAt_canon hs))

theorem noteWait_canon {id} (hs : s.Canon) : (noteWait id s).Canon := by
  fun_cases noteWait id s
  case case2 => exact updRec_canon hs
  all_goals exact hs

theorem startRecOf_canon {sel eff} (heff : ∀ a0 a1 a2, a2.Canon → OnOk State.Canon (eff a0 a1 a2)) (hs : s.Canon) :
    NextCanon (startRecOf sel eff s) := by
  fun_cases startRecOf sel eff s
  case case1 h =>
    dsimp only [h]
    split
    · exact hs
    · exact ite_canon hs (ite_canon (retireRec_canon (endRec_canon hs)) (ite_canon (noteWait_canon hs) (by
        split
        · exact ite_canon (beginRec_canon (fun _ _ _ ht => heff _ _ _ ht) hs) (noteWait_canon hs)
        · exact noteWait_canon hs)))

theorem startRec_canon {eff} (heff : ∀ a0 a1 a2, a2.Canon → OnOk State.Canon (eff a0 a1 a2)) (hs : s.Canon) : NextCanon (startRec eff s) :=
  startRecOf_canon (fun _ _ _ ht => heff _ _ _ ht) hs

theorem retireNow_canon {id} (hs : s.Canon) : OnOk State.Canon (retireNow id s) := retireRec_canon (endRec_canon hs)

theorem expandRec_canon {id r count last tag} (hs : s.Canon) : (expandRec id r count last tag s).Canon := by
  fun_cases expandRec id r count last tag s
  case case1 h _ _ _ => exact pumpTarget_canon (updRec_canon (snd_canon h hs))
  case case2 h _ _ => exact updRec_canon (snd_canon h hs)

/-! ### Adding records (R330, R333) -/

theorem addRec_canon {r walked} (hs : s.Canon) : (addRec r walked s).Canon := by
  unfold addRec
  dsimp only
  split
  · exact abortGraph_canon (qmRecord_canon hs)
  · next h =>
    have ht := some_canon h (by
      split
      · exact trivial
      · next h' =>
        have ht := some_canon h' (instAdd_canon hs)
        split
        · exact instAdd_canon ht
        · exact ht)
    split
    · exact recFault_canon ht
    · exact ite_canon (updRec_canon ht) (ite_canon (updRec_canon ht) (markHead_canon (updQueue_canon ht)))

/-! ### Graph walks (R333 to R337) -/

theorem endWalk_canon {g w} (hs : s.Canon) : (endWalk g w s).Canon := by
  fun_cases endWalk g w s
  case case1 s1 =>
    have h1 : s1.Canon := by
      dsimp only [s1]
      split
      · exact instLast_canon hs
      · exact hs
    exact settleGraphs_canon (instLast_canon h1)

theorem numberWalk_canon {g r e n} (hs : s.Canon) : (numberWalk g r e n s).Canon := updWalk_canon (qmRecord_canon hs)

theorem walkFault_canon {g w e} (hs : s.Canon) : (walkFault g w e s).Canon := by
  fun_cases walkFault g w e s
  case case1 => exact abortGraph_canon hs
  case case2 => exact updWalk_canon hs
  case case3 => exact numberWalk_canon hs
  case case4 => exact abortGraph_canon (qmRecord_canon hs)

theorem walkStep_canon {g w} (hs : s.Canon) : (walkStep g w s).Canon := by
  fun_cases walkStep g w s
  case case1 => exact endWalk_canon hs
  case case2 => exact walkFault_canon hs
  case case3 => exact hs
  case case4 s1 _ s2 h _ _ =>
    have hs1 : s1.Canon := ite_canon (by
      split
      · exact instLast_canon hs
      · exact hs) hs
    have hs2 : s2.Canon := by
      refine snd_canon h ?_
      split
      · exact newInst_canon hs1
      · exact hs1
    exact addRec_canon (updWalk_canon hs2)

theorem pumpWalk_canon {g x1} (hs : s.Canon) : (pumpWalk g x1 s).Canon := by
  fun_induction pumpWalk g x1 s
  case case2 ih => exact ih (walkStep_canon hs)
  all_goals exact hs

/-! ### Control records -/

theorem branchEff_canon {c id r} (hs : s.Canon) : OnOk State.Canon (branchEff c id r s) := by
  fun_cases branchEff c id r s
  exact .bind onOk_any fun _ _ => ite_onExcept trivial (.bind onOk_any fun _ _ => retireNow_canon (updWalk_canon hs))

theorem selectEff_canon {c id r} (hs : s.Canon) : OnOk State.Canon (selectEff c id r s) := by
  unfold selectEff
  refine .bind onOk_any fun w _ => ?_
  extract_lets counted
  have hc (n : Nat) : OnOk State.Canon (counted n) := by
    refine ite_onExcept trivial (.bind onOk_any fun v _ => ite_onExcept trivial ?_)
    dsimp only
    split
    · refine ite_onExcept trivial (ite_onExcept (retireNow_canon (updWalk_canon hs)) ?_)
      split
      · exact trivial
      · exact retireNow_canon (updWalk_canon hs)
    · exact trivial
  split
  · exact hc _
  · exact .bind onOk_any fun n _ => hc n

theorem graphEff_canon {c id r} (hs : s.Canon) : OnOk State.Canon (graphEff c id r s) := by
  unfold graphEff
  dsimp only
  simp only [pure_bind]
  split
  · exact trivial
  split
  · split
    · exact trivial
    split
    · next h =>
      have ht := some_canon h (by
        split
        · exact instAdd_canon hs
        · exact hs)
      exact pumpWalk_canon (updRec_canon (newInst_canon ht))
    · exact trivial
  · exact trivial

theorem irqEff_canon {c id r} (hs : s.Canon) : OnOk State.Canon (irqEff c id r s) := by
  fun_cases irqEff c id r s
  case case1 => exact retireNow_canon hs
  case case2 => exact trivial

theorem stampEff_canon {c id r} (hs : s.Canon) : OnOk State.Canon (stampEff c id r s) := by
  fun_cases stampEff c id r s
  case case1 => exact .bind onOk_any (fun _ ht => .bind (recLandPut_canon hs) (fun _ ht1 => retireNow_canon ht1))
  case case2 => exact .bind (recLandPut_canon hs) (fun _ ht => retireNow_canon ht)

/-! ### MAP (R113, R114, R340) -/

theorem setX_canon {o t x} (hs : s.Canon) : OnOk (fun x => x.2.Canon) (setX o t x s) := by
  fun_cases setX o t x s
  case case2 => exact hs
  case case4 h => exact ok_canon h (lpWrite_canon hs)
  all_goals exact trivial

theorem setXs_canon {o pass ts} (hs : s.Canon) : OnOk (fun x => x.2.Canon) (setXs o pass ts s) := by
  fun_induction setXs o pass ts s
  case case1 => exact hs
  case case2 ih => exact .bind (setX_canon hs) fun x hx => .bind (ih x.2 hx) fun y hy => hy

theorem invalTile_canon {obj acc t} (hacc : acc.2.Canon) : (invalTile obj acc t).2.Canon := placeMarkers_canon hacc

theorem mapEff_canon {c id r} (hs : s.Canon) : OnOk State.Canon (mapEff c id r s) := by
  unfold mapEff
  dsimp only
  simp only [pure_bind]
  split
  · next o _ =>
    refine ite_onExcept trivial (.bind onOk_any fun _ _ => .bind onOk_any fun _ _ => .bind (setXs_canon hs) fun y hy => ?_)
    have hz : (y.1.foldl (invalTile o.id) ([], y.2)).2.Canon :=
      List.foldlRecOn (motive := fun a : List Nat × State => a.2.Canon) _ _ hy fun _ ht _ _ => invalTile_canon ht
    exact .bind (recLandPut_canon hz) fun _ ht => ite_onExcept (retireNow_canon ht) (updRec_canon ht)
  · exact trivial

/-! ### Work records -/

theorem launchEff_canon {c id r} (hs : s.Canon) : OnOk State.Canon (launchEff c id r s) := by
  fun_cases launchEff c id r s
  case case1 => exact trivial
  case case2 => exact expandRec_canon hs

theorem commandEff_canon {port w id r} (hs : s.Canon) : OnOk State.Canon (commandEff port w id r s) := by
  fun_cases commandEff port w id r s
  case case3 => exact expandRec_canon hs
  all_goals exact trivial

/-! ### Queues and rings (R323, R324) -/

theorem writeHead_canon {q} (hs : s.Canon) : (writeHead q s).Canon := bareWrite_canon hs

theorem offRecord_canon {q part e} (hs : s.Canon) : (offRecord q part e s).Canon := record_canon hs

theorem joinJob_canon {part job} (hs : s.Canon) : (joinJob part job s).2.Canon := by
  fun_cases joinJob part job s <;> exact hs

theorem turnOn_canon {q} (hs : s.Canon) : (turnOn q s).Canon := by
  fun_cases turnOn q s
  case case1 => exact hs
  case case3 h => exact writeHead_canon (snd_canon h (joinJob_canon hs) :)
  all_goals exact offRecord_canon hs

theorem turnOff_canon {q} (hs : s.Canon) : (turnOff q s).Canon := by
  fun_cases turnOff q s
  case case1 => exact hs
  case case3 => exact instLast_canon (writeHead_canon (updQueue_canon hs))
  all_goals exact writeHead_canon (updQueue_canon hs)

theorem numberQueue_canon {q e n} (hs : s.Canon) : (numberQueue q e n s).Canon := updQueue_canon (queueRecord_canon hs)

theorem ringFault_canon {q e} (hs : s.Canon) : (ringFault q e s).Canon := by
  fun_cases ringFault q e s
  case case1 => exact updQueue_canon hs
  case case2 => exact numberQueue_canon hs
  case case3 => exact queueRecord_canon (turnOff_canon hs)

theorem takeRecord_canon {q v} (hs : s.Canon) : (takeRecord q v s).Canon := by
  have hj (x : Queue) (t : State) (ht : t.Canon) : OnSome State.Canon (match x.jobInst with
      | some j => instAdd t j
      | none => some t) := by
    split
    · exact instAdd_canon ht
    · exact ht
  fun_cases takeRecord q v s
  case case1 => exact addRec_canon (updQueue_canon (writeHead_canon (updQueue_canon hs)))
  case case2 => exact qmRecord_canon (writeHead_canon (updQueue_canon hs))
  case case3 h _ _ h' _ _ =>
    exact settleGraphs_canon (instLast_canon (addRec_canon (updQueue_canon (snd_canon h'
      (newInst_canon (some_canon h (hj _ _ (writeHead_canon (updQueue_canon hs)))))))))

theorem takeRing_canon {q p x2} (hs : s.Canon) : (takeRing q p x2 s).Canon := by
  fun_induction takeRing q p x2 s
  case case3 => exact ringFault_canon hs
  case case4 ih => exact ih (takeRecord_canon hs)
  all_goals exact hs

theorem execTailWrite_canon {queue} (hs : s.Canon) : NextCanon (execTailWrite queue s) := by
  fun_cases execTailWrite queue s
  case case1 h =>
    exact ite_canon hs (by
      dsimp only [h]
      split
      · exact ringFault_canon hs
      · exact ite_canon (writeHead_canon (updQueue_canon (updQueue_canon hs)))
          (ite_canon (queueRecord_canon (turnOff_canon (updQueue_canon hs))) (takeRing_canon (updQueue_canon hs))))

/-! ### Cancels by level and tag (R15, R17, R334, R338) -/

theorem cancelPhase_canon {i} (hs : s.Canon) : (cancelPhase i s).Canon := by
  fun_cases cancelPhase i s
  case case1 h2 h =>
    exact foldl_canon (by
      dsimp only [h, h2]
      split <;> exact markInst_canon hs) (fun _ _ ht => cancelRec_canon ht)

theorem discardRing_canon {q x} (hs : s.Canon) : (discardRing q x s).Canon := by
  fun_cases discardRing q x s
  case case1 => exact hs
  all_goals exact writeHead_canon (updQueue_canon hs)

theorem cancelJob_canon {i} (hs : s.Canon) : (cancelJob i s).Canon :=
  foldl_canon (foldl_canon (foldl_canon (markInst_canon hs) (fun _ _ ht => discardRing_canon ht)) (fun _ _ ht => cancelRec_canon ht))
      (fun _ _ ht => abortGraph_canon ht)

theorem cancelInst_canon {level part tag} (hs : s.Canon) : (cancelInst level part tag s).Canon := by
  fun_cases cancelInst level part tag s
  case case1 => exact foldl_canon hs (fun _ _ ht => cancelRec_canon ht)
  case case2 =>
    exact foldl_canon hs (fun _ _ ht => (by
      split
      · exact cancelPhase_canon ht
      · exact abortGraph_canon ht
      · exact cancelJob_canon ht))

/-! ### Reservation (R25) -/

theorem wakeCores_canon {mem} (hs : s.Canon) : (wakeCores mem s).Canon := foldl_canon hs (fun _ _ ht => ite_canon ht ht)

theorem reserve_canon {id r c clk} (hs : s.Canon) : (reserve id r c clk s).Canon :=
  pumpTarget_canon (updRec_canon (foldl_canon hs (fun _ _ ht => ht)))

theorem execLaunchReserve_canon {rec} (hs : s.Canon) : NextCanon (execLaunchReserve rec s) := by
  fun_cases execLaunchReserve rec s
  split
  · split
    · exact ite_canon hs (by
        split
        · exact ite_canon (reserve_canon hs) (pumpTarget_canon (recFault_canon hs))
        · exact wakeCores_canon hs)
    · exact hs
  · exact hs

/-! ### Start (R26) -/

theorem startCrew_canon {clk w par} (hs : s.Canon) : (startCrew clk w par s).Canon := by
  fun_cases startCrew clk w par s <;> exact foldl_canon hs (fun _ _ ht => ht)

theorem execLaunchStart_canon {crew} (hs : s.Canon) : NextCanon (execLaunchStart crew s) := by
  fun_cases execLaunchStart crew s
  split
  · exact ite_canon hs (by
      split
      · exact startCrew_canon hs
      · split
        · exact ite_canon hs (ite_canon (suspendRec_canon hs) (recFault_canon (releaseCrew_canon hs)))
        · exact hs)
  · exact hs

/-! ### Pre-emption: the choice of victims (R343, R374, R376) -/

theorem askFreeze_canon {rec x1 x2} (hs : s.Canon) : (askFreeze rec x1 x2 s).Canon := by
  fun_induction askFreeze rec x1 x2 s
  case case1 => exact hs
  case case2 ih => exact ih (updCrew_canon hs)
  case case3 ih => exact ih hs

theorem execPreempt_canon {rec} (hs : s.Canon) : NextCanon (execPreempt rec s) := by
  fun_cases execPreempt rec s
  split
  · split
    · exact ite_canon (askFreeze_canon hs) hs
    · exact hs
  · exact hs

/-! ### Services (R370) -/

theorem execFwServiceStart_canon {core} (hs : s.Canon) : NextCanon (execFwServiceStart core s) := by
  fun_cases execFwServiceStart core s
  case case1 h =>
    dsimp only [h]
    split <;> exact hs

/-! ### The freeze (R374, R375) -/

theorem askSaves_canon {f x1 x2} (hs : s.Canon) : (askSaves f x1 x2 s).Canon := by
  fun_induction askSaves f x1 x2 s
  case case1 ih => exact ih hs
  case case2 => exact hs

theorem execFreeze_canon {crew} (hs : s.Canon) : NextCanon (execFreeze crew s) := by
  fun_cases execFreeze crew s
  split
  · split
    · exact ite_canon (updCrew_canon hs) (askSaves_canon (foldl_canon (updCrew_canon hs) (fun _ _ ht => ht)))
    · exact hs
  · exact hs

/-! ### The slot (R376 to R378) -/

theorem putRegion_canon {base parts r} (hs : s.Canon) : (putRegion base parts r s).Canon := by
  fun_cases putRegion base parts r s
  case case1 => exact hs
  case case2 => exact hs.lpddr fun h => Memory.wf_foldl (Memory.wf_clear _ _ h) fun _ _ => Memory.wf_setBytes _ _

theorem putSlot_canon {base parts regions} (hs : s.Canon) : (putSlot base parts regions s).Canon :=
  foldl_canon hs (fun _ _ ht => putRegion_canon ht)

theorem saveSlotOf_canon {core} (hs : s.Canon) : (saveSlotOf core s).Canon := by
  fun_cases saveSlotOf core s
  case case1 => exact putSlot_canon hs
  case case2 => exact hs

/-! ### Save and restore engines (R372, R379, R380) -/

theorem startEngine_canon {core op} (hs : s.Canon) : (startEngine core op s).Canon := by
  fun_cases startEngine core op s <;> exact hs

theorem execSaveEngineDone_canon {core} (hs : s.Canon) : NextCanon (execSaveEngineDone core s) := by
  fun_cases execSaveEngineDone core s
  exact ite_canon hs (ite_canon (updCore_canon (saveSlotOf_canon hs)) (ite_canon (by split <;> exact hs) hs))

/-! ### The report of a saved context (R363, R379) -/

theorem reportSaved_canon {k w v} (hs : s.Canon) : (reportSaved k w v s).Canon :=
  updRec_canon (releaseCrew_canon (ite_canon (putSlot_canon (record_canon (foldl_canon (foldl_canon hs (fun _ _ ht => ht))
      (fun _ _ ht => writeBackCmd_canon ht)))) (record_canon (foldl_canon (foldl_canon hs (fun _ _ ht => ht)) (fun _ _ ht =>
      writeBackCmd_canon ht)))))

theorem endSaved_canon {w} (hs : s.Canon) : (endSaved w s).Canon := foldl_canon hs (fun _ _ ht => ite_canon ht (launchMember_canon ht))

theorem execContextSaved_canon {crew} (hs : s.Canon) : NextCanon (execContextSaved crew s) := by
  fun_cases execContextSaved crew s
  split
  · split
    · exact ite_canon (ite_canon (endSaved_canon hs) (ite_canon (reportSaved_canon hs) hs)) hs
    · exact hs
  · exact hs

/-! ### Restore (R343, R380) -/

theorem execRestore_canon {rec} (hs : s.Canon) : NextCanon (execRestore rec s) := by
  unfold execRestore
  split
  · next v _ =>
    refine ite_canon hs ?_
    split
    · exact wakeCores_canon hs
    · refine updRec_canon (foldl_canon ?_ fun _ _ ht => request_canon (updCore_canon ht))
      split
      · exact hs.land (Memory.wf_setBytes _ _)
      · exact hs
  · exact hs

theorem reaccept_canon {l} (hs : s.Canon) : (reaccept l s).Canon := foldl_canon hs (fun _ _ ht => intake_canon ht)

theorem execCrewResume_canon {crew} (hs : s.Canon) : NextCanon (execCrewResume crew s) := by
  fun_cases execCrewResume crew s
  split
  · split
    · exact ite_canon (record_canon (reaccept_canon (updCrew_canon hs))) hs
    · exact hs
  · exact hs

/-! ### The object aperture (R387) -/

theorem apertureBytes_canon {p o x2 x3} (hs : s.Canon) : OnOk (fun x => x.2.Canon) (apertureBytes p o x2 x3 s) := by
  fun_induction apertureBytes p o x2 x3 s
  case case1 => exact hs
  case case5 h _ _ _ h2 ih => exact ok_snd_canon h2 (ih (ok_snd_canon h (readElem_canon hs)))
  all_goals exact trivial

theorem apertureRead_canon {p r id off n} (hs : s.Canon) : OnOk (fun x => x.2.Canon) (apertureRead p r id off n s) := by
  fun_cases apertureRead p r id off n s
  case case1 => exact trivial
  case case2 => exact apertureBytes_canon hs

theorem apertureTile_canon {p o off bytes t} (hs : s.Canon) : OnOk State.Canon (apertureTile p o off bytes t s) := writeTile_canon hs

theorem apertureTiles_canon {p o off bytes x4} (hs : s.Canon) : OnOk State.Canon (apertureTiles p o off bytes x4 s) := by
  fun_induction apertureTiles p o off bytes x4 s
  case case1 => exact hs
  case case2 => exact trivial
  case case3 h ih => exact ih (ok_canon h (apertureTile_canon hs))

theorem apertureWrite_canon {p r id off bytes} (hs : s.Canon) : OnOk State.Canon (apertureWrite p r id off bytes s) := by
  fun_cases apertureWrite p r id off bytes s
  case case3 => exact apertureTiles_canon hs
  all_goals exact trivial

theorem linkRecord_canon {source p f susp id tile} (hs : s.Canon) : (linkRecord source p f susp id tile s).Canon := record_canon hs

/-! ### Host accesses (R387, R388) -/

theorem hostFail_canon {write addr len f tile} (hs : s.Canon) : (hostFail write addr len f tile s).Canon := by
  fun_cases hostFail write addr len f tile s <;> exact linkRecord_canon hs

theorem numberHost_canon {write addr bytes len f tile n} (hs : s.Canon) : (numberHost write addr bytes len f tile n s).Canon :=
  linkRecord_canon hs

theorem hostSuspend_canon {write addr bytes len f tile} (hs : s.Canon) : (hostSuspend write addr bytes len f tile s).Canon := by
  fun_cases hostSuspend write addr bytes len f tile s
  case case1 => exact hs
  case case2 => exact numberHost_canon hs

theorem hostMake_canon {write addr bytes len} (hs : s.Canon) : (hostMake write addr bytes len s).Canon := by
  fun_cases hostMake write addr bytes len s
  case case1 h =>
    exact ok_canon h (ite_onExcept (apertureWrite_canon hs) (by
      split
      · exact trivial
      next h => exact (ok_snd_canon h (apertureRead_canon hs) :)))
  case case2 => exact hostSuspend_canon hs
  case case3 => exact hostFail_canon hs

theorem hostStore_canon {a b} (hs : s.Canon) : (hostStore a b s).Canon := by
  fun_cases hostStore a b s
  case case1 => exact hs.host (Memory.wf_setBytes _ _)
  case case2 => exact hostMake_canon hs

theorem hostDrain_canon {x0} (hs : s.Canon) : (hostDrain x0 s).Canon := by
  fun_induction hostDrain x0 s
  case case4 ih => exact ih (hostStore_canon hs)
  all_goals exact hs

theorem hostAccess_canon {write addr bytes len} (hs : s.Canon) : (hostAccess write addr bytes len s).Canon := by
  fun_cases hostAccess write addr bytes len s
  case case4 => exact hostMake_canon hs
  all_goals exact hs

theorem hostOwn_canon {addr bytes} (hs : s.Canon) : (hostOwn addr bytes s).Canon := by
  fun_cases hostOwn addr bytes s
  case case1 => exact hs
  case case2 => exact hostStore_canon hs

theorem hostGiveUp_canon {n sub} (hs : s.Canon) : (hostGiveUp n sub s).Canon := by
  fun_cases hostGiveUp n sub s
  case case1 => exact hostDrain_canon (hostFail_canon hs)
  case case2 => exact hs

theorem execHostAccessTimeout_canon {susp} (hs : s.Canon) : NextCanon (execHostAccessTimeout susp s) := by
  fun_cases execHostAccessTimeout susp s
  split
  · exact hostGiveUp_canon hs
  · exact hs

/-! ### RoCE (R392) -/

theorem netFail_canon {port write id f tile} (hs : s.Canon) : (netFail port write id f tile s).Canon := linkRecord_canon (ite_canon hs hs)

theorem numberNet_canon {port write obj off bytes len f tile n} (hs : s.Canon) :
    (numberNet port write obj off bytes len f tile n s).Canon :=
  linkRecord_canon hs

theorem netFault_canon {port write obj off bytes len f tile} (hs : s.Canon) : (netFault port write obj off bytes len f tile s).Canon := by
  fun_cases netFault port write obj off bytes len f tile s
  case case1 => exact hs
  case case2 => exact numberNet_canon hs
  case case3 => exact netFail_canon hs

theorem netMake_canon {port write obj off bytes len} (hs : s.Canon) : (netMake port write obj off bytes len s).Canon := by
  fun_cases netMake port write obj off bytes len s
  case case1 h => exact ok_canon h (ite_onExcept (apertureWrite_canon hs) (.map (apertureRead_canon hs) (fun _ ht => ht)))
  case case2 => exact netFault_canon hs

/-! ### FQ_RESUME (R371) -/

theorem execFqResumeResume_canon {susp} (hs : s.Canon) : NextCanon (execFqResumeResume susp s) := by
  fun_cases execFqResumeResume susp s
  split
  · exact ite_canon hs (by
      split
      · exact hostDrain_canon (hostMake_canon hs)
      · exact netMake_canon hs
      · exact resumeSusp_canon hs)
  · exact hs

theorem failRecord_canon {id sub} (hs : s.Canon) : (failRecord id sub s).Canon := by
  unfold failRecord
  extract_lets s1 s2
  have h2 : s2.Canon := by
    dsimp only [s2]
    split
    · exact releaseCrew_canon (updRec_canon hs)
    · exact updRec_canon hs
  split
  · split
    · exact retired_canon (qmRecord_canon h2)
    · exact recFault_canon h2
  · exact h2

theorem execFqResumeFail_canon {susp sub} (hs : s.Canon) : NextCanon (execFqResumeFail susp sub s) := by
  fun_cases execFqResumeFail susp sub s
  split
  · exact ite_canon hs (by
      dsimp only
      split
      · exact endOnFault_canon hs
      · exact hs
      · exact hostGiveUp_canon hs
      · exact netFail_canon hs
      · exact failRecord_canon hs
      · exact ringFault_canon (updQueue_canon hs)
      · split
        · exact walkFault_canon (updWalk_canon hs)
        · exact hs)
  · exact hs

/-! ### Registers whose write starts something -/

theorem execCacheUnits_canon {slice units} (hs : s.Canon) : NextCanon (execCacheUnits slice units s) := ite_canon hs (cleanSlice_canon hs)

theorem execCacheResizeDone_canon {slice} (hs : s.Canon) : NextCanon (execCacheResizeDone slice s) := by
  fun_cases execCacheResizeDone slice s
  split <;> exact hs

theorem execPartitionEnable_canon {part value} (hs : s.Canon) : NextCanon (execPartitionEnable part value s) := ite_canon hs hs

theorem execPartitionDisable_canon {part} (hs : s.Canon) : NextCanon (execPartitionDisable part s) := ite_canon hs hs

theorem writePart_canon {p n v} (hs : s.Canon) : (writePart p n v s).Canon := by
  fun_cases writePart p n v s
  case case1 h => exact next_canon h (ite_nextCanon (execPartitionEnable_canon hs) (ite_nextCanon (execPartitionDisable_canon hs) hs))
  all_goals exact hs

theorem execIrqKick_canon {vector} (hs : s.Canon) : NextCanon (execIrqKick vector s) := by
  fun_cases execIrqKick vector s
  exact ite_canon (hs.host (Memory.wf_setBytes _ _)) hs

theorem execAttest_canon {value} (hs : s.Canon) : NextCanon (execAttest value s) := ite_canon hs hs

theorem execAttestDone_canon (hs : s.Canon) : NextCanon (execAttestDone s) := by
  unfold execAttestDone
  generalize 17088 = n
  split
  · have hd : (s.draws n).2.Canon := draws_canon hs
    refine hd.host ?_
    dsimp only
    exact Memory.wf_setBytes _ _
  · exact hs

theorem execKeyLoad_canon {value} (hs : s.Canon) : NextCanon (execKeyLoad value s) := by
  fun_cases execKeyLoad value s
  split
  · exact ite_canon hs hs
  · exact hs

theorem execCoreOnline_canon {m value} (hs : s.Canon) : NextCanon (execCoreOnline m value s) :=
  ite_canon hs (foldl_canon hs (fun _ _ ht => ite_canon ht ht))

/-! ### Device registers: writes -/

theorem outState_canon {r} (hs : s.Canon) (hr : NextCanon r) : (outState s r).Canon := by
  cases r with
  | next t => exact hr
  | fault _ => exact hs
  | refused _ => exact hs

theorem writeFq_canon {i v} (hs : s.Canon) : (writeFq i v s).Canon := by
  unfold writeFq
  split
  case h_3 => exact hs
  all_goals exact setReg_canon hs

theorem writeReg_canon {i v} (hs : s.Canon) : (writeReg i v s).Canon := by
  fun_cases writeReg i v s
  case case3 => exact outState_canon hs (execCacheUnits_canon hs)
  case case4 => exact outState_canon hs (execKilnRecal_canon hs)
  case case6 => exact writePart_canon hs
  case case8 => exact turnOn_canon hs
  case case9 => exact turnOff_canon hs
  case case10 => exact cancelInst_canon hs
  case case11 => exact writeFq_canon hs
  case case13 => exact outState_canon hs (ite_nextCanon (execFqResumeFail_canon hs) (execFqResumeResume_canon hs))
  case case18 => exact outState_canon hs (execIrqKick_canon hs)
  case case21 => exact outState_canon hs (execAttest_canon hs)
  case case22 => exact outState_canon hs (execKeyLoad_canon hs)
  case case24 => exact outState_canon hs (execCoreOnline_canon hs)
  all_goals exact hs

/-! ### The host link (R387, R389) -/

theorem execHostRead_canon {addr len} (hs : s.Canon) : NextCanon (execHostRead addr len s) := by
  fun_cases execHostRead addr len s
  split
  · exact hostAccess_canon hs
  · split <;> exact hs
  · exact hs

theorem execHostWrite_canon {addr bytes} (hs : s.Canon) : NextCanon (execHostWrite addr bytes s) := by
  fun_cases execHostWrite addr bytes s
  split
  · exact hostAccess_canon hs
  · split
    · exact ite_canon (writeReg_canon hs) hs
    · exact hs
  · exact hs

/-! ### Control registers of a core (R154, R34, R35, R77, R372) -/

theorem setReg0_canon {i v} (hs : s.Canon) : OnSome State.Canon (setReg0 i v s) := by
  fun_cases setReg0 i v s
  case case5 | case12 => exact trivial
  case case9 => exact ite_canon (startEngine_canon hs) hs
  case case11 => exact writeReg_canon hs
  all_goals exact hs

theorem execGetc_canon {e d index} (hs : s.Canon) : NextCanon (execGetc e d index s) := by
  fun_cases execGetc e d index s
  split
  · exact seqReg_canon hs
  · exact seqRaise_canon hs

theorem execSetc_canon {e d index} (hs : s.Canon) : NextCanon (execSetc e d index s) := by
  fun_cases execSetc e d index s
  split
  next h => exact seqDone_canon (some_canon h (setReg0_canon hs))
  · exact seqRaise_canon hs

/-! ### Alarms (R385) -/

theorem alarmRecord_canon {cause level} (hs : s.Canon) : (alarmRecord cause level s).Canon :=
  foldl_canon hs (fun _ _ ht => putRecord_canon ht)

theorem alarm_canon {cause} (hs : s.Canon) : (alarm cause s).Canon := by
  fun_cases alarm cause s <;> exact ite_canon (alarmRecord_canon hs) (alarmRecord_canon hs)

/-! ### Boot (R393, R394) -/

theorem setBoot_canon {st} (hs : s.Canon) : (setBoot st s).Canon := hs

theorem State.reset_canon : State.reset.Canon := by
  simp [State.reset, State.Canon, CanonMems, Memory.wf, SMap.wf, SMap.rising]

theorem execPowerOn_canon (hs : s.Canon) : NextCanon (execPowerOn s) :=
  ite_canon hs ⟨State.reset_canon.1, hs.2.1, State.reset_canon.2.2.1, hs.2.2.2⟩

theorem sigFail_canon {n} (hs : s.Canon) : (sigFail n s).Canon := by
  fun_cases sigFail n s
  case case1 => exact alarm_canon hs
  case case2 => exact hs

theorem execVerifyDone_canon {okA okB} (hs : s.Canon) : NextCanon (execVerifyDone okA okB s) := by
  fun_cases execVerifyDone okA okB s
  exact ite_canon hs (by
    dsimp only
    exact ite_canon (setBoot_canon (setReg_canon (foldl_canon (sigFail_canon hs) (fun _ _ ht => ht)))) (setBoot_canon (sigFail_canon hs)))

theorem bootCal_canon {i} (hs : s.Canon) : (bootCal i s).Canon := by
  fun_cases bootCal i s
  case case1 => exact hs
  case case2 h _ _ _ h2 => exact updKiln_canon (snd_canon h2 (draws_canon (snd_canon h hs)))
  case case3 h _ => exact kilnRecord_canon (updKiln_canon (snd_canon h hs))

theorem execCalibrateDone_canon (hs : s.Canon) : NextCanon (execCalibrateDone s) :=
  ite_canon hs (setBoot_canon (foldl_canon hs (fun _ _ ht => bootCal_canon ht)))

theorem execMountDone_canon {line} (hs : s.Canon) : NextCanon (execMountDone line s) := by
  unfold execMountDone
  refine ite_canon hs ?_
  extract_lets img table tiles code put s1 s2
  have hp (a : Nat) (b : List Byte) (t : State) (ht : t.Canon) : (put a b t).Canon := by
    simp only [put]
    split
    · next h => exact ok_canon h (lpWrite_canon ht)
    · exact ht
  clear_value put
  have hs1 : s1.Canon := hp _ _ _ (hp _ _ _ (hp _ _ _ hs))
  exact setBoot_canon (foldl_canon (setReg_canon (setReg_canon hs1)) fun _ _ ht => updCore_canon ht)

/-! ### Power (R397, R286) -/

theorem execPowerRegulate_canon {part power hot} (hs : s.Canon) : NextCanon (execPowerRegulate part power hot s) := by
  fun_cases execPowerRegulate part power hot s
  exact ite_canon hs (ite_canon hs (ite_canon hs (ite_canon hs (ite_canon hs hs))))

/-! ### Sleep and parity (R398) -/

theorem setOnline_canon {core on} (hs : s.Canon) : (setOnline core on s).Canon := hs

theorem execParitySweepDone_canon {core ok} (hs : s.Canon) : NextCanon (execParitySweepDone core ok s) :=
  ite_canon hs (ite_canon hs (setOnline_canon (record_canon hs)))

/-! ### The instructions -/

theorem exec_canon {i} (hs : s.Canon) : NextCanon (exec i s) := by
  cases i
  case add | sub | mul | mulh | mulhu | div | divu | rem | remu | and | or | xor | andn | shl | shr | sar | rol | min | max | minu
      | maxu | slt | sltu | addi | andi | ori | xori | shli | shri | sari | lui | clz | ctz | popc | sext_b | sext_h | sext_w | zext_b
      | zext_h | zext_w | sel | cyc | fget | tstamp => exact seqReg_canon hs
  case cmp | cmpi | pand | por | pxor | pnot | jmp | jr | call | ret | nop | cport | fence | fwshare => exact seqDone_canon hs
  case ld_b | ld_h | ld_w | ld_d | ldu_b | ldu_h | ldu_w => exact seqLoad_canon hs
  case st_b | st_h | st_w | st_d => exact seqStore_canon hs
  case br | bf | loop => exact seqDone_canon (ite_canon hs hs)
  case exit => exact execExit_canon hs
  case trap => exact execTrap_canon hs
  case rfe => exact execRfe_canon hs
  case arm => exact execArm_canon hs
  case disarm => exact execDisarm_canon hs
  case sync => exact execSync_canon hs
  case setof => exact execSetof_canon hs
  case go => exact execGo_canon hs
  case mxq => exact execMxq_canon hs
  case hsig => exact execHsig_canon hs
  case hwait => exact execHwait_canon hs
  case hrd => exact execHrd_canon hs
  case getc => exact execGetc_canon hs
  case setc => exact execSetc_canon hs
  case idle => exact execIdle_canon hs
  case rd | rdx | rdb | bank_wait | stn_nop | stn_wait | thermal_shutdown | power_loss | fabric_links_trained => exact hs
  case wr | wrb => exact either_canon (bankWrite_canon hs)
  case wrx => exact execWrx_canon hs
  case bank_fill => exact execBankFill_canon hs
  case bank_mode | stn_mode => exact modeEntry_canon hs
  case fmt => exact execFmt_canon hs
  case chk => exact execChk_canon hs
  case vadd | vsub | vmul | vfma | vfms | vmin | vmax | vabs | vneg | vand | vor | vxor | vnot | vshl | vshr | vsar | vrshr | vaddsat
      | vsubsat | vclamp | vcmp | vcmpb | vsel | vmov | vmac | vscale | vcvt | vpack | vunpack | viota | vaccept | rcp | rsq | sqrt
      | ex2 | lg2 | sin | cos | xpose | perm | shuf | bcast | gath | slide | rope | spc24 | spc48 | rsum | rmax | rmin | scan | argmax
      | cmpct | osm | osf => exact stationEntry_canon hs
  case topk => exact execTopk_canon hs
  case vflag => exact execVflag_canon hs
  case xmv => exact execXmv_canon hs
  case xref => exact execXref_canon hs
  case xprog_deposit => exact execXprogDeposit_canon hs
  case xprog_fire h _ _ => exact execXprogFire_canon (_h := h) hs
  case xrdw => exact ite_canon (raise_canon hs) (kilnUse_canon (fun _ ht => ht) hs)
  case xbound => exact execXbound_canon hs
  case xstat | mdr => exact ite_canon (raise_canon hs) hs
  case mld => exact execMld_canon hs
  case mfd => exact execMfd_canon hs
  case msv => exact ite_canon (ite_canon (raise_canon hs) hs) (ite_canon (raise_canon hs) hs)
  case mrs => exact execMrs_canon hs
  case fsnd => exact execFsnd_canon hs
  case frcv => exact execFrcv_canon hs
  case fexp h _ _ _ => exact execFexp_canon (_h := h) hs
  case fqd h _ _ => exact execFqd_canon (_h := h) hs
  case mmul | mmac | mmuls | mmacs => exact mxAwait_canon (fun _ ht => mxMultiply_canon ht) hs
  case mclr | mfence | mnop => exact mxAwait_canon (fun _ ht => ht) hs
  case mclaim | mrel => exact mxAwait_canon (fun _ ht => mxClaim_canon ht) hs
  case mscl => exact execMscl_canon hs
  case mtr => exact execMtr_canon hs
  case mx_msig => exact execMxMsig_canon hs
  case copy | copyp | pref | ferry_gath | scat | scadd | lred | ltopk | lcmp | ferry_fill | atom | barinit | inval | ferry_msig =>
    exact startFerry_canon hs
  case srchg | srchv | dscan | append | remove | merge | stamp | pgrd => exact startStore_canon hs
  case kvalloc | kvfree | kvapp | kvmap | kvret | kvld | kvq => exact startKv_canon hs
  case nop_record | wait_record | signal_record | phase => exact startRec_canon (fun _ _ _ ht => retireNow_canon ht) hs
  case launch_record => exact startRec_canon (fun _ _ _ ht => launchEff_canon ht) hs
  case ferry_record => exact startRec_canon (fun _ _ _ ht => ite_onExcept (commandEff_canon ht) trivial) hs
  case store_record | kv_record => exact startRec_canon (fun _ _ _ ht => commandEff_canon ht) hs
  case branch => exact startRec_canon (fun _ _ _ ht => branchEff_canon ht) hs
  case select => exact startRecOf_canon (fun _ _ _ ht => selectEff_canon ht) hs
  case graph => exact startRec_canon (fun _ _ _ ht => graphEff_canon ht) hs
  case cancel => exact startRec_canon (fun _ _ _ ht => cancelInst_canon (retireRec_canon (endRec_canon ht))) hs
  case irq => exact startRec_canon (fun _ _ _ ht => irqEff_canon ht) hs
  case stamp_record => exact startRec_canon (fun _ _ _ ht => stampEff_canon ht) hs
  case map => exact startRec_canon (fun _ _ _ ht => mapEff_canon ht) hs
  case fence_record => exact startRec_canon (fun _ _ _ ht => updRec_canon ht) hs
  case sync_release => exact execSyncRelease_canon hs
  case idle_wake => exact execIdleWake_canon hs
  case fence_complete => exact execFenceComplete_canon hs
  case const_line_ready => exact execConstLineReady_canon hs
  case fexp_deadline => exact execFexpDeadline_canon hs
  case station_result_land => exact execStationResultLand_canon hs
  case row_arrival => exact execRowArrival_canon hs
  case hold_release => exact execHoldRelease_canon hs
  case hold_limit => exact execHoldLimit_canon hs
  case clock_end => exact execClockEnd_canon hs
  case matrix_update_land => exact execMatrixUpdateLand_canon hs
  case matrix_command_complete => exact execMatrixCommandComplete_canon hs
  case xb_row_put => exact execXbRowPut_canon hs
  case ferry_continue => exact execFerryContinue_canon hs
  case ferry_command_complete => exact execFerryCommandComplete_canon hs
  case read_retry_done => exact execReadRetryDone_canon hs
  case snapshot_ready => exact execSnapshotReady_canon hs
  case log_durable => exact execLogDurable_canon hs
  case merge_autostart => exact execMergeAutostart_canon hs
  case store_command_complete => exact execStoreCommandComplete_canon hs
  case kv_command_complete => exact execKvCommandComplete_canon hs
  case tail_write => exact execTailWrite_canon hs
  case launch_reserve => exact execLaunchReserve_canon hs
  case launch_start => exact execLaunchStart_canon hs
  case task_complete => exact execTaskComplete_canon hs
  case record_retire => exact execRecordRetire_canon hs
  case queue_on => exact turnOn_canon hs
  case queue_off => exact turnOff_canon hs
  case qm_cancel => exact cancelInst_canon hs
  case preempt => exact execPreempt_canon hs
  case freeze => exact execFreeze_canon hs
  case fw_service_start => exact execFwServiceStart_canon hs
  case save_start | restore_start => exact startEngine_canon hs
  case save_engine_done => exact execSaveEngineDone_canon hs
  case context_saved => exact execContextSaved_canon hs
  case restore => exact execRestore_canon hs
  case crew_resume => exact execCrewResume_canon hs
  case fq_resume_resume => exact execFqResumeResume_canon hs
  case fq_resume_fail => exact execFqResumeFail_canon hs
  case kiln_recal => exact execKilnRecal_canon hs
  case recal_start => exact execRecalStart_canon hs
  case recal_end => exact execRecalEnd_canon hs
  case firing_end => exact execFiringEnd_canon hs
  case kiln_temp => exact execKilnTemp_canon hs
  case drift_due => exact execDriftDue_canon hs
  case cache_units => exact execCacheUnits_canon hs
  case cache_resize_done => exact execCacheResizeDone_canon hs
  case partition_enable => exact execPartitionEnable_canon hs
  case partition_disable => exact execPartitionDisable_canon hs
  case irq_kick => exact execIrqKick_canon hs
  case attest => exact execAttest_canon hs
  case attest_done => exact execAttestDone_canon hs
  case key_load => exact execKeyLoad_canon hs
  case core_online => exact execCoreOnline_canon hs
  case register_write => exact writeReg_canon hs
  case host_read => exact execHostRead_canon hs
  case host_write => exact execHostWrite_canon hs
  case host_access_timeout => exact execHostAccessTimeout_canon hs
  case roce_send | core_sleep | fabric_link_failure => exact ite_canon hs hs
  case roce_write | roce_read => exact ite_canon hs (netMake_canon hs)
  case power_on => exact execPowerOn_canon hs
  case verify_done => exact execVerifyDone_canon hs
  case calibrate_done => exact execCalibrateDone_canon hs
  case mount_done => exact execMountDone_canon hs
  case security_alarm => exact ite_canon (alarm_canon hs) hs
  case power_regulate => exact execPowerRegulate_canon hs
  case module_power_limit => exact foldl_canon hs (fun _ _ ht => ht)
  case parity_sweep_done => exact execParitySweepDone_canon hs
  case merge_publish => exact execMergePublish_canon hs

/-! ### The order of the machine's agents -/

theorem run_canon {f} (hf : KeepsCanon f) (hs : s.Canon) : (run f s).Canon := outState_canon hs (hf s hs)

theorem runAll_canon {l} (hs : s.Canon) (hl : ∀ f ∈ l, KeepsCanon f) : (runAll l s).Canon :=
  List.foldlRecOn l _ hs fun _ ht f hf => run_canon (hl f hf) ht

/-! ### One item of a core cycle -/

theorem seqUnfetched_canon {f core fw} (hs : s.Canon) : (seqUnfetched f core fw s).Canon := by
  fun_cases seqUnfetched f core fw s
  case case1 => exact hs
  case case2 => exact raiseFetch_canon hs

theorem matrixItem_canon {core} (hs : s.Canon) : NextCanon (matrixItem core s) := by
  fun_cases matrixItem core s
  case case1 => exact mxRow_canon hs
  case case4 => exact raise_canon hs
  case case5 => exact raiseWith_canon hs
  case case6 => exact exec_canon hs
  all_goals exact hs

theorem runItem_canon {k w} (hs : s.Canon) : NextCanon (runItem k w s).1 := by
  fun_cases runItem k w s
  case case1 => exact seqUnfetched_canon hs
  case case2 | case4 => exact exec_canon hs
  case case3 => exact raiseFetch_canon hs
  case case5 => exact matrixItem_canon hs
  case case6 due s1 =>
    have hs1 : s1.Canon := foldl_canon hs fun t p ht => by
      split
      · exact run_canon (fun _ => execDriftDue_canon) ht
      · exact ht
    refine runAll_canon hs1 ?_
    simp only [List.forall_mem_cons]
    exact ⟨fun _ => execMatrixUpdateLand_canon, fun _ => execXbRowPut_canon, fun _ => execStationResultLand_canon,
      fun _ => execMatrixCommandComplete_canon, List.forall_mem_nil _⟩
  case case7 | case8 => exact hs
  case case9 =>
    have hs1 (l : List Nat) : (l.foldl (fun s c => run (execTaskComplete c) s) s).Canon :=
      foldl_canon hs fun _ _ ht => run_canon (fun _ => execTaskComplete_canon) ht
    exact ite_canon (run_canon (fun _ => execClockEnd_canon) (hs1 _)) (crewTick_canon (hs1 _))

theorem tryItem_canon {k w fuel} (hs : s.Canon) : (tryItem k w fuel s).Canon := by
  fun_induction tryItem k w fuel s
  case case1 => exact hs
  case case2 => exact outState_canon hs (runItem_canon hs)
  case case3 ih => exact ih (outState_canon hs (runItem_canon hs))

theorem tryItems_canon {k l} (hs : s.Canon) : (tryItems k l s).Canon := foldl_canon hs (fun _ _ ht => tryItem_canon ht)

/-! ### The beginning of a core cycle -/

theorem wakeEvents_canon {core fw x} : ∀ f ∈ wakeEvents core fw x, KeepsCanon f := by
  fun_cases wakeEvents core fw x
  case case1 => exact List.forall_mem_singleton.mpr fun _ => execSyncRelease_canon
  case case2 => exact List.forall_mem_singleton.mpr fun _ => execIdleWake_canon
  case case3 => exact List.forall_mem_singleton.mpr fun _ => execFenceComplete_canon
  case case5 => exact List.forall_mem_singleton.mpr fun _ => execConstLineReady_canon
  all_goals exact List.forall_mem_nil _

theorem beginCore_canon {clock window core} (hs : s.Canon) : (beginCore clock window s core).Canon := by
  refine updCore_canon (runAll_canon (updCore_canon hs) ?_)
  simp only [List.forall_mem_append, List.forall_mem_map, List.forall_mem_singleton]
  exact ⟨⟨⟨wakeEvents_canon, wakeEvents_canon⟩, fun _ _ _ => execFexpDeadline_canon⟩, fun _ => execFwServiceStart_canon⟩

theorem askFetch_canon {core obj line} (hs : s.Canon) : (askFetch core obj line s).Canon := by
  fun_cases askFetch core obj line s
  case case1 => exact suspendFetch_canon hs
  all_goals exact hs

theorem prepCtx_canon {core fw} (hs : s.Canon) : (prepCtx core fw s).Canon := by
  fun_cases prepCtx core fw s
  case case1 => exact hs
  case case2 => exact resolvePc_canon hs
  case case3 => exact askFetch_canon (resolvePc_canon hs)

theorem prepStream_canon {core u x2} (hs : s.Canon) : (prepStream core u x2 s).Canon := by
  fun_induction prepStream core u x2 s
  case case3 => exact askFetch_canon hs
  case case4 | case5 => exact raiseFetch_canon hs
  case case8 ih => exact ih hs
  all_goals exact hs

theorem prepCore_canon {core} (hs : s.Canon) : (prepCore s core).Canon :=
  foldl_canon (prepCtx_canon (prepCtx_canon hs)) (fun _ _ ht => prepStream_canon ht)

/-! ### Faults and holds (R31 to R36) -/

theorem stopFault_canon {trial s0 : State} {k items} (htrial : trial.Canon) (hs0 : s0.Canon) : (stopFault k items trial s0).Canon := by
  have hs := tryItems_canon (k := k) (l := items.filter (survives k s0)) hs0
  exact stopCrew_canon (updCrew_canon ⟨htrial.1, htrial.2.1, hs.2.2⟩)

theorem clearAsks_canon {w} (hs : s.Canon) : (clearAsks w s).Canon := foldl_canon hs (fun _ _ ht => ht)

theorem noteAsks_canon {k w} (hs : s.Canon) : (noteAsks k w s).Canon := foldl_canon hs (fun _ _ ht => ht)

theorem holdCycle_canon {k w cause} (hs : s.Canon) : (holdCycle k w cause s).Canon :=
  run_canon (fun _ ht => execHoldLimit_canon ht) (updCrew_canon (foldl_canon (noteAsks_canon hs) (fun _ _ ht => ht)))

theorem waitLines_canon {trial w} (hs : s.Canon) : (waitLines w trial s).Canon := by
  fun_cases waitLines w trial s
  exact foldl_canon hs (fun _ _ ht => (by split <;> exact ht))

theorem cycle_canon {k w fuel} (hs : s.Canon) : (cycle k w fuel s).Canon := by
  fun_induction cycle k w fuel s
  case case1 => exact hs
  case case3 => exact holdCycle_canon hs
  case case4 ih => exact ih (waitLines_canon hs)
  case case6 => exact updCrew_canon (foldl_canon (ite_canon (run_canon (fun _ ht => execHoldRelease_canon ht) hs) hs) (fun _ _ ht => ht))
  all_goals exact stopFault_canon (tryItems_canon (clearAsks_canon hs)) hs

theorem beginCycle_canon {k w} (hs : s.Canon) : (beginCycle k w s).Canon := by
  fun_cases beginCycle k w s
  case case1 =>
    exact stopFault_canon (foldl_canon (foldl_canon (updCrew_canon hs) (fun _ _ ht => beginCore_canon ht))
        (fun _ _ ht => prepCore_canon ht)) (updCrew_canon hs)
  case case2 =>
    exact cycle_canon (foldl_canon (foldl_canon (updCrew_canon hs) (fun _ _ ht => beginCore_canon ht)) (fun _ _ ht => prepCore_canon ht))
  case case3 => exact foldl_canon (foldl_canon (updCrew_canon hs) (fun _ _ ht => beginCore_canon ht)) (fun _ _ ht => prepCore_canon ht)

/-! ### The end of a crew (R15, R29, R36, R384) -/

theorem teardown_canon {w st} (hs : s.Canon) : (teardown w st s).Canon :=
  foldl_canon hs (fun _ _ ht => ite_canon ht (launchMember_canon ht))

theorem dropRemainders_canon {w st} (hs : s.Canon) : (dropRemainders w st s).Canon := by
  fun_cases dropRemainders w st s
  exact foldl_canon hs (fun _ _ ht => (by
    split
    · exact launchMember_canon ht
    · exact ht))

theorem stopSaving_canon {k w st} (hs : s.Canon) : (stopSaving k w st s).Canon :=
  updCrew_canon (foldl_canon (dropRemainders_canon hs) (fun _ _ ht => ht))

theorem stoppedTurn_canon {k w st} (hs : s.Canon) : (stoppedTurn k w st s).Canon := by
  fun_cases stoppedTurn k w st s
  case case1 => exact teardown_canon hs
  case case2 => exact run_canon (fun _ ht => execContextSaved_canon ht) hs
  case case3 => exact stopSaving_canon hs

theorem crewTurn_canon {k} (hs : s.Canon) : (crewTurn k s).Canon := by
  fun_cases crewTurn k s
  case case1 | case3 => exact hs
  case case2 => exact stoppedTurn_canon hs
  case case4 =>
    refine run_canon ?_ hs
    split
    · exact fun _ => execCrewResume_canon
    · exact fun _ => execContextSaved_canon
  case case5 => exact run_canon (fun _ => execLaunchStart_canon) hs
  case case6 => exact run_canon (fun _ => execFreeze_canon) hs
  case case7 => exact beginCycle_canon hs

/-! ### The firmware context outside a running crew -/

theorem fwTurn_canon {core} (hs : s.Canon) : NextCanon (fwTurn core s) := by
  have hs1 : (if (s.core core).fw.words = 0 then s.updCore core (·.beginFw (s.frozen core) (s.clock core)) else s).Canon :=
    ite_canon (updCore_canon hs) hs
  fun_cases fwTurn core s
  case case1 => exact hs
  case case2 => exact execSaveEngineDone_canon hs1
  case case3 => exact execFwServiceStart_canon hs1
  case case4 => exact runAll_canon (updCore_canon hs1) wakeEvents_canon
  case case5 => exact updCore_canon hs1
  case case6 => exact prepCtx_canon hs1
  case case7 => exact runItem_canon (updCore_canon hs1)

/-! ### Commands and records -/

theorem cmdTurn_canon {id} (hs : s.Canon) : NextCanon (cmdTurn id s) := by
  fun_cases cmdTurn id s
  case case2 => exact intakeCore_canon hs
  case case3 => exact intake_canon hs
  case case4 => exact exec_canon hs
  case case5 => exact endOnFault_canon hs
  case case6 => exact execFerryContinue_canon hs
  case case7 => exact ite_canon hs (rerunStore_canon hs)
  case case8 => exact rerunKv_canon hs
  case case9 => exact execFerryCommandComplete_canon hs
  case case10 => exact execStoreCommandComplete_canon hs
  case case11 => exact execKvCommandComplete_canon hs
  all_goals exact hs

theorem recordWork_canon {id r} (hs : s.Canon) : (recordWork id r s).Canon := by
  fun_cases recordWork id r s
  case case1 => exact pumpWalk_canon hs
  case case3 | case5 => exact endRec_canon hs
  all_goals exact hs

theorem recordTurn_canon {id} (hs : s.Canon) : NextCanon (recordTurn id s) := by
  fun_cases recordTurn id s
  case case2 => exact exec_canon hs
  case case3 => exact ite_canon hs (recFault_canon hs)
  case case6 | case8 =>
    split
    · exact pumpTarget_canon hs
    · exact hs
  case case7 => exact execPreempt_canon (run_canon (fun _ ht => execLaunchReserve_canon ht) hs)
  case case9 => exact recordWork_canon hs
  case case10 => exact execRecordRetire_canon hs
  case case11 => exact execRestore_canon hs
  all_goals exact hs

/-! ### Translations and cache parts (R50, R57) -/

theorem keepEntry_canon {e room} (hs : s.Canon) : (keepEntry e room s).Canon := by
  fun_cases keepEntry e room s <;> exact hs

theorem cacheObj_canon {port obj} (hs : s.Canon) : (cacheObj port obj s).Canon := by
  fun_cases cacheObj port obj s
  case case2 => exact keepEntry_canon hs
  all_goals exact hs

theorem cacheTile_canon {port obj tile} (hs : s.Canon) : (cacheTile port obj tile s).Canon := by
  fun_cases cacheTile port obj tile s
  case case3 => exact keepEntry_canon hs
  all_goals exact hs

/-! ### Suspension numbers (R371) -/

theorem giveTo_canon {w n} (hs : s.Canon) : (giveTo w n s).Canon := by
  fun_cases giveTo w n s
  case case1 => exact numberCmd_canon hs
  case case4 => exact numberFetch_canon hs
  case case6 => exact numberHost_canon hs
  case case7 => exact numberNet_canon hs
  case case8 => exact numberRec_canon hs
  case case11 => exact numberQueue_canon hs
  case case13 => exact numberWalk_canon hs
  all_goals exact hs

theorem giveNumber_canon {w n} (hs : s.Canon) : (giveNumber w n s).Canon := giveTo_canon hs

theorem numberTurn_canon (hs : s.Canon) : (numberTurn s).Canon := by
  fun_cases numberTurn s
  case case1 => exact giveNumber_canon hs
  case case2 => exact hs

/-! ### Turns -/

theorem turn_canon {t} (hs : s.Canon) : NextCanon (turn t s) := by
  fun_cases turn t s
  case case1 => exact crewTurn_canon hs
  case case2 => exact fwTurn_canon hs
  case case3 => exact cmdTurn_canon hs
  case case4 => exact recordTurn_canon hs
  case case5 => exact exec_canon hs
  case case6 => exact cacheObj_canon hs
  case case7 => exact cacheTile_canon hs
  case case8 => exact numberTurn_canon hs
  case case9 => exact evictLine_canon hs
  case case10 => exact hostOwn_canon hs
  case case11 => exact hs

theorem bootMoves_canon : ∀ f ∈ bootMoves s, KeepsCanon f := by
  fun_cases bootMoves s
  case case1 => exact List.forall_mem_singleton.mpr fun _ => execPowerOn_canon
  case case2 => exact List.forall_mem_singleton.mpr fun _ => execVerifyDone_canon
  case case3 => exact List.forall_mem_singleton.mpr fun _ => execCalibrateDone_canon
  case case4 => exact List.forall_mem_singleton.mpr fun _ => execMountDone_canon
  case case5 => exact List.forall_mem_nil _

theorem filterMap_keepsCanon {g : α → Option Move} {l : List α} (hg : ∀ p, OnSome KeepsCanon (g p)) :
    ∀ f ∈ l.filterMap g, KeepsCanon f := by
  intro f hf
  obtain ⟨p, -, hp⟩ := List.mem_filterMap.mp hf
  have h := hg p
  rw [hp] at h
  exact h

theorem kilnMoves_canon : ∀ f ∈ kilnMoves s, KeepsCanon f :=
  filterMap_keepsCanon fun _ => ite_onSome (fun _ => execRecalEnd_canon)
    (ite_onSome (fun _ => execFiringEnd_canon) (ite_onSome (fun _ => execRecalStart_canon) trivial))

theorem waitMoves_canon : ∀ f ∈ waitMoves s, KeepsCanon f :=
  filterMap_keepsCanon fun _ => ite_onSome (by
    split
    · exact fun _ => execReadRetryDone_canon
    · exact fun _ => execSnapshotReady_canon) trivial

theorem storageMoves_canon : ∀ f ∈ storageMoves s, KeepsCanon f := by
  refine List.forall_mem_append.mpr ⟨filterMap_keepsCanon fun _ => ite_onSome (fun _ => execLogDurable_canon) trivial, ?_⟩
  refine List.forall_mem_map.mpr fun _ _ => ?_
  split
  · exact fun _ => execMergePublish_canon
  · exact fun _ => execMergeAutostart_canon

theorem moves_canon : ∀ f ∈ moves s, KeepsCanon f := by
  have number : ∀ f ∈ (if s.suspWait.isEmpty then [] else [turn .number]), KeepsCanon f := by
    split
    · exact List.forall_mem_nil _
    · exact List.forall_mem_singleton.mpr fun _ => turn_canon
  have attest : ∀ f ∈ (if s.quote.isSome then [execAttestDone] else []), KeepsCanon f := by
    split
    · exact List.forall_mem_singleton.mpr fun _ => execAttestDone_canon
    · exact List.forall_mem_nil _
  simp only [moves, List.forall_mem_append, List.forall_mem_map, List.forall_mem_singleton, List.forall_mem_flatMap]
  refine ⟨⟨⟨⟨⟨⟨⟨⟨⟨⟨⟨⟨⟨⟨bootMoves_canon, number⟩, ?_⟩, ?_⟩, ?_⟩, ?_⟩, ?_⟩, ?_⟩, ?_⟩, ?_⟩, attest⟩, kilnMoves_canon⟩, waitMoves_canon⟩,
      storageMoves_canon⟩, ?_⟩
  case refine_1 => exact fun _ _ _ => turn_canon
  case refine_2 => exact fun _ _ _ => fwTurn_canon
  case refine_3 => exact fun _ _ _ _ _ => execRowArrival_canon
  case refine_4 => exact fun _ _ _ => cmdTurn_canon
  case refine_5 => exact fun _ _ _ => recordTurn_canon
  case refine_6 => exact fun _ _ _ => execTailWrite_canon
  case refine_7 => exact fun _ _ _ => execCacheResizeDone_canon
  case refine_8 => exact fun _ _ _ => execParitySweepDone_canon
  case refine_9 => exact fun _ => turn_canon

theorem getD_keepsCanon {l : List Move} {n : Nat} (hl : ∀ f ∈ l, KeepsCanon f) : KeepsCanon (l.getD n (turn (.wait 1))) := by
  rw [List.getD_eq_getElem?_getD]
  cases h : l[n]? with
  | none => exact fun t ht => (turn_canon ht : NextCanon (turn (.wait 1) t))
  | some f => exact hl f (List.mem_of_getElem? h)

theorem nextTurn_canon {t} (hs : s.Canon) (h : nextTurn s = .next t) : t.Canon := by
  have hl : ∀ f ∈ moves s, KeepsCanon f := moves_canon
  unfold nextTurn at h
  generalize moves s = l at h hl
  exact next_canon h (getD_keepsCanon hl _ hs)

theorem itemTurn_canon {k i rest} (hs : s.Canon) : NextCanon (itemTurn k i rest s) := by
  have hr := runItem_canon (k := k) (w := i) (updCrew_canon (k := k) (f := fun w => { w with todo := rest }) hs)
  unfold itemTurn
  split
  · next h =>
    rw [h] at hr
    exact ite_canon hr (updCrew_canon hr)
  · next h =>
    rw [h] at hr
    exact hr

theorem nextMove_canon {t} (hs : s.Canon) (h : nextMove s = .next t) : t.Canon := by
  unfold nextMove at h
  split at h
  · exact next_canon h (itemTurn_canon hs)
  · split at h
    · exact next_canon h (turn_canon hs)
    · exact nextTurn_canon hs h

theorem stepOf_canon {t} (hs : s.Canon) (h : stepOf s = .next t) : t.Canon := by
  unfold stepOf at h
  split at h
  · split at h
    · exact next_canon h (execPowerOn_canon hs)
    · cases h
  · exact nextMove_canon hs h

/-! ### One step -/

theorem step_canon {t} (hs : s.Canon) (h : step s = .next t) : t.Canon := stepOf_canon hs h

end Sys2Proof.Machine
end

/-! ## O59 and O60 -/
section
namespace Sys2Proof.Machine

/-- Settles O59: every move of `step` keeps the five memories in canonical form. -/
theorem stepKeepsCanonical : Obligations.StepKeepsCanonical := by
  intro s t hs h
  exact State.canon_iff.mp (step_canon (State.canon_iff.mpr hs) h)

/-- Settles O60: what every instruction keeps holds of the sequencer words. -/
theorem wordsKeepCanonical : Obligations.WordsKeepCanonical := by
  intro i _ _ s t _ hs h
  exact State.canon_iff.mp (next_canon h (exec_canon (State.canon_iff.mpr hs)))

end Sys2Proof.Machine
end

/-! # Cache parts, partitions and register writes (O40) -/
section
namespace Sys2Proof.Machine
variable {s t u : State} {α : Type}

/-! ## The write-back of a cache part -/

/-- Cores, registers and cache parts are as before: all that a write-back leaves unchanged. -/
def SameParts (s t : State) : Prop := t.cores = s.cores ∧ t.regs = s.regs ∧ t.cache = s.cache

theorem SameParts.refl : SameParts s s := ⟨rfl, rfl, rfl⟩

theorem SameParts.trans (h : SameParts s t) (h' : SameParts t u) : SameParts s u := by
  obtain ⟨hc, hr, hk⟩ := h
  obtain ⟨hc', hr', hk'⟩ := h'
  exact ⟨hc'.trans hc, hr'.trans hr, hk'.trans hk⟩

theorem lpWriteBurst_sameParts {b bytes colour} (h : lpWriteBurst s b bytes colour = .ok t) : SameParts s t := by
  revert h
  fun_cases lpWriteBurst s b bytes colour
  case case2 | case5 => exact fun h => Except.ok.inj h ▸ ⟨rfl, rfl, rfl⟩
  all_goals nofun

theorem lpWriteMap_sameParts {colour bs m} (h : lpWriteMap colour bs m s = .ok t) : SameParts s t := by
  fun_induction lpWriteMap colour bs m s
  case case1 =>
    cases h
    exact .refl
  case case2 => cases h
  case case3 hb ih => exact (lpWriteBurst_sameParts hb).trans (ih h)

theorem writeBack_sameParts {x} : SameParts s (writeBack s x) := by
  fun_cases writeBack s x
  case case1 h => exact lpWriteMap_sameParts h
  all_goals exact .refl

theorem burstBack_sameParts {x y} (h : burstBack s x y = some t) : SameParts s t := by
  revert h
  fun_cases burstBack s x y
  case case1 hw =>
    rintro ⟨⟩
    exact lpWriteMap_sameParts hw
  case case2 =>
    rintro ⟨⟩
    exact .refl
  case case3 => nofun

theorem writeBackAll_sameParts {sel l} : SameParts s (writeBackAll sel l s) := by
  fun_induction writeBackAll sel l s
  case case1 | case3 => exact .refl
  case case2 => exact writeBack_sameParts
  case case4 ih => exact ih
  case case5 h ih =>
    split at h
    · exact (burstBack_sameParts h).trans ih
    · cases h
  case case6 ih => exact writeBack_sameParts.trans ih

theorem writeBackAll_of_clean {sel l} (h : ∀ x ∈ l, x.2.dirty = false) : writeBackAll sel l s = s := by
  fun_induction writeBackAll sel l s
  case case1 | case3 => rfl
  case case4 ih => exact ih fun x hx => h x (.tail _ hx)
  -- the other branches write the head back, and the head is clean
  all_goals simp_all

theorem cleanSlice_cores {slice sel} : (cleanSlice s slice sel).cores = s.cores := writeBackAll_sameParts.1

theorem cleanSlice_regs {slice sel} : (cleanSlice s slice sel).regs = s.regs := writeBackAll_sameParts.2.1

theorem cleanSlice_cacheOf_ne {slice sel j} (hj : j ≠ slice) : (cleanSlice s slice sel).cacheOf j = s.cacheOf j := by
  have hcache : (writeBackAll sel (s.cacheOf slice) s).cache = s.cache := writeBackAll_sameParts.2.2
  simp only [cleanSlice, State.cacheOf, SMap.get_put_ne _ _ _ _ _ hj.symm] at hcache ⊢
  rw [hcache]

theorem cleanSlice_sameMemories {slice sel} (h : ∀ x ∈ s.cacheOf slice, x.2.dirty = false) :
    sameMemories s (cleanSlice s slice sel) := by
  simp only [cleanSlice, writeBackAll_of_clean h]
  exact ⟨fun _ => rfl, fun _ => rfl, fun _ => rfl, fun _ => rfl, fun _ => rfl, rfl⟩

/-! ## The size of a cache part (R55) -/

theorem SMap.find_del_self (m : SMap α) (k : Nat) : (m.del k).find k = none := by
  induction m with
  | nil => rfl
  | cons p r ih =>
    obtain ⟨j, v⟩ := p
    by_cases h : j = k
    · simpa [SMap.del, h] using ih
    · simpa [SMap.del, SMap.find, h] using ih

theorem setReg_reg_self {i v} : (s.setReg i v).reg i = v := SMap.get_put_self _ _ _ _

theorem setReg_reg_ne {i j v} (h : j ≠ i) : (s.setReg i v).reg j = s.reg j := SMap.get_put_ne _ _ _ _ _ h.symm

theorem cacheSize : Claims.CacheSize := by
  refine ⟨fun s slice u => ⟨fun hu => ?_, fun hs hu hr => ?_⟩, fun s slice u _ hu h => ?_⟩
  · exact congrArg Host.Outcome.next (if_pos (.inr (.inl hu)))
  · have hn : ¬(64 ≤ slice ∨ 16 < u.toNat ∨ rangeInCache s slice u.toNat = true) := by simp [hr]; omega
    refine ⟨_, congrArg Host.Outcome.next (if_neg hn), SMap.get_put_self _ _ _ _, ?_, cleanSlice_cores, cleanSlice_regs,
      fun j hj => ?_, cleanSlice_sameMemories⟩
    · simp [SMap.find_put]
    · exact (SMap.get_put_ne _ _ _ _ _ hj.symm).trans (cleanSlice_cacheOf_ne hj)
  · have he : exec (.cache_resize_done slice) s
        = .next { s.setReg (0x840 + slice) (.ofNat 64 (u + 32)) with resizing := s.resizing.del slice } := by
      change execCacheResizeDone slice s = _
      simp [execCacheResizeDone, h]
    have hf : fieldOf (BitVec.ofNat 64 (u + 32)) 4 0 = u := by
      simp [fieldOf, bitsOf]; omega
    have hreg : (s.setReg (0x840 + slice) (.ofNat 64 (u + 32))).reg (0x840 + slice) = .ofNat 64 (u + 32) := setReg_reg_self
    refine ⟨_, he, (congrArg (fieldOf · 4 0) hreg).trans hf, ?_, SMap.find_del_self _ _, fun i hi => setReg_reg_ne hi, rfl⟩
    change 2 ^ 22 - 2 ^ 18 * fieldOf ((s.setReg (0x840 + slice) (.ofNat 64 (u + 32))).reg (0x840 + slice)) 4 0 = _
    rw [hreg, hf]

/-! ## Partitions (R344) -/

/-- The bits `hi` to 0 of a word, as a mask gives them. -/
theorem ofNat_fieldOf_low {v : Word} {hi : Nat} (h : hi < 64) :
    BitVec.ofNat 64 (fieldOf v hi 0) = v &&& BitVec.ofNat 64 (2 ^ (hi + 1) - 1) := by
  have hlt : 2 ^ (hi + 1) - 1 < 2 ^ 64 := by
    have := Nat.pow_le_pow_right (n := 2) (by omega) (show hi + 1 ≤ 64 by omega)
    omega
  apply BitVec.eq_of_toNat_eq
  rw [BitVec.toNat_and, BitVec.toNat_ofNat, BitVec.toNat_ofNat, Nat.mod_eq_of_lt hlt, Nat.and_two_pow_sub_one_eq_mod]
  simp only [fieldOf, bitsOf, Nat.pow_zero, Nat.div_one, Nat.sub_zero]
  exact Nat.mod_eq_of_lt (Nat.lt_of_le_of_lt (Nat.mod_le _ _) v.isLt)

theorem getLsbD_ofNat_fieldOf {v : Word} {hi i : Nat} (h : hi < 64) (hi' : i ≤ hi) :
    (BitVec.ofNat 64 (fieldOf v hi 0)).getLsbD i = v.getLsbD i := by
  have h1 : i < 64 := by omega
  have h2 : i < hi + 1 - 0 := by omega
  simp only [BitVec.getLsbD_ofNat, fieldOf, bitsOf, Nat.testBit_mod_two_pow, Nat.pow_zero, Nat.div_one, BitVec.testBit_toNat, h1, h2,
    decide_true, Bool.true_and]

/-- A field is its bits. -/
theorem fieldOf_congr {v w : Word} {hi lo : Nat} (h : ∀ i, lo ≤ i → i ≤ hi → v.getLsbD i = w.getLsbD i) :
    fieldOf v hi lo = fieldOf w hi lo := by
  apply Nat.eq_of_testBit_eq
  intro i
  simp only [fieldOf, bitsOf, Nat.testBit_mod_two_pow, Nat.testBit_div_two_pow, BitVec.testBit_toNat]
  by_cases hi' : i < hi + 1 - lo
  · rw [h (i + lo) (by omega) (by omega)]
  · simp [hi']

/-- Setting or clearing bit 0 leaves the other bits. -/
theorem getLsbD_or_one {w : Word} {i : Nat} (h : 1 ≤ i) : (w ||| 1).getLsbD i = w.getLsbD i := by
  simp [BitVec.getLsbD_one]; omega

theorem getLsbD_and_not_one {w : Word} {i : Nat} (h : 1 ≤ i) : (w &&& ~~~1).getLsbD i = w.getLsbD i := by
  by_cases hi : i < 64
  · have h1 : (1 : Word).getLsbD i = false := by simp [BitVec.getLsbD_one]; omega
    rw [BitVec.getLsbD_and, BitVec.getLsbD_not, h1]
    simp [hi]
  · simp [BitVec.getLsbD_of_ge _ _ (Nat.le_of_not_lt hi)]

theorem exists_getLsbD_of_ne_zero {w : Word} (h : w ≠ 0) : ∃ i, i < 64 ∧ w.getLsbD i = true := by
  by_contra hn
  push Not at hn
  exact h (BitVec.eq_of_getLsbD_eq fun i hi => by simpa using hn i hi)

theorem partReg_eq_zero {p n} (hn : n ∈ [1, 2, 3, 4, 5]) (h : ∀ c, c < 320 → partHasCore s p c = false) : partReg s p n = 0 := by
  by_contra hz
  obtain ⟨i, hi, hb⟩ := exists_getLsbD_of_ne_zero hz
  have hn' : 1 ≤ n ∧ n ≤ 5 := by fin_cases hn <;> decide
  have hc := h (64 * (n - 1) + i) (by omega)
  rw [partHasCore, show (64 * (n - 1) + i) % 64 = i by omega, show 1 + (64 * (n - 1) + i) / 64 = n by omega, hb] at hc
  simp at hc
  omega

theorem canEnable_of_no_core {p w} (h : ∀ c, c < 320 → partHasCore s p c = false) : canEnable s p w = false := by
  have : [1, 2, 3, 4, 5].any (fun n => partReg s p n != 0) = false := by
    simp only [List.any_eq_false]
    intro n hn
    simp [partReg_eq_zero hn h]
  simp only [canEnable, this, Bool.false_and]

theorem partLap_of_core {p q c w} (hp : partHasCore s p c = true) (hq : partHasCore s q c = true) : partLap s p q w = true := by
  simp only [partHasCore, Bool.and_eq_true, decide_eq_true_eq] at hp hq
  obtain ⟨hc, hpc⟩ := hp
  have hn : 1 + c / 64 ∈ [1, 2, 3, 4, 5, 6, 7, 13] := by
    have : c / 64 < 5 := by omega
    interval_cases c / 64 <;> decide
  have hne : partReg s p (1 + c / 64) &&& partReg s q (1 + c / 64) ≠ 0 := by
    intro h0
    have := congrArg (·.getLsbD (c % 64)) h0
    simp [hpc, hq.2] at this
  have hany : [1, 2, 3, 4, 5, 6, 7, 13].any (fun n => partReg s p n &&& partReg s q n != 0) = true :=
    List.any_eq_true.mpr ⟨_, hn, bne_iff_ne.mpr hne⟩
  simp only [partLap, hany, Bool.true_or]

theorem canEnable_of_lap {p q w} (hq : q < 16) (hne : q ≠ p) (hon : partOn s q = true) (hlap : partLap s p q w = true) :
    canEnable s p w = false := by
  have : (List.range 16).any (fun q => q != p && partOn s q && partLap s p q w) = true :=
    List.any_eq_true.mpr ⟨q, List.mem_range.mpr hq, by simp [hne, hon, hlap]⟩
  simp [canEnable, this]

/-- PART_MAP after a write with EN 1: the fields of `w`, and EN as the enabling decides. -/
def enabledMap (s : State) (p : Nat) (w : Word) : Word := if canEnable s p w then w ||| 1 else w &&& ~~~1

theorem enabledMap_getLsbD_zero {p w} : (enabledMap s p w).getLsbD 0 = canEnable s p w := by
  unfold enabledMap
  split
  · next h => simp [h]
  · next h => simp [h]

theorem enabledMap_getLsbD {p w i} (h : 1 ≤ i) : (enabledMap s p w).getLsbD i = w.getLsbD i := by
  unfold enabledMap
  split
  · exact getLsbD_or_one h
  · exact getLsbD_and_not_one h

theorem exec_partition_enable {p v} (hp : p < 16) (hoff : partOn s p = false) :
    exec (.partition_enable p v) s = .next (s.setReg (0xB00 + 16 * p) (enabledMap s p (v &&& 0x3FFFFFFFFFF))) := by
  have hw : BitVec.ofNat 64 (fieldOf v 41 0) = v &&& 0x3FFFFFFFFFF := ofNat_fieldOf_low (by omega)
  have hn : ¬(16 ≤ p ∨ partOn s p = true) := by simp [hoff]; omega
  refine congrArg Host.Outcome.next ((if_neg hn).trans ?_)
  rw [← hw]
  rfl

theorem partReg_setReg_map {p w} : partReg (s.setReg (0xB00 + 16 * p) w) p 0 = w := setReg_reg_self

theorem partOn_setReg_map {p w} : partOn (s.setReg (0xB00 + 16 * p) w) p = w.getLsbD 0 :=
  congrArg (·.getLsbD 0) partReg_setReg_map

theorem exec_partition_disable {p} (hp : p < 16) (hq : ∀ q ∈ s.queues, q.2.on = true → q.2.part ≠ p) :
    exec (.partition_disable p) s = .next (s.setReg (0xB00 + 16 * p) (partReg s p 0 &&& ~~~1)) := by
  have hn : ¬(16 ≤ p ∨ s.queues.any (fun q => q.2.on && q.2.part == p) = true) := by
    rintro (h | h)
    · omega
    · obtain ⟨q, hm, hb⟩ := List.any_eq_true.mp h
      simp only [Bool.and_eq_true, beq_iff_eq] at hb
      exact hq q hm hb.1 hb.2
  exact congrArg Host.Outcome.next (if_neg hn)

theorem partitionEnable : Claims.PartitionEnable := by
  refine ⟨fun s p v hp => ⟨fun hoff => ?_, fun hon => ?_, fun ⟨q, hq, hqon, hqp⟩ => ?_, fun hq => ?_⟩,
    fun s p w hp => ⟨canEnable_of_no_core, ?_⟩⟩
  · refine ⟨_, exec_partition_enable hp hoff, rfl, fun i hi => setReg_reg_ne hi, ?_, ?_⟩
    · rw [partReg_setReg_map]
      refine fieldOf_congr fun i h1 h41 => (enabledMap_getLsbD h1).trans ?_
      have hw : BitVec.ofNat 64 (fieldOf v 41 0) = v &&& 0x3FFFFFFFFFF := ofNat_fieldOf_low (by omega)
      rw [← hw, getLsbD_ofNat_fieldOf (by omega) h41]
    · rw [partOn_setReg_map, enabledMap_getLsbD_zero]
  · exact congrArg Host.Outcome.next (if_pos (.inr hon))
  · exact congrArg Host.Outcome.next (if_pos (.inr (List.any_eq_true.mpr ⟨q, hq, by simp [hqon, hqp]⟩)))
  · refine ⟨_, exec_partition_disable hp hq, rfl, fun i hi => setReg_reg_ne hi, ?_, ?_⟩
    · rw [partOn_setReg_map]
      simp
    · rw [partReg_setReg_map]
      exact fieldOf_congr fun i h1 _ => getLsbD_and_not_one h1
  · rintro ⟨q, c, hq, hne, hon, hpc, hqc⟩
    exact canEnable_of_lap hq hne hon (partLap_of_core hpc hqc)

/-! ## Register writes (R7) -/

theorem exec_register_write {i v} (hi : i < 4096) : exec (.register_write (.ofNat 12 i) v) s = .next (writeReg i v s) := by
  change Host.Outcome.next (writeReg (BitVec.ofNat 12 i).toNat v s) = _
  rw [BitVec.toNat_ofNat, Nat.mod_eq_of_lt hi]

theorem writeReg_table {v} : writeReg 0x800 v s = s.setReg 0x800 (v &&& 0xFFFFFFFFFF) :=
  congrArg (s.setReg 0x800) (ofNat_fieldOf_low (by omega))

theorem writeReg_table_size {v} : writeReg 0x801 v s = s.setReg 0x801 (v &&& 0x1FFFFFFFF) :=
  congrArg (s.setReg 0x801) (ofNat_fieldOf_low (by omega))

theorem writeReg_queues {v} : writeReg 0xC00 v s = s.setReg 0xC00 (v &&& 0xFFFFFFFFFF) :=
  congrArg (s.setReg 0xC00) (ofNat_fieldOf_low (by omega))

theorem writeReg_save_pool {v} : writeReg 0xD80 v s = s.setReg 0xD80 (v &&& 0x1FFFFFFFFFF) :=
  congrArg (s.setReg 0xD80) (ofNat_fieldOf_low (by omega))

theorem writeReg_vectors {v} : writeReg 0xE00 v s = s.setReg 0xE00 (v &&& 0xFFFFFFFFFF) :=
  congrArg (s.setReg 0xE00) (ofNat_fieldOf_low (by omega))

theorem writeReg_pending {m v} (hm : m < 32) : writeReg (0xE08 + m) v s = s.setReg (0xE08 + m) (s.reg (0xE08 + m) &&& ~~~v) := by
  simp (disch := omega) only [writeReg, if_neg, if_pos]

theorem writeReg_sec_policy {v} : writeReg 0xD90 v s = if (s.reg 0xD90).getLsbD 8 then s else s.setReg 0xD90 (v &&& 0x1FF) :=
  congrArg (fun w => if (s.reg 0xD90).getLsbD 8 then s else s.setReg 0xD90 w) (ofNat_fieldOf_low (by omega))

theorem writeReg_boot_status {v} : writeReg 0xE31 v s = s := rfl

theorem writeReg_readonly {n v} (hn : n < 8) : writeReg (0xE38 + n) v s = s := by
  simp (disch := omega) only [writeReg, if_neg]

theorem writeReg_fault_queue {i v} (hi : 0xD00 ≤ i ∧ i < 0xD44) : writeReg i v s = writeFq i v s := by
  simp (disch := omega) only [writeReg, if_neg, if_pos]

theorem writeFq_readonly {i v} (h : (i - 0xD00) % 4 = 2) : writeFq i v s = s := by
  unfold writeFq
  generalize (i - 0xD00) % 4 = n at h ⊢
  subst h
  rfl

theorem writeFq_next {i v} (h : (i - 0xD00) % 4 = 3) : writeFq i v s = s.setReg i (v &&& 0xFFFFFFFF) := by
  unfold writeFq
  generalize (i - 0xD00) % 4 = n at h ⊢
  subst h
  exact congrArg (s.setReg i) (ofNat_fieldOf_low (by omega))

theorem writeReg_fault_readonly {q v} (hq : q < 17) : writeReg (0xD02 + 4 * q) v s = s :=
  (writeReg_fault_queue (by omega)).trans (writeFq_readonly (by omega))

theorem writeReg_fault_next {q v} (hq : q < 17) : writeReg (0xD03 + 4 * q) v s = s.setReg (0xD03 + 4 * q) (v &&& 0xFFFFFFFF) :=
  (writeReg_fault_queue (by omega)).trans (writeFq_next (by omega))

theorem writeReg_band {p v} (hp : p < 16) : writeReg (0xE40 + p) v s
    = s.setReg (0xE40 + p) (.ofNat 64 (fieldOf v 12 0 + fieldOf (s.reg (0xE40 + p)) 23 13 * 2 ^ 13)) := by
  simp (disch := omega) only [writeReg, if_neg, if_pos]

/-- The bits of a word below `n` are its lowest field. -/
theorem ofNat_fieldOf_setWidth {v : Word} {n : Nat} : BitVec.ofNat (n + 1) (fieldOf v n 0) = v.setWidth (n + 1) := by
  apply BitVec.eq_of_toNat_eq
  simp [fieldOf, bitsOf]

theorem ofNat_fieldOf_high {v : Word} : BitVec.ofNat 32 (fieldOf v 63 32) = v.extractLsb' 32 32 := by
  apply BitVec.eq_of_toNat_eq
  simp [fieldOf, bitsOf, Nat.shiftRight_eq_div_pow]

theorem writeReg_cache_units {k v} (hk : k < 64) : .next (writeReg (0x840 + k) v s) = exec (.cache_units k (v.setWidth 5)) s := by
  simp (disch := omega) only [writeReg, if_neg, if_pos]
  rw [Nat.add_sub_cancel_left, ofNat_fieldOf_setWidth]
  rfl

theorem writeReg_kiln_recal {c v} (hc : c < 320) : .next (writeReg (0x900 + c) v s) = exec (.kiln_recal c (v.setWidth 16)) s := by
  simp (disch := omega) only [writeReg, if_neg, if_pos]
  rw [Nat.add_sub_cancel_left, ofNat_fieldOf_setWidth]
  rfl

theorem writeReg_core_online {m v} (hm : m < 5) : .next (writeReg (0xE50 + m) v s) = exec (.core_online m v) s := by
  simp (disch := omega) only [writeReg, if_neg, if_pos]
  rw [Nat.add_sub_cancel_left]
  rfl

theorem writeReg_queue {v} :
    .next (writeReg 0xC01 v s) = exec (if v.getLsbD 10 then .queue_on (fieldOf v 9 0) else .queue_off (fieldOf v 9 0)) s := by
  change Host.Outcome.next (if v.getLsbD 10 then turnOn (fieldOf v 9 0) s else turnOff (fieldOf v 9 0) s) = _
  split <;> rfl

theorem writeReg_cancel {v} : .next (writeReg 0xC02 v s) = exec (.qm_cancel (fieldOf v 1 0) (fieldOf v 5 2) (v.extractLsb' 32 32)) s := by
  rw [← ofNat_fieldOf_high]
  rfl

theorem registerWrites : Claims.RegisterWrites := by
  intro s v wr
  have hw (i : Nat) (hi : i < 4096) : wr i = .next (writeReg i v s) := exec_register_write hi
  have put (i : Nat) (hi : i < 4096) (t : State) (ht : writeReg i v s = t) : wr i = .next t := (hw i hi).trans (congrArg _ ht)
  refine ⟨put _ (by omega) _ writeReg_table, put _ (by omega) _ writeReg_table_size, put _ (by omega) _ writeReg_queues,
    put _ (by omega) _ writeReg_save_pool, put _ (by omega) _ writeReg_vectors, fun m hm => put _ (by omega) _ (writeReg_pending hm),
    put _ (by omega) _ rfl, put _ (by omega) _ writeReg_sec_policy, put _ (by omega) _ rfl, fun n hn => put _ (by omega) _ (writeReg_readonly hn),
    fun q hq => ⟨put _ (by omega) _ (writeReg_fault_readonly hq), put _ (by omega) _ (writeReg_fault_next hq)⟩, fun p hp => ?_,
    fun k hk => (hw _ (by omega)).trans (writeReg_cache_units hk), fun c hc => (hw _ (by omega)).trans (writeReg_kiln_recal hc),
    (hw _ (by omega)).trans writeReg_queue, (hw _ (by omega)).trans writeReg_cancel, (hw _ (by omega)).trans rfl,
    (hw _ (by omega)).trans rfl, (hw _ (by omega)).trans rfl, fun m hm => (hw _ (by omega)).trans (writeReg_core_online hm)⟩
  refine ⟨_, put _ (by omega) _ (writeReg_band hp), rfl, ?_, ?_, fun i hi => setReg_reg_ne hi⟩
  · rw [setReg_reg_self]
    simp [fieldOf, bitsOf]
  · rw [setReg_reg_self]
    simp [fieldOf, bitsOf]; omega

end Sys2Proof.Machine
end

/-! ## O40 -/
section
namespace Sys2Proof.Machine

/-- Settles O40, from its three claims. -/
theorem partitionsAndCaches : Obligations.PartitionsAndCaches := ⟨cacheSize, partitionEnable, registerWrites⟩

end Sys2Proof.Machine
end

/-! # What a step runs (O57) -/
section
namespace Sys2Proof.Machine
variable {s : State}

theorem step_of_powered (h : s.off = false) : step s = nextMove s := if_neg (by simp [h])

theorem step_of_busy {k i rest} (h : s.off = false) (hb : busyCrew s = some (k, i, rest)) : step s = itemTurn k i rest s := by
  rw [step_of_powered h, nextMove, hb]

theorem step_of_turn {t ts} (h : s.off = false) (hb : busyCrew s = none) (ha : s.agenda = t :: ts) :
    step s = turn t { s with agenda := ts } := by
  rw [step_of_powered h, nextMove, hb, ha]

/-- The state in which the item that a crew had next is done. -/
def itemTaken (s : State) (k : Nat) (rest : List Work) : State := s.updCrew k (fun w => { w with todo := rest })

/-- An item that is over with its outcome: the outcome is the step's. -/
theorem itemTurn_of_over {k i rest o} (h : runItem k i (itemTaken s k rest) = (o, fun _ => true)) : itemTurn k i rest s = o := by
  rw [itemTaken] at h
  rw [itemTurn, h]
  cases o <;> rfl

/-- What a fault of the word at a context's place names (R367). -/
def Ctx.origin (x : Ctx) (l : BitVec 512) : Origin :=
  { engine := 0, w0 := (lineWord l x.word).setWidth 64, line := x.line, word := x.word - x.words }

/-- What a fault of the entry at a stream's place names (R367). -/
def Stream.origin (t : Stream) (u : Nat) (l : BitVec 512) : Origin :=
  { engine := u + 1, w0 := lineSlot l t.slot, line := t.line, word := 1 + 2 * t.slot }

theorem fetchSeq_of_word {core fw x l i} (hx : (s.core core).ctx fw = x) (hl : fetchLine s core x.obj x.line = .ok l) (h1 : 1 ≤ x.word)
    (h15 : x.word ≤ 15) (hi : decodeSeq (lineWord l x.word) (if x.word < 15 then some (lineWord l (x.word + 1)) else none) = .ok i) :
    fetchSeq s core fw = .ok (i, x.origin l) := by
  have hw : ¬(x.word = 0 ∨ 15 < x.word) := by omega
  simp only [fetchSeq, hx, hl, if_neg hw, hi, Ctx.origin]

theorem fetchEntry_of_slot {core u t l i} (ht : (s.core core).stream u = t) (hl : fetchLine s core t.obj t.line = .ok l) (h7 : t.slot < 7)
    (hf : entryFail (u + 1) (lineSlot l t.slot) = none ∨ entryFail (u + 1) (lineSlot l t.slot) = some .range)
    (hi : decodeEntry (lineSlot l t.slot) = .ok i) :
    fetchEntry s core u = .ok (i, t.origin u l) := by
  have hw : ¬(7 ≤ t.slot ∨ ((entryFail (u + 1) (lineSlot l t.slot)).isSome = true ∧ entryFail (u + 1) (lineSlot l t.slot) ≠ some .range)) := by
    rcases hf with hf | hf <;> simp [hf] <;> omega
  simp only [fetchEntry, ht, hl, if_neg hw, hi, Stream.origin]

theorem wordsStep : Claims.WordsStep := by
  intro s k core fw rest l i s0 x o hoff hb hl h1 h15 hi _
  have hrun : runItem k (.seq core fw) s0
      = (exec i (focusOn { core := core, fw := fw, org := o } s0), fun s' => !midBundle s0 s' core fw) := by
    rw [runItem, fetchSeq_of_word rfl hl h1 h15 hi]
    rfl
  have hstep : step s = itemTurn k (.seq core fw) rest s := step_of_busy hoff hb
  rw [itemTurn, show s.updCrew k (fun w => { w with todo := rest }) = s0 from rfl, hrun] at hstep
  refine ⟨fun t ht => ?_, fun f hf => ?_, fun r hr => ?_⟩
  · rw [hstep, ht]
    by_cases hm : ((s0.core core).ctx fw).words < ((t.core core).ctx fw).words <;> simp [midBundle, hm]
  · rw [hstep, hf]
  · rw [hstep, hr]

theorem entriesStep : Claims.EntriesStep := by
  intro s k core u rest l i s0 x w o hoff hb hl h7 hf hi
  rw [step_of_busy hoff hb]
  refine itemTurn_of_over ?_
  change runItem k (.stream core u) s0 = _
  rw [runItem, fetchEntry_of_slot rfl hl h7 hf hi]
  rfl

theorem matrixStep : Claims.MatrixStep := by
  intro s k core rest c q i s0 hoff hb hact hq hhead hstart hi
  have hwait : ¬(s0.clock core < max (s0.core core).mx.headAt (c.pushed + 1) ∨ s0.clock core < c.start) := by omega
  have hlate : ¬c.start < s0.clock core := by omega
  rw [step_of_busy hoff hb]
  refine itemTurn_of_over (Prod.ext ?_ rfl)
  change matrixItem core s0 = _
  simp only [matrixItem, hact, hq, if_neg hwait, if_neg hlate, hi]

theorem cmdTurn_of_queued {id c i} (hc : s.cmds.find id = some c) (hq : c.st = .queued) (hi : decodePort c.word = .ok i) :
    cmdTurn id s = exec i (focusOn { core := c.core.getD 0, fw := c.isFw, cmd := id } s) := by
  simp only [cmdTurn, hc, hq, Cmd.instr, hi]

theorem recordTurn_of_stream {id r i} (hr : s.recs.find id = some r) (hs : r.st = .stream) (hi : decodeRecord r.word = .ok i) :
    recordTurn id s = exec i (focusOn { record := id } s) := by
  simp only [recordTurn, hr, hs, hi]

theorem turnsStep : Claims.TurnsStep := by
  intro s ts s0
  refine ⟨fun hoff hb => ⟨fun i ha => step_of_turn hoff hb ha, fun id c i ha hc hq hi => ?_, fun id r i ha hr hs hi => ?_⟩,
    fun hoff ha => ?_, fun hoff ha => ?_⟩
  · exact (step_of_turn hoff hb ha).trans (cmdTurn_of_queued (s := s0) hc hq hi)
  · exact (step_of_turn hoff hb ha).trans (recordTurn_of_stream (s := s0) hr hs hi)
  · refine (if_pos hoff).trans ?_
    rw [ha]
    rfl
  · refine (if_pos hoff).trans ?_
    split
    · next ts' h => exact absurd h (ha ts')
    · rfl

/-- Settles O57, from its four claims. -/
theorem stepRunsDecoded : Obligations.StepRunsDecoded := ⟨wordsStep, entriesStep, matrixStep, turnsStep⟩

end Sys2Proof.Machine
end

/-! # Streams armed and disarmed (O10) -/
section
namespace Sys2Proof.Machine
variable {s : State}

/-- The two ways of writing the offset of a target give one number: an immediate of at most 12 bits, with the 29 above it, fits a word. -/
theorem wideImm_toInt {w : Nat} (hw : w ≤ 35) (imm : BitVec w) (x : Option (BitVec 29)) : (wideImm imm x).toInt = extImm imm x := by
  cases x with
  | none => exact BitVec.toInt_signExtend_of_le (by omega)
  | some v => exact BitVec.toInt_signExtend_of_le (by omega)

theorem armPriv_of_program (h : s.focus.fw = false) : armPriv s = false := by simp [armPriv, h]

theorem armPriv_of_running (h : s.focus.fw = true) (hf : s.frozen s.focus.core = false) : armPriv s = true := by simp [armPriv, h, hf]

theorem armCycle_of_program (h : s.focus.fw = false) : armCycle s = s.now0 := by simp [armCycle, h]

/-- Stream `u` is one the launch may arm: a station's, or of a bank that it reserves (R27). -/
def mayArm (u : Nat) (s : State) : Prop := 8 ≤ u ∨ hasBank u s = true

theorem mayArm_iff {u} : mayArm u s ↔ (decide (u < 8) && !hasBank u s) = false := by
  simp only [mayArm, Bool.and_eq_false_iff, decide_eq_false_iff_not, Nat.not_lt, Bool.not_eq_false']

theorem Stream.busy_iff {t : Stream} {c : Nat} : t.busy c = true ↔ (t.active = true ∧ t.start ≤ c) ∨ (t.active = false ∧ c < t.base) := by
  cases h : t.active <;> simp [Stream.busy, h]

theorem Stream.busy_eq_false {t : Stream} {c : Nat} (h1 : t.active = true → c < t.start) (h2 : t.active = false → t.base ≤ c) :
    t.busy c = false := by
  cases h : t.active
  · simpa [Stream.busy, h] using h2 h
  · simpa [Stream.busy, h] using h1 h

/-! ## `arm` and `disarm` in the program context -/

theorem exec_arm_of_program {e stream a loff x} (h : s.focus.fw = false) :
    exec (.arm e stream a loff x) s = .next (seqDone e x.isSome (armStream stream.toNat (extImm loff x) ((s.g a).toNat % 2 ^ 48) s)) :=
  if_neg (by simp [armPriv_of_program h])

theorem exec_arm_of_running {e stream a loff x} (h : s.focus.fw = true) (hf : s.frozen s.focus.core = false) :
    exec (.arm e stream a loff x) s = .next (seqDone e x.isSome (raise (seqFault 2) 0 0 s)) :=
  if_pos (armPriv_of_running h hf)

theorem exec_disarm_of_running {e stream x} (h : s.focus.fw = true) (hf : s.frozen s.focus.core = false) :
    exec (.disarm e stream x) s = .next (seqDone e x.isSome (raise (seqFault 2) 0 0 s)) :=
  if_pos (armPriv_of_running h hf)

theorem exec_disarm_of_denied {e stream x} (h : s.focus.fw = false) (hu : ¬mayArm stream.toNat s) :
    exec (.disarm e stream x) s = .next (seqDone e x.isSome (raise allotUse 0 0 s)) :=
  (if_neg (by simp [armPriv_of_program h])).trans (if_pos (by simpa [mayArm_iff] using hu))

/-- A stream that `disarm` has stopped (R30). -/
def Stream.disarmed (t : Stream) : Stream := { t with active := false, base := 0 }

theorem exec_disarm_of_program {e stream x} (h : s.focus.fw = false) (hu : mayArm stream.toNat s) :
    exec (.disarm e stream x) s = .next (seqDone e x.isSome (s.updF (·.updStream stream.toNat Stream.disarmed))) :=
  (if_neg (by simp [armPriv_of_program h])).trans (if_neg (by simp [mayArm_iff.mp hu]))

section
variable {u start : Nat} {off : Int}

theorem armStream_of_denied (hu : ¬mayArm u s) : armStream u off start s = raise allotUse 0 0 s :=
  if_pos (by simpa [mayArm_iff] using hu)

variable (hp : s.focus.fw = false)
include hp

theorem armStream_of_busy (hu : mayArm u s) (hb : (s.fcore.stream u).busy s.now0 = true) : armStream u off start s = raise (timing 7) 0 0 s := by
  simp [armStream, mayArm_iff.mp hu, armCycle_of_program hp, hb]

theorem armStream_of_late (hu : mayArm u s) (hb : (s.fcore.stream u).busy s.now0 = false) (hs : start ≤ s.now0) :
    armStream u off start s = raise (timing 6) 0 0 s := by
  simp [armStream, mayArm_iff.mp hu, armCycle_of_program hp, hb, hs]

theorem armStream_of_free (hu : mayArm u s) (hb : (s.fcore.stream u).busy s.now0 = false) (hs : s.now0 < start)
    (hl : 0 ≤ s.ctx.line + off ∧ s.ctx.line + off < 2 ^ 25) :
    armStream u off start s
      = s.updF (fun k => k.updStream u (fun t => ⟨true, start, s.ctx.obj, (s.ctx.line + off).toNat, 0, start, t.rd, {}⟩)) := by
  have hs' : ¬(start : Int) ≤ s.now0 := by omega
  simp only [armStream, mayArm_iff.mp hu, armCycle_of_program hp, hb, if_neg hs', if_pos hl, Bool.false_eq_true, if_false]

end

theorem armStartsStream : Claims.ArmStartsStream := by
  intro s e stream a loff x u start line t hp hu h1 h2 hs hl
  have himm : (wideImm loff x).toInt = extImm loff x := wideImm_toInt (by omega) loff x
  have hline : line = s.ctx.line + extImm loff x := congrArg (fun i : Int => (s.ctx.line : Int) + i) himm
  rw [exec_arm_of_program hp, armStream_of_free hp hu (Stream.busy_eq_false h1 h2) hs (hline ▸ hl), ← hline]
  rfl

theorem armFaults : Claims.ArmFaults := by
  intro s e stream a loff x u start t bad
  refine ⟨fun hf hz => ⟨exec_arm_of_running hf hz, exec_disarm_of_running hf hz⟩, fun hp hu hb => ?_, fun hp hu => ⟨fun hb => ?_, fun h1 h2 hs => ?_⟩⟩
  · have hn : ¬mayArm u s := by simp [mayArm, hb]; omega
    exact ⟨(exec_arm_of_program hp).trans (by rw [armStream_of_denied hn]), exec_disarm_of_denied hp hn⟩
  · exact (exec_arm_of_program hp).trans (by rw [armStream_of_busy hp hu (Stream.busy_iff.mpr hb)])
  · exact (exec_arm_of_program hp).trans (by rw [armStream_of_late hp hu (Stream.busy_eq_false h1 h2) hs])

theorem Core.stream_updStream (k : Core) (u : Nat) (f : Stream → Stream) (v : Nat) :
    (k.updStream u f).stream v = if u = v then f (k.stream u) else k.stream v := SMap.get_put _ _ _ _ _

theorem onlyCore_updF (f : Core → Core) : onlyCore s.focus.core s (s.updF f) := ⟨rfl, fun _ => State.core_updF_ne s f _⟩

theorem disarmStopsStream : Claims.DisarmStopsStream := by
  intro s e stream x u hp hu
  have hk : (s.updF (·.updStream u Stream.disarmed)).fcore = s.fcore.updStream u Stream.disarmed := State.fcore_updF _ _
  have ht : (s.fcore.updStream u Stream.disarmed).stream u = (s.fcore.stream u).disarmed := by rw [Core.stream_updStream, if_pos rfl]
  refine ⟨_, exec_disarm_of_program hp hu, ?_, ?_, ?_, fun v hv => ?_, onlyCore_updF _, ?_⟩
  · rw [hk, ht]
    rfl
  · rw [hk, ht]
    simp [Stream.busy, Stream.disarmed]
  · rw [hk, ht]
    rfl
  · rw [hk, Core.stream_updStream, if_neg (Ne.symm hv)]
  · rw [hk]
    rfl

/-- Settles O10, from its three claims. -/
theorem streamsArmed : Obligations.StreamsArmed := ⟨armStartsStream, armFaults, disarmStopsStream⟩

end Sys2Proof.Machine
end

/-! # Exits, traps and the waits of a context (O9) -/
section
namespace Sys2Proof.Machine
variable {s : State}

theorem immWord_eq_wideImm {w : Nat} (hw : w ≤ 35) (imm : BitVec w) (x : Option (BitVec 29)) : immWord imm x = wideImm imm x := by
  rw [immWord, ← wideImm_toInt hw, BitVec.ofInt_toInt]

theorem exitTrapReturn : Claims.ExitTrapReturn := by
  intro s e imm x
  refine ⟨rfl, fun h => ⟨if_neg (by simp [h]), ?_, if_pos (by simp [h])⟩, fun h => ⟨if_pos h, if_pos h, if_neg (by simp [h])⟩⟩
  rw [← immWord_eq_wideImm (by omega) imm x]
  exact if_neg (by simp [h])

/-! ## A trap is taken (R151, R370, R372) -/

/-- The TRAP request that a trap of the word in focus makes. -/
def trapRequest (code : Nat) (s : State) : FwReq := ⟨1, s.now, s.focus.core, trapWords s code, 0⟩

theorem takeTrap_eq (code : Nat) (s : State) :
    takeTrap code s = s.updF (fun k => { k with fwq := k.fwq ++ [trapRequest code s], trapCode := .ofNat 8 code }) :=
  State.updF_updF s (fun k => { k with fwq := k.fwq ++ [trapRequest code s] }) (fun k => { k with trapCode := .ofNat 8 code })

theorem trapTaken : Claims.TrapTaken := by
  intro s code c t
  have ht : t = s.updF (fun k => { k with fwq := k.fwq ++ [trapRequest code s], trapCode := .ofNat 8 code }) := takeTrap_eq code s
  have hk : t.core c = { s.core c with fwq := (s.core c).fwq ++ [trapRequest code s], trapCode := .ofNat 8 code } := by
    rw [ht]
    exact State.core_updCore_self _ _ _
  refine ⟨ht ▸ onlyCore_updF _, by rw [hk], ⟨trapWords s code, rfl, rfl, rfl, by rw [hk]; rfl⟩, by rw [hk], ?_⟩
  rw [hk]
  simp [Core.fwHolds, trapRequest, FwReq.group]

/-! ## The ends of waits (R137, R138, R148) -/

theorem Ctx.land_reg (x : Ctx) (d : Reg) (v : Word) :
    x.land ⟨0, false, d.toNat, v⟩ = if d = 0 then x else { x with g := SMap.set 0 x.g d.toNat v } := by
  by_cases h : d = 0
  · simp [Ctx.land, h]
  · have : d.toNat ≠ 0 := fun h0 => h (BitVec.eq_of_toNat_eq h0)
    rw [if_neg h]
    exact if_neg this

/-- The context of a core and its kind goes on, changed by `f`, its wait over. -/
def freed (core : Nat) (fw : Bool) (f : Ctx → Ctx) (s : State) : State := updCtxOf core fw (fun x => f { x with wait := .none }) s

/-- The register of an `idle` takes the outcome (R138). -/
def gets (d : Reg) (v : Word) (x : Ctx) : Ctx := if d = 0 then x else { x with g := SMap.set 0 x.g d.toNat v }

section
variable {core : Nat} {fw : Bool}

theorem exec_sync_release {t} (h : ((s.core core).ctx fw).wait = .sync t) : exec (.sync_release core fw) s
    = .next (if t ≤ s.clock core ∨ (fw = true ∧ s.still core = true) then freed core fw id s else s) := by
  change execSyncRelease core fw s = _
  simp only [execSyncRelease, h]
  rfl

theorem exec_fence_complete {scope n} (h : ((s.core core).ctx fw).wait = .fence scope n) : exec (.fence_complete core fw) s
    = .next (if fenceHolds core fw scope n s then freed core fw id s else s) := by
  change execFenceComplete core fw s = _
  simp only [execFenceComplete, h]
  rfl

/-- A semaphore of the core has changed since the context last looked (R138). -/
def semMoved (s : State) (core : Nat) (fw : Bool) : Bool := if fw then (s.core core).fwMoved else (s.core core).hsemMoved

/-- The limit of an `idle` under a crew has come (R138). -/
def limitReached (s : State) (core : Nat) (fw : Bool) (limit : Option Nat) : Bool :=
  limit.any (fun t => if fw then t = 0 else decide (t ≤ s.clock core))

theorem exec_idle_wake {limit d} (h : ((s.core core).ctx fw).wait = .idle limit d) (hc : (s.crewOf core).isSome = true) :
    exec (.idle_wake core fw) s = .next (if semMoved s core fw || limitReached s core fw limit
      then freed core fw (gets d (if semMoved s core fw then 1 else 0)) s else s) := by
  change execIdleWake core fw s = _
  simp only [execIdleWake, h, hc, Bool.and_true, Ctx.land_reg]
  cases limit with
  | none => simp [semMoved, limitReached, Option.isNone_iff_eq_none, Option.isSome_iff_ne_none.mp hc]; rfl
  | some t => rfl

/-- Nothing of the context's own core is still to land or to count: what a `fence` of any scope waits for (R148). -/
def ownSettled (s : State) (core : Nat) (fw : Bool) : Prop :=
  (∀ p ∈ (s.core core).pend, ∀ u i r, p.eff ≠ .setOf fw u i r) ∧ (∀ c ∈ (s.core core).hsemPend, c.src ≠ some (core, fw))

/-- No `hsig` at another core and no command numbered below `n` of the context is still to count (R148). -/
def crewSettled (s : State) (core : Nat) (fw : Bool) (n : Nat) : Prop :=
  (∀ p ∈ s.cores, ∀ c ∈ p.2.hsemPend, c.src ≠ some (core, fw)) ∧ ∀ p ∈ s.cmds, p.1 < n → ∀ r, p.2.issuer ≠ .ctx core fw r

/-- No sector of the scope that the context's commands left dirty is dirty still (log entry 89). -/
def scopeSeen (s : State) (core : Nat) (fw : Bool) (scope : Nat) : Prop :=
  ∀ d ∈ ((s.core core).ctx fw).unseen, scopeSel scope d.2 = true → ((s.cacheOf d.1).find d.2).any (·.dirty) = false

theorem fenceHolds_iff {scope n} : fenceHolds core fw scope n s = true
    ↔ ownSettled s core fw ∧ (scope ≠ 0 → crewSettled s core fw n ∧ scopeSeen s core fw scope) := by
  simp only [fenceHolds, Bool.and_eq_true, Bool.or_eq_true, Bool.not_eq_true', List.any_eq_false, Bool.not_eq_true, beq_iff_eq,
    decide_eq_true_eq, or_iff_not_imp_left, not_and]
  refine and_congr (and_congr (forall₂_congr fun p _ => ?_) Iff.rfl) (imp_congr_right fun _ => and_congr (and_congr Iff.rfl
    (forall₂_congr fun p _ => imp_congr_right fun _ => ?_)) Iff.rfl)
  · cases p.eff with
    | setOf f u i r => exact ⟨fun h _ _ _ he => by cases he; simp at h, fun h => beq_eq_false_iff_ne.mpr fun he => h u i r (he ▸ rfl)⟩
    | _ => simp
  · cases p.2.issuer with
    | ctx k f r => simp
    | record r => simp

end

theorem widerWaits : Claims.WiderWaits := by
  intro s core fw k f g
  refine ⟨fun t ht => ⟨fun h => ?_, fun h1 h2 => ?_⟩, fun limit d hw hc => ⟨fun hm => ?_, fun hm => ⟨fun hl => ?_, fun hf hl => ?_, fun hf n hl => ?_⟩⟩,
    fun scope n hw => ⟨fun h => ?_, fun h => ?_⟩⟩
  · exact (exec_sync_release ht).trans (by rw [if_pos h]; rfl)
  · have hn : ¬(t ≤ s.clock core ∨ (fw = true ∧ s.still core = true)) := by
      rintro (h | ⟨h, h'⟩)
      · omega
      · rcases h2 with h2 | h2
        · exact absurd (h2.symm.trans h) (by decide)
        · exact absurd (h2.symm.trans h') (by decide)
    exact (exec_sync_release ht).trans (by rw [if_neg hn])
  · exact (exec_idle_wake hw hc).trans (by rw [show semMoved s core fw = true from hm]; rfl)
  · exact (exec_idle_wake hw hc).trans (by rw [show semMoved s core fw = false from hm, hl]; rfl)
  · subst hf
    exact (exec_idle_wake hw hc).trans (by rw [show semMoved s core true = false from hm, hl]; rfl)
  · subst hf
    exact (exec_idle_wake hw hc).trans (by rw [show semMoved s core true = false from hm, hl]; rfl)
  · exact (exec_fence_complete hw).trans (by rw [if_pos (fenceHolds_iff.mpr h)]; rfl)
  · exact (exec_fence_complete hw).trans (by rw [if_neg (fun h' => h (fenceHolds_iff.mp h'))])

end Sys2Proof.Machine
end

/-! ## After `exit` every pending write lands (R29, R123, R135)

A register and a predicate are read alike: as a slot of the context. What a slot holds in the end is decided while writes are still
pending; landing the writes of one boundary does not change it, and where none is pending it is what the slot holds. -/
section
namespace Sys2Proof.Machine
variable {s : State} {x : Ctx} {pred : Bool} {i : Nat} {v : Word}

/-- The register or predicate with this index as a word; a predicate is 0 or 1. -/
def Ctx.slot (x : Ctx) (pred : Bool) (i : Nat) : Word := if pred then (if SMap.get false x.p i then 1 else 0) else SMap.get 0 x.g i

/-- What a slot holds after a write. -/
def RegWrite.leaves (w : RegWrite) : Word := if w.pred then (if w.value != 0 then 1 else 0) else w.value

/-- A write is to this slot. -/
def RegWrite.hits (w : RegWrite) (pred : Bool) (i : Nat) : Bool := w.pred == pred && w.index == i

theorem Ctx.slot_land (w : RegWrite) (hi : i ≠ 0) : (x.land w).slot pred i = if w.hits pred i then w.leaves else x.slot pred i := by
  obtain ⟨due, p, j, u⟩ := w
  by_cases hj : j = 0
  · subst hj
    simp [Ctx.land, RegWrite.hits, Ne.symm hi]
  · cases p <;> cases pred <;> by_cases h : j = i <;>
      simp [Ctx.land, Ctx.slot, RegWrite.hits, RegWrite.leaves, hj, h, hi, SMap.get_set]

theorem Ctx.land_pend (w : RegWrite) : (x.land w).pend = x.pend ∧ (x.land w).bundles = x.bundles := by
  unfold Ctx.land
  split
  · exact ⟨rfl, rfl⟩
  · split <;> exact ⟨rfl, rfl⟩

theorem Ctx.slot_foldl_land_of_none {l : List RegWrite} (hi : i ≠ 0) (h : ∀ w ∈ l, w.hits pred i = false) :
    (l.foldl Ctx.land x).slot pred i = x.slot pred i := by
  induction l generalizing x with
  | nil => rfl
  | cons w l ih =>
    rw [List.forall_mem_cons] at h
    rw [List.foldl_cons, ih h.2, Ctx.slot_land w hi, h.1]
    rfl

/-- The last write to a slot stands. -/
theorem Ctx.slot_foldl_land_of_last {a b : List RegWrite} {w : RegWrite} (hi : i ≠ 0) (hw : w.hits pred i = true)
    (hb : ∀ u ∈ b, u.hits pred i = false) : ((a ++ w :: b).foldl Ctx.land x).slot pred i = w.leaves := by
  rw [List.foldl_append, List.foldl_cons, Ctx.slot_foldl_land_of_none hi hb, Ctx.slot_land w hi, if_pos hw]

theorem Ctx.foldl_land_bundles {l : List RegWrite} : (l.foldl Ctx.land x).bundles = x.bundles := by
  induction l generalizing x with
  | nil => rfl
  | cons w l ih => rw [List.foldl_cons, ih, (Ctx.land_pend w).2]

/-- The context at the end of its next boundary: the writes due there have landed (R123). -/
def Ctx.boundary (x : Ctx) : Ctx := ({ x with bundles := x.bundles + 1 } : Ctx).landWrites

theorem Ctx.boundary_pend : x.boundary.pend = x.pend.filter (fun w => !decide (w.due ≤ x.bundles + 1)) := rfl

theorem Ctx.boundary_bundles : x.boundary.bundles = x.bundles + 1 := Ctx.foldl_land_bundles

theorem Ctx.boundary_slot : x.boundary.slot pred i
    = ((x.pend.filter (fun w => w.due ≤ x.bundles + 1)).foldl Ctx.land { x with bundles := x.bundles + 1 }).slot pred i := rfl

/-- Every pending write falls due in the next `n` boundaries. -/
def Ctx.dueWithin (x : Ctx) (n : Nat) : Prop := ∀ w ∈ x.pend, x.bundles < w.due ∧ w.due ≤ x.bundles + n

theorem Ctx.dueWithin.boundary {n : Nat} (h : x.dueWithin (n + 1)) : x.boundary.dueWithin n := by
  intro w hw
  rw [Ctx.boundary_pend, List.mem_filter] at hw
  obtain ⟨hm, hd⟩ := hw
  have := h w hm
  rw [Ctx.boundary_bundles]
  simp at hd
  omega

/-- Of the pending writes to a slot, `w` falls due last, and of those due with it it issued last. -/
def standsAmong (l : List RegWrite) (pred : Bool) (i : Nat) (w : RegWrite) : Prop :=
  ∃ before after, l = before ++ w :: after ∧ (∀ u ∈ before, u.hits pred i = true → u.due ≤ w.due)
    ∧ ∀ u ∈ after, u.hits pred i = true → u.due < w.due

theorem standsAmong.filter {l : List RegWrite} {w : RegWrite} {q : RegWrite → Bool} (h : standsAmong l pred i w) (hq : q w = true) :
    standsAmong (l.filter q) pred i w := by
  obtain ⟨a, b, rfl, ha, hb⟩ := h
  exact ⟨a.filter q, b.filter q, by rw [List.filter_append, List.filter_cons_of_pos hq],
    fun u hu => ha u (List.mem_of_mem_filter hu), fun u hu => hb u (List.mem_of_mem_filter hu)⟩

/-- What the slot is to hold: its own value where no write of it is pending, else what the write that stands leaves. -/
def Ctx.settles (x : Ctx) (pred : Bool) (i : Nat) (v : Word) : Prop :=
  ((∀ w ∈ x.pend, w.hits pred i = false) ∧ x.slot pred i = v) ∨ ∃ w, w.hits pred i = true ∧ standsAmong x.pend pred i w ∧ w.leaves = v

/-- The write that stands lands at this boundary: the slot holds it, and no later write of the slot is left. -/
theorem Ctx.boundary_of_stands_now {w : RegWrite} (hi : i ≠ 0) (hlate : ∀ u ∈ x.pend, x.bundles < u.due) (hw : w.hits pred i = true)
    (h : standsAmong x.pend pred i w) (hdue : w.due ≤ x.bundles + 1) :
    (∀ u ∈ x.boundary.pend, u.hits pred i = false) ∧ x.boundary.slot pred i = w.leaves := by
  obtain ⟨a, b, hl, ha, hb⟩ := h
  have hnone : ∀ u ∈ b, u.hits pred i = false := fun u hu => by
    by_contra hc
    have h1 := hb u hu (by simpa using hc)
    have h2 := hlate u (by simp [hl, hu])
    omega
  refine ⟨fun u hu => ?_, ?_⟩
  · rw [Ctx.boundary_pend, List.mem_filter] at hu
    obtain ⟨hu, hnd⟩ := hu
    have hnd : x.bundles + 1 < u.due := by simpa using hnd
    by_contra hc
    have hc : u.hits pred i = true := by simpa using hc
    rw [hl, List.mem_append, List.mem_cons] at hu
    rcases hu with hu | rfl | hu
    · have := ha u hu hc
      omega
    · omega
    · exact absurd hc (by simp [hnone u hu])
  · rw [Ctx.boundary_slot, hl, List.filter_append, List.filter_cons_of_pos (by simpa using hdue)]
    exact Ctx.slot_foldl_land_of_last hi hw (fun u hu => hnone u (List.mem_of_mem_filter hu))

theorem Ctx.settles.boundary {n : Nat} (hi : i ≠ 0) (hd : x.dueWithin n) (h : x.settles pred i v) : x.boundary.settles pred i v := by
  rcases h with ⟨hno, hv⟩ | ⟨w, hw, hst, hv⟩
  · refine .inl ⟨fun w hm => hno w (List.mem_of_mem_filter hm), ?_⟩
    rw [Ctx.boundary_slot, Ctx.slot_foldl_land_of_none hi (fun w hm => hno w (List.mem_of_mem_filter hm))]
    exact hv
  · by_cases hdue : w.due ≤ x.bundles + 1
    · obtain ⟨hno, hs⟩ := Ctx.boundary_of_stands_now hi (fun u hu => (hd u hu).1) hw hst hdue
      exact .inl ⟨hno, hs.trans hv⟩
    · exact .inr ⟨w, hw, hst.filter (by simpa using hdue), hv⟩

theorem Ctx.dueWithin.landAll_pend {n : Nat} (hd : x.dueWithin n) : (x.landAll n).pend = [] := by
  induction n generalizing x with
  | zero => exact List.eq_nil_iff_forall_not_mem.mpr fun w hw => by have := hd w hw; omega
  | succ n ih => exact ih hd.boundary

theorem Ctx.settles.landAll {n : Nat} (hi : i ≠ 0) (hd : x.dueWithin n) (h : x.settles pred i v) : (x.landAll n).slot pred i = v := by
  induction n generalizing x with
  | zero =>
    have hp : x.pend = [] := hd.landAll_pend
    rcases h with ⟨-, hv⟩ | ⟨w, -, ⟨a, b, hl, -⟩, -⟩
    · exact hv
    · simp [hp] at hl
  | succ n ih => exact ih hd.boundary (h.boundary hi hd)

theorem Ctx.reg_eq_slot {r : Reg} (hr : r ≠ 0) : x.reg r = x.slot false r.toNat := if_neg hr

theorem Ctx.preg_eq_slot {p : PReg} (hp : p ≠ 0) : x.preg p = (x.slot true p.toNat != 0) := by
  refine (if_neg hp).trans ?_
  cases h : SMap.get false x.p p.toNat <;> simp [Ctx.slot, h]

/-! ## The end of a bundle, in closed form -/

theorem Core.storeAt_ctx (k : Core) (fw w : Bool) (a : Nat) (b : List Byte) :
    (k.storeAt fw a b).ctx w = k.ctx w ∧ (k.storeAt fw a b).crew = k.crew := by
  unfold Core.storeAt
  split
  · exact ⟨rfl, rfl⟩
  · split <;> exact ⟨rfl, rfl⟩

/-- A core in which the stores of a bundle have been made (R124). -/
def Core.storeAll (k : Core) (fw : Bool) (l : List (Nat × List Byte)) : Core := l.foldl (fun k st => k.storeAt fw st.1 st.2) k

theorem Core.storeAll_ctx (k : Core) (fw w : Bool) (l : List (Nat × List Byte)) :
    (k.storeAll fw l).ctx w = k.ctx w ∧ (k.storeAll fw l).crew = k.crew := by
  unfold Core.storeAll
  induction l generalizing k with
  | nil => exact ⟨rfl, rfl⟩
  | cons st l ih =>
    obtain ⟨h1, h2⟩ := Core.storeAt_ctx k fw w st.1 st.2
    obtain ⟨h3, h4⟩ := ih (k.storeAt fw st.1 st.2)
    exact ⟨h3.trans h1, h4.trans h2⟩

/-- A bundle is counted if the program's (R154). -/
def Core.counted (fw : Bool) (k : Core) : Core := if fw then k else k.countBundle

/-- The context in focus after its bundle: the writes due have landed and the bundle is over. -/
def closedCtx (s : State) : Ctx := { s.ctx.boundary with
  stores := [], words := 0, xfer := none, fault := none, ctl := .none, last := if s.ctx.xfer.isSome then s.ctx.last else s.focus.org }

/-- The state after the open bundle, its stores made and the bundle counted, with the context in focus at `x`. -/
def closed (s : State) (x : Ctx) : State :=
  s.updF (fun k => ((k.storeAll s.focus.fw s.ctx.stores).setCtx s.focus.fw x).counted s.focus.fw)

theorem counted_setCtx (fw : Bool) (k : Core) (x : Ctx) : (k.setCtx fw x).counted fw = (k.counted fw).setCtx fw x := by
  cases fw <;> rfl

theorem closed_updCtx (f : Ctx → Ctx) : (closed s x).updCtx f = closed s (f x) := by
  refine (State.updF_updF s _ _).trans (congrArg s.updF (funext fun k => ?_))
  change Core.setCtx _ s.focus.fw (f (Core.ctx _ s.focus.fw)) = _
  rw [counted_setCtx, Core.setCtx_ctx, Core.setCtx_setCtx, counted_setCtx]

theorem ctx_closed : (closed s x).ctx = x := by
  have h : (closed s x).fcore = _ := State.fcore_updF _ _
  change (closed s x).fcore.ctx s.focus.fw = x
  rw [h, counted_setCtx, Core.setCtx_ctx]

theorem updF_congr {f g : Core → Core} (h : f s.fcore = g s.fcore) : s.updF f = s.updF g := congrArg (s.setCore s.focus.core) h

/-- The writes of a bundle's end to the context in focus. -/
def Ctx.closeAt (org : Origin) (x : Ctx) : Ctx := { ({ x with bundles := x.bundles + 1 } : Ctx).landWrites with
  stores := [], words := 0, xfer := none, fault := none, ctl := .none, last := if x.xfer.isSome then x.last else org }

/-- Stores, landings and the count of a bundle's end are the closed form. -/
theorem closed_eq : (if s.focus.fw then (s.updF (·.storeAll s.focus.fw s.ctx.stores)).updCtx (Ctx.closeAt s.focus.org)
    else ((s.updF (·.storeAll s.focus.fw s.ctx.stores)).updCtx (Ctx.closeAt s.focus.org)).updF Core.countBundle) = closed s (closedCtx s) := by
  have h2 : (s.updF (·.storeAll s.focus.fw s.ctx.stores)).updCtx (Ctx.closeAt s.focus.org)
      = s.updF (fun k => (k.storeAll s.focus.fw s.ctx.stores).setCtx s.focus.fw (closedCtx s)) := by
    refine (State.updF_updF s _ _).trans (updF_congr ?_)
    change Core.setCtx _ s.focus.fw (Ctx.closeAt s.focus.org (Core.ctx _ s.focus.fw)) = _
    rw [(Core.storeAll_ctx _ _ _ _).1]
    rfl
  rw [h2]
  cases hfw : s.focus.fw
  · rw [if_neg (by decide), State.updF_updF, closed, hfw]
    rfl
  · rw [if_pos rfl, closed, hfw]
    rfl

theorem bundleEnd_of_exit (hf : s.ctx.fault = none) (hc : s.ctx.ctl = .exit) :
    bundleEnd s = closed s { (closedCtx s).landAll 18 with wait := .exited } := by
  rw [← closed_updCtx (fun y => { y.landAll 18 with wait := .exited }), ← closed_eq]
  simp only [bundleEnd, hf, hc]
  generalize 18 = n
  rfl

theorem bundleEnd_of_move (hf : s.ctx.fault = none) (hc : s.ctx.ctl = .none) : bundleEnd s = moveOn s.ctx (closed s (closedCtx s)) := by
  rw [← closed_eq]
  simp only [bundleEnd, hf, hc]
  rfl

/-- A context that `exit` has ended. -/
def Ctx.exited (x : Ctx) : Ctx := { x with wait := .exited }

theorem Ctx.exited_slot : x.exited.slot pred i = x.slot pred i := rfl
theorem Ctx.exited_pend : x.exited.pend = x.pend := rfl
theorem Ctx.exited_wait : x.exited.wait = .exited := rfl

theorem bundleEnd_exit_ctx (hf : s.ctx.fault = none) (hc : s.ctx.ctl = .exit) : (bundleEnd s).ctx = ((closedCtx s).landAll 18).exited := by
  rw [bundleEnd_of_exit hf hc, ctx_closed]
  rfl

theorem bundleEnd_exit_settles (hf : s.ctx.fault = none) (hc : s.ctx.ctl = .exit) (hd : s.ctx.dueWithin 19) (hi : i ≠ 0)
    (h : s.ctx.settles pred i v) : (bundleEnd s).ctx.slot pred i = v := by
  have hd' : (closedCtx s).dueWithin 18 := Ctx.dueWithin.boundary hd
  have h' : (closedCtx s).settles pred i v := h.boundary hi hd
  rw [bundleEnd_exit_ctx hf hc, Ctx.exited_slot]
  exact h'.landAll hi hd'

theorem RegWrite.hits_iff {w : RegWrite} : w.hits pred i = true ↔ w.pred = pred ∧ w.index = i := by
  simp [RegWrite.hits]

theorem toNat_ne_zero {n : Nat} {r : BitVec n} (h : r ≠ 0) : r.toNat ≠ 0 := fun h0 => h (BitVec.eq_of_toNat_eq h0)

theorem exitLandsWrites : Claims.ExitLandsWrites := by
  intro s hfw hf hc _ hd t stands
  have settled {pred i v} (hi : i ≠ 0) (h : s.ctx.settles pred i v) : t.ctx.slot pred i = v :=
    bundleEnd_exit_settles hf hc hd hi h
  have none_pending {pred i} (h : ∀ w ∈ s.ctx.pend, w.pred = pred → w.index ≠ i) : s.ctx.settles pred i (s.ctx.slot pred i) :=
    .inl ⟨fun w hw => by simpa [RegWrite.hits] using h w hw, rfl⟩
  have last_write {w} (h : stands w) : s.ctx.settles w.pred w.index w.leaves := by
    obtain ⟨a, b, hl, ha, hb⟩ := h
    refine .inr ⟨w, RegWrite.hits_iff.mpr ⟨rfl, rfl⟩, ⟨a, b, hl, fun u hu hh => ?_, fun u hu hh => ?_⟩, rfl⟩
    · exact ha u hu (RegWrite.hits_iff.mp hh).1 (RegWrite.hits_iff.mp hh).2
    · exact hb u hu (RegWrite.hits_iff.mp hh).1 (RegWrite.hits_iff.mp hh).2
  have hctx : t.ctx = ((closedCtx s).landAll 18).exited := bundleEnd_exit_ctx hf hc
  have ht : t = closed s { (closedCtx s).landAll 18 with wait := .exited } := bundleEnd_of_exit hf hc
  refine ⟨by rw [hctx, Ctx.exited_wait], ?_, ht ▸ onlyCore_updF _, fun r hr h => ?_, fun r hr w hp hx h => ?_, fun p hr h => ?_, fun p hr w hp hx h => ?_⟩
  · have hd' : (closedCtx s).dueWithin 18 := Ctx.dueWithin.boundary hd
    rw [hctx, Ctx.exited_pend, hd'.landAll_pend]
  · change t.ctx.reg r = s.ctx.reg r
    rw [Ctx.reg_eq_slot hr, Ctx.reg_eq_slot hr, settled (toNat_ne_zero hr) (none_pending h)]
  · change t.ctx.reg r = w.value
    rw [Ctx.reg_eq_slot hr, ← hp, ← hx, settled (hx ▸ toNat_ne_zero hr) (last_write h), RegWrite.leaves, hp]
    rfl
  · change t.ctx.preg p = s.ctx.preg p
    rw [Ctx.preg_eq_slot hr, Ctx.preg_eq_slot hr, settled (toNat_ne_zero hr) (none_pending h)]
  · change t.ctx.preg p = (w.value != 0)
    rw [Ctx.preg_eq_slot hr, ← hp, ← hx, settled (hx ▸ toNat_ne_zero hr) (last_write h), RegWrite.leaves, hp]
    cases hv : w.value != 0 <;> simp

end Sys2Proof.Machine
end

/-! # The end of a line (R87, R88, R120) -/
section
namespace Sys2Proof.Machine
variable {s : State}

/-- The place where a context issues next: its code object, line and word. -/
def Ctx.place (x : Ctx) : Nat × Nat × Nat := (x.obj, x.line, x.word)

theorem Ctx.foldl_land_place (l : List RegWrite) (x : Ctx) : (l.foldl Ctx.land x).place = x.place := by
  induction l generalizing x with
  | nil => rfl
  | cons w l ih =>
    refine (ih (x.land w)).trans ?_
    unfold Ctx.land
    split
    · rfl
    · split <;> rfl

theorem Ctx.boundary_place (x : Ctx) : x.boundary.place = x.place := Ctx.foldl_land_place _ _

theorem closedCtx_place (s : State) : (closedCtx s).place = s.ctx.place := s.ctx.boundary_place

theorem closedCtx_last (h : s.ctx.xfer = none) : (closedCtx s).last = s.focus.org := by simp [closedCtx, h]

theorem Core.counted_crew (fw : Bool) (k : Core) : (k.counted fw).crew = k.crew := by cases fw <;> rfl

theorem fetchLine_closed (x : Ctx) (j obj line : Nat) : fetchLine (closed s x) j obj line = fetchLine s j obj line := by
  refine fetchLine_setCore s _ _ ?_ j obj line
  rw [Core.counted_crew, Core.setCtx_crew, (Core.storeAll_ctx _ _ false _).2]

/-! ## Checking the place that a context has moved to -/

section
variable {x : Ctx} {l : BitVec 512} {n : Nat} (hx : s.ctx = x) (hl : fetchLine s s.focus.core x.obj x.line = .ok l)
include hx hl

theorem resolvePc_of_not_code (hc : x.check ≠ 0) (hk : lineEngine l ≠ 0 ∨ lineKind l ≠ 0) :
    resolvePc (n + 1) s = raiseFetch (chainFault 0) x.last x.obj x.line s := by
  simp only [resolvePc, hx, hl, if_neg hc, if_pos hk]

variable (hk : ¬(lineEngine l ≠ 0 ∨ lineKind l ≠ 0))
include hk

theorem resolvePc_of_end (hc : x.check = 1) (he : x.word ≥ 16 ∨ lineWord l x.word = 0) (hn : lineNext l = chainEnd) :
    resolvePc (n + 1) s = raiseFetch (chainFault 1) x.last x.obj x.line s := by
  simp only [resolvePc, hx, hl, hc, if_neg hk, he, hn, and_self, if_true, Nat.one_ne_zero, if_false]

theorem resolvePc_of_link (hc : x.check = 1) (he : x.word ≥ 16 ∨ lineWord l x.word = 0) (hn : lineNext l ≠ chainEnd) :
    resolvePc (n + 1) s = resolvePc n (s.updCtx (fun x => { x with line := lineNext l, word := 1, check := 2 })) := by
  simp only [resolvePc, hx, hl, hc, if_neg hk, he, hn, and_self, if_true, Nat.one_ne_zero, if_false]

theorem resolvePc_of_start (hc : x.check = 2) (hb : bundleStart l x.word = true) :
    resolvePc (n + 1) s = s.updCtx (fun x => { x with check := 0 }) := by
  simp [resolvePc, hx, hl, hc, hk, hb]

theorem resolvePc_of_no_start (hc : x.check = 2) (hb : bundleStart l x.word = false) :
    resolvePc (n + 1) s = raiseFetch (chainFault 0) x.last x.obj x.line s := by
  simp [resolvePc, hx, hl, hc, hk, hb]

end

/-- The context in focus after a bundle without a transfer, before its place is looked at. -/
theorem closedCtx_of_straight (h : s.ctx.xfer = none) : closedCtx s = { ({ s.ctx with bundles := s.ctx.bundles + 1 } : Ctx).landWrites with
    stores := [], words := 0, xfer := none, fault := none, ctl := .none, last := s.focus.org } := by
  rw [closedCtx, show (if s.ctx.xfer.isSome then s.ctx.last else s.focus.org) = s.focus.org by simp [h]]
  rfl

theorem bundleEnd_of_straight (hf : s.ctx.fault = none) (hc : s.ctx.ctl = .none) (hx : s.ctx.xfer = none) :
    bundleEnd s = resolvePc 3 (closed s { closedCtx s with check := 1 }) := by
  rw [bundleEnd_of_move hf hc, moveOn, hx, ← closed_updCtx (fun y => { y with check := 1 })]

theorem lineEnds : Claims.LineEnds := by
  intro s l x c hf hc hx hl he hk hend k ended
  have hended (f : Ctx → Ctx) : ended f = closed s (f (closedCtx s)) := by
    rw [closedCtx_of_straight hx]
    rfl
  clear_value ended
  have hplace : (closedCtx s).place = x.place := closedCtx_place s
  simp only [Ctx.place, Prod.mk.injEq] at hplace
  obtain ⟨hobj, hline, hword⟩ := hplace
  have hlast : (closedCtx s).last = s.focus.org := closedCtx_last hx
  have hcode : ¬(lineEngine l ≠ 0 ∨ lineKind l ≠ 0) := by simp [he, hk]
  -- the place after the bundle, to be checked
  have hfetch : fetchLine (closed s { closedCtx s with check := 1 }) c (closedCtx s).obj (closedCtx s).line = .ok l := by
    rw [fetchLine_closed, hobj, hline, hl]
  have hover : (closedCtx s).word ≥ 16 ∨ lineWord l (closedCtx s).word = 0 := by
    rw [hword]
    exact hend.imp_left fun h => h
  have hbundle : bundleEnd s = resolvePc 3 (closed s { closedCtx s with check := 1 }) := bundleEnd_of_straight hf hc hx
  refine ⟨fun hn => ?_, fun hn l' hl' => ?_⟩
  · rw [hbundle, resolvePc_of_end ctx_closed hfetch hcode rfl hover hn, hended]
    simp only [hobj, hline, hlast]
  · -- the link is followed to word 1 of its line
    rw [hbundle, resolvePc_of_link ctx_closed hfetch hcode rfl hover hn, closed_updCtx]
    have hfetch' : fetchLine (closed s { closedCtx s with line := lineNext l, word := 1, check := 2 }) c (closedCtx s).obj (lineNext l) = .ok l' := by
      rw [fetchLine_closed, hobj, hl']
    refine ⟨fun hg => ?_, fun hg => ?_⟩
    · obtain ⟨he', hk', hb'⟩ := hg
      rw [resolvePc_of_start ctx_closed hfetch' (by simp [he', hk']) rfl hb', closed_updCtx, hended]
    · rw [hended]
      by_cases hk' : lineEngine l' ≠ 0 ∨ lineKind l' ≠ 0
      · rw [resolvePc_of_not_code ctx_closed hfetch' (by simp) hk']
        simp only [hobj, hlast]
      · have hb' : bundleStart l' 1 = false := by
          by_contra h
          exact hg ⟨by omega, by omega, by simpa using h⟩
        rw [resolvePc_of_no_start ctx_closed hfetch' hk' rfl hb']
        simp only [hobj, hlast]

end Sys2Proof.Machine
end

/-! # Fault records (R365 to R369) -/
section
namespace Sys2Proof.Machine
variable {s : State}

/-! ## A write of two whole bursts of device memory (R53) -/

theorem bytesAt_append (a : Nat) (l r : List Byte) : bytesAt a (l ++ r) = bytesAt a l ++ bytesAt (a + l.length) r := by
  induction l generalizing a with
  | nil => rfl
  | cons b l ih => rw [List.cons_append, bytesAt, ih, bytesAt, List.cons_append, List.length_cons, Nat.add_right_comm, Nat.add_assoc]

theorem mem_bytesAt {a : Nat} {l : List Byte} {p : Nat × Byte} (h : p ∈ bytesAt a l) : a ≤ p.1 ∧ p.1 < a + l.length := by
  induction l generalizing a with
  | nil => cases h
  | cons b l ih =>
    rw [List.length_cons]
    rcases List.mem_cons.mp h with rfl | h
    · omega
    · have := ih h
      omega

theorem bytesAt_length (a : Nat) (l : List Byte) : (bytesAt a l).length = l.length := by
  induction l generalizing a with
  | nil => rfl
  | cons b l ih => rw [bytesAt, List.length_cons, List.length_cons, ih]

/-- Bytes that lie in one burst, by their offsets in it. -/
theorem bytesAt_map_mod {q o : Nat} {l : List Byte} (h : o + l.length ≤ 32) :
    (bytesAt (32 * q + o) l).map (fun p => (p.1 % 32, p.2)) = bytesAt o l := by
  induction l generalizing o with
  | nil => rfl
  | cons b l ih =>
    rw [List.length_cons] at h
    rw [bytesAt, List.map_cons, bytesAt, Nat.add_assoc, ih (by omega)]
    congr 2
    omega

theorem foldl_setByte_bytesAt (m : Memory) (c o : Nat) (l : List Byte) :
    (bytesAt o l).foldl (fun m p => m.setByte (c + p.1) p.2) m = m.setBytes (c + o) l := by
  induction l generalizing m o with
  | nil => rfl
  | cons b l ih => exact ih _ _

theorem setBytes_append (m : Memory) (a : Nat) (l r : List Byte) : m.setBytes a (l ++ r) = (m.setBytes a l).setBytes (a + l.length) r := by
  induction l generalizing m a with
  | nil => rfl
  | cons b l ih => rw [List.cons_append, Memory.setBytes, ih, Memory.setBytes, List.length_cons, Nat.add_right_comm, Nat.add_assoc]

/-- A burst written whole takes the colour and is correct (R53). -/
def wroteBurst (q : Nat) (l : List Byte) (colour : BitVec 8) (s : State) : State :=
  { s with lpddr := s.lpddr.setBytes (32 * q) l, colour := SMap.set 0 s.colour q colour, uncorr := s.uncorr.filter (· != (0, q)) }

theorem lpWriteBurst_whole {q l colour} (hl : l.length = 32) (hq : 32 * q < lpddrEnd) :
    lpWriteBurst s q (bytesAt 0 l) colour = .ok (wroteBurst q l colour s) := by
  have h : ¬lpddrEnd ≤ 32 * q := by omega
  simp only [lpWriteBurst, if_neg h, bytesAt_length, hl, if_true, foldl_setByte_bytesAt]
  rfl

theorem unitsOf_two (q : Nat) : unitsOf 32 (32 * q) 64 = [q, q + 1] := by
  have h : (32 * q + 64 - 1) / 32 - 32 * q / 32 + 1 = 2 := by omega
  have h' : 32 * q / 32 = q := by omega
  rw [unitsOf, if_neg (by decide), h, h']
  rfl

/-- The bytes of one burst, of those of two. -/
theorem burst_of_two {q : Nat} {l r : List Byte} (hl : l.length = 32) (hr : r.length = 32) :
    ((bytesAt (32 * q) (l ++ r)).filter (fun p => p.1 / 32 == q)).map (fun p => (p.1 % 32, p.2)) = bytesAt 0 l
    ∧ ((bytesAt (32 * q) (l ++ r)).filter (fun p => p.1 / 32 == q + 1)).map (fun p => (p.1 % 32, p.2)) = bytesAt 0 r := by
  have inL : ∀ p ∈ bytesAt (32 * q) l, p.1 / 32 = q := fun p hp => by have := mem_bytesAt hp; omega
  have inR : ∀ p ∈ bytesAt (32 * q + 32) r, p.1 / 32 = q + 1 := fun p hp => by have := mem_bytesAt hp; omega
  rw [bytesAt_append, hl, List.filter_append, List.filter_append]
  constructor
  · rw [List.filter_eq_self.mpr fun p hp => beq_iff_eq.mpr (inL p hp),
      List.filter_eq_nil_iff.mpr fun p hp => by simp [inR p hp], List.append_nil]
    exact bytesAt_map_mod (o := 0) (l := l) (by omega)
  · rw [List.filter_eq_self.mpr fun p hp => beq_iff_eq.mpr (inR p hp),
      List.filter_eq_nil_iff.mpr fun p hp => by simp [inL p hp], List.nil_append, show 32 * q + 32 = 32 * (q + 1) by omega]
    exact bytesAt_map_mod (q := q + 1) (o := 0) (l := r) (by omega)

/-- Two whole bursts written (R53). -/
theorem lpWrite_two {q l r colour} (hl : l.length = 32) (hr : r.length = 32) (hq : 32 * q + 64 ≤ lpddrEnd) :
    lpWrite s (32 * q) (l ++ r) colour = .ok (wroteBurst (q + 1) r colour (wroteBurst q l colour s)) := by
  obtain ⟨h1, h2⟩ := burst_of_two (q := q) hl hr
  rw [lpWrite, List.length_append, hl, hr, unitsOf_two]
  simp only [lpWriteMap, h1, h2, lpWriteBurst_whole hl (show 32 * q < lpddrEnd by omega), lpWriteBurst_whole hr (show 32 * (q + 1) < lpddrEnd by omega)]

/-! ## The words of a record (R365, R366) -/

theorem bytesOfNat_eq_map (n v : Nat) : bytesOfNat n v = (List.range n).map (fun i => .ofNat 8 (v / 256 ^ i)) := by
  induction n generalizing v with
  | zero => rfl
  | succ n ih =>
    rw [bytesOfNat, ih, List.range_succ_eq_map, List.map_cons, List.map_map, Nat.pow_zero, Nat.div_one]
    congr 1
    refine List.map_congr_left fun i _ => ?_
    rw [Function.comp_apply, Nat.pow_succ', Nat.div_div_eq_div_mul]

theorem bytesOfWord (w : Word) : bytesOfNat 8 w.toNat = (List.range 8).map (fun i => w.extractLsb' (8 * i) 8) := by
  rw [bytesOfNat_eq_map]
  refine List.map_congr_left fun i _ => BitVec.eq_of_toNat_eq ?_
  rw [BitVec.toNat_ofNat, BitVec.extractLsb'_toNat, Nat.shiftRight_eq_div_pow, Nat.pow_mul]

theorem bytesOfWords_eq (ws : List Word) : bytesOfWords ws = ws.flatMap (fun w => (List.range 8).map (fun i => w.extractLsb' (8 * i) 8)) := by
  rw [bytesOfWords, ← List.flatMap_def]
  exact List.flatMap_congr fun w _ => bytesOfWord w

theorem bytesOfWords_length (ws : List Word) : (bytesOfWords ws).length = 8 * ws.length := by
  induction ws with
  | nil => rfl
  | cons w ws ih =>
    rw [bytesOfWords, List.map_cons, List.flatten_cons, List.length_append, bytesOfNat_length, ← bytesOfWords, ih, List.length_cons]
    omega

theorem fieldOf_ofNat {n hi lo : Nat} (h : n < 2 ^ 64) : fieldOf (BitVec.ofNat 64 n) hi lo = n / 2 ^ lo % 2 ^ (hi + 1 - lo) := by
  rw [fieldOf, bitsOf, BitVec.toNat_ofNat, Nat.mod_eq_of_lt h]

theorem getLsbD_ofNat_eq {n i : Nat} {b : Bool} (hi : i < 64) (h : n / 2 ^ i % 2 = b.toNat) : (BitVec.ofNat 64 n).getLsbD i = b := by
  rw [BitVec.getLsbD_ofNat, decide_eq_true hi, Bool.true_and, Nat.testBit_eq_decide_div_mod_eq, h]
  cases b <;> rfl

theorem recWord1_fields {source : Nat} {f : HwFault} {fw ended : Bool} {tag : BitVec 32} (hs : source < 1024) (hc : f.code < 256)
    (hu : f.sub < 16) :
    let w := recWord1 source f fw ended tag
    fieldOf w 9 0 = source ∧ fieldOf w 17 10 = f.code ∧ fieldOf w 21 18 = f.sub ∧ w.getLsbD 22 = fw ∧ w.getLsbD 23 = ended
      ∧ fieldOf w 31 24 = 0 ∧ fieldOf w 63 32 = tag.toNat := by
  have hfw : (if fw then 2 ^ 22 else 0) = fw.toNat * 2 ^ 22 := by cases fw <;> rfl
  have hended : (if ended then 2 ^ 23 else 0) = ended.toNat * 2 ^ 23 := by cases ended <;> rfl
  have ht : tag.toNat < 2 ^ 32 := tag.isLt
  have hp : fw.toNat ≤ 1 := Bool.toNat_le fw
  have hq : ended.toNat ≤ 1 := Bool.toNat_le ended
  have hn : source + f.code * 2 ^ 10 + f.sub * 2 ^ 18 + fw.toNat * 2 ^ 22 + ended.toNat * 2 ^ 23 + tag.toNat * 2 ^ 32 < 2 ^ 64 := by omega
  rw [recWord1, hfw, hended, Nat.mod_eq_of_lt hs, Nat.mod_eq_of_lt hc, Nat.mod_eq_of_lt hu]
  refine ⟨(fieldOf_ofNat hn).trans ?_, (fieldOf_ofNat hn).trans ?_, (fieldOf_ofNat hn).trans ?_, getLsbD_ofNat_eq (by omega) ?_,
    getLsbD_ofNat_eq (by omega) ?_, (fieldOf_ofNat hn).trans ?_, (fieldOf_ofNat hn).trans ?_⟩ <;> omega

theorem recWord2_fields {cycle : Nat} {part : Option Nat} (hc : cycle < 2 ^ 48) (hp : ∀ p, part = some p → p < 16) :
    let w := recWord2 cycle part
    fieldOf w 47 0 = cycle ∧ fieldOf w 51 48 = part.getD 0 ∧ fieldOf w 63 52 = 0 := by
  have hp' : part.getD 0 < 16 := by
    cases part with
    | none => decide
    | some p => exact hp p rfl
  have hn : cycle + part.getD 0 * 2 ^ 48 < 2 ^ 64 := by omega
  rw [recWord2, Nat.mod_eq_of_lt hc, Nat.mod_eq_of_lt hp']
  refine ⟨(fieldOf_ofNat hn).trans ?_, (fieldOf_ofNat hn).trans ?_, (fieldOf_ofNat hn).trans ?_⟩ <;> omega

/-- The arguments of a record, zero where there is none. -/
theorem padded_getD (args : List Word) (i : Nat) (hi : i < 5) : ((args ++ List.replicate 5 0).take 5).getD i 0 = args.getD i 0 := by
  simp only [List.getD_eq_getElem?_getD, List.getElem?_take_of_lt hi, List.getElem?_append]
  split
  · rfl
  · next h =>
    rw [List.getElem?_replicate, List.getElem?_eq_none (by omega)]
    split <;> rfl

/-! ## A record put into its queue, or counted as lost (R368, R369) -/

/-- The queue takes a record: it is enabled, of a size that there is, and not full. -/
def queueTakes (s : State) (q : Nat) : Prop :=
  (s.reg (0xD01 + 4 * q)).getLsbD 5 = true ∧ 4 ≤ fieldOf (s.reg (0xD01 + 4 * q)) 4 0 ∧ fieldOf (s.reg (0xD01 + 4 * q)) 4 0 ≤ 20
  ∧ (fieldOf (s.reg (0xD02 + 4 * q)) 31 0 + 2 ^ 32 - fieldOf (s.reg (0xD03 + 4 * q)) 31 0) % 2 ^ 32 ≠ 2 ^ fieldOf (s.reg (0xD01 + 4 * q)) 4 0

theorem queueTakes_iff {q : Nat} : queueTakes s q ↔ ¬(!(s.reg (0xD01 + 4 * q)).getLsbD 5 || fieldOf (s.reg (0xD01 + 4 * q)) 4 0 < 4
    || fieldOf (s.reg (0xD01 + 4 * q)) 4 0 > 20 || (fieldOf (s.reg (0xD02 + 4 * q)) 31 0 + 2 ^ 32 - fieldOf (s.reg (0xD03 + 4 * q)) 31 0) % 2 ^ 32
      = 2 ^ fieldOf (s.reg (0xD01 + 4 * q)) 4 0) = true := by
  simp only [queueTakes, Bool.or_eq_true, Bool.not_eq_true', decide_eq_true_eq, not_or, Bool.not_eq_false, not_lt, and_assoc, gt_iff_lt, ne_eq]

/-- Where the next record of a queue lies. -/
def recordAt (s : State) (q : Nat) : Nat :=
  fieldOf (s.reg (0xD00 + 4 * q)) 39 0 * 2 + fieldOf (s.reg (0xD02 + 4 * q)) 31 0 % 2 ^ fieldOf (s.reg (0xD01 + 4 * q)) 4 0 * 2

/-- A record has been written, its two bursts whole, and counted in TAIL. -/
def recordPut (s : State) (q : Nat) (l r : List Byte) : State :=
  let col : BitVec 8 := .ofNat 8 (fieldOf (s.reg (0xD01 + 4 * q)) 25 18)
  (wroteBurst (recordAt s q + 1) r col (wroteBurst (recordAt s q) l col { s with now := s.now + 1 })).setReg (0xD02 + 4 * q)
    (.ofNat 64 ((fieldOf (s.reg (0xD02 + 4 * q)) 31 0 + 1) % 2 ^ 32))

theorem putRecord_of_room {q ws l r} (h : queueTakes s q) (hws : bytesOfWords ws = l ++ r) (hl : l.length = 32) (hr : r.length = 32)
    (ha : 32 * recordAt s q + 64 ≤ lpddrEnd) : putRecord s q ws
      = if (s.reg (0xD01 + 4 * q)).getLsbD 6 then postIrq (recordPut s q l r) (fieldOf (s.reg (0xD01 + 4 * q)) 17 7) else recordPut s q l r := by
  have haddr : 64 * fieldOf (s.reg (0xD00 + 4 * q)) 39 0 + 64 * (fieldOf (s.reg (0xD02 + 4 * q)) 31 0 % 2 ^ fieldOf (s.reg (0xD01 + 4 * q)) 4 0)
      = 32 * recordAt s q := by
    rw [recordAt]
    omega
  simp only [putRecord, if_neg (queueTakes_iff.mp h), hws, haddr, lpWrite_two hl hr ha]
  rfl

theorem putRecord_of_full {q ws} (h : ¬queueTakes s q) : putRecord s q ws = lostRecord { s with now := s.now + 1 } q := by
  have h' := not_not.mp (mt queueTakes_iff.mpr h)
  simp only [putRecord, if_pos h']

theorem lost_fields (v : Word) (n : Nat) (hn : n < 2 ^ 32) :
    fieldOf (withField v 63 32 n) 31 0 = fieldOf v 31 0 ∧ fieldOf (withField v 63 32 n) 63 32 = n := by
  have hv : v.toNat < 2 ^ 64 := v.isLt
  rw [withField, fieldOf, fieldOf, fieldOf, BitVec.toNat_ofNat]
  simp only [bitsOf]
  omega

theorem recordWords_eq (s : State) (source : Nat) (f : HwFault) (fw ended : Bool) (tag : BitVec 32) (cycle : Nat) (part : Option Nat)
    (args : List Word) : recordWords s source f fw ended tag cycle part args
      = .ofNat 64 s.now :: recWord1 source f fw ended tag :: recWord2 cycle part :: (args ++ List.replicate 5 0).take 5 := rfl

/-- Where a queue takes a record, and what taking one changes. -/
theorem recordPut_spec {q ws l r} (h : queueTakes s q) (hws : bytesOfWords ws = l ++ r) (hl : l.length = 32) (hr : r.length = 32)
    (ha : 32 * recordAt s q + 64 ≤ lpddrEnd) :
    let u := recordPut s q l r
    putRecord s q ws = (if (s.reg (0xD01 + 4 * q)).getLsbD 6 then postIrq u (fieldOf (s.reg (0xD01 + 4 * q)) 17 7) else u)
    ∧ fieldOf (u.reg (0xD02 + 4 * q)) 31 0 = (fieldOf (s.reg (0xD02 + 4 * q)) 31 0 + 1) % 2 ^ 32
    ∧ (∀ i, i ≠ 0xD02 + 4 * q → u.reg i = s.reg i)
    ∧ u.lpddr = s.lpddr.setBytes (32 * recordAt s q) (bytesOfWords ws)
    ∧ (∀ b, SMap.get 0 u.colour b = if b = recordAt s q ∨ b = recordAt s q + 1 then .ofNat 8 (fieldOf (s.reg (0xD01 + 4 * q)) 25 18)
        else SMap.get 0 s.colour b)
    ∧ { u with lpddr := s.lpddr, colour := s.colour, uncorr := s.uncorr, regs := s.regs, now := s.now } = s := by
  intro u
  refine ⟨putRecord_of_room h hws hl hr ha, ?_, fun i hi => setReg_reg_ne hi, ?_, fun b => ?_, rfl⟩
  · have htail : u.reg (0xD02 + 4 * q) = .ofNat 64 ((fieldOf (s.reg (0xD02 + 4 * q)) 31 0 + 1) % 2 ^ 32) := setReg_reg_self
    rw [htail, fieldOf_ofNat (by omega)]
    omega
  · rw [hws, setBytes_append, hl]
    rfl
  · have hcol : SMap.get 0 u.colour b = _ := (SMap.get_set 0 _ _ _ _).trans (congrArg _ (SMap.get_set 0 _ _ _ _))
    rw [hcol]
    by_cases h1 : b = recordAt s q + 1
    · simp [h1]
    · by_cases h2 : b = recordAt s q
      · simp [h2]
      · rw [if_neg (Ne.symm h1), if_neg (Ne.symm h2), if_neg (by simp [h1, h2])]

theorem recordsWritten : Claims.RecordsWritten := by
  refine ⟨fun s source f fw ended tag cycle part args hs hc hu hcy hp hlen => ?_, fun s q ws hq hws => ?_⟩
  · rw [recordWords_eq]
    refine ⟨by simp, rfl, recWord1_fields hs hc hu, recWord2_fields hcy hp, fun i hi => ?_⟩
    rw [Nat.add_comm 3 i]
    exact padded_getD args i hi
  · intro cfg lg tail head a room t
    have ha : a = 32 * recordAt s q := by
      simp only [a, recordAt, tail, lg, cfg]
      omega
    have hlen : (bytesOfWords ws).length = 64 := by rw [bytesOfWords_length, hws]
    refine ⟨fun hroom hend => ?_, fun hroom => ?_⟩
    · obtain ⟨hput, htail, hreg, hmem, hcol, hrest⟩ := recordPut_spec (s := s) (q := q) hroom (List.take_append_drop 32 (bytesOfWords ws)).symm
        (by simp [hlen]) (by simp [hlen]) (ha ▸ hend)
      refine ⟨_, hput, htail, hreg, fun b => ?_, fun b => ?_, hrest⟩
      · rw [hmem, ← bytesOfWords_eq, ha]
      · rw [hcol b, ha, Nat.mul_div_cancel_left _ (by decide : 0 < 32)]
    · have ht : t = lostRecord { s with now := s.now + 1 } q := putRecord_of_full hroom
      have hreg : t.reg (0xD01 + 4 * q) = withField cfg 63 32 (min (fieldOf cfg 63 32 + 1) (2 ^ 32 - 1)) := by
        rw [ht]
        exact setReg_reg_self
      obtain ⟨hlow, hhigh⟩ := lost_fields cfg (min (fieldOf cfg 63 32 + 1) (2 ^ 32 - 1)) (by omega)
      refine ⟨fun i hi => ?_, by rw [hreg, hlow], by rw [hreg, hhigh], by rw [ht]; rfl⟩
      rw [ht]
      exact setReg_reg_ne hi

end Sys2Proof.Machine
end

/-! ## O9 -/
section
namespace Sys2Proof.Machine

/-- Settles O9, from its six claims. -/
theorem exitsAndTraps : Obligations.ExitsAndTraps := ⟨exitTrapReturn, trapTaken, exitLandsWrites, lineEnds, widerWaits, recordsWritten⟩

end Sys2Proof.Machine
end

/-! # Arrivals at barriers (R260, R261) -/
section
namespace Sys2Proof.Machine

/-- The value of a barrier with flags clear, by its fields (R259). -/
def barrier (p ph n x y : Nat) : Nat := p + ph * 2 ^ 32 + n * 2 ^ 64 + x * 2 ^ 80 + y * 2 ^ 96

section
variable {p ph n x y : Nat} (hp : p < 2 ^ 32) (hph : ph < 2 ^ 32) (hn : n < 2 ^ 16) (hx : x < 2 ^ 16) (hy : y < 2 ^ 16)
include hp hph

theorem barrier_phase : bitsOf (barrier p ph n x y) 63 32 = ph := by
  simp only [bitsOf, barrier]
  omega

include hn in
theorem barrier_target : bitsOf (barrier p ph n x y) 79 64 = n := by
  simp only [bitsOf, barrier]
  omega

include hn hx in
theorem barrier_even : bitsOf (barrier p ph n x y) 95 80 = x := by
  simp only [bitsOf, barrier]
  omega

include hn hx hy

theorem barrier_odd : bitsOf (barrier p ph n x y) 111 96 = y := by
  simp only [bitsOf, barrier]
  omega

theorem setBits_even {x'} (h : x' < 2 ^ 16) : setBits (barrier p ph n x y) 95 80 x' = barrier p ph n x' y := by
  rw [setBits, barrier_even hp hph hn hx]
  simp only [barrier]
  omega

theorem setBits_odd {y'} (h : y' < 2 ^ 16) : setBits (barrier p ph n x y) 111 96 y' = barrier p ph n x y' := by
  rw [setBits, barrier_odd hp hph hn hx hy]
  simp only [barrier]
  omega

theorem setBits_phase {ph'} (h : ph' < 2 ^ 32) : setBits (barrier p ph n x y) 63 32 ph' = barrier p ph' n x y := by
  rw [setBits, barrier_phase hp hph]
  simp only [barrier]
  omega

/-- No phase completes while the current count has not reached TARGET. -/
theorem barAdvance_short (h0 : ph % 2 = 0 → x ≠ n) (h1 : ph % 2 = 1 → y ≠ n) (fuel : Nat) :
    barAdvance fuel (barrier p ph n x y) = barrier p ph n x y := by
  cases fuel with
  | zero => rfl
  | succ fuel =>
    rw [barAdvance, barrier_phase hp hph, barrier_target hp hph hn]
    rcases Nat.mod_two_eq_zero_or_one ph with h | h
    · simp [h, barrier_even hp hph hn hx, h0 h]
    · simp [h, barrier_odd hp hph hn hx hy, h1 h]

/-- An even phase whose count has reached TARGET completes, its count zero again. -/
theorem barAdvance_full (he : ph % 2 = 0) (hxn : x = n) (h0 : n ≠ 0) (hph' : ph + 1 < 2 ^ 32) (hyn : y ≠ n) :
    barAdvance 2 (barrier p ph n x y) = barrier p (ph + 1) n 0 y := by
  have hodd : (ph + 1) % 2 = 1 := by omega
  rw [barAdvance, barrier_phase hp hph, barrier_target hp hph hn, if_pos he, barrier_even hp hph hn hx, setBits_even hp hph hn hx hy (by omega),
    setBits_phase hp hph hn (by omega) hy hph', barAdvance_short hp hph' hn (by omega) hy (by omega) (fun _ => hyn)]
  simp [hxn, h0]

end

/-- What an arrival does at a barrier in an even phase: at its phase, one, two and three phases ahead. -/
theorem arrive_even {p ph n x y : Nat} (hp : p < 2 ^ 32) (hph : ph < 2 ^ 32) (hn : n < 2 ^ 16) (hx : x < 2 ^ 16) (hy : y < 2 ^ 16) (h0 : n ≠ 0)
    (he : ph % 2 = 0) :
    arrive (barrier p ph n x y) (ph % 4) = .counted (barAdvance 2 (setBits (barrier p ph n x y) 95 80 (x + 1)))
    ∧ arrive (barrier p ph n x y) ((ph + 1) % 4) = (if y = n then .held else .counted (setBits (barrier p ph n x y) 111 96 (y + 1)))
    ∧ arrive (barrier p ph n x y) ((ph + 2) % 4) = .held
    ∧ arrive (barrier p ph n x y) ((ph + 3) % 4) = .bad := by
  have d0 : (ph % 4 + 4 - ph % 4) % 4 = 0 := by omega
  have d1 : ((ph + 1) % 4 + 4 - ph % 4) % 4 = 1 := by omega
  have d2 : ((ph + 2) % 4 + 4 - ph % 4) % 4 = 2 := by omega
  have d3 : ((ph + 3) % 4 + 4 - ph % 4) % 4 = 3 := by omega
  simp only [arrive, barrier_target hp hph hn, if_neg h0, barrier_phase hp hph, d0, d1, d2, d3, if_pos he, barrier_even hp hph hn hx,
    barrier_odd hp hph hn hx hy, and_self]

theorem arrive_of_no_target {v b : Nat} (h : bitsOf v 79 64 = 0) : arrive v b = .bad := if_pos h

theorem arrivalsAtBarriers : Claims.ArrivalsAtBarriers := by
  intro p ph n x y hp hph hn hx hy he bar
  have hbar : ∀ ph x y, bar ph x y = barrier p ph n x y := fun _ _ _ => rfl
  simp only [hbar]
  clear_value bar
  have hph' : ph < 2 ^ 32 := by omega
  have hx' : x < 2 ^ 16 := by omega
  have hy' : y < 2 ^ 16 := by omega
  have h0 : n ≠ 0 := by omega
  obtain ⟨at0, at1, at2, at3⟩ := arrive_even hp hph' hn hx' hy' h0 he
  obtain ⟨-, at1_full, -, -⟩ := arrive_even hp hph' hn hx' hn h0 he
  refine ⟨fun hlt => ?_, fun heq => ?_, ?_, at1_full.trans (if_pos rfl), at2, at3, fun b _ => arrive_of_no_target ?_⟩
  · rw [at0, setBits_even hp hph' hn hx' hy' (by omega), barAdvance_short hp hph' hn (by omega) hy' (by omega) (by omega)]
  · rw [at0, setBits_even hp hph' hn hx' hy' (by omega), barAdvance_full hp hph' hn (by omega) hy' he heq h0 (by omega) (by omega)]
  · rw [at1, if_neg (by omega), setBits_odd hp hph' hn hx' hy' (by omega)]
  · simp only [bitsOf]
    omega

end Sys2Proof.Machine
end

/-! # The completion of a ferry command (R242, R263) -/
section
namespace Sys2Proof.Machine

theorem updCmd_of_find {s : State} {id c f} (h : s.cmds.find id = some c) : s.updCmd id f = { s with cmds := s.cmds.put id (f c) } := by
  simp only [State.updCmd, h]

/-- A command without rows on their way, markers to wait for, or a barrier completes as it stands (R263). -/
theorem execFerryCommandComplete_of_plain {s : State} {id c} (h : s.cmds.find id = some c) (hst : c.st = .moved) (hp : c.port = 0) (hsk : c.bits 10 8 = 2)
    (hdk : c.bits 13 11 = 2) (hb : c.ben = false) (ha : c.after = []) (has : c.afterSusps = []) (hd : c.dirtied = []) (hi : c.items = [])
    (h1 : c.op ≠ 0xEC) (h2 : c.op ≠ 0xE1) :
    execFerryCommandComplete id s = .next (finishCmd { s with cmds := s.cmds.put id c } id) := by
  have hrows : rowsArrived s c = true := by simp [rowsArrived, hdk]
  have hmarks : markersPassed s c = true := by simp [markersPassed, allPassed, ha, has]
  have hback : writeBackCmd s c = s := by simp [writeBackCmd, hd]
  have hend : endMarks id c s = s := by
    simp only [endMarks, hsk]
    cases c.core <;> rfl
  have hwrote (n : Nat) : barWrote s c n = s := by simp [barWrote, hb]
  have hitems : s.updCmd id (fun c => { c with items := [] }) = { s with cmds := s.cmds.put id c } := by
    rw [updCmd_of_find h, ← hi]
  have hcomplete : completeCmd (s.updCmd id (fun c => { c with items := [] })) id = finishCmd { s with cmds := s.cmds.put id c } id := by
    rw [hitems]
    simp [completeCmd, SMap.find_put, hb]
  simp only [execFerryCommandComplete, h, hst, hp, hrows, hmarks, hb, hback, hwrote, hend, h1, h2, hsk, or_self, if_false]
  cases c.core <;> exact congrArg Host.Outcome.next hcomplete

/-- What a completed command of no record leaves, with nothing dirty: it is gone, and HEN is signalled (R242, R263). -/
theorem finishCmd_of_unowned {s : State} {id c} (h : s.cmds.find id = some c) (hd : c.dirtied = []) (ho : c.owner = none) :
    finishCmd s id = henSignal { s with cmds := s.cmds.del id } c := by
  have hseen : noteUnseen { s with cmds := s.cmds.del id } c = { s with cmds := s.cmds.del id } := by
    simp only [noteUnseen, hd]
    cases c.issuer <;> rfl
  simp only [finishCmd, h, hseen, ho]

theorem henSignal_of_clear {s : State} {c : Cmd} (h : c.hen = false) : henSignal s c = s := by simp [henSignal, h]

theorem henSignal_of_fw {s : State} {c : Cmd} {k r} (h : c.hen = true) (hi : c.issuer = .ctx k true r) : henSignal s c = hsemChange s k ⟨0, c.h, 1, none⟩ := by
  simp [henSignal, h, hi]

/-- HEN changes nothing but semaphores of cores (R242). -/
theorem henSignal_frame (s : State) (c : Cmd) : (henSignal s c).cmds = s.cmds ∧ { henSignal s c with cores := s.cores } = s := by
  unfold henSignal
  cases c.issuer <;> dsimp only <;> split_ifs <;> exact ⟨rfl, rfl⟩

theorem ferryCompletes : Claims.FerryCompletes := by
  intro s id c h hst hp hsk hdk hb ha has hd hi h1 h2 ho
  refine ⟨_, execFerryCommandComplete_of_plain h hst hp hsk hdk hb ha has hd hi h1 h2, ?_⟩
  rw [finishCmd_of_unowned ((SMap.find_put _ _ _ _).trans (if_pos rfl)) hd ho]
  generalize hs' : ({ s with cmds := (s.cmds.put id c).del id } : State) = s'
  have hcores : s'.cores = s.cores := hs' ▸ rfl
  obtain ⟨hcmds, hframe⟩ := henSignal_frame s' c
  refine ⟨?_, ?_, fun hh => ?_, fun k hk hh => ?_⟩
  · rw [hcmds, ← hs']
    exact SMap.find_del_self _ id
  · calc { henSignal s' c with cores := s.cores, cmds := s.cmds }
        = { { henSignal s' c with cores := s'.cores } with cmds := s.cmds } := by rw [hcores]
      _ = s := by rw [hframe, ← hs']
  · rw [henSignal_of_clear hh, hcores]
  · rw [henSignal_of_fw hh hk]
    have hcore (j : Nat) : s'.core j = s.core j := by rw [State.core, hcores]; rfl
    refine ⟨?_, fun j hj => ?_⟩
    · rw [hsemChange, State.core_updCore_self, hcore]
    · rw [hsemChange, State.core_updCore, if_neg (Ne.symm hj), hcore]

end Sys2Proof.Machine
end

/-! # A fill of staging that goes on (R28, R240, R254) -/
section
namespace Sys2Proof.Machine

/-! ## Lines and units in order -/

theorem lineGroups_flatten : ∀ us : List FUnit, (lineGroups us).flatten = us
  | [] => rfl
  | u :: us => by
    have ih := lineGroups_flatten us
    rw [lineGroups]
    split
    · next h =>
      rw [h] at ih
      split <;> simpa using ih
    · simpa using ih

section
variable {id : Nat} {cache : Option Nat} {busy : Bool → Nat × Nat → Bool} {short : Bool} {t : Transfer} {slice off w : Nat}
variable (hdst : t.dst = .land slice off w)
include hdst

/-- Sectors of staging are never moved as bursts (R53). -/
theorem moveBurst_of_land {u v : FUnit} {s : State} : moveBurst id cache busy short t u v s = .single := by
  unfold moveBurst
  split
  · rfl
  · simp only [burstTile, hdst]

theorem moveUnits_of_foldlM : ∀ {us : List FUnit} {s s' : State},
    us.foldlM (fun s u => moveUnit id cache busy t u s) s = .ok s' → moveUnits id cache busy short t us s = (s', none)
  | [], s, s', h => by
    cases h
    rfl
  | [u], s, s', h => by
    have hu : moveUnit id cache busy t u s = .ok s' := by
      rw [← h, List.foldlM_cons]
      cases moveUnit id cache busy t u s <;> rfl
    simp only [moveUnits, hu]
  | u :: v :: us, s, s', h => by
    rw [List.foldlM_cons] at h
    rw [moveUnits, moveBurst_of_land hdst]
    cases hu : moveUnit id cache busy t u s with
    | error e =>
      rw [hu] at h
      cases h
    | ok s1 =>
      rw [hu] at h
      exact moveUnits_of_foldlM h

theorem moveLines_of_foldlM : ∀ {gs : List (List FUnit)} {s s' : State},
    gs.flatten.foldlM (fun s u => moveUnit id cache busy t u s) s = .ok s' → moveLines id cache busy short t gs s = (s', none)
  | [], s, s', h => by
    cases h
    rfl
  | g :: gs, s, s', h => by
    rw [List.flatten_cons, List.foldlM_append] at h
    cases hg : g.foldlM (fun s u => moveUnit id cache busy t u s) s with
    | error e =>
      rw [hg] at h
      cases h
    | ok s1 =>
      rw [hg] at h
      rw [moveLines, moveUnits_of_foldlM hdst hg]
      exact moveLines_of_foldlM h

/-- A transfer to staging whose units left all move ends there, its command at the next transfer. -/
theorem moveAll_of_foldlM {s s' : State} {c : Cmd} (hc : s.cmds.find id = some c)
    (h : (t.units.drop c.nsect).foldlM (fun s u => moveUnit id cache busy t u s) s = .ok s') :
    moveAll id cache busy short [t] s = (s'.updCmd id (fun c => { c with pos := c.pos + 1, nsect := 0 }), none) := by
  rw [← lineGroups_flatten (t.units.drop c.nsect)] at h
  simp only [moveAll, hc, Option.map_some, Option.getD_some, moveLines_of_foldlM hdst h, hdst]
end

/-! ## The sectors of a fill -/

/-- Sector `j` of a range of 128-bit items. -/
def wideUnit (j : Nat) : FUnit := ⟨0, j, j, [(j, j)]⟩

theorem flatUnits_one (n : Nat) : flatUnits 1 n = (List.range n).map wideUnit := by
  simp only [flatUnits, Nat.add_sub_cancel, Nat.div_one]
  refine List.map_congr_left fun j hj => ?_
  have h1 : min 1 (n - j * 1) = 1 := by have := List.mem_range.1 hj; omega
  rw [h1]
  simp [wideUnit]

/-- The transfer of a fill of staging (R254): 128-bit items, each the value twice. -/
def fillPlan (v : Word) (slice off n : Nat) : Transfer := ⟨.fixed (v.toNat * (2 ^ 64 + 1)), .land slice off 128, n⟩

theorem fillPlan_units (v : Word) (slice off n : Nat) : (fillPlan v slice off n).units = (List.range n).map wideUnit := flatUnits_one n

theorem bytesOfNat_append (m n v w : Nat) (h : v < 256 ^ m) : bytesOfNat (m + n) (v + 256 ^ m * w) = bytesOfNat m v ++ bytesOfNat n w := by
  induction m generalizing v with
  | zero =>
    obtain rfl : v = 0 := by simpa using h
    simp [bytesOfNat]
  | succ m ih =>
    have hdiv : (v + 256 ^ (m + 1) * w) / 256 = v / 256 + 256 ^ m * w := by
      rw [Nat.pow_succ, Nat.mul_comm _ 256, Nat.mul_assoc, Nat.add_mul_div_left _ _ (by omega)]
    have hlow : BitVec.ofNat 8 (v + 256 ^ (m + 1) * w) = BitVec.ofNat 8 v := by
      apply BitVec.eq_of_toNat_eq
      rw [BitVec.toNat_ofNat, BitVec.toNat_ofNat, Nat.pow_succ, Nat.mul_comm _ 256, Nat.mul_assoc]
      omega
    have hv : v / 256 < 256 ^ m := Nat.div_lt_of_lt_mul (by rwa [Nat.pow_succ, Nat.mul_comm] at h)
    rw [Nat.succ_add_eq_add_succ, Nat.add_succ, bytesOfNat, bytesOfNat, hdiv, hlow, ih _ hv, List.cons_append]

/-- The sector that a fill writes holds its value twice (R254). -/
theorem packItems_fill (v : Word) : packItems 128 [v.toNat * (2 ^ 64 + 1)] = bytesOfNat 8 v.toNat ++ bytesOfNat 8 v.toNat := by
  have hv := v.isLt
  rw [← bytesOfNat_append 8 8 _ _ (by omega)]
  simp only [packItems, packList, List.length_singleton]
  congr 1
  omega

/-- A command that may address a range of staging may address each part of it (R56). -/
theorem landAllowed_part {s : State} {c : Cmd} {slice off n a m : Nat} (h : landAllowed s c slice off n = true) (ha : a + m ≤ n) :
    landAllowed s c slice (off + a) m = true := by
  simp only [landAllowed, landOk, Bool.and_eq_true, decide_eq_true_eq] at h ⊢
  obtain ⟨⟨hs, hend⟩, hi⟩ := h
  refine ⟨⟨hs, by omega⟩, ?_⟩
  revert hi
  split
  · split
    · simp only [Bool.and_eq_true, decide_eq_true_eq]
      rintro ⟨hs, h1, h2⟩
      exact ⟨hs, by omega, by omega⟩
    · exact id
  all_goals exact id

theorem landPut_of_sound {s : State} {slice off} {b : List Byte} (hs : s.soundStaging) (h : landOk s slice off b.length = true) :
    landPut s slice off b = .ok { s with land := s.land.setBytes (slice * 2 ^ 22 + off) b } := by
  have hfilter (f : Nat × Nat → Bool) : s.uncorr.filter (fun u => !(u.1 = 3 && f u)) = s.uncorr :=
    List.filter_eq_self.2 fun u hu => by simp [hs u hu]
  simp only [landPut, h, if_true, hfilter]

/-- Staging is `l` and the command has moved so many sectors and bytes; nothing else differs, and the command's next change goes as from `s`. -/
def fillAt (s : State) (id : Nat) (c : Cmd) (l : Memory) (t : State) : Prop :=
  ∃ (m : SMap Cmd) (n b : Nat), t = { s with land := l, cmds := m } ∧ m.find id = some { c with nsect := n, bytes := b } ∧ ∀ x, m.put id x = s.cmds.put id x

/-- A sector of staging that a command moves, without a barrier (R240). -/
theorem moveUnit_of_land {id cache busy slice off w n} {src : SrcPlan} {u : FUnit} {s s1 s2 : State} {c : Cmd} {vs : List (Nat × Elem)}
    (hc : s.cmds.find id = some c) (hben : c.ben = false) (htake : takeUnit id cache busy ⟨src, .land slice off w, n⟩ u c.portOf s = .ok (vs, s1))
    (hput : putUnit id c cache (.land slice off w) src u vs s1 = .ok s2) :
    moveUnit id cache busy ⟨src, .land slice off w, n⟩ u s
      = .ok (s2.updCmd id (fun c => { c with nsect := c.nsect + 1, bytes := c.bytes + (u.items.length * w + 7) / 8 })) := by
  have hwrote (t : State) (k : Nat) : barWrote t c k = t := by simp [barWrote, hben]
  simp only [moveUnit, reserveRow, hc, htake, hput, unitMoved, hwrote]
  rfl

section
variable {s : State} {id : Nat} {c : Cmd} {cache : Option Nat} {busy : Bool → Nat × Nat → Bool} {v : Word} {slice off count : Nat}
variable (hs : s.soundStaging)
include hs

/-- The write of a sector of a fill. -/
theorem putUnit_fill {n j : Nat} (hland : landAllowed s c slice off n = true) (hj : 16 * j + 16 ≤ n) :
    putUnit id c cache (.land slice off 128) (.fixed (v.toNat * (2 ^ 64 + 1))) (wideUnit j) [(j, ⟨v.toNat * (2 ^ 64 + 1), [], false⟩)] s
      = .ok { s with land := s.land.setBytes (slice * 2 ^ 22 + off + 16 * j) (bytesOfNat 8 v.toNat ++ bytesOfNat 8 v.toNat) } := by
  have hlen : (bytesOfNat 8 v.toNat ++ bytesOfNat 8 v.toNat).length = 16 := by simp [bytesOfNat_length]
  have hallowed : landAllowed s c slice (off + 16 * j) 16 = true := landAllowed_part hland hj
  have hok : landOk s slice (off + 16 * j) 16 = true := (Bool.and_eq_true_iff.1 hallowed).1
  have hwrite := landPut_of_sound (b := bytesOfNat 8 v.toNat ++ bytesOfNat 8 v.toNat) hs (show landOk s slice (off + 16 * j) _ = true by rwa [hlen])
  rw [← Nat.add_assoc] at hwrite
  simp only [putUnit, List.any_cons, List.any_nil, List.map_cons, List.map_nil, packItems_fill, Bool.or_self, wideUnit, cmdLandPut, hlen, hallowed, hwrite]
  rfl

variable (hbusy : ∀ w x, busy w x = false) (hben : c.ben = false) (hland : landAllowed s c slice off (16 * count) = true)
include hbusy hben hland

/-- A sector of a fill moves. -/
theorem moveUnit_fill {t : State} {l : Memory} {j : Nat} (hj : j < count) (ht : fillAt s id c l t) :
    ∃ t', moveUnit id cache busy (fillPlan v slice off count) (wideUnit j) t = .ok t'
      ∧ fillAt s id c (l.setBytes (slice * 2 ^ 22 + off + 16 * j) (bytesOfNat 8 v.toNat ++ bytesOfNat 8 v.toNat)) t' := by
  obtain ⟨m, n, b, ht, hm, hput⟩ := ht
  have hfind : t.cmds.find id = some { c with nsect := n, bytes := b } := ht ▸ hm
  have hsound : t.soundStaging := ht ▸ hs
  have hallowed : landAllowed t { c with nsect := n, bytes := b } slice off (16 * count) = true := ht ▸ hland
  have htake (p : Port) : takeUnit id cache busy (fillPlan v slice off count) (wideUnit j) p t
      = .ok ([(j, ⟨v.toNat * (2 ^ 64 + 1), [], false⟩)], t) := by
    simp [takeUnit, hbusy, readItems, readItem, wideUnit, fillPlan, hfind]
  refine ⟨_, moveUnit_of_land hfind hben (htake _) (putUnit_fill hsound hallowed (by omega)), m.put id { c with nsect := n + 1, bytes := b + ((wideUnit j).items.length * 128 + 7) / 8 }, n + 1,
    b + ((wideUnit j).items.length * 128 + 7) / 8, ?_, ?_,
    fun x => by rw [SMap.put_put, hput]⟩
  · rw [updCmd_of_find (by exact hfind), ht]
  · rw [SMap.find_put, if_pos rfl]

/-- The sectors of a fill from one on to its end are written, one after the other. -/
theorem foldlM_fill {n : Nat} : ∀ {k : Nat} {t : State} {l : Memory}, k + n ≤ count → fillAt s id c l t →
    ∃ t', ((List.range' k n).map wideUnit).foldlM (fun s u => moveUnit id cache busy (fillPlan v slice off count) u s) t = .ok t'
      ∧ fillAt s id c (l.setBytes (slice * 2 ^ 22 + off + 16 * k) (List.replicate n (bytesOfNat 8 v.toNat ++ bytesOfNat 8 v.toNat)).flatten) t' := by
  induction n with
  | zero => exact fun _ ht => ⟨_, rfl, ht⟩
  | succ n ih =>
    intro k t l hk ht
    obtain ⟨t1, hmove, ht1⟩ := moveUnit_fill hs hbusy hben hland (v := v) (cache := cache) (show k < count by omega) ht
    obtain ⟨t2, hrest, ht2⟩ := ih (show k + 1 + n ≤ count by omega) ht1
    refine ⟨t2, ?_, ?_⟩
    · rw [List.range'_succ, List.map_cons, List.foldlM_cons, hmove]
      exact hrest
    · rw [List.replicate_succ, List.flatten_cons, setBytes_append]
      simpa only [List.length_append, bytesOfNat_length, Nat.mul_add, Nat.mul_one, Nat.add_assoc] using ht2
end

/-! ## A command that goes on -/

/-- Nothing is busy for the first command of its ferry while no slice is being resized (R55, R262). -/
theorem sectorBusy_of_first {s : State} {c : Cmd} (hr : s.resizing = [])
    (hfirst : ∀ p ∈ s.cmds, p.2.port = 0 → p.2.unit = c.unit → p.2.st = .running ∨ p.2.isSuspended = true → c.qseq ≤ p.2.qseq) (w : Bool) (k : Nat × Nat) :
    sectorBusy s c w k = false := by
  have hbefore : s.cmds.filter (fun p => p.2.port == 0 && p.2.unit == c.unit && decide (p.2.qseq < c.qseq) && (p.2.st == .running || p.2.isSuspended)) = [] := by
    refine List.filter_eq_nil_iff.2 fun p hp => ?_
    simp only [Bool.and_eq_true, Bool.or_eq_true, beq_iff_eq, decide_eq_true_eq, not_and, and_imp]
    intro hport hunit hlt hst
    exact absurd (hfirst p hp hport hunit hst) (Nat.not_le.2 hlt)
  have hsize (sl : Nat) : resizingSlice s sl = false := by simp [resizingSlice, hr, SMap.find]
  simp [sectorBusy, hbefore, hsize]

theorem takeRows_of_noCore {s : State} {id c need} (h : s.cmds.find id = some c) (hsk : c.bits 10 8 = 0) : takeRows id need s = s := by
  simp only [takeRows, h, hsk]
  cases c.core <;> rfl

theorem settleMarks_of_noCore {s : State} {id c ts} (h : s.cmds.find id = some c) (hsk : c.bits 10 8 = 0) : settleMarks id ts s = s := by
  simp only [settleMarks, h, hsk]
  cases c.core <;> rfl

/-- A started transfer without rows of a core ends as moved when its transfers are. -/
theorem runFerry_of_moveAll {s s3 : State} {id : Nat} {c c3 : Cmd} {i : Instr} {ts : List Transfer} (h : s.cmds.find id = some c) (hr : s.resizing = [])
    (hbegun : c.begun = true) (hsk : c.bits 10 8 = 0) (hcache : c.word.getLsbD 25 = false) (hpos : c.pos = 0) (hsingle : runSingle i id c s = none)
    (hplan : planOf s c i = .ok ts) (hmove : moveAll id none (sectorBusy s c) (noMoreRows s c) ts s = (s3, none)) (h3 : s3.cmds.find id = some c3)
    (hsk3 : c3.bits 10 8 = 0) : runFerry i id s = ferrySettle id i (s3, none) := by
  have hsize : (c.slices i).any (resizingSlice s) = false := by simp [resizingSlice, hr, SMap.find]
  have hbegin : begin0 id i c (sectorBusy s c) s = .ok s := by simp [begin0, hbegun]
  have hlacks : lacksRows s3 id = false := by simp [lacksRows, h3, hsk3]
  simp only [runFerry, h, hsize, hbegin, hsingle, takeRows_of_noCore h hsk, Option.getD_some, hplan, hcache, hpos, List.drop_zero, hmove,
    settleMarks_of_noCore h3 hsk3, hlacks, Bool.false_eq_true, if_false, Bool.and_false]

theorem goesOn : Claims.GoesOn := by
  intro s id k c h f hc hport hst hbegun hpos hnsect hinstr hsk _ hben hcache hdk hk hs hr hfirst hland v
  have hplan : planOf s c (.ferry_fill h f) = .ok [fillPlan f.value (epSlice f.dst) (epOff f.dst) f.count.toNat] := by
    simp [planOf, planFill, fillPlan, hdk]
  have hunits : (fillPlan f.value (epSlice f.dst) (epOff f.dst) f.count.toNat).units.drop c.nsect
      = (List.range' k (f.count.toNat - k)).map wideUnit := by
    rw [hnsect, fillPlan_units, ← List.map_drop, List.range_eq_range', List.drop_range']
    simp
  obtain ⟨s2, hmoves, m, n, b, rfl, hm, hput⟩ := foldlM_fill hs (sectorBusy_of_first hr hfirst) hben hland (cache := none) (v := f.value)
    (n := f.count.toNat - k) (k := k) (by omega) ⟨s.cmds, c.nsect, c.bytes, rfl, hc, fun _ => rfl⟩
  have hmove := moveAll_of_foldlM (short := noMoreRows s c) rfl hc (hunits ▸ hmoves)
  rw [updCmd_of_find (by exact hm)] at hmove
  have hfind (x : Cmd) : (m.put id x).find id = some x := by rw [SMap.find_put, if_pos rfl]
  have hrun := runFerry_of_moveAll hc hr hbegun hsk hcache hpos rfl hplan hmove (hfind _) hsk
  have hexec : exec (.ferry_continue id) s = .next (runFerry (.ferry_fill h f) id s) := by
    show execFerryContinue id s = _
    simp only [execFerryContinue, hc, hst, hport, hinstr]
    rfl
  refine ⟨_, hexec.trans (congrArg _ (hrun.trans (updCmd_of_find (hfind _)))), { c with pos := c.pos + 1, nsect := 0, bytes := b, st := .moved }, rfl, ?_⟩
  simp only [SMap.put_put, hput]
  rfl

/-- Settles O45: the sectors of a fill are written one after the other, a completion is the removal of its command with HEN's signal, and an arrival is
decided by the fields of its barrier. -/
theorem ferryCompletion : Obligations.FerryCompletion := ⟨goesOn, ferryCompletes, arrivalsAtBarriers⟩

end Sys2Proof.Machine
end

/-! # A record that the scheduler chooses and that does not start (R331, R341, R385) -/
section
namespace Sys2Proof.Machine

/-- The record in focus stays as it is while its partition is halted (R385). -/
theorem startRec_of_halted {s : State} {r : Rec} (eff : Nat → Rec → State → QRes State) (h : s.recs.find s.focus.record = some r)
    (hh : s.halted.contains r.part = true) : startRec eff s = .next s := by
  simp only [startRec, startRecOf, h, hh, or_true, if_true]

/-- Only a ferry takes its commands in turn (R239). -/
theorem ferryTurn_of_port {s : State} {c : Cmd} (h : c.port ≠ 0) : ferryTurn s c = true := by simp [ferryTurn, h]

/-- A KV record of partition 0, on the last queue. -/
def kvRec : Rec := { word := .ofNat 512 (4 + 1023 * 2 ^ 12), queue := 1023, part := 0, graph := 0 }

/-- A NOP of partition 1 on the same queue. -/
def nopRec : Rec := { word := .ofNat 512 (1023 * 2 ^ 12), queue := 1023, part := 1, graph := 0 }

/-- Partition 0 is halted. The table of queues lists the last queue twice: `State.queue` reads the first entry, which `kvRec` heads, and the scheduler finds
the second one ready, which `nopRec` heads. -/
def listedTwice : State :=
  { State.reset with recs := [(1, kvRec), (2, nopRec)], queues := [(1023, { on := true, weight := 1, stream := [1] }), (1023, { on := true, weight := 1, stream := [2] })],
                     halted := [0], focus := { record := 1 } }

theorem listedTwice_schedPick : ∃ rr, schedPick listedTwice kvRec.part (queueKind kvRec.queue) = some (kvRec.queue, rr) := by
  have h : (schedPick listedTwice kvRec.part (queueKind kvRec.queue)).map (·.1) = some kvRec.queue := by decide +kernel
  obtain ⟨⟨q, rr⟩, hpick, rfl⟩ := Option.map_eq_some_iff.1 h
  exact ⟨rr, hpick⟩

theorem listedTwice_recordStarts : listedTwice.recordStarts 1 kvRec :=
  ⟨rfl, rfl, rfl, rfl, rfl, rfl, rfl, by decide +kernel, ⟨some 88, by decide +kernel, fun key h => by cases h; decide +kernel⟩, listedTwice_schedPick⟩

/-- Refutes O51: where the table of queues lists a queue twice, which the statement does not exclude, a KV record meets every premise of `CommandRecords` and
is not taken: its queue is chosen for the queue's second entry, and its own partition is halted (R385). -/
theorem not_workRecords : ¬ Obligations.WorkRecords := by
  rintro ⟨-, hcommand, -⟩
  obtain ⟨-, -, hkv⟩ := hcommand listedTwice 1 88 kvRec ⟨0, 0, 0, 0, 0, 0, 0, 0, 0, 0, 0, 0, 0⟩ listedTwice_recordStarts (by decide +kernel) (by decide +kernel)
    (by decide +kernel) (fun q rr _ => ferryTurn_of_port (by decide +kernel))
  obtain ⟨t, x, -, hexec, hfind, hrunning, -⟩ := hkv ⟨0xFC, 0, 0, 0⟩ (by decide +kernel) (by decide +kernel)
  have hstays : exec (.kv_record ⟨0, 0, 0, 0, 0, 0, 0, 0, 0, 0, 0, 0, 0⟩ ⟨0xFC, 0, 0, 0⟩) listedTwice = .next listedTwice :=
    startRec_of_halted (s := listedTwice) (r := kvRec) (commandEff 2 (cmdWord 0xFC 0 0 0)) rfl rfl
  obtain rfl : listedTwice = t := Host.Outcome.next.inj (hstays.symm.trans hexec)
  obtain rfl : kvRec = x := Option.some.inj hfind
  cases hrunning

end Sys2Proof.Machine
end

/-! # What an entry schedules on its core (R163) -/
section
namespace Sys2Proof.Machine

theorem now0_updF {s : State} {f : Core → Core} (h : (f s.fcore).crew = s.fcore.crew) : (s.updF f).now0 = s.now0 := by
  have hc : (s.updF f).crewOf s.focus.core = s.crewOf s.focus.core := crewOf_setCore s s.focus.core (f s.fcore) s.focus.core h
  unfold State.now0 State.clock
  rw [State.updF_focus, hc]

@[simp] theorem now0_setRnd {s : State} {rd : Rounding} : (s.setRnd rd).now0 = s.now0 := now0_updF rfl

@[simp] theorem now0_later {s : State} {due : Nat} {e : Eff} : (s.later due e).now0 = s.now0 := now0_updF rfl

theorem fcore_later {s : State} {due : Nat} {e : Eff} : (s.later due e).fcore = { s.fcore with pend := s.fcore.pend ++ [⟨due, s.focus.org, e⟩] } :=
  State.fcore_updF s _

theorem fcore_setRnd {s : State} {rd : Rounding} : (s.setRnd rd).fcore = s.fcore.updStream s.focus.stn (fun t => { t with rd := rd }) :=
  State.fcore_updF s _

end Sys2Proof.Machine
end

/-! # Bank writes (O19; R74, R168 to R170) -/
section
namespace Sys2Proof.Machine

theorem prepWrite_of_own_format {k : BankCtx} {x : Row} {mask : Option (BitVec 16)} (ht : x.tag = k.fmt) (hc : k.fmt ≠ .cb4) :
    prepWrite k x 0 mask = .ok (⟨k.fmt, 0, fmtElems k.fmt, x, mask⟩, k.rd) := by
  obtain ⟨data, tag, poison, side⟩ := x
  subst ht
  simp_all [prepWrite, checkWrite]

/-- The state after a write, by the bank in focus, of the row `r` that its lane held: the stream keeps its numeric state, and the row is to land
at the end of the next cycle. -/
def ownWritten (s s1 : State) (r : Row) (rowNo : Nat) (mask : Option (BitVec 16)) : State :=
  (s1.setRnd s1.rnd).later (s.now0 + 1) (.bankWrite s.focus.stn rowNo
    ⟨(s.fcore.bank s.focus.stn).fmt, 0, fmtElems (s.fcore.bank s.focus.stn).fmt, r, mask⟩)

theorem bankWrite_of_unreserved {s : State} {h : Ent} {rowNo part : Nat} {mask : Option (BitVec 16)} (hb : hasBank s.focus.stn s = false) :
    bankWrite h rowNo part mask s = .error (raise allotUse 0 s.focus.stn s) := by
  simp [bankWrite, hb]

/-- The ring of R169, of the fields as the entry holds them. -/
theorem ringRow_of_fields (rp : Nat) (base len : BitVec 11) (off : BitVec 5) (adv : BitVec 1) :
    ringRow rp base.toNat len.toNat off.toNat adv.toNat
      = (base.toNat + (rp + off.toNat) % (if len = 0 then 2048 else len.toNat),
        if adv = 1 then (rp + 1) % (if len = 0 then 2048 else len.toNat) else rp) := by
  have hlen : len.toNat = 0 ↔ len = 0 := by rw [← BitVec.toNat_inj]; rfl
  have hadv : adv.toNat = 1 ↔ adv = 1 := by rw [← BitVec.toNat_inj]; rfl
  simp only [ringRow, hlen, hadv]

theorem fcore_setRp {s : State} {rp : Nat} : (setRp rp s).fcore = s.fcore.updBank s.focus.stn (fun b => { b with rp := rp }) :=
  State.fcore_updF s _

theorem bank_updBank (k : Core) (n : Nat) (f : Bank → Bank) : (k.updBank n f).bank n = f (k.bank n) := SMap.get_put_self _ _ _ _

section
variable {s s1 : State} {r : Row} {rowNo : Nat} {mask : Option (BitVec 16)}

theorem ownWritten_fcore : (ownWritten s s1 r rowNo mask).fcore = { s1.fcore.updStream s1.focus.stn (fun t => { t with rd := s1.rnd }) with
    pend := s1.fcore.pend ++ [⟨s.now0 + 1, s1.focus.org, .bankWrite s.focus.stn rowNo
      ⟨(s.fcore.bank s.focus.stn).fmt, 0, fmtElems (s.fcore.bank s.focus.stn).fmt, r, mask⟩⟩] } := by
  rw [ownWritten, fcore_later, fcore_setRnd]
  rfl

theorem ownWritten_pend (hfocus : s1.focus = s.focus) : (ownWritten s s1 r rowNo mask).fcore.pend = s1.fcore.pend ++ [⟨s.now0 + 1, s.focus.org,
    .bankWrite s.focus.stn rowNo ⟨(s.fcore.bank s.focus.stn).fmt, 0, fmtElems (s.fcore.bank s.focus.stn).fmt, r, mask⟩⟩] := by
  rw [ownWritten_fcore, hfocus]

theorem ownWritten_banks : (ownWritten s s1 r rowNo mask).fcore.banks = s1.fcore.banks := by
  rw [ownWritten_fcore]
  rfl

theorem setRp_ownWritten_bank {rp : Nat} (hfocus : s1.focus = s.focus) (hbank : s1.fcore.bank s.focus.stn = s.fcore.bank s.focus.stn) :
    (setRp rp (ownWritten s s1 r rowNo mask)).fcore.bank s.focus.stn = { s.fcore.bank s.focus.stn with rp := rp } := by
  have hstn : (ownWritten s s1 r rowNo mask).focus.stn = s.focus.stn := congrArg Focus.stn hfocus
  rw [fcore_setRp, hstn, bank_updBank, ← hbank, ownWritten_fcore]
  rfl

end

section
variable {s s1 : State} {h : Ent} {l : BitVec 4} {r : Row} (hsa : h.sa = .lane l) (hb : hasBank s.focus.stn s = true)
  (htap : tapLane s.focus.stn l.toNat s = .ok (r, s1)) (htag : r.tag = (s.fcore.bank s.focus.stn).fmt)
  (hbank : s1.fcore.bank s.focus.stn = s.fcore.bank s.focus.stn) (hfocus : s1.focus = s.focus) (hcb : (s.fcore.bank s.focus.stn).fmt ≠ .cb4)
include hsa hb htap htag hbank hfocus hcb

theorem bankWrite_of_own_format (rowNo : Nat) (mask : Option (BitVec 16)) : bankWrite h rowNo 0 mask s = .ok (ownWritten s s1 r rowNo mask) := by
  have hfmt : (bankCtx s1).fmt = (s.fcore.bank s.focus.stn).fmt := by simp only [bankCtx, hfocus, hbank]
  have hprep := prepWrite_of_own_format (k := bankCtx s1) (x := r) (mask := mask) (htag.trans hfmt.symm) (hfmt ▸ hcb)
  simp only [bankWrite, hb, hsa, laneNo, htap, hprep, hfmt]
  rfl

end

theorem exec_wrx {s : State} {h : Ent} {base len : BitVec 11} {off : BitVec 5} {adv : BitVec 1} :
    let b := s.fcore.bank s.focus.stn
    let n := if len = 0 then 2048 else len.toNat
    exec (.wrx h base len off adv) s = .next (either ((bankWrite h (base.toNat + (b.rp + off.toNat) % n) 0 none s).map
      (setRp (if adv = 1 then (b.rp + 1) % n else b.rp)))) := by
  intro b n
  show execWrx h base len off adv s = _
  rw [execWrx, ringRow_of_fields]
  show Host.Outcome.next (match bankWrite h (base.toNat + (b.rp + off.toNat) % n) 0 none s with
    | .ok s1 => _
    | .error s1 => s1) = _
  cases bankWrite h (base.toNat + (b.rp + off.toNat) % n) 0 none s <;> rfl

/-- Settles O19: a write of a row in the bank's own format converts it to itself, so that its one effect is scheduled for the next cycle. -/
theorem bankWrites : Obligations.BankWrites := by
  intro s s1 h l r row base len off adv gmask u b n hsa
  have hwr : exec (.wr h row 0) s = .next (either (bankWrite h row.toNat 0 none s)) := rfl
  have hwrb : exec (.wrb h row gmask) s = .next (either (bankWrite h row.toNat 0 (some gmask) s)) := rfl
  have hwrx : exec (.wrx h base len off adv) s = .next (either ((bankWrite h (base.toNat + (b.rp + off.toNat) % n) 0 none s).map
      (setRp (if adv = 1 then (b.rp + 1) % n else b.rp)))) := exec_wrx
  refine ⟨fun hb => ?_, fun hb htap htag hbank hfocus hcb => ?_⟩
  · have hw := fun rowNo mask => bankWrite_of_unreserved (h := h) (rowNo := rowNo) (part := 0) (mask := mask) hb
    rw [hwr, hwrb, hwrx, hw, hw, hw]
    exact ⟨rfl, rfl, rfl⟩
  · have hw := bankWrite_of_own_format hsa hb htap htag hbank hfocus hcb
    rw [hwr, hwrb, hwrx, hw, hw, hw]
    have hset := setRp_ownWritten_bank (r := r) (rowNo := base.toNat + (b.rp + off.toNat) % n) (mask := none)
      (rp := if adv = 1 then (b.rp + 1) % n else b.rp) hfocus hbank
    exact ⟨⟨_, rfl, ownWritten_pend hfocus, ownWritten_banks⟩, ⟨_, rfl, ownWritten_pend hfocus, ownWritten_banks⟩,
      _, rfl, (congrArg Core.pend fcore_setRp).trans (ownWritten_pend hfocus), congrArg Bank.rp hset, (congrArg Bank.rows hset).trans rfl⟩

end Sys2Proof.Machine
end

/-! # The elements of a row, and exact integers (R5, R62, R64, R65) -/
section
namespace Sys2Proof.Machine

/-! ## Fields of a fixed width -/

theorem packList_cons_div (w v : Nat) (vs : List Nat) : packList w (v :: vs) / 2 ^ w = packList w vs := by
  rw [packList, Nat.add_mul_div_left _ _ (Nat.two_pow_pos w), Nat.div_eq_of_lt (Nat.mod_lt _ (Nat.two_pow_pos w)), Nat.zero_add]

theorem packList_field (w : Nat) : ∀ (l : List Nat) (i : Nat), packList w l / 2 ^ (w * i) % 2 ^ w = l.getD i 0 % 2 ^ w
  | [], i => by simp [packList]
  | v :: vs, 0 => by simp [packList, Nat.add_mul_mod_self_left]
  | v :: vs, i + 1 => by
    rw [Nat.mul_succ, Nat.add_comm, Nat.pow_add, ← Nat.div_div_eq_div_mul, packList_cons_div, packList_field w vs i, List.getD_cons_succ]

theorem packList_lt (w : Nat) : ∀ l : List Nat, packList w l < 2 ^ (w * l.length)
  | [] => by simp [packList]
  | v :: vs => by
    have hdiv : packList w (v :: vs) / 2 ^ w < 2 ^ (w * vs.length) := by
      rw [packList_cons_div]
      exact packList_lt w vs
    rw [List.length_cons, Nat.mul_succ, Nat.pow_add]
    exact (Nat.div_lt_iff_lt_mul (Nat.two_pow_pos w)).1 hdiv

theorem fieldAt_ofFields {w i : Nat} {l : List Nat} (h : w * l.length ≤ 1024) : fieldAt w (ofFields w l) i = l.getD i 0 % 2 ^ w := by
  have hlt := Nat.lt_of_lt_of_le (packList_lt w l) (Nat.pow_le_pow_right Nat.two_pos h)
  rw [fieldAt, ofFields, BitVec.toNat_ofNat, Nat.mod_eq_of_lt hlt, packList_field]

theorem fmtBits_mul_fmtElems (f : Fmt) : fmtBits f * fmtElems f = 1024 := by cases f <;> rfl

theorem Row.code_lt (r : Row) (i : Nat) : r.code i < 2 ^ fmtBits r.tag := Nat.mod_lt _ (Nat.two_pow_pos _)

/-! ## Rows made of element codes -/

section
variable {ty : Fmt} {cs ss : List Nat} {p : Bool}

theorem rowOf_code {i : Nat} (h : cs.length ≤ fmtElems ty) : (rowOf ty cs ss p).code i = cs.getD i 0 % 2 ^ fmtBits ty :=
  fieldAt_ofFields ((Nat.mul_le_mul_left _ h).trans (fmtBits_mul_fmtElems ty).le)

theorem rowOf_range_code {g : Nat → Nat} {e : Nat} (he : e < fmtElems ty) :
    (rowOf ty ((List.range (fmtElems ty)).map g) ss p).code e = g e % 2 ^ fmtBits ty := by
  rw [rowOf_code (by simp), List.getD_eq_getElem _ _ (by simpa using he), List.getElem_map, List.getElem_range]

theorem rowOf_plain (h : fmtMx ty = false) : (rowOf ty cs ss p).plain ty p := by simp [Row.plain, rowOf, h]

end

/-! ## Integers modulo 2^w -/

theorem wrapTo_cast (w : Nat) (i : Int) : (wrapTo w i : Int) = i % 2 ^ w := by
  rw [wrapTo, Int.toNat_of_nonneg (Int.emod_nonneg _ (by positivity))]
  push_cast
  rfl

theorem signedOf_modEq (w v : Nat) : signedOf w v ≡ v [ZMOD 2 ^ w] := by
  have h : ((v % 2 ^ w : Nat) : Int) ≡ v [ZMOD 2 ^ w] := by
    push_cast
    exact Int.mod_modEq _ _
  unfold signedOf
  split
  · exact h
  · push_cast at h ⊢
    simpa using h.sub (Int.modEq_zero_iff_dvd.2 (dvd_refl ((2 : Int) ^ w)))

theorem signedOf_wrapTo_modEq (w : Nat) (i : Int) : signedOf w (wrapTo w i) ≡ i [ZMOD 2 ^ w] :=
  (signedOf_modEq w _).trans ((wrapTo_cast w i).symm ▸ Int.mod_modEq _ _)

/-! ## Exact integers among exact values -/

/-- A value is an exact integer: finite, and its magnitude a multiple of the power of two below the point. -/
def Val.isInteger (v : Val) (i : Int) : Prop := ∃ (n : Bool) (m k : Nat), v = .fin n m (-k) ∧ (if n then -(m : Int) else m) = i * 2 ^ k

theorem ofInt_isInteger (i : Int) : (Val.ofInt i).isInteger i := ⟨i < 0, i.natAbs, 0, rfl, by
  simp only [decide_eq_true_eq]
  split <;> omega⟩

theorem scaled_eq (n : Bool) (m : Nat) (e e0 : Int) : Val.scaled n m e e0 = (if n then -(m : Int) else m) * 2 ^ (e - e0).toNat := by
  unfold Val.scaled
  cases n <;> push_cast <;> simp

theorem fin_isInteger (v : Int) (k : Nat) (i : Int) (h : v = i * 2 ^ k) : (Val.fin (v < 0) v.natAbs (-k)).isInteger i :=
  ⟨v < 0, v.natAbs, k, rfl, by
    rw [← h]
    simp only [decide_eq_true_eq]
    split <;> omega⟩

variable {v w : Val} {i j : Int}

theorem Val.isInteger.toInt (h : v.isInteger i) : v.toInt = i := by
  obtain ⟨n, m, k, rfl, hm⟩ := h
  have hpos : (0 : Int) < 2 ^ k := by positivity
  have hz : (-(k : Int)).toNat = 0 := by omega
  simp only [Val.toInt, Val.ratio, neg_neg, Int.toNat_natCast, hz, pow_zero, mul_one]
  push_cast
  cases n
  · exact Int.ediv_eq_of_eq_mul_left hpos.ne' hm
  · have hneg : (m : Int) = -i * 2 ^ k := by rw [neg_mul, ← hm]; simp
    simp only [if_true]
    rw [Int.ediv_eq_of_eq_mul_left hpos.ne' hneg, neg_neg]

theorem toInt_ofInt (i : Int) : (Val.ofInt i).toInt = i := (ofInt_isInteger i).toInt

theorem Val.isInteger.add {mode : RMode} (hv : v.isInteger i) (hw : w.isInteger j) : (Val.add mode v w).isInteger (i + j) := by
  obtain ⟨na, ma, ka, rfl, ha⟩ := hv
  obtain ⟨nb, mb, kb, rfl, hb⟩ := hw
  have he : min (-(ka : Int)) (-kb) = -(max ka kb : Nat) := by omega
  have hpow : ∀ k, k ≤ max ka kb → (2 : Int) ^ k * 2 ^ (-(k : Int) - -(max ka kb : Nat)).toNat = 2 ^ max ka kb := by
    intro k hk
    rw [← pow_add]
    congr 1
    omega
  have hsum : Val.scaled na ma (-ka) (-(max ka kb : Nat)) + Val.scaled nb mb (-kb) (-(max ka kb : Nat)) = (i + j) * 2 ^ max ka kb := by
    rw [scaled_eq, scaled_eq, ha, hb, mul_assoc, mul_assoc, hpow ka (le_max_left ..), hpow kb (le_max_right ..), add_mul]
  simp only [Val.add, he, hsum]
  split
  next hzero =>
    have hij : i + j = 0 := (mul_eq_zero.1 hzero).resolve_right (by positivity)
    rw [hij]
    split
    · exact ⟨na, 0, 0, rfl, by simp⟩
    · exact ⟨_, 0, 0, rfl, by simp⟩
  next => exact fin_isInteger _ _ _ rfl

theorem Val.isInteger.mul (hv : v.isInteger i) (hw : w.isInteger j) : (Val.mul v w).isInteger (i * j) := by
  obtain ⟨na, ma, ka, rfl, ha⟩ := hv
  obtain ⟨nb, mb, kb, rfl, hb⟩ := hw
  refine ⟨na != nb, ma * mb, ka + kb, ?_, ?_⟩
  · simp only [Val.mul]
    congr 1
    push_cast
    ring
  · have hsign : (if na != nb then -((ma * mb : Nat) : Int) else (ma * mb : Nat)) = (if na then -(ma : Int) else ma) * (if nb then -(mb : Int) else mb) := by
      cases na <;> cases nb <;> simp
    rw [hsign, ha, hb, pow_add]
    ring

theorem foldl_add_isInteger {mode : RMode} {α : Type} {f : α → Val} {x : α → Int} : ∀ {l : List α} {v : Val} {i : Int}, v.isInteger i →
    (∀ k ∈ l, (f k).isInteger (x k)) → ((l.map f).foldl (Val.add mode) v).isInteger (i + (l.map x).sum)
  | [], _, _, hv, _ => by simpa using hv
  | k :: l, v, i, hv, h => by
    have htail := foldl_add_isInteger (mode := mode) (hv.add (mode := mode) (h k (by simp))) (fun k' hk => h k' (List.mem_cons_of_mem k hk))
    simpa [add_assoc] using htail

/-! ## Elements of an integer format -/

section
variable {r : Row} {cbs : List (BitVec 256)} {k : Nat}

theorem fmtInt_cases {f : Fmt} (h : fmtInt f = true) : f = .i32 ∨ f = .i16 ∨ f = .i8 ∨ f = .ui8 := by
  cases f <;> simp_all [fmtInt]

theorem Row.intAt_of_ui8 (h : r.tag = .ui8) : r.intAt k = r.code k := if_pos h

theorem Row.intAt_of_signed (h : r.tag ≠ .ui8) : r.intAt k = signedOf (fmtBits r.tag) (r.code k) := by
  rw [Row.intAt, if_neg h, signedOf, Nat.mod_eq_of_lt (r.code_lt k)]
  push_cast
  rfl

theorem Row.val_of_int (h : fmtInt r.tag = true) : r.val cbs k = Val.ofInt (r.intAt k) := by
  obtain ht | ht | ht | ht := fmtInt_cases h
  · simp only [Row.intAt_of_signed (r := r) (ht ▸ by decide), Row.val, ht, codeVal, fmtBits]
  · simp only [Row.intAt_of_signed (r := r) (ht ▸ by decide), Row.val, ht, codeVal, fmtBits]
  · simp only [Row.intAt_of_signed (r := r) (ht ▸ by decide), Row.val, ht, codeVal, fmtBits]
  · have hlt : r.code k < 256 := by simpa [ht, fmtBits] using r.code_lt k
    simp only [Row.intAt_of_ui8 ht, Row.val, ht, codeVal, Nat.mod_eq_of_lt hlt]

end

end Sys2Proof.Machine
end

/-! # The multiplies of the matrix engine (O35; R205 to R211) -/
section
namespace Sys2Proof.Machine

/-! ## A row of a multiply -/

/-- The accumulators a multiply updates: two of them where a sparse pattern is shared by the columns (R208). -/
def mulAccs (acc : Nat) : Option (Nat × Nat × Bool) → List Nat
  | some (_, _, false) => [acc, acc + 1]
  | _ => [acc]

/-- What a scheduled accumulator update says, but for its sums: when it lands, its accumulator and row, its kinds, its columns. -/
def Pend.mulUpdate (p : Pend) : Nat × Option (Nat × Nat × Bool × Bool × Nat) :=
  (p.due, match p.eff with
    | .accUpd x r i kp _ cols _ => some (x, r, i, kp, cols.length)
    | _ => none)

theorem outCols_length (m : MxActive) (cbs : List (BitVec 256)) (a : Row) (half : Nat) : (outCols m cbs a half).length = m.b.length := by
  simp [outCols]

/-- The engine after a row of a multiply: the multiply goes on while rows are left. -/
def Mx.rowDone (x : Mx) (m : MxActive) : Mx := { x with active := if m.next + 1 < m.rows then some { m with next := m.next + 1 } else none }

theorem fcore_updMx {s : State} {f : Mx → Mx} : (s.updMx f).fcore = { s.fcore with mx := f s.fcore.mx } := State.fcore_updF s _

/-- The update of one accumulator, scheduled by a row of a multiply (R205). -/
def updatesAcc (m : MxActive) (a : Row) (t : Nat) (poison : Bool) (acc half : Nat) (s : State) : State :=
  s.later (t + 16) (.accUpd acc m.next (mulInt m.ty) m.keep (m.b.length == 128) (outCols m s.cbs a half) poison)

theorem updatesAcc_fcore {m : MxActive} {a : Row} {t : Nat} {poison : Bool} {acc half : Nat} {s : State} :
    ∃ p : Pend, (updatesAcc m a t poison acc half s).fcore = { s.fcore with pend := s.fcore.pend ++ [p] }
      ∧ p.mulUpdate = (t + 16, some (acc, m.next, mulInt m.ty, m.keep, m.b.length)) :=
  ⟨_, fcore_later, by simp only [Pend.mulUpdate, outCols_length]⟩

theorem mulAccs_sparseOf (acc : Nat) (sp pc : BitVec 1) : mulAccs acc (sparseOf sp pc) = if pc = 1 then [acc] else [acc, acc + 1] := by
  by_cases hpc : pc = 1
  · rw [if_pos hpc, sparseOf, decide_eq_true hpc, mulAccs]
    simp
  · rw [if_neg hpc, sparseOf, decide_eq_false hpc, mulAccs]

theorem mulInt_eq (f : Fmt) : mulInt f = decide (f = .i8 ∨ f = .ui8) := by cases f <;> rfl

theorem mxRow_eq {m : MxActive} {s : State} {a : Row} (horg : m.org = s.focus.org) (harow : s.fcore.mx.aRow = some (s.now0, a))
    (htag : a.tag ∈ mulTags m.ty) :
    let upd := updatesAcc m a s.now0 (a.poison || cbTaint s.cbPois a || m.taint)
    mxRow m s = ((match m.sparse with
      | some (_, _, false) => upd (m.acc + 1) 1 (upd m.acc 0 s)
      | _ => upd m.acc 0 s).updMx (·.rowDone m)) := by
  have hs : { s with focus := { s.focus with org := m.org } } = s := by rw [horg]
  simp only [mxRow, hs, harow, htag, List.contains_eq_mem, decide_true, Bool.not_true, ne_eq, not_true, if_false, Bool.false_eq_true]
  rfl

theorem mxRow_of_aRow {m : MxActive} {s : State} {a : Row} (horg : m.org = s.focus.org) (harow : s.fcore.mx.aRow = some (s.now0, a))
    (htag : a.tag ∈ mulTags m.ty) :
    ∃ ups, (mxRow m s).fcore = { s.fcore with pend := s.fcore.pend ++ ups, mx := s.fcore.mx.rowDone m }
      ∧ ups.map Pend.mulUpdate = (mulAccs m.acc m.sparse).map (fun x => (s.now0 + 16, some (x, m.next, mulInt m.ty, m.keep, m.b.length))) := by
  rw [mxRow_eq horg harow htag, fcore_updMx]
  obtain ⟨p, hp, hpu⟩ := updatesAcc_fcore (m := m) (a := a) (t := s.now0) (poison := a.poison || cbTaint s.cbPois a || m.taint) (acc := m.acc)
    (half := 0) (s := s)
  rcases m.sparse with _ | ⟨g, w, _ | _⟩
  case some.false =>
    obtain ⟨q, hq, hqu⟩ := updatesAcc_fcore (m := m) (a := a) (t := s.now0) (poison := a.poison || cbTaint s.cbPois a || m.taint)
      (acc := m.acc + 1) (half := 1) (s := updatesAcc m a s.now0 (a.poison || cbTaint s.cbPois a || m.taint) m.acc 0 s)
    exact ⟨[p, q], by simp [hq, hp], by simp [mulAccs, hpu, hqu]⟩
  all_goals exact ⟨[p], by simp [hp], by simp [mulAccs, hpu]⟩

/-! ## A multiply at its START -/

theorem fcore_mxStarted {h : MxHdr} {at0 d : Nat} {s : State} : (mxComplete h at0 (mxBegin d s)).fcore = { s.fcore with
    pend := s.fcore.pend ++ [⟨at0, s.focus.org, .mxDone (h.sen = 1) h.ssem.toNat h.sinc.toNat⟩]
    mx := { s.fcore.mx with queue := s.fcore.mx.queue.tail, headAt := s.now0 + d } } := by
  rw [mxComplete, fcore_later, mxBegin, fcore_updMx]
  rfl

theorem now0_mxStarted {h : MxHdr} {at0 d : Nat} {s : State} : (mxComplete h at0 (mxBegin d s)).now0 = s.now0 := by
  rw [mxComplete, now0_later, mxBegin]
  exact now0_updF rfl

theorem mxAwait_of_wait_off {h : MxHdr} {f : State → State} {s : State} (hw : h.wen = 0) : mxAwait h f s = f s := by simp [mxAwait, hw]

theorem strictlyRising_of_pairwise : ∀ {l : List Nat}, l.Pairwise (· < ·) → strictlyRising l = true
  | [], _ => rfl
  | [_], _ => rfl
  | a :: b :: r, h => by
    obtain ⟨ha, hr⟩ := List.pairwise_cons.1 h
    simp [strictlyRising, ha b (by simp), strictlyRising_of_pairwise hr]

section
variable {s : State} {keep : Bool} {h : MxHdr} {acc : BitVec 2} {slot : BitVec 5} {m n : BitVec 7} {k : BitVec 9} {ty : BitVec 4}
  {sparse : Option (Nat × Nat × Bool)} {mof : Nat}

/-- The metadata of a sparse command are a UINT8 row whose groups rise, for each column or for all of them together (R209, R210). -/
def State.metadataRises (s : State) (n : BitVec 7) (k : BitVec 9) (sparse : Option (Nat × Nat × Bool)) (mof : Nat) : Prop :=
  ∀ g w perCol, sparse = some (g, w, perCol) → ((s.fcore.stn 8).of0 mof).tag = .ui8 ∧ ∀ c i, (c < if perCol then dim128 n else 1) → i < k.toNat / g →
    strictlyRising (groupIdx ((s.fcore.stn 8).of0 mof).data.toNat (if perCol then (c * (k.toNat / g) + i) * w else i * w) g) = true

variable (hclaimed : (s.fcore.mx.slot slot.toNat).claimed = true)
  (hrows : ∀ i, i < dim128 n → (s.fcore.mx.slot slot.toNat).row i = Row.zero .f32
    ∨ ((s.fcore.mx.slot slot.toNat).row i).tag ∈ mulTags (Fmt.ofCode ty.toNat))
  (hmeta : s.metadataRises n k sparse mof)
  (htyped : keep = true → ∀ x ∈ mulAccs acc.toNat sparse, s.fcore.accTypeDue x = mulInt (Fmt.ofCode ty.toNat))
include hclaimed hrows hmeta htyped

/-- A multiply that passes the checks of R217 becomes active and processes its row 0. -/
theorem mxMultiply_of_checked :
    ∃ act : MxActive, mxMultiply keep h acc slot m n k ty sparse mof s = mxRow act (mxComplete h (s.now0 + dim128 m + 15) (mxBegin (dim128 m) s))
      ∧ act.org = s.focus.org ∧ act.keep = keep ∧ act.acc = acc.toNat ∧ act.ty = Fmt.ofCode ty.toNat ∧ act.sparse = sparse ∧ act.next = 0
      ∧ act.rows = dim128 m ∧ act.b.length = dim128 n := by
  generalize hX : mxMultiply keep h acc slot m n k ty sparse mof s = X
  unfold mxMultiply at hX
  extract_lets f x sl b md act outs badMeta at hX
  have hlen : b.length = dim128 n := by simp [b]
  have hmd : (sparse.isSome && md.tag != .ui8) = false := by
    rcases sparse with _ | ⟨g, w, perCol⟩
    · rfl
    · have htag : md.tag = .ui8 := (hmeta g w perCol rfl).1
      simp [htag]
  have hbad : badMeta = false := by
    rcases sparse with _ | ⟨g, w, perCol⟩
    · rfl
    · have hrise := (hmeta g w perCol rfl).2
      simp only [badMeta, List.any_eq_false, List.mem_range, hlen, Bool.not_eq_true, Bool.not_eq_false', groupOff]
      exact fun c hc i => hrise c i hc
  refine ⟨act, ?_, rfl, rfl, rfl, rfl, rfl, rfl, rfl, hlen⟩
  have hclaim : sl.claimed = true := hclaimed
  have htags : b.any (fun r => !r.isZeroRow && !(mulTags f).contains r.tag) = false := by
    simp only [b, List.any_eq_false, List.mem_map, List.mem_range]
    rintro r ⟨i, hi, rfl⟩
    rcases hrows i hi with hz | ht
    · simp [sl, x, Row.isZeroRow, hz]
    · simp [sl, x, f, ht]
  have houts : (keep && outs.any (fun a => s.fcore.accTypeDue a != mulInt f)) = false := by
    have hmuls : outs = mulAccs acc.toNat sparse := by rcases sparse with _ | ⟨g, w, _ | _⟩ <;> rfl
    rw [hmuls]
    cases hk : keep
    · rfl
    · simpa using htyped hk
  simp only [← hX, hclaim, htags, hmd, hbad, houts, Bool.not_true, Bool.false_eq_true, if_false]

theorem mxMultiply_effects {a : Row} (harow : s.fcore.mx.aRow = some (s.now0, a)) (htag : a.tag ∈ mulTags (Fmt.ofCode ty.toNat)) :
    let t := mxMultiply keep h acc slot m n k ty sparse mof s
    ∃ ups, t.fcore.mx.queue = s.fcore.mx.queue.tail ∧ t.fcore.mx.headAt = s.now0 + dim128 m ∧ t.fcore.mx.slots = s.fcore.mx.slots
      ∧ t.fcore.mx.accs = s.fcore.mx.accs
      ∧ t.fcore.pend = s.fcore.pend ++ [⟨s.now0 + (dim128 m + 15), s.focus.org, .mxDone (h.sen = 1) h.ssem.toNat h.sinc.toNat⟩] ++ ups
      ∧ ups.map Pend.mulUpdate
          = (mulAccs acc.toNat sparse).map (fun x => (s.now0 + 16, some (x, 0, mulInt (Fmt.ofCode ty.toNat), keep, dim128 n)))
      ∧ t.fcore.mx.active.isSome = decide (1 < dim128 m) := by
  intro t
  obtain ⟨act, ht, horg, hkeep, hacc, hty, hsparse, hnext, hmrows, hcols⟩ := mxMultiply_of_checked (h := h) (m := m) hclaimed hrows hmeta htyped
  obtain ⟨ups, hcore, hups⟩ := mxRow_of_aRow (m := act) (s := mxComplete h (s.now0 + dim128 m + 15) (mxBegin (dim128 m) s)) (a := a) horg
    (by rw [fcore_mxStarted, now0_mxStarted]; exact harow) (hty ▸ htag)
  rw [fcore_mxStarted, ← ht, Nat.add_assoc] at hcore
  simp only [t, hcore, Mx.rowDone]
  refine ⟨ups, trivial, trivial, trivial, trivial, rfl, ?_, ?_⟩
  · simpa only [hacc, hsparse, now0_mxStarted, hnext, hty, hkeep, hcols] using hups
  · rw [hnext, hmrows]
    split <;> simp_all
end

/-- The multiplies of R205 to R211, from `mxMultiply_effects`. -/
theorem multiplies : Claims.Multiplies := by
  intro s h acc slot m n k ty sp pc mof a f mx sl size row md group int typed does hwen hclaimed hrows harow htag
  have hint : mulInt f = decide int := mulInt_eq f
  have hrun : ∀ (i : Instr) (keep : Bool) (sparse : Option (Nat × Nat × Bool)) (mof : Nat),
      exec i s = .next (mxAwait h (mxMultiply keep h acc slot m n k ty sparse mof) s) → s.metadataRises n k sparse mof →
      (keep = true → typed (mulAccs acc.toNat sparse)) → does i keep (mulAccs acc.toNat sparse) := by
    intro i keep sparse mof hexec hmeta htyped
    obtain ⟨ups, hdoes⟩ := mxMultiply_effects (keep := keep) (h := h) (acc := acc) (slot := slot) (m := m) (n := n) (k := k) (ty := ty) (sparse := sparse)
      (mof := mof) (s := s) (a := a) hclaimed hrows hmeta (fun hk x hx => (htyped hk x hx).trans hint.symm) harow htag
    rw [mxAwait_of_wait_off hwen] at hexec
    rw [show mulInt (Fmt.ofCode ty.toNat) = decide int from hint] at hdoes
    exact ⟨_, ups, hexec, hdoes⟩
  have hdense : s.metadataRises n k none 0 := by rintro g w perCol ⟨⟩
  refine ⟨hrun _ false none 0 rfl hdense (by simp), fun htyped => hrun _ true none 0 rfl hdense (fun _ => htyped), ?_⟩
  intro g w off rising outs hmd hrise
  have houts : mulAccs acc.toNat (sparseOf sp pc) = outs :=
    mulAccs_sparseOf acc.toNat sp pc
  have hmeta : s.metadataRises n k (sparseOf sp pc) mof.toNat := by
    rintro _ _ _ ⟨⟩
    refine ⟨hmd, fun c i hc hi => strictlyRising_of_pairwise ?_⟩
    simp only [decide_eq_true_eq] at hc ⊢
    exact hrise c i hc hi
  rw [← houts]
  exact ⟨hrun _ false _ _ rfl hmeta (by simp), fun htyped => hrun _ true _ _ rfl hmeta (fun _ => htyped)⟩

/-! ## Integer products (R78, R205, R208) -/

theorem Row.zero_code (f : Fmt) (k : Nat) : (Row.zero f).code k = 0 := by
  show (0#1024).toNat / _ % _ = 0
  rw [BitVec.toNat_zero, Nat.zero_div, Nat.zero_mod]

/-- The number that an element of a slot row stands for in an integer product: a row that nothing was written to is a zero row. -/
theorem slotRow_isInteger {b : Row} {cbs : List (BitVec 256)} {k : Nat} (hb : b.tag = .i8 ∨ b.tag = .ui8 ∨ b = Row.zero .f32) :
    (b.val cbs k).isInteger (if b.tag = .f32 then 0 else b.intAt k) := by
  have hint : ∀ f, b.tag = f → fmtInt f = true → f ≠ .f32 → (b.val cbs k).isInteger (if b.tag = .f32 then 0 else b.intAt k) := by
    rintro f rfl hf hne
    rw [if_neg hne, Row.val_of_int hf]
    exact ofInt_isInteger _
  rcases hb with ht | ht | rfl
  · exact hint _ ht rfl (by decide)
  · exact hint _ ht rfl (by decide)
  · refine ⟨false, 0, 149, ?_, by simp [Row.zero]⟩
    show fp32.decode ((Row.zero .f32).code k) = _
    rw [Row.zero_code]
    decide

theorem outCols_getElem? {m : MxActive} {cbs : List (BitVec 256)} {a b : Row} {half n : Nat} (hb : m.b[n]? = some b) :
    (outCols m cbs a half)[n]? = some (n, groupSums m ((bTerms m n half).map (fun t => (t.1, Val.mul (a.val cbs t.1) (b.val m.cbs t.2))))) := by
  simp [outCols, hb]

theorem accElem_of_isInteger {old : BitVec 32} {sum : Val} {i : Int} (h : sum.isInteger i) :
    accElem true old [sum] = BitVec.ofInt 32 (old.toInt + i) := by
  have hsum : (Val.sum [Val.zero, sum]).isInteger (0 + i) := (ofInt_isInteger 0).add h
  rw [accElem, if_pos rfl, hsum.toInt, zero_add]

theorem integerProducts : Claims.IntegerProducts := by
  intro m a b n cbs old hty hsparse _ hmb ha hb y
  have hterm : ∀ k ∈ List.range m.k, (Val.mul (a.val cbs k) (b.val m.cbs k)).isInteger (a.intAt k * y k) := by
    intro k _
    have hint : fmtInt a.tag = true := by rcases ha with ha | ha <;> rw [ha] <;> rfl
    rw [Row.val_of_int hint]
    exact (ofInt_isInteger _).mul (slotRow_isInteger hb)
  have hsum := foldl_add_isInteger (mode := .rne) (ofInt_isInteger 0) hterm
  have hmul : mulInt m.ty = true := by rw [mulInt_eq, decide_eq_true_eq]; exact hty
  refine ⟨_, outCols_getElem? hmb, ?_⟩
  simp only [groupSums, hmul, bTerms, hsparse, List.map_map, if_true]
  refine accElem_of_isInteger (i := ((List.range m.k).map (fun k => a.intAt k * y k)).sum) ?_
  rw [zero_add] at hsum
  exact hsum

/-- Settles O35, from its two claims. -/
theorem matrixProducts : Obligations.MatrixProducts := ⟨multiplies, integerProducts⟩

end Sys2Proof.Machine
end

/-! # Entries of the vector stations (R162 to R164) -/
section
namespace Sys2Proof.Machine

section
variable {s : State} {h : Ent} {lat : Nat} {f : State → Src → Src → Except HwFault (Row × Rounding)} {row : Row} {rd : Rounding}

theorem stationEntry_of_sources {a b : Src} (hread : readSources h s = .ok (a, b, s)) (hf : f s a b = .ok (row, rd)) :
    stationEntry h lat f s = s.gives lat h.dst row rd := by
  simp only [stationEntry, hread, hf, giveResult, State.gives, now0_setRnd, State.setRnd_focus]

theorem readSources_of_onFile {i : BitVec 4} (hi : onFile h i) : readSources h s = .ok (.row (s.ofRow i.toNat), .none, s) := by
  obtain ⟨ha, hb⟩ := hi
  simp only [readSources, ha, hb, readOpnd]
  rfl

theorem readSources_of_onFiles {i j : BitVec 4} (hij : onFiles h i j) :
    readSources h s = .ok (.row (s.ofRow i.toNat), .row (s.ofRow j.toNat), s) := by
  obtain ⟨ha, hb⟩ := hij
  simp only [readSources, ha, hb, readOpnd]
  rfl

end

theorem accepts_row {ok : Fmt → Bool} {r : Row} (h : ok r.tag = true) : (Src.row r).accepts ok = none := if_pos h

theorem accepts_none {ok : Fmt → Bool} : Src.none.accepts ok = none := rfl

theorem firstFault_one : firstFault [none] = none := rfl

theorem firstFault_two : firstFault [none, none] = none := rfl

theorem int_row {ty : Fmt} {r : Row} {k : Nat} (h : fmtInt r.tag = true) : (Src.row r).int ty k = r.intAt k := by
  rw [Src.int, Src.val, Row.val_of_int h, toInt_ofInt]

theorem val_row {cbs : List (BitVec 256)} {ty : Fmt} {r : Row} {k : Nat} (h : fmtInt r.tag = true) : (Src.row r).val cbs ty k = Val.ofInt (r.intAt k) :=
  Row.val_of_int h

theorem bits_row {r : Row} {ty : Fmt} {k : Nat} (h : r.tag = ty) : (Src.row r).bits ty k = r.code k := by
  subst h
  rfl

/-! ## The formats of exact elements -/

theorem fmtInt_code {ty : Fmt} (h : fmtInt ty = true) : ty.code ≤ 8 := by cases ty <;> simp_all [fmtInt, Fmt.code]

theorem fmtMx_of_code {ty : Fmt} (h : ty.code ≤ 8) : fmtMx ty = false := by cases ty <;> simp_all [Fmt.code, fmtMx]

theorem fmtBounded_of_code {ty : Fmt} (h : ty.code ≤ 8) : fmtBounded ty = false := by cases ty <;> simp_all [Fmt.code, fmtBounded]

theorem fmtBits_le_32 (ty : Fmt) : fmtBits ty ≤ 32 := by cases ty <;> decide

theorem infBound_of_code {r : Row} (h : r.tag.code ≤ 8) : r.infBound = r := by
  rw [Row.infBound, if_neg]
  rintro ⟨ht, -⟩
  rw [ht] at h
  exact absurd h (by decide)

theorem pxSide_of_code {ty : Fmt} {a : Src} (h : ty.code ≤ 8) : pxSide ty a = 0 := by
  cases a <;> simp [pxSide, fmtBounded_of_code h]

theorem pxSide2_of_code {ty : Fmt} {a b : Src} (h : ty.code ≤ 8) : pxSide2 ty a b = 0 := by
  simp [pxSide2, fmtBounded_of_code h]

theorem rowOf_side_of_code {ty : Fmt} {cs ss : List Nat} {p : Bool} (h : ty.code ≤ 8) : { rowOf ty cs ss p with side := 0 } = rowOf ty cs ss p := by
  simp [rowOf, fmtMx_of_code h]

theorem pxRow_of_code {ty : Fmt} {p : Bool} {g : Nat → Nat} (h : ty.code ≤ 8) :
    pxRow ty 0 p g = rowOf ty ((List.range (fmtElems ty)).map g) [] p := by
  rw [pxRow, rowOf_side_of_code h, infBound_of_code (by exact h)]

/-! ## Rows that hold numbers modulo 2^w -/

/-- A plain row of a format whose elements are these integers, each modulo 2^w. -/
def Row.holds (r : Row) (ty : Fmt) (p : Bool) (v : Nat → Int) : Prop :=
  r.plain ty p ∧ ∀ e, e < 1024 / fmtBits ty → (r.code e : Int) = v e % 2 ^ fmtBits ty

theorem rowOf_range_holds {ty : Fmt} {g : Nat → Nat} {p : Bool} {v : Nat → Int} (hty : ty.code ≤ 8)
    (h : ∀ e, e < fmtElems ty → (g e : Int) ≡ v e [ZMOD 2 ^ fmtBits ty]) : (rowOf ty ((List.range (fmtElems ty)).map g) [] p).holds ty p v := by
  refine ⟨rowOf_plain (fmtMx_of_code hty), fun e he => ?_⟩
  rw [rowOf_range_code he]
  push_cast
  exact h e he

theorem intRow_holds {ty : Fmt} {p : Bool} {v : Nat → Int} (hty : ty.code ≤ 8) : (intRow ty p v).holds ty p v :=
  rowOf_range_holds hty (fun e _ => by rw [wrapTo_cast]; exact Int.mod_modEq _ _)

theorem placeCode_holds {ty : Fmt} {bc p : Bool} {c : Nat} {x : Int} {v : Nat → Int} (hty : ty.code ≤ 8) (hc : (c : Int) ≡ x [ZMOD 2 ^ fmtBits ty])
    (hv : ∀ e, v e = if bc = true ∨ e = 0 then x else 0) : (placeCode ty bc p c).holds ty p v := by
  refine rowOf_range_holds hty (fun e _ => ?_)
  rw [hv]
  by_cases h : bc = true ∨ e = 0
  · rw [if_pos h, if_pos (by simpa using h)]
    exact hc
  · rw [if_neg h, if_neg (by simpa using h)]
    rfl

/-- What an entry gives, from the row that its sources make. -/
theorem gives_of_holds {s : State} {h : Ent} {x : Instr} {lat : Nat} {a b : Src} {f : State → Src → Src → Except HwFault (Row × Rounding)} {row : Row}
    {ty : Fmt} {p : Bool} {v : Nat → Int} (hexec : exec x s = .next (stationEntry h lat f s)) (hread : readSources h s = .ok (a, b, s))
    (hf : f s a b = .ok (row, s.rnd)) (hrow : row.holds ty p v) :
    ∃ row : Row, exec x s = .next (s.gives lat h.dst row s.rnd) ∧ row.plain ty p
      ∧ ∀ e, e < 1024 / fmtBits ty → (row.code e : Int) = v e % 2 ^ fmtBits ty :=
  ⟨row, by rw [hexec, stationEntry_of_sources hread hf], hrow⟩

end Sys2Proof.Machine
end

/-! # Entries with one operand-file row of exact elements (R162, R174, R181) -/
section
namespace Sys2Proof.Machine

section
variable {ty : Fmt} {rd : Rounding} {r : Row} (ht : r.tag = ty)
include ht

theorem accepts_own : (Src.row r).accepts (· = ty) = none := accepts_row (by simpa using ht)

theorem rowUnary_of_int {fv : Val → Val} {fi : Int → Int} (hty : fmtInt ty = true) :
    rowUnary fv fi ty rd (.row r) = .ok (intRow ty r.poison (fun k => fi (r.intAt k)), rd) := by
  have hint := fun k => int_row (ty := ty) (r := r) (k := k) (ht ▸ hty)
  simp only [rowUnary, accepts_own ht, firstFault_one, elemRow, hty, if_true, hint, Src.poison]

theorem rowNot_of_row : rowBitwise (fun x _ => x ^^^ 0xFFFFFFFF) ty rd (.row r) .none
    = .ok (rowOf ty ((List.range (fmtElems ty)).map (fun k => r.code k ^^^ 0xFFFFFFFF)) [] r.poison, rd) := by
  simp only [rowBitwise, accepts_own ht, accepts_none, firstFault_two, bits_row ht, Src.poison, Bool.or_false]

theorem rowMov_of_row : rowMov ty rd (.row r) = .ok (r, rd) := by
  have hfits : (Src.row r).accepts (tagFits ty) = none := accepts_row (by simp [tagFits, ht])
  simp only [rowMov, hfits, firstFault_one]

theorem rowBcast_of_row (hty : ty.code ≤ 8) (k : Nat) :
    rowBcast k ty rd (.row r) = .ok (rowOf ty ((List.range (fmtElems ty)).map (fun _ => r.code k)) [] r.poison, rd) := by
  simp only [rowBcast, accepts_own ht, firstFault_one, pxSide_of_code hty, pxRow_of_code hty, bits_row ht, Src.poison]

theorem rowRev_of_row (hty : ty.code ≤ 8) : rowShuf 4 ty rd (.row r) .none
    = .ok (rowOf ty ((List.range (fmtElems ty)).map (fun k => r.code (fmtElems ty - 1 - k))) [] r.poison, rd) := by
  have hclash : clash (scalesDiffer ty (.row r) .none) (stnFault 0) = none := rfl
  simp only [rowShuf, accepts_own ht, accepts_none, firstFault_two, hclash, pxSide2_of_code hty, pxRow_of_code hty, bits_row ht, Src.poison,
    Bool.or_false, Option.orElse_eq_orElse, Option.orElse]

end

/-- The complement of the low `w` bits. -/
theorem xor_ones_modEq {w x : Nat} (hw : w ≤ 32) (hx : x < 2 ^ w) : ((x ^^^ 0xFFFFFFFF : Nat) : Int) ≡ 2 ^ w - 1 - x [ZMOD 2 ^ w] := by
  have hle : 2 ^ w ≤ 2 ^ 32 := Nat.pow_le_pow_right Nat.two_pos hw
  have hxor : x ^^^ 0xFFFFFFFF = 2 ^ 32 - 1 - x := by
    have h := congrArg BitVec.toNat (BitVec.xor_allOnes (x := BitVec.ofNat 32 x))
    rwa [BitVec.toNat_xor, BitVec.toNat_not, BitVec.toNat_ofNat, Nat.mod_eq_of_lt (by omega)] at h
  have hcast : ((2 ^ 32 - 1 - x : Nat) : Int) = 2 ^ 32 - 1 - x := by omega
  rw [hxor, hcast]
  have hdvd : ((2 : Int) ^ 32) ≡ 2 ^ w [ZMOD 2 ^ w] := (Int.modEq_zero_iff_dvd.2 (pow_dvd_pow 2 hw)).trans (Int.modEq_zero_iff_dvd.2 dvd_rfl).symm
  exact (hdvd.sub_right 1).sub_right x

theorem unaryEntries : Claims.UnaryEntries := by
  intro s h i hi hty a w n ht gives
  have hread := readSources_of_onFile (s := s) hi
  refine ⟨fun hint => ⟨?_, ?_⟩, ?_, ?_, fun k _ => ?_, ?_⟩
  · exact gives_of_holds rfl hread (rowUnary_of_int ht hint) (intRow_holds hty)
  · exact gives_of_holds rfl hread (rowUnary_of_int ht hint) (intRow_holds hty)
  · refine gives_of_holds rfl hread (rowNot_of_row ht) (rowOf_range_holds hty (fun e _ => xor_ones_modEq (fmtBits_le_32 _) ?_))
    exact ht ▸ a.code_lt e
  · show Host.Outcome.next (stationEntry h 2 _ s) = _
    rw [stationEntry_of_sources hread (rowMov_of_row ht)]
  · exact gives_of_holds rfl hread (rowBcast_of_row ht hty k.toNat) (rowOf_range_holds hty (fun _ _ => rfl))
  · exact gives_of_holds rfl hread (rowRev_of_row ht hty) (rowOf_range_holds hty (fun _ _ => rfl))

end Sys2Proof.Machine
end

/-! # Integer reductions (R79, R187) -/
section
namespace Sys2Proof.Machine

/-! ## The pairwise tree -/

theorem sum_zipWith_modEq {n : Int} {f : Int → Int → Int} (hf : ∀ a b, f a b ≡ a + b [ZMOD n]) : ∀ {l k : List Int}, l.length = k.length →
    (List.zipWith f l k).sum ≡ l.sum + k.sum [ZMOD n]
  | [], [], _ => rfl
  | a :: l, b :: k, h => by
    have htail := sum_zipWith_modEq hf (l := l) (k := k) (by simpa using h)
    have := (hf a b).add htail
    simp only [List.zipWith_cons_cons, List.sum_cons]
    rwa [add_add_add_comm] at this

theorem treeFold_sum_modEq {n : Int} {f : Int → Int → Int} (hf : ∀ a b, f a b ≡ a + b [ZMOD n]) : ∀ {k : Nat} {l : List Int}, l.length = 2 ^ k →
    (treeFold f k l).headD 0 ≡ l.sum [ZMOD n]
  | 0, [a], _ => by simp [treeFold]
  | k + 1, l, h => by
    have hhalf : l.length / 2 = 2 ^ k := by rw [h, pow_succ, Nat.mul_div_cancel _ Nat.two_pos]
    have hlen : (l.take (2 ^ k)).length = 2 ^ k ∧ (l.drop (2 ^ k)).length = 2 ^ k := by
      rw [List.length_take, List.length_drop, h, pow_succ]
      omega
    have hsum : (l.take (2 ^ k)).sum + (l.drop (2 ^ k)).sum = l.sum := by rw [← List.sum_append, List.take_append_drop]
    simp only [treeFold, hhalf]
    rw [← hsum]
    exact (treeFold_sum_modEq hf (by simp [hlen])).trans (sum_zipWith_modEq hf (hlen.1.trans hlen.2.symm))

theorem fmtElems_pow_two (f : Fmt) : fmtElems f = 2 ^ Nat.log2 (fmtElems f) := by cases f <;> decide

theorem rowSum_of_int {r : Row} {rd : Rounding} {bc : Bool} (hr : fmtInt r.tag = true) :
    ∃ c : Nat, rowSum bc false .i32 rd (.row r) = .ok (placeCode .i32 bc r.poison c, rd)
      ∧ (c : Int) ≡ ((List.range (1024 / fmtBits r.tag)).map r.intAt).sum [ZMOD 2 ^ 32] := by
  have haccepts : (Src.row r).accepts (fun t => fmtInt t) = none := accepts_row hr
  have htree : (treeFold (fun x y => signedOf 32 (wrapTo 32 (x + y))) (Nat.log2 (fmtElems r.tag)) ((List.range (fmtElems r.tag)).map r.intAt)).headD 0
      ≡ ((List.range (fmtElems r.tag)).map r.intAt).sum [ZMOD 2 ^ 32] :=
    treeFold_sum_modEq (fun _ _ => signedOf_wrapTo_modEq 32 _) (by simpa using fmtElems_pow_two r.tag)
  refine ⟨_, ?_, ((wrapTo_cast 32 _).symm ▸ Int.mod_modEq _ _).trans htree⟩
  simp only [rowSum, if_true, haccepts, firstFault_one, int_row hr, Src.elems, Src.poison, List.length_map, List.length_range, Bool.false_eq_true, if_false]

/-! ## The extreme element -/

theorem lt_ofInt (a b : Int) : Val.lt (Val.ofInt a) (Val.ofInt b) = decide (a < b) := by
  have hcmp : Val.cmp (Val.ofInt a) (Val.ofInt b) = a - b := by
    have hs : ∀ i : Int, Val.scaled (decide (i < 0)) i.natAbs 0 (min 0 0) = i := by
      intro i
      rw [scaled_eq]
      simp only [min_self, sub_self, Int.toNat_zero, pow_zero, mul_one, decide_eq_true_eq]
      split <;> omega
    simp only [Val.ofInt, Val.cmp, hs]
  rw [Val.lt, hcmp]
  simp [Val.ofInt, Val.isNan]

theorem ltz_ofInt (a b : Int) : Val.ltz (Val.ofInt a) (Val.ofInt b) = decide (a < b) := by
  have hsign : ((Val.ofInt a).isZero && (Val.ofInt a).isNeg) = false := by
    obtain rfl | h := eq_or_ne a 0
    · rfl
    · obtain ⟨m, hm⟩ := Nat.exists_eq_succ_of_ne_zero (Int.natAbs_ne_zero.2 h)
      simp [Val.ofInt, Val.isZero, hm]
  rw [Val.ltz, lt_ofInt, Bool.and_assoc (Val.eqv _ _), hsign]
  simp

theorem isNan_ofInt (a : Int) : (Val.ofInt a).isNan = false := rfl

theorem vmaxVal_ofInt (a b : Int) : vmaxVal (Val.ofInt a) (Val.ofInt b) = Val.ofInt (max a b) := by
  simp only [vmaxVal, isNan_ofInt, ltz_ofInt, Bool.or_self, Bool.false_eq_true, if_false, decide_eq_true_eq]
  split
  · rw [max_eq_right (by omega)]
  · rw [max_eq_left (by omega)]

theorem vminVal_ofInt (a b : Int) : vminVal (Val.ofInt a) (Val.ofInt b) = Val.ofInt (min a b) := by
  simp only [vminVal, isNan_ofInt, ltz_ofInt, Bool.or_self, Bool.false_eq_true, if_false, decide_eq_true_eq]
  split
  · rw [min_eq_right (by omega)]
  · rw [min_eq_left (by omega)]

/-- The fold that selects an element of a list of integers, of the list that has `x` as its extreme element. -/
theorem foldl_extreme {isMax : Bool} {x : Int} : ∀ {l : List Int}, x ∈ l → (∀ y ∈ l, if isMax = true then y ≤ x else x ≤ y) →
    (l.map Val.ofInt).tail.foldl (if isMax then vmaxVal else vminVal) ((l.map Val.ofInt).headD Val.zero) = Val.ofInt x
  | y :: ys, hx, hext => by
    cases isMax
    · have hmin : (y :: ys).min? = some x := List.min?_eq_some_iff.2 ⟨hx, by simpa using hext⟩
      rw [List.min?_cons', Option.some.injEq] at hmin
      rw [← hmin]
      simp only [Bool.false_eq_true, if_false, List.map_cons, List.tail_cons, List.headD_cons, List.foldl_map]
      exact List.foldl_hom Val.ofInt vminVal_ofInt
    · have hmax : (y :: ys).max? = some x := List.max?_eq_some_iff.2 ⟨hx, by simpa using hext⟩
      rw [List.max?_cons', Option.some.injEq] at hmax
      rw [← hmax]
      simp only [if_true, List.map_cons, List.tail_cons, List.headD_cons, List.foldl_map]
      exact List.foldl_hom Val.ofInt vmaxVal_ofInt

theorem roundInt_ofInt (mode : RMode) (draw : Nat) (i : Int) : roundInt mode draw (Val.ofInt i) = i := by
  have hround : roundQuanta mode (decide (i < 0)) i.natAbs 1 0 draw = i.natAbs := by simp [roundQuanta, Nat.mod_one]
  simp only [Val.ofInt, roundInt, Val.ratio, Int.toNat_zero, neg_zero, pow_zero, mul_one, hround, decide_eq_true_eq]
  split <;> omega

theorem Row.intAt_inRange {r : Row} {k : Nat} (h : fmtInt r.tag = true) : (intRange r.tag).1 ≤ r.intAt k ∧ r.intAt k ≤ (intRange r.tag).2 := by
  have hlt := r.code_lt k
  obtain ht | ht | ht | ht := fmtInt_cases h <;> simp only [Row.intAt, ht, fmtBits, intRange] at hlt ⊢ <;> simp <;> omega

/-- An element of a row of an integer format, as the format holds it. -/
theorem encodeCode_intAt {r : Row} {k draw : Nat} {mode : RMode} {sat8 : Bool} (h : fmtInt r.tag = true) :
    encodeCode r.tag mode sat8 draw (Val.ofInt (r.intAt k)) = wrapTo (fmtBits r.tag) (r.intAt k) := by
  have hfloat : fmtFloat r.tag = none := by obtain ht | ht | ht | ht := fmtInt_cases h <;> rw [ht] <;> rfl
  have hconv : ∀ i, convInt (intRange r.tag).1 (intRange r.tag).2 mode draw (Val.ofInt i)
      = clampInt (intRange r.tag).1 (intRange r.tag).2 (roundInt mode draw (Val.ofInt i)) := fun _ => rfl
  obtain ⟨hlo, hhi⟩ := Row.intAt_inRange (k := k) h
  simp only [encodeCode, hfloat, hconv, roundInt_ofInt, clampInt, if_neg (not_lt.2 hlo), if_neg (not_lt.2 hhi)]

theorem rowExtreme_of_int {isMax bc : Bool} {ty : Fmt} {rd : Rounding} {r : Row} (ht : r.tag = ty) (hr : fmtInt ty = true) {e : Nat}
    (he : e < fmtElems ty) (hext : ∀ k, k < fmtElems ty → if isMax = true then r.intAt k ≤ r.intAt e else r.intAt e ≤ r.intAt k) :
    rowExtreme isMax bc ty rd (.row r) = .ok (placeCode ty bc r.poison (wrapTo (fmtBits ty) (r.intAt e)), rd) := by
  subst ht
  have hcode := fmtInt_code hr
  have hfold := foldl_extreme (isMax := isMax) (x := r.intAt e) (l := (List.range (fmtElems r.tag)).map r.intAt)
    (List.mem_map_of_mem (List.mem_range.2 he)) (by simpa using hext)
  have hvals : (List.range (fmtElems r.tag)).map ((Src.row r).val [] r.tag) = ((List.range (fmtElems r.tag)).map r.intAt).map Val.ofInt := by
    rw [List.map_map]
    exact List.map_congr_left (fun k _ => val_row hr)
  have hplace : Row.infBound { placeCode r.tag bc r.poison (wrapTo (fmtBits r.tag) (r.intAt e)) with side := 0 }
      = placeCode r.tag bc r.poison (wrapTo (fmtBits r.tag) (r.intAt e)) := by
    rw [infBound_of_code (by exact hcode)]
    exact rowOf_side_of_code hcode
  simp only [rowExtreme, accepts_own rfl, firstFault_one, hvals, hfold, encodeCode_intAt hr, pxSide_of_code hcode, Src.poison, hplace]

/-! ## The place of the largest element -/

/-- The lowest index of the largest of the first `n` numbers; 0 of none. -/
def firstMax (x : Nat → Int) : Nat → Nat
  | 0 => 0
  | n + 1 => if x (firstMax x n) < x n then n else firstMax x n

theorem firstMax_le (x : Nat → Int) : ∀ {n e : Nat}, e < n → x e ≤ x (firstMax x n)
  | n + 1, e, he => by
    rw [firstMax]
    obtain he | rfl := Nat.lt_succ_iff_lt_or_eq.1 he
    · have := firstMax_le x he
      split <;> omega
    · split <;> omega

theorem firstMax_lt (x : Nat → Int) : ∀ {n : Nat}, 0 < n → firstMax x n < n
  | 1, _ => by simp [firstMax]
  | n + 2, _ => by
    have := firstMax_lt x (n := n + 1) (by omega)
    rw [firstMax]
    split <;> omega

theorem firstMax_first (x : Nat → Int) : ∀ {n e : Nat}, e < firstMax x n → x e < x (firstMax x n)
  | n + 1, e, he => by
    rw [firstMax] at he ⊢
    split at he
    next h =>
      have := firstMax_le x he
      rw [if_pos h]
      omega
    next h =>
      rw [if_neg h]
      exact firstMax_first x he

theorem foldl_firstMax (x : Nat → Int) (n : Nat) :
    (List.range n).foldl (fun b i => if (Val.ofInt (x b)).isNan then b else if (Val.ofInt (x i)).isNan then i else
      if Val.ltz (Val.ofInt (x b)) (Val.ofInt (x i)) then i else b) 0 = firstMax x n := by
  simp only [isNan_ofInt, ltz_ofInt, Bool.false_eq_true, if_false, decide_eq_true_eq]
  induction n with
  | zero => rfl
  | succ n ih => simp only [List.range_succ, List.foldl_append, ih, List.foldl_cons, List.foldl_nil, firstMax]

theorem rowArgmax_of_int {ty : Fmt} {rd : Rounding} {r : Row} (ht : r.tag = ty) (hr : fmtInt ty = true) :
    rowArgmax ty rd (.row r) = .ok (placeCode .i32 false r.poison (firstMax r.intAt (fmtElems ty)), rd) := by
  simp only [rowArgmax, accepts_own ht, firstFault_one, val_row (r := r) (ht ▸ hr), foldl_firstMax, Src.poison]

theorem fmtElems_pos (f : Fmt) : 0 < fmtElems f := by cases f <;> decide

theorem integerReductions : Claims.IntegerReductions := by
  intro s h i hi a x gives total
  have hread := readSources_of_onFile (s := s) hi
  refine ⟨fun hty hr => ?_, fun hty ht => ?_⟩
  · have hsum : ∀ (bc : BitVec 1) (v : Nat → Int), (∀ e, v e = if decide (bc = 1) = true ∨ e = 0 then total else 0) → gives (.rsum h bc 0) .i32 v := by
      intro bc v hv
      obtain ⟨c, hrow, hc⟩ := rowSum_of_int (r := a) (rd := s.rnd) (bc := decide (bc = 1)) hr
      exact gives_of_holds rfl hread (by rw [hty]; exact hrow) (placeCode_holds (by decide) hc hv)
    exact ⟨hsum 0 _ (fun e => by simp), hsum 1 _ (fun e => by simp)⟩
  · have hcode := fmtInt_code hty
    have hextreme : ∀ (isMax : Bool) (z : BitVec 1 → Instr) (e : Nat), (∀ bc, exec (z bc) s = .next (stationEntry h 6
          (fun s a _ => rowExtreme isMax (bc = 1) h.ty s.rnd a) s)) → e < fmtElems h.ty →
        (∀ k, k < fmtElems h.ty → if isMax = true then x k ≤ x e else x e ≤ x k) →
        gives (z 0) h.ty (fun k => if k = 0 then x e else 0) ∧ gives (z 1) h.ty (fun _ => x e) := by
      intro isMax z e hexec he hext
      have hmod : (wrapTo (fmtBits h.ty) (x e) : Int) ≡ x e [ZMOD 2 ^ fmtBits h.ty] := by rw [wrapTo_cast]; exact Int.mod_modEq _ _
      exact ⟨gives_of_holds (hexec 0) hread (rowExtreme_of_int ht hty he hext) (placeCode_holds hcode hmod (fun k => by simp)),
        gives_of_holds (hexec 1) hread (rowExtreme_of_int ht hty he hext) (placeCode_holds hcode hmod (fun k => by simp))⟩
    refine ⟨?_, ?_⟩
    · have he := firstMax_lt x (fmtElems_pos h.ty)
      exact ⟨firstMax x (fmtElems h.ty), he, fun e => firstMax_le x, fun e => firstMax_first x,
        gives_of_holds rfl hread (rowArgmax_of_int ht hty) (placeCode_holds (by decide) rfl (fun e => by simp [x, a])),
        hextreme true (.rmax h) _ (fun _ => rfl) he (fun e => firstMax_le x)⟩
    · have he := firstMax_lt (fun e => -x e) (fmtElems_pos h.ty)
      have hle : ∀ e, e < fmtElems h.ty → x (firstMax (fun e => -x e) (fmtElems h.ty)) ≤ x e :=
        fun e hlt => neg_le_neg_iff.1 (firstMax_le (fun e => -x e) hlt)
      exact ⟨firstMax (fun e => -x e) (fmtElems h.ty), he, hle, hextreme false (.rmin h) _ (fun _ => rfl) he hle⟩

end Sys2Proof.Machine
end

/-! # Scans and compactions (R187, R189) -/
section
namespace Sys2Proof.Machine

/-! ## Running sums -/

/-- The sum of `c` and the first `n` numbers, each addition kept to 32 bits. -/
def runSum (c : Int) (x : Nat → Int) : Nat → Int
  | 0 => c
  | n + 1 => signedOf 32 (wrapTo 32 (runSum c x n + x n))

theorem runSum_modEq (c : Int) (x : Nat → Int) : ∀ n, runSum c x n ≡ c + ((List.range n).map x).sum [ZMOD 2 ^ 32]
  | 0 => by simp [runSum]
  | n + 1 => by
    rw [runSum, List.range_succ, List.map_append, List.sum_append, ← add_assoc]
    simpa using (signedOf_wrapTo_modEq 32 _).trans ((runSum_modEq c x n).add_right (x n))

/-- One element of a scan: the sum so far, and the results so far. -/
def scanStep (excl : Bool) (acc : Int × List Int) (x : Int) : Int × List Int :=
  let s := signedOf 32 (wrapTo 32 (acc.1 + x))
  (s, acc.2 ++ [if excl then acc.1 else s])

theorem foldl_scanStep (excl : Bool) (c : Int) (x : Nat → Int) (n : Nat) : ((List.range n).map x).foldl (scanStep excl) (c, [])
    = (runSum c x n, (List.range n).map (fun e => runSum c x (if excl then e else e + 1))) := by
  induction n with
  | zero => rfl
  | succ n ih =>
    rw [List.range_succ, List.map_append, List.foldl_append, ih, List.map_append]
    cases excl <;> rfl

section
variable {a b : Row} {rd : Rounding}

theorem rowScan_of_int {excl : Bool} (ha : fmtInt a.tag = true) (hb : b.tag = .i32) : rowScan excl .i32 rd (.row a) (.row b)
    = .ok (rowOf .i32 ((List.range 32).map (fun e => wrapTo 32 (runSum (b.intAt 31) a.intAt (if excl then e else e + 1)))) []
      (a.poison || b.poison), rd) := by
  have haccepts : (Src.row a).accepts (fun t => fmtInt t) = none := accepts_row ha
  have hfold := foldl_scanStep excl (b.intAt 31) a.intAt 32
  have hmap := congrArg (fun l => l.2.map (wrapTo 32)) hfold
  simp only [List.map_map] at hmap
  simp only [rowScan, if_true, haccepts, accepts_own hb, firstFault_two, int_row ha, int_row (r := b) (hb ▸ rfl), Src.poison]
  exact congrArg (fun l => Except.ok (rowOf .i32 l [] (a.poison || b.poison), rd)) hmap

/-! ## Packed elements -/

theorem rowOf_list_holds {ty : Fmt} {cs : List Nat} {p : Bool} {v : Nat → Int} (hty : ty.code ≤ 8) (hlen : cs.length ≤ fmtElems ty)
    (hv : ∀ e, v e = (cs.getD e 0 : Nat)) : (rowOf ty cs [] p).holds ty p v :=
  ⟨rowOf_plain (fmtMx_of_code hty), fun e _ => by
    rw [rowOf_code hlen, hv]
    push_cast
    rfl⟩

theorem rowCmpct_of_row {ty : Fmt} {amb : Bool} (hty : ty.code ≤ 8) (ha : a.tag = ty) (hb : b.tag = .ui8) : rowCmpct amb ty rd (.row a) (.row b)
    = .ok (rowOf ty (((List.range (fmtElems ty)).filter (fun e => byteSet amb (b.code e))).map a.code) [] (a.poison || b.poison), rd) := by
  have hbits : (Src.row a).bits ty = a.code := funext fun _ => bits_row ha
  simp only [rowCmpct, accepts_own ha, accepts_own hb, firstFault_two, bits_row hb, hbits, pxSide_of_code hty, Src.poison, rowOf_side_of_code hty]
  rw [infBound_of_code (by exact hty)]

end

theorem scansAndCompactions : Claims.ScansAndCompactions := by
  intro s h i j hij a b gives
  have hread := readSources_of_onFiles (s := s) hij
  refine ⟨fun hty ha hb => ?_, fun hty ha hb => ?_⟩
  · have hscan : ∀ (x : BitVec 1) (v : Nat → Int), (∀ e, v e = b.intAt 31 + ((List.range (if decide (x = 1) = true then e else e + 1)).map a.intAt).sum) →
        gives (.scan h x) 6 .i32 v := by
      intro x v hv
      refine gives_of_holds rfl hread (by rw [hty]; exact rowScan_of_int ha hb) (rowOf_range_holds (by decide) (fun e _ => ?_))
      rw [wrapTo_cast, hv]
      exact (Int.mod_modEq _ _).trans (runSum_modEq _ _ _)
    exact ⟨hscan 0 _ (fun _ => by simp), hscan 1 _ (fun _ => by simp)⟩
  · intro kept
    have hpack : ∀ (x : BitVec 1), gives (.cmpct h x) 3 h.ty (fun e => (((kept (decide (x = 1)))[e]?.map a.code).getD 0 : Nat)) := by
      intro x
      refine gives_of_holds rfl hread (rowCmpct_of_row hty ha hb) (rowOf_list_holds hty ?_ (fun e => ?_))
      · simpa using List.length_filter_le (fun e => byteSet (decide (x = 1)) (b.code e)) (List.range (fmtElems h.ty))
      · rw [List.getD_eq_getElem?_getD, List.getElem?_map]
        rfl
    exact ⟨hpack 0, hpack 1⟩

end Sys2Proof.Machine
end

/-! # FP32 facts that rest on no rounding (R63, R64, R174, R179, R180) -/
section
namespace Sys2Proof.Machine

/-! ## A float code survives its own format (R63, R73) -/

/-- A value with its sign replaced; NaN has none. -/
def Val.withSign (n : Bool) : Val → Val
  | .nan => .nan
  | .inf _ => .inf n
  | .fin _ m e => .fin n m e

theorem neg_eq_withSign (v : Val) : v.neg = v.withSign (!v.isNeg) := by cases v <;> rfl

theorem abs_eq_withSign (v : Val) : v.abs = v.withSign false := by cases v <;> rfl

theorem roundQuanta_ratio (mode : RMode) (n : Bool) (m draw : Nat) (e : Int) :
    roundQuanta mode n (Val.ratio m e).1 (Val.ratio m e).2 e draw = m := by
  have hmul : m * 2 ^ e.toNat * 2 ^ (-e).toNat = m * (2 ^ (-e).toNat * 2 ^ e.toNat) := by ring
  simp only [roundQuanta, Val.ratio, hmul, Nat.mul_mod_left, if_true]
  exact Nat.mul_div_cancel _ (by positivity)

theorem log2_mul_two_pow {m : Nat} (hm : m ≠ 0) (k : Nat) : Nat.log2 (m * 2 ^ k) = Nat.log2 m + k := by
  rw [Nat.log2_eq_iff (by positivity), pow_add, Nat.add_right_comm, pow_add]
  exact ⟨Nat.mul_le_mul_right _ (Nat.log2_self_le hm), Nat.mul_lt_mul_of_pos_right Nat.lt_log2_self (by positivity)⟩

theorem ilog2_ratio {m : Nat} (hm : m ≠ 0) (e : Int) : ilog2 (Val.ratio m e).1 (Val.ratio m e).2 = Nat.log2 m + e := by
  have hnum : Nat.log2 (m * 2 ^ e.toNat) = Nat.log2 m + e.toNat := log2_mul_two_pow hm _
  have hden : Nat.log2 (2 ^ (-e).toNat) = (-e).toNat := Nat.log2_two_pow
  simp only [ilog2, Val.ratio, hnum, hden]
  have hd : ((Nat.log2 m + e.toNat : Nat) : Int) - (-e).toNat = Nat.log2 m + e := by omega
  have hpow : 2 ^ (-e).toNat * 2 ^ ((Nat.log2 m : Int) + e).toNat ≤ m * 2 ^ e.toNat * 2 ^ (-((Nat.log2 m : Int) + e)).toNat := by
    have hexp : (-e).toNat + ((Nat.log2 m : Int) + e).toNat = Nat.log2 m + e.toNat + (-((Nat.log2 m : Int) + e)).toNat := by omega
    rw [← pow_add, hexp, pow_add, pow_add]
    gcongr
    exact Nat.log2_self_le hm
  rw [hd, if_neg (not_lt.2 hpow)]

section
variable (f : FloatFmt) (mode : RMode) (n sat8 : Bool) (draw : Nat)

/-- A magnitude that fills no more than the mantissa, at the exponent that rounding chooses for it, is kept. -/
theorem FloatFmt.roundMag_ratio {m : Nat} {e : Int} (hm : m ≠ 0) (he : max (Nat.log2 m + e - f.mant) f.qmin = e) :
    f.roundMag mode n (Val.ratio m e).1 (Val.ratio m e).2 draw = (e - f.qmin).toNat * 2 ^ f.mant + m := by
  have hnum : (Val.ratio m e).1 ≠ 0 := Nat.mul_ne_zero hm (by positivity)
  simp only [FloatFmt.roundMag, if_neg hnum, ilog2_ratio hm, he, roundQuanta_ratio]

theorem FloatFmt.conv_of_roundMag {m c : Nat} {e : Int} (h : f.roundMag mode n (Val.ratio m e).1 (Val.ratio m e).2 draw = c) (hc : c ≤ f.maxCode) :
    f.conv mode sat8 draw (.fin n m e) = f.signed n c := by
  simp only [FloatFmt.conv, FloatFmt.roundQ, h, if_pos hc]

/-- The finite codes: an element with its sign replaced, converted into its own format, keeps the bits of its magnitude. -/
theorem FloatFmt.conv_withSign_decode {code : Nat} (hc : code % 2 ^ (f.bits - 1) ≤ f.maxCode) :
    f.conv mode sat8 draw ((f.decode code).withSign n) = f.signed n (code % 2 ^ (f.bits - 1)) := by
  simp only [FloatFmt.decode, if_pos hc]
  generalize code % 2 ^ (f.bits - 1) = c at hc
  split
  next hex =>
    refine f.conv_of_roundMag _ _ _ _ ?_ hc
    obtain rfl | hne := eq_or_ne c 0
    · simp [FloatFmt.roundMag, Val.ratio]
    · have hlog : Nat.log2 c < f.mant := (Nat.log2_lt hne).2 (by simpa using hex)
      rw [f.roundMag_ratio _ _ _ hne (by omega)]
      simp
  next hex =>
    refine f.conv_of_roundMag _ _ _ _ ?_ hc
    have hlt : c % 2 ^ f.mant < 2 ^ f.mant := Nat.mod_lt _ (by positivity)
    have hne : 2 ^ f.mant + c % 2 ^ f.mant ≠ 0 := by positivity
    have hlog : Nat.log2 (2 ^ f.mant + c % 2 ^ f.mant) = f.mant := by
      have hup : Nat.log2 (2 ^ f.mant + c % 2 ^ f.mant) < f.mant + 1 := (Nat.log2_lt hne).2 (by rw [pow_succ]; omega)
      have hlow : f.mant ≤ Nat.log2 (2 ^ f.mant + c % 2 ^ f.mant) := (Nat.le_log2 hne).2 (by omega)
      omega
    obtain ⟨x, hx⟩ := Nat.exists_eq_succ_of_ne_zero hex
    rw [f.roundMag_ratio _ _ _ hne (by rw [hlog, hx]; push_cast; omega), hx]
    have hdiv := Nat.div_add_mod c (2 ^ f.mant)
    rw [hx] at hdiv
    have hexp : (f.qmin + ((x.succ : Nat) : Int) - 1 - f.qmin).toNat = x := by push_cast; omega
    rw [hexp]
    linarith

end

/-! ## The sign bit of FP32 (R64) -/

theorem f32Nan_iff {c : Nat} : f32Nan c ↔ c / 2 ^ 23 % 256 = 255 ∧ c % 2 ^ 23 ≠ 0 := by
  unfold f32Nan
  omega

theorem fp32_decode_nan {c : Nat} (h : f32Nan c) : fp32.decode c = .nan := by
  have hmax : ¬ c % 2 ^ (fp32.bits - 1) ≤ fp32.maxCode := by simp only [f32Nan, fp32] at h ⊢; omega
  have hinf : ¬ some (c % 2 ^ (fp32.bits - 1)) = fp32.infCode := by simp only [f32Nan, fp32, Option.some.injEq] at h ⊢; omega
  simp only [FloatFmt.decode, if_neg hmax, if_neg hinf]

/-- What is no NaN keeps the bits of its magnitude under its own format, whatever sign it is given. -/
theorem fp32_conv_withSign {c : Nat} {mode : RMode} {sat8 n : Bool} {draw : Nat} (h : ¬ f32Nan c) :
    fp32.conv mode sat8 draw ((fp32.decode c).withSign n) = fp32.signed n (c % 2 ^ 31) := by
  by_cases hmax : c % 2 ^ (fp32.bits - 1) ≤ fp32.maxCode
  · exact fp32.conv_withSign_decode mode n sat8 draw hmax
  · have hinf : c % 2 ^ 31 = 0x7F800000 := by simp only [f32Nan, fp32] at h hmax; omega
    have hinf' : some (c % 2 ^ (fp32.bits - 1)) = fp32.infCode := congrArg some hinf
    have hsat : fp32.isSat sat8 = false := by simp [FloatFmt.isSat, fp32]
    simp only [FloatFmt.decode, if_neg hmax, if_pos hinf', Val.withSign, FloatFmt.conv, hsat, hinf]
    rfl

theorem fp32_isNeg_decode {c : Nat} (h : ¬ f32Nan c) : (fp32.decode c).isNeg = decide (c / 2 ^ 31 % 2 = 1) := by
  have hnan : ¬ c % 2 ^ (fp32.bits - 1) ≤ fp32.maxCode → some (c % 2 ^ (fp32.bits - 1)) = fp32.infCode := by
    intro hmax
    simp only [f32Nan, fp32, Option.some.injEq] at h hmax ⊢
    omega
  simp only [FloatFmt.decode]
  split
  · split <;> rfl
  next hmax => rw [if_pos (hnan hmax)]; rfl

theorem fp32_conv_neg {c draw : Nat} {mode : RMode} {sat8 : Bool} :
    fp32.conv mode sat8 draw (fp32.decode c).neg = if c / 2 ^ 23 % 256 = 255 ∧ c % 2 ^ 23 ≠ 0 then 0x7FC00000 else (c + 2 ^ 31) % 2 ^ 32 := by
  split
  next h => rw [fp32_decode_nan (f32Nan_iff.2 h)]; rfl
  next h =>
    rw [← f32Nan_iff] at h
    rw [neg_eq_withSign, fp32_conv_withSign h, fp32_isNeg_decode h, FloatFmt.signed]
    simp only [Bool.not_eq_true', decide_eq_false_iff_not, fp32]
    split <;> omega

theorem fp32_conv_abs {c draw : Nat} {mode : RMode} {sat8 : Bool} :
    fp32.conv mode sat8 draw (fp32.decode c).abs = if c / 2 ^ 23 % 256 = 255 ∧ c % 2 ^ 23 ≠ 0 then 0x7FC00000 else c % 2 ^ 31 := by
  split
  next h => rw [fp32_decode_nan (f32Nan_iff.2 h)]; rfl
  next h => rw [abs_eq_withSign, fp32_conv_withSign (mt f32Nan_iff.1 h)]; rfl

/-! ## Rows of FP32 -/

theorem mapDraw_of_not_sr {α β : Type} {f : RMode → Bool → Nat → α → β} {rd : Rounding} (h : rd.mode ≠ .sr) :
    ∀ l : List α, rd.mapDraw f l = (l.map (f rd.mode rd.sat8 0), rd)
  | [] => rfl
  | v :: vs => by simp [Rounding.mapDraw, h, mapDraw_of_not_sr h vs]

theorem floatRow_f32 {rd : Rounding} {p : Bool} {v : Nat → Val} (h : rd.mode ≠ .sr) :
    floatRow .f32 rd p v = (rowOf .f32 ((List.range (fmtElems .f32)).map (fun e => fp32.conv rd.mode rd.sat8 0 (v e))) [] p, rd) := by
  have hcode : ∀ x, encodeCode .f32 rd.mode rd.sat8 0 x = fp32.conv rd.mode rd.sat8 0 x := fun _ => rfl
  have hmx : fmtMx .f32 = false := rfl
  simp only [floatRow, encodeVals, hmx, mapDraw_of_not_sr h, List.map_map, Bool.false_eq_true, if_false]
  rfl

section
variable {r : Row} {rd : Rounding}

theorem val_row_f32 {k : Nat} (ht : r.tag = .f32) : (Src.row r).val [] .f32 k = fp32.decode (r.code k) := by simp only [Src.val, Row.val, ht, codeVal]

theorem rowUnary_of_f32 {fv : Val → Val} {fi : Int → Int} (ht : r.tag = .f32) (hmode : rd.mode ≠ .sr) : rowUnary fv fi .f32 rd (.row r)
    = .ok (rowOf .f32 ((List.range (fmtElems .f32)).map (fun e => fp32.conv rd.mode rd.sat8 0 (fv (fp32.decode (r.code e))))) [] r.poison, rd) := by
  have hint : fmtInt .f32 = false := rfl
  simp only [rowUnary, accepts_own ht, firstFault_one, elemRow, hint, Bool.false_eq_true, if_false, floatRow_f32 hmode, val_row_f32 ht, Src.poison]

theorem rowAccept_of_bf32 (ht : r.tag = .bf32) : rowAccept .f32 rd (.row r) = .ok ({ r with tag := .f32, side := 0 }, rd) := by
  have haccepts : (Src.row r).accepts (fun t => t = .bf32) = none := accepts_row (by simpa using ht)
  have hi16 : Fmt.f32 ≠ .i16 := by decide
  simp only [rowAccept, if_neg hi16, haccepts, firstFault_one, Src.toRow]

theorem rowSf_of_f32 {f : Val → Nat} (ht : r.tag = .f32) : rowSf f rd (.row r)
    = .ok (rowOf .f32 ((List.range (fmtElems .f32)).map (fun e => f (fp32.decode (r.code e)))) [] r.poison, rd) := by
  simp only [rowSf, accepts_own ht, firstFault_one, val_row_f32 ht, Src.poison]
  rfl

end

theorem rowOf_f32_spec {p : Bool} {g v : Nat → Nat} (hv : ∀ e, e < 32 → g e % 2 ^ 32 = v e) :
    (rowOf .f32 ((List.range (fmtElems .f32)).map g) [] p).plain .f32 p
      ∧ ∀ e, e < 32 → (rowOf .f32 ((List.range (fmtElems .f32)).map g) [] p).code e = v e :=
  ⟨rowOf_plain rfl, fun e he => (rowOf_range_code (ty := .f32) he).trans (hv e he)⟩

theorem floatExactFacts : Claims.FloatExactFacts := by
  intro s h i hi hty a nan gives
  have hread := readSources_of_onFile (s := s) hi
  have hgives : ∀ {x : Instr} {lat : Nat} {f : State → Src → Src → Except HwFault (Row × Rounding)} {g v : Nat → Nat},
      exec x s = .next (stationEntry h lat f s) → f s (.row a) .none = .ok (rowOf .f32 ((List.range (fmtElems .f32)).map g) [] a.poison, s.rnd) →
      (∀ e, e < 32 → g e % 2 ^ 32 = v e) → gives x lat v :=
    fun hexec hf hv => ⟨_, by rw [hexec, stationEntry_of_sources hread hf], rowOf_f32_spec hv⟩
  refine ⟨fun ht hmode => ⟨?_, ?_, ?_⟩, fun ht => ?_, fun hz => ?_⟩
  · refine hgives rfl (by rw [hty]; exact rowUnary_of_f32 ht hmode) (fun e _ => ?_)
    rw [fp32_conv_neg]
    exact Nat.mod_eq_of_lt (by split <;> omega)
  · refine hgives rfl (by rw [hty]; exact rowUnary_of_f32 ht hmode) (fun e _ => ?_)
    rw [fp32_conv_abs]
    exact Nat.mod_eq_of_lt (by split <;> omega)
  · show Host.Outcome.next (stationEntry h 2 _ s) = _
    rw [stationEntry_of_sources hread (rowMov_of_row (ht.trans hty.symm))]
  · refine ⟨{ a with tag := .f32, side := 0 }, ?_, ⟨rfl, rfl, rfl⟩, fun e _ => rfl⟩
    show Host.Outcome.next (stationEntry h 2 _ s) = _
    rw [stationEntry_of_sources hread (by rw [hty]; exact rowAccept_of_bf32 ht)]
  · have ht : a.tag = .f32 := by rw [hz]; rfl
    have hdecode : ∀ e, fp32.decode (a.code e) = .fin false 0 (-149) := by
      intro e
      rw [hz, Row.zero_code]
      decide
    refine ⟨hgives rfl (rowSf_of_f32 ht) ?_, hgives rfl (rowSf_of_f32 ht) ?_, hgives rfl (rowSf_of_f32 ht) ?_⟩ <;>
      · intro e _
        rw [hdecode]
        decide

/-- Settles O27, from its four claims. -/
theorem reductionsAndUnary : Obligations.ReductionsAndUnary := ⟨integerReductions, scansAndCompactions, unaryEntries, floatExactFacts⟩

end Sys2Proof.Machine
end

/-! # The bits of instructions: fields put together and cut apart (R91 to R110, R242, R325) -/
section
namespace Sys2Proof
open Machine

/-! ## Fields of given widths -/

@[simp] theorem unpack_nil (n : Nat) : unpack [] n = [] := rfl

/-- A value whose first field is `v` begins with it when it is cut apart. -/
theorem unpack_pack_cons {k v : Nat} {ks : List Nat} {r : List (Nat × Nat)} (hv : v < 2 ^ k) :
    unpack (k :: ks) (pack ((k, v) :: r)) = v :: unpack ks (pack r) := by
  simp only [unpack, pack, Nat.add_mul_mod_self_left, Nat.mod_eq_of_lt hv, Nat.add_mul_div_left _ _ (Nat.two_pow_pos k),
    Nat.div_eq_of_lt hv, Nat.zero_add]

@[simp] theorem unpack_pack_word {k : Nat} {ks : List Nat} {r : List (Nat × Nat)} (x : BitVec k) :
    unpack (k :: ks) (pack ((k, x.toNat) :: r)) = x.toNat :: unpack ks (pack r) :=
  unpack_pack_cons x.isLt

@[simp] theorem unpack_pack_zero {k : Nat} {ks : List Nat} {r : List (Nat × Nat)} :
    unpack (k :: ks) (pack ((k, 0) :: r)) = 0 :: unpack ks (pack r) :=
  unpack_pack_cons (Nat.two_pow_pos k)

/-- Fields see nothing of the bits above them. -/
theorem unpack_mod {ks : List Nat} {N n : Nat} (h : ks.sum ≤ N) : unpack ks (n % 2 ^ N) = unpack ks n := by
  induction ks generalizing N n with
  | nil => rfl
  | cons k ks ih =>
    rw [List.sum_cons] at h
    have hN : N = k + (N - k) := by omega
    have hmod : n % 2 ^ N % 2 ^ k = n % 2 ^ k := Nat.mod_mod_of_dvd _ (Nat.pow_dvd_pow 2 (by omega))
    have hdiv : n % 2 ^ N / 2 ^ k = n / 2 ^ k % 2 ^ (N - k) := by
      rw [hN, Nat.pow_add, Nat.mod_mul_right_div_self, ← hN]
    simp only [unpack, hmod, hdiv, ih (by omega : ks.sum ≤ N - k)]

theorem unpack_ofNat {ks : List Nat} {N : Nat} (n : Nat) (h : ks.sum ≤ N) : unpack ks (BitVec.ofNat N n).toNat = unpack ks n := by
  rw [BitVec.toNat_ofNat, unpack_mod h]

/-- The lowest field of a word. -/
theorem ofNat_pack_head {N k c : Nat} (r : List (Nat × Nat)) (hk : k ≤ N) (hc : c < 2 ^ k) :
    (BitVec.ofNat N (pack ((k, c) :: r))).toNat % 2 ^ k = c := by
  rw [BitVec.toNat_ofNat, Nat.mod_mod_of_dvd _ (Nat.pow_dvd_pow 2 hk), pack, Nat.add_mul_mod_self_left, Nat.mod_eq_of_lt hc]

/-- Every value fits the width of its field. -/
def Fits (fs : List (Nat × Nat)) : Prop := ∀ p ∈ fs, p.2 < 2 ^ p.1

@[simp] theorem fits_nil : Fits [] := nofun

theorem fits_cons {k v : Nat} {r : List (Nat × Nat)} : Fits ((k, v) :: r) ↔ v < 2 ^ k ∧ Fits r := List.forall_mem_cons

@[simp] theorem fits_word {k : Nat} {r : List (Nat × Nat)} (x : BitVec k) : Fits ((k, x.toNat) :: r) ↔ Fits r := by
  rw [fits_cons, and_iff_right x.isLt]

@[simp] theorem fits_zero {k : Nat} {r : List (Nat × Nat)} : Fits ((k, 0) :: r) ↔ Fits r := by
  rw [fits_cons, and_iff_right (Nat.two_pow_pos k)]

@[simp] theorem fits_one {r : List (Nat × Nat)} : Fits ((1, 1) :: r) ↔ Fits r := by
  rw [fits_cons, and_iff_right (by decide)]

theorem pack_lt {fs : List (Nat × Nat)} (h : Fits fs) : pack fs < 2 ^ (fs.map Prod.fst).sum := by
  induction fs with
  | nil => decide
  | cons p fs ih =>
    obtain ⟨hp, hfs⟩ := fits_cons.mp h
    rw [List.map_cons, List.sum_cons, pack, Nat.pow_add]
    calc p.2 + 2 ^ p.1 * pack fs < 2 ^ p.1 * (pack fs + 1) := by rw [Nat.mul_add]; omega
      _ ≤ 2 ^ p.1 * 2 ^ (fs.map Prod.fst).sum := Nat.mul_le_mul_left _ (ih hfs)

/-! ## The sequencer word and its extension word (R91 to R94) -/

theorem extOf_of_kind_ne {v : BitVec 32} (h : v.toNat / 2 ^ 30 ≠ 3) : extOf (some v) = none := if_neg h

theorem decodeSeqOp_congr {op fields : Nat} {e : Bool} {m n : Option (BitVec 32)} (h : takeExt e m = takeExt e n) :
    decodeSeqOp op fields e m = decodeSeqOp op fields e n := by
  simp only [decodeSeqOp, h]

theorem decodeSeq_of_kind_ne {w v : BitVec 32} (h : v.toNat / 2 ^ 30 ≠ 3) : decodeSeq w (some v) = decodeSeq w none := by
  have hext : ∀ e, takeExt e (some v) = takeExt e none := fun e => by
    rw [takeExt, takeExt, extOf_of_kind_ne h]
    rfl
  simp only [decodeSeq, decodeSeqOp_congr (hext _)]

/-- The extension word of an encoding is read as what it holds. -/
theorem extOf_pack (e : Bool) (x : BitVec 29) : extOf (some (.ofNat 32 (pack [(29, x.toNat), (1, e.toNat), (2, 3)]))) = some (e, x) := by
  have hx := x.isLt
  have he := Bool.toNat_lt e
  have hval : (BitVec.ofNat 32 (pack [(29, x.toNat), (1, e.toNat), (2, 3)])).toNat = x.toNat + 2 ^ 29 * (e.toNat + 2 * 3) := by
    simp only [pack, BitVec.toNat_ofNat]
    omega
  have hend : (BitVec.ofNat 32 (pack [(29, x.toNat), (1, e.toNat), (2, 3)])).getLsbD 29 = e := by
    rw [BitVec.getLsbD, hval]
    cases e <;> simp [Nat.testBit] <;> omega
  have hlow : (BitVec.ofNat 32 (pack [(29, x.toNat), (1, e.toNat), (2, 3)])).setWidth 29 = x := by
    apply BitVec.eq_of_toNat_eq
    rw [BitVec.toNat_setWidth, hval]
    omega
  rw [extOf, if_pos (by rw [hval]; omega), hend, hlow]

theorem slotOf_bounds {op sk : Nat} (h : slotOf op = some sk) : op < 2 ^ 8 ∧ sk < 3 := by
  unfold slotOf at h
  grind

/-- A word of fields within their 21 bits decodes by its opcode. -/
theorem decodeSeq_pack {op sk fields : Nat} {e : Bool} {next : Option (BitVec 32)} (hop : slotOf op = some sk) (hf : fields < 2 ^ 21) :
    decodeSeq (.ofNat 32 (pack [(21, fields), (8, op), (1, e.toNat), (2, sk)])) next = decodeSeqOp op fields e next := by
  obtain ⟨hop8, hsk⟩ := slotOf_bounds hop
  have hun : unpack [21, 8, 1, 2] (BitVec.ofNat 32 (pack [(21, fields), (8, op), (1, e.toNat), (2, sk)])).toNat
      = [fields, op, e.toNat, sk] := by
    rw [unpack_ofNat _ (by decide), unpack_pack_cons hf, unpack_pack_cons hop8, unpack_pack_cons (Bool.toNat_lt e),
      unpack_pack_cons (by omega)]
    rfl
  simp only [decodeSeq, hun, hop, if_neg (show sk ≠ 3 by omega), if_true]
  cases e <;> rfl

/-- An instruction of a format without an extension word. -/
theorem decode_plainWord {op sk fields : Nat} {e : Bool} {i : Instr}
    (hi : encode i = .seq (.ofNat 32 (pack [(21, fields), (8, op), (1, e.toNat), (2, sk)])) none) (hop : slotOf op = some sk)
    (hf : fields < 2 ^ 21) (h : decodeSeqOp op fields e none = .ok i) : decode (encode i) = .ok i :=
  hi ▸ (decodeSeq_pack hop hf).trans h

/-- An instruction of a format that takes an extension word. -/
theorem decode_immWord {op sk fields : Nat} {e : Bool} {x : Option (BitVec 29)} {i : Instr} (hi : encode i = seqWord op sk e fields x)
    (hop : slotOf op = some sk) (hf : fields < 2 ^ 21)
    (h : ∀ e' next, takeExt e' next = (e, x) → decodeSeqOp op fields e' next = .ok i) : decode (encode i) = .ok i := by
  rw [hi]
  cases x with
  | none => exact (decodeSeq_pack hop hf).trans (h e none (by cases e <;> rfl))
  | some x =>
    refine (decodeSeq_pack (e := false) hop hf).trans (h false _ ?_)
    simp only [takeExt, extOf_pack]
    rfl

/-! ## The entry (R96 to R98) -/

@[simp] theorem Fmt.ofCode_code (t : Fmt) : Fmt.ofCode t.code = t := by cases t <;> rfl

theorem Fmt.code_lt (t : Fmt) : t.code < 2 ^ 4 := by cases t <;> decide

theorem Opnd.code_lt (o : Opnd) : o.code < 2 ^ 6 := by
  cases o with
  | ofr i | lane i => have := i.isLt; simp only [Opnd.code]; omega
  | _ => decide

@[simp] theorem Opnd.ofCode_code (o : Opnd) : Opnd.ofCode o.code = some o := by
  cases o with
  | ofr i | lane i =>
    obtain ⟨i, rfl⟩ : ∃ n : Fin 16, BitVec.ofFin n = i := ⟨i.toFin, rfl⟩
    revert i
    decide
  | _ => rfl

theorem unpack_entryWord {op m : Nat} {h : Ent} (hop : op < 2 ^ 8) (hm : m < 2 ^ 28) :
    unpack [28, 4, 6, 6, 6, 6, 8] (BitVec.ofNat 64 (pack [(28, m), (4, h.ty.code), (6, h.sb.code), (6, h.sa.code), (6, h.dst.code),
      (6, h.idle.toNat), (8, op)])).toNat = [m, h.ty.code, h.sb.code, h.sa.code, h.dst.code, h.idle.toNat, op] := by
  rw [unpack_ofNat _ (by decide), unpack_pack_cons hm, unpack_pack_cons h.ty.code_lt, unpack_pack_cons h.sb.code_lt,
    unpack_pack_cons h.sa.code_lt, unpack_pack_cons h.dst.code_lt, unpack_pack_word, unpack_pack_cons hop]
  rfl

/-- An entry whose immediate stands only where a source is IMM, and whose modifiers leave it the low half of MOD. -/
theorem decode_entry {op m : Nat} {h : Ent} {i : Instr} (hop : op < 2 ^ 8) (hm : m < 2 ^ 28) (hent : entOf i = some h)
    (hplace : immPlaced i = true) (hlow : (h.sa == .imm || h.sb == .imm) = true → m % 2 ^ 16 = 0) (hi : encode i = entryWord op h m)
    (hd : decodeEntryOp op h m = .ok i) : decode (encode i) = .ok i := by
  rw [← hd, hi, entryWord, decode, decodeEntry, unpack_entryWord hop]
  · simp only [Opnd.ofCode_code, Fmt.ofCode_code, BitVec.ofNat_toNat, BitVec.setWidth_eq]
    cases him : h.sa == .imm || h.sb == .imm with
    | false =>
      have hz : h.imm = 0 := by
        simp only [immPlaced, hent, Bool.or_assoc, him, Bool.or_false, beq_iff_eq] at hplace
        exact hplace
      simp only [Bool.false_eq_true, if_false, Nat.add_zero, BitVec.ofNat_eq_ofNat] at hz ⊢
      rw [← hz]
    | true =>
      have himm := h.imm.isLt
      have hm16 := hlow him
      have hval : (m + h.imm.toNat) % 2 ^ 16 = h.imm.toNat ∧ 2 ^ 16 * ((m + h.imm.toNat) / 2 ^ 16) = m := by omega
      simp only [if_true, hval, BitVec.ofNat_toNat, BitVec.setWidth_eq]
  · split
    case isTrue him =>
      have himm := h.imm.isLt
      have hm16 := hlow him
      omega
    case isFalse => exact hm

/-- The reserved bits of a deposit hold no mark of a fire (R232). -/
theorem unpack_deposit_rest : unpack [1, 5, 6] (pack [(12, 0)]) = [0, 0, 0] := rfl

/-- ROW and Q of a fire are zero (R232). -/
theorem unpack_fire_rest (hs : BitVec 5) : unpack [9, 3, 1, 5, 6] (pack [(12, 0), (1, 1), (5, hs.toNat), (6, 0)]) = [0, 0, 1, hs.toNat, 0] := by
  have hsplit : pack [(12, 0), (1, 1), (5, hs.toNat), (6, 0)] = pack [(9, 0), (3, 0), (1, 1), (5, hs.toNat), (6, 0)] := by
    simp only [pack]
    omega
  simp only [hsplit, unpack_pack_zero, unpack_pack_cons (show 1 < 2 ^ 1 by decide), unpack_pack_word, unpack_nil]

/-! ## Matrix commands, port commands and records (R99, R101, R325) -/

theorem unpack_matrixWord {op args : Nat} {h : MxHdr} (hop : op < 2 ^ 8) (hargs : args < 2 ^ 40) :
    unpack [8, 40, 16, 5, 2, 1, 5, 1, 8, 2, 40] (BitVec.ofNat 128 (pack [(8, op), (40, h.start.toNat), (16, h.wval.toNat), (5, h.wsem.toNat),
      (2, h.wop.toNat), (1, h.wen.toNat), (5, h.ssem.toNat), (1, h.sen.toNat), (8, h.sinc.toNat), (2, 0), (40, args)])).toNat
      = [op, h.start.toNat, h.wval.toNat, h.wsem.toNat, h.wop.toNat, h.wen.toNat, h.ssem.toNat, h.sen.toNat, h.sinc.toNat, 0, args] := by
  rw [unpack_ofNat _ (by decide), unpack_pack_cons hop]
  simp only [unpack_pack_word, unpack_pack_zero, unpack_pack_cons hargs, unpack_nil]

theorem decode_matrixWord {op args : Nat} {h : MxHdr} {i : Instr} (hi : encode i = matrixWord op h args)
    (hd : decode (matrixWord op h args) = .ok i) : decode (encode i) = .ok i := hi ▸ hd

theorem decode_portWord {op : Nat} {fs : List (Nat × Nat)} {i : Instr} (hi : encode i = .port (.ofNat 256 (pack ((8, op) :: fs))))
    (hd : decodePort (.ofNat 256 (pack ((8, op) :: fs))) = .ok i) : decode (encode i) = .ok i := hi ▸ hd

theorem portWord_opcode {op : Nat} (fs : List (Nat × Nat)) (hop : op < 256) : (BitVec.ofNat 256 (pack ((8, op) :: fs))).toNat % 256 = op :=
  ofNat_pack_head (k := 8) fs (by decide) hop

theorem decode_recordWord {kind : Nat} {fs : List (Nat × Nat)} {i : Instr} (hi : encode i = .record (.ofNat 512 (pack ((4, kind) :: fs))))
    (hd : decodeRecord (.ofNat 512 (pack ((4, kind) :: fs))) = .ok i) : decode (encode i) = .ok i := hi ▸ hd

theorem recordWord_kind {kind : Nat} (fs : List (Nat × Nat)) (h : kind < 16) :
    (BitVec.ofNat 512 (pack ((4, kind) :: fs))).toNat % 16 = kind :=
  ofNat_pack_head (k := 4) fs (by decide) h

/-! ## Every encoding decodes to its instruction (O54) -/

/-- The instructions go by the layout of their words. Where the modifiers of an entry use the low half of MOD, its limits allow no source IMM. -/
theorem decode_encode {i : Instr} (hwf : i.wf = true) (hne : encode i ≠ .event) : decode (encode i) = .ok i := by
  simp only [Instr.wf, Bool.and_eq_true] at hwf
  obtain ⟨⟨⟨⟨⟨hseq, hent⟩, hplace⟩, -⟩, -⟩, -⟩ := hwf
  cases i
  case add | sub | mul | mulh | mulhu | div | divu | rem | remu | and | or | xor | andn | shl | shr | sar | rol | min | max | minu | maxu | slt |
      sltu | shli | shri | sari | clz | ctz | popc | sext_b | sext_h | sext_w | zext_b | zext_h | zext_w | cmp | pand | por | pxor | pnot | sel | jr
      | sync | cyc | setof | fget | cport | go | mxq | hsig | hwait | hrd | getc | setc | fence | tstamp =>
    refine decode_plainWord rfl rfl (pack_lt (by simp)) ?_
    delta decodeSeqOp
    generalize hu : unpack = u
    conv_lhs => whnf
    subst hu
    simp
  case addi | andi | ori | xori | lui | cmpi | ld_b | ld_h | ld_w | ld_d | ldu_b | ldu_h | ldu_w | st_b | st_h | st_w | st_d | br | bf | jmp | call
      | loop | trap | arm | fwshare | idle =>
    refine decode_immWord rfl rfl (pack_lt (by simp)) fun e' next hx => ?_
    delta decodeSeqOp
    generalize hu : unpack = u
    conv_lhs => whnf
    subst hu
    simp [hx]
  case ret | exit | rfe | nop => exact decode_plainWord rfl rfl (by decide) rfl
  case disarm e stream x =>
    refine decode_immWord rfl rfl (pack_lt (by simp)) fun e' next hx => ?_
    delta decodeSeqOp
    generalize hu : unpack = u
    conv_lhs => whnf
    subst hu
    rw [hx]
    simp only [unpack_pack_word, unpack_pack_zero, unpack_nil, BitVec.ofNat_toNat, BitVec.setWidth_eq]
    exact if_pos (eq_of_beq hseq)
  case stn_nop | chk | vadd | vsub | vmul | vmin | vmax | vabs | vneg | vand | vor | vxor | vnot | vshl | vshr | vsar | vrshr | vaddsat | vsubsat |
      vmov | vscale | vpack | viota | vaccept | rcp | rsq | sqrt | ex2 | lg2 | sin | cos | perm | argmax | osf | mfd =>
    exact decode_entry (by decide) (by decide) rfl hplace (fun _ => rfl) rfl rfl
  case fmt | vfma | vfms | vclamp | vcmp | vcmpb | vsel | vmac | vcvt | vunpack | xpose | shuf | bcast | gath | slide | rope | spc24 | spc48 | rsum
      | rmax | rmin | scan | topk | cmpct | osm | mld | mdr | fsnd | frcv | fqd =>
    refine decode_entry (by decide) (pack_lt (by simp)) rfl hplace (fun _ => ?_) rfl ?_
    · simp only [pack]
      omega
    · delta decodeEntryOp
      generalize hu : unpack = u
      conv_lhs => whnf
      subst hu
      simp
  case rd | rdx | rdb | wr | wrx | wrb | bank_fill | bank_mode | bank_wait | stn_wait | stn_mode | vflag | xmv | xref | xprog_deposit | xprog_fire |
      xrdw | xbound | xstat | msv | mrs | fexp =>
    refine decode_entry (by decide) (pack_lt (by simp)) rfl hplace (fun him => ?_) rfl ?_
    · simp only [Bool.or_eq_true, beq_iff_eq] at him
      rcases him with him | him <;>
        simp [entryOk, Ent.putOk, Ent.wrOk, Ent.optOk, Ent.bare, modeOk, isLane, isRowOpnd, isOfTo, him] at hent
    · delta decodeEntryOp
      generalize hu : unpack = u
      conv_lhs => whnf
      subst hu
      simp [unpack_deposit_rest, unpack_fire_rest]
  case mmul | mmac | mmuls | mmacs | mclr | mclaim | mrel | mscl | mtr | mx_msig =>
    refine decode_matrixWord rfl ?_
    rw [matrixWord, decode, decodeMatrix, unpack_matrixWord (by decide) (pack_lt (by simp))]
    generalize hu : unpack = u
    conv_lhs => whnf
    subst hu
    simp
  case mfence | mnop =>
    refine decode_matrixWord rfl ?_
    rw [matrixWord, decode, decodeMatrix, unpack_matrixWord (by decide) (by decide)]
    simp
  case copy | copyp | pref | ferry_gath | scat | scadd | lred | ltopk | lcmp | ferry_fill | atom | barinit | inval | ferry_msig | srchg | srchv |
      dscan | append | remove | merge | stamp | pgrd | kvalloc | kvfree | kvapp | kvmap | kvret | kvld | kvq =>
    refine decode_portWord rfl ?_
    rw [decodePort, portWord_opcode _ (by decide)]
    delta decCopy decCopyp decPref decFerryGath decScat decScadd decLred decLtopk decLcmp decFerryFill decAtom decBarinit decInval decFerryMsig
        decSrchg decSrchv decDscan decAppend decRemove decMerge decStamp decPgrd decKvalloc decKvfree decKvapp decKvmap decKvret decKvld decKvq
    generalize hu : unpack = u
    conv_lhs => whnf
    subst hu
    rw [unpack_ofNat _ (by decide), unpack_pack_cons (by decide)]
    simp
  case nop_record | launch_record | ferry_record | store_record | kv_record | wait_record | signal_record | branch | select | phase | graph | cancel
      | irq | stamp_record | map | fence_record =>
    refine decode_recordWord rfl ?_
    rw [decodeRecord, recordWord_kind _ (by decide)]
    delta decNopRecord decLaunchRecord decFerryRecord decStoreRecord decKvRecord decWaitRecord decSignalRecord decBranch decSelect decPhase decGraph
        decCancel decIrq decStampRecord decMap decFenceRecord
    generalize hu : unpack = u
    conv_lhs => whnf
    subst hu
    rw [unpack_ofNat _ (by decide), unpack_pack_cons (by decide)]
    simp
  all_goals exact absurd rfl hne

/-- Settles O54: the fields that the encoder puts together are those that the decoder cuts apart, and a word that is no extension word leaves
`takeExt` as it is at the end of a line. -/
theorem encodingRoundTrip : Obligations.EncodingRoundTrip :=
  ⟨fun _ hwf hne => decode_encode hwf hne, fun _ _ h => decodeSeq_of_kind_ne h⟩

end Sys2Proof
end

/-! # Words that decode are encodings (R91 to R110, R242, R325) -/
section
namespace Sys2Proof
open Machine

/-! ## What the fields of a word say of it -/

/-- A number within the widths is its fields put together, and each of them fits its width. -/
theorem unpack_eq_iff {ks vs : List Nat} {n N : Nat} (hn : n < 2 ^ N) (hk : ks.sum = N) :
    unpack ks n = vs ↔ ks.length = vs.length ∧ Fits (ks.zip vs) ∧ n = pack (ks.zip vs) := by
  subst hk
  induction ks generalizing vs n with
  | nil =>
    have hz : n = 0 := by simpa using hn
    cases vs <;> simp [pack, hz]
  | cons k ks ih =>
    have hrest : n / 2 ^ k < 2 ^ ks.sum := by
      rw [List.sum_cons, Nat.pow_add] at hn
      exact Nat.div_lt_of_lt_mul hn
    cases vs with
    | nil => simp [unpack]
    | cons v vs =>
      simp only [unpack, List.cons.injEq, ih hrest, List.length_cons, Nat.add_right_cancel_iff, List.zip_cons_cons, fits_cons, pack]
      constructor
      · rintro ⟨rfl, hl, hf, hr⟩
        exact ⟨hl, ⟨Nat.mod_lt _ (Nat.two_pow_pos k), hf⟩, by rw [← hr, Nat.mod_add_div]⟩
      · rintro ⟨hl, ⟨hv, hf⟩, rfl⟩
        refine ⟨by rw [Nat.add_mul_mod_self_left, Nat.mod_eq_of_lt hv], hl, hf, ?_⟩
        rw [Nat.add_mul_div_left _ _ (Nat.two_pow_pos k), Nat.div_eq_of_lt hv, Nat.zero_add]


/-- A word is the fields it is cut into, which fit their widths. -/
theorem word_of_unpack {N : Nat} {ks vs : List Nat} {w : BitVec N} (h : unpack ks w.toNat = vs) (hk : ks.sum = N) :
    Fits (ks.zip vs) ∧ w = .ofNat N (pack (ks.zip vs)) := by
  obtain ⟨-, hfits, hpack⟩ := (unpack_eq_iff w.isLt hk).mp h
  refine ⟨hfits, BitVec.eq_of_toNat_eq ?_⟩
  rw [BitVec.toNat_ofNat, ← hpack, Nat.mod_eq_of_lt w.isLt]

/-! ## Entries -/

theorem Fmt.code_ofCode {c : Nat} (h : c < 16) : (Fmt.ofCode c).code = c := by
  revert c
  decide

theorem Opnd.code_of_ofCode {c : Nat} {o : Opnd} (h : c < 64) (ho : Opnd.ofCode c = some o) : o.code = c := by
  have hall : ∀ c < 64, ∀ o ∈ Opnd.ofCode c, o.code = c := by decide
  exact hall c h o ho

/-- Every arm of the decoder reads all 28 bits of MOD. -/
theorem encode_of_decodeEntryOp {op m : Nat} {h : Ent} {i : Instr} (hm : m < 2 ^ 28) (hd : decodeEntryOp op h m = .ok i) :
    encode i = entryWord op h m := by
  unfold decodeEntryOp at hd
  split at hd
  all_goals split at hd
  all_goals cases hd
  all_goals simp_all [encode, unpack_eq_iff hm, fits_cons, Nat.mod_eq_of_lt]
  · rfl
  · congr 1
    simp only [pack]
    omega

theorem encode_of_decodeEntry {w : BitVec 64} {i : Instr} (hd : decodeEntry w = .ok i) : encode i = .entry w := by
  have hself : BitVec.ofNat 64 w.toNat = w := by simp
  have hw := w.isLt
  unfold decodeEntry at hd
  split at hd
  case h_2 => cases hd
  rename_i m ty sb sa dst idle op hun
  obtain ⟨-, hfits, hpack⟩ := (unpack_eq_iff hw rfl).mp hun
  simp only [List.zip_cons_cons, List.zip_nil_right, fits_cons] at hfits hpack
  obtain ⟨hm, hty, hsb, hsa, hdst, hidle, -, -⟩ := hfits
  split at hd
  case h_2 => cases hd
  rename_i d a b hd' ha hb
  have hpos : ∀ c : Bool, (if c then 2 ^ 16 * (m / 2 ^ 16) else m) < 2 ^ 28
      ∧ (if c then 2 ^ 16 * (m / 2 ^ 16) else m) + (if c then (BitVec.ofNat 16 (if c then m % 2 ^ 16 else 0)).toNat else 0) = m := by
    intro c
    cases c <;> simp only [Bool.false_eq_true, if_false, if_true, BitVec.toNat_ofNat] <;> omega
  rw [encode_of_decodeEntryOp (hpos _).1 hd, entryWord, (hpos _).2, ← hself, hpack, Fmt.code_ofCode hty, Opnd.code_of_ofCode hdst hd',
    Opnd.code_of_ofCode hsa ha, Opnd.code_of_ofCode hsb hb, BitVec.toNat_ofNat, Nat.mod_eq_of_lt hidle]

/-! ## Matrix commands, port commands and records -/

theorem encode_of_decodeMatrix {w : BitVec 128} {i : Instr} (hd : decodeMatrix w = .ok i) : encode i = .matrix w := by
  have hself : BitVec.ofNat 128 w.toNat = w := by simp
  have hw := w.isLt
  unfold decodeMatrix at hd
  split at hd
  case h_2 => cases hd
  rename_i op start wval wsem wop wen ssem sen sinc rsv args hun
  obtain ⟨-, hfits, hpack⟩ := (unpack_eq_iff hw rfl).mp hun
  simp only [List.zip_cons_cons, List.zip_nil_right, fits_cons] at hfits hpack
  obtain ⟨-, hstart, hwval, hwsem, hwop, hwen, hssem, hsen, hsinc, -, hargs, -⟩ := hfits
  have hword : ∀ args', args' = args → rsv = 0 → matrixWord op ⟨.ofNat 40 start, .ofNat 16 wval, .ofNat 5 wsem, .ofNat 2 wop,
      .ofNat 1 wen, .ofNat 5 ssem, .ofNat 1 sen, .ofNat 8 sinc⟩ args' = .matrix w := by
    rintro _ rfl rfl
    rw [← hself, hpack]
    simp only [matrixWord, BitVec.toNat_ofNat, Nat.mod_eq_of_lt, hstart, hwval, hwsem, hwop, hwen, hssem, hsen, hsinc]
  split at hd
  case isTrue => cases hd
  rename_i hrsv
  split at hd
  all_goals split at hd
  all_goals cases hd
  all_goals
    refine hword _ ?_ (not_not.mp hrsv)
    simp_all [unpack_eq_iff hargs, fits_cons, Nat.mod_eq_of_lt]

theorem encode_of_decodePort {w : BitVec 256} {i : Instr} (hd : decodePort w = .ok i) : encode i = .port w := by
  unfold decodePort at hd
  generalize hop : w.toNat % 256 = op at hd
  split at hd
  case h_30 => cases hd
  all_goals
    simp only [decCopy, decCopyp, decPref, decFerryGath, decScat, decScadd, decLred, decLtopk, decLcmp, decFerryFill, decAtom, decBarinit, decInval,
        decFerryMsig, decSrchg, decSrchv, decDscan, decAppend, decRemove, decMerge, decStamp, decPgrd, decKvalloc, decKvfree, decKvapp, decKvmap,
        decKvret, decKvld, decKvq] at hd
    split at hd
  all_goals cases hd
  all_goals
    obtain ⟨hfits, rfl⟩ := word_of_unpack (N := 256) (by assumption) rfl
    rw [List.zip_cons_cons, portWord_opcode _ (fits_cons.mp hfits).1] at hop
    simp_all [encode, fits_cons, Nat.mod_eq_of_lt]

theorem encode_of_decodeRecord {w : BitVec 512} {i : Instr} (hd : decodeRecord w = .ok i) : encode i = .record w := by
  unfold decodeRecord at hd
  generalize hkind : w.toNat % 16 = kind at hd
  split at hd
  case' h_16 =>
    obtain rfl : kind = 15 := by
      have hlt := Nat.mod_lt w.toNat (show 16 > 0 by decide)
      grind
  all_goals
    simp only [decNopRecord, decLaunchRecord, decFerryRecord, decStoreRecord, decKvRecord, decWaitRecord, decSignalRecord, decBranch, decSelect,
        decPhase, decGraph, decCancel, decIrq, decStampRecord, decMap, decFenceRecord] at hd
    split at hd
  all_goals cases hd
  all_goals
    rename_i hun
    obtain ⟨hfits, hw⟩ := word_of_unpack (N := 512) hun rfl
    clear hun
    subst hw
    rw [List.zip_cons_cons, recordWord_kind _ (fits_cons.mp hfits).1] at hkind
    simp only [List.zip_cons_cons, List.zip_nil_right, fits_cons, Nat.two_pow_pos, -Nat.reducePow] at hfits
    simp_all [encode, Nat.mod_eq_of_lt]

/-! ## Sequencer words -/

/-- What a sequencer arm answers is a word of its fields, with the word's own end bit or, in a format that takes an extension word, that of
its last word. -/
theorem encode_of_decodeSeqOp {op sk fields : Nat} {e : Bool} {next : Option (BitVec 32)} {i : Instr} (hop : slotOf op = some sk)
    (hf : fields < 2 ^ 21) (hd : decodeSeqOp op fields e next = .ok i) :
    encode i = seqWord op sk e fields none ∨ encode i = seqWord op sk (takeExt e next).1 fields (takeExt e next).2 := by
  unfold decodeSeqOp at hd
  dsimp only at hd
  split at hd
  case h_88 => cases hd
  all_goals split at hd
  any_goals split at hd
  all_goals cases hd
  all_goals
    cases hop
    simp_all [encode, unpack_eq_iff hf, fits_cons, Nat.mod_eq_of_lt]

/-- An extension word is the encoding of what it holds. -/
theorem extOf_eq_some {next : Option (BitVec 32)} {p : Bool × BitVec 29} (h : extOf next = some p) :
    ∃ v, next = some v ∧ v.toNat / 2 ^ 30 = 3 ∧ v = .ofNat 32 (pack [(29, p.2.toNat), (1, p.1.toNat), (2, 3)]) := by
  unfold extOf at h
  split at h
  case h_2 => cases h
  rename_i v
  split at h
  case isFalse => cases h
  rename_i hkind
  cases h
  refine ⟨v, rfl, hkind, BitVec.eq_of_toNat_eq ?_⟩
  have hend : (v.getLsbD 29).toNat = v.toNat / 2 ^ 29 % 2 := by
    rw [BitVec.getLsbD, Nat.toNat_testBit]
  simp only [BitVec.toNat_ofNat, pack, BitVec.toNat_setWidth, hend]
  omega

theorem encode_of_decodeSeq {w : BitVec 32} {next : Option (BitVec 32)} {i : Instr} (hd : decodeSeq w next = .ok i) :
    encode i = .seq w none ∨ ∃ v, next = some v ∧ w.getLsbD 29 = false ∧ v.toNat / 2 ^ 30 = 3 ∧ encode i = .seq w (some v) := by
  unfold decodeSeq at hd
  split at hd
  case h_2 => cases hd
  rename_i fields op e sk hun
  obtain ⟨hfits, hw⟩ := word_of_unpack (N := 32) hun rfl
  simp only [List.zip_cons_cons, List.zip_nil_right, fits_cons] at hfits hw
  obtain ⟨hf, hop8, he, hsk4, -⟩ := hfits
  split at hd
  case isTrue => cases hd
  split at hd
  case h_1 => cases hd
  rename_i k hop
  split at hd
  case isFalse => cases hd
  rename_i hk
  subst hk
  have hplain : ∀ e' : Bool, e'.toNat = e → seqWord op sk e' fields none = .seq w none := by
    rintro e' rfl
    rw [hw]
    rfl
  cases hend : e == 1 with
  | true =>
    obtain rfl : e = 1 := eq_of_beq hend
    rw [hend] at hd
    rcases encode_of_decodeSeqOp hop hf hd with h | h <;> exact .inl (h.trans (hplain true rfl))
  | false =>
    obtain rfl : e = 0 := by
      have := ne_of_beq_false hend
      omega
    rw [hend] at hd
    rcases encode_of_decodeSeqOp hop hf hd with h | h
    · exact .inl (h.trans (hplain false rfl))
    cases hext : extOf next with
    | none =>
      simp only [takeExt, hext, Bool.false_eq_true, if_false] at h
      exact .inl (h.trans (hplain false rfl))
    | some p =>
      obtain ⟨v, rfl, hkind, hv⟩ := extOf_eq_some hext
      simp only [takeExt, hext, Bool.false_eq_true, if_false] at h
      refine .inr ⟨v, rfl, ?_, hkind, h.trans ?_⟩
      · rw [BitVec.getLsbD, Nat.testBit_eq_decide_div_mod_eq, hw, BitVec.toNat_ofNat, decide_eq_false_iff_not]
        simp only [pack]
        omega
      · rw [hw, hv]
        rfl

/-- Settles O55, by the arms of the decoder: each reads every field of the word, and the encoder puts the same fields together. -/
theorem encodingExact : Obligations.EncodingExact := by
  refine ⟨fun _ _ => encode_of_decodeEntry, fun _ _ => encode_of_decodeMatrix, fun _ _ => encode_of_decodePort,
    fun _ _ => encode_of_decodeRecord, fun _ _ hd => ?_, fun _ _ _ hd => ?_⟩
  · rcases encode_of_decodeSeq hd with h | ⟨v, hv, -⟩
    · exact h
    · cases hv
  · rcases encode_of_decodeSeq hd with h | ⟨v, hv, hrest⟩
    · exact .inl h
    · cases hv
      exact .inr hrest

/-- Settles O56: the decoder is evaluated on each of the words. -/
theorem sampleWords : Obligations.SampleWords := by
  unfold Obligations.SampleWords
  decide

end Sys2Proof
end

/-! # Control transfers (R95, R120, R133, R134) -/
section
namespace Sys2Proof.Machine
variable {s : State}

/-! ## What a transfer notes -/

/-- The context in focus has noted a transfer, and the word that runs as the word before the link (R95, R367). -/
def State.noteXfer (s : State) (line word : Nat) : State :=
  s.updCtx (fun y => { y with xfer := some (line, word), last := s.focus.org })

theorem takeTransfer_of_line {off : Int} {word : Nat} (h : 0 ≤ s.ctx.line + off ∧ s.ctx.line + off < 2 ^ 25) :
    takeTransfer off word s = s.noteXfer (s.ctx.line + off).toNat word := by
  unfold takeTransfer
  simp only [if_pos h]
  rfl

theorem takeLink_of_lt {v : Word} (h : v.toNat < 2 ^ 29) : takeLink v s = s.noteXfer (v.toNat / 16) (v.toNat % 16) := by
  unfold takeLink
  simp only [if_pos h]
  rfl

theorem setG_line (lat : Nat) (d : Reg) (v : Word) : (s.setG lat d v).ctx.line = s.ctx.line := by
  rw [State.setG, State.ctx_updCtx]
  rfl

theorem takeTransfer_setG_of_line {off : Int} {word lat : Nat} {d : Reg} {v : Word}
    (h : 0 ≤ s.ctx.line + off ∧ s.ctx.line + off < 2 ^ 25) :
    takeTransfer off word (s.setG lat d v) = (s.setG lat d v).noteXfer (s.ctx.line + off).toNat word := by
  rw [takeTransfer_of_line (by rwa [setG_line]), setG_line]

/-! ## The words that transfer -/

section
variable {e : Bool} {word : BitVec 4} {x : Option (BitVec 29)}

section
variable {loff : BitVec 11} (h : 0 ≤ s.ctx.line + (wideImm loff x).toInt ∧ s.ctx.line + (wideImm loff x).toInt < 2 ^ 25)
include h

theorem takeTransfer_wideImm : takeTransfer (extImm loff x) word.toNat s = s.noteXfer (s.ctx.line + (wideImm loff x).toInt).toNat word.toNat := by
  rw [wideImm_toInt (by decide)] at h ⊢
  exact takeTransfer_of_line h

theorem exec_br_of_line (neg : BitVec 1) (p : PReg) : exec (.br e neg p loff word x) s = .next (seqDone e x.isSome
    (if s.p p != (neg = 1) then s.noteXfer (s.ctx.line + (wideImm loff x).toInt).toNat word.toNat else s)) := by
  rw [← takeTransfer_wideImm h]
  rfl

theorem exec_bf_of_line (test : BitVec 2) (f : BitVec 4) : exec (.bf e test f loff word x) s = .next (seqDone e x.isSome
    (if flagTest test (s.fcore.flag f.toNat) then s.noteXfer (s.ctx.line + (wideImm loff x).toInt).toNat word.toNat else s)) := by
  rw [← takeTransfer_wideImm h]
  rfl

theorem exec_jmp_of_line : exec (.jmp e loff word x) s =
    .next (seqDone e x.isSome (s.noteXfer (s.ctx.line + (wideImm loff x).toInt).toNat word.toNat)) := by
  rw [← takeTransfer_wideImm h]
  rfl

theorem exec_call_of_line : exec (.call e loff word x) s = .next (seqDone e x.isSome
    ((s.setG 1 31 (returnLink (pastWord x.isSome s))).noteXfer (s.ctx.line + (wideImm loff x).toInt).toNat word.toNat)) := by
  rw [wideImm_toInt (by decide)] at h ⊢
  rw [← takeTransfer_setG_of_line h]
  rfl

end

/-- The decremented count of `loop` is zero where the count is 1 (R134). -/
theorem sub_one_ne_zero_iff (v : Word) : v - 1 ≠ 0 ↔ v.toNat ≠ 1 := by
  refine not_congr ⟨fun h => ?_, fun h => ?_⟩
  · rw [sub_eq_zero.mp h]
    rfl
  · rw [BitVec.eq_of_toNat_eq (y := 1) h]
    rfl

theorem exec_loop_of_line {lloff : BitVec 12} (a : Reg)
    (h : 0 ≤ s.ctx.line + (wideImm lloff x).toInt ∧ s.ctx.line + (wideImm lloff x).toInt < 2 ^ 25) :
    exec (.loop e a lloff word x) s = .next (seqDone e x.isSome (if (s.g a).toNat = 1 then s.setG 1 a 0
      else (s.setG 1 a (s.g a - 1)).noteXfer (s.ctx.line + (wideImm lloff x).toInt).toNat word.toNat)) := by
  rw [wideImm_toInt (by decide)] at h ⊢
  change Host.Outcome.next (seqDone e x.isSome (if s.g a - 1 ≠ 0 then takeTransfer (extImm lloff x) word.toNat (s.setG 1 a (s.g a - 1))
    else s.setG 1 a (s.g a - 1))) = _
  by_cases hv : (s.g a).toNat = 1
  · have h0 : s.g a - 1 = 0 := by_contra fun h0 => (sub_one_ne_zero_iff _).mp h0 hv
    rw [if_pos hv, if_neg (not_not.mpr h0), h0]
  · rw [if_neg hv, if_pos ((sub_one_ne_zero_iff _).mpr hv), takeTransfer_setG_of_line h]

end

theorem transfers : Claims.Transfers := by
  intro s e loff lloff word x go line lline
  refine ⟨fun h => ⟨fun p => ⟨?_, ?_⟩, fun f => ⟨exec_bf_of_line h 0 f, exec_bf_of_line h 1 f, exec_bf_of_line h 2 f⟩,
    exec_jmp_of_line h, _, exec_call_of_line h⟩, fun h a => exec_loop_of_line a h, fun a h => ?_, fun h => ?_⟩
  · rw [exec_br_of_line h]
    cases s.p p <;> rfl
  · rw [exec_br_of_line h]
    cases s.p p <;> rfl
  · change Host.Outcome.next (seqDone e false (takeLink (s.g a) s)) = _
    rw [takeLink_of_lt h]
    rfl
  · change Host.Outcome.next (seqDone e false (takeLink (s.g 31) s)) = _
    rw [takeLink_of_lt h]
    rfl

/-! ## The return link -/

theorem fetchLine_updCtx (f : Ctx → Ctx) (j obj line : Nat) : fetchLine (s.updCtx f) j obj line = fetchLine s j obj line :=
  fetchLine_setCore s _ _ (Core.setCtx_crew ..) j obj line

theorem fetchLine_pastWord (ext : Bool) (j obj line : Nat) : fetchLine (pastWord ext s) j obj line = fetchLine s j obj line :=
  fetchLine_updCtx _ j obj line

theorem ctx_pastWord (ext : Bool) : (pastWord ext s).ctx = { s.ctx with word := s.ctx.word + (if ext then 1 else 0) } :=
  State.ctx_updCtx s _

/-- The link past a word that ends its bundle names what follows it (R133). -/
theorem returnLink_pastWord {ext : Bool} {l : BitVec 512} {k : Nat} (hk : s.ctx.word + (if ext then 1 else 0) = k)
    (hl : fetchLine s s.focus.core s.ctx.obj s.ctx.line = .ok l) (hend : (lineWord l k).getLsbD 29 = true) :
    returnLink (pastWord ext s) = if k + 1 ≤ 15 ∧ lineWord l (k + 1) ≠ 0 then .ofNat 64 (s.ctx.line * 16 + (k + 1))
      else if lineNext l = chainEnd then 0 else .ofNat 64 (lineNext l * 16 + 1) := by
  have hnext : bundleNext l 3 k = k + 1 := by rw [bundleNext, if_pos hend]
  have hfetch : fetchLine (pastWord ext s) (pastWord ext s).focus.core (pastWord ext s).ctx.obj (pastWord ext s).ctx.line = .ok l := by
    rw [fetchLine_pastWord, ctx_pastWord]
    exact hl
  simp only [returnLink, hfetch]
  simp only [ctx_pastWord, hk, hnext]

theorem callReturnLink : Claims.CallReturnLink := by
  intro s loff word x l k line hl hend _ hline link
  have hk : s.ctx.word + (if x.isSome then 1 else 0) = k - 1 := by
    simp only [k]
    split <;> omega
  have hk1 : k - 1 + 1 = k := by
    simp only [k]
    split <;> omega
  have hlink : returnLink (pastWord x.isSome s) = link := by
    rw [returnLink_pastWord hk hl hend, hk1, Nat.mul_comm, Nat.mul_comm (lineNext l)]
    rfl
  rw [exec_call_of_line hline, hlink]
  rfl

/-! ## A transfer taken -/

theorem Ctx.foldl_land_rest (ws : List RegWrite) (x : Ctx) : (ws.foldl Ctx.land x).stores = x.stores ∧ (ws.foldl Ctx.land x).fault = x.fault
    ∧ (ws.foldl Ctx.land x).ctl = x.ctl ∧ (ws.foldl Ctx.land x).last = x.last := by
  induction ws generalizing x with
  | nil => exact ⟨rfl, rfl, rfl, rfl⟩
  | cons w ws ih =>
    have hland : (x.land w).stores = x.stores ∧ (x.land w).fault = x.fault ∧ (x.land w).ctl = x.ctl ∧ (x.land w).last = x.last := by
      unfold Ctx.land
      split
      · exact ⟨rfl, rfl, rfl, rfl⟩
      · split <;> exact ⟨rfl, rfl, rfl, rfl⟩
    obtain ⟨hs, hf, hc, hl⟩ := hland
    obtain ⟨hs', hf', hc', hl'⟩ := ih (x.land w)
    exact ⟨hs'.trans hs, hf'.trans hf, hc'.trans hc, hl'.trans hl⟩

/-- Writes that land leave what the bundle has noted (R123). -/
theorem Ctx.boundary_rest (x : Ctx) :
    x.boundary.stores = x.stores ∧ x.boundary.fault = x.fault ∧ x.boundary.ctl = x.ctl ∧ x.boundary.last = x.last :=
  Ctx.foldl_land_rest _ _

/-- The context in focus after a bundle with a transfer and nothing else at its end. -/
theorem closedCtx_of_xfer {t : Nat × Nat} (hf : s.ctx.fault = none) (hc : s.ctx.ctl = .none) (hx : s.ctx.xfer = some t) (hs : s.ctx.stores = []) :
    closedCtx s = { s.ctx.boundary with words := 0, xfer := none } := by
  obtain ⟨hs', hf', hc', hl'⟩ := s.ctx.boundary_rest
  unfold closedCtx
  rw [hs] at hs'
  rw [hf] at hf'
  rw [hc] at hc'
  rw [if_pos (by rw [hx]; rfl), ← hs', ← hf', ← hc', ← hl']

theorem closedCtx_last_of_xfer {t : Nat × Nat} (hx : s.ctx.xfer = some t) : (closedCtx s).last = s.ctx.last := by simp [closedCtx, hx]

theorem bundleEnd_of_xfer {line word : Nat} (hf : s.ctx.fault = none) (hc : s.ctx.ctl = .none) (hx : s.ctx.xfer = some (line, word)) :
    bundleEnd s = resolvePc 3 (closed s { closedCtx s with line := line, word := word, check := 3, stall := 2 }) := by
  rw [bundleEnd_of_move hf hc, moveOn, hx, ← closed_updCtx (fun y => { y with line := line, word := word, check := 3, stall := 2 })]

theorem setCtx_counted_eq (fw : Bool) (k : Core) (x : Ctx) : (if fw then k.setCtx fw x
    else { k.setCtx fw x with bundles := if k.bundles = BitVec.allOnes 48 then k.bundles else k.bundles + 1 }) = (k.setCtx fw x).counted fw := by
  cases fw <;> rfl

section
variable {x : Ctx} {l : BitVec 512} {n : Nat} (hx : s.ctx = x) (hl : fetchLine s s.focus.core x.obj x.line = .ok l) (hc : x.check = 3)
include hx hl hc

theorem resolvePc_target_of_start (hb : lineEngine l = 0 ∧ lineKind l = 0 ∧ bundleStart l x.word = true) :
    resolvePc (n + 1) s = s.updCtx (fun x => { x with check := 0 }) := by
  simp [resolvePc, hx, hl, hc, hb]

theorem resolvePc_target_of_no_start (hb : ¬(lineEngine l = 0 ∧ lineKind l = 0 ∧ bundleStart l x.word = true)) :
    resolvePc (n + 1) s = raiseFetch (chainFault 0) x.last x.obj x.line s := by
  by_cases hk : lineEngine l ≠ 0 ∨ lineKind l ≠ 0
  · exact resolvePc_of_not_code hx hl (by omega) hk
  · have hb' : bundleStart l x.word = false := by
      by_contra h
      exact hb ⟨by omega, by omega, by simpa using h⟩
    simp [resolvePc, hx, hl, hc, hk, hb']

end

theorem transferTaken : Claims.TransferTaken := by
  intro s line word l c hf hc hx hs hl ended
  have hended : ended = closed s { closedCtx s with line := line, word := word, check := 3, stall := 2 } := by
    rw [closedCtx_of_xfer hf hc hx hs, closed, hs]
    exact updF_congr (setCtx_counted_eq s.focus.fw s.fcore _)
  clear_value ended
  have hobj : (closedCtx s).obj = s.ctx.obj := congrArg (·.1) (closedCtx_place s)
  have hfetch : fetchLine ended c (closedCtx s).obj line = .ok l := by
    rw [hended, fetchLine_closed, hobj, hl]
  have hctx : ended.ctx = { closedCtx s with line := line, word := word, check := 3, stall := 2 } := hended ▸ ctx_closed
  have hfocus : ended.focus.core = c := by rw [hended]; rfl
  have hbundle : bundleEnd s = resolvePc 3 ended := hended ▸ bundleEnd_of_xfer hf hc hx
  refine ⟨fun hb => ?_, fun hb => ?_⟩
  · rw [hbundle, resolvePc_target_of_start hctx (by rw [hfocus]; exact hfetch) rfl hb]
  · rw [hbundle, resolvePc_target_of_no_start hctx (by rw [hfocus]; exact hfetch) rfl hb]
    simp only [hobj, closedCtx_last_of_xfer hx]

/-- Settles O8, from its three claims. -/
theorem controlTransfers : Obligations.ControlTransfers := ⟨transfers, callReturnLink, transferTaken⟩

end Sys2Proof.Machine
end

/-! # Source operands of stations (R97, R160, R163, R164) -/
section
namespace Sys2Proof.Machine
variable {s : State} {u lane : Nat}

/-! ## A tap of a lane -/

/-- A unit's use in this cycle has been counted (R161). -/
def State.used (s : State) (n : Nat) : State := s.updF (fun k => { k with uses := n :: k.uses })

/-- A unit may tap at least twice in a cycle (R161). -/
theorem two_le_useLimit_tap (u : Nat) : 2 ≤ useLimit u 0 := by
  unfold useLimit
  split <;> decide

theorem countUse_tap (h : s.fcore.uses.count (4 * u) < 2) : countUse u 0 s = s.used (4 * u) :=
  if_pos (h.trans_le (two_le_useLimit_tap u))

theorem fcore_used (n : Nat) : (s.used n).fcore = { s.fcore with uses := n :: s.fcore.uses } := State.fcore_updF s _

section
variable (hf : s.fcore.faulted = none) (hu : s.fcore.uses.count (4 * u) < 2)
include hf hu

/-- A tap within the limit, of a core without a fault, takes the row present at its position (R160). -/
theorem tapLane_of_present {r : LaneRow} (hr : s.fcore.lanes.find? (fun r => r.presentAt lane (posOf u) s.now0 15) = some r) :
    tapLane u lane s = .ok (r.row, s.used (4 * u)) := by
  simp only [tapLane, countUse_tap hu, fcore_used, hf, hr, Option.isSome_none, Bool.false_eq_true, if_false]

theorem tapLane_of_absent (hr : ∀ r ∈ s.fcore.lanes, r.presentAt lane (posOf u) s.now0 15 = false) :
    tapLane u lane s = .error (raise (timing 2) lane 0 (s.used (4 * u))) := by
  have hnone : s.fcore.lanes.find? (fun r => r.presentAt lane (posOf u) s.now0 15) = none :=
    List.find?_eq_none.mpr fun r h => by simp [hr r h]
  simp only [tapLane, countUse_tap hu, fcore_used, hf, hnone, Option.isSome_none, Bool.false_eq_true, if_false]

end

/-! ## The sources of an entry -/

theorem readOpnd_lane_of_ok {l : BitVec 4} {imm : BitVec 16} {r : Row} {t : State} (h : tapLane s.focus.stn l.toNat s = .ok (r, t)) :
    readOpnd (.lane l) imm s = .ok (.row r, t) := by
  unfold readOpnd
  simp only [h]

theorem readOpnd_lane_of_error {l : BitVec 4} {imm : BitVec 16} {t : State} (h : tapLane s.focus.stn l.toNat s = .error t) :
    readOpnd (.lane l) imm s = .error t := by
  unfold readOpnd
  simp only [h]

/-- Settles O17: what is no lane is read off the station, and a lane by a tap. -/
theorem sourceOperands : Obligations.SourceOperands := by
  intro s imm u pos
  refine ⟨rfl, fun _ => rfl, rfl, rfl, rfl, fun l hf hu => ⟨fun r hr => ?_, fun hr => ?_⟩⟩
  · exact readOpnd_lane_of_ok (tapLane_of_present hf hu hr)
  · exact readOpnd_lane_of_error (tapLane_of_absent hf hu hr)

end Sys2Proof.Machine
end

/-! # Command ports (R101 to R104, R11) -/
section
namespace Sys2Proof.Machine
variable {s : State}

/-! ## CMD registers -/

theorem Core.setCtx_self (k : Core) (fw : Bool) : k.setCtx fw (k.ctx fw) = k := by cases fw <;> rfl

theorem onlyContext_updCtx (f : Ctx → Ctx) : onlyContext s (s.updCtx f) := by
  refine ⟨onlyCore_updF _, ?_⟩
  rw [State.fcore_updCtx, Core.setCtx_setCtx]
  exact Core.setCtx_self _ _

theorem cportWrites : Claims.CportWrites := by
  intro s e r port cmd
  refine ⟨_, rfl, onlyContext_updCtx _, fun n => ?_, ?_⟩
  · rw [State.ctx_updCtx]
    simp only [SMap.get_set, eq_comm]
    rfl
  · rw [State.ctx_updCtx]

/-! ## The outcomes of `go` -/

section
variable {e : Bool} {d : Reg} {port : BitVec 4}

theorem exec_go_of_bad {sub k : Nat} (h : goBad s s.focus.core port.toNat (s.ctx.command port.toNat) = some (sub, k)) :
    exec (.go e d port) s = .next (seqDone e false (raiseWith (cmdBad sub) ((s.ctx.command port.toNat).setWidth 64) (.ofNat 64 k) 0
      (coreArg3 s.focus.org) s)) := by
  change execGo e d port s = _
  unfold execGo
  simp only [h]
  rfl

section
variable (hgood : goBad s s.focus.core port.toNat (s.ctx.command port.toNat) = none)
  (hsem : if port.toNat = 0 then (s.ctx.command port.toNat).getLsbD 19 = false ∨ hasHsem (fieldOf (s.ctx.command port.toNat) 18 14) s = true
    else (s.ctx.command port.toNat).getLsbD 13 = false ∨ hasHsem (fieldOf (s.ctx.command port.toNat) 12 8) s = true)
include hgood hsem

/-- The semaphore that a command signals is its launch's, or none (R104). -/
theorem exec_go_of_good : exec (.go e d port) s = .next (if (buffered s s.focus.core port.toNat).length ≥ 16 then seqReg e false d 3 0 s
    else acceptCmd port.toNat (s.ctx.command port.toNat) e d s) := by
  change execGo e d port s = _
  unfold execGo
  simp only [hgood]
  rw [if_neg]
  by_cases hp : port.toNat = 0
  · simp only [if_pos hp] at hsem ⊢
    rcases hsem with h | h <;> simp only [h, Bool.false_and, Bool.not_true, Bool.and_false, Bool.false_eq_true, not_false_eq_true]
  · simp only [if_neg hp] at hsem ⊢
    rcases hsem with h | h <;> simp only [h, Bool.false_and, Bool.not_true, Bool.and_false, Bool.false_eq_true, not_false_eq_true]

end
end

theorem goFullOrBad : Claims.GoFullOrBad := by
  intro s e d port p w
  refine ⟨fun sub k h => exec_go_of_bad h, fun hgood hsem hfull => ?_⟩
  rw [exec_go_of_good hgood hsem, if_pos hfull]

/-! ## What the queues take from the buffers -/

/-- A buffered command stands in the queue of its target (R103). -/
structure Cmd.QueuedAs (c c' : Cmd) : Prop where
  buffered : c.st = .buffered
  queued : c'.st = .queued
  word : c'.word = c.word
  port : c'.port = c.port
  ticket : c'.ticket = c.ticket

/-- One command was taken by its queue, and no core differs. -/
structure Taken (s t : State) (id : Nat) (c c' : Cmd) : Prop where
  cores : t.cores = s.cores
  focus : t.focus = s.focus
  cmds : t.cmds = s.cmds.put id c'
  queued : c.QueuedAs c'

theorem acceptStore_taken {id : Nat} {c : Cmd} (h : s.cmds.find id = some c) (hb : c.st = .buffered) :
    ∃ c', Taken s (acceptStore id s) id c c' := by
  unfold acceptStore
  simp only [h]
  generalize (if c.isSearch then logOf s c else none) = log
  cases log <;> simp only [State.updCmd, reportLt, h] <;> exact ⟨_, rfl, rfl, rfl, ⟨hb, rfl, rfl, rfl, rfl⟩⟩

/-- The queue of a target takes a buffered command or leaves it (R239, R280, R309). -/
theorem intake_cases (id : Nat) : intake id s = s ∨ ∃ c c', s.cmds.find id = some c ∧ Taken s (intake id s) id c c' := by
  unfold intake
  cases h : s.cmds.find id with
  | none => exact .inl rfl
  | some c =>
    simp only
    split
    · exact .inl rfl
    · next hready =>
      have hb : c.st = .buffered := by_contra fun hb => hready (.inl hb)
      refine .inr ⟨c, ?_⟩
      split
      · obtain ⟨c', ht⟩ := acceptStore_taken h hb
        exact ⟨c', rfl, ht⟩
      · simp only [State.updCmd, h]
        exact ⟨_, trivial, rfl, rfl, rfl, ⟨hb, rfl, rfl, rfl, rfl⟩⟩

theorem intakeCore_cases (core port : Nat) : intakeCore core port s = s ∨
    ∃ id c c', s.cmds.find id = some c ∧ Taken s (intakeCore core port s) id c c' := by
  unfold intakeCore
  split
  · next p _ _ => exact (intake_cases p.1).imp_right fun h => ⟨_, h⟩
  · exact .inl rfl

theorem intakeCore_ctx (core port : Nat) : (intakeCore core port s).ctx = s.ctx := by
  obtain h | ⟨id, c, c', -, h⟩ := intakeCore_cases (s := s) core port
  · rw [h]
  · unfold State.ctx State.fcore State.core
    rw [h.cores, h.focus]

theorem intakeCore_find (core port n : Nat) : (intakeCore core port s).cmds.find n = s.cmds.find n ∨
    ∃ c c', s.cmds.find n = some c ∧ (intakeCore core port s).cmds.find n = some c' ∧ c.QueuedAs c' := by
  obtain h | ⟨id, c, c', hc, h⟩ := intakeCore_cases (s := s) core port
  · exact .inl (by rw [h])
  · rw [h.cmds, SMap.find_put]
    by_cases hid : id = n
    · exact .inr ⟨c, c', hid ▸ hc, if_pos hid, h.queued⟩
    · exact .inl (if_neg hid)

theorem intakeCore_word (core port n : Nat) : ((intakeCore core port s).cmds.find n).map (·.word) = (s.cmds.find n).map (·.word) := by
  obtain h | ⟨c, c', hc, hc', hq⟩ := intakeCore_find (s := s) core port n
  · rw [h]
  · rw [hc, hc', Option.map_some, Option.map_some, hq.word]

/-- A buffered command stays or is queued when its queue is looked at. -/
theorem intakeCore_of_buffered {core port n : Nat} {c : Cmd} (hc : s.cmds.find n = some c) (hb : c.st = .buffered) :
    ∃ c', (intakeCore core port s).cmds.find n = some c' ∧ c'.word = c.word ∧ c'.port = c.port ∧ c'.ticket = c.ticket
      ∧ (c'.st = .buffered ∨ c'.st = .queued) := by
  obtain h | ⟨c₁, c', hc₁, hc', hq⟩ := intakeCore_find (s := s) core port n
  · exact ⟨c, h.trans hc, rfl, rfl, rfl, .inl hb⟩
  · obtain rfl : c = c₁ := Option.some.inj (hc.symm.trans hc₁)
    exact ⟨c', hc', hq.word, hq.port, hq.ticket, .inr hq.queued⟩

/-! ## A command accepted -/

theorem instAdd_of_room {i : Nat} (h : ∀ t, s.insts.find i = some t → t.count ≠ 0xFFFFFFFF) :
    ∃ m, instAdd s i = some { s with insts := m } := by
  unfold instAdd
  split
  · next t ht => exact ⟨_, if_neg (h t ht)⟩
  · exact ⟨s.insts, rfl⟩

/-- The state in which a command was accepted: it stands in the buffer, and its ticket was taken. -/
def State.accepted (s : State) (insts : SMap Inst) (cmd : Cmd) (port : Nat) (t : BitVec 32) : State :=
  { s with insts := insts, nextId := s.nextId + 1, cmds := s.cmds.put s.nextId cmd }.updCtx
    (fun x => { x with tickets := SMap.set 0 x.tickets port t })

/-- With room in the counter of its launch a command is accepted (R11, R13, R103). -/
theorem acceptCmd_of_room {port : Nat} {w : BitVec 256} {e : Bool} {d : Reg}
    (h : s.focus.fw = true ∨ ∀ n t, SMap.find s.insts n = some t → t.count ≠ 0xFFFFFFFF) :
    ∃ m cmd, acceptCmd port w e d s = intakeCore s.focus.core port
        (seqReg e false d 3 (.ofNat 64 ((nextTicket (SMap.get 0 s.ctx.tickets port)).toNat + port * 2 ^ 32))
          (s.accepted m cmd port (nextTicket (SMap.get 0 s.ctx.tickets port))))
      ∧ cmd.word = w ∧ cmd.port = port ∧ cmd.ticket = (nextTicket (SMap.get 0 s.ctx.tickets port)).toNat ∧ cmd.st = .buffered := by
  unfold acceptCmd
  simp only
  split
  · next hn =>
    split at hn
    · next i hfw _ =>
      obtain ⟨m, hm⟩ := instAdd_of_room (i := i) ((h.resolve_left (by simp [hfw])) i)
      rw [hm] at hn
      cases hn
    · cases hn
  · next s1 hs1 =>
    have hs : ∃ m, s1 = { s with insts := m } := by
      split at hs1
      · next i hfw _ =>
        obtain ⟨m, hm⟩ := instAdd_of_room (i := i) ((h.resolve_left (by simp [hfw])) i)
        exact ⟨m, Option.some.inj (hs1.symm.trans hm)⟩
      · exact ⟨s.insts, (Option.some.inj hs1).symm⟩
    obtain ⟨m, rfl⟩ := hs
    exact ⟨m, _, rfl, rfl, rfl, rfl, rfl⟩

theorem seqReg_open_cmds {d : Reg} {lat : Nat} {v : Word} : (seqReg false false d lat v s).cmds = s.cmds := rfl

theorem seqReg_open_ctx {d : Reg} {lat : Nat} {v : Word} : (seqReg false false d lat v s).ctx =
    { s.ctx.write lat false d.toNat v with word := s.ctx.word + 1, words := s.ctx.words + 1 } := by
  have h : seqReg false false d lat v s = (s.setG lat d v).updCtx (fun x => { x with word := x.word + 1, words := x.words + 1 }) := rfl
  rw [h, State.ctx_updCtx, State.setG, State.ctx_updCtx]
  rfl

theorem accepted_ctx (m : SMap Inst) (cmd : Cmd) (port : Nat) (t : BitVec 32) :
    (s.accepted m cmd port t).ctx = { s.ctx with tickets := SMap.set 0 s.ctx.tickets port t } := by
  unfold State.accepted
  rw [State.ctx_updCtx]
  rfl

theorem goAccepts : Claims.GoAccepts := by
  intro s d port c p w last ticket hroom hgood hsem hbuf hfree
  obtain ⟨m, cmd, haccept, hword, hport, hticket, hst⟩ := acceptCmd_of_room (port := p) (w := w) (e := false) (d := d) hroom
  have hexec : exec (.go false d port) s = .next (acceptCmd p w false d s) := by
    rw [exec_go_of_good hgood hsem, if_neg (Nat.not_le.mpr hbuf)]
  rw [hexec, haccept]
  -- the state before the queue is looked at, and its commands and context
  generalize hu : seqReg false false d 3 _ _ = u
  have hcmds (n : Nat) : u.cmds.find n = if s.nextId = n then some cmd else s.cmds.find n := by
    rw [← hu, seqReg_open_cmds]
    exact SMap.find_put ..
  have hctx := congrArg State.ctx hu
  rw [seqReg_open_ctx, accepted_ctx] at hctx
  obtain ⟨x, hx, hxw, hxp, hxt, hxs⟩ := intakeCore_of_buffered (core := c) (port := p) ((hcmds _).trans (if_pos rfl)) hst
  refine ⟨_, x, rfl, hx, hxw.trans hword, hxp.trans hport, hxt.trans hticket, hxs, ?_, ?_, fun n hn => ?_⟩
  · rw [intakeCore_ctx, ← hctx]
    rfl
  · rw [intakeCore_ctx, ← hctx]
    exact (SMap.get_set ..).trans (if_pos rfl)
  · rw [intakeCore_word, hcmds, if_neg hn.symm]

/-- Settles O15, from its three claims. -/
theorem portCommands : Obligations.PortCommands := ⟨cportWrites, goFullOrBad, goAccepts⟩

end Sys2Proof.Machine
end

/-! # Matrix commands: their push and their START (R142, R203 to R217) -/
section
namespace Sys2Proof.Machine
variable {s : State}

/-! ## `mxq` -/

theorem mxOutside_eq_none {u : MxUses} (ha : ∀ n ∈ u.accs, hasAcc n s = true) (hs : ∀ n ∈ u.slots, hasSlot n s = true)
    (hh : ∀ n ∈ u.hsems, hasHsem n s = true) : mxOutside u s = none := by
  have none_of {l : List Nat} {f : Nat → State → Bool} (h : ∀ n ∈ l, f n s = true) : l.find? (fun n => !f n s) = none :=
    List.find?_eq_none.mpr fun n hn => by simp [h n hn]
  simp only [mxOutside, none_of ha, none_of hs, none_of hh]

/-- The start cycle is cut to the 40 bits that the command carries (R204). -/
theorem mxStart_of_word (lo hi : Word) (p : Nat) : mxStart p (lo.toNat / 2 ^ 8) =
    (let v := p / 2 ^ 40 * 2 ^ 40 + ((hi ++ lo).extractLsb' 8 40).toNat
     if v + 2 ^ 39 < p then v + 2 ^ 40 else v) := by
  have hbits : ((hi ++ lo).extractLsb' 8 40).toNat = lo.toNat / 2 ^ 8 % 2 ^ 40 := by
    have hlo := lo.isLt
    simp only [BitVec.extractLsb'_toNat, BitVec.toNat_append, Nat.shiftRight_eq_div_pow]
    rw [← Nat.shiftLeft_add_eq_or_of_lt hlo, Nat.shiftLeft_eq]
    omega
  rw [mxStart, hbits]

/-- The command that `mxq` pushes. -/
def State.pushed (s : State) (lo hi : Word) : MxCmd :=
  ⟨hi ++ lo, mxStart s.now0 (lo.toNat / 2 ^ 8), { s.focus.org with engine := 9, w0 := lo, w1 := hi }, s.now0⟩

section
variable {e : Bool} {a b : Reg} {i : Instr} (hd : decodeMatrix (s.g b ++ s.g a) = .ok i) (hok : matrixOk i = true)
  (hfrozen : s.frozen s.focus.core = false) (hin : mxOutside (mxUses i) s = none)
include hd hok hfrozen hin

theorem exec_mxq_of_checked : exec (.mxq e a b) s = .next (if s.fcore.mx.queue.length ≥ 16
    then seqDone e false (mxqRaise (mxFault 4) 0 (s.g a) (s.g b) s)
    else seqDone e false (s.updMx (fun m => { m with queue := m.queue ++ [s.pushed (s.g a) (s.g b)] }))) := by
  change execMxq e a b s = _
  simp only [execMxq, hd, hok, hfrozen, hin, Bool.not_true, Bool.false_eq_true, if_false]
  rfl

end

theorem mxqPushes : Claims.MxqPushes := by
  intro s e a b i w hd hok hfrozen haccs hslots hhsems
  have hexec := exec_mxq_of_checked (e := e) hd hok hfrozen (mxOutside_eq_none haccs hslots hhsems)
  refine ⟨fun hroom => ⟨s.pushed (s.g a) (s.g b), ?_, rfl, rfl, mxStart_of_word (s.g a) (s.g b) s.now0⟩, fun hfull => ?_⟩
  · rw [hexec, if_neg (Nat.not_le.mpr hroom)]
    rfl
  · rw [hexec, if_pos hfull]
    rfl

/-! ## The wait of a command -/

/-- The wait of a command is off, or its comparison holds (R99, R204). -/
def State.mxReady (s : State) (h : MxHdr) : Prop :=
  h.wen = 0 ∨ hsemHolds h.wop.toNat (s.fcore.h h.wsem.toNat).toNat h.wval.toNat = true

section
variable {h : MxHdr} {f : State → State}

theorem mxAwait_of_not_holds (hw : h.wen = 1) (hh : hsemHolds h.wop.toNat (s.fcore.h h.wsem.toNat).toNat h.wval.toNat = false) :
    mxAwait h f s = askHold 2 s := by
  simp [mxAwait, hw, hh]

theorem mxAwait_of_holds (hh : s.mxReady h) : mxAwait h f s = f s := by
  obtain hh | hh := hh
  · exact mxAwait_of_wait_off hh
  · simp [mxAwait, hh]

end

/-! ## Claims of slots (R213) -/

theorem mem_bitsSet {w n : Nat} {m : BitVec w} : n ∈ bitsSet w m ↔ n < w ∧ m.getLsbD n = true := by
  rw [bitsSet, List.mem_filter, List.mem_range]

theorem SMap.get_foldl_put {α : Type} (d v : α) (l : List Nat) (m : SMap α) (n : Nat) :
    SMap.get d (l.foldl (fun t k => t.put k v) m) n = if n ∈ l then v else SMap.get d m n := by
  induction l generalizing m with
  | nil => simp
  | cons k l ih =>
    rw [List.foldl_cons, ih, SMap.get_put]
    by_cases hl : n ∈ l
    · simp [hl]
    · simp [hl, eq_comm (a := k)]

/-- The engine with the slots of a mask given one state. -/
def Mx.setSlots (x : Mx) (mask : BitVec 32) (t : Slot) : Mx := { x with slots := (bitsSet 32 mask).foldl (fun m n => m.put n t) x.slots }

theorem Mx.get_setSlots (x : Mx) (mask : BitVec 32) (t : Slot) (n : Nat) :
    SMap.get ({} : Slot) (x.setSlots mask t).slots n = if n < 32 ∧ mask.getLsbD n = true then t else SMap.get {} x.slots n := by
  rw [Mx.setSlots, SMap.get_foldl_put]
  simp only [mem_bitsSet]

section
variable {claim : Bool} {h : MxHdr} {mask : BitVec 32}

theorem mxClaim_of_free (hfree : ∀ n, n < 32 ∧ mask.getLsbD n = true → (s.fcore.mx.slot n).claimed ≠ claim) :
    mxClaim claim h mask s = mxComplete h s.now0 ((mxBegin 1 s).updMx (·.setSlots mask ⟨claim, []⟩)) := by
  have hnone : (bitsSet 32 mask).find? (fun n => (s.fcore.mx.slot n).claimed == claim) = none :=
    List.find?_eq_none.mpr fun n hn => by simpa using hfree n (mem_bitsSet.mp hn)
  simp only [mxClaim, hnone]
  rfl

theorem mxClaim_of_taken (htaken : ∃ n, (n < 32 ∧ mask.getLsbD n = true) ∧ (s.fcore.mx.slot n).claimed = claim) :
    ∃ n, (n < 32 ∧ mask.getLsbD n = true) ∧ (s.fcore.mx.slot n).claimed = claim ∧ mxClaim claim h mask s = raise (mxFault 3) 0 n s := by
  obtain ⟨n, hn, hc⟩ := htaken
  obtain ⟨k, hk⟩ := Option.isSome_iff_exists.mp (List.find?_isSome.mpr ⟨n, mem_bitsSet.mpr hn, beq_iff_eq.mpr hc⟩ :
    ((bitsSet 32 mask).find? (fun n => (s.fcore.mx.slot n).claimed == claim)).isSome)
  refine ⟨k, mem_bitsSet.mp (List.mem_of_find?_eq_some hk), beq_iff_eq.mp (List.find?_some hk :), ?_⟩
  simp only [mxClaim, hk]
  rfl

/-- A change of the engine is the engine it leads to. -/
theorem updMx_eq_const (f : Mx → Mx) : s.updMx f = s.updF (fun k => { k with mx := f s.fcore.mx }) := updF_congr rfl

theorem mxBegin_mx (d : Nat) : (mxBegin d s).fcore.mx = { s.fcore.mx with queue := s.fcore.mx.queue.tail, headAt := s.now0 + d } := by
  rw [mxBegin, fcore_updMx]

theorem mxClaim_effects (hfree : ∀ n, n < 32 ∧ mask.getLsbD n = true → (s.fcore.mx.slot n).claimed ≠ claim) :
    ∃ m : Mx, mxClaim claim h mask s = mxComplete h s.now0 ((mxBegin 1 s).updF (fun k => { k with mx := m }))
      ∧ (∀ n, SMap.get ({} : Slot) m.slots n = if n < 32 ∧ mask.getLsbD n = true then ⟨claim, []⟩ else SMap.get {} s.fcore.mx.slots n)
      ∧ m.accs = s.fcore.mx.accs ∧ m.queue = s.fcore.mx.queue.tail := by
  refine ⟨(mxBegin 1 s).fcore.mx.setSlots mask ⟨claim, []⟩, ?_, fun n => ?_, ?_, ?_⟩
  · rw [mxClaim_of_free hfree, updMx_eq_const]
  · rw [Mx.get_setSlots, mxBegin_mx]
  · rw [mxBegin_mx]
    rfl
  · rw [mxBegin_mx]
    rfl

end

/-! ## Fences (R216) -/

theorem foldl_max_spec (l : List Nat) (a : Nat) :
    a ≤ l.foldl max a ∧ (∀ x ∈ l, x ≤ l.foldl max a) ∧ (l.foldl max a = a ∨ l.foldl max a ∈ l) := by
  induction l generalizing a with
  | nil => simp
  | cons y l ih =>
    obtain ⟨ha, hall, hmem⟩ := ih (max a y)
    rw [List.foldl_cons]
    refine ⟨by omega, List.forall_mem_cons.mpr ⟨by omega, hall⟩, ?_⟩
    rw [List.mem_cons]
    obtain h | h := hmem
    · exact (max_choice a y).imp h.trans (fun hy => .inl (h.trans hy))
    · exact .inr (.inr h)

/-- The crew cycle in which the last update of the commands before lands; that of the engine if none is due later. -/
def State.lastUpdate (s : State) : Nat := ((s.fcore.pend.filter (fun p => p.eff.isMxUpdate)).map (·.due)).foldl max s.now0

theorem lastUpdate_spec : ∃ d, s.lastUpdate = s.now0 + d ∧ (∀ p ∈ s.fcore.pend, p.eff.isMxUpdate = true → p.due ≤ s.now0 + d)
    ∧ (d = 0 ∨ ∃ p ∈ s.fcore.pend, p.eff.isMxUpdate = true ∧ p.due = s.now0 + d) := by
  obtain ⟨hnow, hall, hmem⟩ := foldl_max_spec ((s.fcore.pend.filter (fun p => p.eff.isMxUpdate)).map (·.due)) s.now0
  obtain ⟨d, hd⟩ := Nat.exists_eq_add_of_le hnow
  refine ⟨d, hd, fun p hp hu => hd ▸ hall _ (List.mem_map_of_mem (List.mem_filter.mpr ⟨hp, hu⟩)), ?_⟩
  refine hmem.imp (fun h => by omega) fun h => ?_
  obtain ⟨p, hp, hdue⟩ := List.mem_map.mp h
  obtain ⟨hp, hu⟩ := List.mem_filter.mp hp
  exact ⟨p, hp, hu, hdue.trans hd⟩

/-! ## Transposed slots (R214) -/

theorem mtrRows_length (t : Slot) : (mtrRows t).length = 128 := by
  unfold mtrRows
  simp only
  split <;> simp

theorem Row.byte_zero (f : Fmt) (j : Nat) : (Row.zero f).byte j = 0 := by
  change (0#1024).toNat / _ % _ = 0
  rw [BitVec.toNat_zero, Nat.zero_div, Nat.zero_mod]

/-- Byte `r` of row `j` of a transposed slot is byte `j` of its row `r`. -/
theorem mtrRows_byte (t : Slot) {j r : Nat} (hj : j < 128) (hr : r < 128) : ((mtrRows t).getD j (Row.zero .f32)).byte r = (t.row r).byte j := by
  unfold mtrRows
  simp only
  split
  · next hnone =>
    have hz : t.row r = Row.zero .f32 := by
      have := List.find?_eq_none.mp hnone (t.row r) (List.mem_map_of_mem (List.mem_range.mpr hr))
      simpa [Row.isZeroRow] using this
    rw [hz, Row.byte_zero, List.getD_eq_getElem?_getD, List.getElem?_replicate, if_pos hj]
    exact Row.byte_zero _ _
  · next u _ =>
    have hbyte : (t.row r).byte j < 2 ^ 8 := Nat.mod_lt _ (Nat.two_pow_pos 8)
    rw [List.getD_eq_getElem?_getD]
    simp only [List.getElem?_map, List.getElem?_range hj, Option.map_some, Option.getD_some]
    rw [Row.byte, fieldAt_ofFields (by simp), List.getD_eq_getElem?_getD]
    simpa [hr] using hbyte

section
variable {h : MxHdr} {dst src : BitVec 5} (hwait : s.mxReady h)
include hwait

theorem exec_mtr_of_unclaimed (hsrc : (s.fcore.mx.slot src.toNat).claimed = false) :
    exec (.mtr h dst src) s = .next (raise (timing 3) 0 src.toNat s) := by
  change execMtr h dst src s = _
  simp only [execMtr, mxAwait_of_holds hwait, hsrc, Bool.not_false, if_true]
  rfl

theorem exec_mtr_of_claimed (hsrc : (s.fcore.mx.slot src.toNat).claimed = true) (hdst : (s.fcore.mx.slot dst.toNat).claimed = true)
    {f : Fmt} (hf : f ∈ [Fmt.e4m3, .e5m2, .i8, .ui8])
    (hrows : ∀ r, r < 128 → (s.fcore.mx.slot src.toNat).row r = Row.zero .f32 ∨ ((s.fcore.mx.slot src.toNat).row r).tag = f) :
    exec (.mtr h dst src) s = .next ((mxComplete h (s.now0 + 16) (mxBegin 1 s)).later (s.now0 + 16)
      (.slotRows dst.toNat (mtrRows (s.fcore.mx.slot src.toNat)))) := by
  change execMtr h dst src s = _
  unfold execMtr
  rw [mxAwait_of_holds hwait]
  -- every row that is no zero row has the one tag
  generalize hl : ((List.range 128).map (s.fcore.mx.slot src.toNat).row).filter (fun r => !r.isZeroRow) = l
  have htag : ∀ r ∈ l, r.tag = f := by
    rw [← hl]
    intro r hr
    obtain ⟨hr, hz⟩ := List.mem_filter.mp hr
    obtain ⟨i, hi, rfl⟩ := List.mem_map.mp hr
    exact (hrows i (List.mem_range.mp hi)).resolve_left fun h0 => by simp [Row.isZeroRow, h0] at hz
  have hsame : l.any (fun r => r.tag != (l.headD (Row.zero .i8)).tag || !([Fmt.e4m3, .e5m2, .i8, .ui8].contains r.tag)) = false := by
    refine List.any_eq_false.mpr fun r hr => ?_
    have hhead : (l.headD (Row.zero .i8)).tag = f := by
      cases l with
      | nil => cases hr
      | cons r' l' => exact htag r' List.mem_cons_self
    rw [hhead, htag r hr, List.contains_iff_mem.mpr hf]
    simp
  simp only [hl, hsrc, hdst, hsame, Bool.not_true, Bool.false_eq_true, if_false]

end

/-! ## Scales and signals (R215, R216) -/

section
variable {h : MxHdr} (hwait : s.mxReady h)
include hwait

theorem exec_mscl_of_checked {slot : BitVec 5} {row0 : BitVec 7} {mof : BitVec 4} {w : BitVec 1}
    (hclaimed : (s.fcore.mx.slot slot.toNat).claimed = true) (htag : ((s.fcore.stn 8).of0 mof.toNat).tag = .ui8)
    (hrows : ∀ r, r < 128 / (if w = 1 then 8 else 4) → (if w = 1 then [Fmt.mxf4] else [Fmt.mxf8e4, .mxf8e5, .mxi8]).contains
      ((s.fcore.mx.slot slot.toNat).row (row0.toNat + r)).tag = true) :
    exec (.mscl h slot row0 mof w) s = .next ((mxComplete h (s.now0 + 16) (mxBegin 1 s)).later (s.now0 + 16)
      (.scales slot.toNat row0.toNat (if w = 1 then 8 else 4) ((s.fcore.stn 8).of0 mof.toNat))) := by
  change execMscl h slot row0 mof w s = _
  have hany : (List.range (128 / (if w = 1 then 8 else 4))).any (fun r => !(if w = 1 then [Fmt.mxf4] else [Fmt.mxf8e4, .mxf8e5, .mxi8]).contains
      ((s.fcore.mx.slot slot.toNat).row (row0.toNat + r)).tag) = false := by
    refine List.any_eq_false.mpr fun r hr => ?_
    rw [hrows r (List.mem_range.mp hr)]
    decide
  simp only [execMscl, mxAwait_of_holds hwait, hclaimed, htag, hany, Bool.not_true, Bool.false_eq_true, if_false, bne_self_eq_false, Bool.or_self]

theorem exec_mx_msig_of_crew {tgt : BitVec 6} {crew : Crew} {c target : Nat} (hc : s.focus.core = c) (ht : c / 40 * 40 + tgt.toNat = target)
    (hcrew : s.crewOf c = some crew) :
    exec (.mx_msig h tgt) s = .next (if tgt.toNat < 40 ∧ target ∈ crew.members
      then hsemChange (mxBegin 1 s) target ⟨s.now0 + (if target = c then 2 else 10), h.ssem.toNat, h.sinc.toNat, none⟩
      else raise (mxFault 6) 0 0 s) := by
  change execMxMsig h tgt s = _
  simp only [execMxMsig, mxAwait_of_holds hwait, hc, ht, hcrew]
  by_cases hin : tgt.toNat < 40 ∧ target ∈ crew.members
  · rw [if_pos hin, if_neg]
    simpa using hin
  · rw [if_neg hin, if_pos]
    · rfl
    · simp only [Bool.or_eq_true, decide_eq_true_eq, Bool.not_eq_true', List.contains_eq_mem, decide_eq_false_iff_not]
      exact (not_and_or.mp hin).imp_left Nat.le_of_not_lt

end

/-! ## The claims -/

theorem matrixCommands : Claims.MatrixCommands := by
  intro s h acc dst src row0 mof ty w mask tgt sem v holds mx begun done row claimed named
  have hholds : hsemHolds h.wop.toNat (s.fcore.h h.wsem.toNat).toNat h.wval.toNat = holds := by
    simp only [holds, sem, v]
    generalize h.wop.toNat = op
    match op with
    | 0 => rfl
    | 1 => rfl
    | 2 => simp [hsemHolds, bne, beq_eq_decide]
    | n + 3 => rfl
  refine ⟨fun hno i hi => ?_, fun hyes => ?_⟩
  · obtain ⟨hwen, hno⟩ := hno
    have hstop (f : State → State) : mxAwait h f s = askHold 2 s := mxAwait_of_not_holds hwen (hholds.trans hno)
    simp only [List.mem_cons, List.not_mem_nil, or_false] at hi
    rcases hi with rfl | rfl | rfl | rfl | rfl | rfl | rfl | rfl <;> exact congrArg Host.Outcome.next (hstop _)
  · have hwait : s.mxReady h := by rwa [State.mxReady, hholds]
    have hstart (f : State → State) : mxAwait h f s = f s := mxAwait_of_holds hwait
    refine ⟨congrArg _ (hstart _), congrArg _ (hstart _), ?_, fun hfree => ?_, fun hfull => ?_, fun htaken => ?_, fun hfreed => ?_,
      fun hsrc hdst hrows => ?_, exec_mtr_of_unclaimed hwait, fun hclaimed htag hrows => exec_mscl_of_checked hwait hclaimed htag hrows,
      fun crew hcrew => ⟨fun ht => ?_, fun ht => ?_⟩⟩
    · obtain ⟨d, hd, hall, hlast⟩ := lastUpdate_spec (s := s)
      refine ⟨d, ?_, hall, hlast⟩
      change Host.Outcome.next (mxAwait h (fun s => mxComplete h s.lastUpdate (mxBegin (s.lastUpdate + 1 - s.now0) s)) s) = _
      rw [hstart, hd, show s.now0 + d + 1 - s.now0 = d + 1 by omega]
      rfl
    · obtain ⟨m, hm, hslots, haccs, hqueue⟩ := mxClaim_effects (claim := true) (h := h) (mask := mask) (s := s)
        fun n hn => ne_of_eq_of_ne (hfree n hn) Bool.false_ne_true
      exact ⟨m, congrArg _ ((hstart _).trans hm), hslots, haccs, hqueue⟩
    · obtain ⟨m, hm, hslots, haccs, hqueue⟩ := mxClaim_effects (claim := false) (h := h) (mask := mask) (s := s)
        fun n hn => ne_of_eq_of_ne (hfull n hn) Bool.false_ne_true.symm
      exact ⟨m, congrArg _ ((hstart _).trans hm), hslots, haccs, hqueue⟩
    · obtain ⟨n, hn, hc, hraise⟩ := mxClaim_of_taken (h := h) htaken
      exact ⟨n, hn, hc, congrArg _ ((hstart _).trans hraise)⟩
    · obtain ⟨n, hn, hc, hraise⟩ := mxClaim_of_taken (h := h) hfreed
      exact ⟨n, hn, hc, congrArg _ ((hstart _).trans hraise)⟩
    · obtain ⟨f, hf, hrows⟩ := hrows
      exact ⟨_, exec_mtr_of_claimed hwait hsrc hdst hf hrows, mtrRows_length _, fun j r hj hr => mtrRows_byte _ hj hr⟩
    · exact (exec_mx_msig_of_crew hwait rfl rfl hcrew).trans (congrArg _ (if_pos ht))
    · exact (exec_mx_msig_of_crew hwait rfl rfl hcrew).trans (congrArg _ (if_neg ht))

/-- Settles O34, from its two claims. -/
theorem matrixCommandWords : Obligations.MatrixCommandWords := ⟨mxqPushes, matrixCommands⟩

end Sys2Proof.Machine
end

/-! # Integer words: the values of R126 to R128 -/
section
namespace Sys2Proof.Machine

/-! ## Two operands (R126) -/

section
variable (x y : Word) (n : Nat)

theorem add_eq_ofNat : x + y = .ofNat 64 (x.toNat + y.toNat) := by
  rw [BitVec.ofNat_add, BitVec.ofNat_toNat, BitVec.ofNat_toNat, BitVec.setWidth_eq, BitVec.setWidth_eq]

theorem sub_eq_ofInt : x - y = .ofInt 64 (x.toInt - y.toInt) :=
  BitVec.eq_of_toInt_eq (by rw [BitVec.toInt_sub, BitVec.toInt_ofInt])

theorem mul_eq_ofNat : x * y = .ofNat 64 (x.toNat * y.toNat) := by
  rw [BitVec.ofNat_mul, BitVec.ofNat_toNat, BitVec.ofNat_toNat, BitVec.setWidth_eq, BitVec.setWidth_eq]

theorem extractHigh_ofInt (p : Int) : (BitVec.ofInt 128 p).extractLsb' 64 64 = .ofInt 64 (p / 2 ^ 64) := by
  apply BitVec.eq_of_toNat_eq
  simp only [BitVec.extractLsb'_toNat, BitVec.toNat_ofInt, Nat.shiftRight_eq_div_pow]
  omega

theorem mulhWord_eq : mulhWord x y = (x.signExtend 128 * y.signExtend 128).extractLsb' 64 64 := by
  rw [mulhWord, ← extractHigh_ofInt, BitVec.ofInt_mul]
  rfl

theorem mulhuWord_eq : mulhuWord x y = (x.setWidth 128 * y.setWidth 128).extractLsb' 64 64 := by
  have hlt : x.toNat * y.toNat < 2 ^ 64 * 2 ^ 64 := Nat.mul_lt_mul'' x.isLt y.isLt
  apply BitVec.eq_of_toNat_eq
  rw [mulhuWord, BitVec.extractLsb'_toNat, BitVec.toNat_mul, BitVec.toNat_setWidth_of_le (by omega), BitVec.toNat_setWidth_of_le (by omega),
    BitVec.toNat_ofNat, Nat.shiftRight_eq_div_pow, Nat.mod_eq_of_lt (a := _ * _) (by omega)]

theorem shl_eq_ofNat : x <<< n = .ofNat 64 (x.toNat * 2 ^ n) := by
  apply BitVec.eq_of_toNat_eq
  rw [BitVec.toNat_shiftLeft, BitVec.toNat_ofNat, Nat.shiftLeft_eq]

theorem shr_eq_ofNat : x >>> n = .ofNat 64 (x.toNat / 2 ^ n) := by
  rw [← Nat.shiftRight_eq_div_pow, ← BitVec.toNat_ushiftRight, BitVec.ofNat_toNat, BitVec.setWidth_eq]

theorem sar_eq_ofInt : x.sshiftRight n = .ofInt 64 (x.toInt / 2 ^ n) := by
  rw [BitVec.sshiftRight, Int.shiftRight_eq_div_pow]
  push_cast
  rfl

theorem rol_eq_or : x.rotateLeft (shiftOf y) = (x <<< (y.toNat % 64)) ||| (x >>> (64 - y.toNat % 64)) := by
  rw [BitVec.rotateLeft_def, shiftOf, Nat.mod_mod]

theorem min_eq_ofInt : (if y.slt x then y else x) = .ofInt 64 (min x.toInt y.toInt) := by
  simp only [BitVec.slt_iff_toInt_lt, ← not_le, min_def, apply_ite (BitVec.ofInt 64), BitVec.ofInt_toInt, ite_not]

theorem max_eq_ofInt : (if x.slt y then y else x) = .ofInt 64 (max x.toInt y.toInt) := by
  simp only [BitVec.slt_iff_toInt_lt, max_def_lt, apply_ite (BitVec.ofInt 64), BitVec.ofInt_toInt]

theorem minu_eq_ofNat : (if y.ult x then y else x) = .ofNat 64 (min x.toNat y.toNat) := by
  simp only [BitVec.ult_iff_toNat_lt, ← not_le, min_def, apply_ite (BitVec.ofNat 64), BitVec.ofNat_toNat, BitVec.setWidth_eq, ite_not]

theorem maxu_eq_ofNat : (if x.ult y then y else x) = .ofNat 64 (max x.toNat y.toNat) := by
  simp only [BitVec.ult_iff_toNat_lt, max_def_lt, apply_ite (BitVec.ofNat 64), BitVec.ofNat_toNat, BitVec.setWidth_eq]

theorem slt_eq_toInt : (if x.slt y then 1 else 0 : Word) = if x.toInt < y.toInt then 1 else 0 := by simp only [BitVec.slt_iff_toInt_lt]

theorem sltu_eq_toNat : (if x.ult y then 1 else 0 : Word) = if x.toNat < y.toNat then 1 else 0 := by simp only [BitVec.ult_iff_toNat_lt]

/-- The one quotient that does not fit a register. -/
theorem div_overflow_iff : (x = BitVec.intMin 64 ∧ y = BitVec.allOnes 64) ↔ (x.toInt = -2 ^ 63 ∧ y.toInt = -1) := by
  rw [← BitVec.toInt_inj, ← BitVec.toInt_inj]
  rfl

theorem divWord_eq : divWord x y = if y = 0 then -1 else if x.toInt = -2 ^ 63 ∧ y.toInt = -1 then x else .ofInt 64 (x.toInt.tdiv y.toInt) := by
  simp only [divWord, div_overflow_iff]
  rfl

theorem remWord_eq : remWord x y = if y = 0 then x else if x.toInt = -2 ^ 63 ∧ y.toInt = -1 then 0 else .ofInt 64 (x.toInt.tmod y.toInt) := by
  simp only [remWord, div_overflow_iff, Int.tmod_def]

end

/-- A word that writes a register may name its value by any expression of it. -/
theorem next_seqReg {e ext : Bool} {d : Reg} {lat : Nat} {v w : Word} {s : State} (h : v = w) :
    (.next (seqReg e ext d lat v s) : Out) = .next (seqReg e ext d lat w s) := by rw [h]

/-- Settles O1: each word writes its register, with the value of R126. -/
theorem integerArithmetic : Obligations.IntegerArithmetic := by
  intro s e d a b x y n gives
  exact ⟨next_seqReg (add_eq_ofNat x y), next_seqReg (sub_eq_ofInt x y), next_seqReg (mul_eq_ofNat x y), next_seqReg (mulhWord_eq x y),
    next_seqReg (mulhuWord_eq x y), rfl, rfl, rfl, rfl, next_seqReg (shl_eq_ofNat x n), next_seqReg (shr_eq_ofNat x n),
    next_seqReg (sar_eq_ofInt x n), next_seqReg (rol_eq_or x y), next_seqReg (min_eq_ofInt x y), next_seqReg (max_eq_ofInt x y),
    next_seqReg (minu_eq_ofNat x y), next_seqReg (maxu_eq_ofNat x y), next_seqReg (slt_eq_toInt x y), next_seqReg (sltu_eq_toNat x y),
    next_seqReg (divWord_eq x y), next_seqReg (remWord_eq x y), rfl, rfl⟩

/-! ## Immediates (R127) -/

theorem lui_eq_mul (imm : BitVec 16) : immWord imm none <<< 19 = imm.signExtend 64 * 2 ^ 19 := by
  rw [immWord_eq_wideImm (by decide), BitVec.shiftLeft_eq_mul_twoPow]
  rfl

theorem toNat_append_eq {m n : Nat} (x : BitVec m) (y : BitVec n) : (x ++ y).toNat = x.toNat * 2 ^ n + y.toNat := by
  rw [BitVec.toNat_append, ← Nat.shiftLeft_add_eq_or_of_lt y.isLt, Nat.shiftLeft_eq]

/-- The low bits of a sign-extended field are the field. -/
theorem signExtend_toNat_mod {w : Nat} (hw : w ≤ 64) (y : BitVec w) : (y.signExtend 64).toNat % 2 ^ w = y.toNat := by
  rw [← BitVec.toNat_setWidth]
  congr 1
  apply BitVec.eq_of_getLsbD_eq
  intro i hi
  rw [BitVec.getLsbD_setWidth, BitVec.getLsbD_signExtend]
  simp [hi, hi.trans_le hw]

theorem lui_eq_append (imm : BitVec 16) (v : BitVec 29) : immWord imm (some v) <<< 19 = (v ++ imm) ++ (0 : BitVec 19) := by
  have hlow := signExtend_toNat_mod (by decide) (v ++ imm)
  apply BitVec.eq_of_toNat_eq
  rw [immWord_eq_wideImm (by decide), wideImm, toNat_append_eq, BitVec.toNat_shiftLeft, ← hlow, Nat.shiftLeft_eq]
  simp only [BitVec.ofNat_eq_ofNat, BitVec.toNat_ofNat]
  omega

theorem append_extractLsb'_low (c : Word) {m n : Nat} (h : n + m ≤ 64) : c.extractLsb' m n ++ c.extractLsb' 0 m = c.setWidth (n + m) := by
  rw [BitVec.extractLsb'_append_extractLsb'_eq_extractLsb' (by omega), BitVec.setWidth_eq_extractLsb' h]

/-- Less its low 40 bits, sign-extended, a constant ends in the 19 zeros that an extended `lui` leaves. -/
theorem sub_low_toNat_mod (c : Word) : (c - wideImm (c.extractLsb' 0 11) (some (c.extractLsb' 11 29))).toNat % 2 ^ 19 = 0 := by
  have hext := signExtend_toNat_mod (by decide) (c.extractLsb' 11 29 ++ c.extractLsb' 0 11)
  have hlow : (c.extractLsb' 11 29 ++ c.extractLsb' 0 11).toNat = c.toNat % 2 ^ 40 := by
    rw [append_extractLsb'_low _ (by decide), BitVec.toNat_setWidth]
  rw [hlow] at hext
  rw [wideImm, BitVec.toNat_sub]
  omega

theorem append_of_low_zero {h : Word} (hz : h.toNat % 2 ^ 19 = 0) : (h.extractLsb' 35 29 ++ h.extractLsb' 19 16) ++ (0 : BitVec 19) = h := by
  have hlow : h.extractLsb' 0 19 = 0 := BitVec.eq_of_toNat_eq (by rw [BitVec.extractLsb'_toNat]; exact hz)
  rw [BitVec.extractLsb'_append_extractLsb'_eq_extractLsb' (by decide), ← hlow, append_extractLsb'_low _ (by decide), BitVec.setWidth_eq]

theorem const_of_lui_addi (c : Word) :
    ∃ (v u : BitVec 29) (hi : BitVec 16) (lo : BitVec 11), ((v ++ hi) ++ (0 : BitVec 19)) + wideImm lo (some u) = c :=
  ⟨_, _, _, _, (congrArg (· + _) (append_of_low_zero (sub_low_toNat_mod c))).trans (sub_add_cancel c _)⟩

/-- Settles O2: the immediate forms by the value of their immediate, and the constant by splitting it at bit 40. -/
theorem immediateForms : Obligations.ImmediateForms := by
  refine ⟨fun s e d a imm x => ?_, fun s e d a n => ?_, fun s e d imm => ⟨next_seqReg (lui_eq_mul imm), fun v => next_seqReg (lui_eq_append imm v)⟩,
    const_of_lui_addi⟩
  · rw [← immWord_eq_wideImm (by decide) imm x]
    exact ⟨rfl, rfl, rfl, rfl⟩
  · exact ⟨next_seqReg (shl_eq_ofNat _ _), next_seqReg (shr_eq_ofNat _ _), next_seqReg (sar_eq_ofInt _ _)⟩

/-! ## Counts and extensions (R128) -/

section
variable (x : Word) (n : Nat)

theorem clzWord_spec : clzWord x ≤ 64 ∧ (∀ k, k < clzWord x → x.getLsbD (63 - k) = false)
    ∧ (clzWord x < 64 → x.getLsbD (63 - clzWord x) = true) := by
  unfold clzWord
  split
  next h =>
    subst h
    exact ⟨le_rfl, fun k _ => BitVec.getLsbD_zero, fun h => absurd h (by decide)⟩
  next h =>
    have h0 : x.toNat ≠ 0 := fun h0 => h (BitVec.eq_of_toNat_eq h0)
    have hlog : x.toNat.log2 < 64 := (Nat.log2_lt h0).mpr x.isLt
    refine ⟨by omega, fun k hk => Nat.testBit_eq_false_of_lt ((Nat.log2_lt h0).mp (by omega)), fun _ => ?_⟩
    rw [Nat.sub_sub_self (by omega)]
    exact Nat.testBit_log2 h0

theorem ctzWord_spec : ctzWord x ≤ 64 ∧ (∀ k, k < ctzWord x → x.getLsbD k = false) ∧ (ctzWord x < 64 → x.getLsbD (ctzWord x) = true) := by
  unfold ctzWord
  cases h : (List.range 64).find? (fun i => x.getLsbD i) with
  | none =>
    refine ⟨le_rfl, fun k hk => ?_, fun h => absurd h (by decide)⟩
    simpa using List.find?_eq_none.mp h k (List.mem_range.mpr hk)
  | some n =>
    obtain ⟨hn, hm, hlt⟩ := List.find?_range_eq_some.mp h
    exact ⟨(List.mem_range.mp hm).le, fun k hk => by simpa using hlt k hk, fun _ => hn⟩

theorem length_filter_eq_sum {α : Type} (p : α → Bool) (l : List α) : (l.filter p).length = (l.map (fun a => (p a).toNat)).sum := by
  induction l with
  | nil => rfl
  | cons a l ih => cases h : p a <;> simp [h, ih, Nat.add_comm]

theorem popcWord_eq_sum : popcWord x = ((List.range 64).map (fun i => (x.toNat / 2 ^ i) % 2)).sum := by
  rw [popcWord, length_filter_eq_sum]
  simp only [BitVec.getLsbD, Nat.toNat_testBit]

theorem sextOf_eq_extract : sextOf n x = (x.extractLsb' 0 n).signExtend 64 := by
  have hlow : x.setWidth n = x.extractLsb' 0 n :=
    BitVec.eq_of_toNat_eq (by rw [BitVec.toNat_setWidth, BitVec.extractLsb'_toNat, Nat.shiftRight_zero])
  rw [sextOf, hlow]

theorem zextOf_eq_and : zextOf n x = x &&& BitVec.ofNat 64 (2 ^ n - 1) := by
  apply BitVec.eq_of_getLsbD_eq
  intro i hi
  rw [zextOf, BitVec.getLsbD_and, BitVec.getLsbD_setWidth, BitVec.getLsbD_setWidth, BitVec.getLsbD_ofNat, Nat.testBit_two_pow_sub_one,
    Bool.and_comm (x.getLsbD i)]
  simp [hi]

end

/-- Settles O3: the counts are pinned by the bits they pass, the extensions are slices. -/
theorem countsAndExtensions : Obligations.CountsAndExtensions := by
  intro s e d a x gives
  exact ⟨⟨_, rfl, clzWord_spec x⟩, ⟨_, rfl, ctzWord_spec x⟩, next_seqReg (congrArg (BitVec.ofNat 64) (popcWord_eq_sum x)),
    next_seqReg (sextOf_eq_extract x 8), next_seqReg (sextOf_eq_extract x 16), next_seqReg (sextOf_eq_extract x 32),
    next_seqReg (zextOf_eq_and x 8), next_seqReg (zextOf_eq_and x 16), next_seqReg (zextOf_eq_and x 32)⟩

/-! ## Conditions, predicates and select (R92, R129) -/

section
variable (u v : Word)

theorem beq_eq_toNat : (u == v) = decide (u.toNat = v.toNat) := by
  rw [Bool.eq_iff_iff, beq_iff_eq, decide_eq_true_iff, BitVec.toNat_inj]

theorem bne_eq_toNat : (u != v) = decide (u.toNat ≠ v.toNat) := by rw [bne, beq_eq_toNat, ← decide_not]

theorem not_slt_eq_toInt : (!u.slt v) = decide (v.toInt ≤ u.toInt) := by simp only [BitVec.slt, ← decide_not, Int.not_lt]

theorem not_ult_eq_toNat : (!u.ult v) = decide (v.toNat ≤ u.toNat) := by simp only [BitVec.ult, ← decide_not, Nat.not_lt]

end

/-- Settles O4: each condition code compares as R92 says, and `sel` takes its first operand where its predicate holds. -/
theorem comparisonsAndPredicates : Obligations.ComparisonsAndPredicates := by
  refine ⟨?_, fun s e pd pa pb => ⟨rfl, rfl, rfl, rfl⟩, fun s e d a b p => ⟨?_, ?_⟩⟩
  · intro s e pd cc a b imm x holds
    have hcc (u v : Word) : ccHolds cc u v = holds u v := by
      simp only [ccHolds, holds]
      generalize cc.toNat = n
      match n with
      | 0 => exact beq_eq_toNat u v
      | 1 => exact bne_eq_toNat u v
      | 2 => rfl
      | 3 => exact not_slt_eq_toInt u v
      | 4 => rfl
      | 5 => exact not_ult_eq_toNat u v
      | n + 6 => rfl
    rw [← hcc, ← hcc, ← immWord_eq_wideImm (by decide) imm x]
    exact ⟨rfl, rfl⟩
  · exact next_seqReg (by cases s.p p <;> rfl)
  · exact next_seqReg (by cases s.p p <;> rfl)

end Sys2Proof.Machine
end

/-! # Words, landings and the end of a bundle (R122 to R124) -/
section
namespace Sys2Proof.Machine
variable {s : State} {x : Ctx}

/-- The context has passed a word, and its extension word if it has one. -/
def Ctx.pass (ext : Bool) (x : Ctx) : Ctx := { x with word := x.word + (if ext then 2 else 1), words := x.words + (if ext then 2 else 1) }

theorem seqReg_open (ext : Bool) (d : Reg) (lat : Nat) (v : Word) (s : State) :
    seqReg false ext d lat v s = s.updCtx (fun x => (x.write lat false d.toNat v).pass ext) :=
  State.updCtx_updCtx s (·.write lat false d.toNat v) (·.pass ext)

theorem sameMemories_updCtx (f : Ctx → Ctx) : sameMemories s (s.updCtx f) :=
  ⟨fun _ => rfl, fun _ => rfl, fun _ => rfl, fun _ => rfl, fun _ => rfl, rfl⟩

theorem registerWordFrame : Claims.RegisterWordFrame := by
  intro s ext d lat v t
  have ht : t = s.updCtx (fun x => (x.write lat false d.toNat v).pass ext) := seqReg_open ext d lat v s
  have hctx : t.ctx = (s.ctx.write lat false d.toNat v).pass ext := ht ▸ State.ctx_updCtx s _
  refine ⟨ht ▸ onlyContext_updCtx _, ht ▸ sameMemories_updCtx _, ?_, ?_, ?_, fun r => ?_, fun p => ?_⟩
  · rw [hctx]
    rfl
  · rw [hctx]
    rfl
  · rw [hctx]
    rfl
  · rw [State.g, hctx]
    rfl
  · rw [State.p, hctx]
    rfl

/-! ## Landing (R123) -/

/-- What writes leave in a slot: the last of those that hit it stands. -/
theorem Ctx.slot_foldl_land {pred : Bool} {i : Nat} (hi : i ≠ 0) (l : List RegWrite) :
    (l.foldl Ctx.land x).slot pred i = ((l.filter (·.hits pred i)).getLast?.map RegWrite.leaves).getD (x.slot pred i) := by
  induction l using List.reverseRecOn with
  | nil => rfl
  | append_singleton l w ih =>
    rw [List.foldl_concat, Ctx.slot_land w hi, ih, List.filter_append]
    cases h : w.hits pred i <;> simp [h]

/-- The writes of a slot that are due at the current boundary. -/
def Ctx.dueAt (x : Ctx) (pred : Bool) (i : Nat) : List RegWrite :=
  x.pend.filter (fun w => decide (w.due ≤ x.bundles) && w.pred == pred && w.index == i)

theorem Ctx.slot_landWrites {pred : Bool} {i : Nat} (hi : i ≠ 0) :
    x.landWrites.slot pred i = ((x.dueAt pred i).getLast?.map RegWrite.leaves).getD (x.slot pred i) := by
  have hdue : x.dueAt pred i = (x.pend.filter (fun w => w.due ≤ x.bundles)).filter (·.hits pred i) := by
    rw [List.filter_filter, Ctx.dueAt]
    congr 1
    funext w
    rw [RegWrite.hits, Bool.and_assoc, Bool.and_comm]
  rw [hdue]
  exact Ctx.slot_foldl_land hi _

theorem Ctx.pred_of_dueAt {pred : Bool} {i : Nat} {w : RegWrite} (h : (x.dueAt pred i).getLast? = some w) : w.pred = pred := by
  have hw := List.mem_of_getLast? h
  simp only [Ctx.dueAt, List.mem_filter, Bool.and_eq_true, beq_iff_eq] at hw
  exact hw.2.1.2

theorem writesLandInOrder : Claims.WritesLandInOrder := by
  intro x y due
  refine ⟨rfl, rfl, fun r hr => ?_, fun p hp => ?_, ?_⟩
  · have hslot := x.slot_landWrites (pred := false) (toNat_ne_zero hr)
    rw [Ctx.reg_eq_slot hr, Ctx.reg_eq_slot hr]
    cases hd : due false r.toNat with
    | none => exact hslot.trans (by rw [show (x.dueAt false r.toNat).getLast? = none from hd]; rfl)
    | some w => exact hslot.trans (by rw [show (x.dueAt false r.toNat).getLast? = some w from hd]; simp [RegWrite.leaves, Ctx.pred_of_dueAt hd])
  · have hslot := x.slot_landWrites (pred := true) (toNat_ne_zero hp)
    rw [Ctx.preg_eq_slot hp, Ctx.preg_eq_slot hp]
    cases hd : due true p.toNat with
    | none => exact congrArg (· != 0) (hslot.trans (by rw [show (x.dueAt true p.toNat).getLast? = none from hd]; rfl))
    | some w =>
      rw [show y.slot true p.toNat = w.leaves from hslot.trans (by rw [show (x.dueAt true p.toNat).getLast? = some w from hd]; rfl),
        RegWrite.leaves, if_pos (Ctx.pred_of_dueAt hd)]
      change (_ != 0) = (w.value != 0)
      cases hv : w.value != 0 <;> simp
  · exact List.filter_congr fun w _ => by simp only [← decide_not, Nat.not_le]

/-! ## The end of a bundle (R123, R124, R154) -/

/-- A place after a bundle that is a bundle start of its line is where the context goes on. -/
theorem resolvePc_of_next {l : BitVec 512} {n : Nat} (hx : s.ctx = x) (hl : fetchLine s s.focus.core x.obj x.line = .ok l)
    (hk : ¬(lineEngine l ≠ 0 ∨ lineKind l ≠ 0)) (hc : x.check = 1) (hin : ¬(x.word ≥ 16 ∨ lineWord l x.word = 0)) (hb : bundleStart l x.word = true) :
    resolvePc (n + 1) s = s.updCtx (fun x => { x with check := 0 }) := by
  simp only [resolvePc, hx, hl, hc, if_neg hk, hin, hb, and_false, if_true, Nat.one_ne_zero, if_false]

theorem bundleEndEffect : Claims.BundleEndEffect := by
  intro s l x c hf hc hx hl he hk hw hz hb k y k'
  have hplace : (closedCtx s).place = x.place := closedCtx_place s
  simp only [Ctx.place, Prod.mk.injEq] at hplace
  obtain ⟨hobj, hline, hword⟩ := hplace
  have hfetch : fetchLine (closed s { closedCtx s with check := 1 }) c (closedCtx s).obj (closedCtx s).line = .ok l := by
    rw [fetchLine_closed, hobj, hline, hl]
  have hin : ¬((closedCtx s).word ≥ 16 ∨ lineWord l (closedCtx s).word = 0) := by
    rw [hword]
    exact not_or.mpr ⟨by omega, hz⟩
  have hy : y = { closedCtx s with check := 0 } := by
    rw [closedCtx_of_straight hx]
  rw [bundleEnd_of_straight hf hc hx, resolvePc_of_next ctx_closed hfetch (by simp [he, hk]) rfl hin (by rw [hword]; exact hb), closed_updCtx]
  change closed s { closedCtx s with check := 0 } = s.setCore c (if s.focus.fw then k.setCtx s.focus.fw y else
    { k.setCtx s.focus.fw y with bundles := if (k.setCtx s.focus.fw y).bundles = BitVec.allOnes 48 then (k.setCtx s.focus.fw y).bundles
      else (k.setCtx s.focus.fw y).bundles + 1 })
  rw [Core.setCtx_bundles, setCtx_counted_eq, hy]
  rfl

/-- Settles O5, from its three claims. -/
theorem bundlesAndWrites : Obligations.BundlesAndWrites := ⟨registerWordFrame, writesLandInOrder, bundleEndEffect⟩

end Sys2Proof.Machine
end

/-! # Loads and stores (R124, R130 to R132) -/
section
namespace Sys2Proof.Machine
variable {s : State} {ea : Nat}

theorem Memory.bytes_eq_map (m : Memory) (a n : Nat) : m.bytes a n = (List.range n).map (fun i => m.byte (a + i)) := by
  induction n generalizing a with
  | zero => rfl
  | succ n ih =>
    rw [Memory.bytes, ih, List.range_succ_eq_map, List.map_cons, List.map_map]
    exact congrArg (m.byte a :: ·) (List.map_congr_left fun i _ => congrArg m.byte (by omega))

/-! ## Where an address leads (R130) -/

theorem effAddr_eq_addressOf (a : Reg) (imm : BitVec 11) (x : Option (BitVec 29)) (s : State) : effAddr a imm x s = s.addressOf a imm x := by
  rw [effAddr, immWord_eq_wideImm (by decide)]
  cases x <;> rfl

/-- An address of the context leads to place `o` of one of its memories, which is `m`. -/
def State.leadsTo (s : State) (ea : Nat) (m : Memory) (o : Nat) : Prop :=
  (seqAddr s.focus.fw ea = .seqMem o ∧ m = s.fcore.seqMem) ∨ (seqAddr s.focus.fw ea = .fwMem o ∧ m = s.fcore.fwMem)

/-- An aligned span does not reach over the end of a memory of a whole number of such spans. -/
theorem add_lt_of_aligned {a i n b : Nat} (hn : n ∣ b) (ha : a % n = 0) (hi : i < n) (h : a < b) : a + i < b := by
  obtain ⟨q, rfl⟩ := hn
  obtain ⟨p, rfl⟩ := Nat.dvd_of_mod_eq_zero ha
  have hp : p + 1 ≤ q := Nat.lt_of_mul_lt_mul_left h
  calc n * p + i < n * (p + 1) := by rw [Nat.mul_add]; omega
    _ ≤ n * q := Nat.mul_le_mul_left n hp

/-- An address that the context reaches leads to a memory, and so does an aligned span from it. -/
theorem leadsTo_of_contextByte (h : (s.contextByte ea).isSome = true) :
    ∃ m o, s.leadsTo ea m o ∧ ∀ n i, n ∣ 8 → ea % n = 0 → i < n → s.contextAt ea i = m.byte (o + i) := by
  have dvd {n : Nat} (hn : n ∣ 8) (k : Nat) : n ∣ 8 * k := hn.mul_right k
  unfold State.contextAt State.leadsTo
  unfold State.contextByte at h ⊢
  unfold seqAddr
  cases hfw : s.focus.fw
  · simp only [hfw, Bool.false_eq_true, if_false] at h ⊢
    by_cases h1 : ea < 2 ^ 17
    · refine ⟨_, ea, .inl ⟨if_pos h1, rfl⟩, fun n i hn ha hi => ?_⟩
      have hlt : ea + i < 2 ^ 17 := add_lt_of_aligned (dvd hn (2 ^ 14)) ha hi h1
      rw [if_pos hlt, Option.getD_some]
    · rw [if_neg h1] at h
      cases h
  · simp only [hfw, if_true] at h ⊢
    by_cases h1 : ea < 2 ^ 14
    · refine ⟨_, ea, .inr ⟨if_pos h1, rfl⟩, fun n i hn ha hi => ?_⟩
      have hlt : ea + i < 2 ^ 14 := add_lt_of_aligned (dvd hn (2 ^ 11)) ha hi h1
      rw [if_pos hlt, Option.getD_some]
    · by_cases h2 : 2 ^ 31 ≤ ea ∧ ea < 2 ^ 31 + 2 ^ 17
      · have h2' : 0x80000000 ≤ ea ∧ ea < 0x80020000 := h2
        refine ⟨_, ea - 0x80000000, .inl ⟨(if_neg h1).trans (if_pos h2'), rfl⟩, fun n i hn ha hi => ?_⟩
        have hlt : ea + i < 2 ^ 31 + 2 ^ 17 := add_lt_of_aligned (hn.trans (by norm_num)) ha hi h2.2
        rw [if_neg (by omega), if_pos ⟨by omega, hlt⟩, Option.getD_some]
        exact congrArg s.fcore.seqMem.byte (by omega)
      · rw [if_neg h1, if_neg h2] at h
        cases h

theorem seqAddr_of_outside (h : s.contextByte ea = none) :
    seqAddr s.focus.fw ea = .none ∨ (s.inConst ea ∧ ∃ o, seqAddr s.focus.fw ea = .const o) := by
  unfold State.contextByte at h
  unfold seqAddr State.inConst
  cases hfw : s.focus.fw
  · simp only [hfw, Bool.false_eq_true, if_false] at h ⊢
    have h1 : ¬ ea < 2 ^ 17 := fun h1 => by
      rw [if_pos h1] at h
      cases h
    by_cases h2 : 2 ^ 32 ≤ ea
    · exact .inr ⟨⟨trivial, h2⟩, _, (if_neg h1).trans (if_pos h2)⟩
    · exact .inl ((if_neg h1).trans (if_neg h2))
  · simp only [hfw, if_true] at h ⊢
    have h1 : ¬ ea < 2 ^ 14 := fun h1 => by
      rw [if_pos h1] at h
      cases h
    have h2 : ¬ (2 ^ 31 ≤ ea ∧ ea < 2 ^ 31 + 2 ^ 17) := fun h2 => by
      rw [if_neg h1, if_pos h2] at h
      cases h
    exact .inl ((if_neg h1).trans (if_neg h2))

theorem seqAddr_const {o : Nat} (h : s.focus.fw = false) : seqAddr s.focus.fw (2 ^ 32 + o) = .const o := by
  have hlow : ¬ 2 ^ 32 + o < 2 ^ 17 := by omega
  rw [h]
  exact (if_neg hlow).trans ((if_pos (Nat.le_add_right _ _)).trans (congrArg SeqAddr.const (Nat.add_sub_cancel_left ..)))

/-! ## The outcomes of a load and of a store (R131) -/

section
variable {n : Nat} {signed e : Bool} {d a : Reg} {imm : BitVec 11} {x : Option (BitVec 29)}

section
variable (h : (s.contextByte (s.addressOf a imm x)).isSome = true)
include h

theorem seqLoad_of_aligned (hn : n ∣ 8) (ha : s.addressOf a imm x % n = 0) : seqLoad n signed e d a imm x s =
    seqReg e x.isSome d 3 (loaded n signed (natOfBytes ((List.range n).map (s.contextAt (s.addressOf a imm x))))) s := by
  obtain ⟨m, o, hm, hbytes⟩ := leadsTo_of_contextByte h
  have hload : natOfBytes ((List.range n).map (s.contextAt (s.addressOf a imm x))) = m.load o n := by
    rw [Memory.load_eq, Memory.bytes_eq_map]
    exact congrArg natOfBytes (List.map_congr_left fun i hi => hbytes n i hn ha (List.mem_range.mp hi))
  rw [hload]
  obtain ⟨hs, rfl⟩ | ⟨hs, rfl⟩ := hm <;> simp only [seqLoad, effAddr_eq_addressOf, hs, ha, ne_eq, not_true_eq_false, if_false]

theorem seqLoad_of_misaligned (ha : s.addressOf a imm x % n ≠ 0) :
    seqLoad n signed e d a imm x s = seqDone e x.isSome (bundleFault (seqFault 1) s) := by
  obtain ⟨m, o, hm, -⟩ := leadsTo_of_contextByte h
  obtain ⟨hs, -⟩ | ⟨hs, -⟩ := hm <;> simp only [seqLoad, effAddr_eq_addressOf, hs, if_pos ha]

theorem seqStore_of_aligned (ha : s.addressOf a imm x % n = 0) : seqStore n e d a imm x s = seqDone e x.isSome
    (s.updCtx (fun y => { y with stores := y.stores ++ [(s.addressOf a imm x, bytesOfNat n (s.g d).toNat)] })) := by
  obtain ⟨m, o, hm, -⟩ := leadsTo_of_contextByte h
  obtain ⟨hs, -⟩ | ⟨hs, -⟩ := hm <;> simp only [seqStore, effAddr_eq_addressOf, hs, ha, ne_eq, not_true_eq_false, if_false]

theorem seqStore_of_misaligned (ha : s.addressOf a imm x % n ≠ 0) :
    seqStore n e d a imm x s = seqDone e x.isSome (bundleFault (seqFault 1) s) := by
  obtain ⟨m, o, hm, -⟩ := leadsTo_of_contextByte h
  obtain ⟨hs, -⟩ | ⟨hs, -⟩ := hm <;> simp only [seqStore, effAddr_eq_addressOf, hs, if_pos ha]

end

section
variable (h : s.contextByte (s.addressOf a imm x) = none)
include h

theorem seqStore_of_outside : seqStore n e d a imm x s = seqDone e x.isSome (bundleFault (seqFault 0) s) := by
  obtain hs | ⟨-, o, hs⟩ := seqAddr_of_outside h <;> simp only [seqStore, effAddr_eq_addressOf, hs]

theorem seqLoad_of_outside (hc : ¬ s.inConst (s.addressOf a imm x)) :
    seqLoad n signed e d a imm x s = seqDone e x.isSome (bundleFault (seqFault 0) s) := by
  obtain hs | ⟨h', -⟩ := seqAddr_of_outside h
  · simp only [seqLoad, effAddr_eq_addressOf, hs]
  · exact absurd h' hc

end
end

/-! ## The bytes of a load and of a store (R5, R131) -/

theorem loaded_signed {n w : Nat} (hw : w = 8 * n) (hn : n ≤ 8) (v : BitVec w) : loaded n true v.toNat = v.signExtend 64 := by
  subst hw
  rw [loaded, if_pos rfl, sextOf]
  congr 1
  apply BitVec.eq_of_toNat_eq
  have := v.isLt
  have : 2 ^ (8 * n) ≤ 2 ^ 64 := Nat.pow_le_pow_right (by omega) (by omega)
  rw [BitVec.toNat_setWidth, BitVec.toNat_ofNat, Nat.mod_eq_of_lt (a := v.toNat) (by omega), Nat.mod_eq_of_lt (by omega)]

theorem loaded_unsigned {n w : Nat} (v : BitVec w) : loaded n false v.toNat = v.setWidth 64 := by
  rw [loaded, if_neg (by decide), BitVec.ofNat_toNat]

section
variable (b : Nat → Byte)

theorem natOfBytes_one : natOfBytes ((List.range 1).map b) = (b 0).toNat := by
  have hlist : (List.range 1).map b = [b 0] := rfl
  rw [hlist, natOfBytes, natOfBytes, Nat.mul_zero, Nat.add_zero]

theorem natOfBytes_two : natOfBytes ((List.range 2).map b) = (b 1 ++ b 0).toNat := by
  have hlist : (List.range 2).map b = [b 0, b 1] := rfl
  rw [hlist, toNat_append_eq]
  simp only [natOfBytes]
  omega

theorem natOfBytes_four : natOfBytes ((List.range 4).map b) = (b 3 ++ b 2 ++ b 1 ++ b 0).toNat := by
  have hlist : (List.range 4).map b = [b 0, b 1, b 2, b 3] := rfl
  rw [hlist]
  iterate 3 rw [toNat_append_eq]
  simp only [natOfBytes]
  omega

theorem natOfBytes_eight : natOfBytes ((List.range 8).map b) = (b 7 ++ b 6 ++ b 5 ++ b 4 ++ b 3 ++ b 2 ++ b 1 ++ b 0).toNat := by
  have hlist : (List.range 8).map b = [b 0, b 1, b 2, b 3, b 4, b 5, b 6, b 7] := rfl
  rw [hlist]
  iterate 7 rw [toNat_append_eq]
  simp only [natOfBytes]
  omega

end

theorem bytesOfNat_toNat (n : Nat) (w : Word) : bytesOfNat n w.toNat = (List.range n).map (fun i => w.extractLsb' (8 * i) 8) := by
  rw [bytesOfNat_eq_map]
  refine List.map_congr_left fun i _ => BitVec.eq_of_toNat_eq ?_
  rw [BitVec.toNat_ofNat, BitVec.extractLsb'_toNat, Nat.shiftRight_eq_div_pow, Nat.pow_mul]

/-! ## Stores (R124, R131) -/

theorem storesOfContextMemory : Claims.StoresOfContextMemory := by
  intro s e r a imm x ea v b gives h
  have store {n : Nat} (ha : ea % n = 0) : (.next (seqStore n e r a imm x s) : Out) = .next (seqDone e x.isSome
      (s.updCtx (fun y => { y with stores := y.stores ++ [(ea, (List.range n).map b)] }))) := by
    rw [seqStore_of_aligned h ha, bytesOfNat_toNat]
  exact ⟨store (Nat.mod_one _), fun ha => store ha, fun ha => store ha, fun ha => store ha⟩

theorem storeFrame : Claims.StoreFrame := by
  intro k fw ea bytes t
  have inside (m : Memory) (o : Nat) (i : Nat) (hi : i < bytes.length) : (m.setBytes o bytes).byte (o + i) = bytes.getD i 0 := by
    rw [Memory.byte_setBytes, if_pos (by omega), Nat.add_sub_cancel_left]
  have outside (m : Memory) (o : Nat) (b : Nat) (hb : b < o ∨ o + bytes.length ≤ b) : (m.setBytes o bytes).byte b = m.byte b :=
    Memory.byte_setBytes_outside m o bytes b hb
  refine ⟨fun hfw => ?_, fun hfw hlt => ?_, fun hfw hge => ?_, ?_⟩
  · have ht : t = { k with seqMem := k.seqMem.setBytes ea bytes } := if_pos (by simp [hfw])
    rw [ht]
    exact ⟨inside _ _, outside _ _, fun _ => rfl⟩
  · have ht : t = { k with fwMem := k.fwMem.setBytes ea bytes } := (if_neg (by simp [hfw])).trans (if_pos hlt)
    rw [ht]
    exact ⟨inside _ _, outside _ _, fun _ => rfl⟩
  · have ht : t = { k with seqMem := k.seqMem.setBytes (ea - 2 ^ 31) bytes } := (if_neg (by simp [hfw])).trans (if_neg (by omega))
    rw [ht]
    exact ⟨inside _ _, outside _ _, fun _ => rfl⟩
  · change { k.storeAt fw ea bytes with seqMem := k.seqMem, fwMem := k.fwMem } = k
    unfold Core.storeAt
    split
    · rfl
    · split <;> rfl

/-- Settles O6, from its two claims. -/
theorem stores : Obligations.Stores := ⟨storesOfContextMemory, storeFrame⟩

/-! ## Loads (R130 to R132) -/

theorem loadsOfContextMemory : Claims.LoadsOfContextMemory := by
  intro s e d a imm x ea b gives h
  have load {n : Nat} {signed : Bool} {v : Word} (hn : n ∣ 8) (ha : ea % n = 0) (hv : loaded n signed (natOfBytes ((List.range n).map b)) = v) :
      (.next (seqLoad n signed e d a imm x s) : Out) = .next (seqReg e x.isSome d 3 v s) := by
    rw [seqLoad_of_aligned h hn ha, ← hv]
  refine ⟨load (by decide) (Nat.mod_one _) ?_, load (by decide) (Nat.mod_one _) ?_, fun ha => ⟨load (by decide) ha ?_, load (by decide) ha ?_⟩,
    fun ha => ⟨load (by decide) ha ?_, load (by decide) ha ?_⟩, fun ha => load (by decide) ha ?_⟩
  · rw [natOfBytes_one, loaded_signed rfl (by decide)]
  · rw [natOfBytes_one, loaded_unsigned]
  · rw [natOfBytes_two, loaded_signed rfl (by decide)]
  · rw [natOfBytes_two, loaded_unsigned]
  · rw [natOfBytes_four, loaded_signed rfl (by decide)]
  · rw [natOfBytes_four, loaded_unsigned]
  · rw [natOfBytes_eight, loaded_signed rfl (by decide)]
    exact BitVec.signExtend_eq _

theorem loadStoreFaults : Claims.LoadStoreFaults := by
  intro s e d a imm x ea bad
  have next {t : State} {sub : Nat} (h : t = seqDone e x.isSome (bundleFault (seqFault sub) s)) :
      (.next t : Out) = .next (seqDone e x.isSome (bundleFault (seqFault sub) s)) := by rw [h]
  refine ⟨fun h => ?_, fun h => ⟨fun ha => ?_, fun ha => ?_, fun ha => ?_⟩⟩
  · have st {n : Nat} := next (seqStore_of_outside (n := n) (e := e) (d := d) h)
    refine ⟨st, st, st, st, fun hc => ?_⟩
    have ld {n : Nat} {signed : Bool} := next (seqLoad_of_outside (n := n) (signed := signed) (e := e) (d := d) h hc)
    exact ⟨ld, ld, ld, ld, ld, ld, ld⟩
  · exact ⟨next (seqLoad_of_misaligned h ha), next (seqLoad_of_misaligned h ha), next (seqStore_of_misaligned h ha)⟩
  · exact ⟨next (seqLoad_of_misaligned h ha), next (seqLoad_of_misaligned h ha), next (seqStore_of_misaligned h ha)⟩
  · exact ⟨next (seqLoad_of_misaligned h ha), next (seqStore_of_misaligned h ha)⟩

/-! ## Constant lines (R132) -/

/-- An aligned place of the window is an aligned address: the window begins at 2^32. -/
theorem const_aligned {n o : Nat} (hn : n ∣ 8) (ho : o % 8 = 0) : (2 ^ 32 + o) % n = 0 :=
  Nat.mod_eq_zero_of_dvd (dvd_add (hn.trans (by decide)) (hn.trans (Nat.dvd_of_mod_eq_zero ho)))

section
variable {n : Nat} {signed e : Bool} {d a : Reg} {imm : BitVec 11} {x : Option (BitVec 29)} {o : Nat}
  (hfw : s.focus.fw = false) (hea : s.addressOf a imm x = 2 ^ 32 + o) (hn : n ∣ 8) (ho : o % 8 = 0)
include hfw hea hn ho

theorem seqLoad_of_held {line : BitVec 512} (hb : s.ctx.buf = some (o / 64, some line)) : seqLoad n signed e d a imm x s =
    seqReg e x.isSome d 3 (loaded n signed (line.extractLsb' (8 * (o % 64)) (8 * n)).toNat) s := by
  simp only [seqLoad, effAddr_eq_addressOf, hea, seqAddr_const hfw, const_aligned hn ho, hb, ne_eq, not_true_eq_false, if_true, if_false,
    BitVec.extractLsb'_toNat, Nat.shiftRight_eq_div_pow]

theorem seqLoad_of_refused (hb : s.ctx.buf = some (o / 64, none)) :
    seqLoad n signed e d a imm x s = seqDone e x.isSome (bundleFault (seqFault 5) s) := by
  simp only [seqLoad, effAddr_eq_addressOf, hea, seqAddr_const hfw, const_aligned hn ho, hb, ne_eq, not_true_eq_false, if_true, if_false]

theorem seqLoad_of_missed (hb : s.ctx.buf.map (·.1) ≠ some (o / 64)) :
    seqLoad n signed e d a imm x s = s.updF (fun k => { k with lineMiss := some (o / 64) }) := by
  simp only [seqLoad, effAddr_eq_addressOf, hea, seqAddr_const hfw, const_aligned hn ho, ne_eq, not_true_eq_false, if_false]
  cases hbuf : s.ctx.buf with
  | none => rfl
  | some p =>
    obtain ⟨l, held⟩ := p
    have hl : l ≠ o / 64 := fun hl => hb (by rw [hbuf, hl]; rfl)
    cases held <;> simp only [if_neg hl]

end

theorem constantLineLoads : Claims.ConstantLineLoads := by
  intro s e d a imm x o hfw hea ho
  refine ⟨fun line hb => ?_, fun hb => ?_, fun hb => ?_⟩
  · have load {n : Nat} {signed : Bool} {v : Word} (hn : n ∣ 8) (hv : loaded n signed (line.extractLsb' (8 * (o % 64)) (8 * n)).toNat = v) :
        (.next (seqLoad n signed e d a imm x s) : Out) = .next (seqReg e x.isSome d 3 v s) := by
      rw [seqLoad_of_held hfw hea hn ho hb, hv]
    exact ⟨load (by decide) ((loaded_signed rfl (by decide) _).trans (BitVec.signExtend_eq _)), load (by decide) (loaded_unsigned _),
      load (by decide) (loaded_signed rfl (by decide) _)⟩
  · exact congrArg Host.Outcome.next (seqLoad_of_refused hfw hea (by decide) ho hb)
  · exact congrArg Host.Outcome.next (seqLoad_of_missed hfw hea (by decide) ho hb)

/-- Settles O7, from its three claims. -/
theorem loads : Obligations.Loads := ⟨loadsOfContextMemory, loadStoreFaults, constantLineLoads⟩

end Sys2Proof.Machine
end

/-! # Clock words, waits and fences (R137, R138, R148 to R150) -/
section
namespace Sys2Proof.Machine
variable {s : State}

section
variable {e : Bool} {d a : Reg} {imm : BitVec 11} {x : Option (BitVec 29)}

theorem exec_fwshare : exec (.fwshare e imm x) s = .next (seqDone e x.isSome
    (s.updF (fun k => { k with fwN := .ofNat 6 (max ((wideImm imm x).toNat % 64) k.fwMin.toNat) }))) := by
  rw [← immWord_eq_wideImm (by decide)]
  rfl

section
variable (hp : s.focus.fw = false)
include hp

theorem exec_sync_of_past (h : (s.g a).toNat % 2 ^ 48 ≤ s.now0) :
    exec (.sync e d a) s = .next (seqReg e false d 1 (.ofNat 64 (s.now0 - (s.g a).toNat % 2 ^ 48)) s) := by
  have hlate : (if (s.g a).toNat % 2 ^ 48 < s.now0 then BitVec.ofNat 64 (s.now0 - (s.g a).toNat % 2 ^ 48) else 0)
      = .ofNat 64 (s.now0 - (s.g a).toNat % 2 ^ 48) := by
    split
    · rfl
    · rw [show s.now0 - (s.g a).toNat % 2 ^ 48 = 0 by omega]
      rfl
  change execSync e d a s = _
  simp only [execSync, hp, Bool.false_and, Bool.false_eq_true, if_false, hlate, if_neg (Nat.not_lt.mpr h)]
  rfl

theorem exec_sync_of_ahead (h : s.now0 < (s.g a).toNat % 2 ^ 48) :
    exec (.sync e d a) s = .next (seqDone e false ((s.setG 1 d 0).updCtx (fun y => { y with wait := .sync ((s.g a).toNat % 2 ^ 48) }))) := by
  change execSync e d a s = _
  simp only [execSync, hp, Bool.false_and, Bool.false_eq_true, if_false, if_neg (Nat.lt_asymm h), if_pos h]

theorem exec_idle_of_program : exec (.idle e d a imm x) s = .next (seqDone e x.isSome (s.updCtx (fun y => { y with
    wait := .idle (if (s.g a + wideImm imm x).toNat % 2 ^ 48 = 0 then none else some (s.now0 + (s.g a + wideImm imm x).toNat % 2 ^ 48)) d }))) := by
  rw [← immWord_eq_wideImm (by decide)]
  change execIdle e d a imm x s = _
  simp only [execIdle, hp, Bool.false_and, Bool.false_eq_true, if_false]

end

section
variable (hf : s.focus.fw = true)
include hf

theorem exec_sync_of_still (h : s.still s.focus.core = true) : exec (.sync e d a) s = .next (seqReg e false d 1 0 s) :=
  if_pos (by simp [hf, h])

theorem exec_idle_of_no_crew (hc : s.crewOf s.focus.core = none) (h : (s.g a + wideImm imm x).toNat % 2 ^ 48 = 0) :
    exec (.idle e d a imm x) s = .next (seqReg e x.isSome d 1 0 s) := by
  rw [← immWord_eq_wideImm (by decide)] at h
  exact if_pos (by simp only [hf, hc, h, Option.isNone_none, decide_true, Bool.and_self])

end
end

theorem clockWords : Claims.ClockWords := by
  intro s e d a imm x c t w
  exact ⟨rfl, rfl, exec_fwshare, fun hp => ⟨exec_sync_of_past hp, exec_sync_of_ahead hp, exec_idle_of_program hp⟩, exec_sync_of_still,
    exec_idle_of_no_crew⟩

theorem waitsEnd : Claims.WaitsEnd := by
  intro s core k f
  refine ⟨fun t ht => ⟨fun h => ?_, fun h => ?_⟩, fun t d hw hc => ⟨fun hm => ?_, fun hm h => ?_, fun hm h => ?_⟩, fun n hw => ⟨fun hp hs => ?_, fun hp => ?_⟩⟩
  · exact (exec_sync_release (fw := false) ht).trans (by rw [if_pos (.inl h)]; rfl)
  · exact (exec_sync_release (fw := false) ht).trans (by rw [if_neg (by simpa using h)])
  · exact (exec_idle_wake (fw := false) hw hc).trans (by rw [show semMoved s core false = true from hm]; rfl)
  · have hl : limitReached s core false (some t) = true := by simpa [limitReached] using h
    exact (exec_idle_wake (fw := false) hw hc).trans (by rw [show semMoved s core false = false from hm, hl]; rfl)
  · have hl : limitReached s core false (some t) = false := by simpa [limitReached] using h
    exact (exec_idle_wake (fw := false) hw hc).trans (by rw [show semMoved s core false = false from hm, hl]; rfl)
  · exact (exec_fence_complete (fw := false) hw).trans (by rw [if_pos (fenceHolds_iff.mpr ⟨⟨hp, hs⟩, fun h0 => absurd rfl h0⟩)]; rfl)
  · obtain ⟨p, hmem, u, i, r, he⟩ := hp
    exact (exec_fence_complete (fw := false) hw).trans (by rw [if_neg (fun h => (fenceHolds_iff.mp h).1.1 p hmem u i r he)])

theorem fenceWaits : Claims.FenceWaits := fun _ _ _ => rfl

/-- Settles O11, from its three claims. -/
theorem clocksAndWaits : Obligations.ClocksAndWaits := ⟨clockWords, waitsEnd, fenceWaits⟩

end Sys2Proof.Machine
end

/-! # Rows and flags between the sequencer and the stations (R139, R140, R192) -/
section
namespace Sys2Proof.Machine
variable {s : State}

/-! ## `setof` (R139) -/

theorem fmtFloat_of_int {ty : Fmt} (h : fmtInt ty = true) : fmtFloat ty = none := by cases ty <;> simp_all [fmtInt, fmtFloat]

theorem setofRow_of_int {ty : Fmt} (h : fmtInt ty = true) (v : Word) :
    setofRow ty v = rowOf ty (List.replicate (fmtElems ty) (wrapTo (fmtBits ty) (clampInt (intRange ty).1 (intRange ty).2 v.toInt))) [] false := by
  simp only [setofRow, fmtFloat_of_int h]

theorem setofRow_plain {ty : Fmt} (h : ty.code ≤ 8) (v : Word) : (setofRow ty v).plain ty false := rowOf_plain (fmtMx_of_code h)

theorem rowOf_replicate_code {ty : Fmt} {c i : Nat} {p : Bool} (hi : i < fmtElems ty) :
    (rowOf ty (List.replicate (fmtElems ty) c) [] p).code i = c % 2 ^ fmtBits ty := by
  rw [rowOf_code (by simp), List.getD_eq_getElem _ _ (by simpa using hi), List.getElem_replicate]

theorem clampInt_eq_max {lo hi : Int} (h : lo ≤ hi) (i : Int) : clampInt lo hi i = max lo (min hi i) := by
  unfold clampInt
  split
  · omega
  · split <;> omega

theorem setofRow_code_int {ty : Fmt} (h : fmtInt ty = true) (v : Word) {i : Nat} (hi : i < fmtElems ty) :
    ((setofRow ty v).code i : Int) = max (intRange ty).1 (min (intRange ty).2 v.toInt) % 2 ^ fmtBits ty := by
  have hrange : (intRange ty).1 ≤ (intRange ty).2 := by cases ty <;> decide
  rw [setofRow_of_int h, rowOf_replicate_code hi, clampInt_eq_max hrange]
  push_cast
  rw [wrapTo_cast, Int.emod_emod]

theorem fp32_decode_isNan (c : Nat) : (fp32.decode c).isNan = true ↔ f32Nan c := by
  refine ⟨fun h => by_contra fun hn => ?_, fun h => by rw [fp32_decode_nan h]; rfl⟩
  have hinf : ¬ c % 2 ^ (fp32.bits - 1) ≤ fp32.maxCode → some (c % 2 ^ (fp32.bits - 1)) = fp32.infCode := by
    intro hmax
    simp only [f32Nan, fp32, Option.some.injEq] at hn hmax ⊢
    omega
  simp only [FloatFmt.decode] at h
  split at h
  · split at h <;> cases h
  next hmax =>
    rw [if_pos (hinf hmax)] at h
    cases h

theorem setofRow_code_f32 (v : Word) {i : Nat} (hi : i < 32) : (setofRow .f32 v).code i =
    if v.toNat % 2 ^ 32 / 2 ^ 23 % 256 = 255 ∧ v.toNat % 2 ^ 32 % 2 ^ 23 ≠ 0 then 0x7FC00000 else v.toNat % 2 ^ 32 := by
  have hrow : setofRow .f32 v = rowOf .f32 (List.replicate (fmtElems .f32)
      (if (fp32.decode (v.toNat % 2 ^ 32)).isNan then 0x7FC00000 else v.toNat % 2 ^ 32)) [] false := rfl
  rw [hrow, rowOf_replicate_code hi]
  simp only [fp32_decode_isNan, f32Nan_iff]
  split
  · rfl
  · exact Nat.mod_mod _ _

/-- Settles O12: the row of `setof` holds one code in every element. -/
theorem setofAndFget : Obligations.SetofAndFget := by
  intro s e stn ofi d a f
  refine ⟨rfl, fun hc ty hty => ⟨setofRow (Fmt.ofCode ty.toNat) (s.g a), ?_, ?_⟩⟩
  · exact if_neg (by simpa [Option.isNone_iff_eq_none, Option.isSome_iff_ne_none] using hc)
  · have hcode : (Fmt.ofCode ty.toNat).code ≤ 8 := by rwa [Fmt.code_ofCode (by omega)]
    obtain ⟨htag, hside, hpoison⟩ := setofRow_plain hcode (s.g a)
    refine ⟨htag, hpoison, hside, fun h i hi => ?_, fun h i hi => ?_, fun h i hi => ?_, fun h i hi => ?_, fun h i hi => ?_⟩ <;> subst h
    · exact setofRow_code_int (ty := .i32) rfl _ hi
    · exact setofRow_code_int (ty := .i16) rfl _ hi
    · exact setofRow_code_int (ty := .i8) rfl _ hi
    · refine (setofRow_code_int (ty := .ui8) rfl _ hi).trans (Int.emod_eq_of_lt ?_ ?_)
      · exact le_max_left _ _
      · exact (max_le (by decide) (min_le_left _ _) : max 0 (min 255 (s.g a).toInt) ≤ 255).trans_lt (by decide)
    · exact setofRow_code_f32 _ hi

/-! ## `vflag` (R140, R192) -/

theorem flagCount_row {r : Row} {amb : BitVec 1} {n : Nat} (ht : r.tag = .ui8) : flagCount (amb = 1) n (.row r)
    = ((List.range n).filter (fun e => r.code e != 0 && (r.code e != 128 || amb == 1))).length := by
  have hbits : (Src.row r).bits .ui8 = r.code := funext fun _ => bits_row ht
  rw [flagCount, hbits]
  rfl

theorem flagWord_eq (hits n : Nat) : flagWord hits n
    = hits + (if hits = 0 then 0 else 2 ^ 16) + (if hits = n then 2 ^ 17 else 0) + (if hits = 0 then 2 ^ 18 else 0) := by
  unfold flagWord
  split <;> split <;> split <;> omega

/-- Settles O29: the mask is the operand-file row, and its selected bytes are counted. -/
theorem flagsOfMasks : Obligations.FlagsOfMasks := by
  intro s h i flag count amb hsa hsb a n hits ht _
  have hread := readSources_of_onFile (s := s) ⟨hsa, hsb⟩
  have hok : (Src.row a).accepts (· = .ui8) = none := accepts_own ht
  have hexec : exec (.vflag h flag count amb) s = .next (if a.poison then raise (poisonFault 1) h.sa.code 0 s
      else s.later (s.now0 + 5) (.flag flag.toNat (flagReg (amb = 1) n (.row a)))) := by
    change execVflag h flag count amb s = _
    simp only [execVflag, hread]
    simp only [show Src.accepts (.row (s.ofRow i.toNat)) (fun x => decide (x = .ui8)) = none from hok]
    rfl
  refine ⟨fun hp => ?_, fun hp => ?_⟩
  · rw [hexec, hp, flagReg, flagCount_row ht, flagWord_eq]
    rfl
  · rw [hexec, hp, hsa]
    rfl

end Sys2Proof.Machine
end

/-! # Control registers (R8, R147, R153, R154, R372) -/
section
namespace Sys2Proof.Machine
variable {s : State} {e : Bool} {d : Reg} {i : BitVec 12}

theorem exec_getc_of_some {v : Word} (h : getReg i.toNat s = some v) : exec (.getc e d i) s = .next (seqReg e false d 3 v s) := by
  change execGetc e d i s = _
  rw [execGetc, h]

theorem exec_getc_of_none (h : getReg i.toNat s = none) : exec (.getc e d i) s = .next (seqDone e false (raise (seqFault 2) 0 0 s)) := by
  change execGetc e d i s = _
  rw [execGetc, h]
  rfl

theorem exec_setc_of_some {t : State} (h : setReg0 i.toNat (s.g d) s = some t) : exec (.setc e d i) s = .next (seqDone e false t) := by
  change execSetc e d i s = _
  rw [execSetc, h]

theorem exec_setc_of_none (h : setReg0 i.toNat (s.g d) s = none) : exec (.setc e d i) s = .next (seqDone e false (raise (seqFault 2) 0 0 s)) := by
  change execSetc e d i s = _
  rw [execSetc, h]
  rfl

/-! ## Reads (R147, R154) -/

theorem getReg_of_program {n : Nat} (hn : 0x020 ≤ n) (h : s.focus.fw = false) : getReg n s = none := by
  unfold getReg
  simp only [h]
  split
  any_goals omega
  rfl

theorem getReg_of_firmware {n : Nat} (hn : 0x800 ≤ n) (h : s.focus.fw = true) : getReg n s = some (readReg s n) := by
  unfold getReg
  simp only [h]
  split
  any_goals omega
  rw [if_neg (by decide), if_neg (by omega), if_pos hn]

theorem ofNat_add_eq_or {a b k : Nat} (hb : b < 2 ^ k) : BitVec.ofNat 64 (b + a * 2 ^ k) = .ofNat 64 (a * 2 ^ k) ||| .ofNat 64 b := by
  rw [Nat.add_comm, ← Nat.shiftLeft_eq, Nat.shiftLeft_add_eq_or_of_lt hb, BitVec.ofNat_or]

theorem fwShare_eq_or (lo hi : BitVec 6) : BitVec.ofNat 64 (lo.toNat + hi.toNat * 2 ^ 6) = hi.setWidth 64 <<< 6 ||| lo.setWidth 64 := by
  rw [ofNat_add_eq_or lo.isLt, shl_eq_ofNat, BitVec.ofNat_toNat, BitVec.toNat_setWidth_of_le (by decide)]

theorem seqLaunch_eq_or (core : Nat) (tag : BitVec 32) :
    BitVec.ofNat 64 (tag.toNat + core * 2 ^ 32) = .ofNat 64 (core * 2 ^ 32) ||| tag.setWidth 64 := by
  rw [ofNat_add_eq_or tag.isLt, BitVec.ofNat_toNat]

/-! ## Writes (R8, R147, R154) -/

theorem setReg0_of_program {n : Nat} {v : Word} (hn : 0x020 ≤ n) (h : s.focus.fw = false) : setReg0 n v s = none := by
  unfold setReg0
  simp only [h]
  split
  any_goals omega
  rfl

/-- A core whose FW_SHARE is written: N is never below MIN. -/
def Core.shared (v : Word) (k : Core) : Core :=
  { k with fwMin := .ofNat 6 (fieldOf v 11 6), fwN := .ofNat 6 (max (fieldOf v 5 0) (BitVec.ofNat 6 (fieldOf v 11 6)).toNat) }

theorem setReg0_share {v : Word} (h : s.focus.fw = true) : setReg0 0x001 v s = some (s.updF (Core.shared v)) :=
  (if_neg (by simp [h])).trans (if_pos rfl)

theorem extractLsb'_toNat_eq_fieldOf (v : Word) (lo w : Nat) : (v.extractLsb' lo (w + 1)).toNat = fieldOf v (lo + w) lo := by
  rw [BitVec.extractLsb'_toNat, Nat.shiftRight_eq_div_pow, fieldOf, bitsOf, Nat.add_assoc, Nat.add_sub_cancel_left]

theorem ofNat_fieldOf_min (v : Word) : BitVec.ofNat 6 (fieldOf v 11 6) = v.extractLsb' 6 6 := by
  rw [← extractLsb'_toNat_eq_fieldOf v 6 5, BitVec.ofNat_toNat, BitVec.setWidth_eq]

theorem Core.shared_fwN (v : Word) (k : Core) : (k.shared v).fwN.toNat = max (v.extractLsb' 0 6).toNat (v.extractLsb' 6 6).toNat := by
  have hlo := (v.extractLsb' 0 6).isLt
  have hhi := (v.extractLsb' 6 6).isLt
  rw [Core.shared, ofNat_fieldOf_min, ← extractLsb'_toNat_eq_fieldOf v 0 5, BitVec.toNat_ofNat, Nat.mod_eq_of_lt (max_lt hlo hhi)]

theorem controlRegisters : Claims.ControlRegisters := by
  intro s e d hp k reads
  refine ⟨?_, exec_getc_of_some rfl, exec_getc_of_some rfl, exec_getc_of_some rfl, fun _ => ?_, exec_setc_of_some rfl, exec_setc_of_some rfl,
    exec_setc_of_some rfl, exec_setc_of_some rfl, fun i hi => ⟨exec_getc_of_none (getReg_of_program hi hp), exec_setc_of_none (setReg0_of_program hi hp)⟩⟩
  · exact exec_getc_of_some (congrArg some (fwShare_eq_or k.fwN k.fwMin))
  · exact exec_getc_of_some (congrArg some (seqLaunch_eq_or s.focus.core k.tag))

theorem firmwareRegisters : Claims.FirmwareRegisters := by
  intro s e d hf
  refine ⟨fun i hi => exec_getc_of_some (getReg_of_firmware hi hf), _, exec_setc_of_some (setReg0_share hf), ?_, ?_, onlyCore_updF _⟩
  · rw [State.fcore_updF]
    exact ofNat_fieldOf_min _
  · rw [State.fcore_updF, Core.shared_fwN]

/-- Settles O14, from its two claims. -/
theorem sequencerRegisters : Obligations.SequencerRegisters := ⟨controlRegisters, firmwareRegisters⟩

end Sys2Proof.Machine
end

/-! # Hardware semaphores (R143) -/
section
namespace Sys2Proof.Machine

/-- Refutes O13. Its last claim says, of every core, that after counting a bit of `hsemHit` is set exactly where a sum was clamped. Counting only sets
such bits; `beginCore` clears them before it counts. So a core with bit 0 set and no change due keeps the bit, and nothing was clamped. -/
theorem not_hardwareSemaphores : ¬ Obligations.HardwareSemaphores := by
  intro h
  obtain ⟨-, -, hhit, -⟩ := h.2 { hsemHit := 1 } 0 0 (by decide)
  exact absurd hhit (by decide)

end Sys2Proof.Machine
end

/-! # What a fault record and a fault leave as they are (R36, R365 to R369) -/
section
namespace Sys2Proof.Machine
variable {s t u : State}

/-! ## Records -/

/-- Nothing differs but what a record and its interrupt write, whatever queue takes it: `recordsOnly` without its clause on registers. -/
def recordFrame (s t : State) : Prop :=
  ∃ lpddr host colour uncorr regs now, t = { s with lpddr := lpddr, host := host, colour := colour, uncorr := uncorr, regs := regs, now := now }

theorem recordFrame.refl : recordFrame s s := ⟨_, _, _, _, _, _, rfl⟩

theorem recordFrame.trans (h : recordFrame s t) (h' : recordFrame t u) : recordFrame s u := by
  obtain ⟨_, _, _, _, _, _, rfl⟩ := h
  obtain ⟨_, _, _, _, _, _, rfl⟩ := h'
  exact ⟨_, _, _, _, _, _, rfl⟩

theorem recordFrame.eq (h : recordFrame s t) :
    { t with lpddr := s.lpddr, colour := s.colour, uncorr := s.uncorr, host := s.host, regs := s.regs, now := s.now } = s := by
  obtain ⟨_, _, _, _, _, _, rfl⟩ := h
  rfl

theorem recordFrame.cores (h : recordFrame s t) : t.cores = s.cores := by
  obtain ⟨_, _, _, _, _, _, rfl⟩ := h
  rfl

theorem recordFrame.crews (h : recordFrame s t) : t.crews = s.crews := by
  obtain ⟨_, _, _, _, _, _, rfl⟩ := h
  rfl

theorem recordFrame.focus (h : recordFrame s t) : t.focus = s.focus := by
  obtain ⟨_, _, _, _, _, _, rfl⟩ := h
  rfl

theorem recordFrame.susps (h : recordFrame s t) : t.susps = s.susps := by
  obtain ⟨_, _, _, _, _, _, rfl⟩ := h
  rfl

theorem lpWriteBurst_recordFrame {b bytes colour} (h : lpWriteBurst s b bytes colour = .ok t) : recordFrame s t := by
  revert h
  fun_cases lpWriteBurst s b bytes colour
  case case2 | case5 => exact fun h => Except.ok.inj h ▸ ⟨_, _, _, _, _, _, rfl⟩
  all_goals nofun

theorem lpWriteMap_recordFrame {colour bs m} (h : lpWriteMap colour bs m s = .ok t) : recordFrame s t := by
  fun_induction lpWriteMap colour bs m s
  case case1 =>
    cases h
    exact .refl
  case case2 => cases h
  case case3 hb ih => exact (lpWriteBurst_recordFrame hb).trans (ih h)

theorem setReg_recordFrame {i v} : recordFrame s (s.setReg i v) := ⟨_, _, _, _, _, _, rfl⟩

theorem postIrq_recordFrame {v} : recordFrame s (postIrq s v) := by
  fun_cases postIrq s v <;> exact ⟨_, _, _, _, _, _, rfl⟩

theorem putRecord_recordFrame {q ws} : recordFrame s (putRecord s q ws) := by
  have hnow : recordFrame s { s with now := s.now + 1 } := ⟨_, _, _, _, _, _, rfl⟩
  fun_cases putRecord s q ws
  case case3 h _ _ => exact ((hnow.trans (lpWriteMap_recordFrame h)).trans setReg_recordFrame).trans postIrq_recordFrame
  case case4 h _ _ => exact (hnow.trans (lpWriteMap_recordFrame h)).trans setReg_recordFrame
  all_goals exact hnow.trans setReg_recordFrame

theorem record_recordFrame {source f fw ended tag cycle part core args} : recordFrame s (record s source f fw ended tag cycle part core args) :=
  putRecord_recordFrame

/-- An interrupt changes the pending bits of vectors alone among the registers. -/
theorem postIrq_reg {v i : Nat} (hv : v < 2048) (hi : ¬ (0xE08 ≤ i ∧ i < 0xE28)) : (postIrq s v).reg i = s.reg i := by
  fun_cases postIrq s v
  case case1 => exact setReg_reg_ne (by omega)
  case case2 => rfl

theorem putRecord_recordsOnly {q ws} (hq : q ≤ 16) : recordsOnly s (putRecord s q ws) := by
  refine ⟨putRecord_recordFrame.eq, fun i hfq hirq => ?_⟩
  have hvec : fieldOf (s.reg (0xD01 + 4 * q)) 17 7 < 2048 := Nat.mod_lt _ (by decide)
  have hwritten : ∀ {a b c} {t : State}, lpWrite { s with now := s.now + 1 } a b c = .ok t → ∀ v, (t.setReg (0xD02 + 4 * q) v).reg i = s.reg i := by
    intro a b c t h v
    rw [setReg_reg_ne (by omega), State.reg, (lpWriteMap_sameParts h).2.1]
    rfl
  fun_cases putRecord s q ws
  case case3 h _ _ => exact (postIrq_reg hvec hirq).trans (hwritten h _)
  case case4 h _ _ => exact hwritten h _
  all_goals exact setReg_reg_ne (by omega)

theorem recordQueue_le {p : Nat} {core : Option Nat} (hp : p < 16) : recordQueue s (some p) core ≤ 16 := by
  unfold recordQueue
  split
  · exact le_rfl
  · exact hp.le

/-- The record of a unit of a partition that there is. -/
theorem record_recordsOnly {source f fw ended tag cycle core args} {p : Nat} (hp : p < 16) :
    recordsOnly s (record s source f fw ended tag cycle (some p) core args) := putRecord_recordsOnly (recordQueue_le hp)

/-! ## Crews that are stopped -/

theorem updCrew_of_crew {k : Nat} {w : Crew} {f : Crew → Crew} (h : s.crew k = some w) : s.updCrew k f = { s with crews := s.crews.put k (f w) } := by
  simp only [State.updCrew, h]

theorem updCrew_cores {k : Nat} {f : Crew → Crew} : (s.updCrew k f).cores = s.cores := by
  fun_cases State.updCrew s k f <;> rfl

theorem updCrew_focus {k : Nat} {f : Crew → Crew} : (s.updCrew k f).focus = s.focus := by
  fun_cases State.updCrew s k f <;> rfl

/-- The record of a hold that ends, where there is one. -/
theorem endHold_record {w : Crew} {n : Nat} {cause : Nat} {c : Bool} :
    recordFrame s (if c then record s w.leader ⟨0x40, cause, 0⟩ false false (s.core w.leader).tag w.clock (some w.part) (some w.leader)
      [.ofNat 64 cause, .ofNat 64 n] else s) := by
  split
  · exact record_recordFrame
  · exact .refl

theorem endHold_cores {k : Nat} : (endHold k s).cores = s.cores := by
  fun_cases endHold k s
  case case1 => exact updCrew_cores.trans endHold_record.cores
  all_goals rfl

theorem endHold_focus {k : Nat} : (endHold k s).focus = s.focus := by
  fun_cases endHold k s
  case case1 => exact updCrew_focus.trans endHold_record.focus
  all_goals rfl

/-- What happened to what a record runs is noted in its counter's state and nowhere else. -/
theorem markRec_insts {r m} : ∃ insts, markRec s r m = { s with insts := insts } := by
  fun_cases markRec s r m
  case case1 i _ => fun_cases markInst s i m <;> exact ⟨_, rfl⟩
  case case2 => exact ⟨_, rfl⟩

theorem markRec_cores {r m} : (markRec s r m).cores = s.cores := by
  obtain ⟨_, h⟩ := markRec_insts (s := s) (r := r) (m := m)
  rw [h]

theorem markRec_crew {r m k} : (markRec s r m).crew k = s.crew k := by
  obtain ⟨_, h⟩ := markRec_insts (s := s) (r := r) (m := m)
  rw [h]
  rfl

theorem markRec_focus {r m} : (markRec s r m).focus = s.focus := by
  obtain ⟨_, h⟩ := markRec_insts (s := s) (r := r) (m := m)
  rw [h]

theorem stopCrew_cores {k : Nat} {m : Status} : (stopCrew s k m).cores = s.cores := by
  fun_cases stopCrew s k m
  case case2 => exact markRec_cores.trans (updCrew_cores.trans endHold_cores)
  all_goals rfl

theorem stopCrew_focus {k : Nat} {m : Status} : (stopCrew s k m).focus = s.focus := by
  fun_cases stopCrew s k m
  case case2 => exact markRec_focus.trans (updCrew_focus.trans endHold_focus)
  all_goals rfl

/-! ## A fault is taken -/

theorem takeOffline_faulted {c : Nat} : ((takeOffline c s).core c).faulted = (s.core c).faulted := by
  rw [takeOffline, State.core_updCore_self]
  rfl

/-- The core in focus, after a fault that it notes. -/
theorem noted_faulted {c : Nat} {f : HwFault} : ((s.updCore c (fun k => { k with faulted := some f })).core c).faulted = some f :=
  congrArg Core.faulted (State.core_updCore_self s c _)

theorem raiseWith_focus {f a0 a1 a2 a3} : (raiseWith f a0 a1 a2 a3 s).focus = s.focus := by
  fun_cases raiseWith f a0 a1 a2 a3 s
  case case1 => rfl
  case case2 => exact stopCrew_focus.trans record_recordFrame.focus
  case case3 => exact record_recordFrame.focus

theorem raiseWith_of_faulted {f a0 a1 a2 a3} (h : s.fcore.faulted.isSome = true) : raiseWith f a0 a1 a2 a3 s = s := if_pos h

theorem raiseWith_faulted {f a0 a1 a2 a3} (h : s.fcore.faulted = none) : (raiseWith f a0 a1 a2 a3 s).fcore.faulted = some f := by
  have hcore : ∀ t : State, t.focus = s.focus → t.fcore = t.core s.focus.core := fun t ht => by rw [State.fcore, ht]
  rw [hcore _ raiseWith_focus]
  fun_cases raiseWith f a0 a1 a2 a3 s
  case case1 hk => exact absurd h (Option.isSome_iff_ne_none.1 hk)
  case case2 =>
    rw [State.core, stopCrew_cores]
    exact noted_faulted
  case case3 => exact takeOffline_faulted.trans noted_faulted

/-- After a fault its core has one. -/
theorem raise_faulted_isSome {f field unit} : (raise f field unit s).fcore.faulted.isSome = true := by
  cases h : s.fcore.faulted with
  | none => rw [raise, raiseWith_faulted h, Option.isSome_some]
  | some g =>
    have hsome : s.fcore.faulted.isSome = true := h ▸ rfl
    rw [raise, raiseWith_of_faulted hsome, hsome]

end Sys2Proof.Machine
end

/-! # Rows on lanes (O16; R158, R159, R161) -/
section
namespace Sys2Proof.Machine
variable {s : State} {u lane : Nat} {row : Row}

theorem posAt_eq_iff {r : LaneRow} {pos t k : Nat} (hr : r.pos < 16) (hpos : pos < 16) (hk : t = r.at0 + k) :
    r.posAt t = pos ↔ if r.lane < 8 then pos = (r.pos + k) % 16 else (pos + k) % 16 = r.pos := by
  have hsub : t - r.at0 = k := by omega
  unfold LaneRow.posAt
  rw [hsub]
  split <;> omega

theorem rowsTravel : Claims.RowsTravel := by
  intro r lane pos t hr hpos
  simp only [LaneRow.presentAt, Bool.and_eq_true, beq_iff_eq, decide_eq_true_eq, and_assoc]
  refine and_congr_right fun _ => ⟨fun ⟨hlt, hle, hp⟩ => ?_, fun ⟨k, h1, h15, hk, hp⟩ => ?_⟩
  · have hk : t = r.at0 + (t - r.at0) := by omega
    exact ⟨t - r.at0, by omega, hle, hk, (posAt_eq_iff hr hpos hk).1 hp⟩
  · exact ⟨by omega, by omega, (posAt_eq_iff hr hpos hk).2 hp⟩

/-! ## Puts -/

theorem countUse_of_room {kind : Nat} (h : s.fcore.uses.count (4 * u + kind) < useLimit u kind) : countUse u kind s = s.used (4 * u + kind) := if_pos h

theorem countUse_of_over {kind : Nat} (h : useLimit u kind ≤ s.fcore.uses.count (4 * u + kind)) : countUse u kind s = raise (timing 5) (posOf u) 0 s :=
  if_neg (not_lt.2 h)

/-- A lane is free for a put: no row is present there at hop 14 or less, and none is put there in the same cycle (R159). -/
def Core.laneFree (k : Core) (lane pos t : Nat) : Prop :=
  ∀ r ∈ k.lanes, ¬ (r.lane = lane ∧ ((r.at0 = t ∧ r.pos = pos) ∨ r.presentAt lane pos t 14 = true))

theorem collides_iff {k : Core} {pos t : Nat} : k.collides lane pos t = true ↔ ¬ k.laneFree lane pos t := by
  have hlane : ∀ r : LaneRow, r.presentAt lane pos t 14 = true → r.lane = lane := by
    intro r h
    simp only [LaneRow.presentAt, Bool.and_eq_true, beq_iff_eq] at h
    exact h.1.1
  simp only [Core.collides, Core.laneFree, List.any_eq_true, Bool.or_eq_true, Bool.and_eq_true, beq_iff_eq, not_forall, not_not, exists_prop]
  refine exists_congr fun r => and_congr_right fun _ => ⟨?_, ?_⟩
  · rintro (h | ⟨⟨hl, ht⟩, hp⟩)
    · exact ⟨hlane r h, .inr h⟩
    · exact ⟨hl, .inl ⟨ht, hp⟩⟩
  · rintro ⟨hl, ⟨ht, hp⟩ | h⟩
    · exact .inr ⟨⟨hl, ht⟩, hp⟩
    · exact .inl h

section
variable (hf : s.fcore.faulted = none) (hu : s.fcore.uses.count (4 * u + 1) < useLimit u 1)
include hf hu

theorem putLane_of_free (h : s.fcore.laneFree lane (posOf u) s.now0) :
    putLane u lane row s = (s.used (4 * u + 1)).updF (fun k => { k with lanes := k.lanes ++ [⟨lane, posOf u, s.now0, row⟩] }) := by
  have hc : ¬ ((s.used (4 * u + 1)).fcore.collides lane (posOf u) s.now0 = true) := fun hc => collides_iff.1 hc (by rw [fcore_used]; exact h)
  rw [putLane, countUse_of_room hu, if_neg (by simp [fcore_used, hf]), if_neg hc]

theorem putLane_of_taken (h : ¬ s.fcore.laneFree lane (posOf u) s.now0) : putLane u lane row s = raise (timing 1) lane 0 (s.used (4 * u + 1)) := by
  have hc : (s.used (4 * u + 1)).fcore.collides lane (posOf u) s.now0 = true := collides_iff.2 (by rw [fcore_used]; exact h)
  rw [putLane, countUse_of_room hu, if_neg (by simp [fcore_used, hf]), if_pos hc]

end

theorem putLane_of_over (h : useLimit u 1 ≤ s.fcore.uses.count (4 * u + 1)) : putLane u lane row s = raise (timing 5) (posOf u) 0 s := by
  rw [putLane, countUse_of_over h, if_pos raise_faulted_isSome]

theorem putsAndCollisions : Claims.PutsAndCollisions := by
  intro s u lane row hu k t pos free counted hf
  exact ⟨fun hc => ⟨putLane_of_free hf hc, putLane_of_taken hf hc⟩, putLane_of_over⟩

/-- Settles O16, from its two claims. -/
theorem rowsOnLanes : Obligations.RowsOnLanes := ⟨rowsTravel, putsAndCollisions⟩

end Sys2Proof.Machine
end

/-! # Bank entries (O18, O20; R155, R168, R169, R171, R172) -/
section
namespace Sys2Proof.Machine
variable {s : State}

/-! ## Reads (R168, R169) -/

theorem exec_rdx {h : Ent} {base len : BitVec 11} {off : BitVec 5} {adv : BitVec 1} :
    let b := s.fcore.bank s.focus.stn
    let n := if len = 0 then 2048 else len.toNat
    exec (.rdx h base len off adv) s
      = .next (bankRead (laneNo h.dst) (base.toNat + (b.rp + off.toNat) % n) (setRp (if adv = 1 then (b.rp + 1) % n else b.rp) s)) := by
  intro b n
  show execRdx h base len off adv s = _
  rw [execRdx, ringRow_of_fields]

/-- A bank read scheduled and the ring pointer moved, as one change of the core in focus. -/
theorem bankRead_setRp {lane row rp : Nat} : bankRead lane row (setRp rp s) = s.updF (fun k => { k.updBank s.focus.stn (fun b => { b with rp := rp }) with
    pend := k.pend ++ [⟨s.now0 + 1, s.focus.org, .bankRead s.focus.stn lane row (s.fcore.bank s.focus.stn).fmt⟩] }) := by
  have hnow : (setRp rp s).now0 = s.now0 := now0_updF rfl
  have hfmt : ((setRp rp s).fcore.bank s.focus.stn).fmt = (s.fcore.bank s.focus.stn).fmt := by rw [fcore_setRp, bank_updBank]
  show (setRp rp s).later ((setRp rp s).now0 + 1) (.bankRead s.focus.stn lane row ((setRp rp s).fcore.bank s.focus.stn).fmt) = _
  rw [hnow, hfmt]
  exact State.updF_updF _ _ _

/-- Settles O18: a read schedules the row for the next cycle; `rdx` moves its ring pointer with it. -/
theorem bankReads : Obligations.BankReads := by
  intro s h la lb row rowB base len off adv u b n hdst
  have hla : laneNo h.dst = la.toNat := by rw [hdst]; rfl
  have hread : ∀ t : State, t.focus = s.focus → t.now0 = s.now0 → (t.fcore.bank u).fmt = b.fmt → ∀ l r,
      bankRead l r t = t.later (s.now0 + 1) (.bankRead u l r b.fmt) := by
    intro t hfocus hnow hfmt l r
    rw [bankRead, hnow, hfocus, hfmt]
  refine ⟨?_, fun hsa => ?_, _, exec_rdx, ?_⟩
  · show Host.Outcome.next (bankRead (laneNo h.dst) row.toNat s) = _
    rw [hla, hread s rfl rfl rfl]
  · have hlb : laneNo h.sa = lb.toNat := by rw [hsa]; rfl
    show Host.Outcome.next (bankRead (laneNo h.sa) rowB.toNat (bankRead (laneNo h.dst) row.toNat s)) = _
    rw [hla, hlb, hread s rfl rfl rfl, hread (s.later _ _) rfl now0_later (by rw [fcore_later]; rfl)]
  · rw [bankRead_setRp, State.fcore_updF, hla]
    have hbank := bank_updBank s.fcore u (fun x => { x with rp := if adv = 1 then (b.rp + 1) % n else b.rp })
    exact ⟨rfl, congrArg Bank.rp hbank, (congrArg Bank.rows hbank).trans rfl, onlyCore_updF _⟩

end Sys2Proof.Machine
end

section
namespace Sys2Proof.Machine
variable {s : State}

/-! ## Fills, formats and waits (R155, R171, R172) -/

/-- `fmt` without LOAD, as one change of the core in focus. -/
theorem exec_fmt_of_no_load {h : Ent} {f : BitVec 4} {cb : BitVec 2} : exec (.fmt h f cb 0) s
    = .next (s.updF (fun k => { k.updBank s.focus.stn (fun b => { b with fmt := Fmt.ofCode f.toNat, cb := cb.toNat }) with
        pend := k.pend ++ [⟨s.now0 + 1, s.focus.org, .fmtLand s.focus.stn⟩] })) :=
  congrArg Host.Outcome.next (State.updF_updF _ _ _)

theorem bankFillFmtWait : Claims.BankFillFmtWait := by
  intro s h row count f cb w u b n
  refine ⟨fun hsa hb => ?_, ⟨_, exec_fmt_of_no_load, ?_⟩, rfl, rfl⟩
  · show execBankFill h row count s = _
    simp only [execBankFill, hsa, show hasBank s.focus.stn s = true from hb, Bool.not_true, Bool.false_eq_true, if_false]
    rfl
  · have hbank := bank_updBank s.fcore u (fun b => { b with fmt := Fmt.ofCode f.toNat, cb := cb.toNat })
    rw [State.fcore_updF]
    exact ⟨congrArg Bank.fmt hbank, congrArg Bank.cb hbank, (congrArg Bank.rows hbank).trans rfl, rfl, onlyCore_updF _⟩

/-- A row written whole, without a byte mask, stands as it was made. -/
theorem mergeRow_whole {w : Prep} {old : Row} (hc : w.cnt = fmtElems w.fmt) (hm : w.mask = none) : mergeRow w old = w.new := by
  simp only [mergeRow, hc, hm, if_true]

/-- The row of a bank that a write has changed. -/
def Core.bankWritten (k : Core) (bank n : Nat) (w : Prep) : Core :=
  k.updBank bank (fun b => { b with rows := b.rows.put n (mergeRow w (b.row n w.fmt)) })

theorem landBankWrite_of_room {bank n : Nat} {w : Prep} (hb : bank < 8) (hf : s.fcore.faulted = none) (hu : s.fcore.uses.count (4 * bank + 2) = 0) :
    landBankWrite bank n w s = (s.used (4 * bank + 2)).updF (fun k => k.bankWritten bank n w) := by
  have hlim : useLimit bank 2 = 1 := by simp [useLimit, hb]
  rw [landBankWrite, countUse_of_room (by omega), if_neg (by simp [fcore_used, hf])]
  rfl

theorem row_bankWritten {k : Core} {bank n m : Nat} {w : Prep} {f : Fmt} :
    ((k.bankWritten bank n w).bank bank).row m f = if n = m then { mergeRow w ((k.bank bank).row n w.fmt) with tag := f } else (k.bank bank).row m f := by
  rw [Core.bankWritten, bank_updBank, Bank.row, SMap.get_put]
  split <;> rfl

theorem fillsLand : Claims.FillsLand := by
  intro s o bank rowNo left d f hb hf hu w t
  have hwrite : landBankWrite bank rowNo w s = (s.used (4 * bank + 2)).updF (fun k => k.bankWritten bank rowNo w) := landBankWrite_of_room hb hf hu
  have hfcore : (landBankWrite bank rowNo w s).fcore = ({ s.fcore with uses := (4 * bank + 2) :: s.fcore.uses } : Core).bankWritten bank rowNo w := by
    rw [hwrite, State.fcore_updF, fcore_used]
  have hfocus : (landBankWrite bank rowNo w s).focus = s.focus := by
    rw [hwrite]
    rfl
  have ht : t = if left ≤ 1 then landBankWrite bank rowNo w s
      else (landBankWrite bank rowNo w s).later (s.now0 + 1) (.bankFill bank (rowNo + 1) (left - 1) w) := rfl
  have hbanks : t.fcore.bank bank = (landBankWrite bank rowNo w s).fcore.bank bank := by
    rw [ht]
    split
    · rfl
    · rw [fcore_later]
      rfl
  have hrow : ∀ m, (t.fcore.bank bank).row m f = if rowNo = m then Row.zero f else (s.fcore.bank bank).row m f := by
    intro m
    rw [hbanks, hfcore, row_bankWritten, mergeRow_whole rfl rfl]
    rfl
  refine ⟨by rw [hrow, if_pos rfl], fun n hn => by rw [hrow, if_neg hn.symm], fun hl => ?_, fun hl => ?_, fun n => ?_⟩
  · rw [ht, if_neg (by omega), fcore_later, hfcore, hfocus]
    rfl
  · rw [ht, if_pos hl, hfcore]
    rfl
  · show ((s.updF _).fcore.bank bank).row n f = _
    rw [State.fcore_updF, bank_updBank]
    rfl

/-- Settles O20, from its two claims. -/
theorem fillsFormatsWaits : Obligations.FillsFormatsWaits := ⟨bankFillFmtWait, fillsLand⟩

end Sys2Proof.Machine
end

/-! # `mode`, `nop` and `chk` (O21; R71, R167, R173) -/
section
namespace Sys2Proof.Machine
variable {s : State}

theorem exec_chk_of_onFiles {h : Ent} {i j : BitVec 4} (hij : onFiles h i j) : exec (.chk h) s
    = .next (if (s.ofRow i.toNat).poison then raise (poisonFault 0) (16 + i.toNat) 0 s
      else if (s.ofRow j.toNat).poison then raise (poisonFault 0) (16 + j.toNat) 0 s else s) := by
  have hread := readSources_of_onFiles (s := s) hij
  obtain ⟨hsa, hsb⟩ := hij
  show execChk h s = _
  simp only [execChk, hread, hsa, hsb]
  rfl

theorem seedOf_setWidth (v : BitVec 16) : seedOf (v.setWidth 32) = if v = 0 then 1 else v.setWidth 32 := by
  have hz : v.setWidth 32 = 0 ↔ v = 0 := by bv_omega
  simp only [seedOf, hz]

/-- Settles O21. -/
theorem modeNopChk : Obligations.ModeNopChk := by
  intro s h seedv rnd sat i j u sets g0 g1 a b
  have hmode1 : setMode seedv rnd sat 1 .none s = sets g1 := by
    rw [show g1 = seedOf (seedv.setWidth 32) from (seedOf_setWidth seedv).symm]
    rfl
  refine ⟨rfl, rfl, congrArg Host.Outcome.next hmode1, congrArg Host.Outcome.next hmode1, fun hsa hp => ?_, rfl, fun hij ha hb => ?_, fun hij ha => ?_,
    fun hij ha hb => ?_⟩
  · have hread : readOpnd h.sa h.imm s = .ok (.row a, s) := by rw [hsa]; rfl
    show Host.Outcome.next (modeEntry h seedv rnd sat 2 s) = _
    simp only [modeEntry, hread, Src.poison, hp, show (2 : BitVec 2).toNat = 2 from rfl, if_true, Bool.false_eq_true, if_false]
    rfl
  · rw [exec_chk_of_onFiles hij, if_neg (by simp [show (s.ofRow i.toNat).poison = false from ha]), if_neg (by simp [show (s.ofRow j.toNat).poison = false from hb])]
  · rw [exec_chk_of_onFiles hij, if_pos ha]
  · rw [exec_chk_of_onFiles hij, if_neg (by simp [show (s.ofRow i.toNat).poison = false from ha]), if_pos hb]

end Sys2Proof.Machine
end

/-! # Results of stations (O22, O23; R163, R174, R180, R181, R186) -/
section
namespace Sys2Proof.Machine
variable {s : State}

/-! ## A result lands (R163) -/

/-- A station whose LL takes a result, unless one of a later entry stands there (R163). -/
def Station.latched (x : Station) (now issue : Nat) (row : Row) : Station :=
  if x.llAt.1 < now ∨ (x.llAt.1 = now ∧ x.llAt.2 ≤ issue) then { x with ll := row, llAt := (now, issue) } else x

/-- A core after a result for an operand-file entry. -/
def Core.resultLanded (k : Core) (stn i now issue : Nat) (row : Row) : Core :=
  { k.updStn stn (fun x => ({ x with ofs := x.ofs.put i row } : Station).latched now issue row) with uses := (4 * stn + 2) :: k.uses }

theorem updStn_updStn (k : Core) (u : Nat) (f g : Station → Station) : (k.updStn u f).updStn u g = k.updStn u (fun x => g (f x)) := by
  unfold Core.updStn
  simp only [SMap.upd, SMap.get_put_self, SMap.put_put]

theorem useLimit_write (u : Nat) : useLimit u 2 = 1 := by
  unfold useLimit
  split <;> rfl

theorem landResult_of_file {stn issue : Nat} {i : BitVec 4} {row : Row} (hf : s.fcore.faulted = none) (hu : s.fcore.uses.count (4 * stn + 2) = 0) :
    landResult stn (.ofr i) row issue s = s.updF (fun k => k.resultLanded stn i.toNat s.now0 issue row) := by
  have huse : countUse stn 2 s = s.used (4 * stn + 2) := countUse_of_room (by rw [useLimit_write]; omega)
  simp only [landResult, huse, fcore_used, hf, Option.isSome_none, Bool.false_eq_true, if_false]
  rw [State.used, State.updF_updF, State.updF_updF]
  refine congrArg s.updF (funext fun k => ?_)
  rw [updStn_updStn]
  rfl

theorem Station.latched_ofs (x : Station) (now issue : Nat) (row : Row) : (x.latched now issue row).ofs = x.ofs := by
  unfold latched
  split <;> rfl

theorem stn_resultLanded (k : Core) (stn i now issue : Nat) (row : Row) (v : Nat) : (k.resultLanded stn i now issue row).stn v
    = if stn = v then ({ k.stn stn with ofs := (k.stn stn).ofs.put i row } : Station).latched now issue row else k.stn v := SMap.get_put _ _ _ _ _

/-- Settles O22. -/
theorem resultsLand : Obligations.ResultsLand := by
  intro s o stn d issue i row _ _ hf hu x t y
  have ht : t = s.updF (fun k => k.resultLanded stn i.toNat s.now0 issue row) := landResult_of_file hf hu
  have hk : t.fcore = s.fcore.resultLanded stn i.toNat s.now0 issue row := by rw [ht, State.fcore_updF]
  have hstn : ∀ v, t.fcore.stn v = if stn = v then ({ x with ofs := x.ofs.put i.toNat row } : Station).latched s.now0 issue row else s.fcore.stn v :=
    fun v => (congrArg (Core.stn · v) hk).trans (stn_resultLanded ..)
  have hy : y = ({ x with ofs := x.ofs.put i.toNat row } : Station).latched s.now0 issue row := (hstn stn).trans (if_pos rfl)
  refine ⟨fun n => ?_, fun h => ?_, fun h => ?_, fun v hv => (hstn v).trans (if_neg hv.symm), ?_, ?_⟩
  · rw [hy, Station.latched_ofs, SMap.get_put]
    exact if_congr eq_comm rfl rfl
  · rw [hy, Station.latched, if_pos h]
  · rw [hy, Station.latched, if_neg h]
  · rw [ht]
    exact onlyCore_updF _
  · rw [hk]
    rfl

/-! ## Entries (R163, R174, R180, R181, R186) -/

/-- An entry of the vector stations, with the sources that it has read: it gives its row, or raises its fault alone. -/
theorem exec_of_sources {s1 : State} {h : Ent} {a b : Src} {x : Instr} {lat : Nat} {f : State → Src → Src → Except HwFault (Row × Rounding)}
    {r : Except HwFault (Row × Rounding)} (hread : readSources h s = .ok (a, b, s1)) (hexec : exec x s = .next (stationEntry h lat f s))
    (hf : f s1 a b = r) :
    (∀ row rd, r = .ok (row, rd) → exec x s = .next (s1.gives lat h.dst row rd)) ∧ ∀ g, r = .error g → exec x s = .next (raiseOpnd h g s1) := by
  refine ⟨fun row rd hr => ?_, fun g hr => ?_⟩
  · simp only [hexec, stationEntry, hread, hf, hr, giveResult, State.gives, now0_setRnd, State.setRnd_focus]
  · simp only [hexec, stationEntry, hread, hf, hr]

theorem exec_topk_of_sources {s1 : State} {h : Ent} {a b : Src} {k : BitVec 3} {n : BitVec 1} {row : Row} {rd : Rounding} {tb : Nat}
    (hread : readSources h s = .ok (a, b, s1)) (hr : rowTopk k.toNat (n = 1) s1.fcore.tb h.ty s1.rnd a b = .ok (row, rd, tb)) :
    exec (.topk h k n) s = .next (giveResult 8 h.dst row ((s1.setRnd rd).updF (fun k => { k with tb := tb }))) := by
  show execTopk h k n s = _
  simp only [execTopk, hread, hr]

theorem fcore_topkGiven {s1 : State} {dst : Opnd} {row : Row} {rd : Rounding} {tb : Nat} :
    (giveResult 8 dst row ((s1.setRnd rd).updF (fun k => { k with tb := tb }))).fcore = { s1.fcore.updStream s1.focus.stn (fun t => { t with rd := rd }) with
      tb := tb, pend := s1.fcore.pend ++ [⟨s1.now0 + 8, s1.focus.org, .result s1.focus.stn dst row s1.now0⟩] } := by
  have hnow : ((s1.setRnd rd).updF (fun k => { k with tb := tb })).now0 = s1.now0 := (now0_updF rfl).trans now0_setRnd
  rw [giveResult, hnow, fcore_later, State.fcore_updF, fcore_setRnd]
  rfl

/-- Settles O23: every entry is `stationEntry` of the function of its rule; `topk` is taken by itself. -/
theorem stationEntries : Obligations.StationEntries := by
  intro s s1 h a b hread rd d table toLane does
  have entry : ∀ {x lat f r}, exec x s = .next (stationEntry h lat f s) → f s1 a b = r → does x lat r := exec_of_sources hread
  refine ⟨entry rfl rfl, entry rfl rfl, entry rfl rfl, fun n => ⟨entry rfl rfl, entry rfl rfl⟩, entry rfl rfl, entry rfl rfl, entry rfl rfl,
    entry rfl rfl, entry rfl rfl, entry rfl rfl, entry rfl rfl, entry rfl rfl, entry rfl rfl, entry rfl rfl, entry rfl rfl, entry rfl rfl,
    entry rfl rfl, entry rfl rfl, fun n => entry rfl rfl, fun r => entry rfl rfl, fun r m => entry rfl rfl, fun m n => entry rfl rfl, entry rfl rfl,
    fun q n => entry rfl rfl, entry rfl rfl, fun p n => entry rfl rfl, entry rfl rfl, fun n => entry rfl rfl, entry rfl rfl, entry rfl rfl,
    entry rfl rfl, entry rfl rfl, entry rfl rfl, entry rfl rfl, entry rfl rfl, entry rfl rfl, entry rfl rfl, fun r n => entry rfl rfl, entry rfl rfl,
    fun p => entry rfl rfl, fun k => entry rfl rfl, fun t n => entry rfl rfl, fun k => entry rfl rfl, fun p => entry rfl rfl, fun m => ⟨entry rfl rfl,
    entry rfl rfl⟩, fun c n => entry rfl rfl, fun c => ⟨entry rfl rfl, entry rfl rfl⟩, fun n => entry rfl rfl, entry rfl rfl, fun n => entry rfl rfl,
    fun o n => entry rfl rfl, entry rfl rfl, fun k n row rd' tb htopk => ?_⟩
  exact ⟨_, exec_topk_of_sources hread htopk, congrArg Core.tb fcore_topkGiven, congrArg Core.pend fcore_topkGiven⟩

end Sys2Proof.Machine
end

/-! # Integer vector values (O24; R174) -/
section
namespace Sys2Proof.Machine

/-! ## Elements and their codes -/

theorem Row.intAt_modEq (r : Row) (e : Nat) : r.intAt e ≡ r.code e [ZMOD 2 ^ fmtBits r.tag] := by
  by_cases h : r.tag = .ui8
  · rw [Row.intAt_of_ui8 h]
  · rw [Row.intAt_of_signed h]
    exact signedOf_modEq _ _

theorem Row.code_cast_emod (r : Row) (e : Nat) : (r.code e : Int) % 2 ^ fmtBits r.tag = r.code e :=
  Int.emod_eq_of_lt (Int.natCast_nonneg _) (by exact_mod_cast r.code_lt e)

theorem Row.wrapTo_intAt (r : Row) (e : Nat) : wrapTo (fmtBits r.tag) (r.intAt e) = r.code e := by
  have h : (wrapTo (fmtBits r.tag) (r.intAt e) : Int) = r.code e := by
    rw [wrapTo_cast, r.intAt_modEq e, r.code_cast_emod]
  exact_mod_cast h

/-- An element is its code, or that less 2^w where the code's top bit is set. -/
theorem Row.intAt_cases (r : Row) (e : Nat) :
    r.intAt e = r.code e ∨ (r.intAt e = r.code e - 2 ^ fmtBits r.tag ∧ 2 ^ (fmtBits r.tag - 1) ≤ r.code e) := by
  unfold Row.intAt
  split
  · exact .inl rfl
  · split
    · exact .inl rfl
    · exact .inr ⟨rfl, not_lt.1 ‹_›⟩

theorem fmtBits_pos (f : Fmt) : 0 < fmtBits f := by cases f <;> decide

theorem two_pow_fmtBits (f : Fmt) : 2 ^ fmtBits f = 2 * 2 ^ (fmtBits f - 1) := by
  rw [← Nat.pow_succ', Nat.succ_eq_add_one, Nat.sub_add_cancel (fmtBits_pos f)]

theorem Row.intAt_ge (r : Row) (e : Nat) : -(2 ^ (fmtBits r.tag - 1) : Nat) ≤ r.intAt e := by
  have hw := two_pow_fmtBits r.tag
  have hcast : (2 : Int) ^ fmtBits r.tag = (2 ^ fmtBits r.tag : Nat) := by push_cast; rfl
  rcases r.intAt_cases e with h | ⟨h, hc⟩ <;> rw [h] <;> omega

theorem Row.intAt_lt (r : Row) (e : Nat) : r.intAt e < (2 ^ fmtBits r.tag : Nat) := by
  have hlt := r.code_lt e
  have hcast : (2 : Int) ^ fmtBits r.tag = (2 ^ fmtBits r.tag : Nat) := by push_cast; rfl
  rcases r.intAt_cases e with h | ⟨h, -⟩ <;> rw [h] <;> omega

theorem Row.intAt_of_nonneg {r : Row} {e : Nat} (h : 0 ≤ r.intAt e) : r.intAt e = r.code e := by
  have hlt := r.code_lt e
  have hcast : (2 : Int) ^ fmtBits r.tag = (2 ^ fmtBits r.tag : Nat) := by push_cast; rfl
  rcases r.intAt_cases e with h' | ⟨h', -⟩
  · exact h'
  · omega

/-! ## Shifts -/

theorem shlInt_modEq (w : Nat) (x : Int) (k : Nat) : shlInt w x k ≡ x * 2 ^ k [ZMOD 2 ^ w] := by
  unfold shlInt
  split
  next h => exact (Int.modEq_zero_iff_dvd.2 (dvd_mul_of_dvd_right (pow_dvd_pow 2 h) x)).symm
  next =>
    push_cast
    rfl

theorem shrInt_intAt (r : Row) (e k : Nat) : shrInt (fmtBits r.tag) (r.intAt e) k = (r.code e : Int) / 2 ^ k := by
  unfold shrInt
  split
  next hk =>
    have hzero : r.code e / 2 ^ k = 0 := Nat.div_eq_of_lt ((r.code_lt e).trans_le (Nat.pow_le_pow_right Nat.two_pos hk))
    exact_mod_cast hzero.symm
  · split
    next hn =>
      rw [Row.intAt_of_nonneg hn]
      push_cast
      rfl
    · rw [if_pos (r.intAt_ge e), r.wrapTo_intAt]
      push_cast
      rfl

theorem sarInt_intAt (r : Row) (e k : Nat) : sarInt (fmtBits r.tag) (r.intAt e) k = r.intAt e / 2 ^ k := by
  have hpos : (0 : Int) < 2 ^ k := by positivity
  unfold sarInt
  split
  next hk =>
    have hpow : (2 ^ fmtBits r.tag : Nat) ≤ 2 ^ k := Nat.pow_le_pow_right Nat.two_pos hk
    have hw := two_pow_fmtBits r.tag
    have hge := r.intAt_ge e
    have hlt := r.intAt_lt e
    have hcast : (2 : Int) ^ k = (2 ^ k : Nat) := by push_cast; rfl
    split
    next hneg =>
      refine le_antisymm ((Int.le_ediv_iff_mul_le hpos).2 (by omega)) (Int.lt_add_one_iff.1 ((Int.ediv_lt_iff_lt_mul hpos).2 (by omega)))
    next hn => exact (Int.ediv_eq_zero_of_lt (not_lt.1 hn) (by omega)).symm
  next =>
    push_cast
    rfl

theorem rshrInt_eq (x : Int) (k : Nat) : rshrInt x k = if k = 0 then x else (x + 2 ^ (k - 1)) / 2 ^ k := by
  unfold rshrInt
  push_cast
  rfl

/-! ## Rows of two operands -/

theorem intRow_holds_of_modEq {ty : Fmt} {p : Bool} {f v : Nat → Int} (hty : fmtInt ty = true) (h : ∀ e, f e ≡ v e [ZMOD 2 ^ fmtBits ty]) :
    (intRow ty p f).holds ty p v :=
  rowOf_range_holds (fmtInt_code hty) (fun e _ => by rw [wrapTo_cast]; exact (Int.mod_modEq _ _).trans (h e))

theorem intRow_holds_of_eq {ty : Fmt} {p : Bool} {f v : Nat → Int} (hty : fmtInt ty = true) (h : ∀ e, f e = v e) : (intRow ty p f).holds ty p v :=
  intRow_holds_of_modEq hty (fun e => by rw [h e])

theorem intRange_eq {ty : Fmt} (h : fmtInt ty = true) : intRange ty
    = (if ty = .ui8 then 0 else -2 ^ (fmtBits ty - 1), if ty = .ui8 then 255 else 2 ^ (fmtBits ty - 1) - 1) := by
  obtain rfl | rfl | rfl | rfl := fmtInt_cases h <;> rfl

theorem intRange_le (ty : Fmt) : (intRange ty).1 ≤ (intRange ty).2 := by cases ty <;> decide

theorem ne_bf32_of_int {ty : Fmt} (h : fmtInt ty = true) : ty ≠ .bf32 := by
  rintro rfl
  cases h

section
variable {ty : Fmt} {rd : Rounding} {a b : Row} (ha : a.tag = ty) (hb : b.tag = ty)
include ha hb

theorem firstFault_own : firstFault [(Src.row a).accepts (· = ty), (Src.row b).accepts (· = ty)] = none := by
  rw [accepts_own ha, accepts_own hb, firstFault_two]

theorem firstFault_tagsB : firstFault [(Src.row a).accepts (tagsB ty), (Src.row b).accepts (tagsB ty)] = none := by
  rw [accepts_row (by simp [tagsB, ha]), accepts_row (by simp [tagsB, hb]), firstFault_two]

variable (hty : fmtInt ty = true)
include hty

theorem int_of_tag : (Src.row a).int ty = a.intAt ∧ (Src.row b).int ty = b.intAt :=
  ⟨funext fun _ => int_row (ha ▸ hty), funext fun _ => int_row (hb ▸ hty)⟩

theorem rowAddSub_of_int (isSub : Bool) : rowAddSub isSub ty rd (.row a) (.row b)
    = .ok (intRow ty (a.poison || b.poison) (fun e => if isSub then a.intAt e - b.intAt e else a.intAt e + b.intAt e), rd) := by
  obtain ⟨hia, hib⟩ := int_of_tag ha hb hty
  simp only [rowAddSub, firstFault_tagsB ha hb, if_neg (ne_bf32_of_int hty), elemRow, hty, if_true, hia, hib, Src.poison]

theorem rowMul_of_int : rowMul ty rd (.row a) (.row b) = .ok (intRow ty (a.poison || b.poison) (fun e => a.intAt e * b.intAt e), rd) := by
  obtain ⟨hia, hib⟩ := int_of_tag ha hb hty
  have hclash : clash ((Src.row a).isBounded && (Src.row b).isBounded) (typeFault 0) = none := by
    simp [Src.isBounded, ha, fmtBounded_of_code (fmtInt_code hty), clash]
  simp only [rowMul, firstFault_tagsB ha hb, hclash, if_neg (ne_bf32_of_int hty), elemRow, hty, if_true, hia, hib, Src.poison, Option.orElse_eq_orElse, Option.orElse]

theorem rowMinMax_of_int (isMax : Bool) : rowMinMax isMax ty rd (.row a) (.row b)
    = .ok (intRow ty (a.poison || b.poison) (fun e => if isMax then max (a.intAt e) (b.intAt e) else min (a.intAt e) (b.intAt e)), rd) := by
  obtain ⟨hia, hib⟩ := int_of_tag ha hb hty
  simp only [rowMinMax, firstFault_tagsB ha hb, if_neg (ne_bf32_of_int hty), elemRow, hty, if_true, hia, hib, Src.poison]

theorem rowSat_of_int (isSub : Bool) : rowSat isSub ty rd (.row a) (.row b) = .ok (intRow ty (a.poison || b.poison) (fun e =>
    max (intRange ty).1 (min (intRange ty).2 (if isSub then a.intAt e - b.intAt e else a.intAt e + b.intAt e))), rd) := by
  obtain ⟨hia, hib⟩ := int_of_tag ha hb hty
  simp only [rowSat, firstFault_own ha hb, hia, hib, Src.poison, clampInt_eq_max (intRange_le ty)]

theorem rowClamp_of_int (sym : Bool) : rowClamp sym ty rd (.row a) (.row b)
    = .ok (intRow ty (a.poison || b.poison) (fun e => min (max (a.intAt e) (if sym then -(b.intAt e) else 0)) (b.intAt e)), rd) := by
  obtain ⟨hia, hib⟩ := int_of_tag ha hb hty
  simp only [rowClamp, firstFault_own ha hb, elemRow, hty, if_true, hia, hib, Src.poison]

theorem rowShift_of_int (f : Int → Nat → Int) : rowShift f ty rd (.row a) (.row b)
    = .ok (intRow ty (a.poison || b.poison) (fun e => f (a.intAt e) (b.code e % 256)), rd) := by
  obtain ⟨hia, -⟩ := int_of_tag ha hb hty
  simp only [rowShift, firstFault_own ha hb, hia, shiftCount, bits_row hb, Src.poison]

end

/-- Settles O24: each entry's row holds the integers of its rule modulo 2^w. -/
theorem integerVectorValues : Obligations.IntegerVectorValues := by
  intro s h i j hij hty a b w lo hi ha hb gives gives1 x y k
  have hread := readSources_of_onFiles (s := s) hij
  have hrange : intRange h.ty = (lo, hi) := intRange_eq hty
  have hsar : ∀ e k, sarInt (fmtBits h.ty) (x e) k = x e / 2 ^ k := fun e k => ha ▸ sarInt_intAt a e k
  have hshr : ∀ e k, shrInt (fmtBits h.ty) (x e) k = (a.code e : Int) / 2 ^ k := fun e k => ha ▸ shrInt_intAt a e k
  have hsat : ∀ (isSub : Bool) (z : Instr) (v : Nat → Int), exec z s = .next (stationEntry h 2 (fun s a b => rowSat isSub h.ty s.rnd a b) s) →
      (∀ e, v e = if isSub then x e - y e else x e + y e) → gives z 2 (fun e => max lo (min hi (v e))) := by
    intro isSub z v hexec hv
    refine gives_of_holds hexec hread (rowSat_of_int ha hb hty isSub) (intRow_holds_of_eq hty fun e => ?_)
    rw [hrange, hv]
  have hshift : ∀ (f : Int → Nat → Int) (z : Instr) (v : Nat → Int), exec z s = .next (stationEntry h 2 (fun s a b => rowShift f h.ty s.rnd a b) s) →
      (∀ e, f (x e) (k e) ≡ v e [ZMOD 2 ^ fmtBits h.ty]) → gives z 2 v :=
    fun f z v hexec hv => gives_of_holds hexec hread (rowShift_of_int ha hb hty f) (intRow_holds_of_modEq hty hv)
  refine ⟨?_, ?_, ?_, ?_, ?_, hsat false _ _ rfl fun _ => rfl, hsat true _ _ rfl fun _ => rfl, ?_, ?_, hshift _ _ _ rfl fun e => shlInt_modEq _ _ _,
    hshift _ _ _ rfl fun e => by rw [hshr], hshift _ _ _ rfl fun e => by rw [hsar], hshift _ _ _ rfl fun e => by rw [rshrInt_eq], ?_, ?_, ?_⟩
  · exact gives_of_holds rfl hread (rowAddSub_of_int ha hb hty false) (intRow_holds_of_eq hty fun _ => rfl)
  · exact gives_of_holds rfl hread (rowAddSub_of_int ha hb hty true) (intRow_holds_of_eq hty fun _ => rfl)
  · exact gives_of_holds rfl hread (rowMul_of_int ha hb hty) (intRow_holds_of_eq hty fun _ => rfl)
  · exact gives_of_holds rfl hread (rowMinMax_of_int ha hb hty false) (intRow_holds_of_eq hty fun _ => rfl)
  · exact gives_of_holds rfl hread (rowMinMax_of_int ha hb hty true) (intRow_holds_of_eq hty fun _ => rfl)
  · exact gives_of_holds rfl hread (rowClamp_of_int ha hb hty false) (intRow_holds_of_eq hty fun _ => rfl)
  · exact gives_of_holds rfl hread (rowClamp_of_int ha hb hty true) (intRow_holds_of_eq hty fun _ => rfl)
  · exact gives_of_holds rfl hread (rowUnary_of_int ha hty) (intRow_holds_of_eq hty fun _ => rfl)
  · exact gives_of_holds rfl hread (rowUnary_of_int ha hty) (intRow_holds_of_eq hty fun _ => rfl)
  · refine gives_of_holds rfl hread (rowNot_of_row ha) (rowOf_range_holds (fmtInt_code hty) fun e _ => xor_ones_modEq (fmtBits_le_32 _) ?_)
    exact ha ▸ a.code_lt e

end Sys2Proof.Machine
end

/-! # Bitwise entries, masks, selection and `vmac` (O25; R174 to R177) -/
section
namespace Sys2Proof.Machine

/-- What an entry gives, from the row that its sources make and what that row holds. -/
theorem gives_of_codes {s : State} {h : Ent} {x : Instr} {lat : Nat} {a b : Src} {f : State → Src → Src → Except HwFault (Row × Rounding)} {row : Row}
    {good : Row → Prop} (hexec : exec x s = .next (stationEntry h lat f s)) (hread : readSources h s = .ok (a, b, s))
    (hf : f s a b = .ok (row, s.rnd)) (hrow : good row) : ∃ row : Row, exec x s = .next (s.gives lat h.dst row s.rnd) ∧ good row :=
  ⟨row, by rw [hexec, stationEntry_of_sources hread hf], hrow⟩

/-- A plain row of `n` numbers that fit its elements holds them, and zeros behind them. -/
theorem rowOf_range_spec {ty : Fmt} {n : Nat} {g : Nat → Nat} {p : Bool} (hty : ty.code ≤ 8) (hn : n ≤ fmtElems ty) (hg : ∀ e, g e < 2 ^ fmtBits ty) :
    (rowOf ty ((List.range n).map g) [] p).plain ty p ∧ ∀ e, (rowOf ty ((List.range n).map g) [] p).code e = if e < n then g e else 0 := by
  refine ⟨rowOf_plain (fmtMx_of_code hty), fun e => ?_⟩
  rw [rowOf_code (by simpa using hn)]
  split
  next he => rw [List.getD_eq_getElem _ _ (by simpa using he), List.getElem_map, List.getElem_range, Nat.mod_eq_of_lt (hg e)]
  next he => rw [List.getD_eq_default _ _ (by simpa using he), Nat.zero_mod]

/-- A plain row of as many numbers as it has elements. -/
theorem rowOf_full_spec {ty : Fmt} {g : Nat → Nat} {p : Bool} (hty : ty.code ≤ 8) (hg : ∀ e, g e < 2 ^ fmtBits ty) :
    (rowOf ty ((List.range (fmtElems ty)).map g) [] p).plain ty p
      ∧ ∀ e, e < fmtElems ty → (rowOf ty ((List.range (fmtElems ty)).map g) [] p).code e = g e := by
  obtain ⟨hplain, hcode⟩ := rowOf_range_spec (p := p) hty le_rfl hg
  exact ⟨hplain, fun e he => (hcode e).trans (if_pos he)⟩

/-! ## Comparisons of exact integers -/

theorem cmp_ofInt (a b : Int) : Val.cmp (Val.ofInt a) (Val.ofInt b) = a - b := by
  have hs : ∀ i : Int, Val.scaled (decide (i < 0)) i.natAbs 0 (min 0 0) = i := by
    intro i
    rw [scaled_eq]
    simp only [min_self, sub_self, Int.toNat_zero, pow_zero, mul_one, decide_eq_true_eq]
    split <;> omega
  simp only [Val.ofInt, Val.cmp, hs]

theorem eqv_ofInt (a b : Int) : Val.eqv (Val.ofInt a) (Val.ofInt b) = (a == b) := by
  rw [Val.eqv, cmp_ofInt, isNan_ofInt, isNan_ofInt, Bool.eq_iff_iff]
  simp [sub_eq_zero]

theorem le_ofInt (a b : Int) : Val.le (Val.ofInt a) (Val.ofInt b) = decide (a ≤ b) := by
  rw [Val.le, cmp_ofInt, isNan_ofInt, isNan_ofInt, Bool.eq_iff_iff]
  simp

/-- The relations of R175 on integers. -/
def intRel (rel : Nat) (x y : Int) : Bool :=
  match rel with
  | 0 => x == y
  | 1 => x != y
  | 2 => decide (x < y)
  | 3 => decide (x ≤ y)
  | 4 => decide (y < x)
  | _ => decide (y ≤ x)

theorem relHolds_ofInt (rel : Nat) (x y : Int) : relHolds rel (Val.ofInt x) (Val.ofInt y) = intRel rel x y := by
  unfold relHolds intRel
  split <;> simp only [eqv_ofInt, lt_ofInt, le_ofInt]
  rfl

/-! ## The rows -/

theorem firstFault_three : firstFault [none, none, none] = none := rfl

section
variable {ty : Fmt} {rd : Rounding} {a b : Row} (ha : a.tag = ty) (hb : b.tag = ty)
include ha hb

theorem rowBitwise_of_rows (op : Nat → Nat → Nat) : rowBitwise op ty rd (.row a) (.row b)
    = .ok (rowOf ty ((List.range (fmtElems ty)).map (fun e => op (a.code e) (b.code e))) [] (a.poison || b.poison), rd) := by
  simp only [rowBitwise, firstFault_own ha hb, bits_row ha, bits_row hb, Src.poison]

variable (hty : fmtInt ty = true)
include hty

theorem rowCmp_of_int (rel : Nat) : rowCmp rel ty rd (.row a) (.row b)
    = .ok (rowOf .ui8 ((List.range (fmtElems ty)).map (fun e => if intRel rel (a.intAt e) (b.intAt e) then 0xFF else 0)) [] (a.poison || b.poison), rd) := by
  have hva := fun e => val_row (cbs := []) (ty := ty) (r := a) (k := e) (ha ▸ hty)
  have hvb := fun e => val_row (cbs := []) (ty := ty) (r := b) (k := e) (hb ▸ hty)
  simp only [rowCmp, firstFault_own ha hb, hva, hvb, relHolds_ofInt, maskRowOf, Src.poison]

theorem rowSel_of_int {m : Row} (hm : m.tag = .ui8) (amb : Bool) : rowSel amb ty rd m (.row a) (.row b)
    = .ok (intRow ty (a.poison || b.poison || m.poison) (fun e => if byteSet amb (m.code e) then a.intAt e else b.intAt e), rd) := by
  have hbyte : ∀ e, m.byte e = m.code e := fun e => by rw [Row.code, hm]; rfl
  obtain ⟨hia, hib⟩ := int_of_tag ha hb hty
  simp only [rowSel, accepts_own ha, accepts_own hb, accepts_own hm, firstFault_three, elemRow, hty, if_true, Src.poison]
  refine congrArg (fun f => Except.ok (intRow ty (a.poison || b.poison || m.poison) f, rd)) (funext fun e => ?_)
  rw [← hbyte, byteSet]
  split
  next h => simp [h, hib]
  next h => cases amb <;> simp [h, hia, hib]
  next h0 h128 => simp [show m.byte e ≠ 0 from h0, show m.byte e ≠ 128 from h128, hia]

end

/-- 32 products of one group of byte rows, added into what `d` holds (R177). -/
theorem rowMac_of_bytes {ty : Fmt} {rd : Rounding} {a b : Row} {d : Src} {q : Nat} {init : Bool} (hty : ty = .i8 ∨ ty = .ui8) (ha : a.tag = ty) (hb : b.tag = ty)
    (hd : d.accepts (· = .i32) = none) : rowMac q init ty rd d (.row a) (.row b)
    = .ok (intRow .i32 (a.poison || b.poison || (if init then Src.zero else d).poison)
        (fun e => (if init then Src.zero else d).int .i32 e + a.intAt (32 * q + e) * b.intAt (32 * q + e)), rd) := by
  have hint : fmtInt ty = true := by obtain rfl | rfl := hty <;> rfl
  have hbytes : (decide (ty = .i8) || decide (ty = .ui8)) = true := by simpa using hty
  have hbOk : (Src.row b).accepts (fun t => decide (t = .i8) || decide (t = .ui8)) = none := accepts_row (by rw [hb, hbytes])
  have hdOk : (if init then none else d.accepts (· = .i32)) = none := by rw [hd, ite_self]
  obtain ⟨hia, hib⟩ := int_of_tag ha hb hint
  simp only [rowMac, accepts_own ha, hbytes, if_true, hbOk, hdOk, firstFault_three, hia, hib, Src.poison]

theorem wrapTo_lt (w : Nat) (i : Int) : wrapTo w i < 2 ^ w := by
  have h : (wrapTo w i : Int) < 2 ^ w := by
    rw [wrapTo_cast]
    exact Int.emod_lt_of_pos _ (by positivity)
  exact_mod_cast h

/-- A row of integers holds each as its low bits. -/
theorem intRow_spec {ty : Fmt} {p : Bool} {f : Nat → Int} (hty : fmtInt ty = true) :
    (intRow ty p f).plain ty p ∧ ∀ e, e < fmtElems ty → (intRow ty p f).code e = wrapTo (fmtBits ty) (f e) :=
  rowOf_full_spec (fmtInt_code hty) fun _ => wrapTo_lt _ _

/-- Settles O25. -/
theorem bitsMasksAndMac : Obligations.BitsMasksAndMac := by
  intro s h i j m hij a b k w n ha hb gives p
  have hread := readSources_of_onFiles (s := s) hij
  have hlta : ∀ e, a.code e < 2 ^ fmtBits h.ty := fun e => ha ▸ a.code_lt e
  have hltb : ∀ e, b.code e < 2 ^ fmtBits h.ty := fun e => hb ▸ b.code_lt e
  refine ⟨fun hc => ?_, fun hty => ⟨?_, fun hk => ?_⟩, fun hty hdst hk q => ?_⟩
  · have hbits : ∀ (op : Nat → Nat → Nat) (z : Instr), exec z s = .next (stationEntry h 2 (fun s a b => rowBitwise op h.ty s.rnd a b) s) →
        (∀ e, op (a.code e) (b.code e) < 2 ^ fmtBits h.ty) → gives z 2 h.ty p (fun e => (op (a.code e) (b.code e) : Nat)) := by
      intro op z hexec hlt
      obtain ⟨hplain, hcode⟩ := rowOf_full_spec (p := p) hc hlt
      exact gives_of_codes hexec hread (rowBitwise_of_rows ha hb op) ⟨hplain, fun e he => by rw [hcode e he]⟩
    exact ⟨hbits (· &&& ·) _ rfl fun e => Nat.and_lt_two_pow _ (hltb e), hbits (· ||| ·) _ rfl fun e => Nat.or_lt_two_pow (hlta e) (hltb e),
      hbits (· ^^^ ·) _ rfl fun e => Nat.xor_lt_two_pow (hlta e) (hltb e)⟩
  · have hcmp : ∀ (r : BitVec 3), gives (.vcmp h r) 2 .ui8 p (fun e => if e < n && intRel r.toNat (a.intAt e) (b.intAt e) then (255 : Int) else 0) := by
      intro r
      have hn : n ≤ fmtElems .ui8 := by
        obtain hf | hf | hf | hf := fmtInt_cases hty <;> simp only [n, w, hf] <;> decide
      obtain ⟨hplain, hcode⟩ := rowOf_range_spec (ty := .ui8) (p := p) (g := fun e => if intRel r.toNat (a.intAt e) (b.intAt e) then 0xFF else 0)
        (by decide) hn (fun e => by split <;> decide)
      refine gives_of_codes rfl hread (rowCmp_of_int ha hb hty r.toNat) ⟨hplain, fun e _ => ?_⟩
      refine (congrArg Nat.cast (hcode e)).trans ?_
      by_cases he : e < n <;> by_cases hr : intRel r.toNat (a.intAt e) (b.intAt e) = true <;> simp [he, hr]
    exact ⟨hcmp 0, hcmp 1, hcmp 2, hcmp 3, hcmp 4, hcmp 5⟩
  · have hsel : ∀ (x : BitVec 1) (v : Nat → Int), (∀ e, v e = if byteSet (decide (x = 1)) (k.code e) then (a.code e : Int) else b.code e) →
        gives (.vsel h m x) 2 h.ty (p || k.poison) v := by
      intro x v hv
      obtain ⟨hplain, hcode⟩ := intRow_spec (p := p || k.poison)
        (f := fun e => if byteSet (decide (x = 1)) (k.code e) then a.intAt e else b.intAt e) hty
      refine gives_of_codes rfl hread (f := fun s a b => (rowSel (x = 1) h.ty s.rnd (readOf m.toNat s) a b).mapError (nameFile m.toNat 3))
        (congrArg (Except.mapError _) (rowSel_of_int ha hb hty hk _)) ⟨hplain, fun e he => ?_⟩
      rw [hcode e he, hv]
      split
      · rw [show fmtBits h.ty = fmtBits a.tag from congrArg fmtBits ha.symm, a.wrapTo_intAt]
      · rw [show fmtBits h.ty = fmtBits b.tag from congrArg fmtBits hb.symm, b.wrapTo_intAt]
    refine ⟨hsel 0 _ fun e => ?_, hsel 1 _ fun e => ?_⟩
    · by_cases h0 : k.code e = 0 <;> by_cases h128 : k.code e = 128 <;> simp [byteSet, h0, h128]
    · by_cases h0 : k.code e = 0 <;> simp [byteSet, h0]
  · have hd : readDst h s = .row k := by rw [readDst, hdst]; rfl
    have hmac : ∀ (x : BitVec 1), gives (.vmac h q x) 4 .i32 (p || (if decide (x = 1) then Src.zero else .row k).poison)
        (fun e => ((if decide (x = 1) then Src.zero else .row k).int .i32 e + a.intAt (32 * q.toNat + e) * b.intAt (32 * q.toNat + e)) % 2 ^ 32) := by
      intro x
      obtain ⟨hplain, hcode⟩ := intRow_spec (ty := .i32) (p := p || (if decide (x = 1) then Src.zero else .row k).poison)
        (f := fun e => (if decide (x = 1) then Src.zero else .row k).int .i32 e + a.intAt (32 * q.toNat + e) * b.intAt (32 * q.toNat + e)) rfl
      refine gives_of_codes rfl hread (f := fun s a b => rowMac q.toNat (x = 1) h.ty s.rnd (readDst h s) a b) ?_ ⟨hplain, fun e he => ?_⟩
      · show rowMac q.toNat (x = 1) h.ty s.rnd (readDst h s) (.row a) (.row b) = _
        rw [hd]
        exact rowMac_of_bytes (.inl hty) ha hb (accepts_own hk)
      · rw [hcode e he, wrapTo_cast]
        rfl
    refine ⟨?_, ?_⟩
    · have hint : ∀ e, (Src.row k).int .i32 e = k.intAt e := fun e => int_row (hk ▸ rfl)
      have h0 := hmac 0
      simp only [show decide ((0 : BitVec 1) = 1) = false from rfl, Bool.false_eq_true, if_false, hint] at h0
      exact h0
    · have h1 := hmac 1
      simpa [Src.int, Src.val, Src.poison, Val.zero, Val.toInt, Val.ratio, gives] using h1

end Sys2Proof.Machine
end

/-! # Permutations of PX (O26; R181, R182) -/
section
namespace Sys2Proof.Machine

section
variable {ty : Fmt} {rd : Rounding} {a b : Row} (hty : ty.code ≤ 8) (ha : a.tag = ty)
include hty ha

theorem rowPerm_of_rows (hb : b.tag = .ui8) : rowPerm ty rd (.row a) (.row b)
    = .ok (rowOf ty ((List.range (fmtElems ty)).map (fun e => a.code (b.code e % fmtElems ty))) [] (a.poison || b.poison), rd) := by
  have hbyte : ∀ e, b.byte e = b.code e := fun e => by rw [Row.code, hb]; rfl
  simp only [rowPerm, accepts_own ha, accepts_own hb, firstFault_two, pxSide_of_code hty, pxRow_of_code hty, bits_row ha, hbyte, Src.poison]

variable (hb : b.tag = ty)
include hb

/-- Two rows of a format without scales go together (R181). -/
theorem checks_of_rows : (firstFault [(Src.row a).accepts (· = ty), (Src.row b).accepts (· = ty)]
    <|> clash (scalesDiffer ty (.row a) (.row b)) (stnFault 0)) = none := by
  have hbi : ty ≠ .bi16 := by
    rintro rfl
    exact absurd hty (by decide)
  have hclash : clash (scalesDiffer ty (.row a) (.row b)) (stnFault 0) = none := by simp [scalesDiffer, hbi, clash]
  rw [firstFault_own ha hb, hclash]
  rfl

/-- Element `e` of the two rows end to end. -/
def endToEnd (n : Nat) (a b : Row) (e : Nat) : Nat := if e < n then a.code e else b.code (e - n)

theorem rowSlide_of_rows (k : Nat) : rowSlide k ty rd (.row a) (.row b)
    = .ok (rowOf ty ((List.range (fmtElems ty)).map (fun e => endToEnd (fmtElems ty) a b (k + e))) [] (a.poison || b.poison), rd) := by
  simp only [rowSlide, checks_of_rows hty ha hb, pxSide2_of_code hty, pxRow_of_code hty, bits_row ha, bits_row hb, Src.poison]
  rfl

theorem rowXpose_of_rows (lr h2 : Nat) : rowXpose lr h2 ty rd (.row a) (.row b)
    = .ok (rowOf ty ((List.range (fmtElems ty)).map (fun e => endToEnd (fmtElems ty) a b
        ((h2 * fmtElems ty + e) % 2 ^ lr * (2 * fmtElems ty / 2 ^ lr) + (h2 * fmtElems ty + e) / 2 ^ lr))) [] (a.poison || b.poison), rd) := by
  have hnone : ¬ (Src.row b = .none) := nofun
  simp only [rowXpose, checks_of_rows hty ha hb, if_neg hnone, pxSide2_of_code hty, pxRow_of_code hty, bits_row ha, bits_row hb, Src.poison]
  rfl

/-- The patterns of `shuf` (R181): the low and the high halves interleaved, the even and the odd elements, and the first row reversed. -/
def shufAt (n : Nat) (a b : Row) (pat e : Nat) : Nat :=
  match pat with
  | 0 => if e % 2 = 0 then a.code (e / 2) else b.code (e / 2)
  | 1 => if e % 2 = 0 then a.code (n / 2 + e / 2) else b.code (n / 2 + e / 2)
  | 2 => endToEnd n a b (2 * e)
  | 3 => endToEnd n a b (2 * e + 1)
  | _ => a.code (n - 1 - e)

theorem rowShuf_of_rows (pat : Nat) : rowShuf pat ty rd (.row a) (.row b)
    = .ok (rowOf ty ((List.range (fmtElems ty)).map (shufAt (fmtElems ty) a b pat)) [] (a.poison || b.poison), rd) := by
  have heven : fmtElems ty = 2 * (fmtElems ty / 2) := by cases ty <;> rfl
  simp only [rowShuf, checks_of_rows hty ha hb, pxSide2_of_code hty, pxRow_of_code hty, bits_row ha, bits_row hb, Src.poison]
  refine congrArg (fun f => Except.ok (rowOf ty ((List.range (fmtElems ty)).map f) [] (a.poison || b.poison), rd)) (funext fun e => ?_)
  -- the even elements of the two rows end to end are those of the first row and then those of the second, and so the odd ones
  have hhalf : ∀ d, d < 2 → (if e < fmtElems ty / 2 then a.code (2 * e + d) else b.code (2 * (e - fmtElems ty / 2) + d))
      = endToEnd (fmtElems ty) a b (2 * e + d) := by
    intro d hd
    by_cases he : e < fmtElems ty / 2
    · rw [if_pos he, endToEnd, if_pos (by omega)]
    · rw [if_neg he, endToEnd, if_neg (by omega)]
      congr 1
      omega
  match pat with
  | 0 | 1 => rfl
  | 2 => exact hhalf 0 (by omega)
  | 3 => exact hhalf 1 (by omega)
  | n + 4 => rfl

end

section
variable {a b : Row} {n m : Nat} (ha : ∀ e, a.code e < m) (hb : ∀ e, b.code e < m)
include ha hb

theorem endToEnd_lt (e : Nat) : endToEnd n a b e < m := by
  unfold endToEnd
  split
  · exact ha _
  · exact hb _

theorem shufAt_lt {pat e : Nat} : shufAt n a b pat e < m := by
  unfold shufAt
  split
  case h_1 | h_2 =>
    split
    · exact ha _
    · exact hb _
  case h_3 | h_4 => exact endToEnd_lt ha hb _
  case h_5 => exact ha _

end

/-- Settles O26: each permutation gives codes of its sources. -/
theorem permutations : Obligations.Permutations := by
  intro s h i j hij hty a b n ab ha gives p
  have hread := readSources_of_onFiles (s := s) hij
  have hlta : ∀ e, a.code e < 2 ^ fmtBits h.ty := fun e => ha ▸ a.code_lt e
  have given : ∀ {z : Instr} {q : Bool} {f : State → Src → Src → Except HwFault (Row × Rounding)} {v : Nat → Nat},
      exec z s = .next (stationEntry h 3 f s) →
      f s (.row a) (.row b) = .ok (rowOf h.ty ((List.range (fmtElems h.ty)).map v) [] q, s.rnd) → (∀ e, v e < 2 ^ fmtBits h.ty) → gives z q v :=
    fun hexec hf hlt => gives_of_codes hexec hread hf (rowOf_full_spec hty hlt)
  refine ⟨fun hb => given rfl (rowPerm_of_rows hty ha hb) fun _ => hlta _, fun k _ => given rfl (rowBcast_of_row ha hty k.toNat) fun _ => hlta _, fun hb => ?_⟩
  have hltb : ∀ e, b.code e < 2 ^ fmtBits h.ty := fun e => hb ▸ b.code_lt e
  have hltab := endToEnd_lt (n := fmtElems h.ty) hlta hltb
  have hshuf : ∀ pat : BitVec 3, gives (.shuf h pat) p (shufAt (fmtElems h.ty) a b pat.toNat) :=
    fun pat => given rfl (rowShuf_of_rows hty ha hb pat.toNat) fun _ => shufAt_lt hlta hltb
  refine ⟨hshuf 0, hshuf 1, hshuf 2, hshuf 3, hshuf 4, fun k _ => given rfl (rowSlide_of_rows hty ha hb k.toNat) fun _ => hltab _, fun lr u r c hr hrc => ?_⟩
  have hc : c = 2 * fmtElems h.ty / 2 ^ lr.toNat := by
    rw [← hr, show 2 * fmtElems h.ty = r * c from hrc.symm, Nat.mul_div_cancel_left _ (hr ▸ Nat.two_pow_pos _)]
  rw [hc, hr]
  exact given rfl (rowXpose_of_rows hty ha hb lr.toNat u.toNat) fun _ => hltab _

end Sys2Proof.Machine
end

/-! # The ferry port (O33; R195 to R198, R350) -/
section
namespace Sys2Proof.Machine
variable {s t u : State}

/-! ## Rows sent and received (R196) -/

theorem exec_fsnd_of_file {h : Ent} {q : BitVec 3} {i : BitVec 4} (hsa : h.sa = .ofr i) :
    let r := s.ofRow i.toNat
    let outq := SMap.get [] s.fcore.fr.oq q.toNat
    exec (.fsnd h q) s = .next (if r.poison then raise (poisonFault 2) (16 + i.toNat) 0 s
      else if 128 ≤ (outq.filter OqItem.isRow).length then raise (stnFault 1) (16 + i.toNat) 0 s
      else s.updFr (fun f => { f with oq := f.oq.put q.toNat (outq ++ [.row r]) })) := by
  intro r outq
  show execFsnd h q s = _
  simp only [execFsnd, hsa]
  rfl

theorem exec_frcv_of_empty {h : Ent} {q : BitVec 3} (hq : SMap.get [] s.fcore.fr.iq q.toNat = []) : exec (.frcv h q) s = .next (askHold 1 s) := by
  show execFrcv h q s = _
  simp only [execFrcv, hq]

theorem exec_frcv_of_row {h : Ent} {q : BitVec 3} {r : Row} {rs : List Row} (hq : SMap.get [] s.fcore.fr.iq q.toNat = r :: rs) :
    exec (.frcv h q) s = .next ((s.updFr (fun f => { f with iq := f.iq.put q.toNat rs, taken := f.taken.put q.toNat (SMap.get 0 f.taken q.toNat + 1) })).later
      (s.now0 + 1) (.result s.focus.stn h.dst r s.now0)) := by
  have hnow : ∀ g, (s.updFr g).now0 = s.now0 := fun g => now0_updF rfl
  show execFrcv h q s = _
  simp only [execFrcv, hq, giveResult, hnow]
  rfl

/-! ## Markers (R198) -/

/-- The outbound queue with a marker behind what stands in it. -/
def State.marked (s : State) (q h : Nat) : State := s.updFr (fun f => { f with oq := f.oq.upd [] q (· ++ [OqItem.mark h (s.now0 + 2)]) })

theorem exec_fqd_of_reserved {h : Ent} {q : BitVec 3} {hs : BitVec 5} (hh : hasHsem hs.toNat s = true) :
    exec (.fqd h q hs) s = .next (countMarks 1 s.focus.core q.toNat (s.marked q.toNat hs.toNat)) := by
  show execFqd h q hs s = _
  simp only [execFqd, hh, Bool.not_true, Bool.false_eq_true, if_false]
  rfl

theorem exec_fqd_of_unreserved {h : Ent} {q : BitVec 3} {hs : BitVec 5} (hh : hasHsem hs.toNat s = false) :
    exec (.fqd h q hs) s = .next (raise allotUse 0 hs.toNat s) := by
  show execFqd h q hs s = _
  simp only [execFqd, hh, Bool.not_false, if_true]

theorem marked_oq {q h : Nat} : SMap.get [] ((s.marked q h).core s.focus.core).fr.oq q = SMap.get [] s.fcore.fr.oq q ++ [OqItem.mark h (s.now0 + 2)] := by
  have hcore : (s.marked q h).core s.focus.core = _ := State.fcore_updF s _
  rw [hcore]
  exact SMap.get_put_self _ _ _ _

/-- A marker behind a row waits for it. -/
theorem countMarks_of_row {fuel core q : Nat} {r : Row} {rest : List OqItem} (h : SMap.get [] (s.core core).fr.oq q = .row r :: rest) :
    countMarks fuel core q s = s := by
  cases fuel with
  | zero => rfl
  | succ n => simp only [countMarks, h, OqItem.markAt]

/-- The core after the item at the head of an outbound queue has left it. -/
def Core.unmarked (q : Nat) (k : Core) : Core := { k with fr := { k.fr with oq := k.fr.oq.upd [] q List.tail } }

/-- A marker alone at the head of a queue without unwritten rows counts. -/
theorem countMarks_of_mark {core q h e : Nat} (hq : SMap.get [] (s.core core).fr.oq q = [.mark h e]) (hb : boundBusy s core q = false) :
    countMarks 1 core q s = hsemChange (s.updCore core (Core.unmarked q)) core ⟨e, h, 1, none⟩ := by
  simp only [countMarks, hq, OqItem.markAt, hb, Bool.false_eq_true, if_false]
  rfl

theorem boundBusy_marked {q h : Nat} : boundBusy (s.marked q h) s.focus.core q = boundBusy s s.focus.core q := by
  have hlost : ((s.marked q h).core s.focus.core).fr.lost = (s.core s.focus.core).fr.lost := congrArg (fun k => k.fr.lost) (State.fcore_updF s _)
  simp only [boundBusy, hlost]
  rfl

theorem hsemChange_core {c : Nat} {ch : HsemChange} : (hsemChange s c ch).core c = { s.core c with hsemPend := (s.core c).hsemPend ++ [ch] } :=
  State.core_updCore_self s c _

theorem fqd_counts_at_once {h : Ent} {q : BitVec 3} {hs : BitVec 5} (hh : hasHsem hs.toNat s = true) (hq : SMap.get [] s.fcore.fr.oq q.toNat = [])
    (hb : boundBusy s s.focus.core q.toNat = false) :
    ∃ t, exec (.fqd h q hs) s = .next t ∧ t.fcore.hsemPend = s.fcore.hsemPend ++ [⟨s.now0 + 2, hs.toNat, 1, none⟩]
      ∧ SMap.get [] t.fcore.fr.oq q.toNat = [] := by
  have hone : SMap.get [] ((s.marked q.toNat hs.toNat).core s.focus.core).fr.oq q.toNat = [.mark hs.toNat (s.now0 + 2)] := by
    rw [marked_oq, hq]
    rfl
  have hpend : ((s.marked q.toNat hs.toNat).core s.focus.core).hsemPend = s.fcore.hsemPend := by
    have hcore : (s.marked q.toNat hs.toNat).core s.focus.core = _ := State.fcore_updF s _
    rw [hcore]
  have hcore : ∀ ch, (hsemChange ((s.marked q.toNat hs.toNat).updCore s.focus.core (Core.unmarked q.toNat)) s.focus.core ch).fcore
      = { Core.unmarked q.toNat ((s.marked q.toNat hs.toNat).core s.focus.core) with hsemPend := s.fcore.hsemPend ++ [ch] } := fun ch =>
    hsemChange_core.trans (by rw [State.core_updCore_self, Core.unmarked, hpend])
  refine ⟨_, (exec_fqd_of_reserved hh).trans (congrArg _ (countMarks_of_mark hone (boundBusy_marked.trans hb))), ?_, ?_⟩
  · rw [hcore]
  · rw [hcore]
    exact (SMap.get_put_self _ _ _ _).trans (congrArg List.tail hone)

/-! ## What counting markers leaves as it is -/

/-- Landing staging, the rows on their way to cores and those that have arrived, and the rows that each command has sent are as before. -/
structure MarksOnly (s t : State) : Prop where
  land : t.land = s.land
  fly : ∀ j, (t.core j).fr.fly = (s.core j).fr.fly
  iq : ∀ j, (t.core j).fr.iq = (s.core j).fr.iq
  arrived : ∀ j, (t.core j).fr.arrived = (s.core j).fr.arrived
  sent : ∀ id, (t.cmds.find id).map Cmd.sent = (s.cmds.find id).map Cmd.sent

theorem MarksOnly.refl : MarksOnly s s := ⟨rfl, fun _ => rfl, fun _ => rfl, fun _ => rfl, fun _ => rfl⟩

theorem MarksOnly.trans (h : MarksOnly s t) (h' : MarksOnly t u) : MarksOnly s u :=
  ⟨h'.land.trans h.land, fun j => (h'.fly j).trans (h.fly j), fun j => (h'.iq j).trans (h.iq j), fun j => (h'.arrived j).trans (h.arrived j),
    fun id => (h'.sent id).trans (h.sent id)⟩

theorem updCore_marksOnly {c : Nat} {f : Core → Core} (hfly : ∀ k, (f k).fr.fly = k.fr.fly) (hiq : ∀ k, (f k).fr.iq = k.fr.iq)
    (harr : ∀ k, (f k).fr.arrived = k.fr.arrived) : MarksOnly s (s.updCore c f) := by
  refine ⟨rfl, fun j => ?_, fun j => ?_, fun j => ?_, fun _ => rfl⟩ <;> rw [State.core_updCore] <;> split
  next h => rw [hfly, h]
  next => rfl
  next h => rw [hiq, h]
  next => rfl
  next h => rw [harr, h]
  next => rfl

theorem updCmd_find {id j : Nat} {f : Cmd → Cmd} : (s.updCmd id f).cmds.find j = if id = j then (s.cmds.find j).map f else s.cmds.find j := by
  unfold State.updCmd
  split
  next c h =>
    rw [SMap.find_put]
    split
    next hj => rw [← hj, h]; rfl
    next => rfl
  next h =>
    split
    next hj => rw [← hj, h]; rfl
    next => rfl

theorem updCmd_cores {id : Nat} {f : Cmd → Cmd} : (s.updCmd id f).cores = s.cores := by
  unfold State.updCmd
  split <;> rfl

theorem updCmd_land {id : Nat} {f : Cmd → Cmd} : (s.updCmd id f).land = s.land := by
  unfold State.updCmd
  split <;> rfl

theorem core_of_cores (h : t.cores = s.cores) (j : Nat) : t.core j = s.core j := by rw [State.core, h]; rfl

theorem updCmd_marksOnly {id : Nat} {f : Cmd → Cmd} (hf : ∀ c, (f c).sent = c.sent) : MarksOnly s (s.updCmd id f) := by
  have hcore := core_of_cores (updCmd_cores (s := s) (id := id) (f := f))
  refine ⟨updCmd_land, fun j => by rw [hcore], fun j => by rw [hcore], fun j => by rw [hcore], fun j => ?_⟩
  rw [updCmd_find]
  split
  · rw [Option.map_map]
    exact congrArg (fun g => Option.map g (s.cmds.find j)) (funext hf)
  · rfl

theorem hsemChange_marksOnly {core : Nat} {ch : HsemChange} : MarksOnly s (hsemChange s core ch) :=
  updCore_marksOnly (fun _ => rfl) (fun _ => rfl) (fun _ => rfl)

theorem unmarked_marksOnly {c q : Nat} : MarksOnly s (s.updCore c (Core.unmarked q)) :=
  updCore_marksOnly (fun _ => rfl) (fun _ => rfl) (fun _ => rfl)

theorem countMarks_marksOnly {fuel core q : Nat} : MarksOnly s (countMarks fuel core q s) := by
  induction fuel generalizing s with
  | zero => exact .refl
  | succ n ih =>
    rw [countMarks]
    split
    next h e _ =>
      split
      · exact .refl
      · exact (unmarked_marksOnly (c := core) (q := q)).trans (hsemChange_marksOnly.trans ih)
    · exact .refl

theorem fireMarks_marksOnly {core n : Nat} {l : List OqItem} : MarksOnly s (fireMarks core n l s).2 := by
  induction l generalizing s n with
  | nil => exact .refl
  | cons x l ih =>
    cases x with
    | mark h e =>
      rw [fireMarks]
      exact hsemChange_marksOnly.trans ih
    | row r =>
      cases n with
      | zero => exact .refl
      | succ n => exact ih

theorem settleMarks_marksOnly {id : Nat} {ts : List Transfer} : MarksOnly s (settleMarks id ts s) := by
  rw [settleMarks]
  split
  next c _ =>
    have hrows := updCmd_marksOnly (s := s) (id := id) (f := fun c' => { c' with rowsOut := rowsDone c ts - c.sent.length }) (fun _ => rfl)
    split
    · split
      · exact .refl
      · simp only
        split
        · exact (hrows.trans fireMarks_marksOnly).trans (updCmd_marksOnly fun _ => rfl)
        · exact hrows
    · exact .refl
  next => exact .refl

theorem settleBinding_marksOnly {id : Nat} : MarksOnly s (settleBinding s id) := by
  fun_cases settleBinding s id
  case case1 => exact settleMarks_marksOnly
  all_goals exact .refl

theorem foldl_settleBinding_marksOnly {l : List Nat} : MarksOnly s (l.foldl settleBinding s) :=
  List.foldlRecOn (motive := MarksOnly s) l settleBinding .refl fun _ ht _ _ => ht.trans settleBinding_marksOnly

theorem settleQueue_marksOnly {core q : Nat} : MarksOnly s (settleQueue core q s) :=
  foldl_settleBinding_marksOnly.trans countMarks_marksOnly

/-! ## A row arrives (R195, R350) -/

/-- The core after the oldest row under way to a queue has arrived. -/
def Core.arrive (q : Nat) (r : Row) (rs : List Row) (k : Core) : Core :=
  { k with fr := { k.fr with fly := k.fr.fly.put q rs, iq := k.fr.iq.upd [] q (· ++ [r]), arrived := k.fr.arrived.put q (SMap.get 0 k.fr.arrived q + 1) } }

theorem arriveRow_of_row {core q : Nat} {r : Row} {rs : List Row} (h : SMap.get [] (s.core core).fr.fly q = r :: rs) :
    arriveRow core q s = s.updCore core (Core.arrive q r rs) := by
  rw [arriveRow, h]
  have hself : State.updCore s core (Core.arrive q r rs) = s.setCore core ((s.core core).arrive q r rs) := rfl
  rw [hself]
  rfl

theorem arrive_arrived {core q : Nat} {r : Row} {rs : List Row} : SMap.get 0 ((s.updCore core (Core.arrive q r rs)).core core).fr.arrived q
    = SMap.get 0 (s.core core).fr.arrived q + 1 := by
  rw [State.core_updCore_self]
  exact SMap.get_put_self _ _ _ _

theorem landPut_sameRest {slice off : Nat} {b : List Byte} (h : landPut s slice off b = .ok t) : t.cores = s.cores ∧ t.cmds = s.cmds := by
  rw [landPut] at h
  split at h
  · cases h
    exact ⟨rfl, rfl⟩
  · cases h

theorem barPut_sameRest {bar v : Nat} : (barPut s bar v).cores = s.cores ∧ (barPut s bar v).cmds = s.cmds := by
  rw [barPut]
  split
  · exact ⟨rfl, rfl⟩
  · split
    next h => exact landPut_sameRest h
    next => exact ⟨rfl, rfl⟩

theorem barWrote_of_ben {c : Cmd} {n : Nat} (h : c.ben = true) : ∃ v, barWrote s c n = barPut s c.bar v := ⟨_, if_pos h⟩

theorem barWrote_of_no_ben {c : Cmd} {n : Nat} (h : c.ben = false) : barWrote s c n = s := if_neg (by rw [h]; decide)

theorem barWrote_sameRest {c : Cmd} {n : Nat} : (barWrote s c n).cores = s.cores ∧ (barWrote s c n).cmds = s.cmds := by
  cases h : c.ben with
  | true =>
    obtain ⟨v, hv⟩ := barWrote_of_ben (s := s) (n := n) h
    rw [hv]
    exact barPut_sameRest
  | false =>
    rw [barWrote_of_no_ben h]
    exact ⟨rfl, rfl⟩

/-- The command without a row among those on their way. -/
def Cmd.delivered (n : Nat) (c : Cmd) : Cmd := { c with sent := c.sent.filter (· != n) }

theorem rowWritten_marksOnly {id n : Nat} {c : Cmd} : MarksOnly (barWrote (s.updCmd id (Cmd.delivered n)) c 128) (rowWritten id c n s) := by
  rw [rowWritten]
  split
  · split
    · exact settleQueue_marksOnly
    · exact .refl
  · exact .refl

theorem rowWritten_fr {id n : Nat} {c : Cmd} (j : Nat) : ((rowWritten id c n s).core j).fr.fly = (s.core j).fr.fly
    ∧ ((rowWritten id c n s).core j).fr.iq = (s.core j).fr.iq ∧ ((rowWritten id c n s).core j).fr.arrived = (s.core j).fr.arrived := by
  obtain ⟨-, hfly, hiq, harr, -⟩ := rowWritten_marksOnly (s := s) (id := id) (n := n) (c := c)
  have hcore := core_of_cores (barWrote_sameRest.1.trans updCmd_cores : (barWrote (s.updCmd id (Cmd.delivered n)) c 128).cores = s.cores)
  exact ⟨by rw [hfly, hcore], by rw [hiq, hcore], by rw [harr, hcore]⟩

theorem rowWritten_sent {id n : Nat} {c : Cmd} (hc : s.cmds.find id = some c) :
    ((rowWritten id c n s).cmds.find id).map Cmd.sent = some (c.sent.filter (· != n)) := by
  rw [rowWritten_marksOnly.sent, barWrote_sameRest.2, updCmd_find, if_pos rfl, hc]
  rfl

theorem rowWritten_land {id n : Nat} {c : Cmd} (hb : c.ben = false) : (rowWritten id c n s).land = s.land := by
  rw [rowWritten_marksOnly.land, barWrote_of_no_ben hb]
  exact updCmd_land

theorem exec_row_arrival_of_unsent {core q a : Nat} {r : Row} {rs : List Row} (h : SMap.get [] (s.core core).fr.fly q = r :: rs)
    (ha : SMap.get 0 (s.core core).fr.arrived q + 1 = a) (hn : senderOf s core q a = none) :
    exec (.row_arrival core q) s = .next (s.updCore core (Core.arrive q r rs)) := by
  show execRowArrival core q s = _
  simp only [execRowArrival, arriveRow_of_row h, arrive_arrived, ha, hn]

theorem exec_row_arrival_of_sent {core q a id : Nat} {c : Cmd} {r : Row} {rs : List Row} (h : SMap.get [] (s.core core).fr.fly q = r :: rs)
    (ha : SMap.get 0 (s.core core).fr.arrived q + 1 = a) (hn : senderOf s core q a = some (id, c)) :
    exec (.row_arrival core q) s = .next (rowWritten id c a (s.updCore core (Core.arrive q r rs))) := by
  show execRowArrival core q s = _
  simp only [execRowArrival, arriveRow_of_row h, arrive_arrived, ha, hn, h, List.isEmpty_cons, Bool.false_eq_true, if_false]

theorem onlyCore_updCore {c : Nat} {f : Core → Core} : onlyCore c s (s.updCore c f) :=
  ⟨rfl, fun j hj => (State.core_updCore s c f j).trans (if_neg hj.symm)⟩

theorem row_arrives {core q a : Nat} {r : Row} {rs : List Row} (h : SMap.get [] (s.core core).fr.fly q = r :: rs)
    (ha : SMap.get 0 (s.core core).fr.arrived q + 1 = a) :
    ∃ t, exec (.row_arrival core q) s = .next t
      ∧ SMap.get [] (t.core core).fr.fly q = rs ∧ SMap.get [] (t.core core).fr.iq q = SMap.get [] (s.core core).fr.iq q ++ [r]
      ∧ SMap.get 0 (t.core core).fr.arrived q = a
      ∧ (senderOf s core q a = none → onlyCore core s t ∧ (t.core core).fr.oq = (s.core core).fr.oq)
      ∧ ∀ id c, senderOf s core q a = some (id, c) → s.cmds.find id = some c →
          (t.cmds.find id).map (·.sent) = some (c.sent.filter (· != a)) ∧ (c.ben = false → ∀ b, t.land.byte b = s.land.byte b) := by
  have hcore : (s.updCore core (Core.arrive q r rs)).core core = (s.core core).arrive q r rs := State.core_updCore_self s core _
  have hfly : SMap.get [] ((s.core core).arrive q r rs).fr.fly q = rs := SMap.get_put_self _ _ _ _
  have hiq : SMap.get [] ((s.core core).arrive q r rs).fr.iq q = SMap.get [] (s.core core).fr.iq q ++ [r] := SMap.get_put_self _ _ _ _
  have harr : SMap.get 0 ((s.core core).arrive q r rs).fr.arrived q = a := (SMap.get_put_self _ _ _ _).trans ha
  cases hsender : senderOf s core q a with
  | none =>
    refine ⟨_, exec_row_arrival_of_unsent h ha hsender, by rw [hcore, hfly], by rw [hcore, hiq], by rw [hcore, harr],
      fun _ => ⟨onlyCore_updCore, congrArg (fun k => k.fr.oq) hcore⟩, fun _ _ h => (Option.some_ne_none _ h.symm).elim⟩
  | some p =>
    obtain ⟨id, c⟩ := p
    obtain ⟨hfly', hiq', harr'⟩ := rowWritten_fr (s := s.updCore core (Core.arrive q r rs)) (id := id) (n := a) (c := c) core
    refine ⟨_, exec_row_arrival_of_sent h ha hsender, by rw [hfly', hcore, hfly], by rw [hiq', hcore, hiq],
      by rw [harr', hcore, harr], fun h => (Option.some_ne_none _ h).elim, fun id' c' hp hc => ?_⟩
    cases hp
    exact ⟨rowWritten_sent hc, fun hb b => by rw [rowWritten_land hb]; rfl⟩

theorem ferryPort : Sys2Proof.Claims.FerryPort := by
  intro s h q i count w hs n f r outq inq fr
  refine ⟨fun hsa => ⟨fun hp hl => ?_, fun hp => ?_, fun hp hl => ?_⟩, exec_frcv_of_empty, fun r rs => exec_frcv_of_row, fun hl => ?_, fun hl => ?_,
    fun hh hrow => ?_, fqd_counts_at_once, exec_fqd_of_unreserved, fun core m r rs hfly => row_arrives hfly rfl⟩
  · exact (exec_fsnd_of_file hsa).trans (congrArg _ (by rw [if_neg (by rw [hp]; decide), if_neg (Nat.not_le.2 hl)]; rfl))
  · exact (exec_fsnd_of_file hsa).trans (congrArg _ (if_pos hp))
  · exact (exec_fsnd_of_file hsa).trans (congrArg _ (by rw [if_neg (by rw [hp]; decide), if_pos hl]))
  · exact congrArg Host.Outcome.next (if_neg (Nat.not_le.2 hl))
  · exact congrArg Host.Outcome.next (if_pos hl)
  · obtain ⟨r0, rest, hq⟩ := hrow
    have hrow : SMap.get [] ((s.marked q.toNat hs.toNat).core s.focus.core).fr.oq q.toNat = .row r0 :: (rest ++ [.mark hs.toNat (s.now0 + 2)]) := by
      rw [marked_oq]
      exact congrArg (· ++ _) hq
    exact (exec_fqd_of_reserved hh).trans (congrArg _ (countMarks_of_row hrow))

/-! ## Deadlines of expectations (R197) -/

/-- Whether an expectation of a queue is due. -/
def Expect.due (q now : Nat) (x : Expect) : Bool := x.q == q && decide (x.deadline ≤ now)

/-- Whether the rows of an expectation have arrived. -/
def Expect.met (f : Fr) (q : Nat) (x : Expect) : Bool := decide (x.target ≤ SMap.get 0 f.arrived q)

/-- The core after the expectations due and met have retired. -/
def Core.expsRetired (q now : Nat) (k : Core) : Core :=
  { k with fr := { k.fr with exps := k.fr.exps.filter (fun x => !(x.due q now && x.met k.fr q)) } }

/-- The core after a hold with cause LATE is asked for. -/
def Core.askLate (k : Core) : Core := { k with ask := some (match k.ask with | some a => min a 1 | none => 1) }

theorem exec_fexp_deadline {core q : Nat} : exec (.fexp_deadline core q) s = .next
    (if (s.core core).fr.exps.any (fun x => x.due q (s.clock core) && !x.met (s.core core).fr q) then
      (s.updCore core (Core.expsRetired q (s.clock core))).updCore core Core.askLate
    else s.updCore core (Core.expsRetired q (s.clock core))) := rfl

theorem any_due_unmet {f : Fr} {q now : Nat} : f.exps.any (fun x => x.due q now && !x.met f q) = true ↔
    ∃ x ∈ f.exps, (x.q = q ∧ x.deadline ≤ now) ∧ ¬ x.target ≤ SMap.get 0 f.arrived q := by
  simp [Expect.due, Expect.met]

theorem mem_expsRetired {q now : Nat} {k : Core} {x : Expect} : x ∈ (k.expsRetired q now).fr.exps ↔
    x ∈ k.fr.exps ∧ ¬ ((x.q = q ∧ x.deadline ≤ now) ∧ x.target ≤ SMap.get 0 k.fr.arrived q) := by
  simp only [Core.expsRetired, List.mem_filter, Expect.due, Expect.met, Bool.not_eq_true', Bool.and_eq_false_iff, beq_eq_false_iff_ne, decide_eq_false_iff_not,
    not_and_or, ne_eq]

theorem expectationDeadlines : Sys2Proof.Claims.ExpectationDeadlines := by
  intro s core q f due met
  refine ⟨_, exec_fexp_deadline, ?_⟩
  by_cases hlate : (s.core core).fr.exps.any (fun x => x.due q (s.clock core) && !x.met (s.core core).fr q) = true
  · rw [if_pos hlate, if_pos (any_due_unmet.1 hlate)]
    have hcore : ((s.updCore core (Core.expsRetired q (s.clock core))).updCore core Core.askLate).core core
        = ((s.core core).expsRetired q (s.clock core)).askLate := by
      rw [State.core_updCore_self, State.core_updCore_self]
    refine ⟨⟨rfl, fun j hj => ?_⟩, fun x => ?_, by rw [hcore]; rfl⟩
    · rw [State.core_updCore, if_neg hj.symm, State.core_updCore, if_neg hj.symm]
    · rw [hcore]
      exact mem_expsRetired
  · rw [if_neg hlate, if_neg (mt any_due_unmet.2 hlate)]
    refine ⟨onlyCore_updCore, fun x => ?_, by rw [State.core_updCore_self]; rfl⟩
    rw [State.core_updCore_self]
    exact mem_expsRetired

/-- Settles O33: a row that arrives leaves its queue of rows under way, and settling the queues and the markers that its write completes touches none of
what the statement speaks of. -/
theorem ferryStation : Obligations.FerryStation := ⟨ferryPort, expectationDeadlines⟩

end Sys2Proof.Machine
end

/-! # Rows to and from the matrix engine (O36; R85, R194, R200 to R215) -/
section
namespace Sys2Proof.Machine
variable {s t : State} {h : Ent} {row : BitVec 7} {slot : BitVec 5} {acc q : BitVec 2}

/-! ## The feeder: what each entry does where nothing keeps it from running -/

theorem exec_mld_of_frozen (hf : s.frozen s.focus.core = true) : exec (.mld h row slot) s = .next (raise (mxFault 5) 0 slot.toNat s) :=
  congrArg Host.Outcome.next (if_pos hf)

theorem exec_mfd_of_frozen (hf : s.frozen s.focus.core = true) : exec (.mfd h) s = .next (raise (mxFault 5) 0 0 s) :=
  congrArg Host.Outcome.next (if_pos hf)

theorem exec_mld_of_unreserved (hf : s.frozen s.focus.core = false) (hs : hasSlot slot.toNat s = false) :
    exec (.mld h row slot) s = .next (raise allotUse 0 slot.toNat s) := by
  show execMld h row slot s = _
  simp only [execMld, hf, hs, Bool.not_false, if_true, Bool.false_eq_true, if_false]

theorem exec_mrs_slot_of_unreserved (hs : hasSlot slot.toNat s = false) : exec (.mrs h row slot acc q 0) s = .next (raise allotUse 0 slot.toNat s) := by
  show execMrs h row slot acc q 0 s = _
  simp [execMrs, hs]

theorem exec_mrs_acc_of_unreserved (ha : hasAcc acc.toNat s = false) : exec (.mrs h row slot acc q 1) s = .next (raise allotUse 0 acc.toNat s) := by
  show execMrs h row slot acc q 1 s = _
  simp [execMrs, ha]

theorem exec_mdr_of_unreserved (ha : hasAcc acc.toNat s = false) : exec (.mdr h row q acc) s = .next (raise allotUse 0 acc.toNat s) := by
  show execMdr h row q acc s = _
  simp [execMdr, ha]

theorem exec_mdr_of_reserved (ha : hasAcc acc.toNat s = true) :
    exec (.mdr h row q acc) s = .next (s.later s.now0 (.mfRead h.dst false true acc.toNat row.toNat q.toNat h.ty s.now0)) := by
  show execMdr h row q acc s = _
  simp [execMdr, ha]

theorem exec_msv_acc : exec (.msv h row slot acc q 1) s = .next (if !hasAcc acc.toNat s then raise allotUse 0 acc.toNat s
    else s.later s.now0 (.mfRead h.dst true true acc.toNat row.toNat q.toNat h.ty s.now0)) := rfl

theorem exec_msv_slot : exec (.msv h row slot acc q 0) s = .next (if !hasSlot slot.toNat s then raise allotUse 0 slot.toNat s
    else s.later s.now0 (.mfRead h.dst true false slot.toNat row.toNat 0 h.ty s.now0)) := rfl

theorem exec_mfd_of_running (hf : s.frozen s.focus.core = false) : exec (.mfd h) s = .next (match mfSource h s with
    | .error e => e
    | .ok (r, s1) => s1.later s.now0 (.aRow r)) := by
  show execMfd h s = _
  simp only [execMfd, hf, Bool.false_eq_true, if_false] <;> rfl

theorem exec_mld_of_running (hf : s.frozen s.focus.core = false) (hs : hasSlot slot.toNat s = true) :
    exec (.mld h row slot) s = .next (match mfSource h s with
      | .error e => e
      | .ok (r, s1) => s1.later (s.now0 + 1) (.slotRow slot.toNat row.toNat r)) := by
  show execMld h row slot s = _
  simp only [execMld, hf, hs, Bool.not_true, Bool.false_eq_true, if_false] <;> rfl

theorem exec_mrs_slot_of_reserved (hs : hasSlot slot.toNat s = true) :
    exec (.mrs h row slot acc q 0) s = .next (match mfSource h s with
      | .error e => e
      | .ok (r, s1) => s1.later (s.now0 + 1) (.slotRaw slot.toNat row.toNat r)) := by
  show execMrs h row slot acc q 0 s = _
  simp [execMrs, hs] <;> rfl

theorem exec_mrs_acc_of_reserved (ha : hasAcc acc.toNat s = true) :
    exec (.mrs h row slot acc q 1) s = .next (match mfSource h s with
      | .error e => e
      | .ok (r, s1) => if r.tag = .f32 ∨ r.tag = .i32 then s1.later (s.now0 + 1) (.accRaw acc.toNat row.toNat q.toNat r)
          else raise (mxFault 0) h.sa.code acc.toNat s1) := by
  show execMrs h row slot acc q 1 s = _
  simp [execMrs, ha] <;> rfl

/-! ## The source row (R85) -/

section
variable {a : Src} {s1 : State} (ha : readOpnd h.sa h.imm s = .ok (a, s1))
include ha

theorem mfSource_of_bounded (hb : fmtBounded (a.toRow h.ty).tag = true) : mfSource h s = .error (raise (typeFault 0) h.sa.code 0 s1) := by
  simp only [mfSource, ha, hb, if_true]

theorem mfSource_of_exact (hb : fmtBounded (a.toRow h.ty).tag = false) : mfSource h s = .ok (a.toRow h.ty, s1) := by
  simp only [mfSource, ha, hb, Bool.false_eq_true, if_false]

end

theorem matrixFeeder : Sys2Proof.Claims.MatrixFeeder := by
  intro s h row slot acc q still reads
  refine ⟨fun a s1 ha => ⟨fun hb => ?_, fun hb => ?_⟩, fun hacc => ⟨exec_mdr_of_reserved hacc, ?_⟩, fun hslot => ?_,
    fun hacc => ⟨exec_mdr_of_unreserved hacc, ?_, exec_mrs_acc_of_unreserved hacc⟩,
    fun hslot => ⟨fun hf => exec_mld_of_unreserved hf hslot, ?_, exec_mrs_slot_of_unreserved hslot⟩,
    fun hf => ⟨exec_mld_of_frozen hf, exec_mfd_of_frozen hf⟩⟩
  · have hsrc := mfSource_of_exact ha hb
    refine ⟨fun hf => ?_, fun hf hslot => ?_, fun hslot => ?_, fun hacc => ⟨fun htag => ?_, fun htag => ?_⟩⟩
    · rw [exec_mfd_of_running hf, hsrc]
    · rw [exec_mld_of_running hf hslot, hsrc]
    · rw [exec_mrs_slot_of_reserved hslot, hsrc]
    · rw [exec_mrs_acc_of_reserved hacc, hsrc]
      exact congrArg Host.Outcome.next (if_pos htag)
    · rw [exec_mrs_acc_of_reserved hacc, hsrc]
      exact congrArg Host.Outcome.next (if_neg htag)
  · have hsrc := mfSource_of_bounded ha hb
    refine ⟨fun hf => ?_, fun hslot => ⟨fun hf => ?_, ?_⟩, fun hacc => ?_⟩
    · rw [exec_mfd_of_running hf, hsrc]
    · rw [exec_mld_of_running hf hslot, hsrc]
    · rw [exec_mrs_slot_of_reserved hslot, hsrc]
    · rw [exec_mrs_acc_of_reserved hacc, hsrc]
  · rw [exec_msv_acc, hacc]
    rfl
  · rw [exec_msv_slot, hslot]
    rfl
  · rw [exec_msv_acc, hacc]
    rfl
  · rw [exec_msv_slot, hslot]
    rfl

/-! ## Updates and completions that are due (R204, R205) -/

theorem onlyCore_setCore {c : Nat} {k : Core} : onlyCore c s (s.setCore c k) :=
  ⟨rfl, fun j hj => (State.core_setCore s c k j).trans (if_neg hj.symm)⟩

theorem setCore_hsemChange {c : Nat} {k : Core} {ch : HsemChange} :
    hsemChange (s.setCore c k) c ch = s.setCore c { k with hsemPend := k.hsemPend ++ [ch] } := by
  rw [hsemChange, State.updCore, State.setCore_setCore, State.core_setCore_self]

/-- The semaphore change with which a completed command signals. -/
def Pend.signal (p : Pend) : Option HsemChange :=
  match p.eff with
  | .mxDone true h n => some ⟨p.due + 1, h, n, none⟩
  | _ => none

/-- A completed command signals where it says so. -/
def signalDone (c : Nat) (s : State) (p : Pend) : State :=
  match p.signal with
  | some ch => hsemChange s c ch
  | none => s

theorem signalDone_setCore {c : Nat} {k : Core} {p : Pend} :
    signalDone c (s.setCore c k) p = s.setCore c { k with hsemPend := k.hsemPend ++ p.signal.toList } := by
  rw [signalDone]
  cases p.signal with
  | some ch => exact setCore_hsemChange
  | none => simp

theorem foldl_signalDone {c : Nat} {l : List Pend} {k : Core} :
    l.foldl (signalDone c) (s.setCore c k) = s.setCore c { k with hsemPend := k.hsemPend ++ l.filterMap Pend.signal } := by
  induction l generalizing k with
  | nil => simp
  | cons p l ih =>
    rw [List.foldl_cons, signalDone_setCore, ih]
    cases hp : p.signal <;> simp [hp]

/-- Whether an effect is the completion of a matrix command. -/
def Eff.isMxDone : Eff → Bool
  | .mxDone .. => true
  | _ => false

/-- The core after the completions due have been taken and have signalled. -/
def Core.mxCompleted (clock : Nat) (k : Core) : Core :=
  { k with
    pend := k.pend.filter (fun p => !(decide (p.due ≤ clock) && p.eff.isMxDone))
    hsemPend := k.hsemPend ++ (k.pend.filter (fun p => decide (p.due ≤ clock) && p.eff.isMxDone)).filterMap Pend.signal }

theorem exec_matrix_command_complete {c : Nat} :
    exec (.matrix_command_complete c) s = .next (s.setCore c ((s.core c).mxCompleted (s.clock c))) := by
  have hfold : execMatrixCommandComplete c s = .next (((s.core c).pend.filter (fun p => decide (p.due ≤ s.clock c) && p.eff.isMxDone)).foldl (signalDone c)
      (s.setCore c { s.core c with pend := (s.core c).pend.filter (fun p => !(decide (p.due ≤ s.clock c) && p.eff.isMxDone)) })) := by
    rw [execMatrixCommandComplete, Core.takeDue]
    refine congrArg Host.Outcome.next (congrFun (congrArg (fun f => List.foldl f _) (funext₂ fun t p => ?_)) _)
    rw [signalDone, Pend.signal]
    split <;> simp_all
  exact hfold.trans (congrArg _ foldl_signalDone)

theorem exec_matrix_update_land {c : Nat} : exec (.matrix_update_land c) s = .next (s.setCore c { s.core c with
    pend := (s.core c).pend.filter (fun p => !(decide (p.due ≤ s.clock c) && p.eff.isMxUpdate))
    mx := ((s.core c).pend.filter (fun p => decide (p.due ≤ s.clock c) && p.eff.isMxUpdate)).foldl (fun m p => m.landUpdate p.eff) (s.core c).mx }) := rfl

/-! ## What one update writes (R205, R208, R211, R212) -/

theorem acc_updAcc {x : Mx} {n : Nat} {f : Acc → Acc} : SMap.get ({} : Acc) (x.updAcc n f).accs n = f (x.acc n) := SMap.get_put_self _ _ _ _

theorem accClear_lands {x : Mx} {acc : Nat} {isInt : Bool} : SMap.get ({} : Acc) (x.landUpdate (.accClear acc isInt)).accs acc = ⟨isInt, [], []⟩ := acc_updAcc

theorem accUpd_lands {x : Mx} {acc row : Nat} {isInt keep whole poison : Bool} {cols : List (Nat × List Val)} :
    SMap.get ({} : Acc) (x.landUpdate (.accUpd acc row isInt keep whole cols poison)).accs acc = (x.acc acc).update row isInt keep whole cols poison :=
  acc_updAcc

theorem update_poison {a : Acc} {row n : Nat} {isInt keep whole poison : Bool} {cols : List (Nat × List Val)} :
    SMap.get false (a.update row isInt keep whole cols poison).poison n
      = if row = n then (if whole && !keep then poison else SMap.get false a.poison row || poison) else SMap.get false a.poison n := SMap.get_set _ _ _ _ _

theorem update_elems_of_one {a : Acc} {row col i : Nat} {isInt keep whole poison : Bool} {sums : List Val} :
    SMap.get 0 (a.update row isInt keep whole [(col, sums)] poison).elems i
      = if 128 * row + col = i then accElem isInt (if keep then a.elem row col else 0) sums else SMap.get 0 a.elems i := SMap.get_set _ _ _ _ _

/-! ## Rows of MF land (R201, R202) -/

theorem SMap.get_foldl_set_range {α : Type} [DecidableEq α] (d : α) (m : SMap α) (b n : Nat) (v : Nat → α) (j : Nat) :
    SMap.get d ((List.range n).foldl (fun e i => SMap.set d e (b + i) (v i)) m) j = if b ≤ j ∧ j < b + n then v (j - b) else SMap.get d m j := by
  induction n with
  | zero => simp
  | succ n ih =>
    rw [List.range_succ, List.foldl_append, List.foldl_cons, List.foldl_nil, SMap.get_set, ih]
    by_cases hj : b + n = j
    · rw [if_pos hj, if_pos (by omega), ← hj, Nat.add_sub_cancel_left]
    · rw [if_neg hj]
      exact if_congr (by omega) rfl rfl

/-- A row of a slot is replaced. -/
def Mx.putRow (u n : Nat) (r : Row) (m : Mx) : Mx := m.updSlot u (fun x => { x with rows := x.rows.put n r })

/-- A quarter of an accumulator's row is replaced by a raw row. -/
def Acc.putQuarter (n q : Nat) (r : Row) (a : Acc) : Acc :=
  { a with
    isInt := r.tag == .i32
    elems := (List.range 32).foldl (fun e i => SMap.set 0 e (128 * n + 32 * q + i) (.ofNat 32 (fieldAt 32 r.data i))) a.elems
    poison := SMap.set false a.poison n r.poison }

theorem putRow_spec {u n : Nat} {r : Row} {t : State} (ht : t = s.updMx (Mx.putRow u n r)) :
    let slot := fun (x : Core) => SMap.get ({} : Slot) x.mx.slots u
    (∀ m, SMap.get (Row.zero .f32) (slot t.fcore).rows m = if m = n then r else SMap.get (Row.zero .f32) (slot s.fcore).rows m)
      ∧ (slot t.fcore).claimed = (slot s.fcore).claimed ∧ (∀ v, v ≠ u → SMap.get ({} : Slot) t.fcore.mx.slots v = SMap.get ({} : Slot) s.fcore.mx.slots v)
      ∧ onlyCore s.focus.core s t ∧ { t.fcore with mx := { t.fcore.mx with slots := s.fcore.mx.slots } } = s.fcore := by
  subst ht
  intro slot
  have hslot : slot (s.updMx (Mx.putRow u n r)).fcore = { slot s.fcore with rows := (slot s.fcore).rows.put n r } := by
    simp only [slot, fcore_updMx]
    exact SMap.get_put_self _ _ _ _
  refine ⟨fun m => ?_, by rw [hslot], fun v hv => ?_, onlyCore_updF _, by rw [fcore_updMx]; rfl⟩
  · rw [hslot, SMap.get_put]
    exact if_congr eq_comm rfl rfl
  · rw [fcore_updMx]
    exact SMap.get_put_ne _ _ _ _ _ hv.symm

theorem putQuarter_spec {n q acc : Nat} {r : Row} {t : State} (ht : t = s.updMx (·.updAcc acc (Acc.putQuarter n q r))) (htag : r.tag = .f32 ∨ r.tag = .i32) :
    let x := SMap.get ({} : Acc) s.fcore.mx.accs acc
    let y := SMap.get ({} : Acc) t.fcore.mx.accs acc
    y.isInt = decide (r.tag = .i32) ∧ (∀ m, SMap.get false y.poison m = if m = n then r.poison else SMap.get false x.poison m)
      ∧ (∀ j, j < 32 → (SMap.get 0 y.elems (128 * n + 32 * q + j)).toNat = r.code j)
      ∧ (∀ j, j < 128 * n + 32 * q ∨ 128 * n + 32 * q + 32 ≤ j → SMap.get 0 y.elems j = SMap.get 0 x.elems j)
      ∧ onlyCore s.focus.core s t ∧ { t.fcore with mx := { t.fcore.mx with accs := s.fcore.mx.accs } } = s.fcore := by
  subst ht
  intro x y
  have hy : y = x.putQuarter n q r := by
    simp only [y, fcore_updMx]
    exact acc_updAcc
  have hbits : fmtBits r.tag = 32 := by
    obtain htag | htag := htag <;> rw [htag] <;> rfl
  refine ⟨by rw [hy]; rfl, fun m => ?_, fun j hj => ?_, fun j hj => ?_, onlyCore_updF _, by rw [fcore_updMx]; rfl⟩
  · rw [hy]
    exact (SMap.get_set _ _ _ _ _).trans (if_congr eq_comm rfl rfl)
  · rw [hy]
    refine (congrArg BitVec.toNat ((SMap.get_foldl_set_range _ _ _ _ _ _).trans (if_pos (by omega)))).trans ?_
    rw [Nat.add_sub_cancel_left, BitVec.toNat_ofNat, Row.code, hbits]
    exact Nat.mod_eq_of_lt (Nat.mod_lt _ (Nat.two_pow_pos 32))
  · rw [hy]
    exact (SMap.get_foldl_set_range _ _ _ _ _ _).trans (if_neg (by omega))

theorem landEff_mfRead {d which n q issue : Nat} {o : Origin} {dst : Opnd} {fromAcc : Bool} {ty : Fmt} :
    (landEff ⟨d, o, .mfRead dst true fromAcc which n q ty issue⟩ s).fcore.pend = s.fcore.pend ++ [⟨s.now0 + 3, s.focus.org, .result 8 dst
      (mfReadRow s.fcore.mx true fromAcc which n q ty (s.fcore.stream 8).rd).1 issue⟩] := by
  simp only [landEff, fcore_later, State.fcore_updF]
  rfl

theorem mfReadRow_acc_spec {m : Mx} {which n q : Nat} {ty : Fmt} {rd : Rounding} :
    let x := SMap.get ({} : Acc) m.accs which
    let r := (mfReadRow m true true which n q ty rd).1
    r.tag = (if x.isInt then .i32 else .f32) ∧ r.side = 0 ∧ r.poison = SMap.get false x.poison n
      ∧ ∀ j, j < 32 → r.code j = (SMap.get 0 x.elems (128 * n + 32 * q + j)).toNat := by
  intro x r
  have hrow : ∀ ty : Fmt, fmtMx ty = false → fmtElems ty = 32 → fmtBits ty = 32 →
      let r := rowOf ty ((List.range 32).map (fun i => (x.elem n (32 * q + i)).toNat)) [] (SMap.get false x.poison n)
      r.tag = ty ∧ r.side = 0 ∧ r.poison = SMap.get false x.poison n ∧ ∀ j, j < 32 → r.code j = (SMap.get 0 x.elems (128 * n + 32 * q + j)).toNat := by
    intro ty hmx helems hbits r
    obtain ⟨htag, hside, hpoison⟩ := rowOf_plain (ty := ty) (cs := (List.range 32).map (fun i => (x.elem n (32 * q + i)).toNat)) (ss := [])
      (p := SMap.get false x.poison n) hmx
    refine ⟨htag, hside, hpoison, fun j hj => ?_⟩
    rw [rowOf_code (by simp [helems]), List.getD_eq_getElem _ _ (by simpa using hj), List.getElem_map, List.getElem_range, hbits, Acc.elem, ← Nat.add_assoc]
    exact Nat.mod_eq_of_lt (BitVec.isLt _)
  have hr : r = rowOf (if x.isInt then .i32 else .f32) ((List.range 32).map (fun i => (x.elem n (32 * q + i)).toNat)) [] (SMap.get false x.poison n) := rfl
  rw [hr]
  cases x.isInt with
  | true => exact hrow .i32 rfl rfl rfl
  | false => exact hrow .f32 rfl rfl rfl

theorem landEff_slotRow_of_claimed {d u n : Nat} {o : Origin} {r : Row} (hc : (s.fcore.mx.slot u).claimed = true) :
    landEff ⟨d, o, .slotRow u n r⟩ s = s.updMx (Mx.putRow u n r) := if_pos hc

theorem landEff_slotRow_of_unclaimed {d u n : Nat} {o : Origin} {r : Row} (hc : (s.fcore.mx.slot u).claimed = false) :
    landEff ⟨d, o, .slotRow u n r⟩ s = raise (mxFault 3) 0 u s := if_neg (by rw [hc]; decide)

theorem matrixLandings : Sys2Proof.Claims.MatrixLandings := by
  intro s core k due isDone
  refine ⟨⟨_, exec_matrix_update_land, onlyCore_setCore, ?_, ?_, ?_⟩, ⟨_, exec_matrix_command_complete, onlyCore_setCore, ?_, ?_, ?_⟩,
    fun x acc isInt => ?_, fun x acc row isInt keep whole poison sums col _ => ?_, fun o d u n q acc row => ?_⟩
  · rw [State.core_setCore_self]
  · rw [State.core_setCore_self]
  · rw [State.core_setCore_self]
  · rw [State.core_setCore_self]
    rfl
  · rw [State.core_setCore_self]
    rfl
  · rw [State.core_setCore_self]
    rfl
  · intro y
    have hy : y = ⟨isInt, [], []⟩ := accClear_lands
    rw [hy]
    exact ⟨rfl, fun _ => rfl, fun _ => rfl⟩
  · intro old y
    have hy : y = old.update row isInt keep whole [(col, sums)] poison := accUpd_lands
    rw [hy]
    refine ⟨rfl, update_poison.trans (if_pos rfl), fun n hn => update_poison.trans (if_neg hn.symm), fun i => update_elems_of_one.trans ?_⟩
    by_cases hi : 128 * row + col = i
    · rw [if_pos hi, if_pos hi.symm, ← hi]
      rfl
    · rw [if_neg hi, if_neg (Ne.symm hi)]
  · exact ⟨putRow_spec rfl, fun hc => putRow_spec (landEff_slotRow_of_claimed hc), landEff_slotRow_of_unclaimed, putQuarter_spec rfl, rfl,
      fun dst ty issue => ⟨⟨_, rfl, landEff_mfRead⟩, _, _, rfl, landEff_mfRead, mfReadRow_acc_spec⟩⟩

/-- Settles O36: the entries of MF branch on the allotment, the freeze and the source's format; what lands is read back through the maps of slots and
accumulators. -/
theorem matrixRows : Obligations.MatrixRows := ⟨matrixFeeder, matrixLandings⟩

end Sys2Proof.Machine
end

/-! # What happens to crews and their cores (O46; R21, R29, R32 to R35, R132, R163, R230) -/
section
namespace Sys2Proof.Machine
variable {s t : State}

/-! ## Results reach their stations (R163, R230) -/

theorem landSel_of_unselected {c : Nat} {sel : Eff → Bool} (h : ∀ p ∈ (s.core c).pend, sel p.eff = false) :
    landSel c sel s = s.setCore c (s.core c) := by
  have hnone : (s.core c).pend.filter (fun p => decide (p.due ≤ s.clock c) && sel p.eff) = [] :=
    List.filter_eq_nil_iff.2 fun p hp => by simp [h p hp]
  have hall : (s.core c).pend.filter (fun p => !(decide (p.due ≤ s.clock c) && sel p.eff)) = (s.core c).pend :=
    List.filter_eq_self.2 fun p hp => by simp [h p hp]
  simp only [landSel, Core.takeDue, hnone, hall, List.foldl_nil]

theorem landSel_setCore_of_unselected {c : Nat} {k : Core} {sel : Eff → Bool} (h : ∀ p ∈ k.pend, sel p.eff = false) :
    landSel c sel (s.setCore c k) = s.setCore c k := by
  rw [landSel_of_unselected (by rwa [State.core_setCore_self]), State.setCore_setCore, State.core_setCore_self]

theorem landSel_of_single {c : Nat} {sel : Eff → Bool} {p : Pend} (hp : (s.core c).pend = [p]) (hdue : p.due ≤ s.clock c) (hsel : sel p.eff = true) :
    landSel c sel s = landAs c p.eff.unit p.org (landEff p) (s.setCore c { s.core c with pend := [] }) := by
  simp [landSel, Core.takeDue, hp, hdue, hsel]

/-- Whether an effect that is not of XB lands in a phase. -/
def Eff.inPhase (ph : Nat) (e : Eff) : Bool := !e.isXb && e.phase == ph

/-- What is due on a core in one phase lands. -/
def landPhase (c : Nat) (s : State) (ph : Nat) : State := landSel c (Eff.inPhase ph) s

theorem foldl_landPhase_of_unselected {c : Nat} {k : Core} {l : List Nat} (h : ∀ ph ∈ l, ∀ p ∈ k.pend, p.eff.inPhase ph = false) :
    l.foldl (landPhase c) (s.setCore c k) = s.setCore c k := by
  induction l with
  | nil => rfl
  | cons ph l ih =>
    rw [List.foldl_cons, landPhase, landSel_setCore_of_unselected (h ph List.mem_cons_self), ih fun ph' hph => h ph' (List.mem_cons_of_mem _ hph)]

/-- The state with a core and one of its stations in focus, as an effect of the core lands. -/
def State.landing (s : State) (c stn : Nat) (o : Origin) : State := { s with focus := { s.focus with core := c, fw := false, stn := stn, org := o } }

theorem landAs_of_updF {c stn : Nat} {o : Origin} {f : State → State} {g : Core → Core} (h : f (s.landing c stn o) = (s.landing c stn o).updF g) :
    landAs c stn o f s = s.setCore c (g (s.core c)) := by
  show { f (s.landing c stn o) with focus := s.focus } = _
  rw [h]
  rfl

theorem clock_setCore {c : Nat} {k : Core} (h : k.crew = (s.core c).crew) : (s.setCore c k).clock c = s.clock c := by
  rw [State.clock, crewOf_setCore s c k c h]
  rfl

/-- The core after the one result due has landed. -/
def Core.resultTaken (k : Core) (stn i now issue : Nat) (row : Row) : Core := ({ k with pend := [] } : Core).resultLanded stn i now issue row

section
variable {c stn issue due : Nat} {i : BitVec 4} {row : Row} {org : Origin} (hp : (s.core c).pend = [⟨due, org, .result stn (.ofr i) row issue⟩])
  (hdue : due ≤ s.clock c) (hu : (s.core c).uses = []) (hf : (s.core c).faulted = none)
include hp hdue hu hf

theorem landSel_of_result {sel : Eff → Bool} (hsel : sel (.result stn (.ofr i) row issue) = true) :
    landSel c sel s = s.setCore c ((s.core c).resultTaken stn i.toNat (s.clock c) issue row) := by
  let s1 := s.setCore c { s.core c with pend := [] }
  have hcore : (s1.landing c stn org).fcore = { s.core c with pend := [] } := State.core_setCore_self s c _
  have hnow : (s1.landing c stn org).now0 = s.clock c := clock_setCore rfl
  have hland : landEff ⟨due, org, .result stn (.ofr i) row issue⟩ (s1.landing c stn org)
      = (s1.landing c stn org).updF (fun k => k.resultLanded stn i.toNat (s.clock c) issue row) := by
    rw [← hnow]
    exact landResult_of_file (by rw [hcore, hf]) (by rw [hcore, hu]; rfl)
  rw [landSel_of_single hp hdue hsel]
  refine (landAs_of_updF hland).trans ?_
  rw [State.setCore_setCore, State.core_setCore_self]
  rfl

theorem exec_xb_row_put_of_result (hx : stn = 11) :
    exec (.xb_row_put c) s = .next (s.setCore c ((s.core c).resultTaken stn i.toNat (s.clock c) issue row)) :=
  congrArg Host.Outcome.next (landSel_of_result hp hdue hu hf (beq_iff_eq.2 hx))

theorem landPhase_of_result (hx : stn ≠ 11) :
    landPhase c (s.setCore c (s.core c)) 3 = s.setCore c ((s.core c).resultTaken stn i.toNat (s.clock c) issue row) := by
  have hself := State.core_setCore_self s c (s.core c)
  have hclock : (s.setCore c (s.core c)).clock c = s.clock c := clock_setCore rfl
  have hsel : Eff.inPhase 3 (.result stn (.ofr i) row issue) = true := by
    rw [Eff.inPhase, Eff.isXb, beq_eq_false_iff_ne.2 hx]
    rfl
  rw [landPhase, landSel_of_result (s := s.setCore c (s.core c)) (by rw [hself, hp]) (by rw [hclock]; exact hdue) (by rw [hself, hu]) (by rw [hself, hf]) hsel,
    State.setCore_setCore, hself, hclock]

/-- The phases before a result's leave it waiting, its own lands it, and those after find nothing. -/
theorem exec_station_result_land_of_result (hx : stn ≠ 11) :
    exec (.station_result_land c) s = .next (s.setCore c ((s.core c).resultTaken stn i.toNat (s.clock c) issue row)) := by
  have hearly : ∀ ph ∈ [0, 1, 2], ∀ p ∈ (s.core c).pend, p.eff.inPhase ph = false := fun ph hph p hmem => by
    rw [hp, List.mem_singleton] at hmem
    rw [hmem, Eff.inPhase, Eff.isXb, beq_eq_false_iff_ne.2 hx]
    fin_cases hph <;> rfl
  have hfirst : landPhase c s 0 = s.setCore c (s.core c) := landSel_of_unselected (hearly 0 (by decide))
  have hbefore := foldl_landPhase_of_unselected (s := s) (c := c) (l := [1, 2]) fun ph hph => hearly ph (List.mem_cons_of_mem _ hph)
  have hafter := foldl_landPhase_of_unselected (s := s) (c := c) (k := (s.core c).resultTaken stn i.toNat (s.clock c) issue row) (l := [4, 5, 6, 7])
    fun _ _ _ h => (List.not_mem_nil h).elim
  have hrange : List.range 8 = 0 :: ([1, 2] ++ 3 :: [4, 5, 6, 7]) := rfl
  have hexec : exec (.station_result_land c) s = .next ((List.range 8).foldl (landPhase c) s) := rfl
  rw [hexec, hrange, List.foldl_cons, hfirst, List.foldl_append, hbefore, List.foldl_cons, landPhase_of_result hp hdue hu hf hx, hafter]

end

theorem resultsReachStations : Sys2Proof.Claims.ResultsReachStations := by
  intro s c stn i row issue due org k x hp hdue hu hf lands
  have hlands : ∀ i0, exec i0 s = .next (s.setCore c (k.resultTaken stn i.toNat (s.clock c) issue row)) → lands i0 := by
    intro i0 hexec
    have hstn : ∀ u, SMap.get ({} : Station) (k.resultTaken stn i.toNat (s.clock c) issue row).stns u
        = if stn = u then ({ x with ofs := x.ofs.put i.toNat row } : Station).latched (s.clock c) issue row else SMap.get {} k.stns u :=
      fun u => stn_resultLanded _ stn i.toNat (s.clock c) issue row u
    have hself := (hstn stn).trans (if_pos rfl)
    refine ⟨_, hexec, onlyCore_setCore, ?_⟩
    rw [State.core_setCore_self]
    refine ⟨rfl, rfl, fun u hu => (hstn u).trans (if_neg hu.symm), fun z => ?_, fun j z hj => ?_, fun hlt => ?_⟩
    · rw [hself, Station.latched_ofs]
      exact SMap.get_put_self _ _ _ _
    · rw [hself, Station.latched_ofs]
      exact SMap.get_put_ne _ _ _ _ _ hj.symm
    · rw [hself, Station.latched, if_pos (Or.inl hlt)]
      exact ⟨rfl, rfl⟩
  exact ⟨fun hx => hlands _ (exec_xb_row_put_of_result hp hdue hu hf hx), fun hx => hlands _ (exec_station_result_land_of_result hp hdue hu hf hx)⟩

/-! ## Holds end (R32, R35) -/

theorem recordsOnly.setCrews {cs : SMap Crew} (h : recordsOnly s t) : recordsOnly { s with crews := cs } { t with crews := cs } :=
  ⟨congrArg (fun u : State => { u with crews := cs }) h.1, h.2⟩

/-- What a hold that ends leaves: a record or none, and a crew without a hold. -/
theorem endHold_of_hold {k cause n : Nat} {w : Crew} (hw : s.crew k = some w) (hh : w.hold = some (cause, n)) :
    ∃ s1, endHold k s = { s1 with crews := s.crews.put k { w with hold := none } } ∧ recordFrame s s1 ∧ (w.part < 16 → recordsOnly s s1)
      ∧ ((s.core w.leader).holdLog = false ∨ n < 1024 → s1 = s) := by
  let s1 := if (s.core w.leader).holdLog && decide (1024 ≤ n) then
    record s w.leader ⟨0x40, cause, 0⟩ false false (s.core w.leader).tag w.clock (some w.part) (some w.leader) [.ofNat 64 cause, .ofNat 64 n] else s
  have hframe : recordFrame s s1 := endHold_record
  have hcrew : s1.crew k = some w := by rw [State.crew, hframe.crews]; exact hw
  have hend : endHold k s = s1.updCrew k (fun w => { w with hold := none }) := by
    simp only [endHold, hw, hh]
    rfl
  refine ⟨s1, ?_, hframe, fun hpart => ?_, fun hno => if_neg ?_⟩
  · rw [hend, updCrew_of_crew hcrew, hframe.crews]
  · simp only [s1]
    split
    · exact record_recordsOnly hpart
    · exact ⟨rfl, fun _ _ _ => rfl⟩
  · simp only [Bool.and_eq_true, decide_eq_true_eq]
    rintro ⟨hlog, hn⟩
    obtain hno | hno := hno
    · exact absurd (hlog.symm.trans hno) (by decide)
    · omega

theorem endHold_crew {k : Nat} {w : Crew} (hw : s.crew k = some w) : ∃ h, (endHold k s).crew k = some { w with hold := h } := by
  cases hh : w.hold with
  | none =>
    have hend : endHold k s = s := by simp only [endHold, hw, hh]
    exact ⟨none, by rw [hend, hw, ← hh]⟩
  | some p =>
    obtain ⟨s1, hend, -⟩ := endHold_of_hold hw hh
    refine ⟨none, ?_⟩
    rw [hend]
    exact (SMap.find_put _ _ _ _).trans (if_pos rfl)

theorem holdsEnd : Sys2Proof.Claims.HoldsEnd := by
  intro s k cause n w hw hh hpart
  obtain ⟨s1, hend, hframe, hrec, hnone⟩ := endHold_of_hold hw hh
  refine ⟨_, congrArg Host.Outcome.next hend, (SMap.find_put _ _ _ _).trans (if_pos rfl), fun j hj => (SMap.find_put _ _ _ _).trans (if_neg hj.symm),
    (hrec hpart).setCrews, fun hno => ?_⟩
  rw [hnone hno]

/-! ## Limits of holds and of crew clocks (R21, R35) -/

/-- A crew that has been stopped: a status noted before stays, and its clock and members are as they were. -/
def stoppedFrom (w : Crew) (m : Status) (w' : Crew) : Prop := w'.stopped = some (w.stopped.getD m) ∧ w'.clock = w.clock ∧ w'.members = w.members

theorem stopCrew_crew {k : Nat} {w : Crew} {m : Status} (hw : s.crew k = some w) : ∃ w', (stopCrew s k m).crew k = some w' ∧ stoppedFrom w m w' := by
  cases hst : w.stopped with
  | some m0 =>
    have hstop : stopCrew s k m = s := by
      simp only [stopCrew, hw, hst, Option.isSome_some, if_true]
    exact ⟨w, by rw [hstop, hw], by simp [stoppedFrom, hst]⟩
  | none =>
    obtain ⟨h, hcrew⟩ := endHold_crew hw
    have hstop : stopCrew s k m = markRec ((endHold k s).updCrew k (fun w => { w with stopped := some m })) w.record m := by
      simp only [stopCrew, hw, hst, Option.isSome_none, Bool.false_eq_true, if_false]
    refine ⟨{ w with hold := h, stopped := some m }, ?_, by simp [stoppedFrom, hst]⟩
    rw [hstop, markRec_crew, updCrew_of_crew hcrew]
    exact (SMap.find_put _ _ _ _).trans (if_pos rfl)

theorem raiseWith_stops {f : HwFault} {a0 a1 a2 a3 : Word} {k : Nat} {w : Crew} (hf : s.fcore.faulted = none) (hk : s.fcore.crew = some k)
    (hw : s.crew k = some w) : ∃ w', (raiseWith f a0 a1 a2 a3 s).crew k = some w' ∧ stoppedFrom w .faulted w' := by
  have hof : s.crewOf s.focus.core = some w := by
    rw [State.crewOf]
    exact (congrArg (Option.bind · s.crew) hk).trans hw
  have hcore : ¬ (s.core s.focus.core).faulted.isSome := by
    rw [show (s.core s.focus.core).faulted = none from hf]
    decide
  have hk' : (s.core s.focus.core).crew = some k := hk
  rw [raiseWith]
  simp only [hcore, hk', hof]
  refine stopCrew_crew ?_
  exact (congrArg (SMap.find · k) record_recordFrame.crews).trans hw

theorem raiseWith_core_faulted {f : HwFault} {a0 a1 a2 a3 : Word} {c : Nat} (hc : s.focus.core = c) (h : (s.core c).faulted = none) :
    ((raiseWith f a0 a1 a2 a3 s).core c).faulted = some f := by
  subst hc
  have hf := raiseWith_faulted (f := f) (a0 := a0) (a1 := a1) (a2 := a2) (a3 := a3) h
  rwa [State.fcore, raiseWith_focus] at hf

theorem crewRaise_stops {f : HwFault} {k : Nat} {w : Crew} (hw : s.crew k = some w) (hk : (s.core w.leader).crew = some k)
    (hf : (s.core w.leader).faulted = none) :
    ((crewRaise k f s).core w.leader).faulted = some f ∧ ∃ w', (crewRaise k f s).crew k = some w' ∧ stoppedFrom w .faulted w' := by
  have hraise : crewRaise k f s = landAs w.leader 0 {} (raise f 0 0) s := by simp only [crewRaise, hw]
  rw [hraise]
  exact ⟨raiseWith_core_faulted (s := s.landing w.leader 0 {}) rfl hf, raiseWith_stops (s := s.landing w.leader 0 {}) hf hk hw⟩

theorem crewLimits : Sys2Proof.Claims.CrewLimits := by
  intro s k w hw hk lim stops
  refine ⟨fun cause n hh => ⟨fun hno => ?_, fun hlim hn hf => ?_⟩, fun hlt => ?_, fun hge hf => ?_⟩
  · show execHoldLimit k s = _
    simp only [execHoldLimit, hw, hh]
    exact congrArg Host.Outcome.next (if_neg (by omega))
  · obtain ⟨s1, hend, hframe, -⟩ := endHold_of_hold hw hh
    have hcores : ∀ j, (endHold k s).core j = s.core j := core_of_cores endHold_cores
    have hcrew : (endHold k s).crew k = some { w with hold := none } := by
      rw [hend]
      exact (SMap.find_put _ _ _ _).trans (if_pos rfl)
    have hexec : exec (.hold_limit k) s = .next (crewRaise k (timing 0) (endHold k s)) := by
      show execHoldLimit k s = _
      simp only [execHoldLimit, hw, hh]
      exact congrArg Host.Outcome.next (if_pos ⟨hlim, hn⟩)
    obtain ⟨hfaulted, w', hw', hstopped⟩ := crewRaise_stops (f := timing 0) hcrew (by rw [hcores]; exact hk) (by rw [hcores]; exact hf)
    exact ⟨_, hexec, hfaulted, w', hw', hstopped⟩
  · show execClockEnd k s = _
    simp only [execClockEnd, hw]
    exact congrArg Host.Outcome.next (if_neg (by omega))
  · have hexec : exec (.clock_end k) s = .next (crewRaise k (timing 8) s) := by
      show execClockEnd k s = _
      simp only [execClockEnd, hw]
      exact congrArg Host.Outcome.next (if_pos (by omega))
    obtain ⟨hfaulted, w', hw', hstopped⟩ := crewRaise_stops (f := timing 8) hw hk hf
    exact ⟨_, hexec, hfaulted, w', hw', hstopped⟩

/-! ## Tasks complete (R13, R29) -/

/-- The core after its task is done. -/
def Core.done (k : Core) : Core := { k with taskDone := true }

theorem exec_task_complete_of_crewOf {c : Nat} {w : Crew} (hw : s.crewOf c = some w) :
    exec (.task_complete c) s = .next (if (s.core c).prog.wait = .exited ∧ !(s.core c).taskDone ∧ coreQuiet s c = true then
      launchMember (s.updCore c Core.done) w.record .done else s) := by
  show execTaskComplete c s = _
  simp only [execTaskComplete, hw]
  rfl

/-- What counts the members of a launch, after one is done and before it takes its status. -/
def Inst.memberDone (x : Inst) : Inst := { x with count := x.count - 1, mark := joinStatus x.mark .done }

theorem launchMember_of_inst {n i : Nat} {r : Rec} {x : Inst} (hr : s.recs.find n = some r) (hi : r.inst = some i) (hx : s.insts.find i = some x) :
    launchMember s n .done = launchEnd { s with insts := s.insts.put i x.memberDone.settle } n := by
  simp only [launchMember, hr, Option.bind_some, hi, instDone, hx]
  rfl

theorem settle_of_members {x : Inst} (h : x.count ≠ 1 ∨ x.lastAdded = false) : x.memberDone.settle = x.memberDone := by
  refine if_neg fun hall => ?_
  obtain ⟨hcount, hlast, -⟩ := hall
  obtain h | h := h
  · exact h (sub_eq_zero.1 hcount)
  · exact absurd (hlast.symm.trans h) (by decide)

theorem settle_of_last {x : Inst} (hc : x.count = 1) (hl : x.lastAdded = true) (hm : x.mark = .done) (hs : x.status = .running) :
    x.memberDone.settle.status = .done := by
  have hall : x.memberDone.count = 0 ∧ x.memberDone.lastAdded = true ∧ x.memberDone.status = .running := ⟨sub_eq_zero.2 hc, hl, hs⟩
  rw [Inst.settle, if_pos hall]
  simp only [Inst.memberDone, hm]
  rfl

theorem launchEnd_of_running {n i : Nat} {r : Rec} {x : Inst} (hr : s.recs.find n = some r) (hi : r.inst = some i) (hx : s.insts.find i = some x)
    (hs : x.status = .running) : launchEnd s n = s := by
  simp only [launchEnd, hr, hi, Option.bind_some, hx, hs, ne_eq, not_true_eq_false, false_and, if_false]

/-- A core that its crew lets go. -/
def Core.released (k : Core) : Core := { k.countHsem (2 ^ 48) with crew := none, checkedTo := 0, checkedBundles := 0 }

/-- One core of a crew is let go. -/
def releaseCore (s : State) (c : Nat) : State := (flushVoids s c).updCore c Core.released

theorem foldl_releaseCore_frame {l : List Nat} : ∃ kilns cores, l.foldl releaseCore s = { s with kilns := kilns, cores := cores } :=
  List.foldlRecOn (motive := fun t => ∃ kilns cores, t = { s with kilns := kilns, cores := cores }) l releaseCore ⟨_, _, rfl⟩ fun _ ht _ _ => by
    obtain ⟨_, _, rfl⟩ := ht
    exact ⟨_, _, rfl⟩

theorem releaseCore_crew {c m : Nat} (h : m = c ∨ (s.core m).crew = none) : ((releaseCore s c).core m).crew = none := by
  rw [releaseCore, State.core_updCore]
  split
  next => rfl
  next hne =>
    obtain h | h := h
    · exact absurd h.symm hne
    · exact h

theorem foldl_releaseCore_crew {l : List Nat} {m : Nat} (h : m ∈ l ∨ (s.core m).crew = none) : ((l.foldl releaseCore s).core m).crew = none := by
  induction l generalizing s with
  | nil => simpa using h
  | cons c l ih =>
    rw [List.mem_cons, or_assoc, or_left_comm] at h
    refine ih (h.imp_right releaseCore_crew)

theorem releaseCrew_of_crew {n : Nat} {w : Crew} (hw : s.crew n = some w) :
    releaseCrew s n = { w.members.foldl releaseCore s with crews := (w.members.foldl releaseCore s).crews.del n } := by
  simp only [releaseCrew, hw]
  rfl

theorem launchEnd_of_ended {n i k : Nat} {r : Rec} {x : Inst} {w : Crew} (hr : s.recs.find n = some r) (hi : r.inst = some i)
    (hx : s.insts.find i = some x) (hs : x.status ≠ .running) (hst : r.st = .running) (hw : crewOfRec s n = some (k, w)) :
    launchEnd s n = { releaseCrew s k with recs := (releaseCrew s k).recs.put n { r with st := .done x.status } } := by
  simp only [launchEnd, hr, hi, Option.bind_some, hx, hst, hw, hs, ne_eq, not_false_eq_true, and_self, if_true]

theorem launch_released {n i k : Nat} {r : Rec} {x : Inst} {w : Crew} (hr : s.recs.find n = some r) (hi : r.inst = some i)
    (hx : s.insts.find i = some x) (hs : x.status = .done) (hst : r.st = .running) (hof : crewOfRec s n = some (k, w)) (hw : s.crew k = some w) :
    let t := launchEnd s n
    t.crew k = none ∧ (∀ m ∈ w.members, (t.core m).crew = none) ∧ (t.recs.find n).map (·.st) = some (.done .done)
      ∧ (t.insts.find i).map (·.status) = some .done ∧ t.lpddr = s.lpddr ∧ t.land = s.land := by
  intro t
  have ht : t = { releaseCrew s k with recs := (releaseCrew s k).recs.put n { r with st := .done x.status } } :=
    launchEnd_of_ended hr hi hx (by rw [hs]; decide) hst hof
  have hmembers : ∀ m ∈ w.members, ((w.members.foldl releaseCore s).core m).crew = none := fun m hm => foldl_releaseCore_crew (Or.inl hm)
  obtain ⟨kilns, cores, hframe⟩ := foldl_releaseCore_frame (s := s) (l := w.members)
  rw [hframe] at hmembers
  rw [ht, releaseCrew_of_crew hw, hframe]
  refine ⟨SMap.find_del_self _ _, hmembers, ?_, ?_, rfl, rfl⟩
  · rw [SMap.find_put, if_pos rfl, hs]
    rfl
  · rw [hx]
    exact congrArg some hs

theorem tasksComplete : Sys2Proof.Claims.TasksComplete := by
  intro s c w hw k ended
  have hended : ended ↔ (s.core c).prog.wait = .exited ∧ !(s.core c).taskDone ∧ coreQuiet s c = true := by
    rw [Bool.not_eq_true']
  refine ⟨fun hno => (exec_task_complete_of_crewOf hw).trans (congrArg _ (if_neg (mt hended.2 hno))), fun r i x hend hr hi hx hs hst => ?_⟩
  have hexec : exec (.task_complete c) s
      = .next (launchEnd { s.updCore c Core.done with insts := s.insts.put i x.memberDone.settle } w.record) :=
    (exec_task_complete_of_crewOf hw).trans (congrArg _ ((if_pos (hended.1 hend)).trans (launchMember_of_inst (s := s.updCore c Core.done) hr hi hx)))
  have hput : ∀ y : Inst, (s.insts.put i y).find i = some y := fun y => (SMap.find_put _ _ _ _).trans (if_pos rfl)
  refine ⟨fun hmore => ?_, fun n hcount hlast hmark hof hn => ⟨_, hexec, ?_⟩⟩
  · rw [settle_of_members hmore, launchEnd_of_running (s := { s.updCore c Core.done with insts := s.insts.put i x.memberDone }) hr hi (hput _) hs] at hexec
    refine ⟨_, hexec, State.core_updCore_self s c _, ⟨rfl, fun j hj => ?_⟩, hput _⟩
    exact (State.core_updCore s c _ j).trans (if_neg hj.symm)
  · exact launch_released (s := { s.updCore c Core.done with insts := s.insts.put i x.memberDone.settle }) hr hi (hput _)
      (settle_of_last hcount hlast hmark hs) hst hof hn

/-! ## Constant lines (R132, R370) -/

theorem suspendFetch_of_waiting {f : HwFault} {c obj l : Nat} (h : (s.core c).fwHolds = true ∨ fetchWaits s c = true) : suspendFetch f c obj l s = s :=
  if_pos (Bool.or_eq_true_iff.2 h)

theorem suspendFetch_of_free {f : HwFault} {c obj l n : Nat} (hh : (s.core c).fwHolds = false) (hw : fetchWaits s c = false) (hn : freeSusp s = some n) :
    suspendFetch f c obj l s = numberFetch f c obj l n s := by
  simp only [suspendFetch, hh, hw, hn, Bool.or_self, Bool.false_eq_true, if_false]

theorem request_core {c : Nat} {r : FwReq} : (request s c r).core c = { s.core c with fwq := (s.core c).fwq ++ [r] } := State.core_updCore_self s c _

theorem numberFetch_eq {f : HwFault} {c obj l n : Nat} : ∃ (t : State) (r : FwReq), t.cores = s.cores
    ∧ numberFetch f c obj l n s = request { t with susps := t.susps.put n (.fetch c false) } c r := ⟨_, _, putRecord_recordFrame.cores, rfl⟩

theorem numberFetch_spec {f : HwFault} {c obj l n : Nat} : (numberFetch f c obj l n s).susps.find n = some (.fetch c false)
    ∧ ∃ r, (numberFetch f c obj l n s).core c = { s.core c with fwq := (s.core c).fwq ++ [r] } := by
  obtain ⟨t, r, hcores, h⟩ := numberFetch_eq (s := s) (f := f) (c := c) (obj := obj) (l := l) (n := n)
  have hcore : ({ t with susps := t.susps.put n (.fetch c false) } : State).core c = s.core c := core_of_cores hcores c
  rw [h]
  exact ⟨(SMap.find_put _ _ _ _).trans (if_pos rfl), r, by rw [request_core, hcore]⟩

section
variable {c l : Nat} (hl : (s.core c).prog.wait = .line l)
include hl

/-- The line buffer takes a line of constants and is held as unreadable with any other. -/
theorem exec_const_line_ready_of_ok {b : BitVec 512} (h : fetchLine s c (s.core c).prog.obj l = .ok b) : exec (.const_line_ready c) s
    = .next (updCtxOf c false (fun x => { x with wait := .none, buf := some (l, if lineKind b = 1 ∧ lineEngine b = 0 then some b else none) }) s) := by
  show execConstLineReady c s = _
  simp only [execConstLineReady, hl, h]

theorem exec_const_line_ready_of_error {f : HwFault} (h : fetchLine s c (s.core c).prog.obj l = .error f) : exec (.const_line_ready c) s
    = .next (if f.code = 0x0F then suspendFetch f c (s.core c).prog.obj l s
      else if f.sub = 6 ∨ f.sub = 7 then { raiseFetch f {} (s.core c).prog.obj l { s with focus := { core := c } } with focus := s.focus }
      else updCtxOf c false (fun x => { x with wait := .none, buf := some (l, none) }) s) := by
  show execConstLineReady c s = _
  simp only [execConstLineReady, hl, h]
  split
  · rfl
  · split <;> rfl

end

theorem raiseFetch_of_access {f : HwFault} {o : Origin} {obj l : Nat} (hf : f.code = 0x10) :
    raiseFetch f o obj l s = raiseWith f 0 (.ofNat 64 (domainId s obj)) (.ofNat 64 (l / 64)) 0 s := if_pos hf

theorem constantLines : Sys2Proof.Claims.ConstantLines := by
  intro s c l k hl held
  have hheld : ∀ v, exec (.const_line_ready c) s = .next (updCtxOf c false (fun x => { x with wait := .none, buf := some (l, v) }) s) → held v :=
    fun v h => ⟨_, h, onlyCore_updCore, State.core_updCore_self s c _⟩
  refine ⟨fun b hb => hheld _ (exec_const_line_ready_of_ok hl hb), fun f hf => ⟨fun hcode h6 h7 => hheld _ ?_, fun hcode hsub hnone => ?_,
    fun n hcode hn => ⟨fun hh hw => ?_, fun hwaits => ?_⟩⟩⟩
  · rw [exec_const_line_ready_of_error hl hf, if_neg (by rw [hcode]; decide), if_neg (by omega)]
  · refine ⟨_, (exec_const_line_ready_of_error hl hf).trans (congrArg _ ((if_neg (by rw [hcode]; decide)).trans (if_pos hsub))), ?_, rfl⟩
    rw [raiseFetch_of_access hcode]
    exact raiseWith_core_faulted (s := { s with focus := { core := c } }) rfl hnone
  · obtain ⟨hsusp, r, hcore⟩ := numberFetch_spec (s := s) (f := f) (c := c) (obj := k.prog.obj) (l := l) (n := n)
    refine ⟨_, (exec_const_line_ready_of_error hl hf).trans (congrArg _ ((if_pos hcode).trans (suspendFetch_of_free hh hw hn))), hsusp, ?_, ?_⟩
    · rw [hcore]
    · rw [hcore, List.length_append]
      rfl
  · exact (exec_const_line_ready_of_error hl hf).trans (congrArg _ ((if_pos hcode).trans (suspendFetch_of_waiting hwaits)))

/-- Settles O46: each event reduces to the core, crew or launch that it changes; records leave the cores and crews alone. -/
theorem crewEvents : Obligations.CrewEvents := ⟨resultsReachStations, holdsEnd, crewLimits, tasksComplete, constantLines⟩

end Sys2Proof.Machine
end

/-! # What the kiln tier does by itself (O32; R223, R224, R227, R232) -/
section
namespace Sys2Proof.Machine
variable {s t : State} {c a core arr : Nat}

/-! ## Arrays after a change -/

theorem kiln_updKiln (s : State) (core arr : Nat) (f : Kiln → Kiln) (c a : Nat) :
    (s.updKiln core arr f).kiln c a = if 16 * core + arr = 16 * c + a then f (s.kiln core arr) else s.kiln c a := SMap.get_put _ _ _ _ _

@[simp] theorem kiln_updKiln_self (s : State) (core arr : Nat) (f : Kiln → Kiln) : (s.updKiln core arr f).kiln core arr = f (s.kiln core arr) :=
  (kiln_updKiln ..).trans (if_pos rfl)

theorem kiln_of_kilns (h : t.kilns = s.kilns) (c a : Nat) : t.kiln c a = s.kiln c a := congrArg (fun ks => SMap.get ({} : Kiln) ks (16 * c + a)) h

theorem kiln_draws (n : Nat) : (s.draws n).2.kiln c a = s.kiln c a := rfl

theorem recordFrame.kilns (h : recordFrame s t) : t.kilns = s.kilns := by
  obtain ⟨_, _, _, _, _, _, rfl⟩ := h
  rfl

theorem kiln_kilnRecord {code core' arr' delta tag cycle part} : (kilnRecord code core' arr' delta tag cycle part s).kiln c a = s.kiln c a :=
  kiln_of_kilns record_recordFrame.kilns c a

/-! ## Recalibrations that are asked for -/

/-- An array that is asked to be recalibrated (R223). -/
def Kiln.asked (k : Kiln) : Kiln := if k.st = .fired ∨ k.st = .due then { k with wantCal := true } else k

theorem Kiln.asked_asked (k : Kiln) : k.asked.asked = k.asked := by
  unfold asked
  split <;> simp_all

theorem exec_kiln_recal {start : BitVec 16} : exec (.kiln_recal core start) s
    = .next ((bitsSet 16 start).foldl (fun s a => s.updKiln core a Kiln.asked) s) := rfl

theorem foldl_asked_kilns (l : List Nat) (s : State) : ∃ ks, l.foldl (fun s a => s.updKiln core a Kiln.asked) s = { s with kilns := ks } := by
  induction l generalizing s with
  | nil => exact ⟨_, rfl⟩
  | cons b l ih =>
    obtain ⟨ks, h⟩ := ih (s.updKiln core b Kiln.asked)
    exact ⟨ks, h⟩

theorem kiln_foldl_asked (l : List Nat) (s : State) :
    (l.foldl (fun s a => s.updKiln core a Kiln.asked) s).kiln core a = if a ∈ l then (s.kiln core a).asked else s.kiln core a := by
  induction l generalizing s with
  | nil => simp
  | cons b l ih =>
    rw [List.foldl_cons, ih]
    by_cases hb : b = a
    · subst hb
      simp [Kiln.asked_asked]
    · simp [kiln_updKiln, hb, Ne.symm hb]

/-! ## The end of a calibration -/

theorem SMap.get_map_range {α : Type} (d : α) (f : Nat → α) (n j : Nat) (h : j < n) : SMap.get d ((List.range n).map (fun i => (i, f i))) j = f j := by
  have key : ∀ m b, b ≤ j → j < b + m → SMap.get d ((List.range' b m).map (fun i => (i, f i))) j = f j := by
    intro m
    induction m with
    | zero => omega
    | succ m ih =>
      intro b hb hj
      rw [List.range'_succ, List.map_cons, SMap.get]
      split
      next he => rw [he]
      next he => exact ih (b + 1) (by omega) (by omega)
  rw [List.range_eq_range']
  exact key n 0 (Nat.zero_le j) (by omega)

theorem calibrated_beta_le (k : Kiln) (now : Nat) (v : Nat → Nat) {j : Nat} (hj : j < 520) :
    (SMap.get 0 (k.calibrated now v).beta j).toNat ≤ 0x3C800000 := by
  rw [Kiln.calibrated, SMap.get_map_range 0 _ _ _ hj, BitVec.toNat_ofNat]
  exact (Nat.mod_le _ _).trans (Nat.le_of_lt_succ (Nat.mod_lt _ (by decide)))

theorem exec_recal_end_ok (h : (s.kiln core arr).st = .recal) : exec (.recal_end core arr true) s
    = .next ((s.draws 1560).2.updKiln core arr (fun k => k.calibrated s.now (s.draws 1560).1)) := by
  show execRecalEnd core arr true s = _
  rw [execRecalEnd, if_neg (by simp [h]), if_pos rfl]

theorem exec_recal_end_failed (h : (s.kiln core arr).st = .recal) : exec (.recal_end core arr false) s
    = .next (kilnRecord 0x44 core arr 0 0 0 none (s.updKiln core arr (fun k => { k with st := .unfired, wantCal := false }))) := by
  show execRecalEnd core arr false s = _
  rw [execRecalEnd, if_neg (by simp [h]), if_neg (by simp)]

/-! ## The end of a firing -/

/-- An array and the state when a firing ended, before its semaphore change is scheduled (R232). -/
def firingEnded (core arr : Nat) (ok : Bool) (s : State) : State :=
  if ok then (s.draws 1560).2.updKiln core arr (fun k => { k.calibrated s.now (s.draws 1560).1 with
    cells := (s.kiln core arr).image, lost := none, firedAt := s.now, firing := none })
  else kilnRecord 0x45 core arr 0 0 0 none (s.updKiln core arr (fun k => { k with st := .unfired, firing := none }))

/-- The semaphore change of a firing counts for the core that asked for it, or waits in its saved launch. -/
def fireSignal (s : State) (firing : Option (Nat × Nat × Nat)) (t : State) : State :=
  match firing with
  | some (c, h, r) => if (match s.crewOf c with | some w => w.record == r | none => false) then hsemChange t c ⟨0, h, 1, none⟩ else savedSignal r c h t
  | none => t

theorem exec_firing_end {ok : Bool} (h : (s.kiln core arr).st = .firing) : exec (.firing_end core arr ok) s
    = .next (fireSignal s (s.kiln core arr).firing (firingEnded core arr ok s)) := by
  show execFiringEnd core arr ok s = _
  rw [execFiringEnd, if_neg (by simp [h])]
  rfl

theorem fireSignal_kilns (firing : Option (Nat × Nat × Nat)) : (fireSignal s firing t).kilns = t.kilns := by
  unfold fireSignal
  split
  · exact (apply_ite State.kilns _ _ _).trans (ite_self _)
  · rfl

theorem fireSignal_of_running {h r : Nat} {w : Crew} (hw : s.crewOf c = some w) (hr : w.record = r) :
    fireSignal s (some (c, h, r)) t = hsemChange t c ⟨0, h, 1, none⟩ := by
  simp [fireSignal, hw, hr]

theorem kiln_firingEnded_ok : (firingEnded core arr true s).kiln core arr = { (s.kiln core arr).calibrated s.now (s.draws 1560).1 with
    cells := (s.kiln core arr).image, lost := none, firedAt := s.now, firing := none } := kiln_updKiln_self _ _ _ _

theorem kiln_firingEnded_failed : (firingEnded core arr false s).kiln core arr = { s.kiln core arr with st := .unfired, firing := none } :=
  kiln_kilnRecord.trans (kiln_updKiln_self _ _ _ _)

theorem firingEnded_ok_core : (firingEnded core arr true s).core c = s.core c := rfl

/-! ## Temperature and drift -/

theorem exec_kiln_temp_far {temp : Int} (h : (s.kiln core arr).st = .fired ∧ 240 < (temp - (s.kiln core arr).tCal).natAbs) :
    exec (.kiln_temp core arr temp) s = .next (kilnRecord 0x43 core arr 0 0 0 none
      ((s.updKiln core arr (fun k => { k with temp := temp })).updKiln core arr (fun k => { k with st := .due, wantCal := true }))) := by
  show execKilnTemp core arr temp s = _
  rw [execKilnTemp, if_pos (by simpa only [kiln_updKiln_self] using h)]

theorem exec_kiln_temp_near {temp : Int} (h : ¬ ((s.kiln core arr).st = .fired ∧ 240 < (temp - (s.kiln core arr).tCal).natAbs)) :
    exec (.kiln_temp core arr temp) s = .next (s.updKiln core arr (fun k => { k with temp := temp })) := by
  show execKilnTemp core arr temp s = _
  rw [execKilnTemp, if_neg (by simpa only [kiln_updKiln_self] using h)]

/-- Settles O32: each happening is one change of its array, and its record leaves the arrays alone. -/
theorem kilnHappenings : Obligations.KilnHappenings := by
  intro s core arr k
  refine ⟨fun start => ?_, fun hwant hst hidle => ?_, fun hst => ⟨?_, ?_⟩, fun hst => ⟨?_, ?_⟩, fun temp => ⟨fun hfar => ?_, exec_kiln_temp_near⟩,
    fun hbreach => congrArg Host.Outcome.next (if_pos hbreach)⟩
  · obtain ⟨ks, hks⟩ := foldl_asked_kilns (core := core) (bitsSet 16 start) s
    refine ⟨_, exec_kiln_recal, by rw [hks], fun a ha => (kiln_foldl_asked _ s).trans ?_⟩
    simp only [mem_bitsSet, ha, true_and, Kiln.asked]
    cases start.getLsbD a <;> simp
  · have hready : (k.wantCal && (k.st == .fired || k.st == .due) && kilnIdle s core arr) = true := by
      simpa [hwant, kilnIdle] using ⟨hst, hidle⟩
    exact congrArg Host.Outcome.next (if_pos hready)
  · refine ⟨_, exec_recal_end_ok hst, ?_⟩
    rw [kiln_updKiln_self, kiln_draws]
    exact ⟨rfl, rfl, rfl, rfl, rfl, rfl, fun j hj => calibrated_beta_le _ _ _ hj⟩
  · refine ⟨_, exec_recal_end_failed hst, ?_⟩
    rw [kiln_kilnRecord, kiln_updKiln_self]
    exact ⟨rfl, rfl⟩
  · refine ⟨_, exec_firing_end hst, ?_⟩
    rw [kiln_of_kilns (fireSignal_kilns _), kiln_firingEnded_ok]
    refine ⟨rfl, rfl, rfl, fun c h r w hfiring hw hr => ?_⟩
    rw [hfiring, fireSignal_of_running hw hr, hsemChange, State.core_updCore_self, firingEnded_ok_core]
  · refine ⟨_, exec_firing_end hst, ?_⟩
    rw [kiln_of_kilns (fireSignal_kilns _), kiln_firingEnded_failed]
    exact ⟨rfl, rfl⟩
  · refine ⟨_, exec_kiln_temp_far hfar, ?_⟩
    rw [kiln_kilnRecord, kiln_updKiln_self, kiln_updKiln_self]
    exact ⟨rfl, rfl, rfl⟩

end Sys2Proof.Machine
end

/-! # Deposits, firings and refusals of kiln arrays (O31; R228, R232) -/
section
namespace Sys2Proof.Machine
variable {s : State} {h : Ent} {arr sh i : BitVec 4}

/-! ## The state of an array decides a using entry (R228) -/

section
variable {arr w : Nat} {f : State → State}

theorem kilnUse_of_unfired (h : (s.kiln s.focus.core arr).st = .unfired ∨ (s.kiln s.focus.core arr).st = .firing) :
    kilnUse arr w f s = raise (kilnFault 0) 0 arr s := if_pos h

theorem kilnUse_of_busy (hu : (s.kiln s.focus.core arr).st ≠ .unfired) (hf : (s.kiln s.focus.core arr).st ≠ .firing)
    (hw : s.now0 < SMap.get 0 s.fcore.xbWin arr) : kilnUse arr w f s = raise (kilnFault 1) 0 arr s := by
  rw [kilnUse, if_neg (by simp [hu, hf]), if_pos hw]

theorem kilnUse_of_due (h : (s.kiln s.focus.core arr).st = .due ∨ (s.kiln s.focus.core arr).st = .recal)
    (hw : SMap.get 0 s.fcore.xbWin arr ≤ s.now0) : kilnUse arr w f s = askHold 3 s := by
  have hfired : ¬ ((s.kiln s.focus.core arr).st = .unfired ∨ (s.kiln s.focus.core arr).st = .firing) := by
    obtain h | h := h <;> simp [h]
  rw [kilnUse, if_neg hfired, if_neg (not_lt.2 hw), if_pos h]

/-- A using entry has opened its window of `w` crew cycles on an array. -/
def State.opened (s : State) (arr w : Nat) : State :=
  s.updF (fun x => { x with xbWin := x.xbWin.put arr (s.now0 + w), xbWall := x.xbWall.put arr (s.now0 + x.holdCycles.toNat + w) })

theorem kilnUse_of_fired (h : (s.kiln s.focus.core arr).st = .fired) (hw : SMap.get 0 s.fcore.xbWin arr ≤ s.now0) :
    kilnUse arr w f s = f (s.opened arr w) := by
  rw [kilnUse, if_neg (by simp [h]), if_neg (not_lt.2 hw), if_neg (by simp [h])]
  rfl

end

/-! ## An entry on an array outside the allotment, and on one inside (R27) -/

theorem ite_of_reserved {α : Type} {x y : α} (h : hasKiln arr.toNat s = true) : (if !hasKiln arr.toNat s then x else y) = y := if_neg (by simp [h])

theorem ite_of_unreserved {α : Type} {x y : α} (h : hasKiln arr.toNat s = false) : (if !hasKiln arr.toNat s then x else y) = x := if_pos (by simp [h])

/-- The entries that use an array and compute: what `kilnUse` makes of its state, whatever they do with it. -/
theorem exec_users_of_reserved {row : BitVec 9} {q : BitVec 3} {r : State} (hk : hasKiln arr.toNat s = true)
    (hr : ∀ w f, kilnUse arr.toNat w f s = r) :
    exec (.xmv h arr sh) s = .next r ∧ exec (.xref h arr sh) s = .next r ∧ exec (.xrdw h arr row q) s = .next r :=
  ⟨congrArg Host.Outcome.next ((ite_of_reserved hk).trans (hr _ _)), congrArg Host.Outcome.next ((ite_of_reserved hk).trans (hr _ _)),
    congrArg Host.Outcome.next ((ite_of_reserved hk).trans (hr _ _))⟩

theorem exec_xbound_of_unfired (hk : hasKiln arr.toNat s = true)
    (h0 : (s.kiln s.focus.core arr.toNat).st = .unfired ∨ (s.kiln s.focus.core arr.toNat).st = .firing) :
    exec (.xbound h arr sh) s = .next (raise (kilnFault 0) 0 arr.toNat s) :=
  congrArg Host.Outcome.next ((ite_of_reserved hk).trans (if_pos h0))

theorem kilnRefusals : Claims.KilnRefusals := by
  intro s h arr sh row q a k users
  refine ⟨fun hk => ⟨fun h0 => ⟨exec_users_of_reserved hk fun _ _ => kilnUse_of_unfired h0, exec_xbound_of_unfired hk h0⟩,
      fun hu hf hw => exec_users_of_reserved hk fun _ _ => kilnUse_of_busy hu hf hw, fun hd hw => exec_users_of_reserved hk fun _ _ => kilnUse_of_due hd hw⟩,
    fun hk => ?_⟩
  have refused : ∀ y : State, Host.Outcome.next (if !hasKiln a s then raise allotUse 0 a s else y) = (.next (raise allotUse 0 a s) : Out) :=
    fun _ => congrArg Host.Outcome.next (ite_of_unreserved hk)
  exact ⟨⟨refused _, refused _, refused _⟩, refused _, refused _, fun _ _ => refused _, fun _ => refused _⟩

/-! ## Deposits (R232) -/

theorem int8Check_of_i8 {r : Row} (ht : r.tag = .i8) : int8Check r = none := if_pos ht

theorem codes_i8 {r : Row} (ht : r.tag = .i8) : r.codes.map (signedOf 8) = (List.range 128).map r.intAt := by
  rw [Row.codes, ht, List.map_map]
  refine List.map_congr_left fun e _ => ?_
  rw [Row.intAt_of_signed (by simp [ht]), ht]
  rfl

theorem exec_xprog_deposit_of_reserved {row : BitVec 9} {q : BitVec 3} (hk : hasKiln arr.toNat s = true) (hsa : h.sa = .ofr i)
    (ht : (s.ofRow i.toNat).tag = .i8) (hst : (s.kiln s.focus.core arr.toNat).st ≠ .firing) :
    exec (.xprog_deposit h arr row q) s = .next
      (if ((List.range 128).map (s.ofRow i.toNat).intAt).any (fun w => decide (w < -7 ∨ 7 < w)) then raise (kilnFault 2) (16 + i.toNat) arr.toNat s
      else s.later (s.now0 + 1) (.deposit arr.toNat row.toNat q.toNat (s.ofRow i.toNat))) := by
  have hread : readOpnd h.sa h.imm s = .ok (.row (s.ofRow i.toNat), s) := by rw [hsa]; rfl
  show execXprogDeposit h arr row q s = _
  rw [execXprogDeposit, ite_of_reserved hk, if_neg hst]
  simp only [hread, Src.toRow, int8Check_of_i8 ht, codes_i8 ht]
  rw [hsa]
  rfl

theorem exec_xprog_deposit_of_firing {row : BitVec 9} {q : BitVec 3} (hk : hasKiln arr.toNat s = true)
    (hst : (s.kiln s.focus.core arr.toNat).st = .firing) : exec (.xprog_deposit h arr row q) s = .next (raise (kilnFault 3) 0 arr.toNat s) :=
  congrArg Host.Outcome.next ((ite_of_reserved hk).trans (if_pos hst))

theorem exec_xprog_fire_of_ready {hs : BitVec 5} (hk : hasKiln arr.toNat s = true) (hh : hasHsem hs.toNat s = true)
    (hst : (s.kiln s.focus.core arr.toNat).st ≠ .firing) (hw : SMap.get 0 s.fcore.xbWin arr.toNat ≤ s.now0) :
    exec (.xprog_fire h arr hs) s = .next (if (s.kiln s.focus.core arr.toNat).pcount ≥ 10 ^ 6 then raise (kilnFault 4) 0 arr.toNat s
      else s.later s.now0 (.fire arr.toNat hs.toNat)) := by
  show execXprogFire h arr hs s = _
  rw [execXprogFire, ite_of_reserved hk, if_neg (by simp [hh]), if_neg hst, if_neg (not_lt.2 hw)]

/-! ## Deposits and firings land (R232) -/

theorem Row.code_of_ge {r : Row} {e : Nat} (he : fmtElems r.tag ≤ e) : r.code e = 0 := by
  have hbits : 1024 ≤ fmtBits r.tag * e := (fmtBits_mul_fmtElems r.tag).symm.le.trans (Nat.mul_le_mul_left _ he)
  have hpow : r.data.toNat < 2 ^ (fmtBits r.tag * e) := BitVec.toNat_lt_twoPow_of_le hbits
  rw [Row.code, fieldAt, Nat.div_eq_of_lt hpow, Nat.zero_mod]

theorem Row.codes_getD (r : Row) (e : Nat) : r.codes.getD e 0 = r.code e := by
  rcases Nat.lt_or_ge e (fmtElems r.tag) with he | he
  · simp [Row.codes, List.getD_eq_getElem?_getD, he]
  · rw [Row.code_of_ge he, List.getD_eq_default _ _ (by simpa [Row.codes] using he)]

theorem mod_two_pow_field (x : Nat) {a b w : Nat} (h : b + w ≤ a) : x % 2 ^ a / 2 ^ b % 2 ^ w = x / 2 ^ b % 2 ^ w := by
  obtain ⟨k, rfl⟩ := Nat.exists_eq_add_of_le h
  rw [Nat.add_assoc, Nat.pow_add, Nat.mod_mul_right_div_self, Nat.mod_mod_of_dvd _ (Nat.pow_dvd_pow 2 (Nat.le_add_right w k))]

theorem ofNat_packList_field {n w e : Nat} (l : List Nat) (h : w * e + w ≤ n) :
    (BitVec.ofNat n (packList w l)).toNat / 2 ^ (w * e) % 2 ^ w = l.getD e 0 % 2 ^ w := by
  rw [BitVec.toNat_ofNat, mod_two_pow_field _ h, packList_field]

/-- A quarter of an image holds the low four bits of each of its elements. -/
theorem quarterOf_nibble (r : Row) {e : Nat} (he : e < 128) : (quarterOf r).toNat / 2 ^ (4 * e) % 2 ^ 4 = r.code e % 2 ^ 4 :=
  (ofNat_packList_field r.codes (by omega)).trans (congrArg (· % 2 ^ 4) (r.codes_getD e))

section
variable {o : Origin} {d row n : Nat} {r : Row} {arr hs : Nat}

theorem landEff_deposit_kiln : (landEff ⟨d, o, .deposit arr row n r⟩ s).kiln s.focus.core arr
    = { s.kiln s.focus.core arr with
        image := SMap.set 0 (s.kiln s.focus.core arr).image (4 * row + n) (quarterOf r)
        imgPoison := SMap.set false (s.kiln s.focus.core arr).imgPoison (4 * row + n) r.poison } := kiln_updKiln_self _ _ _ _

theorem landEff_fire_kiln : (landEff ⟨d, o, .fire arr hs⟩ s).kiln s.focus.core arr
    = { s.kiln s.focus.core arr with
        st := .firing, pcount := (s.kiln s.focus.core arr).pcount + 1, wpoison := (s.kiln s.focus.core arr).imgPoison.any (·.2), wantCal := false
        lost := some s.freeCtr, firing := some (s.focus.core, hs, ((s.crewOf s.focus.core).map (·.record)).getD 0) } := kiln_updKiln_self _ _ _ _

end

theorem depositsAndFirings : Claims.DepositsAndFirings := by
  intro s h arr i row q hs c a k r hk
  refine ⟨fun hsa ht hst => ⟨fun hall => ?_, fun hex => ?_⟩, exec_xprog_deposit_of_firing hk, fun hh hst hw => ⟨fun hp => ?_, fun hp => ?_⟩,
    fun o d n _ => ?_⟩
  · rw [exec_xprog_deposit_of_reserved hk hsa ht hst, if_neg]
    simpa using fun e he => hall e he
  · rw [exec_xprog_deposit_of_reserved hk hsa ht hst, if_pos]
    obtain ⟨e, he, hw⟩ := hex
    simp only [List.any_map, List.any_eq_true, List.mem_range, Function.comp_apply, decide_eq_true_eq]
    exact ⟨e, he, by simp only [r] at hw; omega⟩
  · rw [exec_xprog_fire_of_ready hk hh hst hw, if_neg (not_le.2 hp)]
  · rw [exec_xprog_fire_of_ready hk hh hst hw, if_pos hp]
  · intro t fired
    rw [show t.kiln c a = _ from landEff_deposit_kiln, show fired.kiln c a = _ from landEff_fire_kiln]
    refine ⟨(SMap.get_set ..).trans (if_pos rfl), rfl, fun m hm => (SMap.get_set ..).trans (if_neg hm.symm), fun e he => ?_, rfl, rfl, rfl, rfl⟩
    rw [SMap.get_set, if_pos rfl]
    exact quarterOf_nibble r he

/-- Settles O31, from its two claims. -/
theorem kilnWrites : Obligations.KilnWrites := ⟨depositsAndFirings, kilnRefusals⟩

end Sys2Proof.Machine
end

/-! # Reads and readings of kiln arrays (O30; R226 to R235) -/
section
namespace Sys2Proof.Machine

/-! ## Readings lie within their bounds (R226) -/

theorem pickInt_mem {lo hi : Int} (h : lo ≤ hi) (v : Nat) : lo ≤ pickInt lo hi v ∧ pickInt lo hi v ≤ hi := by
  have hmod : v % ((hi - lo).toNat + 1) < (hi - lo).toNat + 1 := Nat.mod_lt _ (Nat.succ_pos _)
  rw [pickInt, if_pos h]
  omega

/-- An integer picked between the least and the largest whose multiple of `d` is within `n` of `x` is such an integer, and there is one where the interval
is no shorter than `d`. -/
theorem abs_pickInt_mul_sub_le {x n d : Int} (hd : 0 < d) (hn : d ≤ 2 * n) (v : Nat) : |pickInt (-((-(x - n)) / d)) ((x + n) / d) v * d - x| ≤ n := by
  have hlo : ∀ q, -((-(x - n)) / d) ≤ q ↔ x - n ≤ q * d := fun q => by
    rw [neg_le, Int.le_ediv_iff_mul_le hd]
    constructor <;> intro h <;> linarith
  have hhi : ∀ q, q ≤ (x + n) / d ↔ q * d ≤ x + n := fun q => Int.le_ediv_iff_mul_le hd
  have hle : -((-(x - n)) / d) ≤ (x + n) / d := (hlo _).2 (by linarith [Int.lt_ediv_add_one_mul_self (x + n) hd])
  obtain ⟨h1, h2⟩ := pickInt_mem hle v
  rw [hlo] at h1
  rw [hhi] at h2
  exact abs_le.2 ⟨by linarith, by linarith⟩

theorem readingsWithinBound : Claims.ReadingsWithinBound := by
  intro y sh bound v m neg e hdec n d hdn
  have hread : reading y sh bound v
      = pickInt (-((-(y * d - n * (2 ^ sh : Nat))) / ((2 ^ sh : Nat) * d))) ((y * d + n * (2 ^ sh : Nat)) / ((2 ^ sh : Nat) * d)) v := by
    simp only [reading, hdec, n, d]
  have hd : 0 < 2 ^ sh * d := Nat.mul_pos (Nat.two_pow_pos sh) (Nat.two_pow_pos _)
  have hle : 2 ^ sh * d ≤ 2 * (n * 2 ^ sh) := (Nat.mul_comm _ _).trans_le ((Nat.mul_le_mul_right _ hdn).trans (Nat.le_mul_of_pos_left _ Nat.two_pos))
  have hnear : |reading y sh bound v * ((2 ^ sh : Nat) * d) - y * d| ≤ n * (2 ^ sh : Nat) := by
    rw [hread]
    exact abs_pickInt_mul_sub_le (by exact_mod_cast hd) (by exact_mod_cast hle) v
  have habs : |reading y sh bound v * 2 ^ sh - y| * d = |reading y sh bound v * ((2 ^ sh : Nat) * d) - y * d| := by
    rw [← abs_of_nonneg (Int.natCast_nonneg d), ← abs_mul, abs_of_nonneg (Int.natCast_nonneg d)]
    congr 1
    push_cast
    ring
  zify
  rw [habs]
  exact_mod_cast hnear

/-! ## Rows of integers and of FP32 codes -/

theorem wrapTo_natCast (w n : Nat) : wrapTo w (n : Int) = n % 2 ^ w := by
  rw [wrapTo, ← Int.natCast_emod, Int.toNat_natCast]

theorem wrapTo_toInt {w : Nat} (b : BitVec w) : wrapTo w b.toInt = b.toNat := by
  have h := congrArg BitVec.toNat (BitVec.ofInt_toInt (x := b))
  rwa [BitVec.toNat_ofInt] at h

theorem signedOf_wrapTo_byte {x : Int} (h : -128 ≤ x ∧ x < 128) : signedOf 8 (wrapTo 8 x) = x := by
  unfold signedOf wrapTo
  omega

section
variable {ty : Fmt} {l : List Int} {p : Bool} {e : Nat}

theorem intsRow_code (h : l.length ≤ fmtElems ty) : (intsRow ty l p).code e = wrapTo (fmtBits ty) (l.getD e 0) := by
  have hzero : wrapTo (fmtBits ty) 0 = 0 := by simp [wrapTo]
  have hget : (l.map (wrapTo (fmtBits ty))).getD e 0 = wrapTo (fmtBits ty) (l.getD e 0) := by
    conv_lhs => rw [← hzero]
    exact List.getD_map ..
  rw [intsRow, rowOf_code (by simpa using h), hget, Nat.mod_eq_of_lt (wrapTo_lt _ _)]

theorem intsRow_i8_intAt (h : l.length ≤ 128) (hl : -128 ≤ l.getD e 0 ∧ l.getD e 0 < 128) : (intsRow .i8 l p).intAt e = l.getD e 0 := by
  rw [Row.intAt_of_signed (by simp [intsRow, rowOf]), intsRow_code h]
  exact signedOf_wrapTo_byte hl

end

/-! ## Bounds and scales as FP32 codes (R75, R226) -/

theorem rup32_le (v : Val) : rup32 v ≤ 0x7F800000 := by
  fun_cases rup32 v
  case case1 => decide
  case case2 a b _ =>
    rw [FloatFmt.roundQ]
    split
    next hc => exact hc.trans (by decide)
    next => decide
  case case3 => decide

theorem readingRow_bound_le {bound sh : Nat} {ys : List (Int × Nat × Nat)} (h : bound ≤ 0x7F800000) : (readingRow bound sh ys).2 ≤ 0x7F800000 := by
  rw [readingRow]
  split
  · exact le_rfl
  · exact h

/-- The FP32 code of the row scale 2^SH. -/
theorem fp32_two_pow (sh : BitVec 4) : fp32.conv .rne false 0 (.fin false 1 sh.toNat) = (127 + sh.toNat) * 2 ^ 23 := by
  revert sh
  decide +kernel

/-! ## Inputs of a kiln entry (R228, R230) -/

section
variable {s t : State} {h : Ent} {arr sh i : BitVec 4}

/-- The four input rows of a kiln entry. -/
def State.inputRows (s : State) (i : Nat) : List Row := (List.range 4).map (fun m => s.ofRow (i + m))

/-- Their elements, x_0 to x_511 (R230). -/
def State.inputs (s : State) (i : Nat) : List Int := ((s.inputRows i).map (fun r => r.codes.map (signedOf 8))).flatten

theorem kilnInputs_of_i8 (hsa : h.sa = .ofr i) (ht : ∀ m, m < 4 → (s.ofRow (i.toNat + m)).tag = .i8) :
    kilnInputs h s = .ok (s.inputs i.toNat, (s.inputRows i.toNat).any (·.poison)) := by
  have hcheck : (s.inputRows i.toNat).findSome? int8Check = none := by
    simp only [State.inputRows, List.findSome?_eq_none_iff, List.mem_map, List.mem_range]
    rintro _ ⟨m, hm, rfl⟩
    exact int8Check_of_i8 (ht m hm)
  have hrows : (List.range 4).map (fun m => readOf (i.toNat + m) s) = s.inputRows i.toNat := rfl
  simp only [kilnInputs, hsa, hrows, hcheck, State.inputs]

theorem inputRows_poison (n : Nat) : (s.inputRows n).any (·.poison)
    = ((s.ofRow n).poison || (s.ofRow (n + 1)).poison || (s.ofRow (n + 2)).poison || (s.ofRow (n + 3)).poison) := by
  simp [State.inputRows, List.range_succ, Bool.or_assoc]

/-! ## The window of a using entry -/

theorem fcore_opened {a w : Nat} : (s.opened a w).fcore
    = { s.fcore with xbWin := s.fcore.xbWin.put a (s.now0 + w), xbWall := s.fcore.xbWall.put a (s.now0 + s.fcore.holdCycles.toNat + w) } :=
  State.fcore_updF s _

theorem now0_opened {a w : Nat} : (s.opened a w).now0 = s.now0 := now0_updF rfl

theorem ofRow_opened {a w n : Nat} : (s.opened a w).ofRow n = s.ofRow n := by
  rw [State.ofRow, fcore_opened]
  rfl

theorem inputRows_opened {a w n : Nat} : (s.opened a w).inputRows n = s.inputRows n := List.map_congr_left fun _ _ => ofRow_opened

theorem kilnInputs_opened {a w : Nat} (hsa : h.sa = .ofr i) (ht : ∀ m, m < 4 → (s.ofRow (i.toNat + m)).tag = .i8) :
    kilnInputs h (s.opened a w) = .ok (s.inputs i.toNat, (s.inputRows i.toNat).any (·.poison)) := by
  rw [kilnInputs_of_i8 hsa (fun m hm => by rw [ofRow_opened]; exact ht m hm), State.inputs, inputRows_opened, State.inputs]

/-! ## Results that are scheduled -/

theorem foldl_giveResult {lat : Nat → Nat} {dst : Nat → Opnd} {row : Nat → Row} (l : List Nat) (s : State) :
    (l.foldl (fun t r => giveResult (lat r) (dst r) (row r) t) s).fcore
      = { s.fcore with pend := s.fcore.pend ++ l.map (fun r => ⟨s.now0 + lat r, s.focus.org, .result s.focus.stn (dst r) (row r) s.now0⟩) }
    ∧ (l.foldl (fun t r => giveResult (lat r) (dst r) (row r) t) s).kilns = s.kilns := by
  induction l generalizing s with
  | nil => simp
  | cons r l ih =>
    have hnow : (giveResult (lat r) (dst r) (row r) s).now0 = s.now0 := now0_later
    have hcore : (giveResult (lat r) (dst r) (row r) s).fcore
        = { s.fcore with pend := s.fcore.pend ++ [⟨s.now0 + lat r, s.focus.org, .result s.focus.stn (dst r) (row r) s.now0⟩] } := fcore_later
    obtain ⟨hfcore, hkilns⟩ := ih (giveResult (lat r) (dst r) (row r) s)
    rw [List.foldl_cons, hfcore, hnow, hcore]
    refine ⟨?_, hkilns⟩
    rw [List.append_assoc]
    rfl

/-! ## The drift of a conversion (R227) -/

/-- An array with the readings of a conversion and what judging them changes: its counts of voids and warnings, and the breach (R222, R227). -/
def Kiln.judged (k : Kiln) (r e : List Int) (sh a delta voids warns : Nat) (breach : Bool) : Kiln :=
  { k with r := r, e := e, sh := sh, sumA := a, delta := delta, refDelta := delta, voids := voids, warns := warns, breach := breach }

/-- An array with one multiplication more (R222). -/
def Kiln.counted (k : Kiln) : Kiln := { k with mults := k.mults + 1 }

/-- What judging the drift of a conversion leaves: `due` holds the array's DUE where the conversion is void and is empty where it is not; the array has
the readings, and of its core nothing that a kiln entry reads has changed. -/
structure DriftJudged (arr sh : Nat) (x : List Int) (s t : State) (due : List Pend) : Prop where
  voids : due = [] ∨ due = [⟨s.now0 + 319, s.focus.org, .kilnDue arr⟩]
  focus : t.focus = s.focus
  now0 : t.now0 = s.now0
  pend : t.fcore.pend = s.fcore.pend ++ due
  xbWin : t.fcore.xbWin = s.fcore.xbWin
  kiln : ∃ r e delta voids warns breach, t.kiln s.focus.core arr = (s.kiln s.focus.core arr).judged r e sh (sumAbs x) delta voids warns breach

theorem recordFrame.fcore (h : recordFrame s t) : t.fcore = s.fcore := by
  obtain ⟨_, _, _, _, _, _, rfl⟩ := h
  rfl

theorem recordFrame.now0 (h : recordFrame s t) : t.now0 = s.now0 := by
  obtain ⟨_, _, _, _, _, _, rfl⟩ := h
  rfl

theorem fcore_request {r : FwReq} : (request s s.focus.core r).fcore = { s.fcore with fwq := s.fcore.fwq ++ [r] } :=
  State.core_updCore_self s s.focus.core _

/-- After a record, a request to the core's firmware and an effect scheduled. -/
theorem later_request_of_recordFrame {r : FwReq} {due : Nat} {e : Eff} (hrec : recordFrame s t) :
    let u := (request t s.focus.core r).later due e
    u.focus = s.focus ∧ u.kilns = s.kilns ∧ u.now0 = s.now0
      ∧ u.fcore.pend = s.fcore.pend ++ [⟨due, s.focus.org, e⟩] ∧ u.fcore.xbWin = s.fcore.xbWin := by
  intro u
  have hu : u = (request t t.focus.core r).later due e := by rw [hrec.focus]
  have hnow : (request t t.focus.core r).now0 = t.now0 := now0_updF rfl
  have hfocus : (request t t.focus.core r).focus = t.focus := rfl
  rw [hu, now0_later, hnow, fcore_later, fcore_request, hfocus, hrec.focus, hrec.fcore]
  exact ⟨hrec.focus, hrec.kilns, hrec.now0, rfl, rfl⟩

theorem judgeDrift_spec (arr sh : Nat) (x : List Int) (s : State) :
    ∃ t due, judgeDrift arr sh x s = (!due.isEmpty, t) ∧ DriftJudged arr sh x s t due := by
  fun_cases judgeDrift arr sh x s
  case case1 hdraws r e devs d256 beyond warn guard _ s2 part _ s3 words s4 =>
    cases hdraws
    obtain ⟨hfocus, hkilns, hnow, hpend, hwin⟩ := later_request_of_recordFrame (s := s3) (t := s4)
      (r := ⟨4, s3.now, 466 + s.focus.core / 160, words, 0⟩) (due := s.now0 + 319) (e := .kilnDue arr) putRecord_recordFrame
    have hkiln := (kiln_updKiln_self s2 s.focus.core arr (fun k => { k with voids := k.voids + 1, breach := true })).trans
      (congrArg (fun k : Kiln => { k with voids := k.voids + 1, breach := true }) (kiln_updKiln_self ..))
    exact ⟨_, [_], rfl, .inr rfl, hfocus, hnow, hpend, hwin, r, e, d256, _, _, _, (kiln_of_kilns hkilns _ _).trans hkiln⟩
  case case2 hdraws r e devs d256 beyond warn guard _ s2 part _ _ =>
    cases hdraws
    have hrec : recordFrame _ (kilnRecord 0x41 s.focus.core arr d256 (s.core s.focus.core).tag s.now0 part
      (s2.updKiln s.focus.core arr (fun k => { k with warns := k.warns + 1 }))) := record_recordFrame
    have hkiln := (kiln_updKiln_self s2 s.focus.core arr (fun k => { k with warns := k.warns + 1 })).trans
      (congrArg (fun k : Kiln => { k with warns := k.warns + 1 }) (kiln_updKiln_self ..))
    exact ⟨_, [], rfl, .inl rfl, hrec.focus, hrec.now0, (congrArg Core.pend hrec.fcore).trans (List.append_nil _).symm, congrArg Core.xbWin hrec.fcore,
      r, e, d256, _, _, _, kiln_kilnRecord.trans hkiln⟩
  case case3 hdraws r e devs d256 beyond warn guard _ s2 _ _ =>
    cases hdraws
    exact ⟨_, [], rfl, .inl rfl, rfl, rfl, (List.append_nil _).symm, rfl, r, e, d256, _, _, _, kiln_updKiln_self ..⟩

/-- The same after the entry has opened its window: in terms of the state before. -/
theorem judgeDrift_opened (a w sh : Nat) (x : List Int) (s : State) :
    ∃ t due, judgeDrift a sh x (s.opened a w) = (!due.isEmpty, t) ∧ (due = [] ∨ due = [⟨s.now0 + 319, s.focus.org, .kilnDue a⟩])
      ∧ t.focus = s.focus ∧ t.now0 = s.now0 ∧ t.fcore.pend = s.fcore.pend ++ due ∧ SMap.get 0 t.fcore.xbWin a = s.now0 + w
      ∧ ∃ r e delta voids warns breach, t.kiln s.focus.core a = (s.kiln s.focus.core a).judged r e sh (sumAbs x) delta voids warns breach := by
  obtain ⟨t, due, hj, hvoids, hfocus, hnow, hpend, hwin, hkiln⟩ := judgeDrift_spec a sh x (s.opened a w)
  rw [now0_opened] at hvoids hnow
  rw [fcore_opened] at hpend hwin
  exact ⟨t, due, hj, hvoids, hfocus, hnow, hpend, hwin ▸ SMap.get_put_self _ _ _ _, hkiln⟩

/-! ## `xmv` (R230) -/

/-- The elements and the bound of output row `r` of an `xmv`: open where it is void (R226, R227). -/
def xmvReading (k : Kiln) (x : List Int) (sh : Nat) (void : Bool) (v : Nat → Nat) (r : Nat) : List Int × Nat :=
  if void then ((List.range 64).map (fun j => pickInt (-32767) 32767 (v (64 * r + j))), 0x7F800000)
  else readingRow (k.rowBound r (sumAbs x) sh) sh ((List.range 64).map (fun j => (k.dot x (64 * r + j), v (64 * r + j), v (512 + 64 * r + j))))

/-- Output row `r` of an `xmv` (R230). -/
def xmvRow (k : Kiln) (x : List Int) (sh : Nat) (poison void : Bool) (v : Nat → Nat) (r : Nat) : Row :=
  { intsRow .bi16 (xmvReading k x sh void v r).1 (poison || void || k.wpoison) with
    side := .ofNat 64 ((xmvReading k x sh void v r).2 + fp32.conv .rne false 0 (.fin false 1 sh) * 2 ^ 32) }

theorem xmvReading_bound_le (k : Kiln) (x : List Int) (sh : Nat) (void : Bool) (v : Nat → Nat) (r : Nat) :
    (xmvReading k x sh void v r).2 ≤ 0x7F800000 := by
  rw [xmvReading]
  split
  · exact le_rfl
  · exact readingRow_bound_le (rup32_le _)

theorem xmvRows_eq (k : Kiln) (x : List Int) (sh : Nat) (p void : Bool) (v : Nat → Nat) :
    xmvRows k x sh p void v = (List.range 8).map (xmvRow k x sh p void v) := rfl

theorem xmvRow_scale (k : Kiln) (x : List Int) (p void : Bool) (v : Nat → Nat) (r : Nat) :
    (xmvRow k x sh.toNat p void v r).side.toNat / 2 ^ 32 = (127 + sh.toNat) * 2 ^ 23 := by
  have hbound := xmvReading_bound_le k x sh.toNat void v r
  have hsh := sh.isLt
  rw [xmvRow, fp32_two_pow, BitVec.toNat_ofNat]
  omega

theorem zipIdx_map_range {α : Type} (g : Nat → α) (n : Nat) : ((List.range n).map g).zipIdx = (List.range n).map (fun r => (g r, r)) :=
  List.ext_getElem (by simp) (by simp)

/-- An array has multiplied: its readings are drawn, and the multiplication counts. -/
def State.multiplied (s : State) (arr : Nat) : State := (s.draws 1024).2.updKiln s.focus.core arr Kiln.counted

theorem multiplied_focus {a : Nat} : (s.multiplied a).focus = s.focus := rfl

theorem multiplied_now0 {a : Nat} : (s.multiplied a).now0 = s.now0 := rfl

theorem multiplied_fcore {a : Nat} : (s.multiplied a).fcore = s.fcore := rfl

theorem multiplied_kiln {a : Nat} : (s.multiplied a).kiln s.focus.core a = (s.kiln s.focus.core a).counted := kiln_updKiln_self ..

/-! ## `xrdw`, `xbound` and `xstat` (R233 to R235) -/

/-- The row that `xrdw` reads (R233). -/
def Kiln.readRow (k : Kiln) (row : BitVec 9) (q : BitVec 3) : Row :=
  intsRow .i8 (if q = 4 then (List.range 8).map (refWeight row.toNat) else (List.range 128).map (fun e => k.weight row.toNat (128 * q.toNat + e))) k.wpoison

theorem exec_xbound_of_inputs {x : List Int} {p : Bool} (hk : hasKiln arr.toNat s = true) (hu : (s.kiln s.focus.core arr.toNat).st ≠ .unfired)
    (hf : (s.kiln s.focus.core arr.toNat).st ≠ .firing) (hin : kilnInputs h s = .ok (x, p)) :
    exec (.xbound h arr sh) s = .next (giveResult 6 h.dst (rowOf .f32
      ((List.range 8).map (fun r => (s.kiln s.focus.core arr.toNat).rowBound r (sumAbs x) sh.toNat)
        ++ [f32rne (Val.ofInt (sumAbs x)), f32rne (.fin false 1 sh.toNat)]) [] p) s) := by
  refine congrArg Host.Outcome.next ((ite_of_reserved hk).trans ((if_neg (by simp [hu, hf])).trans ?_))
  simp only [hin]

theorem exec_xstat_of_reserved {sel : BitVec 3} {ix : BitVec 5} (hk : hasKiln arr.toNat s = true) : exec (.xstat h arr sel ix) s
    = .next (giveResult 4 h.dst ((s.kiln s.focus.core arr.toNat).statRow s.now sel.toNat ix.toNat) s) :=
  congrArg Host.Outcome.next (ite_of_reserved hk)

/-! ## The rows that they give -/

/-- In a row of the array the reference columns follow the low eight bits of its number (R220). -/
theorem refWeight_eq (row : Nat) {e : Nat} (he : e < 8) : refWeight row e = if row / 2 ^ e % 2 = 1 then 7 else -7 := by
  have hbit := mod_two_pow_field (w := 1) row (show e + 1 ≤ 8 by omega)
  rw [refWeight, show row % 256 / 2 ^ e % 2 = row / 2 ^ e % 2 from hbit]

theorem Kiln.weight_range (k : Kiln) (n j : Nat) : -8 ≤ k.weight n j ∧ k.weight n j < 8 := by
  unfold Kiln.weight signedOf
  omega

theorem readRow_intAt (k : Kiln) {row : BitVec 9} {q : BitVec 3} {e : Nat} (he : e < 128) : (k.readRow row q).intAt e
    = if q = 4 then (if 8 ≤ e then 0 else if row.toNat / 2 ^ e % 2 = 1 then 7 else -7) else k.weight row.toNat (128 * q.toNat + e) := by
  rw [Kiln.readRow]
  split
  next hq =>
    have hget : ((List.range 8).map (refWeight row.toNat)).getD e 0 = if 8 ≤ e then 0 else if row.toNat / 2 ^ e % 2 = 1 then 7 else -7 := by
      split
      next h8 => exact List.getD_eq_default _ _ (by simpa using h8)
      next h8 => rw [List.getD_eq_getElem _ _ (by simpa using h8), List.getElem_map, List.getElem_range, refWeight_eq _ (by omega)]
    have hrange : -128 ≤ ((List.range 8).map (refWeight row.toNat)).getD e 0 ∧ ((List.range 8).map (refWeight row.toNat)).getD e 0 < 128 := by
      rw [hget]
      split_ifs <;> decide
    rw [intsRow_i8_intAt (by simp) hrange, hget]
  next hq =>
    have hget : ((List.range 128).map (fun e => k.weight row.toNat (128 * q.toNat + e))).getD e 0 = k.weight row.toNat (128 * q.toNat + e) := by
      rw [List.getD_eq_getElem _ _ (by simpa using he), List.getElem_map, List.getElem_range]
    have hrange := k.weight_range row.toNat (128 * q.toNat + e)
    rw [intsRow_i8_intAt (by simp) (by rw [hget]; omega), hget]

theorem sumAbs_xrefInput : sumAbs xrefInput = 65024 := by decide +kernel

theorem refRow_code (k : Kiln) (p : Bool) : (k.refRow p).code 16 = k.sh % 2 ^ 32 ∧ (k.refRow p).code 17 = k.sumA % 2 ^ 32 := by
  have hcode : ∀ e, (k.refRow p).code e = _ := fun e => intsRow_code (by simp [fmtElems, fmtBits])
  exact ⟨(hcode 16).trans (wrapTo_natCast 32 k.sh), (hcode 17).trans (wrapTo_natCast 32 k.sumA)⟩

theorem xboundRow_code (k : Kiln) (a : Nat) (p : Bool) :
    let row := rowOf .f32 ((List.range 8).map (fun r => k.rowBound r a sh.toNat) ++ [f32rne (Val.ofInt a), f32rne (.fin false 1 sh.toNat)]) [] p
    row.code 9 = (127 + sh.toNat) * 2 ^ 23 ∧ ∀ e, 10 ≤ e → e < 32 → row.code e = 0 := by
  intro row
  have hcode : ∀ e, row.code e = _ := fun e => rowOf_code (by simp [fmtElems, fmtBits])
  have hsh := sh.isLt
  refine ⟨(hcode 9).trans ?_, fun e he _ => (hcode e).trans ?_⟩
  · show f32rne (.fin false 1 sh.toNat) % 2 ^ 32 = _
    rw [f32rne, fp32_two_pow]
    omega
  · rw [List.getD_eq_default _ _ (by simpa using he), Nat.zero_mod]

/-! ## The rows of `xstat` (R235) -/

theorem statRow_status (k : Kiln) (now ix : Nat) :
    let row := k.statRow now 0 ix
    row.code 1 = min k.pcount (2 ^ 31 - 1) ∧ row.code 6 = min k.mults (2 ^ 31 - 1) ∧ row.code 8 = min k.voids (2 ^ 31 - 1)
      ∧ row.code 10 = (if k.wpoison then 1 else 0) ∧ row.code 0 = k.st.code := by
  intro row
  have hcode : ∀ e, row.code e = _ := fun e => intsRow_code (by simp [fmtElems, fmtBits])
  have hsat : ∀ n, wrapTo 32 ((min n (2 ^ 31 - 1) : Nat) : Int) = min n (2 ^ 31 - 1) := fun n => (wrapTo_natCast ..).trans (Nat.mod_eq_of_lt (by omega))
  refine ⟨(hcode 1).trans (hsat _), (hcode 6).trans (hsat _), (hcode 8).trans (hsat _), (hcode 10).trans ?_, (hcode 0).trans ?_⟩
  · show wrapTo 32 (if k.wpoison then 1 else 0) = _
    split <;> rfl
  · show wrapTo 32 (k.st.code : Int) = _
    cases k.st <;> rfl

theorem statRow_beta (k : Kiln) (now : Nat) {ix e : Nat} (hix : ix < 16) (he : e < 32) :
    (k.statRow now 1 ix).code e = (SMap.get 0 k.beta (32 * ix + e)).toNat := by
  show (rowOf .f32 _ [] false).code e = _
  rw [if_pos hix]
  exact (rowOf_range_code he).trans (Nat.mod_eq_of_lt (BitVec.isLt _))

/-- A row of sixteen-bit trims. -/
theorem trimRow_code (m : SMap (BitVec 16)) {ix e : Nat} (he : e < 64) :
    (intsRow .i16 ((List.range 64).map (fun j => (SMap.get 0 m (64 * ix + j)).toInt)) false).code e = (SMap.get 0 m (64 * ix + e)).toNat := by
  rw [intsRow_code (by simp [fmtElems, fmtBits]), List.getD_eq_getElem _ _ (by simpa using he), List.getElem_map, List.getElem_range]
  exact wrapTo_toInt _

theorem statRow_gain (k : Kiln) (now : Nat) {ix : Nat} (hix : ix < 8) :
    k.statRow now 2 ix = intsRow .i16 ((List.range 64).map (fun j => (SMap.get 0 k.gain (64 * ix + j)).toInt)) false :=
  congrArg (intsRow .i16 · false) (if_pos hix)

theorem statRow_offset (k : Kiln) (now : Nat) {ix : Nat} (hix : ix < 8) :
    k.statRow now 3 ix = intsRow .i16 ((List.range 64).map (fun j => (SMap.get 0 k.offset (64 * ix + j)).toInt)) false :=
  congrArg (intsRow .i16 · false) (if_pos hix)

/-! ## The entries on an array that is ready -/

section
variable (hk : hasKiln arr.toNat s = true) (hst : (s.kiln s.focus.core arr.toNat).st = .fired) (hw : SMap.get 0 s.fcore.xbWin arr.toNat ≤ s.now0)
include hk hst hw

theorem exec_xmv_of_judged {x : List Int} {p void : Bool}
    (hin : kilnInputs h (s.opened arr.toNat 320) = .ok (x, p)) (hj : judgeDrift arr.toNat sh.toNat x (s.opened arr.toNat 320) = (void, t)) :
    exec (.xmv h arr sh) s = .next ((List.range 8).foldl
      (fun u r => giveResult (336 + r) (xmvDst h.dst r) (xmvRow (s.kiln s.focus.core arr.toNat) x sh.toNat p void (t.draws 1024).1 r) u)
      (t.multiplied arr.toNat)) := by
  refine congrArg Host.Outcome.next ((ite_of_reserved hk).trans ((kilnUse_of_fired hst hw).trans ?_))
  simp only [hin, hj, xmvRows_eq, zipIdx_map_range, List.foldl_map]
  rfl

theorem exec_xref_of_judged {void : Bool} (hj : judgeDrift arr.toNat sh.toNat xrefInput (s.opened arr.toNat 320) = (void, t)) :
    exec (.xref h arr sh) s = .next (giveResult 336 h.dst
      ((t.kiln t.focus.core arr.toNat).refRow (void || (t.kiln t.focus.core arr.toNat).wpoison)) t) := by
  refine congrArg Host.Outcome.next ((ite_of_reserved hk).trans ((kilnUse_of_fired hst hw).trans ?_))
  simp only [hj]

theorem exec_xrdw_of_fired {row : BitVec 9} {q : BitVec 3} : exec (.xrdw h arr row q) s
    = .next ((s.opened arr.toNat 40).later (s.now0 + 48)
      (.result s.focus.stn h.dst ((s.kiln s.focus.core arr.toNat).readRow row q) s.now0)) := by
  refine congrArg Host.Outcome.next ((ite_of_reserved hk).trans ((kilnUse_of_fired hst hw).trans ?_))
  rw [giveResult, now0_opened]
  rfl

theorem xmv_spec (hsa : h.sa = .ofr i) (ht : ∀ m, m < 4 → (s.ofRow (i.toNat + m)).tag = .i8) :
    ∃ t due v, exec (.xmv h arr sh) s = .next t
      ∧ (due = [] ∨ due = [⟨s.now0 + 319, s.focus.org, .kilnDue arr.toNat⟩])
      ∧ t.fcore.pend = s.fcore.pend ++ due ++ (List.range 8).map (fun r => ⟨s.now0 + (336 + r), s.focus.org, .result s.focus.stn (xmvDst h.dst r)
          (xmvRow (s.kiln s.focus.core arr.toNat) (s.inputs i.toNat) sh.toNat ((s.inputRows i.toNat).any (·.poison)) (!due.isEmpty) v r) s.now0⟩)
      ∧ SMap.get 0 t.fcore.xbWin arr.toNat = s.now0 + 320
      ∧ ∃ r e delta voids warns breach, t.kiln s.focus.core arr.toNat
          = ((s.kiln s.focus.core arr.toNat).judged r e sh.toNat (sumAbs (s.inputs i.toNat)) delta voids warns breach).counted := by
  obtain ⟨t, due, hj, hvoids, hfocus, hnow, hpend, hwin, r, e, delta, voids, warns, breach, hkiln⟩ :=
    judgeDrift_opened arr.toNat 320 sh.toNat (s.inputs i.toNat) s
  have hexec := exec_xmv_of_judged hk hst hw (kilnInputs_opened hsa ht) hj
  obtain ⟨hfcore, hkilns⟩ := foldl_giveResult (lat := (336 + ·)) (dst := xmvDst h.dst) (List.range 8)
    (row := xmvRow (s.kiln s.focus.core arr.toNat) (s.inputs i.toNat) sh.toNat ((s.inputRows i.toNat).any (·.poison)) (!due.isEmpty) (t.draws 1024).1)
    (t.multiplied arr.toNat)
  refine ⟨_, due, (t.draws 1024).1, hexec, hvoids, ?_, ?_, r, e, delta, voids, warns, breach, (kiln_of_kilns hkilns _ _).trans ?_⟩
  · rw [hfcore, multiplied_focus, multiplied_now0, multiplied_fcore, hfocus, hnow, hpend]
  · rw [hfcore]
    exact hwin
  · rw [← hkiln, ← hfocus, multiplied_kiln]

theorem xref_spec : ∃ t due, exec (.xref h arr sh) s = .next t
      ∧ (due = [] ∨ due = [⟨s.now0 + 319, s.focus.org, .kilnDue arr.toNat⟩])
      ∧ t.fcore.pend = s.fcore.pend ++ due ++ [⟨s.now0 + 336, s.focus.org, .result s.focus.stn h.dst
          ((t.kiln s.focus.core arr.toNat).refRow (!due.isEmpty || (s.kiln s.focus.core arr.toNat).wpoison)) s.now0⟩]
      ∧ ∃ r e delta voids warns breach, t.kiln s.focus.core arr.toNat
          = (s.kiln s.focus.core arr.toNat).judged r e sh.toNat 65024 delta voids warns breach := by
  obtain ⟨t, due, hj, hvoids, hfocus, hnow, hpend, hwin, r, e, delta, voids, warns, breach, hkiln⟩ :=
    judgeDrift_opened arr.toNat 320 sh.toNat xrefInput s
  have hwpoison : (t.kiln s.focus.core arr.toNat).wpoison = (s.kiln s.focus.core arr.toNat).wpoison := by rw [hkiln]; rfl
  refine ⟨_, due, exec_xref_of_judged hk hst hw hj, hvoids, ?_, r, e, delta, voids, warns, breach, ?_⟩
  · rw [giveResult, fcore_later, hpend, hfocus, hnow, hwpoison]
    rfl
  · rw [← sumAbs_xrefInput]
    exact hkiln

end

end

theorem kilnEntries : Claims.KilnEntries := by
  intro s h arr sh i c a k input poisoned opened result gives voids hk
  have hpoison : (s.inputRows i.toNat).any (·.poison) = poisoned := inputRows_poison _
  have stat : ∀ (sel : BitVec 3) (ix : BitVec 5) (good : Row → Prop), good (k.statRow s.now sel.toNat ix.toNat) → gives (.xstat h arr sel ix) 4 good :=
    fun sel ix good hgood => ⟨_, hgood, exec_xstat_of_reserved hk⟩
  refine ⟨fun hst hw => ⟨fun hsa ht => ?_, ?_, fun row q hq => ?_⟩, fun hu hf hsa ht => ?_, stat 0 0 _ ?_, fun ix hix => stat 1 ix _ ?_,
    fun ix hix => ⟨stat 2 ix _ ?_, stat 3 ix _ ?_⟩⟩
  · obtain ⟨t, due, v, hexec, hvoids, hpend, hwin, r, e, delta, voids, warns, breach, hkiln⟩ := xmv_spec (sh := sh) hk hst hw hsa ht
    refine ⟨t, due, _, hexec, hvoids, hpend, fun r _ => ⟨rfl, xmvRow_scale .., ?_⟩, hwin, congrArg Kiln.mults hkiln,
      (congrArg Kiln.cells hkiln).trans rfl, (congrArg Kiln.beta hkiln).trans rfl, congrArg Kiln.sh hkiln⟩
    rw [← hpoison]
    exact Bool.or_right_comm ..
  · obtain ⟨t, due, hexec, hvoids, hpend, r, e, delta, voids, warns, breach, hkiln⟩ := xref_spec (sh := sh) hk hst hw
    have hsh : (t.kiln c a).sh = sh.toNat := congrArg Kiln.sh hkiln
    have hsum : (t.kiln c a).sumA = 65024 := congrArg Kiln.sumA hkiln
    obtain ⟨h16, h17⟩ := refRow_code (t.kiln c a) (!due.isEmpty || k.wpoison)
    exact ⟨t, due, _, hexec, hvoids, hpend, rfl, Bool.or_comm .., h16.trans (by omega), h17.trans (by omega), hsum,
      (congrArg Kiln.cells hkiln).trans rfl⟩
  · exact ⟨k.readRow row q, exec_xrdw_of_fired hk hst hw, rfl, rfl, fun e he => readRow_intAt k he⟩
  · obtain ⟨hscale, hzero⟩ := xboundRow_code k (sumAbs (s.inputs i.toNat)) ((s.inputRows i.toNat).any (·.poison)) (sh := sh)
    exact ⟨_, ⟨rfl, hpoison, hscale, hzero⟩, exec_xbound_of_inputs hk hu hf (kilnInputs_of_i8 hsa ht)⟩
  · obtain ⟨hpcount, hmults, hvoids, hwpoison, hcode⟩ := statRow_status k s.now 0
    exact ⟨rfl, rfl, hpcount, hmults, hvoids, hwpoison, hcode.trans (by cases k.st <;> rfl)⟩
  · exact ⟨rfl, fun e he => statRow_beta k _ hix he⟩
  · rw [show k.statRow s.now (2 : BitVec 3).toNat ix.toNat = _ from statRow_gain k _ hix]
    exact ⟨rfl, fun e he => trimRow_code _ he⟩
  · rw [show k.statRow s.now (3 : BitVec 3).toNat ix.toNat = _ from statRow_offset k _ hix]
    exact ⟨rfl, fun e he => trimRow_code _ he⟩

/-- Settles O30, from its two claims. -/
theorem kilnReadings : Obligations.KilnReadings := ⟨kilnEntries, readingsWithinBound⟩

end Sys2Proof.Machine
end
